-- ==== Sys2Proof/Word.lean ====
section
/-! DEFINITION. The word types of the Kypol K40: bytes, the 32-bit words of instructions, V registers and lane
masks, and the 64-bit words of S registers, addresses and system registers (R232, R284). -/

namespace Sys2Proof

/-- One byte of memory. -/
abbrev Byte := BitVec 8

/-- A V register, an instruction word (R145, R284). -/
abbrev W32 := BitVec 32

/-- An S register, an address, a doubleword of memory (R145, R147). -/
abbrev W64 := BitVec 64

/-- A set of the 32 lanes of a group, bit L for lane L (R118). -/
abbrev Mask := BitVec 32

end Sys2Proof
end

