-- ==== Sys2Proof/Machine/Bits.lean ====
section
/-! DEFINITION. Bit fields, sign extension, byte order and lane masks: the helpers every layer shares. -/

namespace Sys2Proof.Machine

/-- Bits hi:lo of a number. -/
def bits (x hi lo : Nat) : Nat := (x >>> lo) % 2 ^ (hi + 1 - lo)

/-- Bit i of a number. -/
def bit (x i : Nat) : Bool := x.testBit i

/-- 1 for true, 0 for false (R290). -/
def b2n (b : Bool) : Nat := if b then 1 else 0

/-- The low w bits of an exact integer (R323). -/
def wrap (w : Nat) (x : Int) : Nat := (x % (2 ^ w : Nat)).toNat

/-- The two's complement value of the low w bits of x (R232). -/
def sext (w x : Nat) : Int :=
  let y := x % 2 ^ w
  if y < 2 ^ (w - 1) then (y : Int) else (y : Int) - (2 ^ w : Nat)

/-- Clamp to the signed range of w bits (R323). -/
def clampS (w : Nat) (x : Int) : Int := max (-(2 ^ (w - 1) : Nat)) (min x ((2 ^ (w - 1) : Nat) - 1))

/-- Clamp to the unsigned range of w bits (R323). -/
def clampU (w : Nat) (x : Int) : Int := max 0 (min x ((2 ^ w : Nat) - 1))

/-- The n bytes of a number, least significant first (R232). -/
def leBytes (n x : Nat) : List Byte := (List.range n).map fun k => BitVec.ofNat 8 (x >>> (8 * k))

/-- The number whose little-endian bytes are given (R232). -/
def ofLeBytes (bs : List Byte) : Nat := bs.foldr (fun b acc => b.toNat + 256 * acc) 0

/-- The lane ids of a group in ascending order (R104). -/
def lanes32 : List Nat := List.range 32

/-- Lane L is in the set. -/
def inMask (m : Mask) (L : Nat) : Bool := m.getLsbD L

/-- The set of lanes for which f holds. -/
def maskOf (f : Nat → Bool) : Mask :=
  BitVec.ofNat 32 ((lanes32.filter f).foldl (fun acc L => acc + 2 ^ L) 0)

/-- The lanes of a set in ascending order. -/
def lanesOf (m : Mask) : List Nat := lanes32.filter (inMask m)

/-- The set holding one lane. -/
def oneLane (L : Nat) : Mask := BitVec.ofNat 32 (2 ^ L)

/-- How many bits of a w-bit number are set. -/
def popCount (w x : Nat) : Nat := (List.range w).foldl (fun acc i => acc + b2n (bit x i)) 0

/-- Leading zeros of a w-bit number; w for zero (R333). -/
def leadZeros (w x : Nat) : Nat := if x = 0 then w else w - 1 - Nat.log2 x

/-- Bit i of the result is bit w − 1 − i of x (R333). -/
def bitReverse (w x : Nat) : Nat :=
  (List.range w).foldl (fun acc i => acc + b2n (bit x (w - 1 - i)) * 2 ^ i) 0

/-- The least multiple of m at or above x. -/
def roundUp (m x : Nat) : Nat := if m = 0 then x else (x + m - 1) / m * m

/-- The address as 64 bits wraps (R367). -/
def w64 (x : Nat) : W64 := BitVec.ofNat 64 x

/-- A 32-bit value from a number. -/
def w32 (x : Nat) : W32 := BitVec.ofNat 32 x

/-- Keep the first element of every run of equal values, in order. -/
def dedup (xs : List Nat) : List Nat := xs.foldl (fun acc x => if acc.contains x then acc else acc ++ [x]) []

/-- The largest of a list of times, 0 for none. -/
def maxOf (xs : List Nat) : Nat := xs.foldl max 0

/-- Insert by a rank, before elements of an equal or greater one. -/
def insBy {α : Type} (f : α → Nat) (x : α) : List α → List α
  | [] => [x]
  | y :: ys => if f x ≤ f y then x :: y :: ys else y :: insBy f x ys

/-- Sort by a rank; equal ranks keep their order. -/
def sortBy {α : Type} (f : α → Nat) (xs : List α) : List α := xs.foldr (insBy f) []

/-- The first element that satisfies the test, by position. -/
def firstIdx (n : Nat) (f : Nat → Bool) : Option Nat := (List.range n).find? f

end Sys2Proof.Machine
end

