-- ==== Sys2Proof/Syntax.lean ====
section
/-! DEFINITION. The steps of the Kypol K40: one constructor of Instr per row of the table of operations and events.
Instructions carry the fields of their word (R287–R299); device events carry what reaches the device from outside or
names the piece of state they act on. -/

namespace Sys2Proof

/-- The form of an instruction, fixed by LEN and the opcode map (R303): 64-bit, 96-bit immediate, 96-bit third source,
128-bit memory extension, 128-bit engine extension. -/
inductive Form where
  | a | i | c | m | e
  deriving DecidableEq, Repr

/-- The fields of an instruction other than OP and LEN, which the constructor and `form` fix (R287, R289, R296–R298).
`ext` holds bits 127:64; a form shorter than 128 bits leaves the bits above its length zero. -/
structure Insn where
  form  : Form := .a
  stall : BitVec 4 := 0
  y     : BitVec 1 := 0
  g     : BitVec 5 := 0b01111
  sub   : BitVec 3 := 0
  d     : BitVec 9 := 0
  dk    : BitVec 2 := 0
  a     : BitVec 9 := 0
  ak    : BitVec 2 := 0
  b     : BitVec 9 := 0
  bk    : BitVec 2 := 0
  ty    : BitVec 4 := 0
  mod   : BitVec 4 := 0
  ext   : BitVec 64 := 0
  deriving DecidableEq, Repr

/-- One compact operation of a pair word (R299). -/
structure Compact where
  cop  : BitVec 8 := 0
  g    : BitVec 5 := 0b01111
  d    : BitVec 9 := 0
  a    : BitVec 9 := 0
  b    : BitVec 9 := 0
  ty   : BitVec 4 := 0
  mod  : BitVec 4 := 0
  deriving DecidableEq, Repr

/-- A pair word: two compact operations in one issue (R299). -/
structure Pair where
  stall  : BitVec 4 := 0
  y      : BitVec 1 := 0
  first  : Compact := {}
  second : Compact := {}
  deriving DecidableEq, Repr

/-- An operand as the word names it (R290, R296): `imm` the signed 9-bit immediate, `imm32` the 32-bit immediate of
the I-form. `bad` is a field value that names none. -/
inductive Opd where
  | v (n : Nat)
  | s (n : Nat)
  | q (n : Nat)
  | t (n : Nat)
  | p (n : Nat)
  | imm (x : Int)
  | imm32 (x : Nat)
  | bad
  deriving DecidableEq, Repr

/-- The operand types of R294, both code sets. -/
inductive Ty where
  | b8 | b16 | b32 | b64 | i8 | i16 | i32 | i64 | n8 | n16 | n32 | n64 | b128
  | f32 | f16 | bf16 | f64 | f16x2 | bf16x2 | kt8x4 | e4m3x4 | e5m2x4 | kt8 | e4m3 | e5m2
  deriving DecidableEq, Repr

/-- Who sends a store that a home slice accepts (R164): a lane's request by its number, one sector of a COPY by the
job's number, or the host's or a peer's write of bytes at a physical address. -/
inductive StoreSrc where
  | lane (req : Nat)
  | copy (job sector : Nat)
  | host (pa : Nat) (bytes : List Byte)
  | fabric (req : Nat)
  deriving DecidableEq, Repr

/-- What a DRAM access of the base die finds under its code (R38). -/
inductive EccResult where
  | ok | corrected | uncorrectable
  deriving DecidableEq, Repr

/-- An SRAM error under ECC (R102): in an L2 slice; or in a core, where one is corrected, a clean copy can be fetched again (store 0
an L1 sector, 1 a constant-store sector, 2 an instruction-cache line, by number), and any other datum is lost: it belongs to a
block, by handle, or to no context. -/
inductive SramFault where
  | none | l2Corrected | l2Uncorrectable | coreCorrected
  | coreClean (store key : Nat)
  | coreLost (block : Option Nat)
  deriving DecidableEq, Repr

/-- What a base die does with the refreshes of a bank (R37): the one falling due is issued, or postponed; or one postponed earlier is
issued in a gap. -/
inductive RefreshStep where
  | issue | postpone | catchUp
  deriving DecidableEq, Repr

/-- A Turbiner packet's header fields and payload (R51). -/
structure Packet where
  status : Nat := 0
  aop    : Nat := 0
  addr   : Nat := 0
  part   : Nat := 0
  tag    : Nat := 0
  dlen   : Nat := 0
  typ    : Nat := 0
  detour : Bool := false
  vc     : Nat := 0
  src    : Nat := 0
  dest   : Nat := 0
  reserved : Nat := 0
  mask   : List Bool := []
  data   : List Byte := []
  deriving DecidableEq, Repr

/-- One step of the part: a device event or an instruction, one constructor per row of the table. -/
inductive Instr where
  -- reset and bring-up (R22, R23); the rest of these rows stand at the end
  | bringupFwVerify (activeOk otherOk : Bool)
  | bringupStacksTrained (downChannels : List Nat) (repaired : List (Nat × Nat))
  -- temperature, power and chip time (R10–R18)
  | sensorSample (d0 d1 io : Nat)
  | powerAverageCheck (watts : Nat)
  | powerOverrunRecheck (watts : Nat)
  | ctSyncMarker (off0 off1 : Int)
  -- base dies (R26–R47)
  | baseDieRequest (stack tag : Nat)
  | victimFill (stack tag : Nat)
  | discardByHypothesis (stack tag : Nat)
  | dramRequestServed (stack tag : Nat) (ecc : List EccResult)
  | frugalHoldRelease (stack tag : Nat)
  | refreshDue (channel bank : Nat) (how : RefreshStep)
  | patrolScrub (stack addr : Nat) (ecc : EccResult)
  | toggleWindowEnd (channel checkRd otherRd checkWr otherWr : Nat)
  | codeSwitchDone (channel : Nat)
  | channelRetrainDone (channel failedLow failedHigh : Nat)
  -- fabric (R50–R66)
  | fabricPacketReceive (port : Nat) (pkt : Packet)
  | fabricRequestServe (index : Nat)
  | fabricResponseReceive (pkt : Packet)
  | linkBlockSend (port : Nat)
  | linkBlockReceive (port seq slot gtag : Nat) (cipher : List Byte)
  | linkAckReceive (port seq : Nat)
  | linkNakReceive (port seq : Nat)
  | vcStopSignal (port vc : Nat) (stop : Bool)
  | fabricBucketRefill (port : Nat)
  | l2BucketRefill (slice : Nat)
  | peerRequestTimeout (tag : Nat)
  | peerResetNotice (peer : Nat)
  | portTrainingDone (port peer rtt : Nat)
  | portTrainingTimeout (port : Nat)
  | linkRecalLaneDone (port : Nat) (ok : Bool)
  -- host link (R73–R84)
  | cxlMemRead (pa : Nat)
  | cxlMemWrite (pa : Nat) (bytes : List Byte)
  | bisnpResponse (line : Nat)
  | hostLineSnoop (line : Nat)
  | chanCfgWrite (part chan : Nat) (value : W64)
  | chanDoorbell (part chan : Nat) (tail : W32)
  | chanHaltedClear (part chan : Nat)
  | chanSkip (part chan : Nat)
  | recordAtHead (part chan : Nat)
  | recordSeqRecheck (part chan : Nat)
  | syncWordPollHost (part chan : Nat)
  | recordStart (part chan : Nat)
  | markerSignal (part chan : Nat)
  -- contexts, gangs, groups (R85, R110–R125, R266)
  | gangPlace (ctx : Nat)
  | gangPreempt (ctx gang : Nat)
  | preemptSaveDone (ctx gang : Nat)
  | gangResume (ctx gang : Nat)
  | itemRefill (core : Nat)
  | groupEnd (block grp : Nat)
  | blockEnd (block : Nat)
  | contextComplete (ctx : Nat)
  -- L2, leases and replies (R161–R180)
  | l2StoreAccept (src : StoreSrc)
  | l2StoreApply (req : Nat)
  | l2LoadServe (req : Nat) (sram : SramFault)
  | l2Eviction (line : Nat)
  | leaseExpiry (core sector : Nat)
  | loadReplyArrival (req : Nat)
  | waitLimitExpiry (block grp load lane : Nat)
  | writeCompletionReturn (req : Nat)
  | translationWalkDone (core part va : Nat)
  -- engines (R170, R246–R254)
  | scratchLinePresent (job line : Nat)
  | multicastReadyMet (job : Nat)
  | copyComplete (job : Nat)
  | mmaAccept (block grp lane : Nat)
  | mmaReadCycle (core : Nat)
  | mmaCommandDone (core : Nat)
  -- hypotheses (R213–R223)
  | resolveEgressDrained (hctx : Nat)
  | resolveEffect (hctx : Nat)
  | hypIdRetire (hctx id : Nat)
  | refuteRedirect (block grp lane : Nat)
  -- asynchronous traps and wakes (R269, R270, R395, R430)
  | machineCheckTaken (block grp : Nat)
  | hostLinkTrap (block grp : Nat)
  | sleepWake (block grp lane : Nat)
  | waitevRelease (block grp lane : Nat)
  -- power commands (R87, R88)
  | powerCmdRun (state : Nat)
  -- partition registers (R154, R157, R260, R261)
  | dirtyLogCfgWrite (part : Nat) (value : W64)
  | faultRingCfgWrite (part : Nat) (value : W64)
  | tlbinvAddrPage (part : Nat) (value : W64)
  | tlbinvAddrAll (part : Nat)
  | tlbInvalidationAck (part : Nat)
  | faultReplyRetry (part id : Nat)
  | faultReplyAbort (part id : Nat)
  -- device control block (R21, R36, R41, R62, R72, R101, R211)
  | missCountRead (r c : Nat)
  | chStatusRead (channel : Nat)
  | fabPortStatusRead (port : Nat)
  | memLatencyShapeRead (part : Nat)
  | registerWrite (fn off : Nat) (value : W64)
  -- mailbox commands (R93)
  | mboxUnknownCmd (code : Nat)
  | attest (signature : List Byte)
    | fwSelfTestDone (ok : Bool)
  | coreDrainComplete (core : Nat)
  -- integer arithmetic (R326–R332)
  | iadd (w : Insn)
  | isub (w : Insn)
  | iaddc (w : Insn)
  | isubb (w : Insn)
  | imul (w : Insn)
  | imulh (w : Insn)
  | imad (w : Insn)
  | iabs (w : Insn)
  | ineg (w : Insn)
  | imin (w : Insn)
  | imax (w : Insn)
  | dp4 (w : Insn)
  | lea (w : Insn)
  | mov (w : Insn)
  | movi (w : Insn)
  -- bits and shifts (R333–R336)
  | shl (w : Insn)
  | shr (w : Insn)
  | shra (w : Insn)
  | fshf (w : Insn)
  | and (w : Insn)
  | or (w : Insn)
  | xor (w : Insn)
  | not (w : Insn)
  | bfunc (w : Insn)
  | popc (w : Insn)
  | clz (w : Insn)
  | brev (w : Insn)
  | bfx (w : Insn)
  | bfi (w : Insn)
  -- control (R340–R345)
  | bra (w : Insn)
  | brx (w : Insn)
  | call (w : Insn)
  | ret (w : Insn)
  | exit (w : Insn)
  | rejoin (w : Insn)
  | yield (w : Insn)
  | nop (w : Insn)
  | ipop (w : Insn)
  -- compare, predicate, select (R337–R339)
  | icmp (w : Insn)
  | fcmp (w : Insn)
  | plop (w : Insn)
  | sel (w : Insn)
  -- floating point (R350–R353)
  | fadd (w : Insn)
  | fsub (w : Insn)
  | fmul (w : Insn)
  | ffma (w : Insn)
  | fmin (w : Insn)
  | fmax (w : Insn)
  | fclass (w : Insn)
  | dadd (w : Insn)
  | dmul (w : Insn)
  | dfma (w : Insn)
  | frcp (w : Insn)
  | frsq (w : Insn)
  | fsqrt (w : Insn)
  | fex2 (w : Insn)
  | flg2 (w : Insn)
  | fsin (w : Insn)
  | fcos (w : Insn)
  | ftanh (w : Insn)
  -- conversion and packing (R355–R363)
  | cvt (w : Insn)
  | cvti (w : Insn)
  | pack (w : Insn)
  | unpk (w : Insn)
  | scale (w : Insn)
  | frnd (w : Insn)
  | faddPacked8 (w : Insn)
  | fsubPacked8 (w : Insn)
  | fmulPacked8 (w : Insn)
  | ffmaPacked8 (w : Insn)
  | fminPacked8 (w : Insn)
  | fmaxPacked8 (w : Insn)
  -- loads, stores, cache and guess (R370–R377)
  | ld (w : Insn)
  | lds (w : Insn)
  | ldc (w : Insn)
  | lda (w : Insn)
  | pref (w : Insn)
  | ptest (w : Insn)
  | st (w : Insn)
  | sts (w : Insn)
  | sta (w : Insn)
  | cwb (w : Insn)
  | cinv (w : Insn)
  | gtest (w : Insn)
  | demand (w : Insn)
  | accept (w : Insn)
  | gmark (w : Insn)
  -- atomics, fences, barriers, time (R381–R396)
  | atom (w : Insn)
  | red (w : Insn)
  | fence (w : Insn)
  | bari (w : Insn)
  | barv (w : Insn)
  | barw (w : Insn)
  | bart (w : Insn)
  | boinit (w : Insn)
  | sleepRel (w : Insn)
  | sleepAbs (w : Insn)
  | clkCt (w : Insn)
  | clkCyc (w : Insn)
  -- cross-lane and quad (R401–R407)
  | shfl (w : Insn)
  | vote (w : Insn)
  | matchLanes (w : Insn)
  | rdx (w : Insn)
  | scan (w : Insn)
  | elect (w : Insn)
  | qswp (w : Insn)
  | qbc (w : Insn)
  -- hypotheses (R409–R412)
  | hopen (w : Insn)
  | hopenG (w : Insn)
  | hset (w : Insn)
  | hleave (w : Insn)
  | hresolveConfirm (w : Insn)
  | hresolveRefute (w : Insn)
  | hquery (w : Insn)
  -- engines and queues (R415–R422)
  | mma (w : Insn)
  | tkpassClaim (w : Insn)
  | tkpassMat (w : Insn)
  | tkpassVec (w : Insn)
  | tkpassFree (w : Insn)
  | tktest (w : Insn)
  | copyTload (w : Insn)
  | copyTstore (w : Insn)
  | copyLin (w : Insn)
  | copyMcast (w : Insn)
  | qtry (w : Insn)
  | qcnt (w : Insn)
  -- system and traps (R425–R432)
  | srd (w : Insn)
  | swr (w : Insn)
  | trap (w : Insn)
  | bkpt (w : Insn)
  | rte (w : Insn)
  | rteNext (w : Insn)
  | tlbinvPage (w : Insn)
  | tlbinvAll (w : Insn)
  | waitev (w : Insn)
  | perfStart (w : Insn)
  | perfStop (w : Insn)
  | perfClear (w : Insn)
  | bblog (w : Insn)
  | pairWord (p : Pair)
  -- later rows of the table (R57, R74, R270, R432)
  | programRecordDue (ctx : Nat)
  | fabricWriteAckSend (index : Nat)
  | rdownResponse (line : Nat)
  -- rows with nothing to name (they stand last: the compiler numbers constructors that hold data below 245)
  | coldReset
  | warmReset
  | linkHotReset
  | bringupPllLock
  | bringupCxlTrained
  | bringupCoresReady
  | thermtripNInput
  | powerTransitionDone
  | powerCmdHold
  | powerCmdStandby
  | d3hotEntry
  | errLogPop
  | firstErrorRead
  | ctStatusRead
  | partSet
  | partClear
  | identity
  | fwStage (key signature : List Byte) (rollback version : Nat)
  | fwSwap
  | chRetrain
  | linkRecal
  | coreDrain
  | coreRestore
  | bbRead
  | errClear
  | fabTrain
  | fabKeyFirst
  | fabKeyStageReceive
  | fabKeyStageTransmit
  | fabQuiesce
  | fabSession
  | freeze
  | freezeImageDone
  | resume
  | cxlLinkRetrained
  deriving DecidableEq, Repr

end Sys2Proof
end

