-- ==== Sys2Proof/Machine/Fields.lean ====
section
/-! DEFINITION. The fields of an instruction and the checks the decoder makes on them (R287–R305 and each
instruction's own description). Every check has the name under which the decoder rejects the word. -/

namespace Sys2Proof.Machine

/-- Why bytes are not an instruction; each is ILLEGAL when an issue set reaches the word (R305). -/
inductive Reject where
  | truncated | padWord | strayPad | unassigned | wrongForm | pairLength
  | pairOpcode | pairSpare | pairField | pairDest | pairRead | pairClass
  | sub | type | mod | xmod | dest | srcA | srcB | srcC | scalar | ext | regNumber | notEncodable
  deriving DecidableEq, Repr

/-- A named check on the fields of a word. -/
abbrev Check := Reject × Bool

/-- The operand that a kind and a field name (R290). -/
def operand (k : BitVec 2) (f : BitVec 9) : Opd :=
  let n := f.toNat
  match k.toNat with
  | 0 => .v n
  | 1 => if n < 128 then .s n else .bad
  | 2 => if n < 16 then .q n else if 16 ≤ n ∧ n < 20 then .t (n - 16) else if 32 ≤ n ∧ n < 48 then .p (n - 32) else .bad
  | _ => .imm f.toInt

/-- Destination; an immediate kind names none (R290). -/
def opD (w : Insn) : Opd := if w.dk.toNat = 3 then .bad else operand w.dk w.d
def opA (w : Insn) : Opd := operand w.ak w.a
/-- Source B; IMM32 in the I-form (R296). -/
def opB (w : Insn) : Opd := if w.form = .i then .imm32 (bits w.ext.toNat 31 0) else operand w.bk w.b

/-- IMM32 of the I-form, signed (R296). -/
def disp (w : Insn) : Int := sext 32 w.ext.toNat

/-- The C field and its kind: C-form bits 72:64 and 74:73, m and e forms bits 112:104 and 114:113. -/
def fieldC (w : Insn) : BitVec 9 :=
  if w.form = .c then BitVec.ofNat 9 (bits w.ext.toNat 8 0) else BitVec.ofNat 9 (bits w.ext.toNat 48 40)
def kindC (w : Insn) : BitVec 2 :=
  if w.form = .c then BitVec.ofNat 2 (bits w.ext.toNat 10 9) else BitVec.ofNat 2 (bits w.ext.toNat 50 49)
def opC (w : Insn) : Opd := operand (kindC w) (fieldC w)

/-- XMOD of the C-form (R296). -/
def xmod (w : Insn) : Nat := bits w.ext.toNat 31 11

/-! The memory extension (R297), as bits of `ext`, which is bits 127:64. -/
def xLim (w : Insn) : Nat := bits w.ext.toNat 3 0
def xGsrc (w : Insn) : Nat := bits w.ext.toNat 5 4
def xScope (w : Insn) : Nat := bits w.ext.toNat 8 6
def xOrd (w : Insn) : Nat := bits w.ext.toNat 10 9
def xCache (w : Insn) : Nat := bits w.ext.toNat 12 11
def xHmode (w : Insn) : Nat := bits w.ext.toNat 14 13
def xOffset (w : Insn) : Int := sext 24 (bits w.ext.toNat 39 16)

/-! The engine extension (R298). -/
def eTag (w : Insn) : Nat := bits w.ext.toNat 15 0
def eGmask (w : Insn) : Nat := bits w.ext.toNat 19 16
def eRbit (w : Insn) : Nat := bits w.ext.toNat 22 20
def eForm (w : Insn) : Nat := bits w.ext.toNat 27 24
def eCs (w : Insn) : Nat := bits w.ext.toNat 34 28

/-! ## Types (R294) -/

/-- The integer code set. -/
def tyInt (c : Nat) : Option Ty :=
  [Ty.b8, .b16, .b32, .b64, .i8, .i16, .i32, .i64, .n8, .n16, .n32, .n64, .b128][c]?

/-- The float code set. -/
def tyFloat (c : Nat) : Option Ty :=
  [Ty.f32, .f16, .bf16, .f64, .f16x2, .bf16x2, .kt8x4, .e4m3x4, .e5m2x4, .kt8, .e4m3, .e5m2][c]?

/-- Operations whose TYPE is of the float set (R294): classes 0x4 and 0x5, FCMP, packed arithmetic, and ATOM, RED,
RDX and SCAN whose SUB names a floating-point operation. -/
def floatSet (op sub : Nat) : Bool :=
  op / 16 = 4 || op / 16 = 5 || op = 0x31 || (0x68 ≤ op && op ≤ 0x6D) ||
  ((op = 0xA0 || op = 0xA1) && (sub = 1 || sub = 7)) || ((op = 0xC3 || op = 0xC4) && (sub = 6 || sub = 7))

/-- The type a word names, if its code names one. -/
def tyOf (op : Nat) (w : Insn) : Option Ty :=
  if floatSet op w.sub.toNat then tyFloat w.ty.toNat else tyInt w.ty.toNat

/-- Width of a type's value in bits. -/
def tyBits : Ty → Nat
  | .b8 | .i8 | .n8 | .kt8 | .e4m3 | .e5m2 => 8
  | .b16 | .i16 | .n16 | .f16 | .bf16 => 16
  | .b64 | .i64 | .n64 | .f64 => 64
  | .b128 => 128
  | _ => 32

/-- A 64-bit operand names an even pair (R144, R290). -/
def wide (t : Ty) : Bool := tyBits t = 64

def isB : Ty → Bool | .b8 | .b16 | .b32 | .b64 | .b128 => true | _ => false
def isI : Ty → Bool | .i8 | .i16 | .i32 | .i64 => true | _ => false
def isN : Ty → Bool | .n8 | .n16 | .n32 | .n64 => true | _ => false

/-- Registers an access names (R366). -/
def nregOf (t : Ty) : Nat := if tyBits t = 128 then 4 else if tyBits t = 64 then 2 else 1

/-! ## Operand checks -/

/-- A type takes a 9-bit immediate (R291). -/
def imm9Ok : Ty → Bool
  | .f16x2 | .bf16x2 | .kt8x4 | .e4m3x4 | .e5m2x4 | .kt8 | .e4m3 | .e5m2 | .b128 => false
  | _ => true

/-- A type takes this 32-bit immediate (R291). DEDUCED (log 20). -/
def imm32Ok (t : Ty) (x : Nat) : Bool :=
  match t with
  | .kt8x4 | .e4m3x4 | .e5m2x4 | .kt8 | .e4m3 | .e5m2 | .b128 => false
  | .f16 | .bf16 | .b16 | .i16 | .n16 => decide (x < 2 ^ 16)
  | .b8 | .i8 | .n8 => decide (x < 2 ^ 8)
  | _ => true

/-- A source: V (an even pair where wide), S or an immediate the type takes. -/
def srcOk (t : Ty) (wd : Bool) : Opd → Bool
  | .v n => !wd || n % 2 == 0
  | .s _ => true
  | .imm _ => imm9Ok t
  | .imm32 x => imm32Ok t x
  | _ => false

/-- A V register, an even pair where wide. -/
def vOk (wd : Bool) : Opd → Bool
  | .v n => !wd || n % 2 == 0
  | _ => false

/-- A V register (an even pair where wide) or an S register. -/
def vsOk (wd : Bool) : Opd → Bool
  | .v n => !wd || n % 2 == 0
  | .s _ => true
  | _ => false

def isV : Opd → Bool | .v _ => true | _ => false
def isS : Opd → Bool | .s _ => true | _ => false
def isP : Opd → Bool | .p _ => true | _ => false
def isT : Opd → Bool | .t _ => true | _ => false
def isQ : Opd → Bool | .q _ => true | _ => false
/-- An S register or an immediate: what a scalar form may read (R292). -/
def sImm : Opd → Bool | .s _ | .imm _ | .imm32 _ => true | _ => false
/-- An S register or a 9-bit immediate: a member mask or an object reference (R387, R398). -/
def sImm9 : Opd → Bool | .s _ | .imm _ => true | _ => false

/-- The scalar form (R292). -/
def scalarForm (w : Insn) : Bool := w.dk.toNat == 1

def noD (w : Insn) : Check := (.dest, w.d.toNat == 0 && w.dk.toNat == 0)
def noA (w : Insn) : Check := (.srcA, w.a.toNat == 0 && w.ak.toNat == 0)
def noB (w : Insn) : Check := (.srcB, w.b.toNat == 0 && w.bk.toNat == 0)
def noC (w : Insn) : Check := (.srcC, (fieldC w).toNat == 0 && (kindC w).toNat == 0)
def subIn (w : Insn) (n : Nat) : Check := (.sub, decide (w.sub.toNat ≤ n))
def modIn (w : Insn) (n : Nat) : Check := (.mod, decide (w.mod.toNat ≤ n))
def noType (w : Insn) : Check := (.type, w.ty.toNat == 0)
def xmodIn (w : Insn) (n : Nat) : Check := (.xmod, w.form != .c || decide (xmod w ≤ n))

/-- A destination that may be V or S; where it is S every source is S or immediate (R292). -/
def dstVS (wd : Bool) (w : Insn) (srcs : List Opd) : List Check :=
  [(.dest, vsOk wd (opD w)), (.scalar, !scalarForm w || srcs.all sImm)]

/-- TYPE is one of those listed; the checks that follow take the type. -/
def typed (op : Nat) (w : Insn) (ts : List Ty) (k : Ty → List Check) : List Check :=
  match tyOf op w with
  | some t => (.type, ts.contains t) :: k t
  | none => [(.type, false)]

/-- Displacement of BRA, CALL and HOPEN: bits 1:0 zero (R296). -/
def dispOk (w : Insn) : Check := (.ext, w.ext.toNat % 4 == 0)

def ints6 : List Ty := [.b32, .b64, .i32, .i64, .n32, .n64]
def ints4 : List Ty := [.i32, .i64, .n32, .n64]
def pats2 : List Ty := [.b32, .b64]
def floats5 : List Ty := [.f32, .f16, .bf16, .f16x2, .bf16x2]
def packs3 : List Ty := [.kt8x4, .e4m3x4, .e5m2x4]

/-! ## The checks of each operation -/

/-- Two sources and a V or S destination of one width. -/
def bin (op : Nat) (w : Insn) (ts : List Ty) (m : Ty → Bool) : List Check :=
  subIn w 0 :: typed op w ts fun t =>
    [(.mod, m t), (.srcA, srcOk t (wide t) (opA w)), (.srcB, srcOk t (wide t) (opB w))] ++ dstVS (wide t) w [opA w, opB w]

/-- One source. -/
def una (op : Nat) (w : Insn) (ts : List Ty) (m : Ty → Bool) (dw : Ty → Bool) : List Check :=
  [subIn w 0, noB w] ++ typed op w ts fun t =>
    [(.mod, m t), (.srcA, srcOk t (wide t) (opA w))] ++ dstVS (dw t) w [opA w]

/-- Three sources, C-form. -/
def tern (op : Nat) (w : Insn) (ts : List Ty) (m : Ty → Bool) (xm : Nat) : List Check :=
  [subIn w 0, xmodIn w xm] ++ typed op w ts fun t =>
    [(.mod, m t), (.srcA, srcOk t (wide t) (opA w)), (.srcB, srcOk t (wide t) (opB w)),
     (.srcC, srcOk t (wide t) (opC w))] ++ dstVS (wide t) w [opA w, opB w, opC w]

/-- Shift: the amount is a 32-bit operand whatever the type (R334). -/
def shift (op : Nat) (w : Insn) (ts : List Ty) : List Check :=
  [subIn w 0, modIn w 1] ++ typed op w ts fun t =>
    [(.srcA, srcOk t (wide t) (opA w)), (.srcB, srcOk .b32 false (opB w))] ++ dstVS (wide t) w [opA w, opB w]

/-- .sat (MOD bit 0) is not allowed with a .b type (R323). -/
def satOk (w : Insn) (t : Ty) : Bool := decide (w.mod.toNat ≤ 1) && (w.mod.toNat == 0 || !isB t)

def class0 (op : Nat) (w : Insn) : List Check :=
  match op with
  | 0x00 | 0x01 => bin op w ints6 (satOk w)
  | 0x02 | 0x03 => [subIn w 0, modIn w 0, xmodIn w 15] ++ typed op w pats2 fun t =>
      [(.srcA, srcOk t (wide t) (opA w)), (.srcB, srcOk t (wide t) (opB w)), (.srcC, isP (opC w))] ++
      dstVS (wide t) w [opA w, opB w]
  | 0x04 => bin op w ints6 fun _ => w.mod.toNat == 0
  | 0x05 | 0x09 | 0x0A => bin op w ints4 fun _ => w.mod.toNat == 0
  | 0x06 => [subIn w 0, xmodIn w 0, modIn w 3] ++ typed op w ints6 fun t =>
      let wd := wide t
      let wide2 := wd || w.mod.toNat / 2 == 1
      [(.mod, (w.mod.toNat % 2 == 0 || !isB t) && (w.mod.toNat / 2 == 0 || t == .i32 || t == .n32)),
       (.srcA, srcOk t wd (opA w)), (.srcB, srcOk t wd (opB w)), (.srcC, srcOk t wide2 (opC w))] ++
      dstVS wide2 w [opA w, opB w, opC w]
  | 0x07 => una op w [.i32, .i64] (satOk w) wide
  | 0x08 => una op w [.i32, .i64, .b32, .b64] (satOk w) wide
  | 0x0B => [subIn w 3, modIn w 1, xmodIn w 0] ++ typed op w [.i32] fun t =>
      [(.srcA, srcOk t false (opA w)), (.srcB, srcOk t false (opB w)), (.srcC, w.form != .c || srcOk t false (opC w)),
       (.dest, vOk false (opD w))]
  | 0x0C => xmodIn w 0 :: typed op w pats2 fun t =>
      [(.mod, decide (w.mod.toNat ≤ 2) && (w.mod.toNat == 0 || wide t)),
       (.srcA, srcOk t (wide t && w.mod.toNat == 0) (opA w)), (.srcB, srcOk t (wide t) (opB w)),
       (.srcC, w.form != .c || srcOk t (wide t) (opC w))] ++
      dstVS (wide t) w ([opA w, opB w] ++ if w.form = .c then [opC w] else [])
  | 0x0D => [subIn w 0, modIn w 0, noB w] ++ typed op w pats2 fun t =>
      [(.srcA, match opA w with
          | .q n => decide (2 ≤ n) && vsOk (wide t) (opD w)
          | .p _ => t == .b32 && (isP (opD w) || isV (opD w))
          | o => srcOk t (wide t) o),
       (.dest, match opD w with
          | .p _ => t == .b32
          | .q n => decide (4 ≤ n)
          | o => vsOk (wide t) o),
       (.scalar, !scalarForm w || sImm (opA w) || isQ (opA w))]
  | 0x0E => [subIn w 0, modIn w 0, noA w] ++ typed op w ints6 fun t =>
      [(.ext, imm32Ok t (bits w.ext.toNat 31 0)), (.dest, vsOk (wide t) (opD w))]
  | _ => [(.unassigned, false)]

def class1 (op : Nat) (w : Insn) : List Check :=
  match op with
  | 0x10 => shift op w pats2
  | 0x11 => shift op w [.b32, .n32, .b64, .n64]
  | 0x12 => shift op w [.i32, .i64]
  | 0x13 => [subIn w 1, modIn w 1, xmodIn w 0] ++ typed op w [.b32] fun t =>
      [(.srcA, srcOk t false (opA w)), (.srcB, srcOk t false (opB w)), (.srcC, srcOk t false (opC w))] ++
      dstVS false w [opA w, opB w, opC w]
  | 0x14 | 0x15 | 0x16 => bin op w pats2 fun _ => w.mod.toNat == 0
  | 0x17 => una op w pats2 (fun _ => w.mod.toNat == 0) wide
  | 0x18 => tern op w pats2 (fun _ => w.mod.toNat == 0) 255
  | 0x19 | 0x1A => una op w pats2 (fun _ => w.mod.toNat == 0) fun _ => false
  | 0x1B => una op w pats2 (fun _ => w.mod.toNat == 0) wide
  | 0x1C => if w.form = .c then tern op w ints4 (fun _ => w.mod.toNat == 0) 0
            else bin op w ints4 fun _ => w.mod.toNat == 0
  | 0x1D => tern op w pats2 (fun _ => w.mod.toNat == 0) 0
  | _ => [(.unassigned, false)]

def class2 (op : Nat) (w : Insn) : List Check :=
  [noType w, modIn w 0, subIn w 0] ++
  match op with
  | 0x20 => [noD w, noA w, dispOk w]
  | 0x21 | 0x23 => [noD w, noB w, (.srcA, vsOk true (opA w))]
  | 0x22 => [noA w, dispOk w, (.dest, vOk true (opD w))]
  | 0x24 | 0x26 | 0x27 => [noD w, noA w, noB w]
  | 0x25 => [noD w, noB w, (.srcA, sImm9 (opA w))]
  | 0x28 => [noA w, noB w, (.dest, vOk false (opD w))]
  | _ => [(.unassigned, false)]

def class3 (op : Nat) (w : Insn) : List Check :=
  match op with
  | 0x30 => [subIn w 5, modIn w 3, (.dest, isP (opD w))] ++ typed op w ints6 fun t =>
      [(.sub, !isB t || decide (w.sub.toNat ≤ 1)), (.srcA, srcOk t (wide t) (opA w)), (.srcB, srcOk t (wide t) (opB w))]
  | 0x31 => [modIn w 3, (.dest, isP (opD w))] ++ typed op w [.f32, .f64, .f16, .bf16] fun t =>
      [(.srcA, srcOk t (wide t) (opA w)), (.srcB, srcOk t (wide t) (opB w))]
  | 0x32 => [noType w, subIn w 0, modIn w 0, xmodIn w 255, (.dest, isP (opD w)), (.srcA, isP (opA w)),
      (.srcB, isP (opB w)), (.srcC, isP (opC w))]
  | 0x33 => [subIn w 0, modIn w 0, xmodIn w 0, (.srcC, isP (opC w))] ++ typed op w pats2 fun t =>
      [(.srcA, srcOk t (wide t) (opA w)), (.srcB, srcOk t (wide t) (opB w)), (.dest, vOk (wide t) (opD w))]
  | _ => [(.unassigned, false)]

def class4 (op : Nat) (w : Insn) : List Check :=
  match op with
  | 0x40 | 0x41 | 0x42 => bin op w floats5 fun _ => true
  | 0x43 => tern op w floats5 (fun _ => true) 0
  | 0x44 | 0x45 => (.sub, decide (w.sub.toNat ≤ 1)) :: (bin op { w with sub := 0 } floats5 fun _ => w.mod.toNat % 8 == 0)
  | 0x46 => [subIn w 0, modIn w 0, noB w] ++ typed op w [.f32, .f16, .bf16, .f64, .kt8, .e4m3, .e5m2] fun t =>
      [(.srcA, srcOk t (wide t) (opA w)), (.dest, vOk false (opD w))]
  | _ => [(.unassigned, false)]

def class5 (op : Nat) (w : Insn) : List Check :=
  match op with
  | 0x50 | 0x51 => bin op w [.f64] fun _ => true
  | 0x52 => tern op w [.f64] (fun _ => true) 0
  | 0x58 | 0x5A => [subIn w 0, noB w] ++ typed op w floats5 fun t =>
      [(.srcA, srcOk t false (opA w)), (.dest, vOk false (opD w))]
  | 0x59 | 0x5B | 0x5C | 0x5D | 0x5E | 0x5F => [subIn w 0, noB w, (.mod, w.mod.toNat % 4 == 0)] ++
      typed op w floats5 fun t => [(.srcA, srcOk t false (opA w)), (.dest, vOk false (opD w))]
  | _ => [(.unassigned, false)]

/-- A register group whose first index is a multiple of n (R356). -/
def groupOk (n : Nat) : Opd → Bool | .v r => r % n == 0 | _ => false

/-- Element count of CVT and SCALE: TYPE 0, 1, 2 for 1, 2, 4 (R355). -/
def countOf (w : Insn) : Nat := 2 ^ w.ty.toNat

/-- CVT and SCALE operand roles: enc reads n registers, dec writes n (R356). -/
def cvtOps (enc : Bool) (w : Insn) : List Check :=
  let n := countOf w
  if enc then [(.srcA, groupOk n (opA w) || (n == 1 && isS (opA w))), (.dest, isV (opD w))]
  else [(.srcA, vsOk false (opA w)), (.dest, groupOk n (opD w))]

/-- The floating-point type of MOD bits 3:2 of CVTI and FRND (R360). -/
def fpxOf (w : Insn) : Ty := match w.mod.toNat / 4 with | 0 => .f32 | 1 => .f16 | 2 => .bf16 | _ => .f64

def class6 (op : Nat) (w : Insn) : List Check :=
  match op with
  | 0x60 => [noB w, (.type, decide (w.ty.toNat ≤ 2)), modIn w 1] ++ cvtOps (w.mod.toNat == 0) w
  | 0x61 =>
    let t := (tyInt w.ty.toNat).getD .b32
    noB w :: match w.sub.toNat with
    | 0 => [(.type, ints4.contains t), (.srcA, srcOk (fpxOf w) (wide (fpxOf w)) (opA w))] ++ dstVS (wide t) w [opA w]
    | 1 => [(.type, ints4.contains t), (.srcA, srcOk t (wide t) (opA w))] ++ dstVS (wide (fpxOf w)) w [opA w]
    | 2 => [noType w, modIn w 0, (.srcA, srcOk .f32 false (opA w))] ++ dstVS true w [opA w]
    | 3 => [noType w, modIn w 3, (.srcA, srcOk .f64 true (opA w))] ++ dstVS false w [opA w]
    | 4 => [noType w, modIn w 0, (.srcA, srcOk .f16 false (opA w))] ++ dstVS false w [opA w]
    | 5 => [noType w, modIn w 3, (.srcA, srcOk .f32 false (opA w))] ++ dstVS false w [opA w]
    | 6 => [noType w, modIn w 0, (.srcA, srcOk .bf16 false (opA w))] ++ dstVS false w [opA w]
    | _ => [noType w, modIn w 3, (.srcA, srcOk .f32 false (opA w))] ++ dstVS false w [opA w]
  | 0x62 => [subIn w 2, modIn w 0, xmodIn w 0, (.type, decide (w.ty.toNat ≤ 1)),
      (.srcC, w.form != .c || (w.ty.toNat == 0 && srcOk .b32 false (opC w))),
      (.srcA, srcOk .b32 false (opA w)), (.srcB, srcOk .b32 false (opB w)), (.dest, isV (opD w))]
  | 0x63 => [subIn w 0, modIn w 0] ++ typed op w [.i8, .n8, .i16, .n16] fun _ =>
      [(.srcA, srcOk .b32 false (opA w)), (.srcB, srcOk .b32 false (opB w)), (.dest, isV (opD w))]
  | 0x64 => [(.type, decide (w.ty.toNat ≤ 2)), modIn w 2, xmodIn w 0] ++
    if w.form = .c then
      [(.mod, w.mod.toNat == 1), (.type, w.ty.toNat == 0), (.srcB, srcOk .f32 false (opB w)),
       (.srcC, srcOk .f32 false (opC w))] ++ cvtOps false w
    else match w.mod.toNat with
    | 2 => [noB w, (.type, w.ty.toNat == 0), (.srcA, vsOk false (opA w)), (.dest, isV (opD w))]
    | m => (.srcB, srcOk .f32 false (opB w)) :: cvtOps (m == 0) w
  | 0x65 => [subIn w 0, noType w, noB w, (.srcA, srcOk (fpxOf w) (wide (fpxOf w)) (opA w)),
      (.dest, vOk (wide (fpxOf w)) (opD w))]
  | 0x68 | 0x69 | 0x6A => [subIn w 0] ++ typed op w packs3 fun t =>
      [(.srcA, srcOk t false (opA w)), (.srcB, srcOk t false (opB w)), (.dest, isV (opD w))]
  | 0x6B => [subIn w 0, xmodIn w 0] ++ typed op w packs3 fun t =>
      [(.srcA, srcOk t false (opA w)), (.srcB, srcOk t false (opB w)), (.srcC, srcOk t false (opC w)), (.dest, isV (opD w))]
  | 0x6C | 0x6D => [subIn w 1, (.mod, w.mod.toNat % 8 == 0)] ++ typed op w packs3 fun t =>
      [(.srcA, srcOk t false (opA w)), (.srcB, srcOk t false (opB w)), (.dest, isV (opD w))]
  | _ => [(.unassigned, false)]

/-- The types of a load or store (R366). -/
def memTypes : List Ty := [.b8, .b16, .b32, .b64, .i8, .i16, .i32, .i64, .n8, .n16, .n32, .n64, .b128]

/-- The memory extension's own rules (R297, R368): reserved bits, SCOPE, CACHE, HMODE and the ORD codes allowed. -/
def memExt (w : Insn) (ords : List Nat) (hm : Nat) : List Check :=
  [(.ext, bits w.ext.toNat 63 51 == 0 && bits w.ext.toNat 15 15 == 0 && decide (xScope w ≤ 5) &&
      (xOrd w != 0 || xScope w == 0) && xCache w != 3 && decide (xHmode w ≤ hm) && ords.contains (xOrd w))]

/-- No limit, no guess source, no C. -/
def noLimit (w : Insn) : List Check := [(.ext, xLim w == 0 && xGsrc w == 0), noC w]

/-- Limit and guess source of a load (R198, R203, R365). -/
def limitOk (w : Insn) (t : Ty) : List Check :=
  [(.ext, (xGsrc w == 0 || xLim w != 0) && (decide (xGsrc w < 2) || decide (tyBits t ≤ 32))),
   (.srcC, if xLim w = 15 && xGsrc w = 3 then vOk true (opC w)
           else if xLim w = 15 then vsOk false (opC w)
           else if xGsrc w = 3 then isV (opC w)
           else (noC w).2)]

/-- Data registers of a load or store: a group of NREG (R366). -/
def dataOk (t : Ty) : Opd → Bool
  | .v n => n % nregOf t == 0
  | .s _ => tyBits t != 128
  | .imm _ => imm9Ok t
  | _ => false

def class7 (op : Nat) (w : Insn) : List Check :=
  modIn w 0 ::
  match op with
  | 0x70 | 0x71 | 0x72 | 0x73 => [subIn w 0, noB w] ++ memExt w [0, 1] 0 ++ typed op w memTypes fun t =>
      [(.srcA, vsOk (op == 0x70 || op == 0x72) (opA w))] ++
      if scalarForm w then
        [(.dest, (op == 0x70 || op == 0x72) && isS (opD w)), (.scalar, isS (opA w)), (.type, tyBits t != 128),
         (.ext, xGsrc w == 0), noC w]
      else (.dest, isV (opD w) && dataOk t (opD w)) :: if op = 0x73 then noLimit w else limitOk w t
  | 0x74 => [subIn w 2, noType w, noD w, noB w, (.srcA, vsOk true (opA w))] ++ memExt w [0] 0 ++ noLimit w
  | 0x75 => [subIn w 2, noType w, noB w, (.dest, isP (opD w)), (.srcA, vsOk true (opA w))] ++ memExt w [0] 0 ++ noLimit w
  | _ => [(.unassigned, false)]

def class8 (op : Nat) (w : Insn) : List Check :=
  [modIn w 0, subIn w 0, noD w] ++ memExt w [0, 2] 0 ++ noLimit w ++
  match op with
  | 0x80 | 0x81 | 0x82 => (.srcA, vsOk (op == 0x80) (opA w)) :: typed op w memTypes fun t => [(.srcB, dataOk t (opB w))]
  | 0x83 | 0x84 => [noType w, (.srcA, vsOk true (opA w)), (.srcB, srcOk .b32 false (opB w))]
  | _ => [(.unassigned, false)]

def class9 (op : Nat) (w : Insn) : List Check :=
  [noType w, modIn w 0] ++
  match op with
  | 0x90 => [subIn w 0, noB w, (.dest, isP (opD w)), (.srcA, isV (opA w) || isP (opA w))]
  | 0x91 => [subIn w 1, noA w, (.dest, isV (opD w)), if w.sub.toNat = 0 then noB w else (.srcB, isP (opB w))]
  | 0x92 | 0x93 => [subIn w 0, noA w, noB w, (.dest, isV (opD w) || isP (opD w))]
  | _ => [(.unassigned, false)]

/-- SUB, MOD and TYPE of ATOM and RED (R379). -/
def atomOk (w : Insn) (t : Ty) : Bool :=
  match w.sub.toNat with
  | 0 => w.mod.toNat == 0 && ints6.contains t
  | 1 => w.mod.toNat == 0 && (t == .f32 || t == .f64)
  | 2 | 3 => ints4.contains t && w.mod.toNat == b2n (isI t)
  | 4 => decide (w.mod.toNat ≤ 2) && pats2.contains t
  | 5 | 6 => w.mod.toNat == 0 && pats2.contains t
  | _ => decide (w.mod.toNat ≤ 1) && (t == .f32 || t == .f64)

def classA (op : Nat) (w : Insn) : List Check :=
  (.ext, xGsrc w == 0) :: typed op w [.b32, .i32, .n32, .b64, .i64, .n64, .f32, .f64] fun t =>
    [(.mod, atomOk w t), (.srcA, vsOk true (opA w)), (.srcB, srcOk t (wide t) (opB w))] ++
    match op with
    | 0xA0 => memExt w [0, 1, 2, 3] 1 ++
        [(.dest, vOk (wide t) (opD w)), if w.sub.toNat = 6 then (.srcC, vsOk (wide t) (opC w)) else noC w]
    | 0xA1 => memExt w [0, 2] 1 ++ [noD w, noC w, (.sub, w.sub.toNat != 6)]
    | _ => [(.unassigned, false)]

def classB (op : Nat) (w : Insn) : List Check :=
  match op with
  | 0xB0 => [(.sub, decide (1 ≤ w.sub.toNat) && decide (w.sub.toNat ≤ 3)), modIn w 5, noType w, noD w, noA w, noB w]
  | 0xB1 => [subIn w 0, modIn w 0, noType w, noD w, noB w, (.srcA, sImm9 (opA w))]
  | 0xB2 => [subIn w 0, modIn w 0, noType w, noB w, (.dest, isV (opD w)), (.srcA, sImm9 (opA w))]
  | 0xB3 => [subIn w 0, modIn w 0, noType w, noD w, (.srcA, sImm9 (opA w)), (.srcB, srcOk .b32 false (opB w))]
  | 0xB4 => [subIn w 0, modIn w 0, noType w, (.dest, isP (opD w)), (.srcA, sImm9 (opA w)), (.srcB, srcOk .b32 false (opB w))]
  | 0xB5 => [subIn w 2, modIn w 2, noType w, noD w, (.srcA, sImm9 (opA w)), (.srcB, sImm9 (opB w))]
  | 0xB6 => [subIn w 1, modIn w 0, noType w, noD w, noB w,
      (.srcA, if w.sub.toNat = 0 then srcOk .b32 false (opA w) else vsOk true (opA w))]
  | 0xB7 => [subIn w 1, modIn w 0, noA w, noB w] ++ typed op w pats2 fun t =>
      [(.dest, if t = .b64 then vsOk true (opD w) else isV (opD w))]
  | _ => [(.unassigned, false)]

/-- SUB, MOD and TYPE of RDX and SCAN (R404). -/
def redOk (op : Nat) (w : Insn) (t : Ty) : Bool :=
  let m := w.mod.toNat
  let lo := m % 8
  (decide (m < 8) || op == 0xC4) &&
  match w.sub.toNat with
  | 0 => lo == 0 && ints6.contains t
  | 1 | 2 => lo == 0 && ints4.contains t
  | 3 | 4 | 5 => lo == 0 && pats2.contains t
  | 6 => decide (lo ≤ 3) && (t == .f32 || t == .f64)
  | _ => decide (lo ≤ 1) && (t == .f32 || t == .f64)

def classC (op : Nat) (w : Insn) : List Check :=
  match op with
  | 0xC0 => [subIn w 3, modIn w 0, (.xmod, w.form != .c || (decide (xmod w < 32) && (decide (16 ≤ xmod w) || xmod w == 0))),
      (.srcC, w.form != .c || sImm9 (opC w)), (.srcB, srcOk .b32 false (opB w))] ++ typed op w pats2 fun t =>
      [(.srcA, srcOk t (wide t) (opA w)), (.dest, vOk (wide t) (opD w))]
  | 0xC1 => [subIn w 6, modIn w 0, (.srcA, isP (opA w)), (.srcB, sImm9 (opB w))] ++
      if [3, 5, 6].contains w.sub.toNat then [(.type, w.ty.toNat == 2), (.dest, vsOk false (opD w))]
      else [noType w, (.dest, isP (opD w) || isS (opD w))]
  | 0xC2 => [subIn w 3, modIn w 0, (.srcB, sImm9 (opB w))] ++ typed op w pats2 fun t =>
      [(.srcA, srcOk t (wide t) (opA w)), (.dest, vOk false (opD w))]
  | 0xC3 | 0xC4 => (.srcB, sImm9 (opB w)) :: typed op w [.b32, .i32, .n32, .b64, .i64, .n64, .f32, .f64] fun t =>
      [(.mod, redOk op w t), (.srcA, srcOk t (wide t) (opA w)),
       (.dest, if op = 0xC3 then vsOk (wide t) (opD w) else vOk (wide t) (opD w))]
  | 0xC5 => [subIn w 1, modIn w 0, noType w, noA w, (.dest, isP (opD w)), (.srcB, sImm9 (opB w))]
  | 0xC6 => [subIn w 2, modIn w 0, noB w] ++ typed op w pats2 fun t =>
      [(.srcA, srcOk t (wide t) (opA w)), (.dest, vOk (wide t) (opD w))]
  | 0xC7 => [subIn w 0, modIn w 0, (.srcB, srcOk .b32 false (opB w))] ++ typed op w pats2 fun t =>
      [(.srcA, srcOk t (wide t) (opA w)), (.dest, vOk (wide t) (opD w))]
  | _ => [(.unassigned, false)]

def classD (op : Nat) (w : Insn) : List Check :=
  noType w ::
  match op with
  | 0xD0 => [subIn w 1, (.dest, isV (opD w)), dispOk w, if w.sub.toNat = 0 then noA w else (.srcA, isV (opA w))]
  | 0xD1 => [subIn w 0, modIn w 0, noD w, noB w, (.srcA, srcOk .b32 false (opA w))]
  | 0xD2 => [subIn w 0, modIn w 0, noD w, noA w, noB w]
  | 0xD3 => [subIn w 1, modIn w 0, noB w, (.dest, isP (opD w)), (.srcA, srcOk .b32 false (opA w))]
  | 0xD4 => [subIn w 1, modIn w 0, (.srcA, srcOk .b32 false (opA w))] ++
      if w.sub.toNat = 0 then [noB w, (.dest, isV (opD w))]
      else [(.srcB, srcOk .b32 false (opB w)), (.dest, isP (opD w))]
  | _ => [(.unassigned, false)]

/-- The fields each form of COPY uses (R298, R418). -/
def copyOk (w : Insn) : List Check :=
  [subIn w 0, modIn w 0, noD w,
   (.ext, bits w.ext.toNat 63 51 == 0 && bits w.ext.toNat 39 35 == 0 && bits w.ext.toNat 23 23 == 0 && decide (eForm w ≤ 3) &&
      (if eForm w = 3 then eGmask w != 0 else eGmask w == 0 && eRbit w == 0) && (eForm w != 2 || eCs w == 0))] ++
  match eForm w with
  | 0 | 1 => [(.srcA, srcOk .b32 false (opA w)), (.srcB, vsOk true (opB w)), noC w]
  | 2 => [(.srcA, vsOk true (opA w)), (.srcB, vsOk true (opB w)), (.srcC, srcOk .b32 false (opC w))]
  | _ => [(.srcA, srcOk .b32 false (opA w)), (.srcB, srcOk .b32 false (opB w)), noC w]

def classE (op : Nat) (w : Insn) : List Check :=
  noType w ::
  match op with
  | 0xE0 => [subIn w 0, modIn w 0, noD w, noB w, (.srcA, srcOk .b32 false (opA w))]
  | 0xE1 => [subIn w 3, modIn w 0, (.srcA, isT (opA w)), if w.sub.toNat = 0 then (.dest, isP (opD w)) else noD w,
      if w.sub.toNat = 2 then (.srcB, sImm9 (opB w)) else noB w]
  | 0xE2 => [subIn w 1, modIn w 0, noB w, (.srcA, isT (opA w)),
      (.dest, if w.sub.toNat = 0 then isV (opD w) else isP (opD w))]
  | 0xE3 => copyOk w
  | 0xE4 => [subIn w 1, noB w, (.srcA, match opA w with | .q n => decide (2 ≤ n) | _ => false),
      (.dest, vOk (w.sub.toNat == 1) (opD w))]
  | 0xE5 => [subIn w 0, modIn w 0, noB w, (.srcA, isQ (opA w)), (.dest, vsOk false (opD w))]
  | _ => [(.unassigned, false)]

/-- Width in bits of a system register read by SRD; none for a number the table does not list (R424). -/
def srWidth (n : Nat) : Option Nat :=
  if [0x000, 0x001, 0x003, 0x004, 0x006, 0x01C, 0x022, 0x023, 0x030, 0x040, 0x041].contains n then some 32
  else if [0x002, 0x005, 0x007, 0x01D, 0x020, 0x021, 0x042, 0x043].contains n || (0x010 ≤ n && n ≤ 0x01B) ||
    (0x050 ≤ n && n ≤ 0x053) then some 64
  else none

def classF (op : Nat) (w : Insn) : List Check :=
  noType w ::
  match op with
  | 0xF0 => [subIn w 0, modIn w 0, noB w, (.srcA, w.ak.toNat == 3), (.regNumber, (srWidth w.a.toNat).isSome),
      (.dest, vsOk (srWidth w.a.toNat == some 64) (opD w)), (.scalar, !scalarForm w || decide (0x10 ≤ w.a.toNat))]
  | 0xF1 => [subIn w 0, modIn w 0, noD w, (.srcA, w.ak.toNat == 3), (.regNumber, [0x021, 0x022, 0x030].contains w.a.toNat),
      (.srcB, srcOk .b32 (w.a.toNat == 0x021) (opB w))]
  -- A is an immediate; a missing n encodes as all zero (R427 and its encoding table)
  | 0xF2 | 0xF6 => [subIn w 0, modIn w 0, noD w, noB w, (.srcA, w.ak.toNat == 3 || (noA w).2)]
  | 0xF3 => [subIn w 1, modIn w 0, noD w, noA w, noB w]
  | 0xF4 => [subIn w 1, modIn w 0, noD w, noB w, if w.sub.toNat = 0 then (.srcA, vsOk true (opA w)) else noA w]
  | 0xF5 => [subIn w 0, modIn w 0, (.dest, isV (opD w)), (.srcA, sImm9 (opA w)), (.srcB, srcOk .b32 false (opB w))]
  | 0xF7 => [subIn w 2, modIn w 0, noD w, (.srcA, w.ak.toNat == 3 && decide (w.a.toNat ≤ 3)),
      if w.sub.toNat = 0 then (.srcB, sImm9 (opB w)) else noB w]
  | 0xF8 => [subIn w 0, modIn w 0, noD w, (.srcA, srcOk .b32 false (opA w)), (.srcB, vsOk true (opB w))]
  | _ => [(.unassigned, false)]

/-- The forms an OP accepts; none where the cell is unassigned (R303). -/
def formsOf (op : Nat) : List Form :=
  if op ∈ [0x00, 0x01, 0x04, 0x05, 0x09, 0x0A, 0x10, 0x11, 0x12, 0x14, 0x15, 0x16, 0x30, 0x31, 0x40, 0x41, 0x42, 0x44, 0x45]
  then [.a, .i]
  else if op ∈ [0x02, 0x03, 0x06, 0x13, 0x18, 0x1D, 0x32, 0x33, 0x43, 0x52, 0x6B] then [.c]
  else if op ∈ [0x0B, 0x0C, 0x1C, 0x62, 0x64, 0xC0] then [.a, .c]
  else if op ∈ [0x0E, 0x20, 0x22, 0xD0] then [.i]
  else if op ∈ [0x70, 0x71, 0x72, 0x73, 0x74, 0x75, 0x80, 0x81, 0x82, 0x83, 0x84, 0xA0, 0xA1] then [.m]
  else if op = 0xE3 then [.e]
  else if op ∈ [0x07, 0x08, 0x0D, 0x17, 0x19, 0x1A, 0x1B, 0x21, 0x23, 0x24, 0x25, 0x26, 0x27, 0x28, 0x46, 0x50, 0x51,
    0x58, 0x59, 0x5A, 0x5B, 0x5C, 0x5D, 0x5E, 0x5F, 0x60, 0x61, 0x63, 0x65, 0x68, 0x69, 0x6A, 0x6C, 0x6D,
    0x90, 0x91, 0x92, 0x93, 0xB0, 0xB1, 0xB2, 0xB3, 0xB4, 0xB5, 0xB6, 0xB7, 0xC1, 0xC2, 0xC3, 0xC4, 0xC5, 0xC6, 0xC7,
    0xD1, 0xD2, 0xD3, 0xD4, 0xE0, 0xE1, 0xE2, 0xE4, 0xE5, 0xF0, 0xF1, 0xF2, 0xF3, 0xF4, 0xF5, 0xF6, 0xF7, 0xF8] then [.a]
  else []

/-- Words of each form: 64, 96 or 128 bits (R284). -/
def formBytes : Form → Nat | .a => 8 | .i | .c => 12 | .m | .e => 16

/-- What a form leaves above its length is zero, and the I-form keeps B zero (R296). -/
def shapeOk (w : Insn) : Check :=
  match w.form with
  | .a => (.ext, w.ext.toNat == 0)
  | .i => (.srcB, decide (w.ext.toNat < 2 ^ 32) && w.b.toNat == 0 && w.bk.toNat == 0)
  | .c => (.ext, decide (w.ext.toNat < 2 ^ 32))
  | .m | .e => (.ext, true)

/-- Every check of an operation on its fields (R290–R298). -/
def fieldChecks (op : Nat) (w : Insn) : List Check :=
  (.wrongForm, (formsOf op).contains w.form) :: shapeOk w ::
  match op / 16 with
  | 0x0 => class0 op w
  | 0x1 => class1 op w
  | 0x2 => class2 op w
  | 0x3 => class3 op w
  | 0x4 => class4 op w
  | 0x5 => class5 op w
  | 0x6 => class6 op w
  | 0x7 => class7 op w
  | 0x8 => class8 op w
  | 0x9 => class9 op w
  | 0xA => classA op w
  | 0xB => classB op w
  | 0xC => classC op w
  | 0xD => classD op w
  | 0xE => classE op w
  | _ => classF op w

/-- The first check that fails. -/
def firstFail (cs : List Check) : Option Reject := (cs.find? fun c => !c.2).map Prod.fst

/-! ## Pair words (R299–R301) -/

/-- The operation and fields that a compact operation stands for (R300): every operand of kind V, SUB 0; compact FFMA
reads D as its third source. -/
def compactInsn (c : Compact) : Insn :=
  let base : Insn := { g := c.g, d := c.d, a := c.a, b := c.b, ty := c.ty, mod := c.mod }
  if c.cop.toNat = 0x43 then { base with form := .c, ext := BitVec.ofNat 64 c.d.toNat } else base

def pairArith : List Nat := [0x00, 0x01, 0x04, 0x09, 0x0A, 0x40, 0x41, 0x42, 0x43, 0x44, 0x45]
def pairLogic : List Nat := [0x0D, 0x10, 0x11, 0x12, 0x14, 0x15, 0x16, 0x17]
def pairOther : List Nat := [0x61, 0x58, 0x59, 0x5B, 0x5C, 0x5F]
/-- Compact operations of one source (R301). -/
def pairOneSource : List Nat := [0x0D, 0x17, 0x61, 0x58, 0x59, 0x5B, 0x5C, 0x5F]

def compactKnown (c : Compact) : Bool := (pairArith ++ pairLogic ++ pairOther).contains c.cop.toNat

/-- Check 2: the type is 32 bits wide or narrower, and the fields are those of the operation (R301). -/
def compactOk (c : Compact) : Bool :=
  let op := c.cop.toNat
  let w := compactInsn c
  let t := (tyOf op w).getD .b128
  [Ty.b32, .i32, .n32, .f32, .f16, .bf16, .f16x2, .bf16x2].contains t && ((fieldChecks op w).all fun k => k.2) &&
  (op != 0x61 || decide (c.mod.toNat < 12)) && (!pairOneSource.contains op || c.b.toNat == 0)

/-- The registers a compact operation reads (R301). -/
def compactReads (c : Compact) : List Nat :=
  let op := c.cop.toNat
  [c.a.toNat] ++ (if pairOneSource.contains op then [] else [c.b.toNat]) ++ (if op = 0x43 then [c.d.toNat] else [])

/-- Check 4: no bank supplies more than two distinct registers (R301, R144). -/
def banksOk (p : Pair) : Bool :=
  let rs := dedup (compactReads p.first ++ compactReads p.second)
  (List.range 4).all fun k => decide ((rs.filter fun r => r % 4 = k).length ≤ 2)

/-- The checks of a pair word, in their order (R301). -/
def pairChecks (p : Pair) : List Check :=
  [(.pairOpcode, compactKnown p.first && compactKnown p.second),
   (.pairField, compactOk p.first && compactOk p.second),
   (.pairDest, p.first.d.toNat % 4 != p.second.d.toNat % 4),
   (.pairRead, banksOk p),
   (.pairClass, pairArith.contains p.first.cop.toNat || pairArith.contains p.second.cop.toNat)]

end Sys2Proof.Machine
end

