-- ==== Sys2Proof/WellFormed.lean ====
section
/-! DEFINITION. Well-formed instructions: those whose fields pass every check of the encoding (R290–R301). The checks
themselves stand in Machine/Fields.lean. -/

namespace Sys2Proof

open Sys2Proof.Machine

/-- The major opcode and the fields of an instruction; none for a device event or a pair word. -/
def instrParts : Instr → Option (Nat × Insn)
  | .iadd w => some (0x00, w)
  | .isub w => some (0x01, w)
  | .iaddc w => some (0x02, w)
  | .isubb w => some (0x03, w)
  | .imul w => some (0x04, w)
  | .imulh w => some (0x05, w)
  | .imad w => some (0x06, w)
  | .iabs w => some (0x07, w)
  | .ineg w => some (0x08, w)
  | .imin w => some (0x09, w)
  | .imax w => some (0x0A, w)
  | .dp4 w => some (0x0B, w)
  | .lea w => some (0x0C, w)
  | .mov w => some (0x0D, w)
  | .movi w => some (0x0E, w)
  | .shl w => some (0x10, w)
  | .shr w => some (0x11, w)
  | .shra w => some (0x12, w)
  | .fshf w => some (0x13, w)
  | .and w => some (0x14, w)
  | .or w => some (0x15, w)
  | .xor w => some (0x16, w)
  | .not w => some (0x17, w)
  | .bfunc w => some (0x18, w)
  | .popc w => some (0x19, w)
  | .clz w => some (0x1A, w)
  | .brev w => some (0x1B, w)
  | .bfx w => some (0x1C, w)
  | .bfi w => some (0x1D, w)
  | .bra w => some (0x20, w)
  | .brx w => some (0x21, w)
  | .call w => some (0x22, w)
  | .ret w => some (0x23, w)
  | .exit w => some (0x24, w)
  | .rejoin w => some (0x25, w)
  | .yield w => some (0x26, w)
  | .nop w => some (0x27, w)
  | .ipop w => some (0x28, w)
  | .icmp w => some (0x30, w)
  | .fcmp w => some (0x31, w)
  | .plop w => some (0x32, w)
  | .sel w => some (0x33, w)
  | .fadd w => some (0x40, w)
  | .fsub w => some (0x41, w)
  | .fmul w => some (0x42, w)
  | .ffma w => some (0x43, w)
  | .fmin w => some (0x44, w)
  | .fmax w => some (0x45, w)
  | .fclass w => some (0x46, w)
  | .dadd w => some (0x50, w)
  | .dmul w => some (0x51, w)
  | .dfma w => some (0x52, w)
  | .frcp w => some (0x58, w)
  | .frsq w => some (0x59, w)
  | .fsqrt w => some (0x5A, w)
  | .fex2 w => some (0x5B, w)
  | .flg2 w => some (0x5C, w)
  | .fsin w => some (0x5D, w)
  | .fcos w => some (0x5E, w)
  | .ftanh w => some (0x5F, w)
  | .cvt w => some (0x60, w)
  | .cvti w => some (0x61, w)
  | .pack w => some (0x62, w)
  | .unpk w => some (0x63, w)
  | .scale w => some (0x64, w)
  | .frnd w => some (0x65, w)
  | .faddPacked8 w => some (0x68, w)
  | .fsubPacked8 w => some (0x69, w)
  | .fmulPacked8 w => some (0x6A, w)
  | .ffmaPacked8 w => some (0x6B, w)
  | .fminPacked8 w => some (0x6C, w)
  | .fmaxPacked8 w => some (0x6D, w)
  | .ld w => some (0x70, w)
  | .lds w => some (0x71, w)
  | .ldc w => some (0x72, w)
  | .lda w => some (0x73, w)
  | .pref w => some (0x74, w)
  | .ptest w => some (0x75, w)
  | .st w => some (0x80, w)
  | .sts w => some (0x81, w)
  | .sta w => some (0x82, w)
  | .cwb w => some (0x83, w)
  | .cinv w => some (0x84, w)
  | .gtest w => some (0x90, w)
  | .demand w => some (0x91, w)
  | .accept w => some (0x92, w)
  | .gmark w => some (0x93, w)
  | .atom w => some (0xA0, w)
  | .red w => some (0xA1, w)
  | .fence w => some (0xB0, w)
  | .bari w => some (0xB1, w)
  | .barv w => some (0xB2, w)
  | .barw w => some (0xB3, w)
  | .bart w => some (0xB4, w)
  | .boinit w => some (0xB5, w)
  | .sleepRel w => some (0xB6, w)
  | .sleepAbs w => some (0xB6, w)
  | .clkCt w => some (0xB7, w)
  | .clkCyc w => some (0xB7, w)
  | .shfl w => some (0xC0, w)
  | .vote w => some (0xC1, w)
  | .matchLanes w => some (0xC2, w)
  | .rdx w => some (0xC3, w)
  | .scan w => some (0xC4, w)
  | .elect w => some (0xC5, w)
  | .qswp w => some (0xC6, w)
  | .qbc w => some (0xC7, w)
  | .hopen w => some (0xD0, w)
  | .hopenG w => some (0xD0, w)
  | .hset w => some (0xD1, w)
  | .hleave w => some (0xD2, w)
  | .hresolveConfirm w => some (0xD3, w)
  | .hresolveRefute w => some (0xD3, w)
  | .hquery w => some (0xD4, w)
  | .mma w => some (0xE0, w)
  | .tkpassClaim w => some (0xE1, w)
  | .tkpassMat w => some (0xE1, w)
  | .tkpassVec w => some (0xE1, w)
  | .tkpassFree w => some (0xE1, w)
  | .tktest w => some (0xE2, w)
  | .copyTload w => some (0xE3, w)
  | .copyTstore w => some (0xE3, w)
  | .copyLin w => some (0xE3, w)
  | .copyMcast w => some (0xE3, w)
  | .qtry w => some (0xE4, w)
  | .qcnt w => some (0xE5, w)
  | .srd w => some (0xF0, w)
  | .swr w => some (0xF1, w)
  | .trap w => some (0xF2, w)
  | .rte w => some (0xF3, w)
  | .rteNext w => some (0xF3, w)
  | .tlbinvPage w => some (0xF4, w)
  | .tlbinvAll w => some (0xF4, w)
  | .waitev w => some (0xF5, w)
  | .bkpt w => some (0xF6, w)
  | .perfStart w => some (0xF7, w)
  | .perfStop w => some (0xF7, w)
  | .perfClear w => some (0xF7, w)
  | .bblog w => some (0xF8, w)
  | _ => none

/-- SUB, or FORM of COPY, is the one that the constructor stands for where several share an OP (R303). -/
def selectOk : Instr → Bool
  | .sleepRel w => w.sub.toNat == 0
  | .sleepAbs w => w.sub.toNat == 1
  | .clkCt w => w.sub.toNat == 0
  | .clkCyc w => w.sub.toNat == 1
  | .hopen w => w.sub.toNat == 0
  | .hopenG w => w.sub.toNat == 1
  | .hresolveConfirm w => w.sub.toNat == 0
  | .hresolveRefute w => w.sub.toNat == 1
  | .tkpassClaim w => w.sub.toNat == 0
  | .tkpassMat w => w.sub.toNat == 1
  | .tkpassVec w => w.sub.toNat == 2
  | .tkpassFree w => w.sub.toNat == 3
  | .copyTload w => eForm w == 0
  | .copyTstore w => eForm w == 1
  | .copyLin w => eForm w == 2
  | .copyMcast w => eForm w == 3
  | .rte w => w.sub.toNat == 0
  | .rteNext w => w.sub.toNat == 1
  | .tlbinvPage w => w.sub.toNat == 0
  | .tlbinvAll w => w.sub.toNat == 1
  | .perfStart w => w.sub.toNat == 0
  | .perfStop w => w.sub.toNat == 1
  | .perfClear w => w.sub.toNat == 2
  | _ => true

/-- Every check that the decoder makes on an instruction's fields. -/
def wfChecks (i : Instr) : List Check :=
  match i with
  | .pairWord p => pairChecks p
  | _ => match instrParts i with
    | some (op, w) => (Reject.sub, selectOk i) :: fieldChecks op w
    | none => [(.notEncodable, false)]

/-- An instruction is well formed when every check holds. -/
def wellFormed (i : Instr) : Bool := (wfChecks i).all fun c => c.2

end Sys2Proof
end

