-- ==== Sys2Proof/Decode.lean ====
section
/-! DEFINITION. Decoding, total on any bytes (R284–R305): a word is an instruction or is rejected by name. After it
the encoder, from the same tables. -/

namespace Sys2Proof

open Sys2Proof.Machine

/-- The instruction of an OP and its fields, where SUB, or FORM of COPY, tells apart what shares an OP (R303). -/
def mkInstr (op : Nat) (w : Insn) : Option Instr :=
  match op with
  | 0x00 => some (.iadd w)
  | 0x01 => some (.isub w)
  | 0x02 => some (.iaddc w)
  | 0x03 => some (.isubb w)
  | 0x04 => some (.imul w)
  | 0x05 => some (.imulh w)
  | 0x06 => some (.imad w)
  | 0x07 => some (.iabs w)
  | 0x08 => some (.ineg w)
  | 0x09 => some (.imin w)
  | 0x0A => some (.imax w)
  | 0x0B => some (.dp4 w)
  | 0x0C => some (.lea w)
  | 0x0D => some (.mov w)
  | 0x0E => some (.movi w)
  | 0x10 => some (.shl w)
  | 0x11 => some (.shr w)
  | 0x12 => some (.shra w)
  | 0x13 => some (.fshf w)
  | 0x14 => some (.and w)
  | 0x15 => some (.or w)
  | 0x16 => some (.xor w)
  | 0x17 => some (.not w)
  | 0x18 => some (.bfunc w)
  | 0x19 => some (.popc w)
  | 0x1A => some (.clz w)
  | 0x1B => some (.brev w)
  | 0x1C => some (.bfx w)
  | 0x1D => some (.bfi w)
  | 0x20 => some (.bra w)
  | 0x21 => some (.brx w)
  | 0x22 => some (.call w)
  | 0x23 => some (.ret w)
  | 0x24 => some (.exit w)
  | 0x25 => some (.rejoin w)
  | 0x26 => some (.yield w)
  | 0x27 => some (.nop w)
  | 0x28 => some (.ipop w)
  | 0x30 => some (.icmp w)
  | 0x31 => some (.fcmp w)
  | 0x32 => some (.plop w)
  | 0x33 => some (.sel w)
  | 0x40 => some (.fadd w)
  | 0x41 => some (.fsub w)
  | 0x42 => some (.fmul w)
  | 0x43 => some (.ffma w)
  | 0x44 => some (.fmin w)
  | 0x45 => some (.fmax w)
  | 0x46 => some (.fclass w)
  | 0x50 => some (.dadd w)
  | 0x51 => some (.dmul w)
  | 0x52 => some (.dfma w)
  | 0x58 => some (.frcp w)
  | 0x59 => some (.frsq w)
  | 0x5A => some (.fsqrt w)
  | 0x5B => some (.fex2 w)
  | 0x5C => some (.flg2 w)
  | 0x5D => some (.fsin w)
  | 0x5E => some (.fcos w)
  | 0x5F => some (.ftanh w)
  | 0x60 => some (.cvt w)
  | 0x61 => some (.cvti w)
  | 0x62 => some (.pack w)
  | 0x63 => some (.unpk w)
  | 0x64 => some (.scale w)
  | 0x65 => some (.frnd w)
  | 0x68 => some (.faddPacked8 w)
  | 0x69 => some (.fsubPacked8 w)
  | 0x6A => some (.fmulPacked8 w)
  | 0x6B => some (.ffmaPacked8 w)
  | 0x6C => some (.fminPacked8 w)
  | 0x6D => some (.fmaxPacked8 w)
  | 0x70 => some (.ld w)
  | 0x71 => some (.lds w)
  | 0x72 => some (.ldc w)
  | 0x73 => some (.lda w)
  | 0x74 => some (.pref w)
  | 0x75 => some (.ptest w)
  | 0x80 => some (.st w)
  | 0x81 => some (.sts w)
  | 0x82 => some (.sta w)
  | 0x83 => some (.cwb w)
  | 0x84 => some (.cinv w)
  | 0x90 => some (.gtest w)
  | 0x91 => some (.demand w)
  | 0x92 => some (.accept w)
  | 0x93 => some (.gmark w)
  | 0xA0 => some (.atom w)
  | 0xA1 => some (.red w)
  | 0xB0 => some (.fence w)
  | 0xB1 => some (.bari w)
  | 0xB2 => some (.barv w)
  | 0xB3 => some (.barw w)
  | 0xB4 => some (.bart w)
  | 0xB5 => some (.boinit w)
  | 0xB6 => match w.sub.toNat with | 0 => some (.sleepRel w) | 1 => some (.sleepAbs w) | _ => none
  | 0xB7 => match w.sub.toNat with | 0 => some (.clkCt w) | 1 => some (.clkCyc w) | _ => none
  | 0xC0 => some (.shfl w)
  | 0xC1 => some (.vote w)
  | 0xC2 => some (.matchLanes w)
  | 0xC3 => some (.rdx w)
  | 0xC4 => some (.scan w)
  | 0xC5 => some (.elect w)
  | 0xC6 => some (.qswp w)
  | 0xC7 => some (.qbc w)
  | 0xD0 => match w.sub.toNat with | 0 => some (.hopen w) | 1 => some (.hopenG w) | _ => none
  | 0xD1 => some (.hset w)
  | 0xD2 => some (.hleave w)
  | 0xD3 => match w.sub.toNat with | 0 => some (.hresolveConfirm w) | 1 => some (.hresolveRefute w) | _ => none
  | 0xD4 => some (.hquery w)
  | 0xE0 => some (.mma w)
  | 0xE1 => match w.sub.toNat with | 0 => some (.tkpassClaim w) | 1 => some (.tkpassMat w) | 2 => some (.tkpassVec w) | 3 => some (.tkpassFree w) | _ => none
  | 0xE2 => some (.tktest w)
  | 0xE3 => match eForm w with | 0 => some (.copyTload w) | 1 => some (.copyTstore w) | 2 => some (.copyLin w) | 3 => some (.copyMcast w) | _ => none
  | 0xE4 => some (.qtry w)
  | 0xE5 => some (.qcnt w)
  | 0xF0 => some (.srd w)
  | 0xF1 => some (.swr w)
  | 0xF2 => some (.trap w)
  | 0xF3 => match w.sub.toNat with | 0 => some (.rte w) | 1 => some (.rteNext w) | _ => none
  | 0xF4 => match w.sub.toNat with | 0 => some (.tlbinvPage w) | 1 => some (.tlbinvAll w) | _ => none
  | 0xF5 => some (.waitev w)
  | 0xF6 => some (.bkpt w)
  | 0xF7 => match w.sub.toNat with | 0 => some (.perfStart w) | 1 => some (.perfStop w) | 2 => some (.perfClear w) | _ => none
  | 0xF8 => some (.bblog w)
  | _ => none

/-- The form that LEN gives an OP (R287, R303). -/
def formOf (op len : Nat) : Form :=
  match len with
  | 0 => .a
  | 1 => if (formsOf op).contains .i then .i else .c
  | _ => if op = 0xE3 then .e else .m

/-- The fields of a word other than OP and LEN (R287, R289). -/
def fieldsOf (f : Form) (x : Nat) : Insn :=
  { form := f
    stall := BitVec.ofNat 4 (bits x 5 2), y := BitVec.ofNat 1 (bits x 6 6), g := BitVec.ofNat 5 (bits x 19 15)
    sub := BitVec.ofNat 3 (bits x 31 29), d := BitVec.ofNat 9 (bits x 28 20), dk := BitVec.ofNat 2 (bits x 51 50)
    a := BitVec.ofNat 9 (bits x 40 32), ak := BitVec.ofNat 2 (bits x 53 52)
    b := BitVec.ofNat 9 (bits x 49 41), bk := BitVec.ofNat 2 (bits x 55 54)
    ty := BitVec.ofNat 4 (bits x 59 56), mod := BitVec.ofNat 4 (bits x 63 60)
    ext := BitVec.ofNat 64 (bits x 127 64) }

/-- A compact operation whose lowest bit is bit 0 of x (R299). -/
def compactOf (x : Nat) : Compact :=
  { cop := BitVec.ofNat 8 (bits x 7 0), g := BitVec.ofNat 5 (bits x 12 8), d := BitVec.ofNat 9 (bits x 21 13)
    a := BitVec.ofNat 9 (bits x 30 22), b := BitVec.ofNat 9 (bits x 39 31)
    ty := BitVec.ofNat 4 (bits x 43 40), mod := BitVec.ofNat 4 (bits x 47 44) }

/-- The pair word of 128 bits (R299). -/
def pairOf (x : Nat) : Pair :=
  { stall := BitVec.ofNat 4 (bits x 5 2), y := BitVec.ofNat 1 (bits x 6 6)
    first := compactOf (bits x 62 15), second := compactOf (bits x 110 63) }

/-- A pair word: LEN, then the checks of R301 in their order. -/
def decodePair (len x : Nat) : Except Reject Instr :=
  let p := pairOf x
  if len ≠ 2 then .error .pairLength
  else if !(compactKnown p.first && compactKnown p.second) then .error .pairOpcode
  else if bits x 127 111 ≠ 0 then .error .pairSpare
  else match firstFail (pairChecks p) with
  | some r => .error r
  | none => .ok (.pairWord p)

/-- Any other word (R305): the OP is assigned, LEN gives a form it lists, and every field check holds. -/
def decodeOne (op len x : Nat) : Except Reject Instr :=
  if (formsOf op).isEmpty then .error .unassigned
  else
    let w := fieldsOf (formOf op len) x
    match firstFail (fieldChecks op w) with
    | some r => .error r
    | none => match mkInstr op w with
      | some i => .ok i
      | none => .error .sub

/-- Decode an instruction whose bits are x, LEN in bits 1:0 not 3 (R305). -/
def decodeBits (x : Nat) : Except Reject Instr :=
  let op := bits x 14 7
  if op = 0xFE then decodePair (bits x 1 0) x else decodeOne op (bits x 1 0) x

/-- Bytes of an instruction, from LEN (R287). -/
def lengthOf (w0 : Nat) : Nat := 8 + 4 * (w0 % 4)

/-- Decode the bytes that begin at an instruction's address, little-endian words (R284, R286, R305). -/
def decode (bs : List Byte) : Except Reject Instr :=
  if bs.length < 4 then .error .truncated
  else
    let w0 := ofLeBytes (bs.take 4)
    if w0 % 4 = 3 then .error (if w0 = 3 then .padWord else .strayPad)
    else if bs.length < lengthOf w0 then .error .truncated
    else decodeBits (ofLeBytes (bs.take (lengthOf w0)))

/-! ## The encoder -/

/-- LEN of a form (R287). -/
def lenOf : Form → Nat | .a => 0 | .i | .c => 1 | .m | .e => 2

/-- The bits of an instruction from its OP and fields (R287, R289). -/
def packInsn (op : Nat) (w : Insn) : Nat :=
  lenOf w.form + 2 ^ 2 * w.stall.toNat + 2 ^ 6 * w.y.toNat + 2 ^ 7 * op + 2 ^ 15 * w.g.toNat + 2 ^ 20 * w.d.toNat +
  2 ^ 29 * w.sub.toNat + 2 ^ 32 * w.a.toNat + 2 ^ 41 * w.b.toNat + 2 ^ 50 * w.dk.toNat + 2 ^ 52 * w.ak.toNat +
  2 ^ 54 * w.bk.toNat + 2 ^ 56 * w.ty.toNat + 2 ^ 60 * w.mod.toNat + 2 ^ 64 * w.ext.toNat

/-- The 48 bits of a compact operation (R299). -/
def packCompact (c : Compact) : Nat :=
  c.cop.toNat + 2 ^ 8 * c.g.toNat + 2 ^ 13 * c.d.toNat + 2 ^ 22 * c.a.toNat + 2 ^ 31 * c.b.toNat + 2 ^ 40 * c.ty.toNat +
  2 ^ 44 * c.mod.toNat

/-- The 128 bits of a pair word (R299). -/
def packPair (p : Pair) : Nat :=
  2 + 2 ^ 2 * p.stall.toNat + 2 ^ 6 * p.y.toNat + 2 ^ 7 * 0xFE + 2 ^ 15 * packCompact p.first + 2 ^ 63 * packCompact p.second

/-- The bytes of an instruction in memory, word 0 first, each word little-endian (R284). A device event has none. -/
def encode (i : Instr) : List Byte :=
  match i with
  | .pairWord p => leBytes 16 (packPair p)
  | _ => match instrParts i with
    | some (op, w) => leBytes (formBytes w.form) (packInsn op w)
    | none => []

/-- The instruction whose bits, numbered from the least significant bit of the first word, are w (R284). Bits above
nbits are zero. -/
def decodeTableWord (nbits w : Nat) : Option Instr :=
  match decode (leBytes 16 (w % 2 ^ nbits)) with
  | .ok i => some i
  | .error _ => none

end Sys2Proof
end

