-- ==== Sys2Proof/Config.lean ====
section
/-! DEFINITION. What the part fixes and the manual leaves open. The opaque constants have no body: nothing can be
proved about their values, so a statement that mentions one holds whatever it is. -/

namespace Sys2Proof.Config

/-- A choice the manual leaves open, fresh for each value of the counter: the old or new value of a raced word
(R140, R167, R168, R248), whether a request to a lost peer took effect (R66, R270), which enabled step comes next.
DESIGN CHOICE (log 2). -/
opaque free : Nat → Nat

/-- The value a special function returns within its accuracy (R353, R354): operation, type code, input code.
DESIGN CHOICE (log 3). -/
opaque special : Nat → Nat → Nat → Nat

/-- Bank and row, in a base die's own order, of a 256-byte line of its stack (R25). DESIGN CHOICE (log 57). -/
opaque bankOf : Nat → Nat
opaque rowOf : Nat → Nat

/-- Identity of the part: the certificate chain's bytes (R95). DESIGN CHOICE (log 49). -/
opaque certificate : List Byte

/-- The device serial number (R95). DESIGN CHOICE (log 49). -/
opaque serial : Nat

/-- The image in firmware slot A of a fresh part (R96). DESIGN CHOICE (log 34). -/
opaque bootImage : List Byte

/-- The fused hash of the firmware key, 64 bytes of SHA-512 (R96). DESIGN CHOICE (log 49). -/
opaque fusedKeyHash : List Byte

/-- Whether an RSA-4096 signature over a digest verifies under a key: key, digest, signature (R96). The manual names no padding of it.
DESIGN CHOICE (log 49). -/
opaque rsaVerifies : List Byte → List Byte → List Byte → Bool

/-- The identity key of the part, and the signature that the service core makes with it over a digest (R95). DESIGN CHOICE (log 49). -/
opaque identityKey : List Byte
opaque identitySign : List Byte → List Byte

/-- The word that Q1 holds for a COPY in a block record, by the COPY's number, and the Q2 record of a COPY known only by such a word: the
manual gives Q1's entries no format (R275, R394). DESIGN CHOICE (log 40). -/
opaque copyEntry : Nat → W64
opaque copyResult : W64 → W64

/-- Words of configuration space that the manual names and gives no contents: function and offset (R71). DESIGN CHOICE (log 108). -/
opaque cfgWord : Nat → Nat → W32

/-- SHA-512 of the boot ROM, a number of 512 bits (R95). DESIGN CHOICE (log 49). -/
opaque bootRomDigest : Nat

/-- The number of compute cores (R1). -/
def cores : Nat := 40
/-- The number of memory channels (R24). -/
def channels : Nat := 256
/-- The number of L2 slices (R162). -/
def slices : Nat := 64
/-- The number of fabric ports (R48). -/
def ports : Nat := 14
/-- The number of partitions (R89). -/
def partitions : Nat := 12
/-- Device memory in bytes, 2^39 (R25). -/
def memBytes : Nat := 2 ^ 39
/-- The emergency range: the top 16 MiB of device memory (R267). -/
def emergencyBase : Nat := 0x7F_FF00_0000
/-- Ticks per microsecond (R64, R94). -/
def ticksPerUs : Nat := 1500
/-- The most resident contexts (R122). -/
def maxContexts : Nat := 64

end Sys2Proof.Config
end

