-- ==== Sys2Proof/Machine/Fp.lean ====
section
/-! DEFINITION. Number formats and rounding (R229–R238): codes are decoded to exact dyadic values, operations are
computed exactly (quotients and roots to 140 bits and a sticky bit) and rounded once. -/

namespace Sys2Proof.Machine

/-- The floating-point formats of R229 and R231. -/
inductive Fmt where
  | kt8 | e4m3 | e5m2 | f16 | bf16 | f32 | f64
  deriving DecidableEq, Repr

/-- An exact value: NaN (NaR included), an infinity, or ±m × 2^e; m = 0 is a signed zero. -/
inductive Fv where
  | nan
  | inf (neg : Bool)
  | fin (neg : Bool) (m : Nat) (e : Int)
  deriving DecidableEq, Repr

/-- Width, fraction bits and bias (R231). -/
def fmtBits : Fmt → Nat | .kt8 | .e4m3 | .e5m2 => 8 | .f16 | .bf16 => 16 | .f32 => 32 | .f64 => 64
def fracBits : Fmt → Nat | .kt8 => 4 | .e4m3 => 3 | .e5m2 => 2 | .f16 => 10 | .bf16 => 7 | .f32 => 23 | .f64 => 52
def biasOf : Fmt → Int | .kt8 => 0 | .e4m3 => 7 | .e5m2 | .f16 => 15 | .bf16 | .f32 => 127 | .f64 => 1023

/-- The canonical NaN each format produces (R231). -/
def nanCode : Fmt → Nat
  | .kt8 => 0x80 | .e4m3 => 0x7F | .e5m2 => 0x7E | .f16 => 0x7E00 | .bf16 => 0x7FC0 | .f32 => 0x7FC00000
  | .f64 => 0x7FF8000000000000

/-- Code of the largest finite magnitude (R231). -/
def maxCode : Fmt → Nat
  | .kt8 => 0x7F | .e4m3 => 0x7E | .e5m2 => 0x7B | .f16 => 0x7BFF | .bf16 => 0x7F7F | .f32 => 0x7F7FFFFF
  | .f64 => 0x7FEFFFFFFFFFFFFF

def signBit (f : Fmt) : Nat := 2 ^ (fmtBits f - 1)

/-- Code of an infinity; the formats without one never produce it. -/
def infCode (f : Fmt) (neg : Bool) : Nat := (if neg then signBit f else 0) + maxCode f + 1

/-- Magnitude of a KT8 code's low seven bits, not zero (R229): (m, e) for m × 2^e. -/
def kt8Mag (m : Nat) : Nat × Int :=
  let z := 6 - Nat.log2 m
  let w := 6 - z
  let ew := min w 2
  let fw := w - ew
  let e := m % 2 ^ w / 2 ^ fw
  let f := m % 2 ^ fw
  let ex : Int := if z ≤ 4 then (e : Int) - 4 * z else if z = 5 then -20 + e else -24
  (2 ^ fw + f, ex - fw)

/-- Decode a code of a format exactly. -/
def decodeF (f : Fmt) (code : Nat) : Fv :=
  match f with
  | .kt8 =>
    let m := code % 128
    let s := bit code 7
    if m = 0 then (if s then .nan else .fin false 0 0) else .fin s (kt8Mag m).1 (kt8Mag m).2
  | _ =>
    let fb := fracBits f
    let eb := fmtBits f - 1 - fb
    let neg := bit code (fmtBits f - 1)
    let fr := code % 2 ^ fb
    let ex := code / 2 ^ fb % 2 ^ eb
    if f = .e4m3 ∧ ex = 15 ∧ fr = 7 then .nan
    else if f ≠ .e4m3 ∧ ex = 2 ^ eb - 1 then (if fr = 0 then .inf neg else .nan)
    else if ex = 0 then .fin neg fr (1 - biasOf f - fb)
    else .fin neg (2 ^ fb + fr) ((ex : Int) - biasOf f - fb)

/-! ## Exact arithmetic -/

/-- m × 2^e as a multiple of 2^t, for t ≤ e. -/
def alignTo (t : Int) (m : Nat) (e : Int) : Nat := m <<< (e - t).toNat

/-- Signed multiple of 2^t. -/
def signedAt (t : Int) (neg : Bool) (m : Nat) (e : Int) : Int := if neg then -(alignTo t m e : Int) else alignTo t m e

/-- Exact sum. An exact zero from operands of opposite sign is +0, and −0 under RDN (mode 2); equal signs keep theirs
(R233). -/
def addF (mode : Nat) : Fv → Fv → Fv
  | .nan, _ | _, .nan => .nan
  | .inf a, .inf b => if a = b then .inf a else .nan
  | .inf a, _ => .inf a
  | _, .inf b => .inf b
  | .fin s m e, .fin s' m' e' =>
    let t := min e e'
    let x := signedAt t s m e + signedAt t s' m' e'
    if x = 0 then .fin (if m = 0 ∧ m' = 0 ∧ s = s' then s else mode = 2) 0 0
    else .fin (decide (x < 0)) x.natAbs t

def negF : Fv → Fv
  | .nan => .nan | .inf s => .inf !s | .fin s m e => .fin (!s) m e

/-- Exact product. -/
def mulF : Fv → Fv → Fv
  | .nan, _ | _, .nan => .nan
  | .inf a, .inf b => .inf (a != b)
  | .inf a, .fin s m _ => if m = 0 then .nan else .inf (a != s)
  | .fin s m _, .inf b => if m = 0 then .nan else .inf (s != b)
  | .fin s m e, .fin s' m' e' => .fin (s != s') (m * m') (e + e')

/-- Quotient, to 140 bits and a sticky bit, which rounds as the exact quotient does in every format. -/
def divF : Fv → Fv → Fv
  | .nan, _ | _, .nan => .nan
  | .inf _, .inf _ => .nan
  | .inf a, .fin s _ _ => .inf (a != s)
  | .fin s _ _, .inf b => .fin (s != b) 0 0
  | .fin s m e, .fin s' m' e' =>
    if m' = 0 then (if m = 0 then .nan else .inf (s != s'))
    else if m = 0 then .fin (s != s') 0 0
    else
      let k := 140 + Nat.log2 m'
      let q := (m <<< k) / m'
      let r := (m <<< k) % m'
      .fin (s != s') (2 * q + b2n (r ≠ 0)) (e - e' - k - 1)

/-- Bits of the integer square root, highest first: n rounds from a root r of the bits done. -/
def isqrtLoop (x : Nat) : Nat → Nat → Nat
  | 0, r => r
  | n + 1, r => let c := r + 2 ^ n; isqrtLoop x n (if c * c ≤ x then c else r)

/-- Integer square root. -/
def isqrt (x : Nat) : Nat := isqrtLoop x (Nat.log2 x / 2 + 1) 0

/-- Square root, to at least 140 bits and a sticky bit; −0 gives −0, a negative value NaN (R353). -/
def sqrtF : Fv → Fv
  | .nan => .nan
  | .inf s => if s then .nan else .inf false
  | .fin s m e =>
    if m = 0 then .fin s 0 0
    else if s then .nan
    else
      let k := 280 + ((e % 2).toNat)
      let x := m <<< k
      let r := isqrt x
      .fin false (2 * r + b2n (r * r ≠ x)) ((e - k) / 2 - 1)

/-- Compare two finite values: the sign of the difference. -/
def cmpFin (s : Bool) (m : Nat) (e : Int) (s' : Bool) (m' : Nat) (e' : Int) : Int :=
  let t := min e e'
  signedAt t s m e - signedAt t s' m' e'

/-- Ordered comparison; none where either is NaN (R337). -/
def cmpF : Fv → Fv → Option Int
  | .nan, _ | _, .nan => none
  | .inf a, .inf b => some (b2n b - b2n a : Int)
  | .inf a, _ => some (if a then -1 else 1)
  | _, .inf b => some (if b then 1 else -1)
  | .fin s m e, .fin s' m' e' => some (cmpFin s m e s' m' e')

/-- Non-finite code: NaN or infinity. -/
def nonFinite (f : Fmt) (code : Nat) : Bool := match decodeF f code with | .fin _ _ _ => false | _ => true

/-! ## Rounding (R230, R233) -/

/-- Does the magnitude go up from the multiple below it? `rem` of `2^k` is what is cut off. -/
def roundsUp (mode : Nat) (neg : Bool) (q rem k : Nat) : Bool :=
  match mode with
  | 0 => decide (2 ^ k < 2 * rem) || (2 * rem == 2 ^ k && q % 2 == 1)
  | 1 => false
  | 2 => neg && rem != 0
  | _ => !neg && rem != 0

/-- m × 2^e rounded to a multiple of 2^t, as that multiple. -/
def roundTo (mode : Nat) (neg : Bool) (m : Nat) (e t : Int) : Nat :=
  if t ≤ e then alignTo t m e
  else
    let k := (t - e).toNat
    let q := m / 2 ^ k
    if roundsUp mode neg q (m % 2 ^ k) k then q + 1 else q

/-- The result of rounding: its code, and whether it is non-finite for a trap: a NaN, an infinity or an overflow (R237). -/
abbrev Rounded := Nat × Bool

/-- Overflow (R233). -/
def overflowF (f : Fmt) (mode : Nat) (sat neg : Bool) : Nat :=
  let s := if neg then signBit f else 0
  if sat then s + maxCode f
  else if f = .e4m3 then nanCode f
  else
    let away := mode = 0 || (mode = 2 && neg) || (mode = 3 && !neg)
    if away then infCode f neg else s + maxCode f

/-- A finite nonzero magnitude in an IEEE-like format. -/
def roundIeee (f : Fmt) (mode : Nat) (sat neg : Bool) (m : Nat) (e : Int) : Rounded :=
  let s := if neg then signBit f else 0
  let fb := fracBits f
  let emin : Int := 1 - biasOf f
  let t := max ((Nat.log2 m : Int) + e - fb) (emin - fb)
  let q := roundTo mode neg m e t
  -- a carry to 2^(fb+1) moves to the next exponent with an even fraction
  let (q, t) := if q = 2 ^ (fb + 1) then (2 ^ fb, t + 1) else (q, t)
  let code := if q < 2 ^ fb then q else ((t + fb + biasOf f).toNat) * 2 ^ fb + (q - 2 ^ fb)
  if code > maxCode f then (overflowF f mode sat neg, true) else (s + code, false)

/-- Two magnitudes compared. -/
def magLe (a b : Nat × Int) : Bool := decide (cmpFin false a.1 a.2 false b.1 b.2 ≤ 0)

/-- A finite nonzero magnitude in KT8: the grid of R229 extended by 0 (R230). -/
def roundKt8 (mode : Nat) (neg : Bool) (m : Nat) (e : Int) : Rounded :=
  let x : Nat × Int := (m, e)
  let s := if neg then 0x80 else 0
  if !magLe x (kt8Mag 127) then (s + 127, true)
  else
    -- the largest code at or below x, 0 for none
    let lo := ((List.range 128).filter fun c => c == 0 || magLe (kt8Mag c) x).foldl max 0
    let loV : Nat × Int := if lo = 0 then (0, 0) else kt8Mag lo
    let exact := decide (cmpFin false loV.1 loV.2 false m e = 0)
    let hi := lo + 1
    let code :=
      if exact then lo
      else match mode with
      | 1 => lo
      | 2 => if neg then hi else lo
      | 3 => if neg then lo else hi
      | _ =>
        let t := min (min loV.2 (kt8Mag hi).2) e
        let d := 2 * (alignTo t m e : Int) - alignTo t loV.1 loV.2 - alignTo t (kt8Mag hi).1 (kt8Mag hi).2
        if d < 0 then lo else if d > 0 then hi else if lo % 2 = 0 then lo else hi
    (if code = 0 then 0 else s + code, false)

/-- Round(x, fmt, mode) with SAT (R230, R233). -/
def roundF (f : Fmt) (mode : Nat) (sat : Bool) : Fv → Rounded
  | .nan => (nanCode f, true)
  | .inf s => (if f = .kt8 ∨ f = .e4m3 then nanCode f else infCode f s, true)
  | .fin s m e =>
    if m = 0 then (if s && f != .kt8 then signBit f else 0, false)
    else if f = .kt8 then roundKt8 mode s m e
    else roundIeee f mode sat s m e

/-- A subnormal value of a format is zero of its sign under FTZ (R233). -/
def isSubnormal (f : Fmt) (code : Nat) : Bool :=
  f != .kt8 && code % signBit f < 2 ^ fracBits f && code % signBit f != 0
def flushCode (f : Fmt) (code : Nat) : Nat := if isSubnormal f code then code / signBit f * signBit f else code

/-! ## Operations on codes -/

/-- The format and the element count of an arithmetic type (R347). -/
def fmtOf : Ty → Fmt
  | .f16 | .f16x2 => .f16 | .bf16 | .bf16x2 => .bf16 | .f64 => .f64
  | .kt8x4 | .kt8 => .kt8 | .e4m3x4 | .e4m3 => .e4m3 | .e5m2x4 | .e5m2 => .e5m2 | _ => .f32
def elemsOf : Ty → Nat
  | .f16x2 | .bf16x2 => 2 | .kt8x4 | .e4m3x4 | .e5m2x4 => 4 | _ => 1

/-- Element k of a packed value (R232). -/
def elem (t : Ty) (x k : Nat) : Nat := x >>> (fmtBits (fmtOf t) * k) % 2 ^ fmtBits (fmtOf t)

/-- Apply an element operation to each element on its own; non-finite where any element is (R238). -/
def perElem (t : Ty) (f : Nat → Rounded) : Rounded :=
  let w := fmtBits (fmtOf t)
  (List.range (elemsOf t)).foldl (fun acc k => (acc.1 + (f k).1 <<< (w * k), acc.2 || (f k).2)) (0, false)

/-- MOD of the arithmetic instructions (R348). -/
def fMode (w : Insn) : Nat := w.mod.toNat % 4
def fSat (w : Insn) : Bool := bit w.mod.toNat 2
def fTnf (w : Insn) : Bool := bit w.mod.toNat 3

/-- Two-operand arithmetic on a type, rounded once per element (R350, R355). -/
def arith2 (op : Nat → Fv → Fv → Fv) (t : Ty) (mode : Nat) (sat : Bool) (a b : Nat) : Rounded :=
  perElem t fun k => roundF (fmtOf t) mode sat (op mode (decodeF (fmtOf t) (elem t a k)) (decodeF (fmtOf t) (elem t b k)))

def addOp : Nat → Fv → Fv → Fv := addF
def subOp (mode : Nat) (x y : Fv) : Fv := addF mode x (negF y)
def mulOp (_ : Nat) (x y : Fv) : Fv := mulF x y

/-- Fused multiply-add: exact product and sum, rounded once (R350). -/
def fma (t : Ty) (mode : Nat) (sat : Bool) (a b c : Nat) : Rounded :=
  perElem t fun k =>
    let d := fun x => decodeF (fmtOf t) (elem t x k)
    roundF (fmtOf t) mode sat (addF mode (mulF (d a) (d b)) (d c))

/-- FMIN and FMAX of one element: an operand bit for bit, −0 below +0 (R351). -/
def minmax1 (f : Fmt) (isMax nanMode : Bool) (a b : Nat) : Rounded :=
  match decodeF f a, decodeF f b with
  | .nan, .nan => (nanCode f, true)
  | .nan, v => if nanMode then (nanCode f, true) else (b, match v with | .inf _ => true | _ => false)
  | v, .nan => if nanMode then (nanCode f, true) else (a, match v with | .inf _ => true | _ => false)
  | va, vb =>
    let c := (cmpF va vb).getD 0
    let aLess := if c = 0 then a / signBit f % 2 == 1 else decide (c < 0)
    let r := if aLess != isMax then a else b
    (r, match (if aLess != isMax then va else vb) with | .inf _ => true | _ => false)

def minmax (t : Ty) (isMax nanMode : Bool) (a b : Nat) : Rounded :=
  perElem t fun k => minmax1 (fmtOf t) isMax nanMode (elem t a k) (elem t b k)

/-- FCLASS (R352). -/
def classOf (f : Fmt) (code : Nat) : Nat :=
  match decodeF f code with
  | .nan => 2 ^ 0
  | .inf s => if s then 2 ^ 1 else 2 ^ 8
  | .fin s m _ =>
    if m = 0 then (if s then 2 ^ 4 else 2 ^ 5)
    else if isSubnormal f code then (if s then 2 ^ 3 else 2 ^ 6)
    else if s then 2 ^ 2 else 2 ^ 7

/-- FCMP's condition (R337). -/
def fcmpCond (sub : Nat) (x y : Fv) : Bool :=
  match sub, cmpF x y with
  | 0, some c => decide (c = 0)
  | 1, some c => decide (c ≠ 0)
  | 1, none => true
  | 2, some c => decide (c < 0)
  | 3, some c => decide (c ≤ 0)
  | 4, some c => decide (c > 0)
  | 5, some c => decide (c ≥ 0)
  | 6, some _ => true
  | 7, none => true
  | _, _ => false

/-! ## Conversions (R355–R361) -/

/-- A value rounded to an integer in a mode, exactly. -/
def toInt (mode : Nat) (neg : Bool) (m : Nat) (e : Int) : Int :=
  let n : Int := roundTo mode neg m e 0
  if neg then -n else n

/-- CVTI .f2i: rounded, then clamped to the type; NaN gives 0 (R360). -/
def f2i (mode : Nat) (t : Ty) (v : Fv) : Nat :=
  let w := tyBits t
  let clamp := fun x : Int => if isI t then clampS w x else clampU w x
  let big : Int := 2 ^ 70
  match v with
  | .nan => 0
  | .inf s => wrap w (clamp (if s then -big else big))
  | .fin s m e => wrap w (clamp (toInt mode s m e))

/-- An integer as an exact value; zero is +0. -/
def ofInt (x : Int) : Fv := .fin (decide (x < 0)) x.natAbs 0

/-- FRND: an integral value in the same format; a zero result keeps the operand's sign (R361). -/
def frnd (f : Fmt) (mode : Nat) (code : Nat) : Nat :=
  match decodeF f code with
  | .nan => nanCode f
  | .inf _ => code
  | .fin s m e =>
    if m = 0 then code
    else
      let n := roundTo mode s m e 0
      if n = 0 then (if s then signBit f else 0) else (roundF f mode false (.fin s n 0)).1

/-- FMT of a slot descriptor (R235). -/
def slotFmt (d : Nat) : Fmt :=
  match bits d 3 0 with | 0 => .kt8 | 1 => .e4m3 | 2 => .e5m2 | 3 => .f16 | 4 => .bf16 | _ => .f32
def slotRnd (d : Nat) : Nat := bits d 11 9
def slotSat (d : Nat) : Bool := bit d 12
def slotTnf (d : Nat) : Bool := bit d 13
def slotFtz (d : Nat) : Bool := bit d 14
/-- BL (R235): 16, 32, 64 or 128. -/
def slotBl (d : Nat) : Nat := 16 * 2 ^ bits d 8 6
def slotScaled (d : Nat) : Bool := bits d 5 4 == 1

/-- A code read through a slot's FTZ. -/
def readFtz (ftz : Bool) (f : Fmt) (code : Nat) : Fv := decodeF f (if ftz then flushCode f code else code)

/-- A block scale word: +0 or a positive normal; any other is read as NaN (R234). DEDUCED (log 62). -/
def scaleOf (x : Nat) : Fv :=
  if x = 0 then .fin false 0 0
  else match decodeF .f32 x with
  | .fin false m e => if isSubnormal .f32 x then .nan else .fin false m e
  | _ => .nan

/-- One element of CVT .enc or SCALE .enc: the FP32 value through the slot (R356, R357). -/
def encElem (d x : Nat) (scale : Option Fv) : Rounded :=
  let f := slotFmt d
  let v := readFtz (slotFtz d) .f32 x
  let v := match scale with
    | none => v
    | some s => match s with | .fin _ 0 _ => .fin false 0 0 | _ => divF v s
  let r := roundF f (slotRnd d) (slotSat d) v
  (if slotFtz d then flushCode f r.1 else r.1, r.2)

/-- One element of CVT .dec: exact (R356). -/
def decElem (d code : Nat) : Rounded :=
  roundF .f32 0 false (readFtz (slotFtz d) (slotFmt d) code)

/-- One element of SCALE .dec, with an addend in the c form (R357). DEDUCED (log 62). -/
def decScaled (d code : Nat) (scale : Fv) (add : Option Fv) : Rounded :=
  let p := mulF (readFtz (slotFtz d) (slotFmt d) code) scale
  let v := match add with | none => p | some c => addF (slotRnd d) p c
  let r := roundF .f32 (slotRnd d) (slotSat d) v
  (if slotFtz d then flushCode .f32 r.1 else r.1, r.2)

/-- The least e with a / MaxFinite ≤ 2^e, found by stepping up from a lower bound. -/
def ceilLog (m : Nat) (x : Int) (mm : Nat) (me : Int) : Nat → Int → Int
  | 0, e => e
  | n + 1, e => if magLe (m, x) (mm, me + e) then e else ceilLog m x mm me n (e + 1)

/-- SCALE .mk (R358); under FTZ a subnormal input reads as zero (R233). DEDUCED (log 62). -/
def mkScale (d x : Nat) : Rounded :=
  let f := slotFmt d
  match readFtz (slotFtz d) .f32 x with
  | .nan | .inf _ => (nanCode .f32, true)
  | .fin _ m e =>
    if m = 0 then (0, false)
    else match decodeF f (maxCode f) with
    | .fin _ mm me =>
      let lo := (Nat.log2 m : Int) + e - (Nat.log2 mm : Int) - me - 2
      let c := max (-126) (min 127 (ceilLog m e mm me 6 lo))
      (((c + 127).toNat) * 2 ^ 23, false)
    | _ => (nanCode .f32, true)

end Sys2Proof.Machine
end

