-- ==== Sys2Proof/Machine/Table.lean ====
section
/-! DEFINITION. Sparse tables: a list of (key, value) pairs with keys strictly rising and no entry equal to the
default. Equal tables are equal data. Registers, bytes of memory, lanes and every numbered structure are held so. -/

namespace Sys2Proof.Machine

/-- A sparse table. Its default is given at each read and write. -/
abbrev Tbl (α : Type) := List (Nat × α)

/-- The entry of a key; the default where none is listed. -/
def tget {α : Type} (dflt : α) : Tbl α → Nat → α
  | [], _ => dflt
  | (k, v) :: t, i => if i = k then v else tget dflt t i

/-- Remove a key. -/
def tdel {α : Type} (t : Tbl α) (i : Nat) : Tbl α := t.filter fun e => e.1 ≠ i

/-- Put a pair at its place in key order, replacing an entry of the same key. -/
def tins {α : Type} (i : Nat) (v : α) : Tbl α → Tbl α
  | [] => [(i, v)]
  | (k, w) :: t => if i < k then (i, v) :: (k, w) :: t else if i = k then (i, v) :: t else (k, w) :: tins i v t

/-- Write a key. Writing the default removes the entry. -/
def tset {α : Type} [DecidableEq α] (dflt : α) (t : Tbl α) (i : Nat) (v : α) : Tbl α :=
  if v = dflt then tdel t i else tins i v t

/-- Keys strictly rising. -/
def tsorted {α : Type} : Tbl α → Bool
  | [] => true
  | [_] => true
  | (k, _) :: (j, w) :: t => decide (k < j) && tsorted ((j, w) :: t)

/-- The canonical form: keys strictly rising and no entry equal to the default. -/
def tcanon {α : Type} [DecidableEq α] (dflt : α) (t : Tbl α) : Bool := tsorted t && t.all fun e => decide (e.2 ≠ dflt)

/-- The keys listed. -/
def tkeys {α : Type} (t : Tbl α) : List Nat := t.map Prod.fst

/-- Change the entry of a key by a function. -/
def tmod {α : Type} [DecidableEq α] (dflt : α) (t : Tbl α) (i : Nat) (f : α → α) : Tbl α :=
  tset dflt t i (f (tget dflt t i))

/-- The lowest key not listed. -/
def tfree {α : Type} (t : Tbl α) : Nat := ((List.range (t.length + 1)).find? fun k => !(tkeys t).contains k).getD t.length

/-- Apply a function to every listed value. -/
def tmapv {α β : Type} (f : α → β) (t : Tbl α) : Tbl β := t.map fun e => (e.1, f e.2)

end Sys2Proof.Machine
end

