-- ==== Sys2Proof/Machine/State.lean ====
section
/-! DEFINITION. The state of a Kypol K40 as plain data: every piece of state the manual gives the part. A field's
default is its value after cold reset; where the manual gives none the assumption log names the value (logs 4, 5, 9, 34). Times are
ticks of chip time as Nat (R17: CT does not wrap within the service life). -/

namespace Sys2Proof.Machine

/-! ## Lanes and groups -/

/-- Why a lane is parked, in the form of R445: cause 0 is not parked. `insn` is the parked instruction's fields, which
its release completes; an image restores it from the code at the lane's LPC. -/
structure Park where
  cause  : Nat := 0
  detail : Nat := 0
  x      : W64 := 0
  y      : W64 := 0
  insn   : Option Insn := none
  /-- OP of the parked word, where its cause does not tell it. -/
  op     : Nat := 0
  /-- Chip time of the parking, for waits counted in ticks (R430, R445). -/
  since  : Nat := 0
  /-- Object phases, token moves and MC_READY changes counted at the parking (R430). -/
  marks  : Nat × Nat × Nat := (0, 0, 0)
  /-- A lane at a cross-lane word that an exit has released: it executes at its next issue, with the mask kept here (R399). -/
  released : Bool := false
  deriving DecidableEq, Repr

/-- One lane (R145, R103). -/
structure Lane where
  lpc     : W64 := 0
  lap     : Nat := 0
  hyp     : Nat := 0
  hrefute : Nat := 0
  item    : W64 := BitVec.allOnes 64
  pct     : Nat := 0
  faultVa : W64 := 0
  park    : Park := {}
  parkOrder : Nat := 0
  /-- FENCE.rel not yet met: scope code and the number of the first request that each does not cover (R181). -/
  rel     : List (Nat × Nat) := []
  /-- Loads and atomics whose reply later instructions wait for (R182, R193): their numbers. -/
  acq     : List Nat := []
  /-- A request of this lane to a lost peer, or to the host over a lost link, completed with an error, for CAUSE_MASK (R66, R270). -/
  failed  : Bool := false
  failedHost : Bool := false
  /-- The node whose refute redirects this lane at its next issue, with the reason (R223). -/
  refuted : Option (Nat × Nat × W64 × Nat) := none
  deriving DecidableEq, Repr

/-- A truth slot (R201). Tables are keyed by 4 × lane + register part. -/
structure TruthSlot where
  busy    : Bool := false
  pc      : W64 := 0
  dest    : Nat := 0
  nreg    : Nat := 1
  guessed : Mask := 0
  bound   : Tbl Bool := []
  arrived : Mask := 0
  status  : Tbl Nat := []
  guess   : Tbl W32 := []
  truth   : Tbl W32 := []
  hbind   : Nat := 0
  /-- Lanes that executed the load and have neither a reply nor an expiry (R201, R202). -/
  waiting : Mask := 0
  load    : Nat := 0
  /-- Per lane with STATUS POISON: the error event of its machine check, by number or by ticket (R209, R269). -/
  err     : Tbl (Nat × Option Nat) := []
  deriving DecidableEq, Repr

/-- A load instruction in flight (R198–R203): which lanes still wait, their limits and predictions. -/
structure LoadI where
  id      : Nat := 0
  pc      : W64 := 0
  dest    : Nat := 0
  nreg    : Nat := 1
  ty      : Ty := .b32
  gsrc    : Nat := 0
  issueCt : Nat := 0
  waiting : Mask := 0
  expired : Mask := 0
  /-- Per lane: the limit in ticks, 0 for none. -/
  limit   : Tbl Nat := []
  /-- Per lane: effective address (faded source). -/
  ea      : Tbl W64 := []
  /-- Per lane: prediction register as read at issue (R203). -/
  pred    : Tbl W32 := []
  /-- Per lane: a lane whose limit expired with no slot free makes no guess later (R201). -/
  noGuess : Mask := 0
  /-- Per lane whose limit expired while the core clocks stood: its prediction as of that tick (R87, R205). -/
  fixed   : Tbl (List W32) := []
  slot    : Option Nat := none
  /-- Destination S register of a scalar load (R365). -/
  sdest   : Option Nat := none
  /-- Words the group had issued before it (the order of register writes, R139). -/
  word    : Nat := 0
  deriving DecidableEq, Repr

/-- A fixed-latency producer that has not finished (R139–R141): register key, last cycle it is unavailable, and the
value and guess bit the register held before. Keys: V register r of lane L is 32 r + L; predicates follow from
2^14; S registers from 2^15. -/
structure Producer where
  key   : Nat := 0
  ready : Nat := 0
  old   : W64 := 0
  oldG  : Bool := false
  deriving DecidableEq, Repr

/-- A trap or machine check waiting for the group's next boundary (R202, R266, R269, R444). -/
structure PendTrap where
  cause  : Nat := 0
  detail : Nat := 0
  eseq   : Nat := 0
  mask   : Mask := 0
  /-- PC reported, where the event names one (R202). -/
  pc     : Option W64 := none
  /-- The error event whose number it will carry, until the collector has numbered it (R100, R269). -/
  ticket : Option Nat := none
  /-- CAUSE_MASK of a saved trap that is taken again (R279). -/
  cm     : Option Mask := none
  deriving DecidableEq, Repr

/-- One outstanding fault-ring ID of a parked group (R260, R444). -/
structure FaultId where
  id      : Nat := 0
  page    : Nat := 0
  lanes   : Mask := 0
  /-- The lanes' faulting addresses, for an abort (R257). -/
  va      : List (Nat × Nat) := []
  replied : Bool := false
  abort   : Bool := false
  deriving DecidableEq, Repr

/-- A performance counter (R431). -/
structure Perf where
  on    : Bool := false
  event : Nat := 0
  count : Nat := 0
  deriving DecidableEq, Repr

/-- An arrival of a BARV that waits to be counted (R390): its lane and word, the object, the V register that receives the phase, and the
releases it waits for, each a scope and the number of the first request it does not cover. -/
structure ArrWait where
  lane : Nat := 0
  word : Nat := 0
  blk  : Nat := 0
  obj  : Nat := 0
  dest : Nat := 0
  rel  : List (Nat × Nat) := []
  deriving DecidableEq, Repr

/-- A group of 32 lanes (R103, R145, R444). -/
structure Group where
  exists_ : Bool := false
  ended   : Bool := false
  live    : Mask := 0
  /-- V registers, key 32 r + lane; unlisted reads 0 (R109). -/
  regs    : Tbl W32 := []
  rguess  : Tbl Bool := []
  /-- Predicates P0–P14, key 32 p + lane. -/
  preds   : Tbl Bool := []
  pguess  : Tbl Bool := []
  /-- S registers. -/
  sregs   : Tbl W64 := []
  lanes   : Tbl Lane := []
  slots   : Tbl TruthSlot := []
  /-- Stride predictor (LAST, DELTA), key 32 e + lane (R205). -/
  stride  : Tbl (W32 × W32) := []
  loads   : List LoadI := []
  /-- Registers scoreboarded for a pending variable-latency result, V keys as Producer, with a count (R127). -/
  pending : Tbl Nat := []
  /-- Of V registers with a pending result, the word that wrote last: writes complete in issue order (R139). -/
  lastW   : Tbl Nat := []
  prods   : List Producer := []
  trapMode   : Bool := false
  handlerSet : Mask := 0
  rteHeld    : Mask := 0
  rteNextM   : Mask := 0
  trapCause  : W64 := 0
  trapPc     : W64 := 0
  faultMask  : Mask := 0
  causeMask  : Mask := 0
  pend       : List PendTrap := []
  /-- Arrivals not yet counted, in order of issue (R390). -/
  arrs       : List ArrWait := []
  /-- Parked on a translation fault (R259). -/
  pfParked   : Bool := false
  faultIds   : List FaultId := []
  /-- Address and lanes that a group which was parked on a fault executes first (R260, R279). -/
  replay     : Option (W64 × Mask) := none
  /-- First cycle of the next issue (R138). -/
  stallUntil : Nat := 0
  /-- Cycle of placement or resumption (R126), and of the last issue since (R128). -/
  age        : Nat := 0
  lastIssue  : Option Nat := none
  /-- Words issued (the model's own count). -/
  words      : Nat := 0
  yielded    : Bool := false
  stopped    : Bool := false
  perf       : Tbl Perf := []
  regBase    : Nat := 0
  deriving DecidableEq, Repr

/-! ## Blocks -/

/-- A barrier object (R388). KIND 0 off, 1 lane, 2 count; SCOPE 0 .grp, 1 .blk, 2 .gng. ARR key 16 b + g. -/
structure BarrierObj where
  kind    : Nat := 0
  scope   : Nat := 0
  phase   : W32 := 0
  members : W64 := 0
  arr     : Tbl Mask := []
  expect  : Nat := 0
  count   : Nat := 0
  nfValid : Bool := false
  nfTile  : Nat := 0
  nfPhase : W32 := 0
  deriving DecidableEq, Repr

/-- A 256-byte scratchpad line: presence bit and pending count (R170). -/
structure Line where
  present : Bool := true
  pending : Nat := 0
  deriving DecidableEq, Repr

/-- Who holds a tile's token (R250): nobody, the vector side of a block, the matrix side of a block. -/
inductive Token where
  | free | vec (b : Nat) | mat (b : Nat)
  deriving DecidableEq, Repr

/-- An accumulator tile (R172, R249, R250), element key 128 row + col, FP32 codes. -/
structure Tile where
  data  : Tbl W32 := []
  nf    : Bool := false
  owed  : Bool := false
  token : Token := .free
  /-- Pending TKPASS.vec, oldest first: the object, and the number of the first command it does not wait for. -/
  vec   : List (Nat × Nat) := []
  deriving DecidableEq, Repr

/-- A piece of a COPY that lies within one sector at each end: its source address, or none for the fill pattern; its
destination, a scratchpad offset in every receiving block or an address; what has been read. -/
structure Run where
  src  : Option W64 := none
  dst  : W64 := 0
  len  : Nat := 0
  data : List Byte := []
  /-- 0 to be read, 1 asked for, 2 at hand, 3 written. -/
  stage : Nat := 0
  deriving DecidableEq, Repr

/-- A COPY in flight (R251–R254). -/
structure CopyJob where
  id     : Nat := 0
  grp    : Nat := 0
  lane   : Nat := 0
  form   : Nat := 0
  tag    : Nat := 0
  hyp    : Nat := 0
  /-- A multicast that waits for MC_READY (R253): its bit. -/
  rbit   : Option Nat := none
  /-- Receiving blocks of a scratchpad destination, by handle; none for other destinations. -/
  dsts   : List Nat := []
  runs   : List Run := []
  /-- Destination lines still pending: (block handle, line). -/
  lines  : List (Nat × Nat) := []
  /-- Destination registers scoreboarded until delivery: (block, group, V register). -/
  regs   : List (Nat × Nat × Nat) := []
  bytes  : Nat := 0
  fcode  : Nat := 0
  status : Nat := 0
  /-- CT at the issue of the COPY (R32). -/
  issueCt : Nat := 0
  /-- Outstanding fault-ring ID (R254). -/
  parked : Option Nat := none
  /-- Largest completion time of its global writes (R194). -/
  maxCtc : Nat := 0
  deriving DecidableEq, Repr

/-- Where the state of a block stands while its gang is saved (R266, R267). -/
inductive SavedIn where
  | core | slot | emergency
  deriving DecidableEq, Repr

/-- A block (R103, R275). `core` is the physical core; `resident` is false while its state is saved. -/
structure Block where
  ctx      : Nat := 0
  gangSeq  : Nat := 0
  gx       : Nat := 0
  gy       : Nat := 0
  gz       : Nat := 0
  blk      : Nat := 0
  lcore    : Nat := 0
  core     : Nat := 0
  resident : Bool := false
  ended    : Bool := false
  scratch  : Tbl Byte := []
  lines    : Tbl Line := []
  scrBase  : Nat := 0
  /-- Q2 and Q4–Q15, oldest first. -/
  queues   : Tbl (List W64) := []
  objs     : Tbl BarrierObj := []
  mcReady  : Nat := 0
  copies   : List CopyJob := []
  groups   : Tbl Group := []
  /-- Save slot taken at the first save (R268). -/
  slot     : Option Nat := none
  /-- Counts of object phases completed, token moves and MC_READY changes (R430). -/
  marks    : Nat × Nat × Nat := (0, 0, 0)
  /-- Tiles held while saved (R250), by index. -/
  savedTiles : Tbl Tile := []
  /-- Item queue saved with the context's last block on its core (R116). -/
  savedItems : Option (List Nat) := none
  /-- Where its state stands while its gang leaves its cores (R266, R267). -/
  savedIn : SavedIn := .core
  deriving DecidableEq, Repr

/-! ## Cores -/

/-- A sector copy of the L1 or the constant store (R158, R166). -/
structure Sector where
  valid  : Bool := false
  faded  : Bool := false
  expiry : Nat := 0
  hctx   : Nat := 0
  hyp    : Nat := 0
  data   : List Byte := []
  used   : Nat := 0
  deriving DecidableEq, Repr

/-- A translation held by a core (R151, R153, R156). Key: virtual page number of 4 KiB. -/
structure TlbEntry where
  frame : Nat := 0
  size  : Nat := 4096
  tier  : Bool := false
  hold  : Bool := false
  ex    : Bool := false
  wr    : Bool := false
  rd    : Bool := false
  acc   : Bool := false
  dirty : Bool := false
  /-- Physical address of the leaf entry. -/
  leaf  : Nat := 0
  gen   : Nat := 0
  part  : Nat := 0
  deriving DecidableEq, Repr

/-- A matrix command in the queue or in execution (R246–R248). -/
structure MmaCmd where
  id      : Nat := 0
  block   : Nat := 0
  grp     : Nat := 0
  m       : Nat := 0
  n       : Nat := 0
  k       : Nat := 0
  fa      : W64 := 0
  fb      : W64 := 0
  zero    : Bool := false
  tile    : Nat := 0
  aBase   : Nat := 0
  aStride : Nat := 0
  scBase  : Nat := 0
  scStride : Nat := 0
  bReg    : Nat := 0
  bsReg   : Nat := 0
  gq      : List Nat := []
  /-- Read cycles done and the codes read. Keys: A 2048 i + k, B 2048 j + k, scales 2048 i + blk. -/
  reads   : Nat := 0
  aBuf    : Tbl Nat := []
  bBuf    : Tbl Nat := []
  saBuf   : Tbl Nat := []
  sbBuf   : Tbl Nat := []
  /-- The scratchpad at issue and its lines absent then: a store before the read cycle gives either value (R194, R248). -/
  snap    : Tbl Byte := []
  absent  : List Nat := []
  /-- First cycle in which it may read, and cycle of the last read. -/
  start   : Nat := 0
  lastRead : Nat := 0
  deriving DecidableEq, Repr

/-- A validated MMA parameter block waiting for room in the matrix queue (R246), by block, group and lane. -/
structure MmaWait where
  block : Nat := 0
  grp   : Nat := 0
  lane  : Nat := 0
  /-- Address of the MMA and the lanes of its issue set. -/
  pc    : W64 := 0
  mask  : Mask := 0
  cmd   : MmaCmd := {}
  deriving DecidableEq, Repr

/-- A quadrant's issue state (R128, R129): current group as (block, group), consecutive first words, and what it has issued
in its last cycle: words, first group, whether the first word was of the memory and system kind, of control flow, of FP64
or a special function (R349). -/
structure Quad where
  cur : Option (Nat × Nat) := none
  run : Nat := 0
  lastCycle : Nat := 0
  issued : Nat := 0
  first : Option (Nat × Nat) := none
  memory : Bool := false
  control : Bool := false
  fp64 : Bool := false
  special : Bool := false
  /-- The group of the cycle's first word where the second goes before it: a push, before the takes of the cycle (R423). -/
  owed : Option (Nat × Nat) := none
  deriving DecidableEq, Repr

/-- An instruction-cache line: its 64 words as fetched (R167). -/
structure CodeLine where
  words : List W32 := []
  deriving DecidableEq, Repr

/-- A core (R143). -/
structure Core where
  tiles   : Tbl Tile := []
  l1      : Tbl Sector := []
  const   : Tbl Sector := []
  /-- Instruction-cache lines (R167), keyed by line number. -/
  icache  : Tbl CodeLine := []
  tlb     : Tbl TlbEntry := []
  items   : List Nat := []
  itemCtx : Option Nat := none
  mmaQ    : List MmaCmd := []
  mmaWait : List MmaWait := []
  quads   : Tbl Quad := []
  cycles  : Nat := 0
  /-- The pulse of the core clock at which its last cycle ran (R16, R87). -/
  pulse   : Nat := 0
  /-- Queue words of the cycle `qCycle`: block, queue, whether it takes an entry, quadrant (R423). -/
  qUses   : List (Nat × Nat × Bool × Nat) := []
  qCycle  : Nat := 0
  retired : Bool := false
  /-- Times of the corrected SRAM errors of the last hour (R92). -/
  eccTimes : List Nat := []
  /-- Lent V registers: key 2^16 block + 2^12 (group) … counted per register (R248). -/
  lent    : Tbl Nat := []
  nextCmd : Nat := 1
  deriving DecidableEq, Repr

/-! ## Requests -/

/-- The kinds of request that leave a core or wait at a port. -/
inductive ReqKind where
  | load | store | atomic | pref | cwb | cinv
  deriving DecidableEq, Repr

/-- Where a request is performed (R176): a home slice by physical address, host memory, another block's scratchpad or its core's
accumulators, a fabric peer. -/
inductive Place where
  | home (pa : Nat)
  | host (pa : Nat)
  | gang (block : Nat) (acc : Bool)
  | peer (q : Nat) (off : Nat)
  deriving DecidableEq, Repr

/-- The progress of a request: sent, accepted and held at its home, waiting for a line from memory, performed with its
reply on the way, answered. -/
inductive Stage where
  | egress | held | miss | reply | done
  deriving DecidableEq, Repr

/-- One lane's part of a request: address within the place, width, operand values of an atomic. -/
structure Part where
  lane : Nat := 0
  off  : Nat := 0
  w    : Nat := 4
  opB  : Nat := 0
  opC  : Nat := 0
  old  : Nat := 0
  deriving DecidableEq, Repr

/-- A memory request (R26, R31, R160, R164, R381). -/
structure Req where
  id     : Nat := 0
  kind   : ReqKind := .load
  place  : Place := .home 0
  stage  : Stage := .egress
  block  : Nat := 0
  grp    : Nat := 0
  core   : Nat := 0
  ctx    : Nat := 0
  part   : Nat := 0
  /-- Number of the load instruction, for loads. -/
  load   : Nat := 0
  parts  : List Part := []
  /-- Masked write: (offset from the sector, byte). -/
  bytes  : List (Nat × Byte) := []
  /-- Atomic: SUB, MOD, type; D register of a fetching atomic. -/
  sub    : Nat := 0
  amod   : Nat := 0
  ty     : Ty := .b32
  dest   : Option Nat := none
  /-- Words its group had issued before it. -/
  word   : Nat := 0
  /-- The bytes a reply carries, from the place's base. -/
  sect   : List Byte := []
  /-- EXPIRY granted with a fill, 0 for none. -/
  lease  : Nat := 0
  status : Nat := 0
  fcode  : Nat := 0
  /-- The error event behind a poisoned reply, by number or by ticket (R269). -/
  err    : Nat × Option Nat := (0, none)
  hctx   : Nat := 0
  hyp    : Nat := 0
  va     : Nat := 0
  acceptSeq : Nat := 0
  ctc    : Nat := 0
  issueCt : Nat := 0
  deadline : Nat := 0
  cls    : Nat := 1
  na     : Bool := false
  /-- Its reply fills no sector: a store, a CINV or a resolve has passed it (R160, R173, R222). -/
  noFill : Bool := false
  ef     : Bool := false
  isConst : Bool := false
  join   : Option Nat := none
  copy   : Option Nat := none
  gen    : Nat := 0
  tag    : Nat := 0
  hold   : Bool := false
  /-- Its line came from memory for it: serving it is no hit of the line (R43). -/
  missed : Bool := false
  /-- Its reply has reached the core and waits for its delivery tick (R211). -/
  ready  : Bool := false
  /-- The peer request this access serves (R50), or a write of the host (R73). -/
  inb    : Option Nat := none
  fromHost : Bool := false
  deriving DecidableEq, Repr

/-! ## Contexts and hypotheses -/

/-- A launch record's fields (R81, R82). Sizes are real counts. -/
structure Record where
  seq        : Nat := 0
  version    : Nat := 0
  kind       : Nat := 0
  stallCheck : Bool := false
  hypEnable  : Bool := false
  irqDone    : Bool := false
  entry      : Nat := 0
  param      : W64 := 0
  gx         : Nat := 0
  gy         : Nat := 0
  gz         : Nat := 0
  ngrp       : Nat := 1
  nblk       : Nat := 1
  regs       : Nat := 8
  scalars    : Nat := 1
  scratch    : Nat := 0
  order      : Nat := 0
  swizzle    : Nat := 0
  limit      : Nat := 0
  lease      : Nat := 0
  trapTable  : Nat := 0
  saveBase   : Nat := 0
  saveSize   : Nat := 0
  vatBase    : Nat := 0
  vatSize    : Nat := 0
  itemCount  : Nat := 0
  itemHead   : Nat := 0
  chunk      : Nat := 0
  wait0      : Nat := 0
  wait0v     : Nat := 0
  wait1      : Nat := 0
  wait1v     : Nat := 0
  signal     : Nat := 0
  signalV    : Nat := 0
  userTag    : W64 := 0
  slots      : List Nat := []
  raw        : List Byte := []
  deriving DecidableEq, Repr

/-- How a context stopped (R265, R268). -/
structure StopInfo where
  cause  : Nat := 0
  detail : Nat := 0
  pc     : W64 := 0
  lcore  : Nat := 0
  grp    : Nat := 0
  /-- The physical core it ran on (R99). -/
  core   : Nat := 0xFFFF
  deriving DecidableEq, Repr

/-- A BBLOG whose issue set is held for its record (R432). -/
structure LogWait where
  block : Nat := 0
  grp   : Nat := 0
  pc    : W64 := 0
  mask  : Mask := 0
  code  : Nat := 0
  tag   : W64 := 0
  deriving DecidableEq, Repr

/-- A context (R122). -/
structure Ctx where
  live     : Bool := false
  part     : Nat := 0
  chan     : Nat := 0
  index    : Nat := 0
  prio     : Nat := 0
  started  : Nat := 0
  record   : Record := {}
  hctx     : Option Nat := none
  shape    : W64 := 0
  nextGang : Nat := 0
  itemNext : Nat := 0
  returned : List Nat := []
  /-- Largest completion time returned or due to lanes that have ended (R85). -/
  maxCtc   : Nat := 0
  stop     : Option StopInfo := none
  /-- Resumed from an image, or has lost a core to CORE_DRAIN: placed under R280. -/
  resumed  : Bool := false
  /-- Gangs being pre-empted (R266) and gangs saved. -/
  saving   : List Nat := []
  saved    : List Nat := []
  freezing : Bool := false
  /-- CT of the last program record of BBLOG (R432). -/
  lastLog  : Option Nat := none
  /-- BBLOG entries held until the interval has passed (R432). -/
  logWait  : List LogWait := []
  /-- Fault-ring ID of a save that met V = 0, and whether this context holds the emergency area (R267). -/
  saveFault : Option Nat := none
  /-- The completion signal under way at its home (R85). -/
  signalReq : Option Nat := none
  deriving DecidableEq, Repr

/-- A node of a hypothesis tree (R213). STATE 0 free, 1 live, 2 resolving, 3 retiring. -/
structure Node where
  state   : Nat := 0
  parent  : Nat := 0
  depth   : Nat := 0
  handler : W64 := 0
  bound   : Bool := false
  npend   : Nat := 0
  /-- Member (block, group, slot, lane) of a guess-bound node (R226). -/
  members : List (Nat × Nat × Nat × Nat) := []
  deriving DecidableEq, Repr

/-- A resolve in the context's order (R221). -/
structure Resolve where
  confirm : Bool := true
  id      : Nat := 0
  reason  : Nat := 1
  lane    : Option (Nat × Nat × Nat) := none
  /-- The ids it resolves, the sectors it affects, and E, once fixed. -/
  ids     : List Nat := []
  sectors : List Nat := []
  started : Bool := false
  e       : Option Nat := none
  seq     : Nat := 0
  deriving DecidableEq, Repr

/-- A hypothesis context (R212–R222). -/
structure Hctx where
  ctx   : Option Nat := none
  nodes : Tbl Node := []
  queue : List Resolve := []
  lastE : Nat := 0
  /-- Resolves that have taken effect, until E has passed everywhere: E and the affected sectors (R194, R221). -/
  settling : List (Nat × List Nat) := []
  deriving DecidableEq, Repr

/-- A version of a sector (R218). -/
structure Version where
  hctx : Nat := 0
  id   : Nat := 0
  sector : Nat := 0
  va   : Nat := 0
  data : Tbl Byte := []
  mask : W64 := 0
  /-- Its reserved vat entry, whether it has left L2 for it, and whether the entry is marked in use (R224, R225). -/
  entry : Nat := 0
  inVat : Bool := false
  stored : Bool := false
  /-- Its bytes came back from the vat with an uncorrectable error (R38). -/
  bad   : Bool := false
  /-- Its bytes have been at its slice since a resolve of its tree began: the resolve need not read them back (R222). -/
  back  : Bool := false
  deriving DecidableEq, Repr

/-! ## Partitions and channels -/

/-- A launch channel (R75–R80). -/
structure Chan where
  enable : Bool := false
  prio   : Nat := 0
  sizeLog2 : Nat := 4
  base   : Nat := 0
  err    : Nat := 0
  halted : Bool := false
  head   : Nat := 0
  tail   : Nat := 0
  miss   : Nat := 0
  /-- Record examined at HEAD and waiting, with the addresses its waits translated to (space, address). -/
  wait   : Option Record := none
  w0     : Option (Bool × Nat) := none
  w1     : Option (Bool × Nat) := none
  /-- Values of waits on host memory as last read through the host-line buffer (R84). -/
  v0     : Option Nat := none
  v1     : Option Nat := none
  ready  : Bool := false
  /-- Tick of the last read of the record and of the last poll of host words (R79, R84). -/
  readAt : Nat := 0
  pollAt : Nat := 0
  /-- Doorbells accepted: (order number, tail), for the order of R80. -/
  bells  : List (Nat × Nat) := []
  /-- The markers whose signals are under way at their homes, with the requests, oldest first (R80, R82). -/
  signalReq : List (Nat × Record) := []
  deriving DecidableEq, Repr

/-- A TLBINV whose issue set is held: its group, address and lanes, and the pages still to be invalidated (R429). -/
structure InvWait where
  block : Nat := 0
  grp   : Nat := 0
  pc    : W64 := 0
  mask  : Mask := 0
  left  : List Nat := []
  deriving DecidableEq, Repr

/-- A partition (R89, R93) with its BAR registers (R86, R154, R157, R211, R261). -/
structure Part_ where
  set      : Bool := false
  coreMask : Nat := 0
  gran0    : Nat := 0
  granN    : Nat := 0
  root     : Nat := 0
  prioCap  : Nat := 0
  l2Rate   : Nat := 0
  l2Burst  : Nat := 0
  setArgs  : List W64 := []
  chans    : Tbl Chan := []
  intStatus : Nat := 0
  intMask   : Nat := 0
  logEnable : Bool := false
  logSize   : Nat := 0
  logBase   : Nat := 0
  logOvf    : Bool := false
  logHead   : Nat := 0
  logTail   : Nat := 0
  gen       : Nat := 0
  invBusy   : Bool := false
  invRefused : Bool := false
  /-- The TLBINV instruction that waits for the acknowledgement (R429). -/
  invBy     : Option InvWait := none
  shapeEnable : Bool := false
  shapeChan   : Nat := 0
  shapeLate   : Nat := 0
  shapeTicks  : Nat := 0
  ringEnable : Bool := false
  ringSize   : Nat := 0
  ringBase   : Nat := 0
  ringHead   : Nat := 0
  ringTail   : Nat := 0
  nextFault  : Nat := 0
  /-- Entries that wait for room in the ring (R261), two doublewords each. -/
  ringWait   : List (Nat × Nat) := []
  /-- Outstanding IDs: the entry's owner is found in the group, COPY or save that holds it. -/
  outstanding : List Nat := []
  /-- Session table entries (R70): RPART, CHAN, INDEX of enabled peers. -/
  sessions  : Tbl (Option (Nat × Nat × Nat)) := []
  deriving DecidableEq, Repr

/-! ## Memory side -/

/-- A line present in an L2 slice (R162, R163). Key: physical line number (PA / 256), and above it the hypothesis tag of its
sectors, 0 for committed data. -/
structure L2Line where
  present : Bool := false
  dirty   : Nat := 0
  hits    : Nat := 0
  /-- LEASE_MAX per sector 0–3. -/
  lease   : Tbl Nat := []
  deriving DecidableEq, Repr

/-- A memory-side cache line (R42). Key: physical line number. -/
structure MscLine where
  valid : Nat := 0
  dirty : Nat := 0
  hctx  : Nat := 0
  hyp   : Nat := 0
  filled : Nat := 0
  deriving DecidableEq, Repr

/-- A request at a base die (R26). -/
structure StackReq where
  tag  : Nat := 0
  kind : Nat := 0
  addr : Nat := 0
  cls  : Nat := 1
  deadline : Nat := 0
  reqr : Nat := 0
  hctx : Nat := 0
  hyp  : Nat := 0
  seq  : Nat := 0
  /-- Reconstructed deadline once received (R28), and whether the cache lookup has been made. -/
  full : Nat := 0
  seen : Bool := false
  /-- Dirty sectors, and valid sectors of a victim. -/
  mask : Nat := 0
  sects : Nat := 15
  /-- Requests that wait for the line; hypothesis ids of a discard. -/
  ids  : List Nat := []
  eligible : Bool := true
  deriving DecidableEq, Repr

/-- A stack's base die. -/
structure Stack where
  reqs : List StackReq := []
  /-- The home slices' miss queues toward this stack (R28, R46). -/
  waits : List StackReq := []
  /-- TAG and STATUS of the last completion: 0 OK, 1 CORRECTED, 2 UNCORRECTABLE, 3 CHANNEL_DOWN (R26). -/
  last : Option (Nat × Nat) := none
  msc  : Tbl MscLine := []
  selfRefresh : Bool := false
  scrubAt : Nat := 0
  deriving DecidableEq, Repr

/-- One direction of a channel (R39, R40): the reference burst and the wires of each byte, value and inversion pin, as the code in
use leaves them and as the other code would have left them; transitions made, and those the other code would have made. -/
structure BusDir where
  ref   : List Byte := List.replicate 64 0
  wires : List (Byte × Bool) := List.replicate 8 (0, false)
  oref  : List Byte := List.replicate 64 0
  owires : List (Byte × Bool) := List.replicate 8 (0, false)
  made  : Nat := 0
  other : Nat := 0
  deriving DecidableEq, Repr

/-- A memory channel (R37, R39–R41). -/
structure MemChan where
  repaired : Nat := 0
  switches : Nat := 0
  state    : Nat := 3
  codeLock : Bool := false
  ltAllowed : Bool := true
  code     : Nat := 0
  /-- Consecutive windows in which the other code would have saved a quarter. -/
  better   : Nat := 0
  switching : Option Nat := none
  /-- The read and the write direction of its bus. -/
  rd       : BusDir := {}
  wr       : BusDir := {}
  /-- Tick of the last window end (R40). -/
  windowAt : Nat := 0
  /-- Refreshes postponed, by bank (R37). -/
  postponed : Tbl Nat := []
  openRow   : Tbl Nat := []
  deriving DecidableEq, Repr

/-- A snoop of a host-cached line that the home waits for (R73). -/
structure Snoop where
  line : Nat := 0
  inv  : Bool := true
  /-- The host has answered; the lease it was sent for may be granted. -/
  answered : Bool := false
  deriving DecidableEq, Repr

/-! ## Fabric -/

/-- A sealed block in a replay buffer (R60). -/
structure LinkBlock where
  seq  : Nat := 0
  slot : Nat := 0
  pkts : List Packet := []
  /-- The sealed flits and their tag (R61). -/
  cipher : List Byte := []
  gtag : Nat := 0
  naks : Nat := 0
  deriving DecidableEq, Repr

/-- Keys of one port direction (R61, R68). -/
structure LinkKeys where
  key0 : Option (List Byte) := none
  key1 : Option (List Byte) := none
  slot : Nat := 0
  salt : Nat := 0
  seq  : Nat := 0
  /-- Blocks sealed under the current key (R61) and whether the old slot is still live. -/
  blocks : Nat := 0
  oldLive : Bool := false
  /-- A first key has been loaded (R67, R68). -/
  first   : Bool := false
  deriving DecidableEq, Repr

/-- A fabric port (R48, R62, R63). -/
structure Port where
  state   : Nat := 0
  width   : Nat := 0
  epoch   : Nat := 0
  peer    : Nat := 0
  rtt     : Nat := 0
  tagFails : Nat := 0
  replays : Nat := 0
  tx      : LinkKeys := {}
  rx      : LinkKeys := {}
  replay  : List LinkBlock := []
  outQ    : List Packet := []
  /-- VCs stopped by the far end, with the tick of the stop. -/
  stopped : Tbl Nat := []
  /-- Packets in the receive buffers, oldest first, and VCs for which stop has been sent. -/
  inQ     : List Packet := []
  rxStop  : List Nat := []
  /-- The acknowledgement or negative acknowledgement last returned: (negative, sequence number) (R60). -/
  answer  : Option (Bool × Nat) := none
  /-- The port whose peer is the intermediate of the route that replaces this port (R55). -/
  detourBy : Option Nat := none
  /-- Tick of the last refill of the port's buckets (R64). -/
  refillAt : Nat := 0
  deadline : Nat := 0
  recalLane : Nat := 0
  /-- The partition served last, for the turns of R65. -/
  turn : Nat := 0
  deriving DecidableEq, Repr

/-- A token bucket (R64, R65, R94). -/
structure Bucket where
  level : Nat := 0
  burst : Nat := 0
  rate  : Nat := 0
  lent  : Nat := 0
  deriving DecidableEq, Repr

/-- A request from a peer being served here (R50, R57). -/
structure Inbound where
  pkt   : Packet := {}
  /-- The core's own request, for an access that names the device's own peer id (R50). -/
  own   : Option Nat := none
  stage : Stage := .egress
  /-- Order of arrival (R54). -/
  seq   : Nat := 0
  /-- The partition that serves it, once found (R51, R70). -/
  part  : Nat := 0
  deriving DecidableEq, Repr

/-! ## Service core, errors, black box -/

/-- A black-box entry (R99). -/
structure BbEntry where
  ct   : Nat := 0
  eseq : Nat := 0
  kind : Nat := 0
  part : Nat := 0xFF
  core : Nat := 0xFFFF
  code : Nat := 0
  tag  : W64 := 0
  deriving DecidableEq, Repr

/-- An error-log entry (R101): sequence number, reporter and category, address, syndrome. -/
structure ErrEntry where
  seq : Nat := 0
  reporter : Nat := 0
  category : Nat := 0
  addr : Nat := 0
  syndrome : Nat := 0
  deriving DecidableEq, Repr

/-- An event of the tick under way on its way to the black box: its reporter, its entry, and for an error event category, address
and syndrome, which the collector numbers at the end of the tick in the order of the reporters (R99, R100). -/
structure Notice where
  rep   : Nat := 0
  entry : BbEntry := {}
  err   : Option (Nat × Nat × Nat) := none
  ticket : Nat := 0
  deriving DecidableEq, Repr

/-- Error numbering (R100, R101). -/
structure Errors where
  seq   : Nat := 0
  first : Nat := 0
  last  : Nat := 0
  overflow : Nat := 0
  counts : Tbl Nat := []
  log   : List ErrEntry := []
  /-- Values latched by the last read of FIRST_ERROR: LAST_ERROR, LOG_OVERFLOW, ERR_COUNT. -/
  latched : Option (Nat × Nat × Tbl Nat) := none
  deriving DecidableEq, Repr

/-- A firmware slot's image (R96). -/
structure Firmware where
  present  : Bool := false
  verified : Bool := false
  rollback : Nat := 0
  version  : Nat := 0
  /-- The image's bytes. -/
  image    : List Byte := []
  deriving DecidableEq, Repr

/-- The service core and its mailbox (R91–R99). -/
structure Service where
  args    : Tbl W64 := []
  result  : W64 := 0
  lastCmd : Nat := 0
  code    : Nat := 0
  busy    : Bool := false
  data    : Tbl Byte := []
  alert   : Nat := 0
  bb      : List BbEntry := []
  bbCount : Nat := 0
  /-- Events of the tick under way (R99, R100), and the number of the next one (the model's own count). -/
  news    : List Notice := []
  tickets : Nat := 0
  errors  : Errors := {}
  slotA   : Firmware := { present := true, verified := true, image := Config.bootImage }
  slotB   : Firmware := {}
  active  : Nat := 0
  rollMin : Nat := 0
  staged  : Bool := false
  swapping : Bool := false
  heldAlerts : List Nat := []
  /-- MSI-X messages sent, oldest first: (function, vector). -/
  msix    : List (Nat × Nat) := []
  draining : Option (Nat × Nat) := none
  freezing : Option (Nat × Nat × Nat) := none
  /-- A quiesce under way: partition, lost peer, and whether its requests have drained (R66, R69). -/
  quiesce  : Option (Nat × Nat × Bool) := none
  /-- Partition to which each granule belonged before a warm reset: one that passes to another is zeroed first (R90). -/
  owned    : Tbl Nat := []
  deriving DecidableEq, Repr

/-- Package, power, clocks (R10–R23, R87, R88). -/
structure Package where
  bringup  : Nat := 0
  ready    : Bool := false
  ctRun    : Bool := false
  lock0    : Bool := false
  lock1    : Bool := false
  off0     : Int := 0
  off1     : Int := 0
  /-- What each follower's offset moves to, by at most one withheld count a tick: a copy never decreases (R17). -/
  tgt0     : Int := 0
  tgt1     : Int := 0
  skew     : Bool := false
  corr     : Nat := 0
  maxOff   : Nat := 0
  skewStop : Bool := false
  warn     : Bool := false
  crit     : Bool := false
  tripped  : Bool := false
  temp0    : Nat := 0
  temp1    : Nat := 0
  tempIo   : Nat := 0
  tripOut  : Bool := false
  clockStopped : Bool := false
  /-- Pulses of the core clock so far, and fifths of a pulse carried over: 5, 4, 3 or 2 of them a tick in states 0 to 3 (R16, R87). -/
  pulses   : Nat := 0
  phase    : Nat := 0
  /-- Tick of the next re-check of a power overrun (R10). -/
  overrun  : Option Nat := none
  pCurrent : Nat := 0
  pTarget  : Nat := 0
  pBusy    : Bool := false
  pRefused : Bool := false
  linkUp   : Bool := false
  deriving DecidableEq, Repr

/-- What the host configures over CXL.io (R71, R72): the BARs of functions 0 to 12, the MSI-X table (address and data of a vector,
keyed 32 × function + vector), the HDM decoder's base and whether it is committed, and what the last configuration request returned:
data, or none where it was answered with Configuration Request Retry Status (R23). -/
structure HostLink where
  bars   : Tbl Nat := []
  /-- Words of configuration space that software writes, by 1,024 times the function and the word's number: power state, MSI-X and
  SR-IOV control, IDE and containment (R71, R87). -/
  words  : Tbl W32 := []
  /-- Lanes and GT/s of the link, 0 while it is down (R71). -/
  width  : Nat := 0
  rate   : Nat := 0
  msix   : Tbl (Nat × Nat) := []
  hdmBase : Nat := 0
  hdmOn  : Bool := false
  cfgOut : Option W32 := some 0
  deriving DecidableEq, Repr

/-- What may be scheduled next: a device event, an issue of a group, a tick of chip time, a cycle of a core's clock, the
performing of a request away from the homes, an error in a core's SRAM, a write of the host to its own memory, its configuration
requests and its accesses by host physical address. -/
inductive Sched where
  | event (i : Instr)
  | issue (block grp : Nat)
  | tick
  | cycle (core : Nat)
  | perform (req : Nat)
  | sram (core : Nat) (f : SramFault)
  | l2Sram (key sect : Nat) (lost : Bool)
  | hostStore (pa : Nat) (bytes : List Byte)
  | cfgRead (fn off : Nat)
  | cfgWrite (fn off : Nat) (value : W32)
  | msixWrite (fn vector addr data : Nat)
  | hdmRead (hpa : Nat)
  | hdmWrite (hpa : Nat) (bytes : List Byte)
  deriving DecidableEq, Repr

/-- The machine. -/
structure State where
  /-- Steps due next, oldest first: the inputs and the order of agents. DESIGN CHOICE (log 6). -/
  agenda  : List Sched := []
  /-- The group whose issue set an instruction acts on: (block handle, group id). DESIGN CHOICE (log 6). -/
  focus   : Nat × Nat := (0, 0)
  /-- Counter of free values (the model's own field). DESIGN CHOICE (log 2). -/
  free    : Nat := 0
  /-- Number of the next request, load, job or arrival (the model's own field). DESIGN CHOICE (log 9). -/
  seq     : Nat := 1
  ct      : Nat := 0
  pkg     : Package := {}
  svc     : Service := {}
  parts   : Tbl Part_ := []
  ctxs    : Tbl Ctx := []
  blocks  : Tbl Block := []
  cores   : Tbl Core := []
  hctxs   : Tbl Hctx := []
  versions : List Version := []
  /-- Device memory as its home slices hold it, by physical address. -/
  mem     : List Host.Cell := []
  /-- Poisoned 64-byte sectors (R38). -/
  poison  : List Nat := []
  /-- The error event that poisoned each of them, by number or by ticket (R269). -/
  poisonBy : Tbl (Nat × Option Nat) := []
  /-- COPYs that images hold, by their word of Q1; blocks are named by number within the gang. DESIGN CHOICE (log 40). -/
  copyBook : Tbl CopyJob := []
  /-- Host memory, by host physical address. -/
  hostMem : List Host.Cell := []
  reqs    : List Req := []
  l2      : Tbl L2Line := []
  evictLease : Tbl Nat := []
  memStacks : Tbl Stack := []
  memChans : Tbl MemChan := []
  missCount : Tbl Nat := []
  /-- The memory channel being retrained (R46). -/
  retraining : Option Nat := none
  /-- Lines the host caches (R73), snoops outstanding, host-line buffer lines (R74), atomics waiting for RdOwn. -/
  hostCached : List Nat := []
  snoops  : List Snoop := []
  hostLink : HostLink := {}
  hostLines : Tbl (List Byte) := []
  /-- Contexts whose atomics hold a line of the buffer, by line (R272). -/
  lineCtxs : Tbl (List Nat) := []
  l2Buckets : Tbl Bucket := []
  /-- Tick of the last refill of each slice's buckets. -/
  l2Refill : Tbl Nat := []
  /-- Tokens that each slice port has moved in this microsecond (R94). -/
  l2Moved : Tbl Nat := []
  position : Option (Nat × Nat) := none
  ports   : Tbl Port := []
  buckets : Tbl Bucket := []
  inbound : Tbl Inbound := []
  lostPeers : List Nat := []
  /-- Value returned by the last register read of the host, and the bytes of its last CXL.mem read. DESIGN CHOICE (log 10). -/
  readOut : W64 := 0
  readData : List Byte := []
  /-- The context holding the emergency save area (R267). -/
  emergency : Option Nat := none
  doorbells : Nat := 0
  deriving DecidableEq, Repr

/-- Reasons the machine stops with a fault. No step of this model raises one: every fault the manual names is a trap,
a halt or a status that a next state records. The one name stands for a state no rule reaches. Safe. -/
inductive Fault where
  /-- Raised by nobody: kept so that the type has a name for a broken invariant. Safe. -/
  | unreachable
  deriving DecidableEq, Repr

/-- Reasons a step has no meaning. -/
inductive Refusal where
  /-- An instruction with no meaning yet, rejected by name in exec. Safe. -/
  | notModelled (mnemonic : String)
  deriving DecidableEq, Repr

/-- The machine right after cold reset (R22, R437): every field at its default; memory lists nothing.
DESIGN CHOICE (logs 4, 5 and 34) where the manual gives no value. -/
def State.reset : State := {}

end Sys2Proof.Machine
end

