-- ==== Sys2Proof/Machine/Regs.lean ====
section
/-! DEFINITION. Reading and changing the pieces of State: every register, lane, group, block, core, context and
partition has one home, and every other layer goes through the accessors here. -/

namespace Sys2Proof.Machine

/-! ## Pieces -/

def State.block (s : State) (b : Nat) : Block := tget {} s.blocks b
def State.core (s : State) (c : Nat) : Core := tget {} s.cores c
def State.context (s : State) (h : Nat) : Ctx := tget {} s.ctxs h
def State.part (s : State) (p : Nat) : Part_ := tget {} s.parts p
def State.hctxOf (s : State) (h : Nat) : Hctx := tget {} s.hctxs h
def State.group (s : State) (b g : Nat) : Group := tget {} (s.block b).groups g
def Group.lane (g : Group) (L : Nat) : Lane := tget {} g.lanes L

def modBlock (s : State) (b : Nat) (f : Block → Block) : State := { s with blocks := tmod {} s.blocks b f }
def modCore (s : State) (c : Nat) (f : Core → Core) : State := { s with cores := tmod {} s.cores c f }
def modCtx (s : State) (h : Nat) (f : Ctx → Ctx) : State := { s with ctxs := tmod {} s.ctxs h f }
def modPart (s : State) (p : Nat) (f : Part_ → Part_) : State := { s with parts := tmod {} s.parts p f }
def modHctx (s : State) (h : Nat) (f : Hctx → Hctx) : State := { s with hctxs := tmod {} s.hctxs h f }
def modGroup (s : State) (b g : Nat) (f : Group → Group) : State :=
  modBlock s b fun k => { k with groups := tmod {} k.groups g f }
/-- Change the lanes of a set. -/
def Group.mapLanes (g : Group) (m : Mask) (f : Nat → Lane → Lane) : Group :=
  { g with lanes := (lanesOf m).foldl (fun t L => tmod {} t L (f L)) g.lanes }
/-- Count events of a kind in the counters of a group that have selected it (R431). -/
def Group.perfAdd (q : Group) (event n : Nat) : Group :=
  { q with perf := tmapv (fun p : Perf => if p.on && p.event == event then { p with count := p.count + n } else p) q.perf }
def modLane (s : State) (b g L : Nat) (f : Lane → Lane) : State :=
  modGroup s b g fun q => { q with lanes := tmod {} q.lanes L f }

/-- The launch record of a block's context. -/
def recordOf (s : State) (b : Nat) : Record := (s.context (s.block b).ctx).record

/-! ## Values the manual leaves open -/

/-- The k-th open choice of the step under way: `free` advances once at every step. DESIGN CHOICE (log 2). -/
def pick (s : State) (k : Nat) : Nat := Config.free (s.free * 2 ^ 64 + k % 2 ^ 64)

/-! ## Chip time (R17–R20) -/

/-- Offset of a die's follower copy. DEDUCED (log 11). -/
def dieOff (s : State) (die : Nat) : Int := if die = 0 then s.pkg.off0 else s.pkg.off1

/-- A die's copy of chip time (R18). -/
def dieCt (s : State) (die : Nat) : Nat := ((s.ct : Int) + dieOff s die).toNat

/-- Compute die of a core (R143). -/
def dieOfCore (c : Nat) : Nat := c / 20

/-- Local chip time of a core. -/
def coreCt (s : State) (c : Nat) : Nat := dieCt s (dieOfCore c)

/-- Die of a physical address's home slice (R25, R162). -/
def homeDie (pa : Nat) : Nat := (b2n (bit pa 8) + b2n (bit pa 17) + b2n (bit pa 26) + b2n (bit pa 35)) % 2

/-- Home slice of a physical address (R162). -/
def homeSlice (pa : Nat) : Nat :=
  32 * homeDie pa + (bits pa 13 9 ^^^ bits pa 18 14 ^^^ bits pa 23 19 ^^^ bits pa 28 24 ^^^ bits pa 33 29 ^^^ bits pa 38 34)

/-- Local chip time at a physical address's home slice. -/
def homeCt (s : State) (pa : Nat) : Nat := dieCt s (homeDie pa)

/-- Holds(T): local CT < T − 4 (R19). -/
def holds (ct t : Nat) : Bool := decide (ct + 4 < t)

/-- Passed(T): local CT ≥ T + 4 (R19). -/
def passed (ct t : Nat) : Bool := decide (t + 4 ≤ ct)

/-! ## Registers (R145) -/

/-- Key of register r of lane L. -/
def vKey (r L : Nat) : Nat := 32 * r + L
/-- Producer and scoreboard keys of predicates and S registers stand above those of V registers. -/
def pKey (p L : Nat) : Nat := 2 ^ 14 + 32 * p + L
def sKey (n : Nat) : Nat := 2 ^ 15 + n

def Group.vReg (g : Group) (r L : Nat) : W32 := tget 0 g.regs (vKey r L)
def Group.vGuess (g : Group) (r L : Nat) : Bool := tget false g.rguess (vKey r L)
/-- P15 reads true in every lane and is never guessed (R145). -/
def Group.pred (g : Group) (p L : Nat) : Bool := p == 15 || tget false g.preds (32 * p + L)
def Group.pGuess (g : Group) (p L : Nat) : Bool := p != 15 && tget false g.pguess (32 * p + L)
/-- S0 reads 0 (R145). -/
def Group.sReg (g : Group) (n : Nat) : W64 := if n = 0 then 0 else tget 0 g.sregs n

/-- Write one lane's V register and its guess bit. -/
def Group.putV (g : Group) (r L : Nat) (x : W32) (gb : Bool) : Group :=
  { g with regs := tset 0 g.regs (vKey r L) x, rguess := tset false g.rguess (vKey r L) gb }
/-- Write one lane's predicate; a write to P15 is ignored (R145). -/
def Group.putP (g : Group) (p L : Nat) (x gb : Bool) : Group :=
  if p = 15 then g else { g with preds := tset false g.preds (32 * p + L) x, pguess := tset false g.pguess (32 * p + L) gb }
/-- Write an S register; S0 ignores writes (R145). -/
def Group.putS (g : Group) (n : Nat) (x : W64) : Group :=
  if n = 0 then g else { g with sregs := tset 0 g.sregs n x }

/-! ## Truth slots and origins (R201–R204) -/

/-- The slot that binds register r of lane L, if r is an origin there (R203). -/
def Group.originSlot (g : Group) (r L : Nat) : Option Nat :=
  (tkeys g.slots).find? fun k =>
    let t := tget {} g.slots k
    t.busy && decide (t.dest ≤ r) && decide (r < t.dest + t.nreg) && tget false t.bound (4 * L + (r - t.dest))

/-- A slot is free once every lane that executed its load has a reply or has expired, and every guessed lane has
exited, or has its truth and no BOUND bit; slots bound to a hypothesis are held (R202). -/
def slotDone (live : Mask) (t : TruthSlot) : Bool :=
  t.hbind == 0 && t.waiting == 0 &&
  (lanesOf t.guessed).all fun L => !inMask live L ||
    (inMask t.arrived L && (List.range t.nreg).all fun k => !tget false t.bound (4 * L + k))

/-- Free the slots that are done. -/
def Group.sweepSlots (g : Group) : Group :=
  { g with slots := g.slots.filter fun e => e.2.busy && !slotDone g.live e.2 }

/-- A write to an origin clears its BOUND bit (R204), and frees the slot where that was the last it waited for (R202). -/
def Group.unbind (g : Group) (r L : Nat) : Group :=
  ({ g with slots := tmapv (fun t : TruthSlot =>
      if t.dest ≤ r ∧ r < t.dest + t.nreg then { t with bound := tset false t.bound (4 * L + (r - t.dest)) false } else t) g.slots } : Group).sweepSlots

/-- The lowest-numbered free slot (R201). -/
def Group.freeSlot (g : Group) : Option Nat := firstIdx 16 fun k => !(tget {} g.slots k).busy

/-! ## Cores -/

/-- The core clocks run: not tripped, not held (states 4 and 5), not stopped by a skew of chip time (R13, R18, R87). -/
def running (s : State) : Bool := !s.pkg.clockStopped && decide (s.pkg.pCurrent < 4) && !s.pkg.skewStop

/-- Core cycles run by a block's core. DEDUCED (log 84). -/
def cyclesOf (s : State) (b : Nat) : Nat := (s.core (s.block b).core).cycles

/-- Blocks resident on a core, by handle. -/
def blocksOn (s : State) (c : Nat) : List Nat :=
  (tkeys s.blocks).filter fun b => let k := s.block b; k.resident && !k.ended && k.core == c

/-- The block of a context with a gang index and block id; for path 0x03 (R106). -/
def gangBlock (s : State) (b idx : Nat) : Option Nat :=
  let k := s.block b
  (tkeys s.blocks).find? fun j => let q := s.block j; q.ctx == k.ctx && q.gangSeq == k.gangSeq && q.blk == idx

/-- The block of a context by logical core (R149); ended blocks are not named. -/
def lcoreBlock (s : State) (ctx lc : Nat) : Option Nat :=
  (tkeys s.blocks).find? fun j => let q := s.block j; q.ctx == ctx && q.lcore == lc && !q.ended

end Sys2Proof.Machine
end

