-- ==== Sys2Proof/Machine/Flags.lean ====
section
/-! DEFINITION. Conditions, carries and guess bits: what the instructions put into predicates and guess bits
(R206, R323, R327, R337, R338, R379). The part keeps no other flags (R348). -/

namespace Sys2Proof.Machine

/-- Sat(x, type), or the exact result modulo 2^W (R323). -/
def intResult (t : Ty) (w : Nat) (sat : Bool) (x : Int) : Nat :=
  if sat then wrap w (if isI t then clampS w x else clampU w x) else wrap w x

/-- A value read under a type: signed for .i, else unsigned (R322). -/
def asInt (t : Ty) (x : Nat) : Int := if isI t then sext (tyBits t) x else (x : Int)

/-- Carry-out of IADDC and borrow-out of ISUBB (R327). -/
def carryOut (w : Nat) (x : Int) : Bool := decide (2 ^ w ≤ x)
def borrowOut (x : Int) : Bool := decide (x < 0)

/-- ICMP's condition (R337). -/
def icmpCond (sub : Nat) (a b : Int) : Bool :=
  match sub with
  | 0 => decide (a = b) | 1 => decide (a ≠ b) | 2 => decide (a < b) | 3 => decide (a ≤ b) | 4 => decide (a > b)
  | _ => decide (a ≥ b)

/-- How a compare combines with D's old value (R337). -/
def combine (mode : Nat) (old r : Bool) : Bool :=
  match mode with | 0 => r | 1 => old && r | 2 => old || r | _ => old != r

/-- Map lookup of BFUNC and PLOP: bit A + 2 B + 4 C (R335, R338). -/
def mapBit (m : Nat) (a b c : Bool) : Bool := bit m (b2n a + 2 * b2n b + 4 * b2n c)

/-- The new value of an atomic (R379). -/
def atomNew (sub md : Nat) (t : Ty) (old v c : Nat) : Nat :=
  let w := tyBits t
  match sub with
  | 0 => (old + v) % 2 ^ w
  | 1 => (arith2 addOp t 0 false old v).1
  | 2 => if asInt t old ≤ asInt t v then old else v
  | 3 => if asInt t old ≥ asInt t v then old else v
  | 4 => if md = 0 then old &&& v else if md = 1 then old ||| v else old ^^^ v
  | 5 => v
  | 6 => if old = v then c else old
  | _ => (minmax t (md == 1) false old v).1

/-- Bitwise complement within w bits. -/
def notW (w x : Nat) : Nat := 2 ^ w - 1 - x % 2 ^ w

end Sys2Proof.Machine
end

