-- ==== Sys2Proof/Machine/Mem.lean ====
section
/-! DEFINITION. Device memory at its homes, versions, page tables, TLBs, the dirty-page log, the fault ring, the
interrupt, error and black-box records (R84–R86, R99–R101, R151–R157, R177, R218–R219, R259–R261). -/

namespace Sys2Proof.Machine

/-! ## Memory as bytes in canonical form -/

/-- What an address that is not listed reads as. DESIGN CHOICE (log 4). -/
def memDefault : Byte := 0

/-- The canonical form of a memory: addresses strictly rising, no entry equal to the default. -/
def Memory.wf (m : List Host.Cell) : Bool := tcanon memDefault m

/-- DESIGN CHOICE (log 4). -/
def memByte (s : State) (a : Nat) : Byte := tget memDefault s.mem a

/-- The n bytes at a, lowest address first. -/
def memBytes (s : State) (a n : Nat) : List Byte := (List.range n).map fun k => memByte s (a + k)

/-- Little-endian value of n bytes (R232). -/
def memRead (s : State) (a n : Nat) : Nat := ofLeBytes (memBytes s a n)

/-- Write one byte. -/
def putByte (s : State) (a : Nat) (x : Byte) : State := { s with mem := tset memDefault s.mem a x }

/-- Write bytes at given addresses, in order. -/
def putBytes (s : State) (bs : List (Nat × Byte)) : State := bs.foldl (fun t e => putByte t e.1 e.2) s

/-- Write the n low bytes of a value at a, little-endian. -/
def putNum (s : State) (a n x : Nat) : State := putBytes s ((leBytes n x).zipIdx.map fun e => (a + e.2, e.1))

/-- DESIGN CHOICE (log 4). -/
def hostByte (s : State) (a : Nat) : Byte := tget memDefault s.hostMem a
def hostBytes (s : State) (a n : Nat) : List Byte := (List.range n).map fun k => hostByte s (a + k)
def putHost (s : State) (bs : List (Nat × Byte)) : State :=
  { s with hostMem := bs.foldl (fun t e => tset memDefault t e.1 e.2) s.hostMem }

/-- Sector number of a physical address (R158). -/
def sectorOf (pa : Nat) : Nat := pa / 64
/-- Line number of a physical address (R162). -/
def lineOf (pa : Nat) : Nat := pa / 256

/-- Poison is carried per sector (R38). -/
def isPoison (s : State) (pa : Nat) : Bool := s.poison.contains (sectorOf pa)

/-! ## Interrupts, errors and the black box -/

/-- Set a bit of INT_STATUS; a message is sent when it goes from 0 to 1 unmasked (R86). -/
def raiseInt (s : State) (p bitNo : Nat) : State :=
  let q := s.part p
  if bit q.intStatus bitNo then s
  else
    let s := modPart s p fun r => { r with intStatus := r.intStatus + 2 ^ bitNo }
    if bit q.intMask bitNo then s
    else { s with svc := { s.svc with msix := s.svc.msix ++ [(p + 1, if bitNo ≥ 16 then 16 else bitNo)] } }

/-- Send a message of function 0: 0 mailbox, 1 alerts, 2 error events, 3 machine checks (R91, R92). Alerts and error events
raised while new firmware starts are held and delivered afterwards (R96). -/
def sendMsi (s : State) (v : Nat) : State :=
  if s.svc.swapping ∧ (v = 1 ∨ v = 2) then { s with svc := { s.svc with heldAlerts := s.svc.heldAlerts ++ [v] } }
  else { s with svc := { s.svc with msix := s.svc.msix ++ [(0, v)] } }

/-- Reporter indexes of the collector (R100). -/
def repChannel (k : Nat) : Nat := k
def repPort (p : Nat) : Nat := 256 + p
def repCore (c : Nat) : Nat := 270 + c
def repL2 : Nat := 310
def repTime : Nat := 311
def repService : Nat := 312

/-- An event of the tick under way: the black box takes it at the end of the tick, in the order of the reporters (R99, R100). An
event that names a core is that core's; the others come from the service core where no reporter is given. DESIGN CHOICE (log 97). -/
def blackBox (s : State) (e : BbEntry) (by_ : Option Nat := none) : State :=
  let rep := by_.getD (if e.core < 40 then repCore e.core else repService)
  { s with svc := { s.svc with
      news := s.svc.news ++ [{ rep := rep, entry := { e with ct := s.ct }, ticket := s.svc.tickets }], tickets := s.svc.tickets + 1 } }

/-- The partition that owns a core (R89). -/
def coreOwner (s : State) (c : Nat) : Option Nat := (List.range Config.partitions).find? fun p => (s.part p).set && bit (s.part p).coreMask c

/-- The black-box entry of an error event: the core and its partition for a core's event, the address as its detail (R99).
DESIGN CHOICE (log 97). -/
def errorEntry (s : State) (reporter category addr : Nat) : BbEntry :=
  let core := if repCore 0 ≤ reporter ∧ reporter < repL2 then reporter - repCore 0 else 0xFFFF
  { ct := s.ct, kind := 5, code := category, core := core, part := (coreOwner s core).getD 0xFF, tag := w64 addr }

/-- An error event reaches the collector, which numbers it at the end of the tick (R100). -/
def recordError (s : State) (reporter category addr syndrome : Nat) : State :=
  { s with svc := { s.svc with
      news := s.svc.news ++ [{ rep := reporter, entry := errorEntry s reporter category addr, err := some (category, addr, syndrome), ticket := s.svc.tickets }]
      tickets := s.svc.tickets + 1 } }

/-- The error event last reported: its number, or the ticket under which it waits for one. -/
def lastError (s : State) : Nat × Option Nat :=
  match (s.svc.news.filter fun n => n.err.isSome).getLast? with
  | some n => (0, some n.ticket)
  | none => (s.svc.errors.last, none)

/-- A sector is poisoned by the error event last reported (R38, R269). -/
def poisonSector (s : State) (sec : Nat) : State :=
  { s with poison := dedup (s.poison ++ [sec]), poisonBy := tins sec (lastError s) s.poisonBy }

/-- The error event behind a poisoned sector: the last reported where none is kept. -/
def poisonErr (s : State) (sec : Nat) : Nat × Option Nat :=
  ((s.poisonBy.find? fun e : Nat × (Nat × Option Nat) => e.1 == sec).map Prod.snd).getD (lastError s)

/-- Set a bit of ALERT_STATUS: on the change from 0 to 1, a message and a black-box entry (R92, R99). -/
def raiseAlert (s : State) (k : Nat) : State :=
  if bit s.svc.alert k then s
  else
    let s1 := blackBox s { kind := 8, code := k }
    sendMsi { s1 with svc := { s1.svc with alert := s.svc.alert + 2 ^ k } } 1

/-- The black box holds the last 4,096 entries (R99). -/
def keepEntry (v : Service) (e : BbEntry) : Service :=
  let bb := v.bb ++ [e]
  { v with bb := bb.drop (bb.length - 4096), bbCount := v.bbCount + 1 }

/-- The collector numbers an error event, counts it and logs it (R100, R101). -/
def numberError (e : Errors) (reporter category addr syndrome : Nat) : Errors :=
  let n := e.seq + 1
  let full := e.log.length ≥ 256
  { e with
    seq := n, last := n, first := if e.first = 0 then n else e.first
    counts := tset 0 e.counts category (tget 0 e.counts category + 1)
    overflow := if full then e.overflow + 1 else e.overflow
    log := if full then e.log else e.log ++ [{ seq := n, reporter := reporter, category := category, addr := addr, syndrome := syndrome }] }

/-- Machine checks, poisoned sectors and poisoned replies that wait for the number of an error event receive it (R269). -/
def fillNumber (s : State) (ticket n : Nat) : State :=
  let num := fun (e : Nat × Option Nat) => if e.2 = some ticket then (n, none) else e
  { s with
    poisonBy := tmapv num s.poisonBy
    reqs := s.reqs.map fun r => { r with err := num r.err }
    blocks := tmapv (fun k : Block => { k with groups := tmapv (fun q : Group => { q with
      pend := q.pend.map fun p => if p.ticket = some ticket then { p with ticket := none, eseq := n } else p
      slots := tmapv (fun t : TruthSlot => { t with err := tmapv num t.err }) q.slots }) k.groups }) s.blocks }

/-- One event of the tick enters the black box; an error event is numbered first, and a message is sent (R92, R99, R100). -/
def collectOne (s : State) (x : Notice) : State :=
  match x.err with
  | none => { s with svc := keepEntry s.svc x.entry }
  | some (category, addr, syndrome) =>
    let e := numberError s.svc.errors x.rep category addr syndrome
    sendMsi (fillNumber { s with svc := keepEntry { s.svc with errors := e } { x.entry with eseq := e.seq } } x.ticket e.seq) 2

/-- The end of a tick: its events are numbered and recorded in ascending reporter index, each reporter's in its own order (R99,
R100). -/
def collect (s : State) : State :=
  (sortBy (fun x : Notice => x.rep) s.svc.news).foldl collectOne { s with svc := { s.svc with news := [] } }

/-! ## Sync words (R84) -/

def State.chan (s : State) (p c : Nat) : Chan := tget {} (s.part p).chans c
def modChan (s : State) (p c : Nat) (f : Chan → Chan) : State := modPart s p fun q => { q with chans := tmod {} q.chans c f }

/-- The value of a sync word: of device memory as its home holds it, of host memory as the host-line buffer last read it. -/
def syncValue (s : State) (w : Bool × Nat) (polled : Option Nat) : Option Nat := if w.1 then polled else some (memRead s w.2 8)

/-- One wait holds: unused, unsigned ≥, or equal (R81). -/
def waitHolds (s : State) (code target : Nat) (w : Option (Bool × Nat)) (polled : Option Nat) : Bool :=
  match code, w.bind fun a => syncValue s a polled with
  | 1, some x => decide (target ≤ x)
  | 2, some x => x == target
  | 0, _ => true
  | _, _ => false

/-- Evaluate the waits of the record at a channel's head: it may start once every used wait holds at one evaluation. -/
def evalChan (s : State) (p c : Nat) : State :=
  let k := s.chan p c
  match k.wait with
  | none => s
  | some r =>
    if k.ready || waitHolds s (r.wait0 % 8) r.wait0v k.w0 k.v0 && waitHolds s (r.wait1 % 8) r.wait1v k.w1 k.v1 then
      modChan s p c fun k => { k with ready := true }
    else s

/-- Channels that wait on a word within n bytes at a place. -/
def waitersOn (s : State) (host : Bool) (a n : Nat) : List (Nat × Nat) :=
  (tkeys s.parts).flatMap fun p => ((tkeys (s.part p).chans).filter fun c =>
    let k := s.chan p c
    let on := fun (w : Option (Bool × Nat)) => match w with
      | some x => x.1 == host && decide (a < x.2 + 8) && decide (x.2 < a + n)
      | none => false
    k.wait.isSome && (on k.w0 || on k.w1)).map fun c => (p, c)

/-- A write or atomic of any source has been applied to device memory: the sync words it touches are evaluated. -/
def syncEval (s : State) (a n : Nat) : State := (waitersOn s false a n).foldl (fun s e => evalChan s e.1 e.2) s

/-- The device itself writes n bytes at a, outside any request (page-table marks, logs, rings, vat entries, saves and images): lines there
that the host caches are snooped, and the host has answered BISnpInv where the step stands (R73). DESIGN CHOICE (log 113). -/
def snoopOwn (s : State) (a n : Nat) : State :=
  if s.hostCached.isEmpty then s
  else { s with hostCached := s.hostCached.filter fun k => decide (k < a / 64) || decide ((a + n - 1) / 64 < k) }

/-- The device writes a number in its own memory. -/
def devNum (s : State) (a n x : Nat) : State := syncEval (putNum (snoopOwn s a n) a n x) a n

/-- The device writes bytes that lie together. -/
def devBytes (s : State) (a : Nat) (bs : List Byte) : State :=
  syncEval (putBytes (snoopOwn s a bs.length) (bs.zipIdx.map fun e => (a + e.2, e.1))) a bs.length

/-! ## Hypothesis tree (R212–R214) -/

def nodeOf (s : State) (h id : Nat) : Node := tget {} (s.hctxOf h).nodes id

/-- The chain from a node to the root, the node first; at most 16 long (R213, R215). -/
def chainOf (s : State) (h : Nat) : Nat → Nat → List Nat
  | 0, id => [id]
  | n + 1, id => if id = 0 then [0] else id :: chainOf s h n (nodeOf s h id).parent

/-- The chain of a node; ids of no live tree have a chain of at most 16. -/
def chain (s : State) (h id : Nat) : List Nat := chainOf s h 16 id

/-- Anc(a, d): a is d or an ancestor of d (R214). -/
def anc (s : State) (h a d : Nat) : Bool := (chain s h d).contains a

/-! ## Versions and the visible byte (R218, R219) -/

/-- The version of a sector held by a node. -/
def versionOf (s : State) (h id sector : Nat) : Option Version :=
  s.versions.find? fun v => v.hctx == h && v.id == id && v.sector == sector

/-- Visible(x, h): the byte of the nearest version on the chain that holds it, else the committed byte (R219). -/
def visible (s : State) (h id pa : Nat) : Byte :=
  let off := pa % 64
  match (chain s h id).findSome? fun a =>
    if a = 0 then none
    else match versionOf s h a (sectorOf pa) with
      | some v => if v.mask.getLsbD off then some (tget 0 v.data off) else none
      | none => none with
  | some x => x
  | none => memByte s pa

/-- Bytes as a lane of hypothesis id sees them; committed bytes at the root (R177, R219). -/
def viewBytes (s : State) (h : Option Nat) (id pa n : Nat) : List Byte :=
  (List.range n).map fun k => match h with
    | some hc => if id = 0 then memByte s (pa + k) else visible s hc id (pa + k)
    | none => memByte s (pa + k)

/-! ## Page tables (R151–R153) -/

/-- Faults of a translation. -/
inductive XFault where
  | notPresent | badPte | permission | address
  deriving DecidableEq, Repr

/-- Cause code of a translation fault that is not replayable (R255). -/
def xfaultCode : XFault → Nat
  | .notPresent => 0x0A | .badPte => 0x09 | .permission => 0x08 | .address => 0x06

/-- What an access does, for permissions and the fault ring's access code (R152, R261). -/
inductive Acc where
  | read | write | fetch | atomic | red
  deriving DecidableEq, Repr

/-- Access code of a fault-ring entry (R261). -/
def accCode : Acc → Nat | .read => 0 | .write => 1 | .fetch => 2 | .atomic | .red => 3

/-- RD, WR or EX as the access needs them (R152, R383). -/
def permitted (e : TlbEntry) : Acc → Bool
  | .read => e.rd | .write | .red => e.wr | .fetch => e.ex | .atomic => e.rd && e.wr

def writes : Acc → Bool | .write | .atomic | .red => true | _ => false

/-- Reserved bits of an entry are zero: 57:52 and 2:1 (R152). -/
def pteReserved (e : Nat) : Bool := bits e 57 52 == 0 && bits e 2 1 == 0

/-- Fields in which the 16 entries of a 64 KiB page agree: all but ACC, DIRTY, SW and PFN bits 15:12 (R151). -/
def contigCore (e : Nat) : Nat := bits e 51 16 * 2 ^ 16 + bits e 9 0 + bits e 57 52 * 2 ^ 52

/-- The rule of R151 on the 16 entries around a CONTIG entry at address a. -/
def contigOk (s : State) (a : Nat) : Bool :=
  let base := a / 128 * 128
  (List.range 16).all fun i =>
    let e := memRead s (base + 8 * i) 8
    contigCore e == contigCore (memRead s a 8) && bits e 15 12 == i

/-- A leaf entry at physical address a, at a level whose page is size bytes: the translation of the 4 KiB page of va. -/
def leafEntry (s : State) (part a va size : Nat) : Except XFault TlbEntry :=
  let e := memRead s a 8
  let contig := bit e 9
  let tier := bit e 8
  let pfn := bits e 51 12 * 4096
  if contig && size != 4096 then .error .badPte
  else if pfn % size ≠ 0 then .error .badPte
  else if !tier && pfn ≥ 2 ^ 39 then .error .badPte
  else if contig && !contigOk s a then .error .badPte
  else .ok {
    frame := pfn + va % size / 4096 * 4096, size := if contig then 65536 else size
    tier := tier, hold := bit e 6, ex := bit e 5, wr := bit e 4, rd := bit e 3
    acc := bit e 10, dirty := bit e 11, leaf := a, gen := (s.part part).gen, part := part }

/-- The walk: four levels from the root (R151). -/
def walkFrom (s : State) (part va : Nat) : List Nat → Nat → Except XFault TlbEntry
  | [], _ => .error .badPte
  | sh :: rest, table =>
    let a := table + 8 * (va >>> sh % 512)
    let e := memRead s a 8
    if !bit e 0 then .error .notPresent
    else if !pteReserved e then .error .badPte
    else if bit e 7 then (if sh = 39 then .error .badPte else leafEntry s part a va (2 ^ sh))
    else if rest.isEmpty || bits e 11 8 ≠ 0 || bits e 6 3 ≠ 0 || bits e 51 39 ≠ 0 then .error .badPte
    else walkFrom s part va rest (bits e 51 12 * 4096)

def walk (s : State) (part va : Nat) : Except XFault TlbEntry :=
  walkFrom s part va [39, 30, 21, 12] (s.part part).root

/-- Key of a core's TLB entry: the partition never changes under a core that holds entries, so the page suffices. -/
def vpn (va : Nat) : Nat := va / 4096

/-- The same translation, whatever the cached ACC and DIRTY. -/
def sameXl (a b : TlbEntry) : Bool :=
  a.frame == b.frame && a.tier == b.tier && a.hold == b.hold && a.ex == b.ex && a.wr == b.wr && a.rd == b.rd && a.leaf == b.leaf

/-- The entry that serves an access: the TLB's where it holds one, or a fresh walk. Where the two differ either may
serve it, since the manual fixes no replacement in the TLBs (R156). DEDUCED (log 21). -/
def xlEntry (s : State) (core part va : Nat) : Except XFault TlbEntry :=
  let t := tget {} (s.core core).tlb (vpn va)
  let w := walk s part va
  if t.part = part ∧ t.leaf ≠ 0 then
    match w with
    | .ok e => if sameXl t e || pick s (vpn va) % 2 = 0 then .ok t else .ok e
    | .error f => if pick s (vpn va) % 2 = 0 then .ok t else .error f
  else w

/-- A physical address the partition may reach: in its granules and below the emergency range (R90, R267). -/
def reachable (s : State) (part pa : Nat) : Bool :=
  let p := s.part part
  decide (p.gran0 * 2 ^ 30 ≤ pa) && decide (pa < (p.gran0 + p.granN) * 2 ^ 30) && decide (pa < Config.emergencyBase)

/-- A successful translation. -/
structure Xl where
  pa   : Nat := 0
  tier : Bool := false
  hold : Bool := false
  entry : TlbEntry := {}
  deriving DecidableEq, Repr

/-- Translate for an access, without side effects (PTEST, R375). `host` is path 0x06, which needs a TIER 1 page. -/
def xlate (s : State) (core part va : Nat) (acc : Acc) (host : Bool) : Except XFault Xl :=
  -- bits 55:48 of a virtual address are zero (R147)
  if 2 ^ 48 ≤ va then .error .address
  else match xlEntry s core part va with
  | .error f => .error f
  | .ok e =>
    let pa := e.frame + va % 4096
    if !permitted e acc then .error .permission
    else if host && !e.tier then .error .address
    else if !e.tier && !reachable s part pa then .error .address
    else .ok { pa := pa, tier := e.tier, hold := e.hold, entry := e }

/-- Size code of a dirty-log entry (R154). -/
def sizeCode (n : Nat) : Nat := if n = 4096 then 0 else if n = 65536 then 1 else if n = 2 ^ 21 then 2 else 3

/-- Log a DIRTY transition, or drop it and set OVF where the ring is full (R155). -/
def logDirty (s : State) (part va size : Nat) : State :=
  let p := s.part part
  if !p.logEnable then s
  else
    let n := 2 ^ (p.logSize + 9)
    if (p.logHead + 2 ^ 32 - p.logTail) % 2 ^ 32 = n then modPart s part fun q => { q with logOvf := true }
    else
      let s := devNum s (p.logBase * 4096 + 8 * (p.logHead % n)) 8 (va / 4096 * 4096 + sizeCode size)
      modPart s part fun q => { q with logHead := (q.logHead + 1) % 2 ^ 32 }

/-- ACC, and for a write DIRTY, are set in the leaf entry by an atomic OR at its home before the access is sent; a DIRTY
transition is logged (R153, R155). -/
def notePte (s : State) (part va : Nat) (acc : Acc) (e : TlbEntry) : State :=
  let needD := writes acc && !e.dirty
  if e.acc && !needD then s
  else
    let old := memRead s e.leaf 8
    let s := devNum s e.leaf 8 ((old ||| 2 ^ 10) ||| (if needD then 2 ^ 11 else 0))
    if needD && !bit old 11 then logDirty s part (va / e.size * e.size) e.size else s

/-- The effects of a core's translation that succeeds; its TLB keeps the entry (R153). DEDUCED (log 21). -/
def noteXl (s : State) (core part va : Nat) (acc : Acc) (x : Xl) : State :=
  let e := x.entry
  modCore (notePte s part va acc e) core fun c =>
    { c with tlb := tset {} c.tlb (vpn va) { e with acc := true, dirty := e.dirty || writes acc } }

/-! ## The fault ring (R259–R261) -/

/-- Write a fault-ring entry where the ring has room; the rest wait in the device (R261). -/
def drainRing (s : State) (part : Nat) : State :=
  let p := s.part part
  let n := 2 ^ (p.ringSize + 8)
  p.ringWait.foldl (fun t e =>
    let q := t.part part
    if !q.ringEnable || (q.ringHead + 2 ^ 32 - q.ringTail) % 2 ^ 32 == n then t
    else
      let a := q.ringBase * 4096 + 16 * (q.ringHead % n)
      let t := devNum (devNum t a 8 e.1) (a + 8) 8 e.2
      modPart t part fun r => { r with ringHead := (r.ringHead + 1) % 2 ^ 32, ringWait := r.ringWait.drop 1 }) s

/-- A new entry: its ID, FAULT_WAIT, and the entry itself (R254, R259). flags holds bits 3:0 of word 0. FAULT_WAIT is raised for the entry
of a save too. DESIGN CHOICE (log 112). -/
def faultEntry (s : State) (part va flags lcore chan grp : Nat) : Nat × State :=
  let id := (s.part part).nextFault
  let w1 := lcore * 2 ^ 40 + chan * 2 ^ 36 + grp * 2 ^ 32 + id
  let s := modPart s part fun p =>
    { p with nextFault := (id + 1) % 2 ^ 16, outstanding := p.outstanding ++ [id]
             ringWait := p.ringWait ++ [(va / 4096 * 4096 + flags, w1)] }
  (id, raiseInt (drainRing s part) part 19)

/-! ## TLB invalidation (R156) -/

/-- Drop the entries of every core of the partition that match: all, or those of pages that contain va. DEDUCED (log 21). -/
def dropTlb (s : State) (part : Nat) (va : Option Nat) : State :=
  { s with cores := tmapv (fun c : Core =>
      { c with tlb := c.tlb.filter fun e => e.2.part != part || (match va with
          | some a => e.1 * 4096 / e.2.size != a / e.2.size
          | none => false) }) s.cores }

/-- Steps 1 and 2 of an invalidation: the generation, and the entries of every core. -/
def startInval (s : State) (part : Nat) (va : Option Nat) : State :=
  dropTlb (modPart s part fun p => { p with gen := (p.gen + 1) % 256, invBusy := true }) part va

end Sys2Proof.Machine
end

