-- ==== Sys2Proof/Machine/Operands.lean ====
section
/-! DEFINITION. Operands: which registers each field covers (R104, R144), what a lane reads from an operand
(R290, R291, R322, R347), fixed-latency producers and the scoreboard (R127, R138–R141), and how results are written. -/

namespace Sys2Proof.Machine

/-- What a word issues with: its group, the address it stands at, the issue set, the lanes whose guard is true, the
lanes whose guard is guessed, and its length in bytes (R131, R288). -/
structure Iss where
  b    : Nat := 0
  g    : Nat := 0
  core : Nat := 0
  ctx  : Nat := 0
  pc   : Nat := 0
  iss  : Mask := 0
  ex   : Mask := 0
  gg   : Mask := 0
  len  : Nat := 8
  deriving DecidableEq, Repr

/-! ## Registers covered by each field -/

/-- The type a word names, a plain 32-bit pattern where it names none. -/
def tyD (op : Nat) (w : Insn) : Ty := (tyOf op w).getD .b32

def two (b : Bool) : Nat := if b then 2 else 1

/-- Registers that D covers. -/
def spanD (op : Nat) (w : Insn) : Nat :=
  let t := tyD op w
  match op with
  | 0x06 => two (wide t || w.mod.toNat / 2 == 1)
  | 0x19 | 0x1A | 0x46 | 0xC2 => 1
  | 0x22 => 2
  | 0x60 => if w.mod.toNat = 0 then 1 else countOf w
  | 0x64 => if w.mod.toNat = 1 then countOf w else 1
  | 0x61 => match w.sub.toNat with | 0 => two (wide t) | 1 => two (wide (fpxOf w)) | 2 => 2 | _ => 1
  | 0x65 => two (wide (fpxOf w))
  | 0x62 | 0x63 => 1
  | 0x70 | 0x71 | 0x72 | 0x73 => nregOf t
  | 0xE4 => two (w.sub.toNat == 1)
  | 0xF0 => two (srWidth w.a.toNat == some 64)
  | _ => if op / 16 ≤ 5 ∨ op / 16 = 0xA ∨ op / 16 = 0xC ∨ op = 0xB7 then two (wide t) else 1

/-- Registers that A covers. -/
def spanA (op : Nat) (w : Insn) : Nat :=
  let t := tyD op w
  match op with
  | 0x0C => two (wide t && w.mod.toNat == 0)
  | 0x21 | 0x23 => 2
  | 0x60 => if w.mod.toNat = 0 then countOf w else 1
  | 0x64 => if w.mod.toNat = 0 then countOf w else 1
  | 0x61 => match w.sub.toNat with | 0 => two (wide (fpxOf w)) | 1 => two (wide t) | 3 => 2 | _ => 1
  | 0x65 => two (wide (fpxOf w))
  | 0x70 | 0x72 | 0x74 | 0x75 | 0x80 | 0x83 | 0x84 | 0xA0 | 0xA1 => 2
  | 0xB6 => two (w.sub.toNat == 1)
  | 0xE3 => two (eForm w == 2)
  | 0xF4 => 2
  | _ => if op / 16 ≤ 5 ∨ op / 16 = 0xC then two (wide t) else 1

/-- Registers that B covers. -/
def spanB (op : Nat) (w : Insn) : Nat :=
  let t := tyD op w
  match op with
  | 0x10 | 0x11 | 0x12 | 0x13 => 1
  | 0x80 | 0x81 | 0x82 => nregOf t
  | 0xE3 => two (eForm w != 3)
  | 0xF1 => two (w.a.toNat == 0x021)
  | 0xF8 => 2
  | _ => if op / 16 ≤ 5 ∨ op / 16 = 0xA then two (wide t) else 1

/-- Registers that C covers. -/
def spanC (op : Nat) (w : Insn) : Nat :=
  let t := tyD op w
  match op with
  | 0x06 => two (wide t || w.mod.toNat / 2 == 1)
  | 0x13 => 1
  | 0x70 | 0x71 | 0x72 => two (xLim w == 15 && xGsrc w == 3)
  | _ => if op / 16 ≤ 5 ∨ op / 16 = 0xA then two (wide t) else 1

/-- A form has a C field. -/
def hasC (w : Insn) : Bool := w.form == .c || w.form == .m || w.form == .e

/-- Operations that read the register they name in D. -/
def readsD (op : Nat) (w : Insn) : Bool :=
  ((op = 0x30 || op = 0x31) && w.mod.toNat != 0) || op = 0x91 || op = 0x92 || op = 0x93

/-- Fields that A names as a number, not as an operand. -/
def numberA (op : Nat) : Bool := op = 0xF0 || op = 0xF1

/-- A used operand field: zero fields that an operation does not use name V0 but cover nothing. -/
def usesD (op : Nat) (w : Insn) : Bool :=
  match op with
  | 0x20 | 0x21 | 0x23 | 0x24 | 0x25 | 0x26 | 0x27 | 0x74 | 0x80 | 0x81 | 0x82 | 0x83 | 0x84 | 0xA1 | 0xB0 | 0xB1 | 0xB3
  | 0xB5 | 0xB6 | 0xD1 | 0xD2 | 0xE0 | 0xE3 | 0xF1 | 0xF2 | 0xF3 | 0xF4 | 0xF6 | 0xF7 | 0xF8 => false
  | 0xE1 => w.sub.toNat == 0
  | _ => true
def usesA (op : Nat) (w : Insn) : Bool :=
  match op with
  | 0x0E | 0x20 | 0x22 | 0x24 | 0x26 | 0x27 | 0x28 | 0x91 | 0x92 | 0x93 | 0xB0 | 0xB7 | 0xC5 | 0xD2 | 0xF0 | 0xF1 | 0xF2
  | 0xF3 | 0xF6 => false
  | 0xD0 => w.sub.toNat == 1
  | 0xF4 => w.sub.toNat == 0
  | _ => true
def usesB (op : Nat) (w : Insn) : Bool :=
  match op with
  | 0x07 | 0x08 | 0x0D | 0x0E | 0x17 | 0x19 | 0x1A | 0x1B | 0x46 | 0x60 | 0x61 | 0x65 | 0x90 | 0x92 | 0x93 | 0xB0 | 0xB1
  | 0xB2 | 0xB6 | 0xB7 | 0xC6 | 0xE0 | 0xE2 | 0xE4 | 0xE5 | 0xF0 | 0xF2 | 0xF3 | 0xF4 | 0xF6 => false
  | 0x64 => w.mod.toNat != 2
  | 0x91 => w.sub.toNat == 1
  | 0xD4 => w.sub.toNat == 1
  | 0xE1 => w.sub.toNat == 2
  | 0xF7 => w.sub.toNat == 0
  | _ => !(op / 16 = 2 || op / 16 = 7 || (0x58 ≤ op && op ≤ 0x5F)) && !(op / 16 = 0xD)
def usesC (op : Nat) (w : Insn) : Bool :=
  match w.form with
  | .c => true
  | .m => (op / 16 = 7 && !scalarForm w && (xLim w == 15 || xGsrc w == 3)) || (op = 0xA0 && w.sub.toNat == 6)
  | .e => eForm w == 2
  | _ => false

/-- The operand fields of a word: operand, registers covered, read, written. -/
def useList (op : Nat) (w : Insn) : List (Opd × Nat × Bool × Bool) :=
  (if usesD op w then [(opD w, spanD op w, readsD op w, true)] else []) ++
  (if usesA op w then [(opA w, spanA op w, true, false)] else []) ++
  (if usesB op w then [(opB w, spanB op w, op != 0x91, op == 0x91)] else []) ++
  (if usesC op w then [(opC w, spanC op w, true, false)] else [])

/-- V or S register beyond the group's allocation (R104). -/
def beyond (r : Record) : Opd × Nat × Bool × Bool → Bool
  | (.v n, k, _, _) => decide (r.regs < n + k)
  | (.s n, _, _, _) => decide (r.scalars ≤ n)
  | _ => false

/-! ## Producers and the scoreboard -/

/-- Keys that an operand covers in a lane. -/
def opKeys (o : Opd) (k L : Nat) : List Nat :=
  match o with
  | .v n => (List.range k).map fun j => vKey (n + j) L
  | .p n => [pKey n L]
  | .s n => [sKey n]
  | _ => []

/-- Every key a word reads in the issue set, its guard's included. -/
def readKeys (op : Nat) (w : Insn) (m : Mask) : List Nat :=
  (lanesOf m).flatMap fun L => pKey (w.g.toNat % 16) L ::
    (useList op w).flatMap fun u => if u.2.2.1 then opKeys u.1 u.2.1 L else []

/-- Every key a word writes. -/
def writeKeys (op : Nat) (w : Insn) (m : Mask) : List Nat :=
  (lanesOf m).flatMap fun L => (useList op w).flatMap fun u => if u.2.2.2 then opKeys u.1 u.2.1 L else []

/-- A pending variable-latency result (R127). -/
def pendingAny (g : Group) (ks : List Nat) : Bool := g.pending.any fun e => e.2 != 0 && ks.contains e.1

/-- A fixed-latency producer that has not finished (R141). -/
def unfinished (g : Group) (cyc : Nat) (ks : List Nat) : Bool :=
  g.prods.any fun p => decide (cyc < p.ready) && ks.contains p.key

/-- A V register a word writes is lent to the matrix engine (R127, R248). Key of a lent register: block, group, V. -/
def lentKey (b g r : Nat) : Nat := 2 ^ 13 * b + 2 ^ 9 * g + r
def lentAny (s : State) (b g : Nat) (op : Nat) (w : Insn) : Bool :=
  let t := (s.core (s.block b).core).lent
  !t.isEmpty && (useList op w).any fun u => u.2.2.2 && match u.1 with
    | .v n => (List.range u.2.1).any fun j => tget 0 t (lentKey b g (n + j)) != 0
    | _ => false

/-- A word writes a register that is a destination of a COPY not yet delivered (R252). -/
def copyDest (s : State) (b g op : Nat) (w : Insn) (m : Mask) : Bool :=
  let jobs := (s.blocks.flatMap fun e => e.2.copies.flatMap fun j => j.regs).filter fun r => r.1 == b && r.2.1 == g
  !jobs.isEmpty && m != 0 && (useList op w).any fun u => u.2.2.2 && match u.1 with
    | .v n => (List.range u.2.1).any fun j => jobs.any fun r => r.2.2 == n + j
    | _ => false

/-- What a consumer reads from a register whose producers, newest first, may not have finished: the result, or what the
register held before (R140). DEDUCED (log 16). -/
def choose (s : State) (salt : Nat) : (W64 × Bool) → List Producer → W64 × Bool
  | cur, [] => cur
  | cur, p :: ps => if pick s (salt * 64 + ps.length) % 2 = 0 then cur else choose s salt (p.old, p.oldG) ps

/-- A register as read by a word issuing now. DEDUCED (log 16). -/
def throughProds (s : State) (g : Group) (cyc key : Nat) (cur : W64 × Bool) : W64 × Bool :=
  match g.prods.filter fun p => p.key == key && decide (cyc < p.ready) with
  | [] => cur
  | ps => choose s key cur ps

def readV (s : State) (b g r L : Nat) : W32 × Bool :=
  let q := s.group b g
  let x := throughProds s q (cyclesOf s b) (vKey r L) ((q.vReg r L).setWidth 64, q.vGuess r L)
  (x.1.setWidth 32, x.2)
def readP (s : State) (b g p L : Nat) : Bool × Bool :=
  let q := s.group b g
  if p = 15 then (true, false)
  else
    let x := throughProds s q (cyclesOf s b) (pKey p L) (w64 (b2n (q.pred p L)), q.pGuess p L)
    (x.1 != 0, x.2)
def readS (s : State) (b g n : Nat) : W64 :=
  let q := s.group b g
  if n = 0 then 0 else (throughProds s q (cyclesOf s b) (sKey n) (q.sReg n, false)).1

/-! ## Values -/

/-- A 9-bit immediate widened to a type (R291). -/
def imm9 (t : Ty) (x : Int) : Nat :=
  match t with
  | .f32 | .f16 | .bf16 | .f64 => (roundF (fmtOf t) 0 false (ofInt x)).1
  | _ => wrap (tyBits t) x

/-- A 32-bit immediate widened to a type (R291). DEDUCED (log 20). -/
def imm32 (t : Ty) (x : Nat) : Nat :=
  match t with
  | .i64 | .b64 => wrap 64 (sext 32 x)
  | .f64 => (roundF .f64 0 false (decodeF .f32 x)).1
  | _ => x

/-- The value of an operand of a type in a lane, and its guess bit (R290, R291, R322, R347): a V register, or an even pair
with the odd register high; the low bits of S; a predicate as 1 or 0. -/
def valOf (s : State) (i : Iss) (t : Ty) (o : Opd) (L : Nat) : Nat × Bool :=
  match o with
  | .v n =>
    let lo := readV s i.b i.g n L
    if wide t then
      let hi := readV s i.b i.g (n + 1) L
      (lo.1.toNat + 2 ^ 32 * hi.1.toNat, lo.2 || hi.2)
    else (lo.1.toNat % 2 ^ tyBits t, lo.2)
  | .s n => ((readS s i.b i.g n).toNat % 2 ^ tyBits t, false)
  | .p n => let x := readP s i.b i.g n L; (b2n x.1, x.2)
  | .imm x => (imm9 t x, false)
  | .imm32 x => (imm32 t x, false)
  | _ => (0, false)

/-- Bits 31:0 of an operand, unsigned. -/
def val32 (s : State) (i : Iss) (o : Opd) (L : Nat) : Nat := (valOf s i .b32 o L).1
/-- A 64-bit operand: a pair, all of S, or a sign-extended immediate. -/
def val64 (s : State) (i : Iss) (o : Opd) (L : Nat) : Nat := (valOf s i .b64 o L).1

/-- The guess bit of an operand that covers k registers. -/
def guessOf (s : State) (i : Iss) (o : Opd) (k L : Nat) : Bool :=
  match o with
  | .v n => (List.range k).any fun j => (readV s i.b i.g (n + j) L).2
  | .p n => (readP s i.b i.g n L).2
  | _ => false

/-! ## Results -/

/-- Note a fixed-latency producer: what the register held, and until when it is unfinished (R139–R141). A consumer that the newest
producer of a register no longer holds up reads its result: earlier ones count until then at most. DEDUCED (log 16). -/
def Group.note (q : Group) (key ready : Nat) (old : W64) (oldG : Bool) : Group :=
  { q with prods := { key := key, ready := ready, old := old, oldG := oldG } ::
      q.prods.map fun p => if p.key = key then { p with ready := min p.ready ready } else p }

/-- A register written without a fixed latency has no unfinished producer left. -/
def Group.settled (q : Group) (key : Nat) : Group := { q with prods := q.prods.filter fun p => p.key != key }

/-- A word writes a V register whose pending result an earlier word owes: that result comes too late for it (R139). -/
def Group.stamp (q : Group) (key : Nat) : Group :=
  if tget 0 q.pending key = 0 then q else { q with lastW := tset 0 q.lastW key q.words }

/-- Write register r of lane L as the result of a word: latency 0 is a variable-latency result, which is scoreboarded
instead of timed. An origin loses its binding (R204). -/
def Group.resV (q : Group) (cyc lat r L : Nat) (x : W32) (gb : Bool) : Group :=
  let q := if lat = 0 then q.settled (vKey r L) else q.note (vKey r L) (cyc + lat) ((q.vReg r L).setWidth 64) (q.vGuess r L)
  ((q.stamp (vKey r L)).unbind r L).putV r L x gb
def Group.resP (q : Group) (cyc lat p L : Nat) (x gb : Bool) : Group :=
  let q := if p = 15 then q else if lat = 0 then q.settled (pKey p L) else q.note (pKey p L) (cyc + lat) (w64 (b2n (q.pred p L))) (q.pGuess p L)
  q.putP p L x gb
def Group.resS (q : Group) (cyc lat n : Nat) (x : W64) : Group :=
  let q := if n = 0 then q else if lat = 0 then q.settled (sKey n) else q.note (sKey n) (cyc + lat) (q.sReg n) false
  q.putS n x

/-- A result lands in registers (V, lane) that are lent: the matrix engine, which may read them in this cycle, reads what each held before
or what it holds now (R438). `s` is the state before. -/
def landed (s t : State) (b g : Nat) (rs : List (Nat × Nat)) : State :=
  let lent := (s.core (s.block b).core).lent
  if lent.isEmpty then t
  else
    let cyc := cyclesOf s b
    let q := s.group b g
    modGroup t b g fun u => rs.foldl (fun u r =>
      let k := vKey r.1 r.2
      if tget 0 lent (lentKey b g r.1) = 0 then u
      else { u with prods := { key := k, ready := cyc, old := (q.vReg r.1 r.2).setWidth 64, oldG := q.vGuess r.1 r.2 } ::
                      q.prods.filter (fun p => p.key == k && p.ready == cyc) ++ u.prods.filter fun p => p.key != k }) u

/-- The registers of a result in one lane. -/
def regsOf (dest nreg L : Nat) : List (Nat × Nat) := (List.range nreg).map fun k => (dest + k, L)
def vRegsOf (o : Opd) (nreg L : Nat) : List (Nat × Nat) := match o with | .v n => regsOf n nreg L | _ => []

/-- Write one lane's value of a type to V (a pair for 64 bits) or to a predicate. -/
def Group.resLane (q : Group) (cyc lat : Nat) (wd : Bool) (o : Opd) (L x : Nat) (gb : Bool) : Group :=
  match o with
  | .v n =>
    let q := q.resV cyc lat n L (w32 x) gb
    if wd then q.resV cyc lat (n + 1) L (w32 (x / 2 ^ 32)) gb else q
  | .p n => q.resP cyc lat n L (decide (x ≠ 0)) gb
  | _ => q

/-- Extension of a 32-bit result written to S (R322). -/
def toS (t : Ty) (x : Nat) : W64 := if isI t then w64 (wrap 64 (sext (tyBits t) x)) else w64 (x % 2 ^ tyBits t)

/-- The guard's guess bit joins every destination of the lane, written or not (R206). -/
def Group.guardV (q : Group) (r L : Nat) : Group := { q with rguess := tset false q.rguess (vKey r L) true }
def Group.guardP (q : Group) (p L : Nat) : Group :=
  if p = 15 then q else { q with pguess := tset false q.pguess (32 * p + L) true }
def Group.orGuard (q : Group) (gg : Mask) (o : Opd) (k : Nat) : Group :=
  match o with
  | .v n => (lanesOf gg).foldl (fun q L => (List.range k).foldl (fun q j => q.guardV (n + j) L) q) q
  | .p n => (lanesOf gg).foldl (fun q L => q.guardP n L) q
  | _ => q

/-- Pd of HOPEN and QTRY: MOD names a predicate (R409, R422). -/
def modP (w : Insn) : Opd := .p w.mod.toNat

/-- The destinations of a word take their lanes' guard guess bits, written or not (R206). -/
def guessDests (s : State) (i : Iss) (ds : List (Opd × Nat)) : State :=
  modGroup s i.b i.g fun q => ds.foldl (fun q d => q.orGuard i.gg d.1 d.2) q

/-- Write a result of a type to D in the lanes of m, or once to an S register; the guard's guess bit is ORed in. -/
def putD (s : State) (i : Iss) (lat : Nat) (t : Ty) (o : Opd) (m : Mask) (val : Nat → Nat) (gb : Nat → Bool) : State :=
  let cyc := cyclesOf s i.b
  modGroup s i.b i.g fun q =>
    match o with
    | .s n => match lanesOf m with
      | L :: _ => q.resS cyc lat n (toS t (val L))
      | [] => q
    | _ =>
      let q := (lanesOf m).foldl (fun q L => q.resLane cyc lat (wide t) o L (val L) (gb L)) q
      q.orGuard i.gg o (two (wide t))

end Sys2Proof.Machine
end

