-- ==== Sys2Proof/Machine/Ops.lean ====
section
/-! DEFINITION. The shared operations of instructions: the issue set (R131), fetch and pad words (R284–R286), moving a
lane, taking a trap and returning from one (R255–R265, R427–R428), parking on a translation fault (R259), and the stages
in which every word is checked and executed (R256). -/

namespace Sys2Proof.Machine

/-! ## The issue set -/

/-- Parking causes (R445). -/
def pkQueue : Nat := 1
def pkItem : Nat := 2
def pkLine : Nat := 3
def pkDemand : Nat := 4
def pkRejoin : Nat := 5
def pkBari : Nat := 6
def pkBarw : Nat := 7
def pkSleep : Nat := 8
def pkCross : Nat := 9
def pkWaitev : Nat := 10
def pkBlock : Nat := 11

/-- The lane waits: it is parked, and no exit has released it from a cross-lane word (R136, R399). -/
def Lane.waits (l : Lane) : Bool := l.park.cause != 0 && !(l.park.cause == pkCross && l.park.released)

/-- Eligible lanes (R131): in LIVE and not parked; in trap mode only lanes of the handler set that have not executed RTE
(R263, R428). A lane whose HYP was refuted stands here even while parked: its redirect releases it (R223). -/
def eligible (q : Group) : Mask :=
  maskOf fun L =>
    let l := q.lane L
    inMask q.live L && (!l.waits || l.refuted.isSome) &&
    (!q.trapMode || (inMask q.handlerSet L && !inMask q.rteHeld L))

/-- Key order: LAP, then LPC (R131). -/
def keyLt (a b : Nat × Nat) : Bool := decide (a.1 < b.1) || (a.1 == b.1 && decide (a.2 < b.2))

def laneKey (l : Lane) : Nat × Nat := (l.lap, l.lpc.toNat)

/-- The smallest key among lanes of a set. -/
def minKey (q : Group) (m : Mask) : Option (Nat × Nat) :=
  (lanesOf m).foldl (fun acc L =>
    let k := laneKey (q.lane L)
    match acc with | none => some k | some a => some (if keyLt k a then k else a)) none

/-- The lanes, with their address, that a group which was parked on a fault executes first: those still eligible there (R260). -/
def replaySet (q : Group) : Option (Nat × Mask) :=
  match q.replay with
  | none => none
  | some (pc, m) =>
    let r := maskOf fun L => inMask (eligible q) L && inMask m L && (q.lane L).lpc == pc
    if r = 0 then none else some (pc.toNat, r)

/-- The issue set of a group and its address; none where no lane is eligible. -/
def issueSet (q : Group) : Option (Nat × Mask) :=
  match replaySet q with
  | some r => some r
  | none =>
    let e := eligible q
    match minKey q e with
    | none => none
    | some k => some (k.2, maskOf fun L => inMask e L && laneKey (q.lane L) == k)

/-! ## Code (R167, R284–R286, R306) -/

/-- Key of an instruction-cache line: its number among device addresses, or above them among host addresses. -/
def iLine (tier : Bool) (pa : Nat) : Nat := pa / 256 + if tier then 2 ^ 60 else 0

/-- The word of code that memory holds now. -/
def codeNow (s : State) (tier : Bool) (pa : Nat) : Nat := if tier then ofLeBytes (hostBytes s pa 4) else memRead s pa 4

/-- A word of code: of its cached line as that was filled, or of memory, either where they differ (R167). DEDUCED (log 22). -/
def codeAt (s : State) (core : Nat) (tier : Bool) (pa : Nat) : Nat :=
  let now := codeNow s tier pa
  match (s.core core).icache.find? (fun e : Nat × CodeLine => e.1 == iLine tier pa) with
  | some e =>
    let old := (e.2.words.getD (pa % 256 / 4) 0).toNat
    if old = now || pick s (2 ^ 40 + pa) % 2 = 0 then old else now
  | none => now

/-- The word at a code address, without side effects; none where the fetch would fault. -/
def peekWord (s : State) (b va : Nat) : Option Nat :=
  let k := s.block b
  if va ≥ 2 ^ 48 then none
  else match xlate s k.core (s.context k.ctx).part va .fetch false with
  | .ok x => some (codeAt s k.core x.tier x.pa)
  | .error _ => none

/-- Past the pad words at an address (R286). A lane stops at the first word that is not a pad, or that cannot be read. -/
def skipPads (s : State) (b : Nat) : Nat → Nat → Nat
  | 0, va => va
  | n + 1, va => match peekWord s b va with
    | some 3 => skipPads s b n (va + 4)
    | _ => va

/-- Where a lane stands once its LPC is set to va: no more words than the address space holds. -/
def landing (s : State) (b va : Nat) : Nat := skipPads s b (2 ^ 46) va

/-! ## Moving lanes -/

/-- Set the LPC of a lane; LAP rises by 1 when the target is at or below the lane's LPC (R132). -/
def Lane.transfer (l : Lane) (t : Nat) : Lane :=
  { l with lpc := w64 t, lap := if t ≤ l.lpc.toNat then l.lap + 1 else l.lap }

/-- Every lane of a set falls through to the next instruction; LAP is unchanged (R131). -/
def advance (s : State) (i : Iss) (m : Mask) : State :=
  let t := landing s i.b (i.pc + i.len)
  modGroup s i.b i.g fun q => q.mapLanes m fun _ l => { l with lpc := w64 t }

/-- A transfer by each lane of a set to its own target. -/
def transferTo (s : State) (i : Iss) (m : Mask) (target : Nat → Nat) : State :=
  modGroup s i.b i.g fun q => q.mapLanes m fun L l => l.transfer (landing s i.b (target L))

/-! ## Traps (R255–R265) -/

/-- A trap about to be taken: cause, DETAIL, ESEQ, FAULT_MASK, CAUSE_MASK and the faulting addresses. -/
structure TrapReq where
  cause  : Nat := 0
  detail : Nat := 0
  eseq   : Nat := 0
  fm     : Mask := 0
  cm     : Mask := 0
  va     : List (Nat × Nat) := []
  deriving DecidableEq, Repr

/-- Stop a context on an unhandled trap (R265): its gangs are to be pre-empted, its groups issue nothing more. The STOP
fields, CTX_STOPPED and the black-box entry follow the save. -/
def stopContext (s : State) (b g cause detail pc : Nat) : State :=
  let k := s.block b
  let h := k.ctx
  let gangs := dedup ((tkeys s.blocks).filterMap fun j => let q := s.block j; if q.ctx = h ∧ q.resident then some q.gangSeq else none)
  let s := modCtx s h fun c => match c.stop with
    | some _ => c
    | none => { c with stop := some { cause := cause, detail := detail, pc := w64 pc, lcore := k.lcore, grp := g, core := if k.resident then k.core else 0xFFFF }
                       saving := dedup (c.saving ++ gangs) }
  { s with blocks := tmapv (fun q : Block =>
      if q.ctx = h then { q with groups := tmapv (fun r : Group => { r with stopped := true }) q.groups } else q) s.blocks }

/-- The handler of a cause in the trap table (R262): an address, no valid entry, or the fault code of the read. DEDUCED (log 88). -/
def handlerOf (s : State) (b cause : Nat) : Except Nat (Option Nat) :=
  let k := s.block b
  let t := (recordOf s b).trapTable
  if t = 0 then .ok none
  else
    let read := fun (n : Nat) =>
      match xlate s k.core (s.context k.ctx).part (t + 8 * n) .read false with
      | .ok x => Except.ok (if x.tier then ofLeBytes (hostBytes s x.pa 8) else memRead s x.pa 8)
      | .error f => Except.error (xfaultCode f)
    match read cause with
    | .error c => .error c
    | .ok e => if e % 2 = 1 then .ok (some (e / 4 * 4)) else match read 0 with
      | .error c => .error c
      | .ok d => .ok (if d % 2 = 1 then some (d / 4 * 4) else none)

/-- The reads of the trap table that taking a trap makes: the entry of the cause, and entry 0 where that one is not valid. A read whose
translation succeeds sets ACC (R153, R262). -/
def noteHandler (s : State) (b cause : Nat) : State :=
  let k := s.block b
  let t := (recordOf s b).trapTable
  let p := (s.context k.ctx).part
  let one : State → Nat → State × Nat := fun s n => match xlate s k.core p (t + 8 * n) .read false with
    | .ok x => (noteXl s k.core p (t + 8 * n) .read x, if x.tier then ofLeBytes (hostBytes s x.pa 8) else memRead s x.pa 8)
    | .error _ => (s, 1)
  if t = 0 then s
  else
    let r := one s cause
    if r.2 % 2 = 1 then r.1 else (one r.1 0).1

/-- Write the trap record (R257). -/
def trapRecord (s : State) (b g pc : Nat) (t : TrapReq) : State :=
  modGroup s b g fun q =>
    { q with
      replay := none, trapCause := w64 (t.eseq % 2 ^ 32 * 2 ^ 32 + t.detail % 256 * 256 + t.cause), trapPc := w64 pc
      faultMask := t.fm, causeMask := t.cm }.mapLanes (BitVec.allOnes 32) fun L l =>
        { l with faultVa := if inMask t.cm L then w64 (((t.va.find? fun e : Nat × Nat => e.1 = L).map Prod.snd).getD 0) else 0 }

/-- An MMA that waited for the matrix queue has not been accepted, nor a BBLOG that waited recorded: a group that leaves the
word issues it again (R245, R432). -/
def dropWaits (s : State) (b g : Nat) : State :=
  let k := s.block b
  let s := modCore s k.core fun c => { c with mmaWait := c.mmaWait.filter fun x => !(x.block == b && x.grp == g) }
  modCtx s k.ctx fun c => { c with logWait := c.logWait.filter fun x => !(x.block == b && x.grp == g) }

/-- When the smallest LAP among live lanes reaches 2^31, every live lane's falls by 2^31 (R132). -/
def renormalise (s : State) (b g : Nat) : State :=
  let q := s.group b g
  let laps := (lanesOf q.live).map fun L => (q.lane L).lap
  if laps.isEmpty || laps.any (fun x => decide (x < 2 ^ 31)) then s
  else modGroup s b g fun r => r.mapLanes r.live fun _ l => { l with lap := l.lap - 2 ^ 31 }

/-- Enter the handler: the lanes of FAULT_MASK take its address and LAP + 1; the group is in trap mode (R263). -/
def enterHandler (s : State) (b g h : Nat) (fm : Mask) : State :=
  let t := landing s b h
  let s := dropWaits s b g
  renormalise (modGroup s b g fun q =>
    { q with trapMode := true, handlerSet := fm, rteHeld := 0, rteNextM := 0 }.mapLanes fm fun _ l =>
      { l with lpc := w64 t, lap := l.lap + 1, park := {} }) b g

/-- Taking a trap: the record, then the handler; unhandled where the group is in trap mode, no entry is valid, the table
cannot be read or a LAP would pass its range (R257, R262–R265). DEDUCED (log 15). DEDUCED (log 88). -/
def takeTrap (s : State) (b g pc : Nat) (t : TrapReq) : State :=
  let q := s.group b g
  let s := trapRecord s b g pc t
  if q.trapMode then stopContext s b g t.cause t.detail pc
  else
  let h := handlerOf s b t.cause
  let s := noteHandler s b t.cause
  match h with
  | .error c => stopContext s b g c 0 pc
  | .ok none => stopContext s b g t.cause t.detail pc
  | .ok (some h) =>
    if (lanesOf t.fm).any fun L => (q.lane L).lap + 1 ≥ 2 ^ 32 then stopContext s b g t.cause t.detail pc
    else enterHandler s b g h t.fm

/-- Park a group on replayable translation faults of a word: one fault-ring entry for each faulting page (R259). With the
ring not enabled every fault is aborted at once (R261). `pages` holds page address and lanes. DEDUCED (log 87). -/
def parkGroup (s : State) (b g pc : Nat) (fm : Mask) (acc : Acc) (pages : List (Nat × Mask)) (va : List (Nat × Nat)) : State :=
  let k := s.block b
  let c := s.context k.ctx
  if !(s.part c.part).ringEnable then
    takeTrap s b g pc { cause := 0x0A, fm := fm, cm := fm, va := va }
  else
    let r := pages.foldl (fun (acc2 : State × List FaultId) p =>
      let e := faultEntry acc2.1 c.part p.1 (accCode acc) k.lcore c.chan g
      (e.2, acc2.2 ++ [{ id := e.1, page := p.1, lanes := p.2, va := va.filter fun x => inMask p.2 x.1 }])) (s, [])
    modGroup r.1 b g fun q =>
      let q := { q with pfParked := true, faultIds := r.2, replay := some (w64 pc, fm) }
      if q.trapMode then q else { q with trapPc := w64 pc, faultMask := fm }

/-! ## Return from a trap (R428) -/

/-- Word length for RTE: from LEN of the word at TRAP_PC; 4 for LEN 0b11 (R428). -/
def rteLength (w0 : Nat) : Nat := if w0 % 4 = 3 then 4 else 8 + 4 * (w0 % 4)

/-- A lane that has executed RTE goes back to TRAP_PC: its form is plain and it is in FAULT_MASK (R428). -/
def Group.goesBack (q : Group) (nextM : Mask) (L : Nat) : Bool := !inMask nextM L && inMask q.faultMask L

/-- Lanes whose LAP the RTE of a set raises: where it is the last of the handler set, those that go backward (R132, R428). -/
def rteBump (next : Bool) (s : State) (i : Iss) : Mask :=
  let q := s.group i.b i.g
  let held := (q.rteHeld ||| i.ex) &&& q.live
  if !q.trapMode || q.handlerSet &&& q.live &&& ~~~held ≠ 0 then 0
  else
    let nextM := if next then q.rteNextM ||| i.ex else q.rteNextM &&& ~~~i.ex
    let pc := q.trapPc.toNat
    let past := (peekWord s i.b pc).map fun w => landing s i.b (pc + rteLength w)
    maskOf fun L => inMask held L && match (if q.goesBack nextM L then some (landing s i.b pc) else past) with
      | some t => decide (t ≤ (q.lane L).lpc.toNat)
      | none => false

/-- The word at TRAP_PC that a return past it reads, where it can be read (R428). -/
def rteFetch (s : State) (b g : Nat) : Except XFault Xl :=
  let k := s.block b
  xlate s k.core (s.context k.ctx).part (s.group b g).trapPc.toNat .fetch false

/-- The read of the word at TRAP_PC sets ACC, as a fetch does (R153, R428). -/
def noteRte (s : State) (b g : Nat) : State :=
  let k := s.block b
  match rteFetch s b g with
  | .ok x => noteXl s k.core (s.context k.ctx).part (s.group b g).trapPc.toNat .fetch x
  | .error _ => s

/-- End trap mode once every live lane of the handler set has executed RTE or exited. A lane goes to TRAP_PC where its
form is plain and it is in FAULT_MASK, else past the instruction there; LAP rises by R132 against the RTE's address. A fault of that
read that cannot be replayed is a trap at the RTE, raised in trap mode (R264), and so is a LAP past its range where an exit, not an
RTE, ends the handler set. -/
def finishRte (s : State) (b g : Nat) : State :=
  let q := s.group b g
  let waiting := q.handlerSet &&& q.live &&& ~~~q.rteHeld
  if !q.trapMode || waiting ≠ 0 || q.pfParked then s
  else
    let back := fun L => q.goesBack q.rteNextM L
    let held := q.rteHeld &&& q.live
    let pc := q.trapPc.toNat
    let at_ := ((lanesOf held).head?.map fun L => (q.lane L).lpc.toNat).getD 0
    let fm := maskOf fun L => inMask held L && (q.lane L).lpc.toNat == at_
    let fail := fun (c : Nat) (va : List (Nat × Nat)) => takeTrap s b g at_ { cause := c, fm := fm, cm := fm, va := va }
    let there := (lanesOf fm).map fun L => (L, pc)
    let leave := fun (t : State) (next : Nat) =>
      let l1 : Nat → Lane → Lane := fun L l => { l.transfer (if back L then landing s b pc else next) with park := {} }
      if (lanesOf held).any fun L => decide (2 ^ 32 ≤ (l1 L (q.lane L)).lap) then fail 0x04 []
      else modGroup t b g fun r => { r with trapMode := false, rteHeld := 0, rteNextM := 0, handlerSet := 0 }.mapLanes held l1
    if (lanesOf held).all back then leave s 0
    else if pc ≥ 2 ^ 48 then fail 0x06 there
    else match rteFetch s b g with
      | .ok x => leave (noteRte s b g) (landing s b (pc + rteLength (codeAt s (s.block b).core x.tier x.pa)))
      | .error .notPresent =>
        -- the lanes that completed RTE execute it again when the fault is answered
        let s := modGroup s b g fun r => { r with rteHeld := r.rteHeld &&& ~~~held, rteNextM := r.rteNextM &&& ~~~held }
        parkGroup s b g at_ held .fetch [(pc / 4096 * 4096, held)] there
      | .error f => fail (xfaultCode f) there

/-! ## Rejoin and cross-lane release (R133, R134, R398, R399) -/

/-- Lanes parked with a cause at an address. A refuted lane is none of them: it leaves for its handler (R223); nor is a lane that a trap
of its group holds: the others wait for it (R263, R413, R428). -/
def parkedAt (q : Group) (cause : Nat) (pc : W64) : Mask :=
  maskOf fun L => inMask q.live L && (q.lane L).park.cause == cause && (q.lane L).lpc == pc && (q.lane L).refuted.isNone &&
    (!q.trapMode || (inMask q.handlerSet L && !inMask q.rteHeld L))

/-- The mask of a parked lane less itself, in LIVE, lies within the arrived lanes. -/
def testHolds (q : Group) (L : Nat) (arrived : Mask) : Bool :=
  let m : Mask := (q.lane L).park.x.setWidth 32
  (m &&& q.live &&& ~~~oneLane L &&& ~~~arrived) == 0

/-- Release every REJOIN whose test holds, all lanes of one address together: LAP is the largest among them, and LPC the
next instruction (R133). -/
def rejoinRelease (s : State) (b g : Nat) : State :=
  let q := s.group b g
  let pcs := dedup ((lanes32.filter fun L => inMask q.live L && (q.lane L).park.cause == pkRejoin).map fun L => (q.lane L).lpc.toNat)
  pcs.foldl (fun s pc =>
    let q := s.group b g
    let at_ := parkedAt q pkRejoin (w64 pc)
    let rel := maskOf fun L => inMask at_ L && testHolds q L at_
    if rel = 0 then s
    else
      let lap := maxOf ((lanesOf rel).map fun L => (q.lane L).lap)
      let t := landing s b (pc + 8)
      modGroup s b g fun r => r.mapLanes rel fun _ l => { l with park := {}, lap := lap, lpc := w64 t }) s

/-- Lanes parked at a cross-lane instruction become eligible when an exit makes their tests hold, with LAP the largest
among them; they keep their masks and execute it at their next issue (R398, R399). -/
def crossRelease (s : State) (b g : Nat) : State :=
  let q := s.group b g
  let pcs := dedup ((lanes32.filter fun L => inMask q.live L && (q.lane L).park.cause == pkCross).map fun L => (q.lane L).lpc.toNat)
  pcs.foldl (fun s pc =>
    let q := s.group b g
    let at_ := parkedAt q pkCross (w64 pc)
    let rel := maskOf fun L => inMask at_ L && !(q.lane L).park.released && testHolds q L at_
    if rel = 0 then s
    else
      let lap := maxOf ((lanesOf rel).map fun L => (q.lane L).lap)
      modGroup s b g fun r => r.mapLanes rel fun _ l => { l with park := { l.park with released := true }, lap := lap }) s

/-- LAP of a lane that rises without an issued word: beyond 32 bits, which no rule bounds here, it is open (R132).
DESIGN CHOICE (log 111). -/
def raisedLap (s : State) (L : Nat) (l : Lane) : Nat := if l.lap + 1 < 2 ^ 32 then l.lap + 1 else pick s (2 ^ 50 + L) % 2 ^ 32

/-- Park a lane of a word. Parkings are numbered in their order (R142, R423). DEDUCED (log 94). -/
def parkLane (s : State) (i : Iss) (L : Nat) (p : Park) : State :=
  let marks := (s.block i.b).marks
  let now := coreCt s i.core
  let n := s.seq
  modLane { s with seq := n + 1 } i.b i.g L fun l => { l with park := { p with since := now, marks := marks }, parkOrder := n }

/-- Park a set of lanes together: one place in the order of parking (R331). DEDUCED (log 94). -/
def parkSet (s : State) (i : Iss) (m : Mask) (p : Park) : State :=
  let marks := (s.block i.b).marks
  let now := coreCt s i.core
  let n := s.seq
  modGroup { s with seq := n + 1 } i.b i.g fun q =>
    q.mapLanes m fun _ l => { l with park := { p with since := now, marks := marks }, parkOrder := n }

/-! ## The stages of a word (R256) -/

/-- What a word's own part answers. -/
inductive Res where
  | next (s : State)
  /-- The issue set is held: nothing happens in this slot (R127, R131). -/
  | hold
  | trap (t : TrapReq)
  /-- Replayable faults: lanes not in the mask have completed in the state given (R258, R259). -/
  | park (s : State) (fm : Mask) (acc : Acc) (pages : List (Nat × Mask)) (va : List (Nat × Nat))
  /-- Faults of other kinds in stage 4: the rest have completed in the state given (R258). -/
  | partial_ (s : State) (t : TrapReq)
  deriving DecidableEq, Repr

/-- Words of which a quadrant issues at most one in a cycle: memory, guess, atomic, ordering, engine and system (R128). -/
def memoryKind (op : Nat) : Bool := (0x70 ≤ op && op ≤ 0xBF) || (0xE0 ≤ op && op ≤ 0xEF) || (0xF0 ≤ op && op ≤ 0xFD)

/-- The number under which a pair word with a special function issues; no OP. -/
def pairSpecial : Nat := 0x15E

/-- Words that take the FP64 pipeline, and those that take the special-function pipeline, of a quadrant (R349). -/
def fp64Kind (op : Nat) : Bool := 0x50 ≤ op && op ≤ 0x52
def specialKind (op : Nat) : Bool := (0x58 ≤ op && op ≤ 0x5F) || op == pairSpecial

/-- What an issue leaves in its quadrant (R128, R349). -/
def Quad.note (q : Quad) (cyc : Nat) (grp : Nat × Nat) (op : Nat) : Quad :=
  if q.lastCycle = cyc ∧ q.issued ≠ 0 then
    if q.owed = some grp then { q with owed := none } else { q with issued := q.issued + 1, memory := q.memory || memoryKind op }
  else { cur := some grp, run := if q.cur = some grp then q.run + 1 else 1, lastCycle := cyc, issued := 1, first := some grp
         memory := memoryKind op, control := op / 16 == 2, fp64 := fp64Kind op, special := specialKind op }

/-- What the issue of a word leaves in its group: STALL, the last issue, the Y bit, finished producers (R128, R129, R138),
and the counters of words and lanes issued (R431). -/
def noteIssue (s : State) (i : Iss) (op stall : Nat) (y : Bool) : State :=
  let cyc := cyclesOf s i.b
  let s := modCore s i.core fun c => { c with quads := tmod {} c.quads (i.g % 4) fun q => q.note cyc (i.b, i.g) op }
  modGroup s i.b i.g fun q =>
    { q with
      replay := none, stallUntil := cyc + 1 + stall, lastIssue := some cyc, yielded := y, words := q.words + 1
      prods := q.prods.filter fun p => decide (cyc ≤ p.ready)
      perf := tmapv (fun p : Perf =>
        if p.on && p.event = 1 then { p with count := p.count + 1 }
        else if p.on && p.event = 2 then { p with count := p.count + (lanesOf i.iss).length } else p) q.perf }

/-- The releases that an issue, an exit or the end of trap mode makes (R133, R399). -/
def releaseLanes (s : State) (b g : Nat) : State := crossRelease (rejoinRelease s b g) b g

/-- The tests made after every issue and every exit of a group (R132, R133, R202, R399, R428). -/
def afterIssue (s : State) (b g : Nat) : State :=
  let s := releaseLanes (finishRte (releaseLanes s b g) b g) b g
  renormalise (modGroup s b g Group.sweepSlots) b g

/-- A quiesce has stopped issue in the block's partition (R66). -/
def quiesced (s : State) (b : Nat) : Bool :=
  match s.svc.quiesce with
  | some e => e.1 == (s.context (s.block b).ctx).part && !e.2.2
  | none => false

/-- A pending trap is taken at the next boundary. While the group is in trap mode a machine check waits (R264), and so does the trap
that a completed wait owes to lanes held by the trap: their own boundary comes after the return (R249, R263). -/
def Group.takes (q : Group) (p : PendTrap) : Bool :=
  !(q.trapMode && (p.cause == 0x17 || (p.cause == 0x0E && (p.mask &&& q.handlerSet) == 0)))

/-- What stands against an issue now: STALL, a trap to be taken, a parked or stopped group (R127, R266). DEDUCED (log 8). -/
def notReady (s : State) (b g : Nat) : Bool :=
  let q := s.group b g
  decide (cyclesOf s b < q.stallUntil) || q.pend.any q.takes || q.pfParked || q.stopped || q.ended || !q.exists_ || !running s || quiesced s b

/-- Format slot k of a block's grid (R112). -/
def slotD (s : State) (b k : Nat) : Nat := (recordOf s b).slots.getD k 0

/-- Counts a slot's format allows (R359). -/
def countAllowed (s : State) (i : Iss) (op : Nat) (w : Insn) : Bool :=
  if op = 0x60 ∨ op = 0x64 then
    match slotFmt (slotD s i.b w.sub.toNat) with
    | .f16 | .bf16 => decide (countOf w ≤ 2)
    | .f32 | .f64 => countOf w == 1
    | _ => true
  else true

/-- Privileged words and accesses marked "trap" (R150, R303, R424). -/
def privileged (op : Nat) (w : Insn) : Bool :=
  op = 0xF3 || op = 0xF4 || (op = 0xF1 && (w.a.toNat = 0x021 || w.a.toNat = 0x022))

/-- Stage 1 after the fields (R256): REG_RANGE. DEDUCED (log 19). -/
def regRange (s : State) (b : Nat) (op : Nat) (w : Insn) : Bool := (useList op w).any (beyond (recordOf s b))

/-- One operation of a word: its OP and fields, and the lanes whose LAP it would raise. -/
structure Oper where
  op : Nat
  w  : Insn
  deriving DecidableEq, Repr

def Oper.legal (o : Oper) (s : State) (i : Iss) : Bool :=
  ((fieldChecks o.op o.w).all fun c => c.2) && countAllowed s i o.op o.w

/-- The causes of stage 1 in their order (R256); STALL_SHORT and the rest follow the scoreboard (R127). DEDUCED (log 19). -/
def stage1a (s : State) (i : Iss) (os : List Oper) : Option Nat :=
  if os.any fun o => !o.legal s i then some 0x01
  else if os.any fun o => regRange s i.b o.op o.w then some 0x02
  else none

def stage1b (s : State) (i : Iss) (os : List Oper) (bump : Mask) : Option Nat :=
  let q := s.group i.b i.g
  if (recordOf s i.b).stallCheck && os.any fun o => unfinished q (cyclesOf s i.b) (readKeys o.op o.w i.iss) then some 0x03
  else if (lanesOf bump).any fun L => (q.lane L).lap + 1 ≥ 2 ^ 32 then some 0x04
  else if !q.trapMode && os.any fun o => privileged o.op o.w then some 0x05
  else none

/-- The scoreboard holds the word: a register it reads awaits a variable-latency result, one it writes is lent to the matrix engine
(R127) or is a destination of a COPY not yet delivered (R252). -/
def scoreHeld (s : State) (i : Iss) (os : List Oper) : Bool :=
  let q := s.group i.b i.g
  (!q.pending.isEmpty && os.any fun o => pendingAny q (readKeys o.op o.w i.iss)) ||
  os.any fun o => lentAny s i.b i.g o.op o.w || copyDest s i.b i.g o.op o.w i.iss

/-- STALL_SHORT for registers that a word reads beside those its fields name, where checking is on (R141). -/
def shortRead (s : State) (i : Iss) (ks : List Nat) : Bool :=
  (recordOf s i.b).stallCheck && unfinished (s.group i.b i.g) (cyclesOf s i.b) ks

/-- Acquire accesses not yet answered hold the lane's later words (R182). -/
def acqHeld (s : State) (i : Iss) : Bool :=
  let q := s.group i.b i.g
  (lanesOf i.iss).any fun L => !(q.lane L).acq.isEmpty

/-- Guard values of the lanes of a set (R288). -/
def guardOf (s : State) (b g : Nat) (gf : BitVec 5) (L : Nat) : Bool × Bool :=
  let x := readP s b g (gf.toNat % 16) L
  (x.1 != gf.getLsbD 4, x.2)

def withGuard (s : State) (i : Iss) (gf : BitVec 5) : Iss :=
  { i with ex := maskOf fun L => inMask i.iss L && (guardOf s i.b i.g gf L).1
           gg := maskOf fun L => inMask i.iss L && (guardOf s i.b i.g gf L).2 }

/-- The group a word acts on, at its issue set. -/
def issOf (s : State) (len : Nat) : Option Iss :=
  let b := s.focus.1
  let g := s.focus.2
  match issueSet (s.group b g) with
  | none => none
  | some (pc, m) => some { b := b, g := g, core := (s.block b).core, ctx := (s.block b).ctx, pc := pc, iss := m, len := len }

/-- Take the answer of a word: its effects, or its trap at its own address. DEDUCED (log 15). -/
def conclude (s : State) (i : Iss) (op stall : Nat) (y : Bool) (r : Res) : State :=
  let issued := fun t => noteIssue t i op stall y
  match r with
  | .hold => s
  | .next t => afterIssue (issued t) i.b i.g
  | .trap t => if t.fm = 0 then afterIssue (issued (advance s i i.iss)) i.b i.g else takeTrap (issued s) i.b i.g i.pc t
  | .park t fm acc pages va => parkGroup (issued t) i.b i.g i.pc fm acc pages va
  | .partial_ t tr => takeTrap (issued t) i.b i.g i.pc tr

/-- Stages 1 to 4 of a word of one operation. `bump` gives the lanes whose LAP the word would raise (R132). DEDUCED (log 8). -/
def runWord (op : Nat) (w : Insn) (s : State) (bump : State → Iss → Mask) (body : State → Iss → Res) : State :=
  match issOf s (formBytes w.form) with
  | none => s
  | some i =>
    if notReady s i.b i.g || ((lanesOf i.iss).any fun L => ((s.group i.b i.g).lane L).refuted.isSome) then s
    else
      let os := [{ op := op, w := w : Oper }]
      let fail := fun c => conclude s i op w.stall.toNat (w.y == 1) (.trap { cause := c, fm := i.iss, cm := i.iss })
      match stage1a s i os with
      | some c => fail c
      | none =>
        if scoreHeld s i os || acqHeld s i then s
        else
          let i := withGuard s i w.g
          match stage1b s i os (bump s i) with
          | some c => fail c
          | none => conclude s i op w.stall.toNat (w.y == 1) (body s i)

/-- A word that raises no LAP in its lanes. -/
def noBump (_ : State) (_ : Iss) : Mask := 0

/-- STALL_SHORT, a trap of stage 1 (R256). -/
def stopShort (i : Iss) : Res := .trap { cause := 0x03, fm := i.iss, cm := i.iss }

/-- A trap of stages 2 and 3: no lane executes; FAULT_MASK is the executing lanes (R257). -/
def stop23 (i : Iss) (cause detail : Nat) (cm : Mask) : Res := .trap { cause := cause, detail := detail, fm := i.ex, cm := cm }

/-- The lane works under a guess-bound node or a descendant of one (R227). -/
def underBound (s : State) (i : Iss) (L : Nat) : Bool :=
  match (s.context i.ctx).hctx with
  | none => false
  | some h =>
    let id := ((s.group i.b i.g).lane L).hyp
    id != 0 && (chain s h id).any fun a => a != 0 && (nodeOf s h a).bound

/-- Lanes in which a guess escapes: a guessed guard, or a guessed operand (R207). DEDUCED (log 13). DEDUCED (log 18). -/
def escapes (s : State) (i : Iss) (guard : Bool) (ops : List (Opd × Nat)) : Mask :=
  maskOf fun L => inMask i.ex L && ((guard && inMask i.gg L) || ops.any fun o => guessOf s i o.1 o.2 L)

/-- The body of a word that computes a result in each executing lane: the result of a type to D, with the OR of the
sources' guess bits, after the class latency; every lane falls through (R131, R206, R292). -/
def aluBody (lat : Nat) (t : Ty) (d : Opd) (srcs : List (Opd × Nat)) (f : State → Iss → Nat → Nat) (s : State) (i : Iss) : Res :=
  if isS d && escapes s i true [] ≠ 0 then stop23 i 0x0B 0 (escapes s i true [])
  else
    let gb := fun L => inMask i.gg L || srcs.any fun o => guessOf s i o.1 o.2 L
    .next (advance (putD s i lat t d i.ex (f s i) gb) i i.iss)

end Sys2Proof.Machine
end

