-- ==== Sys2Proof/Machine/Order.lean ====
section
/-! DEFINITION. What a lane waits for: outstanding requests, the release condition and acquires (R180–R182, R196). -/

namespace Sys2Proof.Machine

/-- A request of a lane that is still outstanding and numbered below lim. -/
def Req.ofLane (r : Req) (b g L lim : Nat) : Bool :=
  r.block == b && r.grp == g && decide (r.id < lim) && r.stage != .done && r.copy.isNone && r.kind != .pref &&
  r.parts.any fun p => p.lane == L

/-- Accepted at its home and not yet performed. -/
def Req.accepted (r : Req) : Bool := r.stage == .held || r.stage == .miss

/-- A request that writes: it returns a completion time or an acknowledgement (R176). -/
def Req.writes (r : Req) : Bool := r.kind == .store || r.kind == .atomic || r.kind == .cwb || r.kind == .cinv

/-- A request whose reply a fence waits for: a load, or an atomic with fetch (R181). -/
def Req.reads (r : Req) : Bool := r.kind == .load || (r.kind == .atomic && r.dest.isSome)

/-- Scope from which a request's completion counts (R181): 0 home and local, 2 .gng, 4 .fab, 5 .sys. -/
def Req.scopeOf (r : Req) : Nat :=
  match r.place with | .home _ => 0 | .gang _ _ => 2 | .peer _ _ => 4 | .host _ => 5

/-- A load of the lane numbered below lim whose data has not arrived, guessed or not (R181, R196). -/
def loadOpen (q : Group) (L lim : Nat) : Bool :=
  q.loads.any (fun l => decide (l.id < lim) && (inMask l.waiting L || inMask l.expired L)) ||
  (tkeys q.slots).any fun k => let t := tget {} q.slots k
    t.busy && decide (t.load < lim) && inMask t.guessed L && !inMask t.arrived L

/-- A resolve of the lane, numbered below lim, whose E has not been returned (R180, R411). -/
def resolveOpen (s : State) (b g L lim : Nat) : Bool :=
  s.hctxs.any fun h => h.2.queue.any fun r => r.lane == some (b, g, L) && decide (r.seq < lim)

/-- RC(scope) for the lane's requests numbered below lim (R181). -/
def releaseMet (s : State) (b g L scope lim : Nat) : Bool :=
  let q := s.group b g
  !loadOpen q L lim &&
  (s.reqs.all fun r => !r.ofLane b g L lim || !((r.reads || r.writes) && (r.reads || decide (r.scopeOf ≤ scope)))) &&
  !resolveOpen s b g L lim && decide ((q.lane L).pct ≤ coreCt s (s.block b).core)

/-- Every earlier load and atomic with fetch has been answered (R181). -/
def acquireMet (s : State) (b g L : Nat) : Bool :=
  !loadOpen (s.group b g) L s.seq && s.reqs.all fun r => !r.ofLane b g L s.seq || !r.reads

/-- FENCE.rel waits of a lane are met (R181). DEDUCED (log 14). -/
def relMet (s : State) (b g L : Nat) : Bool :=
  ((s.group b g).lane L).rel.all fun f => releaseMet s b g L f.1 f.2

/-- A later store, atomic, COPY, MMA, push, resolve or arrival waits for the lanes' releases (R181). -/
def relHeld (s : State) (i : Iss) : Bool := (lanesOf i.ex).any fun L => !relMet s i.b i.g L

/-- The releases of lanes that have been waited for are done with. DEDUCED (log 14). -/
def clearRel (s : State) (i : Iss) : State := modGroup s i.b i.g fun q => q.mapLanes i.ex fun _ l => { l with rel := [] }

/-- Numbers of the loads and fetching atomics of a lane not yet answered. -/
def openReads (s : State) (b g L : Nat) : List Nat :=
  let q := s.group b g
  ((q.loads.filter fun l => inMask l.waiting L || inMask l.expired L).map fun l => l.id) ++
  ((tkeys q.slots).filterMap fun k => let t := tget {} q.slots k
    if t.busy && inMask t.guessed L && !inMask t.arrived L then some t.load else none) ++
  ((s.reqs.filter fun r => r.ofLane b g L s.seq && r.kind == .atomic && r.dest.isSome).map fun r => r.id)

/-- FENCE.acq for a lane that goes on: later words wait for the loads outstanding now (R182, R193). -/
def acquireFrom (s : State) (b g L : Nat) : State :=
  modLane s b g L fun l => { l with acq := dedup (l.acq ++ openReads s b g L) }

/-- A load or atomic of a lane has been answered. -/
def Group.answered (q : Group) (L id : Nat) : Group :=
  { q with lanes := tmod {} q.lanes L fun l => { l with acq := l.acq.filter (· ≠ id) } }

/-- PCT takes the larger of itself and a completion time (R180). -/
def bumpPct (s : State) (b g L t : Nat) : State :=
  if !inMask (s.group b g).live L then modCtx s (s.block b).ctx fun c => { c with maxCtc := max c.maxCtc t }
  else modLane s b g L fun l => { l with pct := max l.pct t }

/-- A trap or machine check becomes pending; one of the same kind takes the further lanes (R202, R269). -/
def Group.pendTrap (q : Group) (p : PendTrap) : Group :=
  let same := fun (x : PendTrap) => x.cause = p.cause ∧ x.detail = p.detail ∧ x.pc = p.pc ∧ x.eseq = p.eseq ∧ x.ticket = p.ticket
  if q.pend.any fun x => decide (same x) then
    { q with pend := q.pend.map fun x => if same x then { x with mask := x.mask ||| p.mask } else x }
  else { q with pend := q.pend ++ [p] }

end Sys2Proof.Machine
end

