-- ==== Sys2Proof/Machine/Queues.lean ====
section
/-! DEFINITION. Queues: entries, parked pops and the item queue (R113–R116, R136, R331, R421–R423, R440). -/

namespace Sys2Proof.Machine

/-- Entries of a block's queue, oldest first. -/
def queueOf (s : State) (b n : Nat) : List W64 := tget [] (s.block b).queues n
def setQueue (s : State) (b n : Nat) (q : List W64) : State := modBlock s b fun k => { k with queues := tset [] k.queues n q }

/-- The item queue of a block's core serves the block's context (R114). -/
def itemsOf (s : State) (b : Nat) : List Nat :=
  let k := s.block b
  let c := s.core k.core
  if c.itemCtx = some k.ctx then c.items else []

/-- The context still holds indices (R115). -/
def indicesLeft (s : State) (h : Nat) : Bool :=
  let c := s.context h
  !c.returned.isEmpty || decide (c.itemNext < c.record.itemCount)

/-- Exhaustion: ITEM_COUNT is 0, or the queue is empty and the context holds no index (R115). -/
def exhausted (s : State) (b : Nat) : Bool :=
  (recordOf s b).itemCount == 0 || ((itemsOf s b).isEmpty && !indicesLeft s (s.block b).ctx)

/-- Take the oldest item. -/
def takeItem (s : State) (b : Nat) : Option (Nat × State) :=
  match itemsOf s b with
  | x :: xs => some (x, modCore s (s.block b).core fun c => { c with items := xs })
  | [] => none

/-- Deliver a popped value to D of a parked or executing MOV or QTRY: 32 or 64 bits, guess bit 0. -/
def deliverPop (s : State) (b g L : Nat) (w : Insn) (x : W64) (wd : Bool) : State :=
  modGroup s b g fun q => match opD w with
    | .s n => q.resS 0 0 n (if wd then x else w64 (x.toNat % 2 ^ 32))
    | d => q.resLane 0 0 wd d L x.toNat false

/-- A lane leaves its parking for the next instruction, len bytes on. -/
def unparkNext (s : State) (b g : Nat) (m : Mask) (len : Nat) : State :=
  modGroup s b g fun q => q.mapLanes m fun L l =>
    { l with park := {}, lpc := w64 (landing s b ((q.lane L).lpc.toNat + len)) }

/-- IPOP delivers an item: D, ITEM, LAP + 1 and the .itemhead point (R115). -/
def deliverItem (s : State) (b g L : Nat) (w : Insn) (x : Nat) : State :=
  let r := recordOf s b
  let t := landing s b (r.entry + r.itemHead)
  renormalise (modGroup s b g fun q =>
    let q := q.resLane 0 0 false (opD w) L (x % 2 ^ 32) false
    { q with lanes := tmod {} q.lanes L fun l => { l with park := {}, item := w64 x, lap := raisedLap s L l, lpc := w64 t } }) b g

/-- Lanes parked with a cause and detail in the blocks listed, in their order of parking: block, group, lane. Parked lanes of a stopped
group stay parked until the resume tests them again (R142, R266). DEDUCED (log 41). -/
def parkedOn (s : State) (bs : List Nat) (f : Park → Bool) : List (Nat × Nat × Nat) :=
  let all := bs.flatMap fun b => (tkeys (s.block b).groups).flatMap fun g =>
    let q := s.group b g
    (lanes32.filter fun L => let l := q.lane L; !q.stopped && inMask q.live L && l.park.cause != 0 && f l.park && l.refuted.isNone).map fun L =>
      ((q.lane L).parkOrder, b, g, L)
  (sortBy (fun x => x.1) all).map Prod.snd

/-- The lanes parked by one scalar pop: the issue set that parked together has one place in the order of parking (R331).
DEDUCED (log 94). -/
def scalarSet (q : Group) (L : Nat) : Mask :=
  let l := q.lane L
  maskOf fun k => let m := q.lane k
    inMask q.live k && m.refuted.isNone && m.park.cause == l.park.cause && m.park.detail == l.park.detail && m.lpc == l.lpc &&
    m.parkOrder == l.parkOrder && bit m.park.x.toNat 1

/-- Serve one parked pop with a value. -/
def servePop (s : State) (e : Nat × Nat × Nat) (x : W64) : State :=
  let q := s.group e.1 e.2.1
  let l := q.lane e.2.2
  let w := l.park.insn.getD {}
  let wd := bit l.park.x.toNat 0
  let m := if bit l.park.x.toNat 1 then scalarSet q e.2.2 else oneLane e.2.2
  unparkNext (landed s (deliverPop s e.1 e.2.1 e.2.2 w x wd) e.1 e.2.1 (vRegsOf (opD w) (two wd) e.2.2)) e.1 e.2.1 m 8

/-- Serve the pops parked on a block's queue while entries last (R136, R423). -/
def serveLoop (b n : Nat) : Nat → State → State
  | 0, s => s
  | k + 1, s => match queueOf s b n, parkedOn s [b] (fun p => p.cause == pkQueue && p.detail == n) with
    | x :: xs, e :: _ => serveLoop b n k (servePop (setQueue s b n xs) e x)
    | _, _ => s

/-- DEDUCED (log 94). -/
def serveQueue (s : State) (b n : Nat) : State :=
  serveLoop b n (queueOf s b n).length s

/-- Blocks of a context on a core. -/
def ctxBlocksOn (s : State) (c h : Nat) : List Nat := (blocksOn s c).filter fun b => (s.block b).ctx == h

/-- Serve a lane parked on the item queue: an item, or exhaustion (R115). -/
def serveItemLane (s : State) (e : Nat × Nat × Nat) : State :=
  let q := s.group e.1 e.2.1
  let l := q.lane e.2.2
  let w := l.park.insn.getD {}
  match takeItem s e.1 with
  | some (x, s) => if l.park.detail = 0 then landed s (deliverItem s e.1 e.2.1 e.2.2 w x) e.1 e.2.1 (vRegsOf (opD w) 1 e.2.2) else servePop s e (w64 x)
  | none =>
    if !exhausted s e.1 then s
    else if l.park.detail = 0 then unparkNext s e.1 e.2.1 (oneLane e.2.2) 8
    else servePop s e (BitVec.allOnes 64)

def serveItemsLoop (c h : Nat) : Nat → State → State
  | 0, s => s
  | k + 1, s => match parkedOn s (ctxBlocksOn s c h) (fun p => p.cause == pkItem) with
    | e :: _ => serveItemsLoop c h k (serveItemLane s e)
    | [] => s

/-- Serve the lanes parked on a core's item queue, in their order of parking, while items or exhaustion serve them. -/
def serveItems (s : State) (c h : Nat) : State :=
  serveItemsLoop c h (parkedOn s (ctxBlocksOn s c h) (fun p => p.cause == pkItem)).length s

/-- A refill: min(CHUNK, indices remaining), returned ones first, appended in ascending order (R114). DESIGN CHOICE (log 72). -/
def refill (s : State) (c h : Nat) : State :=
  let x := s.context h
  let chunk := x.record.chunk
  let fromRet := x.returned.take chunk
  let more := min (chunk - fromRet.length) (x.record.itemCount - x.itemNext)
  let fresh := (List.range more).map fun k => x.itemNext + k
  let s := modCtx s h fun r => { r with returned := r.returned.drop fromRet.length, itemNext := r.itemNext + more }
  serveItems (modCore s c fun q => { q with items := q.items ++ sortBy id (fromRet ++ fresh) }) c h

/-- A refill is due (R114). DESIGN CHOICE (log 72). -/
def refillDue (s : State) (c : Nat) : Option Nat :=
  let q := s.core c
  match q.itemCtx with
  | none => none
  | some h =>
    let chunk := (s.context h).record.chunk
    if (s.context h).record.itemCount ≠ 0 ∧ q.items.length < chunk ∧ q.items.length + chunk ≤ 1024 ∧ indicesLeft s h
    then some h else none

/-- Push entries to a queue, oldest first, and serve the pops parked on it (R331, R423). -/
def pushAll (s : State) (b n : Nat) (xs : List W64) : State := serveQueue (setQueue s b n (queueOf s b n ++ xs)) b n

/-! ## The words of one cycle (R423) -/

/-- The block under which a queue's words are kept: the item queue is its core's. -/
def queueHome (b n : Nat) : Nat := if n = 3 then 2 ^ 32 else b

/-- Words that reached a block's queue in the core's running cycle: whether each takes, and its quadrant. -/
def queueUses (s : State) (b n : Nat) : List (Bool × Nat) :=
  let c := s.core (s.block b).core
  if c.qCycle = c.cycles then (c.qUses.filter fun u => u.1 == queueHome b n && u.2.1 == n).map fun u => u.2.2 else []

/-- Pushes come before takes, and within each kind a lower quadrant before a higher one. DEDUCED (log 61). -/
def queueLate (s : State) (b n : Nat) (takes : Bool) (quad : Nat) : Bool :=
  (queueUses s b n).any fun u => if takes then u.1 && decide (quad < u.2) else u.1 || decide (quad < u.2)

/-- Keep a word that reached a queue. DEDUCED (log 61). -/
def noteQueue (s : State) (b n : Nat) (takes : Bool) (quad : Nat) : State :=
  modCore s (s.block b).core fun c => { c with
    qCycle := c.cycles, qUses := (queueHome b n, n, takes, quad) :: (if c.qCycle = c.cycles then c.qUses else []) }

end Sys2Proof.Machine
end

