-- ==== Sys2Proof/Machine/Barrier.lean ====
section
/-! DEFINITION. Barrier objects: references, arrivals, completion and release (R387–R392, R249), and leaving LIVE
(R118, R134). -/

namespace Sys2Proof.Machine

/-- The object a reference names: the block that holds it and its index; none where the reference is faulty (R387, R388). -/
def objOf (s : State) (b : Nat) (r : Nat) : Option (Nat × Nat) :=
  if r / 64 ≠ 0 then none
  else
    let idx := r / 16 % 4
    if idx ≥ (recordOf s b).nblk then none
    else match gangBlock s b idx with
    | some h => if (s.block h).ended then none else some (h, r % 16)
    | none => none

def State.obj (s : State) (h k : Nat) : BarrierObj := tget {} (s.block h).objs k
def modObj (s : State) (h k : Nat) (f : BarrierObj → BarrierObj) : State :=
  modBlock s h fun q => { q with objs := tmod {} q.objs k f }

/-- Member number of a group: 16 b + g (R388). -/
def memberNo (s : State) (b g : Nat) : Nat := 16 * (s.block b).blk + g

/-- Groups of the gang of block h: member number, block handle, group. -/
def gangGroups (s : State) (h : Nat) : List (Nat × Nat × Nat) :=
  let k := s.block h
  ((tkeys s.blocks).filter fun j => let q := s.block j; q.ctx == k.ctx && q.gangSeq == k.gangSeq).flatMap fun j =>
    (tkeys (s.block j).groups).map fun g => (memberNo s j g, j, g)

/-- A lane object's phase completes: some member has arrived and every live member lane has (R388). -/
def laneComplete (s : State) (h : Nat) (o : BarrierObj) : Bool :=
  !o.arr.isEmpty && (gangGroups s h).all fun e =>
    !o.members.getLsbD e.1 || ((s.group e.2.1 e.2.2).live &&& ~~~(tget 0 o.arr e.1)) == 0

/-- Phase p counts as complete (R391). -/
def phaseDone (phase p : W32) : Bool := decide ((phase - p - 1).toNat < 2 ^ 31)

/-- The trap owed to lanes whose wait on a marked phase completes: NONFINITE at the instruction after the wait (R249). -/
def owe (s : State) (o : BarrierObj) (p : W32) (b g : Nat) (m : Mask) : State :=
  if o.nfValid && o.nfPhase == p && m != 0 then
    match lanesOf m with
    | L :: _ => modGroup s b g fun q =>
        q.pendTrap { cause := 0x0E, detail := o.nfTile, mask := m, pc := some (q.lane L).lpc }
    | [] => s
  else s

/-- Release the lanes parked on an object whose wait is complete; each then acts as FENCE.acq (R193, R390, R391). -/
def releaseWaiters (s : State) (h k : Nat) : State :=
  let o := s.obj h k
  let mine := fun (b : Nat) (p : Park) => (p.cause == pkBari || p.cause == pkBarw) && objOf s b p.detail == some (h, k) &&
    (if p.cause = pkBari then o.phase != p.x.setWidth 32 else phaseDone o.phase (p.x.setWidth 32))
  (gangGroups s h).foldl (fun s e =>
    let b := e.2.1
    let g := e.2.2
    let q := s.group b g
    let rel := maskOf fun L => let l := q.lane L; !q.stopped && inMask q.live L && l.refuted.isNone && mine b l.park
    -- lanes that waited at one address on one phase come out together
    let keys := dedup ((lanesOf rel).map fun L => (q.lane L).lpc.toNat * 2 ^ 32 + (q.lane L).park.x.toNat % 2 ^ 32)
    keys.foldl (fun s key =>
      let m := maskOf fun L => inMask rel L && (q.lane L).lpc.toNat * 2 ^ 32 + (q.lane L).park.x.toNat % 2 ^ 32 == key
      let s := unparkNext s b g m 8
      let s := (lanesOf m).foldl (fun s L => acquireFrom s b g L) s
      owe s o (w32 key) b g m) s) s

/-- A phase has completed: PHASE + 1, and the block that holds the object counts it (R388, R430). -/
def phaseUp (s : State) (h k : Nat) (f : BarrierObj → BarrierObj) : State :=
  let s := modObj s h k fun o => f { o with phase := o.phase + 1 }
  let s := modBlock s h fun q => { q with marks := (q.marks.1 + 1, q.marks.2) }
  releaseWaiters s h k

/-- The completion test (R388). -/
def objTest (s : State) (h k : Nat) : State :=
  let o := s.obj h k
  if o.kind = 1 then (if laneComplete s h o then phaseUp s h k fun o => { o with arr := [] } else s)
  else if o.kind = 2 ∧ o.expect ≤ o.count ∧ o.expect ≠ 0 then phaseUp s h k fun o => { o with count := o.count - o.expect }
  else s

/-- The tests of every object of a gang, after an exit or a group's end (R388). -/
def objTestAll (s : State) (b : Nat) : State :=
  let k := s.block b
  ((tkeys s.blocks).filter fun j => let q := s.block j; q.ctx == k.ctx && q.gangSeq == k.gangSeq).foldl (fun s h =>
    (tkeys (s.block h).objs).foldl (fun s i => objTest s h i) s) s

/-- Lanes leave LIVE: their slots are freed, their completion times pass to the context, and the tests of barriers are
made again (R85, R118, R134). -/
def exitLanes (s : State) (b g : Nat) (m : Mask) : State :=
  let q := s.group b g
  let t := maxOf ((lanesOf m).map fun L => (q.lane L).pct)
  let s := modCtx s (s.block b).ctx fun c => { c with maxCtc := max c.maxCtc t }
  let s := modGroup s b g fun q => { q with live := q.live &&& ~~~m }
  objTestAll (modGroup s b g Group.sweepSlots) b

end Sys2Proof.Machine
end

