-- ==== Sys2Proof/Machine/Integer.lean ====
section
/-! DEFINITION. Integer arithmetic, moves, bit and shift, compare, predicate and select (R322–R339): classes 0x0, 0x1
and 0x3. Results are available 4 cycles after issue (R139). -/

namespace Sys2Proof.Machine

abbrev Out := Host.Outcome State Fault Refusal

/-- One source: a function of the type and A. -/
def alu1 (op : Nat) (w : Insn) (s : State) (lat : Nat) (rt : Ty) (f : Nat → Nat) : State :=
  let t := tyD op w
  runWord op w s noBump fun s i => aluBody lat rt (opD w) [(opA w, spanA op w)] (fun s i L => f (valOf s i t (opA w) L).1) s i

/-- Two sources of the type, or of `tb` for B. -/
def alu2 (op : Nat) (w : Insn) (s : State) (lat : Nat) (ta tb : Ty) (rt : Ty) (f : Nat → Nat → Nat) : State :=
  runWord op w s noBump fun s i => aluBody lat rt (opD w) [(opA w, spanA op w), (opB w, spanB op w)]
    (fun s i L => f (valOf s i ta (opA w) L).1 (valOf s i tb (opB w) L).1) s i

/-- Three sources. -/
def alu3 (op : Nat) (w : Insn) (s : State) (lat : Nat) (ta tb tc : Ty) (rt : Ty) (f : Nat → Nat → Nat → Nat) : State :=
  runWord op w s noBump fun s i =>
    aluBody lat rt (opD w) [(opA w, spanA op w), (opB w, spanB op w), (opC w, spanC op w)]
    (fun s i L => f (valOf s i ta (opA w) L).1 (valOf s i tb (opB w) L).1 (valOf s i tc (opC w) L).1) s i

/-- .sat (MOD bit 0). -/
def sat0 (w : Insn) : Bool := bit w.mod.toNat 0

/-! ## Arithmetic (R326–R330) -/

def iaddFn (t : Ty) (sat : Bool) (a b : Nat) : Nat := intResult t (tyBits t) sat (asInt t a + asInt t b)
def isubFn (t : Ty) (sat : Bool) (a b : Nat) : Nat := intResult t (tyBits t) sat (asInt t a - asInt t b)
def imulFn (t : Ty) (a b : Nat) : Nat := a * b % 2 ^ tyBits t
def imulhFn (t : Ty) (a b : Nat) : Nat := wrap (tyBits t) (asInt t a * asInt t b / (2 ^ tyBits t : Nat))
def iabsFn (t : Ty) (sat : Bool) (a : Nat) : Nat := intResult t (tyBits t) sat (asInt t a).natAbs
def inegFn (t : Ty) (sat : Bool) (a : Nat) : Nat := intResult t (tyBits t) sat (-asInt t a)
def iminFn (t : Ty) (a b : Nat) : Nat := if asInt t a ≤ asInt t b then a else b
def imaxFn (t : Ty) (a b : Nat) : Nat := if asInt t a ≥ asInt t b then a else b

/-- The 64-bit type of the same signedness (R328). -/
def widen (t : Ty) : Ty := if isI t then .i64 else if isN t then .n64 else .b64

/-- IMAD: the exact product under t plus C under tc, through R323 at tc's width (R328). -/
def imadFn (t tc : Ty) (sat : Bool) (a b c : Nat) : Nat :=
  intResult tc (tyBits tc) sat (asInt t a * asInt t b + asInt tc c)

/-- Byte(v, k, u) (R329). -/
def byteOf (v k : Nat) (unsigned : Bool) : Int := if unsigned then (bits v (8 * k + 7) (8 * k) : Int) else sext 8 (v >>> (8 * k))

def dp4Fn (sub : Nat) (sat : Bool) (a b c : Nat) : Nat :=
  let t := (List.range 4).foldl (fun acc k => acc + byteOf a k (bit sub 0) * byteOf b k (bit sub 1)) (sext 32 c)
  intResult .i32 32 sat t

/-- LEA: Widen(A) × 2^s + B + C (R330). -/
def leaFn (t : Ty) (sub md : Nat) (a b c : Nat) : Nat :=
  let a' : Int := if md = 1 then sext 32 a else (a : Int)
  wrap (tyBits t) (a' * (2 ^ sub : Nat) + b + c)

def execIadd (w : Insn) (s : State) : Out :=
  let t := tyD 0x00 w
  .next (alu2 0x00 w s 4 t t t (iaddFn t (sat0 w)))
def execIsub (w : Insn) (s : State) : Out :=
  let t := tyD 0x01 w
  .next (alu2 0x01 w s 4 t t t (isubFn t (sat0 w)))
def execImul (w : Insn) (s : State) : Out :=
  let t := tyD 0x04 w
  .next (alu2 0x04 w s 4 t t t (imulFn t))
def execImulh (w : Insn) (s : State) : Out :=
  let t := tyD 0x05 w
  .next (alu2 0x05 w s 4 t t t (imulhFn t))
def execImin (w : Insn) (s : State) : Out :=
  let t := tyD 0x09 w
  .next (alu2 0x09 w s 4 t t t (iminFn t))
def execImax (w : Insn) (s : State) : Out :=
  let t := tyD 0x0A w
  .next (alu2 0x0A w s 4 t t t (imaxFn t))
def execIabs (w : Insn) (s : State) : Out :=
  let t := tyD 0x07 w
  .next (alu1 0x07 w s 4 t (iabsFn t (sat0 w)))
def execIneg (w : Insn) (s : State) : Out :=
  let t := tyD 0x08 w
  .next (alu1 0x08 w s 4 t (inegFn t (sat0 w)))
def execImad (w : Insn) (s : State) : Out :=
  let t := tyD 0x06 w
  let tc := if bit w.mod.toNat 1 then widen t else t
  .next (alu3 0x06 w s 4 t t tc tc (imadFn t tc (sat0 w)))
def execDp4 (w : Insn) (s : State) : Out :=
  let f := dp4Fn w.sub.toNat (sat0 w)
  .next (if w.form = .c then alu3 0x0B w s 4 .i32 .i32 .i32 .i32 f else alu2 0x0B w s 4 .i32 .i32 .i32 fun a b => f a b 0)
def execLea (w : Insn) (s : State) : Out :=
  let t := tyD 0x0C w
  let ta := if w.mod.toNat = 0 then t else .b32
  let f := leaFn t w.sub.toNat w.mod.toNat
  .next (if w.form = .c then alu3 0x0C w s 4 ta t t t f else alu2 0x0C w s 4 ta t t fun a b => f a b 0)

/-! ## Carry chains (R327) -/

/-- IADDC and ISUBB: the exact result x of A, B and the carry; D takes x mod 2^W, Pco the carry or borrow. The carry-in
of a scalar form is read in the lowest executing lane, and a guess there escapes (R324). -/
def carryWord (op : Nat) (w : Insn) (s : State) (f : Nat → Nat → Nat → Int) (out : Nat → Int → Bool) : State :=
  let t := tyD op w
  let pco := xmod w % 16
  runWord op w s noBump fun s i =>
    let esc := escapes s i true [(opC w, 1)]
    if scalarForm w && esc ≠ 0 then stop23 i 0x0B 0 esc
    else
      let x := fun L => f (valOf s i t (opA w) L).1 (valOf s i t (opB w) L).1 (valOf s i t (opC w) L).1
      let low := (lanesOf i.ex).headD 0
      let at_ := fun L => if scalarForm w then x low else x L
      let gb := fun L => inMask i.gg L || guessOf s i (opA w) (spanA op w) L || guessOf s i (opB w) (spanB op w) L ||
        guessOf s i (opC w) 1 L
      let cyc := cyclesOf s i.b
      let s1 := putD s i 4 t (opD w) i.ex (fun L => wrap (tyBits t) (at_ L)) gb
      let s2 := modGroup s1 i.b i.g fun q =>
        ((lanesOf i.ex).foldl (fun q L => q.resP cyc 4 pco L (out (tyBits t) (at_ L)) (gb L)) q).orGuard i.gg (.p pco) 1
      .next (advance s2 i i.iss)

def execIaddc (w : Insn) (s : State) : Out :=
  .next (carryWord 0x02 w s (fun a b c => (a : Int) + b + c) carryOut)
def execIsubb (w : Insn) (s : State) : Out :=
  .next (carryWord 0x03 w s (fun a b c => (a : Int) - b - c) fun _ x => borrowOut x)

/-! ## Moves (R331, R332) -/

/-- A pop by each executing lane in ascending lane id, or once for the group in a scalar form (R331, R115). -/
def popWord (w : Insn) (n : Nat) (s : State) (i : Iss) : Res :=
  let esc := escapes s i true []
  if esc ≠ 0 then stop23 i 0x0B 0 esc
  else
    let wd := wide (tyD 0x0D w)
    let sc := scalarForm w
    let x : W64 := w64 (b2n wd + 2 * b2n sc)
    let park := if n = 3 then { cause := pkItem, detail := 1, x := x, insn := some w : Park }
                else { cause := pkQueue, detail := n, x := x, insn := some w }
    let one := fun (s : State) (L : Nat) =>
      if n = 3 then
        match takeItem s i.b with
        | some (v, s) => (deliverPop s i.b i.g L w (w64 v) wd, true)
        | none => if exhausted s i.b then (deliverPop s i.b i.g L w (BitVec.allOnes 64) wd, true) else (s, false)
      else match queueOf s i.b n with
        | v :: vs => (deliverPop (setQueue s i.b n vs) i.b i.g L w v wd, true)
        | [] => (s, false)
    let s := guessDests s i [(opD w, two wd)]
    if sc then
      match lanesOf i.ex with
      | [] => .next (advance s i i.iss)
      | L :: _ =>
        let r := one s L
        if r.2 then .next (advance r.1 i i.iss) else .next (parkSet r.1 i i.iss park)
    else
      -- lanes whose guard is false fall through; a served lane goes on, the others park
      let s := advance s i (i.iss &&& ~~~i.ex)
      .next ((lanesOf i.ex).foldl (fun s L =>
        let r := one s L
        if r.2 then advance r.1 i (oneLane L) else parkLane r.1 i L park) s)

/-- A push of each executing lane's value, in ascending lane id, in one step once there is room (R331). -/
def pushWord (w : Insn) (n : Nat) (s : State) (i : Iss) : Res :=
  let t := tyD 0x0D w
  let esc := escapes s i true [(opA w, spanA 0x0D w)]
  if esc ≠ 0 then stop23 i 0x0B 0 esc
  else if relHeld s i || decide (127 < (queueOf s i.b n).length + (lanesOf i.ex).length) then .hold
  else
    let xs := (lanesOf i.ex).map fun L => w64 (valOf s i t (opA w) L).1
    .next (advance (pushAll (clearRel s i) i.b n xs) i i.iss)

def execMov (w : Insn) (s : State) : Out :=
  let t := tyD 0x0D w
  .next (match opA w, opD w with
    | .q n, _ => runWord 0x0D w s noBump (popWord w n)
    | _, .q n => runWord 0x0D w s noBump (pushWord w n)
    | _, _ => alu1 0x0D w s 4 t fun a => a)

/-- MOVI: IMM32 widened; guess bit 0 apart from the guard's (R332). -/
def execMovi (w : Insn) (s : State) : Out :=
  let t := tyD 0x0E w
  .next (runWord 0x0E w s noBump fun s i =>
    aluBody 4 t (opD w) [] (fun _ _ _ => imm32 t (bits w.ext.toNat 31 0)) s i)

/-! ## Bit and shift (R333–R336) -/

/-- The shift amount: unsigned, modulo W under .wrap (R334). -/
def amount (wrapped : Bool) (w n : Nat) : Nat := if wrapped then n % w else n

def shlFn (wr : Bool) (t : Ty) (a n : Nat) : Nat :=
  let k := amount wr (tyBits t) n
  if k ≥ tyBits t then 0 else a * 2 ^ k % 2 ^ tyBits t
def shrFn (wr : Bool) (t : Ty) (a n : Nat) : Nat :=
  let k := amount wr (tyBits t) n
  if k ≥ tyBits t then 0 else a / 2 ^ k
def shraFn (wr : Bool) (t : Ty) (a n : Nat) : Nat :=
  let k := min (amount wr (tyBits t) n) (tyBits t)
  wrap (tyBits t) (sext (tyBits t) a / (2 ^ k : Nat))
def fshfFn (right wr : Bool) (a b n : Nat) : Nat :=
  let v := b * 2 ^ 32 + a
  let k := if wr then n % 32 else min n 32
  if right then v / 2 ^ k % 2 ^ 32 else v * 2 ^ k % 2 ^ 64 / 2 ^ 32
def bfuncFn (t : Ty) (m a b c : Nat) : Nat :=
  (List.range (tyBits t)).foldl (fun acc k => acc + b2n (mapBit m (bit a k) (bit b k) (bit c k)) * 2 ^ k) 0

/-- BFX: a field, sign- or zero-extended (R336). -/
def bfxFn (t : Ty) (a pos len : Nat) : Nat :=
  let w := tyBits t
  let pos := pos % 256
  let len := len % 256
  if len = 0 ∨ pos ≥ w then 0
  else
    let n := min len (w - pos)
    let f := a / 2 ^ pos % 2 ^ n
    if isI t then wrap w (sext n f) else f
/-- BFI: A with bits of B in its field (R336). -/
def bfiFn (t : Ty) (a b c : Nat) : Nat :=
  let w := tyBits t
  let pos := c % 256
  let len := c / 256 % 256
  if len = 0 ∨ pos ≥ w then a
  else
    let n := min len (w - pos)
    a % 2 ^ pos + b % 2 ^ n * 2 ^ pos + a / 2 ^ (pos + n) * 2 ^ (pos + n)

def execShl (w : Insn) (s : State) : Out :=
  let t := tyD 0x10 w
  .next (alu2 0x10 w s 4 t .b32 t (shlFn (sat0 w) t))
def execShr (w : Insn) (s : State) : Out :=
  let t := tyD 0x11 w
  .next (alu2 0x11 w s 4 t .b32 t (shrFn (sat0 w) t))
def execShra (w : Insn) (s : State) : Out :=
  let t := tyD 0x12 w
  .next (alu2 0x12 w s 4 t .b32 t (shraFn (sat0 w) t))
def execFshf (w : Insn) (s : State) : Out :=
  .next (alu3 0x13 w s 4 .b32 .b32 .b32 .b32 (fshfFn (w.sub.toNat == 1) (sat0 w)))
def execAnd (w : Insn) (s : State) : Out :=
  let t := tyD 0x14 w
  .next (alu2 0x14 w s 4 t t t fun a b => a &&& b)
def execOr (w : Insn) (s : State) : Out :=
  let t := tyD 0x15 w
  .next (alu2 0x15 w s 4 t t t fun a b => a ||| b)
def execXor (w : Insn) (s : State) : Out :=
  let t := tyD 0x16 w
  .next (alu2 0x16 w s 4 t t t fun a b => a ^^^ b)
def execNot (w : Insn) (s : State) : Out :=
  let t := tyD 0x17 w
  .next (alu1 0x17 w s 4 t (notW (tyBits t)))
def execBfunc (w : Insn) (s : State) : Out :=
  let t := tyD 0x18 w
  .next (alu3 0x18 w s 4 t t t t (bfuncFn t (xmod w % 256)))
def execPopc (w : Insn) (s : State) : Out :=
  let t := tyD 0x19 w
  .next (alu1 0x19 w s 4 .b32 (popCount (tyBits t)))
def execClz (w : Insn) (s : State) : Out :=
  let t := tyD 0x1A w
  .next (alu1 0x1A w s 4 .b32 (leadZeros (tyBits t)))
def execBrev (w : Insn) (s : State) : Out :=
  let t := tyD 0x1B w
  .next (alu1 0x1B w s 4 t (bitReverse (tyBits t)))
def execBfx (w : Insn) (s : State) : Out :=
  let t := tyD 0x1C w
  .next (if w.form = .c then alu3 0x1C w s 4 t t t t (bfxFn t)
         else alu2 0x1C w s 4 t t t fun a b => bfxFn t a b (b / 256))
def execBfi (w : Insn) (s : State) : Out :=
  let t := tyD 0x1D w
  .next (alu3 0x1D w s 4 t t t t (bfiFn t))

/-! ## Compare, predicate, select (R337–R339) -/

/-- A compare: the result combined with D's old value, whose guess bit then joins (R337). -/
def compareWord (op : Nat) (w : Insn) (s : State) (f : Nat → Nat → Bool) : State :=
  let t := tyD op w
  let md := w.mod.toNat
  runWord op w s noBump fun s i =>
    aluBody 4 .b32 (opD w) ([(opA w, spanA op w), (opB w, spanB op w)] ++ if md = 0 then [] else [(opD w, 1)])
      (fun s i L => b2n (combine md ((valOf s i .b32 (opD w) L).1 == 1) (f (valOf s i t (opA w) L).1 (valOf s i t (opB w) L).1))) s i

def execIcmp (w : Insn) (s : State) : Out :=
  let t := tyD 0x30 w
  .next (compareWord 0x30 w s fun a b => icmpCond w.sub.toNat (asInt t a) (asInt t b))
def execFcmp (w : Insn) (s : State) : Out :=
  let f := fmtOf (tyD 0x31 w)
  .next (compareWord 0x31 w s fun a b => fcmpCond w.sub.toNat (decodeF f a) (decodeF f b))
def execPlop (w : Insn) (s : State) : Out :=
  .next (alu3 0x32 w s 4 .b32 .b32 .b32 .b32 fun a b c => b2n (mapBit (xmod w % 256) (a == 1) (b == 1) (c == 1)))
/-- SEL: the chosen source, its guess bit ORed with C's (R206, R339). -/
def execSel (w : Insn) (s : State) : Out :=
  let t := tyD 0x33 w
  .next (runWord 0x33 w s noBump fun s i =>
    let pickA := fun L => (valOf s i .b32 (opC w) L).1 == 1
    let gb := fun L => inMask i.gg L || guessOf s i (opC w) 1 L ||
      (if pickA L then guessOf s i (opA w) (spanA 0x33 w) L else guessOf s i (opB w) (spanB 0x33 w) L)
    .next (advance (putD s i 4 t (opD w) i.ex
      (fun L => if pickA L then (valOf s i t (opA w) L).1 else (valOf s i t (opB w) L).1) gb) i i.iss))

end Sys2Proof.Machine
end

