-- ==== Sys2Proof/Machine/Control.lean ====
section
/-! DEFINITION. Control instructions, class 0x2 (R340–R346, R115). -/

namespace Sys2Proof.Machine

/-- Per-lane fault of a transfer target: ADDRESS for bits 63:48, MISALIGN for bits 1:0 (R340). DEDUCED (log 17). -/
def targetFault (t : Nat) : Option Nat := if t ≥ 2 ^ 48 then some 0x06 else if t % 4 ≠ 0 then some 0x07 else none

/-- Faults of stage 4 as a trap: the lowest code decides, FAULT_MASK holds every faulting lane (R258). DEDUCED (log 17). -/
def laneFaults (m : Mask) (f : Nat → Option Nat) (va : Nat → Nat) : Option TrapReq :=
  let bad := (lanesOf m).filter fun L => (f L).isSome
  match bad with
  | [] => none
  | L :: _ =>
    let c := bad.foldl (fun acc k => min acc ((f k).getD 255)) ((f L).getD 255)
    let fm := maskOf fun k => inMask m k && (f k).isSome
    let cm := maskOf fun k => inMask m k && f k == some c
    some { cause := c, fm := fm, cm := cm, va := (lanesOf cm).map fun k => (k, va k) }

/-- Executing lanes that a transfer would take at or below their LPC (R132). -/
def backward (target : State → Iss → Nat → Nat) (s : State) (i : Iss) : Mask :=
  maskOf fun L => inMask i.ex L && (targetFault (target s i L)).isNone && decide (landing s i.b (target s i L) ≤ i.pc)

/-- A transfer: lanes with valid targets go to them, with `link` first, the others fault (R340, R341). Guards may be
guessed under a guess-bound node (R227, R346); `tgt` is the register that holds the target. DEDUCED (log 17). -/
def jumpWord (op : Nat) (w : Insn) (s : State) (target : State → Iss → Nat → Nat) (tgt : List (Opd × Nat))
    (link : State → Iss → Mask → State) : State :=
  runWord op w s (backward target) fun s i =>
    let esc := maskOf fun L => inMask i.ex L &&
      ((inMask i.gg L && !underBound s i L) || tgt.any fun o => guessOf s i o.1 o.2 L)
    if esc ≠ 0 then stop23 i 0x0B 0 esc
    else
      let f := fun L => targetFault (target s i L)
      let go := maskOf fun L => inMask i.ex L && (f L).isNone
      let s1 := advance s i (i.iss &&& ~~~i.ex)
      let s2 := transferTo (link s1 i go) i go (target s i)
      match laneFaults i.ex f (target s i) with
      | none => .next s2
      | some t => .partial_ s2 t

/-- pc + IMM32 (R341). -/
def relTarget (w : Insn) (_ : State) (i : Iss) (_ : Nat) : Nat := wrap 64 ((i.pc : Int) + disp w)
/-- A of each lane. -/
def regTarget (w : Insn) (s : State) (i : Iss) (L : Nat) : Nat := val64 s i (opA w) L
def noLink (s : State) (_ : Iss) (_ : Mask) : State := s

def execBra (w : Insn) (s : State) : Out := .next (jumpWord 0x20 w s (relTarget w) [] noLink)
def execBrx (w : Insn) (s : State) : Out := .next (jumpWord 0x21 w s (regTarget w) [(opA w, 2)] noLink)
/-- CALL: D ← pc + 12 in the lanes that transfer (R341). -/
def execCall (w : Insn) (s : State) : Out :=
  .next (jumpWord 0x22 w s (relTarget w) [] fun s i m => putD s i 4 .b64 (opD w) m (fun _ => i.pc + 12) fun L => inMask i.gg L)
def execRet (w : Insn) (s : State) : Out := .next (jumpWord 0x23 w s (regTarget w) [(opA w, 2)] noLink)

/-- A guessed guard in an executing lane stops the word (R346, R207). DEDUCED (log 13). -/
def guardEscape (s : State) (i : Iss) (k : Unit → Res) : Res :=
  if escapes s i true [] ≠ 0 then stop23 i 0x0B 0 (escapes s i true []) else k ()

/-- EXIT (R342, R118). -/
def execExit (w : Insn) (s : State) : Out :=
  .next (runWord 0x24 w s noBump fun s i => guardEscape s i fun _ =>
    .next (exitLanes (advance s i (i.iss &&& ~~~i.ex)) i.b i.g i.ex))

/-- REJOIN: each executing lane parks with its mask; the test is made in the same cycle (R133, R343). -/
def execRejoin (w : Insn) (s : State) : Out :=
  .next (runWord 0x25 w s noBump fun s i => guardEscape s i fun _ =>
    let m := fun L => w64 (val32 s i (opA w) L)
    let s1 := advance s i (i.iss &&& ~~~i.ex)
    .next ((lanesOf i.ex).foldl (fun t L => parkLane t i L { cause := pkRejoin, x := m L, insn := some w }) s1))

/-- YIELD gives up the group's next turn whatever the guards are (R129, R344). -/
def execYield (w : Insn) (s : State) : Out :=
  .next (runWord 0x26 { w with y := 1 } s noBump fun s i => .next (advance s i i.iss))

def execNop (w : Insn) (s : State) : Out :=
  .next (runWord 0x27 w s noBump fun s i => .next (advance s i i.iss))

/-- Executing lanes that IPOP would serve now: their LAP rises (R115, R345). -/
def ipopServed (s : State) (i : Iss) : Mask :=
  let n := (itemsOf s i.b).length
  let ls := (lanesOf i.ex).take n
  maskOf fun L => ls.contains L

/-- IPOP: each executing lane is served, told of exhaustion, or parked, in ascending lane id (R115, R345). -/
def execIpop (w : Insn) (s : State) : Out :=
  .next (runWord 0x28 w s ipopServed fun s i => guardEscape s i fun _ =>
    let s1 := advance (guessDests s i [(opD w, 1)]) i (i.iss &&& ~~~i.ex)
    .next ((lanesOf i.ex).foldl (fun s L =>
      match takeItem s i.b with
      | some (x, s) => deliverItem s i.b i.g L w x
      | none =>
        if exhausted s i.b then advance s i (oneLane L)
        else parkLane s i L { cause := pkItem, detail := 0, insn := some w }) s1))

end Sys2Proof.Machine
end

