-- ==== Sys2Proof/Machine/Hyp.lean ====
section
/-! DEFINITION. The hypothesis tree: opening nodes, the resolve order, guess-bound nodes (R212–R217, R221, R226, R228). -/

namespace Sys2Proof.Machine

/-- The hypothesis context of a context, if it has one. -/
def hctxFor (s : State) (ctx : Nat) : Option Nat := (s.context ctx).hctx

def setNode (s : State) (h id : Nat) (f : Node → Node) : State :=
  modHctx s h fun c => { c with nodes := tmod {} c.nodes id f }

/-- STATE of a node: the root is always live, and without a hypothesis context every other id reads as free (R408). -/
def nodeState (s : State) (h : Option Nat) (id : Nat) : Nat :=
  if id = 0 then 1 else match h with
  | some h => (nodeOf s h id).state
  | none => 0

/-- The tag of a lane's accesses (R159, R212): (0, 0) for committed data. -/
def tagOf (s : State) (ctx hyp : Nat) : Nat × Nat :=
  if hyp = 0 then (0, 0) else ((hctxFor s ctx).getD 0, hyp)

/-- Nodes of a tree that are live or resolving. -/
def nodesOpen (s : State) (h : Nat) : List Nat :=
  ((tkeys (s.hctxOf h).nodes).filter fun d => let n := nodeOf s h d; n.state == 1 || n.state == 2)

/-- A node and its descendants (R221). -/
def subtree (s : State) (h id : Nat) : List Nat := (nodesOpen s h).filter fun d => anc s h id d

/-- The lane works under a resolving node or a descendant of one (R217). -/
def underResolving (s : State) (ctx hyp : Nat) : Bool :=
  match hctxFor s ctx with
  | none => false
  | some h => hyp != 0 && (chain s h hyp).any fun a => a != 0 && (nodeOf s h a).state == 2

/-- Some lane of the issue set, whatever its guard, holds a word that R217 names (R131, R217). -/
def resolveHeld (s : State) (i : Iss) : Bool :=
  (lanesOf i.iss).any fun L => underResolving s i.ctx ((s.group i.b i.g).lane L).hyp

/-- A new child of a node: the lowest free id; refused where R215 says. DESIGN CHOICE (log 90). -/
def openNode (s : State) (ctx parent handler : Nat) (bound : Bool) : Option (Nat × Nat × State) :=
  match hctxFor s ctx with
  | none => none
  | some h =>
    let d := if parent = 0 then 1 else (nodeOf s h parent).depth + 1
    if d > 15 || decide (255 ≤ (nodesOpen s h).length) then none
    else match (List.range 255).find? fun k => (nodeOf s h (k + 1)).state == 0 with
    | none => none
    | some k => some (h, k + 1, setNode s h (k + 1) fun _ =>
        { state := 1, parent := parent, depth := d, handler := w64 handler, bound := bound })

/-- A request joins the resolve order; its node, and for a refute every descendant, takes STATE 2 (R221). -/
def enterResolve (s : State) (h : Nat) (confirm : Bool) (id reason : Nat) (lane : Option (Nat × Nat × Nat)) : State :=
  let ids := if confirm then [id] else subtree s h id
  let s1 := ids.foldl (fun t d => setNode t h d fun n => { n with state := 2 }) s
  let s2 := modHctx s1 h fun c => { c with queue := c.queue ++
    [{ confirm := confirm, id := id, reason := reason, lane := lane, ids := ids, seq := s.seq }] }
  { s2 with seq := s.seq + 1 }

/-- Every member pair of a guess-bound node agrees: its truth is here, its status is OK and GUESS equals TRUTH bit for bit (R228). -/
def membersAgree (s : State) (n : Node) : Bool :=
  n.members.all fun m =>
    let t := tget {} (s.group m.1 m.2.1).slots m.2.2.1
    let L := m.2.2.2
    inMask t.arrived L && tget 0 t.status L == 0 && (List.range t.nreg).all fun k => tget 0 t.guess (4 * L + k) == tget 0 t.truth (4 * L + k)

/-- NPEND has reached 0: a confirm or a GUESS_WRONG refute enters the resolve order (R228). -/
def boundDecide (s : State) (h id : Nat) : State :=
  let n := nodeOf s h id
  if n.bound && n.npend == 0 && n.state == 1 then enterResolve s h (membersAgree s n) id 2 none else s

/-- A lane's truth has arrived in a slot of a guess-bound node: where the pair is a member, one fewer is awaited (R226). -/
def truthFor (s : State) (b g slot L id : Nat) : State :=
  match hctxFor s (s.block b).ctx with
  | none => s
  | some h =>
    if id = 0 || !(nodeOf s h id).members.contains (b, g, slot, L) then s
    else boundDecide (setNode s h id fun n => { n with npend := n.npend - 1 }) h id

/-- A register of a lane receives its truth: the value, guess bit clear, no longer an origin (R209, R228). -/
def Group.takeTruth (q : Group) (slot L k : Nat) : Group :=
  let t := tget {} q.slots slot
  let q := q.putV (t.dest + k) L (tget 0 t.truth (4 * L + k)) false
  { q with slots := tmod {} q.slots slot fun t => { t with bound := tset false t.bound (4 * L + k) false } }

/-- Member registers that are still origins and whose truth is here receive it (R228). -/
def membersTruth (s : State) (n : Node) : State :=
  n.members.foldl (fun s m =>
    let L := m.2.2.2
    modGroup s m.1 m.2.1 fun q =>
      let t := tget {} q.slots m.2.2.1
      if !inMask t.arrived L then q
      else (List.range t.nreg).foldl (fun q k => if tget false t.bound (4 * L + k) then q.takeTruth m.2.2.1 L k else q) q) s

/-- Members' slots are no longer held for the node (R228). -/
def membersFree (s : State) (n : Node) : State :=
  n.members.foldl (fun s m => modGroup s m.1 m.2.1 fun q =>
    ({ q with slots := tmod {} q.slots m.2.2.1 fun t => { t with hbind := 0 } }).sweepSlots) s

/-- A confirmed guess-bound node: guess bits of member lanes that are guessed in no other slot are cleared, and bound
origins lose their BOUND bits (R228). -/
def membersConfirm (s : State) (n : Node) : State :=
  n.members.foldl (fun s m => modGroup s m.1 m.2.1 fun q =>
    let L := m.2.2.2
    let q := { q with slots := tmod {} q.slots m.2.2.1 fun t =>
      { t with bound := (List.range 4).foldl (fun b k => tset false b (4 * L + k) false) t.bound } }
    let other := (tkeys q.slots).any fun k => k != m.2.2.1 && (let t := tget {} q.slots k; t.busy && inMask t.guessed L)
    if other then q
    else { q with rguess := q.rguess.filter fun e => e.1 % 32 != L, pguess := q.pguess.filter fun e => e.1 % 32 != L }) s

end Sys2Proof.Machine
end

