-- ==== Sys2Proof/Machine/Fabric.lean ====
section
/-! DEFINITION. The way of a core's request to a fabric peer: position, routes, packets, tags and token buckets
(R48, R51–R56, R64). -/

namespace Sys2Proof.Machine

/-- The device's own peer id: 8 × row + col (R48). -/
def ownPeer (s : State) : Option Nat := s.position.map fun p => 8 * p.1 + p.2

/-- Row port to a column and column port to a row (R48). -/
def rowPort (col c : Nat) : Nat := if c < col then c else c - 1
def colPort (row a : Nat) : Nat := 7 + (if a < row then a else a - 1)

def State.port (s : State) (p : Nat) : Port := tget {} s.ports p
def modPort (s : State) (p : Nat) (f : Port → Port) : State := { s with ports := tmod {} s.ports p f }

/-- A port that carries packets: up or recalibrating (R62). -/
def portUp (s : State) (p : Nat) : Bool := let t := (s.port p).state; t == 2 || t == 3

/-- The minimal port toward a peer from a position: rows first (R53). -/
def minimalPort (pos : Nat × Nat) (q : Nat) : Nat :=
  if q % 8 ≠ pos.2 then rowPort pos.2 (q % 8) else colPort pos.1 (q / 8)

/-- The port that replaces one that is down: through the neighbour in the other dimension with the lowest peer id (R55). -/
def fixedRoute (s : State) (p : Nat) : Option Nat :=
  let ports := if p < 7 then (List.range 7).map (· + 7) else List.range 7
  (sortBy (fun k => (s.port k).peer) (ports.filter (portUp s))).head?

/-- The port that packets to a peer leave by where no hop is added: the minimal one, or where that is down the one that replaces it,
fixed when it went down (R53, R55). -/
def routeTo (s : State) (q : Nat) : Option Nat :=
  match s.position with
  | none => none
  | some pos =>
    let p := minimalPort pos q
    if portUp s p then some p else if (s.port p).state = 4 then (s.port p).detourBy.filter (portUp s) else none

/-- A virtual channel stopped by the far end, with the tick of the stop (R63). -/
def vcStopped (s : State) (p vc : Nat) : Option Nat :=
  ((s.port p).stopped.find? fun e : Nat × Nat => e.1 == vc).map Prod.snd

/-- The detour of a read request or response: the minimal port has held its VC stopped for 64 ticks (R53). -/
def detourPort (s : State) (p vc : Nat) : Option Nat :=
  match vcStopped s p vc with
  | none => none
  | some t =>
    if s.ct < t + 64 then none
    else ((if p < 7 then List.range 7 else (List.range 7).map (· + 7)).find? fun k =>
      k != p && portUp s k && (vcStopped s k (vc + 1)).isNone)

/-- The port that a packet leaves by, and whether that is its detour: read requests and responses may take one, a read not while
`direct`, and none from a route that replaces a port (R53–R55). -/
def egressOf (s : State) (q : Nat) (k : Packet) (direct : Bool) : Option (Nat × Bool) :=
  (routeTo s q).map fun p =>
    let minimal := s.position.any fun pos => minimalPort pos q == p
    match (if minimal && !direct && (k.typ == 0 || decide (8 ≤ k.typ)) then detourPort s p k.vc else none) with
    | some d => (d, true)
    | none => (p, false)

/-- Put a packet into the output of the port it leaves by. -/
def putPacket (s : State) (k : Packet) (e : Nat × Bool) : State :=
  modPort s e.1 fun r => { r with outQ := r.outQ ++ [if e.2 then { k with detour := true, vc := k.vc + 1 } else k] }

def sendPacket (s : State) (q : Nat) (k : Packet) (direct : Bool) : Option State := (egressOf s q k direct).map (putPacket s k)

/-- First and last 64-byte sectors that a load's parts touch within their line. -/
def sectLo (r : Req) : Nat := r.parts.foldl (fun acc p => min acc (p.off / 64)) 3
def sectHi (r : Req) : Nat := maxOf (r.parts.map fun p => p.off / 64)

/-- The combined operand of the members of a fabric atomic, in ascending lane id (R59). -/
def combinedOperand (r : Req) : Nat :=
  match r.parts with
  | [] => 0
  | p :: ps => ps.foldl (fun acc q => atomNew r.sub r.amod r.ty acc q.opB 0) p.opB

/-- The value each member of a combined atomic fetches, by position, from the value at the home (R59). -/
def memberFetch (r : Req) (old : Nat) (k : Nat) : Nat :=
  match r.parts.take k with
  | [] => old
  | ps => atomNew r.sub r.amod r.ty old (combinedOperand { r with parts := ps }) 0

/-- The packet of a request (R51, R385). A read names the sectors it asks for: the first by ADDR, their number by DLEN. -/
def packetOf (s : State) (r : Req) (q off : Nat) : Packet :=
  let base : Packet := { part := r.part, tag := r.tag, src := (ownPeer s).getD 0, dest := q }
  let p := r.parts.headD {}
  match r.kind with
  | .store => { base with
      typ := 1, addr := off, dlen := 1
      mask := (List.range 64).map fun k => (r.bytes.find? fun e : Nat × Byte => e.1 = k).isSome
      data := (List.range 64).map fun k => ((r.bytes.find? fun e : Nat × Byte => e.1 = k).map Prod.snd).getD 0 }
  | .atomic => { base with
      typ := if r.sub = 6 then 4 else if r.dest.isSome then 2 else 3
      addr := off + p.off, aop := r.sub * 8 + r.amod % 4 * 2 + b2n (p.w == 8)
      data := leBytes p.w (combinedOperand r) ++ if r.sub = 6 then leBytes p.w p.opC else [] }
  | _ => { base with addr := off + 64 * sectLo r, dlen := sectHi r - sectLo r + 1 }

/-- Flits charged to a bucket: a write or atomic its own, a read its header flit and every flit of its response, which has a header
flit too (R51, R64). DESIGN CHOICE (log 26). -/
def flitsOf (k : Packet) : Nat := if k.typ = 0 then 2 + k.dlen else 1 + k.dlen

/-- Key of a port's bucket of a partition (R65). -/
def bucketKey (p t : Nat) : Nat := 12 * p + t

/-- A tag no request in flight holds (R51, R52). -/
def freeTag (s : State) : Option Nat :=
  let used := s.reqs.filterMap fun r => match r.place with
    | .peer _ _ => if r.stage = .held then some r.tag else none
    | _ => none
  firstIdx 4096 fun t => !used.contains t

def modReq (s : State) (id : Nat) (f : Req → Req) : State :=
  { s with reqs := s.reqs.map fun r => if r.id = id then f r else r }

/-- The core still has an unacknowledged write or atomic to the line of a read (R54). -/
def lineBusy (s : State) (r : Req) (q off : Nat) : Bool :=
  s.reqs.any fun x => x.core == r.core && (x.kind == .store || x.kind == .atomic) && x.stage != .done &&
    (match x.place with | .peer q2 o2 => q2 == q && o2 / 256 == off / 256 | _ => false)

/-- The port a request leaves by now. -/
def egressPort (s : State) (r : Req) (q off : Nat) : Option (Nat × Bool) := egressOf s q (packetOf s r q off) (lineBusy s r q off)

/-- Send one request where a route, a tag and its tokens are there, by the port whose bucket it is charged to; a RATE of 0 bars the
port (R64, R65). An access to the own peer id goes to the home slices as a fabric access (R50). -/
def trySend (s : State) (r : Req) (q off : Nat) : Option State :=
  if ownPeer s = some q then
    let s := { s with seq := s.seq + 1, inbound := tset {} s.inbound (tfree s.inbound) { pkt := packetOf s r q off, own := some r.id, seq := s.seq } }
    some (modReq s r.id fun r => { r with stage := .held, tag := 4096 })
  else match freeTag s, egressPort s r q off with
  | some t, some e =>
    let k := packetOf s { r with tag := t } q off
    let b := tget {} s.buckets (bucketKey e.1 r.part)
    if b.rate = 0 ∨ b.level < flitsOf k then none
    else
      let s1 := modPort { s with buckets := tset {} s.buckets (bucketKey e.1 r.part) { b with level := b.level - flitsOf k } } e.1 fun p => { p with turn := r.part }
      some (modReq (putPacket s1 k e) r.id fun r => { r with stage := .held, tag := t, ctc := s.ct })
  | _, _ => none

/-- Requests that wait for a port: of each partition the first at each port (R54, R64). -/
def firstWaiting (s : State) : List (Nat × Req × Nat × Nat) :=
  (s.reqs.foldl (fun (acc : List (Nat × Nat) × List (Nat × Req × Nat × Nat)) r =>
    match r.place, r.stage with
    | .peer q off, .egress =>
      let p := ((egressPort s r q off).map Prod.fst).getD 99
      if acc.1.contains (p, r.part) then acc else (acc.1 ++ [(p, r.part)], acc.2 ++ [(p, r, q, off)])
    | _, _ => acc) ([], [])).2

/-- A port serves waiting partitions in turn (R65): how far a partition stands behind the one served last. -/
def turnOf (s : State) (e : Nat × Req × Nat × Nat) : Nat := 12 * e.1 + (e.2.1.part + 11 - (s.port e.1).turn) % 12

/-- Send what can be sent, n requests at most. -/
def pumpPorts : Nat → State → State
  | 0, s => s
  | n + 1, s => match (sortBy (turnOf s) (firstWaiting s)).findSome? fun e => trySend s e.2.1 e.2.2.1 e.2.2.2 with
    | some t => pumpPorts n t
    | none => s

/-- Send what can be sent, each partition's requests for a port in their order, the partitions in turn (R54, R64, R65). -/
def pumpFabric (s : State) : State :=
  pumpPorts (s.reqs.filter fun r => r.stage == .egress && (match r.place with | .peer _ _ => true | _ => false)).length s

end Sys2Proof.Machine
end

