-- ==== Sys2Proof/Machine/Access.lean ====
section
/-! DEFINITION. Lane accesses to memory: address paths (R147–R150), effective addresses (R367), the checks of each lane
(R369), on-chip storage, L1 and constant-store sectors (R158–R161, R166), requests, and the delivery of loads (R198–R205). -/

namespace Sys2Proof.Machine

/-! ## Address paths -/

/-- The place an address names: translated memory (`cst` the read-only path), host memory, scratchpad bytes of a block,
accumulator bytes of a core, register bytes of a block (path 0x05 region 0), a block's scratchpad or accumulators on path 0x05
(regions 1 and 2), which are reached as another block's (R190), a fabric peer. -/
inductive Tgt where
  | glob (va : Nat) (cst : Bool)
  | host (va : Nat)
  | scr (block off : Nat)
  | acc (core off : Nat)
  | reg (block off : Nat)
  | far (block : Nat) (acc : Bool) (off : Nat)
  | fab (q off : Nat)
  deriving DecidableEq, Repr

/-- Bytes of a block's scratchpad. -/
def scrBytes (s : State) (b : Nat) : Nat := (recordOf s b).scratch * 256

def pathOf (ea : Nat) : Nat := ea / 2 ^ 56

/-- The peer's session entry is enabled for the partition (R50, R70). -/
def sessionOpen (s : State) (part q : Nat) : Bool := (tget none (s.part part).sessions q).isSome

/-- The on-chip map (R149). -/
def parseChip (s : State) (ctx ea : Nat) : Except Nat Tgt :=
  let off := bits ea 33 0
  if bits ea 39 36 ≠ 0 then .error 0x06
  else match lcoreBlock s ctx (bits ea 55 40) with
  | none => .error 0x06
  | some b =>
    match bits ea 35 34 with
    | 0 => if bits off 33 20 ≠ 0 ∨ bits off 19 16 ≥ (recordOf s b).ngrp ∨ bits off 15 7 ≥ (recordOf s b).regs then .error 0x06
           else .ok (.reg b off)
    | 1 => if off ≥ scrBytes s b then .error 0x06 else .ok (.far b false off)
    | 2 => if bits off 33 18 ≠ 0 then .error 0x06 else .ok (.far b true off)
    | _ => .error 0x06

/-- The place an effective address names, or ADDRESS (R147–R149, R106, R50). -/
def parseAddr (s : State) (i : Iss) (ea : Nat) : Except Nat Tgt :=
  let hi := bits ea 55 48
  let low := bits ea 47 0
  match pathOf ea with
  | 0 => if hi ≠ 0 then .error 0x06 else .ok (.glob low false)
  | 1 => if hi ≠ 0 then .error 0x06 else .ok (.glob low true)
  | 2 => if bits ea 55 0 ≥ scrBytes s i.b then .error 0x06 else .ok (.scr i.b (bits ea 55 0))
  | 3 =>
    if hi ≥ (recordOf s i.b).nblk then .error 0x06
    else match gangBlock s i.b hi with
    | none => .error 0x06
    | some b => if (s.block b).ended || decide (low ≥ scrBytes s b) then .error 0x06 else .ok (.scr b low)
  | 4 => if bits ea 55 18 ≠ 0 then .error 0x06 else .ok (.acc i.core (bits ea 17 0))
  | 5 => parseChip s i.ctx ea
  | 6 => if hi ≠ 0 then .error 0x06 else .ok (.host low)
  | 7 => if hi ≥ 64 || !sessionOpen s (s.context i.ctx).part hi then .error 0x06 else .ok (.fab hi low)
  | _ => .error 0x06

/-! ## On-chip bytes -/

def scrByte (s : State) (b off : Nat) : Byte := tget 0 (s.block b).scratch off
def putScr (s : State) (b off : Nat) (x : Byte) : State := modBlock s b fun k => { k with scratch := tset 0 k.scratch off x }

/-- Byte k of a 32-bit word, and the word with that byte replaced. -/
def wordByte (x : W32) (k : Nat) : Byte := BitVec.ofNat 8 (x.toNat >>> (8 * k))
def setWordByte (x : W32) (k : Nat) (y : Byte) : W32 :=
  w32 (x.toNat - x.toNat / 2 ^ (8 * k) % 256 * 2 ^ (8 * k) + y.toNat * 2 ^ (8 * k))

/-- Accumulator bytes (R148). -/
def accByte (s : State) (c off : Nat) : Byte :=
  wordByte (tget 0 (tget {} (s.core c).tiles (off / 65536)).data (off % 65536 / 4)) (off % 4)
def putAcc (s : State) (c off : Nat) (x : Byte) : State :=
  modCore s c fun k => { k with tiles := tmod {} k.tiles (off / 65536) fun t =>
    { t with data := tset 0 t.data (off % 65536 / 4) (setWordByte (tget 0 t.data (off % 65536 / 4)) (off % 4) x) } }

/-- Register bytes of path 0x05 (R149). A write is a write of a value to the register: an origin loses its binding
(R204); the guess bit is left as it is. -/
def regByte (s : State) (b off : Nat) : Byte :=
  wordByte ((s.group b (bits off 19 16)).vReg (bits off 15 7) (bits off 6 2)) (off % 4)
/-- DEDUCED (log 68). -/
def putReg (s : State) (b off : Nat) (x : Byte) : State :=
  modGroup s b (bits off 19 16) fun q =>
    let r := bits off 15 7
    let L := bits off 6 2
    (q.unbind r L).putV r L (setWordByte (q.vReg r L) (off % 4) x) (q.vGuess r L)

/-- The n bytes of on-chip storage at a place. -/
def chipBytes (s : State) (t : Tgt) (n : Nat) : List Byte :=
  (List.range n).map fun k => match t with
    | .scr b off => scrByte s b (off + k)
    | .acc c off => accByte s c (off + k)
    | .reg b off => regByte s b (off + k)
    | .far b a off => if a then accByte s (s.block b).core (off + k) else scrByte s b (off + k)
    | _ => 0
def putChip (s : State) (t : Tgt) (bs : List Byte) : State :=
  let u := bs.zipIdx.foldl (fun s e => match t with
    | .scr b off => putScr s b (off + e.2) e.1
    | .acc c off => putAcc s c (off + e.2) e.1
    | .reg b off => putReg s b (off + e.2) e.1
    | .far b a off => if a then putAcc s (s.block b).core (off + e.2) e.1 else putScr s b (off + e.2) e.1
    | _ => s) s
  match t with
  | .reg b off => landed s u b (bits off 19 16) (dedup ((List.range bs.length).map fun k => (off + k) / 4)
      |>.map fun n => (bits (4 * n) 15 7, bits (4 * n) 6 2))
  | _ => u

/-- Presence of a scratchpad line (R170). -/
def linePresent (s : State) (b off : Nat) : Bool := (tget {} (s.block b).lines (off / 256)).present

/-- The token of a tile is held by the vector side of the block (R172). -/
def tileMine (s : State) (c off b : Nat) : Bool := (tget {} (s.core c).tiles (off / 65536)).token == .vec b

/-! ## Effective addresses and lane checks (R367, R369) -/

/-- Narrow bases: LDS and STS on path 0x02, LDA and STA on path 0x04. -/
def narrowPath (op : Nat) : Option Nat :=
  if op = 0x71 ∨ op = 0x81 then some 2 else if op = 0x73 ∨ op = 0x82 then some 4 else none

/-- EA of a lane: the address and, where it faults already, the cause. -/
def eaOf (op : Nat) (w : Insn) (s : State) (i : Iss) (L : Nat) : Nat × Option Nat :=
  match narrowPath op with
  | some p =>
    let x : Int := (val32 s i (opA w) L : Int) + xOffset w
    (p * 2 ^ 56 + wrap 56 x, if x < 0 ∨ x ≥ 2 ^ 32 then some 0x06 else none)
  | none =>
    let ea := wrap 64 ((val64 s i (opA w) L : Int) + xOffset w)
    if op = 0x72 then (if pathOf ea ≤ 1 then (ea % 2 ^ 56 + 2 ^ 56, none) else (ea, some 0x06)) else (ea, none)

/-- What the checks of one lane find. -/
inductive LaneRes where
  | ok (ea : Nat) (t : Tgt) (x : Xl)
  | fault (code ea : Nat)
  | replay (ea va : Nat)
  deriving DecidableEq, Repr

/-- Path, alignment and translation of one lane's access of n bytes (R369 stage 4). -/
def tryLane (op : Nat) (w : Insn) (n : Nat) (acc : Acc) (s : State) (i : Iss) (L : Nat) : LaneRes :=
  let e := eaOf op w s i L
  match e.2 with
  | some c => .fault c e.1
  | none => match parseAddr s i e.1 with
  | .error c => .fault c e.1
  | .ok t =>
    let xl := fun va host =>
      match xlate s i.core (s.context i.ctx).part va acc host with
      | .ok x => LaneRes.ok e.1 t x
      | .error .notPresent => .replay e.1 va
      | .error f => .fault (xfaultCode f) e.1
    let bad : Bool := match t with | .glob _ c => c && acc != .read | _ => false
    if bad then .fault 0x06 e.1
    else if e.1 % n ≠ 0 then .fault 0x07 e.1
    else match t with
    | .glob va _ => xl va false
    | .host va => xl va true
    | t => .ok e.1 t {}

/-- Results of the executing lanes, in ascending lane id. -/
abbrev Tries := List (Nat × LaneRes)

def tries (op : Nat) (w : Insn) (n : Nat) (acc : Acc) (s : State) (i : Iss) : Tries :=
  (lanesOf i.ex).map fun L => (L, tryLane op w n acc s i L)

def resEa : LaneRes → Nat | .ok ea _ _ | .fault _ ea | .replay ea _ => ea

/-- PRIV_PATH: a lane on path 0x05 outside trap mode (R150). -/
def privPath (s : State) (i : Iss) (ts : Tries) : Bool :=
  !(s.group i.b i.g).trapMode && ts.any fun e => pathOf (resEa e.2) == 5

/-- TOKEN_FAULT: a lane that reaches a tile on path 0x04, aligned or not, whose token is not VEC of the issuing block (R172, R369). One
whose address faults reaches none (R367). -/
def tokenBad (s : State) (i : Iss) (ts : Tries) : Bool :=
  ts.any fun e => let ea := resEa e.2
    !(match e.2 with | .fault c _ => c == 0x06 | _ => false) && pathOf ea == 4 && decide (ea % 2 ^ 56 < 2 ^ 18) && !tileMine s i.core (ea % 2 ^ 18) i.b

/-- A lane's address stands on path 0x06, path 0x07 or a TIER 1 page; one whose translation faults is skipped (R369). -/
def onRemote (s : State) (i : Iss) (acc : Acc) (ea : Nat) : Bool :=
  let tier := fun host => match xlate s i.core (s.context i.ctx).part (bits ea 47 0) acc host with
    | .ok x => x.tier
    | .error _ => false
  match pathOf ea with
  | 7 => true
  | 6 => bits ea 55 48 != 0 || tier true
  | 0 | 1 => bits ea 55 48 == 0 && tier false
  | _ => false

/-- HYP_REMOTE: a lane under a non-root hypothesis that writes to path 0x06, path 0x07 or a TIER 1 page (R220). -/
def hypRemote (s : State) (i : Iss) (ts : Tries) (acc : Acc) : Bool :=
  ts.any fun e => ((s.group i.b i.g).lane e.1).hyp != 0 && onRemote s i acc (resEa e.2)

/-- Stage 3 of an access (R369): the cause, if any. -/
def stage3 (s : State) (i : Iss) (ts : Tries) (write : Bool) (acc : Acc := .write) : Option Nat :=
  if privPath s i ts then some 0x05
  else if tokenBad s i ts then some 0x0D
  else if write && hypRemote s i ts acc then some 0x12
  else none

/-- The lanes that passed every check. -/
def goodLanes (ts : Tries) : List (Nat × Nat × Tgt × Xl) :=
  ts.filterMap fun e => match e.2 with | .ok ea t x => some (e.1, ea, t, x) | _ => none

/-- The answer of an access once the good lanes have acted in s (R258, R259). DEDUCED (log 15). -/
def accessEnd (s : State) (ts : Tries) (acc : Acc) : Res :=
  let mask := fun (f : LaneRes → Bool) => maskOf fun L => ts.any fun e => e.1 == L && f e.2
  let fm := mask fun r => match r with | .ok _ _ _ => false | _ => true
  if fm = 0 then .next s
  else
    let codes := ts.filterMap fun e => match e.2 with | .fault c _ => some c | _ => none
    let va := ts.map fun e => (e.1, resEa e.2)
    match codes with
    | c :: cs =>
      let c := cs.foldl min c
      .partial_ s { cause := c, fm := fm, cm := mask fun r => match r with | .fault k _ => k == c | _ => false, va := va }
    | [] =>
      let pages := dedup (ts.filterMap fun e => match e.2 with | .replay _ v => some (v / 4096 * 4096) | _ => none)
      .park s fm acc (pages.map fun p => (p, mask fun r => match r with | .replay _ v => v / 4096 * 4096 == p | _ => false)) va

/-- The effects of the translations of the good lanes (R153). -/
def noteAll (s : State) (i : Iss) (acc : Acc) (gs : List (Nat × Nat × Tgt × Xl)) : State :=
  gs.foldl (fun s e => match e.2.2.1 with
    | .glob va _ | .host va => noteXl s i.core (s.context i.ctx).part va acc e.2.2.2
    | _ => s) s

/-! ## Sectors held by a core (R158–R161, R166) -/

/-- The L1 or the constant store of a core. -/
def store1 (c : Core) (cst : Bool) : Tbl Sector := if cst then c.const else c.l1
def modStore1 (s : State) (core : Nat) (cst : Bool) (f : Tbl Sector → Tbl Sector) : State :=
  modCore s core fun c => if cst then { c with const := f c.const } else { c with l1 := f c.l1 }

/-- A sector hits for a tag (R159). -/
def sectorHit (s : State) (core : Nat) (cst : Bool) (sec : Nat) (tag : Nat × Nat) : Option Sector :=
  let x := tget {} (store1 (s.core core) cst) sec
  if x.valid && holds (coreCt s core) x.expiry && (x.hctx, x.hyp) == tag then some x else none

/-- A sector that is valid, or that is kept as a guess source, under a tag (R160, R161). -/
def sectorKept (s : State) (core : Nat) (cst : Bool) (sec : Nat) (tag : Nat × Nat) : Option Sector :=
  let x := tget {} (store1 (s.core core) cst) sec
  if (x.valid || x.faded) && (x.hctx, x.hyp) == tag then some x else none

/-- Faded: no longer valid, the data kept (R161). -/
def fadeSector (x : Sector) : Sector := { x with valid := false, faded := x.valid || x.faded }

/-- Sets and ways: 128 of 8 in the L1, 64 of 4 in the constant store. -/
def setsOf (cst : Bool) : Nat := if cst then 64 else 128
def waysOf (cst : Bool) : Nat := if cst then 4 else 8

/-- Age of a line: the latest use of its sectors. -/
def lineUsed (t : Tbl Sector) (line : Nat) : Nat := maxOf ((List.range 4).map fun k => (tget {} t (4 * line + k)).used)

/-- Make room for a line in its set: the least recently used line leaves (R158). -/
def makeRoom (cst : Bool) (t : Tbl Sector) (line : Nat) : Tbl Sector :=
  let ls := dedup (((tkeys t).map (· / 4)).filter fun l => l % setsOf cst == line % setsOf cst)
  if ls.contains line || decide (ls.length < waysOf cst) then t
  else match sortBy (lineUsed t) ls with
  | v :: _ => t.filter fun e => e.1 / 4 != v
  | [] => t

/-- A fill (R158, R159). An evict-first line takes the least recently used place (R368). -/
def fillSector (s : State) (core : Nat) (cst : Bool) (sec : Nat) (x : Sector) (ef : Bool) : State :=
  let n := if ef then 1 else s.seq + 1
  modStore1 { s with seq := s.seq + 1 } core cst fun t => tset {} (makeRoom cst t (sec / 4)) sec { x with used := n }

/-- A use of a sector, for the replacement (R158). -/
def touchSector (s : State) (core : Nat) (cst : Bool) (sec : Nat) : State :=
  let n := s.seq + 1
  modStore1 { s with seq := n } core cst fun t => tmod {} t sec fun x => { x with used := n }

/-- The bytes of a store merge into the core's L1 sector of its tag, which fades (R160). A fill of the sector that the core
asked for before the store brings nothing into the L1, though the home may lease it: a later load must return the store (R164, R179). -/
def mergeL1 (s : State) (core sec : Nat) (tag : Nat × Nat) (bs : List (Nat × Byte)) : State :=
  let s := { s with reqs := s.reqs.map fun r =>
    if (r.kind = .load ∨ r.kind = .pref) ∧ r.core = core ∧ r.place = .home (64 * sec) ∧ !r.isConst then { r with noFill := true } else r }
  match sectorKept s core false sec tag with
  | none => s
  | some _ => modStore1 s core false fun t => tmod {} t sec fun x =>
      fadeSector { x with data := x.data.zipIdx.map fun e => ((bs.find? fun b : Nat × Byte => b.1 = e.2).map Prod.snd).getD e.1 }

/-- The faded bytes a guess takes, 0 where no faded sector matches (R161, R203). -/
def fadedBytes (s : State) (core : Nat) (cst : Bool) (pa n : Nat) (tag : Nat × Nat) : List Byte :=
  match sectorKept s core cst (pa / 64) tag with
  | some x => if x.valid && holds (coreCt s core) x.expiry then List.replicate n 0
              else (List.range n).map fun k => x.data.getD (pa % 64 + k) 0
  | none => List.replicate n 0

/-! ## Limits, deadlines, classes (R29–R31, R198) -/

/-- The waiting limit of a lane in ticks, 0 for none (R198). -/
def limitOf (w : Insn) (s : State) (i : Iss) (L : Nat) : Nat :=
  let k := xLim w
  if k = 0 then 0 else if k < 15 then 2 ^ (k + 2) else val32 s i (opC w) L

/-- The register that holds the prediction of a reg guess: C, or its pair's second (R198, R203). -/
def predOf (w : Insn) (s : State) (i : Iss) (L : Nat) : W32 :=
  match opC w with
  | .v n => (readV s i.b i.g (if xLim w = 15 then n + 1 else n) L).1
  | _ => 0

/-- Return margin (R29). -/
def returnMargin (core pa : Nat) : Nat := if homeDie pa = dieOfCore core then 32 else 48

/-- Deadline of a load with a limit (R29). -/
def deadlineOf (s : State) (i : Iss) (pa limit : Nat) : Nat :=
  let l := if limit = 0 then (recordOf s i.b).limit else limit
  coreCt s i.core + (l - returnMargin i.core pa)

/-- Service class of a limit: 0 urgent, 1 normal, 2 frugal (R30). -/
def classOfLimit (limit : Nat) : Nat := if limit = 0 then 1 else if limit ≤ 64 then 0 else if limit ≤ 4096 then 1 else 2

/-- Shaped latency of a context in ticks, 0 for none (R211). -/
def shapeOf (s : State) (ctx : Nat) : Nat :=
  let v := (s.context ctx).shape.toNat
  if bit v 63 then bits v 23 0 else 0

/-! ## Requests -/

/-- The line or sector that shares one request, and the offset of a part within it (R31, R56, R160). -/
def placeOf (t : Tgt) (x : Xl) (load : Bool) : Place × Nat :=
  match t with
  | .glob va _ | .host va =>
    let _ := va
    if x.tier then (.host (x.pa / 64 * 64), x.pa % 64) else (.home (x.pa / 64 * 64), x.pa % 64)
  | .fab q off => if load then (.peer q (off / 256 * 256), off % 256) else (.peer q (off / 64 * 64), off % 64)
  | .scr b off => (.gang b false, off)
  | .far b a off => (.gang b a, off)
  | _ => (.home 0, 0)

/-- Parts that share a request: same place, store and hypothesis, in order of first appearance. -/
structure Share where
  place : Place := .home 0
  cst   : Bool := false
  hyp   : Nat := 0
  hold  : Bool := false
  va    : Nat := 0
  /-- Generation of its translation (R156). -/
  gen   : Nat := 0
  parts : List Part := []
  deriving DecidableEq, Repr

/-- The older of two generations, seen from the present one. -/
def olderGen (now a b : Nat) : Nat := if (now + 256 - b) % 256 ≤ (now + 256 - a) % 256 then a else b

/-- Put a lane's part into the request of its sector (R31). Lanes under different hypotheses, whose requests bear different tags, and
lanes on paths 0x00 and 0x01, whose fills go to different stores, do not share one. DESIGN CHOICE (log 99). -/
def addShare (now : Nat) (x : Share) : List Share → List Share
  | [] => [x]
  | y :: ys => if y.place = x.place ∧ y.cst = x.cst ∧ y.hyp = x.hyp then { y with parts := y.parts ++ x.parts, gen := olderGen now y.gen x.gen } :: ys
               else y :: addShare now x ys

/-- Group accesses into requests. An atomic acts on committed memory whatever the lane's hypothesis: its requests are not told apart by
it (R383). -/
def shares (s : State) (i : Iss) (load : Bool) (part : Nat → Part) (gs : List (Nat × Nat × Tgt × Xl)) (tagged : Bool := true) : List Share :=
  let now := (s.part (s.context i.ctx).part).gen
  gs.foldl (fun acc e =>
    let p := placeOf e.2.2.1 e.2.2.2 load
    addShare now {
      place := p.1, cst := (match e.2.2.1 with | .glob _ c => c | _ => false)
      hyp := (match p.1 with | .home _ => if tagged then ((s.group i.b i.g).lane e.1).hyp else 0 | _ => 0), hold := e.2.2.2.hold
      va := (match e.2.2.1 with | .glob va _ => va | .host va => va | _ => e.2.1)
      gen := (match e.2.2.1 with | .glob _ _ | .host _ => e.2.2.2.entry.gen | _ => now)
      parts := [{ part e.1 with lane := e.1, off := p.2 }] } acc) []

/-- A store or atomic to the page is held by page migration: later ones to it are held after it, though the page's entry may have
changed already (R174, R179). -/
def pageHeld (s : State) (part va : Nat) : Bool :=
  s.reqs.any fun r => r.hold && (r.kind == .store || r.kind == .atomic) && r.part == part && r.va / 4096 == va / 4096

/-- The fields every request of a word carries. -/
def baseReq (s : State) (i : Iss) (x : Share) : Req :=
  let part := (s.context i.ctx).part
  let tag := tagOf s i.ctx x.hyp
  { id := s.seq, place := x.place, block := i.b, grp := i.g, core := i.core, ctx := i.ctx, part := part, parts := x.parts
    hctx := tag.1, hyp := tag.2, va := x.va, issueCt := coreCt s i.core, gen := x.gen
    word := (s.group i.b i.g).words, isConst := x.cst
    hold := x.hold || (match x.place with | .home _ | .host _ => pageHeld s part x.va | _ => false) }

/-- Put a request on its way. DEDUCED (log 24). -/
def addReq (s : State) (r : Req) : State := { s with seq := s.seq + 1, reqs := s.reqs ++ [r] }

/-! ## Loaded values -/

/-- The registers a load writes: each 32-bit part, a narrow value extended (R366). -/
def extLoad (t : Ty) (bs : List Byte) : List W32 :=
  let n := tyBits t
  let x := ofLeBytes (bs.take (n / 8))
  if n < 32 then [w32 (if isI t then wrap 32 (sext n x) else x)]
  else (List.range (nregOf t)).map fun r => w32 (x / 2 ^ (32 * r))

/-- A load into an S register extends to 64 bits (R365). -/
def extScalar (t : Ty) (bs : List Byte) : W64 := toS t (ofLeBytes (bs.take (tyBits t / 8)))

/-- A later word has written a register since the word that owes it a result issued (R139). -/
def Group.late (q : Group) (word key : Nat) : Bool := decide (word < tget 0 q.lastW key)

/-- Deliver a pending result of a word to the registers of a lane: it replaces no later word's value, and an origin loses its
binding (R139, R204). -/
def Group.putLoad (q : Group) (word dest L : Nat) (xs : List W32) (gb : Bool) : Group :=
  xs.zipIdx.foldl (fun q e =>
    let k := vKey (dest + e.2) L
    if q.late word k then q
    else (({ q.settled k with lastW := tset 0 q.lastW k word } : Group).unbind (dest + e.2) L).putV (dest + e.2) L e.1 gb) q

/-- Scoreboard counts of a load's destination in a lane (R127). -/
def Group.pendAdd (q : Group) (ks : List Nat) : Group := { q with pending := ks.foldl (fun t k => tmod 0 t k (· + 1)) q.pending }
/-- A register whose last pending result is in owes nothing to the order of its writes. -/
def Group.pendSub (q : Group) (ks : List Nat) : Group :=
  let p := ks.foldl (fun t k => tmod 0 t k (· - 1)) q.pending
  { q with pending := p, lastW := q.lastW.filter fun e => tget 0 p e.1 != 0 }

def destKeys (dest nreg L : Nat) : List Nat := (List.range nreg).map fun k => vKey (dest + k) L

/-- The load instruction with a number. -/
def Group.loadOf (q : Group) (id : Nat) : Option LoadI := q.loads.find? fun l => l.id = id
/-- The load whose absent line a lane is parked at: the last that it issued there (R171). -/
def Group.lineLoad (q : Group) (L : Nat) : Option LoadI :=
  let l := q.lane L
  if l.park.cause = pkLine ∧ l.park.detail = 0 then (q.loads.filter fun x => inMask x.waiting L && x.pc == l.lpc).getLast? else none
def Group.modLoad (q : Group) (id : Nat) (f : LoadI → LoadI) : Group :=
  { q with loads := (q.loads.map fun l => if l.id = id then f l else l).filter fun l => l.waiting != 0 || l.expired != 0 }

/-- Index of a load in the stride predictor (R205). -/
def strideEntry (pc : W64) : Nat := pc.toNat / 4 % 16

/-- A reply updates the predictor's entry of its lane (R205). -/
def Group.learn (q : Group) (l : LoadI) (L : Nat) (x : W32) : Group :=
  if l.gsrc ≠ 2 then q
  else { q with stride := tmod (0, 0) q.stride (32 * strideEntry l.pc + L) fun e => (x, x - e.1) }

/-- Status of a reply: 0 OK; 1 POISON; 2 FAULT with a code; 3 completed with an error by a lost peer or host link (R58,
R66, R270). -/
def badBytes (status n : Nat) (bs : List Byte) : List Byte := if status = 0 then bs else List.replicate n 0xFF

/-- What a bad reply makes pending in its group: the machine check of R58, with the number of its error event, and FABRIC_FAULT. Both
report the load's PC where the reply of a guessed lane raises them; else the check names the boundary at which it is taken (R202, R269). -/
def Group.replyTrap (q : Group) (guessed : Bool) (err : Nat × Option Nat) (status fcode L : Nat) (pc : W64) : Group :=
  match status with
  | 1 => q.pendTrap { cause := 0x17, eseq := err.1, ticket := err.2, mask := 0, pc := if guessed then some pc else none }
  | 2 => q.pendTrap { cause := 0x15, detail := fcode, mask := oneLane L, pc := some pc }
  | _ => q

/-- A truth with STATUS POISON that DEMAND writes raises a machine check, under the number of the event raised when it arrived, unless
that one still waits (R209, R378). -/
def Group.poisonTruth (q : Group) (t : TruthSlot) (L : Nat) : Group :=
  let e := tget (0, none) t.err L
  if tget 0 t.status L != 1 || q.pend.any (fun p => p.cause == 0x17 && p.eseq == e.1 && p.ticket == e.2) then q
  else q.pendTrap { cause := 0x17, eseq := e.1, ticket := e.2 }

/-- DEMAND writes the truth of the register it names, and under .q whether the guess was right (R209, R377). -/
def demandLane (s : State) (b g L : Nat) (w : Insn) (slot : Nat) : State :=
  let t := tget {} (s.group b g).slots slot
  let r := match opD w with | .v n => n | _ => 0
  let k := r - t.dest
  let same := tget 0 t.guess (4 * L + k) == tget 0 t.truth (4 * L + k)
  let gg := (guardOf s b g w.g L).2
  modGroup s b g fun q =>
    let q := (q.takeTruth slot L k).poisonTruth t L
    let q := if w.sub.toNat = 1 ∧ !same then q.perfAdd 5 1 else q
    let q := if gg then q.guardV r L else q
    match opB w with
    | .p n => if w.sub.toNat = 1 then q.putP n L same gg else q
    | _ => q

/-- A lane parked in DEMAND on a slot whose truth for it has arrived goes on (R136); in a stopped group it stays parked (R266). -/
def demandRelease (s : State) (b g slot L : Nat) : State :=
  let l := (s.group b g).lane L
  if l.park.cause = pkDemand ∧ l.park.detail = slot ∧ l.refuted.isNone ∧ !(s.group b g).stopped then
    modGroup (unparkNext (landed s (demandLane s b g L (l.park.insn.getD {}) slot) b g
      (vRegsOf (opD (l.park.insn.getD {})) 1 L)) b g (oneLane L) 8) b g Group.sweepSlots
  else s

/-- The replies that update the stride predictor: all that form a register value (R205). DEDUCED (log 100). -/
def formsValue (status : Nat) : Bool := status != 2

/-- A truth slot still holds a lane's guess of a load: the slot has not gone to another load, and the lane lives, or a hypothesis
holds the slot until it resolves (R118, R202). DEDUCED (log 100). -/
def TruthSlot.owns (t : TruthSlot) (live : Mask) (id L : Nat) : Bool :=
  t.busy && t.load == id && inMask t.guessed L && (inMask live L || t.hbind != 0)

/-- A load reply reaches a lane (R200, R202): an ordinary result where the lane still waits, else a truth in its slot. -/
def deliverLane (s : State) (b g id L : Nat) (bs : List Byte) (status fcode : Nat) (err : Nat × Option Nat := (0, none)) : State :=
  let q := s.group b g
  match q.loadOf id with
  | none => s
  | some l =>
    let xs := extLoad l.ty (badBytes status 16 bs)
    let x0 := xs.headD 0
    if inMask l.waiting L then
      match l.sdest with
      | some n =>
        modGroup s b g fun q =>
          let q := if status = 2 ∨ q.late l.word (sKey n) then q else (q.settled (sKey n)).putS n (extScalar l.ty (badBytes status 16 bs))
          let q := (q.replyTrap false err status fcode L l.pc).pendSub [sKey n]
          ((lanesOf l.waiting).foldl (fun q k => q.answered k id) q).modLoad id fun l => { l with waiting := 0 }
      | none =>
        landed s (modGroup s b g fun q =>
          let q := if status = 2 then q else q.putLoad l.word l.dest L xs false
          let q := if formsValue status then q.learn l L x0 else q
          let q := (q.pendSub (destKeys l.dest l.nreg L)).replyTrap false err status fcode L l.pc
          let q := (q.answered L id).modLoad id fun l => { l with waiting := l.waiting &&& ~~~oneLane L }
          (match l.slot with
            | some k => { q with slots := tmod {} q.slots k fun t => if t.load = id then { t with waiting := t.waiting &&& ~~~oneLane L } else t }
            | none => q).sweepSlots) b g (if status = 2 then [] else regsOf l.dest l.nreg L)
    else if inMask l.expired L then
      match l.slot with
      | none => s
      | some k =>
        let t := tget {} q.slots k
        let owned := t.owns q.live id L
        let st := if status = 0 then 0 else if status = 1 then 1 else 2
        let s := modGroup s b g fun q =>
          let q := if !owned then q else { q with slots := tmod {} q.slots k fun t =>
            { t with
              arrived := t.arrived ||| oneLane L, status := tset 0 t.status L st
              err := if st = 1 then tset (0, none) t.err L err else t.err
              truth := xs.zipIdx.foldl (fun tr (e : W32 × Nat) => tset 0 tr (4 * L + e.2) e.1) t.truth } }
          let q := if formsValue status then q.learn l L x0 else q
          let q := q.replyTrap true err status fcode L l.pc
          ((q.answered L id).modLoad id fun l => { l with expired := l.expired &&& ~~~oneLane L }).sweepSlots
        if owned then truthFor (demandRelease s b g k L) b g k L t.hbind else s
    else s

/-! ## Guesses (R200–R203) -/

/-- The prediction of a lane's load as of now, by destination register (R203). -/
def predictNow (s : State) (b g : Nat) (l : LoadI) (L : Nat) : List W32 :=
  let q := s.group b g
  let k := s.block b
  match l.gsrc with
  | 1 =>
    let n := tyBits l.ty / 8
    let zeros := List.replicate n (0 : Byte)
    let mine := fun (r : Req) => r.kind == .load && r.load == l.id && r.block == b && r.grp == g && r.parts.any fun p => p.lane == L
    let bs := match s.reqs.find? mine with
      | some r =>
        let off := ((r.parts.find? fun p => p.lane == L).map fun p => p.off).getD 0
        match r.place with
        | .home pa => fadedBytes s k.core r.isConst (pa + off) n (r.hctx, r.hyp)
        | .gang t a => chipBytes s (.far t a off) n
        | _ => zeros
      | none => match parseAddr s { b := b, g := g, core := k.core, ctx := k.ctx } (tget 0 l.ea L).toNat with
        | .ok (.scr t off) => chipBytes s (.scr t off) n
        | .ok (.far t a off) => chipBytes s (.far t a off) n
        | _ => zeros
    extLoad l.ty bs
  | 2 => let e := tget (0, 0) q.stride (32 * strideEntry l.pc + L); [e.1 + e.2]
  | 3 => [tget 0 l.pred L]
  | _ => List.replicate l.nreg 0

/-- The prediction of a lane's load: as of the tick of its expiry, where that fell while the core clocks stood (R87, R203, R205). -/
def prediction (s : State) (b g : Nat) (l : LoadI) (L : Nat) : List W32 :=
  match l.fixed.find? fun e : Nat × List W32 => e.1 == L with
  | some e => e.2
  | none => predictNow s b g l L

/-- The limit of a lane expires: with a slot, the lane receives its guess and each register becomes an origin; with none
it goes on waiting (R201, R203). A lane parked at an absent line goes on (R171). -/
def expireLane (s : State) (b g id L : Nat) : State :=
  let q := s.group b g
  match q.loadOf id with
  | none => s
  | some l =>
    match (match l.slot with | some k => some k | none => q.freeSlot) with
    | none => modGroup s b g fun q => q.modLoad id fun l => { l with noGuess := l.noGuess ||| oneLane L }
    | some k =>
      let xs := prediction s b g l L
      let others := l.waiting &&& ~~~oneLane L
      let parked := (q.lineLoad L).any fun x => x.id == id
      let s := landed s (modGroup s b g fun q =>
        let t := tget ({} : TruthSlot) q.slots k
        let t := if l.slot.isSome then t
                 else { busy := true, pc := l.pc, dest := l.dest, nreg := l.nreg, load := l.id : TruthSlot }
        let t := { t with
          guessed := t.guessed ||| oneLane L, waiting := others
          guess := xs.zipIdx.foldl (fun tr (e : W32 × Nat) => tset 0 tr (4 * L + e.2) e.1) t.guess }
        let mine := (List.range l.nreg).filter fun e => !q.late l.word (vKey (l.dest + e) L)
        let q := ((q.putLoad l.word l.dest L xs true).pendSub (destKeys l.dest l.nreg L)).perfAdd 4 1
        let t := { t with bound := mine.foldl (fun m e => tset false m (4 * L + e) true) t.bound }
        ({ q with slots := tset ({} : TruthSlot) q.slots k t } : Group).modLoad id fun l =>
          { l with waiting := others, expired := l.expired ||| oneLane L, slot := some k }) b g (regsOf l.dest l.nreg L)
      if parked then unparkNext s b g (oneLane L) 16 else s

end Sys2Proof.Machine
end

