-- ==== Sys2Proof/Machine/Memory.lean ====
section
/-! DEFINITION. Loads, stores, prefetch, range operations and probes (R365–R375): classes 0x7 and 0x8. -/

namespace Sys2Proof.Machine

/-- An access on path 0x05 to a block that is pre-empted waits (R150). -/
def chipAway (s : State) (i : Iss) (ea : Nat) : Bool :=
  pathOf ea == 5 && match lcoreBlock s i.ctx (bits ea 55 40) with
    | some b => !(s.block b).resident
    | none => false

def anyAway (s : State) (i : Iss) (ts : Tries) : Bool := ts.any fun e => chipAway s i (resEa e.2)

/-- An access whose scratchpad line is absent (R171). -/
def isAbsent (s : State) (t : Tgt) : Bool := match t with | .scr b off | .far b false off => !linePresent s b off | _ => false

/-- Places read and written at issue: the block's own scratchpad, accumulators, and registers on path 0x05 (R176, R436). Scratchpad and
accumulators on path 0x05 are another block's, whichever block they name (R190). -/
def isLocal (i : Iss) (t : Tgt) : Bool := match t with | .scr b _ => b == i.b | .acc _ _ | .reg _ _ => true | _ => false

/-- The scope of a lane's access: of a scratchpad access .gng at most, of an accumulator access .blk at most (R197). -/
def laneScope (op : Nat) (w : Insn) (s : State) (i : Iss) (L : Nat) : Nat :=
  match pathOf (eaOf op w s i L).1 with
  | 2 | 3 => min 2 (xScope w)
  | 4 => min 1 (xScope w)
  | _ => xScope w

/-- An ordering qualifier's release, or an earlier FENCE.rel, is not yet met (R181, R182). DEDUCED (log 8). -/
def orderHeld (op : Nat) (w : Insn) (s : State) (i : Iss) : Bool :=
  relHeld s i || (bit (xOrd w) 1 && (lanesOf i.ex).any fun L => !releaseMet s i.b i.g L (laneScope op w s i L) s.seq)

/-! ## Loads (R370) -/

/-- A fill on its way that a load issued now may join: it has not been served, or its lease still holds, so that its data is what the
home holds now (R159, R177). DEDUCED (log 102). -/
def Req.joinable (r : Req) (now : Nat) : Bool :=
  r.stage == .egress || r.accepted || (r.stage == .reply && holds now r.lease)

/-- Two contexts' loads may join one fill: their own, or where neither is shaped, so that the data of each has one delivery tick (R434). -/
def joinsCtx (s : State) (a b : Nat) : Bool := a == b || (shapeOf s a == 0 && shapeOf s b == 0)

/-- The load a request of this word would join: a fill of the same sector and tag under way (R159). -/
def fillLeader (s : State) (core ctx : Nat) (x : Share) (tag : Nat × Nat) : Option Nat :=
  (s.reqs.find? fun r => (r.kind == .load || r.kind == .pref) && r.core == core && r.place == x.place && r.isConst == x.cst &&
    (r.hctx, r.hyp) == tag && !r.na && !r.noFill && joinsCtx s r.ctx ctx && r.joinable (coreCt s core) && r.join.isNone).map fun r => r.id

/-- One shared request of a load: a hit, a fill that joins one under way, or a request of its own (R31, R159, R211). -/
def loadShare (w : Insn) (id : Nat) (limit : Nat → Nat) (s : State) (i : Iss) (x : Share) : State :=
  let shaped := shapeOf s i.ctx != 0
  let tag := tagOf s i.ctx x.hyp
  let pa := match x.place with | .home pa => pa | _ => 0
  let base := { baseReq s i x with
    kind := .load, load := id, hold := false, na := xCache w == 2, ef := xCache w == 1
    deadline := x.parts.foldl (fun d p => min d (deadlineOf s i pa (limit p.lane))) (2 ^ 64)
    cls := x.parts.foldl (fun c p => min c (classOfLimit (limit p.lane))) 2 }
  match x.place with
  | .home pa =>
    match sectorHit s i.core x.cst (pa / 64) tag with
    | some sec =>
      let s := modGroup (touchSector s i.core x.cst (pa / 64)) i.b i.g fun q => if x.cst then q else q.perfAdd 6 1
      if shaped then addReq s { base with stage := .reply, sect := sec.data, na := true, ready := true }
      else x.parts.foldl (fun s p => deliverLane s i.b i.g id p.lane (sec.data.drop p.off) 0 0) s
    | none =>
      let s := modGroup s i.b i.g fun q => if x.cst then q else q.perfAdd 7 1
      addReq s { base with join := fillLeader s i.core i.ctx x tag }
  | _ => addReq s base

/-- Enter a load instruction: its destination is scoreboarded and loses its bindings at issue, and an acquire makes later
words of its lanes wait (R127, R182, R204, R371). -/
def enterLoad (s : State) (i : Iss) (l : LoadI) (acq : Bool) : State :=
  let s := { s with seq := s.seq + 1 }
  modGroup s i.b i.g fun q =>
    let q := { q with loads := q.loads ++ [l] }
    let q := match l.sdest with
      | some n => q.pendAdd [sKey n]
      | none => (lanesOf l.waiting).foldl (fun q L =>
          ((List.range l.nreg).foldl (fun q k => q.unbind (l.dest + k) L) q).pendAdd (destKeys l.dest l.nreg L)) q
    if acq then q.mapLanes l.waiting fun _ k => { k with acq := k.acq ++ [l.id] } else q

/-- The lanes that passed act: on-chip reads and hits are delivered, absent lines park, the rest are requested. -/
def loadLanes (w : Insn) (t : Ty) (id : Nat) (limit : Nat → Nat) (s : State) (i : Iss) (gs : List (Nat × Nat × Tgt × Xl)) : State :=
  let n := tyBits t / 8
  let away := gs.filter fun e => !isLocal i e.2.2.1 && !isAbsent s e.2.2.1
  let s1 := gs.foldl (fun s e =>
    if isAbsent s e.2.2.1 then
      let y : W64 := if limit e.1 = 0 then BitVec.allOnes 64 else w64 (limit e.1)
      parkLane s i e.1 { cause := pkLine, detail := 0, x := w64 e.2.1, y := y, insn := some w }
    else if isLocal i e.2.2.1 then deliverLane s i.b i.g id e.1 (chipBytes s e.2.2.1 n) 0 0
    else s) s
  pumpFabric ((shares s i true (fun _ => { w := n }) away).foldl (fun s x => loadShare w id limit s i x) s1)

/-- A load into V registers. -/
def loadVector (op : Nat) (w : Insn) (s : State) (i : Iss) : Res :=
  let t := tyD op w
  let esc := maskOf fun L => inMask i.ex L && (inMask i.gg L || guessOf s i (opA w) (spanA op w) L ||
    (xLim w == 15 && guessOf s i (opC w) 1 L))
  if esc ≠ 0 then stop23 i 0x0B 0 esc
  else
    let ts := tries op w (tyBits t / 8) .read s i
    match stage3 s i ts false with
    | some c => stop23 i c 0 i.ex
    | none =>
      if anyAway s i ts then .hold
      else
        let gs := goodLanes ts
        let good := maskOf fun L => gs.any fun e => e.1 == L
        let dest := match opD w with | .v n => n | _ => 0
        -- a load on path 0x05 never expires
        let limit := fun L => if pathOf (eaOf op w s i L).1 = 5 then 0 else limitOf w s i L
        let lims := (lanesOf good).foldl (fun m L => tset 0 m L (limit L)) ([] : Tbl Nat)
        let preds := if xGsrc w = 3 then (lanesOf good).foldl (fun m L => tset 0 m L (predOf w s i L)) [] else ([] : Tbl W32)
        let eas := gs.foldl (fun m e => tset 0 m e.1 (w64 e.2.1)) ([] : Tbl W64)
        let id := s.seq
        let l : LoadI := {
          id := id, pc := w64 i.pc, dest := dest, nreg := nregOf t, ty := t, gsrc := xGsrc w, issueCt := coreCt s i.core
          waiting := good, limit := lims, ea := eas, pred := preds
          word := (s.group i.b i.g).words }
        let s1 := modGroup (noteAll s i .read gs) i.b i.g fun q => q.orGuard i.gg (opD w) (nregOf t)
        let s2 := if good = 0 then s1 else loadLanes w t id limit (enterLoad s1 i l (xOrd w == 1)) i gs
        let parked := maskOf fun L => gs.any fun e => e.1 == L && isAbsent s e.2.2.1
        let s3 := advance s2 i ((i.iss &&& ~~~i.ex) ||| (good &&& ~~~parked))
        accessEnd s3 ts .read

/-- The scalar form of LD and LDC: one access for the group, with the hypothesis of the lowest executing lane; a fault
takes every executing lane (R365). -/
def loadScalar (op : Nat) (w : Insn) (s : State) (i : Iss) : Res :=
  let t := tyD op w
  let esc := escapes s i true []
  if esc ≠ 0 then stop23 i 0x0B 0 esc
  else match lanesOf i.ex with
  | [] => .next (advance s i i.iss)
  | L :: _ =>
    let r := tryLane op w (tyBits t / 8) .read s i L
    let ts : Tries := [(L, r)]
    match stage3 s i ts false with
    | some c => stop23 i c 0 i.ex
    | none =>
      if anyAway s i ts then .hold
      else
        let off := advance s i (i.iss &&& ~~~i.ex)
        match r with
        | .fault c ea => .partial_ off { cause := c, fm := i.ex, cm := i.ex, va := (lanesOf i.ex).map fun k => (k, ea) }
        | .replay ea va => .park off i.ex .read [(va / 4096 * 4096, i.ex)] ((lanesOf i.ex).map fun k => (k, ea))
        | .ok ea tg x =>
          let dest := match opD w with | .s n => n | _ => 0
          let id := s.seq
          let l : LoadI := { id := id, pc := w64 i.pc, ty := t, issueCt := coreCt s i.core, waiting := i.ex, sdest := some dest,
                              word := (s.group i.b i.g).words }
          let s1 := enterLoad (noteAll s i .read [(L, ea, tg, x)]) i l (xOrd w == 1)
          if isAbsent s tg then
            .next ((lanesOf i.ex).foldl (fun s k => parkLane s i k
              { cause := pkLine, detail := 0, x := w64 ea, y := BitVec.allOnes 64, insn := some w }) (advance s1 i (i.iss &&& ~~~i.ex)))
          else .next (advance (loadLanes w t id (fun _ => 0) s1 i [(L, ea, tg, x)]) i i.iss)

def loadWord (op : Nat) (w : Insn) (s : State) : State :=
  runWord op w s noBump fun s i => if scalarForm w then loadScalar op w s i else loadVector op w s i

def execLd (w : Insn) (s : State) : Out := .next (loadWord 0x70 w s)
def execLds (w : Insn) (s : State) : Out := .next (loadWord 0x71 w s)
def execLdc (w : Insn) (s : State) : Out := .next (loadWord 0x72 w s)
def execLda (w : Insn) (s : State) : Out := .next (loadWord 0x73 w s)

/-! ## Stores (R372) -/

/-- The bytes a lane stores (R366). -/
def dataBytes (t : Ty) (w : Insn) (s : State) (i : Iss) (L : Nat) : List Byte :=
  match opB w, tyBits t with
  | .v n, 128 => (List.range 4).flatMap fun k => leBytes 4 (readV s i.b i.g (n + k) L).1.toNat
  | o, k => leBytes (k / 8) (valOf s i t o L).1

/-- Bytes of a masked write: lanes in ascending order, the higher lane's byte stays (R160, R169). -/
def maskedBytes (data : Nat → List Byte) (ps : List Part) : List (Nat × Byte) :=
  ps.foldl (fun m p => (data p.lane).zipIdx.foldl (fun m e => tins (p.off + e.2) e.1 m) m) []

/-- One shared request of a store, merged into the L1 on its way (R160). R32 gives the masked write of a lane's store or atomic no
stamp: it goes as normal with the CT of its issue as its deadline. DESIGN CHOICE (log 101). -/
def storeShare (data : Nat → List Byte) (s : State) (i : Iss) (x : Share) : State :=
  let bs := maskedBytes data x.parts
  let s := match x.place with
    | .home pa => mergeL1 s i.core (pa / 64) (tagOf s i.ctx x.hyp) bs
    | _ => s
  addReq s { baseReq s i x with kind := .store, bytes := bs, deadline := coreCt s i.core }

/-- The lanes that passed store: on-chip at once, to an absent line after parking, elsewhere by a request. -/
def storeLanes (w : Insn) (data : Nat → List Byte) (n : Nat) (s : State) (i : Iss) (gs : List (Nat × Nat × Tgt × Xl)) : State :=
  let away := gs.filter fun e => !isLocal i e.2.2.1 && !isAbsent s e.2.2.1
  let s1 := gs.foldl (fun s e =>
    if isAbsent s e.2.2.1 then parkLane s i e.1 { cause := pkLine, detail := 1, x := w64 e.2.1, insn := some w }
    else if isLocal i e.2.2.1 then putChip s e.2.2.1 (data e.1)
    else s) s
  pumpFabric ((shares s i false (fun _ => { w := n }) away).foldl (fun s x => storeShare data s i x) s1)

/-- Lanes in which a guess escapes into a store: guard, base or data, but not under a guess-bound node (R227, R369).
DEDUCED (log 13). -/
def storeEscapes (s : State) (i : Iss) (ops : List (Opd × Nat)) : Mask :=
  maskOf fun L => inMask i.ex L && !underBound s i L && (inMask i.gg L || ops.any fun o => guessOf s i o.1 o.2 L)

def storeWord (op : Nat) (w : Insn) (s : State) : State :=
  runWord op w s noBump fun s i =>
    let t := tyD op w
    let n := tyBits t / 8
    let esc := storeEscapes s i [(opA w, spanA op w), (opB w, nregOf t)]
    if resolveHeld s i then .hold
    else if esc ≠ 0 then stop23 i 0x0B 0 esc
    else
      let ts := tries op w n .write s i
      match stage3 s i ts true with
      | some c => stop23 i c 0 i.ex
      | none =>
        if anyAway s i ts || orderHeld op w s i then .hold
        else
          let gs := goodLanes ts
          let good := maskOf fun L => gs.any fun e => e.1 == L
          let parked := maskOf fun L => gs.any fun e => e.1 == L && isAbsent s e.2.2.1
          let s1 := storeLanes w (dataBytes t w s i) n (noteAll (clearRel s i) i .write gs) i gs
          accessEnd (advance s1 i ((i.iss &&& ~~~i.ex) ||| (good &&& ~~~parked))) ts .write

def execSt (w : Insn) (s : State) : Out := .next (storeWord 0x80 w s)
def execSts (w : Insn) (s : State) : Out := .next (storeWord 0x81 w s)
def execSta (w : Insn) (s : State) : Out := .next (storeWord 0x82 w s)

/-! ## Prefetch (R373) -/

/-- Sectors a PREF of a lane asks for; none where its address is faulty, on another path or on a TIER 1 page. DEDUCED (log 71). -/
def prefSectors (w : Insn) (s : State) (i : Iss) (L : Nat) : List (Nat × Bool × Xl × Nat) :=
  let ea := (eaOf 0x74 w s i L).1
  match parseAddr s i ea with
  | .ok (.glob va cst) =>
    match xlate s i.core (s.context i.ctx).part va .read false with
    | .ok x =>
      if x.tier then []
      else if w.sub.toNat = 0 then [(x.pa / 64, cst, x, va)]
      else (List.range 4).map fun k => (x.pa / 256 * 4 + k, cst, x, va)
    | .error _ => []
  | _ => []

def execPref (w : Insn) (s : State) : Out :=
  .next (runWord 0x74 w s noBump fun s i =>
    let esc := escapes s i true [(opA w, 2)]
    if esc ≠ 0 then stop23 i 0x0B 0 esc
    else
      let s1 := (lanesOf i.ex).foldl (fun s L =>
        (prefSectors w s i L).foldl (fun s e =>
          let x : Share := { place := .home (64 * e.1), cst := e.2.1, hyp := ((s.group i.b i.g).lane L).hyp, va := e.2.2.2
                             gen := e.2.2.1.entry.gen, parts := [{ lane := L }] }
          let tag := tagOf s i.ctx x.hyp
          let s := noteXl s i.core (s.context i.ctx).part e.2.2.2 .read e.2.2.1
          let na := w.sub.toNat == 2 || xCache w == 2
          let there := w.sub.toNat != 2 && ((sectorHit s i.core x.cst e.1 tag).isSome || (fillLeader s i.core i.ctx x tag).isSome)
          let same := s.reqs.any fun r => r.kind == .pref && r.core == i.core && r.place == x.place && r.isConst == x.cst && (r.hctx, r.hyp) == tag && r.na == na
          if there || same then s
          else addReq s { baseReq s i x with
            kind := .pref, hold := false, na := na, ef := xCache w == 1, cls := 2, deadline := coreCt s i.core + 8192 }) s) s
      .next (advance s1 i i.iss))

/-! ## Range write-back and invalidate (R173, R374) -/

/-- The lines a range covers: their virtual addresses, cut at the end of the path (R374). -/
def rangeLines (va len : Nat) : List Nat :=
  if len = 0 then []
  else
    let lo := va / 256
    let hi := min ((va + len - 1) / 256) (2 ^ 40 - 1)
    (List.range (hi + 1 - lo)).map fun k => 256 * (lo + k)

/-- Lines of a lane's range with their translations; pages that are not mapped, or whose address is out of reach, are skipped (R374). -/
def rangeXl (w : Insn) (s : State) (i : Iss) (L : Nat) (op : Nat) : List (Nat × TlbEntry) :=
  let ea := (eaOf op w s i L).1
  let part := (s.context i.ctx).part
  if bits ea 55 48 ≠ 0 ∨ !([0, 1, 6].contains (pathOf ea)) then []
  else (rangeLines (bits ea 47 0) (val32 s i (opB w) L)).filterMap fun va =>
    match xlEntry s i.core part va with
    | .ok e => if (pathOf ea = 6 ∧ !e.tier) ∨ !(e.tier || reachable s part (e.frame + va % 4096)) then none else some (va, e)
    | .error _ => none

/-- Physical lines of a lane's range: tier and line number. -/
def rangePhys (w : Insn) (s : State) (i : Iss) (L : Nat) (op : Nat) : List (Bool × Nat) :=
  (rangeXl w s i L op).map fun e => (e.2.tier, (e.2.frame + e.1 % 4096) / 256)

/-- The translations of a range succeed: each of its pages has its ACC set (R153). -/
def noteRange (s : State) (i : Iss) (xs : List (Nat × TlbEntry)) : State :=
  let part := (s.context i.ctx).part
  (xs.foldl (fun (acc : State × Option Nat) e =>
    if acc.2 = some (e.1 / 4096) then acc
    else (noteXl acc.1 i.core part e.1 .read { pa := e.2.frame + e.1 % 4096, tier := e.2.tier, hold := e.2.hold, entry := e.2 }, some (e.1 / 4096)))
    (s, none)).1

/-- The oldest generation among the translations of a word's ranges (R156). -/
def rangeGen (s : State) (i : Iss) (xs : List (Nat × TlbEntry)) : Nat :=
  let now := (s.part (s.context i.ctx).part).gen
  xs.foldl (fun g e => olderGen now g e.2.gen) now

/-- CINV at the issuing core: the range's sectors fade (R173); those of a lane under a hypothesis only where they are committed or its
own (R220). -/
def fadeLines (s : State) (core : Nat) (tag : Nat × Nat) (lines : List (Bool × Nat)) : State :=
  let hit := fun (e : Nat × Sector) => lines.contains (false, e.1 / 4) &&
    (tag.2 == 0 || (e.2.hctx, e.2.hyp) == (0, 0) || (e.2.hctx, e.2.hyp) == tag)
  modCore s core fun c => { c with
    l1 := c.l1.map fun e => if hit e then (e.1, fadeSector e.2) else e
    const := c.const.map fun e => if hit e then (e.1, fadeSector e.2) else e }

/-- A fill under way that a CINV of its core covers arrives as a faded copy: it fills nothing. DEDUCED (log 22). -/
def dropFills (s : State) (core : Nat) (lines : List (Bool × Nat)) : State :=
  { s with reqs := s.reqs.map fun r => match r.place with
      | .home pa => if (r.kind = .load ∨ r.kind = .pref) ∧ r.core = core ∧ lines.contains (false, pa / 256) then { r with noFill := true } else r
      | _ => r }

/-- One request covers every lane's range and returns one completion time (R374). Its lines stand in `parts`: the line
number, with w = 1 for host memory, and the lane's hypothesis. DEDUCED (log 71). -/
def rangeWord (op : Nat) (w : Insn) (s : State) (inval : Bool) : State :=
  runWord op w s noBump fun s i =>
    let esc := escapes s i true [(opA w, 2), (opB w, 1)]
    if esc ≠ 0 then stop23 i 0x0B 0 esc
    else if orderHeld op w s i then .hold
    else
      let xs := (lanesOf i.ex).flatMap fun L => rangeXl w s i L op
      let s1 := noteRange (clearRel s i) i xs
      let s2 := if !inval then s1 else (lanesOf i.ex).foldl (fun t L =>
        let ls := rangePhys w s i L op
        dropFills (fadeLines t i.core (tagOf s i.ctx ((s.group i.b i.g).lane L).hyp) ls) i.core ls) s1
      let lines := (lanesOf i.ex).flatMap fun L => (rangePhys w s i L op).map fun p =>
        { lane := L, off := p.2, w := b2n p.1, opB := ((s.group i.b i.g).lane L).hyp : Part }
      let s3 := if i.ex = 0 then s2 else addReq s2 { baseReq s2 i { place := .home 0, gen := rangeGen s i xs } with
        hold := false
        kind := if inval then .cinv else .cwb
        -- lanes whose range is empty still receive the completion time
        parts := lines ++ ((lanesOf i.ex).map fun L => { lane := L, w := 2 : Part }) }
      .next (advance s3 i i.iss)

def execCwb (w : Insn) (s : State) : Out := .next (rangeWord 0x83 w s false)
def execCinv (w : Insn) (s : State) : Out := .next (rangeWord 0x84 w s true)

/-! ## PTEST (R375) -/

/-- What an access to the lane's address would find. -/
def ptestLane (w : Insn) (s : State) (i : Iss) (L : Nat) : Bool :=
  let ea := (eaOf 0x75 w s i L).1
  let part := (s.context i.ctx).part
  match parseAddr s i ea with
  | .error _ => false
  | .ok t =>
    match w.sub.toNat, t with
    | 2, .scr b off => pathOf ea != 5 && linePresent s b off
    | 2, .glob va cst => match xlEntry s i.core part va with
      | .ok e => !e.tier && (sectorHit s i.core cst ((e.frame + va % 4096) / 64) (tagOf s i.ctx ((s.group i.b i.g).lane L).hyp)).isSome
      | .error _ => false
    | 2, _ => false
    | k, .glob va cst => !(k == 1 && cst) && (match xlate s i.core part va (if k = 1 then .write else .read) false with
      | .ok _ => true | .error _ => false)
    | k, .host va => (match xlate s i.core part va (if k = 1 then .write else .read) true with | .ok _ => true | .error _ => false)
    | _, .fab _ _ => false
    | _, t =>
      if pathOf ea = 5 then (s.group i.b i.g).trapMode
      else match t with | .acc c off => tileMine s c off i.b | _ => true

/-- DEDUCED (log 71). -/
def execPtest (w : Insn) (s : State) : Out :=
  .next (runWord 0x75 w s noBump fun s i =>
    let esc := escapes s i true [(opA w, 2)]
    if esc ≠ 0 then stop23 i 0x0B 0 esc
    else .next (advance (putD s i 0 .b32 (opD w) i.ex (fun L => b2n (ptestLane w s i L)) fun L => inMask i.gg L) i i.iss))

end Sys2Proof.Machine
end

