-- ==== Sys2Proof/Machine/Atomics.lean ====
section
/-! DEFINITION. ATOM and RED (R379–R385), and the accesses of lanes parked at an absent scratchpad line (R171). -/

namespace Sys2Proof.Machine

/-- .commit (R383). -/
def commitForm (w : Insn) : Bool := xHmode w == 1

/-- HYP_ATOMIC: a non-root lane without .commit on a path other than 0x06 and 0x07 (R220, R383). -/
def hypAtomic (w : Insn) (s : State) (i : Iss) (ts : Tries) : Bool :=
  !commitForm w && ts.any fun e => ((s.group i.b i.g).lane e.1).hyp != 0 && pathOf (resEa e.2) != 6 && pathOf (resEa e.2) != 7

/-- One lane's atomic on on-chip storage, as one step: the old value is delivered to D of an ATOM, and the lane keeps its completion
time (R176, R180, R381). -/
def atomLocal (op : Nat) (w : Insn) (s : State) (i : Iss) (L : Nat) (t : Tgt) : State :=
  let ty := tyD op w
  let n := tyBits ty / 8
  let old := ofLeBytes (chipBytes s t n)
  let v := (valOf s i ty (opB w) L).1
  let c := (valOf s i ty (opC w) L).1
  let s := putChip s t (leBytes n (atomNew w.sub.toNat w.mod.toNat ty old v c))
  let s := bumpPct s i.b i.g L (coreCt s i.core + 4)
  if op = 0xA0 then modGroup s i.b i.g fun q => q.resLane 0 0 (wide ty) (opD w) L old (inMask i.gg L) else s

/-- The sector of an atomic fades in the issuing core's L1, with no byte merged (R381). -/
def fadeAtomic (s : State) (i : Iss) (gs : List (Nat × Nat × Tgt × Xl)) : State :=
  gs.foldl (fun s e => match e.2.2.1 with
    | .glob _ _ => if e.2.2.2.tier then s
        else mergeL1 s i.core (e.2.2.2.pa / 64) (tagOf s i.ctx ((s.group i.b i.g).lane e.1).hyp) []
    | _ => s) s

/-- Split a share whose lanes the fabric does not combine: by address, and for compare-and-swap by lane (R59). -/
def splitPeer (cas : Bool) (x : Share) : List Share :=
  match x.place with
  | .peer _ _ =>
    if cas then x.parts.map fun p => { x with parts := [p] }
    else (dedup (x.parts.map fun p => p.off)).map fun o => { x with parts := x.parts.filter fun p => p.off == o }
  | _ => [x]

/-- Put the requests of the lanes that passed on their way; D of an ATOM is scoreboarded, an acquire form makes later words
wait (R182, R381). -/
def atomRequest (op : Nat) (w : Insn) (s : State) (i : Iss) (x : Share) : State :=
  let ty := tyD op w
  let dest := if op = 0xA0 then (match opD w with | .v n => some n | _ => none) else none
  -- a non-root lane is here only under .commit: performed on committed memory
  let r := { baseReq s i { x with hyp := 0 } with
    kind := .atomic, sub := w.sub.toNat, amod := w.mod.toNat, ty := ty, dest := dest, deadline := coreCt s i.core }
  let s := addReq s r
  match dest with
  | none => s
  | some n => modGroup s i.b i.g fun q =>
      let q := x.parts.foldl (fun q p => q.pendAdd (destKeys n (nregOf ty) p.lane)) q
      if bit (xOrd w) 0 then x.parts.foldl (fun q p => q.mapLanes (oneLane p.lane) fun _ l => { l with acq := l.acq ++ [r.id] }) q else q

def atomLanes (op : Nat) (w : Insn) (s : State) (i : Iss) (gs : List (Nat × Nat × Tgt × Xl)) : State :=
  let ty := tyD op w
  let n := tyBits ty / 8
  let away := gs.filter fun e => !isLocal i e.2.2.1 && !isAbsent s e.2.2.1
  let part := fun L => { w := n, opB := (valOf s i ty (opB w) L).1, opC := (valOf s i ty (opC w) L).1 : Part }
  let s1 := gs.foldl (fun s e =>
    if isAbsent s e.2.2.1 then parkLane s i e.1 { cause := pkLine, detail := 2, x := w64 e.2.1, insn := some w, op := op }
    else if isLocal i e.2.2.1 then atomLocal op w s i e.1 e.2.2.1
    else s) s
  pumpFabric (((shares s i false part away false).flatMap (splitPeer (w.sub.toNat == 6))).foldl (fun s x => atomRequest op w s i x)
    (fadeAtomic s1 i away))

def atomWord (op : Nat) (w : Insn) (s : State) : State :=
  runWord op w s noBump fun s i =>
    let ty := tyD op w
    let acc := if op = 0xA0 then Acc.atomic else .red
    let ops := [(opA w, 2), (opB w, spanB op w)] ++ if w.sub.toNat = 6 then [(opC w, spanB op w)] else []
    let esc := escapes s i true ops
    if resolveHeld s i then .hold
    else if esc ≠ 0 then stop23 i 0x0B 0 esc
    else
      let ts := tries op w (tyBits ty / 8) acc s i
      match stage3 s i ts true acc with
      | some c => stop23 i c 0 i.ex
      | none =>
        if hypAtomic w s i ts then stop23 i 0x11 0 i.ex
        else if anyAway s i ts || orderHeld op w s i then .hold
        else
          let gs := goodLanes ts
          let good := maskOf fun L => gs.any fun e => e.1 == L
          let parked := maskOf fun L => gs.any fun e => e.1 == L && isAbsent s e.2.2.1
          let s0 := modGroup (clearRel s i) i.b i.g fun q =>
            if op = 0xA0 then q.orGuard i.gg (opD w) (nregOf ty) else q
          let s1 := atomLanes op w (noteAll s0 i acc gs) i gs
          accessEnd (advance s1 i ((i.iss &&& ~~~i.ex) ||| (good &&& ~~~parked))) ts acc

def execAtom (w : Insn) (s : State) : Out := .next (atomWord 0xA0 w s)
def execRed (w : Insn) (s : State) : Out := .next (atomWord 0xA1 w s)

/-! ## Lines that become present (R170, R171) -/

/-- Perform the access of a parked lane: 0 load, 1 store, 2 atomic (R445). -/
def parkedAccess (s : State) (e : Nat × Nat × Nat) : State :=
  let b := e.1
  let g := e.2.1
  let L := e.2.2
  let l := (s.group b g).lane L
  let w := l.park.insn.getD {}
  let k := s.block b
  let i : Iss := { b := b, g := g, core := k.core, ctx := k.ctx, pc := l.lpc.toNat, iss := oneLane L, ex := oneLane L, len := 16 }
  match parseAddr s i l.park.x.toNat with
  | .error _ => unparkNext s b g (oneLane L) 16
  | .ok t =>
    let gs : List (Nat × Nat × Tgt × Xl) := [(L, l.park.x.toNat, t, {})]
    let s1 := unparkNext s b g (oneLane L) 16
    match l.park.detail with
    | 0 => match (s.group b g).lineLoad L with
      | some x => loadLanes w x.ty x.id (fun _ => tget 0 x.limit L) s1 i gs
      | none => s1
    | 1 =>
      let ty := (tyInt w.ty.toNat).getD .b32
      storeLanes w (dataBytes ty w s i) (tyBits ty / 8) s1 i gs
    | _ => atomLanes l.park.op w s1 i gs

/-- Blocks of a block's gang or context that may wait for a line of it. -/
def ctxBlocks (s : State) (h : Nat) : List Nat := (tkeys s.blocks).filter fun j => let q := s.block j; q.ctx == h && q.resident && !q.ended

/-- The line a parked access waits for. -/
def waitsFor (s : State) (e : Nat × Nat × Nat) (b line : Nat) : Bool :=
  let k := s.block e.1
  match parseAddr s { b := e.1, g := e.2.1, core := k.core, ctx := k.ctx } ((s.group e.1 e.2.1).lane e.2.2).park.x.toNat with
  | .ok (.scr t off) | .ok (.far t false off) => t == b && off / 256 == line
  | _ => false

/-- The place of an absent line that a guessed lane's truth waits for: the load parked at it, so no request carries it. -/
def truthPlace (s : State) (j g : Nat) (l : LoadI) (L : Nat) : Option (Nat × Nat) :=
  let k := s.block j
  if s.reqs.any fun r => r.kind == .load && r.load == l.id && r.block == j && r.grp == g && r.parts.any fun p => p.lane == L then none
  else match parseAddr s { b := j, g := g, core := k.core, ctx := k.ctx } (tget 0 l.ea L).toNat with
  | .ok (.scr t off) | .ok (.far t false off) => some (t, off)
  | _ => none

/-- The lane made its guess in this very tick: its truth is a later tick's (R200). -/
def guessTick (s : State) (j : Nat) (l : LoadI) (L : Nat) : Bool := l.issueCt + tget 0 l.limit L == coreCt s (s.block j).core

/-- Guessed lanes of a set of blocks whose truth waits for a line: the load's number, block, group and lane. -/
def truthsOf (s : State) (js : List Nat) (at_ : Nat × Nat → Bool) : List (Nat × Nat × Nat × Nat) :=
  js.flatMap fun j => (tkeys (s.block j).groups).flatMap fun g => (s.group j g).loads.flatMap fun l =>
    ((lanesOf l.expired).filter fun L => !guessTick s j l L && (truthPlace s j g l L).any at_).map fun L => (l.id, j, g, L)

/-- A guessed lane's truth is read from its line (R171). -/
def readTruth (s : State) (id j g L : Nat) : State :=
  match (s.group j g).loadOf id with
  | none => s
  | some l => match truthPlace s j g l L with
    | some (t, off) => deliverLane s j g id L (chipBytes s (.scr t off) (tyBits l.ty / 8)) 0 0
    | none => s

/-- Serve everything that waits for a line of a block that has become present, in the order of issue: parked lanes perform their
accesses, and guessed lanes read their truths (R136, R171, R436). -/
def serveLine (s : State) (b line : Nat) : State :=
  let js := ctxBlocks s (s.block b).ctx
  let waiting := (parkedOn s js fun p => p.cause == pkLine).filter fun e => waitsFor s e b line
  let parked := waiting.map fun e => (((s.group e.1 e.2.1).lane e.2.2).parkOrder, false, e)
  let truths := (truthsOf s js fun p => p.1 == b && p.2 / 256 == line).map fun e => (e.1, true, e.2)
  (sortBy (fun x => x.1) (parked ++ truths)).foldl (fun s x =>
    if x.2.1 then readTruth s x.1 x.2.2.1 x.2.2.2.1 x.2.2.2.2 else parkedAccess s x.2.2) s

/-- Truths of lines that became present in the tick of their lanes' guesses are read in the next (R200). -/
def lateTruths (s : State) : State :=
  (truthsOf s (tkeys s.blocks) fun p => linePresent s p.1 p.2).foldl (fun s e => readTruth s e.1 e.2.1 e.2.2.1 e.2.2.2) s

end Sys2Proof.Machine
end

