-- ==== Sys2Proof/Machine/Sync.lean ====
section
/-! DEFINITION. Fences, barrier objects and time (R386–R396): class 0xB. -/

namespace Sys2Proof.Machine

/-- FENCE (R181, R386): .acq and .full hold the issue set, .rel leaves a condition for later words. DEDUCED (log 14). -/
def execFence (w : Insn) (s : State) : Out :=
  .next (runWord 0xB0 w s noBump fun s i =>
    let scope := w.mod.toNat
    match w.sub.toNat with
    | 1 => if (lanesOf i.ex).all fun L => acquireMet s i.b i.g L then .next (advance s i i.iss) else .hold
    | 2 =>
      let n := s.seq
      .next (advance (modGroup s i.b i.g fun q => q.mapLanes i.ex fun _ l => { l with rel := l.rel ++ [(scope, n)] }) i i.iss)
    | _ => if (lanesOf i.ex).all fun L => releaseMet s i.b i.g L scope s.seq then .next (advance s i i.iss) else .hold)

/-! ## Barrier objects (R387–R391) -/

/-- The object reference of a word: an S register or an immediate, the same in every lane (R387). -/
def refOf (w : Insn) (s : State) (i : Iss) : Nat := val64 s i (opA w) ((lanesOf i.ex).headD 0)

/-- The object that a reference names for an arrival or a wait; none where R388 raises ADDRESS. -/
def objFor (s : State) (i : Iss) (r : Nat) (arrival : Bool) : Option (Nat × Nat) :=
  match objOf s i.b r with
  | none => none
  | some (h, k) =>
    let o := s.obj h k
    if (h != i.b && o.scope != 2) || o.kind == 0 || (arrival && o.kind == 1 && !o.members.getLsbD (memberNo s i.b i.g))
    then none else some (h, k)

/-- ADDRESS in every executing lane; the lanes whose guard is false go on (R258, R388, R389, R393), their destinations with the guard's
guess bit (R206). -/
def badRef (s : State) (i : Iss) (dests : List (Opd × Nat)) : Res :=
  .partial_ (advance (guessDests s i dests) i (i.iss &&& ~~~i.ex)) { cause := 0x06, fm := i.ex, cm := i.ex }

/-- A barrier word: with no executing lane every lane falls through; a lane whose guessed guard is false marks the destinations (R206). -/
def barWord (op : Nat) (w : Insn) (s : State) (ops dests : List (Opd × Nat)) (arrival : Bool)
    (body : State → Iss → Nat → Nat → Res) : State :=
  runWord op w s noBump fun s i =>
    let esc := escapes s i true ops
    if esc ≠ 0 then stop23 i 0x0B 0 esc
    else if i.ex = 0 then .next (advance (guessDests s i dests) i i.iss)
    else match objFor s i (refOf w s i) arrival with
    | none => badRef s i dests
    | some (h, k) => body s i h k

/-- The lane's arrival in the current phase of a lane object has been counted (R390). -/
def hasArrived (s : State) (b g h k L : Nat) : Bool :=
  let o := s.obj h k
  o.kind == 1 && inMask (tget 0 o.arr (memberNo s b g)) L

/-- A lane that may arrive now: its releases are met, its arrival in the current phase is not counted yet, and no earlier arrival of its
own at the object waits (R390). -/
def mayArrive (s : State) (i : Iss) (h k L : Nat) : Bool :=
  relMet s i.b i.g L && releaseMet s i.b i.g L (s.obj h k).scope s.seq && !hasArrived s i.b i.g h k L &&
  !(s.group i.b i.g).arrs.any fun a => a.lane == L && a.blk == h && a.obj == k

/-- Some executing lane of the set must wait before it arrives (R390). -/
def arriveHeld (s : State) (i : Iss) (h k : Nat) : Bool := (lanesOf i.ex).any fun L => !mayArrive s i h k L

/-- Count one lane's arrival and test completion (R390). -/
def arrive (s : State) (b g h k L : Nat) : State :=
  let n := memberNo s b g
  objTest (modObj s h k fun o =>
    if o.kind = 1 then { o with arr := tmod 0 o.arr n fun m => m ||| oneLane L } else { o with count := o.count + 1 }) h k

/-- The lanes arrive in ascending order, each with what its word does first, until one must wait: the state and the lanes that
arrived (R390). The lanes from the waiting one on stay at the word. DEDUCED (log 89). -/
def arriveInTurn (i : Iss) (h k : Nat) (act : State → Nat → State) : List Nat → State → State × Mask
  | [], s => (s, 0)
  | L :: ls, s =>
    if mayArrive s i h k L then
      let r := arriveInTurn i h k act ls (arrive (act (clearRel s { i with ex := oneLane L }) L) i.b i.g h k L)
      (r.1, r.2 ||| oneLane L)
    else (s, 0)

/-- BARI: arrive and wait for the phase. -/
def execBari (w : Insn) (s : State) : Out :=
  .next (barWord 0xB1 w s [] [] true fun s i h k =>
    let ref := refOf w s i
    let r := arriveInTurn i h k (fun s L =>
      parkLane s i L { cause := pkBari, detail := ref, x := (s.obj h k).phase.setWidth 64, insn := some w })
      (lanesOf i.ex) (advance s i (i.iss &&& ~~~i.ex))
    if r.2 = 0 then .hold else .next r.1)

/-- The arrivals of a BARV's lanes that must wait: the lanes issue on, and D is scoreboarded until each has been counted (R390). -/
def arriveLater (s : State) (i : Iss) (h k dest : Nat) (m : Mask) : State :=
  let sc := ((s.obj h k).scope, s.seq)
  modGroup s i.b i.g fun q => (lanesOf m).foldl (fun q L =>
    ({ q with arrs := q.arrs ++ [{ lane := L, word := q.words, blk := h, obj := k, dest := dest, rel := (q.lane L).rel ++ [sc] }] } : Group).pendAdd
      (destKeys dest 1 L)) q

/-- A waiting arrival may be counted. -/
def ArrWait.met (a : ArrWait) (s : State) (b g : Nat) : Bool :=
  (a.rel.all fun f => releaseMet s b g a.lane f.1 f.2) && !hasArrived s b g a.blk a.obj a.lane

/-- Count a waiting arrival: D receives the phase, and its scoreboard is clear. -/
def countArrival (s : State) (b g : Nat) (a : ArrWait) : State :=
  let p := (s.obj a.blk a.obj).phase
  arrive (landed s (modGroup s b g fun q =>
    (({ q with arrs := q.arrs.erase a } : Group).putLoad a.word a.dest a.lane [p] false).pendSub (destKeys a.dest 1 a.lane))
    b g (regsOf a.dest 1 a.lane)) b g a.blk a.obj a.lane

/-- Count the waiting arrivals of a group that may be: those of one word in ascending lane id (R390). DEDUCED (log 89). -/
def arriveDue (s : State) (b g : Nat) : State :=
  ((s.group b g).arrs.foldl (fun (acc : State × List Nat) a =>
    if acc.2.contains a.word then acc
    else if a.met acc.1 b g then (countArrival acc.1 b g a, acc.2) else (acc.1, a.word :: acc.2)) (s, [])).1

/-- BARV: arrive and go on with the phase in D. -/
def execBarv (w : Insn) (s : State) : Out :=
  .next (barWord 0xB2 w s [] [(opD w, 1)] true fun s i h k =>
    let r := arriveInTurn i h k (fun s L =>
      putD s { i with gg := 0 } 0 .b32 (opD w) (oneLane L) (fun _ => (s.obj h k).phase.toNat) fun _ => inMask i.gg L) (lanesOf i.ex) s
    let dest := match opD w with | .v n => n | _ => 0
    .next (advance (guessDests (arriveLater r.1 i h k dest (i.ex &&& ~~~r.2)) i [(opD w, 1)]) i i.iss))

/-- What follows a wait that is complete at issue: FENCE.acq, and the trap owed for a marked phase (R193, R249). -/
def waited (s : State) (i : Iss) (h k : Nat) (p : W32) (L : Nat) : State :=
  owe (acquireFrom s i.b i.g L) (s.obj h k) p i.b i.g (oneLane L)

/-- BARW: wait for a phase. -/
def execBarw (w : Insn) (s : State) : Out :=
  .next (barWord 0xB3 w s [(opB w, 1)] [] false fun s i h k =>
    let r := refOf w s i
    .next ((lanesOf i.ex).foldl (fun t L =>
      let p := w32 (val32 s i (opB w) L)
      if phaseDone (s.obj h k).phase p then waited (advance t i (oneLane L)) i h k p L
      else parkLane t i L { cause := pkBarw, detail := r, x := p.setWidth 64, insn := some w })
      (advance s i (i.iss &&& ~~~i.ex))))

/-- BART: whether a phase is complete. DEDUCED (log 18). -/
def execBart (w : Insn) (s : State) : Out :=
  .next (barWord 0xB4 w s [(opB w, 1)] [(opD w, 1)] false fun s i h k =>
    let p := fun L => w32 (val32 s i (opB w) L)
    let done := fun L => phaseDone (s.obj h k).phase (p L)
    let s1 := advance (putD s i 4 .b32 (opD w) i.ex (fun L => b2n (done L)) fun L => inMask i.gg L) i i.iss
    .next ((lanesOf i.ex).foldl (fun t L => if done L then waited t i h k (p L) L else t) s1))

/-- Bits of a member mask that name a group of the gang (R389). -/
def memberBits (r : Record) (x : Nat) : Nat :=
  (List.range 64).foldl (fun acc k => if bit x k && decide (k / 16 < r.nblk) && decide (k % 16 < r.ngrp) then acc + 2 ^ k else acc) 0

/-- Something stands against initialising an object: a waiter, an arrival counted or waiting to be, a handover that names it (R389). -/
def objBusy (s : State) (h k : Nat) : Bool :=
  let o := s.obj h k
  !o.arr.isEmpty || o.count != 0 ||
  ((gangGroups s h).any fun e => let q := s.group e.2.1 e.2.2
    q.arrs.any (fun a => a.blk == h && a.obj == k) || lanes32.any fun L => let l := q.lane L
      inMask q.live L && (l.park.cause == pkBari || l.park.cause == pkBarw) && objOf s e.2.1 l.park.detail == some (h, k)) ||
  ((tkeys (s.core (s.block h).core).tiles).any fun t => let x := tget {} (s.core (s.block h).core).tiles t
    x.token == .mat h && x.vec.any fun v => v.1 == k)

/-- The object that BOINIT sets, or none where an operand raises ADDRESS (R388, R389). -/
def boinitObj (w : Insn) (s : State) (i : Iss) (h : Nat) : Option BarrierObj :=
  let x := val64 s i (opB w) ((lanesOf i.ex).headD 0)
  let scope := w.mod.toNat
  match w.sub.toNat with
  | 0 => if x ≠ 0 then none else some { kind := 0, scope := scope }
  | 1 =>
    let m := memberBits (recordOf s i.b) x
    let own := (s.block h).blk
    let out := (List.range 64).any fun k => bit m k && k / 16 != own
    if m = 0 || (scope != 2 && out) then none else some { kind := 1, scope := scope, members := w64 m }
  | _ => if x = 0 ∨ x > 65535 then none else some { kind := 2, scope := scope, expect := x }

/-- BOINIT (R389). -/
def execBoinit (w : Insn) (s : State) : Out :=
  .next (runWord 0xB5 w s noBump fun s i =>
    let esc := escapes s i true []
    if esc ≠ 0 then stop23 i 0x0B 0 esc
    else if i.ex = 0 then .next (advance s i i.iss)
    else match objOf s i.b (refOf w s i) with
    | none => badRef s i []
    | some (h, k) =>
      if h ≠ i.b ∧ w.mod.toNat ≠ 2 then badRef s i []
      else match boinitObj w s i h with
      | none => badRef s i []
      | some o => if objBusy s h k then .hold else .next (advance (objTest (modObj s h k fun _ => o) h k) i i.iss))

/-! ## Time (R395, R396) -/

/-- SLEEP: lanes whose target lies ahead park. -/
def sleepWord (w : Insn) (s : State) (rel : Bool) : State :=
  runWord 0xB6 w s noBump fun s i =>
    let esc := escapes s i true [(opA w, spanA 0xB6 w)]
    if esc ≠ 0 then stop23 i 0x0B 0 esc
    else
      let now := coreCt s i.core
      let t := fun L => if rel then now + val32 s i (opA w) L else val64 s i (opA w) L
      .next ((lanesOf i.ex).foldl (fun u L =>
        if t L ≤ now then advance u i (oneLane L) else parkLane u i L { cause := pkSleep, x := w64 (t L), insn := some w })
        (advance s i (i.iss &&& ~~~i.ex)))

def execSleepRel (w : Insn) (s : State) : Out := .next (sleepWord w s true)
def execSleepAbs (w : Insn) (s : State) : Out := .next (sleepWord w s false)

/-- CLK: a time read at issue. -/
def clkWord (w : Insn) (s : State) (cyc : Bool) : State :=
  let t := tyD 0xB7 w
  runWord 0xB7 w s noBump fun s i =>
    aluBody 4 t (opD w) [] (fun s i _ => (if cyc then cyclesOf s i.b else coreCt s i.core) % 2 ^ tyBits t) s i

def execClkCt (w : Insn) (s : State) : Out := .next (clkWord w s false)
def execClkCyc (w : Insn) (s : State) : Out := .next (clkWord w s true)

end Sys2Proof.Machine
end

