-- ==== Sys2Proof/Machine/Mma.lean ====
section
/-! DEFINITION. The matrix engine: parameter blocks and their checks (R243–R246, R415), execution (R239, R240, R247–R249,
R438), tile tokens (R250, R416, R417). -/

namespace Sys2Proof.Machine

/-- An S register named by a parameter block or a coordinate field. Beyond the allocation the manual gives no value.
DESIGN CHOICE (log 66). -/
def scalarAt (s : State) (b g n : Nat) : Nat :=
  if n < (recordOf s b).scalars then (readS s b g n).toNat else pick s (2 ^ 50 + n) % 2 ^ 64

/-! ## The parameter block (R243) -/

/-- Doubleword d of 64 bytes of scratchpad. -/
def scrWord (s : State) (b off d : Nat) : Nat := ofLeBytes (chipBytes s (.scr b (off + 8 * d)) 8)

/-- Every bit the block does not list is zero. -/
def mmaReserved (d : Nat → Nat) : Bool :=
  bits (d 0) 63 52 == 0 && bits (d 0) 31 20 == 0 && bits (d 1) 63 52 == 0 && bits (d 1) 31 20 == 0 &&
  bits (d 2) 63 41 == 0 && bits (d 2) 31 25 == 0 &&
  bits (d 3) 63 39 == 0 && bits (d 3) 31 31 == 0 && bits (d 3) 23 23 == 0 && bits (d 3) 15 11 == 0 && bits (d 3) 7 7 == 0 &&
  bits (d 3) 3 3 == 0 && d 4 == 0 && d 5 == 0 && d 6 == 0 && d 7 == 0

/-- The command a block describes, with M, N and K read from S registers (R244). DESIGN CHOICE (log 66). -/
def mmaParse (s : State) (b g : Nat) (d : Nat → Nat) : MmaCmd :=
  { block := b, grp := g
    m := scalarAt s b g (bits (d 3) 22 16), n := scalarAt s b g (bits (d 3) 30 24), k := scalarAt s b g (bits (d 3) 38 32)
    fa := w64 (slotD s b (bits (d 3) 6 4)), fb := w64 (slotD s b (bits (d 3) 10 8))
    zero := bit (d 3) 2, tile := bits (d 3) 1 0
    aBase := bits (d 0) 19 0, aStride := bits (d 0) 51 32, scBase := bits (d 1) 19 0, scStride := bits (d 1) 51 32
    bReg := bits (d 2) 24 16, bsReg := bits (d 2) 40 32
    gq := (List.range 4).map fun q => bits (d 2) (4 * q + 3) (4 * q) }

/-- The S registers a block names. -/
def mmaScalars (d : Nat → Nat) : List Nat := [bits (d 3) 22 16, bits (d 3) 30 24, bits (d 3) 38 32]

def MmaCmd.fmtA (c : MmaCmd) : Fmt := slotFmt c.fa.toNat
def MmaCmd.fmtB (c : MmaCmd) : Fmt := slotFmt c.fb.toNat
/-- ES, BL and NB (R244). -/
def MmaCmd.es (c : MmaCmd) : Nat := fmtBits c.fmtA / 8
def MmaCmd.bl (c : MmaCmd) : Nat := slotBl c.fa.toNat
def MmaCmd.nb (c : MmaCmd) : Nat := (c.k + c.bl - 1) / c.bl
/-- B registers of a lane. -/
def MmaCmd.bCount (c : MmaCmd) : Nat := (c.k * c.es + 3) / 4
def MmaCmd.scaledA (c : MmaCmd) : Bool := slotScaled c.fa.toNat
def MmaCmd.scaledB (c : MmaCmd) : Bool := slotScaled c.fb.toNat
/-- The used quarters and their groups. -/
def MmaCmd.used (c : MmaCmd) : List (Nat × Nat) :=
  ((List.range 4).filter fun q => decide (32 * q < c.n)).map fun q => (q, c.gq.getD q 0)

def is8 (f : Fmt) : Bool := f == .kt8 || f == .e4m3 || f == .e5m2
def is16 (f : Fmt) : Bool := f == .f16 || f == .bf16

/-- Check 5: sizes. -/
def mmaSizes (c : MmaCmd) : Bool :=
  let kmax := if is8 c.fmtA && is8 c.fmtB then 2048 else 1024
  decide (1 ≤ c.m ∧ c.m ≤ 128 ∧ 1 ≤ c.n ∧ c.n ≤ 128 ∧ 1 ≤ c.k ∧ c.k ≤ kmax)

/-- Check 6: the pair of formats (R236). -/
def mmaPair (c : MmaCmd) : Bool :=
  ((is8 c.fmtA && is8 c.fmtB) || (is16 c.fmtA && c.fmtA == c.fmtB)) && slotBl c.fa.toNat == slotBl c.fb.toNat

/-- Check 7: scale fields of unscaled slots. -/
def mmaScales (c : MmaCmd) : Bool := (c.scaledA || (c.scBase == 0 && c.scStride == 0)) && (c.scaledB || c.bsReg == 0)

/-- Check 8: alignment and reach of A and its scales. -/
def mmaReach (c : MmaCmd) (size : Nat) : Bool :=
  c.aBase % 16 == 0 && c.aStride % 16 == 0 && c.scBase % 4 == 0 && c.scStride % 4 == 0 &&
  decide (c.aBase + (c.m - 1) * c.aStride + c.k * c.es ≤ size) &&
  (!c.scaledA || decide (c.scBase + (c.m - 1) * c.scStride + 4 * c.nb ≤ size))

/-- Check 9: the groups of the used quarters. -/
def mmaGroups (s : State) (b : Nat) (c : MmaCmd) : Bool :=
  let gs := c.used.map Prod.snd
  gs.all (fun g => decide (g < (recordOf s b).ngrp) && !(s.group b g).ended) && (dedup gs).length == gs.length

/-- Check 10: the B registers. -/
def mmaRegs (s : State) (b : Nat) (c : MmaCmd) : Bool :=
  decide (c.bReg + c.bCount ≤ (recordOf s b).regs) && (!c.scaledB || decide (c.bsReg + c.nb ≤ (recordOf s b).regs))

/-- Check 12: a B or scale register is guessed in a lane that holds a column below N. -/
def mmaGuess (s : State) (b : Nat) (c : MmaCmd) : Bool :=
  c.used.any fun e => (List.range 32).any fun L => decide (32 * e.1 + L < c.n) &&
    let q := s.group b e.2
    ((List.range c.bCount).any fun r => q.vGuess (c.bReg + r) L) ||
    (c.scaledB && (List.range c.nb).any fun r => q.vGuess (c.bsReg + r) L)

/-- Checks 4 to 12 in their order: cause and MMA_PARAM code (R245). DEDUCED (log 65). -/
def mmaCheck (s : State) (i : Iss) (d : Nat → Nat) (c : MmaCmd) : Option (Nat × Nat) :=
  if !mmaReserved d then some (0x0F, 2)
  else if !mmaSizes c then some (0x0F, 3)
  else if !mmaPair c then some (0x0F, 4)
  else if !mmaScales c then some (0x0F, 5)
  else if !mmaReach c (scrBytes s i.b) then some (0x0F, 6)
  else if !mmaGroups s i.b c then some (0x0F, 7)
  else if !mmaRegs s i.b c then some (0x0F, 8)
  else
    let t := tget {} (s.core i.core).tiles c.tile
    if t.token != .mat i.b then some (0x0D, 0)
    else if mmaGuess s i.b c then some (0x0B, 0)
    else none

/-- A validated command of the group waits for the matrix queue. -/
def mmaWaiting (s : State) (i : Iss) : Bool :=
  (s.core i.core).mmaWait.any fun x => x.block == i.b && x.grp == i.g

/-- The block of lane L's MMA is read, once, and its command checked: it then waits for the queue, which MMA_ACCEPT ends. A lane whose
block lies on an absent line parks there first (R415). -/
def mmaBlock (w : Insn) (s : State) (i : Iss) (L : Nat) : Res :=
  let off := val32 s i (opA w) L
  if off % 64 ≠ 0 ∨ scrBytes s i.b < off + 64 then stop23 i 0x0F 1 i.ex
  else if !linePresent s i.b off then
    .next (parkLane (advance s i (i.iss &&& ~~~i.ex)) i L { cause := pkBlock, x := w64 (off / 256 * 256), insn := some w, op := 0xE0 })
  else
    let d := scrWord s i.b off
    let q := s.group i.b i.g
    if mmaReserved d && pendingAny q ((mmaScalars d).map sKey) then .hold
    else if mmaReserved d && shortRead s i ((mmaScalars d).map sKey) then stopShort i
    else
      let c := mmaParse s i.b i.g d
      match mmaCheck s i d c with
      | some e => stop23 i e.1 e.2 i.ex
      | none =>
        if relHeld s i then .hold
        else
          let k := s.block i.b
          let cmd := { c with snap := k.scratch, absent := (tkeys k.lines).filter fun l => !(tget {} k.lines l).present }
          .next (modCore (clearRel s i) i.core fun k => { k with mmaWait := k.mmaWait ++
            [{ block := i.b, grp := i.g, lane := L, pc := w64 i.pc, mask := i.iss, cmd := cmd }] })

/-- MMA (R245, R246, R415). -/
def execMma (w : Insn) (s : State) : Out :=
  .next (runWord 0xE0 w s noBump fun s i =>
    if mmaWaiting s i then .hold
    else
      let esc := escapes s i true [(opA w, 1)]
      if esc ≠ 0 then stop23 i 0x0B 0 esc
      else match lanesOf i.ex with
      | [] => .next (advance s i i.iss)
      | [L] => mmaBlock w s i L
      | _ => stop23 i 0x0F 9 i.ex)

/-! ## Acceptance and reads (R246–R248, R438) -/

/-- Keys of the registers a command lends from its group e: B registers r of the list, or scales. -/
def lendKeys (c : MmaCmd) (rs : List Nat) : List Nat := c.used.flatMap fun e => rs.map fun r => lentKey c.block e.2 r

def lendAll (c : MmaCmd) : List Nat :=
  lendKeys c (((List.range c.bCount).map fun r => c.bReg + r) ++
    if c.scaledB then (List.range c.nb).map fun r => c.bsReg + r else [])

/-- A command enters the matrix queue, its registers are lent, and the issue set goes on. -/
def execMmaAccept (b g L : Nat) (s : State) : Out :=
  let k := s.block b
  let c := s.core k.core
  match c.mmaWait.find? fun x => x.block == b && x.grp == g && x.lane == L with
  | none => .next s
  | some x =>
    let q := s.group b g
    if decide (8 ≤ c.mmaQ.length) || !inMask q.live L || (q.lane L).lpc != x.pc || !running s then .next s
    else
      let cmd := { x.cmd with
        id := c.nextCmd
        start := if c.mmaQ.isEmpty then c.cycles + 1 else 2 ^ 64 }
      let s1 := modCore s k.core fun c => { c with
        nextCmd := c.nextCmd + 1, mmaQ := c.mmaQ ++ [cmd], mmaWait := c.mmaWait.filter fun y => !(y.block == b && y.grp == g && y.lane == L)
        lent := (lendAll cmd).foldl (fun t r => tmod 0 t r (· + 1)) c.lent }
      let go := maskOf fun l => inMask x.mask l && inMask q.live l && (q.lane l).lpc == x.pc && !(q.lane l).waits
      .next (afterIssue (advance s1 { b := b, g := g, core := k.core, ctx := k.ctx, pc := x.pc.toNat, iss := x.mask, len := 8 } go) b g)

/-- K-steps of one read cycle: 8 bytes of each lane (R247). -/
def MmaCmd.perCycle (c : MmaCmd) : Nat := if c.es = 1 then 8 else 4
def MmaCmd.cycles (c : MmaCmd) : Nat := (c.k + c.perCycle - 1) / c.perCycle
/-- K-steps and scale blocks read in read cycle r. -/
def MmaCmd.steps (c : MmaCmd) (r : Nat) : List Nat :=
  ((List.range c.perCycle).map fun x => r * c.perCycle + x).filter fun k => decide (k < c.k)
def MmaCmd.scaleSteps (c : MmaCmd) (r : Nat) : List Nat := ((c.steps r).filter fun k => k % c.bl == 0).map fun k => k / c.bl

/-- Little-endian value of n bytes of a scratchpad. -/
def scrNum (t : Tbl Byte) (off n : Nat) : Nat := ofLeBytes ((List.range n).map fun k => tget 0 t (off + k))

/-- An element of A or a scale as the engine may read it: whole, the present one or the one at issue, or, of a line that was
absent at issue, the one that stood there when it became present (R170, R194, R248). DESIGN CHOICE (log 23). -/
def engineNum (s : State) (c : MmaCmd) (off n : Nat) : Nat :=
  if c.absent.contains (off / 256) ∨ pick s (2 ^ 51 + off) % 2 = 0 then scrNum (s.block c.block).scratch off n else scrNum c.snap off n

/-- The scratchpad bytes a read cycle takes: offset and size. -/
def MmaCmd.places (c : MmaCmd) (r : Nat) : List (Nat × Nat) :=
  (List.range c.m).flatMap fun i =>
    ((c.steps r).map fun k => (c.aBase + i * c.aStride + k * c.es, c.es)) ++
    if c.scaledA then (c.scaleSteps r).map fun x => (c.scBase + i * c.scStride + 4 * x, 4) else []

/-- What the engine reads in cycle `now` of a register whose unfinished producers are listed, newest first: not the result of one that is
outstanding, and of one that lands in this cycle the result or what it replaced (R438). -/
def engineSees (s : State) (salt now : Nat) : W64 → List Producer → W64
  | cur, [] => cur
  | cur, p :: ps =>
    if now < p.ready then engineSees s salt now p.old ps
    else if p.ready = now ∧ pick s (2 ^ 52 + salt * 64 + ps.length) % 2 = 1 then engineSees s salt now p.old ps
    else cur

/-- A V register of a lane of a lending group as the engine reads it. DESIGN CHOICE (log 23). -/
def engineReg (s : State) (c : MmaCmd) (r j : Nat) : Nat :=
  let g := c.gq.getD (j / 32) 0
  let q := s.group c.block g
  let k := vKey r (j % 32)
  (engineSees s (2 ^ 18 * g + k) (cyclesOf s c.block) ((q.vReg r (j % 32)).setWidth 64) (q.prods.filter fun p => p.key == k)).toNat % 2 ^ 32

/-- B code of column j at K-step k, and a B scale (R244). -/
def bCode (s : State) (c : MmaCmd) (k j : Nat) : Nat :=
  let byte := k * c.es
  engineReg s c (c.bReg + byte / 4) j >>> (8 * (byte % 4)) % 2 ^ (8 * c.es)
def bScale (s : State) (c : MmaCmd) (blk j : Nat) : Nat := engineReg s c (c.bsReg + blk) j

/-- The registers whose last read is in read cycle r. -/
def releasedKeys (c : MmaCmd) (r : Nat) : List Nat :=
  lendKeys c ((((List.range 2).map fun x => 2 * r + x).filter fun x => decide (x < c.bCount)).map (fun x => c.bReg + x) ++
    if c.scaledB then (c.scaleSteps r).map fun x => c.bsReg + x else [])

/-- One read cycle of a command. DESIGN CHOICE (log 23). -/
def mmaRead (s : State) (c : MmaCmd) (now : Nat) : MmaCmd :=
  let r := c.reads
  let rows := List.range c.m
  let cols := List.range c.n
  { c with
    reads := r + 1, lastRead := now
    aBuf := rows.foldl (fun t i => (c.steps r).foldl (fun t k =>
      tset 0 t (2048 * i + k) (engineNum s c (c.aBase + i * c.aStride + k * c.es) c.es)) t) c.aBuf
    bBuf := cols.foldl (fun t j => (c.steps r).foldl (fun t k => tset 0 t (2048 * j + k) (bCode s c k j)) t) c.bBuf
    saBuf := if c.scaledA then rows.foldl (fun t i => (c.scaleSteps r).foldl (fun t x =>
      tset 0 t (2048 * i + x) (engineNum s c (c.scBase + i * c.scStride + 4 * x) 4)) t) c.saBuf else c.saBuf
    sbBuf := if c.scaledB then cols.foldl (fun t j => (c.scaleSteps r).foldl (fun t x =>
      tset 0 t (2048 * j + x) (bScale s c x j)) t) c.sbBuf else c.sbBuf }

/-- The engine reads the next K-steps of the oldest command, once each cycle, where every line they lie on is present. -/
def execMmaReadCycle (core : Nat) (s : State) : Out :=
  let k := s.core core
  match k.mmaQ with
  | [] => .next s
  | c :: cs =>
    let ready := decide (c.reads < c.cycles) && decide (c.start ≤ k.cycles) && (c.reads == 0 || decide (c.lastRead < k.cycles)) &&
      (c.places c.reads).all (fun p => linePresent s c.block p.1 && linePresent s c.block (p.1 + p.2 - 1))
    if !ready || !running s then .next s
    else .next (modCore s core fun q => { q with
      mmaQ := mmaRead s c k.cycles :: cs
      lent := (releasedKeys c c.reads).foldl (fun t r => tmod 0 t r (· - 1)) q.lent })

/-! ## Results and handover (R239, R240, R249, R250) -/

def one : Fv := .fin false 1 0

/-- S of one block: the exact sum of products; an exact zero is +0 (R239). -/
def blockSum (c : MmaCmd) (i j blk : Nat) : Fv :=
  let lo := blk * c.bl
  (List.range (min c.bl (c.k - lo))).foldl (fun acc x =>
    let a := readFtz (slotFtz c.fa.toNat) c.fmtA (tget 0 c.aBuf (2048 * i + lo + x))
    let b := readFtz (slotFtz c.fb.toNat) c.fmtB (tget 0 c.bBuf (2048 * j + lo + x))
    addF 0 acc (mulF a b)) (.fin false 0 0)

/-- T[i][j] after the command (R239). -/
def mmaElem (c : MmaCmd) (old : W32) (i j : Nat) : W32 :=
  let start : Nat := if c.zero then 0 else old.toNat
  w32 ((List.range c.nb).foldl (fun acc blk =>
    let sa := if c.scaledA then scaleOf (tget 0 c.saBuf (2048 * i + blk)) else one
    let sb := if c.scaledB then scaleOf (tget 0 c.sbBuf (2048 * j + blk)) else one
    let x := (roundF .f32 0 false (mulF (mulF (blockSum c i j blk) sa) sb)).1
    (roundF .f32 0 false (addF 0 (decodeF .f32 acc) (decodeF .f32 x))).1) start)

/-- A tile token moves: the block that it concerns counts it (R430). -/
def tokenMoved (s : State) (b : Nat) : State := modBlock s b fun k => { k with marks := (k.marks.1, k.marks.2.1 + 1, k.marks.2.2) }

def modTile (s : State) (core t : Nat) (f : Tile → Tile) : State := modCore s core fun c => { c with tiles := tmod {} c.tiles t f }

/-- The engine's arrival at a count object, marked where a trap is owed (R249, R392). -/
def engineArrive (s : State) (b obj tile : Nat) (owed : Bool) : State :=
  let s := modObj s b obj fun o =>
    let o := { o with count := o.count + 1 }
    if owed then { o with nfValid := true, nfTile := tile, nfPhase := o.phase } else o
  objTest s b obj

/-- Pending handovers of a tile in their order, n at most: each is made once the commands accepted for the tile before it have written
their last element, and the engine arrives; the token moves with the last that is pending, for until then it counts as MAT (R250).
DEDUCED (log 65). -/
def handOver (core t b : Nat) : Nat → State → State
  | 0, s => s
  | n + 1, s =>
    let x := tget {} (s.core core).tiles t
    match x.vec with
    | [] => s
    | v :: vs =>
      if (s.core core).mmaQ.any fun c => c.tile == t && decide (c.id < v.2) then s
      else
        let s1 := modTile s core t fun y => { y with token := if vs.isEmpty then .vec b else y.token, vec := vs, owed := false }
        let s1 := if vs.isEmpty then tokenMoved s1 b else s1
        handOver core t b n (engineArrive s1 b v.1 t x.owed)

/-- What the end of a command, or a request, leaves due at a tile: its handovers; a tile of a block that has ended becomes FREE once no
command of it is left (R250). -/
def handTile (s : State) (core t : Nat) : State :=
  let x := tget {} (s.core core).tiles t
  let held := match x.token with | .mat b | .vec b => some b | .free => none
  match held with
  | none => s
  | some b =>
    if (s.block b).ended then
      if (s.core core).mmaQ.any fun c => c.tile == t then s else modTile s core t fun y => { y with token := .free, vec := [] }
    else handOver core t b x.vec.length s

/-- The oldest command's last tile write, 32 cycles after its last read: the deckle takes its values, NF and the owed trap
are noted, a pending handover moves, and the next command may start. -/
def execMmaCommandDone (core : Nat) (s : State) : Out :=
  let k := s.core core
  match k.mmaQ with
  | [] => .next s
  | c :: cs =>
    if c.reads < c.cycles ∨ k.cycles < c.lastRead + 32 ∨ !running s then .next s
    else
      let old := tget {} k.tiles c.tile
      let cells := (List.range c.m).flatMap fun i => (List.range c.n).map fun j => (128 * i + j, mmaElem c (tget 0 old.data (128 * i + j)) i j)
      let bad := cells.any fun e => nonFinite .f32 e.2.toNat
      let s1 := modTile s core c.tile fun t => { t with
        data := cells.foldl (fun d e => tset 0 d e.1 e.2) t.data
        nf := t.nf || bad
        owed := t.owed || (bad && (slotTnf c.fa.toNat || slotTnf c.fb.toNat)) }
      let s2 := modCore s1 core fun q => { q with mmaQ := match cs with
        | d :: ds => { d with start := k.cycles + 1 } :: ds
        | [] => [] }
      .next (handTile s2 core c.tile)

/-- A line has become present: the bytes of it that commands at the engine may read as old are those it holds now (R170, R248). -/
def snapLine (s : State) (b line : Nat) : State :=
  let scr := (s.block b).scratch
  let new := fun (c : MmaCmd) =>
    if c.block = b ∧ c.absent.contains line then
      { c with absent := c.absent.filter (· ≠ line)
               snap := (List.range 256).foldl (fun t k => tset 0 t (256 * line + k) (tget 0 scr (256 * line + k))) c.snap }
    else c
  modCore s (s.block b).core fun k => { k with
    mmaQ := k.mmaQ.map new, mmaWait := k.mmaWait.map fun x => { x with cmd := new x.cmd } }

/-- What a meaning leaves, or the state as it was. -/
def afterOut (s : State) (o : Out) : State := match o with | .next t => t | _ => s

/-- What the matrix engine of a core has still to do in a cycle: the commands that the queue can take, a read that is due, the end of a
command (R246, R247, R438). -/
def engineStep (s : State) (core : Nat) : State :=
  let s1 := (s.core core).mmaWait.foldl (fun s x => afterOut s (execMmaAccept x.block x.grp x.lane s)) s
  afterOut s1 (execMmaCommandDone core (afterOut s1 (execMmaReadCycle core s1)))

/-! ## TKPASS and TKTEST (R250, R416, R417) -/

/-- The tile that A names. -/
def tileOf (w : Insn) : Nat := match opA w with | .t n => n | _ => 0

/-- A TKPASS word: guards and operands must not be guessed; with no executing lane nothing moves, and D takes the guards' guess bits
(R206). -/
def tokenWord (w : Insn) (s : State) (dests : List (Opd × Nat)) (body : State → Iss → Tile → Res) : State :=
  runWord 0xE1 w s noBump fun s i =>
    let esc := escapes s i true []
    if esc ≠ 0 then stop23 i 0x0B 0 esc
    else if i.ex = 0 then .next (advance (guessDests s i dests) i i.iss)
    else body s i (tget {} (s.core i.core).tiles (tileOf w))

/-- .claim: a FREE tile is zeroed and held by the block; every executing lane is told. -/
def execTkpassClaim (w : Insn) (s : State) : Out :=
  .next (tokenWord w s [(opD w, 1)] fun s i t =>
    let ok := t.token == .free
    let s1 := if ok then tokenMoved (modTile s i.core (tileOf w) fun t => { t with data := [], nf := false, token := .vec i.b }) i.b else s
    .next (advance (putD s1 i 0 .b32 (opD w) i.ex (fun _ => b2n ok) fun L => inMask i.gg L) i i.iss))

/-- An earlier access of an issuing lane to the tile through its core's port has not been performed (R416). -/
def tileBusy (s : State) (i : Iss) (tile : Nat) : Bool :=
  s.reqs.any fun r => r.block == i.b && r.grp == i.g && r.copy.isNone && r.stage == .egress &&
    (match r.place with
      | .gang k true => (s.block k).core == i.core && r.parts.any fun p => inMask i.ex p.lane && p.off / 65536 == tile
      | _ => false)

/-- .mat and .free: from VEC of the block, after the issuing lanes' own accesses. -/
def moveToken (w : Insn) (s : State) (dest : Nat → Token) : State :=
  tokenWord w s [] fun s i t =>
    if t.token != .vec i.b then stop23 i 0x0D 0 i.ex
    else if tileBusy s i (tileOf w) then .hold
    else .next (advance (tokenMoved (modTile s i.core (tileOf w) fun t => { t with token := dest i.b }) i.b) i i.iss)

def execTkpassMat (w : Insn) (s : State) : Out := .next (moveToken w s .mat)
def execTkpassFree (w : Insn) (s : State) : Out := .next (moveToken w s fun _ => .free)

/-- The count object of the issuing block that .vec must name (R392). -/
def vecObject (w : Insn) (s : State) (i : Iss) : Option Nat :=
  match objOf s i.b (val64 s i (opB w) ((lanesOf i.ex).headD 0)) with
  | some (h, k) => if h = i.b ∧ (s.obj h k).kind = 2 then some k else none
  | none => none

/-- A command of the block for the tile has passed its checks and waits for the matrix queue. -/
def tileWaits (s : State) (i : Iss) (tile : Nat) : Bool :=
  (s.core i.core).mmaWait.any fun x => x.block == i.b && x.cmd.tile == tile

/-- .vec: the handover is asked for, and made at once where no command of the tile is left. An MMA that issued before it is accepted
before it (R433). While one is pending the token counts as MAT, for a further one too. DEDUCED (log 65). -/
def execTkpassVec (w : Insn) (s : State) : Out :=
  .next (tokenWord w s [] fun s i t =>
    match vecObject w s i with
    | none => stop23 i 0x06 0 i.ex
    | some k =>
      if t.token != .mat i.b then stop23 i 0x0D 0 i.ex
      else if tileWaits s i (tileOf w) then .hold
      else
        let s1 := modTile s i.core (tileOf w) fun t => { t with vec := t.vec ++ [(k, (s.core i.core).nextCmd)] }
        .next (handTile (advance s1 i i.iss) i.core (tileOf w)))

/-- TKTEST.state of a tile for a block. -/
def tokenState (b : Nat) (t : Tile) : Nat :=
  let st := match t.token with
    | .free => 0
    | .vec x => if x = b then 1 else 3
    | .mat x => if x = b then 2 + 4 * b2n !t.vec.isEmpty else 3
  st + 128 * b2n t.nf

def execTktest (w : Insn) (s : State) : Out :=
  .next (runWord 0xE2 w s noBump fun s i =>
    let t := tget {} (s.core i.core).tiles (tileOf w)
    aluBody 0 .b32 (opD w) [] (fun _ _ _ => if w.sub.toNat = 0 then tokenState i.b t else b2n t.nf) s i)

end Sys2Proof.Machine
end

