-- ==== Sys2Proof/Machine/Copy.lean ====
section
/-! DEFINITION. The copy engine (R251–R254, R418–R420, R170) and the instructions that look at queues (R421, R422). -/

namespace Sys2Proof.Machine

/-! ## Layout records (R251) -/

/-- A tensor layout record, with the fields of dimensions at or beyond RANK set aside. -/
structure Layout where
  base    : Nat := 0
  fill    : Nat := 0
  rank    : Nat := 1
  esz     : Nat := 1
  dims    : List Nat := []
  strides : List Nat := []
  box     : List Nat := []
  /-- Reserved bits are zero. -/
  clean   : Bool := true
  deriving DecidableEq, Repr

def parseLayout (d : Nat → Nat) : Layout :=
  let rank := bits (d 1) 5 4 + 1
  { base := d 0, fill := bits (d 1) 63 32, rank := rank, esz := 2 ^ bits (d 1) 1 0
    dims := [bits (d 2) 31 0, bits (d 2) 63 32, bits (d 3) 31 0, bits (d 3) 63 32].take rank
    strides := [d 4, d 5, d 6].take (rank - 1)
    box := (List.range 4).map fun k => if k < rank then bits (d 7) (8 * k + 7) (8 * k) + 1 else 1
    clean := bits (d 1) 31 6 == 0 && bits (d 1) 3 2 == 0 && bits (d 7) 63 32 == 0 }

/-- Check 2 of R419. -/
def Layout.ok (l : Layout) : Bool :=
  l.clean && [0, 6, 7].contains (pathOf l.base) && l.base % l.esz == 0 && (l.strides.all fun x => x % l.esz == 0) &&
  l.dims.all fun x => x != 0

/-- Bytes of the dense box. -/
def Layout.size (l : Layout) : Nat := l.esz * l.box.foldl (· * ·) 1

/-- Cut a move into pieces that lie within one sector at each end. `data` holds the pattern of a move without source. -/
def chop : Nat → Option Nat → Nat → Nat → List Byte → List Run
  | 0, _, _, _, _ => []
  | n + 1, src, dst, len, data =>
    if len = 0 then []
    else
      let k := min len (min (64 - dst % 64) (match src with | some a => 64 - a % 64 | none => 64))
      { src := src.map w64, dst := w64 dst, len := k, data := data.take k, stage := if src.isNone then 2 else 0 } ::
        chop n (src.map (· + k)) (dst + k) (len - k) (data.drop k)

def pieces (src : Option Nat) (dst len : Nat) (data : List Byte) : List Run := chop (len / 16 + 4) src dst len data

/-- n bytes of the FILL pattern, from an element boundary. -/
def fillBytes (l : Layout) (n : Nat) : List Byte :=
  (List.range n).map fun k => BitVec.ofNat 8 (l.fill >>> (8 * (k % l.esz % 4)))

/-- Places (e1, e2, e3) of the box's rows. -/
def Layout.rows (l : Layout) : List (Nat × Nat × Nat) :=
  (List.range (l.box.getD 3 1)).flatMap fun e3 => (List.range (l.box.getD 2 1)).flatMap fun e2 =>
    (List.range (l.box.getD 1 1)).map fun e1 => (e1, e2, e3)

/-- Dense offset of a row. -/
def Layout.rowAt (l : Layout) (e : Nat × Nat × Nat) : Nat :=
  l.esz * (l.box.getD 0 1 * (e.1 + l.box.getD 1 1 * (e.2.1 + l.box.getD 2 1 * e.2.2)))

/-- Tensor address of element p0 = 0 of a row, and whether the row is in bounds in its other dimensions. -/
def Layout.rowBase (l : Layout) (x : Nat → Int) (e : Nat × Nat × Nat) : Int × Bool :=
  let es := [e.1, e.2.1, e.2.2]
  (List.range (l.rank - 1)).foldl (fun acc k =>
    let p := x (k + 1) + (es.getD k 0 : Int)
    (acc.1 + (l.strides.getD k 0 : Int) * p, acc.2 && decide (0 ≤ p) && decide (p < (l.dims.getD (k + 1) 0 : Int))))
    ((l.base : Int), true)

/-- First element of a row in bounds and the number that follow it. -/
def Layout.span (l : Layout) (x0 : Int) (inb : Bool) : Nat × Nat :=
  let b0 := l.box.getD 0 1
  if !inb then (0, 0)
  else
    let lo := min b0 (max 0 (-x0)).toNat
    let hi := min b0 (max 0 ((l.dims.getD 0 0 : Int) - x0)).toNat
    (lo, hi - lo)

/-- The moves of a tensor load to dst: elements out of bounds receive FILL. -/
def loadRuns (l : Layout) (x : Nat → Int) (dst : Nat) : List Run :=
  l.rows.flatMap fun e =>
    let r := l.rowBase x e
    let sp := l.span (x 0) r.2
    let d := dst + l.rowAt e
    let b0 := l.box.getD 0 1
    let a := wrap 64 (r.1 + (l.esz : Int) * (x 0 + sp.1))
    if sp.2 = 0 then pieces none d (l.esz * b0) (fillBytes l (l.esz * b0))
    else
      pieces none d (l.esz * sp.1) (fillBytes l (l.esz * sp.1)) ++
      pieces (some a) (d + l.esz * sp.1) (l.esz * sp.2) [] ++
      pieces none (d + l.esz * (sp.1 + sp.2)) (l.esz * (b0 - sp.1 - sp.2)) (fillBytes l (l.esz * (b0 - sp.1 - sp.2)))

/-- The moves of a tensor store from the box at src: elements out of bounds are skipped. -/
def storeRuns (l : Layout) (x : Nat → Int) (src : Nat) : List Run :=
  l.rows.flatMap fun e =>
    let r := l.rowBase x e
    let sp := l.span (x 0) r.2
    pieces (some (src + l.rowAt e + l.esz * sp.1)) (wrap 64 (r.1 + (l.esz : Int) * (x 0 + sp.1))) (l.esz * sp.2) []

/-! ## Checks at issue (R419) -/

/-- What an executing lane's COPY will do. -/
structure Plan where
  runs  : List Run := []
  dsts  : List Nat := []
  lines : List (Nat × Nat) := []
  regs  : List (Nat × Nat × Nat) := []
  rbit  : Option Nat := none
  deriving DecidableEq, Repr

/-- The outcome of a lane's checks: the order of the check that failed and its cause, a record line to wait for, or a plan. -/
inductive CopyTry where
  | bad (order cause : Nat)
  | wait (off : Nat)
  | ok (p : Plan)
  deriving DecidableEq, Repr

/-- Scratchpad named by a path 0x02 or 0x03 address: block and offset; none where the block index names none (R106). -/
def scrName (s : State) (i : Iss) (ea : Nat) : Option (Nat × Nat) :=
  if pathOf ea = 2 then some (i.b, bits ea 55 0)
  else if bits ea 55 48 ≥ (recordOf s i.b).nblk then none
  else match gangBlock s i.b (bits ea 55 48) with
  | some b => if (s.block b).ended then none else some (b, bits ea 47 0)
  | none => none

/-- A byte range lies within a block's scratchpad. -/
def scrFits (s : State) (b off len : Nat) : Bool := len == 0 || decide (off + len ≤ scrBytes s b)

/-- Lines of a scratchpad range. -/
def scrLines (b off len : Nat) : List (Nat × Nat) :=
  if len = 0 then [] else (List.range ((off + len - 1) / 256 + 1 - off / 256)).map fun k => (b, off / 256 + k)

/-- The landing range of a kernel: first register and count, from the word at ENTRY − 8 (R252); none where it cannot be
read. DEDUCED (log 68). -/
def landingRange (s : State) (i : Iss) : Nat × Nat :=
  let e := (recordOf s i.b).entry
  if e < 8 then (0, 0)
  else match peekWord s i.b (e - 8) with
  | some x => (bits x 8 0, bits x 18 10)
  | none => (0, 0)

/-- Registers of a path 0x05 range, each 128 bytes; none where one is invalid or outside the landing range (check 5).
DEDUCED (log 68). -/
def copyRegs (s : State) (i : Iss) (ea len : Nat) : Option (List (Nat × Nat × Nat)) :=
  let land := landingRange s i
  let one := fun (a : Nat) => match parseChip s i.ctx a with
    | .ok (.reg b off) =>
      let r := bits off 15 7
      if land.1 ≤ r ∧ r < land.1 + land.2 then some (b, bits off 19 16, r) else none
    | _ => none
  let xs := if len = 0 then [] else (List.range ((ea + len - 1) / 128 + 1 - ea / 128)).map fun k => one (128 * (ea / 128 + k))
  if xs.all Option.isSome then some (xs.filterMap id) else none

/-- Destination of a load or linear COPY on chip: the plan's scratchpad or registers, or the failing check. -/
def chipDest (s : State) (i : Iss) (ea len : Nat) (runs : Nat → List Run) : CopyTry :=
  if pathOf ea = 5 then
    if bits ea 35 34 ≠ 0 then .bad 3 0x10
    else match copyRegs s i ea len with
    | some rs => .ok { runs := runs ea, regs := dedupRegs rs }
    | none => .bad 5 0x10
  else match scrName s i ea with
  | none => .bad 4 0x10
  | some (b, off) => if scrFits s b off len then .ok { runs := runs off, dsts := [b], lines := scrLines b off len } else .bad 4 0x10
where
  dedupRegs (rs : List (Nat × Nat × Nat)) : List (Nat × Nat × Nat) :=
    rs.foldl (fun acc x => if acc.contains x then acc else acc ++ [x]) []

/-- Coordinates x_d: bits 31:0 of S(c + d), signed (R251). DESIGN CHOICE (log 66). -/
def coord (w : Insn) (s : State) (i : Iss) (d : Nat) : Int := sext 32 (scalarAt s i.b i.g (eCs w + d))

/-- Check 6: a global destination under a non-root hypothesis (R220). -/
def remote (s : State) (i : Iss) (L ea : Nat) : Bool :=
  [0, 6, 7].contains (pathOf ea) && ((s.group i.b i.g).lane L).hyp != 0

/-- The record of a form with one, then k of its layout. -/
def withRecord (w : Insn) (s : State) (i : Iss) (L : Nat) (k : Layout → CopyTry) : CopyTry :=
  let off := val32 s i (opA w) L
  if off % 64 ≠ 0 ∨ scrBytes s i.b < off + 64 then .bad 1 0x10
  else if !linePresent s i.b off then .wait off
  else
    let l := parseLayout (scrWord s i.b off)
    if !l.ok then .bad 2 0x10 else k l

def tryTload (w : Insn) (s : State) (i : Iss) (L : Nat) : CopyTry :=
  withRecord w s i L fun l =>
    let dst := val64 s i (opB w) L
    if !([2, 3, 5].contains (pathOf dst)) then .bad 3 0x10
    else chipDest s i dst l.size fun d => loadRuns l (coord w s i) d

def tryTstore (w : Insn) (s : State) (i : Iss) (L : Nat) : CopyTry :=
  withRecord w s i L fun l =>
    let src := val64 s i (opB w) L
    let own := pathOf src == 2 || (pathOf src == 3 && bits src 55 48 == (s.block i.b).blk)
    if !own then .bad 3 0x10
    else match scrName s i src with
    | none => .bad 4 0x10
    | some (b, off) =>
      if !scrFits s b off l.size then .bad 4 0x10
      else if remote s i L l.base then .bad 6 0x12
      else .ok { runs := storeRuns l (coord w s i) src }

def tryLin (w : Insn) (s : State) (i : Iss) (L : Nat) : CopyTry :=
  let src := val64 s i (opA w) L
  let dst := val64 s i (opB w) L
  let n := val32 s i (opC w) L
  let scr := fun a => pathOf a == 2 || pathOf a == 3
  if !([0, 2, 3, 6, 7].contains (pathOf src)) || !([0, 2, 3, 5].contains (pathOf dst)) || decide (2 ^ 24 < n) || n % 4 != 0 ||
      src % 4 != 0 || dst % 4 != 0 then .bad 3 0x10
  else if scr src && (match scrName s i src with | some x => !scrFits s x.1 x.2 n | none => true) then .bad 4 0x10
  else if pathOf dst = 0 then
    if remote s i L dst then .bad 6 0x12 else .ok { runs := pieces (some src) dst n [] }
  else chipDest s i dst n fun d => pieces (some src) d n []

def tryMcast (w : Insn) (s : State) (i : Iss) (L : Nat) : CopyTry :=
  withRecord w s i L fun l =>
    let dst := val32 s i (opB w) L
    let ks := (List.range 4).filter fun k => bit (eGmask w) k
    let bs := ks.map fun k => if k < (recordOf s i.b).nblk then gangBlock s i.b k else none
    let hs := bs.filterMap id
    if hs.length < bs.length || hs.any (fun h => (s.block h).ended || !scrFits s h dst l.size) then .bad 4 0x10
    else .ok { runs := loadRuns l (coord w s i) dst, dsts := hs, lines := hs.flatMap fun h => scrLines h dst l.size, rbit := some (eRbit w) }

/-- COPYs issued and not completed, and records not popped (R254, R421). -/
def copiesOut (s : State) (b : Nat) : Nat := (s.block b).copies.length

/-- Pending counts the new COPYs would give their lines stay at 15 or below (R170). -/
def linesFit (s : State) (ps : List Plan) : Bool :=
  let all := ps.flatMap fun p => p.lines
  all.all fun e => decide ((tget {} (s.block e.1).lines e.2).pending + (all.filter fun x => x == e).length ≤ 15)

/-! ## The life of a COPY (R420) -/

def modJob (s : State) (b id : Nat) (f : CopyJob → CopyJob) : State :=
  modBlock s b fun k => { k with copies := k.copies.map fun j => if j.id = id then f j else j }

def jobOf (s : State) (id : Nat) : Option (Nat × CopyJob) :=
  (tkeys s.blocks).findSome? fun b => ((s.block b).copies.find? fun j => j.id == id).map fun j => (b, j)

/-- Every lane of the registers a COPY will write is scoreboarded, for reads and writes (R252). -/
def regKeys (r : Nat) : List Nat := lanes32.map fun L => vKey r L

/-- A COPY with V = 0 on a page: it parks and writes a fault-ring entry; without a ring it is aborted (R254, R260, R261). -/
def copyFault (s : State) (b : Nat) (j : CopyJob) (va : Nat) (acc : Acc) : State :=
  let k := s.block b
  let c := s.context k.ctx
  if !(s.part c.part).ringEnable then modJob s b j.id fun j => { j with status := 1, fcode := 0x0A }
  else
    let e := faultEntry s c.part va (accCode acc + 4) k.lcore c.chan j.grp
    modJob e.2 b j.id fun j => { j with parked := some e.1 }

/-- The copy engine runs for a block: the core clocks run (R87), and the block has not been saved: a COPY of a saved block goes on when
the block is back (R266). DESIGN CHOICE (log 40). -/
def copyAwake (s : State) (b : Nat) : Bool := let k := s.block b; running s && (k.resident || k.ended)

/-- D of a COPY's reads and writes: the CT of its issue, the context's LIMIT_DEFAULT, less the return margin of the home (R32). -/
def copyDeadline (s : State) (b : Nat) (j : CopyJob) (pa : Nat) : Nat :=
  j.issueCt + ((recordOf s b).limit - returnMargin (s.block b).core pa)

/-- Generation of a translated access, or the present one (R156). -/
def genOf (s : State) (i : Iss) (t : Tgt) (x : Xl) : Nat :=
  match t with | .glob _ _ | .host _ => x.entry.gen | _ => (s.part (s.context i.ctx).part).gen

/-- The group a COPY acts for. -/
def jobIss (s : State) (b : Nat) (j : CopyJob) : Iss :=
  let k := s.block b
  { b := b, g := j.grp, core := k.core, ctx := k.ctx }

/-- Ask for the bytes of one piece: a request to the place of its source. -/
def askRun (s : State) (b : Nat) (j : CopyJob) (n : Nat) (r : Run) (src : Nat) (t : Tgt) (x : Xl) : State :=
  let i := jobIss s b j
  let p := placeOf t x true
  let pa := match p.1 with | .home pa => pa | _ => 0
  let sh : Share := { place := p.1, hyp := (match p.1 with | .home _ => j.hyp | _ => 0), hold := x.hold, va := src, gen := genOf s i t x
                      parts := [{ lane := j.lane, off := p.2, w := r.len }] }
  let s := addReq s { baseReq s i sh with
    kind := .load, copy := some j.id, sub := n, na := true, hold := false, deadline := copyDeadline s b j pa }
  modJob s b j.id fun j => { j with runs := j.runs.set n { r with stage := 1 } }

/-- Send the reads of a COPY that may move data, in order, until one parks or ends it. Scratchpad sources are read when
their bytes are delivered. DESIGN CHOICE (log 67). -/
def copyPump (s : State) (b id : Nat) : State :=
  match (s.block b).copies.find? fun j => j.id == id with
  | none => s
  | some j0 =>
    let i := jobIss s b j0
    pumpFabric (j0.runs.zipIdx.foldl (fun s e =>
      match (s.block b).copies.find? fun j => j.id == id with
      | none => s
      | some j =>
        if j.rbit.isSome || j.parked.isSome || j.status != 0 || e.1.stage != 0 || !copyAwake s b then s
        else match e.1.src with
        | none => s
        | some a =>
          let fail := fun c => modJob s b id fun j => { j with status := 1, fcode := c }
          let go := fun (t : Tgt) va host => match xlate s i.core (s.context i.ctx).part va .read host with
            | .ok x => askRun (noteXl s i.core (s.context i.ctx).part va .read x) b j e.2 e.1 a.toNat t x
            | .error .notPresent => copyFault s b j va .read
            | .error f => fail (xfaultCode f)
          match parseAddr s i a.toNat with
          | .error c => fail c
          | .ok (.glob va c) => go (.glob va c) va false
          | .ok (.host va) => go (.host va) va true
          | .ok (.fab q off) => askRun s b j e.2 e.1 a.toNat (.fab q off) {}
          | .ok _ => s) s)

/-- The bytes of a piece, if they are at hand: read, the fill pattern, or in a scratchpad line that is present.
DESIGN CHOICE (log 67). -/
def runBytes (s : State) (b : Nat) (j : CopyJob) (r : Run) : Option (List Byte) :=
  if r.stage = 2 then some r.data
  else match r.src with
  | none => some r.data
  | some a => match parseAddr s (jobIss s b j) a.toNat with
    | .ok (.scr h off) => if linePresent s h off then some (chipBytes s (.scr h off) r.len) else none
    | _ => none

/-- A block's scratchpad is about to be freed: pieces of COPYs that have not read their bytes there read them now. DESIGN CHOICE
(log 103). -/
def captureRuns (s : State) (h : Nat) : State :=
  (tkeys s.blocks).foldl (fun s b => (s.block b).copies.foldl (fun s j =>
    modJob s b j.id fun _ => { j with runs := j.runs.map fun r =>
      match r.src with
      | none => r
      | some a => if r.stage ≠ 0 then r else match parseAddr s (jobIss s b j) a.toNat with
        | .ok (.scr k off) => if k = h then { r with stage := 2, data := chipBytes s (.scr k off) r.len } else r
        | _ => r }) s) s

/-- A reply to a read of a COPY: the bytes of its piece; a bad status ends the COPY (R254). DEDUCED (log 69). -/
def copyReply (s : State) (r : Req) : State :=
  match r.copy with
  | none => s
  | some id => match jobOf s id with
    | none => s
    | some (b, j) =>
      let p := r.parts.headD {}
      if r.status ≠ 0 then
        modJob s b id fun j => { j with status := (if r.status = 1 then 2 else if r.status = 2 then 1 else 3), fcode := r.fcode }
      else
        modJob s b id fun _ => { j with runs := j.runs.mapIdx fun n x =>
          if n = r.sub then { x with stage := 2, data := (r.sect.drop p.off).take p.w } else x }

/-- Issue the COPYs of the lanes that passed, in ascending lane id. -/
def issueCopy (w : Insn) (i : Iss) (s : State) (e : Nat × Plan) : State :=
  let id := s.seq
  let p := e.2
  let j : CopyJob := { id := id, grp := i.g, lane := e.1, form := eForm w, tag := eTag w
                       hyp := ((s.group i.b i.g).lane e.1).hyp, rbit := p.rbit, dsts := p.dsts, runs := p.runs, lines := p.lines, regs := p.regs, issueCt := coreCt s i.core }
  let s := modBlock { s with seq := id + 1 } i.b fun k => { k with copies := k.copies ++ [j] }
  let s := p.lines.foldl (fun s l => modBlock s l.1 fun k =>
    { k with lines := tmod {} k.lines l.2 fun x => { present := false, pending := x.pending + 1 } }) s
  let s := p.regs.foldl (fun s r => modGroup s r.1 r.2.1 fun q => q.pendAdd (regKeys r.2.2)) s
  copyPump s i.b id

/-- Keys of the coordinate registers that lanes of the issue set read, S(CS) up to the RANK of their records (R127, R251). -/
def coordKeys (w : Insn) (s : State) (i : Iss) : List Nat :=
  if eForm w = 2 then []
  else
    let rank := maxOf ((lanesOf i.iss).map fun L =>
      let off := val32 s i (opA w) L
      if off % 64 ≠ 0 ∨ scrBytes s i.b < off + 64 ∨ !linePresent s i.b off then 0 else (parseLayout (scrWord s i.b off)).rank)
    (List.range rank).map fun d => sKey (eCs w + d)

/-- The checks of the executing lanes, then their COPYs; a lane whose record lies on an absent line parks, and makes them when the line
is present (R419, R420). -/
def copyBody (w : Insn) (s : State) (i : Iss) (attempt : State → Iss → Nat → CopyTry) : Res :=
  let ts := (lanesOf i.ex).map fun L => (L, attempt s i L)
  let bad := ts.filterMap fun e => match e.2 with | .bad o c => some (o, c) | _ => none
  match sortBy (fun e => e.1) bad with
  | (_, c) :: _ => stop23 i c 0 i.ex
  | [] =>
    let plans := ts.filterMap fun e => match e.2 with | .ok p => some (e.1, p) | _ => none
    let waits := ts.filterMap fun e => match e.2 with | .wait off => some (e.1, off) | _ => none
    if relHeld s i || decide (64 < copiesOut s i.b + (queueOf s i.b 2).length + plans.length) ||
        !linesFit s (plans.map Prod.snd) then .hold
    else
      let stay := maskOf fun L => waits.any fun e => e.1 == L
      let s1 := waits.foldl (fun s e => parkLane s i e.1 { cause := pkBlock, x := w64 (e.2 / 256 * 256), insn := some w, op := 0xE3 }) (clearRel s i)
      .next (plans.foldl (issueCopy w i) (advance s1 i (i.iss &&& ~~~stay)))

/-- A COPY word (R418–R420): a coordinate register that is pending or unfinished is a source as any other (R127, R141). -/
def copyWord (w : Insn) (s : State) (attempt : State → Iss → Nat → CopyTry) : State :=
  runWord 0xE3 w s noBump fun s i =>
    let esc := escapes s i true ([(opA w, spanA 0xE3 w), (opB w, spanB 0xE3 w)] ++ if eForm w = 2 then [(opC w, 1)] else [])
    if pendingAny (s.group i.b i.g) (coordKeys w s i) then .hold
    else if shortRead s i (coordKeys w s i) then stopShort i
    else if resolveHeld s i then .hold
    else if esc ≠ 0 then stop23 i 0x0B 0 esc
    else if i.ex = 0 then .next (advance s i i.iss)
    else copyBody w s i attempt

def execCopyTload (w : Insn) (s : State) : Out := .next (copyWord w s (tryTload w))
def execCopyTstore (w : Insn) (s : State) : Out := .next (copyWord w s (tryTstore w))
def execCopyLin (w : Insn) (s : State) : Out := .next (copyWord w s (tryLin w))
def execCopyMcast (w : Insn) (s : State) : Out := .next (copyWord w s (tryMcast w))

/-- The checks of a COPY's form. -/
def tryOf (w : Insn) : State → Iss → Nat → CopyTry :=
  match eForm w with
  | 0 => tryTload w
  | 1 => tryTstore w
  | 2 => tryLin w
  | _ => tryMcast w

/-- The COPY of a lane whose record is now here. -/
def copyParked (w : Insn) (s : State) (i : Iss) : Res :=
  if pendingAny (s.group i.b i.g) (coordKeys w s i) then .hold
  else if shortRead s i (coordKeys w s i) then stopShort i
  else copyBody w s i (tryOf w)

/-! ## Events of a COPY -/

/-- A line's pending count falls by one; at 0 the line becomes present and what waits for it is served (R170, R171). -/
def lineDone (s : State) (b line : Nat) : State :=
  let n := (tget {} (s.block b).lines line).pending - 1
  let s := modBlock s b fun k => { k with lines := tset {} k.lines line { present := n == 0, pending := n } }
  if n = 0 then serveLine (snapLine s b line) b line else s

/-- Number of a line of a block, for SCRATCH_LINE_PRESENT. -/
def lineNo (b line : Nat) : Nat := 4096 * b + line

/-- The last byte of a COPY reaches a line: the bytes of its pieces there are written (R170); a linear COPY reaches its lines in ascending
order (R420). DESIGN CHOICE (log 67). -/
def execScratchLinePresent (job line : Nat) (s : State) : Out :=
  let h := line / 4096
  let ln := line % 4096
  match jobOf s job with
  | none => .next s
  | some (b, j) =>
    let here := j.runs.filter fun r => r.dst.toNat / 256 == ln
    let turn := j.form != 2 || j.lines.all fun l => decide (ln ≤ l.2)
    if !j.lines.contains (h, ln) || !turn || j.status != 0 || j.rbit.isSome || !copyAwake s b || here.any (fun r => (runBytes s b j r).isNone) then .next s
    else
      let s1 := here.foldl (fun t r => putChip t (.scr h r.dst.toNat) ((runBytes s b j r).getD [])) s
      let n := if j.dsts.head? = some h then (here.map fun r => r.len).sum else 0
      let s2 := modJob s1 b job fun j => { j with lines := j.lines.filter (· ≠ (h, ln)), bytes := j.bytes + n }
      .next (lineDone s2 h ln)

/-- MC_READY of a block changes: a WAITEV event (R430). -/
def setReady (s : State) (b : Nat) (f : Nat → Nat) : State :=
  let old := (s.block b).mcReady
  modBlock s b fun k => { k with
    mcReady := f old % 256
    marks := if f old % 256 = old then k.marks else (k.marks.1, k.marks.2.1, k.marks.2.2 + 1) }

/-- Two blocks of one gang (R106). -/
def sameGang (s : State) (a b : Nat) : Bool := (s.block a).ctx == (s.block b).ctx && (s.block a).gangSeq == (s.block b).gangSeq

/-- Every receiver of a multicast is ready: the bits are cleared in one step and the data moves. Multicasts that name one
bit are served in order of issue (R253). -/
def execMulticastReadyMet (job : Nat) (s : State) : Out :=
  match jobOf s job with
  | none => .next s
  | some (b, j) => match j.rbit with
    | none => .next s
    | some r =>
      let first := (tkeys s.blocks).all fun k => !sameGang s k b || (s.block k).copies.all fun x => x.rbit != some r || decide (j.id ≤ x.id)
      if !first || !copyAwake s b || !(j.dsts.all fun h => bit (s.block h).mcReady r) then .next s
      else
        let s1 := j.dsts.foldl (fun s h => setReady s h fun v => v - 2 ^ r) s
        .next (copyPump (modJob s1 b job fun j => { j with rbit := none }) b job)

/-- A piece whose destination is global memory. -/
def globalRun (j : CopyJob) (r : Run) : Bool := j.dsts.isEmpty && pathOf r.dst.toNat != 5

/-- The copy engine's store of one destination sector: its bytes are translated and sent (R254, R435), in ascending order for a linear COPY
(R420); a destination on path 0x01 faults (R166), and one whose page migrates is held (R174). `sector` is the destination address divided by 64. -/
def copyStore (s : State) (job sector : Nat) : State :=
  match jobOf s job with
  | none => s
  | some (b, j) =>
    let i := jobIss s b j
    let part := (s.context i.ctx).part
    let here := j.runs.filter fun r => globalRun j r && r.dst.toNat / 64 == sector && r.stage != 3
    match here with
    | [] => s
    | r0 :: _ =>
      let turn := j.form != 2 || j.runs.all fun r => !globalRun j r || r.stage == 3 || decide (sector ≤ r.dst.toNat / 64)
      if j.status != 0 || j.parked.isSome || !turn || !copyAwake s b || here.any (fun r => (runBytes s b j r).isNone) then s
      else
        let fail := fun c => modJob s b job fun j => { j with status := 1, fcode := c }
        let send := fun (s : State) (t : Tgt) (x : Xl) =>
          let p := placeOf t x false
          let bs := here.flatMap fun r => ((runBytes s b j r).getD []).zipIdx.map fun e => (r.dst.toNat % 64 + e.2, e.1)
          let sh : Share := { place := p.1, hold := x.hold, va := r0.dst.toNat, gen := genOf s i t x, parts := [{ lane := j.lane, off := p.2 }] }
          let home := match p.1 with | .home pa => some pa | _ => none
          let r := baseReq s i sh
          let s1 := addReq s { r with
            kind := .store, copy := some job, bytes := bs, stage := if home.isSome && !r.hold then .held else .egress
            acceptSeq := s.seq, deadline := copyDeadline s b j (home.getD 0) }
          pumpFabric (modJob s1 b job fun j => { j with
            runs := j.runs.map fun r => if globalRun j r ∧ r.dst.toNat / 64 = sector then { r with stage := 3 } else r })
        let go := fun (t : Tgt) va host => match xlate s i.core part va .write host with
          | .ok x => send (noteXl s i.core part va .write x) t x
          | .error .notPresent => copyFault s b j va .write
          | .error f => fail (xfaultCode f)
        match parseAddr s i r0.dst.toNat with
        | .error c => fail c
        | .ok (.glob va c) => if c then fail 0x06 else go (.glob va c) va false
        | .ok (.host va) => go (.host va) va true
        | .ok (.fab q off) => send s (.fab q off) {}
        | .ok _ => s

/-- A Q2 record (R254). DEDUCED (log 69). -/
def copyRecord (j : CopyJob) : W64 :=
  w64 (j.tag % 2 ^ 16 * 2 ^ 48 + j.fcode % 256 * 2 ^ 40 + j.status * 2 ^ 32 + min j.bytes (2 ^ 32 - 1))

/-- Everything a COPY had to move has been moved, or it has ended with a fault; blocks whose registers it writes are resident (R150). -/
def copyFinished (s : State) (b : Nat) (j : CopyJob) : Bool :=
  j.rbit.isNone && j.parked.isNone && copyAwake s b && (j.regs.all fun r => let k := s.block r.1; k.resident || k.ended) && (s.reqs.all fun r => r.copy != some j.id || r.stage == .done) &&
  decide (j.maxCtc ≤ coreCt s (s.block b).core) &&
  (j.status != 0 || (j.lines.isEmpty && j.runs.all fun r =>
    if globalRun j r then r.stage == 3 else !j.regs.isEmpty || !j.dsts.isEmpty)) &&
  (j.status != 0 || j.regs.isEmpty || j.runs.all fun r => (runBytes s b j r).isSome)

/-- A COPY completes: its registers are delivered, lines it did not reach are given up, its record is appended (R170, R252,
R254), before any take of Q2 in that cycle (R423). -/
def execCopyComplete (job : Nat) (s : State) : Out :=
  match jobOf s job with
  | none => .next s
  | some (b, j) =>
    if !copyFinished s b j || (queueUses s b 2).any (fun u => u.1) then .next s
    else
      let s1 := if j.status ≠ 0 ∨ j.regs.isEmpty then s else j.runs.foldl (fun t r =>
        match parseChip s (s.block b).ctx r.dst.toNat with
        | .ok (.reg h off) => putChip t (.reg h off) ((runBytes s b j r).getD [])
        | _ => t) s
      let n := if j.status ≠ 0 ∨ j.regs.isEmpty then 0 else (j.runs.map fun r => r.len).sum
      let s2 := j.regs.foldl (fun s r => modGroup s r.1 r.2.1 fun q => q.pendSub (regKeys r.2.2)) s1
      let s3 := modBlock s2 b fun k => { k with copies := k.copies.filter fun x => x.id != job }
      let s4 := j.lines.foldl (fun s l => lineDone s l.1 l.2) s3
      .next (pushAll s4 b 2 [copyRecord { j with bytes := j.bytes + n }])

/-! ## QTRY and QCNT (R421, R422) -/

/-- QTRY: an entry, exhaustion on Q3, or false; never parks. -/
def execQtry (w : Insn) (s : State) : Out :=
  .next (runWord 0xE4 w s noBump fun s i =>
    let esc := escapes s i true []
    if esc ≠ 0 then stop23 i 0x0B 0 esc
    else
      let n := match opA w with | .q n => n | _ => 0
      let wd := w.sub.toNat == 1
      let told := fun (s : State) (L : Nat) (b : Bool) => modGroup s i.b i.g fun q => q.resP 0 0 w.mod.toNat L b false
      .next (advance ((lanesOf i.ex).foldl (fun s L =>
        if n = 3 then
          match takeItem s i.b with
          | some (x, s) => told (deliverPop s i.b i.g L w (w64 x) wd) L true
          | none => if exhausted s i.b then told (deliverPop s i.b i.g L w (BitVec.allOnes 64) wd) L true else told s L false
        else match queueOf s i.b n with
          | x :: xs => told (deliverPop (setQueue s i.b n xs) i.b i.g L w x wd) L true
          | [] => told s L false) (guessDests s i [(opD w, two wd), (modP w, 1)])) i i.iss))

/-- The count of a queue (R421). -/
def queueCount (s : State) (b n : Nat) : Nat :=
  let c := s.core (s.block b).core
  match n with
  | 0 => (c.mmaQ.filter fun x => x.block == b).length
  | 1 => copiesOut s b
  | 3 => c.items.length
  | n => (queueOf s b n).length

def execQcnt (w : Insn) (s : State) : Out :=
  .next (runWord 0xE5 w s noBump fun s i =>
    aluBody 0 .n32 (opD w) [] (fun s i _ => queueCount s i.b (match opA w with | .q n => n | _ => 0)) s i)

end Sys2Proof.Machine
end

