-- ==== Sys2Proof/Machine/System.lean ====
section
/-! DEFINITION. System registers, traps and returns, TLBINV, WAITEV, PERF and BBLOG (R424–R432): class 0xF. -/

namespace Sys2Proof.Machine

/-! ## System registers (R107, R424–R426) -/

/-- The largest PCT of the live lanes. -/
def groupPct (q : Group) : Nat := maxOf ((lanesOf q.live).map fun L => (q.lane L).pct)

/-- GRPID … LCORE, by their place in the order of R107. -/
def placeReg (s : State) (b g n : Nat) : Nat :=
  let k := s.block b
  let r := recordOf s b
  [g, r.ngrp, k.blk, r.nblk, k.gx, k.gy, k.gz, r.gx, r.gy, r.gz, k.gangSeq, k.lcore].getD n 0

/-- The value SRD reads, in a lane (R424). -/
def sysReg (s : State) (i : Iss) (n L : Nat) : Nat :=
  let q := s.group i.b i.g
  let l := q.lane L
  let r := recordOf s i.b
  match n with
  | 0x000 => L
  | 0x001 => L / 4
  | 0x002 => i.pc
  | 0x003 => l.lap
  | 0x004 => l.hyp
  | 0x005 => l.item.toNat
  | 0x006 => l.hrefute
  | 0x007 => l.faultVa.toNat
  | 0x01C => q.live.toNat
  | 0x01D => groupPct q
  | 0x020 => q.trapCause.toNat
  | 0x021 => q.trapPc.toNat
  | 0x022 => q.faultMask.toNat
  | 0x023 => q.causeMask.toNat
  | 0x030 => (s.block i.b).mcReady
  | 0x040 => r.limit
  | 0x041 => r.lease
  | 0x042 => r.vatBase
  | 0x043 => r.vatSize
  | n => if 0x010 ≤ n ∧ n ≤ 0x01B then placeReg s i.b i.g (n - 0x010)
         else if 0x050 ≤ n ∧ n ≤ 0x053 then (tget {} q.perf (n - 0x050)).count else 0

def execSrd (w : Insn) (s : State) : Out :=
  let n := w.a.toNat
  let t : Ty := if srWidth n = some 64 then .b64 else .b32
  .next (runWord 0xF0 w s noBump fun s i => aluBody 0 t (opD w) [] (fun s i L => sysReg s i n L % 2 ^ tyBits t) s i)

/-- SWR: one write for the instruction (R426). -/
def execSwr (w : Insn) (s : State) : Out :=
  let n := w.a.toNat
  .next (runWord 0xF1 w s noBump fun s i =>
    let esc := escapes s i true [(opB w, spanB 0xF1 w)]
    if esc ≠ 0 then stop23 i 0x0B 0 esc
    else match lanesOf i.ex with
    | [] => .next (advance s i i.iss)
    | L :: _ =>
      let s1 := match n with
        | 0x021 => modGroup s i.b i.g fun q => { q with trapPc := w64 (val64 s i (opB w) L / 4 * 4) }
        | 0x022 => modGroup s i.b i.g fun q => { q with faultMask := q.faultMask &&& w32 (val32 s i (opB w) L) }
        | _ =>
          let v := (lanesOf i.ex).foldl (fun acc k => acc ||| val32 s i (opB w) k) 0
          setReady s i.b fun old => old ||| v
      .next (advance s1 i i.iss))

/-! ## TRAP, BKPT, RTE (R427, R428) -/

/-- A trap of the program's own, in stage 3, where any lane executes. -/
def softTrap (op : Nat) (w : Insn) (s : State) (cause : Nat) : State :=
  runWord op w s noBump fun s i =>
    let esc := escapes s i true []
    if esc ≠ 0 then stop23 i 0x0B 0 esc
    else if i.ex = 0 then .next (advance s i i.iss)
    else stop23 i cause (w.a.toNat % 256) i.ex

def execTrap (w : Insn) (s : State) : Out := .next (softTrap 0xF2 w s 0x18)
def execBkpt (w : Insn) (s : State) : Out := .next (softTrap 0xF6 w s 0x19)

/-- RTE: each executing lane is held with its form; trap mode ends with the last (R428). -/
def rteWord (w : Insn) (s : State) (next : Bool) : State :=
  runWord 0xF3 w s (rteBump next) fun s i =>
    let esc := escapes s i true []
    if esc ≠ 0 then stop23 i 0x0B 0 esc
    else
      .next (advance (modGroup s i.b i.g fun q => { q with
        rteHeld := q.rteHeld ||| i.ex
        rteNextM := if next then q.rteNextM ||| i.ex else q.rteNextM &&& ~~~i.ex }) i (i.iss &&& ~~~i.ex))

def execRte (w : Insn) (s : State) : Out := .next (rteWord w s false)
def execRteNext (w : Insn) (s : State) : Out := .next (rteWord w s true)

/-! ## TLBINV (R429) -/

/-- Distinct pages of the executing lanes, in ascending lane id; an address past 48 bits names none. DEDUCED (log 82). -/
def invPages (w : Insn) (s : State) (i : Iss) : List Nat :=
  dedup ((lanesOf i.ex).filterMap fun L =>
    let a := val64 s i (opA w) L
    if a ≥ 2 ^ 48 then none else some (a / 4096 * 4096))

/-- The first invalidation starts once every executing lane's releases are met and BUSY is clear; the issue set is held
until the last is acknowledged. R207 does not name its operand: a guessed address is read as it stands. DEDUCED (log 82).
DEDUCED (log 110). -/
def tlbinvWord (w : Insn) (s : State) (all : Bool) : State :=
  runWord 0xF4 w s noBump fun s i =>
    let part := (s.context i.ctx).part
    let p := s.part part
    let mine := match p.invBy with | some x => x.block == i.b && x.grp == i.g | none => false
    let esc := escapes s i true []
    if mine then .hold
    else if esc ≠ 0 then stop23 i 0x0B 0 esc
    else if !(lanesOf i.ex).all (fun L => releaseMet s i.b i.g L 3 s.seq) then .hold
    else
      let pages := if all then (if i.ex = 0 then [] else [0]) else invPages w s i
      match pages with
      | [] => .next (advance s i i.iss)
      | v :: vs =>
        if p.invBusy || p.invBy.isSome then .hold
        else .next (modPart (startInval s part (if all then none else some v)) part fun q => { q with
          invBy := some { block := i.b, grp := i.g, pc := w64 i.pc, mask := i.iss, left := vs } })

def execTlbinvPage (w : Insn) (s : State) : Out := .next (tlbinvWord w s false)
def execTlbinvAll (w : Insn) (s : State) : Out := .next (tlbinvWord w s true)

/-- The acknowledgement of an invalidation: BUSY clears, and a TLBINV goes on with its next page or to the next
instruction. DEDUCED (log 82). -/
def invAcked (s : State) (part : Nat) : State :=
  let p := s.part part
  let s := modPart s part fun q => { q with invBusy := false }
  match p.invBy with
  | none => s
  | some x =>
    let done := modPart s part fun q => { q with invBy := none }
    let q := s.group x.block x.grp
    if !(s.block x.block).resident || q.stopped then done
    else match x.left with
    | v :: vs => modPart (startInval s part (some v)) part fun q => { q with invBy := some { x with left := vs } }
    | [] =>
      let go := maskOf fun L => inMask x.mask L && inMask q.live L && (q.lane L).lpc == x.pc
      let k := s.block x.block
      afterIssue (advance done { b := x.block, g := x.grp, core := k.core, ctx := k.ctx, pc := x.pc.toNat, iss := x.mask, len := 8 } go)
        x.block x.grp

/-! ## WAITEV (R430) -/

/-- The events of a mask that hold for a block; `marks` were its counts when the wait began. -/
def eventsNow (s : State) (b m : Nat) (marks : Nat × Nat × Nat) : Nat :=
  let now := (s.block b).marks
  let on := fun (k : Nat) =>
    if k < 16 then !(if k = 3 then (itemsOf s b).isEmpty else (queueOf s b k).isEmpty)
    else if k = 16 then decide (marks.1 < now.1)
    else if k = 17 then decide (marks.2.1 < now.2.1)
    else decide (marks.2.2 < now.2.2)
  (List.range 19).foldl (fun acc k => if bit m k && on k then acc + 2 ^ k else acc) 0

/-- A mask with a bit that names no event, or a wait that nothing could end. -/
def badEvents (m timeout : Nat) : Bool := bits m 31 19 != 0 || bits m 1 0 != 0 || (m == 0 && timeout == 0)

/-- WAITEV. R207 names none of its operands, so that a guessed timeout is read as it stands. DEDUCED (log 110). -/
def execWaitev (w : Insn) (s : State) : Out :=
  .next (runWord 0xF5 w s noBump fun s i =>
    let esc := escapes s i true []
    if esc ≠ 0 then stop23 i 0x0B 0 esc
    else
      let m := fun L => val32 s i (opA w) L
      let t := fun L => val32 s i (opB w) L
      let bad := fun L => badEvents (m L) (t L)
      let s0 := advance (guessDests s i [(opD w, 1)]) i (i.iss &&& ~~~i.ex)
      let s1 := (lanesOf i.ex).foldl (fun s L =>
        if bad L then s
        else
          let e := eventsNow s i.b (m L) (s.block i.b).marks
          if e ≠ 0 then advance (modGroup s i.b i.g fun q => q.resLane 0 0 false (opD w) L e false) i (oneLane L)
          else parkLane s i L { cause := pkWaitev, x := w64 (m L), y := w64 (t L), insn := some w }) s0
      match laneFaults i.ex (fun L => if bad L then some 0x06 else none) (fun _ => 0) with
      | none => .next s1
      | some tr => .partial_ s1 tr)

/-! ## PERF and BBLOG (R431, R432) -/

/-- A PERF word acts once, where any lane executes. -/
def perfWord (w : Insn) (s : State) (f : State → Iss → Perf → Perf) : State :=
  runWord 0xF7 w s noBump fun s i =>
    let esc := escapes s i true []
    if esc ≠ 0 then stop23 i 0x0B 0 esc
    else if i.ex = 0 then .next (advance s i i.iss)
    else .next (advance (modGroup s i.b i.g fun q => { q with perf := tmod {} q.perf (w.a.toNat % 4) (f s i) }) i i.iss)

def execPerfStart (w : Insn) (s : State) : Out :=
  .next (perfWord w s fun s i _ => { on := true, event := val64 s i (opB w) ((lanesOf i.ex).headD 0), count := 0 })
def execPerfStop (w : Insn) (s : State) : Out := .next (perfWord w s fun _ _ p => { p with on := false })
/-- DEDUCED (log 86). -/
def execPerfClear (w : Insn) (s : State) : Out := .next (perfWord w s fun _ _ p => { p with count := 0 })

/-- The interval between program records of a context has passed. -/
def logReady (s : State) (ctx : Nat) : Bool := match (s.context ctx).lastLog with | some t => decide (t + 1500 ≤ s.ct) | none => true

/-- Record one program record of a block's context. -/
def logRecord (s : State) (b code : Nat) (tag : W64) : State :=
  let k := s.block b
  let s := blackBox s { kind := 11, part := (s.context k.ctx).part, core := k.lcore, code := code, tag := tag } (some (repCore k.core))
  modCtx s k.ctx fun c => { c with lastLog := some s.ct }

/-- BBLOG: recorded at once where the interval has passed, else the issue set is held until its record. -/
def execBblog (w : Insn) (s : State) : Out :=
  .next (runWord 0xF8 w s noBump fun s i =>
    let esc := escapes s i true [(opA w, 1), (opB w, 2)]
    let c := s.context i.ctx
    if c.logWait.any fun x => x.block == i.b && x.grp == i.g then .hold
    else if esc ≠ 0 then stop23 i 0x0B 0 esc
    else match lanesOf i.ex with
    | [] => .next (advance s i i.iss)
    | L :: _ =>
      let code := val32 s i (opA w) L
      let tag := w64 (val64 s i (opB w) L)
      if logReady s i.ctx && c.logWait.isEmpty then .next (advance (logRecord s i.b code tag) i i.iss)
      else .next (modCtx s i.ctx fun c => { c with logWait := c.logWait ++
        [{ block := i.b, grp := i.g, pc := w64 i.pc, mask := i.iss, code := code, tag := tag }] }))

/-- The oldest held entry of a context whose block is resident is recorded, and its issue set is released (R432). -/
def execProgramRecordDue (ctx : Nat) (s : State) : Out :=
  match (s.context ctx).logWait.find? fun x => (s.block x.block).resident && !(s.group x.block x.grp).stopped with
  | none => .next s
  | some x =>
    if !logReady s ctx then .next s
    else
      let k := s.block x.block
      let q := s.group x.block x.grp
      let go := maskOf fun L => inMask x.mask L && inMask q.live L && (q.lane L).lpc == x.pc
      let s1 := modCtx (logRecord s x.block x.code x.tag) ctx fun c => { c with logWait := c.logWait.erase x }
      .next (afterIssue (advance s1 { b := x.block, g := x.grp, core := k.core, ctx := k.ctx, pc := x.pc.toNat, iss := x.mask, len := 8 } go)
        x.block x.grp)

end Sys2Proof.Machine
end

