-- ==== Sys2Proof/Machine/Boundary.lean ====
section
/-! DEFINITION. What happens to a group at an instruction boundary instead of a word: pending traps and machine checks
(R202, R249, R264, R269, R270, R66), the redirect of refuted lanes (R223); and the release of lanes that wait for a time or
an event (R395, R430). -/

namespace Sys2Proof.Machine

/-- The group stands at a boundary at which it may do something: it is not parked, stopped or held (R127, R266). -/
def boundaryOpen (s : State) (b g : Nat) : Bool :=
  let q := s.group b g
  q.exists_ && !q.ended && !q.pfParked && !q.stopped && running s && (s.block b).resident && (issueSet q).isSome

/-- Causes that are not precise: PEER_LOST, MACHINE_CHECK, HOST_LINK (R256). -/
def asyncCause (c : Nat) : Bool := c == 0x16 || c == 0x17 || c == 0x1A

/-- The first pending trap that the group may take: a machine check waits until its error event has its number (R269). -/
def nextPend (q : Group) (f : Nat → Bool) : Option PendTrap :=
  q.pend.find? fun p => f p.cause && q.takes p && p.ticket.isNone

/-- The live lanes that had a request failed by a lost peer, for PEER_LOST, or by the host link, for HOST_LINK (R66, R270). -/
def failedLanes (q : Group) (cause : Nat) : Mask :=
  maskOf fun L => inMask q.live L && (if cause = 0x16 then (q.lane L).failed else (q.lane L).failedHost)

/-- The trap that a pending one becomes: every live lane for an imprecise cause, else its own lanes (R66, R269, R270). FAULT_VA is of a
saved trap alone that is taken again, and of no imprecise one (R279). -/
def pendReq (q : Group) (p : PendTrap) : TrapReq :=
  let own := p.mask &&& q.live
  let async := asyncCause p.cause
  { cause := p.cause, detail := p.detail, eseq := p.eseq
    fm := if async && p.cm.isNone then q.live else own
    cm := match p.cm with
      | some m => m &&& q.live
      | none => if p.cause = 0x17 then q.live else if async then failedLanes q p.cause else own
    va := match p.cm with
      | some m => if async then [] else (lanesOf m).map fun L => (L, (q.lane L).faultVa.toNat)
      | none => [] }

/-- Take a pending trap; one whose lanes have all exited is dropped. -/
def takePend (s : State) (b g : Nat) (p : PendTrap) : State :=
  let q := s.group b g
  let t := pendReq q p
  let pc := match p.pc, issueSet q with | some a, _ => a.toNat | none, some e => e.1 | none, none => 0
  let s1 := modGroup s b g fun r =>
    let r := { r with pend := r.pend.erase p }
    r.mapLanes (BitVec.allOnes 32) fun _ l =>
      { l with failed := l.failed && p.cause != 0x16, failedHost := l.failedHost && p.cause != 0x1A }
  if t.fm = 0 then s1 else takeTrap s1 b g pc t

/-- Take the first pending trap of the causes named, where the group is at a boundary. -/
def takeNext (s : State) (b g : Nat) (f : Nat → Bool) : Option State :=
  if !boundaryOpen s b g then none else (nextPend (s.group b g) f).map (takePend s b g)

/-- A trap that a group would take in this cycle is entered before the group stops, and the group is saved in trap mode (R266). -/
def trapsFirst (s : State) (bs : List Nat) : State :=
  bs.foldl (fun s b => (tkeys (s.block b).groups).foldl (fun s g => (takeNext s b g fun _ => true).getD s) s) s

/-- A machine check is taken (R269). -/
def execMachineCheckTaken (b g : Nat) (s : State) : Out := .next ((takeNext s b g (· == 0x17)).getD s)
/-- A group that had a host request failed takes HOST_LINK (R270). -/
def execHostLinkTrap (b g : Nat) (s : State) : Out := .next ((takeNext s b g (· == 0x1A)).getD s)

/-! ## Redirect (R223) -/

/-- Waits of an MMA or BBLOG whose issue set holds the lane: the word is issued again by the others. -/
def dropLaneWaits (s : State) (b g L : Nat) : State :=
  let k := s.block b
  let mine := fun (x y : Nat) (m : Mask) => x == b && y == g && inMask m L
  let s := modCore s k.core fun c => { c with mmaWait := c.mmaWait.filter fun x => !mine x.block x.grp x.mask }
  modCtx s k.ctx fun c => { c with logWait := c.logWait.filter fun x => !mine x.block x.grp x.mask }

/-- Send a lane whose HYP was refuted to its handler: released from any parking, HYP the refuted node's parent, LAP + 1,
HREFUTE the id and the reason. -/
def redirectLane (s : State) (b g L : Nat) : State :=
  match ((s.group b g).lane L).refuted with
  | none => s
  | some (id, parent, handler, reason) =>
    let t := landing s b handler.toNat
    modLane (dropLaneWaits s b g L) b g L fun l =>
      { l with park := {}, refuted := none, lpc := w64 t, lap := raisedLap s L l, hyp := parent, hrefute := id + 256 * reason }

/-- Lanes of the issue set that are to be redirected. -/
def refutedLanes (q : Group) : List Nat :=
  match issueSet q with
  | none => []
  | some e => (lanesOf e.2).filter fun L => (q.lane L).refuted.isSome

/-- Redirect them all. -/
def redirectAll (s : State) (b g : Nat) : State :=
  afterIssue ((refutedLanes (s.group b g)).foldl (fun s L => redirectLane s b g L) s) b g

def execRefuteRedirect (b g L : Nat) (s : State) : Out :=
  .next (if boundaryOpen s b g && (refutedLanes (s.group b g)).contains L then afterIssue (redirectLane s b g L) b g else s)

/-! ## Wakes (R395, R430) -/

/-- A lane is parked with a cause in a group that runs. -/
def parkedNow (s : State) (b g L cause : Nat) : Bool :=
  let q := s.group b g
  let l := q.lane L
  running s && (s.block b).resident && !q.stopped && !q.ended && inMask q.live L && l.park.cause == cause && l.refuted.isNone

/-- A lane in SLEEP whose target has come is eligible again (R395). -/
def sleepWake (s : State) (b g L : Nat) : State :=
  let l := (s.group b g).lane L
  if parkedNow s b g L pkSleep && decide (l.park.x.toNat ≤ coreCt s (s.block b).core) then unparkNext s b g (oneLane L) 8 else s

def execSleepWake (b g L : Nat) (s : State) : Out := .next (sleepWake s b g L)

/-- A WAITEV lane goes on: D receives the events that hold, or 0 once the timeout has passed (R430). -/
def waitevWake (s : State) (b g L : Nat) : State :=
  let l := (s.group b g).lane L
  let e := eventsNow s b (l.park.x.toNat % 2 ^ 32) l.park.marks
  let late := l.park.y != 0 && decide (l.park.since + l.park.y.toNat ≤ coreCt s (s.block b).core)
  if parkedNow s b g L pkWaitev && (e != 0 || late) then
    let d := opD (l.park.insn.getD {})
    unparkNext (landed s (modGroup s b g fun q => q.resLane 0 0 false d L e false) b g (vRegsOf d 1 L)) b g (oneLane L) 8
  else s

def execWaitevRelease (b g L : Nat) (s : State) : Out := .next (waitevWake s b g L)

/-- A lane that waits at an MMA or COPY for the line of its block or record goes on once the line is present: the word is not issued again,
and makes its checks and takes its effect now (R415, R419, R445). DEDUCED (log 70). -/
def blockWake (s : State) (b g L : Nat) : State :=
  let q := s.group b g
  let l := q.lane L
  if !parkedNow s b g L pkBlock || q.pfParked || (q.trapMode && !inMask q.handlerSet L) || !linePresent s b l.park.x.toNat then s
  else match l.park.insn with
  | none => s
  | some w =>
    let k := s.block b
    let i : Iss := { b := b, g := g, core := k.core, ctx := k.ctx, pc := l.lpc.toNat, iss := oneLane L, ex := oneLane L, len := formBytes w.form }
    let u := modLane s b g L fun l => { l with park := {} }
    match (if l.park.op = 0xE3 then copyParked w u i else if mmaWaiting u i then .hold else mmaBlock w u i L) with
    | .next t => afterIssue t b g
    | .trap t => takeTrap u b g i.pc t
    | _ => s

/-- The lanes of a block whose time, event or line has come go on, and arrivals that waited are counted: each is eligible from the first
core cycle in which its condition holds (R136, R142, R390). -/
def wakeBlock (s : State) (b : Nat) : State :=
  (tkeys (s.block b).groups).foldl (fun s g =>
    let t := if (s.group b g).arrs.isEmpty then s else arriveDue s b g
    (lanes32.filter fun L => let c := ((t.group b g).lane L).park.cause; c == pkSleep || c == pkWaitev || c == pkBlock).foldl (fun s L =>
      blockWake (waitevWake (sleepWake s b g L) b g L) b g L) t) s

/-- The lanes of every block of a core. -/
def wakeCore (s : State) (core : Nat) : State := (blocksOn s core).foldl wakeBlock s

end Sys2Proof.Machine
end

