-- ==== Sys2Proof/Machine/Special.lean ====
section
/-! DEFINITION. The special functions (R353, R354). A correctly rounded result and every exact case are computed. Any other
result is a free value of the part, held to the accuracy that the manual states: the exact result is enclosed by rational
arithmetic, and the free value is taken where it lies within the bound. -/

namespace Sys2Proof.Machine

/-! ## Enclosures

An enclosure (lo, hi, e) says that the exact result lies between lo × 2^e and hi × 2^e. Sums are computed with 160
fractional bits, and the ends leave 2^20 units for what the series cut off. -/

abbrev Range_ := Int × Int × Int

/-- Fractional bits of the fixed-point sums. -/
def fx : Nat := 160

/-- ln 2 in units of 2^−160, and π in units of 2^−320. -/
def ln2Fx : Nat := 0xB17217F7D1CF79ABC9E3B39803F2F6AF40F34326
/-- DEDUCED (log 63). -/
def piFx : Nat := 0x3243F6A8885A308D313198A2E03707344A4093822299F31D0082EFA98EC4E6C89452821E638D01377

/-- π as the manual says it is held, to 128 bits: two before the point, 126 after it. -/
def pi128Fx : Nat := piFx / 2 ^ 194 * 2 ^ 194

/-- An enclosure around a fixed-point sum. -/
def around (x : Int) (e : Int) : Range_ := (x - 2 ^ 20, x + 2 ^ 20, e)

/-- The part of an enclosure between lo and hi, in its own units: bounds that the function keeps. -/
def Range_.within (r : Range_) (lo hi : Int) : Range_ := (max r.1 lo, min r.2.1 hi, r.2.2)

/-- m × 2^e in units of 2^−p, rounded down. -/
def toFx (p : Nat) (m : Nat) (e : Int) : Nat :=
  if 0 ≤ e + p then m <<< (e + p).toNat else m >>> (-(e + p)).toNat

/-- Terms x^k / k! summed from the term t of index k, every step-th kept with alternating sign when alt. -/
def expSum (x : Nat) : Nat → Nat → Nat → Nat
  | 0, _, _ => 0
  | n + 1, k, t => t + expSum x n (k + 1) (t * x / 2 ^ fx / (k + 1))

/-- e^x for 0 ≤ x < 1. -/
def expFx (x : Nat) : Nat := expSum x 50 0 (2 ^ fx)

/-- 2^x for 0 ≤ x < 1. -/
def exp2Fx (x : Nat) : Nat := expFx (x * ln2Fx / 2 ^ fx)

/-- Terms t, −t·x²/((k+1)(k+2)), … of a sine (k = 1) or a cosine (k = 0). -/
def trigSum (x2 : Nat) : Nat → Nat → Nat → Int
  | 0, _, _ => 0
  | n + 1, k, t => (t : Int) - trigSum x2 n (k + 2) (t * x2 / 2 ^ fx / ((k + 1) * (k + 2)))

/-- Terms z^(2i+1) / (2i+1). -/
def atanhSum (z2 : Nat) : Nat → Nat → Nat → Nat
  | 0, _, _ => 0
  | n + 1, k, t => t / k + atanhSum z2 n (k + 2) (t * z2 / 2 ^ fx)

/-- 1/√(m × 2^e), m not 0. -/
def rsqrtRange (m : Nat) (e : Int) : Range_ :=
  let k := (e % 2).toNat
  let t := fx + Nat.log2 m + 1
  let r := isqrt (2 ^ (2 * t) / (m <<< k))
  (r, r + 1, -(t : Int) - (e - k) / 2)

/-- 2^v for v = ±m × 2^e, not integral and below 2^12 in magnitude: between two neighbouring powers of 2. -/
def exp2Range (s : Bool) (m : Nat) (e : Int) : Range_ :=
  let x : Int := if s then -(toFx fx m e : Int) else toFx fx m e
  let n := x / 2 ^ fx
  (around (exp2Fx ((x % 2 ^ fx).toNat)) (n - fx)).within (2 ^ fx) (2 ^ (fx + 1))

/-- log2 of m × 2^e, m not 0. -/
def log2Range (m : Nat) (e : Int) : Range_ :=
  let k := Nat.log2 m
  let y := toFx fx m (-(k : Int))
  let z := (y - 2 ^ fx) * 2 ^ fx / (y + 2 ^ fx)
  let l := 2 * atanhSum (z * z / 2 ^ fx) 60 1 z * 2 ^ fx / ln2Fx
  around (((k : Int) + e) * 2 ^ fx + l) (-(fx : Int))

/-- x − x³/2 < f(x) < x for x = m × 2^e below 2^−40, where f is the sine or the hyperbolic tangent; the signs turn with x. -/
def nearRange (s : Bool) (m : Nat) (e : Int) : Range_ :=
  let r : Range_ := ((m : Int) * 2 ^ 80 - 2 ^ (Nat.log2 m + 2), (m : Int) * 2 ^ 80, e - 80)
  if s then (-r.2.1, -r.1, r.2.2) else r

/-- Sine or cosine of m × 2^e reduced against the given π; neither passes 1. DEDUCED (log 63). -/
def angleRange (cosine s : Bool) (pi m : Nat) (e : Int) : Range_ :=
  let a := toFx 320 m e % (2 * pi)
  let q := a / (pi / 2)
  let z := (a - q * (pi / 2)) / 2 ^ 160
  let z2 := z * z / 2 ^ fx
  let sn := trigSum z2 26 1 z
  let cs := trigSum z2 26 0 (2 ^ fx)
  let sine := match q % 4 with | 0 => sn | 1 => cs | 2 => -sn | _ => -cs
  let cosi := match q % 4 with | 0 => cs | 1 => -sn | 2 => -cs | _ => sn
  (around (if cosine then cosi else if s then -sine else sine) (-(fx : Int))).within (-2 ^ fx) (2 ^ fx)

/-- The exact result, and the result of the reduction that the manual names; they part only for large arguments.
DEDUCED (log 63). -/
def angleRanges (cosine s : Bool) (m : Nat) (e : Int) : List Range_ :=
  if !cosine && decide ((Nat.log2 m : Int) + e < -40) then [nearRange s m e] else [angleRange cosine s piFx m e, angleRange cosine s pi128Fx m e]

/-- tanh of ±m × 2^e, m not 0. -/
def tanhRange (s : Bool) (m : Nat) (e : Int) : Range_ :=
  let flip := fun r : Range_ => if s then ((-r.2.1, -r.1, r.2.2) : Range_) else r
  let top := (Nat.log2 m : Int) + e
  if top < -40 then nearRange s m e
  else if 6 ≤ top then flip (2 ^ fx - 2 ^ 20, 2 ^ fx, -(fx : Int))
  else
    let q := 2 * toFx fx m e * 2 ^ fx / ln2Fx
    let t := exp2Fx (2 ^ fx - 1 - q % 2 ^ fx) / 2 ^ (q / 2 ^ fx + 1)
    flip ((around ((2 ^ fx - t : Int) * 2 ^ fx / (2 ^ fx + t)) (-(fx : Int))).within 0 (2 ^ fx))

/-! ## Accuracy -/

/-- An end of an enclosure as a value. -/
def fvOf (x e : Int) : Fv := .fin (decide (x < 0)) x.natAbs e

/-- x + y ≤ z for values x × 2^ex and so on. -/
def sumLe (x ex y ey z ez : Int) : Bool :=
  let t := min ex (min ey ez)
  decide (x * 2 ^ (ex - t).toNat + y * 2 ^ (ey - t).toNat ≤ z * 2 ^ (ez - t).toNat)

/-- m = 2^k for some k. -/
def isPow2 (m : Nat) : Bool := m != 0 && m == 2 ^ Nat.log2 m

/-- The bound of R353 for .f32, as (units, exponent). The ulp is that of the exact result: of the end nearer zero. -/
def boundOf (op : Nat) (f : Fmt) (v : Fv) (r : Range_) : Int × Int :=
  let ulp := max ((Nat.log2 (min r.1.natAbs r.2.1.natAbs) : Int) + r.2.2) (1 - biasOf f) - fracBits f
  match op with
  | 0x59 => (1, ulp)
  | 0x5C => match v with
    | .fin _ m e =>
      let x := (Nat.log2 m : Int) + e
      if x = -1 ∨ x = 0 ∨ (x = 1 ∧ isPow2 m) then (1, -22) else (2, ulp)
    | _ => (2, ulp)
  | 0x5D | 0x5E => (1, -21)
  | _ => (2, ulp)

/-- A code that the accuracy permits for a result in the enclosure: within the bound for .f32, one of the two neighbours
for a 16-bit format. -/
def withinAccuracy (op : Nat) (f : Fmt) (v : Fv) (sat : Bool) (code : Nat) (r : Range_) : Bool :=
  if f = .f32 then
    match decodeF f code with
    | .fin s m e =>
      let c : Int := if s then -(m : Int) else m
      let b := boundOf op f v r
      sumLe r.1 r.2.2 (-b.1) b.2 c e && sumLe c e (-b.1) b.2 r.2.1 r.2.2
    | _ => false
  else
    [(roundF f 2 sat (fvOf r.1 r.2.2)).1, (roundF f 3 sat (fvOf r.1 r.2.2)).1,
     (roundF f 2 sat (fvOf r.2.1 r.2.2)).1, (roundF f 3 sat (fvOf r.2.1 r.2.2)).1].contains code

/-- The result of an inexact special function: one fixed value for each input, left open within the accuracy of R353.
DESIGN CHOICE (log 3). -/
def openResult (op : Nat) (f : Fmt) (code : Nat) : Nat := Config.special op (fmtBits f + fracBits f) code % 2 ^ fmtBits f

/-- The value an inexact result takes: the part's own where the accuracy permits it, else the one nearest the result. A result that
overflows follows R233 (R353), and counts as non-finite though it be saturated (R237). DESIGN CHOICE (log 3). -/
def openRounded (op : Nat) (f : Fmt) (code : Nat) (sat : Bool) (rs : List Range_) : Rounded :=
  let r := openResult op f code
  match rs with
  | [] => (r, nonFinite f r)
  | x :: _ =>
    let near := roundF f 0 sat (fvOf x.1 x.2.2)
    if near.2 && (roundF f 0 sat (fvOf x.2.1 x.2.2)).2 then near
    else if rs.any (withinAccuracy op f (decodeF f code) sat r) then (r, nonFinite f r)
    else near

/-- An exact value that is integral. -/
def intValue (m : Nat) (e : Int) : Option Nat :=
  if 0 ≤ e then some (m <<< e.toNat) else if m % 2 ^ ((-e).toNat) = 0 then some (m / 2 ^ ((-e).toNat)) else none

/-- One element of a special function: OP 0x58–0x5F (R353). Special values and exact cases are computed; the rest is the
part's fixed, unpublished value within the accuracy. -/
def special1 (op : Nat) (f : Fmt) (mode : Nat) (sat : Bool) (code : Nat) : Rounded :=
  let one : Fv := .fin false 1 0
  match decodeF f code with
  | .nan => (nanCode f, true)
  | v =>
  match op with
  | 0x58 => roundF f mode sat (divF one v)
  | 0x59 =>
    match v with
    | .fin s m e =>
      if m = 0 then roundF f 0 sat (.inf s)
      else if s then (nanCode f, true)
      else if isPow2 m && decide (((Nat.log2 m : Int) + e) % 2 = 0) then roundF f 0 sat (.fin false 1 (-((Nat.log2 m : Int) + e) / 2))
      else openRounded op f code sat [rsqrtRange m e]
    | .inf s => if s then (nanCode f, true) else (0, false)
    | .nan => (nanCode f, true)
  | 0x5A => roundF f mode sat (sqrtF v)
  | 0x5B =>
    match v with
    | .inf s => if s then (0, false) else roundF f 0 sat (.inf false)
    | .fin s m e =>
      match (if m = 0 then some 0 else intValue m e) with
      | some n =>
        let r : Int := if s then -(n : Int) else n
        -- far outside every format's range the result overflows or underflows (R233)
        let r := max (-5000) (min 5000 r)
        if r < 1 - biasOf f - fracBits f then openRounded op f code sat [(1, 1, r)] else roundF f 0 sat (.fin false 1 r)
      | none =>
        if decide ((Nat.log2 m : Int) + e ≥ 12) then openRounded op f code sat [if s then (1, 1, -5000) else (1, 1, 5000)]
        else openRounded op f code sat ([exp2Range s m e])
    | .nan => (nanCode f, true)
  | 0x5C =>
    match v with
    | .inf s => if s then (nanCode f, true) else roundF f 0 sat (.inf false)
    | .fin s m e =>
      if m = 0 then roundF f 0 sat (.inf true)
      else if s then (nanCode f, true)
      else if isPow2 m then roundF f 0 sat (ofInt ((Nat.log2 m : Int) + e))
      else openRounded op f code sat [log2Range m e]
    | .nan => (nanCode f, true)
  | 0x5D =>
    match v with
    | .fin s m e => if m = 0 then (code, false) else openRounded op f code sat (angleRanges false s m e)
    | _ => (nanCode f, true)
  | 0x5E =>
    match v with
    | .fin s m e => if m = 0 then roundF f 0 sat one else openRounded op f code sat (angleRanges true s m e)
    | _ => (nanCode f, true)
  | _ =>
    match v with
    | .fin s m e => if m = 0 then (code, false) else openRounded op f code sat [tanhRange s m e]
    | .inf s => roundF f 0 sat (.fin s 1 0)
    | .nan => (nanCode f, true)

/-- A special function on a type, each element on its own. DESIGN CHOICE (log 3). -/
def special (op : Nat) (t : Ty) (mode : Nat) (sat : Bool) (a : Nat) : Rounded :=
  perElem t fun k => special1 op (fmtOf t) mode sat (elem t a k)

end Sys2Proof.Machine
end

