-- ==== Sys2Proof/Machine/FloatPoint.lean ====
section
/-! DEFINITION. Floating-point arithmetic, minimum and maximum, classification and special functions (R347–R355):
classes 0x4 and 0x5 and packed arithmetic, OP 0x68–0x6D. -/

namespace Sys2Proof.Machine

/-- Lanes whose result is non-finite under a trap: those concerned, or all of a scalar form (R237, R349). -/
def nonFiniteLanes (i : Iss) (scalar tnf : Bool) (bad : Nat → Bool) : Mask :=
  if !tnf then 0
  else if scalar then (match lanesOf i.ex with | L :: _ => if bad L then i.ex else 0 | [] => 0)
  else maskOf fun L => inMask i.ex L && bad L

/-- The answer of a word whose lanes `bad` write nothing and raise NONFINITE while the rest complete (R237, R258). -/
def nonFiniteEnd (s : State) (i : Iss) (bad : Mask) : Res :=
  let s := advance s i (i.iss &&& ~~~bad)
  if bad = 0 then .next s else .partial_ s { cause := 0x0E, fm := bad, cm := bad }

/-- The body of a word with a rounded result in each executing lane (R349). -/
def fpBody (lat : Nat) (t : Ty) (d : Opd) (tnf : Bool) (srcs : List (Opd × Nat)) (f : State → Iss → Nat → Rounded)
    (s : State) (i : Iss) : Res :=
  if isS d && escapes s i true [] ≠ 0 then stop23 i 0x0B 0 (escapes s i true [])
  else
    let bad := nonFiniteLanes i (isS d) tnf fun L => (f s i L).2
    let gb := fun L => inMask i.gg L || srcs.any fun o => guessOf s i o.1 o.2 L
    nonFiniteEnd (putD s { i with gg := i.gg &&& ~~~bad } lat t d (i.ex &&& ~~~bad) (fun L => (f s i L).1) gb) i bad

/-- One, two and three sources of the word's type. -/
def fp1 (op lat : Nat) (w : Insn) (s : State) (f : Nat → Rounded) : State :=
  let t := tyD op w
  runWord op w s noBump fun s i => fpBody lat t (opD w) (fTnf w) [(opA w, spanA op w)]
    (fun s i L => f (valOf s i t (opA w) L).1) s i
def fp2 (op lat : Nat) (w : Insn) (s : State) (f : Nat → Nat → Rounded) : State :=
  let t := tyD op w
  runWord op w s noBump fun s i => fpBody lat t (opD w) (fTnf w) [(opA w, spanA op w), (opB w, spanB op w)]
    (fun s i L => f (valOf s i t (opA w) L).1 (valOf s i t (opB w) L).1) s i
def fp3 (op lat : Nat) (w : Insn) (s : State) (f : Nat → Nat → Nat → Rounded) : State :=
  let t := tyD op w
  runWord op w s noBump fun s i =>
    fpBody lat t (opD w) (fTnf w) [(opA w, spanA op w), (opB w, spanB op w), (opC w, spanC op w)]
    (fun s i L => f (valOf s i t (opA w) L).1 (valOf s i t (opB w) L).1 (valOf s i t (opC w) L).1) s i

/-! ## Add, subtract, multiply, fused multiply-add (R350) -/

def addW (op lat : Nat) (w : Insn) (s : State) : State := fp2 op lat w s (arith2 addOp (tyD op w) (fMode w) (fSat w))
def subW (op lat : Nat) (w : Insn) (s : State) : State := fp2 op lat w s (arith2 subOp (tyD op w) (fMode w) (fSat w))
def mulW (op lat : Nat) (w : Insn) (s : State) : State := fp2 op lat w s (arith2 mulOp (tyD op w) (fMode w) (fSat w))
def fmaW (op lat : Nat) (w : Insn) (s : State) : State := fp3 op lat w s (fma (tyD op w) (fMode w) (fSat w))

def execFadd (w : Insn) (s : State) : Out := .next (addW 0x40 5 w s)
def execFsub (w : Insn) (s : State) : Out := .next (subW 0x41 5 w s)
def execFmul (w : Insn) (s : State) : Out := .next (mulW 0x42 5 w s)
def execFfma (w : Insn) (s : State) : Out := .next (fmaW 0x43 5 w s)
def execDadd (w : Insn) (s : State) : Out := .next (addW 0x50 8 w s)
def execDmul (w : Insn) (s : State) : Out := .next (mulW 0x51 8 w s)
def execDfma (w : Insn) (s : State) : Out := .next (fmaW 0x52 8 w s)
def execFaddPacked8 (w : Insn) (s : State) : Out := .next (addW 0x68 5 w s)
def execFsubPacked8 (w : Insn) (s : State) : Out := .next (subW 0x69 5 w s)
def execFmulPacked8 (w : Insn) (s : State) : Out := .next (mulW 0x6A 5 w s)
def execFfmaPacked8 (w : Insn) (s : State) : Out := .next (fmaW 0x6B 5 w s)

/-! ## Minimum, maximum, classification (R351, R352) -/

def minmaxW (op : Nat) (isMax : Bool) (w : Insn) (s : State) : State :=
  fp2 op 5 w s (minmax (tyD op w) isMax (w.sub.toNat == 1))

def execFmin (w : Insn) (s : State) : Out := .next (minmaxW 0x44 false w s)
def execFmax (w : Insn) (s : State) : Out := .next (minmaxW 0x45 true w s)
def execFminPacked8 (w : Insn) (s : State) : Out := .next (minmaxW 0x6C false w s)
def execFmaxPacked8 (w : Insn) (s : State) : Out := .next (minmaxW 0x6D true w s)

def execFclass (w : Insn) (s : State) : Out :=
  .next (alu1 0x46 w s 5 .b32 (classOf (fmtOf (tyD 0x46 w))))

/-! ## Special functions (R353, R354) -/

def specialW (op : Nat) (w : Insn) (s : State) : State := fp1 op 12 w s (special op (tyD op w) (fMode w) (fSat w))

def execFrcp (w : Insn) (s : State) : Out := .next (specialW 0x58 w s)
def execFrsq (w : Insn) (s : State) : Out := .next (specialW 0x59 w s)
def execFsqrt (w : Insn) (s : State) : Out := .next (specialW 0x5A w s)
def execFex2 (w : Insn) (s : State) : Out := .next (specialW 0x5B w s)
def execFlg2 (w : Insn) (s : State) : Out := .next (specialW 0x5C w s)
def execFsin (w : Insn) (s : State) : Out := .next (specialW 0x5D w s)
def execFcos (w : Insn) (s : State) : Out := .next (specialW 0x5E w s)
def execFtanh (w : Insn) (s : State) : Out := .next (specialW 0x5F w s)

end Sys2Proof.Machine
end

