-- ==== Sys2Proof/Machine/Convert.lean ====
section
/-! DEFINITION. Conversion through format slots, integer and width conversions, packing (R356–R363): OP 0x60–0x65. -/

namespace Sys2Proof.Machine

/-- The register j after the one an operand names. -/
def opPlus (j : Nat) : Opd → Opd
  | .v n => .v (n + j)
  | o => o

/-- The body of a word that writes n consecutive V registers per lane, with one guess bit and one non-finite test. -/
def regsBody (d : Opd) (n : Nat) (tnf : Bool) (srcs : List (Opd × Nat)) (f : State → Iss → Nat → List Rounded)
    (s : State) (i : Iss) : Res :=
  let bad := nonFiniteLanes i false tnf fun L => (f s i L).any fun r => r.2
  let i2 := { i with gg := i.gg &&& ~~~bad }
  let gb := fun L => inMask i.gg L || srcs.any fun o => guessOf s i o.1 o.2 L
  let s2 := (List.range n).foldl (fun t j =>
    putD t i2 5 .b32 (opPlus j d) (i.ex &&& ~~~bad) (fun L => ((f s i L).getD j (0, false)).1) gb) s
  nonFiniteEnd s2 i bad

/-- Elements packed from the low end, w bits each, with the OR of their non-finite tests. -/
def packElems (w : Nat) (es : List Rounded) : Rounded :=
  (es.zipIdx.foldl (fun acc e => acc + e.1.1 <<< (w * e.2)) 0, es.any fun r => r.2)

/-- Encode n registers through a slot, divided by a scale where one is given (R356, R357). -/
def encLane (dsc n : Nat) (a : Opd) (scale : Option (Nat → Fv)) (s : State) (i : Iss) (L : Nat) : Rounded :=
  packElems (fmtBits (slotFmt dsc)) ((List.range n).map fun j =>
    encElem dsc (val32 s i (opPlus j a) L) (scale.map fun f => f L))

/-- Element j of a packed source under a slot's format. -/
def slotElem (dsc x j : Nat) : Nat := let b := fmtBits (slotFmt dsc); x >>> (b * j) % 2 ^ b

/-- CVT (R356). -/
def execCvt (w : Insn) (s : State) : Out :=
  let n := countOf w
  .next (runWord 0x60 w s noBump fun s i =>
    let d := slotD s i.b w.sub.toNat
    if w.mod.toNat = 0 then
      regsBody (opD w) 1 (slotTnf d) [(opA w, n)] (fun s i L => [encLane d n (opA w) none s i L]) s i
    else
      regsBody (opD w) n (slotTnf d) [(opA w, 1)]
        (fun s i L => (List.range n).map fun j => decElem d (slotElem d (val32 s i (opA w) L) j)) s i)

/-- SCALE: .enc, .dec and .mk (R357, R358). -/
def execScale (w : Insn) (s : State) : Out :=
  let n := countOf w
  .next (runWord 0x64 w s noBump fun s i =>
    let d := slotD s i.b w.sub.toNat
    let sc := fun s i L => scaleOf (valOf s i .f32 (opB w) L).1
    match w.mod.toNat with
    | 0 => regsBody (opD w) 1 (slotTnf d) [(opA w, n), (opB w, 1)]
        (fun s i L => [encLane d n (opA w) (some (sc s i)) s i L]) s i
    | 1 =>
      let add := fun s i L => if w.form = .c then some (readFtz (slotFtz d) .f32 (valOf s i .f32 (opC w) L).1) else none
      let srcs := [(opA w, 1), (opB w, 1)] ++ if w.form = .c then [(opC w, 1)] else []
      regsBody (opD w) n (slotTnf d) srcs
        (fun s i L => (List.range n).map fun j => decScaled d (slotElem d (val32 s i (opA w) L) j) (sc s i L) (add s i L)) s i
    | _ => regsBody (opD w) 1 (slotTnf d) [(opA w, 1)] (fun s i L => [mkScale d (val32 s i (opA w) L)]) s i)

/-- Source type, result type and value of CVTI by SUB (R360). -/
def cvtiTypes (w : Insn) : Ty × Ty :=
  let t := (tyInt w.ty.toNat).getD .i32
  match w.sub.toNat with
  | 0 => (fpxOf w, t) | 1 => (t, fpxOf w) | 2 => (.f32, .f64) | 3 => (.f64, .f32) | 4 => (.f16, .f32) | 5 => (.f32, .f16)
  | 6 => (.bf16, .f32) | _ => (.f32, .bf16)

def cvtiFn (sub mode : Nat) (ta tr : Ty) (x : Nat) : Nat :=
  match sub with
  | 0 => f2i mode tr (decodeF (fmtOf ta) x)
  | 1 => (roundF (fmtOf tr) mode false (ofInt (asInt ta x))).1
  | _ => (roundF (fmtOf tr) mode false (decodeF (fmtOf ta) x)).1

def cvtiOf (w : Insn) : Nat → Nat := cvtiFn w.sub.toNat (fMode w) (cvtiTypes w).1 (cvtiTypes w).2

def execCvti (w : Insn) (s : State) : Out :=
  let ts := cvtiTypes w
  .next (runWord 0x61 w s noBump fun s i => aluBody 5 ts.2 (opD w) [(opA w, spanA 0x61 w)]
    (fun s i L => cvtiOf w (valOf s i ts.1 (opA w) L).1) s i)

/-- FRND (R361). -/
def execFrnd (w : Insn) (s : State) : Out :=
  let t := fpxOf w
  .next (runWord 0x65 w s noBump fun s i => aluBody 5 t (opD w) [(opA w, spanA 0x65 w)]
    (fun s i L => frnd (fmtOf t) (fMode w) (valOf s i t (opA w) L).1) s i)

/-- Nar(x): the low k bits, clamped first (R362). -/
def narrow (clamp k x : Nat) : Nat :=
  match clamp with
  | 1 => wrap k (clampS k (sext 32 x))
  | 2 => wrap k (clampU k (sext 32 x))
  | _ => x % 2 ^ k

def packFn (half : Bool) (clamp a b c : Nat) : Nat :=
  if half then narrow clamp 16 a + 2 ^ 16 * narrow clamp 16 b
  else narrow clamp 8 a + 2 ^ 8 * narrow clamp 8 b + 2 ^ 16 * (c % 2 ^ 16)

def execPack (w : Insn) (s : State) : Out :=
  let f := packFn (w.ty.toNat == 1) w.sub.toNat
  .next (if w.form = .c then alu3 0x62 w s 5 .b32 .b32 .b32 .b32 f else alu2 0x62 w s 5 .b32 .b32 .b32 fun a b => f a b 0)

/-- UNPK: element q of A, extended (R363). -/
def unpkFn (t : Ty) (a b : Nat) : Nat :=
  let k := tyBits t
  let q := b % (32 / k)
  let x := a >>> (k * q) % 2 ^ k
  if isI t then wrap 32 (sext k x) else x

def execUnpk (w : Insn) (s : State) : Out :=
  .next (alu2 0x63 w s 5 .b32 .b32 .b32 (unpkFn (tyD 0x63 w)))

end Sys2Proof.Machine
end

