-- ==== Sys2Proof/Machine/CrossLane.lean ====
section
/-! DEFINITION. Cross-lane and quad instructions (R117, R241, R398–R407): class 0xC. -/

namespace Sys2Proof.Machine

/-- What a cross-lane word does once its lanes have joined: lanes whose guess escapes, and the new state. `m` gives the
member mask of each joined lane. -/
structure Joined where
  esc : State → Iss → (Nat → Mask) → Mask
  act : State → Iss → (Nat → Mask) → State

/-- A cross-lane word (R398, R399): arriving lanes and lanes parked here whose tests hold execute together, with the largest
LAP among them; arriving lanes whose tests fail park with their masks. Lanes that an exit has released execute with the masks they parked
with, and make no further test. The word waits for data on its way to a register that it reads in another lane (R127). -/
def crossWord (op : Nat) (w : Insn) (s : State) (mask : Opd) (j : Joined) : State :=
  runWord op w s noBump fun s i =>
    let q := s.group i.b i.g
    let parked := parkedAt q pkCross (w64 i.pc)
    let here := i.iss ||| parked
    let kept := fun L => (q.lane L).park.cause == pkCross
    let m := fun L => if kept L then (q.lane L).park.x.setWidth 32 else w32 (val32 s i mask L)
    let joined := maskOf fun L => inMask here L &&
      ((inMask i.iss L && kept L) || (m L &&& q.live &&& ~~~oneLane L &&& ~~~here) == 0)
    let ji := withGuard s { i with iss := joined } w.g
    let reads := (lanesOf joined).foldl (fun x L => x ||| (m L &&& here)) joined
    let esc := j.esc s ji m
    if pendingAny q ((lanesOf reads).flatMap fun L => opKeys (opA w) (spanA op w) L ++ opKeys (opB w) 1 L) then .hold
    else if esc ≠ 0 then stop23 ji 0x0B 0 esc
    else
      let late := i.iss &&& ~~~joined
      let s1 := (lanesOf late).foldl (fun t L => parkLane t i L { cause := pkCross, x := (m L).setWidth 64, insn := some w }) s
      if joined = 0 then .next s1
      else
        let lap := maxOf ((lanesOf joined).map fun L => (q.lane L).lap)
        let s2 := advance (j.act s1 ji m) ji joined
        .next (modGroup s2 i.b i.g fun r => r.mapLanes joined fun _ l => { l with park := {}, lap := lap })

/-- Guess bits of an operand over a set of lanes. -/
def guessAny (s : State) (i : Iss) (o : Opd) (k : Nat) (m : Mask) : Bool := (lanesOf m).any fun L => guessOf s i o k L

def liveOf (s : State) (i : Iss) : Mask := (s.group i.b i.g).live

/-- A result in every executing lane of the joined set, 6 cycles after issue. -/
def crossPut (s : State) (i : Iss) (t : Ty) (d : Opd) (f : Nat → Nat) (gb : Nat → Bool) : State :=
  putD s i 6 t d i.ex f fun L => inMask i.gg L || gb L

/-- The mask that a scalar form uses: that of the lowest joined lane with a true guard. -/
def scalarMask (i : Iss) (m : Nat → Mask) : Mask := match lanesOf i.ex with | L :: _ => m L | [] => 0

/-- Lanes in which a guess escapes into an S register: guessed values among those read, or a guessed guard (R400). Lanes
that do not execute are not reported; where no guessed lane executes, every executing lane is. DEDUCED (log 18). -/
def scalarEscape (s : State) (i : Iss) (a : Opd) (k : Nat) (x : Mask) : Mask :=
  let g := maskOf fun L => inMask x L && guessOf s i a k L
  if i.ex = 0 then 0
  else escapes s i true [] ||| (if g = 0 then 0 else if g &&& i.ex = 0 then i.ex else g &&& i.ex)

/-! ## SHFL (R401) -/

/-- Source lane of SHFL, before the membership test. -/
def shflSrc (sub L b : Nat) : Int :=
  match sub with
  | 0 => (b % 32 : Nat)
  | 1 =>
    let w := 2 ^ min 5 (bits b 10 8)
    (w * (L / w) + (L % w + b % 32) % w : Nat)
  | 2 => (L : Int) + sext 32 b
  | _ => (L ^^^ b % 32 : Nat)

def execShfl (w : Insn) (s : State) : Out :=
  let t := tyD 0xC0 w
  let mask := if w.form = .c then opC w else .imm (-1)
  .next (crossWord 0xC0 w s mask {
    esc := fun _ _ _ => 0
    act := fun s i m =>
      let ok := fun L =>
        let x := shflSrc w.sub.toNat L (val32 s i (opB w) L)
        decide (0 ≤ x) && decide (x ≤ 31) && inMask (m L &&& liveOf s i) x.toNat
      let src := fun L => if ok L then (shflSrc w.sub.toNat L (val32 s i (opB w) L)).toNat else L
      let gB := fun L => guessOf s i (opB w) 1 L
      let s1 := crossPut s i t (opD w) (fun L => (valOf s i t (opA w) (src L)).1)
        fun L => guessOf s i (opA w) (spanA 0xC0 w) (src L) || gB L
      if w.form = .c ∧ bit (xmod w) 4 then crossPut s1 i .b32 (.p (xmod w % 16)) (fun L => b2n (ok L)) gB else s1 })

/-! ## VOTE and MATCH (R402, R403) -/

/-- Lanes of X in which the predicate is true. -/
def votes (s : State) (i : Iss) (a : Opd) (x : Mask) : Mask := maskOf fun k => inMask x k && (valOf s i .b32 a k).1 == 1

def voteFn (sub : Nat) (m x : Mask) : Nat :=
  match sub with
  | 0 => b2n (m == x)
  | 1 => b2n (m != 0)
  | 2 => b2n (m == 0 || m == x)
  | 3 => m.toNat
  | 4 => b2n (m == 0)
  | 5 => (lanesOf m).length
  | _ => (lanesOf m).headD 32

def execVote (w : Insn) (s : State) : Out :=
  .next (crossWord 0xC1 w s (opB w) {
    esc := fun s i m => if scalarForm w then scalarEscape s i (opA w) 1 (scalarMask i m &&& liveOf s i) else 0
    act := fun s i m =>
      let x := fun L => (if scalarForm w then scalarMask i m else m L) &&& liveOf s i
      crossPut s i .b32 (opD w) (fun L => voteFn w.sub.toNat (votes s i (opA w) (x L)) (x L))
        fun L => guessAny s i (opA w) 1 (x L) })

def matchFn (sub : Nat) (v : Nat → Nat) (x : Mask) (L : Nat) : Nat :=
  let same := maskOf fun k => inMask x k && v k == v L
  let lower := (lanesOf same).filter fun k => decide (k < L)
  match sub with
  | 0 => same.toNat
  | 1 => match lanesOf x with
    | [] => 0
    | k :: ks => if ks.all fun j => v j == v k then x.toNat else 0
  | 2 => lower.length
  | _ => b2n lower.isEmpty

/-- Lanes whose value MATCH reads for lane L beside its own: every member, or those below the lane under .rank and .lead (R403). -/
def matchSet (sub : Nat) (x : Mask) (L : Nat) : Mask := if sub < 2 then x else maskOf fun k => inMask x k && decide (k < L)

def execMatch (w : Insn) (s : State) : Out :=
  let t := tyD 0xC2 w
  .next (crossWord 0xC2 w s (opB w) {
    esc := fun _ _ _ => 0
    act := fun s i m =>
      let x := fun L => m L &&& liveOf s i
      crossPut s i .b32 (opD w) (fun L => matchFn w.sub.toNat (fun k => (valOf s i t (opA w) k).1) (x L) L)
        fun L => (w.sub.toNat != 1 && guessOf s i (opA w) (spanA 0xC2 w) L) ||
          guessAny s i (opA w) (spanA 0xC2 w) (matchSet w.sub.toNat (x L) L) })

/-! ## RDX and SCAN (R241, R404, R405) -/

/-- Op(x, y) of R404. -/
def redOp (sub md : Nat) (t : Ty) (x y : Nat) : Nat :=
  match sub with
  | 0 => (x + y) % 2 ^ tyBits t
  | 1 => iminFn t x y
  | 2 => imaxFn t x y
  | 3 => x &&& y
  | 4 => x ||| y
  | 5 => x ^^^ y
  | 6 => (arith2 addOp t (md % 4) false x y).1
  | _ => (minmax t (md % 2 == 1) false x y).1

/-- Id(op) of R241. -/
def redId (sub md : Nat) (t : Ty) : Nat :=
  let w := tyBits t
  match sub with
  | 1 => if isI t then 2 ^ (w - 1) - 1 else 2 ^ w - 1
  | 2 => if isI t then 2 ^ (w - 1) else 0
  | 3 => 2 ^ w - 1
  | 6 => signBit (fmtOf t)
  | 7 => infCode (fmtOf t) (md % 2 == 1)
  | _ => 0

/-- One step of the tree at distance d (R241). -/
def redStep (op : Nat → Nat → Nat) (d : Nat) (v : List Nat) : List Nat :=
  lanes32.map fun L => op (v.getD (min L (L ^^^ d)) 0) (v.getD (max L (L ^^^ d)) 0)

/-- Reduce(op, v, M) (R241). -/
def reduce (sub md : Nat) (t : Ty) (v : Nat → Nat) (m : Mask) : Nat :=
  let start := lanes32.map fun L => if inMask m L then v L else redId sub md t
  ([16, 8, 4, 2, 1].foldl (fun x d => redStep (redOp sub md t) d x) start).headD 0

def execRdx (w : Insn) (s : State) : Out :=
  let t := tyD 0xC3 w
  .next (crossWord 0xC3 w s (opB w) {
    esc := fun s i m => if scalarForm w then scalarEscape s i (opA w) (spanA 0xC3 w) (scalarMask i m &&& liveOf s i) else 0
    act := fun s i m =>
      let x := fun L => (if scalarForm w then scalarMask i m else m L) &&& liveOf s i
      crossPut s i t (opD w) (fun L => reduce w.sub.toNat (w.mod.toNat % 8) t (fun k => (valOf s i t (opA w) k).1) (x L))
        fun L => guessAny s i (opA w) (spanA 0xC3 w) (x L) })

/-- Members of a scan: at or below the lane, or strictly below it under .excl (R405). -/
def scanSet (excl : Bool) (x : Mask) (L : Nat) : Mask := maskOf fun k => inMask x k && (if excl then decide (k < L) else decide (k ≤ L))

def execScan (w : Insn) (s : State) : Out :=
  let t := tyD 0xC4 w
  .next (crossWord 0xC4 w s (opB w) {
    esc := fun _ _ _ => 0
    act := fun s i m =>
      let x := fun L => scanSet (bit w.mod.toNat 3) (m L &&& liveOf s i) L
      crossPut s i t (opD w) (fun L => reduce w.sub.toNat (w.mod.toNat % 8) t (fun k => (valOf s i t (opA w) k).1) (x L))
        fun L => guessAny s i (opA w) (spanA 0xC4 w) (x L) })

/-! ## ELECT (R406) -/

def execElect (w : Insn) (s : State) : Out :=
  .next (crossWord 0xC5 w s (opB w) {
    esc := fun _ _ _ => 0
    act := fun s i m =>
      let x := fun L => m L &&& liveOf s i
      let on := fun L => (lanesOf (x L)).filter fun k => (guardOf s i.b i.g w.g k).1
      let chosen := fun L => if w.sub.toNat = 0 then (on L).head? else (on L).getLast?
      crossPut s i .b32 (opD w) (fun L => b2n (chosen L == some L)) fun L => (x L &&& i.gg) != 0 })

/-! ## QSWP and QBC (R117, R407) -/

/-- A quad word: A of a lane of the quad, helpers included; it waits for data on its way to a helper's register. -/
def quadWord (op : Nat) (w : Insn) (s : State) (src : State → Iss → Nat → Nat) (gB : State → Iss → Nat → Bool) : State :=
  let t := tyD op w
  runWord op w s noBump fun s i =>
    let ks := (lanesOf i.ex).flatMap fun L => opKeys (opA w) (spanA op w) (src s i L)
    if pendingAny (s.group i.b i.g) ks then .hold
    else if shortRead s i ks then stopShort i
    else .next (advance (crossPut s i t (opD w) (fun L => (valOf s i t (opA w) (src s i L)).1)
      fun L => guessOf s i (opA w) (spanA op w) (src s i L) || gB s i L) i i.iss)

def execQswp (w : Insn) (s : State) : Out :=
  .next (quadWord 0xC6 w s (fun _ _ L => L ^^^ (w.sub.toNat + 1)) fun _ _ _ => false)
def execQbc (w : Insn) (s : State) : Out :=
  .next (quadWord 0xC7 w s (fun s i L => 4 * (L / 4) + val32 s i (opB w) L % 4) fun s i L => guessOf s i (opB w) 1 L)

end Sys2Proof.Machine
end

