-- ==== Sys2Proof/Machine/Gcm.lean ====
section
/-! DEFINITION. AES-GCM-256 as its standard defines it, the bytes of a packet's flits (R51), and the sealing of a link block (R60, R61).
PRESUMED (log 46). -/

namespace Sys2Proof.Machine

/-! ## AES-256 -/

/-- Twice a byte in the field of AES. -/
def aesTwice (x : Byte) : Byte := x <<< 1 ^^^ (if x.msb then 0x1B else 0)

/-- A product in the field of AES. -/
def aesMul (x y : Byte) : Byte :=
  ((List.range 8).foldl (fun (acc : Byte × Byte) k => (if y.getLsbD k then acc.1 ^^^ acc.2 else acc.1, aesTwice acc.2)) (0, x)).1

/-- The inverse of a byte, its 254th power; 0 has 0. -/
def aesInverse (x : Byte) : Byte :=
  ((List.range 7).foldl (fun (acc : Byte × Byte) _ => let q := aesMul acc.2 acc.2; (aesMul acc.1 q, q)) (1, x)).1

/-- The substitution of a byte. -/
def aesSub (x : Byte) : Byte :=
  let y := aesInverse x
  [1, 2, 3, 4].foldl (fun z k => z ^^^ y.rotateLeft k) (y ^^^ 0x63)

def xorAll (a b : List Byte) : List Byte := List.zipWith (· ^^^ ·) a b

/-- Word n of the key schedule, from the words before it. -/
def aesNextWord (ws : List (List Byte)) (n : Nat) : List Byte :=
  let t := ws.getD (n - 1) []
  let u := if n % 8 = 0 then xorAll (t.rotateLeft 1 |>.map aesSub) [BitVec.ofNat 8 (2 ^ (n / 8 - 1)), 0, 0, 0]
           else if n % 8 = 4 then t.map aesSub else t
  xorAll (ws.getD (n - 8) []) u

/-- The fifteen round keys of a key of 32 bytes. -/
def aesKeys (key : List Byte) : List (List Byte) :=
  let w0 := (List.range 8).map fun k => (key.drop (4 * k)).take 4
  let ws := (List.range 52).foldl (fun ws k => ws ++ [aesNextWord ws (k + 8)]) w0
  (List.range 15).map fun r => ((ws.drop (4 * r)).take 4).flatten

/-- Rows of the state are turned: byte r of column c comes from column c + r. -/
def aesTurn (st : List Byte) : List Byte := (List.range 16).map fun k => st.getD ((k + 4 * (k % 4)) % 16) 0

/-- A column is multiplied by the fixed polynomial. -/
def aesMix (st : List Byte) : List Byte :=
  (List.range 16).map fun k =>
    let at_ := fun (j : Nat) => st.getD (k / 4 * 4 + (k + j) % 4) 0
    aesTwice (at_ 0) ^^^ (aesTwice (at_ 1) ^^^ at_ 1) ^^^ at_ 2 ^^^ at_ 3

/-- A block of 16 bytes under the round keys. -/
def aesBlock (ks : List (List Byte)) (bs : List Byte) : List Byte :=
  let st := (List.range 13).foldl (fun st r => xorAll (aesMix (aesTurn (st.map aesSub))) (ks.getD (r + 1) [])) (xorAll bs (ks.headD []))
  xorAll (aesTurn (st.map aesSub)) (ks.getD 14 [])

/-! ## GCM -/

/-- Bytes as a number, the first the most significant. -/
def bigNum (bs : List Byte) : Nat := bs.foldl (fun n b => 256 * n + b.toNat) 0

/-- A product in the field of GCM; bit 127 is the coefficient of 1. -/
def gcmMul (x y : BitVec 128) : BitVec 128 :=
  ((List.range 128).foldl (fun (acc : BitVec 128 × BitVec 128) k =>
    (if x.getLsbD (127 - k) then acc.1 ^^^ acc.2 else acc.1,
     (acc.2 >>> 1) ^^^ (if acc.2.getLsbD 0 then BitVec.ofNat 128 (0xE1 * 2 ^ 120) else 0))) (0, y)).1

/-- The hash of blocks of 16 bytes. -/
def gcmHash (h : BitVec 128) (bs : List Byte) : BitVec 128 :=
  (List.range ((bs.length + 15) / 16)).foldl (fun z k =>
    let b := (bs.drop (16 * k)).take 16
    gcmMul (z ^^^ BitVec.ofNat 128 (bigNum (b ++ List.replicate (16 - b.length) 0))) h) 0

/-- The key stream from counter n on, over the bytes of a text. -/
def gcmStream (ks : List (List Byte)) (iv bs : List Byte) : List Byte :=
  (List.range ((bs.length + 15) / 16)).flatMap fun k =>
    xorAll ((bs.drop (16 * k)).take 16) (aesBlock ks (iv ++ (leBytes 4 (k + 2)).reverse))

/-- The tag of a cipher text with no further authenticated data. -/
def gcmTag (ks : List (List Byte)) (iv cipher : List Byte) : Nat :=
  let h := BitVec.ofNat 128 (bigNum (aesBlock ks (List.replicate 16 0)))
  let pad := List.replicate ((16 - cipher.length % 16) % 16) (0 : Byte)
  let z := gcmHash h (cipher ++ pad ++ (leBytes 16 (8 * cipher.length)).reverse)
  (z ^^^ BitVec.ofNat 128 (bigNum (aesBlock ks (iv ++ [0, 0, 0, 1])))).toNat

/-- Seal a text: the cipher text and its tag. -/
def gcmSeal (key iv bs : List Byte) : List Byte × Nat :=
  let ks := aesKeys key
  let c := gcmStream ks iv bs
  (c, gcmTag ks iv c)

/-- Open a sealed text; none where the tag fails. -/
def gcmOpen (key iv cipher : List Byte) (tag : Nat) : Option (List Byte) :=
  let ks := aesKeys key
  if gcmTag ks iv cipher = tag then some (gcmStream ks iv cipher) else none

/-! ## Flits (R51) -/

/-- Flits of a packet on the wire: a read asks for DLEN flits and carries none. -/
def wireFlits (k : Packet) : Nat := if k.typ = 0 then 1 else 1 + k.dlen

/-- Bytes that are cut or filled with zeros to a length. -/
def fitBytes (n : Nat) (bs : List Byte) : List Byte := bs.take n ++ List.replicate (n - bs.length) 0

/-- The 128-bit header. -/
def headerOf (k : Packet) : Nat :=
  k.dest % 64 + 2 ^ 6 * (k.src % 64) + 2 ^ 12 * (k.vc % 4) + 2 ^ 14 * b2n k.detour + 2 ^ 15 * (k.typ % 32) + 2 ^ 20 * (k.dlen % 8) +
  2 ^ 23 * (k.tag % 4096) + 2 ^ 35 * (k.part % 16) + 2 ^ 39 * (k.addr % 2 ^ 48) + 2 ^ 87 * (k.aop % 64) + 2 ^ 93 * (k.status % 4) +
  2 ^ 95 * (k.reserved % 2 ^ 33)

/-- Types whose header flit holds operands, and the type whose header flit holds a mask. -/
def holdsOperands (typ : Nat) : Bool := typ == 2 || typ == 3 || typ == 4

/-- A packet's flits: bytes in the order of R232, the mask before the operands. DESIGN CHOICE (log 49). -/
def flitBytes (k : Packet) : List Byte :=
  leBytes 16 (headerOf k) ++ leBytes 32 (ofBits (fitBits 256 (if k.typ = 1 then k.mask else []))) ++
  fitBytes 16 (if holdsOperands k.typ then k.data else []) ++
  (if k.typ = 0 then [] else fitBytes (64 * k.dlen) (if holdsOperands k.typ then [] else k.data))
where
  fitBits (n : Nat) (bs : List Bool) : List Bool := bs.take n
  ofBits (bs : List Bool) : Nat := bs.foldr (fun b x => 2 * x + b2n b) 0

/-- The packet of a header flit and the data flits after it. -/
def packetFrom (bs : List Byte) : Packet :=
  let h := ofLeBytes (bs.take 16)
  let m := ofLeBytes ((bs.drop 16).take 32)
  let typ := bits h 19 15
  let n := bits h 22 20
  { dest := bits h 5 0, src := bits h 11 6, vc := bits h 13 12, detour := bit h 14, typ := typ, dlen := n, tag := bits h 34 23
    part := bits h 38 35, addr := bits h 86 39, aop := bits h 92 87, status := bits h 94 93, reserved := bits h 127 95
    mask := if typ = 1 then (List.range (64 * n)).map fun k => bit m k else []
    data := if holdsOperands typ then (bs.drop 48).take 16 else if typ = 0 then [] else (bs.drop 64).take (64 * n) }

/-- The packets of a block's flits. -/
def packetsFrom : Nat → List Byte → List Packet
  | 0, _ => []
  | n + 1, bs => if bs.length < 64 then [] else let k := packetFrom bs; k :: packetsFrom n (bs.drop (64 * wireFlits k))

/-! ## Sealed blocks (R60, R61) -/

/-- The initialisation vector: the sequence number in 64 bits, then the direction's salt. DESIGN CHOICE (log 49). -/
def blockIv (seq salt : Nat) : List Byte := leBytes 8 seq ++ leBytes 4 salt

/-- Seal a block's packets under a key. -/
def sealBlock (key : List Byte) (seq salt : Nat) (ks : List Packet) : List Byte × Nat := gcmSeal key (blockIv seq salt) (ks.flatMap flitBytes)

/-- The packets of a received block; none where its tag fails. -/
def openBlock (key : List Byte) (seq salt : Nat) (cipher : List Byte) (tag : Nat) : Option (List Packet) :=
  (gcmOpen key (blockIv seq salt) cipher tag).map (packetsFrom 8)

end Sys2Proof.Machine
end

