-- ==== Sys2Proof/Machine/Health.lean ====
section
/-! DEFINITION. Machine checks (R92, R102, R269), the release of what a context holds (R85, R122, R212, R267), the host's view
of host memory through the host-line buffer (R73, R74), and sync words (R84). -/

namespace Sys2Proof.Machine

/-! ## Contexts and machine checks -/

/-- Live contexts, all or of one partition. -/
def liveCtxs (s : State) : List Nat := (tkeys s.ctxs).filter fun h => (s.context h).live
def partCtxs (s : State) (p : Nat) : List Nat := (liveCtxs s).filter fun h => (s.context h).part == p

/-- Blocks of a context that have not ended, by handle. -/
def blocksOf (s : State) (h : Nat) : List Nat := (tkeys s.blocks).filter fun b => let k := s.block b; k.ctx == h && !k.ended

/-- Apply a change to every group of a context that has not ended. -/
def modGroupsOf (s : State) (h : Nat) (f : Nat → Nat → Group → Group) : State :=
  (blocksOf s h).foldl (fun s b => (tkeys (s.block b).groups).foldl (fun s g =>
    modGroup s b g fun q => if q.exists_ && !q.ended then f b g q else q) s) s

/-- A machine check reaches each group of a context; it is taken at the group's next boundary (R269). -/
def checkCtx (s : State) (h : Nat) : State :=
  let n := lastError s
  modGroupsOf s h fun _ _ q => q.pendTrap { cause := 0x17, eseq := n.1, ticket := n.2 }

/-- The host learns of every machine check on vector 3 (R92). -/
def checkHost (s : State) : State := sendMsi s 3

/-- Machine check to a list of contexts and the host. -/
def checkCtxs (s : State) (hs : List Nat) : State := checkHost (hs.foldl checkCtx s)

/-- Partitions that own a physical address (R89). -/
def partOwns (s : State) (p pa : Nat) : Bool :=
  let q := s.part p
  q.set && decide (q.gran0 * 2 ^ 30 ≤ pa) && decide (pa < (q.gran0 + q.granN) * 2 ^ 30)

/-- Contexts that own the data at a physical address: those of the partition that owns it (R102). -/
def ownersOf (s : State) (pa : Nat) : List Nat := (liveCtxs s).filter fun h => partOwns s (s.context h).part pa

/-- Ticks of an hour. -/
def hourTicks : Nat := 3600 * 1500000000

/-- An error in a core's SRAM that ECC corrects: category 2; more than 64 in one hour, CORE_HEALTH (R92, R102). -/
def coreCorrected (s : State) (c : Nat) : State :=
  let times := ((s.core c).eccTimes.filter fun t => decide (s.ct < t + hourTicks)) ++ [s.ct]
  let s1 := modCore (recordError s (repCore c) 2 0 0) c fun k => { k with eccTimes := times }
  if 64 < times.length then raiseAlert s1 3 else s1

/-- A clean copy in a core is invalidated, to be fetched again (R102). -/
def dropCopy (s : State) (c store key : Nat) : State :=
  modCore s c fun k =>
    if store = 0 then { k with l1 := tdel k.l1 key }
    else if store = 1 then { k with const := tdel k.const key }
    else { k with icache := tdel k.icache key }

/-- An error in a core's SRAM (R102): register files, scratchpad, accumulators, L1, constant store, instruction cache, item queue and
truth slots. Lost data raises a machine check in the context whose block holds it, and at the host. DESIGN CHOICE (log 60). -/
def sramCore (s : State) (c : Nat) (f : SramFault) : State :=
  match f with
  | .coreCorrected => coreCorrected s c
  | .coreClean store key => recordError (dropCopy s c store key) (repCore c) 2 0 0
  | .coreLost b =>
    let s1 := recordError s (repCore c) 3 0 0
    checkCtxs s1 (match b with
      | some b => if (blocksOn s c).contains b then [(s.block b).ctx] else []
      | none => [])
  | _ => s

/-! ## The vat (R224) -/

/-- Entries of a context's vat (R224). -/
def vatEntries (s : State) (ctx : Nat) : Nat := (s.context ctx).record.vatSize / 128

/-- The page of a vat entry, and the physical address of its byte 0, where the device may write it. -/
def vatXl (s : State) (h entry : Nat) : Option (Nat × Nat × Xl) :=
  match (s.hctxOf h).ctx with
  | none => none
  | some c =>
    let va := (s.context c).record.vatBase + 128 * entry
    match xlate s 64 (s.context c).part va .write false with
    | .ok x => if x.tier then none else some ((s.context c).part, va, x)
    | .error _ => none

def vatPa (s : State) (h entry : Nat) : Option Nat := (vatXl s h entry).map fun e => e.2.2.pa

/-- Write a version to its vat entry (R224). -/
def writeVat (s : State) (v : Version) : State :=
  match vatXl s v.hctx v.entry with
  | none => s
  | some (part, va, x) =>
    devBytes (notePte s part va .write x.entry) x.pa (((List.range 64).map fun k => tget 0 v.data k) ++ leBytes 8 v.mask.toNat ++
      leBytes 8 (v.sector * 64 % 2 ^ 39 + v.id * 2 ^ 40 + 2 ^ 48) ++ leBytes 8 (v.va % 2 ^ 48 / 64 * 64) ++ List.replicate 40 0)

/-- A freed vat entry is no longer in use: a write of the device as that of a version (R153, R224). -/
def freeVat (s : State) (v : Version) : State :=
  if !v.stored then s else match vatXl s v.hctx v.entry with
    | some (part, va, x) => devNum (notePte s part va .write x.entry) (x.pa + 0x48) 8 0
    | none => s

/-- Key of an L2 line: the physical line and the hypothesis tag of its sectors (R162). -/
def l2Key (line h id : Nat) : Nat := line + 2 ^ 31 * (256 * h + id)
def keyLine (key : Nat) : Nat := key % 2 ^ 31
def keyTag (key : Nat) : Nat := key / 2 ^ 31

/-- Versions leave the slices: their tagged lines are dropped (R222). -/
def dropVersions (s : State) (mine : Version → Bool) : State :=
  let out := s.versions.filter mine
  { s with
    versions := s.versions.filter fun v => !mine v
    l2 := s.l2.filter fun e => !(keyTag e.1 != 0 && out.any fun v => e.1 == l2Key (v.sector / 4) v.hctx v.id) }

/-! ## What a context holds -/

/-- A hypothesis context is freed: its versions are dropped everywhere, and no sector or line keeps its tags (R85, R212, R222). -/
def endHyps (s : State) (h : Nat) : State :=
  match (s.context h).hctx with
  | none => s
  | some x =>
    let old := fun (v : Sector) => v.hctx == x && v.hyp != 0
    let s := (s.versions.filter fun v => v.hctx == x).foldl freeVat s
    let s := dropVersions s fun v => v.hctx == x
    { s with
      hctxs := tset {} s.hctxs x {}
      cores := tmapv (fun c : Core => { c with l1 := c.l1.filter fun e => !old e.2, const := c.const.filter fun e => !old e.2 }) s.cores
      memStacks := tmapv (fun k : Stack => { k with msc := k.msc.filter fun e => !(e.2.hctx == x && e.2.hyp != 0) }) s.memStacks }

/-- The command at the head of a matrix queue starts in the next cycle where none had started (R247). -/
def nextStarts (now : Nat) (q : List MmaCmd) : List MmaCmd :=
  match q with
  | m :: ms => (if m.start = 2 ^ 64 then { m with start := now + 1 } else m) :: ms
  | [] => []

/-- Leave a core: a block's tokens are freed, its commands and lent registers go (R119, R250). Tiles keep their contents. -/
def leaveCore (s : State) (b : Nat) : State :=
  let k := s.block b
  modCore s k.core fun c => { c with
    tiles := (tmapv (fun t : Tile => if t.token = .vec b ∨ t.token = .mat b then { t with token := .free, vec := [] } else t) c.tiles).filter
      fun e => decide (e.2 ≠ {})
    mmaQ := nextStarts c.cycles (c.mmaQ.filter fun m => m.block != b)
    mmaWait := c.mmaWait.filter fun m => m.block != b
    lent := c.lent.filter fun e => e.1 / 2 ^ 13 != b }

/-- Drop a block altogether. -/
def dropBlock (s : State) (b : Nat) : State :=
  let s1 := if (s.block b).resident then leaveCore s b else s
  { s1 with blocks := tdel s1.blocks b }

/-- A load whose fill has lost the request that it joined sends its own (R159). -/
def rejoin (rs : List Req) : List Req :=
  rs.map fun r => match r.join with
    | some id => if rs.any fun x => x.id == id then r else { r with join := none, stage := .egress }
    | none => r

/-- Every gang, queue, request and hypothesis of a context is dropped and its slot is free (R13, R122, R267). -/
def freeCtx (s : State) (h : Nat) : State :=
  let s1 := endHyps ((blocksOf s h).foldl dropBlock s) h
  { s1 with
    ctxs := tdel s1.ctxs h
    blocks := s1.blocks.filter fun e => e.2.ctx != h
    reqs := rejoin (s1.reqs.filter fun r => r.ctx != h || r.fromHost || r.inb.isSome)
    cores := tmapv (fun c : Core => if c.itemCtx = some h then { c with items := [], itemCtx := none } else c) s1.cores
    l2Buckets := s1.l2Buckets.filter fun e => e.1 % 2 ^ 32 != h
    emergency := if s1.emergency = some h then none else s1.emergency }

/-! ## The host-line buffer (R74) -/

/-- A byte of host memory as the device sees it: a line the buffer owns comes before host memory. -/
def hostViewByte (s : State) (a : Nat) : Byte :=
  match s.hostLines.find? fun e : Nat × List Byte => e.1 == a / 64 with
  | some e => e.2.getD (a % 64) 0
  | none => hostByte s a
def hostView (s : State) (a n : Nat) : List Byte := (List.range n).map fun k => hostViewByte s (a + k)

def lineOwned (s : State) (line : Nat) : Bool := (tkeys s.hostLines).contains line

/-- Write bytes in one line of host memory: into the buffer where it owns the line, else to the host. -/
def hostWrite (s : State) (bs : List (Nat × Byte)) : State :=
  bs.foldl (fun s e =>
    if lineOwned s (e.1 / 64) then { s with hostLines := tmod [] s.hostLines (e.1 / 64) fun l => l.set (e.1 % 64) e.2 }
    else putHost s [e]) s

/-- Give a line up with DirtyEvict: its bytes go to the host (R74, R173). -/
def giveLine (s : State) (line : Nat) : State :=
  match s.hostLines.find? fun e : Nat × List Byte => e.1 == line with
  | none => s
  | some e => { putHost s (e.2.zipIdx.map fun x => (64 * line + x.2, x.1)) with hostLines := tdel s.hostLines line, lineCtxs := tdel s.lineCtxs line }

/-- Take ownership of a line; a full buffer of 512 lines gives one up first (R74). -/
def ownLine (s : State) (line : Nat) : State :=
  if lineOwned s line then s
  else
    let s1 := if 512 ≤ s.hostLines.length then giveLine s ((tkeys s.hostLines).getD (pick s line % 512) 0) else s
    { s1 with hostLines := tins line (hostBytes s1 (64 * line) 64) s1.hostLines }

end Sys2Proof.Machine
end

