-- ==== Sys2Proof/Machine/Home.lean ====
section
/-! DEFINITION. The L2 home slices (R162–R165, R73, R94, R102, R177–R179, R218–R221, R224–R225): acceptance and application of
stores and atomics, loads and leases, eviction, and the way to the base dies. -/

namespace Sys2Proof.Machine

/-! ## Lines and leases -/

def l2Of (s : State) (pa : Nat) : L2Line := tget {} s.l2 (lineOf pa)
def modL2 (s : State) (pa : Nat) (f : L2Line → L2Line) : State := { s with l2 := tmod {} s.l2 (lineOf pa) f }
/-- Sector 0–3 of an address within its line. -/
def sectIn (pa : Nat) : Nat := pa / 64 % 4
/-- Stack and memory channel of an address (R25). -/
def stackOf (pa : Nat) : Nat := 4 * homeDie pa + (bits pa 10 9 ^^^ bits pa 19 18 ^^^ bits pa 28 27)
def channelOf (pa : Nat) : Nat := 32 * stackOf pa + (bits pa 15 11 ^^^ bits pa 24 20)

/-- EVICT_LEASE_MAX of an address's slice. -/
def evictLeaseOf (s : State) (pa : Nat) : Nat := tget 0 s.evictLease (homeSlice pa)

/-- LEASE_MAX of a sector: EVICT_LEASE_MAX where the slice does not hold it (R163). -/
def leaseMax (s : State) (pa : Nat) : Nat :=
  let l := l2Of s pa
  if l.present then tget 0 l.lease (sectIn pa) else evictLeaseOf s pa

/-- Times E of the resolves that affect a sector, fixed and not yet passed at its home (R194, R221). -/
def resolveTimes (s : State) (pa : Nat) : List Nat :=
  let now := homeCt s pa
  s.hctxs.flatMap fun h =>
    let head := match h.2.queue.head? with
      | some r => (match r.e with | some e => [(e, r.sectors)] | none => [])
      | none => []
    (head ++ h.2.settling).filterMap fun x => if x.2.contains (sectorOf pa) && !passed now x.1 then some x.1 else none

/-- A resolve of the sector stands between its two tests: loads of the sector are held (R194). -/
def betweenTests (s : State) (pa : Nat) : Bool := (resolveTimes s pa).any fun e => !holds (homeCt s pa) e

/-! ## Requests at a home -/

def homePa (r : Req) : Option Nat := match r.place with | .home pa => some pa | _ => none
/-- The sector of device memory that a request names. -/
def Req.inSector (r : Req) (sec : Nat) : Bool := match r.place with | .home pa => sectorOf pa == sec | _ => false

/-- Writes accepted for a sector and not yet applied. -/
def heldWrites (s : State) (sec : Nat) : List Req :=
  s.reqs.filter fun r => r.accepted && (r.kind == .store || r.kind == .atomic) && r.inSector sec

/-- Loads accepted for a sector and not yet served: they wait for a store accepted before them, for a snoop, for a resolve or for
their line. -/
def heldLoads (s : State) (sec : Nat) : List Req :=
  s.reqs.filter fun r => r.accepted && (r.kind == .load || r.kind == .pref) && r.inSector sec

/-- The slice or block that accepts a request (R179). -/
def receiver (r : Req) : Nat :=
  match r.place with
  | .home pa => homeSlice pa
  | .gang b _ => 64 + b
  | .host _ => 2 ^ 40
  | .peer q _ => 2 ^ 41 + q

def bucketOf (slice ctx : Nat) : Nat := slice * 2 ^ 32 + ctx

/-- Accesses of the host and of the service core are charged to nobody (R94). -/
def uncharged (r : Req) : Bool := r.fromHost || (r.core == 64 && r.inb.isNone)

/-- The bucket of a request's context at its slice is empty: it waits, and blocks no other context (R94). -/
def shortOf (s : State) (r : Req) : Bool :=
  match r.place with
  | .home pa => !uncharged r && (tget {} s.l2Buckets (bucketOf (homeSlice pa) r.ctx)).level == 0
  | _ => false

/-- No earlier request of the same core is still on its way to the same receiver, but for one of another context that waits for
tokens (R94, R179); a request held by page migration, or one that joined a fill, keeps no place in that order (R174). Peers'
requests keep the order of their arrival (R54). -/
def firstOut (s : State) (r : Req) : Bool :=
  r.fromHost || s.reqs.all fun x =>
    !(x.core == r.core && x.inb.isSome == r.inb.isSome && decide (x.id < r.id) && x.stage == .egress && !x.hold && x.join.isNone && !x.fromHost &&
      x.kind != .cwb && x.kind != .cinv && receiver x == receiver r && (x.ctx == r.ctx || !shortOf s x))

/-! ## Token buckets (R94) -/

/-- Requests of a context that wait for the tokens of one slice and come before r by their deadlines: each the first of its core.
DESIGN CHOICE (log 56). -/
def dueBefore (s : State) (r : Req) (pa : Nat) : List Req :=
  s.reqs.filter fun x => x.id != r.id && x.ctx == r.ctx && x.stage == .egress && !x.hold && x.join.isNone && !uncharged x && decide (x.deadline < r.deadline) &&
    (match x.place with | .home p => homeSlice p == homeSlice pa | _ => false) && firstOut s x

/-- Charge a context for 64 bytes at a slice; none where its bucket holds too few tokens for it and for those that come before it, or
where the port has moved its 1,500 tokens of the microsecond. DESIGN CHOICE (log 56). -/
def l2Charge (s : State) (r : Req) (pa : Nat) : Option State :=
  let moved := tget 0 s.l2Moved (homeSlice pa)
  if 1500 ≤ moved then none
  else
    let s1 := { s with l2Moved := tset 0 s.l2Moved (homeSlice pa) (moved + 1) }
    if uncharged r then some s1
    else
      let k := bucketOf (homeSlice pa) r.ctx
      let b := tget {} s.l2Buckets k
      if b.level ≤ (dueBefore s r pa).length then none else some { s1 with l2Buckets := tset {} s1.l2Buckets k { b with level := b.level - 1 } }

/-! ## Toward the base dies (R26, R28) -/

def State.stack (s : State) (k : Nat) : Stack := tget {} s.memStacks k
def modStack (s : State) (k : Nat) (f : Stack → Stack) : State := { s with memStacks := tmod {} s.memStacks k f }
def State.memChan (s : State) (k : Nat) : MemChan := tget {} s.memChans k
def modMemChan (s : State) (k : Nat) (f : MemChan → MemChan) : State := { s with memChans := tmod {} s.memChans k f }

/-- Physical line of a request: ADDR counts 64 bytes. -/
def StackReq.line (r : StackReq) : Nat := r.addr / 4
def StackReq.pa (r : StackReq) : Nat := r.addr * 64

/-- Two requests share a 64-byte address; a discard has none (R27). -/
def StackReq.meets (x r : StackReq) : Bool :=
  x.kind != 4 && r.kind != 4 && x.line == r.line && (x.kind % 2 == 1 || r.kind % 2 == 1 || x.addr == r.addr)

/-- An earlier request that one in the miss queue follows whatever their deadlines: one to an address of its own, or for a discard one
under a tag that it discards (R27, R45). -/
def StackReq.after (x r : StackReq) : Bool :=
  x.meets r || (r.kind == 4 && x.kind != 4 && x.hctx == r.hctx && x.hyp != 0 && r.ids.contains x.hyp)

/-- A channel whose requests stay in the miss queues while it retrains (R46). -/
def channelHolds (s : State) (pa : Nat) : Bool := (s.memChan (channelOf pa)).state == 1
/-- A channel that is down (R47). -/
def channelDown (s : State) (pa : Nat) : Bool := (s.memChan (channelOf pa)).state == 2

/-- A tag of a stack that no request holds: the compute die has 2,048 (R26). -/
def stackTag (s : State) (k : Nat) : Option Nat :=
  let used := (s.stack k).reqs.map fun r => r.tag
  firstIdx 2048 fun t => !used.contains t

/-- The next request to leave the miss queues toward a stack: the earliest deadline, of those whose channel takes requests and that
follow no earlier one there (R27, R28, R46). -/
def nextWait (s : State) (k : Nat) : Option StackReq :=
  let ws := (s.stack k).waits
  let ok := ws.filter fun r => (r.kind == 4 || !channelHolds s r.pa) &&
    !(ws.any fun x => decide (x.seq < r.seq) && x.after r)
  (sortBy (fun r => r.full * 2 ^ 64 + r.seq) ok).head?

/-- Requests leave the miss queues toward a stack while tags are free, n of them at most. -/
def pumpStack (k : Nat) : Nat → State → State
  | 0, s => s
  | n + 1, s => match nextWait s k, stackTag s k with
    | some r, some t => pumpStack k n (modStack s k fun q =>
        { q with waits := q.waits.filter (fun x => x.seq != r.seq), reqs := q.reqs ++ [{ r with tag := t }] })
    | _, _ => s

/-- A slice sends a request to a stack: it enters the miss queue, and leaves it at once where a tag is free. -/
def sendStack (s : State) (k : Nat) (r : StackReq) : State :=
  let s1 := modStack { s with seq := s.seq + 1 } k fun q =>
    { q with waits := q.waits ++ [{ r with full := r.deadline, deadline := r.deadline % 2 ^ 32, seq := s.seq }] }
  pumpStack k (s1.stack k).waits.length s1

/-- Requester index of a request (R35). -/
def requesterOf (r : Req) : Nat :=
  if r.fromHost then 40 else if r.inb.isSome then 41 else if r.kind = .pref then 42 else if r.core = 64 then 43 else r.core

/-- A read of a line under a tag has been asked for and has not come. -/
def asked (s : State) (addr h id : Nat) : Bool :=
  let q := s.stack (stackOf (64 * addr))
  (q.reqs ++ q.waits).any fun x => x.kind == 1 && x.addr == addr && x.hctx == h && x.hyp == id
def linePending (s : State) (pa : Nat) : Bool := asked s (pa / 256 * 4) 0 0

/-- Ask for a 256-byte line for a request; one that has been asked for already comes for it too, under the class, deadline and requester of
the first (R26, R31, R42). A missing sector is fetched with its line. DESIGN CHOICE (log 98). -/
def askRead (s : State) (addr h id : Nat) (r : Req) : State :=
  if asked s addr h id then
    let add := fun (x : StackReq) => if x.kind == 1 && x.addr == addr && x.hctx == h && x.hyp == id then { x with ids := x.ids ++ [r.id] } else x
    modStack s (stackOf (64 * addr)) fun q => { q with reqs := q.reqs.map add, waits := q.waits.map add }
  else sendStack s (stackOf (64 * addr))
    { kind := 1, addr := addr, cls := r.cls, deadline := r.deadline, reqr := requesterOf r, hctx := h, hyp := id, ids := [r.id] }

/-- The service core reads a range: lines that no slice holds are read from their stacks as urgent requests, D 64 ticks after the access
arrives at the home (R32). -/
def svcRead (s : State) (pa n : Nat) : State :=
  (List.range (if n = 0 then 0 else (pa + n - 1) / 256 + 1 - pa / 256)).foldl (fun s k =>
    let a := 256 * (pa / 256 + k)
    if (l2Of s a).present || linePending s a then s
    else sendStack s (stackOf a) { kind := 1, addr := a / 64, cls := 0, deadline := homeCt s a + 64, reqr := 43 }) s

/-- A request waits for the line of its sector. -/
def askLine (s : State) (pa : Nat) (r : Req) : State :=
  modReq (askRead s (pa / 256 * 4) 0 0 r) r.id fun x => { x with stage := .miss }

/-! ## Eviction and the vat (R163, R43, R45, R224) -/

/-- Set of a line in its slice: 512 sets of 16 ways. The manual fixes no set index and no replacement. DESIGN CHOICE (log 98). -/
def l2Set (line : Nat) : Nat := 512 * homeSlice (256 * line) + line / 64 % 512

/-- A version is sent to the stack of its vat entry as a victim under its hypothesis tag (R45). -/
def vatVictim (s : State) (v : Version) : State :=
  match vatPa s v.hctx v.entry with
  | none => s
  | some pa => sendStack (writeVat s v) (stackOf pa)
      { kind := 3, addr := pa / 256 * 4, cls := 2, deadline := homeCt s pa + 8192, reqr := 42, hctx := v.hctx, hyp := v.id
        mask := 3 * 2 ^ sectIn pa, sects := 3 * 2 ^ sectIn pa }

/-- The versions held in a tagged line. -/
def inKey (key : Nat) (v : Version) : Bool := !v.inVat && l2Key (v.sector / 4) v.hctx v.id == key

/-- A line leaves its slice (R163): the versions of a tagged line go to their vat entries; of committed lines the dirty and the
twice-hit fill the memory-side cache. A tagged line whose vat page cannot be written stays. While a resolve of its tree is on its way a
version that leaves need not be read back for it. DESIGN CHOICE (log 98). -/
def evictKey (s : State) (key : Nat) : State :=
  let l := tget {} s.l2 key
  let pa := 256 * keyLine key
  if !l.present then s
  else if keyTag key ≠ 0 then
    let out := s.versions.filter (inKey key)
    if out.any fun v => (vatPa s v.hctx v.entry).isNone then s
    else
      let s1 := out.foldl vatVictim s
      { s1 with
        versions := s1.versions.map fun v =>
          if inKey key v then { v with inVat := true, stored := true, back := !(s.hctxOf v.hctx).queue.isEmpty } else v
        l2 := tdel s1.l2 key }
  else
    let s1 := { s with
      evictLease := tmod 0 s.evictLease (homeSlice pa) fun t => maxOf (t :: l.lease.map Prod.snd)
      l2 := tdel s.l2 key }
    if l.dirty ≠ 0 ∨ 2 ≤ l.hits then
      sendStack s1 (stackOf pa) { kind := 3, addr := key * 4, cls := 2, deadline := homeCt s pa + 8192, reqr := 42, mask := l.dirty }
    else s1

def execL2Eviction (line : Nat) (s : State) : Out := .next (evictKey s line)

/-- Lines present in the set of a line. -/
def l2Same (s : State) (key : Nat) : List Nat := (tkeys s.l2).filter fun k => (tget {} s.l2 k).present && l2Set (keyLine k) == l2Set (keyLine key)

/-- The lines that must be considered to leave for a new one: none while the set of 16 has room. -/
def l2Crowd (s : State) (key : Nat) : List Nat :=
  let same := l2Same s key
  if same.contains key || decide (same.length < 16) then [] else same

/-- Of a crowded set, the lines that can leave. -/
def l2Can (s : State) (key : Nat) : List Nat :=
  let same := l2Crowd s key
  same.filter fun k => (l2Same (evictKey s k) key).length < same.length

/-- A line has no room in its set: 16 lines stand there and none can leave. What would bring it in waits. DESIGN CHOICE (log 98). -/
def l2Blocked (s : State) (key : Nat) : Bool := !(l2Crowd s key).isEmpty && (l2Can s key).isEmpty

/-- Make room in a line's set: of 16 lines there, one leaves, whichever, of those that can (R162). DESIGN CHOICE (log 98). -/
def l2Room (s : State) (key : Nat) : State :=
  match l2Can s key with
  | [] => s
  | can => evictKey s (can.getD (pick s key % can.length) 0)

/-- Key of a version's line. -/
def Version.key (v : Version) : Nat := l2Key (v.sector / 4) v.hctx v.id

/-- A version stands in its slice, dirty, in a line of its tag, where the set has room. -/
def holdVersion (s : State) (v : Version) : State :=
  if l2Blocked s v.key then s
  else
    let s1 := l2Room s v.key
    { s1 with l2 := tmod {} s1.l2 v.key fun l => { l with present := true, dirty := l.dirty ||| 2 ^ (v.sector % 4) } }

/-- A version is back in its slice; where the set has no room it stays where it is. -/
def versionBack (s : State) (v : Version) (bad : Bool) : State :=
  let s1 := holdVersion s v
  let away := l2Blocked s v.key
  { s1 with versions := s1.versions.map fun u =>
      if u.hctx = v.hctx ∧ u.id = v.id ∧ u.sector = v.sector then { u with inVat := away, back := true, bad := u.bad || bad } else u }

/-- A version that has left for its vat entry is read back: asked for, or at once where its page cannot be reached any more. -/
def askVersion (s : State) (v : Version) (r : Req) : State :=
  match vatPa s v.hctx v.entry with
  | some pa => modReq (askRead s (pa / 256 * 4) v.hctx v.id r) r.id fun x => { x with stage := .miss }
  | none => versionBack s v false

/-- A version of a sector that the chain of a hypothesis needs and that stands in the vat (R219, R224). -/
def farVersion (s : State) (h id sec : Nat) : Option Version :=
  (chain s h id).findSome? fun a => if a = 0 then none else
    match versionOf s h a sec with
    | some v => if v.inVat then some v else none
    | none => none

/-! ## Stores and atomics (R164) -/

/-- A request arrives at its home: it takes its place in the sector's order; one of a peer is stamped here (R32). -/
def Req.arrived (r : Req) (s : State) : Req :=
  { r with stage := .held, acceptSeq := s.seq
           deadline := match r.inb, r.place with | some _, .home pa => homeCt s pa + 1024 | _, _ => r.deadline }

def acceptReq (s : State) (id : Nat) : State := modReq { s with seq := s.seq + 1 } id fun r => r.arrived s

/-- In standby an access of the host takes the stack of its channel out of self-refresh, to which it returns afterwards (R87).
DESIGN CHOICE (log 113). -/
def stackAwake (s : State) (pa : Nat) (up : Bool) : State :=
  if s.pkg.pCurrent ≠ 5 then s else modStack s (stackOf pa) fun q => { q with selfRefresh := !up }

/-- A write of the host is accepted as a store; the reserved range ignores it (R73, R267). DEDUCED (log 92). -/
def hostStore (s : State) (pa : Nat) (bytes : List Byte) : State :=
  if pa + bytes.length > Config.emergencyBase ∨ pa % 64 + bytes.length > 64 then s
  else addReq (stackAwake s pa true) {
    id := s.seq, kind := .store, place := .home (pa / 64 * 64), stage := .held, fromHost := true, acceptSeq := s.seq
    bytes := bytes.zipIdx.map fun e => (pa % 64 + e.2, e.1), deadline := homeCt s pa + 1024 }

/-- A store or atomic of a lane, of a COPY to a page that was migrating, or of a peer may be accepted. -/
def acceptOne (s : State) (id : Nat) : State :=
  match s.reqs.find? fun r => r.id == id with
  | none => s
  | some r => match r.place with
    | .home pa =>
      if r.stage ≠ .egress ∨ r.hold ∨ !(r.kind == .store || r.kind == .atomic) ∨ !firstOut s r then s
      else match l2Charge s r pa with
        | some s => acceptReq s id
        | none => s
    | _ => s

/-- DEDUCED (log 24). -/
def execL2StoreAccept (src : StoreSrc) (s : State) : Out :=
  .next (match src with
    | .lane r | .fabric r => acceptOne s r
    | .copy job sector =>
      let t := copyStore s job sector
      -- the sector's request, if one was made and is not held by page migration, is charged like any other
      (match t.reqs.find? fun r => r.id == s.seq && r.copy == some job && r.stage == .held with
        | some r => (match r.place with
          | .home pa => (l2Charge t r pa).getD s
          | _ => t)
        | none => t)
    | .host pa bytes => hostStore s pa bytes)

/-- Versions of a hypothesis context held now. -/
def versionsOf (s : State) (h : Nat) : List Version := s.versions.filter fun v => v.hctx == h

/-- A store under a hypothesis: its version of the sector takes the bytes; the first store of the id reserves a vat entry, or is
dropped and the id refuted (R218, R225). -/
def applyVersion (s : State) (r : Req) (sec : Nat) : State :=
  let put := fun (v : Version) => { v with
    data := r.bytes.foldl (fun d e => tset 0 d e.1 e.2) v.data
    mask := r.bytes.foldl (fun m e => m ||| w64 (2 ^ e.1)) v.mask }
  let mine := fun (v : Version) => v.hctx == r.hctx && v.id == r.hyp && v.sector == sec
  if s.versions.any mine then
    s.versions.foldl (fun s v => if mine v then holdVersion s v else s) { s with versions := s.versions.map fun v => if mine v then put v else v }
  else
    let used := (versionsOf s r.hctx).map fun v => v.entry
    match firstIdx (vatEntries s r.ctx) fun k => !used.contains k with
    | some k =>
      let v := put { hctx := r.hctx, id := r.hyp, sector := sec, va := r.va / 64 * 64, entry := k }
      let s1 := holdVersion s v
      { s1 with versions := s1.versions ++ [v] }
    | none => if (nodeOf s r.hctx r.hyp).state = 1 then enterResolve s r.hctx false r.hyp 3 none else s

/-- An atomic on committed bytes, lane by lane in ascending id: each reads what the one before it wrote, and sync words are evaluated
after each (R84, R381). -/
def applyAtomic (s : State) (r : Req) (pa : Nat) : State :=
  let go := r.parts.foldl (fun (acc : State × List Part) p =>
    let old := memRead acc.1 (pa + p.off) p.w
    (devNum acc.1 (pa + p.off) p.w (atomNew r.sub r.amod r.ty old p.opB p.opC), acc.2 ++ [{ p with old := old }])) (s, [])
  modReq go.1 r.id fun x => { x with parts := go.2 }

/-- The bytes of a committed write, one write for its sync words (R84); a sector written whole is no longer poisoned (R38).
DEDUCED (log 74). -/
def applyBytes (s : State) (bytes : List (Nat × Byte)) (pa : Nat) : State :=
  let s1 := syncEval (putBytes s (bytes.map fun e => (pa + e.1, e.2))) pa 64
  if bytes.length = 64 then { s1 with poison := s1.poison.filter (· ≠ sectorOf pa) } else s1

/-- A write reaches the line: dirty in the slice, or a masked write to the base die (R43, R165). DEDUCED (log 74). -/
def maskedWrite (s : State) (pa cls deadline reqr : Nat) : State :=
  if (l2Of s pa).present then modL2 s pa fun l => { l with dirty := l.dirty ||| 2 ^ sectIn pa }
  else sendStack s (stackOf pa) { kind := 2, addr := pa / 64, cls := cls, deadline := deadline, reqr := reqr, mask := 2 ^ sectIn pa }
def dirtyLine (s : State) (r : Req) (pa : Nat) : State := maskedWrite s pa r.cls r.deadline (requesterOf r)

/-- A write to a channel that is down reaches no cell: nothing is stored, and an atomic fetches all-ones (R47). DESIGN CHOICE
(log 98). -/
def lostWrite (s : State) (r : Req) : State :=
  if r.kind = .atomic then modReq s r.id fun x => { x with parts := x.parts.map fun p => { p with old := 2 ^ (8 * p.w) - 1 } } else s

/-- The lease a load is granted: home CT plus the context's default, no later than E of a resolve that affects the sector; no
lease while a store waits, under .na, or without a lane (R158, R164, R221, R368). -/
def leaseFor (s : State) (r : Req) (pa : Nat) : Nat :=
  if r.na || r.copy.isSome || r.inb.isSome || r.fromHost || !(heldWrites s (sectorOf pa)).isEmpty then 0
  else (resolveTimes s pa).foldl min (homeCt s pa + (s.context r.ctx).record.lease)

/-- The host holds a copy of the line that a snoop must take or share first (R73). -/
def snoopDue (s : State) (pa : Nat) (inv : Bool) : Bool :=
  s.hostCached.contains (sectorOf pa) && !(s.snoops.any fun x => x.line == sectorOf pa && x.answered && x.inv == inv)

/-- Send the snoop once. -/
def sendSnoop (s : State) (pa : Nat) (inv : Bool) : State :=
  if s.snoops.any fun x => x.line == sectorOf pa && x.inv == inv && !x.answered then s
  else { s with snoops := s.snoops ++ [{ line := sectorOf pa, inv := inv }] }

/-- The answers have served their purpose. -/
def useSnoop (s : State) (pa : Nat) : State := { s with snoops := s.snoops.filter fun x => x.line != sectorOf pa || !x.answered }

/-- A read of the host is answered; the host may now cache the line, and an answer to an earlier snoop of it counts no more (R73).
DEDUCED (log 92). -/
def hostGets (s : State) (r : Req) (pa : Nat) (bytes : List Byte) : State :=
  { stackAwake (useSnoop s pa) pa false with readData := bytes, hostCached := dedup (s.hostCached ++ [sectorOf pa]), reqs := s.reqs.filter fun x => x.id != r.id }

/-- The reply of a load served at its home: the sector through Visible, its poison, its lease (R164, R219). -/
def replyLoad (s : State) (r : Req) (pa : Nat) : State :=
  let lease := leaseFor s r pa
  let hx := if r.hyp = 0 then none else some r.hctx
  let worn := if r.hyp = 0 then none else (chain s r.hctx r.hyp).findSome? fun a => if a = 0 then none else
    match versionOf s r.hctx a (sectorOf pa) with
    | some v => if v.bad then some v else none
    | none => none
  let bad := isPoison s pa || worn.isSome
  -- the error event behind the poison (R269)
  let err := if isPoison s pa then poisonErr s (sectorOf pa) else match worn.bind fun v => vatPa s v.hctx v.entry with
    | some va => poisonErr s (sectorOf va)
    | none => lastError s
  let s1 := if lease = 0 then s else useSnoop (modL2 s pa fun l => { l with lease := tmod 0 l.lease (sectIn pa) fun t => max t lease }) pa
  if r.fromHost then hostGets s1 r pa (if bad then List.replicate 64 0xFF else memBytes s pa 64)
  else modReq s1 r.id fun x => { x with
    stage := .reply, sect := viewBytes s hx r.hyp pa 64, lease := lease, na := r.na || lease == 0
    status := if bad then 1 else 0, err := if bad then err else (0, none), ctc := homeCt s pa }

/-- A load is at its home and its line is there: it is served, a hit of the line unless the line came from memory for it (R43). -/
def serveLoad (s : State) (r : Req) (pa : Nat) : State :=
  replyLoad (if r.missed then s else modL2 s pa fun l => { l with hits := min 3 (l.hits + 1) }) r pa

/-- The store or atomic that may be applied now: the oldest of its sector, its leases passed, no older load waiting, and no resolve
of the sector between its tests but the one it is stored under (R164, R221). -/
def applicable (s : State) (r : Req) (pa : Nat) : Bool :=
  r.stage == .held && (r.kind == .store || r.kind == .atomic) && passed (homeCt s pa) (leaseMax s pa) &&
  ((heldWrites s (sectorOf pa)).all fun x => decide (r.acceptSeq ≤ x.acceptSeq)) &&
  !((heldLoads s (sectorOf pa)).any fun x => decide (x.acceptSeq < r.acceptSeq)) &&
  (!betweenTests s pa || (r.hyp != 0 && (nodeOf s r.hctx r.hyp).state == 2))

/-! ## Loads (R164, R102) -/

/-- Effects of an SRAM error met while a load is served (R102). Data no context owns raises its check only at the host.
DESIGN CHOICE (log 60). -/
def sramEffect (s : State) (r : Req) (pa : Nat) (f : SramFault) : State :=
  match f with
  | .none => s
  | .l2Corrected => recordError s repL2 2 pa 0
  | .l2Uncorrectable =>
    if (l2Of s pa).dirty ≠ 0 then
      let s1 := poisonSector (recordError s repL2 3 pa 0) (sectorOf pa)
      checkCtxs s1 (ownersOf s1 pa)
    else recordError (modL2 s pa fun l => { l with present := false, hits := 0 }) repL2 2 pa 0
  -- the loads of the host and of peers are no core's
  | f => if r.core = 64 then s else sramCore s r.core f

/-- A line loses its place in a slice whose error was found clean: EVICT_LEASE_MAX covers its leases. -/
def keepLeases (old new : State) (pa : Nat) : State :=
  if (l2Of old pa).present ∧ !(l2Of new pa).present then
    { new with evictLease := tmod 0 new.evictLease (homeSlice pa) fun t => maxOf (t :: ((l2Of old pa).lease.map Prod.snd)) }
  else new

/-- A slice's SRAM error at any line, as an atomic, an eviction or a version's read may meet it (R102): sector `sect` of the line with this
key. A corrected one is counted; a clean line is invalidated, to be fetched again, and so are versions that their vat entries hold; other
data is lost: a committed sector or a version is poisoned, and the contexts that own it take a machine check. DESIGN CHOICE (log 60). -/
def l2Sram (s : State) (key sect : Nat) (lost : Bool) : State :=
  let l := tget {} s.l2 key
  let pa := 256 * keyLine key + 64 * (sect % 4)
  if !l.present then s
  else if !lost then recordError s repL2 2 pa 0
  else if l.dirty = 0 then
    recordError { s with
      l2 := tdel s.l2 key
      evictLease := if keyTag key ≠ 0 then s.evictLease else tmod 0 s.evictLease (homeSlice pa) fun t => maxOf (t :: l.lease.map Prod.snd)
      versions := s.versions.map fun v => if inKey key v then { v with inVat := true } else v } repL2 2 pa 0
  else
    let s1 := recordError s repL2 3 pa 0
    let s2 := if keyTag key = 0 then poisonSector s1 (sectorOf pa)
      else { s1 with versions := s1.versions.map fun v => if inKey key v && v.sector == sectorOf pa then { v with bad := true } else v }
    checkCtxs s2 (ownersOf s2 pa)

/-- A load accepted at its home goes on: held behind a store accepted before it, between a resolve's tests, or for the host until the
resolve has passed, sent on to memory for its line or for a version in the vat, held for a snoop, or served (R73, R164, R194, R219). -/
def loadHeld (s : State) (r : Req) (pa : Nat) (f : SramFault) : State :=
  if ((heldWrites s (sectorOf pa)).any fun x => decide (x.acceptSeq < r.acceptSeq)) || betweenTests s pa || (r.fromHost && !(resolveTimes s pa).isEmpty) then s
  else if !(l2Of s pa).present then askLine s pa r
  else
    let s1 := keepLeases s (sramEffect s r pa f) pa
    if !(l2Of s1 pa).present then askLine s1 pa r
    else match (if r.hyp = 0 then none else farVersion s1 r.hctx r.hyp (sectorOf pa)) with
    | some v => askVersion s1 v r
    | none =>
      if leaseFor s1 r pa ≠ 0 ∧ snoopDue s1 pa false then sendSnoop s1 pa false
      else serveLoad s1 r pa

/-- A load that arrives at its home, or waits there. -/
def loadAtHome (s : State) (r : Req) (pa : Nat) (f : SramFault) : State :=
  if r.stage = .egress then loadHeld (acceptReq s r.id) (r.arrived s) pa f
  else loadHeld s r pa f

/-- Held loads that no accepted store stands before are served, in order (R164). -/
def serveHeld (s : State) (sec : Nat) : State :=
  (heldLoads s sec).foldl (fun s r => match homePa r with
    | some pa => if r.stage = .held then loadHeld s r pa .none else s
    | none => s) s

/-- What a store or atomic does where it is applied. -/
def applyWrite (s : State) (r : Req) (pa : Nat) : State :=
  if r.kind = .store ∧ r.hyp ≠ 0 then applyVersion s r (sectorOf pa)
  else if !(l2Of s pa).present && channelDown s pa then dirtyLine (lostWrite s r) r pa
  else if r.kind = .atomic then dirtyLine (applyAtomic s r pa) r pa
  else dirtyLine (applyBytes s r.bytes pa) r pa

/-- What the application of a write waits for: its line, where it is on its way or an atomic needs it; its version, where that is in
the vat; room in the slice for a new version. -/
def writeWaits (s : State) (r : Req) (pa : Nat) : Option State :=
  if r.kind = .store ∧ r.hyp ≠ 0 then
    match versionOf s r.hctx r.hyp (sectorOf pa) with
    | some v => if v.inVat then some (askVersion s v r) else none
    | none => if l2Blocked s (l2Key (sectorOf pa / 4) r.hctx r.hyp) then some s else none
  else if (l2Of s pa).present || channelDown s pa then none
  else if r.kind = .atomic then some (askLine s pa r)
  else if linePending s pa then some s else none

/-- DEDUCED (log 24). -/
def execL2StoreApply (req : Nat) (s : State) : Out :=
  .next (match s.reqs.find? fun r => r.id == req with
    | none => s
    | some r => match r.place with
      | .home pa =>
        if !applicable s r pa then s
        else match writeWaits s r pa with
        | some t => t
        | none =>
          if !r.fromHost && snoopDue s pa true then sendSnoop s pa true
          else
            let s0 := { useSnoop s pa with hostCached := if r.fromHost then s.hostCached else s.hostCached.filter (· ≠ sectorOf pa) }
            let s2 := modReq (applyWrite s0 r pa) req fun x => { x with stage := .reply, ctc := homeCt s pa + 4 }
            serveHeld (if r.fromHost then { stackAwake s2 pa false with reqs := s2.reqs.filter fun x => x.id != req } else s2) (sectorOf pa)
      | _ => s)

def execL2LoadServe (req : Nat) (sram : SramFault) (s : State) : Out :=
  .next (match s.reqs.find? fun r => r.id == req with
    | none => s
    | some r => match r.place with
      | .home pa =>
        if !(r.kind == .load || r.kind == .pref) ∨ r.join.isSome then s
        else if r.stage = .egress then
          if !firstOut s r then s
          else match l2Charge s r pa with
            | none => s
            | some t => loadAtHome t r pa sram
        else if r.stage = .held then loadAtHome s r pa sram
        else s
      | _ => s)

/-- A core's copy of a sector has outlived its lease: it is a faded copy (R161). -/
def execLeaseExpiry (core sector : Nat) (s : State) : Out :=
  let fade := fun (cst : Bool) (s : State) =>
    let x := tget {} (store1 (s.core core) cst) sector
    if x.valid && !holds (coreCt s core) x.expiry then modStore1 s core cst fun t => tmod {} t sector fadeSector else s
  .next (fade true (fade false s))

end Sys2Proof.Machine
end

