-- ==== Sys2Proof/Machine/MemSide.lean ====
section
/-! DEFINITION. The base dies (R24–R47): the memory-side cache, the channel schedulers, ECC, refresh, bus coding and retraining. -/

namespace Sys2Proof.Machine

/-- Chip time of a stack's base die. -/
def stackCt (s : State) (k : Nat) : Nat := dieCt s (k / 4)

def reqAt (s : State) (k tag : Nat) : Option StackReq := (s.stack k).reqs.find? fun r => r.tag == tag
def modAt (s : State) (k tag : Nat) (f : StackReq → StackReq) : State :=
  modStack s k fun q => { q with reqs := q.reqs.map fun r => if r.tag = tag then f r else r }

/-- Channel of a request. -/
def chanOfReq (r : StackReq) : Nat := channelOf r.pa

/-- The full deadline: the value that matches bits 31:0 and lies within ±2^31 of the base die's time (R28). -/
def fullDeadline (now low : Nat) : Nat :=
  let base := now / 2 ^ 32 * 2 ^ 32 + low
  if base + 2 ^ 31 < now then base + 2 ^ 32 else if now + 2 ^ 31 < base ∧ 2 ^ 32 ≤ base then base - 2 ^ 32 else base

/-- A request to one of its addresses was received earlier and is not finished (R27). -/
def earlier (s : State) (k : Nat) (r : StackReq) : Bool := (s.stack k).reqs.any fun x => decide (x.seq < r.seq) && x.meets r

/-! ## Completions -/

/-- Class number of MISS_COUNT (R36). -/
def countMiss (s : State) (reqr cls : Nat) : State :=
  { s with missCount := tmod 0 s.missCount (3 * reqr + cls) fun n => min (n + 1) (2 ^ 48 - 1) }

/-- A completion leaves the base die: a missed deadline is counted once, for its requester and class, and for the
counters of the groups whose loads it comes for (R35, R431). -/
def leaveDie (s : State) (k : Nat) (r : StackReq) : State :=
  if stackCt s k ≤ r.full then s
  else
    let s1 := countMiss s r.reqr r.cls
    if r.kind = 4 then s1
    else (s.reqs.filter fun x => (r.ids.contains x.id || x.join.any fun j => r.ids.contains j) && x.kind == .load && x.copy.isNone && x.inb.isNone && !x.fromHost).foldl
      (fun t x => modGroup t x.block x.grp fun q => q.perfAdd 8 1) s1

/-- A request completes with a status: its tag is free for the miss queue (R26, R28, R35). -/
def complete (s : State) (k : Nat) (r : StackReq) (status : Nat) : State :=
  let s1 := modStack (leaveDie s k r) k fun q => { q with reqs := q.reqs.filter (fun x => x.tag != r.tag), last := some (r.tag, status) }
  pumpStack k (s1.stack k).waits.length s1

/-- Requests that wait for a line go on at their homes. -/
def wake (s : State) (ids : List Nat) : State :=
  { s with reqs := s.reqs.map fun r => if r.stage = .miss ∧ ids.contains r.id then { r with stage := .held, missed := true } else r }

/-- The line reaches L2: its leases start at EVICT_LEASE_MAX, dirty sectors stay dirty, and what waited may be served (R44, R162,
R163). -/
def fillLine (s : State) (line dirty : Nat) (ids : List Nat) : State :=
  -- a read whose line has no room waits at its base die
  let pa := 256 * line
  let s1 := l2Room s line
  let t := evictLeaseOf s1 pa
  wake (modL2 s1 pa fun l => if l.present then { l with dirty := l.dirty ||| dirty } else
    { present := true, dirty := dirty, hits := 0, lease := (List.range 4).foldl (fun m k => tset 0 m k t) [] }) ids

/-- Versions whose vat entry stands in a line that came back under their tag (R224): they are in their slice again. -/
def fillVersions (s : State) (r : StackReq) (bad : Bool) : State :=
  wake ((s.versions.filter fun v => v.hctx == r.hctx && v.id == r.hyp && v.inVat).foldl (fun s v =>
    match vatPa s v.hctx v.entry with
    | some pa => if lineOf pa = r.line then versionBack s v (bad || isPoison s pa || isPoison s (pa + 64)) else s
    | none => s) s) r.ids

/-- A read's data reaches the slice. -/
def readDone (s : State) (r : StackReq) (dirty : Nat) : State :=
  if r.hyp = 0 then fillLine s r.line dirty r.ids else fillVersions s r false

/-- The line that a read of committed data brings has no room in its slice: the read waits. DESIGN CHOICE (log 98). -/
def fillBlocked (s : State) (r : StackReq) : Bool := (r.kind == 0 || r.kind == 1) && r.hyp == 0 && l2Blocked s r.line

/-- A load of a channel that is down delivers poison; what else waited goes on and finds it down (R47). -/
def poisonWaiting (s : State) (id : Nat) : State :=
  match s.reqs.find? fun r => r.id == id with
  | none => s
  | some r => match r.place with
    | .home pa =>
      if r.stage ≠ .miss then s
      else if r.fromHost then hostGets s r pa (List.replicate 64 0xFF)
      else if r.kind == .load || r.kind == .pref then
        modReq s id fun r => { r with stage := .reply, status := 1, err := lastError s, na := true, sect := List.replicate 64 0xFF, ctc := coreCt s r.core }
      else modReq s id fun r => { r with stage := .held }
    | _ => s

/-- A request of a channel that is down completes with CHANNEL_DOWN (R47). -/
def downDone (s : State) (k : Nat) (r : StackReq) : State :=
  let s1 := complete s k r 3
  if r.kind = 0 ∨ r.kind = 1 then (if r.hyp = 0 then r.ids.foldl poisonWaiting s1 else fillVersions s1 r true) else s1

/-- An error of DRAM under the symbol code (R38): corrected data is written back; an uncorrectable block is poisoned and raises
a machine check. Where a cache above holds the sector (`above`) the device's data is not what DRAM holds, and stays good.
DESIGN CHOICE (log 60). -/
def eccEffect (s : State) (pa : Nat) (above : Bool) (e : EccResult) : State :=
  match e with
  | .ok => s
  | .corrected => recordError s (repChannel (channelOf pa)) 0 pa 0
  | .uncorrectable =>
    let s1 := recordError s (repChannel (channelOf pa)) 1 pa 0
    let s2 := if above then s1 else poisonSector s1 (sectorOf pa)
    checkCtxs s2 (ownersOf s2 pa)

/-- STATUS of a completion after what its blocks' codes found (R26, R38). -/
def eccStatus (es : List EccResult) : Nat := if es.contains .uncorrectable then 2 else if es.contains .corrected then 1 else 0

/-! ## Bus coding (R39, R40) -/

/-- XOR of two bursts. -/
def xorBytes (a b : List Byte) : List Byte := (a.zip b).map fun e => e.1 ^^^ e.2

/-- One byte under DBI-AC: sent inverted where more than four of its wires would change; the wires it leaves, and the transitions, the
inversion pin's among them. PRESUMED (log 109). -/
def dbiByte (w : Byte × Bool) (x : Byte) : (Byte × Bool) × Nat :=
  let inv := decide (4 < popCount 8 (x ^^^ w.1).toNat)
  let y := if inv then ~~~x else x
  ((y, inv), popCount 8 (y ^^^ w.1).toNat + b2n (inv != w.2))

/-- A burst of 64 bytes on the eight byte lanes of a channel. PRESUMED (log 109). -/
def dbiBurst (ws : List (Byte × Bool)) (bs : List Byte) : List (Byte × Bool) × Nat :=
  bs.zipIdx.foldl (fun acc e =>
    let r := dbiByte (acc.1.getD (e.2 % 8) (0, false)) e.1
    (acc.1.set (e.2 % 8) r.1, acc.2 + r.2)) (ws, 0)

/-- One direction sends a burst in the channel's code, or in DBI where it must: what the wires do, and what they would have done in the
other code. Both ends keep the bytes of the last low-toggle burst. DEDUCED (log 59). -/
def BusDir.send (d : BusDir) (lowToggle plain : Bool) (bs : List Byte) : BusDir :=
  let lt := lowToggle && !plain
  let olt := !lowToggle && !plain
  let a := dbiBurst d.wires (if lt then xorBytes bs d.ref else bs)
  let o := dbiBurst d.owires (if olt then xorBytes bs d.oref else bs)
  { ref := if lt then bs else d.ref, wires := a.1, oref := if olt then bs else d.oref, owires := o.1, made := d.made + a.2, other := d.other + o.2 }

/-- Sectors of a line that a mask names. -/
def maskSects (m : Nat) : List Nat := (List.range 4).filter m.testBit

/-- The sectors of a request cross its channel, read or written; urgent and overdue bursts always go in DBI (R39). -/
def noteBursts (s : State) (k : Nat) (r : StackReq) (write : Bool) (pas : List Nat) : State :=
  let plain := r.cls == 0 || decide (r.full ≤ stackCt s k)
  modMemChan s (chanOfReq r) fun c => pas.foldl (fun c pa =>
    let bs := memBytes s pa 64
    if write then { c with wr := c.wr.send (c.code == 1) plain bs } else { c with rd := c.rd.send (c.code == 1) plain bs }) c

/-- Addresses of the sectors a read brings up. -/
def readPas (r : StackReq) : List Nat := if r.kind = 0 then [r.pa] else (List.range 4).map fun k => 256 * r.line + 64 * k

/-- The two directions start anew: counters at 0, references cleared where a switch begins. -/
def BusDir.fresh (d : BusDir) (clear : Bool) : BusDir :=
  { d with made := 0, other := 0, ref := if clear then List.replicate 64 0 else d.ref, oref := if clear then List.replicate 64 0 else d.oref }

/-- A window of 16,384 ticks ends: after two windows in which the other code would have made fewer than 75 % of the
transitions, or where the low-toggle code is forbidden, a switch of 32 ticks starts (R40, R41). The counts of the two
directions are taken together. The lines that carry the check bits of R38, whose code the manual does not give, made `check`
transitions and would have made `other`. DEDUCED (log 59). -/
def windowEnd (s : State) (channel check other : Nat) : State :=
  let c := s.memChan channel
  let n := if 4 * (c.rd.other + c.wr.other + other) < 3 * (c.rd.made + c.wr.made + check) then c.better + 1 else 0
  let want := (decide (2 ≤ n) && (c.code == 1 || c.ltAllowed)) || (c.code == 1 && !c.ltAllowed)
  if s.ct % 16384 ≠ 0 ∨ c.windowAt = s.ct ∨ Config.channels ≤ channel then s
  else
    let go := want && !c.codeLock && c.switching.isNone
    modMemChan s channel fun c => { c with
      windowAt := s.ct, better := if go then 0 else n, switching := if go then some (s.ct + 32) else c.switching
      rd := c.rd.fresh go, wr := c.wr.fresh go }

/-- The window's end; the check bits' transitions of each direction are inputs. DEDUCED (log 59). -/
def execToggleWindowEnd (channel checkRd otherRd checkWr otherWr : Nat) (s : State) : Out :=
  .next (windowEnd s channel (checkRd + checkWr) (otherRd + otherWr))

/-- A switch has taken its 32 ticks. DEDUCED (log 59). -/
def switchEnd (s : State) (channel : Nat) : State :=
  match (s.memChan channel).switching with
  | none => s
  | some t => if s.ct < t then s else modMemChan s channel fun c =>
      { c with switching := none, code := 1 - c.code, switches := min (c.switches + 1) 65535 }

def execCodeSwitchDone (channel : Nat) (s : State) : Out := .next (switchEnd s channel)

/-- A channel moves no data: it retrains, has not been trained, or switches its code (R40, R46). -/
def channelStill (s : State) (k : Nat) : Bool := let c := s.memChan k; c.state == 1 || c.state == 3 || c.switching.isSome

/-! ## The memory-side cache (R42–R45) -/

def mscOf (s : State) (line : Nat) : MscLine := tget {} (s.stack (stackOf (256 * line))).msc line
def modMsc (s : State) (line : Nat) (f : MscLine → MscLine) : State :=
  modStack s (stackOf (256 * line)) fun q => { q with msc := tmod {} q.msc line f }

/-- A line that a discard removes. -/
def gone (x : StackReq) (m : MscLine) : Bool := x.kind == 4 && m.hctx == x.hctx && m.hyp != 0 && x.ids.contains m.hyp

/-- What a request finds in the cache: a line that a discard received earlier will remove is not there for it (R45). -/
def lookup (s : State) (k : Nat) (r : StackReq) : MscLine :=
  let m := mscOf s r.line
  if (s.stack k).reqs.any fun x => decide (x.seq < r.seq) && gone x m then {} else m

/-- A read that hits gives the line up: its sectors go to L2, with DRAM data for invalid ones of a 256-byte read, and dirty data stays
dirty (R44). -/
def readHit (s : State) (k : Nat) (r : StackReq) (m : MscLine) : State :=
  let s1 := modMsc s r.line fun _ => {}
  if m.valid = 15 ∨ (r.kind = 0 ∧ m.valid.testBit (r.addr % 4)) then
    readDone (complete (noteBursts s1 k r false (readPas r)) k r 0) r m.dirty
  else modAt s1 k r.tag fun x => { x with mask := m.dirty, sects := 15 - m.valid }

/-- A base die takes a request: its deadline in full, whether it is held (it may hold a frugal one), and the cache lookup (R28, R34,
R43, R44). DESIGN CHOICE (log 58). -/
def execBaseDieRequest (stack tag : Nat) (s : State) : Out :=
  .next (match reqAt s stack tag with
    | none => s
    | some r =>
      if r.seen || r.kind == 3 || r.kind == 4 || earlier s stack r || channelStill s (chanOfReq r) || fillBlocked s r then s
      else if (s.memChan (chanOfReq r)).state = 2 then downDone s stack r
      else
        let r := { r with seen := true, full := fullDeadline (stackCt s stack) r.deadline, eligible := r.cls != 2 || pick s (2 ^ 33 + tag) % 2 == 1 }
        let s1 := modAt s stack tag fun _ => r
        let m := lookup s stack r
        if r.kind = 2 then
          -- a masked write updates a cached address
          let s2 := noteBursts s1 stack r true [r.pa]
          (if m.valid.testBit (r.addr % 4) then complete (modMsc s2 r.line fun m => { m with dirty := m.dirty ||| 2 ^ (r.addr % 4) }) stack r 0 else s2)
        else if m.valid = 0 then s1
        else readHit s1 stack r m)

/-- The line that a fill displaces: of 16 in its set, the least recently filled, and of lines filled in one tick that of the lowest number.
8,192 sets (R42). The manual fixes no set index. DESIGN CHOICE (log 58). -/
def mscRoom (q : Stack) (line : Nat) : Option Nat :=
  let same := (tkeys q.msc).filter fun l => l / 8 % 8192 == line / 8 % 8192
  if same.contains line || decide (same.length < 16) then none else (sortBy (fun l => (tget {} q.msc l).filled) same).head?

/-- An L2 victim fills its sectors; a line it displaces writes its dirty sectors to DRAM (R43). One line bears one tag: a fill under
another displaces what the line held. DESIGN CHOICE (log 58). -/
def fillMsc (q : Stack) (r : StackReq) (now : Nat) : Stack :=
  let t := match mscRoom q r.line with | some l => tdel q.msc l | none => q.msc
  let old := tget {} t r.line
  let keep := decide (old.hctx = r.hctx ∧ old.hyp = r.hyp)
  let new : MscLine := { hctx := r.hctx, hyp := r.hyp, filled := now
                         valid := r.sects ||| (if keep then old.valid else 0), dirty := r.mask % 16 ||| (if keep then old.dirty else 0) }
  { q with msc := tset {} t r.line new }

def execVictimFill (stack tag : Nat) (s : State) : Out :=
  .next (match reqAt s stack tag with
    | none => s
    | some r =>
      if r.kind != 3 || earlier s stack r || channelStill s (chanOfReq r) then s
      else
        let r := { r with full := fullDeadline (stackCt s stack) r.deadline }
        if (s.memChan (chanOfReq r)).state = 2 then downDone s stack r
        else
          let s1 := noteBursts s stack r true ((maskSects r.sects).map fun k => 256 * r.line + 64 * k)
          complete (modStack s1 stack fun q => fillMsc q r s.ct) stack r 0)

/-- A discard removes every line of the context whose id is in the set, once requests received earlier for those lines are done
(R45). -/
def execDiscardByHypothesis (stack tag : Nat) (s : State) : Out :=
  .next (match reqAt s stack tag with
    | none => s
    | some r =>
      let wait := (s.stack stack).reqs.any fun x => decide (x.seq < r.seq) && x.kind != 4 && (gone r (mscOf s x.line) || gone r { hctx := x.hctx, hyp := x.hyp })
      if r.kind != 4 || wait then s
      else complete (modStack s stack fun q => { q with msc := q.msc.filter fun e => !gone r e.2 }) stack
        { r with full := fullDeadline (stackCt s stack) r.deadline } 0)

/-! ## Channel schedulers (R33, R34, R37, R38) -/

/-- Bank and row of a line in the base die's own order (R25). The manual gives no number of banks: 64 here. DESIGN CHOICE (log 57). -/
def bankOf (line : Nat) : Nat := Config.bankOf line % 64
def rowOf (line : Nat) : Nat := Config.rowOf line

/-- The bank takes commands: one whose refresh can be postponed no further takes none (R37). DESIGN CHOICE (log 57). -/
def bankOpen (s : State) (r : StackReq) : Bool := decide (tget 0 (s.memChan (chanOfReq r)).postponed (bankOf r.line) < 8)

/-- The bank can accept a command now: when it can is open (R33). DESIGN CHOICE (log 57). -/
def bankReady (s : State) (r : StackReq) : Bool := bankOpen s r && pick s (2 ^ 32 + bankOf r.line) % 2 == 0

/-- A request may be chosen: it has been received, and a frugal one is no longer held (R34). -/
def mayChoose (now : Nat) (r : StackReq) : Bool := r.seen && (r.eligible || decide (r.full ≤ now + 512))

/-- Order of R33: overdue first, then by class; within each by deadline, then by arrival. -/
def schedRank (now : Nat) (r : StackReq) : Nat :=
  let step := if r.full ≤ now then 0 else 1 + min r.cls 2
  (step * 2 ^ 70 + r.full) * 2 ^ 64 + r.seq

/-- Hits the open row of its bank. -/
def rowHit (s : State) (r : StackReq) : Bool :=
  (s.memChan (chanOfReq r)).openRow.any fun e => e.1 == bankOf r.line && e.2 == rowOf r.line + 1

/-- The channel may serve this request next (R33), its own bank being ready: the first of those whose bank is ready, or one of its
step that hits an open row where the first keeps at least 64 ticks. DESIGN CHOICE (log 57). -/
def mayServe (s : State) (k : Nat) (r : StackReq) : Bool :=
  let now := stackCt s k
  let cand := (s.stack k).reqs.filter fun x =>
    mayChoose now x && chanOfReq x == chanOfReq r && (if x.tag = r.tag then bankOpen s x else bankReady s x) && !earlier s k x
  cand.any (fun x => x.tag == r.tag) && match sortBy (schedRank now) cand with
    | f :: _ => f.tag == r.tag ||
        (min f.cls 2 == min r.cls 2 && rowHit s r && decide (now + 64 ≤ f.full))
    | [] => false

/-- Open the row; held requests to it become eligible (R34). -/
def openRow (s : State) (k : Nat) (r : StackReq) : State :=
  let s1 := modMemChan s (chanOfReq r) fun c => { c with openRow := tset 0 c.openRow (bankOf r.line) (rowOf r.line + 1) }
  let up := fun (x : StackReq) =>
    if x.seen && chanOfReq x == chanOfReq r && bankOf x.line == bankOf r.line && rowOf x.line == rowOf r.line then { x with eligible := true } else x
  modStack s1 k fun q => { q with reqs := q.reqs.map up }

/-- The sectors that a read takes from DRAM, with what the code found in each. -/
def dramSects (r : StackReq) (ecc : List EccResult) : List (Nat × EccResult) :=
  let ks := if r.kind = 0 then [r.addr % 4] else maskSects r.sects
  ks.zipIdx.map fun e => (256 * r.line + 64 * e.1, ecc.getD e.2 .ok)

/-- A channel serves its chosen request, and the completion leaves (R33, R35, R38). A scrub read is PATROL_SCRUB's. -/
def execDramRequestServed (stack tag : Nat) (ecc : List EccResult) (s : State) : Out :=
  .next (match reqAt s stack tag with
    | none => s
    | some r =>
      if !r.seen || decide (2048 ≤ tag) || channelStill s (chanOfReq r) || fillBlocked s r then s
      else if (s.memChan (chanOfReq r)).state = 2 then downDone s stack r
      else if !mayServe s stack r then s
      else
        let s1 := openRow s stack r
        if r.kind = 2 then complete s1 stack r 0
        else
          let es := dramSects r ecc
          let s2 := es.foldl (fun s e => eccEffect s e.1 false e.2) (noteBursts s1 stack r false (readPas r))
          readDone (complete s2 stack r (eccStatus (es.map Prod.snd))) r r.mask)

/-- A held frugal request becomes eligible at D − 512 (R34). -/
def execFrugalHoldRelease (stack tag : Nat) (s : State) : Out :=
  .next (match reqAt s stack tag with
    | none => s
    | some r => if r.seen && !r.eligible && decide (r.full ≤ stackCt s stack + 512) then modAt s stack tag fun x => { x with eligible := true } else s)

/-- A gap for a refresh of a bank: no urgent or overdue request for the bank waits (R37). DESIGN CHOICE (log 57). -/
def refreshGap (s : State) (channel bank : Nat) : Bool :=
  let k := channel / 32
  (s.stack k).reqs.all fun r => !(r.seen && chanOfReq r == channel && bankOf r.line == bank && (r.cls == 0 || decide (r.full ≤ stackCt s k)))

/-- The refresh of a bank that falls due is issued in a gap, closing the bank's row, or postponed, by no more than 8 intervals; a
postponed one is issued in a gap. One that can be postponed no further takes the bank at once (R37). -/
def execRefreshDue (channel bank : Nat) (how : RefreshStep) (s : State) : Out :=
  let n := tget 0 (s.memChan channel).postponed bank
  let free := refreshGap s channel bank || decide (8 ≤ n)
  let put := fun (n : Nat) (close : Bool) => modMemChan s channel fun c => { c with
    postponed := tset 0 c.postponed bank n, openRow := if close then tdel c.openRow bank else c.openRow }
  .next (
    if Config.channels ≤ channel then s
    else match how with
    | .catchUp => if n ≠ 0 ∧ free then put (n - 1) true else s
    | .issue => if free then put n true else put (n + 1) false
    | .postpone => if n < 8 then put (n + 1) false else put n true)

/-- The scrubber reads a place of a stack (R38): a frugal request of its base die under requester 42, which its channel serves like
any other. R32 gives it no deadline: that of a prefetch. DESIGN CHOICE (log 101). -/
def execPatrolScrub (stack addr : Nat) (ecc : EccResult) (s : State) : Out :=
  let tag := 2048
  .next (
    if Config.memBytes ≤ addr ∨ stackOf addr ≠ stack then s
    else match reqAt s stack tag with
    | none =>
      let r : StackReq := { tag := tag, addr := addr / 64, cls := 2, full := stackCt s stack + 8192, reqr := 42, seen := true, seq := s.seq, eligible := false }
      modStack { s with seq := s.seq + 1 } stack fun q => { q with reqs := q.reqs ++ [r] }
    | some r =>
      if r.addr ≠ addr / 64 ∨ channelStill s (chanOfReq r) then s
      else if (s.memChan (chanOfReq r)).state = 2 then downDone s stack r
      else if !mayServe s stack r then s
      else
        let s1 := complete (openRow s stack r) stack r (eccStatus [ecc])
        let above := (l2Of s r.pa).present || (mscOf s r.line).valid.testBit (r.addr % 4)
        eccEffect (modStack s1 stack fun q => { q with scrubAt := addr }) r.pa above ecc)

/-! ## Retraining (R46, R47) -/

/-- Some granule of a page of the given size resolves to a channel: a page of 64 KiB or more reaches every channel (R25). -/
def pageHits (base size channel : Nat) : Bool :=
  decide (65536 ≤ size) || (List.range 16).any fun k => channelOf (base + 256 * k) == channel

/-- Some mapping under a table resolves to a channel. -/
def tableHits (s : State) (channel : Nat) : List Nat → Nat → Bool
  | [], _ => false
  | sh :: rest, table => (List.range 512).any fun i =>
    let e := memRead s (table + 8 * i) 8
    bit e 0 && (if bit e 7 then !bit e 8 && pageHits (bits e 51 12 * 4096) (2 ^ sh) channel
                else tableHits s channel rest (bits e 51 12 * 4096))

/-- Contexts with a mapping that resolves to a channel. -/
def ctxsMapped (s : State) (channel : Nat) : List Nat :=
  (liveCtxs s).filter fun h => tableHits s channel [39, 30, 21, 12] (s.part (s.context h).part).root

/-- A channel that cannot be repaired is down: an error event, and a machine check to every context mapped to it. The event's category is
the model's: 7, for the manual names none. DESIGN CHOICE (log 97). -/
def channelLost (s : State) (k : Nat) : State :=
  let s1 := recordError (modMemChan s k fun c => { c with state := 2 }) (repChannel k) 7 0 0
  if (ctxsMapped s1 k).isEmpty then s1 else checkCtxs s1 (ctxsMapped s1 k)

/-- Requests of a channel that is found down, at the base die and in the miss queues, complete with CHANNEL_DOWN (R47); each whose
deadline has passed is counted (R35). -/
def failHeld (s : State) (ch : Nat) : State :=
  let k := ch / 32
  let mine := fun (r : StackReq) => r.kind != 4 && chanOfReq r == ch
  let s1 := ((s.stack k).waits.filter mine).foldl (fun s r => downDone s k { r with tag := 2 ^ 16 })
    (modStack s k fun q => { q with waits := q.waits.filter fun r => !mine r })
  ((s1.stack k).reqs.filter mine).foldl (fun s r => downDone s k r) s1

/-- Retraining ends within 300,000 ticks: at most 2 failed lanes in each 32 are replaced, else the channel is down. -/
def execChannelRetrainDone (channel failedLow failedHigh : Nat) (s : State) : Out :=
  .next (
    if s.retraining ≠ some channel then s
    else
      let s1 := blackBox { s with retraining := none } { kind := 7, code := channel } (some (repChannel channel))
      if failedLow ≤ 2 ∧ failedHigh ≤ 2 then
        (let s2 := modMemChan s1 channel fun c => { c with state := 0, repaired := failedLow + failedHigh }
         pumpStack (channel / 32) (s2.stack (channel / 32)).waits.length s2)
      else failHeld (channelLost s1 channel) channel)

end Sys2Proof.Machine
end

