-- ==== Sys2Proof/Machine/Replies.lean ====
section
/-! DEFINITION. Replies and completions as they reach the cores (R159, R180, R200–R202, R211, R434), accesses performed away from
the homes (R173, R176, R190, R382), the host-line buffer's events (R74) and the host's own accesses to device memory (R73). -/

namespace Sys2Proof.Machine

/-- A request is done: it leaves the list. -/
def dropReq (s : State) (id : Nat) : State := { s with reqs := s.reqs.filter fun r => r.id != id }

/-! ## Waiting limits (R199, R200, R211) -/

/-- Shaped delivery of a load (R211): ticks of the context, for paths 0x00, 0x01, 0x06 and 0x07. DEDUCED (log 32). -/
def shapedFor (s : State) (r : Req) : Nat := match r.place with | .gang _ _ => 0 | _ => if r.copy.isSome || r.kind == .pref then 0 else shapeOf s r.ctx

/-- A reply that has reached the core and whose delivery tick has come (R211). -/
def Req.due (r : Req) (s : State) : Bool := r.ready && decide (r.issueCt + shapedFor s r ≤ coreCt s r.core)

/-- The request that carries a lane's load. -/
def laneReq (s : State) (b g load L : Nat) : Option Req :=
  s.reqs.find? fun r => r.kind == .load && r.load == load && r.block == b && r.grp == g && r.copy.isNone && r.parts.any fun p => p.lane == L

/-- A lane's load may expire: it waits under a limit of at most the ticks given, not in a group that is drained (R210), not where its
limit passed with no slot free (R201); a load of another block's memory never reaches its limit (R199). -/
def limitPast (s : State) (b g : Nat) (l : LoadI) (L ticks : Nat) : Bool :=
  let q := s.group b g
  let n := tget 0 l.limit L
  inMask l.waiting L && n != 0 && decide (l.issueCt + n ≤ ticks) && !inMask l.noGuess L && !q.stopped &&
  (match laneReq s b g l.id L with
    | some r => (match r.place with | .gang _ _ => false | _ => true)
    | none => true)

/-- A lane's limit expires in this tick: its reply is not delivered in it (R200, R211). Not in the hold state, where the guess comes with
the next issue (R87). -/
def limitDue (s : State) (b g : Nat) (l : LoadI) (L : Nat) : Bool :=
  running s && limitPast s b g l L (coreCt s (s.block b).core) &&
  (match laneReq s b g l.id L with
    | some r => !r.due s
    | none => true)

/-- The limit of a lane's load has passed with no reply in its register: its guess (R200, R201, R203). -/
def execWaitLimitExpiry (b g load L : Nat) (s : State) : Out :=
  .next (match (s.group b g).loadOf load with
    | none => s
    | some l => if limitDue s b g l L then expireLane s b g load L else s)

/-- A limit that expires while the core clocks stand: the guess comes with the lane's next issue, and is the prediction of this tick (R87,
R203, R205). -/
def fixGuess (s : State) (b g : Nat) (l : LoadI) (L : Nat) : State :=
  let late := limitPast s b g l L (coreCt s (s.block b).core) && (match laneReq s b g l.id L with
    | some r => !r.due s
    | none => true)
  if running s || !late || l.fixed.any (fun e : Nat × List W32 => e.1 == L) then s
  else modGroup s b g fun q => q.modLoad l.id fun l => { l with fixed := tins L (predictNow s b g l L) l.fixed }

/-- At the end of a tick every limit that it brings has expired (R200). -/
def expireDue (s : State) : State :=
  (tkeys s.blocks).foldl (fun s b => (tkeys (s.block b).groups).foldl (fun s g => (s.group b g).loads.foldl (fun s l =>
    (lanesOf l.waiting).foldl (fun s L => if limitDue s b g l L then expireLane s b g l.id L else fixGuess s b g l L) s) s) s) s

/-- A lane whose limit passed in the hold state makes its guess before a reply that comes later (R87, R200). -/
def expireFirst (s : State) (b g load L : Nat) : State :=
  match (s.group b g).loadOf load with
  | none => s
  | some l => if limitPast s b g l L (coreCt s (s.block b).core - 1) then expireLane s b g load L else s

/-! ## Loads -/

/-- The lanes of a request whose limits have passed make their guesses. -/
def expireParts (s : State) (r : Req) : State :=
  if r.kind = .load ∧ r.copy.isNone then r.parts.foldl (fun s p => expireFirst s r.block r.grp r.load p.lane) s else s

/-- A lane of the request, or of one that joined its fill, has made its guess in this very tick: the reply is a later tick's (R200). -/
def guessedNow (s : State) (r : Req) : Bool := hit r || s.reqs.any fun x => x.join == some r.id && hit x
where
  hit (r : Req) : Bool :=
    r.kind == .load && r.copy.isNone && match (s.group r.block r.grp).loadOf r.load with
      | none => false
      | some l => r.parts.any fun p => inMask l.expired p.lane && l.issueCt + tget 0 l.limit p.lane == coreCt s r.core

/-- Offset of the first byte that a reply carries. -/
def Req.from_ (r : Req) : Nat := match r.place with | .gang _ _ => r.parts.foldl (fun m p => min m p.off) (2 ^ 64) | _ => 0

/-- Deliver a reply to every lane of a request. -/
def deliverParts (s : State) (r : Req) : State :=
  r.parts.foldl (fun s p => deliverLane s r.block r.grp r.load p.lane (r.sect.drop (p.off - r.from_)) r.status r.fcode r.err) s

/-- A reply fills the sector of the core that asked for it (R158, R159, R434). -/
def fillFrom (s : State) (r : Req) (pa : Nat) : State :=
  if r.na || r.noFill || r.status != 0 then s
  else fillSector s r.core r.isConst (pa / 64) { valid := true, expiry := r.lease, hctx := r.hctx, hyp := r.hyp, data := r.sect } r.ef

/-- A load that joined this fill has its data too: delivered with it, or at its own delivery tick (R159, R434). -/
def giveJoined (s : State) (r : Req) : State :=
  (s.reqs.filter fun x => x.join == some r.id).foldl (fun s x =>
    let y := { x with join := none, stage := .reply, sect := r.sect, na := true, lease := 0, status := r.status, err := r.err, ctc := r.ctc }
    if shapedFor s x = 0 then deliverParts (dropReq (expireParts s x) x.id) y
    else modReq s x.id fun _ => { y with ready := decide (coreCt s x.core ≤ x.issueCt + shapedFor s x) }) s

/-- A reply is delivered: to the sector, the loads that joined it, its lanes, its COPY (R159, R202, R254). -/
def deliverReq (s : State) (r : Req) : State :=
  let s1 := expireParts s r
  let s2 := match r.place with | .home pa => fillFrom s1 r pa | _ => s1
  let s3 := giveJoined (dropReq s2 r.id) r
  if r.kind = .pref then s3
  else match r.copy with
    | some id => (match jobOf s3 id with
      | some (b, _) => copyPump (copyReply s3 r) b id
      | none => s3)
    | none => deliverParts s3 r

/-- LATE of the context's partition counts a reply that comes after its delivery tick (R211). -/
def countLate (s : State) (r : Req) : State := modPart s r.part fun p => { p with shapeLate := min 65535 (p.shapeLate + 1) }

/-- A load reply reaches its core; one of a shaped context waits there for its delivery tick (R200, R211). -/
def execLoadReplyArrival (req : Nat) (s : State) : Out :=
  .next (match s.reqs.find? fun r => r.id == req with
    | none => s
    | some r =>
      let due := r.issueCt + shapedFor s r
      if !(r.kind == .load || r.kind == .pref) || r.inb.isSome || r.stage != .reply || guessedNow s r then s
      else if shapedFor s r = 0 then deliverReq s r
      else if coreCt s r.core < due then modReq s req fun x => { x with ready := true }
      else deliverReq (if due < coreCt s r.core ∧ !r.ready then countLate s r else s) r)

/-- Replies whose delivery tick this is are delivered in it, then those of loads that joined them (R211, R434). -/
def deliverShaped (s : State) : State := once (once s)
where
  once (s : State) : State := (s.reqs.filter fun r => r.due s && !guessedNow s r).foldl (fun s r => deliverReq s r) s

/-! ## Accesses performed away from the homes (R176) -/

/-- Bytes of a store in host memory are written by WrCur (R74). -/
def hostStoreApply (s : State) (r : Req) (pa : Nat) : State := hostWrite s (r.bytes.map fun e => (pa + e.1, e.2))

/-- An atomic on a line the buffer owns, lane by lane (R74, R381). -/
def hostAtomic (s : State) (r : Req) (pa : Nat) : State :=
  let go := r.parts.foldl (fun (acc : State × List Part) p =>
    let old := ofLeBytes (hostView acc.1 (pa + p.off) p.w)
    let new := atomNew r.sub r.amod r.ty old p.opB p.opC
    (hostWrite acc.1 ((leBytes p.w new).zipIdx.map fun e => (pa + p.off + e.2, e.1)), acc.2 ++ [{ p with old := old }])) (s, [])
  modReq go.1 r.id fun x => { x with parts := go.2 }

/-- Bytes a load reads at another block's port, from the first offset it names. -/
def gangBytes (s : State) (r : Req) (b : Nat) (a : Bool) : List Byte :=
  chipBytes s (.far b a r.from_) (r.parts.foldl (fun m p => max m (p.off + p.w)) 0 - r.from_)

/-- A store or atomic on another block's storage, at its port (R176, R382). -/
def gangApply (s : State) (r : Req) (b : Nat) (a : Bool) : State :=
  if r.kind = .store then r.bytes.foldl (fun s e => putChip s (.far b a e.1) [e.2]) s
  else
    let go := r.parts.foldl (fun (acc : State × List Part) p =>
      let old := ofLeBytes (chipBytes acc.1 (.far b a p.off) p.w)
      (putChip acc.1 (.far b a p.off) (leBytes p.w (atomNew r.sub r.amod r.ty old p.opB p.opC)), acc.2 ++ [{ p with old := old }])) (s, [])
    modReq go.1 r.id fun x => { x with parts := go.2 }

/-- An access reaches another block's port: a load takes its bytes, a write is done and has its completion time (R20, R176). -/
def gangPerform (s : State) (r : Req) (b : Nat) (a : Bool) : State :=
  let now := coreCt s r.core
  if r.kind = .load then modReq s r.id fun x => { x with stage := .reply, sect := gangBytes s r b a, ctc := now }
  else modReq (gangApply s r b a) r.id fun x => { x with stage := .reply, ctc := now + 4 }

/-- A block's storage is about to be freed: what is on its way to it is performed, in order (R106, R120). DESIGN CHOICE (log 103). -/
def gangFlush (s : State) (b : Nat) : State :=
  s.reqs.foldl (fun s r => match r.place with
    | .gang k a => if k = b ∧ r.stage = .egress then gangPerform s r b a else s
    | _ => s) s

/-- A dirty sector is written to DRAM for CWB: a frugal masked write (R32, R173). -/
def writeBackSector (s : State) (r : Req) (pa h id : Nat) : State :=
  sendStack s (stackOf pa) { kind := 2, addr := pa / 64, cls := 2, deadline := homeCt s pa + 8192, reqr := 42, hctx := h, hyp := id
                             mask := 2 ^ sectIn pa, ids := [r.id] }

/-- CWB on a committed line: its dirty sectors go to DRAM, and it stays, clean (R173). -/
def cwbLine (s : State) (r : Req) (line : Nat) : State :=
  let d := (l2Of s (256 * line)).dirty
  modL2 ((List.range 4).foldl (fun s k => if d.testBit k then writeBackSector s r (256 * line + 64 * k) 0 0 else s) s) (256 * line)
    fun l => { l with dirty := 0 }

/-- CWB on the versions of a lane's hypothesis in a line: they are written to their vat entries, and stay (R220, R224). -/
def cwbVersions (s : State) (r : Req) (h id line : Nat) : State :=
  (s.versions.filter fun v => v.hctx == h && v.id == id && v.sector / 4 == line && !v.inVat).foldl (fun s v =>
    match vatPa s h v.entry with
    | none => s
    | some pa =>
      let s1 := writeBackSector (writeBackSector (writeVat s v) r pa h id) r (pa + 64) h id
      { s1 with
        versions := s1.versions.map fun u => if u.hctx = h ∧ u.id = id ∧ u.sector = v.sector then { u with stored := true } else u
        l2 := tmod {} s1.l2 (l2Key line h id) fun l => { l with dirty := l.dirty - l.dirty % 2 ^ (v.sector % 4 + 1) / 2 ^ (v.sector % 4) * 2 ^ (v.sector % 4) } }) s

/-- CWB and CINV at the lines of their ranges (R173): dirty sectors are written to DRAM, lines of the host-line buffer are given up, and
CINV drops the issuing core's instruction-cache lines. -/
def rangeApply (s : State) (r : Req) : State :=
  -- a line and a hypothesis that asks for it, as one number
  let lines := dedup ((r.parts.filter fun p => p.w = 0).map fun p => 256 * p.off + p.opB)
  let hosts := dedup ((r.parts.filter fun p => p.w = 1).map fun p => p.off)
  let s1 := hosts.foldl (fun s n => (List.range 4).foldl (fun s k => giveLine s (4 * n + k)) s) s
  if r.kind = .cinv then modCore s1 r.core fun c => { c with icache := c.icache.filter fun e =>
    !((lines.any fun n => iLine false n == e.1) || hosts.any fun n => iLine true (256 * n) == e.1) }
  else lines.foldl (fun s n =>
    let s := cwbLine s r (n / 256)
    match (s.context r.ctx).hctx with
    | some h => if n % 256 = 0 then s else cwbVersions s r h (n % 256) (n / 256)
    | none => s) s1

/-- No earlier write of the core is still on its way: the completion of a range covers the lines as those writes leave them. -/
def rangeReady (s : State) (r : Req) : Bool :=
  s.reqs.all fun x => !(x.core == r.core && decide (x.id < r.id) && (x.kind == .store || x.kind == .atomic) && x.stage != .reply && x.copy.isNone && x.inb.isNone && !x.fromHost &&
    (match x.place with | .home _ | .host _ => true | _ => false))

/-- Every write-back of a range has reached DRAM. -/
def rangeDone (s : State) (r : Req) : Bool :=
  s.memStacks.all fun k => (k.2.reqs ++ k.2.waits).all fun x => x.kind != 2 || !x.ids.contains r.id

/-- A request that no home slice serves is performed: at the host, at another block's port, or along a range (R74, R173, R176). -/
def performReq (s : State) (id : Nat) : State :=
  match s.reqs.find? fun r => r.id == id with
  | none => s
  | some r =>
    let now := coreCt s r.core
    let end_ := fun (s : State) (t : Nat) => modReq s id fun x => { x with stage := .reply, ctc := t }
    let writes := s.pkg.linkUp && !r.hold && firstOut s r
    match r.kind, r.place, r.stage with
    | .cwb, _, .egress | .cinv, _, .egress => if rangeReady s r then modReq (rangeApply s r) id fun x => { x with stage := .held } else s
    | .cwb, _, .held | .cinv, _, .held => if rangeDone s r then end_ s (now + 4) else s
    | .load, .host pa, .egress =>
      if s.pkg.linkUp && firstOut s r then modReq s id fun x => { x with stage := .reply, sect := hostView s pa 64, ctc := now } else s
    | .store, .host pa, .egress => if writes then end_ (hostStoreApply s r pa) now else s
    | .atomic, .host pa, .egress => if writes && lineOwned s (pa / 64) then end_ (hostAtomic s r pa) now else s
    | _, .gang b a, .egress => if (s.block b).resident && firstOut s r then gangPerform s r b a else s
    | _, _, _ => s

/-! ## Completions (R180) -/

/-- An atomic with fetch answers its lanes: D, its scoreboard, and what waited for it. -/
def answerAtomic (s : State) (r : Req) : State :=
  match r.dest with
  | none => s
  | some d => r.parts.foldl (fun s p => landed s (modGroup s r.block r.grp fun q =>
      -- an atomic that the peer refused writes nothing (R58, R258)
      let q := if r.status = 2 then q else q.putLoad r.word d p.lane (extLoad r.ty (leBytes 8 p.old)) false
      ((q.pendSub (destKeys d (nregOf r.ty) p.lane)).answered p.lane r.id).sweepSlots)
      r.block r.grp (if r.status = 2 then [] else regsOf d (nregOf r.ty) p.lane)) s

/-- The lanes of a request keep a completion time. -/
def payLanes (s : State) (r : Req) (t : Nat) : State := r.parts.foldl (fun s p => bumpPct s r.block r.grp p.lane t) s

/-- A finished write or atomic returns: to its lanes, or to its COPY, which counts the bytes delivered (R254). -/
def completeReq (s : State) (r : Req) (t : Nat) : State :=
  let s1 := dropReq s r.id
  match r.copy with
  | some id => match jobOf s1 id with
    | some (b, _) => modJob s1 b id fun j => { j with
        maxCtc := max j.maxCtc t, bytes := j.bytes + (if r.status = 0 then r.bytes.length else 0) }
    | none => s1
  | none => payLanes (answerAtomic s1 r) r t

/-- The completion time that a request brings: that of its application, or for a fabric or host write the local CT at its
acknowledgement (R20, R180). -/
def returnTime (s : State) (r : Req) : Nat := match r.place with | .home _ | .gang _ _ => r.ctc | _ => coreCt s r.core

/-- A completion time or acknowledgement returns (R180). -/
def execWriteCompletionReturn (req : Nat) (s : State) : Out :=
  .next (match s.reqs.find? fun r => r.id == req with
    | none => s
    | some r => if r.inb.isSome ∨ r.fromHost ∨ r.core = 64 ∨ !r.writes ∨ r.stage ≠ .reply then s else completeReq s r (returnTime s r))

/-! ## The host-line buffer (R74) -/

/-- A channel whose poll of a host word waits for the line reads it (R84). -/
def readPolled (s : State) (line : Nat) (e : Nat × Nat) : State :=
  let of := fun (w : Option (Bool × Nat)) (v : Option Nat) => match w, v with
    | some (true, a), none => if a / 64 = line then some (ofLeBytes (hostView s a 8)) else none
    | _, v => v
  evalChan (modChan s e.1 e.2 fun k => { k with v0 := of k.w0 k.v0, v1 := of k.w1 k.v1 }) e.1 e.2

/-- The buffer performs an atomic on a line it owns, which the atomic's context then holds (R272). -/
def bufferAtomic (line : Nat) (s : State) (r : Req) : State :=
  let t := performReq s r.id
  { t with lineCtxs := tmod [] t.lineCtxs line fun cs => dedup (cs ++ [r.ctx]) }

/-- The host answers RdOwn: the buffer owns the line and performs the atomics and sync-word reads that wait for it. -/
def execRdownResponse (line : Nat) (s : State) : Out :=
  let waits := s.reqs.filter fun r => r.kind == .atomic && r.stage == .egress && !r.hold && r.place == .host (64 * line)
  let chans := (waitersOn s true (64 * line) 64).filter fun e => let k := s.chan e.1 e.2; k.v0.isNone || k.v1.isNone
  .next (
    if !s.pkg.linkUp || (waits.isEmpty && chans.isEmpty) then s
    else chans.foldl (fun s e => readPolled s line e) (waits.foldl (bufferAtomic line) (ownLine s line)))

/-- The host snoops a line of the buffer, which gives it up. -/
def execHostLineSnoop (line : Nat) (s : State) : Out := .next (giveLine s line)

/-! ## The host's accesses to device memory (R73) -/

/-- A host read of 64 bytes is a committed load at its home, stamped normal with the CT of its arrival + 1,024 (R32). Reads of the
reserved range return zero (R267). DEDUCED (log 92). -/
def execCxlMemRead (pa : Nat) (s : State) : Out :=
  let base := pa / 64 * 64
  let r : Req := { id := s.seq, kind := .load, place := .home base, stage := .held, fromHost := true, core := 64, na := true, acceptSeq := s.seq
                   deadline := homeCt s base + 1024 }
  .next (if base + 64 > Config.emergencyBase then { s with readData := List.replicate 64 0 }
    else loadHeld (addReq (stackAwake s base true) r) r base .none)

/-- A host write is accepted at the home as a store. DEDUCED (log 92). -/
def execCxlMemWrite (pa : Nat) (bytes : List Byte) (s : State) : Out := .next (hostStore s pa bytes)

/-- The host's answer to the oldest snoop of a line: after BISnpInv it no longer holds the line; after BISnpData the lease may be
granted. -/
def execBisnpResponse (line : Nat) (s : State) : Out :=
  .next (match s.snoops.find? fun x => x.line == line && !x.answered with
    | none => s
    | some x => { s with
        snoops := s.snoops.map fun y => if y = x then { y with answered := true } else y
        hostCached := if x.inv then s.hostCached.filter (· ≠ line) else s.hostCached })

end Sys2Proof.Machine
end

