-- ==== Sys2Proof/Machine/Power.lean ====
section
/-! DEFINITION. Resets, bring-up, temperature, the thermal trip, power and chip time (R8–R23, R87, R88, R270). -/

namespace Sys2Proof.Machine

/-! ## The mailbox's end of a command (R91) -/

/-- A command finishes: CODE, BUSY clear, MSI-X vector 0 of function 0. DEDUCED (log 47). -/
def mboxDone (s : State) (code : Nat) : State :=
  sendMsi { s with svc := { s.svc with busy := false, code := code } } 0

/-! ## Requests that a lost link or peer completes (R66, R270) -/

/-- Complete a request with an error: a load or fetching atomic gives all-ones bytes, a guessed lane STATUS FAULT, a COPY ends
with STATUS 3 and no lane hears of it; the group takes the cause at its next boundary. DESIGN CHOICE (log 78). -/
def failReq (s : State) (r : Req) (cause : Nat) : State :=
  let bad := { r with status := 3, sect := [], parts := r.parts.map fun p => { p with old := 2 ^ 64 - 1 } }
  let s0 := dropReq (expireParts s r) r.id
  let s1 := match r.kind, r.copy with
    | .load, none => deliverParts s0 bad
    | .load, some _ => copyReply s0 bad
    | .atomic, _ => answerAtomic s0 bad
    | .store, some id => (match jobOf s0 id with
      | some (b, _) => modJob s0 b id fun j => { j with status := 3 }
      | none => s0)
    | _, _ => s0
  if r.copy.isSome then s1
  else modGroup s1 r.block r.grp fun q =>
    (q.mapLanes (maskOf fun L => r.parts.any fun p => p.lane == L) fun _ l =>
      { l with failed := l.failed || cause == 0x16, failedHost := l.failedHost || cause == 0x1A }).pendTrap { cause := cause }

/-! ## Resets (R22) -/

/-- What no reset of the package reaches: the board's flash and fuses, the host, and what is scheduled.
DEDUCED (log 33). DESIGN CHOICE (log 34). -/
def boardKept (s t : State) : State :=
  { t with
    agenda := s.agenda, free := s.free, seq := s.seq, hostMem := s.hostMem
    svc := { t.svc with slotA := s.svc.slotA, slotB := s.svc.slotB, active := s.svc.active, rollMin := s.svc.rollMin, msix := s.svc.msix } }

/-- PWRGOOD rises: all state is cleared and CT is 0. DEDUCED (log 33). DESIGN CHOICE (log 34). -/
def execColdReset (s : State) : Out := .next (boardKept s {})

/-- Some sensor still reads 100 °C or more after a trip (R13). -/
def stillHot (s : State) : Bool :=
  s.pkg.clockStopped && (decide (100 ≤ s.pkg.temp0) || decide (100 ≤ s.pkg.temp1) || decide (100 ≤ s.pkg.tempIo))

/-- The partition of each granule, as warm resets before have left it known (R90). -/
def granuleOwners (s : State) : Tbl Nat :=
  (List.range Config.partitions).foldl (fun t p =>
    let q := s.part p
    if q.set then (List.range q.granN).foldl (fun t k => tins (q.gran0 + k) p t) t else t) s.svc.owned

/-- Chip time, the black box, memory and the retired map are kept (R17, R22, R98–R101). TRIPPED stays, and the clocks run again
only where every sensor reads below 100 °C; where they do not, the readings stay (R13, R14). DEDUCED (log 33). -/
def execWarmReset (s : State) : Out :=
  let s := collect s
  let hot := stillHot s
  let p := s.pkg
  .next (boardKept s {
    ct := s.ct, mem := s.mem, poison := s.poison, poisonBy := s.poisonBy, copyBook := s.copyBook
    cores := (tmapv (fun c : Core => { retired := c.retired : Core }) s.cores).filter fun e => e.2.retired
    svc := { bb := s.svc.bb, bbCount := s.svc.bbCount, errors := { seq := s.svc.errors.seq }, owned := granuleOwners s }
    pkg := {
      off0 := p.off0, off1 := p.off1, tgt0 := p.tgt0, tgt1 := p.tgt1, tripped := p.tripped, clockStopped := hot, tripOut := hot
      temp0 := if hot then p.temp0 else 0, temp1 := if hot then p.temp1 else 0, tempIo := if hot then p.tempIo else 0 } })

/-- Host-memory requests that have gone out and are not answered; ranges of CWB and CINV that name host lines among them. -/
def hostInFlight (s : State) : List Req :=
  if !s.pkg.linkUp then []
  else s.reqs.filter fun r => r.inb.isNone && r.core != 64 &&
    (((r.kind == .load || r.kind == .store || r.kind == .atomic) && r.stage == .egress && !r.hold && (match r.place with | .host _ => true | _ => false)) ||
    ((r.kind == .cwb || r.kind == .cinv) && (r.stage == .egress || r.stage == .held) && r.parts.any fun p => p.w == 1))

/-- Whether a write that the reset met took effect is open. DESIGN CHOICE (log 78). -/
def hostMaybe (s : State) (r : Req) : State :=
  if pick s r.id % 2 = 0 then s
  else match r.kind, r.place with
  | .store, .host pa => putHost s (r.bytes.map fun e => (pa + e.1, e.2))
  | .atomic, .host pa => hostAtomic s r pa
  | _, _ => s

/-- A CXL hot reset (R270): requests in flight complete with an error, and the host-line buffer drops its lines; what they held may
or may not have reached the host. The functions' configuration starts anew. PRESUMED (log 76). -/
def execLinkHotReset (s : State) : Out :=
  let rs := hostInFlight s
  let s1 := s.hostLines.foldl (fun t e => if pick s (2 ^ 40 + e.1) % 2 = 0 then t else putHost t (e.2.zipIdx.map fun x => (64 * e.1 + x.2, x.1))) s
  let s2 := rs.foldl hostMaybe { s1 with hostLines := [], lineCtxs := [] }
  let s3 := rs.foldl (fun t r => failReq t r 0x1A) { s2 with hostLines := [], lineCtxs := [] }
  .next (blackBox { s3 with pkg := { s3.pkg with linkUp := false }, hostLink := {} } { kind := 7 })

/-- The link comes up with 16, 8 or 4 lanes at 64, 32 or 16 GT/s (R71). DESIGN CHOICE (log 115). -/
def linkUp (s : State) : State :=
  { s with
    pkg := { s.pkg with linkUp := true }
    hostLink := { s.hostLink with width := 2 ^ (4 - pick s 0 % 3), rate := 2 ^ (6 - pick s 1 % 3) } }

/-- The link has trained again: requests held at the I/O die go on. -/
def execCxlLinkRetrained (s : State) : Out := .next (if 3 ≤ s.pkg.bringup then linkUp s else s)

/-! ## Bring-up (R23) -/

/-- A step of bring-up, after the one before it. -/
def bringStep (s : State) (n : Nat) (f : State → State) : Out :=
  .next (if s.pkg.bringup = n then (let t := f s; { t with pkg := { t.pkg with bringup := n + 1 } }) else s)

/-- Step 1: the active image, or the other slot's with ALERT_STATUS.FW (R96). With neither nothing goes on. -/
def execBringupFwVerify (activeOk otherOk : Bool) (s : State) : Out :=
  if activeOk then bringStep s 0 fun s => blackBox s { kind := 9 }
  else if otherOk then bringStep s 0 fun s =>
    raiseAlert (blackBox { s with svc := { s.svc with active := 1 - s.svc.active } } { kind := 9 }) 5
  else .next s

/-- Step 2: the PLLs lock and chip time runs. -/
def execBringupPllLock (s : State) : Out :=
  bringStep s 1 fun s => { s with pkg := { s.pkg with ctRun := true, lock0 := true, lock1 := true } }

/-- Step 3: the CXL link. -/
def execBringupCxlTrained (s : State) : Out := bringStep s 2 linkUp

/-- Step 4: each channel serves, or is down where it is beyond repair (R41, R47). -/
def execBringupStacksTrained (down : List Nat) (repaired : List (Nat × Nat)) (s : State) : Out :=
  bringStep s 3 fun s => (List.range Config.channels).foldl (fun t k =>
    if down.contains k then channelLost t k
    else modMemChan t k fun c => { c with
      state := 0, repaired := ((repaired.find? fun e : Nat × Nat => e.1 == k).map Prod.snd).getD 0 }) s

/-- Step 5: READY. -/
def execBringupCoresReady (s : State) : Out :=
  if s.pkg.clockStopped then .next s else bringStep s 4 fun s => { s with pkg := { s.pkg with ready := true } }

/-! ## Temperature (R12–R14) -/

/-- All stacks enter or leave self-refresh. -/
def selfRefresh (s : State) (b : Bool) : State := (List.range 8).foldl (fun t k => modStack t k fun q => { q with selfRefresh := b }) s

/-- A freeze or drain under way has failed. -/
def failService (s : State) : State :=
  if s.svc.freezing.isSome || s.svc.draining.isSome then
    mboxDone { s with svc := { s.svc with freezing := none, draining := none } } 4
  else s

/-- A pre-emption save of a context has not been completed: it is under way, or its state stands in the emergency area (R266, R267). -/
def saveOpen (s : State) (h : Nat) : Bool := let c := s.context h; !c.saving.isEmpty || c.saveFault.isSome || s.emergency == some h

/-- The trip: the core clocks stop, the stacks keep their contents, every context is lost; saves and images that were not complete are
reported failed. R13 names no report for a save: the partition's CTX_STOPPED is raised, and no black-box entry written. DESIGN CHOICE
(log 104). -/
def trip (s : State) : State :=
  let s1 := selfRefresh { s with pkg := { s.pkg with clockStopped := true, tripped := true, tripOut := true } } true
  let s2 := (liveCtxs s1).foldl (fun t h => freeCtx (if saveOpen t h then raiseInt t (t.context h).part 18 else t) h) s1
  failService s2

/-- A sample of the sensors: the hottest of each die. DESIGN CHOICE (log 83). -/
def execSensorSample (d0 d1 io : Nat) (s : State) : Out :=
  let top := max d0 (max d1 io)
  let s1 := { s with pkg := { s.pkg with
    temp0 := min d0 255, temp1 := min d1 255, tempIo := min io 255
    warn := s.pkg.warn || decide (95 ≤ top), crit := s.pkg.crit || decide (105 ≤ top) } }
  let s2 := if 95 ≤ top then raiseAlert s1 1 else s1
  let s3 := if 105 ≤ top then raiseAlert s2 2 else s2
  .next (if 115 ≤ top then trip s3 else s3)

/-- The board asserts THERMTRIP_N. -/
def execThermtripNInput (s : State) : Out := .next (trip s)

/-! ## Power (R8, R10) -/

/-- The power alert: its bit, its message, a black-box entry. -/
def powerAlert (s : State) : State :=
  let s1 := blackBox { s with svc := { s.svc with alert := s.svc.alert ||| 1 } } { kind := 8, code := 0 }
  sendMsi s1 1

/-- The 1 ms average in watts: above 2,400 W an overrun starts, to be looked at again after 10 ms. DESIGN CHOICE (log 83). -/
def execPowerAverageCheck (watts : Nat) (s : State) : Out :=
  .next (
    if watts ≤ 2400 then { s with pkg := { s.pkg with overrun := none } }
    else if s.pkg.overrun.isSome then s
    else
      let s1 := if bit s.svc.alert 0 then blackBox s { kind := 8, code := 0 } else powerAlert s
      { s1 with pkg := { s1.pkg with overrun := some (s.ct + 15000000) } })

/-- The end of a further 10 ms of overrun. DESIGN CHOICE (log 83). -/
def execPowerOverrunRecheck (watts : Nat) (s : State) : Out :=
  .next (match s.pkg.overrun with
    | none => s
    | some t =>
      if s.ct < t then s
      else if watts ≤ 2400 then { s with pkg := { s.pkg with overrun := none } }
      else
        let s1 := powerAlert s
        { s1 with pkg := { s1.pkg with overrun := some (t + 15000000) } })

/-! ## Chip time (R18) -/

/-- One count toward the master. -/
def corrected (m : Int) : Int := if 0 < m then m - 1 else if m < 0 then m + 1 else 0

/-- A sync marker, every 1,024 ticks: the offset each follower measures, its correction, and the skew beyond 2 ticks that stops the
contexts until a warm reset. DEDUCED (log 11). -/
def execCtSyncMarker (off0 off1 : Int) (s : State) : Out :=
  let p := s.pkg
  let far := max off0.natAbs off1.natAbs
  let fixes := b2n (off0 != 0) + b2n (off1 != 0)
  let bad := decide (2 < far)
  -- a copy does not decrease: a target below the present offset is reached by withheld counts
  let now := fun (old new : Int) => if new < old then old else new
  let s1 := { s with pkg := { p with
    tgt0 := corrected off0, tgt1 := corrected off1, off0 := now p.off0 (corrected off0), off1 := now p.off1 (corrected off1)
    corr := min 255 (p.corr + fixes), maxOff := min 15 (max p.maxOff far), skew := p.skew || bad, skewStop := p.skewStop || bad } }
  .next (
    if !p.ctRun || s.ct % 1024 != 0 then s
    else if bad then (let s2 := recordError s1 311 6 0 0; checkCtxs s2 (liveCtxs s2))
    else s1)

/-! ## Power states (R87, R88) -/

/-- State 5 needs no resident context and no enabled channel. -/
def standbyOk (s : State) : Bool :=
  (liveCtxs s).isEmpty && s.parts.all fun p => p.2.chans.all fun c => !c.2.enable

/-- A command: refused, or accepted, when it replaces the target. Codes of no state, and so writes with a reserved bit set, are refused.
DEDUCED (log 75). -/
def powerCommand (s : State) (n : Nat) : State :=
  if 6 ≤ n ∨ (n = 5 ∧ !standbyOk s) then { s with pkg := { s.pkg with pRefused := true } }
  else blackBox { s with pkg := { s.pkg with pTarget := n, pBusy := true, pRefused := false } } { kind := 6, code := n }

def execPowerCmdRun (n : Nat) (s : State) : Out := .next (if n = 4 ∨ n = 5 then s else powerCommand s n)
def execPowerCmdHold (s : State) : Out := .next (powerCommand s 4)
def execPowerCmdStandby (s : State) : Out := .next (powerCommand s 5)
def execD3hotEntry (s : State) : Out := .next (powerCommand s 4)

/-- COPYs that a fault's reply met while the core clocks stood go on (R87, R254). -/
def copiesOn (s : State) : State :=
  (tkeys s.blocks).foldl (fun s b => (s.block b).copies.foldl (fun s j => copyPump s b j.id) s) s

/-- The transition is complete: CURRENT takes the target; in state 5 the stacks refresh themselves; where the core clocks run again the
engines go on. -/
def execPowerTransitionDone (s : State) : Out :=
  .next (
    if !s.pkg.pBusy then s
    else
      let n := s.pkg.pTarget
      let s1 := { s with pkg := { s.pkg with pCurrent := n, pBusy := false } }
      let s2 := if n = 5 then selfRefresh s1 true else if s.pkg.pCurrent = 5 then selfRefresh s1 false else s1
      if running s2 then copiesOn s2 else s2)

end Sys2Proof.Machine
end

