-- ==== Sys2Proof/Machine/FabricUnit.lean ====
section
/-! DEFINITION. The fabric router, its links, the service of peers' requests, and token buckets (R48–R70, R94, R97). -/

namespace Sys2Proof.Machine

/-! ## Responses (R57–R59) -/

/-- Status of a load or atomic whose response has come: 1 poison, 2 a fault of the peer. -/
def answerStatus (k : Packet) : Nat := if k.status ≤ 1 then k.status else 2

/-- FABRIC_FAULT becomes pending in the lanes of a write (R58). DESIGN CHOICE (log 26). -/
def peerFault (s : State) (r : Req) (code : Nat) : State :=
  modGroup s r.block r.grp fun q => q.pendTrap { cause := 0x15, detail := code, mask := maskOf fun L => r.parts.any fun p => p.lane == L }

/-- What a response leaves in a COPY (R254). DEDUCED (log 69). -/
def copyAnswer (s : State) (id status code : Nat) : State :=
  match jobOf s id with
  | some (b, _) => if status = 0 then s else modJob s b id fun j => { j with status := (if status = 1 then 2 else if status = 2 then 1 else 3), fcode := code }
  | none => s

/-- A response reaches its request: data for LOAD_REPLY_ARRIVAL, the fetched values of the members of an atomic, the end of a
write. The peer's fault code is carried in ADDR. -/
def takeAnswer (s : State) (r : Req) (k : Packet) : State :=
  let s0 := if k.status = 1 then checkHost (recordError s repL2 1 0 0) else s
  let code := k.addr % 256
  let st := answerStatus k
  match r.kind with
  | .load => if k.typ ≠ 8 then s else modReq s0 r.id fun x => { x with
      stage := .reply, sect := List.replicate (64 * sectLo r) 0 ++ k.data, ctc := coreCt s r.core, fcode := code
      status := if r.copy.isSome then k.status else st }
  | .store =>
    if k.typ ≠ 9 then s
    else modReq (match r.copy with
      | some id => copyAnswer s0 id k.status code
      | none => if st = 2 then peerFault s0 r code else s0) r.id fun x => { x with stage := .reply, status := st }
  | .atomic =>
    if k.typ ≠ (if r.dest.isSome then 10 else 9) then s
    else
      let old := ofLeBytes k.data
      let s1 := if st = 2 then peerFault s0 r code else s0
      modReq s1 r.id fun x => { x with
        stage := .reply, status := st
        parts := r.parts.mapIdx fun n p => { p with old := if st = 1 then 2 ^ 64 - 1 else memberFetch r old n } }
  | _ => s

/-- The outstanding request that a response answers. -/
def requestOf (s : State) (k : Packet) : Option Req :=
  s.reqs.find? fun r => r.stage == .held && r.tag == k.tag && (match r.place with | .peer q _ => q == k.src | _ => false)

/-- A response packet reaches this device. One that answers nothing is dropped (R66). -/
def takeResponse (s : State) (k : Packet) : State :=
  match requestOf s k with
  | some r => pumpFabric (takeAnswer s r k)
  | none => s

def execFabricResponseReceive (k : Packet) (s : State) : Out :=
  .next (if ownPeer s = some k.dest ∧ k.src ≠ k.dest then takeResponse s k else s)

/-! ## The router (R52, R53, R55) -/

/-- Defects of a packet (R52). -/
def defective (k : Packet) : Bool :=
  !([0, 1, 2, 3, 4, 8, 9, 10].contains k.typ) || decide (4 < k.dlen) || k.dest == k.src || k.reserved != 0

/-- Free flits of a virtual channel's receive buffer (R63). -/
def rxFree (q : Port) (vc : Nat) : Nat := 1024 - ((q.inQ.filter fun k => k.vc == vc).map wireFlits).sum

/-- Stop and go signals after the buffers change (R63). -/
def rxSignals (q : Port) : Port :=
  { q with rxStop := (List.range 4).filter fun vc => decide (rxFree q vc ≤ 384) || (q.rxStop.contains vc && decide (rxFree q vc < 640)) }

/-- The oldest packet of its virtual channel leaves a port's receive buffer: discarded, delivered here, or routed on minimally, also by the
intermediate of a route that replaces a port: the manual fixes its way no further (R55). DESIGN CHOICE (log 54). -/
def execFabricPacketReceive (port : Nat) (k : Packet) (s : State) : Out :=
  let q := s.port port
  .next (
    if (q.inQ.find? fun x => x.vc == k.vc) ≠ some k then s
    else
      let s1 := modPort s port fun r => rxSignals { r with inQ := r.inQ.erase k }
      if defective k then recordError s1 (repPort port) 5 k.addr 0
      else if ownPeer s = some k.dest then
        if k.typ < 8 then { s1 with seq := s1.seq + 1, inbound := tset {} s1.inbound (tfree s1.inbound) { pkt := k, seq := s1.seq } } else takeResponse s1 k
      else match routeTo s1 k.dest with
        | some p => modPort s1 p fun r => { r with outQ := r.outQ ++ [k] }
        | none => s)

/-! ## Serving a peer (R50, R56, R57, R70) -/

/-- Partition and context that serve a peer's partition, where the session table names a context that is there and not being
frozen. -/
def sessionFor (s : State) (q p : Nat) : Option (Nat × Nat) :=
  (List.range Config.partitions).findSome? fun t => match tget none (s.part t).sessions q with
    | none => none
    | some e => if e.1 ≠ p then none else
      ((partCtxs s t).find? fun h => let c := s.context h; c.chan == e.2.1 && c.index == e.2.2 && !c.freezing).map fun h => (t, h)

/-- Type of an atomic's operands, from AOP (R379, R385). -/
def aopTy (sub md : Nat) (big : Bool) : Ty :=
  match sub with
  | 1 | 7 => if big then .f64 else .f32
  | 2 | 3 => if md = 1 then (if big then .i64 else .i32) else (if big then .n64 else .n32)
  | _ => if big then .b64 else .b32

/-- An AOP that R379 allows for a packet type. -/
def aopOk (k : Packet) : Bool :=
  let sub := k.aop / 8 % 8
  let md := k.aop / 2 % 4
  (k.typ == 4) == (sub == 6) &&
  (match sub with | 2 | 3 | 7 => decide (md ≤ 1) | 4 => decide (md ≤ 2) | _ => md == 0) && k.addr % (if k.aop % 2 = 1 then 8 else 4) == 0

/-- Type of the response to a request. -/
def respType (k : Packet) : Nat := if k.typ = 0 then 8 else if k.typ = 1 ∨ k.typ = 3 then 9 else 10

/-- Answer an inbound request and forget it: PART names the partition that served it, or where none did the requester's. One of the
device's own goes back without a packet, and responses due to a lost peer are discarded (R51, R66). DESIGN CHOICE (log 26). -/
def answer (s : State) (index status code : Nat) (data : List Byte) : State :=
  let x := tget {} s.inbound index
  let k : Packet := {
    status := status, addr := code, part := if x.stage = .egress then x.pkt.part else x.part, tag := x.pkt.tag, dlen := (data.length + 63) / 64, typ := respType x.pkt, vc := 2
    src := x.pkt.dest, dest := x.pkt.src, data := data }
  let s1 := { s with inbound := tdel s.inbound index, reqs := s.reqs.filter fun r => r.inb != some index }
  match x.own with
  | some id => (match s1.reqs.find? fun r => r.id == id with
    | some r => takeAnswer s1 r k
    | none => s1)
  | none => if s.lostPeers.contains x.pkt.src then s1 else (sendPacket s1 x.pkt.src k false).getD s1

/-- What a peer's request does here, for the access it makes (R152). -/
def inboundAcc (k : Packet) : Acc := match k.typ with | 0 => .read | 1 => .write | 3 => .red | _ => .atomic

/-- Requests that a peer's access makes at the home slices, or at the host, one for each sector, each stamped where its slice accepts it
(R32, R56). The sectors of a packet that runs past a page follow the first physically: the manual bounds no packet. DESIGN CHOICE
(log 25). -/
def inboundReqs (s : State) (index ctx part gen : Nat) (k : Packet) (place : Nat → Place) (pa : Nat) : List Req :=
  let base : Req := { block := 2 ^ 32, core := 64, ctx := ctx, part := part, inb := some index, gen := gen, deadline := homeCt s pa + 1024 }
  let at_ := fun (n : Nat) => place (pa / 64 * 64 + 64 * n)
  match k.typ with
  | 0 => (List.range k.dlen).map fun n => { base with kind := .load, place := at_ n, na := true, sub := n }
  | 1 => (List.range k.dlen).map fun n => { base with
      kind := .store, place := at_ n, sub := n
      bytes := (List.range 64).filterMap fun j => if k.mask.getD (64 * n + j) false then some (j, k.data.getD (64 * n + j) 0) else none }
  | _ =>
    let big := k.aop % 2 == 1
    let w := if big then 8 else 4
    [{ base with
      kind := .atomic, place := at_ 0, sub := k.aop / 8 % 8, amod := k.aop / 2 % 4, ty := aopTy (k.aop / 8 % 8) (k.aop / 2 % 4) big
      parts := [{ off := pa % 64, w := w, opB := ofLeBytes (k.data.take w), opC := ofLeBytes ((k.data.drop w).take w) }] }]

/-- The offset is translated for the session's context and the access made; a request that cannot be served is answered with REJECT
or FAULT. DESIGN CHOICE (log 25). DESIGN CHOICE (log 26). -/
def serveNew (s : State) (index : Nat) (x : Inbound) : State :=
  let k := x.pkt
  match sessionFor s k.src k.part with
  | none => answer s index 3 0x06 []
  | some (t, h) =>
    let s := { s with inbound := tmod {} s.inbound index fun i => { i with stage := .held, part := t } }
    if 2 ≤ k.typ ∧ !aopOk k then answer s index 3 0x07 []
    else match xlate s 64 t (k.addr % 2 ^ 48) (inboundAcc k) false with
    | .error f => answer s index 2 (xfaultCode f) []
    | .ok y =>
      let s1 := notePte s t (k.addr % 2 ^ 48) (inboundAcc k) y.entry
      (inboundReqs s index h t y.entry.gen k (if y.tier then .host else .home) y.pa).foldl (fun u r =>
        let va := k.addr % 2 ^ 48 + 64 * r.sub
        addReq u { r with id := u.seq, va := va, hold := r.kind != .load && (y.hold || pageHeld u t va) }) s1

/-- Earlier requests of the same source have been served: its writes and atomics keep their order, and no read passes them (R54). -/
def inTurn (s : State) (x : Inbound) : Bool :=
  s.inbound.all fun e => !(e.2.pkt.src == x.pkt.src && e.2.stage == .egress && decide (e.2.seq < x.seq))

/-- Requests made for an inbound access, in the order of their sectors. -/
def inboundOpen (s : State) (index : Nat) : List Req := sortBy (fun r => r.sub) (s.reqs.filter fun r => r.inb == some index)

/-- A peer's request is served; a read or fetching atomic whose data is at hand is answered. DESIGN CHOICE (log 25). -/
def execFabricRequestServe (index : Nat) (s : State) : Out :=
  .next (match s.inbound.find? fun e : Nat × Inbound => e.1 == index with
    | none => s
    | some (_, x) =>
      if x.stage = .egress then (if inTurn s x then serveNew s index x else s)
      else
        let rs := inboundOpen s index
        if rs.isEmpty || rs.any (fun r => r.stage != .reply) || respType x.pkt == 9 then s
        else if x.pkt.typ = 0 then
          answer s index (if rs.any fun r => r.status == 1 then 1 else 0) 0 (rs.flatMap fun r => r.sect)
        else match rs with
          | r :: _ => answer s index 0 0 (leBytes ((r.parts.headD {}).w) ((r.parts.headD {}).old))
          | [] => s)

/-- The acknowledgement of a write, once the completion time of every sector has passed (R57). -/
def execFabricWriteAckSend (index : Nat) (s : State) : Out :=
  let rs := inboundOpen s index
  .next (if rs.isEmpty ∨ respType (tget {} s.inbound index).pkt ≠ 9 then s
    else if rs.all fun r => r.stage == .reply && passed s.ct r.ctc then pumpFabric (answer s index 0 0 []) else s)

/-! ## Links (R60–R63) -/

/-- The keys of the slot in use and of the other slot. -/
def LinkKeys.key (k : LinkKeys) (slot : Nat) : Option (List Byte) := if slot = 0 then k.key0 else k.key1
def LinkKeys.setKey (k : LinkKeys) (slot : Nat) (x : Option (List Byte)) : LinkKeys := if slot = 0 then { k with key0 := x } else { k with key1 := x }
def LinkKeys.idle (k : LinkKeys) : Nat := 1 - k.slot

/-- The transmit side switches to a staged key at a block boundary (R61). Where the old key has sealed its 2^40 blocks the count stands
until the rotation is complete. -/
def switchTx (k : LinkKeys) : LinkKeys :=
  if (k.key k.idle).isSome && !k.oldLive then { k with slot := k.idle, blocks := if 2 ^ 40 ≤ k.blocks then k.blocks else 0, oldLive := true } else k

/-- The old transmit slot retires once no block sealed under it is unacknowledged: the rotation is complete (R61, R62). -/
def retireTx (q : Port) : Port :=
  if q.tx.oldLive && q.replay.all (fun b => b.slot == q.tx.slot) then
    { q with epoch := (q.epoch + 1) % 256
             tx := { q.tx.setKey q.tx.idle none with oldLive := false, blocks := if 2 ^ 40 ≤ q.tx.blocks then 0 else q.tx.blocks } }
  else q

/-- Packets a block may take: each the oldest of its virtual channel, none of a stopped one, up to 8 flits.
DESIGN CHOICE (log 54). -/
def packBlock (stopped : List Nat) : Nat → List Packet → List Packet × List Packet
  | _, [] => ([], [])
  | room, k :: ks =>
    if stopped.contains k.vc || decide (room < wireFlits k) then
      (let r := packBlock (k.vc :: stopped) room ks; (r.1, k :: r.2))
    else (let r := packBlock stopped (room - wireFlits k) ks; (k :: r.1, r.2))

/-- A block is sealed under the key of its slot and kept until it is acknowledged. At 2^40 blocks under one key none is sent until a
rotation is complete (R60, R61). DESIGN CHOICE (log 54). -/
def sendBlock (q : Port) : Port :=
  let q := if 2 ^ 40 ≤ q.tx.blocks then retireTx { q with tx := switchTx q.tx } else q
  let b := packBlock (tkeys q.stopped) 8 q.outQ
  let tx := switchTx q.tx
  match tx.key tx.slot with
  | none => q
  | some key =>
    if b.1.isEmpty || decide (512 < ((q.replay.flatMap fun x => x.pkts).map wireFlits).sum + 8) || decide (2 ^ 40 ≤ tx.blocks) then q
    else
      let c := sealBlock key tx.seq tx.salt b.1
      retireTx { q with
        outQ := b.2, replay := q.replay ++ [{ seq := tx.seq, slot := tx.slot, pkts := b.1, cipher := c.1, gtag := c.2 }]
        tx := { tx with seq := (tx.seq + 1) % 2 ^ 40, blocks := tx.blocks + 1 } }

def execLinkBlockSend (port : Nat) (s : State) : Out :=
  .next (
    if !portUp s port then s
    else
      let s1 := modPort s port sendBlock
      if (s1.port port).tx.blocks = 2 ^ 40 - 2 ^ 20 ∧ (s.port port).tx.blocks + 1 = 2 ^ 40 - 2 ^ 20 then raiseAlert s1 4 else s1)

/-- The number of the block before one, and how far a number stands behind another, of 40 bits. -/
def seqBefore (n : Nat) : Nat := (n + 2 ^ 40 - 1) % 2 ^ 40
def seqBehind (a b : Nat) : Nat := (b + 2 ^ 40 - a % 2 ^ 40) % 2 ^ 40

/-- A block discarded with a negative acknowledgement, which names the block that must come again; one received before is
acknowledged again (R60). -/
def refuseBlock (q : Port) (seq : Nat) (failed : Bool) : Port :=
  let old := !failed && seq != q.rx.seq && decide (seqBehind seq q.rx.seq ≤ 2 ^ 39)
  { q with tagFails := if failed then min 255 (q.tagFails + 1) else q.tagFails, answer := some (if old then (false, seqBefore q.rx.seq) else (true, q.rx.seq)) }

/-- A received block: opened under the key of its slot, accepted in sequence where its packets find room, and acknowledged (R60, R61,
R63). -/
def receiveBlock (q : Port) (seq slot gtag : Nat) (cipher : List Byte) : Port :=
  match (q.rx.key (slot % 2)).bind fun key => openBlock key seq q.rx.salt cipher gtag with
  | none => refuseBlock q seq true
  | some pkts =>
    if seq ≠ q.rx.seq || (List.range 4).any (fun vc => decide (rxFree q vc < ((pkts.filter fun k => k.vc == vc).map wireFlits).sum)) then refuseBlock q seq false
    else
      let rx := { q.rx with seq := (seq + 1) % 2 ^ 40 }
      rxSignals { q with
        inQ := q.inQ ++ pkts, answer := some (false, seq)
        rx := if slot % 2 = rx.slot then rx else { rx.setKey rx.slot none with slot := slot % 2 } }

def execLinkBlockReceive (port seq slot gtag : Nat) (cipher : List Byte) (s : State) : Out :=
  .next (if portUp s port then modPort s port fun q => receiveBlock q seq slot gtag cipher else s)

/-- A cumulative acknowledgement: of this block and those sent before it. -/
def execLinkAckReceive (port seq : Nat) (s : State) : Out :=
  .next (modPort s port fun q => retireTx { q with
    replay := if q.replay.any fun b => b.seq == seq then q.replay.filter fun b => decide (2 ^ 39 ≤ seqBehind b.seq seq) else q.replay })

/-! ## Lost ports and peers (R55, R66) -/

/-- A peer is lost: it is reported by an error event, once. The report's form is the model's: reporter 310, category 4, no address.
DESIGN CHOICE (log 78). -/
def losePeer (s : State) (q : Nat) : State :=
  if s.lostPeers.contains q then s else recordError { s with lostPeers := s.lostPeers ++ [q] } repL2 4 0 0

/-- Peers of enabled sessions to which no route remains. DESIGN CHOICE (log 1). -/
def unreachable (s : State) : List Nat :=
  (List.range 64).filter fun q => ownPeer s != some q && (routeTo s q).isNone && s.parts.any fun p => (tget none p.2.sessions q).isSome

/-- The fixed route that replaces a port that is down, or none. -/
def replacePort (s : State) (p : Nat) : State :=
  match fixedRoute s p with
  | some k => modPort s p fun r => { r with state := 4, detourBy := some k }
  | none => modPort s p fun r => { r with state := 0, detourBy := none }

/-- A port goes down: a fixed route replaces it where one is there, and those that it replaced need another. What waits for it takes the
way that later packets to the same peer take, so that their order holds (R54), and packets already accepted are still served.
DESIGN CHOICE (log 54). -/
def portDown (s : State) (p : Nat) : State :=
  let q := s.port p
  let s1 := modPort s p fun r => retireTx { r with state := 4, width := 0, replay := [], outQ := [], stopped := [] }
  let s2 := (List.range Config.ports).foldl (fun s j =>
    if j ≠ p ∧ (s.port j).state = 4 ∧ (s.port j).detourBy = some p then replacePort s j else s) (replacePort s1 p)
  let s3 := q.outQ.foldl (fun s k => match routeTo s k.dest with
    | some j => modPort s j fun r => { r with outQ := r.outQ ++ [k] }
    | none => s) s2
  (unreachable s3).foldl losePeer (recordError s3 (repPort p) 4 0 0)

/-- A negative acknowledgement: the block is sent again; after 8 in a row the port goes down. -/
def execLinkNakReceive (port seq : Nat) (s : State) : Out :=
  .next (
    let q := s.port port
    if !portUp s port || q.replay.all (fun b => b.seq != seq) then s
    else
      let s1 := modPort s port fun r => { r with
        replays := min 65535 (r.replays + 1)
        replay := r.replay.map fun b => if b.seq = seq then { b with naks := b.naks + 1 } else b }
      if (s1.port port).replay.any fun b => decide (8 ≤ b.naks) then portDown s1 port else s1)

/-- Stop and go for a virtual channel of the far end (R63). -/
def execVcStopSignal (port vc : Nat) (stop : Bool) (s : State) : Out :=
  .next (modPort s port fun q => { q with
    stopped := if stop then (if (tkeys q.stopped).contains vc then q.stopped else tins vc s.ct q.stopped) else tdel q.stopped vc })

/-- A request without a response for 2^24 ticks loses its peer. -/
def execPeerRequestTimeout (tag : Nat) (s : State) : Out :=
  .next (match s.reqs.find? fun r => r.stage == .held && r.tag == tag && (match r.place with | .peer _ _ => true | _ => false) with
    | some r => (match r.place with
      | .peer q _ => if r.ctc + 2 ^ 24 ≤ s.ct ∧ tag < 4096 then losePeer s q else s
      | _ => s)
    | none => s)

def execPeerResetNotice (peer : Nat) (s : State) : Out := .next (losePeer s peer)

/-! ## Training and recalibration (R67, R97) -/

/-- Peer id at the far end of a port (R48). DESIGN CHOICE (log 55). -/
def portPeer (pos : Nat × Nat) (p : Nat) : Nat :=
  if p < 7 then 8 * pos.1 + (if p < pos.2 then p else p + 1) else 8 * (if p - 7 < pos.1 then p - 7 else p - 6) + pos.2

/-- The end of training is recorded, a failure with an error event. DESIGN CHOICE (log 55). -/
def trainEnd (s : State) (p : Nat) (ok : Bool) : State :=
  let s1 := blackBox s { kind := 7, code := p } (some (repPort p))
  if ok then s1 else recordError (modPort s1 p fun q => { q with state := 0 }) (repPort p) 4 0 0

/-- DESIGN CHOICE (log 55). -/
def execPortTrainingDone (port peer rtt : Nat) (s : State) : Out :=
  .next (
    if (s.port port).state ≠ 1 then s
    else
      let ok := s.position.map (fun pos => portPeer pos port) == some peer && decide (rtt ≤ 300) && decide (s.ct < (s.port port).deadline)
      if !ok then trainEnd s port false
      else
        let s1 := modPort s port fun q => { q with state := 2, width := 4, peer := peer, rtt := rtt }
        pumpFabric (trainEnd { s1 with lostPeers := s1.lostPeers.filter (· ≠ peer) } port true))

def execPortTrainingTimeout (port : Nat) (s : State) : Out :=
  .next (if (s.port port).state = 1 ∧ (s.port port).deadline ≤ s.ct then trainEnd s port false else s)

/-- One lane is recalibrated: the next follows, or the port is whole again; a failure ends at 3 lanes. -/
def execLinkRecalLaneDone (port : Nat) (ok : Bool) (s : State) : Out :=
  let q := s.port port
  .next (
    if q.state ≠ 3 then s
    else if !ok then recordError (blackBox (modPort s port fun r => { r with state := 2, width := 3, recalLane := 0 }) { kind := 7, code := port } (some (repPort port))) (repPort port) 4 0 0
    else if q.recalLane < 3 then modPort s port fun r => { r with recalLane := r.recalLane + 1 }
    else blackBox (modPort s port fun r => { r with state := 2, width := 4, recalLane := 0 }) { kind := 7, code := port } (some (repPort port)))

/-! ## Token buckets (R64, R94) -/

/-- Divide a pool among buckets in proportion to their rates, each capped: buckets as (key, rate, room), grants by key.
DESIGN CHOICE (log 56). -/
def dividePool (pool : Nat) (bs : List (Nat × Nat × Nat)) : List (Nat × Nat) :=
  let total := (bs.map fun b => b.2.1).sum
  if total = 0 then [] else bs.map fun b => (b.1, min b.2.2 (pool * b.2.1 / total))

/-- Partitions with a request that waits at a port. -/
def waitingAt (s : State) (p : Nat) : List Nat :=
  dedup (s.reqs.filterMap fun r => match r.place with | .peer q off => if r.stage = .egress ∧ (egressPort s r q off).map Prod.fst = some p then some r.part else none | _ => none)

/-- A microsecond boundary at a fabric port. -/
def execFabricBucketRefill (port : Nat) (s : State) : Out :=
  .next (
    if s.ct % Config.ticksPerUs ≠ 0 ∨ (s.port port).refillAt = s.ct ∨ Config.ports ≤ port then s
    else
      let of := fun (t : Nat) => tget {} s.buckets (bucketKey port t)
      let excess := ((List.range Config.partitions).map fun t => (of t).level + (of t).rate - max (of t).burst (of t).level).sum
      let lvl := fun (t : Nat) => min ((of t).level + (of t).rate) (max (of t).burst (of t).level)
      let gifts := dividePool excess ((waitingAt s port).map fun t => (t, (of t).rate, (of t).burst - lvl t))
      let gift := fun (t : Nat) => ((gifts.find? fun e : Nat × Nat => e.1 == t).map Prod.snd).getD 0
      pumpFabric (modPort { s with
        buckets := (List.range Config.partitions).foldl (fun m t => tset {} m (bucketKey port t) { of t with level := lvl t + gift t }) s.buckets } port
        fun q => { q with refillAt := s.ct }))

/-- RATE and BURST of a context at every slice: its partition's, divided equally, the remainder to the oldest (R94). -/
def l2Share (s : State) (h : Nat) : Nat × Nat :=
  let p := (s.context h).part
  let hs := partCtxs s p
  let n := hs.length
  let oldest := (sortBy (fun x => (s.context x).started) hs).head?
  let of := fun (x : Nat) => x / n + if oldest = some h then x % n else 0
  (of (s.part p).l2Rate, of (s.part p).l2Burst)

/-- Contexts with a request at the core's egress for a slice that their tokens do not cover (R94). -/
def waitingL2 (s : State) (slice : Nat) : List Nat :=
  dedup (s.reqs.filterMap fun r => match r.place with
    | .home pa =>
      if r.stage = .egress ∧ homeSlice pa = slice ∧ !r.hold ∧ r.join.isNone ∧ !uncharged r ∧ firstOut s r ∧
          (tget {} s.l2Buckets (bucketOf slice r.ctx)).level ≤ (dueBefore s r pa).length then some r.ctx else none
    | _ => none)

/-- Lend tokens to contexts: grants raise LEVEL and LENT. DESIGN CHOICE (log 56). -/
def lendTokens (slice : Nat) (s : State) (gs : List (Nat × Nat)) : State :=
  gs.foldl (fun s e => { s with l2Buckets := tmod {} s.l2Buckets (bucketOf slice e.1) fun b => { b with level := b.level + e.2, lent := b.lent + e.2 } }) s

/-- Buckets of contexts that may be lent tokens: key, RATE and room below BURST. -/
def lendTo (s : State) (slice : Nat) (hs : List Nat) : List (Nat × Nat × Nat) :=
  hs.map fun h => (h, (l2Share s h).1, (l2Share s h).2 - (tget {} s.l2Buckets (bucketOf slice h)).level)

/-- A microsecond boundary at a slice port: lent tokens are taken back, the rates are added, and each partition's excess is given
to its own waiting contexts and then to others'. -/
def execL2BucketRefill (slice : Nat) (s : State) : Out :=
  .next (
    if s.ct % Config.ticksPerUs ≠ 0 ∨ tget 0 s.l2Refill slice = s.ct ∨ Config.slices ≤ slice then s
    else
      let s0 := { s with l2Refill := tset 0 s.l2Refill slice s.ct }
      let step := fun (acc : State × List (Nat × Nat)) (h : Nat) =>
        let b := tget {} acc.1.l2Buckets (bucketOf slice h)
        let sh := l2Share s h
        let left := b.level - min b.lent b.level
        let new := min (left + sh.1) (max sh.2 left)
        ({ acc.1 with l2Buckets := tset {} acc.1.l2Buckets (bucketOf slice h) { level := new } }, acc.2 ++ [((s.context h).part, left + sh.1 - new)])
      let base := (liveCtxs s).foldl step (s0, [])
      let waits := waitingL2 s slice
      let pool := fun (p : Nat) => ((base.2.filter fun e => e.1 == p).map Prod.snd).sum
      let own := (List.range Config.partitions).foldl (fun (acc : State × List (Nat × Nat)) p =>
        let gs := dividePool (pool p) (lendTo acc.1 slice (waits.filter fun h => (s.context h).part == p))
        (lendTokens slice acc.1 gs, acc.2 ++ [(p, pool p - (gs.map Prod.snd).sum)])) (base.1, [])
      own.2.foldl (fun t e =>
        lendTokens slice t (dividePool e.2 (lendTo t slice (waits.filter fun h => (s.context h).part != e.1)))) own.1)

end Sys2Proof.Machine
end

