-- ==== Sys2Proof/Machine/Fetch.lean ====
section
/-! DEFINITION. Instruction fetch (R167, R284–R286, R305, R306) and the end of a page walk (R151–R153, R259). -/

namespace Sys2Proof.Machine

/-- What a fetch at a group's issue set finds. -/
inductive Fetched where
  /-- The word's instruction, and the state with the fetch's own effects. -/
  | insn (i : Instr) (s : State)
  /-- The fetch ends in a trap, or parks the group. -/
  | done (s : State)
  deriving DecidableEq, Repr

/-- Lines of an instruction cache: 128 KiB of 256 bytes (R167). -/
def codeLines : Nat := 512

/-- The line of a fetched word is in the cache: a line that is not there is read whole, and takes the place of one, whichever, where the
cache is full (R167). DEDUCED (log 22). -/
def cacheCode (s : State) (core : Nat) (tier : Bool) (pa : Nat) : State :=
  let key := iLine tier pa
  let t := (s.core core).icache
  if (tkeys t).contains key then s
  else
    let out := (tkeys t).getD (pick s key % codeLines) 0
    let line : CodeLine := { words := (List.range 64).map fun j => w32 (codeNow s tier (pa / 256 * 256 + 4 * j)) }
    modCore s core fun c => { c with icache := tins key line (if codeLines ≤ t.length then tdel t out else t) }

/-- Bytes of a list of 32-bit words. -/
def wordsBytes (ws : List Nat) : List Byte := ws.flatMap (leBytes 4)

/-- Fetch the word at pc for the lanes of m. A fetch that translates has been cached, whatever the word is (R153, R167). -/
def fetchAt (s : State) (b g pc : Nat) (m : Mask) : Fetched :=
  let k := s.block b
  let part := (s.context k.ctx).part
  let trap := fun (s : State) (c : Nat) (va : List (Nat × Nat)) => Fetched.done (takeTrap s b g pc { cause := c, fm := m, cm := m, va := va })
  let at_ := (lanesOf m).map fun L => (L, pc)
  if pc ≥ 2 ^ 48 then trap s 0x06 at_
  else match xlate s k.core part pc .fetch false with
  | .error .notPresent => .done (parkGroup s b g pc m .fetch [(pc / 4096 * 4096, m)] at_)
  | .error f => trap s (xfaultCode f) at_
  | .ok x =>
    let w0 := codeAt s k.core x.tier x.pa
    let n := if w0 % 4 = 3 then 4 else lengthOf w0
    let t := cacheCode (noteXl s k.core part pc .fetch x) k.core x.tier x.pa
    if w0 = 3 then
      -- a pad word that could not be read when the LPC was set
      .done (modGroup t b g fun q => q.mapLanes m fun _ l => { l with lpc := w64 (landing s b pc) })
    else if w0 % 4 = 3 ∨ pc % 32 + n > 32 then trap t 0x01 []
    else
      let pas := (List.range (n / 4)).map fun j => x.pa + 4 * j
      let ws := pas.map (codeAt s k.core x.tier)
      match decode (wordsBytes ws) with
      | .error _ => trap t 0x01 []
      | .ok i => .insn i t

/-- Fetch for a group's issue set. DEDUCED (log 81). -/
def fetchFor (s : State) (b g : Nat) : Fetched :=
  match issueSet (s.group b g) with
  | none => .done s
  | some e => fetchAt s b g e.1 e.2

/-! ## The end of a page walk (R153) -/

/-- What the access of a word needs of its page; none for PTEST, which never sets ACC (R153, R375). -/
def accessOf (op : Nat) : Option Acc :=
  if op = 0x75 then none
  else if op = 0x80 ∨ op = 0x81 ∨ op = 0x82 then some .write
  else if op = 0xA0 then some .atomic
  else if op = 0xA1 then some .red
  else if op / 16 = 7 ∨ op / 16 = 8 then some .read
  else none

/-- Accesses of the executing lanes of a group's next word to translated memory: address, what it needs, whether on path 0x06. -/
def wantedData (s : State) (b g : Nat) : List (Nat × Acc × Bool) :=
  match fetchFor s b g, issOf s 8 with
  | .insn i _, some e => match instrParts i with
    | some (op, w) => match accessOf op with
      | some acc =>
        (((lanesOf (withGuard s e w.g).ex).map fun L => (eaOf op w s e L).1).filter fun ea => ea % 2 ^ 56 < 2 ^ 48 && [0, 1, 6].contains (pathOf ea)).map
          fun ea => (ea % 2 ^ 56, acc, pathOf ea == 6)
      | none => []
    | none => []
  | _, _ => []

/-- A walk has succeeded for an access: its permission and its address are in order (R153). -/
def walkServes (s : State) (part : Nat) (x : TlbEntry) (a : Nat × Acc × Bool) : Bool :=
  permitted x a.2.1 && (!a.2.2 || x.tier) && (x.tier || reachable s part (x.frame + a.1 % 4096))

/-- Groups whose core and partition a walk concerns: block, group. -/
def walkers (s : State) (core part : Nat) : List (Nat × Nat) :=
  ((blocksOn s core).filter fun b => (s.context (s.block b).ctx).part == part).flatMap fun b =>
    ((tkeys (s.block b).groups).filter fun g => boundaryOpen s b g).map fun g => (b, g)

/-- A walk for a page that some group's next word or fetch names ends. Where it succeeds for one of those accesses it sets ACC and fills
the TLB; a fault of a fetch parks or traps its group; a fault of data is found when the word issues (R153, R259). DEDUCED (log 81). -/
def execTranslationWalkDone (core part va : Nat) (s : State) : Out :=
  let page := va / 4096
  let ws := walkers s core part
  let fetches := ws.filter fun e => match issueSet (s.group e.1 e.2) with
    | some x => decide (x.1 < 2 ^ 48) && x.1 / 4096 == page
    | none => false
  let wants := (fetches.map fun _ => (va, Acc.fetch, false)) ++
    (ws.flatMap fun e => wantedData { s with focus := e } e.1 e.2).filter fun a => a.1 / 4096 == page
  let failed := fun (s : State) => fetches.foldl (fun t e =>
    if notReady t e.1 e.2 then t else match fetchFor t e.1 e.2 with | .done u => u | .insn _ _ => t) s
  .next (
    if wants.isEmpty then s
    else match walk s part va with
    | .ok x =>
      let t := if wants.any (walkServes s part x) then noteXl s core part va .read { pa := x.frame + va % 4096, tier := x.tier, hold := x.hold, entry := x } else s
      if walkServes s part x (va, .fetch, false) then t else failed t
    | .error _ => failed s)

end Sys2Proof.Machine
end

