-- ==== Sys2Proof/Machine/Guess.lean ====
section
/-! DEFINITION. Guess instructions (R208, R209, R376, R377): class 0x9. -/

namespace Sys2Proof.Machine

/-- GTEST: the source's guess bit becomes the predicate's value. -/
def execGtest (w : Insn) (s : State) : Out :=
  .next (runWord 0x90 w s noBump fun s i =>
    .next (advance (putD s i 4 .b32 (opD w) i.ex (fun L => b2n (guessOf s i (opA w) 1 L)) fun L => inMask i.gg L) i i.iss))

/-- Lanes of a DEMAND by what they find: a guess that is no origin. -/
def unboundLanes (w : Insn) (s : State) (i : Iss) : Mask :=
  let q := s.group i.b i.g
  let r := match opD w with | .v n => n | _ => 0
  maskOf fun L => inMask i.ex L && guessOf s i (opD w) 1 L && (q.originSlot r L).isNone

/-- DEMAND (R209): lanes whose register is no guess are done, those whose truth is here receive it, the rest park. -/
def execDemand (w : Insn) (s : State) : Out :=
  .next (runWord 0x91 w s noBump fun s i =>
    let un := unboundLanes w s i
    if un ≠ 0 then stop23 i 0x0C 0 un
    else
      let r := match opD w with | .v n => n | _ => 0
      let s0 := modGroup s i.b i.g fun q =>
        let q := q.orGuard i.gg (opD w) 1
        if w.sub.toNat = 1 then q.orGuard i.gg (opB w) 1 else q
      let s1 := advance s0 i (i.iss &&& ~~~i.ex)
      .next ((lanesOf i.ex).foldl (fun t L =>
        if !guessOf s i (opD w) 1 L then
          let t := if w.sub.toNat = 1 then modGroup t i.b i.g fun q => q.resLane 0 0 false (opB w) L 1 (inMask i.gg L) else t
          advance t i (oneLane L)
        else match (s.group i.b i.g).originSlot r L with
          | some k =>
            if inMask (tget {} (s.group i.b i.g).slots k).arrived L then advance (demandLane t i.b i.g L w k) i (oneLane L)
            else parkLane t i L { cause := pkDemand, detail := k, x := w64 r, insn := some w }
          | none => t) s1))

/-- Change the guess bit of the register or predicate that D names in the executing lanes, after 4 cycles (R139). -/
def markWord (op : Nat) (w : Insn) (s : State) (bit_ : Bool) : State :=
  runWord op w s noBump fun s i =>
    let cyc := cyclesOf s i.b
    let s1 := modGroup s i.b i.g fun q =>
      ((lanesOf i.ex).foldl (fun q L => match opD w with
        | .v n =>
          let q1 := if bit_ then q else q.unbind n L
          (q1.note (vKey n L) (cyc + 4) ((q.vReg n L).setWidth 64) (q.vGuess n L)).putV n L (q.vReg n L) bit_
        | .p n => q.resP cyc 4 n L (q.pred n L) bit_
        | _ => q) q).orGuard i.gg (opD w) 1
    .next (advance s1 i i.iss)

/-- ACCEPT clears the guess bit; an origin's truth is discarded (R208). -/
def execAccept (w : Insn) (s : State) : Out := .next (markWord 0x92 w s false)
/-- GMARK sets the guess bit; an origin stays one (R376). -/
def execGmark (w : Insn) (s : State) : Out := .next (markWord 0x93 w s true)

end Sys2Proof.Machine
end

