-- ==== Sys2Proof/Machine/Save.lean ====
section
/-! DEFINITION. Block records: how a block is written to a save slot or an image, and read back (R268, R274–R277, R394, R444,
R445). -/

namespace Sys2Proof.Machine

/-! ## Sizes (R268) -/

/-- Round up to 4 KiB. -/
def up4k (x : Nat) : Nat := roundUp 4096 x

/-- Most blocks of a shape on one core. -/
def bpcOf (r : Record) : Nat :=
  let g := (r.ngrp + 3) / 4
  let a := min (16 / g) (4096 / (r.regs * g))
  if r.scratch = 0 then a else min a (4096 / r.scratch)

def groupSize (r : Record) : Nat := 32768 + up4k (r.regs * 132)
def groupsAt (r : Record) : Nat := 0x50000 + up4k (r.scratch * 257)
def bsave (r : Record) : Nat := groupsAt r + r.ngrp * groupSize r
def minSave (r : Record) : Nat := 65536 + 40 * bpcOf r * bsave r

/-! ## Fields and bytes -/

/-- A field of a record: offset, bytes, value. Fields not listed are zero. -/
abbrev FieldAt := Nat × Nat × Nat

def shiftFields (d : Nat) (fs : List FieldAt) : List FieldAt := fs.map fun f => (d + f.1, f.2)

/-- The nonzero bytes of a list of fields. -/
def fieldBytes (fs : List FieldAt) : List (Nat × Byte) :=
  (fs.flatMap fun f => (leBytes f.2.1 f.2.2).zipIdx.map fun e => (f.1 + e.2, e.1)).filter fun e => e.2 != 0

/-- Write a range of device memory: the bytes listed, by offset, and zero elsewhere; the sync words in it are evaluated, and the host's copies are snooped (R73, R84). -/
def putRange (s : State) (pa n : Nat) (bs : List (Nat × Byte)) : State :=
  syncEval (putBytes { snoopOwn s pa n with mem := s.mem.filter fun e => e.1 < pa || pa + n ≤ e.1 } (bs.map fun e => (pa + e.1, e.2))) pa n

/-- A mask as a number. -/
def maskNat (f : Nat → Bool) : Nat := (maskOf f).toNat

/-! ## Writing a block -/

/-- A lane's place in the order in which the block's lanes parked, from 1 (R445). -/
def parkRank (k : Block) (l : Lane) : Nat :=
  if l.park.cause = 0 then 0
  else ((tkeys k.groups).map fun g => (lanes32.filter fun L =>
    let m := (tget {} k.groups g).lane L
    m.park.cause != 0 && decide (m.parkOrder ≤ l.parkOrder)).length).sum

/-- DEDUCED (log 42). -/
def laneFields (k : Block) (l : Lane) : List FieldAt :=
  [(0x00, 8, l.lpc.toNat), (0x08, 8, l.hrefute * 2 ^ 48 + l.hyp * 2 ^ 32 + l.lap), (0x10, 8, l.item.toNat), (0x18, 8, l.pct), (0x20, 8, l.faultVa.toNat),
   (0x28, 8, parkRank k l * 2 ^ 32 + l.park.detail * 256 + l.park.cause), (0x30, 8, l.park.x.toNat), (0x38, 8, l.park.y.toNat)]

/-- DEDUCED (log 43). -/
def slotFields (t : TruthSlot) : List FieldAt :=
  if !t.busy then [] else
  [(0x00, 8, t.pc.toNat), (0x08, 8, t.dest + t.nreg * 2 ^ 16 + t.hbind * 2 ^ 24), (0x10, 4, t.guessed.toNat), (0x14, 4, t.arrived.toNat),
   (0x18, 8, (lanes32.map fun L => tget 0 t.status L * 4 ^ L).sum)] ++
  (List.range t.nreg).map (fun r => (0x20 + 4 * r, 4, maskNat fun L => tget false t.bound (4 * L + r))) ++
  t.guess.map (fun e => (0x80 + 128 * (e.1 % 4) + 4 * (e.1 / 4), 4, e.2.toNat)) ++
  t.truth.map fun e => (0x280 + 128 * (e.1 % 4) + 4 * (e.1 / 4), 4, e.2.toNat)

/-- The pending trap that a record holds: the first (R444). -/
def pendFields (q : Group) : List FieldAt :=
  match q.pend with
  | [] => []
  | p :: _ => [(0x30, 8, p.eseq % 2 ^ 32 * 2 ^ 32 + p.detail * 256 + p.cause),
               (0x38, 8, (pendReq q p).cm.toNat)]

/-- DEDUCED (log 43). -/
def groupFields (k : Block) (q : Group) : List FieldAt :=
  [(0x00, 8, q.live.toNat), (0x08, 8, b2n q.trapMode * 2 ^ 32 + if q.trapMode then q.handlerSet.toNat else 0),
   (0x10, 8, q.rteNextM.toNat * 2 ^ 32 + q.rteHeld.toNat), (0x18, 8, q.trapCause.toNat), (0x20, 8, q.trapPc.toNat),
   (0x28, 8, q.causeMask.toNat * 2 ^ 32 + q.faultMask.toNat)] ++ pendFields q ++
  [(0x40, 8, b2n q.pfParked * 2 ^ 33 + q.faultIds.length)] ++
  q.faultIds.mapIdx (fun n f => (0x48 + 8 * n, 8, b2n f.abort * 2 ^ 17 + b2n f.replied * 2 ^ 16 + f.id)) ++
  q.sregs.map (fun e => (0x400 + 8 * e.1, 8, e.2.toNat)) ++
  lanes32.flatMap (fun L => shiftFields (0x800 + 64 * L) (laneFields k (q.lane L))) ++
  (List.range 15).flatMap (fun p => [(0x1000 + 4 * p, 4, maskNat fun L => tget false q.preds (32 * p + L)),
                                     (0x103C + 4 * p, 4, maskNat fun L => tget false q.pguess (32 * p + L))]) ++
  q.stride.flatMap (fun e => let a := 0x2000 + 256 * (e.1 / 32) + 8 * (e.1 % 32); [(a, 4, e.2.1.toNat), (a + 4, 4, e.2.2.toNat)]) ++
  q.slots.flatMap (fun e => shiftFields (0x3000 + 0x480 * e.1) (slotFields e.2)) ++
  q.regs.map (fun e => (0x8000 + 132 * (e.1 / 32) + 4 * (e.1 % 32), 4, e.2.toNat)) ++
  (dedup (q.rguess.map fun e => e.1 / 32)).map fun r => (0x8000 + 132 * r + 128, 4, maskNat fun L => q.vGuess r L)

def objFields (o : BarrierObj) : List FieldAt :=
  [(0x00, 8, o.scope * 4 + o.kind), (0x08, 8, o.phase.toNat), (0x10, 8, o.expect * 2 ^ 16 + o.count), (0x18, 8, o.members.toNat),
   (0x20, 8, o.nfTile * 2 ^ 34 + b2n o.nfValid * 2 ^ 32 + o.nfPhase.toNat)] ++ o.arr.map fun e => (0x100 + 4 * e.1, 4, e.2.toNat)

/-- Token state byte of a tile for a block: 0 FREE, 1 VEC, 2 MAT, 3 held by another; NF in bit 7 (R275). -/
def tokenByte (b : Nat) (t : Tile) : Nat :=
  (match t.token with | .free => 0 | .vec x => if x = b then 1 else 3 | .mat x => if x = b then 2 else 3) + if t.nf then 128 else 0

/-- The word that Q1 holds for a COPY. The manual gives Q1's entries no format: a free value. DESIGN CHOICE (log 40). -/
def copyWordOf (j : CopyJob) : W64 := Config.copyEntry j.id

/-- A block's record, with the tiles its core had at the save. -/
def blockFields (b : Nat) (k : Block) (r : Record) : List FieldAt :=
  [(0x00, 8, k.lcore), (0x08, 8, k.gangSeq), (0x10, 8, k.gx + k.gy * 2 ^ 21 + k.gz * 2 ^ 42), (0x18, 8, k.blk), (0x20, 8, b2n k.savedItems.isSome)] ++
  (List.range 4).map (fun t => (0x28 + t, 1, tokenByte b (tget {} k.savedTiles t))) ++
  [(0x30, 8, k.mcReady), (0x40, 8, (k.savedItems.getD []).length)] ++
  (k.savedItems.getD []).mapIdx (fun n x => (0x1000 + 8 * n, 8, x)) ++
  (0x3400, 8, k.copies.length) :: k.copies.mapIdx (fun n j => (0x3408 + 8 * n, 8, (copyWordOf j).toNat)) ++
  k.queues.flatMap (fun e => (0x3000 + 0x400 * e.1, 8, e.2.length) :: e.2.mapIdx fun n x => (0x3008 + 0x400 * e.1 + 8 * n, 8, x.toNat)) ++
  k.objs.flatMap (fun e => shiftFields (0x7000 + 0x200 * e.1) (objFields e.2)) ++
  (List.range 4).flatMap (fun t =>
    let x := tget {} k.savedTiles t
    if tokenByte b x % 4 = 1 ∨ tokenByte b x % 4 = 2 then x.data.map fun e => (0x10000 + 0x10000 * t + 4 * e.1, 4, e.2.toNat) else []) ++
  k.scratch.map (fun e => (0x50000 + e.1, 1, e.2.toNat)) ++
  (List.range r.scratch).map (fun l =>
    let x := tget {} k.lines l
    (0x50000 + 256 * r.scratch + l, 1, b2n x.present * 128 + min 15 x.pending)) ++
  (List.range r.ngrp).flatMap fun g => shiftFields (groupsAt r + g * groupSize r) (groupFields k (tget {} k.groups g))

/-- The save area's node table (R213, R274). Entry 0 is the root, always live (R212). -/
def nodeFields (c : Hctx) : List FieldAt :=
  (0, 8, 1) :: (c.nodes.filter fun e => e.1 != 0).flatMap fun e =>
    let n := e.2
    [(16 * e.1, 8, n.state + n.parent * 2 ^ 8 + n.depth * 2 ^ 16 + b2n n.bound * 2 ^ 20 + n.npend * 2 ^ 32), (16 * e.1 + 8, 8, n.handler.toNat)]

/-! ## Stores to the save area (R267, R268) -/

/-- The pages of a range of addresses. -/
def pagesOf (va n : Nat) : List Nat := (List.range ((va % 4096 + n + 4095) / 4096)).map fun p => va / 4096 * 4096 + 4096 * p

/-- The first fault of a write to a range: its page and kind. -/
def rangeFault (s : State) (part va n : Nat) : Option (Nat × XFault) :=
  (pagesOf va n).findSome? fun a => match xlate s 64 part a .write false with
    | .ok _ => none
    | .error f => some (a, f)

/-- Write a record to a range of addresses that translates. -/
def writeVa (s : State) (part va n : Nat) (fs : List FieldAt) : State :=
  let bs := fieldBytes fs
  (pagesOf va n).foldl (fun t a => match xlate t 64 part a .write false with
    | .error _ => t
    | .ok x =>
      let lo := max a va
      let hi := min (a + 4096) (va + n)
      let here := (bs.filter fun e => lo ≤ va + e.1 && va + e.1 < hi).map fun e => (va + e.1 - lo, e.2)
      let u := notePte t part a .write x.entry
      if x.tier then putHost { u with hostMem := u.hostMem.filter fun e => e.1 < x.pa + (lo - a) || x.pa + (hi - a) ≤ e.1 } (here.map fun e => (x.pa + (lo - a) + e.1, e.2))
      else putRange u (x.pa + (lo - a)) (hi - lo) here) s

/-- The header of the save area: VERSION, STOP, its PC and its group, the slot count (R268). DEDUCED (log 38). -/
def headerFields (c : Ctx) : List FieldAt :=
  let x := c.stop.getD {}
  [(0x00, 8, 1), (0x08, 8, if c.stop.isSome then x.detail % 256 * 256 + x.cause else 0), (0x10, 8, x.pc.toNat), (0x18, 8, x.lcore * 2 ^ 16 + x.grp),
   (0x20, 8, 40 * bpcOf c.record)]

/-! ## Reading a block back -/

/-- A little-endian field of a record at a physical address. -/
abbrev Reader := Nat → Nat → Nat

def readMask (f : Nat → Bool) : Mask := maskOf f

/-- Table of the nonzero values of the indexes below n. -/
def tableOf {α : Type} [DecidableEq α] (dflt : α) (n : Nat) (f : Nat → α) : Tbl α :=
  ((List.range n).map fun i => (i, f i)).filter fun e => decide (e.2 ≠ dflt)

def parseLane (rd : Reader) (at_ : Nat) : Lane :=
  let w := rd (at_ + 8) 8
  let p := rd (at_ + 0x28) 8
  { lpc := w64 (rd at_ 8), lap := w % 2 ^ 32, hyp := bits w 39 32, hrefute := bits w 63 48, item := w64 (rd (at_ + 0x10) 8), pct := rd (at_ + 0x18) 8
    faultVa := w64 (rd (at_ + 0x20) 8), parkOrder := p / 2 ^ 32
    park := { cause := p % 256, detail := bits p 15 8, x := w64 (rd (at_ + 0x30) 8), y := w64 (rd (at_ + 0x38) 8) } }

def parseSlot (rd : Reader) (at_ : Nat) : TruthSlot :=
  let w := rd (at_ + 8) 8
  let n := bits w 18 16
  let regs := fun (base : Nat) => (tableOf (0 : W32) 128 fun i => if i % 4 < n then w32 (rd (base + 128 * (i % 4) + 4 * (i / 4)) 4) else 0)
  { busy := n != 0, pc := w64 (rd at_ 8), dest := w % 512, nreg := n, hbind := bits w 31 24, guessed := w32 (rd (at_ + 0x10) 4), arrived := w32 (rd (at_ + 0x14) 4)
    status := tableOf 0 32 fun L => rd (at_ + 0x18) 8 / 4 ^ L % 4
    bound := tableOf false 128 fun i => decide (i % 4 < n) && bit (rd (at_ + 0x20 + 4 * (i % 4)) 4) (i / 4)
    guess := regs (at_ + 0x80), truth := regs (at_ + 0x280) }

def parsePend (rd : Reader) (at_ : Nat) : List PendTrap :=
  let w := rd (at_ + 0x30) 8
  let m := w32 (rd (at_ + 0x38) 4)
  let async := asyncCause (w % 256)
  if w % 256 = 0 then []
  else [{ cause := w % 256, detail := bits w 15 8, eseq := w / 2 ^ 32, mask := if async then BitVec.allOnes 32 else m, cm := if async then some m else none }]

/-- A group record. A group whose LIVE is 0 has ended (R119). An image's fault IDs are not used: a group saved parked on a translation fault
executes TRAP_PC again for FAULT_MASK at its first issue (R279). DEDUCED (log 43). -/
def parseGroup (rd : Reader) (at_ : Nat) (r : Record) : Group :=
  let m := rd (at_ + 8) 8
  let h := rd (at_ + 0x10) 8
  let f := rd (at_ + 0x28) 8
  let live := w32 (rd at_ 4)
  { exists_ := true, ended := live == 0, live := live
    trapMode := bit m 32, handlerSet := w32 m, rteHeld := w32 h, rteNextM := w32 (h / 2 ^ 32)
    trapCause := w64 (rd (at_ + 0x18) 8), trapPc := w64 (rd (at_ + 0x20) 8), faultMask := w32 f, causeMask := w32 (f / 2 ^ 32)
    replay := if bit (rd (at_ + 0x40) 8) 33 && !bit m 32 then some (w64 (rd (at_ + 0x20) 8), w32 f) else none
    pend := parsePend rd at_
    sregs := (tableOf 0 r.scalars fun n => w64 (rd (at_ + 0x400 + 8 * n) 8)).filter fun e => e.1 != 0
    lanes := tableOf {} 32 fun L => parseLane rd (at_ + 0x800 + 64 * L)
    preds := tableOf false 480 fun i => bit (rd (at_ + 0x1000 + 4 * (i / 32)) 4) (i % 32)
    pguess := tableOf false 480 fun i => bit (rd (at_ + 0x103C + 4 * (i / 32)) 4) (i % 32)
    stride := tableOf (0, 0) 512 fun i => let a := at_ + 0x2000 + 256 * (i / 32) + 8 * (i % 32); (w32 (rd a 4), w32 (rd (a + 4) 4))
    slots := tableOf {} 16 fun k => let t := parseSlot rd (at_ + 0x3000 + 0x480 * k); if t.busy then t else {}
    regs := tableOf 0 (32 * r.regs) fun i => w32 (rd (at_ + 0x8000 + 132 * (i / 32) + 4 * (i % 32)) 4)
    rguess := tableOf false (32 * r.regs) fun i => bit (rd (at_ + 0x8000 + 132 * (i / 32) + 128) 4) (i % 32) }

def parseObj (rd : Reader) (at_ : Nat) : BarrierObj :=
  let w := rd at_ 8
  let c := rd (at_ + 0x10) 8
  let n := rd (at_ + 0x20) 8
  { kind := w % 4, scope := bits w 3 2, phase := w32 (rd (at_ + 8) 4), count := c % 2 ^ 16, expect := bits c 31 16, members := w64 (rd (at_ + 0x18) 8)
    nfTile := bits n 35 34, nfValid := bit n 32, nfPhase := w32 n, arr := tableOf 0 64 fun k => w32 (rd (at_ + 0x100 + 4 * k) 4) }

/-- A tile of a record: held by block b as VEC or MAT, or not at all. -/
def parseTile (rd : Reader) (at_ t b : Nat) : Tile :=
  let x := rd (at_ + 0x28 + t) 1
  let tok := if x % 4 = 1 then Token.vec b else if x % 4 = 2 then .mat b else .free
  if tok = .free then {} else { token := tok, nf := bit x 7, data := tableOf 0 16384 fun i => w32 (rd (at_ + 0x10000 + 0x10000 * t + 4 * i) 4) }

/-- The words of Q1 of a block record. -/
def parseQ1 (rd : Reader) (at_ : Nat) : List W64 := (List.range (rd (at_ + 0x3400) 8 % 128)).map fun n => w64 (rd (at_ + 0x3408 + 8 * n) 8)

/-- A block record, for a block of a context under handle b; its COPYs are found from Q1. -/
def parseBlock (rd : Reader) (at_ b ctx : Nat) (r : Record) : Block :=
  let g := rd (at_ + 0x10) 8
  { ctx := ctx, gangSeq := rd (at_ + 8) 8, gx := bits g 20 0, gy := bits g 41 21, gz := bits g 62 42, blk := rd (at_ + 0x18) 8, lcore := rd at_ 8
    savedItems := if bit (rd (at_ + 0x20) 8) 0 then some ((List.range (rd (at_ + 0x40) 8 % 1025)).map fun n => rd (at_ + 0x1000 + 8 * n) 8) else none
    savedTiles := tableOf {} 4 fun t => parseTile rd at_ t b
    mcReady := rd (at_ + 0x30) 8 % 256
    queues := (tableOf [] 16 fun n => if n < 2 ∨ n = 3 then [] else
      (List.range (rd (at_ + 0x3000 + 0x400 * n) 8 % 128)).map fun k => w64 (rd (at_ + 0x3008 + 0x400 * n + 8 * k) 8))
    objs := tableOf {} 16 fun i => parseObj rd (at_ + 0x7000 + 0x200 * i)
    scratch := tableOf 0 (256 * r.scratch) fun i => BitVec.ofNat 8 (rd (at_ + 0x50000 + i) 1)
    lines := tableOf {} r.scratch fun l => let x := rd (at_ + 0x50000 + 256 * r.scratch + l) 1; { present := bit x 7, pending := x % 16 }
    groups := tableOf {} r.ngrp fun n => parseGroup rd (at_ + groupsAt r + n * groupSize r) r }

/-! ## Parked instructions (R445) -/

/-- The instruction at a code address of a block. -/
def insnAt (s : State) (b pc : Nat) : Option (Nat × Insn) :=
  let k := s.block b
  match xlate s k.core (s.context k.ctx).part pc .fetch false with
  | .error _ => none
  | .ok x =>
    let ws := (List.range 4).map fun j => codeAt s k.core x.tier (x.pa + 4 * j)
    let n := lengthOf (ws.headD 3)
    match decode (wordsOf (ws.take (n / 4))) with
    | .error _ => none
    | .ok i => instrParts i
where
  /-- Bytes of a list of 32-bit words. -/
  wordsOf (ws : List Nat) : List Byte := ws.flatMap (leBytes 4)

/-- A parked lane finds its instruction again in the code at its LPC. -/
def refetch (s : State) (b : Nat) (l : Lane) : Lane :=
  if l.park.cause = 0 then l
  else match insnAt s b l.lpc.toNat with
    | some (op, w) => { l with park := { l.park with insn := some w, op := op } }
    | none => l

end Sys2Proof.Machine
end

