-- ==== Sys2Proof/Machine/Place.lean ====
section
/-! DEFINITION. Placement, pre-emption, saves and resumption of gangs, the item queues' refills, and the end of groups and
blocks (R103–R116, R119, R122–R125, R142, R146, R265–R268, R280). -/

namespace Sys2Proof.Machine

/-! ## The order of gangs (R110, R111) -/

/-- Orders 0 and 1: bands of w rows of a plane of gx by gy; within a band, x slowest. -/
def planeRow (gx gy w j : Nat) : Nat × Nat :=
  let k := j / (gx * w)
  let i := j - k * (gx * w)
  let h := min w (gy - k * w)
  (i / h, k * w + i % h)

/-- Even bits of a number of 2n bits, from bit lo. -/
def evenBits (lo : Nat) : Nat → Nat → Nat
  | 0, _ => 0
  | n + 1, d => b2n (bit d (2 * n + lo)) * 2 ^ n + evenBits lo n d

/-- One step of the Hilbert curve at side s: (x, y, t). -/
def hilbertStep (s x y t : Nat) : Nat × Nat × Nat :=
  let rx := t / 2 % 2
  let ry := (t ^^^ rx) % 2
  let p := if ry = 0 then (if rx = 1 then (s - 1 - y, s - 1 - x) else (y, x)) else (x, y)
  (p.1 + s * rx, p.2 + s * ry, t / 4)

/-- The Hilbert curve: n steps, the side doubling from s. -/
def hilbert : Nat → Nat → Nat → Nat → Nat → Nat × Nat
  | 0, _, x, y, _ => (x, y)
  | n + 1, s, x, y, t => let p := hilbertStep s x y t; hilbert n (2 * s) p.1 p.2.1 p.2.2

/-- Cell d of a tile whose side is 2^n. -/
def curveCell (hil : Bool) (n d : Nat) : Nat × Nat :=
  if hil then hilbert n 1 0 0 d else (evenBits 0 n d, evenBits 1 n d)

/-- Exponent of the smallest power of two at or above m. -/
def ceilLog2 (m : Nat) : Nat := if m ≤ 1 then 0 else Nat.log2 (m - 1) + 1

/-- Orders 2 and 3: the j-th cell that lies inside the plane, of tiles of side 2^n taken row by row. -/
def curveFrom (hil : Bool) (gx gy n tx : Nat) : Nat → Nat → Nat → Nat × Nat
  | 0, _, _ => (0, 0)
  | fuel + 1, c, j =>
    let tile := c / 4 ^ n
    let p := curveCell hil n (c % 4 ^ n)
    let x := tile % tx * 2 ^ n + p.1
    let y := tile / tx * 2 ^ n + p.2
    if x < gx ∧ y < gy then (if j = 0 then (x, y) else curveFrom hil gx gy n tx fuel (c + 1) (j - 1))
    else curveFrom hil gx gy n tx fuel (c + 1) j

/-- Position of a gang in its plane. -/
def planeAt (r : Record) (j : Nat) : Nat × Nat :=
  let w := 2 ^ r.swizzle
  match r.order with
  | 0 => planeRow r.gx r.gy w j
  | 1 => (planeRow r.gy r.gx w j).swap
  | o =>
    let n := if r.swizzle = 0 then ceilLog2 (max r.gx r.gy) else r.swizzle
    let tx := (r.gx + 2 ^ n - 1) / 2 ^ n
    let ty := (r.gy + 2 ^ n - 1) / 2 ^ n
    curveFrom (o == 3) r.gx r.gy n tx (tx * ty * 4 ^ n) 0 j

/-- Coordinates of gang n. -/
def gangAt (r : Record) (n : Nat) : Nat × Nat × Nat :=
  let p := planeAt r (n % (r.gx * r.gy))
  (p.1, p.2, n / (r.gx * r.gy))

def gangCount (r : Record) : Nat := r.gx * r.gy * r.gz

/-! ## Room on a core (R105, R114, R126, R146, R280) -/

/-- The lowest start of a free range of n of total. -/
def lowestFree (used : List (Nat × Nat)) (n total : Nat) : Option Nat :=
  let ok := fun a => decide (a + n ≤ total) && used.all fun u => decide (a + n ≤ u.1) || decide (u.1 + u.2 ≤ a)
  (sortBy id (0 :: used.map fun u => u.1 + u.2)).find? ok

/-- Register ranges of a quadrant: base and length. -/
def quadUsed (s : State) (core q : Nat) : List (Nat × Nat) :=
  (blocksOn s core).flatMap fun b => ((tkeys (s.block b).groups).filter fun g => g % 4 == q && !(s.group b g).ended).map fun g =>
    ((s.group b g).regBase, (recordOf s b).regs)

/-- Scratchpad ranges of a core. -/
def scratchUsed (s : State) (core : Nat) : List (Nat × Nat) :=
  ((blocksOn s core).filter fun b => (recordOf s b).scratch != 0).map fun b => ((s.block b).scrBase, 256 * (recordOf s b).scratch)

/-- Register bases for groups on a core; none where a quadrant has no slot or no room. DEDUCED (log 37). -/
def groupBases (s : State) (core : Nat) (r : Record) (gs : List Nat) : Option (List (Nat × Nat)) :=
  gs.foldl (fun acc g => match acc with
    | none => none
    | some xs =>
      let used := quadUsed s core (g % 4) ++ (xs.filter fun e => e.1 % 4 == g % 4).map fun e => (e.2, r.regs)
      if 16 ≤ used.length then none else (lowestFree used r.regs 4096).map fun a => xs ++ [(g, a)]) (some [])

/-- No block of another context with items is on the core (R114). -/
def itemsFit (s : State) (core h : Nat) : Bool :=
  (s.context h).record.itemCount == 0 ||
  (blocksOn s core).all fun b => (s.block b).ctx == h || (recordOf s b).itemCount == 0

/-- Tiles that a saved block holds. -/
def ownTiles (k : Block) (b : Nat) : List Nat := (tkeys k.savedTiles).filter fun t => let x := (tget {} k.savedTiles t).token; x == .vec b || x == .mat b

def tilesFit (s : State) (core b : Nat) : Bool :=
  (ownTiles (s.block b) b).all fun t => (tget {} (s.core core).tiles t).token == .free

/-- A core of a partition that may hold blocks: not retired, not being drained. -/
def usableCore (s : State) (p c : Nat) : Bool :=
  bit (s.part p).coreMask c && !(s.core c).retired && (match s.svc.draining with | some d => d.1 != c | none => true)

/-! ## Placing a block -/

/-- The first cycle of a core in which a block placed now may issue: that of the next pulse, in which no core of the gang has issued yet
(R106). -/
def firstCycle (s : State) (core : Nat) : Nat :=
  let c := s.core core
  if c.pulse < s.pkg.pulses then c.cycles + 1 else c.cycles

/-- A core's caches start empty under a block of an image, which has not been on a core of this part (R279). -/
def coldCaches (s : State) (core b : Nat) : State :=
  let k := s.block b
  if k.savedIn = .core ∨ k.slot.isSome then s else modCore s core fun c => { c with l1 := [], const := [], icache := [] }

/-- What a block finds on its core: its tiles, its item queue, its parked times; its lanes stand past pad words (R116, R142, R250, R279,
R286, R395, R430, R445). DEDUCED (log 41). -/
def settle (s : State) (core b : Nat) : State :=
  let k := s.block b
  let c := s.core core
  let back := ownTiles k b
  let mine := (s.context k.ctx).record.itemCount != 0
  let there := c.itemCtx == some k.ctx
  let s1 := modCore s core fun c => { c with
    tiles := back.foldl (fun t n => tset {} t n (tget {} k.savedTiles n)) c.tiles
    items := if mine && !there then k.savedItems.getD [] else c.items
    itemCtx := if mine then some k.ctx else c.itemCtx }
  let s2 := if mine && there then modCtx s1 k.ctx fun x => { x with returned := sortBy id (x.returned ++ k.savedItems.getD []) } else s1
  let now := coreCt s core
  let lane := fun (l : Lane) => { l with lpc := w64 (landing s b l.lpc.toNat), park := { l.park with
    x := if l.park.cause = pkSleep then 0 else l.park.x, since := now, marks := k.marks } }
  modBlock s2 b fun k => { k with
    savedTiles := [], savedItems := none
    groups := tmapv (fun q : Group => { q with
      age := c.cycles, lastIssue := none, stallUntil := firstCycle s core, stopped := false
      lanes := tmapv lane q.lanes
      loads := q.loads.map fun l => if l.waiting = 0 then l else { l with issueCt := now } }) k.groups }

/-- Place a block that is not resident on a core, where it fits. -/
def placeBlock (s : State) (core b : Nat) : Option State :=
  let k := s.block b
  let r := recordOf s b
  let gs := (tkeys k.groups).filter fun g => !(s.group b g).ended
  if !itemsFit s core k.ctx || !tilesFit s core b then none
  else match groupBases s core r gs, lowestFree (scratchUsed s core) (256 * r.scratch) (2 ^ 20) with
  | some xs, some a => some (settle (modBlock (coldCaches s core b) b fun k => { k with
      core := core, resident := true, scrBase := a, savedIn := .core
      groups := xs.foldl (fun t e => tmod {} t e.1 fun q => { q with regBase := e.2 }) k.groups }) core b)
  | _, _ => none

/-- Blocks in ascending id go to distinct cores, each to the lowest that can hold it (R123). DESIGN CHOICE (log 85). -/
def placeDistinct (p : Nat) : List Nat → List Nat → State → Option State
  | _, [], s => some s
  | [], _ :: _, _ => none
  | c :: cs, b :: bs, s =>
    match (if usableCore s p c then placeBlock s c b else none) with
    | some t => placeDistinct p cs bs t
    | none => placeDistinct p cs (b :: bs) s

/-- Logical block b goes to core b mod U of the U lowest usable cores (R280). DESIGN CHOICE (log 85). -/
def placeOver (cores : List Nat) (bs : List Nat) (s : State) : Option State :=
  bs.foldl (fun acc b => match acc with
    | none => none
    | some t => placeBlock t (cores.getD ((t.block b).blk % cores.length) 0) b) (some s)

/-- A gang's blocks on one cluster. -/
def placeOnCluster (s : State) (h : Nat) (bs : List Nat) (cl : Nat) : Option State :=
  let x := s.context h
  let cores := (List.range 4).map fun k => 4 * cl + k
  if x.resumed then
    let ok := cores.filter (usableCore s x.part)
    ((List.range x.record.nblk).map fun u => x.record.nblk - u).findSome? fun u =>
      if u ≤ ok.length then placeOver (ok.take u) bs s else none
  else placeDistinct x.part cores bs s

/-! ## Gangs to place (R110, R122, R123, R125) -/

/-- Blocks of a gang that have not ended, in ascending block id. -/
def gangBlocks (s : State) (h gang : Nat) : List Nat :=
  sortBy (fun b => (s.block b).blk) ((blocksOf s h).filter fun b => (s.block b).gangSeq == gang)

/-- The lowest LCORE that no live block of a context holds (R277, R442). DESIGN CHOICE (log 85). -/
def freeLcore (s : State) (h : Nat) : Nat :=
  let used := (blocksOf s h).map fun b => (s.block b).lcore
  (firstIdx (used.length + 1) fun n => !used.contains n).getD 0

/-- A group at its first placement (R109). -/
def newGroup (r : Record) : Group :=
  { exists_ := true, live := BitVec.allOnes 32, sregs := tset 0 [] 1 r.param, lanes := lanes32.map fun L => (L, { lpc := w64 r.entry : Lane }) }

/-- A new block of a gang, not yet on a core. DESIGN CHOICE (log 35). -/
def newBlock (s : State) (h gang blk : Nat) : State :=
  let r := (s.context h).record
  let at_ := gangAt r gang
  { s with
    seq := s.seq + 1
    blocks := tset {} s.blocks s.seq {
      ctx := h, gangSeq := gang, gx := at_.1, gy := at_.2.1, gz := at_.2.2, blk := blk, lcore := freeLcore s h
      groups := (List.range r.ngrp).map fun g => (g, newGroup r) } }

/-- What a context would have placed next: a saved gang, or the next of its order with its blocks made. -/
inductive Unit_ where
  | saved (gang : Nat) | fresh (gang : Nat)
  deriving DecidableEq, Repr

def nextUnit (s : State) (h : Nat) : Option Unit_ :=
  let x := s.context h
  if !x.live || x.stop.isSome || x.freezing || !x.saving.isEmpty || x.saveFault.isSome then none
  else match sortBy id x.saved with
  | g :: _ => some (.saved g)
  | [] => if x.nextGang < gangCount x.record then some (.fresh x.nextGang) else none

/-- The unit's blocks, made where it is new. -/
def withUnit (s : State) (h : Nat) (u : Unit_) : State × List Nat :=
  match u with
  | .saved g => (modCtx s h fun x => { x with saved := x.saved.filter (· ≠ g) }, gangBlocks s h g)
  | .fresh g =>
    let t := (List.range (s.context h).record.nblk).foldl (fun s b => newBlock s h g b) s
    (modCtx t h fun x => { x with nextGang := g + 1 }, gangBlocks t h g)

/-- A gang that makes room on a cluster for a context is still being saved: the context waits until every such save is complete (R124). -/
def roomPending (s : State) (h cl : Nat) : Bool :=
  ((List.range 4).flatMap fun k => blocksOn s (4 * cl + k)).any fun b =>
    let x := s.context (s.block b).ctx
    x.saving.contains (s.block b).gangSeq && x.part == (s.context h).part && decide (x.prio < (s.context h).prio) && !x.freezing && x.stop.isNone

/-- The next unit of a context on the lowest-numbered cluster that fits it, of those that a test allows. -/
def tryWhere (ok : State → Bool) (s : State) (h : Nat) : Option (Unit_ × State) :=
  match nextUnit s h with
  | none => none
  | some u =>
    let w := withUnit s h u
    ((List.range 10).findSome? fun cl => (if roomPending s h cl then none else placeOnCluster w.1 h w.2 cl).bind fun t => if ok t then some t else none).map fun t => (u, t)

/-- The next unit of a context on the lowest-numbered cluster that fits it. -/
def tryServe (s : State) (h : Nat) : Option (Unit_ × State) := tryWhere (fun _ => true) s h

/-! ## Room made by pre-emption (R124) -/

/-- The gang's blocks leave their cores, for a test of room. -/
def withoutGang (s : State) (h gang : Nat) : State :=
  (gangBlocks s h gang).foldl (fun s b => modBlock (leaveCore s b) b fun k => { k with resident := false }) s

/-- Gangs with a block on a cluster: context and GANGSEQ. -/
def gangsOn (s : State) (cl : Nat) : List (Nat × Nat) :=
  ((List.range 4).flatMap fun k => blocksOn s (4 * cl + k)).foldl (fun acc b =>
    let e := ((s.block b).ctx, (s.block b).gangSeq); if acc.contains e then acc else acc ++ [e]) []

/-- Lowest priority, then most recently started, then highest GANGSEQ (R124). -/
def victimRank (s : State) (e : Nat × Nat) : Nat :=
  ((s.context e.1).prio * 2 ^ 64 + (2 ^ 64 - 1 - (s.context e.1).started)) * 2 ^ 64 + (2 ^ 64 - 1 - e.2)

/-- Take victims in order until the unit fits. -/
def victimsFrom (h : Nat) (bs : List Nat) (cl : Nat) : List (Nat × Nat) → State → Option (List (Nat × Nat))
  | vs, t => if (placeOnCluster t h bs cl).isSome then some [] else match vs with
    | [] => none
    | v :: rest => (victimsFrom h bs cl rest (withoutGang t v.1 v.2)).map fun l => v :: l

/-- For a context whose next unit fits no cluster: the lowest-numbered cluster on which pre-emption makes room, the gangs on it that are
already being saved, and those to pre-empt. -/
def roomFor (s : State) (h : Nat) : Option (Nat × List (Nat × Nat) × List (Nat × Nat)) :=
  match nextUnit s h, tryServe s h with
  | some u, none =>
    let w := withUnit s h u
    (List.range 10).findSome? fun cl =>
      let here := gangsOn s cl
      let leaving := here.filter fun e => (s.context e.1).saving.contains e.2
      let t := leaving.foldl (fun t e => withoutGang t e.1 e.2) w.1
      let cand := here.filter fun e => !leaving.contains e && (s.context e.1).part == (s.context h).part && decide ((s.context e.1).prio < (s.context h).prio)
      (victimsFrom h w.2 cl (sortBy (victimRank s) cand) t).map fun vs => (cl, leaving, vs)
  | _, _ => none

/-- The gangs to pre-empt for a context. -/
def victims (s : State) (h : Nat) : List (Nat × Nat) := ((roomFor s h).map fun e => e.2.2).getD []

/-- A placement, from s to t, leaves a context the room that gangs are being saved to make for it. -/
def keepsRoom (s t : State) (h : Nat) : Bool :=
  match roomFor s h, nextUnit s h with
  | some (cl, leaving, vs), some u =>
    let w := withUnit ((leaving ++ vs).foldl (fun t e => withoutGang t e.1 e.2) t) h u
    (placeOnCluster w.1 h w.2 cl).isSome
  | _, _ => true

/-- Descending priority, then the order of start (R123). -/
def serveRank (s : State) (h : Nat) : Nat := (255 - (s.context h).prio) * 2 ^ 64 + (s.context h).started

/-- The context served next in its partition, with what it leaves. A gang takes no room that a save makes for a context served before
its own (R123, R124). -/
def served (s : State) (p : Nat) : Option (Nat × Unit_ × State) :=
  let order := sortBy (serveRank s) (partCtxs s p)
  order.findSome? fun h => (tryWhere (fun t => (order.takeWhile fun c => c != h).all (keepsRoom s t)) s h).map fun e => (h, e)

/-! ## Tests at a resume (R142) -/

/-- Lanes parked in DEMAND whose truth is in its slot go on. -/
def demandsMet (s : State) (b g : Nat) : State :=
  (lanesOf (s.group b g).live).foldl (fun s L =>
    let q := s.group b g
    let l := q.lane L
    if l.park.cause = pkDemand ∧ inMask (tget {} q.slots l.park.detail).arrived L then demandRelease s b g l.park.detail L else s) s

/-- The line that a parked access waits for is present, in its own block or another. -/
def lineMet (s : State) (e : Nat × Nat × Nat) : Bool :=
  let k := s.block e.1
  match parseAddr s { b := e.1, g := e.2.1, core := k.core, ctx := k.ctx } ((s.group e.1 e.2.1).lane e.2.2).park.x.toNat with
  | .ok t => !isAbsent s t
  | .error _ => true

/-- The release tests of a restored block: queues, items, lines, truths, objects, masks, times and events. DEDUCED (log 41). -/
def restoreTests (s : State) (b : Nat) : State :=
  let k := s.block b
  let s1 := (tkeys k.queues).foldl (fun s n => serveQueue s b n) s
  let s2 := serveItems s1 k.core k.ctx
  let s3 := (tkeys k.objs).foldl (fun s i => releaseWaiters s b i) s2
  let s4 := (parkedOn s3 [b] fun p => p.cause == pkLine).foldl (fun s e => if lineMet s e then parkedAccess s e else s) s3
  wakeBlock ((tkeys k.groups).foldl (fun s g => crossRelease (rejoinRelease (demandsMet s b g) b g) b g) s4) b

/-! ## Replies to a parked group (R260, R266) -/

/-- A parked group whose IDs have all been answered goes on, or traps with XLATE_ABORT where one was aborted. -/
def faultAnswered (s : State) (b g : Nat) : State :=
  let q := s.group b g
  if !q.pfParked || q.faultIds.any (fun f => !f.replied) || !(s.block b).resident || q.stopped then s
  else
    let s1 := modGroup s b g fun q => { q with pfParked := false, faultIds := [] }
    let bad := q.faultIds.foldl (fun m f => if f.abort then m ||| f.lanes else m) (0 : Mask)
    let all := q.faultIds.foldl (fun m f => m ||| f.lanes) (0 : Mask)
    if q.faultIds.all fun f => !f.abort then s1
    else
      let pc := match q.replay with | some e => e.1.toNat | none => q.trapPc.toNat
      takeTrap s1 b g pc { cause := 0x0A, fm := all, cm := bad, va := (q.faultIds.filter fun f => f.abort).flatMap fun f => f.va }

/-- A gang has been placed again: its groups' tests are made. -/
def gangBack (s : State) (h gang : Nat) : State :=
  (gangBlocks s h gang).foldl (fun s b =>
    let t := (tkeys (s.block b).groups).foldl (fun s g => faultAnswered s b g) (restoreTests s b)
    (t.block b).copies.foldl (fun s j => copyPump s b j.id) t) s

/-- A context's next gang is placed (R123). -/
def execGangPlace (h : Nat) (s : State) : Out :=
  .next (if !running s then s else match served s (s.context h).part with
    | some (c, .fresh _, t) => if c = h then t else s
    | _ => s)

/-- A pre-empted gang is restored (R125). DEDUCED (log 39). -/
def execGangResume (h gang : Nat) (s : State) : Out :=
  .next (if !running s then s else match served s (s.context h).part with
    | some (c, .saved g, t) => if c = h ∧ g = gang then gangBack t h gang else s
    | _ => s)

/-! ## Pre-emption (R124, R266) -/

/-- Step 1: the gang's groups issue nothing more. -/
def stopGang (s : State) (h gang : Nat) : State :=
  let s1 := modCtx (trapsFirst s (gangBlocks s h gang)) h fun x => { x with saving := dedup (x.saving ++ [gang]) }
  (gangBlocks s1 h gang).foldl (fun s b => modBlock s b fun k => { k with groups := tmapv (fun q : Group => { q with stopped := true }) k.groups }) s1

/-- A gang is stopped to make room for a context of higher priority: one at a time, in the order of R124. -/
def execGangPreempt (h gang : Nat) (s : State) : Out :=
  .next (if (partCtxs s (s.context h).part).any fun c => (victims s c).head? == some (h, gang) then stopGang s h gang else s)

/-! ## Drain and save (R210, R250, R266–R268) -/

/-- Nothing that a block sent is still in flight. A COPY parked on a fault, or a multicast whose receivers are not ready, is kept with
its progress. DESIGN CHOICE (log 40). -/
def blockDrained (s : State) (b : Nat) : Bool :=
  let k := s.block b
  let c := s.core k.core
  s.reqs.all (fun r => !(r.block == b) || r.kind == .pref || (match r.copy with
    | some id => k.copies.any fun j => j.id == id && j.parked.isSome && r.hold
    | none => false)) &&
  c.mmaQ.all (fun m => m.block != b) &&
  c.tiles.all (fun t => t.2.vec.isEmpty || !(t.2.token == .mat b)) &&
  k.copies.all (fun j => j.parked.isSome || j.rbit.isSome) &&
  (tkeys k.groups).all fun g => lanes32.all fun L => !resolveOpen s b g L s.seq

/-- Ticks left of a wait (R445). DEDUCED (log 42). -/
def ticksLeft (s : State) (core since n : Nat) : Nat := since + n - coreCt s core

/-- The redirects that are due in a block are made before its lanes are recorded (R132, R223, R445). -/
def redirectDue (s : State) (b : Nat) : State :=
  (tkeys (s.block b).groups).foldl (fun s g =>
    renormalise ((lanes32.filter fun L => ((s.group b g).lane L).refuted.isSome).foldl (fun s L => redirectLane s b g L) s) b g) s

/-- A block made ready for its record: redirects that are due, waits in ticks left, no trace of the pipeline (R431, R445).
DEDUCED (log 42). -/
def prepBlock (s : State) (b : Nat) : State :=
  let s1 := redirectDue ((tkeys (s.block b).groups).foldl (fun s g => dropWaits s b g) s) b
  let core := (s1.block b).core
  let lane := fun (q : Group) (L : Nat) (l : Lane) =>
    if l.park.cause = pkWaitev ∧ l.park.y ≠ 0 then { l with park := { l.park with y := w64 (max 1 (ticksLeft s1 core l.park.since l.park.y.toNat)) } }
    else if l.park.cause = pkLine ∧ l.park.detail = 0 then
      (match q.lineLoad L with
        | some x => if tget 0 x.limit L = 0 then l else { l with park := { l.park with y := w64 (max 1 (ticksLeft s1 core x.issueCt (tget 0 x.limit L))) } }
        | none => l)
    else l
  modBlock s1 b fun k => { k with groups := tmapv (fun q : Group => { q with
    perf := [], prods := [], yielded := false
    lanes := q.lanes.map fun e => (e.1, lane q e.1 e.2)
    loads := q.loads.map fun x => { x with limit := (x.limit.map fun e =>
      (e.1, if inMask x.waiting e.1 && e.2 != 0 then max 1 (ticksLeft s1 core x.issueCt e.2) else e.2)) } }) k.groups }

/-- The block's tiles and, where it is its context's last on the core, the item queue go with it (R116, R250). DEDUCED (log 39). -/
def packBlockState (s : State) (b : Nat) (leaving : List Nat) : State :=
  let k := s.block b
  let c := s.core k.core
  let here := (ctxBlocksOn s k.core k.ctx).filter fun x => (s.block x).savedIn == .core
  let last := c.itemCtx == some k.ctx && here.all leaving.contains && here.getLast? == some b
  let s1 := modBlock s b fun k => { k with
    savedTiles := c.tiles.map fun t => (t.1, if t.2.token = .vec b ∨ t.2.token = .mat b then t.2 else { token := t.2.token, nf := t.2.nf })
    savedItems := if last then some c.items else none }
  if last then modCore s1 k.core fun c => { c with items := [], itemCtx := none } else s1

/-- Address of a block's save slot. -/
def slotVa (s : State) (b : Nat) : Nat :=
  let r := recordOf s b
  r.saveBase + 0x10000 + ((s.block b).slot.getD 0) * bsave r

/-- A block takes the lowest free slot when it is first saved (R268). -/
def takeSlot (s : State) (b : Nat) : State :=
  match (s.block b).slot with
  | some _ => s
  | none =>
    let used := (blocksOf s (s.block b).ctx).filterMap fun x => (s.block x).slot
    modBlock s b fun k => { k with slot := firstIdx (used.length + 1) fun n => !used.contains n }

/-- The first fault of the stores that save some blocks of a context: its address, kind and LCORE. -/
def saveFaultOf (s : State) (h : Nat) (bs : List Nat) : Option (Nat × XFault × Nat) :=
  let x := s.context h
  match rangeFault s x.part x.record.saveBase 0x2000 with
  | some (a, f) => some (a, f, (s.block (bs.headD 0)).lcore)
  | none => bs.findSome? fun b => (rangeFault s x.part (slotVa s b) (bsave x.record)).map fun e => (e.1, e.2, (s.block b).lcore)

/-- Write the header, the node table and the slots of some blocks. DEDUCED (log 38). -/
def writeSlots (s : State) (h : Nat) (bs : List Nat) : State :=
  let x := s.context h
  let s1 := writeVa s x.part x.record.saveBase 0x1000 (headerFields x)
  let s2 := match x.hctx with
    | some c => writeVa s1 x.part (x.record.saveBase + 0x1000) 0x1000 (nodeFields (s.hctxOf c))
    | none => s1
  bs.foldl (fun t b => writeVa t x.part (slotVa t b) (bsave x.record) (blockFields b (t.block b) x.record)) s2

/-- Every live hypothesis is refuted with reason CONTEXT_END (R85, R267). DESIGN CHOICE (log 28). DESIGN CHOICE (log 91). -/
def refuteAll (s : State) (h : Nat) : State :=
  let x := s.context h
  match x.hctx with
  | none => s
  | some n => ((tkeys (s.hctxOf n).nodes).filter fun id => (nodeOf s n id).state == 1).foldl (fun s id =>
      blackBox s { kind := 4, part := x.part, code := id, tag := x.record.userTag }) s

/-- A failed save discards its context (R267). -/
def discardCtx (s : State) (h code : Nat) : State :=
  let x := s.context h
  let s1 := modCtx s h fun c => { c with stop := some { cause := code } }
  let s2 := match rangeFault s1 x.part x.record.saveBase 0x1000 with
    | none => writeVa s1 x.part x.record.saveBase 0x1000 (headerFields (s1.context h))
    | some _ => s1
  let s3 := blackBox (raiseInt (refuteAll s2 h) x.part 18) { kind := 3, part := x.part, code := code, tag := x.record.userTag }
  let s4 := freeCtx s3 h
  match s.svc.freezing with
  | some f => if f.1 = h then mboxDone { s4 with svc := { s4.svc with freezing := none } } 4 else s4
  | none => s4

/-- The stop of a context is complete once its last gang stands in the save area, with the STOP fields in its header (R265). -/
def stopDone (s : State) (h : Nat) : State :=
  let x := s.context h
  match x.stop with
  | some st =>
    if !x.saving.isEmpty || x.saveFault.isSome then s
    else blackBox (raiseInt s x.part 18) { kind := 3, part := x.part, core := st.core, code := st.cause, tag := x.record.userTag }
  | none => s

/-- A fault-ring entry of a save (R261, R267). -/
def saveEntry (s : State) (h a lcore : Nat) : State :=
  let x := s.context h
  let e := faultEntry s x.part a 9 lcore x.chan 0
  modCtx e.2 h fun c => { c with saveFault := some e.1 }

/-- Step 4: the gang's cores are released together. DEDUCED (log 39). -/
def releaseGang (s : State) (h gang : Nat) : State :=
  let s1 := (gangBlocks s h gang).foldl (fun s b => modBlock (leaveCore s b) b fun k => { k with resident := false }) s
  stopDone (modCtx s1 h fun x => { x with saving := x.saving.filter (· ≠ gang), saved := sortBy id (dedup (x.saved ++ [gang])) }) h

/-- The drained state of some blocks, ready to be written. -/
def packBlocks (s : State) (bs : List Nat) : State :=
  bs.foldl (fun s b => takeSlot (packBlockState s b bs) b) (bs.foldl prepBlock s)

/-- The state of some blocks stands in their slots or in the emergency area. -/
def leftCore (s : State) (bs : List Nat) (p : SavedIn) : State :=
  bs.foldl (fun s b => modBlock s b fun k => { k with savedIn := p }) s

/-- The blocks of a gang whose state is still on one core. -/
def unsavedOn (s : State) (h gang core : Nat) : List Nat :=
  (gangBlocks s h gang).filter fun b => (s.block b).core == core && (s.block b).savedIn == .core

/-- A save, from s, has met a fault with its state packed in t. A page with V = 0 diverts it into the emergency area, one save at a time;
with no fault ring, or on another fault, the save fails (R261, R267). -/
def onSaveFault (s t : State) (h : Nat) (keep : State → State) : Nat × XFault × Nat → State
  | (a, .notPresent, lc) =>
    if !(s.part (s.context h).part).ringEnable then discardCtx t h 0x0A
    else if s.emergency.isSome then s
    else keep (saveEntry { t with emergency := some h } h a lc)
  | (_, f, _) => discardCtx t h (xfaultCode f)

/-- One core's state of a gang goes to its slots. A core that meets a page with V = 0 has its state diverted into the emergency area, or
waits while another core holds that area (R267). DEDUCED (log 38). -/
def saveCore (h gang : Nat) (s : State) (core : Nat) : State :=
  let bs := unsavedOn s h gang core
  let t := packBlocks s bs
  if bs.isEmpty || !(s.context h).saving.contains gang then s
  else match saveFaultOf t h bs with
    | none => leftCore (writeSlots t h bs) bs .slot
    | some e => onSaveFault s t h (fun u => leftCore u bs .emergency) e

/-- Step 3: the cores of a gang write its blocks. -/
def saveGang (s : State) (h gang : Nat) : State :=
  (List.range Config.cores).foldl (saveCore h gang) s

/-- The save of a stopped and drained gang goes on, and ends when no core holds any of its state (R266–R268). -/
def execPreemptSaveDone (h gang : Nat) (s : State) : Out :=
  .next (
    if !(s.context h).saving.contains gang || !((gangBlocks s h gang).all fun b => blockDrained s b) || s.pkg.clockStopped then s
    else
      let t := saveGang s h gang
      if (t.context h).saving.contains gang && (gangBlocks t h gang).all (fun b => (t.block b).savedIn != .core) then releaseGang t h gang else t)

/-- A retry of a save: the diverted state is copied into the save area and the emergency area is free; a fault in it is reported
again, or fails the save (R267). -/
def saveRetry (s : State) (h : Nat) : State :=
  let bs := (blocksOf s h).filter fun b => (s.block b).savedIn == .emergency
  match saveFaultOf s h bs with
  | none => stopDone { modCtx (leftCore (writeSlots s h bs) bs .slot) h (fun c => { c with saveFault := none }) with emergency := none } h
  | some (a, .notPresent, lc) => if (s.part (s.context h).part).ringEnable then saveEntry s h a lc else discardCtx s h 0x0A
  | some (_, f, _) => discardCtx s h (xfaultCode f)

/-! ## Items, groups, blocks (R114–R116, R119) -/

/-- A core's item queue takes a refill; lanes that wait on another core learn of exhaustion with the last index.
DESIGN CHOICE (log 72). -/
def execItemRefill (core : Nat) (s : State) : Out :=
  .next (if !running s then s else match refillDue s core with
    | none => s
    | some h => ((List.range Config.cores).filter fun c => c != core && (s.core c).itemCtx == some h).foldl (fun t c => serveItems t c h) (refill s core h))

/-- COPYs into the registers of a group, or into the scratchpad of a block, that have not completed. -/
def copiesInto (s : State) (b : Nat) (g : Option Nat) : Bool :=
  s.blocks.any fun e => e.2.copies.any fun j => match g with
    | some g => j.regs.any fun r => r.1 == b && r.2.1 == g
    | none => j.dsts.contains b

/-- A group with no live lane ends once its lent registers are back and COPYs into its registers are done.
DEDUCED (log 36). DEDUCED (log 37). -/
def execGroupEnd (b g : Nat) (s : State) : Out :=
  let q := s.group b g
  let k := s.block b
  .next (
    if !q.exists_ || q.ended || q.live != 0 || !k.resident || (s.core k.core).lent.any (fun e => e.1 / 2 ^ 9 == 16 * b + g) || copiesInto s b (some g) then s
    else modGroup (dropWaits s b g) b g fun q => { exists_ := true, ended := true, words := q.words })

/-- The block's storage and tokens are freed, after what is on its way there has been performed; the item queue of a context's last block
on the core, of those whose state is still there, is returned (R116). DESIGN CHOICE (logs 35 and 103). DEDUCED (log 36). DEDUCED (log 37). -/
def endBlock (s : State) (b : Nat) : State :=
  let s := captureRuns (gangFlush s b) b
  let k := s.block b
  let last := (s.core k.core).itemCtx == some k.ctx && ((ctxBlocksOn s k.core k.ctx).filter fun x => (s.block x).savedIn == .core) == [b]
  let s1 := if !last then s else
    modCore (modCtx s k.ctx fun x => { x with returned := sortBy id (x.returned ++ (s.core k.core).items) }) k.core fun c => { c with items := [], itemCtx := none }
  modBlock (leaveCore s1 b) b fun k => { k with resident := false, ended := true, queues := [], objs := [], groups := [], slot := none }

/-- A block ends when its groups have ended, COPYs into its scratchpad are done and no command of it is left. DEDUCED (log 36). -/
def execBlockEnd (b : Nat) (s : State) : Out :=
  let k := s.block b
  .next (
    if !k.resident || k.ended || k.groups.isEmpty || !((tkeys k.groups).all fun g => (s.group b g).ended) || copiesInto s b none ||
        (s.core k.core).mmaQ.any (fun m => m.block == b) then s
    else objTestAll (endBlock s b) b)

end Sys2Proof.Machine
end

