-- ==== Sys2Proof/Machine/Launch.lean ====
section
/-! DEFINITION. Launch channels, launch records, sync words, and the completion of contexts (R75–R86, R112, R122, R211, R235,
R236). -/

namespace Sys2Proof.Machine

/-! ## Rings (R76) -/

/-- A range of device memory that a partition may use as a ring: inside its granules and below the emergency range. -/
def ringOk (s : State) (p base len : Nat) : Bool := reachable s p base && reachable s p (base + len - 1)

/-- A channel halts with an error code (R78, R83, R86). -/
def haltChan (s : State) (p c code : Nat) : State :=
  raiseInt (modChan s p c fun k => { k with err := code, halted := true, miss := 0, wait := none, w0 := none, w1 := none, ready := false }) p 17

/-! ## Registers of a channel (R75–R78) -/

/-- The channel exists (R89). -/
def chanThere (p c : Nat) : Bool := decide (p < Config.partitions) && decide (c < 16)

/-- The value of PRIO that a partition allows (R75). DESIGN CHOICE (log 31). -/
def cappedPrio (s : State) (p x : Nat) : Nat := min x (s.part p).prioCap

/-- SIZE_LOG2 as stored: codes other than 4 to 16 are stored as 4. DESIGN CHOICE (log 31). -/
def ringLog (x : Nat) : Nat := if 4 ≤ x ∧ x ≤ 16 then x else 4

/-- CHAN_CFG. BASE and SIZE_LOG2 take new values only while ENABLE reads 0; a ring outside the partition is refused whole.
DEDUCED (log 30). -/
def execChanCfgWrite (p c : Nat) (value : W64) (s : State) : Out :=
  let v := value.toNat
  let k := s.chan p c
  let on := bit v 63
  let size := if k.enable then k.sizeLog2 else ringLog (bits v 44 40)
  let base := if k.enable then k.base else bits v 38 8
  .next (
    if !chanThere p c then s
    else if on && !k.enable && !ringOk s p (256 * base) (256 * 2 ^ size) then modChan s p c fun k => { k with err := 10 }
    else modChan s p c fun k =>
      let k := { k with enable := on, prio := cappedPrio s p (bits v 55 48), sizeLog2 := size, base := base }
      -- a record that waits is read again once the channel takes records again
      if on then k else { k with wait := none, w0 := none, w1 := none, ready := false })

/-- A doorbell gives a new tail, or halts the channel with OVERRUN. Channels accept doorbells once the part is ready (R23). -/
def execChanDoorbell (p c : Nat) (tail : W32) (s : State) : Out :=
  let k := s.chan p c
  .next (
    if !chanThere p c || !s.pkg.ready || tail.toNat = k.tail then s
    else if (tail.toNat + 2 ^ 32 - k.head) % 2 ^ 32 ≤ 2 ^ k.sizeLog2 then
      modChan { s with doorbells := s.doorbells + 1 } p c fun k => { k with tail := tail.toNat, bells := k.bells ++ [(s.doorbells, tail.toNat)] }
    else haltChan s p c 1)

/-- Writing 1 to HALTED clears it; the record at HEAD is read again. -/
def execChanHaltedClear (p c : Nat) (s : State) : Out :=
  .next (if !chanThere p c then s else modChan s p c fun k => if k.halted then { k with halted := false, miss := 0 } else k)

/-- The next record is at HEAD. Doorbells that cover nothing more are forgotten. -/
def nextHead (k : Chan) : Chan :=
  let h := (k.head + 1) % 2 ^ 32
  { k with head := h, miss := 0, wait := none, w0 := none, w1 := none, ready := false
           bells := k.bells.filter fun b => decide (0 < (b.2 + 2 ^ 32 - h) % 2 ^ 32) && decide ((b.2 + 2 ^ 32 - h) % 2 ^ 32 < 2 ^ 31) }

/-- SKIP while halted: past the record at HEAD, where there is one. -/
def execChanSkip (p c : Nat) (s : State) : Out :=
  .next (if !chanThere p c then s else modChan s p c fun k =>
    if !k.halted then k else if k.head = k.tail then { k with halted := false, miss := 0 } else { nextHead k with halted := false })

/-! ## The launch record (R81, R82) -/

/-- Field of a record at an offset. -/
def recField (raw : List Byte) (off n : Nat) : Nat := ofLeBytes ((raw.drop off).take n)

/-- The fields of a record's 256 bytes. -/
def parseRecord (raw : List Byte) : Record :=
  let f := fun off => recField raw off 8
  let h := f 0x00
  let g := f 0x18
  let sh := f 0x20
  let t := f 0x28
  let i := f 0x60
  { raw := raw, seq := bits h 15 0, version := bits h 23 16, kind := bits h 27 24, stallCheck := bit h 28, hypEnable := bit h 29, irqDone := bit h 30
    entry := f 0x08, param := w64 (f 0x10), gx := bits g 20 0, gy := bits g 41 21, gz := bits g 62 42
    ngrp := bits sh 3 0 + 1, nblk := bits sh 5 4 + 1, regs := 8 * (bits sh 13 8 + 1), scalars := bits sh 22 16 + 1, scratch := bits sh 44 32
    order := bits sh 49 48, swizzle := bits sh 53 50, limit := bits t 31 0, lease := bits t 63 32, trapTable := f 0x30
    saveBase := f 0x38, saveSize := f 0x40, vatBase := f 0x48, vatSize := f 0x50, itemCount := f 0x58, itemHead := bits i 31 0, chunk := bits i 42 32
    wait0 := f 0x68, wait0v := f 0x70, wait1 := f 0x78, wait1v := f 0x80, signal := f 0x88, signalV := f 0x90, userTag := w64 (f 0x98)
    slots := (List.range 8).map fun k => f (0xC0 + 8 * k) }

/-- Reserved bits of a record that are not zero (R81, R82). -/
def reservedSet (raw : List Byte) : Bool :=
  let f := fun off => recField raw off 8
  let sh := f 0x20
  bits (f 0x00) 63 31 != 0 || bit (f 0x18) 63 || bits sh 7 6 != 0 || bits sh 15 14 != 0 || bits sh 31 23 != 0 || bits sh 47 45 != 0 || bits sh 63 54 != 0 ||
  bits (f 0x60) 63 43 != 0 || (List.range 4).any fun k => f (0xA0 + 8 * k) != 0

/-- An unused wait or signal whose address or value is not zero (R83). -/
def unusedSet (addr value : Nat) : Bool := addr % 8 == 0 && (addr / 8 != 0 || value != 0)

/-- Launch fields of a marker that are not zero (R82). -/
def markerSet (raw : List Byte) : Bool :=
  (List.range 32).any fun k => recField raw (8 * k) 8 != 0 && !([0, 13, 14, 15, 16, 17, 18, 19] : List Nat).contains k

/-- Check 3: version, kind, codes and reserved fields; in a marker also the fields that it must hold as zero. STALL_CHECK and
HYP_ENABLE belong to HDR and are allowed there. -/
def badRecord (r : Record) : Bool :=
  r.version != 1 || 2 ≤ r.kind || reservedSet r.raw || 3 ≤ r.wait0 % 8 || 3 ≤ r.wait1 % 8 || 3 ≤ r.signal % 8 ||
  unusedSet r.wait0 r.wait0v || unusedSet r.wait1 r.wait1v || unusedSet r.signal r.signalV || (r.kind == 1 && markerSet r.raw)

/-- Check 4: GRID, SHAPE, ITEM_CFG and ITEM_COUNT. -/
def badShape (r : Record) : Bool :=
  r.gx == 0 || r.gy == 0 || r.gz == 0 || 4096 < r.scratch || 10 < r.swizzle || 2 ^ 48 < r.itemCount ||
  (if r.itemCount = 0 then r.itemHead != 0 || r.chunk != 0 else r.itemHead % 4 != 0 || r.chunk == 0 || 1024 < r.chunk)

/-- A path 0x00 address with an alignment (R81). Bits 55:48 are no check of the record: an access there faults (R147). -/
def plainVa (a align_ : Nat) : Bool := pathOf a == 0 && a % align_ == 0

/-- The address of a sync word: path 0x00 or 0x06 (R81). -/
def syncVaOk (a : Nat) : Bool := a % 8 == 0 || pathOf a == 0 || pathOf a == 6

/-- Check 5: addresses. -/
def badAddress (r : Record) : Bool :=
  !syncVaOk r.wait0 || !syncVaOk r.wait1 || !syncVaOk r.signal ||
  (r.kind == 0 && !(plainVa r.entry 32 && plainVa r.trapTable 256 && plainVa r.saveBase 4096 && plainVa r.vatBase 65536))

/-- Check 6: times. -/
def badTime (r : Record) : Bool := r.limit == 0 || 2 ^ 24 < r.limit || r.lease < 256 || 65536 < r.lease

/-- Check 7: a format slot (R235, R236). -/
def badSlot (d : Nat) : Bool :=
  bits d 63 15 != 0 || 4 ≤ bits d 11 9 || 4 ≤ bits d 8 6 || 2 ≤ bits d 5 4 || 6 ≤ bits d 3 0 ||
  (3 ≤ bits d 3 0 && (bits d 5 4 != 0 || bits d 8 6 != 0)) || (bits d 3 0 == 0 && bit d 14)

/-- Check 8: the save area and the vat. -/
def badSave (r : Record) : Bool :=
  r.saveSize < minSave r || (if r.hypEnable then r.vatSize == 0 || r.vatSize % 65536 != 0 else r.vatSize != 0 || r.vatBase != 0)

/-- Check 9: no cluster of the partition has enough cores that are not retired. -/
def noFit (s : State) (p : Nat) (r : Record) : Bool :=
  (List.range 10).all fun cl => (((List.range 4).filter fun k => bit (s.part p).coreMask (4 * cl + k) && !(s.core (4 * cl + k)).retired).length) < r.nblk

/-- The first failing check, 0 for none (R83). -/
def recordError_ (s : State) (p : Nat) (r : Record) : Nat :=
  if badRecord r then 3
  else if r.kind == 0 && badShape r then 4
  else if badAddress r then 5
  else if r.kind == 1 then 0
  else if badTime r then 6
  else if r.slots.any badSlot then 7
  else if badSave r then 8
  else if noFit s p r then 9
  else 0

/-! ## The record at HEAD (R79, R80, R83, R84) -/

/-- Translate the address of a sync word for an access: whether it lies in host memory, and where; none where it faults. -/
def syncPlace (s : State) (p a : Nat) (acc : Acc) : Option (Bool × Nat × Xl) :=
  let va := a / 8 * 8
  match xlate s 64 p (va % 2 ^ 56) acc (pathOf va == 6) with
  | .ok x => some (x.tier, x.pa, x)
  | .error _ => none

/-- A used wait's place; the outer option is none where its translation faults. -/
def waitPlace (s : State) (p a : Nat) : Option (Option (Bool × Nat)) :=
  if a % 8 = 0 then some none else (syncPlace s p a .read).map fun e => some (e.1, e.2.1)

/-- The walk of a used wait marks its entry as accessed (R153). -/
def noteWait (s : State) (p a : Nat) : State :=
  if a % 8 = 0 then s else match syncPlace s p a .read with
    | some e => notePte s p (a / 8 * 8 % 2 ^ 48) .read e.2.2.entry
    | none => s

def onHost (w : Option (Bool × Nat)) : Bool := match w with | some e => e.1 | none => false

/-- A word in host memory is read: its value where the buffer owns the line, and none while RdOwn is asked for it (R74, R84). -/
def pollWord (s : State) (w : Option (Bool × Nat)) : Option Nat :=
  match w with
  | some (true, a) => if s.pkg.linkUp && lineOwned s (a / 64) then some (ofLeBytes (hostView s a 8)) else none
  | _ => none

/-- The channel's waits on host memory are read and its record is evaluated. While RdOwn is asked for a word's line the word counts as not
holding (R84). DEDUCED (log 29). -/
def pollHost (s : State) (p c : Nat) : State :=
  evalChan (modChan s p c fun k => { k with pollAt := s.ct, v0 := pollWord s k.w0, v1 := pollWord s k.w1 }) p c

/-- The record at HEAD is read: its SEQ, its checks, its wait addresses, and the first evaluation of its words. DEDUCED (log 29). -/
def readHead (s : State) (p c : Nat) : State :=
  let k := s.chan p c
  let r := parseRecord (memBytes s (256 * k.base + 256 * (k.head % 2 ^ k.sizeLog2)) 256)
  if r.seq ≠ k.head % 2 ^ 16 then
    if 15 ≤ k.miss then haltChan s p c 2 else modChan s p c fun k => { k with miss := k.miss + 1, readAt := s.ct }
  else
    let e := recordError_ s p r
    if e ≠ 0 then haltChan s p c e
    else match waitPlace s p r.wait0, waitPlace s p r.wait1 with
    | some a, some b =>
      pollHost (modChan (noteWait (noteWait s p r.wait0) p r.wait1) p c fun k => { k with miss := 0, wait := some r, w0 := a, w1 := b, ready := false }) p c
    | _, _ => haltChan s p c 11

/-- A channel has a record to look at. -/
def headDue (s : State) (k : Chan) : Bool := !s.pkg.clockStopped && k.enable && !k.halted && k.head != k.tail && k.wait.isNone

/-- DEDUCED (log 29). -/
def execRecordAtHead (p c : Nat) (s : State) : Out :=
  .next (if headDue s (s.chan p c) && (s.chan p c).miss == 0 then readHead s p c else s)

/-- A record whose SEQ did not match is read again 1,500 ticks after its last read. -/
def execRecordSeqRecheck (p c : Nat) (s : State) : Out :=
  let k := s.chan p c
  .next (if headDue s k && k.miss != 0 && decide (k.readAt + 1500 ≤ s.ct) then readHead s p c else s)

/-- A poll of the channel's host words is due, 1,500 ticks after the last (R84). -/
def pollDue (s : State) (k : Chan) : Bool :=
  k.wait.isSome && !k.ready && (onHost k.w0 || onHost k.w1) && s.pkg.linkUp && decide (k.pollAt + 1500 ≤ s.ct)

/-- A sync word in host memory is read through the host-line buffer, which asks for lines it does not own with RdOwn.
DEDUCED (log 29). -/
def execSyncWordPollHost (p c : Nat) (s : State) : Out := .next (if pollDue s (s.chan p c) then pollHost s p c else s)

/-! ## Start (R80, R122) -/

/-- Hypothesis contexts that are free. -/
def freeHctx (s : State) : Option Nat := firstIdx 4 fun x => (s.hctxOf x).ctx.isNone

/-- A record may start now. -/
def startable (s : State) (k : Chan) : Bool :=
  k.enable && !k.halted && k.ready && (match k.wait with
    | none => false
    | some r => r.kind == 1 || (r.kind == 0 && decide ((liveCtxs s).length < Config.maxContexts) && (!r.hypEnable || (freeHctx s).isSome)))

/-- The order number of the first accepted doorbell that covers the record at HEAD. -/
def bellOf (k : Chan) : Nat :=
  ((k.bells.find? fun b => decide (0 < (b.2 + 2 ^ 32 - k.head) % 2 ^ 32) && decide ((b.2 + 2 ^ 32 - k.head) % 2 ^ 32 < 2 ^ 31)).map Prod.fst).getD 0

def startRank (k : Chan) : Nat := (255 - k.prio) * 2 ^ 64 + bellOf k

/-- The channel's record goes first among all that may start. -/
def startsFirst (s : State) (p c : Nat) : Bool :=
  let k := s.chan p c
  !s.pkg.clockStopped && startable s k && (tkeys s.parts).all fun q => (tkeys (s.part q).chans).all fun d =>
    let o := s.chan q d
    !startable s o || decide (startRank k ≤ startRank o)

/-- The shape a context takes from its partition (R211). DEDUCED (log 32). -/
def shapeValue (q : Part_) (c : Nat) : W64 :=
  if q.shapeEnable ∧ q.shapeChan = c then w64 (2 ^ 63 + c * 2 ^ 48 + q.shapeTicks) else 0

/-- A launch record becomes a context. DESIGN CHOICE (log 28). DEDUCED (log 32). -/
def startContext (s : State) (p c : Nat) (r : Record) : State :=
  let h := tfree s.ctxs
  let k := s.chan p c
  let x := if r.hypEnable then freeHctx s else none
  let s1 := { s with
    seq := s.seq + 1
    ctxs := tset {} s.ctxs h { live := true, part := p, chan := c, index := k.head, prio := k.prio, started := s.seq, record := r, hctx := x, shape := shapeValue (s.part p) c } }
  let s2 := match x with | some n => modHctx s1 n fun _ => { ctx := some h } | none => s1
  blackBox (modChan s2 p c nextHead) { kind := 1, part := p, tag := r.userTag }

def execRecordStart (p c : Nat) (s : State) : Out :=
  .next (match (s.chan p c).wait with
    | some r => if r.kind == 0 && startsFirst s p c then startContext s p c r else s
    | none => s)

/-! ## Signals (R82, R85) -/

/-- What became of a signal: none to make, a fault, or under way as a request. -/
inductive Sig where
  | none_ | fault | sent (s : State) (req : Nat)
  deriving DecidableEq, Repr

/-- A signal is a store, or an atomic add, of the service core (R32): at its word's home, where page migration may hold it (R174), or in host
memory, where it waits for the link (R270). DEDUCED (log 27). DESIGN CHOICE (log 101). -/
def signalTo (s : State) (p ctx : Nat) (r : Record) : Sig :=
  if r.signal % 8 = 0 then .none_
  else match syncPlace s p r.signal .write with
  | none => .fault
  | some (host, pa, x) =>
    let va := r.signal / 8 * 8 % 2 ^ 48
    let t := notePte s p va .write x.entry
    .sent (addReq t {
      id := t.seq, kind := if r.signal % 8 = 1 then .store else .atomic, place := if host then .host (pa / 64 * 64) else .home (pa / 64 * 64)
      block := 2 ^ 32, core := 64, ctx := ctx, part := p, gen := (s.part p).gen, va := va, hold := x.hold || pageHeld t p va, sub := 0
      ty := .n64, parts := [{ off := pa % 64, w := 8, opB := r.signalV }], bytes := (leBytes 8 r.signalV).zipIdx.map fun e => (pa % 64 + e.2, e.1)
      deadline := if host then 0 else homeCt t pa + 64, cls := 0 }) t.seq

/-- A signal that was sent has been applied, and its completion time has passed: it is globally visible (R20, R86). DEDUCED (log 27). -/
def signalDone (s : State) (id : Nat) : Bool :=
  match s.reqs.find? fun r => r.id == id with
  | some r => r.stage == .reply && decide (r.ctc ≤ s.ct)
  | none => true

/-- The end of a record: its black-box entry, and its completion interrupt (R85, R86). DESIGN CHOICE (log 28). -/
def recordDone (s : State) (p c : Nat) (r : Record) : State :=
  let s1 := blackBox s { kind := 2, part := p, tag := r.userTag }
  if r.irqDone then raiseInt s1 p c else s1

/-- A signal whose address faults halts its channel with BAD_SYNC. -/
def signalFault (s : State) (p c : Nat) (r : Record) : State :=
  blackBox (haltChan s p c 11) { kind := 2, part := p, code := 11, tag := r.userTag }

/-- A marker starts: HEAD moves on and its signal is made. DEDUCED (log 27). -/
def startMarker (s : State) (p c : Nat) (r : Record) : State :=
  let go := fun (t : State) => modChan t p c nextHead
  match signalTo s p (2 ^ 32) r with
  | .none_ => recordDone (go s) p c r
  | .fault => signalFault (go s) p c r
  | .sent t id => modChan (go t) p c fun k => { k with signalReq := k.signalReq ++ [(id, r)] }

/-- A marker whose waits hold signals; once the signal is globally visible the record is done. -/
def execMarkerSignal (p c : Nat) (s : State) : Out :=
  let k := s.chan p c
  .next (match k.signalReq.find? fun e => signalDone s e.1, k.wait with
    | some e, _ => recordDone (modChan (dropReq s e.1) p c fun k => { k with signalReq := k.signalReq.erase e }) p c e.2
    | none, some r => if r.kind == 1 && startsFirst s p c then startMarker s p c r else s
    | none, none => s)

/-! ## Completion of a context (R85) -/

/-- Every gang has exited, every engine and queue is idle, and every completion time has passed. DESIGN CHOICE (log 91). -/
def ctxDone (s : State) (h : Nat) : Bool :=
  let x := s.context h
  let bs := (tkeys s.blocks).filter fun b => (s.block b).ctx == h
  x.live && x.stop.isNone && !x.freezing && x.saving.isEmpty && x.saved.isEmpty && decide (gangCount x.record ≤ x.nextGang) &&
  (bs.all fun b => (s.block b).ended && (s.block b).copies.isEmpty) &&
  (s.reqs.all fun r => r.ctx != h || r.kind == .pref || r.inb.isSome || r.fromHost) &&
  (s.cores.all fun e => e.2.mmaQ.all fun m => !bs.contains m.block) &&
  (match x.hctx with | some n => (s.hctxOf n).queue.isEmpty | none => true) && decide (x.maxCtc ≤ s.ct)

/-- The context has completed: its channel learns of it and its resources are free. -/
def finishCtx (s : State) (h : Nat) : State :=
  let x := s.context h
  freeCtx (recordDone s x.part x.chan x.record) h

def execContextComplete (h : Nat) (s : State) : Out :=
  let x := s.context h
  .next (match x.signalReq with
    | some id => if signalDone s id then finishCtx (dropReq s id) h else s
    | none =>
      if !ctxDone s h then s
      else
        let s1 := refuteAll s h
        match signalTo s1 x.part h x.record with
        | .none_ => finishCtx s1 h
        | .fault => freeCtx (signalFault s1 x.part x.chan x.record) h
        | .sent t id => modCtx (endHyps t h) h fun c => { c with signalReq := some id })

end Sys2Proof.Machine
end

