-- ==== Sys2Proof/Machine/Hypothesis.lean ====
section
/-! DEFINITION. Hypothesis instructions (R215–R217, R221, R226, R408–R412): class 0xD. -/

namespace Sys2Proof.Machine

/-- HYP of a lane of the issuing group. -/
def hypOf (s : State) (i : Iss) (L : Nat) : Nat := ((s.group i.b i.g).lane L).hyp

/-- An id operand: its bits 7:0 (R408). -/
def idOf (s : State) (i : Iss) (o : Opd) (L : Nat) : Nat := val32 s i o L % 256

/-- Write an id and a success predicate to executing lanes. -/
def idResult (s : State) (i : Iss) (w : Insn) (id : Nat → Nat) : State :=
  putD (putD s i 0 .b32 (opD w) i.ex id fun L => inMask i.gg L) i 0 .b32 (modP w) i.ex (fun L => b2n (id L != 0))
    fun L => inMask i.gg L

/-- The slot through which lane L of a HOPEN.g is a member: Va is a guessed origin there and the slot is unbound (R226). -/
def memberSlot (w : Insn) (s : State) (i : Iss) (L : Nat) : Option Nat :=
  let q := s.group i.b i.g
  match opA w with
  | .v n => match q.originSlot n L with
    | some k => if guessOf s i (opA w) 1 L && (tget {} q.slots k).hbind == 0 then some k else none
    | none => none
  | _ => none

/-- HOPEN: one node for each executing lane, in ascending lane id (R215). -/
def openPlain (w : Insn) (s : State) (i : Iss) (handler : Nat) : State :=
  let r := (lanesOf i.ex).foldl (fun (acc : State × Tbl Nat) L =>
    match openNode acc.1 i.ctx (hypOf s i L) handler false with
    | some (_, id, s) => (s, tset 0 acc.2 L id)
    | none => acc) (s, [])
  idResult r.1 i w fun L => tget 0 r.2 L

/-- HOPEN.g: one node for the member lanes, under the HYP of the lowest (R226). -/
def openBound (w : Insn) (s : State) (i : Iss) (handler : Nat) : State :=
  let cand := (lanesOf i.ex).filterMap fun L => (memberSlot w s i L).map fun k => (L, k)
  match cand with
  | [] => idResult s i w fun _ => 0
  | (L0, _) :: _ =>
    let p := hypOf s i L0
    let ms := cand.filter fun e => hypOf s i e.1 == p
    match openNode s i.ctx p handler true with
    | none => idResult s i w fun _ => 0
    | some (h, id, s1) =>
      let waits := (ms.filter fun e => !inMask (tget {} (s.group i.b i.g).slots e.2).arrived e.1).length
      let s2 := setNode s1 h id fun n => { n with npend := waits, members := ms.map fun e => (i.b, i.g, e.2, e.1) }
      let s3 := modGroup s2 i.b i.g fun q =>
        { q with slots := ms.foldl (fun t e => tmod {} t e.2 fun x => { x with hbind := id }) q.slots }
      boundDecide (idResult s3 i w fun L => if ms.any fun e => e.1 == L then id else 0) h id

/-- HOPEN and HOPEN.g (R409). A handler address outside path 0x00 faults in every executing lane. -/
def openWord (w : Insn) (s : State) (bound : Bool) : State :=
  runWord 0xD0 w s noBump fun s i =>
    let esc := escapes s i true []
    let handler := wrap 64 ((i.pc : Int) + disp w)
    if resolveHeld s i then .hold
    else if esc ≠ 0 then stop23 i 0x0B 0 esc
    else if i.ex ≠ 0 ∧ handler ≥ 2 ^ 48 then
      .partial_ (advance (guessDests s i [(opD w, 1), (modP w, 1)]) i (i.iss &&& ~~~i.ex))
        { cause := 0x06, fm := i.ex, cm := i.ex, va := (lanesOf i.ex).map fun L => (L, handler) }
    else .next (advance (if bound then openBound w s i handler else openPlain w s i handler) i i.iss)

def execHopen (w : Insn) (s : State) : Out := .next (openWord w s false)
def execHopenG (w : Insn) (s : State) : Out := .next (openWord w s true)

/-- Move executing lanes to nodes. -/
def moveHyp (s : State) (i : Iss) (dest : Nat → Nat) : State :=
  modGroup s i.b i.g fun q => q.mapLanes i.ex fun L l => { l with hyp := dest L }

/-- HSET (R216, R410). -/
def execHset (w : Insn) (s : State) : Out :=
  .next (runWord 0xD1 w s noBump fun s i =>
    let esc := escapes s i true [(opA w, 1)]
    let id := fun L => idOf s i (opA w) L
    let st := fun L => nodeState s (hctxFor s i.ctx) (id L)
    let bad := (lanesOf i.ex).any fun L => st L == 0 || st L == 3
    if resolveHeld s i || (lanesOf i.ex).any (fun L => underResolving s i.ctx (id L)) then .hold
    else if esc ≠ 0 then stop23 i 0x0B 0 esc
    else if bad then stop23 i 0x13 0 i.ex
    else .next (advance (moveHyp s i id) i i.iss))

/-- HLEAVE (R216, R410). -/
def execHleave (w : Insn) (s : State) : Out :=
  .next (runWord 0xD2 w s noBump fun s i =>
    let esc := escapes s i true []
    if resolveHeld s i then .hold
    else if esc ≠ 0 then stop23 i 0x0B 0 esc
    else
      let up := fun L => match hctxFor s i.ctx with
        | some h => if hypOf s i L = 0 then 0 else (nodeOf s h (hypOf s i L)).parent
        | none => 0
      .next (advance (moveHyp s i up) i i.iss))

/-- The requests of the executing lanes, taken in ascending lane id: the state, the lanes whose request enters the order,
and those whose confirm names a bound node (R221). DEDUCED (log 64). -/
def resolveLanes (confirm : Bool) (w : Insn) (s : State) (i : Iss) : State × List Nat × List Nat :=
  (lanesOf i.ex).foldl (fun (acc : State × List Nat × List Nat) L =>
    let id := idOf s i (opA w) L
    match hctxFor s i.ctx with
    | none => acc
    | some h =>
      let n := nodeOf acc.1 h id
      if id = 0 ∨ n.state ≠ 1 then acc
      else if confirm && n.bound then (acc.1, acc.2.1, acc.2.2 ++ [L])
      else (enterResolve acc.1 h confirm id 1 (some (i.b, i.g, L)), acc.2.1 ++ [L], acc.2.2)) (s, [], [])

/-- HRESOLVE (R221, R411). DEDUCED (log 64). -/
def resolveWord (w : Insn) (s : State) (confirm : Bool) : State :=
  runWord 0xD3 w s noBump fun s i =>
    let esc := escapes s i true [(opA w, 1)]
    let nested := (lanesOf i.ex).any fun L => hypOf s i L != 0
    if resolveHeld s i then .hold
    else if esc ≠ 0 then stop23 i 0x0B 0 esc
    else if nested then stop23 i 0x14 0 i.ex
    else
      let r := resolveLanes confirm w s i
      if !r.2.2.isEmpty then stop23 i 0x13 0 i.ex
      else if relHeld s i then .hold
      else .next (advance (putD (clearRel r.1 i) i 0 .b32 (opD w) i.ex (fun L => b2n (r.2.1.contains L))
        fun L => inMask i.gg L) i i.iss)

def execHresolveConfirm (w : Insn) (s : State) : Out := .next (resolveWord w s true)
def execHresolveRefute (w : Insn) (s : State) : Out := .next (resolveWord w s false)

/-- HQUERY.info: the fields of a node; the root is live with every other field 0 (R412). DESIGN CHOICE (log 90). -/
def nodeInfo (s : State) (h : Option Nat) (id : Nat) : Nat :=
  if id = 0 then 1 else match h with
  | none => 0
  | some h =>
    let n := nodeOf s h id
    n.state + 2 ^ 8 * n.parent + 2 ^ 16 * n.depth + 2 ^ 20 * b2n n.bound + 2 ^ 21 * n.npend

/-- HQUERY.anc: Anc(A, B) over ids that are live or resolving (R412). -/
def ancQuery (s : State) (h : Option Nat) (a d : Nat) : Bool :=
  let ok := fun id => nodeState s h id == 1 || nodeState s h id == 2
  ok a && ok d && (match h with | some h => anc s h a d | none => true)

def execHquery (w : Insn) (s : State) : Out :=
  .next (runWord 0xD4 w s noBump fun s i =>
    let h := hctxFor s i.ctx
    if w.sub.toNat = 0 then
      aluBody 0 .b32 (opD w) [(opA w, 1)] (fun s i L => nodeInfo s h (idOf s i (opA w) L)) s i
    else
      aluBody 0 .b32 (opD w) [(opA w, 1), (opB w, 1)]
        (fun s i L => b2n (ancQuery s h (idOf s i (opA w) L) (idOf s i (opB w) L))) s i)

end Sys2Proof.Machine
end

