-- ==== Sys2Proof/Machine/Resolve.lean ====
section
/-! DEFINITION. The steps of a resolve (R213, R221–R223, R228, R194). -/

namespace Sys2Proof.Machine

/-! ## Until E is fixed -/

/-- No request tagged with one of the ids is in egress (R221, R213); one that joined a fill was never sent. -/
def egressClear (s : State) (h : Nat) (ids : List Nat) : Bool :=
  s.reqs.all fun r => !(r.hctx == h && ids.contains r.hyp && r.stage == .egress && r.join.isNone)

/-- Every store accepted under one of the ids has been applied. -/
def storesDone (s : State) (h : Nat) (ids : List Nat) : Bool :=
  s.reqs.all fun r => !(r.hctx == h && ids.contains r.hyp && r.kind == .store && r.accepted)

/-- Sectors with a version of one of the ids. DESIGN CHOICE (log 79). -/
def affected (s : State) (h : Nat) (ids : List Nat) : List Nat :=
  dedup ((s.versions.filter fun v => v.hctx == h && ids.contains v.id).map fun v => v.sector)

/-- The ids of a resolve: its node, and for a refute the node's descendants as the resolves before it have left them. -/
def resolveIds (s : State) (h : Nat) (r : Resolve) : List Nat := if r.confirm then [r.id] else subtree s h r.id

/-- Change the resolve at the head of the order. -/
def modHead (s : State) (h : Nat) (f : Resolve → Resolve) : State :=
  modHctx s h fun c => match c.queue with | r :: rs => { c with queue := f r :: rs } | [] => c

/-- Versions that a confirm merges, or merges into, and that stand in the vat without having been back since the resolve began. -/
def farVersions (s : State) (h : Nat) (r : Resolve) : List Version :=
  let secs := affected s h [r.id]
  let p := (nodeOf s h r.id).parent
  if r.confirm then s.versions.filter fun v => v.hctx == h && v.inVat && !v.back && (v.id == r.id || (v.id == p && secs.contains v.sector)) else []

/-- Read a version back from the vat to its home slice (R222). DESIGN CHOICE (log 101). -/
def fetchVersion (s : State) (v : Version) : State :=
  match vatPa s v.hctx v.entry with
  | none => versionBack s v false
  | some pa =>
    if asked s (pa / 256 * 4) v.hctx v.id then s
    else sendStack s (stackOf pa) { kind := 1, addr := pa / 256 * 4, cls := 1, deadline := homeCt s pa, reqr := 42, hctx := v.hctx, hyp := v.id }

/-- Addresses of the committed sectors that a confirm writes and the host caches: it is snooped first (R73, R222). -/
def hostSectors (s : State) (h : Nat) (r : Resolve) : List Nat :=
  if r.confirm ∧ (nodeOf s h r.id).parent = 0 then ((affected s h [r.id]).map fun n => 64 * n).filter fun pa => snoopDue s pa true else []

/-- E: no earlier than Passed(LEASE_MAX) of every affected sector, than the E before it, or than the next tick; how much later is open (R221).
DESIGN CHOICE (log 79). -/
def chooseE (s : State) (h : Nat) (secs : List Nat) : Nat :=
  maxOf ([(s.hctxOf h).lastE, s.ct + 1, dieCt s 0 + 1, dieCt s 1 + 1] ++ secs.map fun n => leaseMax s (64 * n) + 4) + pick s h

/-- Once the egress queues hold no request of the ids, and what a confirm needs is at the homes, E is fixed. DESIGN CHOICE (log 79). -/
def execResolveEgressDrained (hctx : Nat) (s : State) : Out :=
  .next (match (s.hctxOf hctx).queue.head? with
    | none => s
    | some r =>
      let ids := resolveIds s hctx r
      if r.e.isSome || !egressClear s hctx ids || !storesDone s hctx ids then s
      else match farVersions s hctx r, hostSectors s hctx r with
      | [], [] =>
        let secs := affected s hctx ids
        let e := chooseE s hctx secs
        modHctx (modHead s hctx fun r => { r with ids := ids, sectors := secs, started := true, e := some e }) hctx fun c => { c with lastE := e }
      | vs, pas => pas.foldl (fun s pa => sendSnoop s pa true) (vs.foldl fetchVersion s))

/-! ## The effect (R222) -/

/-- Change the lanes of a context. -/
def modLanesOf (s : State) (ctx : Nat) (f : Lane → Lane) : State :=
  modGroupsOf s ctx fun _ _ q => { q with lanes := (lanes32.foldl (fun t L => tmod {} t L f) q.lanes) }

/-- The bytes that a version holds. -/
def versionBytes (v : Version) : List (Nat × Byte) :=
  (List.range 64).filterMap fun k => if v.mask.getLsbD k then some (k, tget 0 v.data k) else none

/-- A version reaches committed memory as a store does (R222): bytes, poison, sync words, and the line or its channel.
DESIGN CHOICE (log 101). -/
def mergeRoot (s : State) (v : Version) : State :=
  let pa := 64 * v.sector
  let s1 := if !(l2Of s pa).present && channelDown s pa then s else applyBytes (useSnoop s pa) (versionBytes v) pa
  maskedWrite (if v.bad then poisonSector s1 v.sector else s1) pa 1 (homeCt s pa) 42

/-- A version is merged into its parent's; where the slice has no room for that one, it counts as having left for its entry (R222).
DESIGN CHOICE (log 98). -/
def mergeInto (s : State) (p : Nat) (v : Version) : State :=
  match versionOf s v.hctx p v.sector with
  | some u =>
    let w := { u with data := (versionBytes v).foldl (fun d e => tset 0 d e.1 e.2) u.data, mask := u.mask ||| v.mask, inVat := l2Blocked s u.key, bad := u.bad || v.bad }
    holdVersion { s with versions := s.versions.map fun x => if x = u then w else x } w
  | none =>
    let w := { v with id := p, inVat := l2Blocked s (l2Key (v.sector / 4) v.hctx p), stored := false }
    holdVersion { s with versions := s.versions ++ [w] } w

/-- A confirmed node's versions are merged into its parent's, or into committed memory (R222). -/
def mergeUp (s : State) (h id : Nat) : State :=
  let p := (nodeOf s h id).parent
  let vs := s.versions.filter fun v => v.hctx == h && v.id == id
  vs.foldl (fun s v => if p = 0 then mergeRoot s v else mergeInto s p v) (dropVersions (vs.foldl freeVat s) fun v => v.hctx == h && v.id == id)

/-- A confirm (R222, R228). -/
def confirmNode (s : State) (h ctx id : Nat) : State :=
  let n := nodeOf s h id
  let p := n.parent
  let s1 := mergeUp s h id
  let below := (nodesOpen s h).filter fun d => d != id && anc s h id d
  let s2 := below.foldl (fun t d => setNode t h d fun m => { m with depth := m.depth - 1, parent := if m.parent = id then p else m.parent }) s1
  let s3 := modLanesOf s2 ctx fun l => { l with
    hyp := if l.hyp = id then p else l.hyp
    refuted := l.refuted.map fun e => (e.1, if e.2.1 = id then p else e.2.1, e.2.2) }
  if n.bound then membersFree (membersConfirm s3 n) n else s3

/-- A refute (R222, R223, R228): the versions are discarded, and every memory-side cache receives a discard of the ids, stamped normal
with the present CT. DESIGN CHOICE (log 101). -/
def refuteNode (s : State) (h ctx : Nat) (r : Resolve) : State :=
  let n := nodeOf s h r.id
  let mine := fun (v : Version) => v.hctx == h && r.ids.contains v.id
  let s1 := dropVersions ((s.versions.filter mine).foldl freeVat s) mine
  let s2 := (List.range 8).foldl (fun s k => sendStack s k { kind := 4, hctx := h, ids := r.ids, cls := 1, deadline := s.ct, reqr := 42 }) s1
  let s3 := (r.ids.filter fun d => (nodeOf s h d).bound).foldl (fun t d =>
    let m := nodeOf s h d
    membersFree (membersTruth t m) m) s2
  modLanesOf s3 ctx fun l =>
    let at_ := match l.refuted with | some e => e.2.1 | none => l.hyp
    if r.ids.contains at_ then { l with refuted := some (r.id, n.parent, n.handler, r.reason) } else l

/-- Sectors of the ids leave the L1 and constant stores, valid or faded, and none on its way fills one. -/
def dropTagged (s : State) (h : Nat) (ids : List Nat) : State :=
  let old := fun (v : Sector) => v.hctx == h && ids.contains v.hyp
  { s with
    cores := tmapv (fun c : Core => { c with l1 := c.l1.filter fun e => !old e.2, const := c.const.filter fun e => !old e.2 }) s.cores
    reqs := s.reqs.map fun r => if r.hctx = h ∧ ids.contains r.hyp then { r with noFill := true } else r }

/-- At E the effect takes place in every slice, cache and vat, and E returns to the lane (R180, R222). Until Passed(E) the homes still
hold loads of the sectors, and cap their leases (R194, R221). -/
def resolveEffect (s : State) (h : Nat) (r : Resolve) (e ctx : Nat) : State :=
  let s1 := if r.confirm then confirmNode s h ctx r.id else refuteNode s h ctx r
  let s2 := r.ids.foldl (fun t d => setNode t h d fun n => { n with state := 3, members := [], npend := 0 }) s1
  let open_ := (s2.hctxOf h).settling.filter fun x => !(passed s.ct x.1 && passed (dieCt s 0) x.1 && passed (dieCt s 1) x.1)
  let s2 := { s2 with versions := s2.versions.map fun v => if v.hctx = h then { v with back := false } else v }
  let s3 := modHctx (dropTagged s2 h r.ids) h fun c => { c with queue := c.queue.drop 1, settling := open_ ++ [(e, r.sectors)] }
  let c := s.context ctx
  let s4 := blackBox s3 { kind := 4, part := c.part, code := r.id, tag := c.record.userTag }
  match r.lane with
  | some (b, g, L) => bumpPct s4 b g L e
  | none => s4

/-- The resolve at the head takes effect where its E has come on every die. -/
def resolveDue (s : State) (h : Nat) : State :=
  match (s.hctxOf h).queue.head?, (s.hctxOf h).ctx with
  | some r, some ctx => (match r.e with
    | some e => if e ≤ s.ct ∧ e ≤ dieCt s 0 ∧ e ≤ dieCt s 1 then resolveEffect s h r e ctx else s
    | none => s)
  | _, _ => s

def execResolveEffect (hctx : Nat) (s : State) : Out := .next (resolveDue s hctx)

/-- Discards of an id are under way in some memory-side cache (R45). -/
def discarding (s : State) (h id : Nat) : Bool :=
  s.memStacks.any fun k => (k.2.reqs ++ k.2.waits).any fun x => x.kind == 4 && x.hctx == h && x.ids.contains id

/-- A COPY of a context's blocks that acts under an id has reads still to send. -/
def copyReads (s : State) (h id : Nat) : Bool :=
  s.blocks.any fun e => (s.context e.2.ctx).hctx == some h && e.2.copies.any fun j =>
    j.hyp == id && j.status == 0 && j.runs.any fun r => r.src.isSome && r.stage == 0

/-- No load tagged with an id is at its home unserved, or has still to be sent: the id's node gives what each one sees. -/
def idServed (s : State) (h id : Nat) : Bool :=
  (s.reqs.all fun r => !(r.hctx == h && r.hyp == id && r.accepted)) && !copyReads s h id

/-- A resolved id is free again once no request tagged with it remains in egress, none waits at its home and its discards are complete
(R45, R213). DESIGN CHOICE (log 90). -/
def execHypIdRetire (hctx id : Nat) (s : State) : Out :=
  .next (if id != 0 && (nodeOf s hctx id).state == 3 && egressClear s hctx [id] && idServed s hctx id && !discarding s hctx id
    then setNode s hctx id fun _ => {} else s)

end Sys2Proof.Machine
end

