-- ==== Sys2Proof/Machine/Sha.lean ====
section
/-! DEFINITION. SHA-512, the digest of portable images, firmware and attestation reports (R95, R273). The manual names the function; its
standard defines it. PRESUMED (log 46). -/

namespace Sys2Proof.Machine

/-- The n-th root of x, rounded down, one bit at a time from bit k - 1. -/
def rootDown (n x : Nat) : Nat → Nat → Nat
  | 0, r => r
  | k + 1, r => rootDown n x k (if (r + 2 ^ k) ^ n ≤ x then r + 2 ^ k else r)

/-- The first 64 bits of the fraction of the n-th root of p. -/
def rootFraction (n p : Nat) : W64 := w64 (rootDown n (p * 2 ^ (64 * n)) 69 0)

/-- Primes below 410, the eightieth of which is 409. -/
def smallPrimes : List Nat := (List.range 410).filter fun p => decide (2 ≤ p) && (List.range p).all fun d => d < 2 || p % d != 0

/-- The constants of the eighty rounds, from the cube roots of primes; the first chaining value, from the square roots of eight. -/
def roundAdds : List W64 := smallPrimes.map (rootFraction 3)
def firstChain : List W64 := (smallPrimes.take 8).map (rootFraction 2)

/-- Exclusive or of a word turned right by each of some distances. -/
def turned (ds : List Nat) (x : W64) : W64 := (ds.map x.rotateRight).foldl (· ^^^ ·) 0

/-- One round on the eight words: the sum that enters at both ends, and every other word one place on. -/
def digestRound (v : List W64) (add : W64) : List W64 :=
  let w := fun n => v.getD n 0
  let pick := w 6 ^^^ (w 4 &&& (w 5 ^^^ w 6))
  let most := w 0 &&& w 1 ||| w 2 &&& (w 0 ||| w 1)
  let low := add + w 7 + pick + turned [14, 18, 41] (w 4)
  (low + most + turned [28, 34, 39] (w 0)) :: v.take 3 ++ (w 3 + low) :: (v.drop 4).take 3

/-- The rounds of a block, on a window of sixteen words of its schedule that moves on with each. -/
def digestRounds : List W64 → List W64 → List W64 → List W64
  | [], _, v => v
  | k :: ks, win, v =>
    let w := fun n => win.getD n 0
    let next := w 0 + (turned [1, 8] (w 1) ^^^ w 1 >>> 7) + w 9 + (turned [19, 61] (w 14) ^^^ w 14 >>> 6)
    digestRounds ks (win.drop 1 ++ [next]) (digestRound v (k + w 0))

/-- The n bytes of a number, most significant first. -/
def beBytes (n x : Nat) : List Byte := (leBytes n x).reverse

/-- Absorb blocks of 128 bytes, whose words stand most significant byte first. -/
def digestBlocks : Nat → List W64 → List Byte → List W64
  | 0, v, _ => v
  | n + 1, v, bs =>
    let win := (List.range 16).map fun k => w64 (ofLeBytes ((bs.drop (8 * k)).take 8).reverse)
    digestBlocks n (List.zipWith (· + ·) v (digestRounds roundAdds win v)) (bs.drop 128)

/-- SHA-512: 64 bytes. The message ends in a bit 1, zeros, and its length in bits in 128 bits. -/
def sha512 (bs : List Byte) : List Byte :=
  let m := bs ++ [0x80] ++ List.replicate ((239 - bs.length % 128) % 128) 0 ++ beBytes 16 (8 * bs.length)
  (digestBlocks (m.length / 128) firstChain m).flatMap fun w => beBytes 8 w.toNat

end Sys2Proof.Machine
end

