-- ==== Sys2Proof/Machine/Image.lean ====
section
/-! DEFINITION. Freezing a context into a portable image and resuming one from it (R271–R280, R283, R443). -/

namespace Sys2Proof.Machine

/-! ## The mailbox (R91) -/

/-- Argument a. -/
def mboxArg (s : State) (a : Nat) : Nat := (tget 0 s.svc.args a).toNat

/-- Take a command, where none is running. DEDUCED (log 47). -/
def mboxTake (s : State) (cmd : Nat) (f : State → State) : State :=
  if s.svc.busy then s else f (blackBox { s with svc := { s.svc with busy := true, lastCmd := cmd } } { kind := 10, code := cmd })

/-- The argument holds nothing outside the fields given by their top and bottom bits. -/
def onlyFields (x : Nat) (fs : List (Nat × Nat)) : Bool := (fs.map fun f => bits x f.1 f.2 * 2 ^ f.2).sum == x

def mboxResult (s : State) (x : Nat) : State := { s with svc := { s.svc with result := w64 x } }

/-! ## FREEZE (R271, R272) -/

/-- IMAGE_MAX of a context. -/
def imageMax (s : State) (h : Nat) : Nat :=
  let x := s.context h
  let r := x.record
  12288 + up4k (8 * 40960) + up4k (8 * 2 ^ ((s.part x.part).logSize + 9)) + up4k (96 * r.vatSize / 128) + 40 * bpcOf r * bsave r

/-- A range that lies in a partition's granules, outside the reserved range. -/
def ownsRange (s : State) (p pa n : Nat) : Bool := reachable s p pa && (n == 0 || reachable s p (pa + n - 1))

/-- The context that bears a name. -/
def namedCtx (s : State) (p c i : Nat) : Option Nat :=
  (partCtxs s p).find? fun h => let x := s.context h; x.chan == c && x.index == i

/-- Some gang has not exited. -/
def gangsLeft (s : State) (h : Nat) : Bool := !(blocksOf s h).isEmpty || decide ((s.context h).nextGang < gangCount (s.context h).record)

/-- Step 1: placement stops, and every resident gang issues nothing more. -/
def freezeStop (s : State) (h pa avail : Nat) : State :=
  let s0 := trapsFirst s ((blocksOf s h).filter fun b => (s.block b).resident)
  let s1 := modGroupsOf (modCtx s0 h fun c => { c with freezing := true }) h fun _ _ q => { q with stopped := true }
  { s1 with svc := { s1.svc with freezing := some (h, pa, avail) } }

/-- DEDUCED (log 45). -/
def execFreeze (s : State) : Out :=
  .next (mboxTake s 0x60 fun t =>
    let a0 := mboxArg t 0
    let pa := mboxArg t 1
    let n := mboxArg t 2
    if !onlyFields a0 [(51, 48), (35, 32), (31, 0)] || !onlyFields pa [(38, 12)] || !onlyFields n [(47, 0)] || !ownsRange t (bits a0 51 48) pa n then mboxDone t 2
    else match namedCtx t (bits a0 51 48) (bits a0 35 32) (bits a0 31 0) with
    | none => mboxDone t 3
    | some h => if n < imageMax t h ∨ !gangsLeft t h then mboxDone t 3 else freezeStop t h pa n)

/-- Steps 1 and 2 have ended: saves are complete, every request and command too, and no resolve is open. A COPY that is parked, or waits
for its receivers, goes into the image with its progress; one of a block that has ended must complete. DESIGN CHOICE (log 40). -/
def freezeReady (s : State) (h : Nat) : Bool :=
  let x := s.context h
  let bs := blocksOf s h
  x.saving.isEmpty && s.emergency != some h && x.saveFault.isNone && (bs.all fun b => !(s.block b).resident || blockDrained s b) &&
  (s.blocks.all fun e => e.2.ctx != h || !e.2.ended || e.2.copies.isEmpty) &&
  (s.reqs.all fun r => r.ctx != h || r.kind == .pref || r.inb.isSome || r.fromHost) &&
  (match x.hctx with
    | some n => (s.hctxOf n).queue.isEmpty && (s.hctxOf n).settling.isEmpty && (s.hctxOf n).nodes.all fun e => e.2.state == 1
    | none => true)

/-- Step 3: the versions of a context, in ascending id and then ascending VA, and what is left without them. -/
def takeVersions (s : State) (h : Nat) : State × List Version :=
  match (s.context h).hctx with
  | none => (s, [])
  | some n =>
    let vs := sortBy (fun v => v.id * 2 ^ 64 + v.va) (versionsOf s n)
    let s1 := vs.foldl freeVat s
    (dropVersions s1 fun v => v.hctx == n, vs)

/-- Step 4: dirty sectors of the partition's granules are in DRAM, and the buffer gives up the lines that the context's atomics hold. -/
def writeBack (s : State) (h p : Nat) : State :=
  let mine := fun (line : Nat) => partOwns s p (256 * line)
  let s1 := { s with
    l2 := s.l2.map fun e => if mine (keyLine e.1) then (e.1, { e.2 with dirty := 0 }) else e
    memStacks := tmapv (fun k : Stack => { k with msc := k.msc.map fun e => if mine e.1 then (e.1, { e.2 with dirty := 0 }) else e }) s.memStacks }
  ((tkeys s1.lineCtxs).filter fun n => (tget [] s1.lineCtxs n).contains h).foldl giveLine s1

/-- A block as an image holds it: no PCT (R276). -/
def noPct (k : Block) : Block :=
  { k with groups := tmapv (fun q : Group => { q with lanes := tmapv (fun l : Lane => { l with pct := 0 }) q.lanes }) k.groups }

/-- A version record: the sector's VA, the id, the byte mask, the data. -/
def versionFields (v : Version) : List FieldAt :=
  [(0x00, 8, v.va), (0x08, 8, v.id), (0x10, 8, v.mask.toNat)] ++ v.data.map fun e => (0x20 + e.1, 1, e.2.toNat)

/-- Entries of the dirty-page log from TAIL to HEAD. -/
def dirtyList (s : State) (p : Nat) : List Nat :=
  let q := s.part p
  (List.range ((q.logHead + 2 ^ 32 - q.logTail) % 2 ^ 32)).map fun k => memRead s (q.logBase * 4096 + 8 * ((q.logTail + k) % 2 ^ (q.logSize + 9))) 8

/-- A section: its fields, its length in bytes, its count. -/
structure Section_ where
  fields : List FieldAt := []
  len    : Nat := 0
  count  : Nat := 0

/-- Sections in order, each from a 4 KiB boundary: OFF and CNT of each, their fields, and the image's length (R273, R443).
DEDUCED (log 44). -/
def layOut : Nat → Nat → List Section_ → List FieldAt × Nat
  | _, at_, [] => ([], at_)
  | n, at_, x :: xs =>
    let rest := layOut (n + 1) (at_ + up4k x.len) xs
    ([(0x150 + 16 * n, 8, at_), (0x158 + 16 * n, 8, x.count)] ++ shiftFields at_ x.fields ++ rest.1, rest.2)

/-- The sections of a context's image: node table, returned list, dirty list, version records, block records. DEDUCED (log 44). -/
def imageSections (s : State) (h : Nat) (vs : List Version) : List Section_ :=
  let x := s.context h
  let dirty := dirtyList s x.part
  let bs := sortBy (fun b => (s.block b).gangSeq * 4 + (s.block b).blk) (blocksOf s h)
  let size := bsave x.record
  [match x.hctx with
     | some n => { fields := nodeFields (s.hctxOf n), len := 4096, count := 256 }
     | none => {},
   { fields := x.returned.mapIdx fun n i => (8 * n, 8, i), len := 8 * x.returned.length, count := x.returned.length },
   { fields := dirty.mapIdx fun n i => (8 * n, 8, i), len := 8 * dirty.length, count := dirty.length },
   { fields := (vs.mapIdx fun n v => shiftFields (96 * n) (versionFields v)).flatten, len := 96 * vs.length, count := vs.length },
   { fields := (bs.mapIdx fun n b => shiftFields (size * n) (blockFields b (noPct (s.block b)) x.record)).flatten, len := size * bs.length, count := bs.length }]

/-- The image's header fields (R273). DEDUCED (log 44). -/
def imageHeader (s : State) (h len : Nat) : List FieldAt :=
  let x := s.context h
  let st := x.stop.getD {}
  [(0x00, 8, 1), (0x08, 8, len), (0x10, 8, b2n x.stop.isSome + 2 * b2n x.hctx.isSome + 4 * b2n (s.part x.part).logOvf), (0x18, 8, s.ct)] ++
  (x.record.raw.mapIdx fun n y => (0x20 + n, 1, y.toNat)) ++
  [(0x120, 8, st.detail % 256 * 256 + st.cause), (0x128, 8, st.pc.toNat), (0x130, 8, st.lcore * 2 ^ 16 + st.grp), (0x138, 8, x.nextGang),
   (0x140, 8, x.itemNext), (0x148, 8, x.shape.toNat)]

/-- The digest of n bytes at an address, with the digest's own place taken as zero. -/
def imageDigest (s : State) (pa n : Nat) : List Byte :=
  let bs := memBytes s pa n
  sha512 (bs.take 0x1C0 ++ List.replicate 64 0 ++ bs.drop 0x200)

/-- A COPY with its blocks named by number within the gang. -/
def copyByBlk (s : State) (j : CopyJob) : CopyJob :=
  let n := fun h => (s.block h).blk
  { j with dsts := j.dsts.map n, lines := j.lines.map fun l => (n l.1, l.2), regs := j.regs.map fun r => (n r.1, r.2) }

/-- The COPYs of a context's blocks go into its image with their progress (R266, R272). DESIGN CHOICE (log 40). -/
def bookCopies (s : State) (h : Nat) : State :=
  { s with copyBook := (blocksOf s h).foldl (fun t b => (s.block b).copies.foldl (fun t j =>
      tset {} t (copyWordOf j).toNat (copyByBlk s j)) t) s.copyBook }

/-- Step 5: the image is written, the digest last. Its length. -/
def writeImage (s : State) (h pa : Nat) (vs : List Version) : State × Nat :=
  let p := (s.context h).part
  let body := layOut 0 4096 (imageSections s h vs)
  let s1 := putRange s pa body.2 (fieldBytes (imageHeader s h body.2 ++ body.1))
  let s2 := devBytes (svcRead s1 pa body.2) (pa + 0x1C0) (imageDigest s1 pa body.2)
  (syncEval (modPart (bookCopies s2 h) p fun q => { q with logTail := q.logHead }) pa body.2, body.2)

/-- Steps 3 to 6. -/
def finishFreeze (s : State) (h pa : Nat) : State :=
  let x := s.context h
  let v := takeVersions s h
  let w := writeImage (writeBack v.1 h x.part) h pa v.2
  let s1 := blackBox (freeCtx w.1 h) { kind := 10, part := x.part, code := 0x60, tag := x.record.userTag }
  mboxDone (mboxResult { s1 with svc := { s1.svc with freezing := none } } w.2) 0

/-- Blocks that an image holds: redirects of lanes that were refuted after their save are made (R223, R445), and arrivals that still waited
are counted. DESIGN CHOICE (log 40). -/
def imageReady (s : State) (h : Nat) : State :=
  (blocksOf s h).foldl (fun s b => (tkeys (s.block b).groups).foldl (fun s g =>
    (s.group b g).arrs.foldl (fun s a => if hasArrived s b g a.blk a.obj a.lane then s else countArrival s b g a) s) (redirectDue s b)) s

/-- The end of a FREEZE. The resident blocks are saved in their slots first, and a fault of that save is one of any save (R267, R283).
DEDUCED (log 105). -/
def execFreezeImageDone (s : State) : Out :=
  .next (match s.svc.freezing with
    | some (h, pa, _) =>
      let bs := (blocksOf s h).filter fun b => (s.block b).resident
      let r := imageReady s h
      let t := packBlocks r bs
      if !freezeReady s h then s
      else if bs.isEmpty then finishFreeze r h pa
      else match saveFaultOf t h bs with
      | none => finishFreeze (writeSlots t h bs) h pa
      | some e => onSaveFault r r h id e
    | none => s)

/-! ## RESUME (R278–R280) -/

/-- A partition whose usable cores are empty, as a test of capacity alone sees it. -/
def emptied (s : State) (p : Nat) : State :=
  { s with
    blocks := tmapv (fun k : Block => { k with resident := false }) s.blocks
    cores := s.cores.map fun e => if bit (s.part p).coreMask e.1 then (e.1, { e.2 with tiles := [], items := [], itemCtx := none }) else e }

/-- The given blocks of a context would fit some cluster under R280. -/
def fitsSpread (s : State) (h : Nat) (bs : List Nat) : Bool :=
  (List.range 10).any fun cl => (placeOnCluster (modCtx s h fun c => { c with resumed := true }) h bs cl).isSome

/-- A gang of a context's shape would fit some cluster under R280. -/
def shapeFits (s : State) (h : Nat) : Bool :=
  let t := (List.range (s.context h).record.nblk).foldl (fun s b => newBlock s h (2 ^ 63) b) s
  fitsSpread t h (gangBlocks t h (2 ^ 63))

/-- A field of an image. -/
def imageAt (s : State) (pa : Nat) : Reader := fun off n => memRead s (pa + off) n

/-- Version records of an image: VA, id, mask and data. -/
def readVersions (s : State) (pa : Nat) : List Version :=
  let rd := imageAt s pa
  (List.range (rd 0x188 8)).map fun n =>
    let a := rd 0x180 8 + 96 * n
    { va := rd a 8, id := rd (a + 8) 8 % 256, mask := w64 (rd (a + 0x10) 8), data := tableOf 0 64 fun k => BitVec.ofNat 8 (rd (a + 0x20 + k) 1) }

/-- Where a version record's VA leads: a TIER 0 page with WR set. -/
def versionHome (s : State) (p va : Nat) : Option Nat :=
  if 2 ^ 48 ≤ va then none
  else match xlate s 64 p va .write false with
    | .ok x => if x.tier then none else some x.pa
    | .error _ => none

/-- The STOP group takes its saved trap again before any of its lanes issues (R279). -/
def pendSaved (q : Group) : Group :=
  let c := q.trapCause.toNat
  { q with pend := { cause := c % 256, detail := bits c 15 8, eseq := c / 2 ^ 32, mask := q.faultMask, pc := some q.trapPc, cm := some q.causeMask } :: q.pend }

/-- A lane that an image holds parked in a load of an absent line waits for it again, with the ticks of its limit that were left (R276). -/
def parkedLoad (s : State) (b g L : Nat) : State :=
  let l := (s.group b g).lane L
  let w := l.park.insn.getD {}
  if l.park.cause ≠ pkLine ∨ l.park.detail ≠ 0 ∨ l.park.insn.isNone then s
  else
    let k := s.block b
    let i : Iss := { b := b, g := g, core := k.core, ctx := k.ctx, pc := l.lpc.toNat, iss := oneLane L, ex := oneLane L, len := 16 }
    let t := tyD l.park.op w
    let ticks := if l.park.y = BitVec.allOnes 64 then 0 else l.park.y.toNat
    enterLoad s i {
      id := s.seq, pc := l.lpc, dest := (match opD w with | .v n => n | _ => 0), nreg := nregOf t, ty := t, gsrc := xGsrc w
      sdest := (match opD w with | .s n => some n | _ => none)
      waiting := oneLane L, limit := tset 0 [] L ticks, ea := tset 0 [] L l.park.x
      pred := if xGsrc w = 3 then tset 0 [] L (predOf w s i L) else [] } (xOrd w == 1)

/-- The parked lanes of a restored block stand, in their saved order, before any that park from now on (R115, R142): 512 numbers are
set aside for the lanes of a block. -/
def parkedFrom (base : Nat) (k : Block) : Block :=
  { k with groups := tmapv (fun q : Group => { q with lanes := tmapv (fun l : Lane =>
      if l.park.cause = 0 then l else { l with parkOrder := base + l.parkOrder }) q.lanes }) k.groups }

/-- The COPY of a word of Q1, under a number of its own once its block is loaded. Of a word that this part did not write the rest of the
COPY is not known: it ends with a record that is a free value. DESIGN CHOICE (log 40). -/
def copyFound (s : State) (x : W64) : CopyJob :=
  if s.copyBook.any fun e => e.1 = x.toNat then { tget {} s.copyBook x.toNat with parked := none, maxCtc := 0, issueCt := s.ct }
  else
    let r := (Config.copyResult x).toNat
    { tag := r / 2 ^ 48, fcode := bits r 47 40, status := max 1 (bits r 39 32 % 4), bytes := r % 2 ^ 32 }

/-- The COPYs of a loaded block name its gang's blocks again, under new numbers; the registers they will write are scoreboarded (R252,
R277). -/
def rejoinCopies (s : State) (b : Nat) : State :=
  (s.block b).copies.zipIdx.foldl (fun t e =>
    let at_ := fun n => (gangBlock s b n).getD b
    let j := { e.1 with id := t.seq, dsts := e.1.dsts.map at_, lines := e.1.lines.map fun l => (at_ l.1, l.2), regs := e.1.regs.map fun r => (at_ r.1, r.2) }
    let u := modBlock { t with seq := t.seq + 1 } b fun k => { k with copies := k.copies.set e.2 j }
    j.regs.foldl (fun u r => modGroup u r.1 r.2.1 fun q => q.pendAdd (regKeys r.2.2)) u) s

/-- A block record of an image becomes a block that waits for its gang's placement. -/
def loadBlock (s : State) (h pa : Nat) (r : Record) (who : Option (Nat × Nat)) : State :=
  let b := s.seq
  let k := parkedFrom (b + 1) { parseBlock (imageAt s pa) 0 b h r with core := 64, savedIn := .slot, copies := (parseQ1 (imageAt s pa) 0).map (copyFound s) }
  let k := match who with
    | some (l, g) => if k.lcore = l then { k with groups := tmod {} k.groups g pendSaved } else k
    | none => k
  let t := { s with seq := b + 514, blocks := tset {} s.blocks b k }
  let t1 := modBlock t b fun k => { k with groups := tmapv (fun q : Group => { q with lanes := tmapv (refetch t b) q.lanes }) k.groups }
  (tkeys (t1.block b).groups).foldl (fun s g => (lanesOf (s.group b g).live).foldl (fun s L => parkedLoad s b g L) s) t1

/-- The context of an image, its blocks saved and its versions in place. -/
def loadImage (s : State) (p c i pa : Nat) (r : Record) : Nat × State :=
  let rd := imageAt s pa
  let h := tfree s.ctxs
  let flags := rd 0x10 8
  let x := if bit flags 1 then freeHctx s else none
  let nb := rd 0x198 8
  let who := if bit flags 0 then some (bits (rd 0x130 8) 31 16, bits (rd 0x130 8) 3 0) else none
  let s1 := { s with
    seq := s.seq + 1
    ctxs := tset {} s.ctxs h {
      live := true, part := p, chan := c, index := i, prio := (s.chan p c).prio, started := s.seq, record := r, hctx := x, shape := w64 (rd 0x148 8)
      nextGang := rd 0x138 8, itemNext := rd 0x140 8, returned := (List.range (rd 0x168 8)).map fun n => rd (rd 0x160 8 + 8 * n) 8
      resumed := true, saved := sortBy id (dedup ((List.range nb).map fun n => rd (rd 0x190 8 + bsave r * n + 8) 8)) } }
  let s2 := match x with
    | none => s1
    | some n =>
      let node := fun id => let a := rd 0x150 8 + 16 * id
                            let w := rd a 8
                            ({ state := w % 4, parent := bits w 15 8, depth := bits w 19 16, bound := bit w 20, npend := bits w 41 32, handler := w64 (rd (a + 8) 8) } : Node)
      let t := modHctx s1 n fun _ => { ctx := some h, nodes := (tableOf {} 256 node).filter fun e => e.1 != 0 }
      let vs := (readVersions s pa).mapIdx fun k v => { v with hctx := n, entry := k, sector := (versionHome s p v.va).getD 0 / 64 }
      vs.foldl holdVersion { t with versions := t.versions ++ vs }
  let s3 := (List.range nb).foldl (fun t n => loadBlock t h (pa + rd 0x190 8 + bsave r * n) r who) s2
  (h, (blocksOf s3 h).foldl rejoinCopies s3)

/-- The first failing check of an image, 0 for none (R278). DEDUCED (log 45). -/
def resumeError (s : State) (p c i pa avail : Nat) (r : Record) : Nat :=
  let rd := imageAt s pa
  let e := recordError_ s p r
  let len := rd 0x08 8
  if r.kind ≠ 0 then 3
  else if e ≠ 0 ∧ e ≠ 9 then e
  else if rd 0x00 8 ≠ 1 ∨ avail < len ∨ imageDigest s pa len ≠ memBytes s (pa + 0x1C0) 64 then 10
  else if (bit (rd 0x10 8) 1 && (freeHctx s).isNone) || decide (Config.maxContexts ≤ (liveCtxs s).length) then 11
  else if (readVersions s pa).any fun v => (versionHome s p v.va).isNone then 12
  else
    let t := loadImage s p c i pa r
    let u := emptied t.2 p
    let gangs := (u.context t.1).saved
    if gangs.any (fun g => !fitsSpread u t.1 (gangBlocks u t.1 g)) || (decide (rd 0x138 8 < gangCount r) && !shapeFits u t.1) then 9 else 0

/-- The image is read by urgent requests (R32). DEDUCED (log 45). -/
def execResume (s : State) : Out :=
  .next (mboxTake s 0x61 fun t =>
    let a0 := mboxArg t 0
    let pa := mboxArg t 1
    let n := mboxArg t 2
    let p := bits a0 51 48
    let r := parseRecord (memBytes t (pa + 0x20) 256)
    if !onlyFields a0 [(51, 48), (35, 32), (31, 0)] || !onlyFields pa [(38, 12)] || !onlyFields n [(47, 0)] || !ownsRange t p pa n then mboxDone t 2
    else match resumeError t p (bits a0 35 32) (bits a0 31 0) pa n r with
    | 0 => let u := loadImage (svcRead t pa (imageAt t pa 0x08 8)) p (bits a0 35 32) (bits a0 31 0) pa r; mboxDone u.2 0
    | e => mboxDone (mboxResult t e) 4)

end Sys2Proof.Machine
end

