-- ==== Sys2Proof/Machine/HostRegs.lean ====
section
/-! DEFINITION. The host's registers (R14, R21, R36, R41, R62, R65, R72, R76, R86, R88, R91, R92, R101, R154, R157, R211, R261),
invalidations and their acknowledgement (R156, R174), and replies to translation faults (R260, R267). -/

namespace Sys2Proof.Machine

/-- What a read of the host returns. -/
def readsAs (s : State) (x : Nat) : State := { s with readOut := w64 x }

/-! ## Rings of a partition (R76, R154, R261) -/

/-- DIRTY_LOG configuration: a refused write changes nothing. -/
def execDirtyLogCfgWrite (p : Nat) (value : W64) (s : State) : Out :=
  let v := value.toNat
  let q := s.part p
  let size := if q.logEnable then q.logSize else bits v 43 40
  let base := if q.logEnable then q.logBase else bits v 38 12
  .next (
    if Config.partitions ≤ p then s
    else if bit v 63 && !q.logEnable && !ringOk s p (4096 * base) (8 * 2 ^ (size + 9)) then s
    else modPart s p fun q => { q with logEnable := bit v 63, logSize := size, logBase := base, logOvf := q.logOvf && !bit v 0 })

/-- Fault ring configuration: a refused write changes nothing. -/
def execFaultRingCfgWrite (p : Nat) (value : W64) (s : State) : Out :=
  let v := value.toNat
  let q := s.part p
  let size := if q.ringEnable then q.ringSize else bits v 43 40
  let base := if q.ringEnable then q.ringBase else bits v 38 12
  .next (
    if Config.partitions ≤ p then s
    else if bit v 63 && !q.ringEnable && !ringOk s p (4096 * base) (16 * 2 ^ (size + 8)) then s
    else modPart s p fun q => { q with ringEnable := bit v 63, ringSize := size, ringBase := base })

/-! ## Invalidation (R156, R157, R174) -/

/-- A write of TLBINV_ADDR: refused while one is under way, or with a reserved SCOPE. -/
def hostInval (s : State) (p : Nat) (ok : Bool) (va : Option Nat) : State :=
  if Config.partitions ≤ p then s
  else if (s.part p).invBusy || !ok then modPart s p fun q => { q with invRefused := true } else startInval s p va

def execTlbinvAddrPage (p : Nat) (value : W64) (s : State) : Out :=
  .next (hostInval s p (value.toNat % 4 == 0) (some (value.toNat / 4096 * 4096)))
def execTlbinvAddrAll (p : Nat) (s : State) : Out := .next (hostInval s p true none)

/-- A store or atomic that page migration holds (R174). DEDUCED (log 80). -/
def migrating (r : Req) : Bool := r.hold && (r.kind == .store || r.kind == .atomic)

/-- No request translated under an older generation is still on its way to its home. -/
def olderGone (s : State) (p : Nat) : Bool :=
  s.reqs.all fun r => r.part != p || r.stage != .egress || migrating r || r.join.isSome || r.fromHost || r.gen == (s.part p).gen ||
    (match r.place with | .home _ | .host _ => false | _ => true)

/-- Held requests are translated again in the order they were held, and those whose page no longer migrates go on. One whose
translation now faults stays held. DEDUCED (log 80). -/
def releaseHeld (s : State) (p : Nat) : State :=
  ((s.reqs.filter fun r => r.part == p && migrating r).map fun r => r.id).foldl (fun s id =>
    match s.reqs.find? fun r => r.id == id with
    | none => s
    | some r =>
      let acc := if r.kind = .atomic then (if r.dest.isSome then Acc.atomic else .red) else .write
      match xlate s r.core p r.va acc false with
      | .error _ => s
      | .ok x =>
        if x.hold then modReq s id fun r => { r with gen := (s.part p).gen }
        else modReq (if r.core < Config.cores then noteXl s r.core p r.va acc x else notePte s p r.va acc x.entry) id fun r => { r with
          hold := false, gen := (s.part p).gen, place := if x.tier then .host (x.pa / 64 * 64) else .home (x.pa / 64 * 64) }) s

/-- DEDUCED (log 80). -/
def execTlbInvalidationAck (p : Nat) (s : State) : Out :=
  .next (if (s.part p).invBusy && olderGone s p then releaseHeld (invAcked s p) p else s)

/-! ## Fault replies (R260, R266, R267) -/

/-- The groups parked on an ID learn of the reply. -/
def replyGroups (s : State) (p id : Nat) (abort : Bool) : State :=
  (partCtxs s p).foldl (fun s h => (blocksOf s h).foldl (fun s b => (tkeys (s.block b).groups).foldl (fun s g =>
    if (s.group b g).faultIds.any fun f => f.id == id && !f.replied then
      faultAnswered (modGroup s b g fun q => { q with faultIds := q.faultIds.map fun f => if f.id = id then { f with replied := true, abort := abort } else f }) b g
    else s) s) s) s

/-- COPYs parked on an ID go on, or end with STATUS 1 and FCODE 0x0A. -/
def replyCopies (s : State) (p id : Nat) (abort : Bool) : State :=
  (tkeys s.blocks).foldl (fun s b =>
    if (s.context (s.block b).ctx).part ≠ p then s
    else ((s.block b).copies.filter fun j => j.parked == some id).foldl (fun s j =>
      let t := modJob s b j.id fun j => if abort then { j with parked := none, status := 1, fcode := 0x0A } else { j with parked := none }
      if abort then t else copyPump t b j.id) s) s

/-- A save that waits on an ID is finished, or fails. -/
def replySaves (s : State) (p id : Nat) (abort : Bool) : State :=
  ((partCtxs s p).filter fun h => (s.context h).saveFault == some id).foldl (fun s h => if abort then discardCtx s h 0x0A else saveRetry s h) s

/-- FAULT_REPLY: an ID that is not outstanding is ignored. -/
def faultReply (s : State) (p id : Nat) (abort : Bool) : State :=
  if !(s.part p).outstanding.contains id then s
  else
    let s1 := modPart s p fun q => { q with outstanding := q.outstanding.filter (· ≠ id) }
    replySaves (replyCopies (replyGroups s1 p id abort) p id abort) p id abort

def execFaultReplyRetry (p id : Nat) (s : State) : Out := .next (faultReply s p (id % 2 ^ 16) false)
def execFaultReplyAbort (p id : Nat) (s : State) : Out := .next (faultReply s p (id % 2 ^ 16) true)

/-! ## Reads that change a register -/

def execErrLogPop (s : State) : Out :=
  .next { s with svc := { s.svc with errors := { s.svc.errors with log := s.svc.errors.log.drop 1 } } }

/-- FIRST_ERROR: latches what is read with it (R101). -/
def execFirstErrorRead (s : State) : Out :=
  let e := s.svc.errors
  .next (readsAs { s with svc := { s.svc with errors := { e with latched := some (e.last, e.overflow, e.counts) } } } e.first)

/-- MISS_COUNT(r, c) (R36). -/
def execMissCountRead (r c : Nat) (s : State) : Out :=
  .next (if 44 ≤ r ∨ 3 ≤ c then readsAs s 0 else readsAs { s with missCount := tset 0 s.missCount (3 * r + c) 0 } (tget 0 s.missCount (3 * r + c)))

/-- CT_STATUS (R21). -/
def execCtStatusRead (s : State) : Out :=
  let p := s.pkg
  .next (readsAs { s with pkg := { p with corr := 0, maxOff := 0 } }
    (p.corr * 256 + p.maxOff * 16 + b2n p.skew * 8 + b2n p.lock1 * 4 + b2n p.lock0 * 2 + b2n p.ctRun))

/-- CH_STATUS(k) (R41). -/
def execChStatusRead (k : Nat) (s : State) : Out :=
  let c := s.memChan k
  .next (if Config.channels ≤ k then readsAs s 0 else readsAs (modMemChan s k fun c => { c with switches := 0 })
    (c.repaired * 2 ^ 32 + c.switches * 2 ^ 16 + c.state * 16 + b2n c.codeLock * 8 + b2n c.ltAllowed * 4 + c.code))

/-- FAB_PORT_STATUS(p) (R62). -/
def execFabPortStatusRead (p : Nat) (s : State) : Out :=
  let q := s.port p
  .next (if Config.ports ≤ p then readsAs s 0 else readsAs (modPort s p fun q => { q with replays := 0, tagFails := 0 })
    (q.replays * 2 ^ 48 + q.tagFails * 2 ^ 40 + q.rtt * 2 ^ 24 + q.peer * 2 ^ 16 + q.epoch * 256 + q.width * 8 + q.state))

/-- MEM_LATENCY_SHAPE (R211). -/
def execMemLatencyShapeRead (p : Nat) (s : State) : Out :=
  let q := s.part p
  .next (if Config.partitions ≤ p then readsAs s 0 else readsAs (modPart s p fun q => { q with shapeLate := 0 })
    (b2n q.shapeEnable * 2 ^ 63 + q.shapeChan * 2 ^ 48 + q.shapeLate * 2 ^ 32 + q.shapeTicks))

/-! ## Writes of the other registers (R72) -/

/-- Clear the bits of x that are 1 in v, within a mask of W1C bits. -/
def w1c (x v mask : Nat) : Nat := x - (x &&& (v &&& mask))

/-- Commands of R93's table. -/
def knownCmds : List Nat := [0x01, 0x02, 0x10, 0x11, 0x20, 0x21, 0x30, 0x31, 0x32, 0x33, 0x40, 0x41, 0x50, 0x51, 0x52, 0x53, 0x60, 0x61]

/-- MBOX_CMD: a write with a bit set above the code is taken and completes with BAD_ARG, or with UNKNOWN where its code is not
listed; the steps of the commands are their own (R91, R93). DEDUCED (log 47). -/
def writeCommand (s : State) (v : Nat) : State :=
  if v < 256 then s else mboxTake s (v % 256) fun t => mboxDone t (if knownCmds.contains (v % 256) then 2 else 5)

/-- The HDM decoder's registers in the CXL component registers, by offset from their start: the decoder's base, which takes multiples of
256 MiB while the decoder is not committed, and its commit bit (R71, R72). PRESUMED (log 76). -/
def writeComponent (s : State) (off v : Nat) : State :=
  let h := s.hostLink
  if off = 0x1210 then (if h.hdmOn then s else { s with hostLink := { h with hdmBase := v / 2 ^ 28 * 2 ^ 28 } })
  else if off = 0x1220 then { s with hostLink := { h with hdmOn := bit v 9 } }
  else s

/-- Registers of the device control block. DESIGN CHOICE (log 31). DESIGN CHOICE (log 108). DEDUCED (log 96). -/
def writeControl (s : State) (off v : Nat) : State :=
  if off = 0x108 then { s with pkg := { s.pkg with skew := s.pkg.skew && !bit v 3 } }
  else if off = 0x110 then { s with pkg := { s.pkg with warn := s.pkg.warn && !bit v 0, crit := s.pkg.crit && !bit v 1 } }
  else if off = 0x208 then { s with pkg := { s.pkg with pRefused := s.pkg.pRefused && !bit v 9 } }
  else if 0x1_1000 ≤ off ∧ off < 0x1_1800 then modMemChan s ((off - 0x1_1000) / 8) fun c => { c with codeLock := bit v 3, ltAllowed := bit v 2 }
  else if 0x2_0000 ≤ off ∧ off < 0x2_0540 then
    let k := (off - 0x2_0000) / 8
    { s with buckets := tmod {} s.buckets k fun b => { b with burst := bits v 31 16, rate := bits v 15 0 } }
  else if off = 0x3_0000 then writeCommand s v
  else if 0x3_0008 ≤ off ∧ off < 0x3_0028 then { s with svc := { s.svc with args := tset 0 s.svc.args ((off - 0x3_0008) / 8) (w64 v) } }
  else if off = 0x3_0040 then { s with svc := { s.svc with alert := w1c s.svc.alert v 0x3F } }
  else if 0x3_1000 ≤ off ∧ off < 0x3_2000 then
    { s with svc := { s.svc with data := (leBytes 8 v).zipIdx.foldl (fun d e => tset 0 d (off - 0x3_1000 + e.2) e.1) s.svc.data } }
  else if 0x200_0000 ≤ off then writeComponent s (off - 0x200_0000) v
  else s

/-- Registers of a partition's BAR. DEDUCED (log 96). -/
def writePart (s : State) (p off v : Nat) : State :=
  if off = 0x000 then modPart s p fun q => { q with intStatus := w1c q.intStatus v 0xE_FFFF }
  else if off = 0x008 then modPart s p fun q => { q with intMask := v &&& 0xE_FFFF }
  else if off = 0x110 then modPart s p fun q => { q with logTail := v % 2 ^ 32 }
  else if off = 0x128 then modPart s p fun q => { q with invRefused := q.invRefused && !bit v 9 }
  else if off = 0x130 then modPart s p fun q => { q with shapeEnable := bit v 63, shapeChan := bits v 51 48, shapeTicks := bits v 23 0 }
  else if off = 0x150 then drainRing (modPart s p fun q => { q with ringTail := v % 2 ^ 32 }) p
  else s

/-- A write to a register that has no row of its own: its RW fields and W1C bits. Other offsets are ignored. -/
def execRegisterWrite (fn off : Nat) (value : W64) (s : State) : Out :=
  .next (if off % 8 ≠ 0 then s else if fn = 0 then writeControl s off value.toNat else if fn ≤ 12 then writePart s (fn - 1) off value.toNat else s)

/-! ## What a read returns

A read that changes nothing is no step of the machine; it returns the value given here. Write-only registers, reserved fields
and offsets that no table lists read as zero (R72). The registers with fields cleared by a read have steps of their own, above,
that return the same values. -/

/-- LAST_ERROR, LOG_OVERFLOW and the counts as the last read of FIRST_ERROR latched them, or as they stand (R101). -/
def errorView (s : State) : Nat × Nat × Tbl Nat :=
  let e := s.svc.errors
  e.latched.getD (e.last, e.overflow, e.counts)

/-- Oldest entry of the error log, by doubleword (R101). DESIGN CHOICE (log 108). -/
def logWord (s : State) (k : Nat) : Nat :=
  match s.svc.errors.log with
  | [] => 0
  | e :: _ => match k with | 0 => e.seq | 1 => e.category * 2 ^ 16 + e.reporter | 2 => e.addr | _ => e.syndrome

/-- Time, thermal and power registers (R14, R17, R21, R88). DESIGN CHOICE (log 12). -/
def packageValue (s : State) (off : Nat) : Nat :=
  let p := s.pkg
  if off = 0x000 then b2n p.ready
  else if off = 0x100 then s.ct
  else if off = 0x108 then p.corr * 256 + p.maxOff * 16 + b2n p.skew * 8 + b2n p.lock1 * 4 + b2n p.lock0 * 2 + b2n p.ctRun
  else if off = 0x110 then p.tempIo * 2 ^ 40 + p.temp1 * 2 ^ 32 + p.temp0 * 2 ^ 24 + b2n p.tripped * 4 + b2n p.crit * 2 + b2n p.warn
  else if off = 0x208 then b2n p.pRefused * 512 + b2n p.pBusy * 256 + p.pTarget * 16 + p.pCurrent
  else 0

/-- The service-core mailbox and the error registers (R91, R92, R101). -/
def serviceValue (s : State) (off : Nat) : Nat :=
  let v := s.svc
  if 0x3_0008 ≤ off ∧ off < 0x3_0028 then (tget 0 v.args ((off - 0x3_0008) / 8)).toNat
  else if off = 0x3_0028 then v.lastCmd * 256 + v.code * 2 + b2n v.busy
  else if off = 0x3_0030 then v.result.toNat
  else if off = 0x3_0040 then v.alert
  else if off = 0x3_0800 then v.errors.seq
  else if off = 0x3_0808 then v.errors.first
  else if off = 0x3_0810 then (errorView s).1
  else if off = 0x3_0818 then (errorView s).2.1
  else if 0x3_0820 ≤ off ∧ off < 0x3_0860 then tget 0 (errorView s).2.2 ((off - 0x3_0820) / 8)
  else if 0x3_0880 ≤ off ∧ off < 0x3_08A0 then logWord s ((off - 0x3_0880) / 8)
  else if 0x3_1000 ≤ off ∧ off < 0x3_2000 then ofLeBytes ((List.range 8).map fun k => tget 0 v.data (off - 0x3_1000 + k))
  else 0

/-- Memory and fabric registers (R36, R41, R62, R65). -/
def unitValue (s : State) (off : Nat) : Nat :=
  if 0x1_0000 ≤ off ∧ off < 0x1_0420 then tget 0 s.missCount ((off - 0x1_0000) / 8)
  else if 0x1_1000 ≤ off ∧ off < 0x1_1800 then
    let c := s.memChan ((off - 0x1_1000) / 8)
    c.repaired * 2 ^ 32 + c.switches * 2 ^ 16 + c.state * 16 + b2n c.codeLock * 8 + b2n c.ltAllowed * 4 + c.code
  else if 0x2_0000 ≤ off ∧ off < 0x2_0540 then
    let b := tget {} s.buckets ((off - 0x2_0000) / 8)
    b.level * 2 ^ 32 + b.burst * 2 ^ 16 + b.rate
  else if 0x2_1000 ≤ off ∧ off < 0x2_1070 then
    let q := s.port ((off - 0x2_1000) / 8)
    q.replays * 2 ^ 48 + q.tagFails * 2 ^ 40 + q.rtt * 2 ^ 24 + q.peer * 2 ^ 16 + q.epoch * 256 + q.width * 8 + q.state
  else 0

/-- The CXL component registers, by offset from their start: the capability headers, one HDM decoder of 512 GiB with its base, and its
control (R71, R72). PRESUMED (log 76). -/
def componentValue (s : State) (off : Nat) : Nat :=
  let h := s.hostLink
  if off = 0x1000 then 0x2001_0005_0111_0001
  else if off = 0x1200 then b2n h.hdmOn * 2 ^ 33
  else if off = 0x1210 then h.hdmBase
  else if off = 0x1218 then Config.memBytes
  else if off = 0x1220 then b2n h.hdmOn * 0x600
  else 0

/-- The registers of channel c (R75, R77, R78). -/
def channelValue (s : State) (p c k : Nat) : Nat :=
  let x := s.chan p c
  match k with
  | 0 => b2n x.enable * 2 ^ 63 + x.prio * 2 ^ 48 + x.sizeLog2 * 2 ^ 40 + x.base * 256
  | 2 => x.err * 2 ^ 40 + b2n x.halted * 2 ^ 32 + x.head
  | _ => 0

/-- Registers of a partition's BAR (R86, R154, R157, R211, R261). -/
def partitionValue (s : State) (p off : Nat) : Nat :=
  let q := s.part p
  if off = 0x000 then q.intStatus
  else if off = 0x008 then q.intMask
  else if off = 0x100 then b2n q.logEnable * 2 ^ 63 + q.logSize * 2 ^ 40 + q.logBase * 4096 + b2n q.logOvf
  else if off = 0x108 then q.logHead
  else if off = 0x110 then q.logTail
  else if off = 0x128 then b2n q.invRefused * 512 + b2n q.invBusy * 256 + q.gen
  else if off = 0x130 then b2n q.shapeEnable * 2 ^ 63 + q.shapeChan * 2 ^ 48 + q.shapeLate * 2 ^ 32 + q.shapeTicks
  else if off = 0x140 then b2n q.ringEnable * 2 ^ 63 + q.ringSize * 2 ^ 40 + q.ringBase * 4096
  else if off = 0x148 then q.ringHead
  else if off = 0x150 then q.ringTail
  else if 0x1000 ≤ off ∧ off < 0x1200 then channelValue s p ((off - 0x1000) / 32) (off % 32 / 8)
  else 0

/-- The value of a register of function fn (R72). DESIGN CHOICE (log 108). DEDUCED (log 96). -/
def registerValue (s : State) (fn off : Nat) : Nat :=
  if off % 8 ≠ 0 then 0
  else if fn = 0 then (if off < 0x1_0000 then packageValue s off else if off < 0x3_0000 then unitValue s off else if off < 0x200_0000 then serviceValue s off
    else componentValue s (off - 0x200_0000))
  else if fn ≤ 12 then partitionValue s (fn - 1) off
  else 0

/-! ## Configuration space, MSI-X and the HDM range (R23, R71–R73, R86, R87)

The manual gives the BARs at configuration offset 0x10 with their sizes, and names the capabilities. Their fields are those of PCI Express and
CXL 3.1, at offsets that are the model's. PRESUMED (log 76). -/

/-- Size of the BAR of a function (R72). -/
def barSize (fn : Nat) : Nat := if fn = 0 then 2 ^ 26 else 2 ^ 16

/-- Vectors of a function (R86, R91, R92). -/
def msixVectors (fn : Nat) : Nat := if fn = 0 then 4 else 17

/-- Link width and rate as PCI Express codes them: lanes in bits 9:4, and 4, 5, 6 for 16, 32 and 64 GT/s. -/
def linkCode (s : State) : Nat := s.hostLink.width % 64 * 16 + (if s.hostLink.width = 0 then 0 else Nat.log2 s.hostLink.rate)

/-- A capability word of function 0 beyond those that every function has: SR-IOV with 12 virtual functions of 64 KiB, the Register Locator,
which names the component registers in BAR0, the CXL device capability of a Type 2 device, and IDE (R71, R72). -/
def cap0 (off : Nat) : Option Nat :=
  match off with
  | 0x100 => some (0x0010 + 2 ^ 16 + 0x140 * 2 ^ 20)                 -- SR-IOV
  | 0x10C => some (12 * 2 ^ 16 + 12)                                 -- TotalVFs, InitialVFs
  | 0x114 => some (2 ^ 16 + 1)                                       -- the virtual functions follow function 0
  | 0x140 => some (0x0023 + 2 ^ 16 + 0x160 * 2 ^ 20)                 -- Register Locator
  | 0x144 => some (0x1E98 + 0x14 * 2 ^ 20)
  | 0x148 => some 0x0008
  | 0x14C => some (0x0100 + 0x0200_0000)                             -- BAR0, component registers at 0x0200_0000
  | 0x160 => some (0x0023 + 2 ^ 16 + 0x1A0 * 2 ^ 20)                 -- CXL devices
  | 0x164 => some (0x1E98 + 3 * 2 ^ 16 + 0x3C * 2 ^ 20)
  | 0x168 => some (7 * 2 ^ 16 + 2 ^ 20)                              -- cache, io and mem capable, one HDM range
  | 0x17C => some (Config.memBytes / 2 ^ 32)
  | 0x180 => some 3
  | 0x1A0 => some (0x0030 + 2 ^ 16)                                  -- IDE
  | 0x1A4 => some 0x23                                               -- link IDE and containment are there
  | _ => none

/-- A read-only word of a function: power management with D0 and D3hot, MSI-X, PCI Express (R71, R86, R87). -/
def capWord (s : State) (fn off : Nat) : Option Nat :=
  match off with
  | 0x34 => some 0x40
  | 0x40 => some (0x01 + 0x50 * 2 ^ 8 + 3 * 2 ^ 16)
  | 0x50 => some (0x11 + 0x60 * 2 ^ 8 + (msixVectors fn - 1) * 2 ^ 16)
  | 0x60 => some (0x10 + 2 * 2 ^ 16)
  | 0x6C => some (16 * 2 ^ 4 + 6)                                    -- at most 16 lanes and 64 GT/s
  | 0x70 => some (linkCode s * 2 ^ 16)
  | _ => if fn = 0 then cap0 off else none

/-- Bits that software writes: the power state, MSI-X enable and mask, and of function 0 VF enable, the number of VFs, the VFs' BAR, the
enables of the CXL protocols, and link IDE with its containment mode. -/
def cfgRw (fn off : Nat) : Nat :=
  match off with
  | 0x44 => 3
  | 0x50 => 0xC000_0000
  | _ => if fn ≠ 0 then 0 else match off with
    | 0x108 => 9
    | 0x110 => 0xFFFF
    | 0x124 => 0xFFFF_0000
    | 0x128 => 0xFFFF_FFFF
    | 0x16C => 7
    | 0x1AC => 3
    | _ => 0

/-- The number of a word of configuration space. -/
def cfgKey (fn off : Nat) : Nat := 1024 * fn + off / 4

/-- A word of configuration space: BAR0 of 64 bits at 0x10, not prefetchable; the capabilities with what software has written; others are
open. -/
def cfgValue (s : State) (fn off : Nat) : W32 :=
  let base := tget 0 s.hostLink.bars fn
  if off = 0x10 then w32 (base % 2 ^ 32 + 4) else if off = 0x14 then w32 (base / 2 ^ 32)
  else if (capWord s fn off).isNone && cfgRw fn off == 0 then Config.cfgWord fn off
  else w32 ((capWord s fn off).getD 0 + (tget 0 s.hostLink.words (cfgKey fn off)).toNat)

/-- The answer to a configuration request: none is a Configuration Request Retry Status, given until bring-up has done step 5 (R23). -/
def cfgReply (s : State) (x : W32) : State :=
  { s with hostLink := { s.hostLink with cfgOut := if s.pkg.ready then some x else none } }

/-- CXL.io answers configuration requests once the link is trained. -/
def cfgOpen (s : State) (fn off : Nat) : Bool := s.pkg.linkUp && decide (fn ≤ 12) && off % 4 == 0 && decide (off < 4096)

/-- A configuration read of a function. -/
def hostCfgRead (s : State) (fn off : Nat) : State := if cfgOpen s fn off then cfgReply s (cfgValue s fn off) else s

/-- A write of a capability's word keeps the bits that software writes. D3hot on function 0 acts as a command to state 4 (R87). -/
def writeCap (s : State) (fn off v : Nat) : State :=
  if cfgRw fn off = 0 then s
  else
    let t := { s with hostLink := { s.hostLink with words := tset 0 s.hostLink.words (cfgKey fn off) (w32 (v &&& cfgRw fn off)) } }
    if fn = 0 ∧ off = 0x44 ∧ v % 4 = 3 ∧ (tget 0 s.hostLink.words (cfgKey fn off)).toNat ≠ 3 then powerCommand t 4 else t

/-- A configuration write of a function. A BAR keeps the bits above its size. -/
def hostCfgWrite (s : State) (fn off : Nat) (value : W32) : State :=
  let base := tget 0 s.hostLink.bars fn
  let put := fun (x : Nat) => { s with hostLink := { s.hostLink with bars := tset 0 s.hostLink.bars fn (x / barSize fn * barSize fn) } }
  if !cfgOpen s fn off then s
  else cfgReply (
    if !s.pkg.ready then s
    else if off = 0x10 then put (base / 2 ^ 32 * 2 ^ 32 + value.toNat)
    else if off = 0x14 then put (value.toNat * 2 ^ 32 + base % 2 ^ 32)
    else writeCap s fn off value.toNat) 0

/-- The host writes an entry of a function's MSI-X table. -/
def hostMsixWrite (s : State) (fn vector addr data : Nat) : State :=
  if !s.pkg.linkUp ∨ 12 < fn ∨ msixVectors fn ≤ vector then s
  else { s with hostLink := { s.hostLink with msix := tset (0, 0) s.hostLink.msix (32 * fn + vector) (addr, data) } }

/-- The messages sent so far, oldest first, as the table addresses them now: address and data. -/
def messagesOut (s : State) : List (Nat × Nat) := s.svc.msix.map fun e => tget (0, 0) s.hostLink.msix (32 * e.1 + e.2)

/-- The device address that the HDM decoder gives for a host physical address. -/
def hdmAddr (s : State) (hpa : Nat) : Option Nat :=
  let h := s.hostLink
  if h.hdmOn ∧ h.hdmBase ≤ hpa ∧ hpa < h.hdmBase + Config.memBytes then some (hpa - h.hdmBase) else none

/-- The host reads or writes device memory by host physical address; what the decoder does not cover is not the device's. -/
def hostHdmRead (s : State) (hpa : Nat) : Out := match hdmAddr s hpa with | some pa => execCxlMemRead pa s | none => .next s
def hostHdmWrite (s : State) (hpa : Nat) (bytes : List Byte) : Out := match hdmAddr s hpa with | some pa => execCxlMemWrite pa bytes s | none => .next s

end Sys2Proof.Machine
end

