-- ==== Sys2Proof/Machine/Mailbox.lean ====
section
/-! DEFINITION. The commands of the service-core mailbox (R46, R67–R70, R76, R89–R101, R282), but for FREEZE and RESUME. -/

namespace Sys2Proof.Machine

/-! ## Codes (R91) -/

def execMboxUnknownCmd (code : Nat) (s : State) : Out :=
  .next (if knownCmds.contains (code % 256) then s else mboxTake s (code % 256) fun t => mboxDone t 5)

/-- Bytes of the data buffer. -/
def mboxBytes (s : State) (off n : Nat) : List Byte := (List.range n).map fun k => tget 0 s.svc.data (off + k)
def putMbox (s : State) (off : Nat) (bs : List Byte) : State :=
  { s with svc := { s.svc with data := bs.zipIdx.foldl (fun d e => tset 0 d (off + e.2) e.1) s.svc.data } }

/-! ## Partitions (R89, R90, R93) -/

/-- A core is zeroed; its clock and its health run on. -/
def zeroCore (s : State) (c : Nat) : State :=
  modCore s c fun k => { cycles := k.cycles, pulse := k.pulse, retired := k.retired, eccTimes := k.eccTimes, nextCmd := k.nextCmd }

/-- Granules are zeroed in the L2, the memory-side caches and DRAM. -/
def zeroGranules (s : State) (g n : Nat) : State :=
  let mine := fun (pa : Nat) => decide (g * 2 ^ 30 ≤ pa) && decide (pa < (g + n) * 2 ^ 30)
  { s with
    mem := s.mem.filter fun e => !mine e.1
    poison := s.poison.filter fun k => !mine (64 * k)
    l2 := s.l2.map fun e => if mine (256 * keyLine e.1) then (e.1, { e.2 with dirty := 0 }) else e
    memStacks := tmapv (fun k : Stack => { k with msc := k.msc.filter fun e => !mine (256 * e.1) }) s.memStacks }

/-- Cores of a mask. -/
def coresOf (m : Nat) : List Nat := (List.range Config.cores).filter (bit m)

/-- Granule ranges overlap. -/
def granulesMeet (a n b m : Nat) : Bool := decide (a < b + m) && decide (b < a + n)

/-- Ranges of the enabled rings of a partition (R76). -/
def ringsOf (q : Part_) : List (Nat × Nat) :=
  (if q.logEnable then [(4096 * q.logBase, 8 * 2 ^ (q.logSize + 9))] else []) ++
  (if q.ringEnable then [(4096 * q.ringBase, 16 * 2 ^ (q.ringSize + 8))] else []) ++
  ((q.chans.filter fun e => e.2.enable).map fun e => (256 * e.2.base, 256 * 2 ^ e.2.sizeLog2))

/-- PART_SET would take a core or granule from another partition, a context or a ring. DEDUCED (log 48). -/
def partSetDenied (s : State) (p mask g n : Nat) : Bool :=
  let q := s.part p
  let others := (List.range Config.partitions).filter fun o => o != p && (s.part o).set
  let gone := (coresOf q.coreMask).filter fun c => !bit mask c
  let shrinks := q.set && !(decide (g ≤ q.gran0) && decide (q.gran0 + q.granN ≤ g + n))
  others.any (fun o => (coresOf mask).any (bit (s.part o).coreMask) || granulesMeet g n (s.part o).gran0 (s.part o).granN) ||
  gone.any (fun c => !(blocksOn s c).isEmpty) || (shrinks && !(partCtxs s p).isEmpty) ||
  (ringsOf q).any fun r => r.1 < g * 2 ^ 30 || (g + n) * 2 ^ 30 < r.1 + r.2

/-- What a partition loses is zeroed. -/
def partRelease (s : State) (p mask g n : Nat) : State :=
  let q := s.part p
  let s1 := ((coresOf q.coreMask).filter fun c => !bit mask c).foldl zeroCore s
  if !q.set then s1
  else ((List.range q.granN).map fun k => q.gran0 + k).foldl (fun s k => if g ≤ k ∧ k < g + n then s else zeroGranules s k 1) s1

/-- Granules that belonged to another partition before a warm reset, which keeps memory, are zeroed as a partition gains them (R22, R90). -/
def partGain (s : State) (p g n : Nat) : State :=
  let mine := fun (k : Nat) => decide (g ≤ k) && decide (k < g + n)
  let s1 := (s.svc.owned.filter fun e => mine e.1 && e.2 != p).foldl (fun s e => zeroGranules s e.1 1) s
  { s1 with svc := { s1.svc with owned := s1.svc.owned.filter fun e => !mine e.1 } }

/-- DEDUCED (log 48). -/
def execPartSet (s : State) : Out :=
  .next (mboxTake s 0x01 fun t =>
    let a0 := mboxArg t 0
    let a1 := mboxArg t 1
    let a2 := mboxArg t 2
    let a3 := mboxArg t 3
    let p := bits a0 51 48
    let g := bits a1 8 0
    let n := bits a1 18 9
    if !onlyFields a0 [(51, 48), (47, 40), (39, 0)] || !onlyFields a1 [(18, 9), (8, 0)] || !onlyFields a2 [(31, 16), (15, 0)] || !onlyFields a3 [(38, 12)] ||
        Config.partitions ≤ p || n == 0 || 512 < g + n then mboxDone t 2
    else if partSetDenied t p (bits a0 39 0) g n then mboxDone t 3
    else mboxDone (modPart (partGain (partRelease t p (bits a0 39 0) g n) p g n) p fun q => { q with
      set := true, coreMask := bits a0 39 0, gran0 := g, granN := n, root := a3, prioCap := bits a0 47 40, l2Rate := bits a2 15 0, l2Burst := bits a2 31 16
      setArgs := [w64 a0, w64 a1, w64 a2, w64 a3]
      chans := tmapv (fun k : Chan => { k with prio := min k.prio (bits a0 47 40) }) q.chans }) 0)

/-- The buckets of a partition at every fabric port (R65). -/
def dropBuckets (s : State) (p : Nat) : State := { s with buckets := s.buckets.filter fun e => e.1 % 12 != p }

/-- DEDUCED (log 48). -/
def execPartClear (s : State) : Out :=
  .next (mboxTake s 0x02 fun t =>
    let a0 := mboxArg t 0
    let p := bits a0 51 48
    if !onlyFields a0 [(51, 48)] || Config.partitions ≤ p then mboxDone t 2
    else if !(partCtxs t p).isEmpty || (t.part p).chans.any (fun e => e.2.enable) then mboxDone t 3
    else let u := dropBuckets (partRelease t p 0 0 0) p; mboxDone { u with parts := tdel u.parts p } 0)

/-! ## Identity and firmware (R95, R96) -/

/-- The active slot. -/
def activeSlot (s : State) : Firmware := if s.svc.active = 0 then s.svc.slotA else s.svc.slotB

/-- The signed bytes of a report. The manual does not split the 8 bytes at 0x0B8: the version stands in the lower four, the rollback
index in the upper four. DESIGN CHOICE (log 49). -/
def reportBytes (s : State) : List Byte :=
  let args := (List.range Config.partitions).flatMap fun p => (List.range 4).flatMap fun k => leBytes 8 ((s.part p).setArgs.getD k 0).toNat
  leBytes 8 1 ++ leBytes 8 Config.serial ++ leBytes 8 s.ct ++ mboxBytes s 0 32 ++ leBytes 64 Config.bootRomDigest ++
  sha512 (activeSlot s).image ++ leBytes 4 (activeSlot s).version ++ leBytes 4 (activeSlot s).rollback ++ sha512 args

/-- The signature of a report: one that verifies under the identity key over its SHA-512, the one offered where it does (R95).
DESIGN CHOICE (log 49). -/
def reportSignature (report offered : List Byte) : List Byte :=
  let d := sha512 report
  let x := if Config.rsaVerifies Config.identityKey d offered then offered else Config.identitySign d
  (List.range 512).map fun k => x.getD k 0

/-- ATTEST: the report and its signature, which only the service core can make. -/
def execAttest (signature : List Byte) (s : State) : Out :=
  .next (mboxTake s 0x10 fun t => mboxDone (putMbox t 0 (reportBytes t ++ reportSignature (reportBytes t) signature)) 0)

def execIdentity (s : State) : Out := .next (mboxTake s 0x11 fun t => mboxDone (putMbox t 0 (Config.certificate.take 4096)) 0)

/-- An image's signature verifies: it is one over the SHA-512 of the image, under the key whose hash is fused (R96). -/
def imageVerifies (image key signature : List Byte) : Bool :=
  sha512 key == Config.fusedKeyHash && Config.rsaVerifies key (sha512 image) signature

/-- FW_STAGE: the image's bytes are read, as urgent requests (R32), verified and written to the inactive slot. The manual gives no layout of an image, so that its
key, its signature, its rollback index and its version, which the service core finds in it, are inputs. An image that does not lie in
device memory is a bad argument. DESIGN CHOICE (log 49). -/
def execFwStage (key signature : List Byte) (rollback version : Nat) (s : State) : Out :=
  .next (mboxTake s 0x20 fun t =>
    let n := mboxArg t 1
    if 2 ^ 23 < n ∨ Config.memBytes < mboxArg t 0 + n then mboxDone t 2
    else
      let t := svcRead t (mboxArg t 0) n
      let f : Firmware := { present := true, verified := true, rollback := rollback, version := version, image := memBytes t (mboxArg t 0) n }
      if !imageVerifies f.image key signature || rollback < t.svc.rollMin then mboxDone t 4
      else mboxDone (blackBox { t with svc := { t.svc with
        staged := true, slotA := if t.svc.active = 0 then t.svc.slotA else f, slotB := if t.svc.active = 0 then f else t.svc.slotB } } { kind := 9, code := 0x20 }) 0)

/-- FW_SWAP: the new image starts; the mailbox stays busy until its self-test. DEDUCED (log 50). -/
def execFwSwap (s : State) : Out :=
  .next (mboxTake s 0x21 fun t =>
    if !t.svc.staged then mboxDone t 3 else blackBox { t with svc := { t.svc with swapping := true } } { kind := 9, code := 0x21 })

/-- Held messages are sent. DEDUCED (log 50). -/
def swapEnd (s : State) : State :=
  s.svc.heldAlerts.foldl sendMsi { s with svc := { s.svc with swapping := false, heldAlerts := [] } }

/-- DEDUCED (log 50). -/
def execFwSelfTestDone (ok : Bool) (s : State) : Out :=
  .next (
    if !s.svc.swapping then s
    else if !ok then mboxDone (raiseAlert (swapEnd s) 5) 4
    else
      let new := if s.svc.active = 0 then s.svc.slotB else s.svc.slotA
      let t := swapEnd s
      mboxDone { t with svc := { t.svc with active := 1 - t.svc.active, rollMin := max t.svc.rollMin new.rollback, staged := false } } 0)

/-! ## Channels, links and cores (R46, R97, R98, R282) -/

/-- DEDUCED (log 51). -/
def execChRetrain (s : State) : Out :=
  .next (mboxTake s 0x30 fun t =>
    let k := mboxArg t 0
    if Config.channels ≤ k then mboxDone t 2
    else if t.retraining.isSome then mboxDone t 1
    else if (t.memChan k).state = 2 then mboxDone t 3
    else mboxDone { modMemChan t k (fun c => { c with state := 1 }) with retraining := some k } 0)

/-- DEDUCED (log 51). -/
def execLinkRecal (s : State) : Out :=
  .next (mboxTake s 0x31 fun t =>
    let p := mboxArg t 0
    if Config.ports ≤ p then mboxDone t 2
    else if (t.port p).state = 3 then mboxDone t 1
    else if (t.port p).state ≠ 2 then mboxDone t 3
    else mboxDone (modPort t p fun q => { q with state := 3, width := 3, recalLane := 0 }) 0)

/-- Every context of a partition still finds a cluster without the core being drained. -/
def drainFits (s : State) (p : Nat) : Bool := let u := emptied s p; (partCtxs s p).all fun h => shapeFits u h

/-- A core has been emptied: it is zeroed, and retired or released. A retired one stays its partition's until CORE_RESTORE: the manual does
not say. DESIGN CHOICE (log 114). -/
def drainDone (s : State) (c mode : Nat) : State :=
  let s1 := zeroCore s c
  let s2 := if mode = 1 then modCore s1 c fun k => { k with retired := true }
            else match coreOwner s1 c with
              | some p => modPart s1 p fun q => { q with coreMask := q.coreMask - 2 ^ c }
              | none => s1
  mboxDone { s2 with svc := { s2.svc with draining := none } } 0

/-- Gangs with a block on a core. -/
def gangsOnCore (s : State) (c : Nat) : List (Nat × Nat) :=
  (blocksOn s c).foldl (fun acc b => let e := ((s.block b).ctx, (s.block b).gangSeq); if acc.contains e then acc else acc ++ [e]) []

/-- DEDUCED (log 51). -/
def execCoreDrain (s : State) : Out :=
  .next (mboxTake s 0x32 fun t =>
    let a := mboxArg t 0
    let c := bits a 5 0
    let mode := bits a 8 8
    if !onlyFields a [(5, 0), (8, 8)] || Config.cores ≤ c then mboxDone t 2
    else
      let u := { t with svc := { t.svc with draining := some (c, mode) } }
      match coreOwner t c with
      | none => drainDone u c mode
      | some p =>
        if !drainFits u p then mboxDone t 3
        else (gangsOnCore u c).foldl (fun s e =>
          let s1 := modCtx s e.1 fun x => { x with resumed := true }
          if (s1.context e.1).saving.contains e.2 ∨ (s1.context e.1).freezing then s1 else stopGang s1 e.1 e.2) u)

/-- The last gang has left the core. -/
def execCoreDrainComplete (core : Nat) (s : State) : Out :=
  .next (match s.svc.draining with
    | some (c, mode) => if c = core ∧ (blocksOn s c).isEmpty then drainDone s c mode else s
    | none => s)

def execCoreRestore (s : State) : Out :=
  .next (mboxTake s 0x33 fun t =>
    let c := mboxArg t 0
    if Config.cores ≤ c then mboxDone t 2
    else if !(t.core c).retired then mboxDone t 0
    else
      let u := modCore t c fun k => { k with retired := false }
      mboxDone (match coreOwner u c with
        | some p => modPart u p fun q => { q with coreMask := q.coreMask - 2 ^ c }
        | none => u) 0)

/-! ## The black box and the error registers (R99, R101) -/

/-- The 32 bytes of an entry. -/
def entryBytes (e : BbEntry) : List Byte :=
  leBytes 8 e.ct ++ leBytes 8 e.eseq ++ leBytes 1 e.kind ++ leBytes 1 e.part ++ leBytes 2 e.core ++ leBytes 4 e.code ++ leBytes 8 e.tag.toNat

/-- Entry n, or zeros where it has been overwritten or not yet recorded. -/
def bbAt (s : State) (n : Nat) : List Byte :=
  let first := s.svc.bbCount - s.svc.bb.length
  if n < first then List.replicate 32 0
  else match s.svc.bb[n - first]? with
    | some e => entryBytes e
    | none => List.replicate 32 0

def execBbRead (s : State) : Out :=
  .next (mboxTake s 0x40 fun t =>
    let n := mboxArg t 0
    mboxDone (mboxResult (putMbox t 0 ((List.range 128).flatMap fun k => bbAt t (n + k))) t.svc.bbCount) 0)

def execErrClear (s : State) : Out :=
  .next (mboxTake s 0x41 fun t =>
    mboxDone { t with svc := { t.svc with errors := { t.svc.errors with first := 0, last := 0, overflow := 0, counts := [] } } } 0)

/-! ## The fabric (R67–R70) -/

/-- A port of the mask cannot train: it is not down, or holds no first key in a direction (R67). -/
def cannotTrain (s : State) (p : Nat) : Bool :=
  let q := s.port p
  q.state != 0 || !q.tx.first || !q.rx.first

def execFabTrain (s : State) : Out :=
  .next (mboxTake s 0x50 fun t =>
    let a := mboxArg t 0
    let ps := (List.range Config.ports).filter (bit a)
    let set := bit a 24
    if !onlyFields a [(24, 24), (22, 20), (18, 16), (13, 0)] then mboxDone t 2
    else if (set && (List.range Config.ports).any fun p => decide (1 ≤ (t.port p).state)) || (!set && t.position.isNone) || ps.any (cannotTrain t) then mboxDone t 3
    else
      let u := if set then { t with position := some (bits a 18 16, bits a 22 20) } else t
      mboxDone (ps.foldl (fun u p => modPort u p fun q => { q with
        state := 1, deadline := t.ct + 15000000
        tx := { q.tx with salt := ofLeBytes (mboxBytes t (8 * p) 4) }, rx := { q.rx with salt := ofLeBytes (mboxBytes t (8 * p + 4) 4) } }) u) 0)

/-- FAB_KEY: the checks common to its actions; the keys leave the buffer as the command is taken. DEDUCED (log 52). -/
def keyCommand (s : State) (action : Nat) (busy denied : Port → Bool) (f : Port → List Byte → List Byte → Port) : State :=
  let a := mboxArg s 0
  if bits a 9 8 ≠ action ∧ bits a 9 8 ≠ 3 then s
  else mboxTake s 0x51 fun t =>
    let p := bits a 3 0
    let u := putMbox t 0 (List.replicate 64 0)
    if bits a 9 8 = 3 || !onlyFields a [(9, 8), (3, 0)] || Config.ports ≤ p then mboxDone t 2
    else if busy (t.port p) then mboxDone u 1
    else if denied (t.port p) then mboxDone u 3
    else mboxDone (modPort u p fun q => f q (mboxBytes t 0 32) (mboxBytes t 32 32)) 0

/-- The old receive slot is live while both are loaded; the old transmit slot until its last block is acknowledged. A staged transmit
key that is not in use yet keeps its slot. DEDUCED (log 52). -/
def rxLive (q : Port) : Bool := (q.rx.key q.rx.idle).isSome
/-- DEDUCED (log 52). -/
def txLive (q : Port) : Bool := q.tx.oldLive || (q.tx.key q.tx.idle).isSome

def execFabKeyFirst (s : State) : Out :=
  .next (keyCommand s 0 (fun q => rxLive q || q.tx.oldLive) (fun q => q.state != 0) fun q kt kr => { q with
    tx := { q.tx with key0 := some kt, key1 := none, slot := 0, seq := 0, blocks := 0, oldLive := false, first := true }
    rx := { q.rx with key0 := some kr, key1 := none, slot := 0, seq := 0, blocks := 0, oldLive := false, first := true } })

def execFabKeyStageReceive (s : State) : Out :=
  .next (keyCommand s 1 rxLive (fun _ => false) fun q _ kr => { q with rx := q.rx.setKey q.rx.idle (some kr) })

def execFabKeyStageTransmit (s : State) : Out :=
  .next (keyCommand s 2 txLive (fun _ => false) fun q kt _ => { q with tx := q.tx.setKey q.tx.idle (some kt) })

/-- Requests of a partition's own lanes and COPYs to peers. -/
def peerReqs (s : State) (p : Nat) (f : Nat → Bool) : List Req :=
  s.reqs.filter fun r => r.part == p && r.inb.isNone && (match r.place with | .peer q _ => f q | _ => false)

/-- Steps 3 to 5 of a quiesce: outstanding requests to the lost peer complete, responses due to it are discarded, those at a port among
them, and every group is to stop with PEER_LOST. DESIGN CHOICE (log 53). -/
def quiesceStop (s : State) (p q : Nat) : State :=
  let s0 := { s with
    lostPeers := dedup (s.lostPeers ++ [q])
    ports := tmapv (fun r : Port => { r with outQ := r.outQ.filter fun k => !(decide (8 ≤ k.typ) && k.dest == q) }) s.ports }
  let s1 := (peerReqs s p (· == q)).foldl (fun t r => failReq t r 0x16) s0
  let s2 := (partCtxs s1 p).foldl (fun t h => modGroupsOf t h fun _ _ g => g.pendTrap { cause := 0x16 }) s1
  { modPart s2 p (fun r => { r with sessions := tset none r.sessions q none }) with svc := { s2.svc with quiesce := some (p, q, true) } }

/-- Every group of the partition's contexts that can still run has taken its stop. DESIGN CHOICE (log 53). -/
def quiesceTaken (s : State) (p : Nat) : Bool :=
  ((partCtxs s p).filter fun h => (s.context h).stop.isNone).all fun h => (blocksOf s h).all fun b => (tkeys (s.block b).groups).all fun g =>
    (s.group b g).pend.all fun x => x.cause != 0x16

/-- FAB_QUIESCE is taken; while it runs, its further steps are the end of the drain and its completion. DESIGN CHOICE (log 53). -/
def execFabQuiesce (s : State) : Out :=
  .next (match s.svc.quiesce with
    -- requests to surviving peers drain
    | some (p, q, false) => if (peerReqs s p fun x => x != q && !s.lostPeers.contains x).isEmpty then quiesceStop s p q else s
    | some (p, _, true) => if quiesceTaken s p then mboxDone { s with svc := { s.svc with quiesce := none } } 0 else s
    | none => mboxTake s 0x52 fun t =>
      let a := mboxArg t 0
      let p := bits a 51 48
      let q := bits a 5 0
      if !onlyFields a [(51, 48), (5, 0)] || Config.partitions ≤ p then mboxDone t 2
      else if (tget none (t.part p).sessions q).isNone then mboxDone t 0
      else { t with svc := { t.svc with quiesce := some (p, q, false) } })

def execFabSession (s : State) : Out :=
  .next (mboxTake s 0x53 fun t =>
    let a := mboxArg t 0
    let e := mboxArg t 1
    let p := bits a 51 48
    let q := bits a 45 40
    let r := bits e 3 0
    let held := (List.range Config.partitions).any fun o => o != p && (match tget none (t.part o).sessions q with | some x => x.1 == r | none => false)
    if !onlyFields a [(51, 48), (45, 40), (35, 32), (31, 0)] || !onlyFields e [(8, 8), (3, 0)] || Config.partitions ≤ p || Config.partitions ≤ r then mboxDone t 2
    else if held then mboxDone t 3
    else mboxDone (modPart t p fun k => { k with sessions := tset none k.sessions q (if bit e 8 then some (r, bits a 35 32, bits a 31 0) else none) }) 0)

end Sys2Proof.Machine
end

