-- ==== Sys2Proof/Machine/PairWord.lean ====
section
/-! DEFINITION. The pair word: two compact operations in one issue (R299–R302). -/

namespace Sys2Proof.Machine

/-- A value that no trap concerns. -/
def exact (x : Nat) : Rounded := (x, false)

/-- The result of a compact operation from its sources A, B and, for FFMA, D (R300). -/
def compactFn (op : Nat) (w : Insn) (a b d : Nat) : Rounded :=
  let t := tyD op w
  match op with
  | 0x00 => exact (iaddFn t (sat0 w) a b)
  | 0x01 => exact (isubFn t (sat0 w) a b)
  | 0x04 => exact (imulFn t a b)
  | 0x09 => exact (iminFn t a b)
  | 0x0A => exact (imaxFn t a b)
  | 0x40 => arith2 addOp t (fMode w) (fSat w) a b
  | 0x41 => arith2 subOp t (fMode w) (fSat w) a b
  | 0x42 => arith2 mulOp t (fMode w) (fSat w) a b
  | 0x43 => fma t (fMode w) (fSat w) a b d
  | 0x44 => minmax t false false a b
  | 0x45 => minmax t true false a b
  | 0x0D => exact a
  | 0x10 => exact (shlFn (sat0 w) t a b)
  | 0x11 => exact (shrFn (sat0 w) t a b)
  | 0x12 => exact (shraFn (sat0 w) t a b)
  | 0x14 => exact (a &&& b)
  | 0x15 => exact (a ||| b)
  | 0x16 => exact (a ^^^ b)
  | 0x17 => exact (notW (tyBits t) a)
  | 0x61 => exact (cvtiOf w a)
  | _ => special op t (fMode w) (fSat w) a

/-- Latency of a compact operation's class (R139). -/
def compactLat (op : Nat) : Nat := if op / 16 = 5 then 12 else if op / 16 = 4 ∨ op = 0x61 then 5 else 4

/-- Source and result types. -/
def compactTypes (op : Nat) (w : Insn) : Ty × Ty := if op = 0x61 then cvtiTypes w else (tyD op w, tyD op w)

/-- .tnf of a compact operation. -/
def compactTnf (op : Nat) (w : Insn) : Bool := (op / 16 = 4 || op / 16 = 5) && fTnf w

/-- The sources of a compact operation. -/
def compactSrcs (op : Nat) (w : Insn) : List (Opd × Nat) :=
  [(opA w, 1)] ++ (if pairOneSource.contains op then [] else [(opB w, 1)]) ++ if op = 0x43 then [(opD w, 1)] else []

/-- The result of one operation in a lane. -/
def compactAt (op : Nat) (w : Insn) (s : State) (i : Iss) (L : Nat) : Rounded :=
  let ta := (compactTypes op w).1
  let tb := if 0x10 ≤ op ∧ op ≤ 0x12 then Ty.b32 else ta
  compactFn op w (valOf s i ta (opA w) L).1 (valOf s i tb (opB w) L).1 (valOf s i ta (opD w) L).1

/-- Write one operation's results in its executing lanes but those of `bad`; sources were read in `r`. -/
def compactPut (op : Nat) (w : Insn) (r : State) (bad : Mask) (i : Iss) (s : State) : State :=
  putD s { i with gg := i.gg &&& ~~~bad } (compactLat op) (compactTypes op w).2 (opD w) (i.ex &&& ~~~bad)
    (fun L => (compactAt op w r i L).1) fun L => inMask i.gg L || (compactSrcs op w).any fun o => guessOf r i o.1 o.2 L

/-- The number under which a pair word issues (R128, R349). -/
def pairOp (p : Pair) : Nat :=
  if specialKind p.first.cop.toNat || specialKind p.second.cop.toNat then pairSpecial else 0xFE

/-- A pair word: stages 1 to 3 cover both operations, both read before either writes, and a lane in which one is non-finite
under .tnf takes neither (R301, R302). -/
def execPairWord (p : Pair) (s : State) : Out :=
  .next (
    let op1 := p.first.cop.toNat
    let op2 := p.second.cop.toNat
    let w1 := compactInsn p.first
    let w2 := compactInsn p.second
    match issOf s 16 with
    | none => s
    | some i =>
      if notReady s i.b i.g || ((lanesOf i.iss).any fun L => ((s.group i.b i.g).lane L).refuted.isSome) then s
      else
        let os : List Oper := [{ op := op1, w := w1 }, { op := op2, w := w2 }]
        let stall := p.stall.toNat
        let y := p.y == 1
        let fail := fun c => conclude s i (pairOp p) stall y (.trap { cause := c, fm := i.iss, cm := i.iss })
        if !((pairChecks p).all fun c => c.2) then fail 0x01
        else match stage1a s i os with
        | some c => fail c
        | none =>
          if scoreHeld s i os || acqHeld s i then s
          else match stage1b s i os 0 with
          | some c => fail c
          | none =>
            let i1 := withGuard s i p.first.g
            let i2 := withGuard s i p.second.g
            let bad := nonFiniteLanes i1 false (compactTnf op1 w1) (fun L => (compactAt op1 w1 s i1 L).2) |||
              nonFiniteLanes i2 false (compactTnf op2 w2) (fun L => (compactAt op2 w2 s i2 L).2)
            conclude s i (pairOp p) stall y (nonFiniteEnd (compactPut op2 w2 s bad i2 (compactPut op1 w1 s bad i1 s)) i bad))

end Sys2Proof.Machine
end

