-- ==== Sys2Proof/Machine/Dispatch.lean ====
section
/-! DEFINITION. What each step of the table does: one arm per constructor of Instr. -/

namespace Sys2Proof.Machine

def exec (i : Instr) (s : State) : Host.Outcome State Fault Refusal :=
  match i with
  | .bringupFwVerify activeOk otherOk => Sys2Proof.Machine.execBringupFwVerify activeOk otherOk s
  | .bringupStacksTrained downChannels repaired => Sys2Proof.Machine.execBringupStacksTrained downChannels repaired s
  | .sensorSample d0 d1 io => Sys2Proof.Machine.execSensorSample d0 d1 io s
  | .powerAverageCheck watts => Sys2Proof.Machine.execPowerAverageCheck watts s
  | .powerOverrunRecheck watts => Sys2Proof.Machine.execPowerOverrunRecheck watts s
  | .ctSyncMarker off0 off1 => Sys2Proof.Machine.execCtSyncMarker off0 off1 s
  | .baseDieRequest stack tag => Sys2Proof.Machine.execBaseDieRequest stack tag s
  | .victimFill stack tag => Sys2Proof.Machine.execVictimFill stack tag s
  | .discardByHypothesis stack tag => Sys2Proof.Machine.execDiscardByHypothesis stack tag s
  | .dramRequestServed stack tag ecc => Sys2Proof.Machine.execDramRequestServed stack tag ecc s
  | .frugalHoldRelease stack tag => Sys2Proof.Machine.execFrugalHoldRelease stack tag s
  | .refreshDue channel bank how => Sys2Proof.Machine.execRefreshDue channel bank how s
  | .patrolScrub stack addr ecc => Sys2Proof.Machine.execPatrolScrub stack addr ecc s
  | .toggleWindowEnd channel checkRd otherRd checkWr otherWr => Sys2Proof.Machine.execToggleWindowEnd channel checkRd otherRd checkWr otherWr s
  | .codeSwitchDone channel => Sys2Proof.Machine.execCodeSwitchDone channel s
  | .channelRetrainDone channel failedLow failedHigh => Sys2Proof.Machine.execChannelRetrainDone channel failedLow failedHigh s
  | .fabricPacketReceive port pkt => Sys2Proof.Machine.execFabricPacketReceive port pkt s
  | .fabricRequestServe index => Sys2Proof.Machine.execFabricRequestServe index s
  | .fabricResponseReceive pkt => Sys2Proof.Machine.execFabricResponseReceive pkt s
  | .linkBlockSend port => Sys2Proof.Machine.execLinkBlockSend port s
  | .linkBlockReceive port seq slot gtag cipher => Sys2Proof.Machine.execLinkBlockReceive port seq slot gtag cipher s
  | .linkAckReceive port seq => Sys2Proof.Machine.execLinkAckReceive port seq s
  | .linkNakReceive port seq => Sys2Proof.Machine.execLinkNakReceive port seq s
  | .vcStopSignal port vc stop => Sys2Proof.Machine.execVcStopSignal port vc stop s
  | .fabricBucketRefill port => Sys2Proof.Machine.execFabricBucketRefill port s
  | .l2BucketRefill slice => Sys2Proof.Machine.execL2BucketRefill slice s
  | .peerRequestTimeout tag => Sys2Proof.Machine.execPeerRequestTimeout tag s
  | .peerResetNotice peer => Sys2Proof.Machine.execPeerResetNotice peer s
  | .portTrainingDone port peer rtt => Sys2Proof.Machine.execPortTrainingDone port peer rtt s
  | .portTrainingTimeout port => Sys2Proof.Machine.execPortTrainingTimeout port s
  | .linkRecalLaneDone port ok => Sys2Proof.Machine.execLinkRecalLaneDone port ok s
  | .cxlMemRead pa => Sys2Proof.Machine.execCxlMemRead pa s
  | .cxlMemWrite pa bytes => Sys2Proof.Machine.execCxlMemWrite pa bytes s
  | .bisnpResponse line => Sys2Proof.Machine.execBisnpResponse line s
  | .hostLineSnoop line => Sys2Proof.Machine.execHostLineSnoop line s
  | .chanCfgWrite part chan value => Sys2Proof.Machine.execChanCfgWrite part chan value s
  | .chanDoorbell part chan tail => Sys2Proof.Machine.execChanDoorbell part chan tail s
  | .chanHaltedClear part chan => Sys2Proof.Machine.execChanHaltedClear part chan s
  | .chanSkip part chan => Sys2Proof.Machine.execChanSkip part chan s
  | .recordAtHead part chan => Sys2Proof.Machine.execRecordAtHead part chan s
  | .recordSeqRecheck part chan => Sys2Proof.Machine.execRecordSeqRecheck part chan s
  | .syncWordPollHost part chan => Sys2Proof.Machine.execSyncWordPollHost part chan s
  | .recordStart part chan => Sys2Proof.Machine.execRecordStart part chan s
  | .markerSignal part chan => Sys2Proof.Machine.execMarkerSignal part chan s
  | .gangPlace ctx => Sys2Proof.Machine.execGangPlace ctx s
  | .gangPreempt ctx gang => Sys2Proof.Machine.execGangPreempt ctx gang s
  | .preemptSaveDone ctx gang => Sys2Proof.Machine.execPreemptSaveDone ctx gang s
  | .gangResume ctx gang => Sys2Proof.Machine.execGangResume ctx gang s
  | .itemRefill core => Sys2Proof.Machine.execItemRefill core s
  | .groupEnd block grp => Sys2Proof.Machine.execGroupEnd block grp s
  | .blockEnd block => Sys2Proof.Machine.execBlockEnd block s
  | .contextComplete ctx => Sys2Proof.Machine.execContextComplete ctx s
  | .l2StoreAccept src => Sys2Proof.Machine.execL2StoreAccept src s
  | .l2StoreApply req => Sys2Proof.Machine.execL2StoreApply req s
  | .l2LoadServe req sram => Sys2Proof.Machine.execL2LoadServe req sram s
  | .l2Eviction line => Sys2Proof.Machine.execL2Eviction line s
  | .leaseExpiry core sector => Sys2Proof.Machine.execLeaseExpiry core sector s
  | .loadReplyArrival req => Sys2Proof.Machine.execLoadReplyArrival req s
  | .waitLimitExpiry block grp load lane => Sys2Proof.Machine.execWaitLimitExpiry block grp load lane s
  | .writeCompletionReturn req => Sys2Proof.Machine.execWriteCompletionReturn req s
  | .translationWalkDone core part va => Sys2Proof.Machine.execTranslationWalkDone core part va s
  | .scratchLinePresent job line => Sys2Proof.Machine.execScratchLinePresent job line s
  | .multicastReadyMet job => Sys2Proof.Machine.execMulticastReadyMet job s
  | .copyComplete job => Sys2Proof.Machine.execCopyComplete job s
  | .mmaAccept block grp lane => Sys2Proof.Machine.execMmaAccept block grp lane s
  | .mmaReadCycle core => Sys2Proof.Machine.execMmaReadCycle core s
  | .mmaCommandDone core => Sys2Proof.Machine.execMmaCommandDone core s
  | .resolveEgressDrained hctx => Sys2Proof.Machine.execResolveEgressDrained hctx s
  | .resolveEffect hctx => Sys2Proof.Machine.execResolveEffect hctx s
  | .hypIdRetire hctx id => Sys2Proof.Machine.execHypIdRetire hctx id s
  | .refuteRedirect block grp lane => Sys2Proof.Machine.execRefuteRedirect block grp lane s
  | .machineCheckTaken block grp => Sys2Proof.Machine.execMachineCheckTaken block grp s
  | .hostLinkTrap block grp => Sys2Proof.Machine.execHostLinkTrap block grp s
  | .sleepWake block grp lane => Sys2Proof.Machine.execSleepWake block grp lane s
  | .waitevRelease block grp lane => Sys2Proof.Machine.execWaitevRelease block grp lane s
  | .powerCmdRun state => Sys2Proof.Machine.execPowerCmdRun state s
  | .dirtyLogCfgWrite part value => Sys2Proof.Machine.execDirtyLogCfgWrite part value s
  | .faultRingCfgWrite part value => Sys2Proof.Machine.execFaultRingCfgWrite part value s
  | .tlbinvAddrPage part value => Sys2Proof.Machine.execTlbinvAddrPage part value s
  | .tlbinvAddrAll part => Sys2Proof.Machine.execTlbinvAddrAll part s
  | .tlbInvalidationAck part => Sys2Proof.Machine.execTlbInvalidationAck part s
  | .faultReplyRetry part id => Sys2Proof.Machine.execFaultReplyRetry part id s
  | .faultReplyAbort part id => Sys2Proof.Machine.execFaultReplyAbort part id s
  | .missCountRead r c => Sys2Proof.Machine.execMissCountRead r c s
  | .chStatusRead channel => Sys2Proof.Machine.execChStatusRead channel s
  | .fabPortStatusRead port => Sys2Proof.Machine.execFabPortStatusRead port s
  | .memLatencyShapeRead part => Sys2Proof.Machine.execMemLatencyShapeRead part s
  | .registerWrite fn off value => Sys2Proof.Machine.execRegisterWrite fn off value s
  | .mboxUnknownCmd code => Sys2Proof.Machine.execMboxUnknownCmd code s
  | .attest signature => Sys2Proof.Machine.execAttest signature s
  | .fwStage key signature rollback version => Sys2Proof.Machine.execFwStage key signature rollback version s
  | .fwSelfTestDone ok => Sys2Proof.Machine.execFwSelfTestDone ok s
  | .coreDrainComplete core => Sys2Proof.Machine.execCoreDrainComplete core s
  | .iadd w => Sys2Proof.Machine.execIadd w s
  | .isub w => Sys2Proof.Machine.execIsub w s
  | .iaddc w => Sys2Proof.Machine.execIaddc w s
  | .isubb w => Sys2Proof.Machine.execIsubb w s
  | .imul w => Sys2Proof.Machine.execImul w s
  | .imulh w => Sys2Proof.Machine.execImulh w s
  | .imad w => Sys2Proof.Machine.execImad w s
  | .iabs w => Sys2Proof.Machine.execIabs w s
  | .ineg w => Sys2Proof.Machine.execIneg w s
  | .imin w => Sys2Proof.Machine.execImin w s
  | .imax w => Sys2Proof.Machine.execImax w s
  | .dp4 w => Sys2Proof.Machine.execDp4 w s
  | .lea w => Sys2Proof.Machine.execLea w s
  | .mov w => Sys2Proof.Machine.execMov w s
  | .movi w => Sys2Proof.Machine.execMovi w s
  | .shl w => Sys2Proof.Machine.execShl w s
  | .shr w => Sys2Proof.Machine.execShr w s
  | .shra w => Sys2Proof.Machine.execShra w s
  | .fshf w => Sys2Proof.Machine.execFshf w s
  | .and w => Sys2Proof.Machine.execAnd w s
  | .or w => Sys2Proof.Machine.execOr w s
  | .xor w => Sys2Proof.Machine.execXor w s
  | .not w => Sys2Proof.Machine.execNot w s
  | .bfunc w => Sys2Proof.Machine.execBfunc w s
  | .popc w => Sys2Proof.Machine.execPopc w s
  | .clz w => Sys2Proof.Machine.execClz w s
  | .brev w => Sys2Proof.Machine.execBrev w s
  | .bfx w => Sys2Proof.Machine.execBfx w s
  | .bfi w => Sys2Proof.Machine.execBfi w s
  | .bra w => Sys2Proof.Machine.execBra w s
  | .brx w => Sys2Proof.Machine.execBrx w s
  | .call w => Sys2Proof.Machine.execCall w s
  | .ret w => Sys2Proof.Machine.execRet w s
  | .exit w => Sys2Proof.Machine.execExit w s
  | .rejoin w => Sys2Proof.Machine.execRejoin w s
  | .yield w => Sys2Proof.Machine.execYield w s
  | .nop w => Sys2Proof.Machine.execNop w s
  | .ipop w => Sys2Proof.Machine.execIpop w s
  | .icmp w => Sys2Proof.Machine.execIcmp w s
  | .fcmp w => Sys2Proof.Machine.execFcmp w s
  | .plop w => Sys2Proof.Machine.execPlop w s
  | .sel w => Sys2Proof.Machine.execSel w s
  | .fadd w => Sys2Proof.Machine.execFadd w s
  | .fsub w => Sys2Proof.Machine.execFsub w s
  | .fmul w => Sys2Proof.Machine.execFmul w s
  | .ffma w => Sys2Proof.Machine.execFfma w s
  | .fmin w => Sys2Proof.Machine.execFmin w s
  | .fmax w => Sys2Proof.Machine.execFmax w s
  | .fclass w => Sys2Proof.Machine.execFclass w s
  | .dadd w => Sys2Proof.Machine.execDadd w s
  | .dmul w => Sys2Proof.Machine.execDmul w s
  | .dfma w => Sys2Proof.Machine.execDfma w s
  | .frcp w => Sys2Proof.Machine.execFrcp w s
  | .frsq w => Sys2Proof.Machine.execFrsq w s
  | .fsqrt w => Sys2Proof.Machine.execFsqrt w s
  | .fex2 w => Sys2Proof.Machine.execFex2 w s
  | .flg2 w => Sys2Proof.Machine.execFlg2 w s
  | .fsin w => Sys2Proof.Machine.execFsin w s
  | .fcos w => Sys2Proof.Machine.execFcos w s
  | .ftanh w => Sys2Proof.Machine.execFtanh w s
  | .cvt w => Sys2Proof.Machine.execCvt w s
  | .cvti w => Sys2Proof.Machine.execCvti w s
  | .pack w => Sys2Proof.Machine.execPack w s
  | .unpk w => Sys2Proof.Machine.execUnpk w s
  | .scale w => Sys2Proof.Machine.execScale w s
  | .frnd w => Sys2Proof.Machine.execFrnd w s
  | .faddPacked8 w => Sys2Proof.Machine.execFaddPacked8 w s
  | .fsubPacked8 w => Sys2Proof.Machine.execFsubPacked8 w s
  | .fmulPacked8 w => Sys2Proof.Machine.execFmulPacked8 w s
  | .ffmaPacked8 w => Sys2Proof.Machine.execFfmaPacked8 w s
  | .fminPacked8 w => Sys2Proof.Machine.execFminPacked8 w s
  | .fmaxPacked8 w => Sys2Proof.Machine.execFmaxPacked8 w s
  | .ld w => Sys2Proof.Machine.execLd w s
  | .lds w => Sys2Proof.Machine.execLds w s
  | .ldc w => Sys2Proof.Machine.execLdc w s
  | .lda w => Sys2Proof.Machine.execLda w s
  | .pref w => Sys2Proof.Machine.execPref w s
  | .ptest w => Sys2Proof.Machine.execPtest w s
  | .st w => Sys2Proof.Machine.execSt w s
  | .sts w => Sys2Proof.Machine.execSts w s
  | .sta w => Sys2Proof.Machine.execSta w s
  | .cwb w => Sys2Proof.Machine.execCwb w s
  | .cinv w => Sys2Proof.Machine.execCinv w s
  | .gtest w => Sys2Proof.Machine.execGtest w s
  | .demand w => Sys2Proof.Machine.execDemand w s
  | .accept w => Sys2Proof.Machine.execAccept w s
  | .gmark w => Sys2Proof.Machine.execGmark w s
  | .atom w => Sys2Proof.Machine.execAtom w s
  | .red w => Sys2Proof.Machine.execRed w s
  | .fence w => Sys2Proof.Machine.execFence w s
  | .bari w => Sys2Proof.Machine.execBari w s
  | .barv w => Sys2Proof.Machine.execBarv w s
  | .barw w => Sys2Proof.Machine.execBarw w s
  | .bart w => Sys2Proof.Machine.execBart w s
  | .boinit w => Sys2Proof.Machine.execBoinit w s
  | .sleepRel w => Sys2Proof.Machine.execSleepRel w s
  | .sleepAbs w => Sys2Proof.Machine.execSleepAbs w s
  | .clkCt w => Sys2Proof.Machine.execClkCt w s
  | .clkCyc w => Sys2Proof.Machine.execClkCyc w s
  | .shfl w => Sys2Proof.Machine.execShfl w s
  | .vote w => Sys2Proof.Machine.execVote w s
  | .matchLanes w => Sys2Proof.Machine.execMatch w s
  | .rdx w => Sys2Proof.Machine.execRdx w s
  | .scan w => Sys2Proof.Machine.execScan w s
  | .elect w => Sys2Proof.Machine.execElect w s
  | .qswp w => Sys2Proof.Machine.execQswp w s
  | .qbc w => Sys2Proof.Machine.execQbc w s
  | .hopen w => Sys2Proof.Machine.execHopen w s
  | .hopenG w => Sys2Proof.Machine.execHopenG w s
  | .hset w => Sys2Proof.Machine.execHset w s
  | .hleave w => Sys2Proof.Machine.execHleave w s
  | .hresolveConfirm w => Sys2Proof.Machine.execHresolveConfirm w s
  | .hresolveRefute w => Sys2Proof.Machine.execHresolveRefute w s
  | .hquery w => Sys2Proof.Machine.execHquery w s
  | .mma w => Sys2Proof.Machine.execMma w s
  | .tkpassClaim w => Sys2Proof.Machine.execTkpassClaim w s
  | .tkpassMat w => Sys2Proof.Machine.execTkpassMat w s
  | .tkpassVec w => Sys2Proof.Machine.execTkpassVec w s
  | .tkpassFree w => Sys2Proof.Machine.execTkpassFree w s
  | .tktest w => Sys2Proof.Machine.execTktest w s
  | .copyTload w => Sys2Proof.Machine.execCopyTload w s
  | .copyTstore w => Sys2Proof.Machine.execCopyTstore w s
  | .copyLin w => Sys2Proof.Machine.execCopyLin w s
  | .copyMcast w => Sys2Proof.Machine.execCopyMcast w s
  | .qtry w => Sys2Proof.Machine.execQtry w s
  | .qcnt w => Sys2Proof.Machine.execQcnt w s
  | .srd w => Sys2Proof.Machine.execSrd w s
  | .swr w => Sys2Proof.Machine.execSwr w s
  | .trap w => Sys2Proof.Machine.execTrap w s
  | .bkpt w => Sys2Proof.Machine.execBkpt w s
  | .rte w => Sys2Proof.Machine.execRte w s
  | .rteNext w => Sys2Proof.Machine.execRteNext w s
  | .tlbinvPage w => Sys2Proof.Machine.execTlbinvPage w s
  | .tlbinvAll w => Sys2Proof.Machine.execTlbinvAll w s
  | .waitev w => Sys2Proof.Machine.execWaitev w s
  | .perfStart w => Sys2Proof.Machine.execPerfStart w s
  | .perfStop w => Sys2Proof.Machine.execPerfStop w s
  | .perfClear w => Sys2Proof.Machine.execPerfClear w s
  | .bblog w => Sys2Proof.Machine.execBblog w s
  | .pairWord p => Sys2Proof.Machine.execPairWord p s
  | .programRecordDue ctx => Sys2Proof.Machine.execProgramRecordDue ctx s
  | .fabricWriteAckSend index => Sys2Proof.Machine.execFabricWriteAckSend index s
  | .rdownResponse line => Sys2Proof.Machine.execRdownResponse line s
  | .coldReset => Sys2Proof.Machine.execColdReset s
  | .warmReset => Sys2Proof.Machine.execWarmReset s
  | .linkHotReset => Sys2Proof.Machine.execLinkHotReset s
  | .bringupPllLock => Sys2Proof.Machine.execBringupPllLock s
  | .bringupCxlTrained => Sys2Proof.Machine.execBringupCxlTrained s
  | .bringupCoresReady => Sys2Proof.Machine.execBringupCoresReady s
  | .thermtripNInput => Sys2Proof.Machine.execThermtripNInput s
  | .powerTransitionDone => Sys2Proof.Machine.execPowerTransitionDone s
  | .powerCmdHold => Sys2Proof.Machine.execPowerCmdHold s
  | .powerCmdStandby => Sys2Proof.Machine.execPowerCmdStandby s
  | .d3hotEntry => Sys2Proof.Machine.execD3hotEntry s
  | .errLogPop => Sys2Proof.Machine.execErrLogPop s
  | .firstErrorRead => Sys2Proof.Machine.execFirstErrorRead s
  | .ctStatusRead => Sys2Proof.Machine.execCtStatusRead s
  | .partSet => Sys2Proof.Machine.execPartSet s
  | .partClear => Sys2Proof.Machine.execPartClear s
  | .identity => Sys2Proof.Machine.execIdentity s
  | .fwSwap => Sys2Proof.Machine.execFwSwap s
  | .chRetrain => Sys2Proof.Machine.execChRetrain s
  | .linkRecal => Sys2Proof.Machine.execLinkRecal s
  | .coreDrain => Sys2Proof.Machine.execCoreDrain s
  | .coreRestore => Sys2Proof.Machine.execCoreRestore s
  | .bbRead => Sys2Proof.Machine.execBbRead s
  | .errClear => Sys2Proof.Machine.execErrClear s
  | .fabTrain => Sys2Proof.Machine.execFabTrain s
  | .fabKeyFirst => Sys2Proof.Machine.execFabKeyFirst s
  | .fabKeyStageReceive => Sys2Proof.Machine.execFabKeyStageReceive s
  | .fabKeyStageTransmit => Sys2Proof.Machine.execFabKeyStageTransmit s
  | .fabQuiesce => Sys2Proof.Machine.execFabQuiesce s
  | .fabSession => Sys2Proof.Machine.execFabSession s
  | .freeze => Sys2Proof.Machine.execFreeze s
  | .freezeImageDone => Sys2Proof.Machine.execFreezeImageDone s
  | .resume => Sys2Proof.Machine.execResume s
  | .cxlLinkRetrained => Sys2Proof.Machine.execCxlLinkRetrained s

end Sys2Proof.Machine
end

