-- ==== Sys2Proof/Machine/Schedule.lean ====
section
/-! DEFINITION. Which groups issue in a cycle (R126–R130), the issue of one group's next word, core cycles, and the order of
the machine's steps. `ex` is the meaning of an instruction. -/

namespace Sys2Proof.Machine

/-- A group named by block and group id. -/
abbrev Grp := Nat × Nat

/-- Groups of one quadrant of a core (R126): group g of a block stands in quadrant g mod 4. -/
def quadGroups (s : State) (core q : Nat) : List Grp :=
  (blocksOn s core).flatMap fun b => ((tkeys (s.block b).groups).filter fun g => g % 4 == q && (s.group b g).exists_).map fun g => (b, g)

/-- The queue that a word reaches, and whether it takes an entry. -/
def queueAct : Instr → Option (Nat × Bool)
  | .mov w => match opA w, opD w with
    | .q n, _ => some (n, true)
    | _, .q n => some (n, false)
    | _, _ => none
  | .qtry w => match opA w with
    | .q n => some (n, true)
    | _ => none
  | .ipop _ => some (3, true)
  | _ => none

/-- The number under which a word issues: its OP, or that of a pair word. -/
def issueOp : Instr → Nat
  | .pairWord p => pairOp p
  | i => ((instrParts i).map Prod.fst).getD 0

/-- The word was not ready when its turn in this cycle came: a later quadrant has reached the queue, or the scratchpad port, before it
(R423, R436). DEDUCED (log 61). -/
def turnPast (s : State) (e : Grp) (i : Instr) : Bool :=
  let c := s.core (s.block e.1).core
  (match queueAct i with | some (n, takes) => queueLate s e.1 n takes (e.2 % 4) | none => false) ||
  (memoryKind (issueOp i) && c.quads.any fun q => decide (e.2 % 4 < q.1) && decide (q.2.lastCycle = c.cycles) && q.2.issued != 0 && q.2.memory && q.2.owed.isNone)

/-- A word that a quadrant may issue: its group, the number it issues under, whether it pushes. -/
structure Turn where
  grp  : Grp := (0, 0)
  op   : Nat := 0
  push : Bool := false
  deriving DecidableEq, Repr

/-- A group's next word, where it would be issued now. -/
def attempt (ex : Instr → State → Out) (s : State) (e : Grp) : Option Turn :=
  if !boundaryOpen s e.1 e.2 || notReady s e.1 e.2 || !(refutedLanes (s.group e.1 e.2)).isEmpty then none
  else match fetchFor s e.1 e.2 with
  | .done _ => none
  | .insn i u => if turnPast s e i then none else match ex i { u with focus := e } with
    | .next t =>
      if (t.group e.1 e.2).words = (s.group e.1 e.2).words then none
      else some { grp := e, op := issueOp i, push := (match queueAct i with | some (_, takes) => !takes | none => false) }
    | _ => none

/-- Oldest first: the cycle of placement or resumption, then block id, then group id (R126). -/
def ageRank (s : State) (e : Grp) : Nat := ((s.group e.1 e.2).age * 64 + (s.block e.1).blk) * 16 + e.2

/-- When a group last issued, from 1: a group that never has comes before all (R128). -/
def idleKey (q : Group) : Nat := match q.lastIssue with | none => 0 | some c => c + 1

/-- Longest without issuing first; ties go to the older (R128). -/
def idleRank (s : State) (e : Grp) : Nat := idleKey (s.group e.1 e.2) * 2 ^ 80 + ageRank s e

/-- A group that has given up its turn waits while another ready group has not issued since; of two that gave it up in one cycle the older
goes first (R129). DESIGN CHOICE (log 73). -/
def barred (s : State) (ready : List Grp) (e : Grp) : Bool :=
  let q := s.group e.1 e.2
  q.yielded && ready.any fun x =>
    let o := s.group x.1 x.2
    x != e && (decide (idleKey o < idleKey q) || (idleKey o == idleKey q && (!o.yielded || decide (ageRank s x < ageRank s e))))

/-- The group of a cycle's first word (R128). DESIGN CHOICE (log 73). -/
def firstChoice (s : State) (q : Quad) (cyc : Nat) (ready : List Grp) : Option Grp :=
  let open_ := ready.filter fun e => !barred s ready e
  let starved := open_.filter fun e => let g := s.group e.1 e.2; decide (max g.age (g.lastIssue.getD 0) + 1024 ≤ cyc)
  match sortBy (ageRank s) starved with
  | e :: _ => some e
  | [] => match q.cur with
    | none => (sortBy (ageRank s) open_).head?
    | some c =>
      if ready.contains c then
        if decide (q.run < 64) && !(s.group c.1 c.2).yielded then some c else (sortBy (idleRank s) open_).head?
      else (sortBy (if (s.group c.1 c.2).yielded then idleRank s else ageRank s) open_).head?

/-- The group of a cycle's second word: the oldest whose word breaks no restriction (R128, R349). DESIGN CHOICE (log 73). -/
def secondChoice (s : State) (q : Quad) (ready : List Turn) : Option Turn :=
  let names := ready.map Turn.grp
  let fits := ready.filter fun e => some e.grp != q.first && !barred s names e.grp && !(q.memory && memoryKind e.op) && !(q.control && e.op / 16 == 2) &&
    !(q.fp64 && fp64Kind e.op) && !(q.special && specialKind e.op)
  (sortBy (fun e => ageRank s e.grp) fits).head?

/-- The words that a quadrant has still to issue in this cycle: its first and its second, or what is left of them (R128). -/
def quadTurns (ex : Instr → State → Out) (s : State) (core q : Nat) : List Turn :=
  let c := s.core core
  let quad := tget {} c.quads q
  let ready := (quadGroups s core q).filterMap (attempt ex s)
  if quad.lastCycle = c.cycles ∧ quad.issued ≠ 0 then
    match quad.owed with
    | some f => ready.filter fun e => e.grp == f
    | none => if 2 ≤ quad.issued then [] else (secondChoice s quad ready).toList
  else match (firstChoice s quad c.cycles (ready.map Turn.grp)).bind fun e => ready.find? fun x => x.grp == e with
    | none => []
    | some f => f :: (secondChoice s (quad.note c.cycles f.grp f.op) ready).toList

/-- The word that a core issues next in this cycle: pushes before the rest, each in ascending quadrant (R423, R436). -/
def nextTurn (ex : Instr → State → Out) (s : State) (core : Nat) : Option Turn :=
  let all := (List.range 4).flatMap (quadTurns ex s core)
  match all.find? Turn.push with
  | some e => some e
  | none => all.head?

/-- A core has one group alone, which has issued nothing in this cycle: there is nothing to choose. -/
def onlyGroup (s : State) (e : Grp) : Bool :=
  let core := (s.block e.1).core
  let c := s.core core
  let q := tget {} c.quads (e.2 % 4)
  (q.lastCycle != c.cycles || q.issued == 0) && decide (((List.range 4).flatMap (quadGroups s core)).length ≤ 1)

/-- The core chooses this group now. -/
def selected (ex : Instr → State → Out) (s : State) (e : Grp) : Bool :=
  onlyGroup s e || (nextTurn ex s (s.block e.1).core).map Turn.grp == some e

/-- Before a quadrant's second word is issued as a push, its first is noted: it follows with the rest of the cycle (R423). -/
def oweFirst (ex : Instr → State → Out) (s : State) (e : Grp) : State :=
  let core := (s.block e.1).core
  match quadTurns ex s core (e.2 % 4) with
  | [f, x] => if onlyGroup s e || x.grp != e then s
    else modCore s core fun c => { c with quads := tmod {} c.quads (e.2 % 4) fun q => { q.note c.cycles f.grp f.op with owed := some f.grp } }
  | _ => s

/-- Issue a word: one that reaches a queue keeps the order of its cycle (R423). DEDUCED (log 61). -/
def issueWord (ex : Instr → State → Out) (i : Instr) (s : State) (b g : Nat) : Out :=
  match queueAct i with
  | none => ex i { s with focus := (b, g) }
  | some (n, takes) =>
    if queueLate s b n takes (g % 4) then .next s
    else
      let s := if takes then s else oweFirst ex s (b, g)
      match ex i { s with focus := (b, g) } with
      | .next t => .next (if (t.group b g).words = (s.group b g).words then t else noteQueue t b n takes (g % 4))
      | o => o

/-- One issue slot for a group: lanes whose wait is over are eligible (R136); then a pending trap, a redirect, the end of a fetch, or its
next word. DEDUCED (log 81). -/
def issueStep (ex : Instr → State → Out) (s0 : State) (b g : Nat) : Out :=
  let s := wakeCore s0 (s0.block b).core
  if !boundaryOpen s b g then .next s
  else match nextPend (s.group b g) fun _ => true with
  | some p => .next (takePend s b g p)
  | none =>
    if !(refutedLanes (s.group b g)).isEmpty then .next (redirectAll s b g)
    else if notReady s b g then .next s
    else match fetchFor s b g with
    | .done u => .next u
    | .insn i u => if selected ex s (b, g) then issueWord ex i u b g else .next s

/-! ## Cycles of a core (R16, R128, R130) -/

/-- What a group does at a cycle without taking an issue slot: a pending trap, a redirect, a fetch that ends in a trap or parks it. -/
def quietStep (s : State) (e : Grp) : State :=
  if !boundaryOpen s e.1 e.2 then s
  else match nextPend (s.group e.1 e.2) fun _ => true with
  | some p => takePend s e.1 e.2 p
  | none =>
    if !(refutedLanes (s.group e.1 e.2)).isEmpty then redirectAll s e.1 e.2
    else if notReady s e.1 e.2 then s
    else match fetchFor s e.1 e.2 with
    | .done u => u
    | .insn _ _ => s

/-- The core's next word of this cycle. -/
def issueTurn (ex : Instr → State → Out) (core : Nat) (s : State) : State :=
  match nextTurn ex s core with
  | none => s
  | some e => match issueStep ex s e.grp.1 e.grp.2 with
    | .next t => t
    | _ => s

/-- What a cycle of a core issues: lanes whose wait is over are eligible, then every quadrant issues its two words (R128, R136).
DESIGN CHOICE (log 73). -/
def cycleIssue (ex : Instr → State → Out) (s : State) (core : Nat) : State :=
  let s1 := wakeCore s core
  let s2 := ((List.range 4).flatMap (quadGroups s1 core)).foldl quietStep s1
  (List.range 8).foldl (fun t _ => issueTurn ex core t) s2

/-- The counters of cycles of a core's groups (R431). -/
def countCycle (s : State) (c : Nat) : State :=
  (blocksOn s c).foldl (fun t b => (tkeys (t.block b).groups).foldl (fun t g => modGroup t b g fun q =>
    let idle := (lanesOf q.live).all fun L => (q.lane L).waits
    { q with perf := tmapv (fun p : Perf =>
        if p.on && (p.event == 0 || (p.event == 3 && idle)) then { p with count := p.count + 1 } else p) q.perf }) t) s

/-- A cycle of a core's clock, once for each of its pulses: what it has still to issue, what its matrix engine does, and the next cycle
(R16, R130, R431, R438).
DEDUCED (log 84). -/
def coreCycle (ex : Instr → State → Out) (s : State) (c : Nat) : State :=
  if !running s || decide (s.pkg.pulses ≤ (s.core c).pulse) then s
  else countCycle (modCore (engineStep (cycleIssue ex s c) c) c fun k => { k with cycles := k.cycles + 1, pulse := s.pkg.pulses }) c

/-- A follower's offset moves to its target: counts are added at once, and withheld one a tick, so that no copy decreases.
DEDUCED (log 11). -/
def drift (off tgt : Int) : Int := if tgt < off then off - 1 else tgt

/-- Pulses of the core clock in five ticks: 1.5, 1.2, 0.9 and 0.6 GHz in states 0 to 3 (R16, R87). -/
def pulsesPer5 (state : Nat) : Nat := match state with | 0 => 5 | 1 => 4 | 2 => 3 | 3 => 2 | _ => 0

/-- The core clock over one tick. Its phase against chip time is the model's own. DEDUCED (log 84). -/
def advanceClock (p : Package) : Package :=
  let n := p.phase + pulsesPer5 p.pCurrent
  { p with pulses := p.pulses + n / 5, phase := n % 5 }

/-- What a channel's record has due at this tick: another read of a record whose SEQ did not match, and the poll of host words (R79,
R84). -/
def channelDue (s : State) (p c : Nat) : State :=
  let k := s.chan p c
  if headDue s k && k.miss != 0 && decide (k.readAt + 1500 ≤ s.ct) then readHead s p c
  else if pollDue s k then pollHost s p c else s

/-- The answer of a device event's step. -/
def afterEvent (s : State) (o : Out) : State := match o with | .next t => t | _ => s

/-- Waits counted in ticks that end with the tick (R66, R67, R79, R84, R432). -/
def timesDue (s : State) : State :=
  let s1 := (tkeys s.parts).foldl (fun s p => (tkeys (s.part p).chans).foldl (fun s c => channelDue s p c) s) s
  let s2 := (tkeys s1.ports).foldl (fun s p => afterEvent s (execPortTrainingTimeout p s)) s1
  let s3 := ((s2.reqs.filter fun r => r.stage == .held).map fun r => r.tag).foldl (fun s t => afterEvent s (execPeerRequestTimeout t s)) s2
  (liveCtxs s3).foldl (fun s h => afterEvent s (execProgramRecordDue h s)) s3

/-- What a tick completes before the next begins: cycles that cores have not run, shaped replies, limits, resolves, windows and switches
of the channels, other waits, and the numbering of its events (R16, R40, R99, R100, R200, R211, R221). DESIGN CHOICE (log 97). -/
def finishTick (ex : Instr → State → Out) (s : State) : State :=
  let s1 := (List.range Config.cores).foldl (coreCycle ex) s
  let s2 := expireDue (deliverShaped s1)
  let s3 := (tkeys s2.hctxs).foldl resolveDue s2
  let s4 := (tkeys s3.memChans).foldl (fun s k => switchEnd (windowEnd s k (pick s (2 ^ 20 + 2 * k)) (pick s (2 ^ 20 + 2 * k + 1))) k) s3
  collect (timesDue s4)

/-- What a microsecond boundary does at the ports and the slices (R64, R94). -/
def startMicrosecond (s : State) : State :=
  if s.ct % Config.ticksPerUs ≠ 0 then s
  else
    let s1 := (List.range Config.ports).foldl (fun s p => afterEvent s (execFabricBucketRefill p s)) { s with l2Moved := [] }
    (List.range Config.slices).foldl (fun s k => afterEvent s (execL2BucketRefill k s)) s1

/-- What a tick begins with: resolves whose effect it is, before any entry of a queue goes to a lane that they redirect (R440); lanes whose
time has come; truths of lines that came with their guesses (R136, R200). -/
def startTick (s : State) : State :=
  let s1 := (tkeys s.hctxs).foldl resolveDue s
  lateTruths ((List.range Config.cores).foldl (fun s c => if running s then wakeCore s c else s) s1)

/-- A tick of chip time (R17, R18): what this tick completes, and the start of the next. DESIGN CHOICE (log 12). -/
def tickCt (ex : Instr → State → Out) (s : State) : State :=
  if s.pkg.ctRun then
    let t := finishTick ex s
    let u := startMicrosecond { t with ct := t.ct + 1, pkg := { advanceClock t.pkg with off0 := drift t.pkg.off0 t.pkg.tgt0, off1 := drift t.pkg.off1 t.pkg.tgt1 } }
    { startTick u with ct := t.ct + 1 }
  else s

/-! ## The next step where none is scheduled

The part's agents proceed in no order that the manual fixes. Where the schedule names no step, the next one is an open
choice among the steps that need nothing from outside the part. -/

/-- A choice below n. -/
def below (s : State) (k n : Nat) : Nat := if n = 0 then 0 else pick s k % n

/-- One of a list's members, by open choice. -/
def oneOf (s : State) (k : Nat) (xs : List Nat) : Nat := xs.getD (below s k xs.length) 0

/-- What DRAM finds under its code. DESIGN CHOICE (log 60). -/
def someEcc (s : State) (k : Nat) : EccResult := match below s k 3 with | 0 => .ok | 1 => .corrected | _ => .uncorrectable

/-- What a slice or a core finds in its SRAMs. DESIGN CHOICE (log 60). -/
def someSram (s : State) (core k : Nat) : SramFault :=
  let c := s.core core
  match below s k 8 with
  | 0 => .l2Corrected
  | 1 => .l2Uncorrectable
  | 2 => .coreCorrected
  | 3 => .coreClean 0 (oneOf s (k + 1) (tkeys c.l1))
  | 4 => .coreClean 1 (oneOf s (k + 1) (tkeys c.const))
  | 5 => .coreClean 2 (oneOf s (k + 1) (tkeys c.icache))
  | 6 => .coreLost (blocksOn s core)[pick s (k + 1) % 8]?
  | _ => .none

/-- A step of the kinds that name a lane, group or block. -/
def openGroupStep (s : State) : Sched :=
  let b := oneOf s 1 (tkeys s.blocks)
  let g := oneOf s 2 (tkeys (s.block b).groups)
  let L := below s 3 32
  match below s 4 11 with
  | 0 => .event (.groupEnd b g)
  | 1 => .event (.blockEnd b)
  | 2 => .event (.waitLimitExpiry b g (oneOf s 5 ((s.group b g).loads.map fun l => l.id)) L)
  | 3 => .event (.mmaAccept b g L)
  | 4 => .event (.refuteRedirect b g L)
  | 5 => .event (.machineCheckTaken b g)
  | 6 => .event (.hostLinkTrap b g)
  | 7 => .event (.sleepWake b g L)
  | 8 => .event (.waitevRelease b g L)
  | _ => .issue b g

/-- A step of the kinds that name a request. DESIGN CHOICE (log 77). -/
def openRequestStep (s : State) : Sched :=
  let r := oneOf s 1 (s.reqs.map fun r => r.id)
  let jobs := s.blocks.flatMap fun e => e.2.copies.map fun j => j.id
  let j := oneOf s 2 jobs
  match below s 3 12 with
  | 0 => .event (.l2StoreAccept (.lane r))
  | 1 => .event (.l2StoreAccept (.copy j (pick s 4 % 2 ^ 58)))
  | 2 => .event (.l2StoreApply r)
  | 3 => .event (.l2LoadServe r (someSram s 64 5))
  | 4 => .event (.loadReplyArrival r)
  | 5 => .event (.writeCompletionReturn r)
  | 6 => .event (.scratchLinePresent j (pick s 4 % 2 ^ 40))
  | 7 => .event (.multicastReadyMet j)
  | 8 => .event (.copyComplete j)
  | 9 => .event (.fabricRequestServe (oneOf s 4 (tkeys s.inbound)))
  | 10 => .perform r
  | _ => .event (.fabricWriteAckSend (oneOf s 4 (tkeys s.inbound)))

/-- A step of the kinds that name a core, a memory channel, a stack or a line. -/
def openUnitStep (s : State) : Sched :=
  let c := below s 1 Config.cores
  let st := below s 2 8
  match below s 3 19 with
  | 18 => .l2Sram (oneOf s 4 (tkeys s.l2)) (below s 5 4) (below s 6 2 == 1)
  | 0 => .cycle c
  | 1 => .event (.itemRefill c)
  | 2 => .event (.mmaReadCycle c)
  | 3 => .event (.mmaCommandDone c)
  | 4 => .event (.leaseExpiry c (oneOf s 4 (tkeys (s.core c).l1)))
  | 5 => .event (.translationWalkDone c (below s 4 12) (pick s 5 % 2 ^ 48))
  | 6 => .event (.coreDrainComplete c)
  | 7 => .event (.l2Eviction (oneOf s 4 (tkeys s.l2)))
  | 8 => .event (.baseDieRequest st (pick s 4 % 2 ^ 16))
  | 9 => .event (.victimFill st (pick s 4 % 2 ^ 16))
  | 10 => .event (.discardByHypothesis st (pick s 4 % 2 ^ 16))
  | 11 => .event (.dramRequestServed st (pick s 4 % 2 ^ 16) ((List.range 4).map fun j => someEcc s (5 + j)))
  | 12 => .event (.frugalHoldRelease st (pick s 4 % 2 ^ 16))
  | 13 => .event (.refreshDue (below s 4 256) (below s 5 64) (match below s 6 3 with | 0 => .issue | 1 => .postpone | _ => .catchUp))
  | 14 => .event (.patrolScrub st (pick s 4 % Config.memBytes) (someEcc s 5))
  | 15 => .event (.codeSwitchDone (below s 4 256))
  | 16 => .event (.toggleWindowEnd (below s 4 256) (pick s 5) (pick s 6) (pick s 7) (pick s 8))
  | _ => .sram c (someSram s c 4)

/-- A step of the kinds that name a context, channel, partition or hypothesis context. -/
def openContextStep (s : State) : Sched :=
  let h := oneOf s 1 (tkeys s.ctxs)
  let p := below s 2 12
  let c := below s 3 16
  let x := below s 4 4
  match below s 5 16 with
  | 0 => .event (.gangPlace h)
  | 1 => .event (.gangPreempt h (oneOf s 6 (s.context h).saving))
  | 2 => .event (.preemptSaveDone h (oneOf s 6 (s.context h).saving))
  | 3 => .event (.gangResume h (oneOf s 6 (s.context h).saved))
  | 4 => .event (.contextComplete h)
  | 5 => .event (.programRecordDue h)
  | 6 => .event (.recordAtHead p c)
  | 7 => .event (.recordSeqRecheck p c)
  | 8 => .event (.syncWordPollHost p c)
  | 9 => .event (.recordStart p c)
  | 10 => .event (.markerSignal p c)
  | 11 => .event (.tlbInvalidationAck p)
  | 12 => .event (.resolveEgressDrained x)
  | 13 => .event (.resolveEffect x)
  | 14 => .event (.hypIdRetire x (below s 6 256))
  | _ => .event .freezeImageDone

/-- A step of the fabric, the service core, power or bring-up. -/
def openOtherStep (s : State) : Sched :=
  let p := below s 1 Config.ports
  match below s 2 10 with
  | 0 => .event (.linkBlockSend p)
  | 1 => .event (.fabricBucketRefill p)
  | 2 => .event (.l2BucketRefill (below s 3 64))
  | 3 => .event (.peerRequestTimeout (below s 3 4096))
  | 4 => .event (.portTrainingTimeout p)
  | 5 => .event .powerTransitionDone
  | 6 => .event .bringupPllLock
  | 7 => if s.svc.quiesce.isSome then .event .fabQuiesce else .event .bringupCoresReady
  | 8 => .event (.l2StoreApply (oneOf s 3 (s.reqs.map fun r => r.id)))
  | _ => .tick

/-- The next step where the schedule names none. DESIGN CHOICE (log 1). DESIGN CHOICE (log 6). DESIGN CHOICE (log 77). -/
def openStep (s : State) : Sched :=
  match below s 0 6 with
  | 0 => openGroupStep s
  | 1 => openRequestStep s
  | 2 => openUnitStep s
  | 3 => openContextStep s
  | 4 => openOtherStep s
  | _ => .tick

/-! ## One step -/

/-- The host writes its own memory; a line that the buffer owns must be snooped first (R74, R84). DESIGN CHOICE (log 93). -/
def hostStoreOwn (s : State) (pa : Nat) (bytes : List Byte) : State :=
  let bs := (bytes.zipIdx.map fun e => (pa + e.2, e.1)).filter fun e => decide (e.1 < 2 ^ 52)
  if bs.any fun e => lineOwned s (e.1 / 64) then s else putHost s bs

/-- Do one scheduled step. DESIGN CHOICE (log 1). DESIGN CHOICE (log 93). -/
def runSched (ex : Instr → State → Out) (x : Sched) (s : State) : Out :=
  match x with
  | .event i => ex i s
  | .issue b g => issueStep ex s b g
  | .tick => .next (tickCt ex s)
  | .cycle c => .next (coreCycle ex s c)
  | .perform r => .next (performReq s r)
  | .sram c f => .next (sramCore s c f)
  | .l2Sram key sect lost => .next (l2Sram s key sect lost)
  | .hostStore pa bytes => .next (hostStoreOwn s pa bytes)
  | .cfgRead fn off => .next (hostCfgRead s fn off)
  | .cfgWrite fn off value => .next (hostCfgWrite s fn off value)
  | .msixWrite fn vector addr data => .next (hostMsixWrite s fn vector addr data)
  | .hdmRead hpa => hostHdmRead s hpa
  | .hdmWrite hpa bytes => hostHdmWrite s hpa bytes

/-- Take the next step off the schedule; every step has fresh open choices. -/
def takeStep (s : State) : Sched × State :=
  let t := { s with free := s.free + 1 }
  match t.agenda with
  | x :: xs => (x, { t with agenda := xs })
  | [] => (openStep t, t)

/-! ## A machine whose next step runs one instruction -/

/-- A page-table entry: a table, or a page at a frame that may be read, written and executed, ACC and DIRTY set. -/
def tablePte (next : Nat) : Nat := next + 1
def pagePte (frame : Nat) : Nat := frame + 0xCB9

/-- Code and page tables of the smallest program: tables at 0x1000 to 0x4000, the code page at 0x8000. DESIGN CHOICE (log 7). -/
def tinyMemory (bytes : List Byte) (s : State) : State :=
  let s := putNum s 0x1000 8 (tablePte 0x2000)
  let s := putNum s 0x2000 8 (tablePte 0x3000)
  let s := putNum s 0x3000 8 (tablePte 0x4000)
  let s := putNum s 0x4040 8 (pagePte 0x8000)
  putBytes s (bytes.zipIdx.map fun e => (0x8000 + e.2, e.1))

/-- Partition 0 owns granule 0; context 0 has one block on core 0, with one group whose 32 lanes stand at the code.
DESIGN CHOICE (log 7). -/
def tinyContext (s : State) : State :=
  let s := modPart s 0 fun p => { p with set := true, coreMask := 1, gran0 := 0, granN := 1, root := 0x1000 }
  let s := modCtx s 0 fun c => { c with
    live := true, record := { version := 1, entry := 0x8000, gx := 1, gy := 1, gz := 1, regs := 512, scalars := 128, scratch := 4096
                              limit := 1024, lease := 1024 } }
  modBlock s 0 fun b => { b with
    resident := true, groups := [(0, { exists_ := true, live := BitVec.allOnes 32
                                       lanes := lanes32.map fun L => (L, { lpc := w64 0x8000 : Lane }) : Group })] }

/-- The instruction's bytes stand where the group's next issue fetches, and that issue is the next step. DESIGN CHOICE (log 7). -/
def placeInstr (bytes : List Byte) (s : State) : State :=
  let t := modCore (tinyContext (tinyMemory bytes s)) 0 fun c => { c with icache := [], tlb := [] }
  { t with agenda := [.issue 0 0], pkg := { s.pkg with clockStopped := false, skewStop := false, pCurrent := 0 } }

end Sys2Proof.Machine
end

