-- ==== Sys2Proof/Machine/Step.lean ====
section
/-! DEFINITION. One step of the machine: the next scheduled step, or an open choice where none is scheduled. -/

namespace Sys2Proof.Machine

/-- One step. -/
def step (s : State) : Host.Outcome State Fault Refusal :=
  runSched exec (takeStep s).1 (takeStep s).2

/-- s with an instruction of the given bits stored where its next step fetches: a program is loaded from outside the
machine, and this stands for that load. -/
def State.withFetchWord (s : State) (nbits w : Nat) : State := placeInstr (leBytes 16 (w % 2 ^ nbits)) s

end Sys2Proof.Machine
end

