-- ==== Sys2Proof/Safety.lean ====
section
/-! DEFINITION. The terms in which claims about the machine are made: when a word issues, what a destination holds afterwards,
and what a step leaves alone. -/

namespace Sys2Proof.Machine

/-! ## When a word issues -/

/-- The word w of opcode op issues in s for what i names: the group in focus has an issue set, nothing stands against an issue
(R127), no lane of the set waits for a redirect (R223), stage 1 of R256 finds no cause, and no register of the word awaits a
result. `bump` gives the lanes whose LAP the word would raise (R132). -/
def Issues (op : Nat) (w : Insn) (bump : State → Iss → Mask) (s : State) (i : Iss) : Prop :=
  ∃ j, issOf s (formBytes w.form) = some j ∧ notReady s j.b j.g = false ∧
    ((lanesOf j.iss).any fun L => ((s.group j.b j.g).lane L).refuted.isSome) = false ∧
    stage1a s j [{ op := op, w := w }] = none ∧ scoreHeld s j [{ op := op, w := w }] = false ∧ acqHeld s j = false ∧
    i = withGuard s j w.g ∧ stage1b s i [{ op := op, w := w }] (bump s i) = none

/-! ## Results -/

/-- Register r is one that a V destination of a type covers: an even pair for 64 bits (R144, R290). -/
def covers (t : Ty) (d : Opd) (r : Nat) : Bool :=
  match d with
  | .v n => r == n || (wide t && r == n + 1)
  | _ => false

/-- Lane L's destination holds the value x of a type, with guess bit gb: a V register or an even pair with the low half in the
even register, a predicate, or an S register, written once for the group from its lowest executing lane. P15 and S0 ignore the
write (R145). -/
def Gets (q : Group) (ex : Mask) (t : Ty) (d : Opd) (L x : Nat) (gb : Bool) : Prop :=
  match d with
  | .v n => q.vReg n L = w32 x ∧ q.vGuess n L = gb ∧
      (wide t = true → q.vReg (n + 1) L = w32 (x / 2 ^ 32) ∧ q.vGuess (n + 1) L = gb)
  | .p n => if n = 15 then q.pred 15 L = true ∧ q.pGuess 15 L = false else q.pred n L = decide (x ≠ 0) ∧ q.pGuess n L = gb
  | .s n => (lanesOf ex).head? = some L → q.sReg n = if n = 0 then 0 else toS t x
  | _ => True

/-! ## What a word of registers leaves alone -/

/-- Group r's registers are those of q but for the destinations ds in the lanes of ex; the lanes of gg, whose guard is guessed,
also take a guess bit there (R206). -/
structure SameRegs (q r : Group) (ds : List (Ty × Opd)) (ex gg : Mask) : Prop where
  v : ∀ n L, L < 32 → (ds.all (fun e => !covers e.1 e.2 n) = true ∨ inMask ex L = false) → r.vReg n L = q.vReg n L
  vg : ∀ n L, L < 32 → (ds.all (fun e => !covers e.1 e.2 n) = true ∨ (inMask ex L = false ∧ inMask gg L = false)) → r.vGuess n L = q.vGuess n L
  p : ∀ n L, L < 32 → ((∀ e ∈ ds, e.2 ≠ .p n) ∨ inMask ex L = false) → r.pred n L = q.pred n L
  pg : ∀ n L, L < 32 → ((∀ e ∈ ds, e.2 ≠ .p n) ∨ (inMask ex L = false ∧ inMask gg L = false)) → r.pGuess n L = q.pGuess n L
  s : ∀ n, ((∀ e ∈ ds, e.2 ≠ .s n) ∨ ex = 0) → r.sReg n = q.sReg n

/-- From l to m a lane keeps HYP, HREFUTE, ITEM, PCT, FAULT_VA, its open releases and acquires: only LPC, LAP and its parking differ. -/
def SameLane (l m : Lane) : Prop := m = { l with lpc := m.lpc, lap := m.lap, park := m.park }

/-- The trap registers, the live lanes, the lanes' special registers and the load state of a group are as they were. -/
structure SameTraps (q r : Group) : Prop where
  mode : r.trapMode = q.trapMode ∧ r.handlerSet = q.handlerSet ∧ r.rteHeld = q.rteHeld ∧ r.rteNextM = q.rteNextM
  record : r.trapCause = q.trapCause ∧ r.trapPc = q.trapPc ∧ r.faultMask = q.faultMask ∧ r.causeMask = q.causeMask
  pend : r.pend = q.pend ∧ r.pfParked = q.pfParked ∧ r.faultIds = q.faultIds
  live : r.live = q.live ∧ r.loads = q.loads ∧ r.pending = q.pending ∧ r.stride = q.stride
  lanes : ∀ L, SameLane (q.lane L) (r.lane L)

/-- Nothing but registers and issue state of group g of block b differs: memory, host memory, scratchpads, accumulators, queues,
barrier objects, caches, requests, chip time, every other group and every other part of the device are as they were. -/
structure SameElse (s t : State) (b g : Nat) : Prop where
  device : t = { s with blocks := t.blocks, cores := t.cores }
  groups : ∀ k j, ¬(k = b ∧ j = g) → t.group k j = s.group k j
  blocks : ∀ k, { t.block k with groups := [] } = { s.block k with groups := [] }
  cores : ∀ c, { t.core c with quads := [] } = { s.core c with quads := [] }

/-- Every lane of the issue set stands at the next instruction (R131). -/
def FallsThrough (s : State) (i : Iss) (t : State) : Prop :=
  ∀ L, L < 32 → inMask i.iss L = true → ((t.group i.b i.g).lane L).lpc = w64 (landing s i.b (i.pc + i.len))

/-- A word of registers has completed: each executing lane's destination holds its value and guess bit, every lane falls through,
and nothing else differs. -/
structure Computes (s : State) (i : Iss) (ty : Ty) (d : Opd) (val : Nat → Nat) (gb : Nat → Bool) (t : State) : Prop where
  value : ∀ L, L < 32 → inMask i.ex L = true → Gets (t.group i.b i.g) i.ex ty d L (val L) (gb L)
  next : FallsThrough s i t
  regs : SameRegs (s.group i.b i.g) (t.group i.b i.g) [(ty, d)] i.ex i.gg
  traps : SameTraps (s.group i.b i.g) (t.group i.b i.g)
  other : SameElse s t i.b i.g

/-- Operands A, B and C of a word, as a lane reads them under a type (R290, R291, R322, R347). -/
def srcA (t : Ty) (w : Insn) (s : State) (i : Iss) (L : Nat) : Nat := (valOf s i t (opA w) L).1
def srcB (t : Ty) (w : Insn) (s : State) (i : Iss) (L : Nat) : Nat := (valOf s i t (opB w) L).1
def srcC (t : Ty) (w : Insn) (s : State) (i : Iss) (L : Nat) : Nat := (valOf s i t (opC w) L).1

/-- A function of the values of A, of A and B, of all three, in each lane. -/
def onA (t : Ty) (w : Insn) (f : Nat → Nat) (s : State) (i : Iss) (L : Nat) : Nat := f (srcA t w s i L)
def onAB (t : Ty) (w : Insn) (f : Nat → Nat → Nat) (s : State) (i : Iss) (L : Nat) : Nat := f (srcA t w s i L) (srcB t w s i L)
def onABC (t : Ty) (w : Insn) (f : Nat → Nat → Nat → Nat) (s : State) (i : Iss) (L : Nat) : Nat :=
  f (srcA t w s i L) (srcB t w s i L) (srcC t w s i L)

/-- The operand fields of a word of one, two and three sources, with the registers that each covers. -/
def opsA (op : Nat) (w : Insn) : List (Opd × Nat) := [(opA w, spanA op w)]
def opsAB (op : Nat) (w : Insn) : List (Opd × Nat) := [(opA w, spanA op w), (opB w, spanB op w)]
def opsABC (op : Nat) (w : Insn) : List (Opd × Nat) := [(opA w, spanA op w), (opB w, spanB op w), (opC w, spanC op w)]

/-- Wherever the word issues, and no guessed guard stands against a scalar form (R207, R324), exec answers a next state in which D
holds `val` of the type in each executing lane, with the OR of the guess bits of the guard and the operands (R206); every lane has
gone on to the next instruction, and nothing else differs. -/
def ComputesAs (c : Insn → Instr) (op : Nat) (w : Insn) (ty : Ty) (srcs : List (Opd × Nat)) (val : State → Iss → Nat → Nat) : Prop :=
  ∀ s i, Issues op w noBump s i → (isS (opD w) = true → escapes s i true [] = 0) →
    ∃ t, exec (c w) s = .next t ∧
      Computes s i ty (opD w) (val s i) (fun L => inMask i.gg L || srcs.any fun o => guessOf s i o.1 o.2 L) t

/-- As ComputesAs, for a word whose result in each lane is rounded, with a test for non-finite results: it completes so where, under
.tnf, no executing lane's result is non-finite (R237, R349). -/
def RoundsAs (c : Insn → Instr) (op : Nat) (w : Insn) (ty : Ty) (srcs : List (Opd × Nat)) (val : State → Iss → Nat → Rounded) : Prop :=
  ∀ s i, Issues op w noBump s i → (isS (opD w) = true → escapes s i true [] = 0) →
    (fTnf w = true → ∀ L, L < 32 → inMask i.ex L = true → (val s i L).2 = false) →
    ∃ t, exec (c w) s = .next t ∧ Computes s i ty (opD w) (fun L => (val s i L).1)
      (fun L => inMask i.gg L || srcs.any fun o => guessOf s i o.1 o.2 L) t

/-- As RoundsAs, for a word that writes n consecutive V registers of each executing lane. -/
def RegistersAs (c : Insn → Instr) (op : Nat) (w : Insn) (n : Nat) (tnf : State → Iss → Bool) (srcs : List (Opd × Nat))
    (val : State → Iss → Nat → List Rounded) : Prop :=
  ∀ s i, Issues op w noBump s i → (tnf s i = true → ∀ L, L < 32 → inMask i.ex L = true → (val s i L).all (fun r => !r.2) = true) →
    ∃ t, exec (c w) s = .next t ∧ SameElse s t i.b i.g ∧ SameTraps (s.group i.b i.g) (t.group i.b i.g) ∧ FallsThrough s i t ∧
      SameRegs (s.group i.b i.g) (t.group i.b i.g) ((List.range n).map fun j => (.b32, opPlus j (opD w))) i.ex i.gg ∧
      ∀ L, L < 32 → inMask i.ex L = true → ∀ j, j < n →
        Gets (t.group i.b i.g) i.ex .b32 (opPlus j (opD w)) L ((val s i L).getD j (0, false)).1
          (inMask i.gg L || srcs.any fun o => guessOf s i o.1 o.2 L)

/-! ## Words that do more than compute -/

/-- Wherever the word issues and the condition holds, exec answers a next state of which E holds. -/
def Runs (c : Insn → Instr) (op : Nat) (w : Insn) (bump : State → Iss → Mask) (cond : State → Iss → Prop)
    (E : State → Iss → State → Prop) : Prop :=
  ∀ s i, Issues op w bump s i → cond s i → ∃ u, exec (c w) s = .next u ∧ E s i u

/-- No executing lane's guard is guessed, nor any of the operands, each with the registers it covers (R207). -/
def Plain (ops : List (Opd × Nat)) (s : State) (i : Iss) : Prop := escapes s i true ops = 0

/-- Nothing of the machine differs but issue state, LPC, LAP and parking of group i.g and its registers ds. -/
structure Quiet (s : State) (i : Iss) (ds : List (Ty × Opd)) (u : State) : Prop where
  other : SameElse s u i.b i.g
  traps : SameTraps (s.group i.b i.g) (u.group i.b i.g)
  regs  : SameRegs (s.group i.b i.g) (u.group i.b i.g) ds i.ex i.gg

/-- The lane of the issuing group. -/
def laneAt (u : State) (i : Iss) (L : Nat) : Lane := (u.group i.b i.g).lane L

/-- Every lane of a set stands at the address that f gives it, past the pad words there (R286). -/
def StandAt (s u : State) (i : Iss) (m : Mask) (f : Nat → Nat) : Prop :=
  ∀ L, L < 32 → inMask m L = true → (laneAt u i L).lpc = w64 (landing s i.b (f L))

/-- The lanes of the issue set whose guard is false fall through. -/
def OthersFall (s : State) (i : Iss) (u : State) : Prop := StandAt s u i (i.iss &&& ~~~i.ex) fun _ => i.pc + i.len

/-- LAP of the lanes of the issue set has risen by what f gives, less 2^31 in all of them where the smallest reached it (R132). -/
def LapRises (s u : State) (i : Iss) (f : Nat → Nat) : Prop :=
  ∃ d, (d = 0 ∨ d = 2 ^ 31) ∧ ∀ L, L < 32 → inMask i.iss L = true → (laneAt u i L).lap + d = (laneAt s i L).lap + f L

/-- A lane stands parked at the word with a cause and detail, waiting for x. -/
def ParkedAs (s u : State) (i : Iss) (L cause detail : Nat) (x : W64) : Prop :=
  let l := laneAt u i L
  l.lpc = (laneAt s i L).lpc ∧ l.park.cause = cause ∧ l.park.detail = detail ∧ l.park.x = x

/-- The registers of a group are those of another. -/
def RegsKept (q r : Group) : Prop :=
  r.regs = q.regs ∧ r.rguess = q.rguess ∧ r.preds = q.preds ∧ r.pguess = q.pguess ∧ r.sregs = q.sregs

/-- The state once taking a trap has read the trap table; a group in trap mode reads none (R263, R264). -/
def tableRead (s : State) (b g cause : Nat) : State := if (s.group b g).trapMode then s else noteHandler s b cause

/-- The trap record of the issuing group (R257), with every register as it was, and memory and host memory but for the marks that the
reads of the trap table set in its page-table entries (R153). -/
structure Trapped (s u : State) (i : Iss) (code detail : Nat) (fm cm : Mask) : Prop where
  cause : (u.group i.b i.g).trapCause = w64 (256 * detail + code)
  pc    : (u.group i.b i.g).trapPc = w64 i.pc
  masks : (u.group i.b i.g).faultMask = fm ∧ (u.group i.b i.g).causeMask = cm
  regs  : RegsKept (s.group i.b i.g) (u.group i.b i.g)
  mem   : u.mem = (tableRead s i.b i.g code).mem ∧ u.hostMem = (tableRead s i.b i.g code).hostMem

/-- The handler at h has been entered: trap mode, the lanes of fm at h with LAP + 1 and not parked, every other lane where it was
(R263); LAP of the live lanes is less by 2^31 where the smallest reached it (R132). -/
structure Entered (s u : State) (b g h : Nat) (fm : Mask) : Prop where
  mode  : (u.group b g).trapMode = true ∧ (u.group b g).handlerSet = fm ∧ (u.group b g).rteHeld = 0 ∧ (u.group b g).rteNextM = 0
  lanes : ∀ L, L < 32 → inMask fm L = true → ((u.group b g).lane L).lpc = w64 (landing s b h) ∧ ((u.group b g).lane L).park = {}
  rest  : ∀ L, L < 32 → inMask fm L = false → ((u.group b g).lane L).lpc = ((s.group b g).lane L).lpc ∧
    ((u.group b g).lane L).park = ((s.group b g).lane L).park
  laps  : let rises := fun L => ((s.group b g).lane L).lap + if inMask fm L then 1 else 0
    let d := if (s.group b g).live ≠ 0 ∧ ∀ L, L < 32 → inMask (s.group b g).live L = true → 2 ^ 31 ≤ rises L then 2 ^ 31 else 0
    ∀ L, L < 32 → ((u.group b g).lane L).lap = rises L - if inMask (s.group b g).live L then d else 0

/-- Stage 1 finds nothing before the test of privilege: the word is in issue order, well formed, in range, no STALL_SHORT and no LAP
past its range (R256). -/
def ReachesPrivilege (op : Nat) (w : Insn) (s : State) (i : Iss) : Prop :=
  ∃ j, issOf s (formBytes w.form) = some j ∧ notReady s j.b j.g = false ∧
    ((lanesOf j.iss).any fun L => ((s.group j.b j.g).lane L).refuted.isSome) = false ∧
    stage1a s j [{ op := op, w := w }] = none ∧ scoreHeld s j [{ op := op, w := w }] = false ∧ acqHeld s j = false ∧
    i = withGuard s j w.g ∧ (recordOf s i.b).stallCheck = false

/-! ## Accesses -/

/-- Bytes of an access of a word's type. -/
def accBytes (op : Nat) (w : Insn) : Nat := tyBits (tyD op w) / 8

/-- Every executing lane's access passes: lane L names the place (f L).2.1 by the address (f L).1 under the translation (f L).2.2, and
no check of the word as a whole stands against it (R150, R172, R220, R369). -/
def Passes (op : Nat) (w : Insn) (acc : Acc) (wr : Bool) (f : Nat → Nat × Tgt × Xl) (s : State) (i : Iss) : Prop :=
  (∀ L, L < 32 → inMask i.ex L = true → tryLane op w (accBytes op w) acc s i L = .ok (f L).1 (f L).2.1 (f L).2.2) ∧
  stage3 s i (tries op w (accBytes op w) acc s i) wr = none ∧ anyAway s i (tries op w (accBytes op w) acc s i) = false

/-- Memory and host memory once the page-table entries that the executing lanes' accesses use have been marked (R153, R154). -/
def markedMem (op : Nat) (w : Insn) (acc : Acc) (s : State) (i : Iss) : Tbl Byte :=
  (noteAll s i acc (goodLanes (tries op w (accBytes op w) acc s i))).mem

/-- No byte of any scratchpad and of any accumulator differs. -/
def ChipKept (s u : State) : Prop :=
  (∀ k, (u.block k).scratch = (s.block k).scratch) ∧ ∀ c t, (tget {} (u.core c).tiles t).data = (tget {} (s.core c).tiles t).data

/-- Every executing lane's access lies outside the on-chip storage read and written at issue, at no absent scratchpad line. -/
def Away (f : Nat → Nat × Tgt × Xl) (s : State) (i : Iss) : Prop :=
  ∀ L, L < 32 → inMask i.ex L = true → isLocal i (f L).2.1 = false ∧ isAbsent s (f L).2.1 = false

/-- A request of lane L of the word is on its way to the place that its access names. -/
def Asked (u : State) (i : Iss) (kind : ReqKind) (load : Bool) (f : Nat → Nat × Tgt × Xl) (L : Nat) (more : Req → Part → Prop) : Prop :=
  ∃ r ∈ u.reqs, r.kind = kind ∧ r.place = (placeOf (f L).2.1 (f L).2.2 load).1 ∧ r.block = i.b ∧ r.grp = i.g ∧
    ∃ p ∈ r.parts, p.lane = L ∧ p.off = (placeOf (f L).2.1 (f L).2.2 load).2 ∧ more r p

/-- The n bytes at offset o of one executing lane overlap no other executing lane's. -/
def Alone (i : Iss) (off : Nat → Nat) (n L : Nat) : Prop :=
  ∀ k, k < 32 → inMask i.ex k = true → k ≠ L → off k + n ≤ off L ∨ off L + n ≤ off k

/-- Every load in flight has a number below the next to be given. -/
def FreshLoads (s : State) : Prop := ∀ b g, ∀ l ∈ (s.group b g).loads, l.id < s.seq

/-- Every live lane that a lane of the issue set names in its member mask is in the issue set, and none waits parked at the word: the
lanes of a cross-lane word join at once (R398). -/
def AllHere (mask : Opd) (s : State) (i : Iss) : Prop :=
  parkedAt (s.group i.b i.g) 9 (w64 i.pc) = 0 ∧ ∀ L, L < 32 → inMask i.iss L = true → ∀ k, k < 32 → k ≠ L →
    bit (val32 s i mask L) k = true → inMask (s.group i.b i.g).live k = true → inMask i.iss k = true

/-- The members of a lane's mask that are live. -/
def membersOf (mask : Opd) (s : State) (i : Iss) (L : Nat) : Mask := w32 (val32 s i mask L) &&& (s.group i.b i.g).live

/-- Some lane of a set has a guessed operand. -/
def guessIn (s : State) (i : Iss) (o : Opd) (k : Nat) (m : Mask) : Bool := (lanesOf m).any fun L => guessOf s i o k L

/-- The lane of the issue set stays where it stood, to issue the word again. -/
def Stays (s u : State) (i : Iss) : Prop := ∀ L, L < 32 → inMask i.iss L = true → (laneAt u i L).lpc = (laneAt s i L).lpc

/-! ## Events -/

/-- From s the step leads to a next state of which E holds. -/
def Leads (i : Instr) (s : State) (E : State → Prop) : Prop := ∃ u, exec i s = .next u ∧ E u

/-- The newest event of the tick under way, which the black box takes at the tick's end, is of a kind (R99, R100). -/
def Recorded (u : State) (kind code : Nat) : Prop :=
  ∃ n, u.svc.news.getLast? = some n ∧ n.entry.kind = kind ∧ n.entry.code = code ∧ n.entry.ct = u.ct

/-- An error event of a reporter and category is among those of the tick under way, which the collector numbers at the tick's end
(R100, R101). -/
def Reported (u : State) (rep category : Nat) : Prop :=
  ∃ n ∈ u.svc.news, n.rep = rep ∧ n.entry.kind = 5 ∧ n.entry.code = category ∧ n.err.isSome = true

/-- The mailbox has taken a command: it is busy, the command is the last one, and the black box records it (R91, R99). -/
def taken (s : State) (cmd : Nat) : State :=
  blackBox { s with svc := { s.svc with busy := true, lastCmd := cmd } } { kind := 10, code := cmd }

/-- A command that is taken ends at once with a code: the mailbox is free again, and E holds of the state it leaves. -/
def Ends (i : Instr) (cmd code : Nat) (s : State) (E : State → Prop) : Prop :=
  s.svc.busy = false → Leads i s fun u => u.svc.busy = false ∧ u.svc.code = code ∧ u.svc.lastCmd = cmd ∧ E u

/-- A command that is taken goes on: the mailbox stays busy, and E holds. -/
def GoesOn (i : Instr) (cmd : Nat) (s : State) (E : State → Prop) : Prop :=
  s.svc.busy = false → Leads i s fun u => u.svc.busy = true ∧ u.svc.lastCmd = cmd ∧ E u

end Sys2Proof.Machine
end

