-- ==== Sys2Proof/Certificates/Slice0/Obligations.lean ====
section
/-! DEFINITION. The statements for the provers. -/

open Sys2Proof Sys2Proof.Machine

/-! ## Words of registers -/

/-- IADD, ISUB, IMUL, IMULH, IMIN, IMAX, IABS and INEG (R323, R326, R328): D takes the exact result of the operands read under the
type, clamped under .sat (MOD bit 0) or taken modulo 2^W; IMULH takes its upper half.
IMAD, DP4 and LEA (R328–R330). IMAD forms the product exactly under the type and adds C, at 64 bits under .wide (MOD bit 1); DP4
sums four products of bytes, each signed or unsigned by SUB, with C in the c form; LEA shifts A, widened by sign under .sx or by
zero under .zx, and adds B, with C in the c form. -/
def Obligations.IntegerArithmetic : Prop :=
  (∀ w : Insn, let sat := bit w.mod.toNat 0
    let T := fun op => tyD op w
    let W := fun op => tyBits (tyD op w)
    let I := fun op => asInt (tyD op w)
    ComputesAs .iadd 0x00 w (T 0) (opsAB 0 w) (onAB (T 0) w fun a b => intResult (T 0) (W 0) sat (I 0 a + I 0 b)) ∧
    ComputesAs .isub 0x01 w (T 1) (opsAB 1 w) (onAB (T 1) w fun a b => intResult (T 1) (W 1) sat (I 1 a - I 1 b)) ∧
    ComputesAs .imul 0x04 w (T 4) (opsAB 4 w) (onAB (T 4) w fun a b => a * b % 2 ^ W 4) ∧
    ComputesAs .imulh 0x05 w (T 5) (opsAB 5 w) (onAB (T 5) w fun a b => wrap (W 5) (I 5 a * I 5 b / (2 ^ W 5 : Nat))) ∧
    ComputesAs .iabs 0x07 w (T 7) (opsA 7 w) (onA (T 7) w fun a => intResult (T 7) (W 7) sat (I 7 a).natAbs) ∧
    ComputesAs .ineg 0x08 w (T 8) (opsA 8 w) (onA (T 8) w fun a => intResult (T 8) (W 8) sat (-I 8 a)) ∧
    ComputesAs .imin 0x09 w (T 9) (opsAB 9 w) (onAB (T 9) w fun a b => if I 9 a ≤ I 9 b then a else b) ∧
    ComputesAs .imax 0x0A w (T 10) (opsAB 10 w) (onAB (T 10) w fun a b => if I 10 a ≥ I 10 b then a else b)) ∧
  ((∀ w : Insn, let t := tyD 6 w
    let tc := if bit w.mod.toNat 1 then widen t else t
    ComputesAs .imad 0x06 w tc (opsABC 6 w) fun s i L =>
      intResult tc (tyBits tc) (bit w.mod.toNat 0) (asInt t (srcA t w s i L) * asInt t (srcB t w s i L) + asInt tc (srcC tc w s i L))) ∧
  (∀ w : Insn, let byte := fun (x k : Nat) (u : Bool) => if u then (x / 256 ^ k % 256 : Int) else sext 8 (x / 256 ^ k)
    let dot := fun a b (c : Int) => intResult .i32 32 (bit w.mod.toNat 0) (c +
      byte a 0 (bit w.sub.toNat 0) * byte b 0 (bit w.sub.toNat 1) + byte a 1 (bit w.sub.toNat 0) * byte b 1 (bit w.sub.toNat 1) +
      byte a 2 (bit w.sub.toNat 0) * byte b 2 (bit w.sub.toNat 1) + byte a 3 (bit w.sub.toNat 0) * byte b 3 (bit w.sub.toNat 1))
    (w.form = .c → ComputesAs .dp4 0x0B w .i32 (opsABC 11 w) (onABC .i32 w fun a b c => dot a b (sext 32 c))) ∧
    (w.form ≠ .c → ComputesAs .dp4 0x0B w .i32 (opsAB 11 w) (onAB .i32 w fun a b => dot a b 0))) ∧
  (∀ w : Insn, let t := tyD 12 w
    let ta := if w.mod.toNat = 0 then t else .b32
    let sum := fun (a b c : Nat) => wrap (tyBits t) ((if w.mod.toNat = 1 then sext 32 a else (a : Int)) * (2 ^ w.sub.toNat : Nat) + b + c)
    (w.form = .c → ComputesAs .lea 0x0C w t (opsABC 12 w) fun s i L => sum (srcA ta w s i L) (srcB t w s i L) (srcC t w s i L)) ∧
    (w.form ≠ .c → ComputesAs .lea 0x0C w t (opsAB 12 w) fun s i L => sum (srcA ta w s i L) (srcB t w s i L) 0)))

/-- IADDC and ISUBB (R327, R324): x is the exact sum or difference of A, B and the carry; D takes x modulo 2^W and Pco the carry
x ≥ 2^W or the borrow x < 0, in every executing lane. In a scalar form the carry is that of the lowest executing lane. -/
def Obligations.CarryChains : Prop :=
  ∀ (w : Insn) (s : State) (i : Iss), let p := xmod w % 16
    let gb := fun op L => inMask i.gg L || guessOf s i (opA w) (spanA op w) L || guessOf s i (opB w) (spanB op w) L || guessOf s i (opC w) 1 L
    let at_ := fun L => if scalarForm w then (lanesOf i.ex).headD 0 else L
    let goes := fun (op : Nat) (e : Host.Outcome State Fault Refusal) (x : Nat → Int) (out : Int → Bool) =>
      Issues op w noBump s i → (scalarForm w = true → escapes s i true [(opC w, 1)] = 0) →
      ∃ t, e = .next t ∧ SameElse s t i.b i.g ∧ SameTraps (s.group i.b i.g) (t.group i.b i.g) ∧ FallsThrough s i t ∧
        SameRegs (s.group i.b i.g) (t.group i.b i.g) [(tyD op w, opD w), (.b32, .p p)] i.ex i.gg ∧
        ∀ L, L < 32 → inMask i.ex L = true →
          (opD w ≠ .p p → Gets (t.group i.b i.g) i.ex (tyD op w) (opD w) L (wrap (tyBits (tyD op w)) (x (at_ L))) (gb op L)) ∧
          Gets (t.group i.b i.g) i.ex .b32 (.p p) L (b2n (out (x (at_ L)))) (gb op L)
    goes 2 (exec (.iaddc w) s) (fun L => (srcA (tyD 2 w) w s i L : Int) + srcB (tyD 2 w) w s i L + srcC (tyD 2 w) w s i L)
      (fun x => decide ((2 ^ tyBits (tyD 2 w) : Nat) ≤ x)) ∧
    goes 3 (exec (.isubb w) s) (fun L => (srcA (tyD 3 w) w s i L : Int) - srcB (tyD 3 w) w s i L - srcC (tyD 3 w) w s i L)
      (fun x => decide (x < 0))

/-- SHL, SHR, SHRA and FSHF (R334): the amount n is B's bits 31:0 (C's in FSHF), taken modulo W under .wrap (MOD bit 0). SHL and SHR
give 0 for n ≥ W, SHRA the sign; FSHF shifts B × 2^32 + A by at most 32. -/
def Obligations.Shifts : Prop :=
  ∀ w : Insn, let wr := bit w.mod.toNat 0
    let T := fun op => tyD op w
    let W := fun op => tyBits (tyD op w)
    let n := fun (op : Nat) (b : Nat) => if wr then b % W op else b
    ComputesAs .shl 0x10 w (T 16) (opsAB 16 w) (fun s i L => let a := srcA (T 16) w s i L; let k := n 16 (srcB .b32 w s i L)
      if W 16 ≤ k then 0 else a * 2 ^ k % 2 ^ W 16) ∧
    ComputesAs .shr 0x11 w (T 17) (opsAB 17 w) (fun s i L => let a := srcA (T 17) w s i L; let k := n 17 (srcB .b32 w s i L)
      if W 17 ≤ k then 0 else a / 2 ^ k) ∧
    ComputesAs .shra 0x12 w (T 18) (opsAB 18 w) (fun s i L => let a := srcA (T 18) w s i L; let k := n 18 (srcB .b32 w s i L)
      wrap (W 18) (sext (W 18) a / (2 ^ min k (W 18) : Nat))) ∧
    ComputesAs .fshf 0x13 w .b32 (opsABC 19 w) (onABC .b32 w fun a b c => let k := if wr then c % 32 else min c 32
      if w.sub.toNat = 1 then (b * 2 ^ 32 + a) / 2 ^ k % 2 ^ 32 else (b * 2 ^ 32 + a) * 2 ^ k % 2 ^ 64 / 2 ^ 32)

/-- BFUNC, BFX and BFI (R335, R336). Bit k of BFUNC's D is bit A[k] + 2 B[k] + 4 C[k] of the map, and its guess bit joins all three
sources'. Only the low 8 bits of a position and of a length count; a length of 0 or a position past the width gives 0, or A under BFI;
BFX extends the field under the type, BFI replaces it by the low bits of B. -/
def Obligations.BitFields : Prop :=
  ∀ w : Insn, let T := fun op => tyD op w
    let W := fun op => tyBits (tyD op w)
    let field := fun (t : Ty) (a pos len : Nat) => let n := min (len % 256) (tyBits t - pos % 256)
      if len % 256 = 0 ∨ tyBits t ≤ pos % 256 then 0
      else if isI t then wrap (tyBits t) (sext n (a / 2 ^ (pos % 256) % 2 ^ n)) else a / 2 ^ (pos % 256) % 2 ^ n
    ComputesAs .bfunc 0x18 w (T 24) (opsABC 24 w) (onABC (T 24) w fun a b c =>
      ((List.range (W 24)).map fun k => if bit (xmod w % 256) (b2n (bit a k) + 2 * b2n (bit b k) + 4 * b2n (bit c k)) then 2 ^ k else 0).sum) ∧
    (w.form = .c → ComputesAs .bfx 0x1C w (T 28) (opsABC 28 w) (onABC (T 28) w fun a b c => field (T 28) a b c)) ∧
    (w.form ≠ .c → ComputesAs .bfx 0x1C w (T 28) (opsAB 28 w) (onAB (T 28) w fun a b => field (T 28) a b (b / 256))) ∧
    ComputesAs .bfi 0x1D w (T 29) (opsABC 29 w) (onABC (T 29) w fun a b c =>
      let pos := c % 256; let len := c / 256 % 256; let n := min len (W 29 - pos)
      if len = 0 ∨ W 29 ≤ pos then a else a % 2 ^ pos + b % 2 ^ n * 2 ^ pos + a / 2 ^ (pos + n) * 2 ^ (pos + n))

/-- AND, OR, XOR, NOT, POPC, CLZ and BREV (R333).
MOV between registers and predicates, MOVI, ICMP, FCMP, PLOP and SEL (R331, R332, R337–R339). A compare is combined with D's old
value by MOD, whose guess bit then joins. SEL takes the guess bit of the chosen source with C's. -/
def Obligations.BitsMovesAndCompares : Prop :=
  (∀ w : Insn, let T := fun op => tyD op w
    let W := fun op => tyBits (tyD op w)
    ComputesAs .and 0x14 w (T 20) (opsAB 20 w) (onAB (T 20) w fun a b => a &&& b) ∧
    ComputesAs .or 0x15 w (T 21) (opsAB 21 w) (onAB (T 21) w fun a b => a ||| b) ∧
    ComputesAs .xor 0x16 w (T 22) (opsAB 22 w) (onAB (T 22) w fun a b => a ^^^ b) ∧
    ComputesAs .not 0x17 w (T 23) (opsA 23 w) (onA (T 23) w fun a => 2 ^ W 23 - 1 - a % 2 ^ W 23) ∧
    ComputesAs .popc 0x19 w .b32 (opsA 25 w) (onA (T 25) w fun a => ((List.range (W 25)).filter (bit a)).length) ∧
    ComputesAs .clz 0x1A w .b32 (opsA 26 w) (onA (T 26) w fun a => if a = 0 then W 26 else W 26 - 1 - Nat.log2 a) ∧
    ComputesAs .brev 0x1B w (T 27) (opsA 27 w) (onA (T 27) w fun a =>
      ((List.range (W 27)).map fun k => if bit a (W 27 - 1 - k) then 2 ^ k else 0).sum)) ∧
  (∀ w : Insn,
    ((∀ n, opA w ≠ .q n) → (∀ n, opD w ≠ .q n) → ComputesAs .mov 0x0D w (tyD 13 w) (opsA 13 w) (onA (tyD 13 w) w id)) ∧
    ComputesAs .movi 0x0E w (tyD 14 w) [] (fun _ _ _ => imm32 (tyD 14 w) (w.ext.toNat % 2 ^ 32)) ∧
    (let t := tyD 0x30 w
     let old := if w.mod.toNat = 0 then [] else [(opD w, 1)]
     ComputesAs .icmp 0x30 w .b32 (opsAB 0x30 w ++ old) fun s i L =>
      let a := asInt t (srcA t w s i L)
      let b := asInt t (srcB t w s i L)
      let r := match w.sub.toNat with | 0 => decide (a = b) | 1 => decide (a ≠ b) | 2 => decide (a < b) | 3 => decide (a ≤ b)
                                      | 4 => decide (b < a) | _ => decide (b ≤ a)
      b2n (combine w.mod.toNat ((valOf s i .b32 (opD w) L).1 == 1) r)) ∧
    (let t := tyD 0x31 w
     let old := if w.mod.toNat = 0 then [] else [(opD w, 1)]
     ComputesAs .fcmp 0x31 w .b32 (opsAB 0x31 w ++ old) fun s i L =>
      b2n (combine w.mod.toNat ((valOf s i .b32 (opD w) L).1 == 1)
        (fcmpCond w.sub.toNat (decodeF (fmtOf t) (srcA t w s i L)) (decodeF (fmtOf t) (srcB t w s i L))))) ∧
    ComputesAs .plop 0x32 w .b32 (opsABC 0x32 w) (onABC .b32 w fun a b c => b2n (bit (xmod w % 256) (b2n (a == 1) + 2 * b2n (b == 1) + 4 * b2n (c == 1)))) ∧
    (∀ s i, Issues 0x33 w noBump s i → ∃ t, exec (.sel w) s = .next t ∧
      let c := fun L => srcC .b32 w s i L == 1
      Computes s i (tyD 0x33 w) (opD w) (fun L => if c L then srcA (tyD 0x33 w) w s i L else srcB (tyD 0x33 w) w s i L)
        (fun L => inMask i.gg L || guessOf s i (opC w) 1 L ||
          (if c L then guessOf s i (opA w) (spanA 0x33 w) L else guessOf s i (opB w) (spanB 0x33 w) L)) t))

/-- FADD, FSUB, FMUL, FFMA, the double forms DADD, DMUL, DFMA, and the four on packed 8-bit elements (R347–R350, R355): each element is
the exact result of the decoded operands rounded once by the mode of MOD bits 1:0, saturated under .sat. FFMA is a single rounding
of A × B + C.
A rounded word with a non-finite result under .tnf (R237, R258, R349): the lanes concerned write nothing and raise NONFINITE at the
word's address with FAULT_MASK those lanes, while the others complete. Of FADD's V forms; the group is not in trap mode. -/
def Obligations.FloatArithmetic : Prop :=
  (∀ w : Insn, let T := fun op => tyD op w
    let m := w.mod.toNat % 4
    let sat := bit w.mod.toNat 2
    let two := fun (f : Nat → Fv → Fv → Fv) (op : Nat) (s : State) (i : Iss) (L : Nat) =>
      arith2 f (T op) m sat (srcA (T op) w s i L) (srcB (T op) w s i L)
    let three := fun (op : Nat) (s : State) (i : Iss) (L : Nat) =>
      fma (T op) m sat (srcA (T op) w s i L) (srcB (T op) w s i L) (srcC (T op) w s i L)
    RoundsAs .fadd 0x40 w (T 0x40) (opsAB 0x40 w) (two addOp 0x40) ∧ RoundsAs .fsub 0x41 w (T 0x41) (opsAB 0x41 w) (two subOp 0x41) ∧
    RoundsAs .fmul 0x42 w (T 0x42) (opsAB 0x42 w) (two mulOp 0x42) ∧ RoundsAs .ffma 0x43 w (T 0x43) (opsABC 0x43 w) (three 0x43) ∧
    RoundsAs .dadd 0x50 w (T 0x50) (opsAB 0x50 w) (two addOp 0x50) ∧ RoundsAs .dmul 0x51 w (T 0x51) (opsAB 0x51 w) (two mulOp 0x51) ∧
    RoundsAs .dfma 0x52 w (T 0x52) (opsABC 0x52 w) (three 0x52) ∧
    RoundsAs .faddPacked8 0x68 w (T 0x68) (opsAB 0x68 w) (two addOp 0x68) ∧ RoundsAs .fsubPacked8 0x69 w (T 0x69) (opsAB 0x69 w) (two subOp 0x69) ∧
    RoundsAs .fmulPacked8 0x6A w (T 0x6A) (opsAB 0x6A w) (two mulOp 0x6A) ∧ RoundsAs .ffmaPacked8 0x6B w (T 0x6B) (opsABC 0x6B w) (three 0x6B)) ∧
  (∀ (w : Insn) (s : State) (i : Iss) (n : Nat), let t := tyD 0x40 w
    let r := fun L => arith2 addOp t (w.mod.toNat % 4) (bit w.mod.toNat 2) (srcA t w s i L) (srcB t w s i L)
    Issues 0x40 w noBump s i → opD w = .v n → bit w.mod.toNat 3 = true → (∃ L, L < 32 ∧ inMask i.ex L = true ∧ (r L).2 = true) →
    ∃ u, exec (.fadd w) s = .next u ∧
      (let q := u.group i.b i.g
       let bad := maskOf fun L => inMask i.ex L && (r L).2
       q.trapCause = 0x0E ∧ q.trapPc = w64 i.pc ∧ q.faultMask = bad ∧ q.causeMask = bad ∧
       (∀ L, L < 32 → inMask bad L = true → q.vReg n L = (s.group i.b i.g).vReg n L ∧ q.vGuess n L = (s.group i.b i.g).vGuess n L) ∧
       (∀ L, L < 32 → inMask i.ex L = true → (r L).2 = false → q.vReg n L = w32 (r L).1) ∧
       u.mem = (tableRead s i.b i.g 0x0E).mem))

/-- FMIN and FMAX with their packed forms, FCLASS, and the special functions (R351–R355): a minimum or maximum selects an operand; a
special function gives the model's value of it, rounded once by the mode, whose choice within the accuracy of R353 and R354 is a free value
(log entry 3); the accuracy itself is no part of the statement. -/
def Obligations.FloatSelectionAndSpecialFunctions : Prop :=
  ∀ w : Insn, let T := fun op => tyD op w
    let pick := fun (big : Bool) (op : Nat) (s : State) (i : Iss) (L : Nat) =>
      minmax (T op) big (w.sub.toNat == 1) (srcA (T op) w s i L) (srcB (T op) w s i L)
    let fn := fun (op : Nat) (s : State) (i : Iss) (L : Nat) => special op (T op) (w.mod.toNat % 4) (bit w.mod.toNat 2) (srcA (T op) w s i L)
    RoundsAs .fmin 0x44 w (T 0x44) (opsAB 0x44 w) (pick false 0x44) ∧ RoundsAs .fmax 0x45 w (T 0x45) (opsAB 0x45 w) (pick true 0x45) ∧
    RoundsAs .fminPacked8 0x6C w (T 0x6C) (opsAB 0x6C w) (pick false 0x6C) ∧ RoundsAs .fmaxPacked8 0x6D w (T 0x6D) (opsAB 0x6D w) (pick true 0x6D) ∧
    ComputesAs .fclass 0x46 w .b32 (opsA 0x46 w) (onA (T 0x46) w (classOf (fmtOf (T 0x46)))) ∧
    RoundsAs .frcp 0x58 w (T 0x58) (opsA 0x58 w) (fn 0x58) ∧ RoundsAs .frsq 0x59 w (T 0x59) (opsA 0x59 w) (fn 0x59) ∧
    RoundsAs .fsqrt 0x5A w (T 0x5A) (opsA 0x5A w) (fn 0x5A) ∧ RoundsAs .fex2 0x5B w (T 0x5B) (opsA 0x5B w) (fn 0x5B) ∧
    RoundsAs .flg2 0x5C w (T 0x5C) (opsA 0x5C w) (fn 0x5C) ∧ RoundsAs .fsin 0x5D w (T 0x5D) (opsA 0x5D w) (fn 0x5D) ∧
    RoundsAs .fcos 0x5E w (T 0x5E) (opsA 0x5E w) (fn 0x5E) ∧ RoundsAs .ftanh 0x5F w (T 0x5F) (opsA 0x5F w) (fn 0x5F)

/-- CVT and SCALE (R356–R359): through the format slot that SUB names, .enc packs n elements of the n registers from A into D and
.dec unpacks A into n registers from D, SCALE dividing or multiplying by the block scale of B and adding C where the word has one;
SCALE.mk makes the scale of a block from its absolute maximum.
CVTI, FRND, PACK and UNPK (R360–R363): conversion to an integer or a width by one rounding, rounding to an integral value,
narrowing with a clamp, and the element q of A, extended.
Where it rests on a choice or a reading of the model, that is log entry 62. -/
def Obligations.Conversions : Prop :=
  (∀ w : Insn, let n := countOf w
    let slot := fun (s : State) (i : Iss) => slotD s i.b w.sub.toNat
    let tnf := fun s i => slotTnf (slot s i)
    let a := fun (s : State) (i : Iss) (L j : Nat) => val32 s i (opPlus j (opA w)) L
    let pack := fun (d : Nat) (es : List Rounded) => packElems (fmtBits (slotFmt d)) es
    (w.mod.toNat = 0 → RegistersAs .cvt 0x60 w 1 tnf [(opA w, n)] fun s i L =>
      [pack (slot s i) ((List.range n).map fun j => encElem (slot s i) (a s i L j) none)]) ∧
    (w.mod.toNat ≠ 0 → RegistersAs .cvt 0x60 w n tnf [(opA w, 1)] fun s i L =>
      (List.range n).map fun j => decElem (slot s i) (slotElem (slot s i) (a s i L 0) j)) ∧
    (w.mod.toNat = 0 → RegistersAs .scale 0x64 w 1 tnf [(opA w, n), (opB w, 1)] fun s i L =>
      [pack (slot s i) ((List.range n).map fun j => encElem (slot s i) (a s i L j) (some (scaleOf (srcB .f32 w s i L))))]) ∧
    (w.mod.toNat = 1 → w.form = .c → RegistersAs .scale 0x64 w n tnf [(opA w, 1), (opB w, 1), (opC w, 1)] fun s i L =>
      (List.range n).map fun j => decScaled (slot s i) (slotElem (slot s i) (a s i L 0) j) (scaleOf (srcB .f32 w s i L))
        (some (readFtz (slotFtz (slot s i)) .f32 (srcC .f32 w s i L)))) ∧
    (w.mod.toNat = 1 → w.form ≠ .c → RegistersAs .scale 0x64 w n tnf [(opA w, 1), (opB w, 1)] fun s i L =>
      (List.range n).map fun j => decScaled (slot s i) (slotElem (slot s i) (a s i L 0) j) (scaleOf (srcB .f32 w s i L)) none) ∧
    (w.mod.toNat = 2 → RegistersAs .scale 0x64 w 1 tnf [(opA w, 1)] fun s i L => [mkScale (slot s i) (a s i L 0)])) ∧
  (∀ w : Insn, let nar := fun (k x : Nat) => match w.sub.toNat with
      | 1 => wrap k (clampS k (sext 32 x)) | 2 => wrap k (clampU k (sext 32 x)) | _ => x % 2 ^ k
    let narrowed := fun (a b c : Nat) => if w.ty.toNat = 1 then nar 16 a + 2 ^ 16 * nar 16 b else nar 8 a + 2 ^ 8 * nar 8 b + 2 ^ 16 * (c % 2 ^ 16)
    ComputesAs .cvti 0x61 w (cvtiTypes w).2 (opsA 0x61 w) (onA (cvtiTypes w).1 w (cvtiFn w.sub.toNat (w.mod.toNat % 4) (cvtiTypes w).1 (cvtiTypes w).2)) ∧
    ComputesAs .frnd 0x65 w (fpxOf w) (opsA 0x65 w) (onA (fpxOf w) w (frnd (fmtOf (fpxOf w)) (w.mod.toNat % 4))) ∧
    (w.form = .c → ComputesAs .pack 0x62 w .b32 (opsABC 0x62 w) (onABC .b32 w narrowed)) ∧
    (w.form ≠ .c → ComputesAs .pack 0x62 w .b32 (opsAB 0x62 w) (onAB .b32 w fun a b => narrowed a b 0)) ∧
    ComputesAs .unpk 0x63 w .b32 (opsAB 0x63 w) (onAB .b32 w fun a b => let t := tyD 0x63 w
      let x := a / 2 ^ (tyBits t * (b % (32 / tyBits t))) % 2 ^ tyBits t
      if isI t then wrap 32 (sext (tyBits t) x) else x))

/-- The pair word (R299–R302): both operations read their sources before either writes; each writes its destination in the lanes its own
guard lets execute; the two destinations differ. It completes so where no executing lane is non-finite under .tnf. -/
def Obligations.PairWords : Prop :=
  ∀ (p : Pair) (s : State) (i : Iss), let w1 := compactInsn p.first
    let w2 := compactInsn p.second
    let os : List Oper := [{ op := p.first.cop.toNat, w := w1 }, { op := p.second.cop.toNat, w := w2 }]
    issOf s 16 = some i → notReady s i.b i.g = false → ((lanesOf i.iss).any fun L => ((s.group i.b i.g).lane L).refuted.isSome) = false →
    ((pairChecks p).all fun c => c.2) = true → stage1a s i os = none → scoreHeld s i os = false → acqHeld s i = false → stage1b s i os 0 = none →
    let i1 := withGuard s i p.first.g
    let i2 := withGuard s i p.second.g
    let at1 := fun L => compactAt p.first.cop.toNat w1 s i1 L
    let at2 := fun L => compactAt p.second.cop.toNat w2 s i2 L
    (∀ L, L < 32 → inMask i1.ex L = true → compactTnf p.first.cop.toNat w1 = true → (at1 L).2 = false) →
    (∀ L, L < 32 → inMask i2.ex L = true → compactTnf p.second.cop.toNat w2 = true → (at2 L).2 = false) →
    ∃ u, exec (.pairWord p) s = .next u ∧ FallsThrough s i u ∧ SameElse s u i.b i.g ∧ SameTraps (s.group i.b i.g) (u.group i.b i.g) ∧
      (u.group i.b i.g).preds = (s.group i.b i.g).preds ∧ (u.group i.b i.g).sregs = (s.group i.b i.g).sregs ∧
      ∀ n L, L < 32 → (u.group i.b i.g).vReg n L =
        if n = p.first.d.toNat ∧ inMask i1.ex L = true then w32 (at1 L).1
        else if n = p.second.d.toNat ∧ inMask i2.ex L = true then w32 (at2 L).1 else (s.group i.b i.g).vReg n L

/-! ## Control, traps and system words -/

/-- BRA, BRX, CALL and RET (R132, R340, R341): where every executing lane's target lies below 2^48 and on a word, the executing lanes
go to their targets and the others fall through; LAP rises by 1 for a target at or below the word, pad words passed over; CALL also
gives D the address pc + 12. A guessed guard is allowed under a guess-bound node (R227, R346), a guessed target register never.
A transfer whose target is bad in some executing lane (R258, R340): those lanes raise ADDRESS for a target at or above 2^48, MISALIGN
for one off a word, the lower code deciding; the lanes with valid targets go to them. Of BRX outside trap mode, no guess in it.
Where it rests on a choice or a reading of the model, that is log entries 15 and 17. -/
def Obligations.Transfers : Prop :=
  (∀ w : Insn,
    let rel := fun (i : Iss) (_ : Nat) => (((i.pc : Int) + sext 32 w.ext.toNat) % (2 ^ 64 : Nat)).toNat
    let open_ := fun (tgt : State → Iss → Nat → Nat) (ops : List (Opd × Nat)) (s : State) (i : Iss) => ∀ L, L < 32 → inMask i.ex L = true →
      (inMask i.gg L = true → underBound s i L = true) ∧ (ops.all fun o => !guessOf s i o.1 o.2 L) = true ∧
      tgt s i L < 2 ^ 48 ∧ tgt s i L % 4 = 0
    let gone := fun (tgt : State → Iss → Nat → Nat) (ds : List (Ty × Opd)) (s : State) (i : Iss) (u : State) =>
      Quiet s i ds u ∧ OthersFall s i u ∧ StandAt s u i i.ex (tgt s i) ∧
      LapRises s u i fun L => if inMask i.ex L && decide (landing s i.b (tgt s i L) ≤ i.pc) then 1 else 0
    let r := fun (_ : State) => rel
    let a := fun s i L => srcA .b64 w s i L
    Runs .bra 0x20 w (backward (relTarget w)) (open_ r []) (gone r []) ∧
    Runs .brx 0x21 w (backward (regTarget w)) (open_ a [(opA w, 2)]) (gone a []) ∧
    Runs .call 0x22 w (backward (relTarget w)) (open_ r []) (fun s i u => gone r [(.b64, opD w)] s i u ∧
      ∀ L, L < 32 → inMask i.ex L = true → Gets (u.group i.b i.g) i.ex .b64 (opD w) L (i.pc + 12) (inMask i.gg L)) ∧
    Runs .ret 0x23 w (backward (regTarget w)) (open_ a [(opA w, 2)]) (gone a [])) ∧
  (∀ w : Insn, let t := fun s i L => srcA .b64 w s i L
    let bad := fun s i L => decide (2 ^ 48 ≤ t s i L) || decide (t s i L % 4 ≠ 0)
    Runs .brx 0x21 w (backward (regTarget w))
      (fun s i => Plain [(opA w, 2)] s i ∧ (s.group i.b i.g).trapMode = false ∧ ∃ L, L < 32 ∧ inMask i.ex L = true ∧ bad s i L = true)
      fun s i u =>
        let q := u.group i.b i.g
        let far := fun L => inMask i.ex L && decide (2 ^ 48 ≤ t s i L)
        q.faultMask = maskOf (fun L => inMask i.ex L && bad s i L) ∧ q.trapPc = w64 i.pc ∧
        (if (lanes32.any far) = true then q.trapCause = 0x06 ∧ q.causeMask = maskOf far ∧ u.mem = (tableRead s i.b i.g 0x06).mem
         else q.trapCause = 0x07 ∧ (q.causeMask = maskOf fun L => inMask i.ex L && bad s i L) ∧ u.mem = (tableRead s i.b i.g 0x07).mem) ∧
        RegsKept (s.group i.b i.g) q ∧
        ∀ L, L < 32 → inMask i.ex L = true → bad s i L = false → (laneAt u i L).lpc = w64 (landing s i.b (t s i L)))

/-- EXIT, YIELD and NOP (R118, R129, R342, R344). EXIT takes the executing lanes out of LIVE and lets the others fall through; no
register changes, and no byte of memory where it does not end a trap mode, whose return may read code (R428). YIELD and NOP fall through; YIELD gives up the group's next turn, as bit Y of any word does.
REJOIN (R133, R343): an executing lane parks with its mask; where every other live lane of its mask has arrived at the same
REJOIN, and is neither refuted (R223) nor held by a trap of the group (R263), the lane goes on at once. The lanes whose guard is false fall
through.
IPOP (R115, R345): with an item for each executing lane, they take the oldest items in ascending lane id into D and ITEM and go to
the item head; with none left in the context they fall through, D unchanged; with none at hand but more to come they park. -/
def Obligations.LanesStayWaitAndLeave : Prop :=
  (∀ w : Insn,
    Runs .exit 0x24 w noBump (Plain []) (fun s i u => (u.group i.b i.g).live = (s.group i.b i.g).live &&& ~~~i.ex ∧
      OthersFall s i u ∧ (∀ k j, RegsKept (s.group k j) (u.group k j)) ∧ (let q := s.group i.b i.g
        q.trapMode = false ∨ q.handlerSet &&& q.live &&& ~~~(q.rteHeld ||| i.ex) ≠ 0 → u.mem = s.mem ∧ u.hostMem = s.hostMem)) ∧
    Runs .yield 0x26 w noBump (fun _ _ => True) (fun s i u => Quiet s i [] u ∧ FallsThrough s i u ∧ (u.group i.b i.g).yielded = true) ∧
    Runs .nop 0x27 w noBump (fun _ _ => True) (fun s i u => Quiet s i [] u ∧ FallsThrough s i u ∧ (u.group i.b i.g).yielded = (w.y == 1))) ∧
  (∀ w : Insn, Runs .rejoin 0x25 w noBump (Plain []) fun s i u =>
    let q := s.group i.b i.g
    let here := fun k => inMask i.ex k || (inMask q.live k && (q.lane k).park.cause == 5 && (q.lane k).lpc == w64 i.pc &&
      (q.lane k).refuted.isNone && (!q.trapMode || (inMask q.handlerSet k && !inMask q.rteHeld k)))
    let met := fun L => ∀ k, k < 32 → k ≠ L → bit (srcA .b32 w s i L) k = true → inMask q.live k = true → here k = true
    OthersFall s i u ∧ u.mem = s.mem ∧ RegsKept q (u.group i.b i.g) ∧ ∀ L, L < 32 → inMask i.ex L = true →
      (met L → (laneAt u i L).park = {} ∧ (laneAt u i L).lpc = w64 (landing s i.b (i.pc + 8))) ∧
      (¬met L → ParkedAs s u i L 5 0 (w64 (srcA .b32 w s i L)))) ∧
  (∀ w : Insn,
    Runs .ipop 0x28 w ipopServed (fun s i => Plain [] s i ∧ (lanesOf i.ex).length ≤ (itemsOf s i.b).length) (fun s i u =>
      OthersFall s i u ∧ SameRegs (s.group i.b i.g) (u.group i.b i.g) [(.b32, opD w)] i.ex i.gg ∧ itemsOf u i.b = (itemsOf s i.b).drop (lanesOf i.ex).length ∧ u.mem = s.mem ∧
      ∀ (k L x : Nat), (lanesOf i.ex)[k]? = some L → (itemsOf s i.b)[k]? = some x →
        Gets (u.group i.b i.g) i.ex .b32 (opD w) L (x % 2 ^ 32) false ∧ (laneAt u i L).item = w64 x ∧
        (laneAt u i L).lpc = w64 (landing s i.b ((recordOf s i.b).entry + (recordOf s i.b).itemHead))) ∧
    Runs .ipop 0x28 w ipopServed (fun s i => Plain [] s i ∧ itemsOf s i.b = [] ∧ exhausted s i.b = true)
      (fun s i u => FallsThrough s i u ∧ u.mem = s.mem ∧ SameRegs (s.group i.b i.g) (u.group i.b i.g) [(.b32, opD w)] 0 i.gg) ∧
    Runs .ipop 0x28 w ipopServed (fun s i => Plain [] s i ∧ itemsOf s i.b = [] ∧ exhausted s i.b = false)
      (fun s i u => OthersFall s i u ∧ ∀ L, L < 32 → inMask i.ex L = true → ParkedAs s u i L 2 0 0))

/-- Taking a trap where the handler of its cause is at h (R257, R262, R263): the record is written and the lanes of FAULT_MASK enter the
handler. No register changes; memory is what the reads of the trap table leave, which may mark page-table entries (R153). FAULT_VA is no
part of the statement. -/
def Obligations.TrapEntry : Prop :=
  ∀ (s : State) (b g pc h : Nat) (t : TrapReq), (s.group b g).trapMode = false → handlerOf s b t.cause = .ok (some h) →
    (∀ L, L < 32 → inMask t.fm L = true → ((s.group b g).lane L).lap + 1 < 2 ^ 32) →
    let u := takeTrap s b g pc t
    Entered (tableRead s b g t.cause) u b g h t.fm ∧ (u.group b g).trapCause = w64 (t.eseq % 2 ^ 32 * 2 ^ 32 + t.detail % 256 * 256 + t.cause) ∧
    (u.group b g).trapPc = w64 pc ∧ (u.group b g).faultMask = t.fm ∧ (u.group b g).causeMask = t.cm ∧
    RegsKept (s.group b g) (u.group b g) ∧ (u.group b g).live = (s.group b g).live ∧
    u.mem = (tableRead s b g t.cause).mem ∧ u.hostMem = (tableRead s b g t.cause).hostMem

/-- The trap table (R262): the handler of a cause is the address in bits 63:2 of the entry at TRAP_TABLE + 8 × cause, where bit 0 of it
is set, else that of entry 0, where bit 0 of that is set, else there is none, as where TRAP_TABLE is 0; a fault in a read of the table
takes its place. A trap whose handler is found goes there; without one the context stops on the trap's own cause, and after a fault
in a read on the code of that fault. That a read of a page with V = 0 is such a fault, with the code of XLATE_ABORT, is the model's reading
(log entry 88).
Where it rests on a choice or a reading of the model, that is log entry 88. -/
def Obligations.TrapTable : Prop :=
  ∀ (s : State) (b g pc : Nat) (t : TrapReq),
    let base := (recordOf s b).trapTable
    let find := fun (n : Nat) => xlate s (s.block b).core (s.context (s.block b).ctx).part (base + 8 * n) .read false
    let word := fun (x : Xl) => if x.tier then ofLeBytes (hostBytes s x.pa 8) else memRead s x.pa 8
    let u := takeTrap s b g pc t
    let stops := fun (code : Nat) => ∃ r, (u.context (s.block b).ctx).stop = some r ∧ r.cause = code
    (∀ cause, cause < 32 →
      (base = 0 → handlerOf s b cause = .ok none) ∧
      (∀ f, base ≠ 0 → find cause = .error f → handlerOf s b cause = .error (xfaultCode f)) ∧
      (∀ x, base ≠ 0 → find cause = .ok x → word x % 2 = 1 → handlerOf s b cause = .ok (some (word x - word x % 4))) ∧
      (∀ x f, base ≠ 0 → find cause = .ok x → word x % 2 = 0 → find 0 = .error f → handlerOf s b cause = .error (xfaultCode f)) ∧
      (∀ x y, base ≠ 0 → find cause = .ok x → word x % 2 = 0 → find 0 = .ok y →
        handlerOf s b cause = .ok (if word y % 2 = 1 then some (word y - word y % 4) else none))) ∧
    ((s.group b g).trapMode = false → (s.context (s.block b).ctx).stop = none →
      (∀ h, handlerOf s b t.cause = .ok (some h) → (∀ L, L < 32 → inMask t.fm L = true → ((s.group b g).lane L).lap + 1 < 2 ^ 32) →
        Entered (tableRead s b g t.cause) u b g h t.fm) ∧
      (handlerOf s b t.cause = .ok none → stops t.cause) ∧
      (∀ code, handlerOf s b t.cause = .error code → stops code))

/-- A trap in trap mode, or one without a handler, stops the context (R265): the record is written, every group of the context stops,
the STOP fields name the trap, and the context's resident gangs are to be saved. -/
def Obligations.UnhandledTrap : Prop :=
  ∀ (s : State) (b g pc : Nat) (t : TrapReq), ((s.group b g).trapMode = true ∨ handlerOf s b t.cause = .ok none) →
    let u := takeTrap s b g pc t
    let c := u.context (s.block b).ctx
    (u.group b g).trapCause = w64 (t.eseq % 2 ^ 32 * 2 ^ 32 + t.detail % 256 * 256 + t.cause) ∧ (u.group b g).trapPc = w64 pc ∧
    ((s.context (s.block b).ctx).stop = none →
      c.stop = some { cause := t.cause, detail := t.detail, pc := w64 pc, lcore := (s.block b).lcore, grp := g,
                        core := if (s.block b).resident then (s.block b).core else 0xFFFF } ∧
      ∀ k ∈ tkeys s.blocks, (s.block k).ctx = (s.block b).ctx → (s.block k).resident = true → (s.block k).gangSeq ∈ c.saving) ∧
    (∀ k j, k ∈ tkeys s.blocks → (s.block k).ctx = (s.block b).ctx → j ∈ tkeys (u.block k).groups → (u.group k j).stopped = true) ∧
    u.mem = (tableRead s b g t.cause).mem ∧ u.hostMem = (tableRead s b g t.cause).hostMem

/-- TRAP and BKPT (R427): where a lane executes, the executing lanes enter the handler of cause 0x18 or 0x19, with A in TRAP's DETAIL;
where none does, every lane falls through.
RTE and RTE.next (R428). While a live lane of the handler set is still to come, an executing lane waits at the word. With the last
one trap mode ends: a lane that executed RTE and is in FAULT_MASK goes back to TRAP_PC, any other past the instruction there, whose read marks
its page as a fetch does (R153). -/
def Obligations.SoftwareTrapsAndReturns : Prop :=
  (∀ w : Insn,
    let enters := fun (c : Insn → Instr) (op cause : Nat) => ∀ h, Runs c op w noBump
      (fun s i => Plain [] s i ∧ i.ex ≠ 0 ∧ (s.group i.b i.g).trapMode = false ∧ handlerOf s i.b cause = .ok (some h) ∧
        ∀ L, L < 32 → inMask i.ex L = true → (laneAt s i L).lap + 1 < 2 ^ 32)
      (fun s i u => Trapped s u i cause (w.a.toNat % 256) i.ex i.ex ∧ Entered (tableRead s i.b i.g cause) u i.b i.g h i.ex)
    let falls := fun (c : Insn → Instr) (op : Nat) => Runs c op w noBump (fun _ i => i.ex = 0)
      (fun s i u => Quiet s i [] u ∧ FallsThrough s i u)
    enters .trap 0xF2 0x18 ∧ falls .trap 0xF2 ∧ enters .bkpt 0xF6 0x19 ∧ falls .bkpt 0xF6) ∧
  (∀ w : Insn,
    let waits := fun (c : Insn → Instr) (nx : Bool) => Runs c 0xF3 w (rteBump nx)
      (fun s i => Plain [] s i ∧ let q := s.group i.b i.g; q.handlerSet &&& q.live &&& ~~~(q.rteHeld ||| i.ex) ≠ 0)
      (fun s i u => let q := u.group i.b i.g
        q.rteHeld = (s.group i.b i.g).rteHeld ||| i.ex ∧ q.trapMode = true ∧ OthersFall s i u ∧ SameElse s u i.b i.g ∧
        RegsKept (s.group i.b i.g) q ∧ ∀ L, L < 32 → inMask i.ex L = true → (laneAt u i L).lpc = w64 i.pc)
    let ends := fun (c : Insn → Instr) (nx : Bool) => ∀ w0, Runs c 0xF3 w (rteBump nx)
      (fun s i => Plain [] s i ∧ let q := s.group i.b i.g
        q.handlerSet &&& q.live &&& ~~~(q.rteHeld ||| i.ex) = 0 ∧ peekWord s i.b q.trapPc.toNat = some w0)
      (fun s i u => let q := s.group i.b i.g
        let len := if w0 % 4 = 3 then 4 else 8 + 4 * (w0 % 4)
        let past := fun L => (if inMask i.ex L then nx else inMask q.rteNextM L) || !inMask q.faultMask L
        let read := (lanesOf ((q.rteHeld ||| i.ex) &&& q.live)).any past
        (u.group i.b i.g).trapMode = false ∧ SameElse (if read then noteRte s i.b i.g else s) u i.b i.g ∧ RegsKept q (u.group i.b i.g) ∧
        ∀ L, L < 32 → inMask ((q.rteHeld ||| i.ex) &&& q.live) L = true →
          (laneAt u i L).lpc = w64 (landing s i.b (if past L then q.trapPc.toNat + len else q.trapPc.toNat)))
    waits .rte false ∧ waits .rteNext true ∧ ends .rte false ∧ ends .rteNext true)

/-- Privilege (R150, R256, R303, R424): RTE, RTE.next, TLBINV and SWR of TRAP_PC and FAULT_MASK outside trap mode raise PRIV_PATH in
every lane of the issue set. Registers stay, memory is what the reads of the trap table leave; TLBINV starts no invalidation: no
generation, no busy bit and no requester changes, and no translation leaves a core. -/
def Obligations.PrivilegeTrap : Prop :=
  ∀ (w : Insn) (s : State) (i : Iss), (s.group i.b i.g).trapMode = false →
    let stops := fun (c : Insn → Instr) (op : Nat) => ReachesPrivilege op w s i → ∃ u, exec (c w) s = .next u ∧ Trapped s u i 0x05 0 i.iss i.iss
    let starts := fun (c : Insn → Instr) => ReachesPrivilege 0xF4 w s i → ∀ u, exec (c w) s = .next u →
      (∀ p, (u.part p).gen = (s.part p).gen ∧ (u.part p).invBusy = (s.part p).invBusy ∧ (u.part p).invBy = (s.part p).invBy) ∧
      ∀ c v, v ∈ tkeys (s.core c).tlb → v ∈ tkeys (u.core c).tlb
    stops .rte 0xF3 ∧ stops .rteNext 0xF3 ∧ stops .tlbinvPage 0xF4 ∧ stops .tlbinvAll 0xF4 ∧ starts .tlbinvPage ∧ starts .tlbinvAll ∧
    (w.a.toNat = 0x021 ∨ w.a.toNat = 0x022 → stops .swr 0xF1)

/-- SRD and CLK (R107, R396, R424): D takes the register named, zero-extended or truncated to its type; CLK gives chip time or the
core's cycles at issue.
SWR (R426): TRAP_PC takes the lowest executing lane's value with bits 1:0 clear, FAULT_MASK loses the lanes not in it, MC_READY gains
the bits set in any executing lane's value. -/
def Obligations.SystemRegisters : Prop :=
  (∀ w : Insn, let n := w.a.toNat
    let t : Ty := if srWidth n = some 64 then .b64 else .b32
    let reads := fun (k : Nat) (f : State → Iss → Nat → Nat) => n = k → ComputesAs .srd 0xF0 w t [] fun s i L => f s i L % 2 ^ tyBits t
    let q := fun (s : State) (i : Iss) => s.group i.b i.g
    let b := fun (s : State) (i : Iss) => s.block i.b
    let r := fun (s : State) (i : Iss) => recordOf s i.b
    reads 0x000 (fun _ _ L => L) ∧ reads 0x001 (fun _ _ L => L / 4) ∧ reads 0x002 (fun _ i _ => i.pc) ∧
    reads 0x003 (fun s i L => (laneAt s i L).lap) ∧ reads 0x004 (fun s i L => (laneAt s i L).hyp) ∧
    reads 0x005 (fun s i L => (laneAt s i L).item.toNat) ∧ reads 0x006 (fun s i L => (laneAt s i L).hrefute) ∧
    reads 0x007 (fun s i L => (laneAt s i L).faultVa.toNat) ∧
    reads 0x010 (fun _ i _ => i.g) ∧ reads 0x011 (fun s i _ => (r s i).ngrp) ∧ reads 0x012 (fun s i _ => (b s i).blk) ∧
    reads 0x013 (fun s i _ => (r s i).nblk) ∧ reads 0x014 (fun s i _ => (b s i).gx) ∧ reads 0x015 (fun s i _ => (b s i).gy) ∧
    reads 0x016 (fun s i _ => (b s i).gz) ∧ reads 0x017 (fun s i _ => (r s i).gx) ∧ reads 0x018 (fun s i _ => (r s i).gy) ∧
    reads 0x019 (fun s i _ => (r s i).gz) ∧ reads 0x01A (fun s i _ => (b s i).gangSeq) ∧ reads 0x01B (fun s i _ => (b s i).lcore) ∧
    reads 0x01C (fun s i _ => (q s i).live.toNat) ∧
    reads 0x01D (fun s i _ => ((lanesOf (q s i).live).map fun L => (laneAt s i L).pct).foldl max 0) ∧
    reads 0x020 (fun s i _ => (q s i).trapCause.toNat) ∧ reads 0x021 (fun s i _ => (q s i).trapPc.toNat) ∧
    reads 0x022 (fun s i _ => (q s i).faultMask.toNat) ∧ reads 0x023 (fun s i _ => (q s i).causeMask.toNat) ∧
    reads 0x030 (fun s i _ => (b s i).mcReady) ∧ reads 0x040 (fun s i _ => (r s i).limit) ∧ reads 0x041 (fun s i _ => (r s i).lease) ∧
    reads 0x042 (fun s i _ => (r s i).vatBase) ∧ reads 0x043 (fun s i _ => (r s i).vatSize) ∧
    (∀ k, k < 4 → reads (0x050 + k) fun s i _ => (tget {} (q s i).perf k).count) ∧
    ComputesAs .clkCt 0xB7 w (tyD 0xB7 w) [] (fun s i _ => coreCt s i.core % 2 ^ tyBits (tyD 0xB7 w)) ∧
    ComputesAs .clkCyc 0xB7 w (tyD 0xB7 w) [] fun s i _ => (s.core (s.block i.b).core).cycles % 2 ^ tyBits (tyD 0xB7 w)) ∧
  (∀ (w : Insn) (L0 : Nat),
    let does := fun (n : Nat) (E : State → Iss → Group → State → Prop) => w.a.toNat = n → Runs .swr 0xF1 w noBump
      (fun s i => Plain [(opB w, spanB 0xF1 w)] s i ∧ (lanesOf i.ex).head? = some L0)
      (fun s i u => FallsThrough s i u ∧ RegsKept (s.group i.b i.g) (u.group i.b i.g) ∧ u.mem = s.mem ∧
        (u.group i.b i.g).trapCause = (s.group i.b i.g).trapCause ∧ (u.group i.b i.g).causeMask = (s.group i.b i.g).causeMask ∧
        (u.group i.b i.g).trapMode = (s.group i.b i.g).trapMode ∧ E s i (s.group i.b i.g) u)
    does 0x021 (fun s i q u => (u.group i.b i.g).trapPc = w64 (srcB .b64 w s i L0 - srcB .b64 w s i L0 % 4) ∧
      (u.group i.b i.g).faultMask = q.faultMask ∧ (u.block i.b).mcReady = (s.block i.b).mcReady) ∧
    does 0x022 (fun s i q u => (u.group i.b i.g).faultMask = q.faultMask &&& w32 (srcB .b32 w s i L0) ∧
      (u.group i.b i.g).trapPc = q.trapPc ∧ (u.block i.b).mcReady = (s.block i.b).mcReady) ∧
    does 0x030 (fun s i q u => (u.block i.b).mcReady =
        ((s.block i.b).mcReady ||| ((lanesOf i.ex).map fun L => srcB .b32 w s i L).foldl (· ||| ·) 0) % 256 ∧
      (u.group i.b i.g).trapPc = q.trapPc ∧ (u.group i.b i.g).faultMask = q.faultMask))

/-! ## Memory, guesses, order and time -/

/-- Loads read at issue (R148, R176, R365, R366, R370): where every executing lane's bytes lie in the block's own scratchpad, lines
present, or in an accumulator of its core, D takes them, a narrow value extended, the guess bit clear; nothing stored changes. Loads
are numbered apart (the invariant LoadNumbers). LD, LDS and LDA into V registers; lanes whose guard is guessed but false take the guess bit.
Loads that go out (R31, R127, R159, R370): where every executing lane's access lies outside the issuing core's storage, and a memory
access finds no sector in the L1 or constant store, a request for each goes to the place it names, the lanes go on, and the load is
entered as awaited in them. D keeps its value; memory changes only in the page-table marks of the translations. LD and LDC.
Scalar LD and LDC (R365): one access for the group, by the address of the lowest executing lane.
Where it rests on a choice or a reading of the model, that is log entries 24 and 94. -/
def Obligations.Loads : Prop :=
  (∀ (w : Insn) (f : Nat → Nat × Tgt × Xl) (n : Nat),
    let loads := fun (c : Insn → Instr) (op : Nat) => let t := tyD op w
      Runs c op w noBump
        (fun s i => FreshLoads s ∧ opD w = .v n ∧ Plain ([(opA w, spanA op w)] ++ if xLim w = 15 then [(opC w, 1)] else []) s i ∧
          Passes op w .read false f s i ∧ ∀ L, L < 32 → inMask i.ex L = true → isAbsent s (f L).2.1 = false ∧
            ((∃ o, (f L).2.1 = .scr i.b o) ∨ ∃ k o, (f L).2.1 = .acc k o))
        (fun s i u => FallsThrough s i u ∧ u.mem = s.mem ∧ u.hostMem = s.hostMem ∧ ChipKept s u ∧
          SameRegs (s.group i.b i.g) (u.group i.b i.g) ((List.range (nregOf t)).map fun k => (.b32, .v (n + k))) i.ex i.gg ∧
          ∀ L, L < 32 → inMask i.ex L = true → let x := ofLeBytes (chipBytes s (f L).2.1 (accBytes op w))
            if tyBits t < 32 then Gets (u.group i.b i.g) i.ex .b32 (.v n) L (if isI t then wrap 32 (sext (tyBits t) x) else x) false
            else ∀ k, k < nregOf t → Gets (u.group i.b i.g) i.ex .b32 (.v (n + k)) L (x / 2 ^ (32 * k)) false)
    loads .ld 0x70 ∧ loads .lds 0x71 ∧ loads .lda 0x73) ∧
  (∀ (w : Insn) (f : Nat → Nat × Tgt × Xl) (n : Nat),
    let asks := fun (c : Insn → Instr) (op : Nat) => Runs c op w noBump
      (fun s i => opD w = .v n ∧ Plain ([(opA w, spanA op w)] ++ if xLim w = 15 then [(opC w, 1)] else []) s i ∧
        Passes op w .read false f s i ∧ Away f s i ∧ i.ex ≠ 0 ∧
        ∀ L, L < 32 → inMask i.ex L = true → ∀ va cst, (f L).2.1 = .glob va cst → (f L).2.2.tier = false →
          sectorHit s i.core cst ((f L).2.2.pa / 64) (tagOf s i.ctx (laneAt s i L).hyp) = none)
      (fun s i u => FallsThrough s i u ∧ u.mem = markedMem op w .read s i ∧ ChipKept s u ∧
        SameRegs (s.group i.b i.g) (u.group i.b i.g) ((List.range (nregOf (tyD op w))).map fun k => (.b32, .v (n + k))) 0 i.gg ∧
        (∃ l ∈ (u.group i.b i.g).loads, l.id = s.seq ∧ l.dest = n ∧ l.waiting = i.ex) ∧
        ∀ L, L < 32 → inMask i.ex L = true → Asked u i .load true f L fun r p => r.load = s.seq ∧ p.w = accBytes op w)
    asks .ld 0x70 ∧ asks .ldc 0x72) ∧
  (∀ (w : Insn) (ea n L0 : Nat) (t : Tgt) (x : Xl),
    let asks := fun (c : Insn → Instr) (op : Nat) => Runs c op w noBump
      (fun s i => opD w = .s n ∧ Plain [] s i ∧ (lanesOf i.ex).head? = some L0 ∧
        tryLane op w (accBytes op w) .read s i L0 = .ok ea t x ∧ isLocal i t = false ∧ isAbsent s t = false ∧
        stage3 s i [(L0, .ok ea t x)] false = none ∧ anyAway s i [(L0, .ok ea t x)] = false ∧
        ∀ va cst, t = .glob va cst → x.tier = false → sectorHit s i.core cst (x.pa / 64) (tagOf s i.ctx (laneAt s i L0).hyp) = none)
      (fun s i u => FallsThrough s i u ∧ ChipKept s u ∧ RegsKept (s.group i.b i.g) (u.group i.b i.g) ∧
        (∃ l ∈ (u.group i.b i.g).loads, l.id = s.seq ∧ l.sdest = some n ∧ l.waiting = i.ex) ∧
        Asked u i .load true (fun _ => (ea, t, x)) L0 fun r _ => r.load = s.seq)
    asks .ld 0x70 ∧ asks .ldc 0x72)

/-- Stores performed at issue (R160, R169, R366, R372): where every executing lane's bytes lie in the block's own scratchpad, lines
present, a byte takes the data of the highest lane that stores to it, and every other byte of the scratchpad, of other scratchpads,
of accumulators and of memory is unchanged. ST and STS.
STA (R148, R172, R372): the executing lanes' data go to the accumulators of their core, the highest lane's where two overlap, and
every other accumulator byte, every scratchpad byte and every byte of memory is unchanged.
A store that goes out (R31, R160, R176, R372): a masked write with the lane's bytes goes to the place it names, and the lanes go on;
no register and no on-chip byte changes, and memory itself only in page-table marks and the dirty log.
Where it rests on a choice or a reading of the model, that is log entries 24 and 94. -/
def Obligations.Stores : Prop :=
  (∀ (w : Insn) (f : Nat → Nat × Tgt × Xl) (off : Nat → Nat),
    let stores := fun (c : Insn → Instr) (op : Nat) => let n := accBytes op w
      Runs c op w noBump
        (fun s i => storeEscapes s i [(opA w, spanA op w), (opB w, nregOf (tyD op w))] = 0 ∧ Passes op w .write true f s i ∧
          orderHeld op w s i = false ∧ resolveHeld s i = false ∧
          ∀ L, L < 32 → inMask i.ex L = true → (f L).2.1 = .scr i.b (off L) ∧ linePresent s i.b (off L) = true)
        (fun s i u => FallsThrough s i u ∧ RegsKept (s.group i.b i.g) (u.group i.b i.g) ∧ u.mem = s.mem ∧ u.hostMem = s.hostMem ∧
          (∀ k, k ≠ i.b → (u.block k).scratch = (s.block k).scratch) ∧
          (∀ k t, (tget {} (u.core k).tiles t).data = (tget {} (s.core k).tiles t).data) ∧
          (∀ o, (∀ L, L < 32 → inMask i.ex L = true → o < off L ∨ off L + n ≤ o) → scrByte u i.b o = scrByte s i.b o) ∧
          ∀ L k, L < 32 → inMask i.ex L = true → k < n →
            (∀ j, j < 32 → L < j → inMask i.ex j = true → off L + k < off j ∨ off j + n ≤ off L + k) →
            some (scrByte u i.b (off L + k)) = (dataBytes (tyD op w) w s i L)[k]?)
    stores .st 0x80 ∧ stores .sts 0x81) ∧
  (∀ (w : Insn) (f : Nat → Nat × Tgt × Xl) (off : Nat → Nat), let n := accBytes 0x82 w
    Runs .sta 0x82 w noBump
      (fun s i => storeEscapes s i [(opA w, spanA 0x82 w), (opB w, nregOf (tyD 0x82 w))] = 0 ∧ Passes 0x82 w .write true f s i ∧
        orderHeld 0x82 w s i = false ∧ resolveHeld s i = false ∧ ∀ L, L < 32 → inMask i.ex L = true → (f L).2.1 = .acc i.core (off L))
      (fun s i u => FallsThrough s i u ∧ RegsKept (s.group i.b i.g) (u.group i.b i.g) ∧ u.mem = s.mem ∧ u.hostMem = s.hostMem ∧
        (∀ k, (u.block k).scratch = (s.block k).scratch) ∧
        (∀ k o, (k ≠ i.core ∨ ∀ L, L < 32 → inMask i.ex L = true → o < off L ∨ off L + n ≤ o) → accByte u k o = accByte s k o) ∧
        ∀ L k, L < 32 → inMask i.ex L = true → k < n →
          (∀ j, j < 32 → L < j → inMask i.ex j = true → off L + k < off j ∨ off j + n ≤ off L + k) →
          some (accByte u i.core (off L + k)) = (dataBytes (tyD 0x82 w) w s i L)[k]?)) ∧
  (∀ (w : Insn) (f : Nat → Nat × Tgt × Xl),
    Runs .st 0x80 w noBump
      (fun s i => storeEscapes s i [(opA w, spanA 0x80 w), (opB w, nregOf (tyD 0x80 w))] = 0 ∧ Passes 0x80 w .write true f s i ∧
        orderHeld 0x80 w s i = false ∧ resolveHeld s i = false ∧ Away f s i)
      (fun s i u => FallsThrough s i u ∧ RegsKept (s.group i.b i.g) (u.group i.b i.g) ∧ ChipKept s u ∧
        u.mem = (noteAll (clearRel s i) i .write (goodLanes (tries 0x80 w (accBytes 0x80 w) .write s i))).mem ∧
        ∀ L, L < 32 → inMask i.ex L = true →
          (∀ j, j < 32 → j ≠ L → inMask i.ex j = true → (placeOf (f j).2.1 (f j).2.2 false).1 ≠ (placeOf (f L).2.1 (f L).2.2 false).1) →
          Asked u i .store false f L fun r p => ∀ (k : Nat) (x : Byte), (dataBytes (tyD 0x80 w) w s i L)[k]? = some x → (p.off + k, x) ∈ r.bytes))

/-- ATOM and RED performed at issue (R379–R381): where every executing lane's bytes lie in the block's own scratchpad, lines present, a
lane whose bytes no other lane's overlap replaces them by the operation's result; ATOM's D takes the bytes as they were.
ATOM and RED that go out (R59, R176, R381): a request with the lane's operands goes to the place it names; D of ATOM keeps its
value until the reply.
Where it rests on a choice or a reading of the model, that is log entries 24 and 94. -/
def Obligations.Atomics : Prop :=
  (∀ (w : Insn) (f : Nat → Nat × Tgt × Xl) (off : Nat → Nat),
    let new := fun (t : Ty) (old v c : Nat) => match w.sub.toNat with
      | 0 => (old + v) % 2 ^ tyBits t
      | 1 => (arith2 addOp t 0 false old v).1
      | 2 => if asInt t old ≤ asInt t v then old else v
      | 3 => if asInt t v ≤ asInt t old then old else v
      | 4 => if w.mod.toNat = 0 then old &&& v else if w.mod.toNat = 1 then old ||| v else old ^^^ v
      | 5 => v
      | 6 => if old = v then c else old
      | _ => (minmax t (w.mod.toNat == 1) false old v).1
    let does := fun (c : Insn → Instr) (op : Nat) (acc : Acc) (ds : List (Ty × Opd)) (D : Group → Iss → Nat → Nat → Prop) => let t := tyD op w
      let n := accBytes op w
      Runs c op w noBump
        (fun s i => Plain ([(opA w, 2), (opB w, spanB op w)] ++ if w.sub.toNat = 6 then [(opC w, spanB op w)] else []) s i ∧
          Passes op w acc true f s i ∧ hypAtomic w s i (tries op w n acc s i) = false ∧
          orderHeld op w s i = false ∧ resolveHeld s i = false ∧
          ∀ L, L < 32 → inMask i.ex L = true → (f L).2.1 = .scr i.b (off L) ∧ linePresent s i.b (off L) = true)
        (fun s i u => FallsThrough s i u ∧ u.mem = s.mem ∧ u.hostMem = s.hostMem ∧
          SameRegs (s.group i.b i.g) (u.group i.b i.g) ds i.ex i.gg ∧
          (∀ k, k ≠ i.b → (u.block k).scratch = (s.block k).scratch) ∧
          (∀ o, (∀ L, L < 32 → inMask i.ex L = true → o < off L ∨ off L + n ≤ o) → scrByte u i.b o = scrByte s i.b o) ∧
          ∀ L, L < 32 → inMask i.ex L = true → Alone i off n L → let old := ofLeBytes (chipBytes s (.scr i.b (off L)) n)
            D (u.group i.b i.g) i L old ∧
            chipBytes u (.scr i.b (off L)) n = leBytes n (new t old (srcB t w s i L) (srcC t w s i L)))
    does .atom 0xA0 .atomic [(tyD 0xA0 w, opD w)] (fun q i L old => Gets q i.ex (tyD 0xA0 w) (opD w) L old (inMask i.gg L)) ∧
    does .red 0xA1 .red [] fun _ _ _ _ => True) ∧
  (∀ (w : Insn) (f : Nat → Nat × Tgt × Xl),
    let asks := fun (c : Insn → Instr) (op : Nat) (acc : Acc) => Runs c op w noBump
      (fun s i => Plain ([(opA w, 2), (opB w, spanB op w)] ++ if w.sub.toNat = 6 then [(opC w, spanB op w)] else []) s i ∧
        Passes op w acc true f s i ∧ hypAtomic w s i (tries op w (accBytes op w) acc s i) = false ∧
        orderHeld op w s i = false ∧ resolveHeld s i = false ∧ Away f s i)
      (fun s i u => FallsThrough s i u ∧ ChipKept s u ∧ (u.group i.b i.g).regs = (s.group i.b i.g).regs ∧
        (u.group i.b i.g).preds = (s.group i.b i.g).preds ∧ (u.group i.b i.g).sregs = (s.group i.b i.g).sregs ∧
        ∀ L, L < 32 → inMask i.ex L = true → Asked u i .atomic false f L fun r p =>
          r.sub = w.sub.toNat ∧ r.amod = w.mod.toNat ∧ r.ty = tyD op w ∧ p.w = accBytes op w ∧
          p.opB = srcB (tyD op w) w s i L ∧ p.opC = srcC (tyD op w) w s i L)
    asks .atom 0xA0 .atomic ∧ asks .red 0xA1 .red)

/-- PREF, CWB, CINV and PTEST (R173, R373–R375): none changes an on-chip byte or, PTEST's D apart, a register. PREF leaves the
sectors of its lowest lane at hand or asked for; CWB asks for each line of the lanes' ranges to be written back and CINV for each to be invalidated, for the lane's hypothesis, and memory
changes only in the marks of the pages' entries (R153); after
CINV the core's L1 and constant store hold no valid sector of them: none at all for a lane at the root, none committed or of the
lane's own hypothesis for another; PTEST gives the answer of the access.
Where it rests on a choice or a reading of the model, that is log entry 71. -/
def Obligations.CacheWords : Prop :=
  ∀ w : Insn,
    let range := fun (op : Nat) (k : ReqKind) (s : State) (i : Iss) (u : State) =>
      FallsThrough s i u ∧ RegsKept (s.group i.b i.g) (u.group i.b i.g) ∧ ChipKept s u ∧
      u.mem = (noteRange s i ((lanesOf i.ex).flatMap fun L => rangeXl w s i L op)).mem ∧
      (i.ex ≠ 0 → ∃ r ∈ u.reqs, r.kind = k ∧ r.block = i.b ∧ r.grp = i.g ∧
        ∀ L, L < 32 → inMask i.ex L = true → ∀ p ∈ rangePhys w s i L op, { lane := L, off := p.2, w := b2n p.1, opB := (laneAt s i L).hyp } ∈ r.parts)
    Runs .pref 0x74 w noBump (Plain [(opA w, 2)]) (fun s i u =>
      FallsThrough s i u ∧ RegsKept (s.group i.b i.g) (u.group i.b i.g) ∧ ChipKept s u ∧
      ∀ L, (lanesOf i.ex).head? = some L → ∀ e ∈ prefSectors w s i L,
        (sectorHit s i.core e.2.1 e.1 (tagOf s i.ctx (laneAt s i L).hyp)).isSome = true ∨
        ∃ r ∈ u.reqs, (r.kind = .load ∨ r.kind = .pref) ∧ r.core = i.core ∧ r.place = .home (64 * e.1)) ∧
    Runs .cwb 0x83 w noBump (fun s i => Plain [(opA w, 2), (opB w, 1)] s i ∧ orderHeld 0x83 w s i = false) (range 0x83 .cwb) ∧
    Runs .cinv 0x84 w noBump (fun s i => Plain [(opA w, 2), (opB w, 1)] s i ∧ orderHeld 0x84 w s i = false) (fun s i u =>
      range 0x84 .cinv s i u ∧ ∀ L, L < 32 → inMask i.ex L = true → ∀ p ∈ rangePhys w s i L 0x84, p.1 = false → ∀ k, k < 4 → ∀ cst,
        let x := tget {} (store1 (s.core i.core) cst) (4 * p.2 + k)
        ((laneAt s i L).hyp = 0 ∨ (x.hctx, x.hyp) = (0, 0) ∨ (x.hctx, x.hyp) = tagOf s i.ctx (laneAt s i L).hyp) →
          (tget {} (store1 (u.core i.core) cst) (4 * p.2 + k)).valid = false) ∧
    Runs .ptest 0x75 w noBump (Plain [(opA w, 2)]) fun s i u =>
      Computes s i .b32 (opD w) (fun L => b2n (ptestLane w s i L)) (fun L => inMask i.gg L) u

/-- GTEST, ACCEPT and GMARK (R208, R376): GTEST gives the guess bit of its source as a predicate; ACCEPT clears and GMARK sets the guess
bit of the register or predicate it names, whose value stays.
DEMAND (R209, R377): a lane whose register is no guess goes on; one whose truth has arrived takes it and goes on, and under .q its
predicate tells whether the guess was right; one whose truth is still to come parks. Where some lane's guess is no origin, the word
raises GUESS_UNBOUND instead.
Where it rests on a choice or a reading of the model, that is log entries 13 and 100. -/
def Obligations.GuessBits : Prop :=
  (∀ w : Insn,
    let held := fun (s : State) (i : Iss) (L : Nat) => match opD w with
      | .v n => ((s.group i.b i.g).vReg n L).toNat | .p n => b2n ((s.group i.b i.g).pred n L) | _ => 0
    Runs .gtest 0x90 w noBump (fun _ _ => True) (fun s i u =>
      Computes s i .b32 (opD w) (fun L => b2n (guessOf s i (opA w) 1 L)) (fun L => inMask i.gg L) u) ∧
    Runs .accept 0x92 w noBump (fun _ _ => True) (fun s i u => Computes s i .b32 (opD w) (held s i) (fun L => inMask i.gg L) u) ∧
    Runs .gmark 0x93 w noBump (fun _ _ => True) fun s i u => Computes s i .b32 (opD w) (held s i) (fun _ => true) u) ∧
  ((∀ (w : Insn) (r : Nat), Runs .demand 0x91 w noBump
    (fun s i => opD w = .v r ∧ ∀ L, L < 32 → inMask i.ex L = true → guessOf s i (.v r) 1 L = true → ((s.group i.b i.g).originSlot r L).isSome = true)
    fun s i u => let q := s.group i.b i.g
      OthersFall s i u ∧ u.mem = s.mem ∧ ∀ L, L < 32 → inMask i.ex L = true →
        (guessOf s i (.v r) 1 L = false → (laneAt u i L).lpc = w64 (landing s i.b (i.pc + i.len)) ∧ (u.group i.b i.g).vReg r L = q.vReg r L) ∧
        ∀ k, guessOf s i (.v r) 1 L = true → q.originSlot r L = some k → let t := tget {} q.slots k
          let j := 4 * L + (r - t.dest)
          (inMask t.arrived L = true → (laneAt u i L).lpc = w64 (landing s i.b (i.pc + i.len)) ∧
            (u.group i.b i.g).vReg r L = tget 0 t.truth j ∧ (u.group i.b i.g).vGuess r L = inMask i.gg L ∧
            ∀ p, w.sub.toNat = 1 → opB w = .p p → p ≠ 15 → (u.group i.b i.g).pred p L = (tget 0 t.guess j == tget 0 t.truth j)) ∧
          (inMask t.arrived L = false → ParkedAs s u i L 4 k (w64 r))) ∧
  (∀ (w : Insn) (r : Nat) (m : Mask), Runs .demand 0x91 w noBump
    (fun s i => opD w = .v r ∧ m ≠ 0 ∧ ∀ L, L < 32 →
      inMask m L = (inMask i.ex L && (guessOf s i (.v r) 1 L && ((s.group i.b i.g).originSlot r L).isNone)))
    (fun s i u => Trapped s u i 0x0C 0 i.ex m)))

/-- FENCE (R180–R182, R386): .acq goes on once every earlier load of its lanes is answered, .full once their releases are met at the
scope; .rel goes on at once and leaves a condition that later words of the lanes wait for.
SLEEP (R395): an executing lane whose time lies ahead of chip time at its core parks until it, any other goes on.
Where it rests on a choice or a reading of the model, that is log entry 14. -/
def Obligations.FencesAndSleeps : Prop :=
  (∀ w : Insn,
    let goes := fun (s : State) (i : Iss) (u : State) => FallsThrough s i u ∧ RegsKept (s.group i.b i.g) (u.group i.b i.g) ∧ SameElse s u i.b i.g
    (w.sub.toNat = 1 → Runs .fence 0xB0 w noBump (fun s i => ∀ L, L < 32 → inMask i.ex L = true → acquireMet s i.b i.g L = true)
      fun s i u => Quiet s i [] u ∧ FallsThrough s i u) ∧
    (w.sub.toNat = 2 → Runs .fence 0xB0 w noBump (fun _ _ => True) fun s i u => goes s i u ∧
      ∀ L, L < 32 → inMask i.ex L = true → (laneAt u i L).rel = (laneAt s i L).rel ++ [(w.mod.toNat, s.seq)]) ∧
    (w.sub.toNat = 3 → Runs .fence 0xB0 w noBump
      (fun s i => ∀ L, L < 32 → inMask i.ex L = true → releaseMet s i.b i.g L w.mod.toNat s.seq = true)
      fun s i u => Quiet s i [] u ∧ FallsThrough s i u)) ∧
  (∀ w : Insn,
    let does := fun (c : Insn → Instr) (t : State → Iss → Nat → Nat) => Runs c 0xB6 w noBump (Plain [(opA w, spanA 0xB6 w)]) fun s i u =>
      OthersFall s i u ∧ u.mem = s.mem ∧ RegsKept (s.group i.b i.g) (u.group i.b i.g) ∧ ∀ L, L < 32 → inMask i.ex L = true →
        if t s i L ≤ coreCt s i.core then (laneAt u i L).lpc = w64 (landing s i.b (i.pc + i.len)) else ParkedAs s u i L 8 0 (w64 (t s i L))
    does .sleepRel (fun s i L => coreCt s i.core + srcA .b32 w s i L) ∧ does .sleepAbs fun s i L => srcA .b64 w s i L)

/-- Arrivals at a barrier object (R388–R390). A lane object's phase completes once every live lane of its members has arrived: BARI's
lanes then go on, else they park. A count object takes one from each lane. BARV's lanes go on in any case, with the phase in D where
their arrivals are counted at once.
BARW, BART and BOINIT (R389, R391, R393): a phase p is complete when PHASE − p − 1 is below 2^31, modulo 2^32. BARW goes on in the
lanes whose phase is complete and parks the others; BART gives the test; BOINIT makes the object new.
Where it rests on a choice or a reading of the model, that is log entries 13, 18 and 89. -/
def Obligations.Barriers : Prop :=
  (∀ (w : Insn) (h k : Nat),
    let ready := fun (s : State) (i : Iss) => Plain [] s i ∧ i.ex ≠ 0 ∧ objFor s i (refOf w s i) true = some (h, k) ∧ arriveHeld s i h k = false
    let arrived := fun (s : State) (i : Iss) => { s.obj h k with arr := tmod 0 (s.obj h k).arr (memberNo s i.b i.g) fun m => m ||| i.ex }
    let phase := fun (s : State) => (s.obj h k).phase
    let lane := fun (s : State) (i : Iss) (b : Bool) => ready s i ∧ (s.obj h k).kind = 1 ∧ laneComplete s h (arrived s i) = b
    let few := fun (s : State) (i : Iss) => ready s i ∧ (s.obj h k).kind = 2 ∧ (s.obj h k).count + (lanesOf i.ex).length < (s.obj h k).expect
    let waits := fun (s : State) (i : Iss) (u : State) => OthersFall s i u ∧ phase u = phase s ∧ u.mem = s.mem ∧
      ∀ L, L < 32 → inMask i.ex L = true → ParkedAs s u i L 6 (refOf w s i) ((phase s).setWidth 64)
    Runs .bari 0xB1 w noBump (fun s i => lane s i false) (fun s i u => waits s i u ∧ (u.obj h k).arr = (arrived s i).arr) ∧
    Runs .bari 0xB1 w noBump (fun s i => lane s i true) (fun s i u => FallsThrough s i u ∧ phase u = phase s + 1 ∧
      (u.obj h k).arr = [] ∧ u.mem = s.mem ∧ RegsKept (s.group i.b i.g) (u.group i.b i.g)) ∧
    Runs .bari 0xB1 w noBump few (fun s i u => waits s i u ∧ (u.obj h k).count = (s.obj h k).count + (lanesOf i.ex).length) ∧
    Runs .barv 0xB2 w noBump (fun s i => lane s i true ∨ lane s i false ∨ few s i) (fun s i u => FallsThrough s i u ∧ u.mem = s.mem ∧
      SameRegs (s.group i.b i.g) (u.group i.b i.g) [(.b32, opD w)] i.ex i.gg ∧
      ∀ L, L < 32 → inMask i.ex L = true → Gets (u.group i.b i.g) i.ex .b32 (opD w) L (phase s).toNat (inMask i.gg L)) ∧
    Runs .barv 0xB2 w noBump (fun s i => Plain [] s i ∧ i.ex ≠ 0 ∧ objFor s i (refOf w s i) true = some (h, k)) (fun s i u => FallsThrough s i u ∧
      u.mem = s.mem ∧ SameRegs (s.group i.b i.g) (u.group i.b i.g) [(.b32, opD w)] i.ex i.gg)) ∧
  (∀ (w : Insn) (h k : Nat),
    let p := fun (s : State) (i : Iss) (L : Nat) => w32 (srcB .b32 w s i L)
    let done := fun (s : State) (i : Iss) (L : Nat) => decide (((s.obj h k).phase - p s i L - 1).toNat < 2 ^ 31)
    let named := fun (s : State) (i : Iss) => Plain [(opB w, 1)] s i ∧ i.ex ≠ 0 ∧ objFor s i (refOf w s i) false = some (h, k)
    Runs .barw 0xB3 w noBump named (fun s i u => OthersFall s i u ∧ u.mem = s.mem ∧ RegsKept (s.group i.b i.g) (u.group i.b i.g) ∧
      ∀ L, L < 32 → inMask i.ex L = true → if done s i L then (laneAt u i L).lpc = w64 (landing s i.b (i.pc + i.len))
        else ParkedAs s u i L 7 (refOf w s i) ((p s i L).setWidth 64)) ∧
    Runs .bart 0xB4 w noBump named (fun s i u => FallsThrough s i u ∧ u.mem = s.mem ∧
      SameRegs (s.group i.b i.g) (u.group i.b i.g) [(.b32, opD w)] i.ex i.gg ∧
      ∀ L, L < 32 → inMask i.ex L = true → Gets (u.group i.b i.g) i.ex .b32 (opD w) L (b2n (done s i L)) (inMask i.gg L)) ∧
    (∀ o, Runs .boinit 0xB5 w noBump (fun s i => Plain [] s i ∧ i.ex ≠ 0 ∧ objOf s i.b (refOf w s i) = some (h, k) ∧
        (h = i.b ∨ w.mod.toNat = 2) ∧ boinitObj w s i h = some o ∧ objBusy s h k = false)
      fun s i u => FallsThrough s i u ∧ u.obj h k = o ∧ u.mem = s.mem ∧ RegsKept (s.group i.b i.g) (u.group i.b i.g)))

/-! ## Cross-lane words, hypotheses, engines and queues -/

/-- SHFL (R398, R401): where its lanes have joined, D takes A of the source lane that SUB and B give, if it is a live member of the lane's
mask, else A of the lane itself; .p also tells whether it was.
QSWP and QBC (R117, R407): A of another lane of the quad, helper lanes included; and the wait of a cross-lane word (R398): a lane
with a live member elsewhere parks with its mask. -/
def Obligations.LaneExchange : Prop :=
  (∀ w : Insn, let t := tyD 0xC0 w
    let mask := if w.form = .c then opC w else .imm (-1)
    let from_ : Nat → Nat → Int := fun L b => match w.sub.toNat with
      | 0 => ((b % 32 : Nat) : Int)
      | 1 => ((2 ^ min 5 (bits b 10 8) * (L / 2 ^ min 5 (bits b 10 8)) + (L % 2 ^ min 5 (bits b 10 8) + b % 32) % 2 ^ min 5 (bits b 10 8) : Nat) : Int)
      | 2 => (L : Int) + sext 32 b
      | _ => ((L ^^^ b % 32 : Nat) : Int)
    let ok := fun (s : State) (i : Iss) (L : Nat) => let x := from_ L (srcB .b32 w s i L)
      decide (0 ≤ x) && decide (x < 32) && inMask (membersOf mask s i L) x.toNat
    let src := fun (s : State) (i : Iss) (L : Nat) => if ok s i L then (from_ L (srcB .b32 w s i L)).toNat else L
    let val := fun (s : State) (i : Iss) (L : Nat) => srcA t w s i (src s i L)
    let gb := fun (s : State) (i : Iss) (L : Nat) => inMask i.gg L || (guessOf s i (opA w) (spanA 0xC0 w) (src s i L) || guessOf s i (opB w) 1 L)
    let two := w.form = .c ∧ bit (xmod w) 4 = true
    (¬two → Runs .shfl 0xC0 w noBump (AllHere mask) fun s i u => Computes s i t (opD w) (val s i) (gb s i) u) ∧
    (two → Runs .shfl 0xC0 w noBump (AllHere mask) fun s i u => FallsThrough s i u ∧ SameElse s u i.b i.g ∧
      SameRegs (s.group i.b i.g) (u.group i.b i.g) [(t, opD w), (.b32, .p (xmod w % 16))] i.ex i.gg ∧
      ∀ L, L < 32 → inMask i.ex L = true → Gets (u.group i.b i.g) i.ex t (opD w) L (val s i L) (gb s i L) ∧
        Gets (u.group i.b i.g) i.ex .b32 (.p (xmod w % 16)) L (b2n (ok s i L)) (inMask i.gg L || guessOf s i (opB w) 1 L))) ∧
  (∀ w : Insn,
    let quad := fun (c : Insn → Instr) (op : Nat) (src : State → Iss → Nat → Nat) (gB : State → Iss → Nat → Bool) => Runs c op w noBump
      (fun s i => pendingAny (s.group i.b i.g) ((lanesOf i.ex).flatMap fun L => opKeys (opA w) (spanA op w) (src s i L)) = false ∧
        shortRead s i ((lanesOf i.ex).flatMap fun L => opKeys (opA w) (spanA op w) (src s i L)) = false)
      (fun s i u => Computes s i (tyD op w) (opD w) (fun L => srcA (tyD op w) w s i (src s i L))
        (fun L => inMask i.gg L || (guessOf s i (opA w) (spanA op w) (src s i L) || gB s i L)) u)
    let waits := fun (c : Insn → Instr) (op : Nat) (mask : Opd) => Runs c op w noBump
      (fun s i => parkedAt (s.group i.b i.g) 9 (w64 i.pc) = 0 ∧ ∀ L, L < 32 → inMask i.iss L = true →
        ∃ k, k < 32 ∧ k ≠ L ∧ bit (val32 s i mask L) k = true ∧ inMask (s.group i.b i.g).live k = true ∧ inMask i.iss k = false)
      (fun s i u => ∀ L, L < 32 → inMask i.iss L = true → ParkedAs s u i L 9 0 (w64 (val32 s i mask L)))
    quad .qswp 0xC6 (fun _ _ L => L ^^^ (w.sub.toNat + 1)) (fun _ _ _ => false) ∧
    quad .qbc 0xC7 (fun s i L => L - L % 4 + srcB .b32 w s i L % 4) (fun s i L => guessOf s i (opB w) 1 L) ∧
    waits .vote 0xC1 (opB w) ∧ waits .matchLanes 0xC2 (opB w) ∧ waits .scan 0xC4 (opB w) ∧ waits .elect 0xC5 (opB w))

/-- VOTE, MATCH and ELECT (R400, R402, R403, R406) over the live members of each lane's mask; a scalar VOTE uses the mask of the lowest
executing lane.
RDX and SCAN (R241, R404, R405): the tree reduction of A over the live members of the mask, in SCAN over those at or below the lane,
or strictly below it under .excl.
Where it rests on a choice or a reading of the model, that is log entries 18 and 19. -/
def Obligations.VotesAndReductions : Prop :=
  (∀ w : Insn,
    let x := fun (s : State) (i : Iss) (L : Nat) => membersOf (opB w) s i (if scalarForm w then (lanesOf i.ex).headD 0 else L)
    let yes := fun (s : State) (i : Iss) (m : Mask) => (lanesOf m).filter fun k => srcA .b32 w s i k == 1
    let tally := fun (s : State) (i : Iss) (m : Mask) => let n := (yes s i m).length
      match w.sub.toNat with
      | 0 => b2n (n == (lanesOf m).length)
      | 1 => b2n (n != 0)
      | 2 => b2n (n == 0 || n == (lanesOf m).length)
      | 3 => ((yes s i m).map fun k => 2 ^ k).sum
      | 4 => b2n (n == 0)
      | 5 => n
      | _ => (yes s i m).headD 32
    let y := fun (s : State) (i : Iss) (L : Nat) => membersOf (opB w) s i L
    let t := tyD 0xC2 w
    let same := fun (s : State) (i : Iss) (L : Nat) => (lanesOf (y s i L)).filter fun k => srcA t w s i k == srcA t w s i L
    let alike := fun (s : State) (i : Iss) (L : Nat) => match w.sub.toNat with
      | 0 => ((same s i L).map fun k => 2 ^ k).sum
      | 1 => if (lanesOf (y s i L)).all fun k => srcA t w s i k == srcA t w s i ((lanesOf (y s i L)).headD 0) then (y s i L).toNat else 0
      | 2 => ((same s i L).filter fun k => decide (k < L)).length
      | _ => b2n ((same s i L).filter fun k => decide (k < L)).isEmpty
    let on := fun (s : State) (i : Iss) (L : Nat) => (lanesOf (y s i L)).filter fun k => (guardOf s i.b i.g w.g k).1
    Runs .vote 0xC1 w noBump (fun s i => AllHere (opB w) s i ∧ (scalarForm w = true → scalarEscape s i (opA w) 1 (x s i 0) = 0))
      (fun s i u => Computes s i .b32 (opD w) (fun L => tally s i (x s i L)) (fun L => inMask i.gg L || guessIn s i (opA w) 1 (x s i L)) u) ∧
    Runs .matchLanes 0xC2 w noBump (AllHere (opB w)) (fun s i u => Computes s i .b32 (opD w) (alike s i)
      (fun L => inMask i.gg L || ((w.sub.toNat != 1 && guessOf s i (opA w) (spanA 0xC2 w) L) ||
        guessIn s i (opA w) (spanA 0xC2 w) (if w.sub.toNat < 2 then y s i L else maskOf fun k => inMask (y s i L) k && decide (k < L)))) u) ∧
    Runs .elect 0xC5 w noBump (AllHere (opB w)) (fun s i u => Computes s i .b32 (opD w)
      (fun L => b2n ((if w.sub.toNat = 0 then (on s i L).head? else (on s i L).getLast?) == some L))
      (fun L => inMask i.gg L || (y s i L &&& i.gg) != 0) u)) ∧
  (∀ w : Insn,
    let m := w.mod.toNat % 8
    let x := fun (s : State) (i : Iss) (L : Nat) => membersOf (opB w) s i (if scalarForm w then (lanesOf i.ex).headD 0 else L)
    let up := fun (s : State) (i : Iss) (L : Nat) => maskOf fun k => inMask (membersOf (opB w) s i L) k &&
      if bit w.mod.toNat 3 then decide (k < L) else decide (k ≤ L)
    let tree := fun (t : Ty) (v : Nat → Nat) (z : Mask) =>
      let op := redOp w.sub.toNat m t
      let lvl := fun (d : Nat) (f : Nat → Nat) (L : Nat) => op (f (min L (L ^^^ d))) (f (max L (L ^^^ d)))
      lvl 1 (lvl 2 (lvl 4 (lvl 8 (lvl 16 fun L => if inMask z L then v L else redId w.sub.toNat m t)))) 0
    Runs .rdx 0xC3 w noBump
      (fun s i => AllHere (opB w) s i ∧ (scalarForm w = true → scalarEscape s i (opA w) (spanA 0xC3 w) (x s i 0) = 0))
      (fun s i u => Computes s i (tyD 0xC3 w) (opD w) (fun L => tree (tyD 0xC3 w) (srcA (tyD 0xC3 w) w s i) (x s i L))
        (fun L => inMask i.gg L || guessIn s i (opA w) (spanA 0xC3 w) (x s i L)) u) ∧
    Runs .scan 0xC4 w noBump (AllHere (opB w))
      (fun s i u => Computes s i (tyD 0xC4 w) (opD w) (fun L => tree (tyD 0xC4 w) (srcA (tyD 0xC4 w) w s i) (up s i L))
        (fun L => inMask i.gg L || guessIn s i (opA w) (spanA 0xC4 w) (up s i L)) u))

/-- HOPEN, HOPEN.g, HSET and HLEAVE (R215, R216, R226, R408–R410), of one executing lane: the new node is the lowest free id, a child
of the lane's node, with the handler's address; with no free id, or too deep, the id is 0. HOPEN.g binds it to the slot of the guessed
register. HSET moves the lane to a live or resolving node, HLEAVE to its node's parent.
HRESOLVE and HQUERY (R221, R411, R412): of one executing lane at the root, a request about a live node enters the resolve order, its
node resolving, and a refute's descendants with it; about any other node it does nothing and says so. HQUERY.info gives a node's
fields, HQUERY.anc whether A is an ancestor of B.
Where it rests on a choice or a reading of the model, that is log entries 64 and 90. -/
def Obligations.Hypotheses : Prop :=
  (∀ (w : Insn) (L h : Nat),
    let handler := fun (i : Iss) => (((i.pc : Int) + sext 32 w.ext.toNat) % (2 ^ 64 : Nat)).toNat
    let at_ := fun (s : State) (i : Iss) => lanesOf i.ex = [L] ∧ (s.context i.ctx).hctx = some h ∧ Plain [] s i ∧ resolveHeld s i = false
    let up := fun (s : State) (i : Iss) => (laneAt s i L).hyp
    let deep := fun (s : State) (p : Nat) => if p = 0 then 1 else (nodeOf s h p).depth + 1
    let room := fun (s : State) (i : Iss) => deep s (up s i) ≤ 15 ∧ (nodesOpen s h).length < 255 ∧ handler i < 2 ^ 48
    let free := fun (s : State) (id : Nat) => 1 ≤ id ∧ id ≤ 255 ∧ (nodeOf s h id).state = 0 ∧ ∀ k, 1 ≤ k → k < id → (nodeOf s h k).state ≠ 0
    let told := fun (s : State) (i : Iss) (u : State) (id : Nat) => FallsThrough s i u ∧ u.mem = s.mem ∧
      Gets (u.group i.b i.g) i.ex .b32 (opD w) L id (inMask i.gg L) ∧
      Gets (u.group i.b i.g) i.ex .b32 (.p w.mod.toNat) L (b2n (id != 0)) (inMask i.gg L)
    (∀ id, Runs .hopen 0xD0 w noBump (fun s i => at_ s i ∧ room s i ∧ free s id) fun s i u => told s i u id ∧
      nodeOf u h id = { state := 1, parent := up s i, depth := deep s (up s i), handler := w64 (handler i), bound := false }) ∧
    Runs .hopen 0xD0 w noBump (fun s i => at_ s i ∧ handler i < 2 ^ 48 ∧ 15 < deep s (up s i)) (fun s i u => told s i u 0) ∧
    (∀ id k, Runs .hopenG 0xD0 w noBump
      (fun s i => at_ s i ∧ room s i ∧ free s id ∧ memberSlot w s i L = some k ∧ inMask (tget {} (s.group i.b i.g).slots k).arrived L = false)
      fun s i u => told s i u id ∧ (tget {} (u.group i.b i.g).slots k).hbind = id ∧
        nodeOf u h id = { state := 1, parent := up s i, depth := deep s (up s i), handler := w64 (handler i), bound := true, npend := 1
                          members := [(i.b, i.g, k, L)] }) ∧
    Runs .hset 0xD1 w noBump
      (fun s i => at_ s i ∧ Plain [(opA w, 1)] s i ∧ (let st := nodeState s (some h) (srcA .b32 w s i L % 256); st = 1 ∨ st = 2) ∧
        underResolving s i.ctx (srcA .b32 w s i L % 256) = false)
      (fun s i u => FallsThrough s i u ∧ (laneAt u i L).hyp = srcA .b32 w s i L % 256 ∧ RegsKept (s.group i.b i.g) (u.group i.b i.g) ∧
        u.mem = s.mem) ∧
    Runs .hleave 0xD2 w noBump at_ fun s i u => FallsThrough s i u ∧ RegsKept (s.group i.b i.g) (u.group i.b i.g) ∧ u.mem = s.mem ∧
      (laneAt u i L).hyp = if up s i = 0 then 0 else (nodeOf s h (up s i)).parent) ∧
  (∀ (w : Insn) (L h : Nat),
    let id := fun (s : State) (i : Iss) => srcA .b32 w s i L % 256
    let at_ := fun (s : State) (i : Iss) => lanesOf i.ex = [L] ∧ (s.context i.ctx).hctx = some h ∧ Plain [(opA w, 1)] s i ∧
      (laneAt s i L).hyp = 0 ∧ relHeld s i = false
    let enters := fun (c : Insn → Instr) (confirm : Bool) (ids : State → Iss → List Nat) => Runs c 0xD3 w noBump
      (fun s i => at_ s i ∧ id s i ≠ 0 ∧ (nodeOf s h (id s i)).state = 1 ∧ (confirm = true → (nodeOf s h (id s i)).bound = false))
      (fun s i u => FallsThrough s i u ∧ u.mem = s.mem ∧ Gets (u.group i.b i.g) i.ex .b32 (opD w) L 1 (inMask i.gg L) ∧
        (u.hctxOf h).queue = (s.hctxOf h).queue ++
          [{ confirm := confirm, id := id s i, reason := 1, lane := some (i.b, i.g, L), ids := ids s i, seq := s.seq }] ∧
        ∀ d, (nodeOf u h d).state = if d ∈ ids s i then 2 else (nodeOf s h d).state)
    let passes := fun (c : Insn → Instr) => Runs c 0xD3 w noBump (fun s i => at_ s i ∧ (id s i = 0 ∨ (nodeOf s h (id s i)).state ≠ 1))
      (fun s i u => FallsThrough s i u ∧ u.mem = s.mem ∧ Gets (u.group i.b i.g) i.ex .b32 (opD w) L 0 (inMask i.gg L) ∧ u.hctxs = s.hctxs)
    let idA := fun (s : State) (i : Iss) (k : Nat) => srcA .b32 w s i k % 256
    let idB := fun (s : State) (i : Iss) (k : Nat) => srcB .b32 w s i k % 256
    enters .hresolveConfirm true (fun s i => [id s i]) ∧ enters .hresolveRefute false (fun s i => subtree s h (id s i)) ∧
    passes .hresolveConfirm ∧ passes .hresolveRefute ∧
    (w.sub.toNat = 0 → ComputesAs .hquery 0xD4 w .b32 [(opA w, 1)] fun s i k => if idA s i k = 0 then 1 else match (s.context i.ctx).hctx with
      | none => 0
      | some c => let n := nodeOf s c (idA s i k)
        n.state + 2 ^ 8 * n.parent + 2 ^ 16 * n.depth + 2 ^ 20 * b2n n.bound + 2 ^ 21 * n.npend) ∧
    (w.sub.toNat ≠ 0 → ComputesAs .hquery 0xD4 w .b32 [(opA w, 1), (opB w, 1)] fun s i k =>
      let st := fun d => nodeState s (s.context i.ctx).hctx d
      b2n ((st (idA s i k) == 1 || st (idA s i k) == 2) && (st (idB s i k) == 1 || st (idB s i k) == 2) &&
        match (s.context i.ctx).hctx with | some c => anc s c (idA s i k) (idB s i k) | none => true)))

/-- Tile tokens (R249, R250, R392, R416, R417): .claim of a free tile clears it and gives it to the block, and tells so; .mat and .free
move it from the block's vector side; .vec hands it back at once where no command accepted for the tile before it is left, else asks, also where others ask; TKTEST tells the state.
MMA (R243–R246, R415), by its one executing lane: a parameter block that passes every check waits for the matrix queue, its group's
lanes held at the word; a block off a 64-byte boundary, or past the scratchpad, traps with MMA_PARAM 1. With no executing lane every
lane falls through.
Where it rests on a choice or a reading of the model, that is log entries 65, 66 and 70. -/
def Obligations.TilesAndMatrixIssue : Prop :=
  (∀ (w : Insn) (k : Nat), opA w = .t k →
    let tile := fun (s : State) (i : Iss) => tget {} (s.core i.core).tiles k
    let goes := fun (s : State) (i : Iss) (u : State) => FallsThrough s i u ∧ u.mem = s.mem ∧
      ∀ c j, ¬(c = i.core ∧ j = k) → tget {} (u.core c).tiles j = tget {} (s.core c).tiles j
    let at_ := fun (s : State) (i : Iss) => Plain [] s i ∧ i.ex ≠ 0
    let left := fun (s : State) (i : Iss) (id : Nat) => (s.core i.core).mmaQ.any fun c => c.tile == k && decide (c.id < id)
    let claims := fun (b : Bool) => Runs .tkpassClaim 0xE1 w noBump (fun s i => at_ s i ∧ ((tile s i).token == .free) = b) fun s i u =>
      goes s i u ∧ SameRegs (s.group i.b i.g) (u.group i.b i.g) [(.b32, opD w)] i.ex i.gg ∧
      (∀ L, L < 32 → inMask i.ex L = true → Gets (u.group i.b i.g) i.ex .b32 (opD w) L (b2n b) (inMask i.gg L)) ∧
      tile u i = if b then { tile s i with data := [], nf := false, token := .vec i.b } else tile s i
    let moves := fun (c : Insn → Instr) (dest : Nat → Token) => Runs c 0xE1 w noBump
      (fun s i => at_ s i ∧ (tile s i).token = .vec i.b ∧ tileBusy s i k = false)
      fun s i u => goes s i u ∧ RegsKept (s.group i.b i.g) (u.group i.b i.g) ∧ tile u i = { tile s i with token := dest i.b }
    claims true ∧ claims false ∧ moves .tkpassMat .mat ∧ moves .tkpassFree (fun _ => .free) ∧
    (∀ o, Runs .tkpassVec 0xE1 w noBump (fun s i => at_ s i ∧ vecObject w s i = some o ∧ (tile s i).token = .mat i.b ∧ (tile s i).vec = [] ∧
        (s.block i.b).ended = false ∧ tileWaits s i k = false ∧ left s i (s.core i.core).nextCmd = false ∧ (s.obj i.b o).kind = 2 ∧
        (s.obj i.b o).count + 1 < (s.obj i.b o).expect)
      fun s i u => goes s i u ∧ tile u i = { tile s i with token := .vec i.b, vec := [], owed := false } ∧
        (u.obj i.b o).count = (s.obj i.b o).count + 1) ∧
    (∀ o, Runs .tkpassVec 0xE1 w noBump (fun s i => at_ s i ∧ vecObject w s i = some o ∧ (tile s i).token = .mat i.b ∧ (s.block i.b).ended = false ∧ tileWaits s i k = false ∧
        left s i ((((tile s i).vec.map Prod.snd) ++ [(s.core i.core).nextCmd]).headD 0) = true)
      fun s i u => goes s i u ∧ tile u i = { tile s i with vec := (tile s i).vec ++ [(o, (s.core i.core).nextCmd)] }) ∧
    ComputesAs .tktest 0xE2 w .b32 [] fun s i _ => let t := tile s i
      let st := match t.token with
        | .free => 0
        | .vec x => if x = i.b then 1 else 3
        | .mat x => if x = i.b then (if t.vec = [] then 2 else 6) else 3
      if w.sub.toNat = 0 then st + (if t.nf then 128 else 0) else b2n t.nf) ∧
  (∀ (w : Insn) (L : Nat), let off := fun (s : State) (i : Iss) => srcA .b32 w s i L
    let at_ := fun (s : State) (i : Iss) => lanesOf i.ex = [L] ∧ mmaWaiting s i = false ∧ Plain [(opA w, 1)] s i
    let d := fun (s : State) (i : Iss) => scrWord s i.b (off s i)
    Runs .mma 0xE0 w noBump (fun s i => at_ s i ∧ off s i % 64 = 0 ∧ off s i + 64 ≤ scrBytes s i.b ∧ linePresent s i.b (off s i) = true ∧
        pendingAny (s.group i.b i.g) ((mmaScalars (d s i)).map sKey) = false ∧
        shortRead s i ((mmaScalars (d s i)).map sKey) = false ∧ mmaCheck s i (d s i) (mmaParse s i.b i.g (d s i)) = none ∧
        relHeld s i = false)
      (fun s i u => Stays s u i ∧ RegsKept (s.group i.b i.g) (u.group i.b i.g) ∧ ChipKept s u ∧ u.mem = s.mem ∧
        (u.core i.core).mmaWait = (s.core i.core).mmaWait ++
          [{ block := i.b, grp := i.g, lane := L, pc := w64 i.pc, mask := i.iss, cmd := { mmaParse s i.b i.g (d s i) with
            snap := (s.block i.b).scratch
            absent := (tkeys (s.block i.b).lines).filter fun l => !(tget {} (s.block i.b).lines l).present } }]) ∧
    Runs .mma 0xE0 w noBump (fun s i => at_ s i ∧ (off s i % 64 ≠ 0 ∨ scrBytes s i.b < off s i + 64))
      (fun s i u => Trapped s u i 0x0F 1 i.ex i.ex) ∧
    Runs .mma 0xE0 w noBump (fun s i => mmaWaiting s i = false ∧ i.ex = 0) (fun s i u => Quiet s i [] u ∧ FallsThrough s i u))

/-- COPY in its four forms (R251–R254, R418–R420): where every executing lane's checks pass and there is room, a COPY of the plan of each
is under way with its tag, the scratchpad lines it will write are absent, and the lanes go on.
Where it rests on a choice or a reading of the model, that is log entries 66, 67 and 70. -/
def Obligations.CopyIssue : Prop :=
  ∀ (w : Insn) (plan : State → Iss → Nat → Plan),
    let starts := fun (c : Insn → Instr) (attempt : Insn → State → Iss → Nat → CopyTry) => Runs c 0xE3 w noBump
      (fun s i => Plain ([(opA w, spanA 0xE3 w), (opB w, spanB 0xE3 w)] ++ if eForm w = 2 then [(opC w, 1)] else []) s i ∧ i.ex ≠ 0 ∧
        pendingAny (s.group i.b i.g) (coordKeys w s i) = false ∧ shortRead s i (coordKeys w s i) = false ∧
        (∀ L, L < 32 → inMask i.ex L = true → attempt w s i L = .ok (plan s i L)) ∧ relHeld s i = false ∧ resolveHeld s i = false ∧
        (s.block i.b).copies.length + (queueOf s i.b 2).length + (lanesOf i.ex).length ≤ 64 ∧
        linesFit s ((lanesOf i.ex).map (plan s i)) = true)
      (fun s i u => FallsThrough s i u ∧ RegsKept (s.group i.b i.g) (u.group i.b i.g) ∧ ChipKept s u ∧
        ∀ L, L < 32 → inMask i.ex L = true →
          (∃ j ∈ (u.block i.b).copies, j.grp = i.g ∧ j.lane = L ∧ j.form = eForm w ∧ j.tag = eTag w ∧ j.hyp = (laneAt s i L).hyp ∧
            j.rbit = (plan s i L).rbit ∧ j.dsts = (plan s i L).dsts ∧ j.lines = (plan s i L).lines ∧ j.regs = (plan s i L).regs) ∧
          ∀ l ∈ (plan s i L).lines, (tget {} (u.block l.1).lines l.2).present = false)
    starts .copyTload tryTload ∧ starts .copyTstore tryTstore ∧ starts .copyLin tryLin ∧ starts .copyMcast tryMcast

/-- Queues (R331, R421–R423): a MOV from a queue takes the oldest entries, one for each executing lane in ascending lane id, or one for
the group in a scalar form; with no entry the lanes park. A MOV to a queue appends each lane's value. QTRY never parks: it tells
whether it took an entry. QCNT gives the count.
Where it rests on a choice or a reading of the model, that is log entries 61 and 94. -/
def Obligations.Queues : Prop :=
  ∀ (w : Insn) (n : Nat),
    let t := tyD 0x0D w
    let q := fun (s : State) (i : Iss) => queueOf s i.b n
    (n ≠ 3 → opA w = .q n → scalarForm w = false → Runs .mov 0x0D w noBump
      (fun s i => Plain [] s i ∧ (lanesOf i.ex).length ≤ (q s i).length)
      fun s i u => FallsThrough s i u ∧ u.mem = s.mem ∧ q u i = (q s i).drop (lanesOf i.ex).length ∧
        ∀ (k L : Nat) (x : W64), (lanesOf i.ex)[k]? = some L → (q s i)[k]? = some x → Gets (u.group i.b i.g) i.ex t (opD w) L x.toNat false) ∧
    (n ≠ 3 → opA w = .q n → scalarForm w = true → Runs .mov 0x0D w noBump (fun s i => Plain [] s i ∧ i.ex ≠ 0 ∧ q s i ≠ [])
      fun s i u => FallsThrough s i u ∧ u.mem = s.mem ∧ q u i = (q s i).drop 1 ∧ ∀ d (x : W64), opD w = .s d → (q s i)[0]? = some x →
        (u.group i.b i.g).sReg d = if d = 0 then 0 else if wide t then x else w64 (x.toNat % 2 ^ 32)) ∧
    (n ≠ 3 → opA w = .q n → Runs .mov 0x0D w noBump (fun s i => Plain [] s i ∧ q s i = [])
      fun s i u => u.mem = s.mem ∧ (scalarForm w = false ∨ i.ex = 0 → OthersFall s i u) ∧
        ∀ L, L < 32 → inMask (if scalarForm w = true ∧ i.ex ≠ 0 then i.iss else i.ex) L = true →
          ParkedAs s u i L 1 n (w64 (b2n (wide t) + 2 * b2n (scalarForm w)))) ∧
    ((∀ k, opA w ≠ .q k) → opD w = .q n → Runs .mov 0x0D w noBump
      (fun s i => Plain [(opA w, spanA 0x0D w)] s i ∧ relHeld s i = false ∧ (q s i).length + (lanesOf i.ex).length ≤ 127 ∧
        parkedOn s [i.b] (fun p => p.cause == 1 && p.detail == n) = [])
      fun s i u => FallsThrough s i u ∧ u.mem = s.mem ∧ RegsKept (s.group i.b i.g) (u.group i.b i.g) ∧
        q u i = q s i ++ (lanesOf i.ex).map fun L => w64 (srcA t w s i L)) ∧
    (n ≠ 3 → opA w = .q n → Runs .qtry 0xE4 w noBump (Plain [])
      fun s i u => FallsThrough s i u ∧ u.mem = s.mem ∧ q u i = (q s i).drop (lanesOf i.ex).length ∧
        ∀ k L : Nat, (lanesOf i.ex)[k]? = some L →
          Gets (u.group i.b i.g) i.ex .b32 (.p w.mod.toNat) L (b2n (decide (k < (q s i).length))) false ∧
          ∀ d, opD w = .v d → match (q s i)[k]? with
            | some x => Gets (u.group i.b i.g) i.ex (if w.sub.toNat = 1 then .b64 else .b32) (opD w) L x.toNat false
            | none => (u.group i.b i.g).vReg d L = (s.group i.b i.g).vReg d L) ∧
    (opA w = .q n → ComputesAs .qcnt 0xE5 w .n32 [] fun s i _ =>
      if n = 0 then ((s.core (s.block i.b).core).mmaQ.filter fun x => x.block == i.b).length
      else if n = 1 then (s.block i.b).copies.length else if n = 3 then (s.core (s.block i.b).core).items.length else (q s i).length)

/-- TLBINV in trap mode (R156, R429): once the lanes' releases are met and no invalidation is under way, the translations of the first
page, or of the whole partition, leave every core, the generation rises, and the issue set waits for the acknowledgement. With no
page to name the lanes fall through.
WAITEV, PERF and BBLOG (R430–R432). WAITEV goes on with the queues of its mask that hold an entry, or parks where none does; PERF
starts, stops or clears a counter; BBLOG makes one black-box entry of kind 11 for its lowest executing lane.
Where it rests on a choice or a reading of the model, that is log entries 82, 86 and 110. -/
def Obligations.InvalidationsWaitsAndCounters : Prop :=
  (∀ w : Insn,
    let ready := fun (s : State) (i : Iss) => let p := s.part (s.context i.ctx).part
      Plain [] s i ∧ (∀ L, L < 32 → inMask i.ex L = true → releaseMet s i.b i.g L 3 s.seq = true) ∧ p.invBusy = false ∧ p.invBy = none
    let drops := fun (s : State) (i : Iss) (u : State) (va : Option Nat) (left : List Nat) => let k := (s.context i.ctx).part
      Stays s u i ∧ RegsKept (s.group i.b i.g) (u.group i.b i.g) ∧ u.mem = s.mem ∧
      (u.part k).invBusy = true ∧ (u.part k).gen = ((s.part k).gen + 1) % 256 ∧
      (u.part k).invBy = some { block := i.b, grp := i.g, pc := w64 i.pc, mask := i.iss, left := left } ∧
      ∀ c e, e ∈ (u.core c).tlb ↔ e ∈ (s.core c).tlb ∧ (e.2.part ≠ k ∨ ∃ a, va = some a ∧ e.1 * 4096 / e.2.size ≠ a / e.2.size)
    (∀ v vs, Runs .tlbinvPage 0xF4 w noBump (fun s i => ready s i ∧ invPages w s i = v :: vs)
      fun s i u => drops s i u (some v) vs) ∧
    Runs .tlbinvPage 0xF4 w noBump (fun s i => ready s i ∧ invPages w s i = []) (fun s i u => Quiet s i [] u ∧ FallsThrough s i u) ∧
    Runs .tlbinvAll 0xF4 w noBump (fun s i => ready s i ∧ i.ex ≠ 0) (fun s i u => drops s i u none []) ∧
    Runs .tlbinvAll 0xF4 w noBump (fun s i => ready s i ∧ i.ex = 0) (fun s i u => Quiet s i [] u ∧ FallsThrough s i u)) ∧
  (∀ (w : Insn) (L0 : Nat),
    let m := fun (s : State) (i : Iss) (L : Nat) => srcA .b32 w s i L
    let held := fun (s : State) (i : Iss) (k : Nat) => if k = 3 then !(itemsOf s i.b).isEmpty else !(queueOf s i.b k).isEmpty
    let now := fun (s : State) (i : Iss) (L : Nat) => (((List.range 16).filter fun k => bit (m s i L) k && held s i k).map fun k => 2 ^ k).sum
    let k := w.a.toNat % 4
    let at_ := fun (s : State) (i : Iss) => Plain [] s i ∧ (lanesOf i.ex).head? = some L0
    let perf := fun (s : State) (i : Iss) => tget {} (s.group i.b i.g).perf k
    let goes := fun (s : State) (i : Iss) (u : State) => FallsThrough s i u ∧ u.mem = s.mem ∧ RegsKept (s.group i.b i.g) (u.group i.b i.g)
    let quiet := fun (p : Perf) => p.on = false ∨ (p.event ≠ 1 ∧ p.event ≠ 2)
    Runs .waitev 0xF5 w noBump
      (fun s i => Plain [] s i ∧ ∀ L, L < 32 → inMask i.ex L = true → badEvents (m s i L) (srcB .b32 w s i L) = false)
      (fun s i u => OthersFall s i u ∧ u.mem = s.mem ∧ ∀ L, L < 32 → inMask i.ex L = true →
        if now s i L = 0 then ParkedAs s u i L 10 0 (w64 (m s i L)) ∧ (laneAt u i L).park.y = w64 (srcB .b32 w s i L)
        else (laneAt u i L).lpc = w64 (landing s i.b (i.pc + i.len)) ∧ Gets (u.group i.b i.g) i.ex .b32 (opD w) L (now s i L) false) ∧
    Runs .perfStart 0xF7 w noBump at_ (fun s i u => goes s i u ∧ (perf u i).on = true ∧ (perf u i).event = srcB .b64 w s i L0 ∧
      (quiet (perf u i) → (perf u i).count = 0)) ∧
    Runs .perfStop 0xF7 w noBump at_ (fun s i u => goes s i u ∧ perf u i = { perf s i with on := false }) ∧
    Runs .perfClear 0xF7 w noBump at_ (fun s i u => goes s i u ∧ (perf u i).on = (perf s i).on ∧ (quiet (perf s i) → (perf u i).count = 0)) ∧
    Runs .bblog 0xF8 w noBump
      (fun s i => Plain [(opA w, 1), (opB w, 2)] s i ∧ (lanesOf i.ex).head? = some L0 ∧ logReady s i.ctx = true ∧
        (s.context i.ctx).logWait = [])
      (fun s i u => goes s i u ∧ (u.context i.ctx).lastLog = some s.ct ∧
        let e : BbEntry := { kind := 11, part := (s.context i.ctx).part, core := (s.block i.b).lcore, code := srcA .b32 w s i L0
                             tag := w64 (srcB .b64 w s i L0), ct := s.ct }
        ∃ n, u.svc.news = s.svc.news ++ [n] ∧ n.entry = e ∧ n.rep = repCore (s.block i.b).core ∧ u.svc.bb = s.svc.bb))

/-! ## Decoding, steps, translation, memory and reset -/

/-- Words written out in the manual decode to the instructions they stand for. -/
def Obligations.DecodeSamples : Prop :=
  decodeTableWord 64 0x06000E0600578008 =
    some (.iadd { stall := 2, d := 5, a := 6, b := 7, ty := 6 }) ∧
  decodeTableWord 64 0x1300140340878600 =
    some (.lea { sub := 2, d := 8, a := 3, b := 10, ty := 3, mod := 1 }) ∧
  decodeTableWord 32 3 = none ∧ decodeTableWord 64 0x0000000000079380 = some (.nop {}) ∧
  (decodeTableWord 64 0x0000000000078780).isSome = false

/-- Decoding undoes encoding, with anything after it, for every well-formed instruction (R284–R301, R305). -/
def Obligations.DecodeOfEncode : Prop :=
  ∀ (i : Instr) (rest : List Byte), wellFormed i = true → decode (encode i ++ rest) = .ok i

/-- Encoding undoes decoding: the bytes of a word that decodes are those of the instruction it decodes to, so that no bit of a word is
ignored (R284–R305).
Whatever decodes passes every check of its fields: no reserved encoding is read as an instruction (R295, R303, R305). -/
def Obligations.DecodedWords : Prop :=
  (∀ (bs : List Byte) (i : Instr), decode bs = .ok i → encode i = bs.take (encode i).length ∧ (encode i).length = lengthOf (ofLeBytes (bs.take 4))) ∧
  (∀ (bs : List Byte) (i : Instr), decode bs = .ok i → wellFormed i = true)

/-- No step of the model faults or refuses (the model's own property; log entry 1). -/
def Obligations.EveryStepGoesOn : Prop := ∀ s : State, ∃ u, step s = .next u

/-- A step that issues group g of block b runs the instruction that the bytes at the issue set's address decode to: where nothing is
pending, the fetch translates, the word lies within its 32-byte block (R285) and the core chooses the group, the step is exec of it
on the state with the fetch's own effects, once the lanes of the core whose wait is over go on (R136); a push of a quadrant's second word
notes its first as owed (R423).
Where it rests on a choice or a reading of the model, that is log entries 6 and 61. -/
def Obligations.StepRunsDecoded : Prop :=
  ∀ (s : State) (b g pc : Nat) (m : Mask) (x : Xl) (i : Instr) (rest : List Sched),
    let t0 := { s with free := s.free + 1, agenda := rest }
    let core := (t0.block b).core
    let t := wakeCore t0 core
    let part := (t.context (t.block b).ctx).part
    let w0 := codeAt t core x.tier x.pa
    let n := lengthOf w0
    let words := (List.range (n / 4)).map fun j => codeAt t core x.tier (x.pa + 4 * j)
    let u := cacheCode (noteXl t core part pc .fetch x) core x.tier x.pa
    s.agenda = .issue b g :: rest → boundaryOpen t b g = true → nextPend (t.group b g) (fun _ => true) = none →
    refutedLanes (t.group b g) = [] → notReady t b g = false → issueSet (t.group b g) = some (pc, m) → pc < 2 ^ 48 →
    xlate t core part pc .fetch false = .ok x → w0 % 4 ≠ 3 → pc % 32 + n ≤ 32 → decode (wordsBytes words) = .ok i →
    selected exec t (b, g) = true →
    (queueAct i = none → step s = exec i { u with focus := (b, g) }) ∧
    (∀ q takes v, queueAct i = some (q, takes) → queueLate u b q takes (g % 4) = false →
      exec i { (if takes then u else oweFirst exec u (b, g)) with focus := (b, g) } = .next v →
      (v.group b g).words ≠ (u.group b g).words → step s = .next (noteQueue v b q takes (g % 4)))

/-- A word that does not decode, or that would cross its 32-byte block, raises ILLEGAL in every lane of the issue set at its own address
(R285, R286, R305), and no lane executes it. -/
def Obligations.IllegalWords : Prop :=
  ∀ (s : State) (b g pc : Nat) (m : Mask) (x : Xl) (rest : List Sched),
    let t0 := { s with free := s.free + 1, agenda := rest }
    let core := (t0.block b).core
    let t := wakeCore t0 core
    let part := (t.context (t.block b).ctx).part
    let w0 := codeAt t core x.tier x.pa
    let n := lengthOf w0
    let words := (List.range (n / 4)).map fun j => codeAt t core x.tier (x.pa + 4 * j)
    s.agenda = .issue b g :: rest → boundaryOpen t b g = true → nextPend (t.group b g) (fun _ => true) = none →
    refutedLanes (t.group b g) = [] → notReady t b g = false → issueSet (t.group b g) = some (pc, m) → pc < 2 ^ 48 →
    xlate t core part pc .fetch false = .ok x → w0 ≠ 3 →
    (w0 % 4 = 3 ∨ 32 < pc % 32 + n ∨ ∃ r, decode (wordsBytes words) = .error r) →
    ∃ u, step s = .next u ∧ (u.group b g).trapCause = 0x01 ∧ (u.group b g).trapPc = w64 pc ∧ (u.group b g).faultMask = m ∧
      (u.group b g).causeMask = m ∧ RegsKept (t.group b g) (u.group b g) ∧
        u.mem = (tableRead (cacheCode (noteXl t core part pc .fetch x) core x.tier x.pa) b g 0x01).mem

/-- A step that a schedule names as an event is that event; a tick of a running part finishes what the tick has under way and adds 1 to
chip time, and does nothing where chip time is stopped; a cycle of a core, once for each pulse of its clock, issues what the cycle has
still to issue, does what its matrix engine has to do, and adds 1 to the core's count, and nothing is issued on a core without blocks (R16, R17, R128); a write of the host to
its own memory, to lines the buffer does not own (R74), writes those bytes and no others.
Guarded tests of chip time (R19): Holds while local CT < T − 4, Passed once local CT ≥ T + 4, neither in the 8 ticks between.
Where it rests on a choice or a reading of the model, that is log entries 6, 84, 93 and 97. -/
def Obligations.ScheduledSteps : Prop :=
  (∀ (s : State) (rest : List Sched), let t := { s with free := s.free + 1, agenda := rest }
    (∀ i, s.agenda = .event i :: rest → step s = exec i t) ∧
    (s.agenda = .tick :: rest → s.pkg.ctRun = true → ∃ u, step s = .next u ∧ u.ct = (finishTick exec t).ct + 1) ∧
    (s.agenda = .tick :: rest → s.pkg.ctRun = false → step s = .next t) ∧
    (∀ c, s.agenda = .cycle c :: rest → running s = true → (s.core c).pulse < s.pkg.pulses →
      let v := engineStep (cycleIssue exec t c) c
      (∃ u, step s = .next u ∧ (u.core c).cycles = (v.core c).cycles + 1 ∧ (u.core c).pulse = s.pkg.pulses ∧ u.mem = v.mem ∧
        ∀ b g, RegsKept (v.group b g) (u.group b g)) ∧
      (blocksOn t c = [] → cycleIssue exec t c = t)) ∧
    (∀ c, s.agenda = .cycle c :: rest → s.pkg.pulses ≤ (s.core c).pulse → step s = .next t) ∧
    (∀ pa bs, s.agenda = .hostStore pa bs :: rest → (∀ k, k < bs.length → lineOwned s ((pa + k) / 64) = false) → pa + bs.length ≤ 2 ^ 52 →
      ∃ u, step s = .next u ∧ (∀ k, k < bs.length → hostByte u (pa + k) = bs.getD k 0) ∧
        (∀ a, a < pa ∨ pa + bs.length ≤ a → hostByte u a = hostByte s a) ∧ u.mem = s.mem ∧ u.blocks = s.blocks)) ∧
  (∀ ct t : Nat, (holds ct t = true ↔ (ct : Int) < (t : Int) - 4) ∧ (passed ct t = true ↔ (t : Int) + 4 ≤ ct) ∧
    ((t : Int) - 4 ≤ ct ∧ (ct : Int) < t + 4 → holds ct t = false ∧ passed ct t = false))

/-- The guard of a word (R288): the named predicate, inverted by bit 4 of the field, in the lanes of the issue set; its guess bit is the
predicate's own. P15 reads true and is no guess, so G 0b01111 executes in every lane of the set and G 0b11111 in none. -/
def Obligations.Guards : Prop :=
  ∀ (s : State) (i : Iss) (gf : BitVec 5), let r := withGuard s i gf
    (∀ L, L < 32 → inMask r.ex L = (inMask i.iss L && ((readP s i.b i.g (gf.toNat % 16) L).1 != gf.getLsbD 4)) ∧
      inMask r.gg L = (inMask i.iss L && (readP s i.b i.g (gf.toNat % 16) L).2)) ∧
    ((unfinished (s.group i.b i.g) (cyclesOf s i.b) (lanes32.map (pKey 15)) = false) →
      (gf = 0b01111 → r.ex = i.iss ∧ r.gg = 0) ∧ (gf = 0b11111 → r.ex = 0 ∧ r.gg = 0))

/-- A page walk (R151–R153): four levels from the partition's root, indexed by bits 47:39, 38:30, 29:21 and 20:12; an entry with bit 0
clear is not present; a 4 KiB leaf gives its frame, the page's bytes, and TIER, HOLD, EX, WR, RD from bits 8, 6, 5, 4, 3.
A translation's marks (R153–R155): with no dirty log, no byte of memory outside the leaf entry changes; the entry gains ACC, and DIRTY
for a write, where the TLB's copy has them not; the core's TLB then holds the entry with both.
Where it rests on a choice or a reading of the model, that is log entry 21. -/
def Obligations.PageTables : Prop :=
  (∀ (s : State) (p va : Nat),
    let slot := fun (table sh : Nat) => table + 8 * (va / 2 ^ sh % 512)
    let entry := fun (table sh : Nat) => memRead s (slot table sh) 8
    let next := fun (e : Nat) => e / 2 ^ 12 % 2 ^ 40 * 4096
    let link := fun (e : Nat) => e % 2 = 1 ∧ pteReserved e = true ∧ bit e 7 = false ∧ bits e 11 8 = 0 ∧ bits e 6 3 = 0 ∧ bits e 51 39 = 0
    let e1 := entry (s.part p).root 39
    let e2 := entry (next e1) 30
    let e3 := entry (next e2) 21
    let e4 := entry (next e3) 12
    (e1 % 2 = 0 → walk s p va = .error .notPresent) ∧
    (link e1 → e2 % 2 = 0 → walk s p va = .error .notPresent) ∧
    (link e1 → link e2 → e3 % 2 = 0 → walk s p va = .error .notPresent) ∧
    (link e1 → link e2 → link e3 → e4 % 2 = 0 → walk s p va = .error .notPresent) ∧
    (link e1 → link e2 → link e3 → e4 % 2 = 1 → pteReserved e4 = true → bit e4 7 = true → bit e4 9 = false →
      (bit e4 8 = true ∨ next e4 < 2 ^ 39) → ∃ x, walk s p va = .ok x ∧ x.frame = next e4 ∧ x.size = 4096 ∧ x.tier = bit e4 8 ∧
        x.hold = bit e4 6 ∧ x.ex = bit e4 5 ∧ x.wr = bit e4 4 ∧ x.rd = bit e4 3 ∧ x.leaf = slot (next e3) 12)) ∧
  (∀ (s : State) (core part va : Nat) (acc : Acc) (x : Xl), (s.part part).logEnable = false →
    let u := noteXl s core part va acc x
    (∀ a, a < x.entry.leaf ∨ x.entry.leaf + 8 ≤ a → memByte u a = memByte s a) ∧
    (x.entry.acc = false → memRead u x.entry.leaf 8 =
      memRead s x.entry.leaf 8 ||| 2 ^ 10 ||| if writes acc && !x.entry.dirty then 2 ^ 11 else 0) ∧
    tget {} (u.core core).tlb (vpn va) = { x.entry with acc := true, dirty := x.entry.dirty || writes acc } ∧ u.hostMem = s.hostMem)

/-- Memory: n bytes written little-endian read back as written, modulo 256^n, and no other byte changes (R232). -/
def Obligations.MemoryReadAfterWrite : Prop :=
  ∀ (s : State) (a n x : Nat), memRead (putNum s a n x) a n = x % 256 ^ n ∧
    ∀ b, b < a ∨ a + n ≤ b → memByte (putNum s a n x) b = memByte s b

/-- Right after reset (R17, R22, R437): chip time 0, the black box empty, every tile token FREE, every element +0 and NF clear, no
context, no block, no request; memory and host memory list nothing.
Where it rests on a choice or a reading of the model, that is log entries 4 and 5. -/
def Obligations.ResetState : Prop :=
  let s := State.reset
  s.ct = 0 ∧ s.svc.bb = [] ∧ (∀ c t, (tget {} (s.core c).tiles t).token = .free ∧ (tget {} (s.core c).tiles t).nf = false ∧
    ∀ k, tget 0 (tget {} (s.core c).tiles t).data k = (0 : W32)) ∧
  s.ctxs = [] ∧ s.blocks = [] ∧ s.reqs = [] ∧ (∀ a, memByte s a = 0) ∧ ∀ a, hostByte s a = 0

/-- What the model keeps of memory: device and host memory in canonical form.
Where it rests on a choice or a reading of the model, that is log entry 4. -/
def Obligations.MemoryStaysCanonical : Prop :=
  ∀ s u : State, Memory.wf s.mem = true → Memory.wf s.hostMem = true → step s = .next u →
    Memory.wf u.mem = true ∧ Memory.wf u.hostMem = true

/-- The canonical form holds at reset, and loads are numbered apart there.
Where it rests on a choice or a reading of the model, that is log entries 4 and 9. -/
def Obligations.ResetInvariants : Prop :=
  Memory.wf State.reset.mem = true ∧ Memory.wf State.reset.hostMem = true ∧ FreshLoads State.reset

/-- Loads in flight are numbered apart: every step keeps their numbers below the next to be given.
Where it rests on a choice or a reading of the model, that is log entry 9. -/
def Obligations.LoadNumbers : Prop := ∀ s u : State, FreshLoads s → step s = .next u → FreshLoads u

/-! ## Device events -/

/-- Resets and bring-up (R17, R22, R23, R98, R270). A cold reset clears everything the package holds; a warm reset keeps chip time, the
black box with the events of the tick under way, memory and the retired map; the steps of bring-up follow one another, and until the
last configuration requests are answered with a retry status.
Where it rests on a choice or a reading of the model, that is log entries 33, 34 and 115. -/
def Obligations.ResetsAndBringUp : Prop :=
  ∀ s : State,
    let trained := fun (u : State) => u.hostLink = { s.hostLink with width := u.hostLink.width, rate := u.hostLink.rate } ∧
      u.hostLink.width ∈ [16, 8, 4] ∧ u.hostLink.rate ∈ [64, 32, 16]
    Leads .coldReset s (fun u => u.ct = 0 ∧ u.svc.bb = [] ∧ u.mem = [] ∧ u.pkg = {} ∧ u.parts = [] ∧ u.ctxs = [] ∧ u.blocks = [] ∧
      u.cores = [] ∧ u.reqs = [] ∧ u.l2 = [] ∧ u.ports = [] ∧ u.hctxs = [] ∧ u.versions = [] ∧ u.poison = [] ∧ u.memStacks = [] ∧ u.memChans = [] ∧
      u.missCount = [] ∧ u.hostCached = [] ∧ u.snoops = [] ∧ u.hostLines = [] ∧ u.l2Buckets = [] ∧ u.buckets = [] ∧ u.inbound = [] ∧
      u.lostPeers = [] ∧ u.position = none ∧ u.hostMem = s.hostMem) ∧
    Leads .warmReset s (fun u => u.ct = s.ct ∧ u.svc.bb = (collect s).svc.bb ∧ u.mem = s.mem ∧ u.svc.errors.seq = (collect s).svc.errors.seq ∧
      u.pkg.tripped = s.pkg.tripped ∧ u.pkg.ready = false ∧ u.pkg.bringup = 0 ∧ u.parts = [] ∧ u.ctxs = [] ∧ u.blocks = [] ∧ u.reqs = [] ∧
      ∀ c, c ∈ tkeys u.cores ↔ ∃ e ∈ s.cores, e.1 = c ∧ e.2.retired = true) ∧
    (hostInFlight s = [] → Leads .linkHotReset s fun u => u.pkg.linkUp = false ∧ u.hostLines = [] ∧ Recorded u 7 0 ∧ u.mem = s.mem ∧
      u.blocks = s.blocks ∧ u.reqs = s.reqs ∧ u.ctxs = s.ctxs) ∧
    (3 ≤ s.pkg.bringup → Leads .cxlLinkRetrained s fun u => u = { s with pkg := { s.pkg with linkUp := true }, hostLink := u.hostLink } ∧ trained u) ∧
    (∀ other, s.pkg.bringup = 0 → Leads (.bringupFwVerify true other) s fun u => u = { s with pkg := { s.pkg with bringup := 1 }, svc := u.svc } ∧
      Recorded u 9 0 ∧ u.svc.active = s.svc.active) ∧
    (s.pkg.bringup = 0 → Leads (.bringupFwVerify false true) s fun u => u = { s with pkg := { s.pkg with bringup := 1 }, svc := u.svc } ∧
      u.svc.active = 1 - s.svc.active ∧ bit u.svc.alert 5 = true) ∧
    exec (.bringupFwVerify false false) s = .next s ∧
    (s.pkg.bringup = 1 → exec .bringupPllLock s = .next { s with pkg := { s.pkg with ctRun := true, lock0 := true, lock1 := true, bringup := 2 } }) ∧
    (s.pkg.bringup = 2 → Leads .bringupCxlTrained s fun u => u = { s with pkg := { s.pkg with linkUp := true, bringup := 3 }, hostLink := u.hostLink } ∧
      trained u) ∧
    (∀ down rep, s.pkg.bringup = 3 → Leads (.bringupStacksTrained down rep) s fun u => u.pkg.bringup = 4 ∧ u.mem = s.mem ∧
      ∀ k, k < 256 → (u.memChan k).state = if k ∈ down then 2 else 0) ∧
    (s.pkg.bringup = 4 → s.pkg.clockStopped = false → exec .bringupCoresReady s = .next { s with pkg := { s.pkg with ready := true, bringup := 5 } }) ∧
    (∀ (fn off : Nat) (v : W32) (rest : List Sched), cfgOpen s fn off = true → s.pkg.ready = false → (s.agenda = .cfgRead fn off :: rest ∨
        s.agenda = .cfgWrite fn off v :: rest) → ∃ u, step s = .next u ∧ u.hostLink = { s.hostLink with cfgOut := none }) ∧
    (∀ (fn off : Nat) (rest : List Sched), cfgOpen s fn off = true → s.pkg.ready = true → s.agenda = .cfgRead fn off :: rest →
      ∃ u, step s = .next u ∧ u.hostLink = { s.hostLink with cfgOut := some (cfgValue s fn off) })

/-- Temperature, power and chip time (R8, R10, R12, R13, R18, R87, R88): what a sample at 95, 105 and 115 °C does, the trip, a power
overrun and its check after 10 ms, a sync marker, and the power commands.
Where it rests on a choice or a reading of the model, that is log entries 11, 75, 83 and 104. -/
def Obligations.TemperaturePowerAndTime : Prop :=
  ∀ s : State,
    let two := fun (u : State) => u = { s with pkg := u.pkg, svc := u.svc }
    let takes := fun (i : Instr) (n : Nat) => Leads i s fun u => two u ∧ u.pkg.pTarget = n ∧ u.pkg.pBusy = true ∧ u.pkg.pRefused = false ∧
      u.pkg.pCurrent = s.pkg.pCurrent ∧ Recorded u 6 n
    let tripped := fun (i : Instr) => Leads i s fun u => u.pkg.clockStopped = true ∧ u.pkg.tripped = true ∧ u.pkg.tripOut = true ∧ u.mem = s.mem ∧
      ∀ h ∈ liveCtxs s, (u.context h).live = false
    (∀ d0 d1 io, max d0 (max d1 io) < 95 → exec (.sensorSample d0 d1 io) s =
      .next { s with pkg := { s.pkg with temp0 := d0, temp1 := d1, tempIo := io } }) ∧
    (∀ d0 d1 io, 95 ≤ max d0 (max d1 io) → max d0 (max d1 io) < 115 → Leads (.sensorSample d0 d1 io) s fun u => two u ∧ u.pkg.warn = true ∧
      bit u.svc.alert 1 = true ∧ u.pkg.clockStopped = s.pkg.clockStopped ∧
      (105 ≤ max d0 (max d1 io) → u.pkg.crit = true ∧ bit u.svc.alert 2 = true)) ∧
    (∀ d0 d1 io, 115 ≤ max d0 (max d1 io) → tripped (.sensorSample d0 d1 io)) ∧ tripped .thermtripNInput ∧
    (∀ w, w ≤ 2400 → exec (.powerAverageCheck w) s = .next { s with pkg := { s.pkg with overrun := none } }) ∧
    (∀ w, 2400 < w → s.pkg.overrun = none → Leads (.powerAverageCheck w) s fun u => two u ∧ u.pkg.overrun = some (s.ct + 15000000) ∧
      bit u.svc.alert 0 = true ∧ Recorded u 8 0) ∧
    (∀ w t, s.pkg.overrun = some t → t ≤ s.ct → w ≤ 2400 → exec (.powerOverrunRecheck w) s = .next { s with pkg := { s.pkg with overrun := none } }) ∧
    (∀ w t, s.pkg.overrun = some t → t ≤ s.ct → 2400 < w → Leads (.powerOverrunRecheck w) s fun u => two u ∧ u.pkg.overrun = some (t + 15000000) ∧
      bit u.svc.alert 0 = true ∧ Recorded u 8 0) ∧
    (∀ a b : Int, s.pkg.ctRun = true → s.ct % 1024 = 0 → a.natAbs ≤ 2 → b.natAbs ≤ 2 → Leads (.ctSyncMarker a b) s fun u => u = { s with pkg := u.pkg } ∧
      u.pkg.tgt0 = a - a.sign ∧ u.pkg.tgt1 = b - b.sign ∧ u.pkg.skewStop = s.pkg.skewStop) ∧
    (∀ a b : Int, s.pkg.ctRun = true → s.ct % 1024 = 0 → (2 < a.natAbs ∨ 2 < b.natAbs) → Leads (.ctSyncMarker a b) s fun u =>
      u.pkg.skew = true ∧ u.pkg.skewStop = true ∧ u.mem = s.mem ∧ Reported u 311 6) ∧
    (∀ n, n < 4 → takes (.powerCmdRun n) n) ∧ takes .powerCmdHold 4 ∧ takes .d3hotEntry 4 ∧
    (standbyOk s = true → takes .powerCmdStandby 5) ∧
    (standbyOk s = false → exec .powerCmdStandby s = .next { s with pkg := { s.pkg with pRefused := true } }) ∧
    (s.pkg.pBusy = true → Leads .powerTransitionDone s fun u => ∃ v, u = (if running v then copiesOn v else v) ∧
      v = { s with pkg := v.pkg, memStacks := v.memStacks } ∧ v.pkg.pCurrent = s.pkg.pTarget ∧ v.pkg.pBusy = false ∧
      (s.pkg.pTarget = 5 → ∀ k, k < 8 → (v.stack k).selfRefresh = true))

/-- The base dies (R26–R28, R33, R34, R37–R47): a request is taken in with its full deadline, and served in its channel's turn or from
the memory-side cache, its line then present in L2; a victim is cached, a discard removes lines, refreshes are issued in gaps, postponed
or caught up, the bus code changes after two windows, a channel ends its retraining up or down, and one that is down gives poison.
Where it rests on a choice or a reading of the model, that is log entries 57, 58, 59, 60, 98, 101 and 109. -/
def Obligations.BaseDies : Prop :=
  ∀ (s : State) (k tag : Nat) (r : StackReq), let c := s.memChan (chanOfReq r)
    let gone_ := fun (u : State) => (s.stack k).waits = [] → (l2Same s r.line).length < 16 → ∀ x ∈ (u.stack k).reqs, x.tag ≠ tag
    let there := fun (u : State) => (l2Of u (256 * r.line)).present = true ∧ ((l2Same s r.line).length < 16 → u.mem = s.mem) ∧
      ∀ q ∈ u.reqs, q.id ∈ r.ids → q.stage ≠ .miss
    let open_ := channelStill s (chanOfReq r) = false ∧ c.state ≠ 2
    let taken_ := fun (u : State) => ∃ e, (r.cls ≠ 2 → e = true) ∧
      reqAt u k tag = some { r with seen := true, full := fullDeadline (stackCt s k) r.deadline, eligible := e }
    (reqAt s k tag = some r → r.seen = false → r.kind ≤ 2 → earlier s k r = false → fillBlocked s r = false → open_ →
      (r.kind ≠ 2 → (lookup s k r).valid = 0 → Leads (.baseDieRequest k tag) s fun u => u = { s with memStacks := u.memStacks } ∧ taken_ u) ∧
      (r.kind = 2 → (lookup s k r).valid.testBit (r.addr % 4) = false → Leads (.baseDieRequest k tag) s fun u =>
        u = { s with memStacks := u.memStacks, memChans := u.memChans } ∧ taken_ u) ∧
      (r.kind ≠ 2 → r.hyp = 0 → (lookup s k r).valid = 15 → Leads (.baseDieRequest k tag) s fun u => gone_ u ∧ there u)) ∧
    (reqAt s k tag = some r → r.seen = false → r.kind ≤ 1 → earlier s k r = false → fillBlocked s r = false →
      channelStill s (chanOfReq r) = false → c.state = 2 → r.hyp = 0 →
      (s.reqs.map fun q => q.id).Nodup → Leads (.baseDieRequest k tag) s fun u => gone_ u ∧
        ∀ q ∈ u.reqs, q.id ∈ r.ids → q.fromHost = false → (∃ pa, q.place = .home pa) → q.stage ≠ .miss ∧
          ∀ p ∈ s.reqs, p.id = q.id → p.stage = .miss → p.kind = .load → q.stage = .reply ∧ q.status = 1 ∧ q.sect = List.replicate 64 0xFF) ∧
    (reqAt s k tag = some r → r.kind = 3 → earlier s k r = false → open_ → Leads (.victimFill k tag) s fun u => gone_ u ∧ u.mem = s.mem ∧
      let old := tget {} (s.stack k).msc r.line
      let same := decide (old.hctx = r.hctx ∧ old.hyp = r.hyp)
      tget {} (u.stack k).msc r.line = { hctx := r.hctx, hyp := r.hyp, filled := s.ct, valid := r.sects ||| (if same then old.valid else 0)
                                         dirty := r.mask % 16 ||| (if same then old.dirty else 0) }) ∧
    (reqAt s k tag = some r → r.kind = 4 →
      let hit := fun (m : MscLine) => m.hctx = r.hctx ∧ m.hyp ≠ 0 ∧ m.hyp ∈ r.ids
      (∀ x ∈ (s.stack k).reqs, x.seq < r.seq → x.kind ≠ 4 → ¬hit (mscOf s x.line) ∧ ¬hit { hctx := x.hctx, hyp := x.hyp }) →
      Leads (.discardByHypothesis k tag) s fun u => gone_ u ∧ u.mem = s.mem ∧ ∀ e, e ∈ (u.stack k).msc ↔ e ∈ (s.stack k).msc ∧ ¬hit e.2) ∧
    (∀ ecc, reqAt s k tag = some r → r.seen = true → tag < 2048 → fillBlocked s r = false → open_ → mayServe s k r = true →
      Leads (.dramRequestServed k tag ecc) s fun u => gone_ u ∧ (r.kind = 2 → u.mem = s.mem) ∧ (r.kind ≠ 2 → r.hyp = 0 → there u)) ∧
    (reqAt s k tag = some r → r.seen = true → r.eligible = false → r.full ≤ stackCt s k + 512 →
      Leads (.frugalHoldRelease k tag) s fun u => u = { s with memStacks := u.memStacks } ∧ reqAt u k tag = some { r with eligible := true }) ∧
    (∀ ch bank, ch < 256 → let n := tget 0 (s.memChan ch).postponed bank
      let puts := fun (how : RefreshStep) (m : Nat) (made : Bool) => Leads (.refreshDue ch bank how) s fun u => u = { s with memChans := u.memChans } ∧
        tget 0 (u.memChan ch).postponed bank = m ∧ (made = true → bank ∉ tkeys (u.memChan ch).openRow)
      (n < 8 → puts .postpone (n + 1) false) ∧ (8 ≤ n → puts .postpone n true) ∧
      (refreshGap s ch bank = true ∨ 8 ≤ n → puts .issue n true ∧ (n ≠ 0 → puts .catchUp (n - 1) true)) ∧
      (refreshGap s ch bank = false → n < 8 → puts .issue (n + 1) false)) ∧
    (∀ addr ecc, addr < 2 ^ 39 → stackOf addr = k →
      (reqAt s k 2048 = none → Leads (.patrolScrub k addr ecc) s fun u => u.mem = s.mem ∧
        ∃ x, reqAt u k 2048 = some x ∧ x.addr = addr / 64 ∧ x.kind = 0 ∧ x.cls = 2 ∧ x.reqr = 42) ∧
      (reqAt s k 2048 = some r → r.addr = addr / 64 → open_ → mayServe s k r = true → Leads (.patrolScrub k addr ecc) s fun u => u.mem = s.mem ∧
        (ecc = .ok → u.poison = s.poison) ∧ (ecc = .corrected → u.poison = s.poison ∧ Reported u (chanOfReq r) 0) ∧
        (ecc = .uncorrectable → Reported u (chanOfReq r) 1 ∧
          if (l2Of s r.pa).present || (mscOf s r.line).valid.testBit (r.addr % 4) then u.poison = s.poison else r.addr ∈ u.poison))) ∧
    (∀ ch a b a' b', ch < 256 → s.ct % 16384 = 0 → let x := s.memChan ch
      let less := 4 * (x.rd.other + x.wr.other + (b + b')) < 3 * (x.rd.made + x.wr.made + (a + a'))
      x.windowAt ≠ s.ct → x.switching = none → x.ltAllowed = true → x.codeLock = false → Leads (.toggleWindowEnd ch a b a' b') s fun u =>
        u = { s with memChans := u.memChans } ∧ (u.memChan ch).code = x.code ∧ (u.memChan ch).rd.made = 0 ∧ (u.memChan ch).wr.made = 0 ∧
        (less → 1 ≤ x.better → (u.memChan ch).switching = some (s.ct + 32)) ∧
        (less → x.better = 0 → (u.memChan ch).switching = none ∧ (u.memChan ch).better = 1) ∧
        (¬less → (u.memChan ch).switching = none ∧ (u.memChan ch).better = 0)) ∧
    (∀ ch t, (s.memChan ch).switching = some t → t ≤ s.ct → Leads (.codeSwitchDone ch) s fun u => u = { s with memChans := u.memChans } ∧
      (u.memChan ch).switching = none ∧ (u.memChan ch).code = 1 - (s.memChan ch).code) ∧
    (∀ ch lo hi, s.retraining = some ch →
      (lo ≤ 2 ∧ hi ≤ 2 → Leads (.channelRetrainDone ch lo hi) s fun u => u.retraining = none ∧ (u.memChan ch).state = 0 ∧
        (u.memChan ch).repaired = lo + hi ∧ u.mem = s.mem) ∧
      (¬(lo ≤ 2 ∧ hi ≤ 2) → Leads (.channelRetrainDone ch lo hi) s fun u => u.retraining = none ∧ (u.memChan ch).state = 2 ∧ Reported u ch 7))

/-- Fabric traffic (R50–R58, R66, R70). The oldest packet of a channel leaves its buffer and is discarded, taken in or routed on; a
peer's request is refused without a session, else it becomes one access for each of its sectors here, in the order of its source; a
response answers its request; a write is acknowledged once the completion time of every sector has passed; a silent or reset peer is
lost.
Where it rests on a choice or a reading of the model, that is log entries 25, 26 and 78. -/
def Obligations.FabricTraffic : Prop :=
  ∀ (s : State),
    (∀ port k, (s.port port).inQ.find? (fun x => x.vc == k.vc) = some k →
      let left := fun (u : State) => (u.port port).inQ = (s.port port).inQ.erase k ∧ u.mem = s.mem ∧ u.reqs = s.reqs
      (defective k = true → Leads (.fabricPacketReceive port k) s fun u => left u ∧ Reported u (256 + port) 5) ∧
      (defective k = false → ownPeer s = some k.dest → k.typ < 8 → Leads (.fabricPacketReceive port k) s fun u => left u ∧
        tget {} u.inbound (tfree s.inbound) = { pkt := k, seq := s.seq }) ∧
      (∀ p, defective k = false → ownPeer s ≠ some k.dest → routeTo s k.dest = some p → Leads (.fabricPacketReceive port k) s fun u => left u ∧
        (u.port p).outQ = (s.port p).outQ ++ [k])) ∧
    (∀ (index : Nat) (x : Inbound), s.inbound.find? (fun e => e.1 == index) = some (index, x) → x.stage = .egress →
      (inTurn s x = false → exec (.fabricRequestServe index) s = .next s) ∧
      (inTurn s x = true → sessionFor s x.pkt.src x.pkt.part = none → x.own = none → Leads (.fabricRequestServe index) s fun u =>
        index ∉ tkeys u.inbound ∧ u.mem = s.mem ∧ ∀ p, x.pkt.src ∉ s.lostPeers → routeTo s x.pkt.src = some p → detourPort s p 2 = none →
          ∃ a ∈ (u.port p).outQ, a.status = 3 ∧ a.addr = 6 ∧ a.tag = x.pkt.tag ∧ a.dest = x.pkt.src ∧ a.part = x.pkt.part) ∧
      (∀ t h y, inTurn s x = true → sessionFor s x.pkt.src x.pkt.part = some (t, h) → y.tier = false →
        (x.pkt.typ = 0 → xlate s 64 t (x.pkt.addr % 2 ^ 48) .read false = .ok y → Leads (.fabricRequestServe index) s fun u => ∀ n, n < x.pkt.dlen →
          ∃ r ∈ u.reqs, r.kind = .load ∧ r.inb = some index ∧ r.ctx = h ∧ r.place = .home (y.pa / 64 * 64 + 64 * n)) ∧
        (x.pkt.typ = 1 → xlate s 64 t (x.pkt.addr % 2 ^ 48) .write false = .ok y → Leads (.fabricRequestServe index) s fun u => ∀ n, n < x.pkt.dlen →
          ∃ r ∈ u.reqs, r.kind = .store ∧ r.inb = some index ∧ r.ctx = h ∧ r.place = .home (y.pa / 64 * 64 + 64 * n) ∧
            ∀ (j : Nat) (b : Byte), j < 64 → x.pkt.data[64 * n + j]? = some b → x.pkt.mask.getD (64 * n + j) false = true → (j, b) ∈ r.bytes))) ∧
    (∀ (k : Packet) (r : Req), ownPeer s = some k.dest → k.src ≠ k.dest → requestOf s k = some r → r.kind = .load → k.typ = 8 → k.status = 0 →
      Leads (.fabricResponseReceive k) s fun u => ∃ v, u = pumpFabric v ∧ v.mem = s.mem ∧
        ∃ x ∈ v.reqs, x.id = r.id ∧ x.stage = .reply ∧ x.status = 0 ∧ x.sect = List.replicate (64 * sectLo r) 0 ++ k.data) ∧
    (∀ (index : Nat), inboundOpen s index ≠ [] → respType (tget {} s.inbound index).pkt = 9 →
      ((∀ r ∈ inboundOpen s index, r.stage = .reply ∧ passed s.ct r.ctc = true) → Leads (.fabricWriteAckSend index) s fun u =>
        ∃ v, u = pumpFabric v ∧ v.mem = s.mem ∧ index ∉ tkeys v.inbound ∧ ∀ q ∈ v.reqs, q.inb ≠ some index) ∧
      ((∃ r ∈ inboundOpen s index, r.stage ≠ .reply ∨ passed s.ct r.ctc = false) → exec (.fabricWriteAckSend index) s = .next s)) ∧
    (∀ (tag q off : Nat) (r : Req),
      s.reqs.find? (fun r => r.stage == .held && r.tag == tag && (match r.place with | .peer _ _ => true | _ => false)) = some r →
      r.place = .peer q off → tag < 4096 → r.ctc + 2 ^ 24 ≤ s.ct → Leads (.peerRequestTimeout tag) s fun u => q ∈ u.lostPeers ∧
        (q ∉ s.lostPeers → Reported u 310 4)) ∧
    ∀ q, Leads (.peerResetNotice q) s fun u => q ∈ u.lostPeers ∧ u.mem = s.mem ∧ u.reqs = s.reqs ∧ (q ∉ s.lostPeers → Reported u 310 4)

/-- Fabric links and token buckets (R60–R67, R94, R97): a block is sealed under the key in use, kept until acknowledged, and opened,
accepted in sequence and acknowledged, or refused; a port goes down after eight refusals in a row, trains, times out and is
recalibrated lane by lane; buckets gain their rates.
Where it rests on a choice or a reading of the model, that is log entries 49, 54, 55 and 56. -/
def Obligations.FabricLinks : Prop :=
  ∀ (s : State) (p : Nat), let q := s.port p
    let only := fun (u : State) => u = { s with ports := u.ports }
    let err := fun (u : State) => Reported u (256 + p) 4
    (∀ key, let b := packBlock (tkeys q.stopped) 8 q.outQ
     let c := sealBlock key q.tx.seq q.tx.salt b.1
     portUp s p = true → b.1 ≠ [] → ((q.replay.flatMap fun x => x.pkts).map wireFlits).sum + 8 ≤ 512 → q.tx.key q.tx.slot = some key →
      (q.tx.key q.tx.idle) = none → q.tx.oldLive = false → q.tx.blocks + 1 < 2 ^ 40 - 2 ^ 20 → Leads (.linkBlockSend p) s fun u => only u ∧
        (u.port p).replay = q.replay ++ [{ seq := q.tx.seq, slot := q.tx.slot, pkts := b.1, cipher := c.1, gtag := c.2 }] ∧
        (u.port p).outQ = b.2 ∧ (u.port p).tx.seq = (q.tx.seq + 1) % 2 ^ 40) ∧
    (∀ seq slot gtag cipher, portUp s p = true →
      let opened := (q.rx.key (slot % 2)).bind fun key => openBlock key seq q.rx.salt cipher gtag
      (∀ pkts, opened = some pkts → (∀ vc, vc < 4 → ((pkts.filter fun k => k.vc == vc).map wireFlits).sum ≤ rxFree q vc) →
        (seq = q.rx.seq → Leads (.linkBlockReceive p seq slot gtag cipher) s fun u => only u ∧ (u.port p).inQ = q.inQ ++ pkts ∧
          (u.port p).rx.seq = (seq + 1) % 2 ^ 40 ∧ (u.port p).answer = some (false, seq))) ∧
      (∀ pkts, opened = some pkts → seq ≠ q.rx.seq → Leads (.linkBlockReceive p seq slot gtag cipher) s fun u => only u ∧
        u.port p = { q with answer := (u.port p).answer } ∧
        ((u.port p).answer = some (true, q.rx.seq) ∨ (u.port p).answer = some (false, (q.rx.seq + 2 ^ 40 - 1) % 2 ^ 40))) ∧
      (opened = none → Leads (.linkBlockReceive p seq slot gtag cipher) s fun u => only u ∧
        u.port p = { q with tagFails := min 255 (q.tagFails + 1), answer := some (true, q.rx.seq) })) ∧
    (∀ seq, let behind := fun (b : LinkBlock) => (seq + 2 ^ 40 - b.seq % 2 ^ 40) % 2 ^ 40
      ((∃ b ∈ q.replay, b.seq = seq) → Leads (.linkAckReceive p seq) s fun u => only u ∧
        (u.port p).replay = q.replay.filter fun b => decide (2 ^ 39 ≤ behind b)) ∧
      ((∀ b ∈ q.replay, b.seq ≠ seq) → Leads (.linkAckReceive p seq) s fun u => only u ∧ (u.port p).replay = q.replay)) ∧
    (∀ seq, portUp s p = true → (∃ b ∈ q.replay, b.seq = seq) →
      ((∀ b ∈ q.replay, b.naks < 7) → Leads (.linkNakReceive p seq) s fun u => only u ∧ (u.port p).replays = min 65535 (q.replays + 1) ∧
        (u.port p).replay = q.replay.map fun b => if b.seq = seq then { b with naks := b.naks + 1 } else b) ∧
      ((∃ b ∈ q.replay, b.seq = seq ∧ 7 ≤ b.naks) → Leads (.linkNakReceive p seq) s fun u => portUp u p = false ∧ (u.port p).replay = [] ∧ u.mem = s.mem)) ∧
    (∀ vc, (Leads (.vcStopSignal p vc true) s fun u => only u ∧ vc ∈ tkeys (u.port p).stopped) ∧
      Leads (.vcStopSignal p vc false) s fun u => only u ∧ vc ∉ tkeys (u.port p).stopped) ∧
    (∀ peer rtt, q.state = 1 → let good := s.position.map (fun pos => portPeer pos p) = some peer ∧ rtt ≤ 300 ∧ s.ct < q.deadline
      (good → Leads (.portTrainingDone p peer rtt) s fun u => ∃ v, u = pumpFabric v ∧
        v.mem = s.mem ∧ (v.port p).state = 2 ∧ (v.port p).width = 4 ∧ (v.port p).peer = peer ∧ (v.port p).rtt = rtt ∧ peer ∉ v.lostPeers) ∧
      (¬good → Leads (.portTrainingDone p peer rtt) s fun u => (u.port p).state = 0 ∧ err u)) ∧
    (q.state = 1 → q.deadline ≤ s.ct → Leads (.portTrainingTimeout p) s fun u => (u.port p).state = 0 ∧ err u) ∧
    (q.state = 3 →
      (q.recalLane < 3 → Leads (.linkRecalLaneDone p true) s fun u => only u ∧ u.port p = { q with recalLane := q.recalLane + 1 }) ∧
      (3 ≤ q.recalLane → Leads (.linkRecalLaneDone p true) s fun u => u.port p = { q with state := 2, width := 4, recalLane := 0 } ∧ Recorded u 7 p) ∧
      Leads (.linkRecalLaneDone p false) s fun u => u.port p = { q with state := 2, width := 3, recalLane := 0 } ∧ err u) ∧
    (s.ct % 1500 = 0 → q.refillAt ≠ s.ct → p < 14 → waitingAt s p = [] → Leads (.fabricBucketRefill p) s fun u => ∃ v, u = pumpFabric v ∧ v.reqs = s.reqs ∧
      ∀ t, t < 12 → let b := tget {} s.buckets (bucketKey p t)
        tget {} v.buckets (bucketKey p t) = { b with level := min (b.level + b.rate) (max b.burst b.level) }) ∧
    (s.ct % 1500 = 0 → tget 0 s.l2Refill p ≠ s.ct → p < 64 → Leads (.l2BucketRefill p) s fun u =>
      u = { s with l2Buckets := u.l2Buckets, l2Refill := u.l2Refill } ∧ tget 0 u.l2Refill p = s.ct ∧
      (waitingL2 s p = [] → (liveCtxs s).Nodup → ∀ h ∈ liveCtxs s, let b := tget {} s.l2Buckets (bucketOf p h)
        let left := b.level - min b.lent b.level
        (tget {} u.l2Buckets (bucketOf p h)).level = min (left + (l2Share s h).1) (max (l2Share s h).2 left)))

/-- The host's accesses to device memory, its snoops, and the host-line buffer (R73, R74, R267).
Where it rests on a choice or a reading of the model, that is log entries 4, 76, 92 and 113. -/
def Obligations.HostAccesses : Prop :=
  ∀ (s : State),
    (∀ pa, pa / 64 * 64 + 64 ≤ 0x7FFF000000 →
      let base := pa / 64 * 64
      let waits := fun (u : State) (at_ : Stage) => u.readData = s.readData ∧ u.mem = s.mem ∧ u.hostCached = s.hostCached ∧
        ∃ r ∈ u.reqs, r.kind = .load ∧ r.place = .home base ∧ r.fromHost = true ∧ r.stage = at_ ∧ r.acceptSeq = s.seq ∧ r.cls = 1 ∧ r.deadline = homeCt s base + 1024
      ((∃ x ∈ heldWrites s (pa / 64), x.acceptSeq < s.seq) ∨ resolveTimes s base ≠ [] → Leads (.cxlMemRead pa) s fun u => waits u .held) ∧
      ((∀ x ∈ heldWrites s (pa / 64), s.seq ≤ x.acceptSeq) → resolveTimes s base = [] →
        ((l2Of s base).present = false → Leads (.cxlMemRead pa) s fun u => waits u .miss ∧ linePending u base = true) ∧
        ((l2Of s base).present = true → (∀ r ∈ s.reqs, r.id ≠ s.seq) → Leads (.cxlMemRead pa) s fun u => u.reqs = s.reqs ∧ u.mem = s.mem ∧
          u.readData = (if isPoison s base then List.replicate 64 0xFF else memBytes s base 64) ∧ pa / 64 ∈ u.hostCached))) ∧
    (∀ pa, 0x7FFF000000 < pa / 64 * 64 + 64 → exec (.cxlMemRead pa) s = .next { s with readData := List.replicate 64 0 }) ∧
    (∀ pa bytes, pa + bytes.length ≤ 0x7FFF000000 → pa % 64 + bytes.length ≤ 64 → Leads (.cxlMemWrite pa bytes) s fun u => u.mem = s.mem ∧
      ∃ r, u.reqs = s.reqs ++ [r] ∧ r.kind = .store ∧ r.place = .home (pa / 64 * 64) ∧ r.stage = .held ∧ r.fromHost = true ∧ r.acceptSeq = s.seq ∧
        r.deadline = homeCt s pa + 1024 ∧ ∀ (k : Nat) (b : Byte), bytes[k]? = some b → (pa % 64 + k, b) ∈ r.bytes) ∧
    (∀ pa bytes, 0x7FFF000000 < pa + bytes.length → exec (.cxlMemWrite pa bytes) s = .next s) ∧
    (∀ line x, s.snoops.find? (fun y => y.line == line && !y.answered) = some x → Leads (.bisnpResponse line) s fun u =>
      u = { s with snoops := u.snoops, hostCached := u.hostCached } ∧ u.snoops = (s.snoops.map fun y => if y = x then { y with answered := true } else y) ∧
      (x.inv = true → line ∉ u.hostCached) ∧ (x.inv = false → u.hostCached = s.hostCached)) ∧
    (∀ line bs, s.hostLines.find? (fun e => e.1 == line) = some (line, bs) → Leads (.hostLineSnoop line) s fun u =>
      u = { s with hostMem := u.hostMem, hostLines := u.hostLines, lineCtxs := u.lineCtxs } ∧ line ∉ tkeys u.hostLines ∧
      ∀ (k : Nat) (b : Byte), bs[k]? = some b → hostByte u (64 * line + k) = b) ∧
    (∀ line, s.pkg.linkUp = true → lineOwned s line = false →
      let waits := s.reqs.filter fun r => r.kind == .atomic && r.stage == .egress && !r.hold && r.place == .host (64 * line)
      let polls := (waitersOn s true (64 * line) 64).filter fun e => (s.chan e.1 e.2).v0.isNone || (s.chan e.1 e.2).v1.isNone
      (waits ≠ [] ∨ polls ≠ []) → Leads (.rdownResponse line) s fun u => lineOwned u line = true ∧ u.mem = s.mem ∧
        (∀ r, waits = [r] → s.reqs.find? (fun x => x.id == r.id) = some r → firstOut s r = true → ∃ x ∈ u.reqs, x.id = r.id ∧ x.stage = .reply) ∧
        (∀ p c a, (p, c) ∈ polls → a / 64 = line →
          ((s.chan p c).w0 = some (true, a) → (s.chan p c).v0 = none → (u.chan p c).v0 = some (ofLeBytes (hostView u a 8))) ∧
          ((s.chan p c).w1 = some (true, a) → (s.chan p c).v1 = none → (u.chan p c).v1 = some (ofLeBytes (hostView u a 8)))))

/-- Launch channels (R75–R84, R86).
Where it rests on a choice or a reading of the model, that is log entries 27, 28, 29, 30 and 31. -/
def Obligations.LaunchChannels : Prop :=
  ∀ (s : State) (p c : Nat), let k := s.chan p c
    let halts := fun (u : State) (code : Nat) => (u.chan p c).halted = true ∧ (u.chan p c).err = code ∧ (u.chan p c).head = k.head ∧ bit (u.part p).intStatus 17 = true
    let at_ := parseRecord (memBytes s (256 * k.base + 256 * (k.head % 2 ^ k.sizeLog2)) 256)
    let looks := fun (i : Instr) =>
      (at_.seq ≠ k.head % 2 ^ 16 → k.miss < 15 → Leads i s fun u => u = { s with parts := u.parts } ∧ (u.chan p c) = { k with miss := k.miss + 1, readAt := s.ct }) ∧
      (at_.seq ≠ k.head % 2 ^ 16 → 15 ≤ k.miss → Leads i s fun u => halts u 2 ∧ u.mem = s.mem) ∧
      (at_.seq = k.head % 2 ^ 16 → recordError_ s p at_ ≠ 0 → Leads i s fun u => halts u (recordError_ s p at_) ∧ u.mem = s.mem) ∧
      (∀ a b, at_.seq = k.head % 2 ^ 16 → recordError_ s p at_ = 0 → waitPlace s p at_.wait0 = some a → waitPlace s p at_.wait1 = some b →
        Leads i s fun u => (u.chan p c).wait = some at_ ∧ (u.chan p c).w0 = a ∧ (u.chan p c).w1 = b ∧ (u.chan p c).head = k.head ∧ u.ctxs = s.ctxs ∧
          (u.chan p c).ready = (waitHolds u (at_.wait0 % 8) at_.wait0v a (pollWord s a) && waitHolds u (at_.wait1 % 8) at_.wait1v b (pollWord s b))) ∧
      (at_.seq = k.head % 2 ^ 16 → recordError_ s p at_ = 0 → (waitPlace s p at_.wait0 = none ∨ waitPlace s p at_.wait1 = none) →
        Leads i s fun u => halts u 11 ∧ u.mem = s.mem)
    (p < 12 → c < 16 → ∀ v : W64, let x := v.toNat
      let size := if k.enable then k.sizeLog2 else ringLog (bits x 44 40)
      let base := if k.enable then k.base else bits x 38 8
      (bit x 63 = true → k.enable = false → ringOk s p (256 * base) (256 * 2 ^ size) = false → Leads (.chanCfgWrite p c v) s fun u =>
        u = { s with parts := u.parts } ∧ u.chan p c = { k with err := 10 }) ∧
      (bit x 63 = true → k.enable = true ∨ ringOk s p (256 * base) (256 * 2 ^ size) = true → Leads (.chanCfgWrite p c v) s fun u =>
        u = { s with parts := u.parts } ∧ u.chan p c = { k with enable := true, prio := min (bits x 55 48) (s.part p).prioCap, sizeLog2 := size, base := base }) ∧
      (bit x 63 = false → Leads (.chanCfgWrite p c v) s fun u => (u.chan p c).enable = false ∧ (u.chan p c).head = k.head ∧ (u.chan p c).tail = k.tail ∧
        (u.chan p c).miss = k.miss ∧ (u.chan p c).halted = k.halted)) ∧
    (p < 12 → c < 16 → ∀ t : W32, s.pkg.ready = true → t.toNat ≠ k.tail →
      ((t.toNat + 2 ^ 32 - k.head) % 2 ^ 32 ≤ 2 ^ k.sizeLog2 → Leads (.chanDoorbell p c t) s fun u => (u.chan p c).tail = t.toNat ∧
        (u.chan p c).head = k.head ∧ (u.chan p c).halted = k.halted ∧ u.mem = s.mem) ∧
      (2 ^ k.sizeLog2 < (t.toNat + 2 ^ 32 - k.head) % 2 ^ 32 → Leads (.chanDoorbell p c t) s fun u => halts u 1 ∧ (u.chan p c).tail = k.tail)) ∧
    (p < 12 → c < 16 → k.halted = true → Leads (.chanHaltedClear p c) s fun u => u = { s with parts := u.parts } ∧ u.chan p c = { k with halted := false, miss := 0 }) ∧
    (p < 12 → c < 16 → k.halted = true → k.head ≠ k.tail → Leads (.chanSkip p c) s fun u => u = { s with parts := u.parts } ∧
      (u.chan p c).head = (k.head + 1) % 2 ^ 32 ∧ (u.chan p c).halted = false ∧ (u.chan p c).tail = k.tail) ∧
    (headDue s k = true → k.miss = 0 → looks (.recordAtHead p c)) ∧
    (headDue s k = true → k.miss ≠ 0 → k.readAt + 1500 ≤ s.ct → looks (.recordSeqRecheck p c)) ∧
    (∀ r, k.wait = some r → k.ready = false → (onHost k.w0 || onHost k.w1) = true → s.pkg.linkUp = true → k.pollAt + 1500 ≤ s.ct →
      Leads (.syncWordPollHost p c) s fun u =>
        u = { s with parts := u.parts } ∧ (u.chan p c).pollAt = s.ct ∧ (u.chan p c).v0 = pollWord s k.w0 ∧ (u.chan p c).v1 = pollWord s k.w1 ∧
        (u.chan p c).ready = (waitHolds s (r.wait0 % 8) r.wait0v k.w0 (pollWord s k.w0) && waitHolds s (r.wait1 % 8) r.wait1v k.w1 (pollWord s k.w1))) ∧
    (∀ r, k.wait = some r → r.kind = 0 → startsFirst s p c = true → Leads (.recordStart p c) s fun u => let x := u.context (tfree s.ctxs)
      x.live = true ∧ x.part = p ∧ x.chan = c ∧ x.index = k.head ∧ x.record = r ∧ x.prio = k.prio ∧ x.nextGang = 0 ∧
      (u.chan p c).head = (k.head + 1) % 2 ^ 32 ∧ Recorded u 1 0 ∧ u.mem = s.mem ∧ u.blocks = s.blocks) ∧
    (∀ r, k.signalReq.find? (fun e => signalDone s e.1) = none → k.wait = some r → r.kind = 1 → startsFirst s p c = true →
      (r.signal % 8 = 0 → Leads (.markerSignal p c) s fun u => (u.chan p c).head = (k.head + 1) % 2 ^ 32 ∧ Recorded u 2 0 ∧ u.mem = s.mem ∧ u.ctxs = s.ctxs) ∧
      (∀ host pa x, (r.signal % 8 = 1 ∨ r.signal % 8 = 2) → syncPlace s p r.signal .write = some (host, pa, x) → Leads (.markerSignal p c) s fun u =>
        (u.chan p c).head = (k.head + 1) % 2 ^ 32 ∧ ∃ q ∈ u.reqs, q.kind = (if r.signal % 8 = 1 then .store else .atomic) ∧
          q.place = (if host then .host (pa / 64 * 64) else .home (pa / 64 * 64)) ∧ q.sub = 0 ∧ q.ty = .n64 ∧
          q.parts = [{ off := pa % 64, w := 8, opB := r.signalV }] ∧
          (∀ j, j < 8 → (pa % 64 + j, BitVec.ofNat 8 (r.signalV >>> (8 * j))) ∈ q.bytes) ∧ (u.chan p c).signalReq = k.signalReq ++ [(q.id, r)]) ∧
      (r.signal % 8 ≠ 0 → syncPlace s p r.signal .write = none → Leads (.markerSignal p c) s fun u => (u.chan p c).head = (k.head + 1) % 2 ^ 32 ∧
        (u.chan p c).halted = true ∧ (u.chan p c).err = 11 ∧ Recorded u 2 11 ∧ u.mem = s.mem)) ∧
    (∀ e, k.signalReq.find? (fun e => signalDone s e.1) = some e → Leads (.markerSignal p c) s fun u => (u.chan p c).signalReq = k.signalReq.erase e ∧
      Recorded u 2 0 ∧ u.mem = s.mem)

/-- Contexts, gangs and blocks (R85, R114, R119, R122–R125, R266): placement in the order of R123, pre-emption, the end of a save,
resumption, a refill of an item queue, the end of a group, of a block and of a context.
Where it rests on a choice or a reading of the model, that is log entries 27, 28, 36, 37, 38, 39, 40, 72 and 103. -/
def Obligations.ContextsAndGangs : Prop :=
  ∀ (s : State) (h gang : Nat),
    let part := (s.context h).part
    (∀ t, running s = true → served s part = some (h, .fresh gang, t) → exec (.gangPlace h) s = .next t ∧ (t.context h).nextGang = gang + 1 ∧ t.mem = s.mem ∧
      ∀ b ∈ gangBlocks t h gang, (t.block b).resident = true) ∧
    (∀ t, running s = true → served s part = some (h, .saved gang, t) → exec (.gangResume h gang) s = .next (gangBack t h gang) ∧
      gang ∉ (t.context h).saved ∧ t.mem = s.mem ∧ ∀ b ∈ gangBlocks t h gang, (t.block b).resident = true) ∧
    ((∃ c ∈ partCtxs s part, (victims s c).head? = some (h, gang)) → Leads (.gangPreempt h gang) s fun u => gang ∈ (u.context h).saving ∧
      ((∀ b ∈ gangBlocks s h gang, ∀ g ∈ tkeys (s.block b).groups, takeNext s b g (fun _ => true) = none) → u.mem = s.mem) ∧
      ∀ b ∈ gangBlocks s h gang, ∀ e ∈ (u.block b).groups, e.2.stopped = true) ∧
    (let t := saveGang s h gang
     gang ∈ (s.context h).saving → (∀ b ∈ gangBlocks s h gang, blockDrained s b = true) → s.pkg.clockStopped = false →
      gang ∈ (t.context h).saving → (∀ b ∈ gangBlocks t h gang, (t.block b).savedIn ≠ .core) → Leads (.preemptSaveDone h gang) s fun u =>
        gang ∉ (u.context h).saving ∧ gang ∈ (u.context h).saved ∧ u.mem = t.mem ∧ ∀ b ∈ gangBlocks t h gang, (u.block b).resident = false) ∧
    (∀ core, let bs := unsavedOn s h gang core
      let t := packBlocks s bs
      bs ≠ [] → gang ∈ (s.context h).saving → saveFaultOf t h bs = none →
        (saveCore h gang s core).mem = (writeSlots t h bs).mem ∧ ∀ b ∈ bs, ((saveCore h gang s core).block b).savedIn = .slot) ∧
    (∀ core, running s = true → refillDue s core = some h → let x := s.context h
      let n := min (x.record.chunk - x.returned.length) (x.record.itemCount - x.itemNext)
      Leads (.itemRefill core) s fun u => (u.context h).returned = x.returned.drop x.record.chunk ∧ (u.context h).itemNext = x.itemNext + n ∧ u.mem = s.mem) ∧
    (∀ b g, let q := s.group b g
      q.exists_ = true → q.ended = false → q.live = 0 → (s.block b).resident = true →
      (∀ e ∈ (s.core (s.block b).core).lent, e.1 / 512 ≠ 16 * b + g) → copiesInto s b (some g) = false → Leads (.groupEnd b g) s fun u =>
        u.group b g = { exists_ := true, ended := true, words := q.words } ∧ u.mem = s.mem ∧ u.reqs = s.reqs) ∧
    (∀ b, let k := s.block b
      k.resident = true → k.ended = false → k.groups ≠ [] → (∀ g ∈ tkeys k.groups, (s.group b g).ended = true) → copiesInto s b none = false →
      (∀ m ∈ (s.core k.core).mmaQ, m.block ≠ b) → Leads (.blockEnd b) s fun u => (u.block b).ended = true ∧ (u.block b).resident = false ∧ u.mem = s.mem ∧
        ∀ t, (tget {} (u.core k.core).tiles t).token ≠ .vec b ∧ (tget {} (u.core k.core).tiles t).token ≠ .mat b) ∧
    let gone := fun (u : State) => u.context h = {} ∧ (∀ e ∈ u.blocks, e.2.ctx ≠ h) ∧
      (∀ n, (s.context h).hctx = some n → u.hctxOf n = {} ∧ ∀ v ∈ u.versions, v.hctx ≠ n) ∧
      ((∀ v ∈ s.versions, v.stored = false ∨ (s.context h).hctx ≠ some v.hctx) → u.mem = s.mem)
    ((s.context h).signalReq = none → ctxDone s h = true →
      ((s.context h).record.signal % 8 = 0 → Leads (.contextComplete h) s fun u => gone u ∧ Recorded u 2 0) ∧
      (∀ host pa x, (s.context h).record.signal % 8 = 2 → syncPlace s part (s.context h).record.signal .write = some (host, pa, x) → Leads (.contextComplete h) s fun u =>
        ∃ r ∈ u.reqs, r.kind = .atomic ∧ r.sub = 0 ∧ r.ty = .n64 ∧ r.place = (if host then .host (pa / 64 * 64) else .home (pa / 64 * 64)) ∧
          r.parts = [{ off := pa % 64, w := 8, opB := (s.context h).record.signalV }] ∧ (u.context h).signalReq = some r.id)) ∧
    ((s.context h).signalReq = none → ctxDone s h = false → exec (.contextComplete h) s = .next s) ∧
    (∀ id, (s.context h).signalReq = some id →
      (signalDone s id = true → Leads (.contextComplete h) s fun u => gone u ∧ Recorded u 2 0) ∧
      (signalDone s id = false → exec (.contextComplete h) s = .next s))

/-- The home slices and what returns from them (R43, R45, R84, R94, R102, R153, R158–R165, R180, R200–R203, R218–R225): a write takes
its place in its sector's order, once its context's bucket holds a token, and is applied once the leases have passed, then visible in
memory, or kept as a version; a load is held, served with the visible bytes, or asks for its line; a line is evicted to the memory-side
cache or the vat; a copy in L1 fades at the end of its lease; a reply, a wait limit, a completion and a page walk reach their lanes.
Where it rests on a choice or a reading of the model, that is log entries 24, 74, 98, 99, 100 and 102. -/
def Obligations.HomeSlices : Prop :=
  ∀ (s : State) (req pa : Nat) (r : Req), let sec := sectorOf pa
    (s.reqs.filter (fun x => x.id == req) = [r] → r.place = .home pa →
      let at_ := fun (u : State) (g : Stage) => ∃ x ∈ u.reqs, x.id = req ∧ x.stage = g
      (∀ src, src = .lane req ∨ src = .fabric req → r.stage = .egress → r.hold = false → r.kind = .store ∨ r.kind = .atomic → firstOut s r = true →
        (∀ t, l2Charge s r pa = some t → Leads (.l2StoreAccept src) s fun u => u.mem = s.mem ∧ ∃ x ∈ u.reqs,
          x = { r with stage := .held, acceptSeq := s.seq, deadline := if r.inb.isSome then homeCt s pa + 1024 else r.deadline }) ∧
        (l2Charge s r pa = none → exec (.l2StoreAccept src) s = .next s)) ∧
      (r.kind = .store ∨ r.kind = .atomic → applicable s r pa = false → exec (.l2StoreApply req) s = .next s) ∧
      (applicable s r pa = true → r.fromHost = false → (∀ x ∈ heldLoads s sec, x.hyp = 0) →
        (r.kind = .atomic → (l2Of s pa).present = false → channelDown s pa = false → Leads (.l2StoreApply req) s fun u => at_ u .miss ∧ u.mem = s.mem ∧
          linePending u pa = true) ∧
        (writeWaits s r pa = none → snoopDue s pa true = true → Leads (.l2StoreApply req) s fun u => u = { s with snoops := u.snoops } ∧
          ∃ x ∈ u.snoops, x.line = sec ∧ x.inv = true ∧ x.answered = false) ∧
        (writeWaits s r pa = none → snoopDue s pa true = false →
          (r.kind = .store → r.hyp = 0 → (l2Of s pa).present = false → channelDown s pa = true → Leads (.l2StoreApply req) s fun u => u.mem = s.mem ∧ at_ u .reply) ∧
          ((l2Of s pa).present = true ∨ channelDown s pa = false →
            (r.kind = .store → r.hyp = 0 → (r.bytes.map Prod.fst).Nodup → Leads (.l2StoreApply req) s fun u =>
              (∀ e ∈ r.bytes, memByte u (pa + e.1) = e.2) ∧ (∀ a, (∀ e ∈ r.bytes, a ≠ pa + e.1) → memByte u a = memByte s a) ∧ at_ u .reply) ∧
            (∀ p, r.kind = .atomic → r.parts = [p] → let old := memRead s (pa + p.off) p.w
              Leads (.l2StoreApply req) s fun u => memRead u (pa + p.off) p.w = atomNew r.sub r.amod r.ty old p.opB p.opC % 256 ^ p.w ∧
                (∀ a, a < pa + p.off ∨ pa + p.off + p.w ≤ a → memByte u a = memByte s a) ∧ at_ u .reply)) ∧
          (r.kind = .store → r.hyp ≠ 0 → (r.bytes.map Prod.fst).Nodup →
            (s.versions.any (fun v => v.hctx == r.hctx && v.id == r.hyp && v.sector == sec) = true ∨
              (firstIdx (vatEntries s r.ctx) fun k => !((versionsOf s r.hctx).map fun v => v.entry).contains k).isSome = true) →
            Leads (.l2StoreApply req) s fun u => at_ u .reply ∧
              (∃ v ∈ u.versions, v.hctx = r.hctx ∧ v.id = r.hyp ∧ v.sector = sec ∧ ∀ e ∈ r.bytes, tget 0 v.data e.1 = e.2 ∧ v.mask.getLsbD e.1 = decide (e.1 < 64)) ∧
              ((l2Same s (l2Key (sec / 4) r.hctx r.hyp)).length < 16 → u.mem = s.mem)))) ∧
      (r.kind = .load → r.join = none → r.fromHost = false →
        (r.stage = .egress → (firstOut s r = false ∨ l2Charge s r pa = none) → exec (.l2LoadServe req .none) s = .next s) ∧
        ((r.stage = .egress ∧ firstOut s r = true ∧ (l2Charge s r pa).isSome = true ∧ (∃ x ∈ heldWrites s sec, x.acceptSeq < s.seq)) ∨
            (r.stage = .held ∧ ∃ x ∈ heldWrites s sec, x.acceptSeq < r.acceptSeq) → Leads (.l2LoadServe req .none) s fun u => u.mem = s.mem ∧ at_ u .held) ∧
        ((r.stage = .egress ∧ firstOut s r = true ∧ (l2Charge s r pa).isSome = true) ∨ r.stage = .held → heldWrites s sec = [] → resolveTimes s pa = [] →
          ((l2Of s pa).present = false → Leads (.l2LoadServe req .none) s fun u => u.mem = s.mem ∧ at_ u .miss ∧ linePending u pa = true) ∧
          ((l2Of s pa).present = true → snoopDue s pa false = false → (r.hyp = 0 ∨ farVersion s r.hctx r.hyp sec = none) →
            Leads (.l2LoadServe req .none) s fun u => u.mem = s.mem ∧ ∃ x ∈ u.reqs, x.id = req ∧ x.stage = .reply ∧ x.lease = leaseFor s r pa ∧
              (r.hyp = 0 → x.status = if isPoison s pa then 1 else 0) ∧ x.sect = viewBytes s (if r.hyp = 0 then none else some r.hctx) r.hyp pa 64) ∧
          ((l2Of s pa).present = true → snoopDue s pa false = false → r.hyp = 0 → (l2Of s pa).dirty ≠ 0 → Leads (.l2LoadServe req .l2Uncorrectable) s fun u =>
            sec ∈ u.poison ∧ Reported u 310 3 ∧ ∃ x ∈ u.reqs, x.id = req ∧ x.stage = .reply ∧ x.status = 1) ∧
          ((l2Of s pa).present = true → (l2Of s pa).dirty = 0 → Leads (.l2LoadServe req .l2Uncorrectable) s fun u =>
            u.mem = s.mem ∧ at_ u .miss ∧ linePending u pa = true ∧ Reported u 310 2)))) ∧
    (∀ key, let l := tget {} s.l2 key
      let base := 256 * keyLine key
      let sent := fun (u : State) (a : Nat) (q : StackReq → Prop) => ∃ x ∈ (u.stack (stackOf a)).reqs ++ (u.stack (stackOf a)).waits, x.kind = 3 ∧ q x
      (l.present = false → exec (.l2Eviction key) s = .next s) ∧
      (l.present = true → keyTag key = 0 → Leads (.l2Eviction key) s fun u => u.mem = s.mem ∧ key ∉ tkeys u.l2 ∧
        (∀ e ∈ l.lease, e.2 ≤ evictLeaseOf u base) ∧ (l.dirty = 0 → l.hits < 2 → u.memStacks = s.memStacks) ∧
        (l.dirty ≠ 0 ∨ 2 ≤ l.hits → sent u base fun x => x.addr = key * 4 ∧ x.mask = l.dirty ∧ x.cls = 2)) ∧
      (∀ v a, l.present = true → keyTag key ≠ 0 → s.versions.filter (inKey key) = [v] → vatPa s v.hctx v.entry = some a →
        Leads (.l2Eviction key) s fun u => key ∉ tkeys u.l2 ∧ (∀ w ∈ u.versions, inKey key w = false) ∧
          sent u a fun x => x.addr = a / 256 * 4 ∧ x.hctx = v.hctx ∧ x.hyp = v.id)) ∧
    (∀ core sector, let x := tget {} (s.core core).l1 sector
      x.valid = true → holds (coreCt s core) x.expiry = false → Leads (.leaseExpiry core sector) s fun u => u = { s with cores := u.cores } ∧
        tget {} (u.core core).l1 sector = { x with valid := false, faded := true }) ∧
    (∀ p l, s.reqs.find? (fun x => x.id == req) = some r → (∀ x ∈ s.reqs, x.join ≠ some req) → r.kind = .load → r.inb = none → r.copy = none → r.stage = .reply →
      r.place = .home pa → r.status = 0 → r.parts = [p] → shapedFor s r = 0 → guessedNow s r = false → (s.group r.block r.grp).loadOf r.load = some l →
      inMask l.waiting p.lane = true → tget 0 l.limit p.lane = 0 → l.sdest = none → p.lane < 32 →
      (∀ k, (s.group r.block r.grp).late l.word (vKey (l.dest + k) p.lane) = false) → Leads (.loadReplyArrival req) s fun u =>
        u.mem = s.mem ∧ (∀ x ∈ u.reqs, x.id ≠ req) ∧
        ∀ (k : Nat) (x : W32), (extLoad l.ty (r.sect.drop p.off))[k]? = some x → (u.group r.block r.grp).vReg (l.dest + k) p.lane = x ∧
          (u.group r.block r.grp).vGuess (l.dest + k) p.lane = false) ∧
    (∀ b g load L l, L < 32 → (s.group b g).loadOf load = some l →
      (limitDue s b g l L = false → exec (.waitLimitExpiry b g load L) s = .next s) ∧
      (limitDue s b g l L = true → l.slot = none →
        ((s.group b g).freeSlot = none → Leads (.waitLimitExpiry b g load L) s fun u => u.mem = s.mem ∧ u.reqs = s.reqs ∧ RegsKept (s.group b g) (u.group b g)) ∧
        (∀ k, (s.group b g).freeSlot = some k → (∀ j, (s.group b g).late l.word (vKey (l.dest + j) L) = false) →
          Leads (.waitLimitExpiry b g load L) s fun u => u.mem = s.mem ∧ u.reqs = s.reqs ∧ ∀ (j : Nat) (x : W32), (prediction s b g l L)[j]? = some x →
            (u.group b g).vReg (l.dest + j) L = x ∧ (u.group b g).vGuess (l.dest + j) L = true))) ∧
    (∀ b g load L l, (s.group b g).loadOf load = some l → (limitDue s b g l L = true ↔
      running s = true ∧ inMask l.waiting L = true ∧ tget 0 l.limit L ≠ 0 ∧ l.issueCt + tget 0 l.limit L ≤ coreCt s (s.block b).core ∧ inMask l.noGuess L = false ∧
        (s.group b g).stopped = false ∧ ∀ x, laneReq s b g l.id L = some x → (∀ h a, x.place ≠ .gang h a) ∧ x.due s = false)) ∧
    (s.reqs.find? (fun x => x.id == req) = some r → r.inb = none → r.fromHost = false → r.core ≠ 64 → r.place = .home pa → r.kind = .store → r.stage = .reply →
      r.copy = none → Leads (.writeCompletionReturn req) s fun u => u.mem = s.mem ∧ (∀ x ∈ u.reqs, x.id ≠ req) ∧
        ∀ p ∈ r.parts, inMask (s.group r.block r.grp).live p.lane = true → r.ctc ≤ ((u.group r.block r.grp).lane p.lane).pct) ∧
    (∀ core part va b g pc m x, (b, g) ∈ walkers s core part → issueSet (s.group b g) = some (pc, m) → pc < 2 ^ 48 → pc / 4096 = va / 4096 →
      walk s part va = .ok x → walkServes s part x (va, .fetch, false) = true → Leads (.translationWalkDone core part va) s fun u => u.blocks = s.blocks ∧
        tget {} (u.core core).tlb (va / 4096) = { x with acc := true } ∧ (x.acc = true → u.mem = s.mem) ∧
        (x.acc = false → memRead u x.leaf 8 = memRead s x.leaf 8 ||| 2 ^ 10))

/-- Engine events and wakes (R170, R246–R250, R253, R254, R269, R270, R395, R430, R432): a COPY's line arrives, its receivers are ready,
it completes with a record on Q2; an MMA is accepted, reads, and writes its deckle; a machine check and HOST_LINK are taken; a sleeper,
a waiter and a held BBLOG go on.
Where it rests on a choice or a reading of the model, that is log entries 23, 40, 67, 69 and 95. -/
def Obligations.EnginesAndWakes : Prop :=
  ∀ (s : State) (b g L : Nat),
    let core := (s.block b).core
    let lpcTo := fun (u : State) (L pc : Nat) => ((u.group b g).lane L).lpc = w64 (landing s b pc)
    (∀ job h ln j, jobOf s job = some (b, j) → (h, ln) ∈ j.lines → j.status = 0 → j.rbit = none → copyAwake s b = true → ln < 4096 →
      (j.form = 2 → ∀ l ∈ j.lines, ln ≤ l.2) →
      (∀ r ∈ j.runs, r.dst.toNat / 256 = ln → (runBytes s b j r).isSome = true) → 2 ≤ (tget {} (s.block h).lines ln).pending →
      Leads (.scratchLinePresent job (4096 * h + ln)) s fun u => u.mem = s.mem ∧
        tget {} (u.block h).lines ln = { present := false, pending := (tget {} (s.block h).lines ln).pending - 1 }) ∧
    (∀ job j r, jobOf s job = some (b, j) → j.rbit = some r → j.dsts.Nodup → copyAwake s b = true → (∀ h ∈ j.dsts, bit (s.block h).mcReady r = true) →
      (∀ k ∈ tkeys s.blocks, sameGang s k b = true → ∀ x ∈ (s.block k).copies, x.rbit = some r → j.id ≤ x.id) →
      Leads (.multicastReadyMet job) s fun u => ∃ v, u = copyPump v b job ∧ v.mem = s.mem ∧ ∀ h ∈ j.dsts, bit (v.block h).mcReady r = false) ∧
    (∀ job j, jobOf s job = some (b, j) → copyFinished s b j = true → j.status = 0 → j.regs = [] → (∀ x ∈ queueUses s b 2, x.1 = false) →
      parkedOn s [b] (fun p => p.cause == pkQueue && p.detail == 2) = [] → Leads (.copyComplete job) s fun u => u.mem = s.mem ∧
        queueOf u b 2 = queueOf s b 2 ++ [copyRecord j] ∧ ∀ x ∈ (u.block b).copies, x.id ≠ job) ∧
    (∀ x, (s.core core).mmaWait.find? (fun x => x.block == b && x.grp == g && x.lane == L) = some x → (s.core core).mmaQ.length < 8 →
      inMask (s.group b g).live L = true → ((s.group b g).lane L).lpc = x.pc → ((s.group b g).lane L).park.cause = 0 → inMask x.mask L = true →
      (let q := s.group b g; q.trapMode = true → q.handlerSet &&& q.live &&& ~~~q.rteHeld ≠ 0) → running s = true → Leads (.mmaAccept b g L) s fun u => u.mem = s.mem ∧ lpcTo u L (x.pc.toNat + 8) ∧
        ∃ m, (u.core core).mmaQ = (s.core core).mmaQ ++ [m] ∧ m.id = (s.core core).nextCmd ∧ m.tile = x.cmd.tile ∧ m.block = x.cmd.block ∧ m.reads = x.cmd.reads) ∧
    (∀ k c cs, (s.core k).mmaQ = c :: cs → c.reads < c.cycles → c.start ≤ (s.core k).cycles → c.reads = 0 ∨ c.lastRead < (s.core k).cycles →
      (∀ p ∈ c.places c.reads, linePresent s c.block p.1 = true ∧ linePresent s c.block (p.1 + p.2 - 1) = true) → running s = true →
      Leads (.mmaReadCycle k) s fun u => u = { s with cores := u.cores } ∧ (u.core k).tiles = (s.core k).tiles ∧
        (u.core k).mmaQ = mmaRead s c (s.core k).cycles :: cs) ∧
    (∀ k c cs, (s.core k).mmaQ = c :: cs → c.cycles ≤ c.reads → c.lastRead + 32 ≤ (s.core k).cycles → running s = true → c.n ≤ 128 →
      let old := fun (e : Nat) => tget 0 (tget {} (s.core k).tiles c.tile).data e
      Leads (.mmaCommandDone k) s fun u => let new := fun (e : Nat) => tget 0 (tget {} (u.core k).tiles c.tile).data e
        u.mem = s.mem ∧ (∀ i j, i < c.m → j < c.n → new (128 * i + j) = mmaElem c (old (128 * i + j)) i j) ∧
        (∀ e, c.m ≤ e / 128 ∨ c.n ≤ e % 128 → new e = old e) ∧ (u.core k).mmaQ.length = cs.length) ∧
    (∀ p, boundaryOpen s b g = true → (s.group b g).live ≠ 0 → p.cm = none →
      let all := fun (u : State) (cause : Nat) (cm : Mask) => let q := u.group b g
        q.trapCause = w64 (p.eseq % 2 ^ 32 * 2 ^ 32 + p.detail % 256 * 256 + cause) ∧ q.faultMask = (s.group b g).live ∧ q.causeMask = cm ∧
        RegsKept (s.group b g) q ∧ u.mem = (tableRead s b g cause).mem
      (nextPend (s.group b g) (· == 0x17) = some p → Leads (.machineCheckTaken b g) s fun u => all u 0x17 (s.group b g).live) ∧
      (nextPend (s.group b g) (· == 0x1A) = some p → Leads (.hostLinkTrap b g) s fun u => all u 0x1A (failedLanes (s.group b g) 0x1A))) ∧
    (parkedNow s b g L 8 = true → let l := (s.group b g).lane L
      l.park.x.toNat ≤ coreCt s core → Leads (.sleepWake b g L) s fun u => u = { s with blocks := u.blocks } ∧
        ((u.group b g).lane L).park = {} ∧ lpcTo u L (l.lpc.toNat + 8) ∧ RegsKept (s.group b g) (u.group b g)) ∧
    (∀ n, parkedNow s b g L 10 = true → let l := (s.group b g).lane L
      let now := eventsNow s b (l.park.x.toNat % 2 ^ 32) l.park.marks
      opD (l.park.insn.getD {}) = .v n → now ≠ 0 ∨ (l.park.y ≠ 0 ∧ l.park.since + l.park.y.toNat ≤ coreCt s core) → Leads (.waitevRelease b g L) s fun u =>
        ((u.group b g).lane L).park = {} ∧ lpcTo u L (l.lpc.toNat + 8) ∧ (u.group b g).vReg n L = w32 now ∧ (u.group b g).vGuess n L = false ∧ u.mem = s.mem) ∧
    (∀ ctx x, (s.context ctx).logWait.find? (fun x => (s.block x.block).resident && !(s.group x.block x.grp).stopped) = some x → logReady s ctx = true →
      (s.block x.block).ctx = ctx → Leads (.programRecordDue ctx) s fun u => Recorded u 11 x.code ∧ (u.context ctx).lastLog = some s.ct ∧ u.mem = s.mem)

/-- The steps of a resolve (R213, R221–R223): E is fixed once nothing tagged is on its way, no earlier than every lease of an affected
sector; at E a refute drops its versions and a confirm merges them; the ids retire, then are free; refuted lanes go to their handler.
Where it rests on a choice or a reading of the model, that is log entries 79, 91 and 101. -/
def Obligations.ResolveSteps : Prop :=
  ∀ (s : State) (x : Nat) (r : Resolve) (rest : List Resolve),
    (s.hctxOf x).queue = r :: rest →
    (r.e = none → let ids := resolveIds s x r
      (egressClear s x ids = false ∨ storesDone s x ids = false → exec (.resolveEgressDrained x) s = .next s) ∧
      (egressClear s x ids = true → storesDone s x ids = true → farVersions s x r = [] → hostSectors s x r = [] → Leads (.resolveEgressDrained x) s fun u =>
        u = { s with hctxs := u.hctxs } ∧ ∃ e, (u.hctxOf x).queue = { r with ids := ids, sectors := affected s x ids, started := true, e := some e } :: rest ∧
          (u.hctxOf x).lastE = e ∧ (s.hctxOf x).lastE ≤ e ∧ s.ct ≤ e ∧ dieCt s 0 ≤ e ∧ dieCt s 1 ≤ e ∧ ∀ sec ∈ affected s x ids, leaseMax s (64 * sec) + 4 ≤ e)) ∧
    (∀ e ctx, r.e = some e → (s.hctxOf x).ctx = some ctx →
      (s.ct < e ∨ dieCt s 0 < e ∨ dieCt s 1 < e → exec (.resolveEffect x) s = .next s) ∧
      (e ≤ s.ct → e ≤ dieCt s 0 → e ≤ dieCt s 1 → Leads (.resolveEffect x) s fun u =>
        (u.hctxOf x).queue = rest ∧ (e, r.sectors) ∈ (u.hctxOf x).settling ∧ (∀ d ∈ r.ids, (nodeOf u x d).state = 3) ∧ Recorded u 4 r.id ∧
        (r.confirm = false → ∀ v ∈ u.versions, v.hctx = x → v.id ∉ r.ids) ∧
        (r.confirm = true → r.id ≠ 0 → (∀ v ∈ s.versions, v.hctx = x → v.id ≠ r.id) →
          u.versions = (s.versions.map fun v => if v.hctx = x then { v with back := false } else v) ∧ u.mem = s.mem) ∧
        (∀ v, r.confirm = true → r.id ≠ 0 → (nodeOf s x r.id).parent = 0 → s.versions.filter (fun w => w.hctx == x && w.id == r.id) = [v] → v.stored = false →
          ((l2Of s (64 * v.sector)).present = true ∨ channelDown s (64 * v.sector) = false) →
          (∀ k, k < 64 → memByte u (64 * v.sector + k) = if v.mask.getLsbD k then tget 0 v.data k else memByte s (64 * v.sector + k)) ∧
          ∀ a, (a < 64 * v.sector ∨ 64 * v.sector + 64 ≤ a) → memByte u a = memByte s a))) ∧
    (∀ id, id ≠ 0 → (nodeOf s x id).state = 3 → egressClear s x [id] = true → idServed s x id = true → discarding s x id = false → Leads (.hypIdRetire x id) s fun u => u = { s with hctxs := u.hctxs } ∧ nodeOf u x id = {}) ∧
    (∀ b g L id parent handler reason, boundaryOpen s b g = true → L ∈ refutedLanes (s.group b g) → (s.group b g).trapMode = false →
      ((s.group b g).lane L).refuted = some (id, parent, handler, reason) → Leads (.refuteRedirect b g L) s fun u => let l := (u.group b g).lane L
        l.hyp = parent ∧ l.hrefute = id + 256 * reason ∧ l.refuted = none ∧ l.lpc = w64 (landing s b handler.toNat) ∧ u.mem = s.mem)

/-- The host's registers (R14, R21, R36, R41, R62, R72, R92, R101, R154, R156, R157, R211, R260, R261): the rings are configured or the
write refused whole, an invalidation starts and is acknowledged, a fault reply resumes or aborts a parked group, and the registers
that a read clears return their fields.
Where it rests on a choice or a reading of the model, that is log entries 31, 76 and 108. -/
def Obligations.HostRegisters : Prop :=
  ∀ (s : State) (p : Nat), let q := s.part p
    let parts := fun (u : State) => u = { s with parts := u.parts }
    let reads := fun (i : Instr) (x : Nat) (E : State → Prop) => Leads i s fun u => u.readOut = w64 x ∧ E u
    (p < 12 → ∀ v : W64, let x := v.toNat
      let size := if q.logEnable then q.logSize else bits x 43 40
      let base := if q.logEnable then q.logBase else bits x 38 12
      let bad := bit x 63 && !q.logEnable && !ringOk s p (4096 * base) (8 * 2 ^ (size + 9))
      (bad = true → exec (.dirtyLogCfgWrite p v) s = .next s) ∧
      (bad = false → Leads (.dirtyLogCfgWrite p v) s fun u => parts u ∧
        u.part p = { q with logEnable := bit x 63, logSize := size, logBase := base, logOvf := q.logOvf && !bit x 0 })) ∧
    (p < 12 → ∀ v : W64, let x := v.toNat
      let size := if q.ringEnable then q.ringSize else bits x 43 40
      let base := if q.ringEnable then q.ringBase else bits x 38 12
      let bad := bit x 63 && !q.ringEnable && !ringOk s p (4096 * base) (16 * 2 ^ (size + 8))
      (bad = true → exec (.faultRingCfgWrite p v) s = .next s) ∧
      (bad = false → Leads (.faultRingCfgWrite p v) s fun u => parts u ∧
        u.part p = { q with ringEnable := bit x 63, ringSize := size, ringBase := base })) ∧
    (p < 12 → ∀ v : W64,
      let starts := fun (u : State) => u = { s with parts := u.parts, cores := u.cores } ∧ u.part p = { q with gen := (q.gen + 1) % 256, invBusy := true }
      (q.invBusy = false → v.toNat % 4 = 0 → Leads (.tlbinvAddrPage p v) s fun u => starts u ∧
        ∀ c e, e ∈ (u.core c).tlb → e.2.part = p → e.1 * 4096 / e.2.size ≠ v.toNat / 4096 * 4096 / e.2.size) ∧
      (q.invBusy = false → Leads (.tlbinvAddrAll p) s fun u => starts u ∧ ∀ c e, e ∈ (u.core c).tlb → e.2.part ≠ p) ∧
      (q.invBusy = true → (Leads (.tlbinvAddrPage p v) s fun u => parts u ∧ u.part p = { q with invRefused := true }) ∧
        Leads (.tlbinvAddrAll p) s fun u => parts u ∧ u.part p = { q with invRefused := true })) ∧
    (q.invBusy = true → olderGone s p = true → q.invBy = none → Leads (.tlbInvalidationAck p) s fun u => (u.part p).invBusy = false ∧ (u.part p).gen = q.gen) ∧
    (q.invBusy = true → olderGone s p = false → exec (.tlbInvalidationAck p) s = .next s) ∧
    (∀ id b g f, id < 65536 → id ∈ q.outstanding → (s.context (s.block b).ctx).part = p → (s.block b).ctx ∈ partCtxs s p → b ∈ blocksOf s (s.block b).ctx →
      g ∈ tkeys (s.block b).groups → (s.group b g).faultIds = [f] → f.id = id → f.replied = false → (s.group b g).pfParked = true →
      (s.group b g).stopped = false → (s.block b).resident = true → (s.group b g).trapMode = false →
      (∀ k j, ¬(k = b ∧ j = g) → ∀ e ∈ (s.group k j).faultIds, e.id ≠ id) → (∀ k, ∀ e ∈ (s.block k).copies, e.parked ≠ some id) →
      (∀ h, (s.context h).saveFault ≠ some id) →
      (Leads (.faultReplyRetry p id) s fun u => id ∉ (u.part p).outstanding ∧ (u.group b g).pfParked = false ∧ (u.group b g).faultIds = [] ∧
        (u.group b g).trapMode = false ∧ (u.group b g).lanes = (s.group b g).lanes ∧ RegsKept (s.group b g) (u.group b g)) ∧
      (Leads (.faultReplyAbort p id) s fun u => id ∉ (u.part p).outstanding ∧ (u.group b g).pfParked = false ∧ (u.group b g).trapCause = 0x0A ∧
        (u.group b g).faultMask = f.lanes ∧ (u.group b g).causeMask = f.lanes ∧ RegsKept (s.group b g) (u.group b g))) ∧
    (∀ id, id < 65536 → id ∉ q.outstanding → exec (.faultReplyRetry p id) s = .next s ∧ exec (.faultReplyAbort p id) s = .next s) ∧
    exec .errLogPop s = .next { s with svc := { s.svc with errors := { s.svc.errors with log := s.svc.errors.log.drop 1 } } } ∧
    reads .firstErrorRead s.svc.errors.first (fun u => u.svc.errors = { s.svc.errors with
      latched := some (s.svc.errors.last, s.svc.errors.overflow, s.svc.errors.counts) }) ∧
    (∀ c, p < 44 → c < 3 → reads (.missCountRead p c) (tget 0 s.missCount (3 * p + c)) fun u => tget 0 u.missCount (3 * p + c) = 0 ∧ u.mem = s.mem) ∧
    reads .ctStatusRead (s.pkg.corr * 256 + s.pkg.maxOff * 16 + b2n s.pkg.skew * 8 + b2n s.pkg.lock1 * 4 + b2n s.pkg.lock0 * 2 + b2n s.pkg.ctRun)
      (fun u => u.pkg = { s.pkg with corr := 0, maxOff := 0 }) ∧
    (p < 256 → let c := s.memChan p
      reads (.chStatusRead p) (c.repaired * 2 ^ 32 + c.switches * 2 ^ 16 + c.state * 16 + b2n c.codeLock * 8 + b2n c.ltAllowed * 4 + c.code)
        fun u => u.memChan p = { c with switches := 0 }) ∧
    (p < 14 → let c := s.port p
      reads (.fabPortStatusRead p) (c.replays * 2 ^ 48 + c.tagFails * 2 ^ 40 + c.rtt * 2 ^ 24 + c.peer * 2 ^ 16 + c.epoch * 256 + c.width * 8 + c.state)
        fun u => u.port p = { c with replays := 0, tagFails := 0 }) ∧
    (p < 12 → reads (.memLatencyShapeRead p) (b2n q.shapeEnable * 2 ^ 63 + q.shapeChan * 2 ^ 48 + q.shapeLate * 2 ^ 32 + q.shapeTicks)
      fun u => u.part p = { q with shapeLate := 0 }) ∧
    (∀ (fn off : Nat) (v : W64), let x := v.toNat
      (off % 8 ≠ 0 → exec (.registerWrite fn off v) s = .next s) ∧
      (exec (.registerWrite 0 0x108 v) s = .next { s with pkg := { s.pkg with skew := s.pkg.skew && !bit x 3 } }) ∧
      (exec (.registerWrite 0 0x110 v) s = .next { s with pkg := { s.pkg with warn := s.pkg.warn && !bit x 0, crit := s.pkg.crit && !bit x 1 } }) ∧
      (exec (.registerWrite 0 0x208 v) s = .next { s with pkg := { s.pkg with pRefused := s.pkg.pRefused && !bit x 9 } }) ∧
      (∀ k, k < 4 → Leads (.registerWrite 0 (0x30008 + 8 * k) v) s fun u => u = { s with svc := u.svc } ∧ mboxArg u k = x) ∧
      (∀ k, k < 256 → Leads (.registerWrite 0 (0x11000 + 8 * k) v) s fun u => u = { s with memChans := u.memChans } ∧
        u.memChan k = { s.memChan k with codeLock := bit x 3, ltAllowed := bit x 2 }) ∧
      (p < 12 → Leads (.registerWrite (p + 1) 0x008 v) s fun u => parts u ∧ u.part p = { q with intMask := x &&& 0xEFFFF }) ∧
      (p < 12 → Leads (.registerWrite (p + 1) 0x130 v) s fun u => parts u ∧
        u.part p = { q with shapeEnable := bit x 63, shapeChan := bits x 51 48, shapeTicks := bits x 23 0 }) ∧
      (exec (.registerWrite 0 0x2001210 v) s = .next (if s.hostLink.hdmOn then s else { s with hostLink := { s.hostLink with hdmBase := x / 2 ^ 28 * 2 ^ 28 } })) ∧
      (exec (.registerWrite 0 0x2001220 v) s = .next { s with hostLink := { s.hostLink with hdmOn := bit x 9 } })) ∧
    (∀ hpa, s.hostLink.hdmOn = true → s.hostLink.hdmBase ≤ hpa → hpa < s.hostLink.hdmBase + 2 ^ 39 →
      hdmAddr s hpa = some (hpa - s.hostLink.hdmBase))

/-- The service-core mailbox (R46, R89–R101, R282): a command that is taken ends with its code, or goes on until an event ends it.
Where it rests on a choice or a reading of the model, that is log entries 47, 48, 49, 50, 51, 97 and 114. -/
def Obligations.MailboxCommands : Prop :=
  ∀ s : State,
    let a := mboxArg s
    let only := fun (u : State) => u = { s with svc := u.svc }
    (∀ c, (c % 256) ∉ knownCmds → Ends (.mboxUnknownCmd c) (c % 256) 5 s only) ∧
    (let p := bits (a 0) 51 48
     let g := bits (a 1) 8 0
     let n := bits (a 1) 18 9
     onlyFields (a 0) [(51, 48), (47, 40), (39, 0)] = true → onlyFields (a 1) [(18, 9), (8, 0)] = true → onlyFields (a 2) [(31, 16), (15, 0)] = true →
      onlyFields (a 3) [(38, 12)] = true → p < 12 → n ≠ 0 → g + n ≤ 512 →
      (partSetDenied s p (bits (a 0) 39 0) g n = true → Ends .partSet 0x01 3 s only) ∧
      (partSetDenied s p (bits (a 0) 39 0) g n = false → Ends .partSet 0x01 0 s fun u => let q := u.part p
        q.set = true ∧ q.coreMask = bits (a 0) 39 0 ∧ q.gran0 = g ∧ q.granN = n ∧ q.root = a 3 ∧ q.prioCap = bits (a 0) 47 40 ∧
        q.l2Rate = bits (a 2) 15 0 ∧ q.l2Burst = bits (a 2) 31 16 ∧
        ∀ x, (g * 2 ^ 30 ≤ x ∧ x < (g + n) * 2 ^ 30) → memByte u x =
          if (s.svc.owned.any fun e => e.1 == x / 2 ^ 30 && e.2 != p) = true then 0 else memByte s x)) ∧
    (let p := bits (a 0) 51 48
     onlyFields (a 0) [(51, 48)] = true → p < 12 →
      ((partCtxs s p ≠ [] ∨ ∃ e ∈ (s.part p).chans, e.2.enable = true) → Ends .partClear 0x02 3 s only) ∧
      (partCtxs s p = [] → (∀ e ∈ (s.part p).chans, e.2.enable = false) → Ends .partClear 0x02 0 s fun u => u.part p = {} ∧ (∀ e ∈ u.buckets, e.1 % 12 ≠ p) ∧
        ((s.part p).set = true → ∀ x, (s.part p).gran0 * 2 ^ 30 ≤ x → x < ((s.part p).gran0 + (s.part p).granN) * 2 ^ 30 → memByte u x = 0))) ∧
    (∀ sig, Ends (.attest sig) 0x10 0 s fun u => ∀ (k : Nat) (x : Byte),
      (reportBytes s ++ reportSignature (reportBytes s) sig)[k]? = some x → tget 0 u.svc.data k = x) ∧
    Ends .identity 0x11 0 s (fun u => ∀ (k : Nat) (x : Byte), (Config.certificate.take 4096)[k]? = some x → tget 0 u.svc.data k = x) ∧
    (∀ key sig roll ver, let image := memBytes s (a 0) (a 1)
     let read := fun (u : State) => u = { s with svc := u.svc, memStacks := u.memStacks, seq := u.seq }
     (2 ^ 23 < a 1 ∨ Config.memBytes < a 0 + a 1 → Ends (.fwStage key sig roll ver) 0x20 2 s only) ∧
      (a 1 ≤ 2 ^ 23 → a 0 + a 1 ≤ Config.memBytes →
        (imageVerifies image key sig = false ∨ roll < s.svc.rollMin → Ends (.fwStage key sig roll ver) 0x20 4 s fun u => read u ∧ u.svc.staged = s.svc.staged ∧
          u.svc.slotA = s.svc.slotA ∧ u.svc.slotB = s.svc.slotB) ∧
        (imageVerifies image key sig = true → s.svc.rollMin ≤ roll → Ends (.fwStage key sig roll ver) 0x20 0 s fun u => read u ∧ u.svc.staged = true ∧
          u.svc.active = s.svc.active ∧ (if s.svc.active = 0 then u.svc.slotB else u.svc.slotA) =
            { present := true, verified := true, rollback := roll, version := ver, image := image }))) ∧
    (s.svc.staged = true → GoesOn .fwSwap 0x21 s fun u => only u ∧ u.svc.swapping = true) ∧ (s.svc.staged = false → Ends .fwSwap 0x21 3 s only) ∧
    (s.svc.swapping = true →
      (Leads (.fwSelfTestDone true) s fun u => only u ∧ u.svc.busy = false ∧ u.svc.code = 0 ∧ u.svc.active = 1 - s.svc.active ∧ u.svc.swapping = false ∧
        u.svc.rollMin = max s.svc.rollMin (if s.svc.active = 0 then s.svc.slotB else s.svc.slotA).rollback) ∧
      Leads (.fwSelfTestDone false) s fun u => only u ∧ u.svc.busy = false ∧ u.svc.code = 4 ∧ u.svc.active = s.svc.active ∧ u.svc.swapping = false ∧
        bit u.svc.alert 5 = true) ∧
    (a 0 < 256 → s.retraining = none → (s.memChan (a 0)).state ≠ 2 → Ends .chRetrain 0x30 0 s fun u => u.retraining = some (a 0) ∧ (u.memChan (a 0)).state = 1) ∧
    (a 0 < 14 → (s.port (a 0)).state = 2 → Ends .linkRecal 0x31 0 s fun u => u.port (a 0) = { s.port (a 0) with state := 3, width := 3, recalLane := 0 }) ∧
    (let c := bits (a 0) 5 0
     let mode := bits (a 0) 8 8
     let t := { taken s 0x32 with svc := { (taken s 0x32).svc with draining := some (c, mode) } }
     onlyFields (a 0) [(5, 0), (8, 8)] = true → c < 40 →
      (coreOwner s c = none → mode = 1 → Ends .coreDrain 0x32 0 s fun u => (u.core c).retired = true ∧ u.svc.draining = none) ∧
      (∀ p, coreOwner s c = some p → drainFits t p = false → Ends .coreDrain 0x32 3 s fun _ => True) ∧
      (∀ p, coreOwner s c = some p → drainFits t p = true → GoesOn .coreDrain 0x32 s fun u => u.svc.draining = some (c, mode) ∧ u.mem = s.mem ∧
        ∀ e ∈ gangsOnCore s c, (s.context e.1).freezing = false → e.2 ∈ (u.context e.1).saving)) ∧
    (∀ c mode, s.svc.draining = some (c, mode) → blocksOn s c = [] → Leads (.coreDrainComplete c) s fun u => u.svc.busy = false ∧ u.svc.code = 0 ∧
      u.svc.draining = none ∧ u.mem = s.mem ∧ (mode = 1 → (u.core c).retired = true)) ∧
    (a 0 < 40 → (s.core (a 0)).retired = true → Ends .coreRestore 0x33 0 s fun u => (u.core (a 0)).retired = false) ∧
    Ends .bbRead 0x40 0 s (fun u => u.svc.result = w64 s.svc.bbCount ∧ ∀ (k : Nat) (x : Byte),
      ((List.range 128).flatMap fun j => bbAt s (a 0 + j))[k]? = some x → tget 0 u.svc.data k = x) ∧
    Ends .errClear 0x41 0 s (fun u => only u ∧ u.svc.errors = { s.svc.errors with first := 0, last := 0, overflow := 0, counts := [] })

/-- The mailbox's fabric commands (R67–R70).
Where it rests on a choice or a reading of the model, that is log entries 52 and 53. -/
def Obligations.FabricCommands : Prop :=
  ∀ s : State,
    let a := mboxArg s
    let key := fun (action : Nat) => bits (a 0) 9 8 = action ∧ onlyFields (a 0) [(9, 8), (3, 0)] = true ∧ bits (a 0) 3 0 < 14
    let p := bits (a 0) 3 0
    let kt := mboxBytes s 0 32
    let kr := mboxBytes s 32 32
    (let ps := (List.range 14).filter (bit (a 0))
     let trains := fun (u : State) => ∀ k ∈ ps, (u.port k).state = 1 ∧ (u.port k).deadline = s.ct + 15000000 ∧
       (u.port k).tx.salt = ofLeBytes (mboxBytes s (8 * k) 4) ∧ (u.port k).rx.salt = ofLeBytes (mboxBytes s (8 * k + 4) 4)
     onlyFields (a 0) [(24, 24), (22, 20), (18, 16), (13, 0)] = true → (∀ k ∈ ps, cannotTrain s k = false) →
      (bit (a 0) 24 = false → s.position.isSome = true → Ends .fabTrain 0x50 0 s fun u => u.position = s.position ∧ trains u) ∧
      (bit (a 0) 24 = true → (∀ k, k < 14 → (s.port k).state = 0) → Ends .fabTrain 0x50 0 s fun u =>
        u.position = some (bits (a 0) 18 16, bits (a 0) 22 20) ∧ trains u)) ∧
    (key 0 → rxLive (s.port p) = false → (s.port p).tx.oldLive = false →
      ((s.port p).state = 0 → Ends .fabKeyFirst 0x51 0 s fun u => let q := u.port p
        q.tx.key0 = some kt ∧ q.rx.key0 = some kr ∧ q.tx.key1 = none ∧ q.rx.key1 = none ∧ q.tx.seq = 0 ∧ q.rx.seq = 0 ∧ mboxBytes u 0 64 = List.replicate 64 0) ∧
      ((s.port p).state ≠ 0 → Ends .fabKeyFirst 0x51 3 s fun u => u.port p = s.port p)) ∧
    (key 1 → (rxLive (s.port p) = false → Ends .fabKeyStageReceive 0x51 0 s fun u => let q := u.port p
        q.rx.key q.rx.idle = some kr ∧ q.rx.slot = (s.port p).rx.slot ∧ q.tx = (s.port p).tx) ∧
      (rxLive (s.port p) = true → Ends .fabKeyStageReceive 0x51 1 s fun u => u.port p = s.port p)) ∧
    (key 2 → (txLive (s.port p) = false → Ends .fabKeyStageTransmit 0x51 0 s fun u => let q := u.port p
        q.tx.key q.tx.idle = some kt ∧ q.tx.slot = (s.port p).tx.slot ∧ q.rx = (s.port p).rx) ∧
      (txLive (s.port p) = true → Ends .fabKeyStageTransmit 0x51 1 s fun u => u.port p = s.port p)) ∧
    (let k := bits (a 0) 51 48
     let q := bits (a 0) 5 0
     s.svc.quiesce = none → onlyFields (a 0) [(51, 48), (5, 0)] = true → k < 12 →
      (tget none (s.part k).sessions q = none → Ends .fabQuiesce 0x52 0 s fun u => u = { s with svc := u.svc }) ∧
      ((tget none (s.part k).sessions q).isSome = true → GoesOn .fabQuiesce 0x52 s fun u => u = { s with svc := u.svc } ∧ u.svc.quiesce = some (k, q, false))) ∧
    (∀ k q, s.svc.quiesce = some (k, q, false) → (peerReqs s k fun x => x != q && !s.lostPeers.contains x) = [] → Leads .fabQuiesce s fun u =>
      u.svc.quiesce = some (k, q, true) ∧ tget none (u.part k).sessions q = none ∧ q ∈ u.lostPeers) ∧
    (∀ k q, s.svc.quiesce = some (k, q, true) → quiesceTaken s k = true → Leads .fabQuiesce s fun u => u = { s with svc := u.svc } ∧
      u.svc.quiesce = none ∧ u.svc.busy = false ∧ u.svc.code = 0) ∧
    (let k := bits (a 0) 51 48
     let q := bits (a 0) 45 40
     let r := bits (a 1) 3 0
     onlyFields (a 0) [(51, 48), (45, 40), (35, 32), (31, 0)] = true → onlyFields (a 1) [(8, 8), (3, 0)] = true → k < 12 → r < 12 →
      (∀ o, o < 12 → o ≠ k → ∀ e, tget none (s.part o).sessions q = some e → e.1 ≠ r) → Ends .fabSession 0x53 0 s fun u =>
        tget none (u.part k).sessions q = if bit (a 1) 8 then some (r, bits (a 0) 35 32, bits (a 0) 31 0) else none)

/-- Freeze and resume (R271, R272, R267, R283, R278–R280): FREEZE stops every group of the context it names, writing memory only where a
group has a pending trap to enter first, and ends with the image written and the context gone. Where a page of the save area is not
present, it reports the page and goes on waiting; with no fault ring, or on another fault, it fails and the context is discarded.
RESUME makes a context of an image that passes every check, and reports the first check that fails.
Where it rests on a choice or a reading of the model, that is log entries 40, 43, 44, 45, 46 and 105. -/
def Obligations.FreezeAndResume : Prop :=
  ∀ s : State,
    let a := mboxArg s
    let p := bits (a 0) 51 48
    let range := onlyFields (a 0) [(51, 48), (35, 32), (31, 0)] = true ∧ onlyFields (a 1) [(38, 12)] = true ∧ onlyFields (a 2) [(47, 0)] = true ∧
      ownsRange s p (a 1) (a 2) = true
    let name := namedCtx s p (bits (a 0) 35 32) (bits (a 0) 31 0)
    let err := fun (t : State) => resumeError t p (bits (a 0) 35 32) (bits (a 0) 31 0) (a 1) (a 2) (parseRecord (memBytes s (a 1 + 0x20) 256))
    (range → name = none → Ends .freeze 0x60 3 s fun u => u = { s with svc := u.svc }) ∧
    (∀ h, range → name = some h → imageMax s h ≤ a 2 → gangsLeft s h = true → GoesOn .freeze 0x60 s fun u => u.svc.freezing = some (h, a 1, a 2) ∧
      (u.context h).freezing = true ∧
      ((∀ b ∈ blocksOf s h, ∀ g ∈ tkeys (s.block b).groups, takeNext s b g (fun _ => true) = none) → u.mem = s.mem) ∧
      ∀ b ∈ blocksOf s h, ∀ g ∈ tkeys (s.block b).groups, (s.group b g).exists_ = true → (s.group b g).ended = false → (u.group b g).stopped = true) ∧
    (∀ h pa n, s.svc.freezing = some (h, pa, n) → freezeReady s h = true →
      let bs := (blocksOf s h).filter fun b => (s.block b).resident
      let ends := fun (code : Nat) (E : State → Prop) => Leads .freezeImageDone s fun u => u.svc.busy = false ∧ u.svc.code = code ∧
        u.svc.freezing = none ∧ u.context h = {} ∧ (∀ e ∈ u.blocks, e.2.ctx ≠ h) ∧ E u
      let r := imageReady s h
      let saved := if bs.isEmpty then r else writeSlots (packBlocks r bs) h bs
      let v := takeVersions saved h
      let image := writeImage (writeBack v.1 h (saved.context h).part) h pa v.2
      match (if bs.isEmpty then none else saveFaultOf (packBlocks r bs) h bs) with
      | none => ends 0 fun u => u.mem = image.1.mem ∧ u.svc.result = w64 image.2
      | some (_, .notPresent, _) =>
        if (s.part (s.context h).part).ringEnable then s.emergency = none → Leads .freezeImageDone s fun u =>
          u.svc.freezing = some (h, pa, n) ∧ u.svc.busy = s.svc.busy ∧ u.emergency = some h ∧ (u.context h).saveFault.isSome = true ∧ u.blocks = r.blocks
        else ends 4 fun _ => True
      | some _ => ends 4 fun _ => True) ∧
    (∀ h pa n, s.svc.freezing = some (h, pa, n) → freezeReady s h = false → exec .freezeImageDone s = .next s) ∧
    (range → err (taken s 0x61) ≠ 0 → Ends .resume 0x61 4 s fun u => u.svc.result = w64 (err (taken s 0x61)) ∧ u = { s with svc := u.svc }) ∧
    (range → err (taken s 0x61) = 0 → Ends .resume 0x61 0 s fun u => let c := u.context (tfree s.ctxs)
      c.live = true ∧ c.part = p ∧ c.chan = bits (a 0) 35 32 ∧ c.index = bits (a 0) 31 0 ∧ c.resumed = true ∧
      c.record = parseRecord (memBytes s (a 1 + 0x20) 256) ∧ c.nextGang = memRead s (a 1 + 0x138) 8 ∧ c.itemNext = memRead s (a 1 + 0x140) 8 ∧
      c.shape = w64 (memRead s (a 1 + 0x148) 8) ∧ (memRead s (a 1 + 0x188) 8 = 0 → u.mem = s.mem))
end

