-- ==== Sys2Proof/Laws/Links.lean ====
section
/-! SUPPORT. Link blocks: the stream of a key undoes itself, so that a sealed block opens to the packets it carries (R60, R61). -/

set_option Elab.async false

namespace Sys2Proof.Machine

theorem xorAll_length (a b : List Byte) : (xorAll a b).length = min a.length b.length := by simp [xorAll]

theorem xorAll_twice (a b : List Byte) (h : a.length ≤ b.length) : xorAll (xorAll a b) b = a := by
  induction a generalizing b with
  | nil => rfl
  | cons x a ih =>
    cases b with
    | nil => simp at h
    | cons y b =>
      have := ih b (by simpa using h)
      simp only [xorAll] at this ⊢
      simp [this]

theorem aesBlock_length (ks : List (List Byte)) (bs : List Byte) (h : (ks.getD 14 []).length = 16) : (aesBlock ks bs).length = 16 := by
  simp only [aesBlock, xorAll_length, h]
  simp [aesTurn]

/-- A text in blocks of 16 bytes, block k through f k. -/
def byBlocks (n : Nat) (f : Nat → List Byte → List Byte) (bs : List Byte) : List Byte :=
  (List.range n).flatMap fun k => f k ((bs.drop (16 * k)).take 16)

theorem byBlocks_succ (n : Nat) (f : Nat → List Byte → List Byte) (bs : List Byte) :
    byBlocks (n + 1) f bs = f 0 (bs.take 16) ++ byBlocks n (fun k => f (k + 1)) (bs.drop 16) := by
  simp only [byBlocks, List.range_succ_eq_map, List.flatMap_cons, List.flatMap_map, List.drop_drop]
  simp [Nat.mul_add, Nat.add_comm]

/-- Block by block, what keeps a block's length and undoes itself undoes itself over the whole text. -/
theorem byBlocks_twice (n : Nat) (f : Nat → List Byte → List Byte) (bs : List Byte) (hn : bs.length ≤ 16 * n)
    (hl : ∀ k b, b.length ≤ 16 → (f k b).length = b.length) (hf : ∀ k b, b.length ≤ 16 → f k (f k b) = b) :
    byBlocks n f (byBlocks n f bs) = bs ∧ (byBlocks n f bs).length = bs.length := by
  induction n generalizing f bs with
  | zero => simp_all [byBlocks]
  | succ n ih =>
    obtain ⟨ht, hlen⟩ := ih (fun k => f (k + 1)) (bs.drop 16) (by simp; omega) (fun k => hl (k + 1)) fun k => hf (k + 1)
    have h0 : (bs.take 16).length ≤ 16 := by simp
    have hz := hl 0 _ h0
    rw [byBlocks_succ, byBlocks_succ]
    refine ⟨?_, by simp [hz, hlen]; omega⟩
    by_cases h : 16 ≤ bs.length
    · have hs : (f 0 (bs.take 16)).length = 16 := by simp [hz]; omega
      rw [List.take_left' hs, List.drop_left' hs, hf 0 _ h0, ht, List.take_append_drop]
    · have he : byBlocks n (fun k => f (k + 1)) (bs.drop 16) = [] := List.eq_nil_of_length_eq_zero (by rw [hlen]; simp; omega)
      have hs : (f 0 (bs.take 16)).length ≤ 16 := by rw [hz]; exact h0
      rw [he] at ht ⊢
      rw [List.append_nil, List.take_of_length_le hs, List.drop_of_length_le hs, hf 0 _ h0, List.take_of_length_le (by omega)]
      rw [ht, List.drop_of_length_le (by omega), List.append_nil]

/-- The key stream undoes itself. -/
theorem gcmStream_twice (ks : List (List Byte)) (iv bs : List Byte) (h : (ks.getD 14 []).length = 16) :
    gcmStream ks iv (gcmStream ks iv bs) = bs := by
  have k16 : ∀ k, (aesBlock ks (iv ++ (leBytes 4 (k + 2)).reverse)).length = 16 := fun k => aesBlock_length ks _ h
  have key := byBlocks_twice ((bs.length + 15) / 16) (fun k b => xorAll b (aesBlock ks (iv ++ (leBytes 4 (k + 2)).reverse))) bs (by omega)
    (fun k b hb => by rw [xorAll_length, k16]; omega) fun k b hb => xorAll_twice _ _ (by rw [k16]; exact hb)
  have e : ∀ n x, (List.range n).flatMap (fun k => xorAll ((x.drop (16 * k)).take 16) (aesBlock ks (iv ++ (leBytes 4 (k + 2)).reverse))) =
    byBlocks n (fun k b => xorAll b (aesBlock ks (iv ++ (leBytes 4 (k + 2)).reverse))) x := fun _ _ => rfl
  simp only [gcmStream, e]
  rw [key.2]
  exact key.1

/-- A sealed block opens to the packets of the flits it was sealed from. -/
theorem openBlock_sealBlock (key : List Byte) (seq salt : Nat) (ks : List Packet) (h : ((aesKeys key).getD 14 []).length = 16) :
    openBlock key seq salt (sealBlock key seq salt ks).1 (sealBlock key seq salt ks).2 = some (packetsFrom 8 (ks.flatMap flitBytes)) := by
  simp [openBlock, sealBlock, gcmSeal, gcmOpen, gcmStream_twice _ _ _ h]

/-- With another tag it does not open. -/
theorem openBlock_wrong (key : List Byte) (seq salt tag : Nat) (ks : List Packet) (h : tag ≠ (sealBlock key seq salt ks).2) :
    openBlock key seq salt (sealBlock key seq salt ks).1 tag = none := by
  have e : gcmOpen key (blockIv seq salt) (sealBlock key seq salt ks).1 tag = none := if_neg fun e => h e.symm
  simp [openBlock, e]

end Sys2Proof.Machine
end

