-- ==== Sys2Proof/Laws/Table.lean ====
section
/-! SUPPORT. Sparse tables: what a read gives after each change, and the canonical form that every change keeps. -/

set_option Elab.async false

namespace Sys2Proof.Machine

variable {α β : Type}

/-! ## Reads -/

@[simp] theorem tget_nil (d : α) (i : Nat) : tget d [] i = d := rfl

theorem tget_tins (d : α) (t : Tbl α) (i j : Nat) (v : α) : tget d (tins i v t) j = if j = i then v else tget d t j := by
  induction t with
  | nil => simp [tins, tget]
  | cons e t ih => obtain ⟨k, w⟩ := e; simp only [tins]; split_ifs <;> simp only [tget] <;> split_ifs <;> grind

theorem tget_tdel (d : α) (t : Tbl α) (i j : Nat) : tget d (tdel t i) j = if j = i then d else tget d t j := by
  induction t with
  | nil => simp [tdel, tget]
  | cons e t ih =>
    obtain ⟨k, w⟩ := e
    simp only [tdel, List.filter_cons] at ih ⊢
    by_cases hk : k = i
    · simp only [hk, ne_eq, not_true_eq_false, decide_false, Bool.false_eq_true, if_false, ih, tget]
      split_ifs <;> rfl
    · simp only [hk, ne_eq, not_false_eq_true, decide_true, if_true, tget, ih]
      grind

theorem tget_tset [DecidableEq α] (d : α) (t : Tbl α) (i j : Nat) (v : α) :
    tget d (tset d t i v) j = if j = i then v else tget d t j := by
  unfold tset; split_ifs with h <;> simp_all [tget_tins, tget_tdel]

@[simp] theorem tget_tset_self [DecidableEq α] (d : α) (t : Tbl α) (i : Nat) (v : α) : tget d (tset d t i v) i = v := by
  simp [tget_tset]

theorem tget_tset_ne [DecidableEq α] (d : α) (t : Tbl α) {i j : Nat} (v : α) (h : j ≠ i) :
    tget d (tset d t i v) j = tget d t j := by simp [tget_tset, h]

theorem tget_tmod [DecidableEq α] (d : α) (t : Tbl α) (i j : Nat) (f : α → α) :
    tget d (tmod d t i f) j = if j = i then f (tget d t i) else tget d t j := tget_tset d t i j _

@[simp] theorem tget_tmod_self [DecidableEq α] (d : α) (t : Tbl α) (i : Nat) (f : α → α) :
    tget d (tmod d t i f) i = f (tget d t i) := by simp [tget_tmod]

theorem tget_tmapv (d : α) (e : β) (f : α → β) (t : Tbl α) (h : f d = e) (i : Nat) : tget e (tmapv f t) i = f (tget d t i) := by
  induction t with
  | nil => simp [tmapv, h]
  | cons x t ih => obtain ⟨k, w⟩ := x; simp only [tmapv, List.map_cons, tget] at ih ⊢; split_ifs <;> simp_all

/-- A key that is listed nowhere reads as the default. -/
theorem tget_absent (d : α) (t : Tbl α) (i : Nat) (h : i ∉ tkeys t) : tget d t i = d := by
  induction t with
  | nil => rfl
  | cons x t ih =>
    obtain ⟨k, w⟩ := x
    simp only [tkeys, List.map_cons, List.mem_cons, not_or] at h
    simp [tget, h.1, ih h.2]

/-! ## The canonical form -/

theorem tsorted_cons (k : Nat) (w : α) (t : Tbl α) : tsorted ((k, w) :: t) = true ↔ (∀ e ∈ t, k < e.1) ∧ tsorted t = true := by
  induction t generalizing k w with
  | nil => simp [tsorted]
  | cons e t ih =>
    obtain ⟨j, v⟩ := e
    simp only [tsorted, Bool.and_eq_true, decide_eq_true_eq, List.mem_cons, forall_eq_or_imp]
    constructor
    · rintro ⟨h1, h2⟩
      exact ⟨⟨h1, fun e he => Nat.lt_trans h1 (((ih j v).1 h2).1 e he)⟩, h2⟩
    · rintro ⟨⟨h1, -⟩, h2⟩; exact ⟨h1, h2⟩

theorem mem_tins {i : Nat} {v : α} {t : Tbl α} {e : Nat × α} (h : e ∈ tins i v t) : e = (i, v) ∨ e ∈ t := by
  induction t with
  | nil => simpa [tins] using h
  | cons x t ih =>
    obtain ⟨k, w⟩ := x
    simp only [tins] at h
    split_ifs at h <;> simp only [List.mem_cons] at h ⊢ <;> grind

theorem tsorted_tins (i : Nat) (v : α) (t : Tbl α) (h : tsorted t = true) : tsorted (tins i v t) = true := by
  induction t with
  | nil => simp [tins, tsorted]
  | cons x t ih =>
    obtain ⟨k, w⟩ := x
    have hk := (tsorted_cons k w t).1 h
    simp only [tins]
    split_ifs with h1 h2
    · exact (tsorted_cons ..).2 ⟨by
        intro e he
        rcases List.mem_cons.1 he with rfl | he
        · exact h1
        · exact Nat.lt_trans h1 (hk.1 e he), h⟩
    · exact (tsorted_cons ..).2 ⟨by intro e he; rw [h2]; exact hk.1 e he, hk.2⟩
    · refine (tsorted_cons ..).2 ⟨fun e he => ?_, ih hk.2⟩
      rcases mem_tins he with rfl | he
      · exact Nat.lt_of_le_of_ne (Nat.le_of_not_lt h1) (fun x => h2 x.symm)
      · exact hk.1 e he

theorem tsorted_filter (p : Nat × α → Bool) (t : Tbl α) (h : tsorted t = true) : tsorted (t.filter p) = true := by
  induction t with
  | nil => rfl
  | cons x t ih =>
    obtain ⟨k, w⟩ := x
    have hk := (tsorted_cons k w t).1 h
    rw [List.filter_cons]
    split_ifs
    · exact (tsorted_cons ..).2 ⟨fun e he => hk.1 e (List.mem_filter.1 he).1, ih hk.2⟩
    · exact ih hk.2

variable [DecidableEq α]

theorem tcanon_iff (d : α) (t : Tbl α) : tcanon d t = true ↔ tsorted t = true ∧ ∀ e ∈ t, e.2 ≠ d := by
  simp [tcanon]

@[simp] theorem tcanon_nil (d : α) : tcanon d ([] : Tbl α) = true := rfl

theorem tcanon_filter (d : α) (p : Nat × α → Bool) (t : Tbl α) (h : tcanon d t = true) : tcanon d (t.filter p) = true := by
  rw [tcanon_iff] at h ⊢
  exact ⟨tsorted_filter p t h.1, fun e he => h.2 e (List.mem_filter.1 he).1⟩

/-- Writing a key keeps the canonical form. -/
theorem tcanon_tset (d : α) (t : Tbl α) (i : Nat) (v : α) (h : tcanon d t = true) : tcanon d (tset d t i v) = true := by
  unfold tset tdel
  split_ifs with hv
  · exact tcanon_filter d _ t h
  · rw [tcanon_iff] at h ⊢
    refine ⟨tsorted_tins i v t h.1, fun e he => ?_⟩
    rcases mem_tins he with rfl | he
    · exact hv
    · exact h.2 e he

theorem tcanon_tmod (d : α) (t : Tbl α) (i : Nat) (f : α → α) (h : tcanon d t = true) : tcanon d (tmod d t i f) = true :=
  tcanon_tset d t i _ h

/-- Two canonical tables that read alike at every key are the same list. -/
theorem tcanon_ext (d : α) (t u : Tbl α) (ht : tcanon d t = true) (hu : tcanon d u = true) (h : ∀ i, tget d t i = tget d u i) :
    t = u := by
  induction t generalizing u with
  | nil =>
    cases u with
    | nil => rfl
    | cons e u =>
      obtain ⟨k, w⟩ := e
      have := h k
      simp only [tget, if_true] at this
      exact absurd this.symm (((tcanon_iff d _).1 hu).2 (k, w) (by simp))
  | cons e t ih =>
    obtain ⟨k, w⟩ := e
    obtain ⟨hs, hn⟩ := (tcanon_iff d _).1 ht
    obtain ⟨hlt, hs'⟩ := (tsorted_cons ..).1 hs
    have hw : w ≠ d := hn (k, w) (by simp)
    have below : ∀ (x : Tbl α) (j : Nat), (∀ e ∈ x, j < e.1) → tget d x j = d := fun x j hx =>
      tget_absent d x j fun hm => by
        obtain ⟨e, he, rfl⟩ := List.mem_map.1 hm
        exact Nat.lt_irrefl _ (hx e he)
    cases u with
    | nil =>
      have := h k
      simp only [tget, if_true] at this
      exact absurd this hw
    | cons f u =>
      obtain ⟨j, x⟩ := f
      obtain ⟨us, un⟩ := (tcanon_iff d _).1 hu
      obtain ⟨ult, us'⟩ := (tsorted_cons ..).1 us
      have hx : x ≠ d := un (j, x) (by simp)
      have hkj : k = j := by
        rcases Nat.lt_trichotomy k j with hl | he | hl
        · have := h k
          rw [below ((j, x) :: u) k (by intro e he; rcases List.mem_cons.1 he with rfl | he; exacts [hl, Nat.lt_trans hl (ult e he)])] at this
          simp only [tget, if_true] at this
          exact absurd this hw
        · exact he
        · have := h j
          rw [below ((k, w) :: t) j (by intro e he; rcases List.mem_cons.1 he with rfl | he; exacts [hl, Nat.lt_trans hl (hlt e he)])] at this
          simp only [tget, if_true] at this
          exact absurd this.symm hx
      subst hkj
      have hwx : w = x := by have := h k; simpa [tget] using this
      subst hwx
      congr 1
      refine ih u ((tcanon_iff d t).2 ⟨hs', fun e he => hn e (List.mem_cons_of_mem _ he)⟩)
        ((tcanon_iff d u).2 ⟨us', fun e he => un e (List.mem_cons_of_mem _ he)⟩) fun i => ?_
      by_cases hi : i = k
      · subst hi; rw [below t i hlt, below u i ult]
      · have := h i; simpa [tget, hi] using this

end Sys2Proof.Machine
end

