-- ==== Sys2Proof/Laws/State.lean ====
section
/-! SUPPORT. The pieces of State: what each field and each piece reads as after a change of a block, core, context, partition,
hypothesis context or group. -/

set_option Elab.async false

namespace Sys2Proof.Machine

/-! ## modBlock -/

@[simp] theorem modBlock_agenda (s : State) (b : Nat) (f : Block → Block) : (modBlock s b f).agenda = s.agenda := rfl
@[simp] theorem modBlock_focus (s : State) (b : Nat) (f : Block → Block) : (modBlock s b f).focus = s.focus := rfl
@[simp] theorem modBlock_free (s : State) (b : Nat) (f : Block → Block) : (modBlock s b f).free = s.free := rfl
@[simp] theorem modBlock_seq (s : State) (b : Nat) (f : Block → Block) : (modBlock s b f).seq = s.seq := rfl
@[simp] theorem modBlock_ct (s : State) (b : Nat) (f : Block → Block) : (modBlock s b f).ct = s.ct := rfl
@[simp] theorem modBlock_pkg (s : State) (b : Nat) (f : Block → Block) : (modBlock s b f).pkg = s.pkg := rfl
@[simp] theorem modBlock_svc (s : State) (b : Nat) (f : Block → Block) : (modBlock s b f).svc = s.svc := rfl
@[simp] theorem modBlock_parts (s : State) (b : Nat) (f : Block → Block) : (modBlock s b f).parts = s.parts := rfl
@[simp] theorem modBlock_ctxs (s : State) (b : Nat) (f : Block → Block) : (modBlock s b f).ctxs = s.ctxs := rfl
@[simp] theorem modBlock_cores (s : State) (b : Nat) (f : Block → Block) : (modBlock s b f).cores = s.cores := rfl
@[simp] theorem modBlock_hctxs (s : State) (b : Nat) (f : Block → Block) : (modBlock s b f).hctxs = s.hctxs := rfl
@[simp] theorem modBlock_versions (s : State) (b : Nat) (f : Block → Block) : (modBlock s b f).versions = s.versions := rfl
@[simp] theorem modBlock_mem (s : State) (b : Nat) (f : Block → Block) : (modBlock s b f).mem = s.mem := rfl
@[simp] theorem modBlock_poison (s : State) (b : Nat) (f : Block → Block) : (modBlock s b f).poison = s.poison := rfl
@[simp] theorem modBlock_poisonBy (s : State) (b : Nat) (f : Block → Block) : (modBlock s b f).poisonBy = s.poisonBy := rfl
@[simp] theorem modBlock_copyBook (s : State) (b : Nat) (f : Block → Block) : (modBlock s b f).copyBook = s.copyBook := rfl
@[simp] theorem modBlock_hostMem (s : State) (b : Nat) (f : Block → Block) : (modBlock s b f).hostMem = s.hostMem := rfl
@[simp] theorem modBlock_reqs (s : State) (b : Nat) (f : Block → Block) : (modBlock s b f).reqs = s.reqs := rfl
@[simp] theorem modBlock_l2 (s : State) (b : Nat) (f : Block → Block) : (modBlock s b f).l2 = s.l2 := rfl
@[simp] theorem modBlock_evictLease (s : State) (b : Nat) (f : Block → Block) : (modBlock s b f).evictLease = s.evictLease := rfl
@[simp] theorem modBlock_memStacks (s : State) (b : Nat) (f : Block → Block) : (modBlock s b f).memStacks = s.memStacks := rfl
@[simp] theorem modBlock_memChans (s : State) (b : Nat) (f : Block → Block) : (modBlock s b f).memChans = s.memChans := rfl
@[simp] theorem modBlock_missCount (s : State) (b : Nat) (f : Block → Block) : (modBlock s b f).missCount = s.missCount := rfl
@[simp] theorem modBlock_retraining (s : State) (b : Nat) (f : Block → Block) : (modBlock s b f).retraining = s.retraining := rfl
@[simp] theorem modBlock_hostCached (s : State) (b : Nat) (f : Block → Block) : (modBlock s b f).hostCached = s.hostCached := rfl
@[simp] theorem modBlock_snoops (s : State) (b : Nat) (f : Block → Block) : (modBlock s b f).snoops = s.snoops := rfl
@[simp] theorem modBlock_hostLink (s : State) (b : Nat) (f : Block → Block) : (modBlock s b f).hostLink = s.hostLink := rfl
@[simp] theorem modBlock_hostLines (s : State) (b : Nat) (f : Block → Block) : (modBlock s b f).hostLines = s.hostLines := rfl
@[simp] theorem modBlock_lineCtxs (s : State) (b : Nat) (f : Block → Block) : (modBlock s b f).lineCtxs = s.lineCtxs := rfl
@[simp] theorem modBlock_l2Buckets (s : State) (b : Nat) (f : Block → Block) : (modBlock s b f).l2Buckets = s.l2Buckets := rfl
@[simp] theorem modBlock_l2Refill (s : State) (b : Nat) (f : Block → Block) : (modBlock s b f).l2Refill = s.l2Refill := rfl
@[simp] theorem modBlock_l2Moved (s : State) (b : Nat) (f : Block → Block) : (modBlock s b f).l2Moved = s.l2Moved := rfl
@[simp] theorem modBlock_position (s : State) (b : Nat) (f : Block → Block) : (modBlock s b f).position = s.position := rfl
@[simp] theorem modBlock_ports (s : State) (b : Nat) (f : Block → Block) : (modBlock s b f).ports = s.ports := rfl
@[simp] theorem modBlock_buckets (s : State) (b : Nat) (f : Block → Block) : (modBlock s b f).buckets = s.buckets := rfl
@[simp] theorem modBlock_inbound (s : State) (b : Nat) (f : Block → Block) : (modBlock s b f).inbound = s.inbound := rfl
@[simp] theorem modBlock_lostPeers (s : State) (b : Nat) (f : Block → Block) : (modBlock s b f).lostPeers = s.lostPeers := rfl
@[simp] theorem modBlock_readOut (s : State) (b : Nat) (f : Block → Block) : (modBlock s b f).readOut = s.readOut := rfl
@[simp] theorem modBlock_readData (s : State) (b : Nat) (f : Block → Block) : (modBlock s b f).readData = s.readData := rfl
@[simp] theorem modBlock_emergency (s : State) (b : Nat) (f : Block → Block) : (modBlock s b f).emergency = s.emergency := rfl
@[simp] theorem modBlock_doorbells (s : State) (b : Nat) (f : Block → Block) : (modBlock s b f).doorbells = s.doorbells := rfl

/-! ## modCore -/

@[simp] theorem modCore_agenda (s : State) (c : Nat) (f : Core → Core) : (modCore s c f).agenda = s.agenda := rfl
@[simp] theorem modCore_focus (s : State) (c : Nat) (f : Core → Core) : (modCore s c f).focus = s.focus := rfl
@[simp] theorem modCore_free (s : State) (c : Nat) (f : Core → Core) : (modCore s c f).free = s.free := rfl
@[simp] theorem modCore_seq (s : State) (c : Nat) (f : Core → Core) : (modCore s c f).seq = s.seq := rfl
@[simp] theorem modCore_ct (s : State) (c : Nat) (f : Core → Core) : (modCore s c f).ct = s.ct := rfl
@[simp] theorem modCore_pkg (s : State) (c : Nat) (f : Core → Core) : (modCore s c f).pkg = s.pkg := rfl
@[simp] theorem modCore_svc (s : State) (c : Nat) (f : Core → Core) : (modCore s c f).svc = s.svc := rfl
@[simp] theorem modCore_parts (s : State) (c : Nat) (f : Core → Core) : (modCore s c f).parts = s.parts := rfl
@[simp] theorem modCore_ctxs (s : State) (c : Nat) (f : Core → Core) : (modCore s c f).ctxs = s.ctxs := rfl
@[simp] theorem modCore_blocks (s : State) (c : Nat) (f : Core → Core) : (modCore s c f).blocks = s.blocks := rfl
@[simp] theorem modCore_hctxs (s : State) (c : Nat) (f : Core → Core) : (modCore s c f).hctxs = s.hctxs := rfl
@[simp] theorem modCore_versions (s : State) (c : Nat) (f : Core → Core) : (modCore s c f).versions = s.versions := rfl
@[simp] theorem modCore_mem (s : State) (c : Nat) (f : Core → Core) : (modCore s c f).mem = s.mem := rfl
@[simp] theorem modCore_poison (s : State) (c : Nat) (f : Core → Core) : (modCore s c f).poison = s.poison := rfl
@[simp] theorem modCore_poisonBy (s : State) (c : Nat) (f : Core → Core) : (modCore s c f).poisonBy = s.poisonBy := rfl
@[simp] theorem modCore_copyBook (s : State) (c : Nat) (f : Core → Core) : (modCore s c f).copyBook = s.copyBook := rfl
@[simp] theorem modCore_hostMem (s : State) (c : Nat) (f : Core → Core) : (modCore s c f).hostMem = s.hostMem := rfl
@[simp] theorem modCore_reqs (s : State) (c : Nat) (f : Core → Core) : (modCore s c f).reqs = s.reqs := rfl
@[simp] theorem modCore_l2 (s : State) (c : Nat) (f : Core → Core) : (modCore s c f).l2 = s.l2 := rfl
@[simp] theorem modCore_evictLease (s : State) (c : Nat) (f : Core → Core) : (modCore s c f).evictLease = s.evictLease := rfl
@[simp] theorem modCore_memStacks (s : State) (c : Nat) (f : Core → Core) : (modCore s c f).memStacks = s.memStacks := rfl
@[simp] theorem modCore_memChans (s : State) (c : Nat) (f : Core → Core) : (modCore s c f).memChans = s.memChans := rfl
@[simp] theorem modCore_missCount (s : State) (c : Nat) (f : Core → Core) : (modCore s c f).missCount = s.missCount := rfl
@[simp] theorem modCore_retraining (s : State) (c : Nat) (f : Core → Core) : (modCore s c f).retraining = s.retraining := rfl
@[simp] theorem modCore_hostCached (s : State) (c : Nat) (f : Core → Core) : (modCore s c f).hostCached = s.hostCached := rfl
@[simp] theorem modCore_snoops (s : State) (c : Nat) (f : Core → Core) : (modCore s c f).snoops = s.snoops := rfl
@[simp] theorem modCore_hostLink (s : State) (c : Nat) (f : Core → Core) : (modCore s c f).hostLink = s.hostLink := rfl
@[simp] theorem modCore_hostLines (s : State) (c : Nat) (f : Core → Core) : (modCore s c f).hostLines = s.hostLines := rfl
@[simp] theorem modCore_lineCtxs (s : State) (c : Nat) (f : Core → Core) : (modCore s c f).lineCtxs = s.lineCtxs := rfl
@[simp] theorem modCore_l2Buckets (s : State) (c : Nat) (f : Core → Core) : (modCore s c f).l2Buckets = s.l2Buckets := rfl
@[simp] theorem modCore_l2Refill (s : State) (c : Nat) (f : Core → Core) : (modCore s c f).l2Refill = s.l2Refill := rfl
@[simp] theorem modCore_l2Moved (s : State) (c : Nat) (f : Core → Core) : (modCore s c f).l2Moved = s.l2Moved := rfl
@[simp] theorem modCore_position (s : State) (c : Nat) (f : Core → Core) : (modCore s c f).position = s.position := rfl
@[simp] theorem modCore_ports (s : State) (c : Nat) (f : Core → Core) : (modCore s c f).ports = s.ports := rfl
@[simp] theorem modCore_buckets (s : State) (c : Nat) (f : Core → Core) : (modCore s c f).buckets = s.buckets := rfl
@[simp] theorem modCore_inbound (s : State) (c : Nat) (f : Core → Core) : (modCore s c f).inbound = s.inbound := rfl
@[simp] theorem modCore_lostPeers (s : State) (c : Nat) (f : Core → Core) : (modCore s c f).lostPeers = s.lostPeers := rfl
@[simp] theorem modCore_readOut (s : State) (c : Nat) (f : Core → Core) : (modCore s c f).readOut = s.readOut := rfl
@[simp] theorem modCore_readData (s : State) (c : Nat) (f : Core → Core) : (modCore s c f).readData = s.readData := rfl
@[simp] theorem modCore_emergency (s : State) (c : Nat) (f : Core → Core) : (modCore s c f).emergency = s.emergency := rfl
@[simp] theorem modCore_doorbells (s : State) (c : Nat) (f : Core → Core) : (modCore s c f).doorbells = s.doorbells := rfl

/-! ## modCtx -/

@[simp] theorem modCtx_agenda (s : State) (h : Nat) (f : Ctx → Ctx) : (modCtx s h f).agenda = s.agenda := rfl
@[simp] theorem modCtx_focus (s : State) (h : Nat) (f : Ctx → Ctx) : (modCtx s h f).focus = s.focus := rfl
@[simp] theorem modCtx_free (s : State) (h : Nat) (f : Ctx → Ctx) : (modCtx s h f).free = s.free := rfl
@[simp] theorem modCtx_seq (s : State) (h : Nat) (f : Ctx → Ctx) : (modCtx s h f).seq = s.seq := rfl
@[simp] theorem modCtx_ct (s : State) (h : Nat) (f : Ctx → Ctx) : (modCtx s h f).ct = s.ct := rfl
@[simp] theorem modCtx_pkg (s : State) (h : Nat) (f : Ctx → Ctx) : (modCtx s h f).pkg = s.pkg := rfl
@[simp] theorem modCtx_svc (s : State) (h : Nat) (f : Ctx → Ctx) : (modCtx s h f).svc = s.svc := rfl
@[simp] theorem modCtx_parts (s : State) (h : Nat) (f : Ctx → Ctx) : (modCtx s h f).parts = s.parts := rfl
@[simp] theorem modCtx_blocks (s : State) (h : Nat) (f : Ctx → Ctx) : (modCtx s h f).blocks = s.blocks := rfl
@[simp] theorem modCtx_cores (s : State) (h : Nat) (f : Ctx → Ctx) : (modCtx s h f).cores = s.cores := rfl
@[simp] theorem modCtx_hctxs (s : State) (h : Nat) (f : Ctx → Ctx) : (modCtx s h f).hctxs = s.hctxs := rfl
@[simp] theorem modCtx_versions (s : State) (h : Nat) (f : Ctx → Ctx) : (modCtx s h f).versions = s.versions := rfl
@[simp] theorem modCtx_mem (s : State) (h : Nat) (f : Ctx → Ctx) : (modCtx s h f).mem = s.mem := rfl
@[simp] theorem modCtx_poison (s : State) (h : Nat) (f : Ctx → Ctx) : (modCtx s h f).poison = s.poison := rfl
@[simp] theorem modCtx_poisonBy (s : State) (h : Nat) (f : Ctx → Ctx) : (modCtx s h f).poisonBy = s.poisonBy := rfl
@[simp] theorem modCtx_copyBook (s : State) (h : Nat) (f : Ctx → Ctx) : (modCtx s h f).copyBook = s.copyBook := rfl
@[simp] theorem modCtx_hostMem (s : State) (h : Nat) (f : Ctx → Ctx) : (modCtx s h f).hostMem = s.hostMem := rfl
@[simp] theorem modCtx_reqs (s : State) (h : Nat) (f : Ctx → Ctx) : (modCtx s h f).reqs = s.reqs := rfl
@[simp] theorem modCtx_l2 (s : State) (h : Nat) (f : Ctx → Ctx) : (modCtx s h f).l2 = s.l2 := rfl
@[simp] theorem modCtx_evictLease (s : State) (h : Nat) (f : Ctx → Ctx) : (modCtx s h f).evictLease = s.evictLease := rfl
@[simp] theorem modCtx_memStacks (s : State) (h : Nat) (f : Ctx → Ctx) : (modCtx s h f).memStacks = s.memStacks := rfl
@[simp] theorem modCtx_memChans (s : State) (h : Nat) (f : Ctx → Ctx) : (modCtx s h f).memChans = s.memChans := rfl
@[simp] theorem modCtx_missCount (s : State) (h : Nat) (f : Ctx → Ctx) : (modCtx s h f).missCount = s.missCount := rfl
@[simp] theorem modCtx_retraining (s : State) (h : Nat) (f : Ctx → Ctx) : (modCtx s h f).retraining = s.retraining := rfl
@[simp] theorem modCtx_hostCached (s : State) (h : Nat) (f : Ctx → Ctx) : (modCtx s h f).hostCached = s.hostCached := rfl
@[simp] theorem modCtx_snoops (s : State) (h : Nat) (f : Ctx → Ctx) : (modCtx s h f).snoops = s.snoops := rfl
@[simp] theorem modCtx_hostLink (s : State) (h : Nat) (f : Ctx → Ctx) : (modCtx s h f).hostLink = s.hostLink := rfl
@[simp] theorem modCtx_hostLines (s : State) (h : Nat) (f : Ctx → Ctx) : (modCtx s h f).hostLines = s.hostLines := rfl
@[simp] theorem modCtx_lineCtxs (s : State) (h : Nat) (f : Ctx → Ctx) : (modCtx s h f).lineCtxs = s.lineCtxs := rfl
@[simp] theorem modCtx_l2Buckets (s : State) (h : Nat) (f : Ctx → Ctx) : (modCtx s h f).l2Buckets = s.l2Buckets := rfl
@[simp] theorem modCtx_l2Refill (s : State) (h : Nat) (f : Ctx → Ctx) : (modCtx s h f).l2Refill = s.l2Refill := rfl
@[simp] theorem modCtx_l2Moved (s : State) (h : Nat) (f : Ctx → Ctx) : (modCtx s h f).l2Moved = s.l2Moved := rfl
@[simp] theorem modCtx_position (s : State) (h : Nat) (f : Ctx → Ctx) : (modCtx s h f).position = s.position := rfl
@[simp] theorem modCtx_ports (s : State) (h : Nat) (f : Ctx → Ctx) : (modCtx s h f).ports = s.ports := rfl
@[simp] theorem modCtx_buckets (s : State) (h : Nat) (f : Ctx → Ctx) : (modCtx s h f).buckets = s.buckets := rfl
@[simp] theorem modCtx_inbound (s : State) (h : Nat) (f : Ctx → Ctx) : (modCtx s h f).inbound = s.inbound := rfl
@[simp] theorem modCtx_lostPeers (s : State) (h : Nat) (f : Ctx → Ctx) : (modCtx s h f).lostPeers = s.lostPeers := rfl
@[simp] theorem modCtx_readOut (s : State) (h : Nat) (f : Ctx → Ctx) : (modCtx s h f).readOut = s.readOut := rfl
@[simp] theorem modCtx_readData (s : State) (h : Nat) (f : Ctx → Ctx) : (modCtx s h f).readData = s.readData := rfl
@[simp] theorem modCtx_emergency (s : State) (h : Nat) (f : Ctx → Ctx) : (modCtx s h f).emergency = s.emergency := rfl
@[simp] theorem modCtx_doorbells (s : State) (h : Nat) (f : Ctx → Ctx) : (modCtx s h f).doorbells = s.doorbells := rfl

/-! ## modPart -/

@[simp] theorem modPart_agenda (s : State) (p : Nat) (f : Part_ → Part_) : (modPart s p f).agenda = s.agenda := rfl
@[simp] theorem modPart_focus (s : State) (p : Nat) (f : Part_ → Part_) : (modPart s p f).focus = s.focus := rfl
@[simp] theorem modPart_free (s : State) (p : Nat) (f : Part_ → Part_) : (modPart s p f).free = s.free := rfl
@[simp] theorem modPart_seq (s : State) (p : Nat) (f : Part_ → Part_) : (modPart s p f).seq = s.seq := rfl
@[simp] theorem modPart_ct (s : State) (p : Nat) (f : Part_ → Part_) : (modPart s p f).ct = s.ct := rfl
@[simp] theorem modPart_pkg (s : State) (p : Nat) (f : Part_ → Part_) : (modPart s p f).pkg = s.pkg := rfl
@[simp] theorem modPart_svc (s : State) (p : Nat) (f : Part_ → Part_) : (modPart s p f).svc = s.svc := rfl
@[simp] theorem modPart_ctxs (s : State) (p : Nat) (f : Part_ → Part_) : (modPart s p f).ctxs = s.ctxs := rfl
@[simp] theorem modPart_blocks (s : State) (p : Nat) (f : Part_ → Part_) : (modPart s p f).blocks = s.blocks := rfl
@[simp] theorem modPart_cores (s : State) (p : Nat) (f : Part_ → Part_) : (modPart s p f).cores = s.cores := rfl
@[simp] theorem modPart_hctxs (s : State) (p : Nat) (f : Part_ → Part_) : (modPart s p f).hctxs = s.hctxs := rfl
@[simp] theorem modPart_versions (s : State) (p : Nat) (f : Part_ → Part_) : (modPart s p f).versions = s.versions := rfl
@[simp] theorem modPart_mem (s : State) (p : Nat) (f : Part_ → Part_) : (modPart s p f).mem = s.mem := rfl
@[simp] theorem modPart_poison (s : State) (p : Nat) (f : Part_ → Part_) : (modPart s p f).poison = s.poison := rfl
@[simp] theorem modPart_poisonBy (s : State) (p : Nat) (f : Part_ → Part_) : (modPart s p f).poisonBy = s.poisonBy := rfl
@[simp] theorem modPart_copyBook (s : State) (p : Nat) (f : Part_ → Part_) : (modPart s p f).copyBook = s.copyBook := rfl
@[simp] theorem modPart_hostMem (s : State) (p : Nat) (f : Part_ → Part_) : (modPart s p f).hostMem = s.hostMem := rfl
@[simp] theorem modPart_reqs (s : State) (p : Nat) (f : Part_ → Part_) : (modPart s p f).reqs = s.reqs := rfl
@[simp] theorem modPart_l2 (s : State) (p : Nat) (f : Part_ → Part_) : (modPart s p f).l2 = s.l2 := rfl
@[simp] theorem modPart_evictLease (s : State) (p : Nat) (f : Part_ → Part_) : (modPart s p f).evictLease = s.evictLease := rfl
@[simp] theorem modPart_memStacks (s : State) (p : Nat) (f : Part_ → Part_) : (modPart s p f).memStacks = s.memStacks := rfl
@[simp] theorem modPart_memChans (s : State) (p : Nat) (f : Part_ → Part_) : (modPart s p f).memChans = s.memChans := rfl
@[simp] theorem modPart_missCount (s : State) (p : Nat) (f : Part_ → Part_) : (modPart s p f).missCount = s.missCount := rfl
@[simp] theorem modPart_retraining (s : State) (p : Nat) (f : Part_ → Part_) : (modPart s p f).retraining = s.retraining := rfl
@[simp] theorem modPart_hostCached (s : State) (p : Nat) (f : Part_ → Part_) : (modPart s p f).hostCached = s.hostCached := rfl
@[simp] theorem modPart_snoops (s : State) (p : Nat) (f : Part_ → Part_) : (modPart s p f).snoops = s.snoops := rfl
@[simp] theorem modPart_hostLink (s : State) (p : Nat) (f : Part_ → Part_) : (modPart s p f).hostLink = s.hostLink := rfl
@[simp] theorem modPart_hostLines (s : State) (p : Nat) (f : Part_ → Part_) : (modPart s p f).hostLines = s.hostLines := rfl
@[simp] theorem modPart_lineCtxs (s : State) (p : Nat) (f : Part_ → Part_) : (modPart s p f).lineCtxs = s.lineCtxs := rfl
@[simp] theorem modPart_l2Buckets (s : State) (p : Nat) (f : Part_ → Part_) : (modPart s p f).l2Buckets = s.l2Buckets := rfl
@[simp] theorem modPart_l2Refill (s : State) (p : Nat) (f : Part_ → Part_) : (modPart s p f).l2Refill = s.l2Refill := rfl
@[simp] theorem modPart_l2Moved (s : State) (p : Nat) (f : Part_ → Part_) : (modPart s p f).l2Moved = s.l2Moved := rfl
@[simp] theorem modPart_position (s : State) (p : Nat) (f : Part_ → Part_) : (modPart s p f).position = s.position := rfl
@[simp] theorem modPart_ports (s : State) (p : Nat) (f : Part_ → Part_) : (modPart s p f).ports = s.ports := rfl
@[simp] theorem modPart_buckets (s : State) (p : Nat) (f : Part_ → Part_) : (modPart s p f).buckets = s.buckets := rfl
@[simp] theorem modPart_inbound (s : State) (p : Nat) (f : Part_ → Part_) : (modPart s p f).inbound = s.inbound := rfl
@[simp] theorem modPart_lostPeers (s : State) (p : Nat) (f : Part_ → Part_) : (modPart s p f).lostPeers = s.lostPeers := rfl
@[simp] theorem modPart_readOut (s : State) (p : Nat) (f : Part_ → Part_) : (modPart s p f).readOut = s.readOut := rfl
@[simp] theorem modPart_readData (s : State) (p : Nat) (f : Part_ → Part_) : (modPart s p f).readData = s.readData := rfl
@[simp] theorem modPart_emergency (s : State) (p : Nat) (f : Part_ → Part_) : (modPart s p f).emergency = s.emergency := rfl
@[simp] theorem modPart_doorbells (s : State) (p : Nat) (f : Part_ → Part_) : (modPart s p f).doorbells = s.doorbells := rfl

/-! ## modHctx -/

@[simp] theorem modHctx_agenda (s : State) (h : Nat) (f : Hctx → Hctx) : (modHctx s h f).agenda = s.agenda := rfl
@[simp] theorem modHctx_focus (s : State) (h : Nat) (f : Hctx → Hctx) : (modHctx s h f).focus = s.focus := rfl
@[simp] theorem modHctx_free (s : State) (h : Nat) (f : Hctx → Hctx) : (modHctx s h f).free = s.free := rfl
@[simp] theorem modHctx_seq (s : State) (h : Nat) (f : Hctx → Hctx) : (modHctx s h f).seq = s.seq := rfl
@[simp] theorem modHctx_ct (s : State) (h : Nat) (f : Hctx → Hctx) : (modHctx s h f).ct = s.ct := rfl
@[simp] theorem modHctx_pkg (s : State) (h : Nat) (f : Hctx → Hctx) : (modHctx s h f).pkg = s.pkg := rfl
@[simp] theorem modHctx_svc (s : State) (h : Nat) (f : Hctx → Hctx) : (modHctx s h f).svc = s.svc := rfl
@[simp] theorem modHctx_parts (s : State) (h : Nat) (f : Hctx → Hctx) : (modHctx s h f).parts = s.parts := rfl
@[simp] theorem modHctx_ctxs (s : State) (h : Nat) (f : Hctx → Hctx) : (modHctx s h f).ctxs = s.ctxs := rfl
@[simp] theorem modHctx_blocks (s : State) (h : Nat) (f : Hctx → Hctx) : (modHctx s h f).blocks = s.blocks := rfl
@[simp] theorem modHctx_cores (s : State) (h : Nat) (f : Hctx → Hctx) : (modHctx s h f).cores = s.cores := rfl
@[simp] theorem modHctx_versions (s : State) (h : Nat) (f : Hctx → Hctx) : (modHctx s h f).versions = s.versions := rfl
@[simp] theorem modHctx_mem (s : State) (h : Nat) (f : Hctx → Hctx) : (modHctx s h f).mem = s.mem := rfl
@[simp] theorem modHctx_poison (s : State) (h : Nat) (f : Hctx → Hctx) : (modHctx s h f).poison = s.poison := rfl
@[simp] theorem modHctx_poisonBy (s : State) (h : Nat) (f : Hctx → Hctx) : (modHctx s h f).poisonBy = s.poisonBy := rfl
@[simp] theorem modHctx_copyBook (s : State) (h : Nat) (f : Hctx → Hctx) : (modHctx s h f).copyBook = s.copyBook := rfl
@[simp] theorem modHctx_hostMem (s : State) (h : Nat) (f : Hctx → Hctx) : (modHctx s h f).hostMem = s.hostMem := rfl
@[simp] theorem modHctx_reqs (s : State) (h : Nat) (f : Hctx → Hctx) : (modHctx s h f).reqs = s.reqs := rfl
@[simp] theorem modHctx_l2 (s : State) (h : Nat) (f : Hctx → Hctx) : (modHctx s h f).l2 = s.l2 := rfl
@[simp] theorem modHctx_evictLease (s : State) (h : Nat) (f : Hctx → Hctx) : (modHctx s h f).evictLease = s.evictLease := rfl
@[simp] theorem modHctx_memStacks (s : State) (h : Nat) (f : Hctx → Hctx) : (modHctx s h f).memStacks = s.memStacks := rfl
@[simp] theorem modHctx_memChans (s : State) (h : Nat) (f : Hctx → Hctx) : (modHctx s h f).memChans = s.memChans := rfl
@[simp] theorem modHctx_missCount (s : State) (h : Nat) (f : Hctx → Hctx) : (modHctx s h f).missCount = s.missCount := rfl
@[simp] theorem modHctx_retraining (s : State) (h : Nat) (f : Hctx → Hctx) : (modHctx s h f).retraining = s.retraining := rfl
@[simp] theorem modHctx_hostCached (s : State) (h : Nat) (f : Hctx → Hctx) : (modHctx s h f).hostCached = s.hostCached := rfl
@[simp] theorem modHctx_snoops (s : State) (h : Nat) (f : Hctx → Hctx) : (modHctx s h f).snoops = s.snoops := rfl
@[simp] theorem modHctx_hostLink (s : State) (h : Nat) (f : Hctx → Hctx) : (modHctx s h f).hostLink = s.hostLink := rfl
@[simp] theorem modHctx_hostLines (s : State) (h : Nat) (f : Hctx → Hctx) : (modHctx s h f).hostLines = s.hostLines := rfl
@[simp] theorem modHctx_lineCtxs (s : State) (h : Nat) (f : Hctx → Hctx) : (modHctx s h f).lineCtxs = s.lineCtxs := rfl
@[simp] theorem modHctx_l2Buckets (s : State) (h : Nat) (f : Hctx → Hctx) : (modHctx s h f).l2Buckets = s.l2Buckets := rfl
@[simp] theorem modHctx_l2Refill (s : State) (h : Nat) (f : Hctx → Hctx) : (modHctx s h f).l2Refill = s.l2Refill := rfl
@[simp] theorem modHctx_l2Moved (s : State) (h : Nat) (f : Hctx → Hctx) : (modHctx s h f).l2Moved = s.l2Moved := rfl
@[simp] theorem modHctx_position (s : State) (h : Nat) (f : Hctx → Hctx) : (modHctx s h f).position = s.position := rfl
@[simp] theorem modHctx_ports (s : State) (h : Nat) (f : Hctx → Hctx) : (modHctx s h f).ports = s.ports := rfl
@[simp] theorem modHctx_buckets (s : State) (h : Nat) (f : Hctx → Hctx) : (modHctx s h f).buckets = s.buckets := rfl
@[simp] theorem modHctx_inbound (s : State) (h : Nat) (f : Hctx → Hctx) : (modHctx s h f).inbound = s.inbound := rfl
@[simp] theorem modHctx_lostPeers (s : State) (h : Nat) (f : Hctx → Hctx) : (modHctx s h f).lostPeers = s.lostPeers := rfl
@[simp] theorem modHctx_readOut (s : State) (h : Nat) (f : Hctx → Hctx) : (modHctx s h f).readOut = s.readOut := rfl
@[simp] theorem modHctx_readData (s : State) (h : Nat) (f : Hctx → Hctx) : (modHctx s h f).readData = s.readData := rfl
@[simp] theorem modHctx_emergency (s : State) (h : Nat) (f : Hctx → Hctx) : (modHctx s h f).emergency = s.emergency := rfl
@[simp] theorem modHctx_doorbells (s : State) (h : Nat) (f : Hctx → Hctx) : (modHctx s h f).doorbells = s.doorbells := rfl

/-! ## modGroup -/

@[simp] theorem modGroup_agenda (s : State) (b g : Nat) (f : Group → Group) : (modGroup s b g f).agenda = s.agenda := rfl
@[simp] theorem modGroup_focus (s : State) (b g : Nat) (f : Group → Group) : (modGroup s b g f).focus = s.focus := rfl
@[simp] theorem modGroup_free (s : State) (b g : Nat) (f : Group → Group) : (modGroup s b g f).free = s.free := rfl
@[simp] theorem modGroup_seq (s : State) (b g : Nat) (f : Group → Group) : (modGroup s b g f).seq = s.seq := rfl
@[simp] theorem modGroup_ct (s : State) (b g : Nat) (f : Group → Group) : (modGroup s b g f).ct = s.ct := rfl
@[simp] theorem modGroup_pkg (s : State) (b g : Nat) (f : Group → Group) : (modGroup s b g f).pkg = s.pkg := rfl
@[simp] theorem modGroup_svc (s : State) (b g : Nat) (f : Group → Group) : (modGroup s b g f).svc = s.svc := rfl
@[simp] theorem modGroup_parts (s : State) (b g : Nat) (f : Group → Group) : (modGroup s b g f).parts = s.parts := rfl
@[simp] theorem modGroup_ctxs (s : State) (b g : Nat) (f : Group → Group) : (modGroup s b g f).ctxs = s.ctxs := rfl
@[simp] theorem modGroup_cores (s : State) (b g : Nat) (f : Group → Group) : (modGroup s b g f).cores = s.cores := rfl
@[simp] theorem modGroup_hctxs (s : State) (b g : Nat) (f : Group → Group) : (modGroup s b g f).hctxs = s.hctxs := rfl
@[simp] theorem modGroup_versions (s : State) (b g : Nat) (f : Group → Group) : (modGroup s b g f).versions = s.versions := rfl
@[simp] theorem modGroup_mem (s : State) (b g : Nat) (f : Group → Group) : (modGroup s b g f).mem = s.mem := rfl
@[simp] theorem modGroup_poison (s : State) (b g : Nat) (f : Group → Group) : (modGroup s b g f).poison = s.poison := rfl
@[simp] theorem modGroup_poisonBy (s : State) (b g : Nat) (f : Group → Group) : (modGroup s b g f).poisonBy = s.poisonBy := rfl
@[simp] theorem modGroup_copyBook (s : State) (b g : Nat) (f : Group → Group) : (modGroup s b g f).copyBook = s.copyBook := rfl
@[simp] theorem modGroup_hostMem (s : State) (b g : Nat) (f : Group → Group) : (modGroup s b g f).hostMem = s.hostMem := rfl
@[simp] theorem modGroup_reqs (s : State) (b g : Nat) (f : Group → Group) : (modGroup s b g f).reqs = s.reqs := rfl
@[simp] theorem modGroup_l2 (s : State) (b g : Nat) (f : Group → Group) : (modGroup s b g f).l2 = s.l2 := rfl
@[simp] theorem modGroup_evictLease (s : State) (b g : Nat) (f : Group → Group) : (modGroup s b g f).evictLease = s.evictLease := rfl
@[simp] theorem modGroup_memStacks (s : State) (b g : Nat) (f : Group → Group) : (modGroup s b g f).memStacks = s.memStacks := rfl
@[simp] theorem modGroup_memChans (s : State) (b g : Nat) (f : Group → Group) : (modGroup s b g f).memChans = s.memChans := rfl
@[simp] theorem modGroup_missCount (s : State) (b g : Nat) (f : Group → Group) : (modGroup s b g f).missCount = s.missCount := rfl
@[simp] theorem modGroup_retraining (s : State) (b g : Nat) (f : Group → Group) : (modGroup s b g f).retraining = s.retraining := rfl
@[simp] theorem modGroup_hostCached (s : State) (b g : Nat) (f : Group → Group) : (modGroup s b g f).hostCached = s.hostCached := rfl
@[simp] theorem modGroup_snoops (s : State) (b g : Nat) (f : Group → Group) : (modGroup s b g f).snoops = s.snoops := rfl
@[simp] theorem modGroup_hostLink (s : State) (b g : Nat) (f : Group → Group) : (modGroup s b g f).hostLink = s.hostLink := rfl
@[simp] theorem modGroup_hostLines (s : State) (b g : Nat) (f : Group → Group) : (modGroup s b g f).hostLines = s.hostLines := rfl
@[simp] theorem modGroup_lineCtxs (s : State) (b g : Nat) (f : Group → Group) : (modGroup s b g f).lineCtxs = s.lineCtxs := rfl
@[simp] theorem modGroup_l2Buckets (s : State) (b g : Nat) (f : Group → Group) : (modGroup s b g f).l2Buckets = s.l2Buckets := rfl
@[simp] theorem modGroup_l2Refill (s : State) (b g : Nat) (f : Group → Group) : (modGroup s b g f).l2Refill = s.l2Refill := rfl
@[simp] theorem modGroup_l2Moved (s : State) (b g : Nat) (f : Group → Group) : (modGroup s b g f).l2Moved = s.l2Moved := rfl
@[simp] theorem modGroup_position (s : State) (b g : Nat) (f : Group → Group) : (modGroup s b g f).position = s.position := rfl
@[simp] theorem modGroup_ports (s : State) (b g : Nat) (f : Group → Group) : (modGroup s b g f).ports = s.ports := rfl
@[simp] theorem modGroup_buckets (s : State) (b g : Nat) (f : Group → Group) : (modGroup s b g f).buckets = s.buckets := rfl
@[simp] theorem modGroup_inbound (s : State) (b g : Nat) (f : Group → Group) : (modGroup s b g f).inbound = s.inbound := rfl
@[simp] theorem modGroup_lostPeers (s : State) (b g : Nat) (f : Group → Group) : (modGroup s b g f).lostPeers = s.lostPeers := rfl
@[simp] theorem modGroup_readOut (s : State) (b g : Nat) (f : Group → Group) : (modGroup s b g f).readOut = s.readOut := rfl
@[simp] theorem modGroup_readData (s : State) (b g : Nat) (f : Group → Group) : (modGroup s b g f).readData = s.readData := rfl
@[simp] theorem modGroup_emergency (s : State) (b g : Nat) (f : Group → Group) : (modGroup s b g f).emergency = s.emergency := rfl
@[simp] theorem modGroup_doorbells (s : State) (b g : Nat) (f : Group → Group) : (modGroup s b g f).doorbells = s.doorbells := rfl

/-! ## The piece changed, and the others -/

theorem block_modBlock (s : State) (b : Nat) (f : Block → Block) (k : Nat) : (modBlock s b f).block k = if k = b then f (s.block b) else s.block k :=
  tget_tmod ..
@[simp] theorem block_modBlock_self (s : State) (b : Nat) (f : Block → Block) : (modBlock s b f).block b = f (s.block b) := by simp [block_modBlock]
@[simp] theorem core_modBlock (s : State) (b : Nat) (f : Block → Block) (k : Nat) : (modBlock s b f).core k = s.core k := rfl
@[simp] theorem context_modBlock (s : State) (b : Nat) (f : Block → Block) (k : Nat) : (modBlock s b f).context k = s.context k := rfl
@[simp] theorem part_modBlock (s : State) (b : Nat) (f : Block → Block) (k : Nat) : (modBlock s b f).part k = s.part k := rfl
@[simp] theorem hctxOf_modBlock (s : State) (b : Nat) (f : Block → Block) (k : Nat) : (modBlock s b f).hctxOf k = s.hctxOf k := rfl
@[simp] theorem block_modCore (s : State) (c : Nat) (f : Core → Core) (k : Nat) : (modCore s c f).block k = s.block k := rfl
theorem core_modCore (s : State) (c : Nat) (f : Core → Core) (k : Nat) : (modCore s c f).core k = if k = c then f (s.core c) else s.core k :=
  tget_tmod ..
@[simp] theorem core_modCore_self (s : State) (c : Nat) (f : Core → Core) : (modCore s c f).core c = f (s.core c) := by simp [core_modCore]
@[simp] theorem context_modCore (s : State) (c : Nat) (f : Core → Core) (k : Nat) : (modCore s c f).context k = s.context k := rfl
@[simp] theorem part_modCore (s : State) (c : Nat) (f : Core → Core) (k : Nat) : (modCore s c f).part k = s.part k := rfl
@[simp] theorem hctxOf_modCore (s : State) (c : Nat) (f : Core → Core) (k : Nat) : (modCore s c f).hctxOf k = s.hctxOf k := rfl
@[simp] theorem group_modCore (s : State) (c : Nat) (f : Core → Core) (k j : Nat) : (modCore s c f).group k j = s.group k j := rfl
@[simp] theorem block_modCtx (s : State) (h : Nat) (f : Ctx → Ctx) (k : Nat) : (modCtx s h f).block k = s.block k := rfl
@[simp] theorem core_modCtx (s : State) (h : Nat) (f : Ctx → Ctx) (k : Nat) : (modCtx s h f).core k = s.core k := rfl
theorem context_modCtx (s : State) (h : Nat) (f : Ctx → Ctx) (k : Nat) : (modCtx s h f).context k = if k = h then f (s.context h) else s.context k :=
  tget_tmod ..
@[simp] theorem context_modCtx_self (s : State) (h : Nat) (f : Ctx → Ctx) : (modCtx s h f).context h = f (s.context h) := by simp [context_modCtx]
@[simp] theorem part_modCtx (s : State) (h : Nat) (f : Ctx → Ctx) (k : Nat) : (modCtx s h f).part k = s.part k := rfl
@[simp] theorem hctxOf_modCtx (s : State) (h : Nat) (f : Ctx → Ctx) (k : Nat) : (modCtx s h f).hctxOf k = s.hctxOf k := rfl
@[simp] theorem group_modCtx (s : State) (h : Nat) (f : Ctx → Ctx) (k j : Nat) : (modCtx s h f).group k j = s.group k j := rfl
@[simp] theorem block_modPart (s : State) (p : Nat) (f : Part_ → Part_) (k : Nat) : (modPart s p f).block k = s.block k := rfl
@[simp] theorem core_modPart (s : State) (p : Nat) (f : Part_ → Part_) (k : Nat) : (modPart s p f).core k = s.core k := rfl
@[simp] theorem context_modPart (s : State) (p : Nat) (f : Part_ → Part_) (k : Nat) : (modPart s p f).context k = s.context k := rfl
theorem part_modPart (s : State) (p : Nat) (f : Part_ → Part_) (k : Nat) : (modPart s p f).part k = if k = p then f (s.part p) else s.part k :=
  tget_tmod ..
@[simp] theorem part_modPart_self (s : State) (p : Nat) (f : Part_ → Part_) : (modPart s p f).part p = f (s.part p) := by simp [part_modPart]
@[simp] theorem hctxOf_modPart (s : State) (p : Nat) (f : Part_ → Part_) (k : Nat) : (modPart s p f).hctxOf k = s.hctxOf k := rfl
@[simp] theorem group_modPart (s : State) (p : Nat) (f : Part_ → Part_) (k j : Nat) : (modPart s p f).group k j = s.group k j := rfl
@[simp] theorem block_modHctx (s : State) (h : Nat) (f : Hctx → Hctx) (k : Nat) : (modHctx s h f).block k = s.block k := rfl
@[simp] theorem core_modHctx (s : State) (h : Nat) (f : Hctx → Hctx) (k : Nat) : (modHctx s h f).core k = s.core k := rfl
@[simp] theorem context_modHctx (s : State) (h : Nat) (f : Hctx → Hctx) (k : Nat) : (modHctx s h f).context k = s.context k := rfl
@[simp] theorem part_modHctx (s : State) (h : Nat) (f : Hctx → Hctx) (k : Nat) : (modHctx s h f).part k = s.part k := rfl
theorem hctxOf_modHctx (s : State) (h : Nat) (f : Hctx → Hctx) (k : Nat) : (modHctx s h f).hctxOf k = if k = h then f (s.hctxOf h) else s.hctxOf k :=
  tget_tmod ..
@[simp] theorem hctxOf_modHctx_self (s : State) (h : Nat) (f : Hctx → Hctx) : (modHctx s h f).hctxOf h = f (s.hctxOf h) := by simp [hctxOf_modHctx]
@[simp] theorem group_modHctx (s : State) (h : Nat) (f : Hctx → Hctx) (k j : Nat) : (modHctx s h f).group k j = s.group k j := rfl
@[simp] theorem core_modGroup (s : State) (b g : Nat) (f : Group → Group) (k : Nat) : (modGroup s b g f).core k = s.core k := rfl
@[simp] theorem context_modGroup (s : State) (b g : Nat) (f : Group → Group) (k : Nat) : (modGroup s b g f).context k = s.context k := rfl
@[simp] theorem part_modGroup (s : State) (b g : Nat) (f : Group → Group) (k : Nat) : (modGroup s b g f).part k = s.part k := rfl
@[simp] theorem hctxOf_modGroup (s : State) (b g : Nat) (f : Group → Group) (k : Nat) : (modGroup s b g f).hctxOf k = s.hctxOf k := rfl

theorem group_modBlock (s : State) (b : Nat) (f : Block → Block) (k j : Nat) :
    (modBlock s b f).group k j = if k = b then tget {} (f (s.block b)).groups j else s.group k j := by
  simp only [State.group, block_modBlock]; split_ifs <;> rfl

theorem group_modGroup (s : State) (b g : Nat) (f : Group → Group) (k j : Nat) :
    (modGroup s b g f).group k j = if k = b ∧ j = g then f (s.group b g) else s.group k j := by
  simp only [modGroup, group_modBlock, tget_tmod]
  by_cases hk : k = b <;> by_cases hj : j = g <;> simp [hk, hj, State.group]

@[simp] theorem group_modGroup_self (s : State) (b g : Nat) (f : Group → Group) : (modGroup s b g f).group b g = f (s.group b g) := by
  simp [group_modGroup]

theorem group_modGroup_ne (s : State) (b g : Nat) (f : Group → Group) (k j : Nat) (h : ¬(k = b ∧ j = g)) :
    (modGroup s b g f).group k j = s.group k j := by simp [group_modGroup, h]

theorem block_modGroup (s : State) (b g : Nat) (f : Group → Group) (k : Nat) :
    (modGroup s b g f).block k = if k = b then { s.block b with groups := tmod {} (s.block b).groups g f } else s.block k := by
  simp [modGroup, block_modBlock]

@[simp] theorem modGroup_block_ctx (s : State) (b g : Nat) (f : Group → Group) (k : Nat) : ((modGroup s b g f).block k).ctx = (s.block k).ctx := by
  rw [block_modGroup]; split_ifs with h <;> simp [h]
@[simp] theorem modGroup_block_gangSeq (s : State) (b g : Nat) (f : Group → Group) (k : Nat) : ((modGroup s b g f).block k).gangSeq = (s.block k).gangSeq := by
  rw [block_modGroup]; split_ifs with h <;> simp [h]
@[simp] theorem modGroup_block_gx (s : State) (b g : Nat) (f : Group → Group) (k : Nat) : ((modGroup s b g f).block k).gx = (s.block k).gx := by
  rw [block_modGroup]; split_ifs with h <;> simp [h]
@[simp] theorem modGroup_block_gy (s : State) (b g : Nat) (f : Group → Group) (k : Nat) : ((modGroup s b g f).block k).gy = (s.block k).gy := by
  rw [block_modGroup]; split_ifs with h <;> simp [h]
@[simp] theorem modGroup_block_gz (s : State) (b g : Nat) (f : Group → Group) (k : Nat) : ((modGroup s b g f).block k).gz = (s.block k).gz := by
  rw [block_modGroup]; split_ifs with h <;> simp [h]
@[simp] theorem modGroup_block_blk (s : State) (b g : Nat) (f : Group → Group) (k : Nat) : ((modGroup s b g f).block k).blk = (s.block k).blk := by
  rw [block_modGroup]; split_ifs with h <;> simp [h]
@[simp] theorem modGroup_block_lcore (s : State) (b g : Nat) (f : Group → Group) (k : Nat) : ((modGroup s b g f).block k).lcore = (s.block k).lcore := by
  rw [block_modGroup]; split_ifs with h <;> simp [h]
@[simp] theorem modGroup_block_core (s : State) (b g : Nat) (f : Group → Group) (k : Nat) : ((modGroup s b g f).block k).core = (s.block k).core := by
  rw [block_modGroup]; split_ifs with h <;> simp [h]
@[simp] theorem modGroup_block_resident (s : State) (b g : Nat) (f : Group → Group) (k : Nat) : ((modGroup s b g f).block k).resident = (s.block k).resident := by
  rw [block_modGroup]; split_ifs with h <;> simp [h]
@[simp] theorem modGroup_block_ended (s : State) (b g : Nat) (f : Group → Group) (k : Nat) : ((modGroup s b g f).block k).ended = (s.block k).ended := by
  rw [block_modGroup]; split_ifs with h <;> simp [h]
@[simp] theorem modGroup_block_scratch (s : State) (b g : Nat) (f : Group → Group) (k : Nat) : ((modGroup s b g f).block k).scratch = (s.block k).scratch := by
  rw [block_modGroup]; split_ifs with h <;> simp [h]
@[simp] theorem modGroup_block_lines (s : State) (b g : Nat) (f : Group → Group) (k : Nat) : ((modGroup s b g f).block k).lines = (s.block k).lines := by
  rw [block_modGroup]; split_ifs with h <;> simp [h]
@[simp] theorem modGroup_block_scrBase (s : State) (b g : Nat) (f : Group → Group) (k : Nat) : ((modGroup s b g f).block k).scrBase = (s.block k).scrBase := by
  rw [block_modGroup]; split_ifs with h <;> simp [h]
@[simp] theorem modGroup_block_queues (s : State) (b g : Nat) (f : Group → Group) (k : Nat) : ((modGroup s b g f).block k).queues = (s.block k).queues := by
  rw [block_modGroup]; split_ifs with h <;> simp [h]
@[simp] theorem modGroup_block_objs (s : State) (b g : Nat) (f : Group → Group) (k : Nat) : ((modGroup s b g f).block k).objs = (s.block k).objs := by
  rw [block_modGroup]; split_ifs with h <;> simp [h]
@[simp] theorem modGroup_block_mcReady (s : State) (b g : Nat) (f : Group → Group) (k : Nat) : ((modGroup s b g f).block k).mcReady = (s.block k).mcReady := by
  rw [block_modGroup]; split_ifs with h <;> simp [h]
@[simp] theorem modGroup_block_copies (s : State) (b g : Nat) (f : Group → Group) (k : Nat) : ((modGroup s b g f).block k).copies = (s.block k).copies := by
  rw [block_modGroup]; split_ifs with h <;> simp [h]
@[simp] theorem modGroup_block_slot (s : State) (b g : Nat) (f : Group → Group) (k : Nat) : ((modGroup s b g f).block k).slot = (s.block k).slot := by
  rw [block_modGroup]; split_ifs with h <;> simp [h]
@[simp] theorem modGroup_block_marks (s : State) (b g : Nat) (f : Group → Group) (k : Nat) : ((modGroup s b g f).block k).marks = (s.block k).marks := by
  rw [block_modGroup]; split_ifs with h <;> simp [h]
@[simp] theorem modGroup_block_savedTiles (s : State) (b g : Nat) (f : Group → Group) (k : Nat) : ((modGroup s b g f).block k).savedTiles = (s.block k).savedTiles := by
  rw [block_modGroup]; split_ifs with h <;> simp [h]
@[simp] theorem modGroup_block_savedItems (s : State) (b g : Nat) (f : Group → Group) (k : Nat) : ((modGroup s b g f).block k).savedItems = (s.block k).savedItems := by
  rw [block_modGroup]; split_ifs with h <;> simp [h]
@[simp] theorem modGroup_block_savedIn (s : State) (b g : Nat) (f : Group → Group) (k : Nat) : ((modGroup s b g f).block k).savedIn = (s.block k).savedIn := by
  rw [block_modGroup]; split_ifs with h <;> simp [h]

@[simp] theorem recordOf_modGroup (s : State) (b g : Nat) (f : Group → Group) (k : Nat) : recordOf (modGroup s b g f) k = recordOf s k := by
  simp [recordOf]
@[simp] theorem recordOf_modCore (s : State) (c : Nat) (f : Core → Core) (k : Nat) : recordOf (modCore s c f) k = recordOf s k := rfl
@[simp] theorem cyclesOf_modGroup (s : State) (b g : Nat) (f : Group → Group) (k : Nat) : cyclesOf (modGroup s b g f) k = cyclesOf s k := by
  simp [cyclesOf]
@[simp] theorem running_modBlock (s : State) (b : Nat) (f : Block → Block) : running (modBlock s b f) = running s := rfl
@[simp] theorem running_modGroup (s : State) (b g : Nat) (f : Group → Group) : running (modGroup s b g f) = running s := rfl
@[simp] theorem running_modCore (s : State) (c : Nat) (f : Core → Core) : running (modCore s c f) = running s := rfl
@[simp] theorem coreCt_modGroup (s : State) (b g : Nat) (f : Group → Group) (c : Nat) : coreCt (modGroup s b g f) c = coreCt s c := rfl

/-! ## The lanes of a set -/

theorem mem_lanesOf (m : Mask) (L : Nat) : L ∈ lanesOf m ↔ L < 32 ∧ inMask m L = true := by simp [lanesOf, lanes32]

theorem nodup_lanesOf (m : Mask) : (lanesOf m).Nodup := List.nodup_range.filter _

/-- Changing entries of distinct keys, one each, gives each its own change. -/
theorem tget_foldl_tmod {α : Type} [DecidableEq α] (d : α) (f : Nat → α → α) (ls : List Nat) (h : ls.Nodup) (t : Tbl α) (i : Nat) :
    tget d (ls.foldl (fun t L => tmod d t L (f L)) t) i = if i ∈ ls then f i (tget d t i) else tget d t i := by
  induction ls generalizing t with
  | nil => simp
  | cons L ls ih =>
    obtain ⟨hL, hls⟩ := List.nodup_cons.1 h
    simp only [List.foldl_cons, ih hls, tget_tmod, List.mem_cons]
    by_cases hi : i = L
    · subst hi; simp [hL]
    · simp [hi]

/-- A lane after a change of the lanes of a set. -/
theorem lane_mapLanes (q : Group) (m : Mask) (f : Nat → Lane → Lane) (L : Nat) :
    (q.mapLanes m f).lane L = if L < 32 ∧ inMask m L = true then f L (q.lane L) else q.lane L := by
  simp only [Group.mapLanes, Group.lane, tget_foldl_tmod {} f _ (nodup_lanesOf m), mem_lanesOf]

@[simp] theorem mapLanes_exists_ (q : Group) (m : Mask) (f : Nat → Lane → Lane) : (q.mapLanes m f).exists_ = q.exists_ := rfl
@[simp] theorem mapLanes_ended (q : Group) (m : Mask) (f : Nat → Lane → Lane) : (q.mapLanes m f).ended = q.ended := rfl
@[simp] theorem mapLanes_live (q : Group) (m : Mask) (f : Nat → Lane → Lane) : (q.mapLanes m f).live = q.live := rfl
@[simp] theorem mapLanes_regs (q : Group) (m : Mask) (f : Nat → Lane → Lane) : (q.mapLanes m f).regs = q.regs := rfl
@[simp] theorem mapLanes_rguess (q : Group) (m : Mask) (f : Nat → Lane → Lane) : (q.mapLanes m f).rguess = q.rguess := rfl
@[simp] theorem mapLanes_preds (q : Group) (m : Mask) (f : Nat → Lane → Lane) : (q.mapLanes m f).preds = q.preds := rfl
@[simp] theorem mapLanes_pguess (q : Group) (m : Mask) (f : Nat → Lane → Lane) : (q.mapLanes m f).pguess = q.pguess := rfl
@[simp] theorem mapLanes_sregs (q : Group) (m : Mask) (f : Nat → Lane → Lane) : (q.mapLanes m f).sregs = q.sregs := rfl
@[simp] theorem mapLanes_slots (q : Group) (m : Mask) (f : Nat → Lane → Lane) : (q.mapLanes m f).slots = q.slots := rfl
@[simp] theorem mapLanes_stride (q : Group) (m : Mask) (f : Nat → Lane → Lane) : (q.mapLanes m f).stride = q.stride := rfl
@[simp] theorem mapLanes_loads (q : Group) (m : Mask) (f : Nat → Lane → Lane) : (q.mapLanes m f).loads = q.loads := rfl
@[simp] theorem mapLanes_pending (q : Group) (m : Mask) (f : Nat → Lane → Lane) : (q.mapLanes m f).pending = q.pending := rfl
@[simp] theorem mapLanes_lastW (q : Group) (m : Mask) (f : Nat → Lane → Lane) : (q.mapLanes m f).lastW = q.lastW := rfl
@[simp] theorem mapLanes_prods (q : Group) (m : Mask) (f : Nat → Lane → Lane) : (q.mapLanes m f).prods = q.prods := rfl
@[simp] theorem mapLanes_trapMode (q : Group) (m : Mask) (f : Nat → Lane → Lane) : (q.mapLanes m f).trapMode = q.trapMode := rfl
@[simp] theorem mapLanes_handlerSet (q : Group) (m : Mask) (f : Nat → Lane → Lane) : (q.mapLanes m f).handlerSet = q.handlerSet := rfl
@[simp] theorem mapLanes_rteHeld (q : Group) (m : Mask) (f : Nat → Lane → Lane) : (q.mapLanes m f).rteHeld = q.rteHeld := rfl
@[simp] theorem mapLanes_rteNextM (q : Group) (m : Mask) (f : Nat → Lane → Lane) : (q.mapLanes m f).rteNextM = q.rteNextM := rfl
@[simp] theorem mapLanes_trapCause (q : Group) (m : Mask) (f : Nat → Lane → Lane) : (q.mapLanes m f).trapCause = q.trapCause := rfl
@[simp] theorem mapLanes_trapPc (q : Group) (m : Mask) (f : Nat → Lane → Lane) : (q.mapLanes m f).trapPc = q.trapPc := rfl
@[simp] theorem mapLanes_faultMask (q : Group) (m : Mask) (f : Nat → Lane → Lane) : (q.mapLanes m f).faultMask = q.faultMask := rfl
@[simp] theorem mapLanes_causeMask (q : Group) (m : Mask) (f : Nat → Lane → Lane) : (q.mapLanes m f).causeMask = q.causeMask := rfl
@[simp] theorem mapLanes_pend (q : Group) (m : Mask) (f : Nat → Lane → Lane) : (q.mapLanes m f).pend = q.pend := rfl
@[simp] theorem mapLanes_arrs (q : Group) (m : Mask) (f : Nat → Lane → Lane) : (q.mapLanes m f).arrs = q.arrs := rfl
@[simp] theorem mapLanes_pfParked (q : Group) (m : Mask) (f : Nat → Lane → Lane) : (q.mapLanes m f).pfParked = q.pfParked := rfl
@[simp] theorem mapLanes_faultIds (q : Group) (m : Mask) (f : Nat → Lane → Lane) : (q.mapLanes m f).faultIds = q.faultIds := rfl
@[simp] theorem mapLanes_replay (q : Group) (m : Mask) (f : Nat → Lane → Lane) : (q.mapLanes m f).replay = q.replay := rfl
@[simp] theorem mapLanes_stallUntil (q : Group) (m : Mask) (f : Nat → Lane → Lane) : (q.mapLanes m f).stallUntil = q.stallUntil := rfl
@[simp] theorem mapLanes_age (q : Group) (m : Mask) (f : Nat → Lane → Lane) : (q.mapLanes m f).age = q.age := rfl
@[simp] theorem mapLanes_lastIssue (q : Group) (m : Mask) (f : Nat → Lane → Lane) : (q.mapLanes m f).lastIssue = q.lastIssue := rfl
@[simp] theorem mapLanes_words (q : Group) (m : Mask) (f : Nat → Lane → Lane) : (q.mapLanes m f).words = q.words := rfl
@[simp] theorem mapLanes_yielded (q : Group) (m : Mask) (f : Nat → Lane → Lane) : (q.mapLanes m f).yielded = q.yielded := rfl
@[simp] theorem mapLanes_stopped (q : Group) (m : Mask) (f : Nat → Lane → Lane) : (q.mapLanes m f).stopped = q.stopped := rfl
@[simp] theorem mapLanes_perf (q : Group) (m : Mask) (f : Nat → Lane → Lane) : (q.mapLanes m f).perf = q.perf := rfl
@[simp] theorem mapLanes_regBase (q : Group) (m : Mask) (f : Nat → Lane → Lane) : (q.mapLanes m f).regBase = q.regBase := rfl

end Sys2Proof.Machine
end

