-- ==== Sys2Proof/Laws/Memory.lean ====
section
/-! SUPPORT. Memory: what a byte reads as after each operation, and the canonical form that every operation keeps. -/

set_option Elab.async false

namespace Sys2Proof.Machine

/-! ## Reads after writes -/

theorem memByte_putByte (s : State) (a b : Nat) (x : Byte) : memByte (putByte s a x) b = if b = a then x else memByte s b :=
  tget_tset ..

@[simp] theorem putBytes_nil (s : State) : putBytes s [] = s := rfl

theorem putBytes_cons (s : State) (e : Nat × Byte) (bs : List (Nat × Byte)) : putBytes s (e :: bs) = putBytes (putByte s e.1 e.2) bs := rfl

/-- A byte that a list of writes does not name is as before. -/
theorem memByte_putBytes_other (s : State) (bs : List (Nat × Byte)) (a : Nat) (h : ∀ e ∈ bs, e.1 ≠ a) :
    memByte (putBytes s bs) a = memByte s a := by
  induction bs generalizing s with
  | nil => rfl
  | cons e bs ih =>
    rw [putBytes_cons, ih _ fun x hx => h x (List.mem_cons_of_mem _ hx), memByte_putByte, if_neg]
    exact fun x => h e List.mem_cons_self x.symm

/-- A byte that a list of writes names once has what it was given. -/
theorem memByte_putBytes_once (s : State) (bs : List (Nat × Byte)) (h : (bs.map Prod.fst).Nodup) (e : Nat × Byte) (he : e ∈ bs) :
    memByte (putBytes s bs) e.1 = e.2 := by
  induction bs generalizing s with
  | nil => simp at he
  | cons d bs ih =>
    simp only [List.map_cons, List.nodup_cons] at h
    rw [putBytes_cons]
    rcases List.mem_cons.1 he with rfl | he
    · rw [memByte_putBytes_other _ _ _ fun x hx hxe => h.1 (List.mem_map.2 ⟨x, hx, hxe⟩), memByte_putByte, if_pos rfl]
    · exact ih _ h.2 he

/-! ## The canonical form -/

/-- The canonical form of memory and of host memory goes from s to t. -/
structure KeepsForm (s t : State) : Prop where
  mem  : Memory.wf s.mem = true → Memory.wf t.mem = true
  host : Memory.wf s.hostMem = true → Memory.wf t.hostMem = true

theorem KeepsForm.refl (s : State) : KeepsForm s s := ⟨id, id⟩
theorem KeepsForm.trans {s t u : State} (h : KeepsForm s t) (k : KeepsForm t u) : KeepsForm s u := ⟨k.mem ∘ h.mem, k.host ∘ h.host⟩

/-- What touches neither memory keeps the form. -/
theorem KeepsForm.of_same {s t : State} (h : t.mem = s.mem) (k : t.hostMem = s.hostMem) : KeepsForm s t :=
  ⟨fun x => by rw [h]; exact x, fun x => by rw [k]; exact x⟩

theorem KeepsForm.foldl {α : Type} (f : State → α → State) (hf : ∀ s x, KeepsForm s (f s x)) (xs : List α) (s : State) :
    KeepsForm s (xs.foldl f s) := by
  induction xs generalizing s with
  | nil => exact .refl s
  | cons x xs ih => exact (hf s x).trans (ih _)

theorem keepsForm_putByte (s : State) (a : Nat) (x : Byte) : KeepsForm s (putByte s a x) :=
  ⟨fun h => tcanon_tset _ _ _ _ h, id⟩

theorem keepsForm_putBytes (s : State) (bs : List (Nat × Byte)) : KeepsForm s (putBytes s bs) :=
  .foldl (fun t (e : Nat × Byte) => putByte t e.1 e.2) (fun s e => keepsForm_putByte s e.1 e.2) bs s

theorem keepsForm_putNum (s : State) (a n x : Nat) : KeepsForm s (putNum s a n x) := keepsForm_putBytes ..

theorem keepsForm_putHost (s : State) (bs : List (Nat × Byte)) : KeepsForm s (putHost s bs) := by
  refine ⟨id, fun h => ?_⟩
  show Memory.wf (bs.foldl (fun t e => tset memDefault t e.1 e.2) s.hostMem) = true
  generalize s.hostMem = m at h
  induction bs generalizing m with
  | nil => exact h
  | cons e bs ih => exact ih _ (tcanon_tset _ _ _ _ h)

/-- Giving bytes back to what an unlisted address reads as keeps the form. -/
theorem keepsForm_filter (s : State) (p q : Nat × Byte → Bool) :
    KeepsForm s { s with mem := s.mem.filter p, hostMem := s.hostMem.filter q } :=
  ⟨fun h => tcanon_filter _ _ _ h, fun h => tcanon_filter _ _ _ h⟩

theorem keepsForm_modGroup (s : State) (b g : Nat) (f : Group → Group) : KeepsForm s (modGroup s b g f) := .of_same rfl rfl
theorem keepsForm_modBlock (s : State) (b : Nat) (f : Block → Block) : KeepsForm s (modBlock s b f) := .of_same rfl rfl
theorem keepsForm_modCore (s : State) (c : Nat) (f : Core → Core) : KeepsForm s (modCore s c f) := .of_same rfl rfl
theorem keepsForm_modCtx (s : State) (h : Nat) (f : Ctx → Ctx) : KeepsForm s (modCtx s h f) := .of_same rfl rfl
theorem keepsForm_modPart (s : State) (p : Nat) (f : Part_ → Part_) : KeepsForm s (modPart s p f) := .of_same rfl rfl

/-- Evaluating the sync words of a write changes no memory (R84). -/
theorem evalChan_memories (s : State) (p c : Nat) : (evalChan s p c).mem = s.mem ∧ (evalChan s p c).hostMem = s.hostMem := by
  unfold evalChan; dsimp only; split
  · exact ⟨rfl, rfl⟩
  · split_ifs <;> exact ⟨rfl, rfl⟩

theorem syncEval_memories (s : State) (a n : Nat) : (syncEval s a n).mem = s.mem ∧ (syncEval s a n).hostMem = s.hostMem := by
  unfold syncEval
  generalize waitersOn s false a n = ws
  induction ws generalizing s with
  | nil => exact ⟨rfl, rfl⟩
  | cons w ws ih =>
    have h := evalChan_memories s w.1 w.2
    exact ⟨(ih _).1.trans h.1, (ih _).2.trans h.2⟩

theorem snoopOwn_memories (s : State) (a n : Nat) : (snoopOwn s a n).mem = s.mem ∧ (snoopOwn s a n).hostMem = s.hostMem := by
  unfold snoopOwn; split_ifs <;> exact ⟨rfl, rfl⟩

theorem keepsForm_snoopOwn (s : State) (a n : Nat) : KeepsForm s (snoopOwn s a n) := .of_same (snoopOwn_memories ..).1 (snoopOwn_memories ..).2

/-- What a write of a number leaves in memory depends on memory alone. -/
theorem putNum_mem {s t : State} (h : t.mem = s.mem) (a n x : Nat) : (putNum t a n x).mem = (putNum s a n x).mem := by
  unfold putNum putBytes
  generalize ((leBytes n x).zipIdx.map fun e => (a + e.2, e.1)) = bs
  induction bs generalizing s t with
  | nil => exact h
  | cons e bs ih => exact ih (by simp only [putByte, h])

/-- A number that the device writes stands in memory as putNum leaves it. -/
theorem devNum_mem (s : State) (a n x : Nat) : (devNum s a n x).mem = (putNum s a n x).mem :=
  (syncEval_memories ..).1.trans (putNum_mem (snoopOwn_memories ..).1 a n x)

theorem keepsForm_syncEval (s : State) (a n : Nat) : KeepsForm s (syncEval s a n) := .of_same (syncEval_memories ..).1 (syncEval_memories ..).2
theorem keepsForm_devNum (s : State) (a n x : Nat) : KeepsForm s (devNum s a n x) :=
  ((keepsForm_snoopOwn ..).trans (keepsForm_putNum ..)).trans (keepsForm_syncEval ..)

/-- A log write of R155 and the mark that leads to it. -/
theorem keepsForm_logDirty (s : State) (p va size : Nat) : KeepsForm s (logDirty s p va size) := by
  unfold logDirty
  dsimp only
  by_cases h : (!(s.part p).logEnable) = true
  · rw [if_pos h]; exact .refl s
  · rw [if_neg h]
    by_cases k : ((s.part p).logHead + 2 ^ 32 - (s.part p).logTail) % 2 ^ 32 = 2 ^ ((s.part p).logSize + 9)
    · rw [if_pos k]; exact keepsForm_modPart ..
    · rw [if_neg k]; exact (keepsForm_devNum ..).trans (keepsForm_modPart ..)

theorem keepsForm_notePte (s : State) (p va : Nat) (acc : Acc) (e : TlbEntry) : KeepsForm s (notePte s p va acc e) := by
  unfold notePte
  dsimp only
  by_cases h : (e.acc && !(writes acc && !e.dirty)) = true
  · rw [if_pos h]; exact .refl s
  · rw [if_neg h]
    by_cases k : (writes acc && !e.dirty && !bit (memRead s e.leaf 8) 11) = true
    · rw [if_pos k]; exact (keepsForm_devNum ..).trans (keepsForm_logDirty ..)
    · rw [if_neg k]; exact keepsForm_devNum ..

theorem keepsForm_noteXl (s : State) (c p va : Nat) (acc : Acc) (x : Xl) : KeepsForm s (noteXl s c p va acc x) :=
  (keepsForm_notePte ..).trans (keepsForm_modCore ..)

/-- Reset memory has the form. -/
theorem reset_mem_form : Memory.wf State.reset.mem = true := rfl
theorem reset_hostMem_form : Memory.wf State.reset.hostMem = true := rfl

end Sys2Proof.Machine
end

