-- ==== Sys2Proof/Laws/PerInstr.lean ====
section
/-! SUPPORT. What is proved of each instruction as syntax: the decoder makes of its opcode and fields the instruction itself. -/

set_option Elab.async false

namespace Sys2Proof.Laws.Encoding

open Sys2Proof Sys2Proof.Machine

/-- The opcode and fields that the encoder takes from an instruction give it back, where its SUB or FORM is the constructor's (R303). -/
def Statement (i : Instr) : Prop := ∀ op w, instrParts i = some (op, w) → selectOk i = true → mkInstr op w = some i

/-- An instruction alone in its opcode. -/
theorem alone {i : Instr} {op0 : Nat} {w0 : Insn} (h : instrParts i = some (op0, w0)) (k : mkInstr op0 w0 = some i) : Statement i :=
  fun op w e _ => by rw [h] at e; cases e; exact k

/-- An instruction that shares its opcode. -/
theorem shared {i : Instr} {op0 : Nat} {w0 : Insn} (h : instrParts i = some (op0, w0)) (k : selectOk i = true → mkInstr op0 w0 = some i) :
    Statement i := fun op w e sel => by rw [h] at e; cases e; exact k sel

/-- A step that has no word. -/
theorem wordless {i : Instr} (h : instrParts i = none) : Statement i := fun op w e _ => by rw [h] at e; cases e

theorem bringupFwVerify : ∀ x0 x1, Statement (.bringupFwVerify x0 x1) := fun _ _ => wordless rfl
theorem bringupStacksTrained : ∀ x0 x1, Statement (.bringupStacksTrained x0 x1) := fun _ _ => wordless rfl
theorem sensorSample : ∀ x0 x1 x2, Statement (.sensorSample x0 x1 x2) := fun _ _ _ => wordless rfl
theorem powerAverageCheck : ∀ x0, Statement (.powerAverageCheck x0) := fun _ => wordless rfl
theorem powerOverrunRecheck : ∀ x0, Statement (.powerOverrunRecheck x0) := fun _ => wordless rfl
theorem ctSyncMarker : ∀ x0 x1, Statement (.ctSyncMarker x0 x1) := fun _ _ => wordless rfl
theorem baseDieRequest : ∀ x0 x1, Statement (.baseDieRequest x0 x1) := fun _ _ => wordless rfl
theorem victimFill : ∀ x0 x1, Statement (.victimFill x0 x1) := fun _ _ => wordless rfl
theorem discardByHypothesis : ∀ x0 x1, Statement (.discardByHypothesis x0 x1) := fun _ _ => wordless rfl
theorem dramRequestServed : ∀ x0 x1 x2, Statement (.dramRequestServed x0 x1 x2) := fun _ _ _ => wordless rfl
theorem frugalHoldRelease : ∀ x0 x1, Statement (.frugalHoldRelease x0 x1) := fun _ _ => wordless rfl
theorem refreshDue : ∀ x0 x1 x2, Statement (.refreshDue x0 x1 x2) := fun _ _ _ => wordless rfl
theorem patrolScrub : ∀ x0 x1 x2, Statement (.patrolScrub x0 x1 x2) := fun _ _ _ => wordless rfl
theorem toggleWindowEnd : ∀ x0 x1 x2 x3 x4, Statement (.toggleWindowEnd x0 x1 x2 x3 x4) := fun _ _ _ _ _ => wordless rfl
theorem codeSwitchDone : ∀ x0, Statement (.codeSwitchDone x0) := fun _ => wordless rfl
theorem channelRetrainDone : ∀ x0 x1 x2, Statement (.channelRetrainDone x0 x1 x2) := fun _ _ _ => wordless rfl
theorem fabricPacketReceive : ∀ x0 x1, Statement (.fabricPacketReceive x0 x1) := fun _ _ => wordless rfl
theorem fabricRequestServe : ∀ x0, Statement (.fabricRequestServe x0) := fun _ => wordless rfl
theorem fabricResponseReceive : ∀ x0, Statement (.fabricResponseReceive x0) := fun _ => wordless rfl
theorem linkBlockSend : ∀ x0, Statement (.linkBlockSend x0) := fun _ => wordless rfl
theorem linkBlockReceive : ∀ x0 x1 x2 x3 x4, Statement (.linkBlockReceive x0 x1 x2 x3 x4) := fun _ _ _ _ _ => wordless rfl
theorem linkAckReceive : ∀ x0 x1, Statement (.linkAckReceive x0 x1) := fun _ _ => wordless rfl
theorem linkNakReceive : ∀ x0 x1, Statement (.linkNakReceive x0 x1) := fun _ _ => wordless rfl
theorem vcStopSignal : ∀ x0 x1 x2, Statement (.vcStopSignal x0 x1 x2) := fun _ _ _ => wordless rfl
theorem fabricBucketRefill : ∀ x0, Statement (.fabricBucketRefill x0) := fun _ => wordless rfl
theorem l2BucketRefill : ∀ x0, Statement (.l2BucketRefill x0) := fun _ => wordless rfl
theorem peerRequestTimeout : ∀ x0, Statement (.peerRequestTimeout x0) := fun _ => wordless rfl
theorem peerResetNotice : ∀ x0, Statement (.peerResetNotice x0) := fun _ => wordless rfl
theorem portTrainingDone : ∀ x0 x1 x2, Statement (.portTrainingDone x0 x1 x2) := fun _ _ _ => wordless rfl
theorem portTrainingTimeout : ∀ x0, Statement (.portTrainingTimeout x0) := fun _ => wordless rfl
theorem linkRecalLaneDone : ∀ x0 x1, Statement (.linkRecalLaneDone x0 x1) := fun _ _ => wordless rfl
theorem cxlMemRead : ∀ x0, Statement (.cxlMemRead x0) := fun _ => wordless rfl
theorem cxlMemWrite : ∀ x0 x1, Statement (.cxlMemWrite x0 x1) := fun _ _ => wordless rfl
theorem bisnpResponse : ∀ x0, Statement (.bisnpResponse x0) := fun _ => wordless rfl
theorem hostLineSnoop : ∀ x0, Statement (.hostLineSnoop x0) := fun _ => wordless rfl
theorem chanCfgWrite : ∀ x0 x1 x2, Statement (.chanCfgWrite x0 x1 x2) := fun _ _ _ => wordless rfl
theorem chanDoorbell : ∀ x0 x1 x2, Statement (.chanDoorbell x0 x1 x2) := fun _ _ _ => wordless rfl
theorem chanHaltedClear : ∀ x0 x1, Statement (.chanHaltedClear x0 x1) := fun _ _ => wordless rfl
theorem chanSkip : ∀ x0 x1, Statement (.chanSkip x0 x1) := fun _ _ => wordless rfl
theorem recordAtHead : ∀ x0 x1, Statement (.recordAtHead x0 x1) := fun _ _ => wordless rfl
theorem recordSeqRecheck : ∀ x0 x1, Statement (.recordSeqRecheck x0 x1) := fun _ _ => wordless rfl
theorem syncWordPollHost : ∀ x0 x1, Statement (.syncWordPollHost x0 x1) := fun _ _ => wordless rfl
theorem recordStart : ∀ x0 x1, Statement (.recordStart x0 x1) := fun _ _ => wordless rfl
theorem markerSignal : ∀ x0 x1, Statement (.markerSignal x0 x1) := fun _ _ => wordless rfl
theorem gangPlace : ∀ x0, Statement (.gangPlace x0) := fun _ => wordless rfl
theorem gangPreempt : ∀ x0 x1, Statement (.gangPreempt x0 x1) := fun _ _ => wordless rfl
theorem preemptSaveDone : ∀ x0 x1, Statement (.preemptSaveDone x0 x1) := fun _ _ => wordless rfl
theorem gangResume : ∀ x0 x1, Statement (.gangResume x0 x1) := fun _ _ => wordless rfl
theorem itemRefill : ∀ x0, Statement (.itemRefill x0) := fun _ => wordless rfl
theorem groupEnd : ∀ x0 x1, Statement (.groupEnd x0 x1) := fun _ _ => wordless rfl
theorem blockEnd : ∀ x0, Statement (.blockEnd x0) := fun _ => wordless rfl
theorem contextComplete : ∀ x0, Statement (.contextComplete x0) := fun _ => wordless rfl
theorem l2StoreAccept : ∀ x0, Statement (.l2StoreAccept x0) := fun _ => wordless rfl
theorem l2StoreApply : ∀ x0, Statement (.l2StoreApply x0) := fun _ => wordless rfl
theorem l2LoadServe : ∀ x0 x1, Statement (.l2LoadServe x0 x1) := fun _ _ => wordless rfl
theorem l2Eviction : ∀ x0, Statement (.l2Eviction x0) := fun _ => wordless rfl
theorem leaseExpiry : ∀ x0 x1, Statement (.leaseExpiry x0 x1) := fun _ _ => wordless rfl
theorem loadReplyArrival : ∀ x0, Statement (.loadReplyArrival x0) := fun _ => wordless rfl
theorem waitLimitExpiry : ∀ x0 x1 x2 x3, Statement (.waitLimitExpiry x0 x1 x2 x3) := fun _ _ _ _ => wordless rfl
theorem writeCompletionReturn : ∀ x0, Statement (.writeCompletionReturn x0) := fun _ => wordless rfl
theorem translationWalkDone : ∀ x0 x1 x2, Statement (.translationWalkDone x0 x1 x2) := fun _ _ _ => wordless rfl
theorem scratchLinePresent : ∀ x0 x1, Statement (.scratchLinePresent x0 x1) := fun _ _ => wordless rfl
theorem multicastReadyMet : ∀ x0, Statement (.multicastReadyMet x0) := fun _ => wordless rfl
theorem copyComplete : ∀ x0, Statement (.copyComplete x0) := fun _ => wordless rfl
theorem mmaAccept : ∀ x0 x1 x2, Statement (.mmaAccept x0 x1 x2) := fun _ _ _ => wordless rfl
theorem mmaReadCycle : ∀ x0, Statement (.mmaReadCycle x0) := fun _ => wordless rfl
theorem mmaCommandDone : ∀ x0, Statement (.mmaCommandDone x0) := fun _ => wordless rfl
theorem resolveEgressDrained : ∀ x0, Statement (.resolveEgressDrained x0) := fun _ => wordless rfl
theorem resolveEffect : ∀ x0, Statement (.resolveEffect x0) := fun _ => wordless rfl
theorem hypIdRetire : ∀ x0 x1, Statement (.hypIdRetire x0 x1) := fun _ _ => wordless rfl
theorem refuteRedirect : ∀ x0 x1 x2, Statement (.refuteRedirect x0 x1 x2) := fun _ _ _ => wordless rfl
theorem machineCheckTaken : ∀ x0 x1, Statement (.machineCheckTaken x0 x1) := fun _ _ => wordless rfl
theorem hostLinkTrap : ∀ x0 x1, Statement (.hostLinkTrap x0 x1) := fun _ _ => wordless rfl
theorem sleepWake : ∀ x0 x1 x2, Statement (.sleepWake x0 x1 x2) := fun _ _ _ => wordless rfl
theorem waitevRelease : ∀ x0 x1 x2, Statement (.waitevRelease x0 x1 x2) := fun _ _ _ => wordless rfl
theorem powerCmdRun : ∀ x0, Statement (.powerCmdRun x0) := fun _ => wordless rfl
theorem dirtyLogCfgWrite : ∀ x0 x1, Statement (.dirtyLogCfgWrite x0 x1) := fun _ _ => wordless rfl
theorem faultRingCfgWrite : ∀ x0 x1, Statement (.faultRingCfgWrite x0 x1) := fun _ _ => wordless rfl
theorem tlbinvAddrPage : ∀ x0 x1, Statement (.tlbinvAddrPage x0 x1) := fun _ _ => wordless rfl
theorem tlbinvAddrAll : ∀ x0, Statement (.tlbinvAddrAll x0) := fun _ => wordless rfl
theorem tlbInvalidationAck : ∀ x0, Statement (.tlbInvalidationAck x0) := fun _ => wordless rfl
theorem faultReplyRetry : ∀ x0 x1, Statement (.faultReplyRetry x0 x1) := fun _ _ => wordless rfl
theorem faultReplyAbort : ∀ x0 x1, Statement (.faultReplyAbort x0 x1) := fun _ _ => wordless rfl
theorem missCountRead : ∀ x0 x1, Statement (.missCountRead x0 x1) := fun _ _ => wordless rfl
theorem chStatusRead : ∀ x0, Statement (.chStatusRead x0) := fun _ => wordless rfl
theorem fabPortStatusRead : ∀ x0, Statement (.fabPortStatusRead x0) := fun _ => wordless rfl
theorem memLatencyShapeRead : ∀ x0, Statement (.memLatencyShapeRead x0) := fun _ => wordless rfl
theorem registerWrite : ∀ x0 x1 x2, Statement (.registerWrite x0 x1 x2) := fun _ _ _ => wordless rfl
theorem mboxUnknownCmd : ∀ x0, Statement (.mboxUnknownCmd x0) := fun _ => wordless rfl
theorem attest : ∀ x0, Statement (.attest x0) := fun _ => wordless rfl
theorem fwSelfTestDone : ∀ x0, Statement (.fwSelfTestDone x0) := fun _ => wordless rfl
theorem coreDrainComplete : ∀ x0, Statement (.coreDrainComplete x0) := fun _ => wordless rfl
theorem iadd : ∀ x0, Statement (.iadd x0) := fun _ => alone rfl rfl
theorem isub : ∀ x0, Statement (.isub x0) := fun _ => alone rfl rfl
theorem iaddc : ∀ x0, Statement (.iaddc x0) := fun _ => alone rfl rfl
theorem isubb : ∀ x0, Statement (.isubb x0) := fun _ => alone rfl rfl
theorem imul : ∀ x0, Statement (.imul x0) := fun _ => alone rfl rfl
theorem imulh : ∀ x0, Statement (.imulh x0) := fun _ => alone rfl rfl
theorem imad : ∀ x0, Statement (.imad x0) := fun _ => alone rfl rfl
theorem iabs : ∀ x0, Statement (.iabs x0) := fun _ => alone rfl rfl
theorem ineg : ∀ x0, Statement (.ineg x0) := fun _ => alone rfl rfl
theorem imin : ∀ x0, Statement (.imin x0) := fun _ => alone rfl rfl
theorem imax : ∀ x0, Statement (.imax x0) := fun _ => alone rfl rfl
theorem dp4 : ∀ x0, Statement (.dp4 x0) := fun _ => alone rfl rfl
theorem lea : ∀ x0, Statement (.lea x0) := fun _ => alone rfl rfl
theorem mov : ∀ x0, Statement (.mov x0) := fun _ => alone rfl rfl
theorem movi : ∀ x0, Statement (.movi x0) := fun _ => alone rfl rfl
theorem shl : ∀ x0, Statement (.shl x0) := fun _ => alone rfl rfl
theorem shr : ∀ x0, Statement (.shr x0) := fun _ => alone rfl rfl
theorem shra : ∀ x0, Statement (.shra x0) := fun _ => alone rfl rfl
theorem fshf : ∀ x0, Statement (.fshf x0) := fun _ => alone rfl rfl
theorem and : ∀ x0, Statement (.and x0) := fun _ => alone rfl rfl
theorem or : ∀ x0, Statement (.or x0) := fun _ => alone rfl rfl
theorem xor : ∀ x0, Statement (.xor x0) := fun _ => alone rfl rfl
theorem not : ∀ x0, Statement (.not x0) := fun _ => alone rfl rfl
theorem bfunc : ∀ x0, Statement (.bfunc x0) := fun _ => alone rfl rfl
theorem popc : ∀ x0, Statement (.popc x0) := fun _ => alone rfl rfl
theorem clz : ∀ x0, Statement (.clz x0) := fun _ => alone rfl rfl
theorem brev : ∀ x0, Statement (.brev x0) := fun _ => alone rfl rfl
theorem bfx : ∀ x0, Statement (.bfx x0) := fun _ => alone rfl rfl
theorem bfi : ∀ x0, Statement (.bfi x0) := fun _ => alone rfl rfl
theorem bra : ∀ x0, Statement (.bra x0) := fun _ => alone rfl rfl
theorem brx : ∀ x0, Statement (.brx x0) := fun _ => alone rfl rfl
theorem call : ∀ x0, Statement (.call x0) := fun _ => alone rfl rfl
theorem ret : ∀ x0, Statement (.ret x0) := fun _ => alone rfl rfl
theorem exit : ∀ x0, Statement (.exit x0) := fun _ => alone rfl rfl
theorem rejoin : ∀ x0, Statement (.rejoin x0) := fun _ => alone rfl rfl
theorem yield : ∀ x0, Statement (.yield x0) := fun _ => alone rfl rfl
theorem nop : ∀ x0, Statement (.nop x0) := fun _ => alone rfl rfl
theorem ipop : ∀ x0, Statement (.ipop x0) := fun _ => alone rfl rfl
theorem icmp : ∀ x0, Statement (.icmp x0) := fun _ => alone rfl rfl
theorem fcmp : ∀ x0, Statement (.fcmp x0) := fun _ => alone rfl rfl
theorem plop : ∀ x0, Statement (.plop x0) := fun _ => alone rfl rfl
theorem sel : ∀ x0, Statement (.sel x0) := fun _ => alone rfl rfl
theorem fadd : ∀ x0, Statement (.fadd x0) := fun _ => alone rfl rfl
theorem fsub : ∀ x0, Statement (.fsub x0) := fun _ => alone rfl rfl
theorem fmul : ∀ x0, Statement (.fmul x0) := fun _ => alone rfl rfl
theorem ffma : ∀ x0, Statement (.ffma x0) := fun _ => alone rfl rfl
theorem fmin : ∀ x0, Statement (.fmin x0) := fun _ => alone rfl rfl
theorem fmax : ∀ x0, Statement (.fmax x0) := fun _ => alone rfl rfl
theorem fclass : ∀ x0, Statement (.fclass x0) := fun _ => alone rfl rfl
theorem dadd : ∀ x0, Statement (.dadd x0) := fun _ => alone rfl rfl
theorem dmul : ∀ x0, Statement (.dmul x0) := fun _ => alone rfl rfl
theorem dfma : ∀ x0, Statement (.dfma x0) := fun _ => alone rfl rfl
theorem frcp : ∀ x0, Statement (.frcp x0) := fun _ => alone rfl rfl
theorem frsq : ∀ x0, Statement (.frsq x0) := fun _ => alone rfl rfl
theorem fsqrt : ∀ x0, Statement (.fsqrt x0) := fun _ => alone rfl rfl
theorem fex2 : ∀ x0, Statement (.fex2 x0) := fun _ => alone rfl rfl
theorem flg2 : ∀ x0, Statement (.flg2 x0) := fun _ => alone rfl rfl
theorem fsin : ∀ x0, Statement (.fsin x0) := fun _ => alone rfl rfl
theorem fcos : ∀ x0, Statement (.fcos x0) := fun _ => alone rfl rfl
theorem ftanh : ∀ x0, Statement (.ftanh x0) := fun _ => alone rfl rfl
theorem cvt : ∀ x0, Statement (.cvt x0) := fun _ => alone rfl rfl
theorem cvti : ∀ x0, Statement (.cvti x0) := fun _ => alone rfl rfl
theorem pack : ∀ x0, Statement (.pack x0) := fun _ => alone rfl rfl
theorem unpk : ∀ x0, Statement (.unpk x0) := fun _ => alone rfl rfl
theorem scale : ∀ x0, Statement (.scale x0) := fun _ => alone rfl rfl
theorem frnd : ∀ x0, Statement (.frnd x0) := fun _ => alone rfl rfl
theorem faddPacked8 : ∀ x0, Statement (.faddPacked8 x0) := fun _ => alone rfl rfl
theorem fsubPacked8 : ∀ x0, Statement (.fsubPacked8 x0) := fun _ => alone rfl rfl
theorem fmulPacked8 : ∀ x0, Statement (.fmulPacked8 x0) := fun _ => alone rfl rfl
theorem ffmaPacked8 : ∀ x0, Statement (.ffmaPacked8 x0) := fun _ => alone rfl rfl
theorem fminPacked8 : ∀ x0, Statement (.fminPacked8 x0) := fun _ => alone rfl rfl
theorem fmaxPacked8 : ∀ x0, Statement (.fmaxPacked8 x0) := fun _ => alone rfl rfl
theorem ld : ∀ x0, Statement (.ld x0) := fun _ => alone rfl rfl
theorem lds : ∀ x0, Statement (.lds x0) := fun _ => alone rfl rfl
theorem ldc : ∀ x0, Statement (.ldc x0) := fun _ => alone rfl rfl
theorem lda : ∀ x0, Statement (.lda x0) := fun _ => alone rfl rfl
theorem pref : ∀ x0, Statement (.pref x0) := fun _ => alone rfl rfl
theorem ptest : ∀ x0, Statement (.ptest x0) := fun _ => alone rfl rfl
theorem st : ∀ x0, Statement (.st x0) := fun _ => alone rfl rfl
theorem sts : ∀ x0, Statement (.sts x0) := fun _ => alone rfl rfl
theorem sta : ∀ x0, Statement (.sta x0) := fun _ => alone rfl rfl
theorem cwb : ∀ x0, Statement (.cwb x0) := fun _ => alone rfl rfl
theorem cinv : ∀ x0, Statement (.cinv x0) := fun _ => alone rfl rfl
theorem gtest : ∀ x0, Statement (.gtest x0) := fun _ => alone rfl rfl
theorem demand : ∀ x0, Statement (.demand x0) := fun _ => alone rfl rfl
theorem accept : ∀ x0, Statement (.accept x0) := fun _ => alone rfl rfl
theorem gmark : ∀ x0, Statement (.gmark x0) := fun _ => alone rfl rfl
theorem atom : ∀ x0, Statement (.atom x0) := fun _ => alone rfl rfl
theorem red : ∀ x0, Statement (.red x0) := fun _ => alone rfl rfl
theorem fence : ∀ x0, Statement (.fence x0) := fun _ => alone rfl rfl
theorem bari : ∀ x0, Statement (.bari x0) := fun _ => alone rfl rfl
theorem barv : ∀ x0, Statement (.barv x0) := fun _ => alone rfl rfl
theorem barw : ∀ x0, Statement (.barw x0) := fun _ => alone rfl rfl
theorem bart : ∀ x0, Statement (.bart x0) := fun _ => alone rfl rfl
theorem boinit : ∀ x0, Statement (.boinit x0) := fun _ => alone rfl rfl
theorem sleepRel : ∀ x0, Statement (.sleepRel x0) := fun w => shared rfl fun h => by simp only [selectOk, beq_iff_eq] at h; simp only [mkInstr, h]
theorem sleepAbs : ∀ x0, Statement (.sleepAbs x0) := fun w => shared rfl fun h => by simp only [selectOk, beq_iff_eq] at h; simp only [mkInstr, h]
theorem clkCt : ∀ x0, Statement (.clkCt x0) := fun w => shared rfl fun h => by simp only [selectOk, beq_iff_eq] at h; simp only [mkInstr, h]
theorem clkCyc : ∀ x0, Statement (.clkCyc x0) := fun w => shared rfl fun h => by simp only [selectOk, beq_iff_eq] at h; simp only [mkInstr, h]
theorem shfl : ∀ x0, Statement (.shfl x0) := fun _ => alone rfl rfl
theorem vote : ∀ x0, Statement (.vote x0) := fun _ => alone rfl rfl
theorem matchLanes : ∀ x0, Statement (.matchLanes x0) := fun _ => alone rfl rfl
theorem rdx : ∀ x0, Statement (.rdx x0) := fun _ => alone rfl rfl
theorem scan : ∀ x0, Statement (.scan x0) := fun _ => alone rfl rfl
theorem elect : ∀ x0, Statement (.elect x0) := fun _ => alone rfl rfl
theorem qswp : ∀ x0, Statement (.qswp x0) := fun _ => alone rfl rfl
theorem qbc : ∀ x0, Statement (.qbc x0) := fun _ => alone rfl rfl
theorem hopen : ∀ x0, Statement (.hopen x0) := fun w => shared rfl fun h => by simp only [selectOk, beq_iff_eq] at h; simp only [mkInstr, h]
theorem hopenG : ∀ x0, Statement (.hopenG x0) := fun w => shared rfl fun h => by simp only [selectOk, beq_iff_eq] at h; simp only [mkInstr, h]
theorem hset : ∀ x0, Statement (.hset x0) := fun _ => alone rfl rfl
theorem hleave : ∀ x0, Statement (.hleave x0) := fun _ => alone rfl rfl
theorem hresolveConfirm : ∀ x0, Statement (.hresolveConfirm x0) := fun w => shared rfl fun h => by simp only [selectOk, beq_iff_eq] at h; simp only [mkInstr, h]
theorem hresolveRefute : ∀ x0, Statement (.hresolveRefute x0) := fun w => shared rfl fun h => by simp only [selectOk, beq_iff_eq] at h; simp only [mkInstr, h]
theorem hquery : ∀ x0, Statement (.hquery x0) := fun _ => alone rfl rfl
theorem mma : ∀ x0, Statement (.mma x0) := fun _ => alone rfl rfl
theorem tkpassClaim : ∀ x0, Statement (.tkpassClaim x0) := fun w => shared rfl fun h => by simp only [selectOk, beq_iff_eq] at h; simp only [mkInstr, h]
theorem tkpassMat : ∀ x0, Statement (.tkpassMat x0) := fun w => shared rfl fun h => by simp only [selectOk, beq_iff_eq] at h; simp only [mkInstr, h]
theorem tkpassVec : ∀ x0, Statement (.tkpassVec x0) := fun w => shared rfl fun h => by simp only [selectOk, beq_iff_eq] at h; simp only [mkInstr, h]
theorem tkpassFree : ∀ x0, Statement (.tkpassFree x0) := fun w => shared rfl fun h => by simp only [selectOk, beq_iff_eq] at h; simp only [mkInstr, h]
theorem tktest : ∀ x0, Statement (.tktest x0) := fun _ => alone rfl rfl
theorem copyTload : ∀ x0, Statement (.copyTload x0) := fun w => shared rfl fun h => by simp only [selectOk, beq_iff_eq] at h; simp only [mkInstr, h]
theorem copyTstore : ∀ x0, Statement (.copyTstore x0) := fun w => shared rfl fun h => by simp only [selectOk, beq_iff_eq] at h; simp only [mkInstr, h]
theorem copyLin : ∀ x0, Statement (.copyLin x0) := fun w => shared rfl fun h => by simp only [selectOk, beq_iff_eq] at h; simp only [mkInstr, h]
theorem copyMcast : ∀ x0, Statement (.copyMcast x0) := fun w => shared rfl fun h => by simp only [selectOk, beq_iff_eq] at h; simp only [mkInstr, h]
theorem qtry : ∀ x0, Statement (.qtry x0) := fun _ => alone rfl rfl
theorem qcnt : ∀ x0, Statement (.qcnt x0) := fun _ => alone rfl rfl
theorem srd : ∀ x0, Statement (.srd x0) := fun _ => alone rfl rfl
theorem swr : ∀ x0, Statement (.swr x0) := fun _ => alone rfl rfl
theorem trap : ∀ x0, Statement (.trap x0) := fun _ => alone rfl rfl
theorem bkpt : ∀ x0, Statement (.bkpt x0) := fun _ => alone rfl rfl
theorem rte : ∀ x0, Statement (.rte x0) := fun w => shared rfl fun h => by simp only [selectOk, beq_iff_eq] at h; simp only [mkInstr, h]
theorem rteNext : ∀ x0, Statement (.rteNext x0) := fun w => shared rfl fun h => by simp only [selectOk, beq_iff_eq] at h; simp only [mkInstr, h]
theorem tlbinvPage : ∀ x0, Statement (.tlbinvPage x0) := fun w => shared rfl fun h => by simp only [selectOk, beq_iff_eq] at h; simp only [mkInstr, h]
theorem tlbinvAll : ∀ x0, Statement (.tlbinvAll x0) := fun w => shared rfl fun h => by simp only [selectOk, beq_iff_eq] at h; simp only [mkInstr, h]
theorem waitev : ∀ x0, Statement (.waitev x0) := fun _ => alone rfl rfl
theorem perfStart : ∀ x0, Statement (.perfStart x0) := fun w => shared rfl fun h => by simp only [selectOk, beq_iff_eq] at h; simp only [mkInstr, h]
theorem perfStop : ∀ x0, Statement (.perfStop x0) := fun w => shared rfl fun h => by simp only [selectOk, beq_iff_eq] at h; simp only [mkInstr, h]
theorem perfClear : ∀ x0, Statement (.perfClear x0) := fun w => shared rfl fun h => by simp only [selectOk, beq_iff_eq] at h; simp only [mkInstr, h]
theorem bblog : ∀ x0, Statement (.bblog x0) := fun _ => alone rfl rfl
theorem pairWord : ∀ x0, Statement (.pairWord x0) := fun _ => wordless rfl
theorem programRecordDue : ∀ x0, Statement (.programRecordDue x0) := fun _ => wordless rfl
theorem fabricWriteAckSend : ∀ x0, Statement (.fabricWriteAckSend x0) := fun _ => wordless rfl
theorem rdownResponse : ∀ x0, Statement (.rdownResponse x0) := fun _ => wordless rfl
theorem coldReset : Statement .coldReset := wordless rfl
theorem warmReset : Statement .warmReset := wordless rfl
theorem linkHotReset : Statement .linkHotReset := wordless rfl
theorem bringupPllLock : Statement .bringupPllLock := wordless rfl
theorem bringupCxlTrained : Statement .bringupCxlTrained := wordless rfl
theorem bringupCoresReady : Statement .bringupCoresReady := wordless rfl
theorem thermtripNInput : Statement .thermtripNInput := wordless rfl
theorem powerTransitionDone : Statement .powerTransitionDone := wordless rfl
theorem powerCmdHold : Statement .powerCmdHold := wordless rfl
theorem powerCmdStandby : Statement .powerCmdStandby := wordless rfl
theorem d3hotEntry : Statement .d3hotEntry := wordless rfl
theorem errLogPop : Statement .errLogPop := wordless rfl
theorem firstErrorRead : Statement .firstErrorRead := wordless rfl
theorem ctStatusRead : Statement .ctStatusRead := wordless rfl
theorem partSet : Statement .partSet := wordless rfl
theorem partClear : Statement .partClear := wordless rfl
theorem identity : Statement .identity := wordless rfl
theorem fwStage : ∀ x0 x1 x2 x3, Statement (.fwStage x0 x1 x2 x3) := fun _ _ _ _ => wordless rfl
theorem fwSwap : Statement .fwSwap := wordless rfl
theorem chRetrain : Statement .chRetrain := wordless rfl
theorem linkRecal : Statement .linkRecal := wordless rfl
theorem coreDrain : Statement .coreDrain := wordless rfl
theorem coreRestore : Statement .coreRestore := wordless rfl
theorem bbRead : Statement .bbRead := wordless rfl
theorem errClear : Statement .errClear := wordless rfl
theorem fabTrain : Statement .fabTrain := wordless rfl
theorem fabKeyFirst : Statement .fabKeyFirst := wordless rfl
theorem fabKeyStageReceive : Statement .fabKeyStageReceive := wordless rfl
theorem fabKeyStageTransmit : Statement .fabKeyStageTransmit := wordless rfl
theorem fabQuiesce : Statement .fabQuiesce := wordless rfl
theorem fabSession : Statement .fabSession := wordless rfl
theorem freeze : Statement .freeze := wordless rfl
theorem freezeImageDone : Statement .freezeImageDone := wordless rfl
theorem resume : Statement .resume := wordless rfl
theorem cxlLinkRetrained : Statement .cxlLinkRetrained := wordless rfl

end Sys2Proof.Laws.Encoding
end

