-- ==== Sys2Proof/Laws/Words.lean ====
section
/-! SUPPORT. What the issue of a word can do: the pieces of State that a word of registers leaves alone, what follows every issue
(R132, R133, R202, R399, R428), and the result of a word that computes in each executing lane (R131, R206, R292). -/

set_option Elab.async false

namespace Sys2Proof.Machine

/-! ## Changes within one group -/

/-- From s to t nothing differs but groups of blocks and the quadrants of cores, and of the groups only group g of block b. -/
structure Upd (s t : State) (b g : Nat) : Prop where
  rest  : t = { s with blocks := t.blocks, cores := t.cores }
  group : ∀ k j, ¬(k = b ∧ j = g) → t.group k j = s.group k j
  block : ∀ k, { t.block k with groups := [] } = { s.block k with groups := [] }
  core  : ∀ c, { t.core c with quads := [] } = { s.core c with quads := [] }

theorem Upd.refl (s : State) (b g : Nat) : Upd s s b g := ⟨rfl, fun _ _ _ => rfl, fun _ => rfl, fun _ => rfl⟩

theorem Upd.trans {s t u : State} {b g : Nat} (h : Upd s t b g) (k : Upd t u b g) : Upd s u b g where
  rest := by rw [k.rest, h.rest]
  group := fun x y n => (k.group x y n).trans (h.group x y n)
  block := fun x => (k.block x).trans (h.block x)
  core := fun c => (k.core c).trans (h.core c)

theorem upd_modGroup (s : State) (b g : Nat) (f : Group → Group) : Upd s (modGroup s b g f) b g where
  rest := rfl
  group := fun k j n => group_modGroup_ne s b g f k j n
  block := fun k => by rw [block_modGroup]; split_ifs with h <;> simp [h]
  core := fun _ => rfl

theorem upd_quads (s : State) (b g c : Nat) (f : Tbl Quad → Tbl Quad) : Upd s (modCore s c fun x => { x with quads := f x.quads }) b g where
  rest := rfl
  group := fun _ _ _ => rfl
  block := fun _ => rfl
  core := fun k => by rw [core_modCore]; split_ifs with h <;> simp [h]

theorem Upd.foldl {s : State} {b g : Nat} {α : Type} (f : State → α → State) (hf : ∀ s x, Upd s (f s x) b g) (xs : List α) :
    Upd s (xs.foldl f s) b g := by
  induction xs generalizing s with
  | nil => exact .refl ..
  | cons x xs ih => exact (hf s x).trans ih

section fields
variable {s t : State} {b g : Nat} (h : Upd s t b g)
include h
theorem Upd.mem : t.mem = s.mem := by rw [h.rest]
theorem Upd.hostMem : t.hostMem = s.hostMem := by rw [h.rest]
theorem Upd.ctxs : t.ctxs = s.ctxs := by rw [h.rest]
theorem Upd.parts : t.parts = s.parts := by rw [h.rest]
theorem Upd.free : t.free = s.free := by rw [h.rest]
theorem Upd.pkg : t.pkg = s.pkg := by rw [h.rest]
theorem Upd.svc : t.svc = s.svc := by rw [h.rest]
theorem Upd.context (k : Nat) : t.context k = s.context k := by rw [State.context, h.ctxs]; rfl
theorem Upd.part (k : Nat) : t.part k = s.part k := by rw [State.part, h.parts]; rfl
theorem Upd.blockCtx (k : Nat) : (t.block k).ctx = (s.block k).ctx := by simpa using congrArg Block.ctx (h.block k)
theorem Upd.blockCore (k : Nat) : (t.block k).core = (s.block k).core := by simpa using congrArg Block.core (h.block k)
theorem Upd.coreTlb (c : Nat) : (t.core c).tlb = (s.core c).tlb := by simpa using congrArg Core.tlb (h.core c)
theorem Upd.coreIcache (c : Nat) : (t.core c).icache = (s.core c).icache := by simpa using congrArg Core.icache (h.core c)
theorem Upd.coreCycles (c : Nat) : (t.core c).cycles = (s.core c).cycles := by simpa using congrArg Core.cycles (h.core c)
theorem Upd.pick (k : Nat) : Machine.pick t k = Machine.pick s k := by simp only [Machine.pick, h.free]
theorem Upd.memRead (a n : Nat) : Machine.memRead t a n = Machine.memRead s a n := by
  simp only [Machine.memRead, memBytes, memByte, h.mem]
theorem Upd.hostBytes (a n : Nat) : Machine.hostBytes t a n = Machine.hostBytes s a n := by
  simp only [Machine.hostBytes, hostByte, h.hostMem]
theorem Upd.recordOf (k : Nat) : Machine.recordOf t k = Machine.recordOf s k := by
  simp only [Machine.recordOf, h.context, h.blockCtx]
theorem Upd.cyclesOf (k : Nat) : Machine.cyclesOf t k = Machine.cyclesOf s k := by
  simp only [Machine.cyclesOf, h.blockCore, h.coreCycles]

omit h in
theorem walkFrom_rest (B : Tbl Block) (C : Tbl Core) (p va : Nat) (l : List Nat) (a : Nat) :
    Machine.walkFrom { s with blocks := B, cores := C } p va l a = Machine.walkFrom s p va l a := by
  induction l generalizing a with
  | nil => rfl
  | cons sh l ih => simp only [Machine.walkFrom, ih]; rfl

theorem Upd.walkFrom (p va : Nat) (l : List Nat) (a : Nat) : Machine.walkFrom t p va l a = Machine.walkFrom s p va l a := by
  rw [h.rest, walkFrom_rest]

theorem Upd.xlate (c p va : Nat) (acc : Acc) (host : Bool) : Machine.xlate t c p va acc host = Machine.xlate s c p va acc host := by
  have he : Machine.xlEntry t c p va = Machine.xlEntry s c p va := by
    unfold Machine.xlEntry walk
    rw [h.walkFrom, h.coreTlb, h.pick, h.part]
  have hr : ∀ pa, reachable t p pa = reachable s p pa := fun pa => by unfold reachable; rw [h.part]
  unfold Machine.xlate
  rw [he]
  cases Machine.xlEntry s c p va with
  | error f => rfl
  | ok e => dsimp only; rw [hr]

theorem Upd.codeAt (c : Nat) (tier : Bool) (pa : Nat) : Machine.codeAt t c tier pa = Machine.codeAt s c tier pa := by
  have hn : codeNow t tier pa = codeNow s tier pa := by simp only [codeNow, h.hostBytes, h.memRead]
  simp only [Machine.codeAt, hn, h.coreIcache, h.pick]

theorem Upd.peekWord (k va : Nat) : Machine.peekWord t k va = Machine.peekWord s k va := by
  simp only [Machine.peekWord, h.xlate, h.blockCore, h.blockCtx, h.context, h.codeAt]

theorem Upd.skipPads (k n va : Nat) : Machine.skipPads t k n va = Machine.skipPads s k n va := by
  induction n generalizing va with
  | zero => rfl
  | succ n ih => simp only [Machine.skipPads, h.peekWord, ih]

/-- Where a lane lands is the same before and after. -/
theorem Upd.landing (k va : Nat) : Machine.landing t k va = Machine.landing s k va := h.skipPads k _ va
end fields

/-! ## What follows an issue -/

/-- From q to r a group keeps all but lanes, truth slots and the record of its issues; a lane that does not wait keeps its LPC, its
parking and all but LAP. -/
structure Settled (q r : Group) : Prop where
  rest : r = { q with lanes := r.lanes, slots := r.slots, replay := r.replay, stallUntil := r.stallUntil, lastIssue := r.lastIssue, yielded := r.yielded,
                      words := r.words, prods := r.prods, perf := r.perf }
  lane : ∀ L, (q.lane L).waits = false → r.lane L = { q.lane L with lap := (r.lane L).lap }
  spec : ∀ L, SameLane (q.lane L) (r.lane L)

theorem Settled.refl (q : Group) : Settled q q := ⟨rfl, fun _ _ => rfl, fun _ => rfl⟩

theorem Settled.trans {q r u : Group} (h : Settled q r) (k : Settled r u) : Settled q u where
  rest := by rw [k.rest, h.rest]
  lane := fun L hL => by
    have h1 := h.lane L hL
    have h2 := k.lane L (by rw [h1]; exact hL)
    rw [h2, h1]
  spec := fun L => by
    have h1 := h.spec L
    have h2 := k.spec L
    unfold SameLane at *
    rw [h2, h1]

/-- One change of group g, and how it leaves the group. -/
def Follows (s t : State) (b g : Nat) : Prop := Upd s t b g ∧ Settled (s.group b g) (t.group b g)

theorem Follows.refl (s : State) (b g : Nat) : Follows s s b g := ⟨.refl .., .refl _⟩
theorem Follows.trans {s t u : State} {b g : Nat} (h : Follows s t b g) (k : Follows t u b g) : Follows s u b g :=
  ⟨h.1.trans k.1, h.2.trans k.2⟩

theorem Follows.foldl {s : State} {b g : Nat} {α : Type} (f : State → α → State) (hf : ∀ s x, Follows s (f s x) b g) (xs : List α) :
    Follows s (xs.foldl f s) b g := by
  induction xs generalizing s with
  | nil => exact .refl ..
  | cons x xs ih => exact (hf s x).trans ih

theorem follows_modGroup (s : State) (b g : Nat) (f : Group → Group) (h : Settled (s.group b g) (f (s.group b g))) :
    Follows s (modGroup s b g f) b g := ⟨upd_modGroup .., by rw [group_modGroup_self]; exact h⟩

/-- A release moves lanes that wait, and no others. -/
theorem settled_release (q : Group) (m : Mask) (f : Nat → Lane → Lane) (h : ∀ L, inMask m L = true → (q.lane L).waits = true)
    (hf : ∀ L l, SameLane l (f L l)) : Settled q (q.mapLanes m f) where
  rest := rfl
  lane := fun L hL => by
    rw [lane_mapLanes]
    split_ifs with c
    · rw [h L c.2] at hL; cases hL
    · rfl
  spec := fun L => by
    rw [lane_mapLanes]
    split_ifs
    · exact hf ..
    · rfl

/-- Membership in a set given by a test. -/
theorem inMask_maskOf (f : Nat → Bool) (L : Nat) : inMask (maskOf f) L = (decide (L < 32) && f L) := by
  have key : ∀ n, ((List.range n).filter f).foldl (fun acc L => acc + 2 ^ L) 0 < 2 ^ n ∧
      ∀ L, (((List.range n).filter f).foldl (fun acc L => acc + 2 ^ L) 0).testBit L = (decide (L < n) && f L) := by
    intro n
    induction n with
    | zero => simp
    | succ n ih =>
      obtain ⟨h1, h2⟩ := ih
      rw [List.range_succ, List.filter_append, List.foldl_append]
      generalize ((List.range n).filter f).foldl (fun acc L => acc + 2 ^ L) 0 = a at h1 h2
      by_cases hf : f n = true
      · simp only [List.filter_cons, hf, if_true, List.filter_nil, List.foldl_cons, List.foldl_nil]
        refine ⟨by rw [Nat.pow_succ]; omega, fun L => ?_⟩
        rcases Nat.lt_trichotomy L n with hl | rfl | hl
        · rw [Nat.add_comm, Nat.testBit_two_pow_add_gt hl, h2]; simp [hl, Nat.lt_succ_of_lt hl]
        · rw [Nat.add_comm, Nat.testBit_two_pow_add_eq, Nat.testBit_lt_two_pow h1]; simp [hf]
        · have : a + 2 ^ n < 2 ^ L := Nat.lt_of_lt_of_le (by rw [Nat.pow_succ]; omega) (Nat.pow_le_pow_right (by decide) hl)
          rw [Nat.testBit_lt_two_pow this]
          simp [show ¬L < n + 1 by omega]
      · simp only [List.filter_cons, hf, Bool.false_eq_true, if_false, List.filter_nil, List.foldl_nil]
        refine ⟨Nat.lt_of_lt_of_le h1 (Nat.pow_le_pow_right (by decide) (Nat.le_succ n)), fun L => ?_⟩
        rw [h2]
        by_cases hL : L = n
        · subst hL; simp [hf]
        · have : (L < n) = (L < n + 1) := by simp; omega
          simp only [this]
  simp only [inMask, maskOf, BitVec.getLsbD_ofNat, lanes32, (key 32).2]
  cases decide (L < 32) <;> simp

theorem mem_lanesOf_maskOf (f : Nat → Bool) (L : Nat) : L ∈ lanesOf (maskOf f) ↔ L < 32 ∧ f L = true := by
  simp [mem_lanesOf, inMask_maskOf]
  try tauto

theorem inMask_and (a b : Mask) (L : Nat) : inMask (a &&& b) L = (inMask a L && inMask b L) := by simp [inMask]

/-- Lanes parked with a cause at an address are parked with it. -/
theorem parked_parkedAt (q : Group) (c : Nat) (pc : W64) (L : Nat) (h : inMask (parkedAt q c pc) L = true) :
    (q.lane L).park.cause = c := by
  simp only [parkedAt, inMask_maskOf, Bool.and_eq_true, beq_iff_eq, decide_eq_true_eq] at h
  exact h.2.1.1.1.2

theorem follows_rejoinRelease (s : State) (b g : Nat) : Follows s (rejoinRelease s b g) b g := by
  unfold rejoinRelease
  refine Follows.foldl _ (fun s pc => ?_) _
  dsimp only
  split_ifs
  · exact .refl ..
  · refine follows_modGroup _ _ _ _ (settled_release _ _ _ (fun L hL => ?_) fun _ _ => rfl)
    simp only [inMask_maskOf, Bool.and_eq_true] at hL
    simp [Lane.waits, parked_parkedAt _ _ _ L hL.2.1, pkRejoin, pkCross]

theorem follows_crossRelease (s : State) (b g : Nat) : Follows s (crossRelease s b g) b g := by
  unfold crossRelease
  refine Follows.foldl _ (fun s pc => ?_) _
  dsimp only
  split_ifs
  · exact .refl ..
  · refine follows_modGroup _ _ _ _ (settled_release _ _ _ (fun L hL => ?_) fun _ _ => rfl)
    simp only [inMask_maskOf, Bool.and_eq_true, Bool.not_eq_true'] at hL
    simp [Lane.waits, parked_parkedAt _ _ _ L hL.2.1.1, hL.2.1.2, pkCross]

theorem follows_releaseLanes (s : State) (b g : Nat) : Follows s (releaseLanes s b g) b g :=
  (follows_rejoinRelease s b g).trans (follows_crossRelease _ b g)

theorem follows_renormalise (s : State) (b g : Nat) : Follows s (renormalise s b g) b g := by
  unfold renormalise
  dsimp only
  split_ifs
  · exact .refl ..
  · refine follows_modGroup _ _ _ _ ⟨rfl, fun L _ => ?_, fun L => ?_⟩ <;>
      rw [lane_mapLanes] <;> split_ifs <;> rfl

theorem follows_sweepSlots (s : State) (b g : Nat) : Follows s (modGroup s b g Group.sweepSlots) b g :=
  follows_modGroup _ _ _ _ ⟨rfl, fun _ _ => rfl, fun _ => rfl⟩

theorem follows_noteIssue (s : State) (i : Iss) (op stall : Nat) (y : Bool) : Follows s (noteIssue s i op stall y) i.b i.g := by
  unfold noteIssue
  have h1 : Upd s (modCore s i.core fun c => { c with quads := tmod {} c.quads (i.g % 4) fun q => q.note (cyclesOf s i.b) (i.b, i.g) op }) i.b i.g :=
    upd_quads s i.b i.g i.core fun t => tmod {} t (i.g % 4) fun q => q.note (cyclesOf s i.b) (i.b, i.g) op
  refine Follows.trans ⟨h1, ?_⟩ (follows_modGroup _ _ _ _ ⟨rfl, fun _ _ => rfl, fun _ => rfl⟩)
  rw [group_modCore]; exact .refl _

/-- The group is not at the end of trap mode: it is not in it, or some live lane of the handler set has not executed RTE. -/
def rteWaits (q : Group) : Prop := q.trapMode = true → q.handlerSet &&& q.live &&& ~~~q.rteHeld ≠ 0

theorem finishRte_waits (s : State) (b g : Nat) (h : rteWaits (s.group b g)) : finishRte s b g = s := by
  unfold finishRte
  dsimp only
  rw [if_pos]
  cases ht : (s.group b g).trapMode
  · simp
  · simp only [Bool.not_true, Bool.false_or, Bool.or_eq_true, decide_eq_true_eq]
    exact Or.inl (h ht)

theorem Settled.rteWaits {q r : Group} (h : Settled q r) (k : Machine.rteWaits q) : Machine.rteWaits r := by
  unfold Machine.rteWaits at *
  rw [h.rest]; exact k

/-- What follows an issue that does not end trap mode. -/
theorem follows_afterIssue (s : State) (b g : Nat) (h : rteWaits (s.group b g)) : Follows s (afterIssue s b g) b g := by
  unfold afterIssue
  dsimp only
  have h1 := follows_releaseLanes s b g
  rw [finishRte_waits _ _ _ (h1.2.rteWaits h)]
  exact ((h1.trans (follows_releaseLanes _ b g)).trans (follows_sweepSlots _ b g)).trans (follows_renormalise _ b g)

end Sys2Proof.Machine
end

