-- ==== Sys2Proof/Laws/Results.lean ====
section
/-! SUPPORT. The results of words: what a write of D leaves to be read (R145, R206, R290), and the word that computes in each
executing lane (R131, R256, R292). -/

set_option Elab.async false

namespace Sys2Proof.Machine

/-! ## One register, one lane -/

theorem vKey_inj {r L r' L' : Nat} (h : L < 32) (h' : L' < 32) : vKey r L = vKey r' L' ↔ r = r' ∧ L = L' := by
  unfold vKey; omega

theorem vReg_putV (q : Group) (r L : Nat) (x : W32) (gb : Bool) (r' L' : Nat) (h : L < 32) (h' : L' < 32) :
    (q.putV r L x gb).vReg r' L' = if r' = r ∧ L' = L then x else q.vReg r' L' := by
  simp only [Group.putV, Group.vReg, tget_tset, vKey_inj h' h]

theorem vGuess_putV (q : Group) (r L : Nat) (x : W32) (gb : Bool) (r' L' : Nat) (h : L < 32) (h' : L' < 32) :
    (q.putV r L x gb).vGuess r' L' = if r' = r ∧ L' = L then gb else q.vGuess r' L' := by
  simp only [Group.putV, Group.vGuess, tget_tset, vKey_inj h' h]

theorem pred_putP (q : Group) (p L : Nat) (x gb : Bool) (p' L' : Nat) (h : L < 32) (h' : L' < 32) :
    (q.putP p L x gb).pred p' L' = if p' = p ∧ L' = L ∧ p ≠ 15 then x else q.pred p' L' := by
  have e : 32 * p' + L' = 32 * p + L ↔ p' = p ∧ L' = L := by omega
  by_cases h1 : p = 15
  · simp [Group.putP, h1]
  · by_cases h2 : p' = p ∧ L' = L
    · simp [Group.putP, Group.pred, h1, h2]
    · have h3 : ¬(p' = p ∧ L' = L ∧ p ≠ 15) := fun h => h2 ⟨h.1, h.2.1⟩
      simp only [Group.putP, Group.pred, if_neg h1, if_neg h3, tget_tset, e, if_neg h2]

theorem pGuess_putP (q : Group) (p L : Nat) (x gb : Bool) (p' L' : Nat) (h : L < 32) (h' : L' < 32) :
    (q.putP p L x gb).pGuess p' L' = if p' = p ∧ L' = L ∧ p ≠ 15 then gb else q.pGuess p' L' := by
  have e : 32 * p' + L' = 32 * p + L ↔ p' = p ∧ L' = L := by omega
  by_cases h1 : p = 15
  · simp [Group.putP, h1]
  · by_cases h2 : p' = p ∧ L' = L
    · simp [Group.putP, Group.pGuess, h1, h2]
    · have h3 : ¬(p' = p ∧ L' = L ∧ p ≠ 15) := fun h => h2 ⟨h.1, h.2.1⟩
      simp only [Group.putP, Group.pGuess, if_neg h1, if_neg h3, tget_tset, e, if_neg h2]

theorem sReg_putS (q : Group) (n : Nat) (x : W64) (k : Nat) : (q.putS n x).sReg k = if k = n ∧ n ≠ 0 then x else q.sReg k := by
  unfold Group.putS Group.sReg
  split_ifs <;> simp_all [tget_tset]

/-! ## The results of a word -/

/-- What keeps the order of writes of a register moves no register. -/
@[simp] theorem vReg_stamp (q : Group) (key r L : Nat) : (q.stamp key).vReg r L = q.vReg r L := by unfold Group.stamp; split <;> rfl
@[simp] theorem vGuess_stamp (q : Group) (key r L : Nat) : (q.stamp key).vGuess r L = q.vGuess r L := by unfold Group.stamp; split <;> rfl
@[simp] theorem vReg_unbind (q : Group) (k j r L : Nat) : (q.unbind k j).vReg r L = q.vReg r L := rfl
@[simp] theorem vGuess_unbind (q : Group) (k j r L : Nat) : (q.unbind k j).vGuess r L = q.vGuess r L := rfl

theorem vReg_resV (q : Group) (cyc lat r L : Nat) (x : W32) (gb : Bool) (r' L' : Nat) (h : L < 32) (h' : L' < 32) :
    (q.resV cyc lat r L x gb).vReg r' L' = if r' = r ∧ L' = L then x else q.vReg r' L' := by
  unfold Group.resV
  dsimp only
  rw [vReg_putV _ _ _ _ _ _ _ h h', vReg_unbind, vReg_stamp]
  split_ifs <;> rfl

theorem vGuess_resV (q : Group) (cyc lat r L : Nat) (x : W32) (gb : Bool) (r' L' : Nat) (h : L < 32) (h' : L' < 32) :
    (q.resV cyc lat r L x gb).vGuess r' L' = if r' = r ∧ L' = L then gb else q.vGuess r' L' := by
  unfold Group.resV
  dsimp only
  rw [vGuess_putV _ _ _ _ _ _ _ h h', vGuess_unbind, vGuess_stamp]
  split_ifs <;> rfl

theorem pred_resP (q : Group) (cyc lat p L : Nat) (x gb : Bool) (p' L' : Nat) (h : L < 32) (h' : L' < 32) :
    (q.resP cyc lat p L x gb).pred p' L' = if p' = p ∧ L' = L ∧ p ≠ 15 then x else q.pred p' L' := by
  unfold Group.resP
  dsimp only
  rw [pred_putP _ _ _ _ _ _ _ h h']
  split_ifs <;> rfl

theorem pGuess_resP (q : Group) (cyc lat p L : Nat) (x gb : Bool) (p' L' : Nat) (h : L < 32) (h' : L' < 32) :
    (q.resP cyc lat p L x gb).pGuess p' L' = if p' = p ∧ L' = L ∧ p ≠ 15 then gb else q.pGuess p' L' := by
  unfold Group.resP
  dsimp only
  rw [pGuess_putP _ _ _ _ _ _ _ h h']
  split_ifs <;> rfl

theorem sReg_resS (q : Group) (cyc lat n : Nat) (x : W64) (k : Nat) :
    (q.resS cyc lat n x).sReg k = if k = n ∧ n ≠ 0 then x else q.sReg k := by
  unfold Group.resS
  dsimp only
  rw [sReg_putS]
  split_ifs <;> rfl

/-- The pieces of a group that a result never touches. -/
structure Untouched (q r : Group) : Prop where
  rest : r = { q with regs := r.regs, rguess := r.rguess, preds := r.preds, pguess := r.pguess, sregs := r.sregs, slots := r.slots, prods := r.prods, lastW := r.lastW }

theorem Untouched.refl (q : Group) : Untouched q q := ⟨rfl⟩
theorem Untouched.trans {q r u : Group} (h : Untouched q r) (k : Untouched r u) : Untouched q u := ⟨by rw [k.rest, h.rest]⟩

theorem Untouched.foldl {α : Type} (f : Group → α → Group) (hf : ∀ q x, Untouched q (f q x)) (q : Group) (xs : List α) :
    Untouched q (xs.foldl f q) := by
  induction xs generalizing q with
  | nil => exact .refl _
  | cons x xs ih => exact (hf q x).trans (ih _)

theorem untouched_resV (q : Group) (cyc lat r L : Nat) (x : W32) (gb : Bool) : Untouched q (q.resV cyc lat r L x gb) := by
  unfold Group.resV Group.stamp; dsimp only; split_ifs <;> exact ⟨rfl⟩
theorem untouched_resP (q : Group) (cyc lat p L : Nat) (x gb : Bool) : Untouched q (q.resP cyc lat p L x gb) := by
  unfold Group.resP Group.putP; dsimp only; split_ifs <;> exact ⟨rfl⟩
theorem untouched_resS (q : Group) (cyc lat n : Nat) (x : W64) : Untouched q (q.resS cyc lat n x) := by
  unfold Group.resS Group.putS; dsimp only; split_ifs <;> exact ⟨rfl⟩
theorem untouched_resLane (q : Group) (cyc lat : Nat) (wd : Bool) (o : Opd) (L x : Nat) (gb : Bool) :
    Untouched q (q.resLane cyc lat wd o L x gb) := by
  unfold Group.resLane
  cases o <;> dsimp only
  · split_ifs
    · exact (untouched_resV ..).trans (untouched_resV ..)
    · exact untouched_resV ..
  all_goals first | exact .refl _ | exact untouched_resP ..
theorem untouched_orGuard (q : Group) (gg : Mask) (o : Opd) (k : Nat) : Untouched q (q.orGuard gg o k) := by
  unfold Group.orGuard
  cases o <;> dsimp only
  all_goals try exact .refl _
  · exact Untouched.foldl _ (fun q L => Untouched.foldl _ (fun q j => ⟨rfl⟩) _ _) _ _
  · refine Untouched.foldl _ (fun q L => ?_) _ _
    unfold Group.guardP; split_ifs
    · exact .refl _
    · exact ⟨rfl⟩

/-! ## Folds over lanes -/

/-- A fold over lanes in which each lane changes its own entry alone. -/
theorem foldl_lanes {γ : Type} (rd : Group → Nat → γ) (F : Group → Nat → Group) (X : Nat → γ)
    (hF : ∀ q L L', L < 32 → L' < 32 → rd (F q L) L' = if L' = L then X L else rd q L')
    (ls : List Nat) (hls : ∀ L ∈ ls, L < 32) (q : Group) (L' : Nat) (h' : L' < 32) :
    rd (ls.foldl F q) L' = if L' ∈ ls then X L' else rd q L' := by
  induction ls generalizing q with
  | nil => simp
  | cons L ls ih =>
    rw [List.foldl_cons, ih (fun x hx => hls x (List.mem_cons_of_mem _ hx)), hF q L L' (hls L (by simp)) h']
    by_cases h1 : L' ∈ ls
    · simp [h1]
    · by_cases h2 : L' = L
      · subst h2; simp
      · simp [h1, h2]

/-- A fold in which no step changes what is read. -/
theorem foldl_same {γ α : Type} (rd : Group → γ) (F : Group → α → Group) (hF : ∀ q x, rd (F q x) = rd q) (xs : List α) (q : Group) :
    rd (xs.foldl F q) = rd q := by
  induction xs generalizing q with
  | nil => rfl
  | cons x xs ih => rw [List.foldl_cons, ih, hF]

theorem lanesOf_lt {m : Mask} {L : Nat} (h : L ∈ lanesOf m) : L < 32 := ((mem_lanesOf m L).1 h).1

/-! ## D in the lanes of a set -/

/-- What putD does to its group. -/
def putGroup (q : Group) (cyc lat : Nat) (gg : Mask) (t : Ty) (o : Opd) (m : Mask) (val : Nat → Nat) (gb : Nat → Bool) : Group :=
  match o with
  | .s n => match lanesOf m with
    | L :: _ => q.resS cyc lat n (toS t (val L))
    | [] => q
  | _ => ((lanesOf m).foldl (fun q L => q.resLane cyc lat (wide t) o L (val L) (gb L)) q).orGuard gg o (two (wide t))

theorem putD_eq (s : State) (i : Iss) (lat : Nat) (t : Ty) (o : Opd) (m : Mask) (val : Nat → Nat) (gb : Nat → Bool) :
    putD s i lat t o m val gb = modGroup s i.b i.g fun q => putGroup q (cyclesOf s i.b) lat i.gg t o m val gb := rfl

theorem untouched_putGroup (q : Group) (cyc lat : Nat) (gg : Mask) (t : Ty) (o : Opd) (m : Mask) (val : Nat → Nat) (gb : Nat → Bool) :
    Untouched q (putGroup q cyc lat gg t o m val gb) := by
  unfold putGroup
  split
  · split
    · exact untouched_resS ..
    · exact .refl _
  · exact (Untouched.foldl _ (fun q L => untouched_resLane ..) _ _).trans (untouched_orGuard ..)

section reads
variable (q : Group) (cyc lat : Nat) (gg : Mask) (t : Ty) (m : Mask) (val : Nat → Nat) (gb : Nat → Bool)

/-- What no guard's guess bit changes. -/
theorem orGuard_same {γ : Type} (rd : Group → γ) (hv : ∀ q r L, rd (Group.guardV q r L) = rd q) (hp : ∀ q p L, rd (Group.guardP q p L) = rd q)
    (o : Opd) (k : Nat) : rd (q.orGuard gg o k) = rd q := by
  cases o with
  | v n =>
    refine foldl_same rd (fun q L => (List.range k).foldl (fun q j => q.guardV (n + j) L) q) (fun q L => ?_) _ q
    exact foldl_same rd (fun q j => q.guardV (n + j) L) (fun q j => hv ..) _ q
  | p n => exact foldl_same rd (fun q L => q.guardP n L) (fun q L => hp ..) _ q
  | _ => rfl

theorem orGuard_vReg (o : Opd) (k r L : Nat) : (q.orGuard gg o k).vReg r L = q.vReg r L :=
  orGuard_same q gg (fun q => q.vReg r L) (fun _ _ _ => rfl) (fun _ _ _ => by unfold Group.guardP; split_ifs <;> rfl) o k

theorem orGuard_pred (o : Opd) (k p L : Nat) : (q.orGuard gg o k).pred p L = q.pred p L :=
  orGuard_same q gg (fun q => q.pred p L) (fun _ _ _ => rfl) (fun _ _ _ => by unfold Group.guardP; split_ifs <;> rfl) o k

theorem orGuard_sReg (o : Opd) (k n : Nat) : (q.orGuard gg o k).sReg n = q.sReg n :=
  orGuard_same q gg (fun q => q.sReg n) (fun _ _ _ => rfl) (fun _ _ _ => by unfold Group.guardP; split_ifs <;> rfl) o k

theorem guardV_vGuess (r L r' L' : Nat) (h : L < 32) (h' : L' < 32) :
    (q.guardV r L).vGuess r' L' = if r' = r ∧ L' = L then true else q.vGuess r' L' := by
  simp only [Group.guardV, Group.vGuess, tget_tset, vKey_inj h' h]

theorem guardRange_vGuess (n k L r' L' : Nat) (h : L < 32) (h' : L' < 32) :
    ((List.range k).foldl (fun q j => q.guardV (n + j) L) q).vGuess r' L' = if L' = L ∧ n ≤ r' ∧ r' < n + k then true else q.vGuess r' L' := by
  induction k with
  | zero => simp only [List.range_zero, List.foldl_nil]; rw [if_neg]; omega
  | succ k ih =>
    rw [List.range_succ, List.foldl_append, List.foldl_cons, List.foldl_nil, guardV_vGuess _ _ _ _ _ h h', ih]
    grind

/-- Register r is one of the k registers of a V operand. -/
def inSpan (o : Opd) (k r : Nat) : Bool := match o with | .v n => decide (n ≤ r) && decide (r < n + k) | _ => false

theorem orGuard_vGuess (o : Opd) (k r L : Nat) (h : L < 32) :
    (q.orGuard gg o k).vGuess r L = if inMask gg L = true ∧ inSpan o k r = true then true else q.vGuess r L := by
  cases o with
  | v n =>
    simp only [inSpan, Bool.and_eq_true, decide_eq_true_eq]
    have step : ∀ (q : Group) (x : Nat), x < 32 → ((List.range k).foldl (fun q j => q.guardV (n + j) x) q).vGuess r L =
        if L = x ∧ n ≤ r ∧ r < n + k then true else q.vGuess r L := fun q x hx => guardRange_vGuess q n k x r L hx h
    show ((lanesOf gg).foldl (fun q L => (List.range k).foldl (fun q j => q.guardV (n + j) L) q) q).vGuess r L = _
    have aux : ∀ (ls : List Nat) (q : Group), (∀ x ∈ ls, x < 32) →
        (ls.foldl (fun q L => (List.range k).foldl (fun q j => q.guardV (n + j) L) q) q).vGuess r L =
          if L ∈ ls ∧ n ≤ r ∧ r < n + k then true else q.vGuess r L := by
      intro ls
      induction ls with
      | nil => intro q _; simp
      | cons x ls ih =>
        intro q hx
        rw [List.foldl_cons, ih _ (fun y hy => hx y (by simp [hy])), step _ _ (hx x (by simp))]
        by_cases h1 : n ≤ r ∧ r < n + k <;> by_cases h2 : L = x <;> simp [h1, h2]
    rw [aux _ q fun x hx => lanesOf_lt hx]
    simp only [mem_lanesOf, h, true_and]
  | p n =>
    simp only [inSpan, Bool.false_eq_true, and_false, if_false]
    refine foldl_same (fun q => q.vGuess r L) (fun q L => q.guardP n L) (fun q x => ?_) _ q
    unfold Group.guardP; split_ifs <;> rfl
  | _ => simp only [inSpan, Bool.false_eq_true, and_false, if_false]; rfl

theorem guardP_pGuess (n L p' L' : Nat) (h : L < 32) (h' : L' < 32) :
    (q.guardP n L).pGuess p' L' = if p' = n ∧ L' = L ∧ n ≠ 15 then true else q.pGuess p' L' := by
  have e : 32 * p' + L' = 32 * n + L ↔ p' = n ∧ L' = L := by omega
  by_cases h1 : n = 15
  · simp [Group.guardP, h1]
  · by_cases h2 : p' = n ∧ L' = L
    · simp [Group.guardP, Group.pGuess, h1, h2]
    · have h3 : ¬(p' = n ∧ L' = L ∧ n ≠ 15) := fun h => h2 ⟨h.1, h.2.1⟩
      simp only [Group.guardP, Group.pGuess, if_neg h1, if_neg h3, tget_tset, e, if_neg h2]

theorem orGuard_pGuess (o : Opd) (k p L : Nat) (h : L < 32) :
    (q.orGuard gg o k).pGuess p L = if inMask gg L = true ∧ o = .p p ∧ p ≠ 15 then true else q.pGuess p L := by
  unfold Group.orGuard
  cases o with
  | v n =>
    simp only [reduceCtorEq, false_and, and_false, if_false]
    refine foldl_same (fun q => q.pGuess p L) (fun q L => (List.range k).foldl (fun q j => q.guardV (n + j) L) q) (fun q x => ?_) _ q
    exact foldl_same (fun q => q.pGuess p L) (fun q j => q.guardV (n + j) x) (fun q j => rfl) _ q
  | p n =>
    dsimp only
    by_cases hn : n = p ∧ n ≠ 15
    · obtain ⟨rfl, hn⟩ := hn
      rw [foldl_lanes (fun q L => q.pGuess n L) (fun q L => q.guardP n L) (fun _ => true) (fun q L L' h h' => by
        rw [guardP_pGuess _ _ _ _ _ h h']; simp [hn]) _ (fun L hL => lanesOf_lt hL) q L h]
      simp [mem_lanesOf, h, hn]
    · rw [if_neg (by rintro ⟨-, h1, h2⟩; exact hn ⟨Opd.p.inj h1, by rw [Opd.p.inj h1]; exact h2⟩)]
      have aux : ∀ (ls : List Nat) (q : Group), (∀ x ∈ ls, x < 32) →
          (ls.foldl (fun q L => q.guardP n L) q).pGuess p L = q.pGuess p L := by
        intro ls
        induction ls with
        | nil => intro q _; rfl
        | cons x ls ih =>
          intro q hx
          rw [List.foldl_cons, ih _ (fun y hy => hx y (by simp [hy])), guardP_pGuess _ _ _ _ _ (hx x (by simp)) h, if_neg]
          exact fun y => hn ⟨y.1.symm, y.2.2⟩
      exact aux _ q fun x hx => lanesOf_lt hx
  | _ => simp

/-- V registers after a write of D. -/
theorem putGroup_vReg (o : Opd) (r L : Nat) (h : L < 32) :
    (putGroup q cyc lat gg t o m val gb).vReg r L =
      if inMask m L = true ∧ covers t o r = true then (match o with | .v n => if r = n then w32 (val L) else w32 (val L / 2 ^ 32) | _ => 0)
      else q.vReg r L := by
  cases o with
  | s n =>
    simp only [covers, Bool.false_eq_true, and_false, if_false]
    unfold putGroup
    dsimp only
    split
    · unfold Group.resS Group.putS; dsimp only; split_ifs <;> rfl
    · rfl
  | v n =>
    unfold putGroup
    dsimp only
    rw [orGuard_vReg]
    by_cases hc : covers t (.v n) r = true
    · rw [foldl_lanes (fun q L => q.vReg r L) _ (fun L => if r = n then w32 (val L) else w32 (val L / 2 ^ 32)) (fun q L L' h h' => by
        simp only [covers, Bool.or_eq_true, beq_iff_eq, Bool.and_eq_true] at hc
        unfold Group.resLane
        dsimp only
        split_ifs <;> simp only [vReg_resV _ _ _ _ _ _ _ _ _ h h'] <;> grind) _ (fun L hL => lanesOf_lt hL) q L h]
      simp [mem_lanesOf, h, hc]
    · rw [if_neg (fun x => hc x.2)]
      simp only [covers, Bool.or_eq_true, beq_iff_eq, Bool.and_eq_true, not_or, not_and] at hc
      have aux : ∀ (ls : List Nat) (q : Group), (∀ x ∈ ls, x < 32) →
          (ls.foldl (fun q L => q.resLane cyc lat (wide t) (.v n) L (val L) (gb L)) q).vReg r L = q.vReg r L := by
        intro ls
        induction ls with
        | nil => intro q _; rfl
        | cons x ls ih =>
          intro q hx
          rw [List.foldl_cons, ih _ (fun y hy => hx y (by simp [hy]))]
          unfold Group.resLane
          dsimp only
          split_ifs <;> simp only [vReg_resV _ _ _ _ _ _ _ _ _ (hx x (by simp)) h] <;> grind
      exact aux _ q fun x hx => lanesOf_lt hx
  | p n =>
    simp only [covers, Bool.false_eq_true, and_false, if_false]
    unfold putGroup
    dsimp only
    rw [orGuard_vReg]
    exact foldl_same (fun q => q.vReg r L) _ (fun q x => by
      unfold Group.resLane Group.resP Group.putP; dsimp only; split_ifs <;> rfl) _ q
  | _ =>
    simp only [covers, Bool.false_eq_true, and_false, if_false]
    unfold putGroup
    dsimp only
    rw [orGuard_vReg]
    exact foldl_same (fun q => q.vReg r L) _ (fun q x => rfl) _ q

/-- Guess bits of V registers after a write of D. -/
theorem putGroup_vGuess (o : Opd) (r L : Nat) (h : L < 32) :
    (putGroup q cyc lat gg t o m val gb).vGuess r L =
      if covers t o r = true then (if inMask gg L = true then true else if inMask m L = true then gb L else q.vGuess r L)
      else q.vGuess r L := by
  cases o with
  | s n =>
    simp only [covers, Bool.false_eq_true, if_false]
    unfold putGroup
    dsimp only
    split
    · unfold Group.resS Group.putS; dsimp only; split_ifs <;> rfl
    · rfl
  | v n =>
    unfold putGroup
    dsimp only
    rw [orGuard_vGuess _ _ _ _ _ _ h]
    simp only [inSpan, Bool.and_eq_true, decide_eq_true_eq]
    by_cases hc : covers t (.v n) r = true
    · have hr : n ≤ r ∧ r < n + two (wide t) := by
        simp only [covers, Bool.or_eq_true, beq_iff_eq, Bool.and_eq_true] at hc
        unfold two; rcases hc with rfl | ⟨hw, rfl⟩
        · split_ifs <;> omega
        · rw [hw, if_pos rfl]; omega
      rw [foldl_lanes (fun q L => q.vGuess r L) (fun q L => q.resLane cyc lat (wide t) (.v n) L (val L) (gb L)) gb (fun q L L' h h' => by
        simp only [covers, Bool.or_eq_true, beq_iff_eq, Bool.and_eq_true] at hc
        unfold Group.resLane
        dsimp only
        split_ifs <;> simp only [vGuess_resV _ _ _ _ _ _ _ _ _ h h'] <;> grind) _ (fun L hL => lanesOf_lt hL) q L h]
      simp [mem_lanesOf, h, hc, hr]
    · rw [if_neg hc]
      have hr : ¬(n ≤ r ∧ r < n + two (wide t)) := by
        simp only [covers, Bool.or_eq_true, beq_iff_eq, Bool.and_eq_true, not_or, not_and] at hc
        unfold two; split_ifs with hw
        · have := hc.2 hw; omega
        · omega
      rw [if_neg (fun x => hr x.2)]
      simp only [covers, Bool.or_eq_true, beq_iff_eq, Bool.and_eq_true, not_or, not_and] at hc
      have aux : ∀ (ls : List Nat) (q : Group), (∀ x ∈ ls, x < 32) →
          (ls.foldl (fun q L => q.resLane cyc lat (wide t) (.v n) L (val L) (gb L)) q).vGuess r L = q.vGuess r L := by
        intro ls
        induction ls with
        | nil => intro q _; rfl
        | cons x ls ih =>
          intro q hx
          rw [List.foldl_cons, ih _ (fun y hy => hx y (by simp [hy]))]
          unfold Group.resLane
          dsimp only
          split_ifs <;> simp only [vGuess_resV _ _ _ _ _ _ _ _ _ (hx x (by simp)) h] <;> grind
      exact aux _ q fun x hx => lanesOf_lt hx
  | p n =>
    simp only [covers, Bool.false_eq_true, if_false]
    unfold putGroup
    dsimp only
    rw [orGuard_vGuess _ _ _ _ _ _ h]
    simp only [inSpan, Bool.false_eq_true, and_false, if_false]
    exact foldl_same (fun q => q.vGuess r L) _ (fun q x => by
      unfold Group.resLane Group.resP Group.putP; dsimp only; split_ifs <;> rfl) _ q
  | _ =>
    simp only [covers, Bool.false_eq_true, if_false]
    unfold putGroup
    dsimp only
    rw [orGuard_vGuess _ _ _ _ _ _ h]
    simp only [inSpan, Bool.false_eq_true, and_false, if_false]
    exact foldl_same (fun q => q.vGuess r L) _ (fun q x => rfl) _ q

/-- Predicates after a write of D. -/
theorem putGroup_pred (o : Opd) (p L : Nat) (h : L < 32) :
    (putGroup q cyc lat gg t o m val gb).pred p L =
      if inMask m L = true ∧ o = .p p ∧ p ≠ 15 then decide (val L ≠ 0) else q.pred p L := by
  cases o with
  | s n =>
    simp only [reduceCtorEq, false_and, and_false, if_false]
    unfold putGroup
    dsimp only
    split
    · unfold Group.resS Group.putS; dsimp only; split_ifs <;> rfl
    · rfl
  | p n =>
    unfold putGroup
    dsimp only
    rw [orGuard_pred]
    by_cases hn : n = p ∧ n ≠ 15
    · obtain ⟨rfl, hn⟩ := hn
      rw [foldl_lanes (fun q L => q.pred n L) _ (fun L => decide (val L ≠ 0)) (fun q L L' h h' => by
        dsimp only [Group.resLane]; rw [pred_resP _ _ _ _ _ _ _ _ _ h h']; simp [hn]) _ (fun L hL => lanesOf_lt hL) q L h]
      simp [mem_lanesOf, h, hn]
    · rw [if_neg (by rintro ⟨-, h1, h2⟩; exact hn ⟨Opd.p.inj h1, by rw [Opd.p.inj h1]; exact h2⟩)]
      have aux : ∀ (ls : List Nat) (q : Group), (∀ x ∈ ls, x < 32) →
          (ls.foldl (fun q L => q.resLane cyc lat (wide t) (.p n) L (val L) (gb L)) q).pred p L = q.pred p L := by
        intro ls
        induction ls with
        | nil => intro q _; rfl
        | cons x ls ih =>
          intro q hx
          rw [List.foldl_cons, ih _ (fun y hy => hx y (by simp [hy]))]
          dsimp only [Group.resLane]
          rw [pred_resP _ _ _ _ _ _ _ _ _ (hx x (by simp)) h, if_neg]
          exact fun y => hn ⟨y.1.symm, y.2.2⟩
      exact aux _ q fun x hx => lanesOf_lt hx
  | v n =>
    simp only [reduceCtorEq, false_and, and_false, if_false]
    unfold putGroup
    dsimp only
    rw [orGuard_pred]
    exact foldl_same (fun q => q.pred p L) _ (fun q x => by
      unfold Group.resLane Group.resV Group.stamp; dsimp only; split_ifs <;> rfl) _ q
  | _ =>
    simp only [reduceCtorEq, false_and, and_false, if_false]
    unfold putGroup
    dsimp only
    rw [orGuard_pred]
    exact foldl_same (fun q => q.pred p L) _ (fun q x => rfl) _ q

/-- Guess bits of predicates after a write of D. -/
theorem putGroup_pGuess (o : Opd) (p L : Nat) (h : L < 32) :
    (putGroup q cyc lat gg t o m val gb).pGuess p L =
      if o = .p p ∧ p ≠ 15 then (if inMask gg L = true then true else if inMask m L = true then gb L else q.pGuess p L)
      else q.pGuess p L := by
  cases o with
  | s n =>
    simp only [reduceCtorEq, false_and, if_false]
    unfold putGroup
    dsimp only
    split
    · unfold Group.resS Group.putS; dsimp only; split_ifs <;> rfl
    · rfl
  | p n =>
    unfold putGroup
    dsimp only
    rw [orGuard_pGuess _ _ _ _ _ _ h]
    by_cases hn : n = p ∧ n ≠ 15
    · obtain ⟨rfl, hn⟩ := hn
      rw [foldl_lanes (fun q L => q.pGuess n L) _ gb (fun q L L' h h' => by
        dsimp only [Group.resLane]; rw [pGuess_resP _ _ _ _ _ _ _ _ _ h h']; simp [hn]) _ (fun L hL => lanesOf_lt hL) q L h]
      simp [mem_lanesOf, h, hn]
    · have hx : ¬(Opd.p n = .p p ∧ p ≠ 15) := by rintro ⟨h1, h2⟩; exact hn ⟨Opd.p.inj h1, by rw [Opd.p.inj h1]; exact h2⟩
      rw [if_neg hx, if_neg (fun y => hx y.2)]
      have aux : ∀ (ls : List Nat) (q : Group), (∀ x ∈ ls, x < 32) →
          (ls.foldl (fun q L => q.resLane cyc lat (wide t) (.p n) L (val L) (gb L)) q).pGuess p L = q.pGuess p L := by
        intro ls
        induction ls with
        | nil => intro q _; rfl
        | cons x ls ih =>
          intro q hx
          rw [List.foldl_cons, ih _ (fun y hy => hx y (by simp [hy]))]
          dsimp only [Group.resLane]
          rw [pGuess_resP _ _ _ _ _ _ _ _ _ (hx x (by simp)) h, if_neg]
          exact fun y => hn ⟨y.1.symm, y.2.2⟩
      exact aux _ q fun x hx => lanesOf_lt hx
  | v n =>
    simp only [reduceCtorEq, false_and, if_false]
    unfold putGroup
    dsimp only
    rw [orGuard_pGuess _ _ _ _ _ _ h]
    simp only [reduceCtorEq, false_and, and_false, if_false]
    exact foldl_same (fun q => q.pGuess p L) _ (fun q x => by
      unfold Group.resLane Group.resV Group.stamp; dsimp only; split_ifs <;> rfl) _ q
  | _ =>
    simp only [reduceCtorEq, false_and, if_false]
    unfold putGroup
    dsimp only
    rw [orGuard_pGuess _ _ _ _ _ _ h]
    simp only [reduceCtorEq, false_and, and_false, if_false]
    exact foldl_same (fun q => q.pGuess p L) _ (fun q x => rfl) _ q

/-- S registers after a write of D. -/
theorem putGroup_sReg (o : Opd) (k : Nat) :
    (putGroup q cyc lat gg t o m val gb).sReg k =
      match o, (lanesOf m).head? with
      | .s n, some L => if k = n ∧ n ≠ 0 then toS t (val L) else q.sReg k
      | _, _ => q.sReg k := by
  cases o with
  | s n =>
    unfold putGroup
    dsimp only
    cases lanesOf m with
    | nil => rfl
    | cons L ls => simp only [List.head?_cons]; rw [sReg_resS]
  | v n =>
    unfold putGroup
    dsimp only
    rw [orGuard_sReg]
    exact foldl_same (fun q => q.sReg k) _ (fun q x => by
      unfold Group.resLane Group.resV Group.stamp; dsimp only; split_ifs <;> rfl) _ q
  | p n =>
    unfold putGroup
    dsimp only
    rw [orGuard_sReg]
    exact foldl_same (fun q => q.sReg k) _ (fun q x => by
      unfold Group.resLane Group.resP Group.putP; dsimp only; split_ifs <;> rfl) _ q
  | _ =>
    unfold putGroup
    dsimp only
    rw [orGuard_sReg]
    exact foldl_same (fun q => q.sReg k) _ (fun q x => rfl) _ q

end reads

/-! ## The issue set (R131) -/

theorem minKey_mem (q : Group) (m : Mask) (k : Nat × Nat) (h : minKey q m = some k) : ∃ L ∈ lanesOf m, laneKey (q.lane L) = k := by
  have aux : ∀ (ls : List Nat) (acc : Option (Nat × Nat)),
      ls.foldl (fun acc L => let k := laneKey (q.lane L); match acc with | none => some k | some a => some (if keyLt k a then k else a)) acc = some k →
      acc = some k ∨ ∃ L ∈ ls, laneKey (q.lane L) = k := by
    intro ls
    induction ls with
    | nil => intro acc h; exact .inl h
    | cons x ls ih =>
      intro acc h
      rw [List.foldl_cons] at h
      rcases ih _ h with h | ⟨L, hL, e⟩
      · cases acc with
        | none => exact .inr ⟨x, by simp, Option.some.inj h⟩
        | some a =>
          dsimp only at h
          split_ifs at h
          · exact .inr ⟨x, by simp, Option.some.inj h⟩
          · exact .inl h
      · exact .inr ⟨L, by simp [hL], e⟩
  rcases aux _ _ h with h | h
  · exact absurd h (by simp)
  · exact h

/-- The lanes that a group executes first are eligible, stand at one address, and are some. -/
theorem replaySet_spec (q : Group) (pc : Nat) (m : Mask) (h : replaySet q = some (pc, m)) :
    (∃ L, L < 32 ∧ inMask m L = true) ∧ ∀ L, inMask m L = true → L < 32 ∧ inMask (eligible q) L = true ∧ (q.lane L).lpc.toNat = pc := by
  unfold replaySet at h
  cases hr : q.replay with
  | none => simp [hr] at h
  | some e =>
    rw [hr] at h
    dsimp only at h
    split_ifs at h with h0
    simp only [Option.some.injEq, Prod.mk.injEq] at h
    obtain ⟨rfl, rfl⟩ := h
    refine ⟨?_, fun L hL => ?_⟩
    · by_contra hn
      refine h0 (BitVec.eq_of_getLsbD_eq fun L hL => ?_)
      have : ¬inMask (maskOf fun L => inMask (eligible q) L && inMask e.2 L && (q.lane L).lpc == e.1) L = true := fun x => hn ⟨L, hL, x⟩
      simpa [inMask] using this
    · simp only [inMask_maskOf, Bool.and_eq_true, decide_eq_true_eq, beq_iff_eq] at hL
      exact ⟨hL.1, hL.2.1.1, by rw [hL.2.2]⟩

/-- An issue set has a lane, and each of its lanes is eligible. -/
theorem issueSet_spec (q : Group) (pc : Nat) (m : Mask) (h : issueSet q = some (pc, m)) :
    (∃ L, L < 32 ∧ inMask m L = true) ∧ ∀ L, inMask m L = true → L < 32 ∧ inMask (eligible q) L = true ∧ (q.lane L).lpc.toNat = pc := by
  unfold issueSet at h
  cases hp : replaySet q with
  | some e =>
    rw [hp] at h
    exact replaySet_spec q pc m (hp.trans h)
  | none =>
  rw [hp] at h
  dsimp only at h
  cases hk : minKey q (eligible q) with
  | none => simp [hk] at h
  | some k =>
    rw [hk] at h
    simp only [Option.some.injEq, Prod.mk.injEq] at h
    obtain ⟨rfl, rfl⟩ := h
    constructor
    · obtain ⟨L, hL, e⟩ := minKey_mem q _ k hk
      exact ⟨L, lanesOf_lt hL, by simp [inMask_maskOf, lanesOf_lt hL, e, ((mem_lanesOf _ _).1 hL).2]⟩
    · intro L hL
      simp only [inMask_maskOf, Bool.and_eq_true, decide_eq_true_eq, beq_iff_eq] at hL
      exact ⟨hL.1, hL.2.1, congrArg Prod.snd hL.2.2⟩

theorem withGuard_same (s : State) (j : Iss) (gf : BitVec 5) :
    (withGuard s j gf).b = j.b ∧ (withGuard s j gf).g = j.g ∧ (withGuard s j gf).iss = j.iss ∧ (withGuard s j gf).pc = j.pc ∧
    (withGuard s j gf).len = j.len ∧ (withGuard s j gf).core = j.core ∧ (withGuard s j gf).ctx = j.ctx := ⟨rfl, rfl, rfl, rfl, rfl, rfl, rfl⟩

section issues
variable {op : Nat} {w : Insn} {bump : State → Iss → Mask} {s : State} {i : Iss} (h : Issues op w bump s i)
include h

/-- A word that issues is concluded with the answer of its own part (R256). -/
theorem runWord_issues (body : State → Iss → Res) : runWord op w s bump body = conclude s i op w.stall.toNat (w.y == 1) (body s i) := by
  obtain ⟨j, h1, h2, h3, h4, h5, h6, h7, h8⟩ := h
  unfold runWord
  rw [h1]
  simp only [h2, h3, Bool.or_self, Bool.false_eq_true, if_false, h4, h5, h6, ← h7, h8]

/-- The group, the block's core and context, and the issue set of a word that issues. -/
theorem Issues.names : i.b = s.focus.1 ∧ i.g = s.focus.2 ∧ i.core = (s.block i.b).core ∧ i.ctx = (s.block i.b).ctx ∧
    i.len = formBytes w.form ∧ issueSet (s.group i.b i.g) = some (i.pc, i.iss) := by
  obtain ⟨j, h1, -, -, -, -, -, h7, -⟩ := h
  unfold issOf at h1
  dsimp only at h1
  cases hs : issueSet (s.group s.focus.1 s.focus.2) with
  | none => simp [hs] at h1
  | some e =>
    rw [hs] at h1
    simp only [Option.some.injEq] at h1
    subst h1 h7
    exact ⟨rfl, rfl, rfl, rfl, rfl, hs⟩

/-- Each lane of the issue set is live, stands at the word, and does not wait. -/
theorem Issues.lanes (L : Nat) (hL : inMask i.iss L = true) :
    L < 32 ∧ inMask (s.group i.b i.g).live L = true ∧ ((s.group i.b i.g).lane L).lpc.toNat = i.pc ∧
    ((s.group i.b i.g).lane L).waits = false := by
  have hn := h.names
  obtain ⟨j, -, -, h3, -, -, -, h7, -⟩ := h
  have hj := withGuard_same s j w.g
  rw [← h7] at hj
  obtain ⟨h1, h2, h4⟩ := (issueSet_spec _ _ _ hn.2.2.2.2.2).2 L hL
  rw [← hj.1, ← hj.2.1, ← hj.2.2.1] at h3
  simp only [List.any_eq_false, mem_lanesOf] at h3
  have hr := h3 L ⟨h1, hL⟩
  simp only [eligible, inMask_maskOf, Bool.and_eq_true, Bool.or_eq_true, Bool.not_eq_true'] at h2
  refine ⟨h1, h2.2.1.1, h4, ?_⟩
  rcases h2.2.1.2 with hc | hc
  · exact hc
  · exact absurd hc hr

theorem Issues.some : ∃ L, L < 32 ∧ inMask i.iss L = true := (issueSet_spec _ _ _ h.names.2.2.2.2.2).1

/-- The group is not at the end of trap mode. -/
theorem Issues.waits : rteWaits (s.group i.b i.g) := by
  intro ht hz
  obtain ⟨L, hL, hm⟩ := h.some
  obtain ⟨-, he, -⟩ := (issueSet_spec _ _ _ h.names.2.2.2.2.2).2 L hm
  simp only [eligible, inMask_maskOf, ht, Bool.not_true, Bool.false_or, Bool.and_eq_true, Bool.not_eq_true'] at he
  have : inMask ((s.group i.b i.g).handlerSet &&& (s.group i.b i.g).live &&& ~~~(s.group i.b i.g).rteHeld) L = true := by
    have h1 := he.2.1.1; have h2 := he.2.2.1; have h3 := he.2.2.2
    simp only [inMask, BitVec.getLsbD_and, BitVec.getLsbD_not] at *
    rw [h1, h2, h3]; simp [hL]
  rw [hz] at this
  simp [inMask] at this

end issues

/-! ## A word that computes in each executing lane -/

theorem follows_advance_lanes (s : State) (i : Iss) (m : Mask) (L : Nat) :
    ((advance s i m).group i.b i.g).lane L =
      if L < 32 ∧ inMask m L = true then { (s.group i.b i.g).lane L with lpc := w64 (landing s i.b (i.pc + i.len)) }
      else (s.group i.b i.g).lane L := by
  unfold advance
  dsimp only
  rw [group_modGroup_self, lane_mapLanes]

/-- Registers and trap state of a group do not depend on its lanes, slots and issue record. -/
theorem Settled.regs {q r : Group} (h : Settled q r) :
    (∀ n L, r.vReg n L = q.vReg n L) ∧ (∀ n L, r.vGuess n L = q.vGuess n L) ∧ (∀ n L, r.pred n L = q.pred n L) ∧
    (∀ n L, r.pGuess n L = q.pGuess n L) ∧ (∀ n, r.sReg n = q.sReg n) := by
  have e := h.rest
  refine ⟨fun n L => ?_, fun n L => ?_, fun n L => ?_, fun n L => ?_, fun n => ?_⟩ <;> rw [e] <;> rfl

theorem sameTraps_of {q r : Group} (h : r = { q with
      regs := r.regs, rguess := r.rguess, preds := r.preds, pguess := r.pguess, sregs := r.sregs, lanes := r.lanes, slots := r.slots, replay := r.replay
      stallUntil := r.stallUntil, lastIssue := r.lastIssue, yielded := r.yielded, words := r.words, prods := r.prods, perf := r.perf, lastW := r.lastW })
    (hl : ∀ L, SameLane (q.lane L) (r.lane L)) : SameTraps q r := by
  refine ⟨?_, ?_, ?_, ?_, hl⟩
  · rw [h]; exact ⟨rfl, rfl, rfl, rfl⟩
  · rw [h]; exact ⟨rfl, rfl, rfl, rfl⟩
  · rw [h]; exact ⟨rfl, rfl, rfl⟩
  · rw [h]; exact ⟨rfl, rfl, rfl, rfl⟩

/-- A word whose part writes D in the executing lanes, and lets every lane fall through, completes. -/
theorem computes_of {op : Nat} {w : Insn} {bump : State → Iss → Mask} {s : State} {i : Iss} (h : Issues op w bump s i)
    (body : State → Iss → Res) (lat : Nat) (ty : Ty) (d : Opd) (val : Nat → Nat) (gb : Nat → Bool)
    (hb : body s i = .next (advance (putD s i lat ty d i.ex val gb) i i.iss)) (hg : ∀ L, inMask i.gg L = true → gb L = true) :
    Computes s i ty d val gb (runWord op w s bump body) := by
  rw [runWord_issues h, hb]
  unfold conclude
  dsimp only
  set s1 := putD s i lat ty d i.ex val gb with hs1
  have u1 : Upd s s1 i.b i.g := upd_modGroup ..
  have g1 : s1.group i.b i.g = putGroup (s.group i.b i.g) (cyclesOf s i.b) lat i.gg ty d i.ex val gb := by
    rw [hs1, putD_eq, group_modGroup_self]
  have un := untouched_putGroup (s.group i.b i.g) (cyclesOf s i.b) lat i.gg ty d i.ex val gb
  rw [← g1] at un
  have lanes1 : ∀ L, (s1.group i.b i.g).lane L = (s.group i.b i.g).lane L := fun L => by
    have := congrArg (fun q => Group.lane q L) un.rest; exact this
  set s2 := advance s1 i i.iss with hs2
  have u2 : Upd s1 s2 i.b i.g := upd_modGroup ..
  have g2 : s2.group i.b i.g = (s1.group i.b i.g).mapLanes i.iss fun _ l => { l with lpc := w64 (landing s1 i.b (i.pc + i.len)) } := by
    rw [hs2]; unfold advance; dsimp only; rw [group_modGroup_self]
  have lanes2 : ∀ L, (s2.group i.b i.g).lane L = if L < 32 ∧ inMask i.iss L = true then
      { (s.group i.b i.g).lane L with lpc := w64 (landing s i.b (i.pc + i.len)) } else (s.group i.b i.g).lane L := fun L => by
    rw [hs2, follows_advance_lanes, u1.landing, lanes1]
  have hw2 : rteWaits (s2.group i.b i.g) := by
    have := h.waits
    unfold rteWaits at this ⊢
    rw [g2]
    simp only [mapLanes_trapMode, mapLanes_handlerSet, mapLanes_live, mapLanes_rteHeld]
    rw [un.rest]; exact this
  have f3 := follows_noteIssue s2 i op w.stall.toNat (w.y == 1)
  have f4 := f3.trans (follows_afterIssue _ i.b i.g (f3.2.rteWaits hw2))
  generalize afterIssue (noteIssue s2 i op w.stall.toNat (w.y == 1)) i.b i.g = t at f4
  have u4 : Upd s t i.b i.g := (u1.trans u2).trans f4.1
  obtain ⟨rv, rvg, rp, rpg, rs⟩ := f4.2.regs
  have e2 : ∀ n L, (s2.group i.b i.g).vReg n L = (s1.group i.b i.g).vReg n L ∧ (s2.group i.b i.g).vGuess n L = (s1.group i.b i.g).vGuess n L ∧
      (s2.group i.b i.g).pred n L = (s1.group i.b i.g).pred n L ∧ (s2.group i.b i.g).pGuess n L = (s1.group i.b i.g).pGuess n L ∧
      (s2.group i.b i.g).sReg n = (s1.group i.b i.g).sReg n := fun n L => by rw [g2]; exact ⟨rfl, rfl, rfl, rfl, rfl⟩
  refine ⟨fun L hL hx => ?_, fun L hL hm => ?_, ⟨?_, ?_, ?_, ?_, ?_⟩, ?_, ⟨u4.rest, u4.group, u4.block, u4.core⟩⟩
  · -- the value
    unfold Gets
    cases d with
    | v n =>
      have key : ∀ r, covers ty (.v n) r = true → (t.group i.b i.g).vReg r L = (if r = n then w32 (val L) else w32 (val L / 2 ^ 32)) ∧
          (t.group i.b i.g).vGuess r L = gb L := by
        intro r hr
        rw [rv, rvg, (e2 r L).1, (e2 r L).2.1, g1, putGroup_vReg _ _ _ _ _ _ _ _ _ _ _ hL, putGroup_vGuess _ _ _ _ _ _ _ _ _ _ _ hL]
        simp only [hx, hr, and_self, if_true]
        refine ⟨trivial, ?_⟩
        split_ifs with hgg
        · exact (hg L hgg).symm
        · rfl
      refine ⟨?_, ?_, fun hw => ?_⟩
      · simpa using (key n (by simp [covers])).1
      · exact (key n (by simp [covers])).2
      · have := key (n + 1) (by simp [covers, hw])
        simpa using this
    | p n =>
      dsimp only
      split_ifs with h15
      · exact ⟨rfl, rfl⟩
      · rw [rp, rpg, (e2 n L).2.2.1, (e2 n L).2.2.2.1, g1, putGroup_pred _ _ _ _ _ _ _ _ _ _ _ hL, putGroup_pGuess _ _ _ _ _ _ _ _ _ _ _ hL]
        simp only [hx, h15, ne_eq, not_false_eq_true, and_self, if_true]
        refine ⟨trivial, ?_⟩
        split_ifs with hgg
        · exact (hg L hgg).symm
        · rfl
    | s n =>
      intro hh
      rw [rs, (e2 n 0).2.2.2.2, g1, putGroup_sReg, hh]
      dsimp only
      by_cases h0 : n = 0
      · subst h0; simp [Group.sReg]
      · simp [h0]
    | _ => trivial
  · -- the next instruction
    have c0 := (h.lanes L hm).2.2.2
    have := f4.2.lane L (by rw [lanes2, if_pos ⟨hL, hm⟩]; exact c0)
    rw [this, lanes2, if_pos ⟨hL, hm⟩]
  · intro n L hL hn
    rw [rv, (e2 n L).1, g1, putGroup_vReg _ _ _ _ _ _ _ _ _ _ _ hL, if_neg]
    rintro ⟨a, b⟩
    rcases hn with hn | hn <;> simp_all
  · intro n L hL hn
    rw [rvg, (e2 n L).2.1, g1, putGroup_vGuess _ _ _ _ _ _ _ _ _ _ _ hL]
    rcases hn with hn | ⟨h1, h2⟩
    · simp only [List.all_cons, List.all_nil, Bool.and_true, Bool.not_eq_true'] at hn
      simp [hn]
    · simp [h1, h2]
  · intro n L hL hn
    rw [rp, (e2 n L).2.2.1, g1, putGroup_pred _ _ _ _ _ _ _ _ _ _ _ hL, if_neg]
    rintro ⟨a, b, -⟩
    rcases hn with hn | hn
    · exact hn (ty, d) (by simp) b
    · rw [hn] at a; cases a
  · intro n L hL hn
    rw [rpg, (e2 n L).2.2.2.1, g1, putGroup_pGuess _ _ _ _ _ _ _ _ _ _ _ hL]
    rcases hn with hn | ⟨h1, h2⟩
    · rw [if_neg]; exact fun x => hn (ty, d) (by simp) x.1
    · simp [h1, h2]
  · intro n hn
    rw [rs, (e2 n 0).2.2.2.2, g1, putGroup_sReg]
    cases d with
    | s k =>
      rcases hn with hn | hn
      · have hk : n ≠ k := fun x => hn (ty, .s k) (by simp) (by rw [x])
        cases (lanesOf i.ex).head? <;> simp [hk]
      · have : lanesOf i.ex = [] := by
          rw [hn]; simp [lanesOf, inMask]
        rw [this]; rfl
    | _ => rfl
  · refine sameTraps_of ?_ fun L => ?_
    · rw [f4.2.rest, g2]
      unfold Group.mapLanes
      conv_rhs => rw [un.rest]
      rw [un.rest]
    · have := f4.2.spec L
      unfold SameLane at *
      rw [this, lanes2]; split_ifs <;> rfl

/-- A word whose part is aluBody completes: D takes f, with the OR of the sources' guess bits (R206, R292). -/
theorem alu_computes {op : Nat} {w : Insn} {bump : State → Iss → Mask} {s : State} {i : Iss} (h : Issues op w bump s i)
    (body : State → Iss → Res) (lat : Nat) (ty : Ty) (d : Opd) (srcs : List (Opd × Nat)) (f : State → Iss → Nat → Nat)
    (hb : body s i = aluBody lat ty d srcs f s i) (he : isS d = true → escapes s i true [] = 0) :
    Computes s i ty d (f s i) (fun L => inMask i.gg L || srcs.any fun o => guessOf s i o.1 o.2 L) (runWord op w s bump body) := by
  refine computes_of h body lat ty d _ _ ?_ (fun L hL => by simp [hL])
  rw [hb]
  unfold aluBody
  rw [if_neg]
  simp only [Bool.and_eq_true, decide_eq_true_eq, not_and, not_not]
  exact he

/-- No lane is non-finite where the test is off, or where no executing lane's result is. -/
theorem nonFiniteLanes_none (i : Iss) (scalar tnf : Bool) (bad : Nat → Bool)
    (h : tnf = true → ∀ L, L < 32 → inMask i.ex L = true → bad L = false) : nonFiniteLanes i scalar tnf bad = 0 := by
  unfold nonFiniteLanes
  cases tnf
  · rfl
  · simp only [Bool.not_true, Bool.false_eq_true, if_false]
    have h := h rfl
    split_ifs
    · cases hl : lanesOf i.ex with
      | nil => rfl
      | cons L ls =>
        have hm : L ∈ lanesOf i.ex := by rw [hl]; simp
        have := (mem_lanesOf _ _).1 hm
        dsimp only
        rw [h L this.1 this.2]
        rfl
    · apply BitVec.eq_of_getLsbD_eq
      intro L hL
      show inMask (maskOf _) L = _
      rw [inMask_maskOf]
      cases hx : inMask i.ex L
      · simp
      · simp [h L hL hx]

/-- A word whose part is fpBody completes where no executing lane's result is non-finite under the test (R237, R349). -/
theorem fp_computes {op : Nat} {w : Insn} {bump : State → Iss → Mask} {s : State} {i : Iss} (h : Issues op w bump s i)
    (body : State → Iss → Res) (lat : Nat) (ty : Ty) (d : Opd) (tnf : Bool) (srcs : List (Opd × Nat)) (f : State → Iss → Nat → Rounded)
    (hb : body s i = fpBody lat ty d tnf srcs f s i) (he : isS d = true → escapes s i true [] = 0)
    (hn : tnf = true → ∀ L, L < 32 → inMask i.ex L = true → (f s i L).2 = false) :
    Computes s i ty d (fun L => (f s i L).1) (fun L => inMask i.gg L || srcs.any fun o => guessOf s i o.1 o.2 L) (runWord op w s bump body) := by
  refine computes_of h body lat ty d _ _ ?_ (fun L hL => by simp [hL])
  rw [hb]
  unfold fpBody
  rw [if_neg]
  · dsimp only
    rw [nonFiniteLanes_none i _ _ _ hn]
    unfold nonFiniteEnd
    have e0 : ∀ m : Mask, m &&& ~~~(0 : Mask) = m := fun m => by
      rw [show ~~~(0 : Mask) = BitVec.allOnes 32 from by decide, BitVec.and_allOnes]
    simp only [e0, if_true]
  · simp only [Bool.and_eq_true, decide_eq_true_eq, not_and, not_not]
    exact he

end Sys2Proof.Machine
end

