-- ==== Sys2Proof/Machine/Felkin.lean ====
section
/-! DEFINITION. felkin, the assembler, line by line (R304, R307–R312): the parts of a source line, its operands, its qualifiers and its
annotation, and the word they give. A line is assembled by the first of its mnemonic's written forms whose word the decoder accepts:
the assembly errors of R304 and R312 are the decoder's own checks. The operations of kernels and data stand in FelkinUnit. -/

namespace Sys2Proof.Felkin

open Sys2Proof Sys2Proof.Machine

/-- Source text. -/
abbrev Text := List Char

/-- Why felkin writes no object (R307). -/
inductive AsmError where
  | line | name | label | guard | operand | annotation | instruction | directive | range | register | slot | value | option
  deriving DecidableEq, Repr

/-! ## Characters and names (R307) -/

def isBlank (c : Char) : Bool := c == ' ' || c == '\t' || c == '\r'
def isNameStart (c : Char) : Bool := c.isAlpha || c == '_' || c == '.'
def isNameChar (c : Char) : Bool := c.isAlphanum || c == '_' || c == '.'
def trimL (t : Text) : Text := t.dropWhile isBlank
def trim (t : Text) : Text := (trimL (trimL t).reverse).reverse
def lower (t : Text) : Text := t.map Char.toLower

/-- The text up to a comment (R307). -/
def cutComment : Text → Text
  | [] => []
  | ';' :: _ => []
  | '/' :: '/' :: _ => []
  | c :: t => c :: cutComment t

/-- The pieces between two operations of a pair word (R311). -/
def splitBars : Text → List Text
  | [] => [[]]
  | '|' :: '|' :: t => [] :: splitBars t
  | c :: t => match splitBars t with
    | [] => [[c]]
    | h :: r => (c :: h) :: r

/-- The pieces between the occurrences of a character. -/
def splitAt (s : Char) (t : Text) : List Text :=
  t.foldr (fun c acc => if c == s then [] :: acc else match acc with
    | [] => [[c]]
    | h :: r => (c :: h) :: r) [[]]

/-- The lines of a source text. -/
def linesOf (t : Text) : List Text := splitAt '\n' t

/-! ## Numbers (R308) -/

/-- A literal: ±mant × 10^exp, and whether it is written with a point or an exponent. -/
structure Num where
  neg   : Bool := false
  mant  : Nat := 0
  exp   : Int := 0
  float : Bool := false
  deriving DecidableEq, Repr

def digitOf (c : Char) : Option Nat :=
  if c.isDigit then some (c.toNat - 48) else if 'a' ≤ c ∧ c ≤ 'f' then some (c.toNat - 87) else none

/-- The digits of a number in a base; none for an empty text or another character. -/
def natOf (base : Nat) (t : Text) : Option Nat :=
  if t.isEmpty then none
  else t.foldl (fun acc c => acc.bind fun n => (digitOf c).bind fun d => if d < base then some (base * n + d) else none) (some 0)

/-- The exponent of a literal, if it has one. -/
def expOf : Text → Option (Int × Bool)
  | [] => some (0, false)
  | 'e' :: '-' :: t => (natOf 10 t).map fun n => (-(n : Int), true)
  | 'e' :: '+' :: t => (natOf 10 t).map fun n => ((n : Int), true)
  | 'e' :: t => (natOf 10 t).map fun n => ((n : Int), true)
  | _ => none

def parseNum (t : Text) : Option Num :=
  let neg := t.head? == some '-'
  match lower (if neg then t.tail else t) with
  | '0' :: 'x' :: h => (natOf 16 h).map fun n => { neg := neg, mant := n }
  | '0' :: 'b' :: h => (natOf 2 h).map fun n => { neg := neg, mant := n }
  | u =>
    let whole := u.takeWhile Char.isDigit
    match u.dropWhile Char.isDigit with
    | '.' :: r =>
      let fr := r.takeWhile Char.isDigit
      if fr.isEmpty then none
      else (natOf 10 whole).bind fun _ => (natOf 10 (whole ++ fr)).bind fun n => (expOf (r.dropWhile Char.isDigit)).map fun e =>
        { neg := neg, mant := n, exp := e.1 - fr.length, float := true }
    | r => (natOf 10 whole).bind fun n => (expOf r).map fun e => { neg := neg, mant := n, exp := e.1, float := e.2 }

/-- An integer literal's value. -/
def Num.int (n : Num) : Option Int := if n.float then none else some (if n.neg then -(n.mant : Int) else n.mant)

/-- A literal's magnitude as m × 2^e, where it is one. -/
def Num.dyadic (n : Num) : Option (Nat × Int) :=
  if 0 ≤ n.exp then some (n.mant * 10 ^ n.exp.toNat, 0)
  else
    let k := (-n.exp).toNat
    if n.mant % 5 ^ k = 0 then some (n.mant / 5 ^ k, -(k : Int)) else none

/-- A literal's integral value; −0 written with a point is none. -/
def Num.whole (n : Num) : Option Int :=
  n.dyadic.bind fun x =>
    let m := if x.2 < 0 then x.1 / 2 ^ (-x.2).toNat else x.1
    if x.2 < 0 ∧ x.1 % 2 ^ (-x.2).toNat ≠ 0 then none
    else if n.float ∧ n.neg ∧ m = 0 then none
    else some (if n.neg then -(m : Int) else m)

/-- The code of a format that holds a literal exactly (R308). -/
def exactCode (f : Fmt) (n : Num) : Option Nat :=
  n.dyadic.bind fun x =>
    if x.1 = 0 then some (if n.neg && n.float then signBit f else 0)
    else
      let code := (roundF f 0 false (.fin n.neg x.1 x.2)).1
      match decodeF f code with
      | .fin s m e => if s = n.neg ∧ cmpFin s m e n.neg x.1 x.2 = 0 then some code else none
      | _ => none

/-! ## Operands (R308) -/

/-- An operand as it is written; wide where it is written as a pair of registers. -/
inductive Arg where
  | op (o : Opd) (wide : Bool)
  | num (n : Num)
  | mem (base : Opd) (wide : Bool) (off : Int)
  | name (t : Text)
  deriving DecidableEq, Repr

/-- A text spelled like a register: its register, or none of them (R307, R308). -/
def regOf (t : Text) : Option Opd :=
  match lower t with
  | c :: d =>
    if !"vspqt".toList.contains c then none
    else (natOf 10 d).map fun n => match c with
      | 'v' => if n < 512 then .v n else .bad
      | 's' => if n < 128 then .s n else .bad
      | 'p' => if n < 16 then .p n else .bad
      | 'q' => if n < 16 then .q n else .bad
      | _ => if n < 4 then .t n else .bad
  | [] => none

/-- A name a program may give: not empty, of the characters of a name, no directive, and not spelled like a register (R307). -/
def userName (t : Text) : Bool :=
  (match t with
    | c :: _ => isNameStart c && c != '.'
    | [] => false) && t.all isNameChar && (regOf t).isNone

/-- A register or an even pair. -/
def regOrPair (t : Text) : Option Arg :=
  match splitAt ':' t with
  | [x] => match regOf (trim x) with
    | some .bad => none
    | some o => some (.op o false)
    | none => none
  | [x, y] => match regOf (trim x), regOf (trim y) with
    | some (.v n), some (.v m) => if n % 2 = 0 ∧ m = n + 1 then some (.op (.v n) true) else none
    | _, _ => none
  | _ => none

/-- What stands between the brackets of a memory operand: the base, then an offset of 24 bits. -/
def memOf (t : Text) : Option Arg :=
  let isSign := fun (c : Char) => c == '+' || c == '-'
  let r := t.dropWhile fun c => !isSign c
  match regOrPair (trim (t.takeWhile fun c => !isSign c)) with
  | some (.op o wide) =>
    let off : Option Int := match r with
      | [] => some 0
      | '-' :: d => if (trim d).head? == some '-' then none else (parseNum (trim d)).bind fun n => n.int.map fun x => -x
      | _ :: d => if (trim d).head? == some '-' then none else (parseNum (trim d)).bind Num.int
    off.bind fun x => if -(2 ^ 23 : Nat) ≤ x ∧ x < (2 ^ 23 : Nat) then some (.mem o wide x) else none
  | _ => none

def argOf (t : Text) : Option Arg :=
  match t with
  | '[' :: u => if u.getLast? == some ']' then memOf u.dropLast else none
  | c :: _ =>
    if c.isDigit || c == '-' then (parseNum t).map .num
    else if t.contains ':' || (regOf t).isSome then regOrPair t
    else if userName t then some (.name t) else none
  | [] => none

/-! ## Statements (R307, R309–R311) -/

/-- One operation of a line: its guard, its mnemonic and qualifiers in lower case, and its operands. -/
structure Stmt where
  g     : BitVec 5 := 0b01111
  mnem  : Text
  quals : List Text := []
  args  : List Arg := []
  named : List (Text × Text) := []
  deriving DecidableEq, Repr

/-- What an annotation sets (R310). -/
structure Note where
  stall : BitVec 4 := 0
  y     : BitVec 1 := 0
  deriving DecidableEq, Repr

/-- The annotation: ^n, ^ny or ^y. -/
def noteOf (t : Text) : Option Note :=
  let d := t.takeWhile Char.isDigit
  let y := lower (t.dropWhile Char.isDigit)
  if !(y == [] || y == ['y']) || (d.isEmpty && y.isEmpty) then none
  else
    let n := if d.isEmpty then some 0 else natOf 10 d
    n.bind fun n => if n < 16 then some { stall := BitVec.ofNat 4 n, y := if y.isEmpty then 0 else 1 } else none

/-- The labels that begin a line, and the rest of it. -/
def labelsOf : Nat → Text → List Text × Text
  | 0, t => ([], t)
  | n + 1, t =>
    let u := trimL t
    let name := u.takeWhile isNameChar
    match trimL (u.dropWhile isNameChar) with
    | ':' :: r => if name.isEmpty then ([], u) else let x := labelsOf n r; (name :: x.1, x.2)
    | _ => ([], u)

/-- The guard that begins an operation, and the rest of it (R288). -/
def guardOf (t : Text) : Option (BitVec 5 × Text) :=
  match trimL t with
  | '(' :: r =>
    let body := trim (r.takeWhile (· != ')'))
    let neg := body.head? == some '!'
    match r.dropWhile (· != ')'), regOf (trim (if neg then body.tail else body)) with
    | ')' :: rest, some (.p n) => some (BitVec.ofNat 5 (n + if neg then 16 else 0), trimL rest)
    | _, _ => none
  | u => some (0b01111, u)

/-- Named operands follow the positional ones, each once (R308). -/
def operandsOf (t : Text) : Option (List Arg × List (Text × Text)) :=
  if (trim t).isEmpty then some ([], [])
  else
    let ps := (splitAt ',' t).map trim
    let pos := ps.takeWhile fun p => !p.contains '='
    let named := (ps.dropWhile fun p => !p.contains '=').map fun p =>
      match splitAt '=' p with
      | [k, v] => some (lower (trim k), trim v)
      | _ => none
    if named.any Option.isNone then none
    else
      let ns : List (Text × Text) := named.filterMap id
      if !(decide (ns.map Prod.fst).Nodup) then none
      else (pos.mapM argOf).map fun as => (as, ns)

/-- One operation. -/
def stmtOf (t : Text) : Option Stmt :=
  (guardOf t).bind fun x =>
    let word := x.2.takeWhile isNameChar
    match splitAt '.' (lower word) with
    | m :: qs => if m.isEmpty then none else
      (operandsOf (x.2.dropWhile isNameChar)).map fun o => { g := x.1, mnem := m, quals := qs, args := o.1, named := o.2 }
    | [] => none

/-- A line's operations, one or the two of a pair word, and its annotation. -/
def wordOf (t : Text) : Option (List Stmt × Note) :=
  match splitAt '^' t with
  | [u] => ((splitBars u).mapM stmtOf).bind fun ss => if ss.length ≤ 2 then some (ss, {}) else none
  | [u, a] => ((splitBars u).mapM stmtOf).bind fun ss => if ss.length ≤ 2 then (noteOf (trim a)).map fun n => (ss, n) else none
  | _ => none

/-! ## Written forms -/

/-- What a qualifier or an operand sets. -/
inductive Fx where
  | sub (n : Nat) | mod (n : Nat) | ty (n : Nat) | ord (n : Nat) | scope (n : Nat) | cache (n : Nat) | hmode (n : Nat) | eform (n : Nat)
  deriving DecidableEq, Repr

/-- A category of qualifiers; one that may be left out has what leaving it out sets (R309). -/
structure Cat where
  dflt : Option (List Fx) := none
  alts : List (String × List Fx)
  deriving DecidableEq, Repr

def opt (alts : List (String × List Fx)) : Cat := { dflt := some [], alts := alts }
/-- One qualifier, written or not. -/
def flag (s : String) (f : Fx) : Cat := opt [(s, [f])]
/-- Qualifiers in the order of their codes. -/
def coded (f : Nat → Fx) (ns : List String) : List (String × List Fx) := ns.zipIdx.map fun e => (e.1, [f e.2])
def must (f : Nat → Fx) (ns : List String) : Cat := { alts := coded f ns }

/-- The place of an operand: D, A, B or C; a memory operand; a trailing map; a predicate named in XMOD, in MOD; a code address; an
immediate that is always IMM32; a system register; the first coordinate of a COPY. -/
inductive Slot where
  | d | a | b | c | mem | map | xp | xv | mp | target | imm | sys | cs
  deriving DecidableEq, Repr

/-- One written form of a mnemonic. -/
structure Alt where
  op    : Nat
  cats  : List Cat := []
  ty    : Option Cat := none
  slots : List Slot := []
  keys  : List String := []
  fx    : List Fx := []
  deriving DecidableEq, Repr

/-- The type names of the integer and of the float set (R294). -/
def ints : Cat := must .ty ["b8", "b16", "b32", "b64", "i8", "i16", "i32", "i64", "n8", "n16", "n32", "n64", "b128"]
def floats : Cat := must .ty ["f32", "f16", "bf16", "f64", "f16x2", "bf16x2", "kt8x4", "e4m3x4", "e5m2x4", "kt8", "e4m3", "e5m2"]
/-- Classes 0x7 and 0x8 take the float names as aliases. -/
def memTypes : Cat :=
  { alts := ints.alts ++ [("kt8", [.ty 0]), ("e4m3", [.ty 0]), ("e5m2", [.ty 0]), ("f16", [.ty 1]), ("bf16", [.ty 1]), ("f32", [.ty 2]), ("f16x2", [.ty 2]),
      ("bf16x2", [.ty 2]), ("kt8x4", [.ty 2]), ("e4m3x4", [.ty 2]), ("e5m2x4", [.ty 2]), ("f64", [.ty 3])] }
def counts : Cat := must .ty ["x1", "x2", "x4"]

/-- Rounding, saturation and the trap on non-finite results (R348). -/
def mode : Cat := opt (coded .mod ["rne", "rtz", "rdn", "rup"])
def fpMods : List Cat := [flag "sat" (.mod 4), flag "tnf" (.mod 8), mode]
def satMod : Cat := flag "sat" (.mod 1)
def wrapMod : Cat := flag "wrap" (.mod 1)
def fpX : Cat := { alts := [("fp32", [.mod 0]), ("fp16", [.mod 4]), ("fpb16", [.mod 8]), ("fp64", [.mod 12])] }
def slotQ : Cat := must .sub ["s0", "s1", "s2", "s3", "s4", "s5", "s6", "s7"]
/-- Ordering, scope and cache hint (R297). -/
def ordQ : Cat := opt [("acq", [.ord 1]), ("rel", [.ord 2]), ("ar", [.ord 3])]
def scopes : List String := ["grp", "blk", "gng", "dev", "fab", "sys"]
def scopeQ : Cat := opt (coded .scope scopes)
def cacheQ : Cat := opt [("ef", [.cache 1]), ("na", [.cache 2])]
def one (s : String) (fx : List Fx) : Cat := { alts := [(s, fx)] }

def int2 (op : Nat) (cats : List Cat := []) (slots : List Slot := [.d, .a, .b]) : List Alt := [{ op, cats, ty := some ints, slots }]
def fp (op : Nat) (slots : List Slot := [.d, .a, .b]) (cats : List Cat := fpMods) : Alt := { op, cats, ty := some floats, slots }
def load (op : Nat) : List Alt := [{ op, cats := [ordQ, scopeQ, cacheQ], ty := some memTypes, slots := [.d, .mem], keys := ["lim", "gsrc"] }]
def store (op : Nat) : List Alt := [{ op, cats := [ordQ, scopeQ, cacheQ], ty := some memTypes, slots := [.mem, .b] }]
def bare (op : Nat) (slots : List Slot := []) : List Alt := [{ op, slots }]

/-- An atomic's operations, by type (R379): name, what it sets, the types. -/
def atomics (op : Nat) (swap : Bool) : List Alt :=
  let ordering := [ordQ, scopeQ, flag "commit" (.hmode 1)]
  let slots : List Slot := if swap then [.d, .mem, .b] else [.mem, .b]
  let named := fun (n : String) (fx : List Fx) (t : Cat) => ({ op, cats := one n fx :: ordering, ty := some t, slots } : Alt)
  let signed : Cat := { alts := ints.alts.filter fun e => e.1.toList.head? == some 'i' }
  let unsigned : Cat := { alts := ints.alts.filter fun e => e.1.toList.head? == some 'n' }
  [named "add" [.sub 0] ints, named "add" [.sub 1] floats, named "min" [.sub 2, .mod 1] signed, named "min" [.sub 2] unsigned,
   named "max" [.sub 3, .mod 1] signed, named "max" [.sub 3] unsigned, named "and" [.sub 4] ints, named "or" [.sub 4, .mod 1] ints,
   named "xor" [.sub 4, .mod 2] ints, named "exch" [.sub 5] ints, named "min" [.sub 7] floats, named "max" [.sub 7, .mod 1] floats] ++
  (if swap then [{ (named "cas" [.sub 6] ints) with slots := slots ++ [.c] }] else [])

/-- RDX and SCAN (R404). -/
def reduces (op : Nat) (more : List Cat) : List Alt :=
  let slots : List Slot := [.d, .a, .b]
  [{ op, cats := must .sub ["add", "min", "max", "and", "or", "xor"] :: more, ty := some ints, slots },
   { op, cats := one "add" [.sub 6] :: mode :: more, ty := some floats, slots },
   { op, cats := { alts := [("min", [.sub 7]), ("max", [.sub 7, .mod 1])] } :: more, ty := some floats, slots }]

def conds : List String := ["eq", "ne", "lt", "le", "gt", "ge", "num", "nan"]
def compare (op : Nat) (t : Cat) : List Alt :=
  [{ op, cats := [must .sub conds, opt [("and", [.mod 1]), ("or", [.mod 2]), ("xor", [.mod 3])]], ty := some t, slots := [.d, .a, .b] }]

/-- The integer, bit, compare and control mnemonics (R326–R345). -/
def integerForms : List (String × List Alt) :=
  [("iadd", int2 0x00 [satMod]), ("isub", int2 0x01 [satMod]), ("iaddc", int2 0x02 [] [.d, .a, .b, .c, .xp]), ("isubb", int2 0x03 [] [.d, .a, .b, .c, .xp]),
   ("imul", int2 0x04), ("imulh", int2 0x05), ("imad", int2 0x06 [satMod, flag "wide" (.mod 2)] [.d, .a, .b, .c]),
   ("iabs", int2 0x07 [satMod] [.d, .a]), ("ineg", int2 0x08 [satMod] [.d, .a]), ("imin", int2 0x09), ("imax", int2 0x0A)] ++
  (let dp := [opt (coded .sub ["ss", "us", "su", "uu"]), satMod]
   let lea := [opt (coded .sub ["x1", "x2", "x4", "x8", "x16", "x32", "x64", "x128"]), opt [("sx", [.mod 1]), ("zx", [.mod 2])]]
   [("dp4", int2 0x0B dp ++ int2 0x0B dp [.d, .a, .b, .c]), ("lea", int2 0x0C lea ++ int2 0x0C lea [.d, .a, .b, .c])]) ++
  [("mov", int2 0x0D [] [.d, .a]), ("movi", int2 0x0E [] [.d, .imm]),
   ("shl", int2 0x10 [wrapMod]), ("shr", int2 0x11 [wrapMod]), ("shra", int2 0x12 [wrapMod]), ("fshf", int2 0x13 [must .sub ["l", "r"], wrapMod] [.d, .a, .b, .c]),
   ("and", int2 0x14), ("or", int2 0x15), ("xor", int2 0x16), ("not", int2 0x17 [] [.d, .a]), ("bfunc", int2 0x18 [] [.d, .a, .b, .c, .map]),
   ("popc", int2 0x19 [] [.d, .a]), ("clz", int2 0x1A [] [.d, .a]), ("brev", int2 0x1B [] [.d, .a]),
   ("bfx", int2 0x1C ++ int2 0x1C [] [.d, .a, .b, .c]), ("bfi", int2 0x1D [] [.d, .a, .b, .c])] ++
  [("bra", bare 0x20 [.target]), ("brx", bare 0x21 [.a]), ("call", bare 0x22 [.d, .target]), ("ret", bare 0x23 [.a]), ("exit", bare 0x24),
   ("rejoin", bare 0x25 [.a]), ("yield", bare 0x26), ("nop", bare 0x27), ("ipop", bare 0x28 [.d]),
   ("icmp", compare 0x30 ints), ("fcmp", compare 0x31 floats), ("plop", bare 0x32 [.d, .a, .b, .c, .map]), ("sel", int2 0x33 [] [.d, .a, .b, .c])]

/-- The floating-point and conversion mnemonics (R350–R363); the packed 8-bit types take OP 0x68 and on (R304). -/
def floatForms : List (String × List Alt) :=
  (let nan := [flag "nan" (.sub 1), flag "tnf" (.mod 8)]
   [("fadd", [fp 0x40, fp 0x68]), ("fsub", [fp 0x41, fp 0x69]), ("fmul", [fp 0x42, fp 0x6A]), ("ffma", [fp 0x43 [.d, .a, .b, .c], fp 0x6B [.d, .a, .b, .c]]),
    ("fmin", [fp 0x44 [.d, .a, .b] nan, fp 0x6C [.d, .a, .b] nan]), ("fmax", [fp 0x45 [.d, .a, .b] nan, fp 0x6D [.d, .a, .b] nan])]) ++
  [("fclass", [fp 0x46 [.d, .a] []]), ("dadd", [fp 0x50]), ("dmul", [fp 0x51]), ("dfma", [fp 0x52 [.d, .a, .b, .c]])] ++
  ((["frcp", "frsq", "fsqrt", "fex2", "flg2", "fsin", "fcos", "ftanh"] : List String).zipIdx.map fun e =>
    -- of the special functions only FRCP and FSQRT round in a mode
    (e.1, [fp (0x58 + e.2) [.d, .a] (if e.2 = 0 ∨ e.2 = 2 then fpMods else [flag "sat" (.mod 4), flag "tnf" (.mod 8)])])) ++
  [("cvt", [{ op := 0x60, cats := [slotQ, must .mod ["enc", "dec"]], ty := some counts, slots := [.d, .a] }]),
   ("cvti", [{ op := 0x61, cats := [must .sub ["f2i", "i2f"], mode, fpX], ty := some ints, slots := [.d, .a] },
     { op := 0x61, cats := [{ alts := [("d2f", [.sub 3]), ("f2h", [.sub 5]), ("f2b", [.sub 7])] }, mode], slots := [.d, .a] },
     { op := 0x61, cats := [{ alts := [("f2d", [.sub 2]), ("h2f", [.sub 4]), ("b2f", [.sub 6])] }], slots := [.d, .a] }]),
   ("pack", (let q := [opt [("ssat", [.sub 1]), ("usat", [.sub 2])]]
     int2 0x62 q ++ int2 0x62 q [.d, .a, .b, .c])),
   ("unpk", int2 0x63),
   ("scale", (let q := fun (ns : Cat) (slots : List Slot) => ({ op := 0x64, cats := [slotQ, ns], ty := some counts, slots } : Alt)
     [q (must .mod ["enc", "dec"]) [.d, .a, .b], q (one "dec" [.mod 1]) [.d, .a, .b, .c], q (one "mk" [.mod 2]) [.d, .a]])),
   ("frnd", [{ op := 0x65, cats := [mode, fpX], slots := [.d, .a] }])]

/-- The memory, guess, atomic, fence and barrier mnemonics (R365–R396). -/
def memoryForms : List (String × List Alt) :=
  [("ld", load 0x70), ("lds", load 0x71), ("ldc", load 0x72), ("lda", [{ op := 0x73, cats := [ordQ, scopeQ], ty := some memTypes, slots := [.d, .mem] }]),
   ("pref", [{ op := 0x74, cats := [must .sub ["sec", "line", "l2"], cacheQ], slots := [.mem] }]),
   ("ptest", [{ op := 0x75, cats := [must .sub ["rd", "wr", "pres"]], slots := [.d, .mem] }]),
   ("st", store 0x80), ("sts", store 0x81), ("sta", store 0x82),
   ("cwb", [{ op := 0x83, cats := [ordQ, scopeQ], slots := [.mem, .b] }]), ("cinv", [{ op := 0x84, cats := [ordQ, scopeQ], slots := [.mem, .b] }]),
   ("gtest", bare 0x90 [.d, .a]), ("demand", bare 0x91 [.d] ++ [{ op := 0x91, cats := [one "q" [.sub 1]], slots := [.b, .d] }]),
   ("accept", bare 0x92 [.d]), ("gmark", bare 0x93 [.d]), ("atom", atomics 0xA0 true), ("red", atomics 0xA1 false),
   ("fence", [{ op := 0xB0, cats := [{ alts := [("acq", [.sub 1]), ("rel", [.sub 2]), ("full", [.sub 3])] }, { dflt := some [.mod 3], alts := coded .mod scopes }] }]),
   ("bari", bare 0xB1 [.a]), ("barv", bare 0xB2 [.d, .a]), ("barw", bare 0xB3 [.a, .b]), ("bart", bare 0xB4 [.d, .a, .b]),
   ("boinit", [{ op := 0xB5, cats := [must .sub ["off", "lane", "count"], must .mod ["grp", "blk", "gng"]], slots := [.a, .b] }]),
   ("sleep", [{ op := 0xB6, cats := [must .sub ["rel", "abs"]], slots := [.a] }]),
   ("clk", [{ op := 0xB7, cats := [must .sub ["ct", "cyc"]], ty := some ints, slots := [.d] }])]

/-- The cross-lane and hypothesis mnemonics (R401–R412). -/
def laneForms : List (String × List Alt) :=
  (let q := [must .sub ["abs", "rot", "rel", "xor"]]
   [("shfl", int2 0xC0 q ++ int2 0xC0 q [.d, .a, .b, .c] ++ int2 0xC0 q [.d, .a, .b, .c, .xv])]) ++
  [("vote", (let k := must .sub ["every", "some", "agree", "mask", "none", "count", "lowest"]
     [{ op := 0xC1, cats := [k], slots := [.d, .a, .b] }, { op := 0xC1, cats := [k], ty := some ints, slots := [.d, .a, .b] }])),
   ("match", int2 0xC2 [must .sub ["peers", "uniform", "rank", "lead"]]), ("rdx", reduces 0xC3 []), ("scan", reduces 0xC4 [flag "excl" (.mod 8)]),
   ("elect", [{ op := 0xC5, cats := [opt (coded .sub ["lo", "hi"])], slots := [.d, .b] }]),
   ("qswp", int2 0xC6 [must .sub ["h", "v", "d"]] [.d, .a]), ("qbc", int2 0xC7),
   ("hopen", bare 0xD0 [.d, .mp, .target] ++ [{ op := 0xD0, cats := [one "g" [.sub 1]], slots := [.d, .mp, .a, .target] }]),
   ("hset", bare 0xD1 [.a]), ("hleave", bare 0xD2), ("hresolve", [{ op := 0xD3, cats := [must .sub ["confirm", "refute"]], slots := [.d, .a] }]),
   ("hquery", [{ op := 0xD4, cats := [one "info" []], slots := [.d, .a] }, { op := 0xD4, cats := [one "anc" [.sub 1]], slots := [.d, .a, .b] }])]

/-- The engine, queue, system and trap mnemonics (R415–R432). -/
def systemForms : List (String × List Alt) :=
  [("mma", bare 0xE0 [.a]),
   ("tkpass", (let q := fun (n : String) (k : Nat) (slots : List Slot) => ({ op := 0xE1, cats := [one n [.sub k]], slots } : Alt)
     [q "claim" 0 [.d, .a], q "mat" 1 [.a], q "vec" 2 [.a, .b], q "free" 3 [.a]])),
   ("tktest", [{ op := 0xE2, cats := [must .sub ["state", "nf"]], slots := [.d, .a] }]),
   ("copy", (let q := fun (n : String) (k : Nat) (slots : List Slot) (keys : List String) =>
       ({ op := 0xE3, cats := [one n [.eform k]], slots, keys := "tag" :: keys } : Alt)
     [q "tload" 0 [.b, .a, .cs] [], q "tstore" 1 [.a, .b, .cs] [], q "lin" 2 [.b, .a, .c] [], q "mcast" 3 [.b, .a, .cs] ["mask", "ready"]])),
   ("qtry", [{ op := 0xE4, ty := some (must .sub ["b32", "b64"]), slots := [.d, .mp, .a] }]), ("qcnt", bare 0xE5 [.d, .a]),
   ("srd", bare 0xF0 [.d, .sys]), ("swr", bare 0xF1 [.sys, .b]), ("trap", bare 0xF2 [.a] ++ bare 0xF2),
   ("rte", bare 0xF3 ++ [{ op := 0xF3, cats := [one "next" [.sub 1]] }]),
   ("tlbinv", [{ op := 0xF4, cats := [one "page" []], slots := [.a] }, { op := 0xF4, cats := [one "all" [.sub 1]] }]),
   ("waitev", bare 0xF5 [.d, .a, .b]), ("bkpt", bare 0xF6 [.a] ++ bare 0xF6),
   ("perf", [{ op := 0xF7, cats := [one "start" []], slots := [.a, .b] }, { op := 0xF7, cats := [{ alts := [("stop", [.sub 1]), ("clear", [.sub 2])] }], slots := [.a] }]),
   ("bblog", bare 0xF8 [.a, .b])]

def formsTable : List (String × List Alt) := integerForms ++ floatForms ++ memoryForms ++ laneForms ++ systemForms

/-- The written forms of a mnemonic. -/
def altsOf (m : Text) : List Alt := (formsTable.find? fun e => e.1.toList == m).elim [] Prod.snd

/-- In a pair word FFMA names D, A and B (R300). -/
def pairAlts (m : Text) : List Alt := if m == "ffma".toList then [fp 0x43] else altsOf m

/-- The names of the system registers (R424). -/
def sysNames : List (String × Nat) :=
  (["laneid", "quadid", "lpc", "lap", "hyp", "item", "hrefute", "fault_va"] : List String).zipIdx ++
  ((["grpid", "ngrp", "blkid", "nblk", "gangx", "gangy", "gangz", "gridx", "gridy", "gridz", "gangseq", "lcore", "live", "pct"] : List String).zipIdx.map fun e => (e.1, 0x10 + e.2)) ++
  ((["trap_cause", "trap_pc", "fault_mask", "cause_mask"] : List String).zipIdx.map fun e => (e.1, 0x20 + e.2)) ++
  [("mc_ready", 0x30), ("limit_default", 0x40), ("lease_default", 0x41), ("vat_base", 0x42), ("vat_size", 0x43),
   ("perfc0", 0x50), ("perfc1", 0x51), ("perfc2", 0x52), ("perfc3", 0x53)]

/-! ## A word from a statement -/

/-- The fields of a word under way. -/
structure Draft where
  w     : Insn := {}
  sub   : Nat := 0
  mod   : Nat := 0
  ty    : Nat := 0
  c     : Option (BitVec 9 × BitVec 2) := none
  xmod  : Nat := 0
  imm   : Option Nat := none
  off   : Int := 0
  lim   : Nat := 0
  gsrc  : Nat := 0
  ord   : Nat := 0
  scope : Option Nat := none
  cache : Nat := 0
  hmode : Nat := 0
  eform : Nat := 0
  tag   : Nat := 0
  gmask : Nat := 0
  rbit  : Nat := 0
  cs    : Nat := 0
  deriving DecidableEq, Repr

def Draft.apply (x : Draft) : Fx → Draft
  | .sub n => { x with sub := x.sub + n }
  | .mod n => { x with mod := x.mod + n }
  | .ty n => { x with ty := n }
  | .ord n => { x with ord := n }
  | .scope n => { x with scope := some n }
  | .cache n => { x with cache := n }
  | .hmode n => { x with hmode := n }
  | .eform n => { x with eform := n }

/-- The qualifier of a category among those given, and the others. -/
def takeQual (c : Cat) (qs : List Text) : Option (List Fx × List Text) :=
  match qs.find? fun q => c.alts.any fun a => a.1.toList == q with
  | some q => (c.alts.find? fun a => a.1.toList == q).map fun a => (a.2, qs.erase q)
  | none => c.dflt.map fun fx => (fx, qs)

/-- What the qualifiers set: the type last, the others in any order, each category once, none left over (R309). -/
def qualFx (a : Alt) (qs : List Text) : Option (List Fx) :=
  let typed : Option (List Fx × List Text) := match a.ty with
    | none => some ([], qs)
    | some t => qs.getLast?.bind fun q => (t.alts.find? fun e => e.1.toList == q).map fun e => (e.2, qs.dropLast)
  typed.bind fun x =>
    (a.cats.foldlM (fun (acc : List Fx × List Text) c => (takeQual c acc.2).map fun r => (acc.1 ++ r.1, r.2)) x).bind fun r =>
      if r.2.isEmpty then some (a.fx ++ r.1) else none

/-- Kind and field of a register (R290). -/
def fieldOf : Opd → Option (BitVec 9 × BitVec 2)
  | .v n => some (BitVec.ofNat 9 n, 0)
  | .s n => some (BitVec.ofNat 9 n, 1)
  | .q n => some (BitVec.ofNat 9 n, 2)
  | .t n => some (BitVec.ofNat 9 (16 + n), 2)
  | .p n => some (BitVec.ofNat 9 (32 + n), 2)
  | _ => none

/-- The type an immediate widens to: an alias in classes 0x7 and 0x8 stands for its .b type. -/
def typeNow (op : Nat) (x : Draft) : Option Ty := if floatSet op x.sub then tyFloat x.ty else tyInt x.ty

/-- The type of a literal in a place (R291, R308): SCALE's factor and addend are binary32 (R357), and the source of a conversion or of FRND
has its floating-point type (R360, R361). -/
def litType (op : Nat) (x : Draft) (s : Slot) : Option Ty :=
  let fpX := [Ty.f32, .f16, .bf16, .f64][x.mod / 4]?
  if op = 0x64 ∧ (s = .b ∨ s = .c) then some .f32
  else if op = 0x65 ∨ (op = 0x61 ∧ x.sub = 0) then fpX
  else if op = 0x61 ∧ 2 ≤ x.sub then (match x.sub with | 3 => some .f64 | 4 => some .f16 | 6 => some .bf16 | _ => some .f32)
  else typeNow op x

/-- The 9-bit immediate that holds a literal (R291). -/
def imm9 (t : Option Ty) (n : Num) : Option Int :=
  let v := match t with
    | some .f32 | some .f16 | some .bf16 | some .f64 => n.whole
    | some t => if imm9Ok t then n.int else none
    | none => n.int
  v.bind fun x => if -256 ≤ x ∧ x ≤ 255 then some x else none

/-- The IMM32 that holds a literal (R291). DESIGN CHOICE (log 106). -/
def imm32 (t : Option Ty) (n : Num) : Option Nat :=
  let within := fun (lo hi : Int) => n.int.bind fun v => if lo ≤ v ∧ v ≤ hi then some (wrap 32 v) else none
  match t with
  | some .f32 | some .f64 => exactCode .f32 n
  | some .f16 => exactCode .f16 n
  | some .bf16 => exactCode .bf16 n
  | some .i64 | some .b64 => within (-(2 ^ 31 : Nat)) ((2 ^ 31 : Nat) - 1)
  | some .n64 => within 0 ((2 ^ 32 : Nat) - 1)
  | some .f16x2 | some .bf16x2 => within 0 ((2 ^ 32 : Nat) - 1)
  | _ => within (-(2 ^ 31 : Nat)) ((2 ^ 32 : Nat) - 1)

/-- Field and kind of an operand in a 9-bit field. -/
def fieldArg (t : Option Ty) : Arg → Option (BitVec 9 × BitVec 2)
  | .op o _ => fieldOf o
  | .num n => (imm9 t n).map fun v => (BitVec.ofInt 9 v, 3)
  | _ => none

/-- An operand put in its place. `env` gives the address of a label; pc is the instruction's own. -/
def fill (op : Nat) (env : Text → Option Nat) (pc : Nat) (x : Draft) : Slot × Arg → Option Draft
  | (.d, a) => (fieldArg none a).bind fun f => if f.2 = 3 then none else some { x with w := { x.w with d := f.1, dk := f.2 } }
  | (.a, a) => (fieldArg (litType op x .a) a).map fun f => { x with w := { x.w with a := f.1, ak := f.2 } }
  | (.b, a) => match fieldArg (litType op x .b) a with
    | some f => some { x with w := { x.w with b := f.1, bk := f.2 } }
    | none => match a with
      | .num n => if (formsOf op).contains .i then (imm32 (litType op x .b) n).map fun v => { x with imm := some v } else none
      | _ => none
  | (.c, a) => (fieldArg (litType op x .c) a).map fun f => { x with c := some f }
  | (.mem, .mem o _ off) => (fieldOf o).map fun f => { x with w := { x.w with a := f.1, ak := f.2 }, off := off }
  | (.map, .num n) => n.int.bind fun v => if 0 ≤ v ∧ v ≤ 255 then some { x with xmod := x.xmod + v.toNat } else none
  | (.xp, .op (.p n) _) => some { x with xmod := x.xmod + n }
  | (.xv, .op (.p n) _) => some { x with xmod := x.xmod + 16 + n }
  | (.mp, .op (.p n) _) => some { x with mod := x.mod + n }
  | (.target, .name t) => (env t).bind fun a =>
      let v : Int := (a : Int) - pc
      if -(2 ^ 31 : Nat) ≤ v ∧ v < (2 ^ 31 : Nat) then some { x with imm := some (wrap 32 v) } else none
  | (.imm, .num n) => (imm32 (typeNow op x) n).map fun v => { x with imm := some v }
  | (.sys, .name t) => (sysNames.find? fun e => e.1.toList == lower t).map fun e => { x with w := { x.w with a := BitVec.ofNat 9 e.2, ak := 3 } }
  | (.cs, .op (.s n) _) => some { x with cs := n }
  | _ => none

/-- A number of a named operand, in its range. -/
def namedNum (t : Text) (hi : Nat) : Option Nat := (parseNum t).bind fun n => n.int.bind fun v => if 0 ≤ v ∧ v ≤ hi then some v.toNat else none

/-- A named operand (R198, R203, R418). A register as the guess source is the prediction register. DESIGN CHOICE (log 106). -/
def fillNamed (x : Draft) (e : Text × Text) : Option Draft :=
  let key := fun (n : String) => e.1 == n.toList
  if key "lim" then
    if lower e.2 == "none".toList then some x
    else match regOrPair e.2 with
    | some (.op o false) => (fieldOf o).bind fun f => if x.c.isSome then none else some { x with lim := 15, c := some f }
    | _ => (namedNum e.2 65536).bind fun n => ((List.range 15).find? fun k => decide (1 ≤ k) && n == 2 ^ (k + 2)).map fun k => { x with lim := k }
  else if key "gsrc" then
    match ((["zero", "faded", "stride", "reg"] : List String).map String.toList).findIdx? (· == lower e.2) with
    | some k => some { x with gsrc := k }
    | none => match regOrPair e.2 with
      | some (.op (.v n) false) => if x.c.isSome then none else some { x with gsrc := 3, c := some (BitVec.ofNat 9 n, 0) }
      | _ => none
  else if key "tag" then (namedNum e.2 65535).map fun n => { x with tag := n }
  else if key "mask" then (namedNum e.2 15).map fun n => { x with gmask := n }
  else if key "ready" then (namedNum e.2 7).map fun n => { x with rbit := n }
  else none

/-- Bits above the first 64 (R296–R298); an ordering without a scope is of scope .dev (R309). -/
def Draft.ext (x : Draft) (f : Form) : Nat :=
  let c := x.c.elim 0 fun c => c.1.toNat + 2 ^ 9 * c.2.toNat
  match f with
  | .a => 0
  | .i => x.imm.getD 0
  | .c => c + 2 ^ 11 * x.xmod
  | .m => x.lim + 2 ^ 4 * x.gsrc + 2 ^ 6 * x.scope.getD (if x.ord = 0 then 0 else 3) + 2 ^ 9 * x.ord + 2 ^ 11 * x.cache + 2 ^ 13 * x.hmode +
      2 ^ 16 * wrap 24 x.off + 2 ^ 40 * c
  | .e => x.tag + 2 ^ 16 * x.gmask + 2 ^ 20 * x.rbit + 2 ^ 24 * x.eform + 2 ^ 28 * x.cs + 2 ^ 40 * c

/-- The form of a word (R304); none where it would need two. -/
def Draft.form (x : Draft) (op : Nat) : Option Form :=
  if op = 0xE3 then some .e
  else if (formsOf op).contains .m then some .m
  else if x.c.isSome then (if x.imm.isSome then none else some .c)
  else some (if x.imm.isSome then .i else .a)

/-- A 64-bit operand is written as a pair, any other is not; the registers of CVT and SCALE are named by their first (R308, R356). -/
def pairWritten (op : Nat) (w : Insn) : Slot × Arg → Bool
  | (s, .op (.v _) wide) =>
    let n := match s with | .d => spanD op w | .a => spanA op w | .b => spanB op w | .c => spanC op w | _ => 1
    (op == 0x60 || op == 0x64) && !wide || wide == (n == 2)
  | (_, .op _ wide) => !wide
  | (_, .mem (.v _) wide _) => wide == (spanA op w == 2)
  | (_, .mem _ wide _) => !wide
  | _ => true

/-- The OP and fields that one written form gives a statement. -/
def draftWord (a : Alt) (st : Stmt) (note : Note) (env : Text → Option Nat) (pc : Nat) : Option (Nat × Insn) :=
  if a.slots.length ≠ st.args.length || !(st.named.all fun e => a.keys.any fun k => k.toList == e.1) ||
      ((["mask", "ready"] : List String).any fun k => a.keys.contains k && !(st.named.any fun e => e.1 == k.toList)) then none
  else
    (qualFx a st.quals).bind fun fx =>
      ((a.slots.zip st.args).foldlM (fill a.op env pc) (fx.foldl Draft.apply {})).bind fun x =>
        (st.named.foldlM fillNamed x).bind fun y => (y.form a.op).bind fun f =>
          let w := { y.w with
            form := f, stall := note.stall, y := note.y, g := st.g, sub := BitVec.ofNat 3 y.sub, ty := BitVec.ofNat 4 y.ty
            mod := BitVec.ofNat 4 y.mod, ext := BitVec.ofNat 64 (y.ext f) }
          if y.mod < 16 ∧ y.sub < 8 ∧ (y.gsrc = 3 → y.c.isSome) ∧ (a.slots.zip st.args).all (pairWritten a.op w) then some (a.op, w) else none

/-- The instruction of an OP and fields, where the decoder accepts its word (R312). -/
def accepted (op : Nat) (w : Insn) : Option Instr :=
  match decode (leBytes (formBytes w.form) (packInsn op w)) with
  | .ok i => some i
  | .error _ => none

/-- A word of the 64-bit form with V operands as a compact operation (R300); compact FFMA reads D in place of C. -/
def compactOfWord (op : Nat) (w : Insn) : Option Compact :=
  if w.form = .a ∧ w.sub = 0 ∧ w.dk = 0 ∧ w.ak = 0 ∧ w.bk = 0 then
    some { cop := BitVec.ofNat 8 op, g := w.g, d := w.d, a := w.a, b := w.b, ty := w.ty, mod := w.mod }
  else none

/-- The instruction of a line's operations (R304, R311, R312): that of the first written form whose word decodes. -/
def assembleWord (ss : List Stmt) (note : Note) (env : Text → Option Nat) (pc : Nat) : Option Instr :=
  match ss with
  | [s] => (altsOf s.mnem).findSome? fun a => (draftWord a s note env pc).bind fun x => accepted x.1 x.2
  | [s, t] => (pairAlts s.mnem).findSome? fun a => (pairAlts t.mnem).findSome? fun b =>
      (draftWord a s {} env pc).bind fun x => (draftWord b t {} env pc).bind fun y =>
        (compactOfWord x.1 x.2).bind fun c => (compactOfWord y.1 y.2).bind fun d =>
          let p : Pair := { stall := note.stall, y := note.y, first := c, second := d }
          match decode (leBytes 16 (packPair p)) with
          | .ok i => some i
          | .error _ => none
  | _ => none

/-- A line of one instruction, without labels, assembled at an address. -/
def assembleLine (t : Text) (env : Text → Option Nat) (pc : Nat) : Except AsmError Instr :=
  match wordOf (trim (cutComment t)) with
  | none => .error .line
  | some (ss, note) => match assembleWord ss note env pc with
    | some i => .ok i
    | none => .error .instruction

/-! ## Registers a word names (R313) -/

/-- How many V and how many S registers the operands of an operation cover, from register 0 up. -/
def namedBy (op : Nat) (w : Insn) : Nat × Nat :=
  let os := useList op w
  let cs := if op = 0xE3 ∧ eForm w ≠ 2 then eCs w + 1 else 0
  (maxOf (os.map fun o => match o.1 with | .v n => n + o.2.1 | _ => 0), max cs (maxOf (os.map fun o => match o.1 with | .s n => n + 1 | _ => 0)))

def named (i : Instr) : Nat × Nat :=
  match i with
  | .pairWord p =>
    let x := namedBy p.first.cop.toNat (compactInsn p.first)
    let y := namedBy p.second.cop.toNat (compactInsn p.second)
    (max x.1 y.1, max x.2 y.2)
  | _ => match instrParts i with
    | some (op, w) => namedBy op w
    | none => (0, 0)

end Sys2Proof.Felkin
end

