-- ==== Sys2Proof/Machine/FelkinPrint.lean ====
section
/-! DEFINITION. felkin's disassembler (R304, R309, R311): the statement that the assembler turns into a word, and its text. -/

namespace Sys2Proof.Felkin

open Sys2Proof Sys2Proof.Machine

/-! ## Numbers and operands -/

/-- Decimal digits. -/
def digits : Nat → Nat → Text
  | 0, _ => []
  | f + 1, n => (if n < 10 then [] else digits f (n / 10)) ++ [Char.ofNat (48 + n % 10)]

def natText (n : Nat) : Text := digits (Nat.log2 n + 1) n
def intText (x : Int) : Text := (if x < 0 then ['-'] else []) ++ natText x.natAbs

/-- A literal: a floating-point one always has a point. -/
def Num.text (n : Num) : Text :=
  (if n.neg then ['-'] else []) ++ natText n.mant ++ (if n.float then ".0".toList else []) ++ if n.exp = 0 then [] else 'e' :: intText n.exp

/-- The literal of a finite code, exactly. -/
def literalOf (f : Fmt) (code : Nat) : Option Num :=
  match decodeF f code with
  | .fin s m e =>
    if 0 ≤ e then some { neg := s, mant := m * 2 ^ e.toNat, float := true } else some { neg := s, mant := m * 5 ^ (-e).toNat, exp := e, float := true }
  | _ => none

def wholeNum (x : Int) : Num := { neg := decide (x < 0), mant := x.natAbs }

/-- A register as an operand. -/
def regText (o : Opd) : Text :=
  match o with
  | .v n => 'V' :: natText n
  | .s n => 'S' :: natText n
  | .p n => 'P' :: natText n
  | .q n => 'Q' :: natText n
  | .t n => 'T' :: natText n
  | _ => []

/-- A register, or a pair by its first. -/
def widePart (o : Opd) (wide : Bool) : Text :=
  match o, wide with
  | .v n, true => regText o ++ ':' :: regText (.v (n + 1))
  | _, _ => regText o

def Arg.text (a : Arg) : Text :=
  match a with
  | .op o w => widePart o w
  | .num n => n.text
  | .mem o w off => '[' :: widePart o w ++ (if off = 0 then [] else if off < 0 then intText off else '+' :: intText off) ++ [']']
  | .name t => t

/-- The operand of a field: a register, or a 9-bit immediate; wide where it covers two registers. -/
def argField (op : Nat) (o : Opd) (f : BitVec 9) (k : BitVec 2) (span : Nat) : Arg :=
  if k = 3 then .num (wholeNum f.toInt) else .op o (span == 2 && op != 0x60 && op != 0x64 && (match o with | .v _ => true | _ => false))

/-- The literal of an IMM32 by type (R291). -/
def immNum (t : Option Ty) (x : Nat) : Option Num :=
  match t with
  | some .f32 | some .f64 => literalOf .f32 x
  | some .f16 => literalOf .f16 x
  | some .bf16 => literalOf .bf16 x
  | some .i64 | some .b64 => some (wholeNum (sext 32 x))
  | _ => some (wholeNum x)

/-- The operand that stands in a place. `name` gives the label of an address. -/
def argAt (op : Nat) (w : Insn) (name : Nat → Option Text) (pc : Nat) (s : Slot) : Option Arg :=
  let x := w.ext.toNat
  let t := if floatSet op w.sub.toNat then tyFloat w.ty.toNat else tyInt w.ty.toNat
  let imm := bits x 31 0
  match s with
  | .d => some (argField op (opD w) w.d w.dk (spanD op w))
  | .a => some (argField op (opA w) w.a w.ak (spanA op w))
  | .b => if w.form = .i then (immNum t imm).map .num else some (argField op (opB w) w.b w.bk (spanB op w))
  | .c => let at_ := if w.form = .c then 0 else 40
    some (argField op (opC w) (BitVec.ofNat 9 (x >>> at_)) (BitVec.ofNat 2 (x >>> (at_ + 9))) (spanC op w))
  | .mem => some (.mem (opA w) (spanA op w == 2 && w.ak == 0) (xOffset w))
  | .map => some (.num (wholeNum (bits x 18 11)))
  | .xp => some (.op (.p (bits x 14 11)) false)
  | .xv => if bit x 15 then some (.op (.p (bits x 14 11)) false) else none
  | .mp => some (.op (.p w.mod.toNat) false)
  | .target => (name (wrap 64 ((pc : Int) + sext 32 imm))).map .name
  | .imm => (immNum t imm).map .num
  | .sys => (sysNames.find? fun e => e.2 == w.a.toNat).map fun e => .name (e.1.toList.map Char.toUpper)
  | .cs => some (.op (.s (eCs w)) false)

/-- The named operands of a word: those that differ from what leaving them out says. -/
def namedAt (op : Nat) (w : Insn) : List (Text × Text) :=
  let entry := fun (n : String) (v : Text) => (n.toList, v)
  if w.form = .m then
    let c := regText (opC w)
    (match xLim w with
      | 0 => []
      | 15 => [entry "lim" c]
      | k => [entry "lim" (natText (2 ^ (k + 2)))]) ++
    (match xGsrc w with
      | 0 => []
      | 1 => [entry "gsrc" "faded".toList]
      | 2 => [entry "gsrc" "stride".toList]
      | _ => [entry "gsrc" (if xLim w = 15 then "reg".toList else c)])
  else if op = 0xE3 then
    (if eTag w = 0 then [] else [entry "tag" (natText (eTag w))]) ++
    if eForm w = 3 then [entry "mask" (natText (eGmask w)), entry "ready" (natText (eRbit w))] else []
  else []

/-! ## Words -/

/-- The ways to write a category, leaving it out first. -/
def Cat.ways (c : Cat) : List (List Text) := (match c.dflt with | some _ => [[]] | none => []) ++ c.alts.map fun a => [a.1.toList]

/-- The ways to write a form's qualifiers, in the order of its categories, the type last (R309). -/
def Alt.ways (a : Alt) : List (List Text) :=
  ((a.cats ++ a.ty.toList).foldr (fun c acc => c.ways.flatMap fun x => acc.map fun r => x ++ r) [[]])

/-- The statement of a word: the first that the assembler turns into it. -/
def stmtFor (op : Nat) (w : Insn) (note : Note) (name : Nat → Option Text) (pc : Nat) : Option Stmt :=
  let env := fun (t : Text) => let a := wrap 64 ((pc : Int) + sext 32 (bits w.ext.toNat 31 0)); if name a = some t then some a else none
  formsTable.findSome? fun e => e.2.findSome? fun a =>
    if a.op ≠ op then none
    else (a.slots.mapM (argAt op w name pc)).bind fun args => a.ways.findSome? fun qs =>
      let st : Stmt := { g := w.g, mnem := e.1.toList, quals := qs, args, named := namedAt op w }
      if draftWord a st note env pc = some (op, w) then some st else none

/-- An operation's text (R307–R309). -/
def Stmt.text (s : Stmt) : Text :=
  let n := s.g.toNat
  (if n = 15 then [] else "(".toList ++ (if 16 ≤ n then ['!'] else []) ++ 'P' :: natText (n % 16) ++ ") ".toList) ++
  s.mnem.map Char.toUpper ++ s.quals.flatMap (fun q => '.' :: q) ++
  match s.args.map Arg.text ++ s.named.map fun e => e.1 ++ '=' :: e.2 with
  | [] => []
  | a :: rest => ' ' :: a ++ rest.flatMap fun b => ", ".toList ++ b

/-- An annotation's text (R310). -/
def Note.text (n : Note) : Text :=
  if n.stall = 0 ∧ n.y = 0 then [] else " ^".toList ++ (if n.stall = 0 then [] else natText n.stall.toNat) ++ if n.y = 1 then ['y'] else []

/-- The text of an instruction at an address; a word of OP 0xFE is always a pair (R311). -/
def disassemble (name : Nat → Option Text) (pc : Nat) (i : Instr) : Option Text :=
  match i with
  | .pairWord p =>
    -- Compact FFMA names D, A and B: its word of the 64-bit form is no word of its own, and is written from the fields.
    let half := fun (c : Compact) =>
      (stmtFor (if c.cop = 0x43 then 0x40 else c.cop.toNat) { (compactInsn c) with form := .a, ext := 0 } {} name pc).map fun s =>
        (if c.cop = 0x43 then { s with mnem := "ffma".toList } else s).text
    (half p.first).bind fun x => (half p.second).map fun y => x ++ " || ".toList ++ y ++ Note.text { stall := p.stall, y := p.y }
  | _ => (instrParts i).bind fun e => (stmtFor e.1 e.2 { stall := e.2.stall, y := e.2.y } name pc).map fun s =>
      s.text ++ Note.text { stall := e.2.stall, y := e.2.y }

end Sys2Proof.Felkin
end

