-- ==== Sys2Proof/Machine/FelkinUnit.lean ====
section
/-! DEFINITION. felkin, the assembler, a source at a time (R285, R286, R310, R313–R317, R441): kernels with their shape and code, data
regions, and the graph directives. Linking stands in Scefold. -/

namespace Sys2Proof.Felkin

open Sys2Proof Sys2Proof.Machine

/-! ## Lines -/

/-- What a line holds after its labels (R307): nothing, a directive with its argument text, or the operations of a word. -/
inductive Body where
  | none
  | dir (name : Text) (args : Text)
  | word (ops : List Stmt) (note : Note)
  deriving DecidableEq, Repr

structure Line where
  labels : List Text := []
  body   : Body := .none
  deriving DecidableEq, Repr

/-- A source line; an error where it is outside the form of R307. -/
def lineOf (t : Text) : Except AsmError Line :=
  let u := labelsOf t.length (trim (cutComment t))
  if !(u.1.all userName) then .error .label
  else match u.2 with
    | [] => .ok { labels := u.1 }
    | '.' :: _ => .ok { labels := u.1, body := .dir (lower (u.2.takeWhile isNameChar)) (trim (u.2.dropWhile isNameChar)) }
    | t => match wordOf t with
      | some (ss, note) => .ok { labels := u.1, body := .word ss note }
      | none => .error .line

/-- The arguments of a directive: positional ones, then those written name=value, each name once. -/
def argsOf (t : Text) : Option (List Text × List (Text × Text)) :=
  if t.isEmpty then some ([], [])
  else
    let ps := (splitAt ',' t).map trim
    let opts := (ps.dropWhile fun p => !p.contains '=').map fun p =>
      match splitAt '=' p with
      | [k, v] => some (lower (trim k), trim v)
      | _ => none
    if opts.any Option.isNone then none
    else
      let os : List (Text × Text) := opts.filterMap id
      if decide (os.map Prod.fst).Nodup then some (ps.takeWhile fun p => !p.contains '=', os) else none

/-- An integer argument between two bounds, a multiple of a step. -/
def intArg (t : Text) (lo hi step : Nat) : Option Nat :=
  (namedNum t hi).bind fun n => if lo ≤ n ∧ n % step = 0 then some n else none

/-! ## Kernels (R313–R315) -/

/-- A kernel's shape as its directives give it; none where a default stands. -/
structure Shape where
  regs    : Option Nat := none
  scalars : Option Nat := none
  groups  : Nat := 1
  gang    : Nat := 1
  scratch : Nat := 0
  landing : Option (Nat × Nat) := none
  limit   : Nat := 65536
  lease   : Nat := 1024
  vat     : Option Nat := none
  deriving DecidableEq, Repr

def shapeNames : List Text := (["regs", "scalars", "groups", "gang", "scratch", "landing", "limit", "hyps"] : List String).map fun n => '.' :: n.toList

/-- One shape directive (R313). -/
def Shape.set (x : Shape) (name args : Text) : Option Shape :=
  match argsOf args with
  | some ([a], []) =>
    if name == ".regs".toList then (intArg a 8 512 8).map fun n => { x with regs := some n }
    else if name == ".scalars".toList then (intArg a 1 128 1).map fun n => { x with scalars := some n }
    else if name == ".groups".toList then (intArg a 1 16 1).map fun n => { x with groups := n }
    else if name == ".gang".toList then (intArg a 1 4 1).map fun n => { x with gang := n }
    else if name == ".scratch".toList then (intArg a 0 1048576 256).map fun n => { x with scratch := n }
    else none
  | some ([v, c], []) =>
    if name == ".landing".toList then match regOf v with
      | some (.v f) => (intArg c 1 511 1).map fun n => { x with landing := some (f, n) }
      | _ => none
    else none
  | some ([], os) =>
    if os.isEmpty then none
    else if name == ".limit".toList then
      os.foldlM (fun (x : Shape) o =>
        if o.1 == "default".toList then (intArg o.2 1 (2 ^ 24) 1).map fun n => { x with limit := n }
        else if o.1 == "lease".toList then (intArg o.2 256 65536 1).map fun n => { x with lease := n }
        else none) x
    else if name == ".hyps".toList then match os with
      | [o] => if o.1 == "vat".toList then (intArg o.2 65536 (2 ^ 48) 65536).map fun n => { x with vat := some n } else none
      | _ => none
    else none
  | _ => none

/-- A format slot's descriptor (R235, R315); none where R236 rejects it. -/
def formatOf (fmt : Text) (rest : List Text) : Option Nat :=
  let find := fun (ns : List String) (t : Text) => (ns.map String.toList).findIdx? (· == lower t)
  let opts := rest.map fun p => match splitAt '=' p with
    | [k, v] => (lower (trim k), some (trim v))
    | _ => (lower p, none)
  if !decide (opts.map Prod.fst).Nodup then none
  else
    ((find ["kt8", "e4m3", "e5m2", "f16", "bf16", "f32"] fmt).bind fun f =>
      opts.foldlM (fun (d : Nat) (o : Text × Option Text) => match o.2 with
        | some v =>
          if o.1 == "scale".toList then if lower v == "b32".toList then some (d + 2 ^ 4) else none
          else if o.1 == "block".toList then (find ["16", "32", "64", "128"] v).map fun k => d + 2 ^ 6 * k
          else if o.1 == "rnd".toList then (find ["rne", "rtz", "rdn", "rup"] v).map fun k => d + 2 ^ 9 * k
          else none
        | none => (find ["sat", "tnf", "ftz"] o.1).map fun k => d + 2 ^ (12 + k)) f).bind fun d => if badSlot d then none else some d

/-- A kernel as it is read: its shape, the directives seen, its format slots, and its instructions with what stands before each. -/
structure Draught where
  name  : Text
  shape : Shape := {}
  seen  : List Text := []
  slots : List Nat := List.replicate 8 0
  head  : Option Nat := none
  /-- Operations, annotation, and the labels that name the instruction. -/
  body  : List (List Stmt × Note × List Text) := []
  /-- Labels before the next instruction. -/
  wait  : List Text := []
  deriving DecidableEq, Repr

/-- One line of a kernel. -/
def Draught.line (x : Draught) (l : Line) : Except AsmError Draught :=
  let y := { x with wait := x.wait ++ l.labels }
  match l.body with
  | .none => .ok y
  | .word ss note => .ok { y with body := y.body ++ [(ss, note, y.wait)], wait := [] }
  | .dir name args =>
    if shapeNames.contains name then
      if !x.body.isEmpty || x.seen.contains name then .error .directive
      else match x.shape.set name args with
        | some s => .ok { y with shape := s, seen := name :: x.seen }
        | none => .error .range
    else if name == ".format".toList then
      match (splitAt ',' args).map trim with
      | k :: fmt :: rest => match intArg k 0 7 1, formatOf fmt rest with
        | some k, some d => .ok { y with slots := y.slots.set k d }
        | _, _ => .error .slot
      | _ => .error .slot
    else if name == ".itemhead".toList then
      if x.head.isSome || !args.isEmpty || !l.labels.isEmpty then .error .directive else .ok { y with head := some x.body.length }
    else .error .directive

/-- Where an instruction of n bytes stands (R285): at pos, or after pad words at the next 32-byte block. -/
def placeFor (pos n : Nat) : Nat := if pos % 32 + n ≤ 32 then pos else roundUp 32 pos

/-- The words that fill a gap: pad words (R286). -/
def padBytes (n : Nat) : List Byte := (List.range (n / 4)).flatMap fun _ => leBytes 4 3

/-- Bytes of an instruction. -/
def sizeOf_ (i : Instr) : Nat :=
  match i with
  | .pairWord _ => 16
  | _ => match instrParts i with
    | some (_, w) => formBytes w.form
    | none => 0

/-- Assemble each instruction with the addresses of labels, from a position on: where it stands, and the instruction. -/
def emit (env : Text → Option Nat) : Nat → List (List Stmt × Note × List Text) → Option (List (Nat × Instr))
  | _, [] => some []
  | pos, (ss, note, _) :: rest =>
    -- Its length does not depend on where it stands: displacements are 32 bits.
    (assembleWord ss note (fun t => (env t).map fun _ => pos) pos).bind fun i =>
      let at_ := placeFor pos (sizeOf_ i)
      (assembleWord ss note env at_).bind fun j => (emit env (at_ + sizeOf_ j) rest).map fun r => (at_, j) :: r

/-- Where the instructions of a list end. -/
def endOf (is : List (Nat × Instr)) : Nat := is.getLast?.elim 0 fun e => e.1 + sizeOf_ e.2

/-- The bytes of placed instructions from a position on, gaps filled with pad words. -/
def layBytes : Nat → List (Nat × Instr) → List Byte
  | _, [] => []
  | pos, e :: rest => padBytes (e.1 - pos) ++ encode e.2 ++ layBytes (e.1 + sizeOf_ e.2) rest

/-- A kernel assembled: offsets count from its entry. -/
structure Kernel where
  name    : Text
  regs    : Nat
  scalars : Nat
  groups  : Nat
  gang    : Nat
  scratch : Nat
  landing : Nat
  limit   : Nat
  lease   : Nat
  vat     : Option Nat
  slots   : List Nat
  head    : Option Nat
  labels  : List (Text × Nat)
  insns   : List (Nat × Instr)
  deriving DecidableEq, Repr

/-- A kernel at its `.end` (R313, R314). Where a label with no instruction after it stands is a DESIGN CHOICE (log 106). -/
def Draught.close (x : Draught) : Except AsmError Kernel :=
  let all := x.body.flatMap (fun e => e.2.2) ++ x.wait
  if !decide all.Nodup then .error .name
  else match emit (fun t => if all.contains t then some 0 else none) 0 x.body with
    | none => .error .instruction
    | some first =>
      -- A label names the next instruction's place, after padding.
      let labels := (x.body.zip first).flatMap (fun e => e.1.2.2.map fun t => (t, e.2.1)) ++ x.wait.map fun t => (t, endOf first)
      match emit (fun t => (labels.find? fun e => e.1 == t).map Prod.snd) 0 x.body with
      | none => .error .instruction
      | some is =>
        let v := maxOf (is.map fun e => (named e.2).1)
        let s := maxOf (is.map fun e => (named e.2).2)
        let regs := x.shape.regs.getD (max 8 (roundUp 8 v))
        let scalars := x.shape.scalars.getD (max 2 s)
        if regs < v ∨ scalars < s then .error .register
        else if x.shape.landing.any fun l => decide (regs < l.1 + l.2) then .error .range
        else match x.head with
          | some k => if h : k < is.length then .ok (build regs scalars labels is (some (is[k]'h).1)) else .error .directive
          | none => .ok (build regs scalars labels is none)
where
  build (regs scalars : Nat) (labels : List (Text × Nat)) (is : List (Nat × Instr)) (head : Option Nat) : Kernel :=
    { name := x.name, regs, scalars, groups := x.shape.groups, gang := x.shape.gang, scratch := x.shape.scratch
      landing := x.shape.landing.elim 0 fun l => l.1 + 2 ^ 10 * l.2
      limit := x.shape.limit, lease := x.shape.lease, vat := x.shape.vat, slots := x.slots, head, labels, insns := is }

/-! ## The warning of R310 -/

/-- Latency of an operation's fixed-latency results (R139); 0 where its results are scoreboarded, a queue pop's included. -/
def fixedLat (op : Nat) (w : Insn) : Nat :=
  if (useList op w).any fun u => u.2.2.1 && match u.1 with | .q _ => true | _ => false then 0
  else match op / 16 with
  | 0 | 1 | 3 => 4
  | 4 | 6 => 5
  | 5 => if op ≤ 0x52 then 8 else 12
  | 0xC => 6
  | _ => if op = 0x22 ∨ op = 0x90 ∨ op = 0x92 ∨ op = 0x93 ∨ op = 0xB4 ∨ op = 0xB7 then 4 else 0

/-- Predicates that a word names in XMOD and writes: the carry-out of IADDC and ISUBB, the validity of SHFL (R327, R401). -/
def xmodWrites (op : Nat) (w : Insn) : List Nat :=
  let x := xmod w
  if op = 0x02 ∨ op = 0x03 then opKeys (.p (x % 16)) 1 0
  else if op = 0xC0 ∧ w.form = .c ∧ bit x 4 then opKeys (.p (x % 16)) 1 0
  else []

/-- The registers an operation reads in one lane; a COPY reads at least its first coordinate (R251). -/
def readsIn (op : Nat) (w : Insn) : List Nat := readKeys op w 1 ++ if op = 0xE3 ∧ eForm w ≠ 2 then [sKey (eCs w)] else []

/-- The registers an operation writes in one lane: each with its latency, and whether a guard may keep an earlier value. -/
def writesIn (op : Nat) (w : Insn) : List (Nat × Nat × Bool) :=
  (writeKeys op w 1 ++ xmodWrites op w).map fun k => (k, fixedLat op w, w.g != 0b01111)

/-- An instruction's STALL, the registers it reads, and those it writes. -/
def timing (i : Instr) : Nat × List Nat × List (Nat × Nat × Bool) :=
  match i with
  | .pairWord p =>
    let half := fun (c : Compact) => (readsIn c.cop.toNat (compactInsn c), writesIn c.cop.toNat (compactInsn c))
    (p.stall.toNat, (half p.first).1 ++ (half p.second).1, (half p.first).2 ++ (half p.second).2)
  | _ => match instrParts i with
    | some (op, w) => (w.stall.toNat, readsIn op w, writesIn op w)
    | none => (0, [], [])

/-- A word after which control may go elsewhere: straight-line code ends there. -/
def leaves (i : Instr) : Bool :=
  match i with
  | .pairWord _ => false
  | _ => (instrParts i).any fun e => (0x20 ≤ e.1 && e.1 ≤ 0x25) || e.1 == 0x28 || e.1 == 0xF2 || e.1 == 0xF3 || e.1 == 0xF6

/-- The offsets of consumers closer to their producer than R139 allows: `ready` holds what each register waits for, at cycle t. A lane whose
guard is false still waits for the earlier producer. A word that a label names begins a new stretch. DESIGN CHOICE (log 106). -/
def tooClose (targets : List Nat) : Nat → List (Nat × Nat) → List (Nat × Instr) → List Nat
  | _, _, [] => []
  | t, ready, (at_, i) :: rest =>
    let x := timing i
    let live := if targets.contains at_ then [] else ready
    let bad := x.2.1.any fun k => live.any fun e => e.1 == k && decide (t < e.2)
    let next := if leaves i then [] else
      x.2.2.foldl (fun acc w =>
        let kept := if w.2.2 then acc else acc.filter fun e => e.1 != w.1
        if w.2.1 = 0 then kept else (w.1, t + w.2.1) :: kept) live
    let r := tooClose targets (t + 1 + x.1) next rest
    if bad then at_ :: r else r

/-- felkin's warnings: they do not change the encoding (R310). -/
def Kernel.warnings (k : Kernel) : List Nat := tooClose (k.labels.map Prod.snd) 0 [] k.insns

/-! ## Data regions (R316, R441) -/

structure Region where
  name   : Text
  bytes  : List Byte := []
  align  : Nat := 8
  labels : List (Text × Nat) := []
  deriving DecidableEq, Repr

/-- A value of n bytes: an integer that fits, or in `.word` a floating-point literal that binary32 holds exactly. -/
def valueBytes (n : Nat) (t : Text) : Option (List Byte) :=
  (parseNum t).bind fun x => match x.int with
    | some v => if -(2 ^ (8 * n - 1) : Nat) ≤ v ∧ v < (2 ^ (8 * n) : Nat) then some (leBytes n (wrap (8 * n) v)) else none
    | none => if n = 4 then (exactCode .f32 x).map (leBytes 4) else none

/-- One line of a data region; none for a directive that is not of data. -/
def Region.line (x : Region) (l : Line) : Option (Except AsmError Region) :=
  let names := x.labels.map Prod.fst ++ l.labels
  let y := { x with labels := x.labels ++ l.labels.map fun t => (t, x.bytes.length) }
  let values := fun (n : Nat) (args : Text) => match ((splitAt ',' args).map trim).mapM (valueBytes n) with
    | some bs => Except.ok { y with bytes := y.bytes ++ bs.flatten }
    | none => .error .value
  let out : Option (Except AsmError Region) := match l.body with
    | .none => some (.ok y)
    | .word _ _ => some (.error .directive)
    | .dir name args =>
      if name == ".byte".toList then some (values 1 args)
      else if name == ".half".toList then some (values 2 args)
      else if name == ".word".toList then some (values 4 args)
      else if name == ".align".toList then
        some (match intArg args 1 4096 1 with
          | some n => if (List.range 13).any fun k => n == 2 ^ k then
              .ok { y with bytes := y.bytes ++ List.replicate (roundUp n y.bytes.length - y.bytes.length) 0, align := max y.align n }
            else .error .value
          | none => .error .value)
      else none
  if decide names.Nodup then out else some (.error .name)

/-! ## Graph directives (R317) -/

/-- A launch parameter: a number, or the address of a region. -/
inductive Param where
  | value (n : Nat)
  | region (t : Text)
  deriving DecidableEq, Repr

structure Node where
  name    : Text
  kernel  : Text
  grid    : Nat × Nat × Nat := (1, 1, 1)
  param   : Param := .value 0
  order   : Nat := 0
  swizzle : Nat := 0
  items   : Option Nat := none
  chunk   : Option Nat := none
  irq     : Bool := false
  deriving DecidableEq, Repr

/-- The fields that a `.patch` may name. -/
inductive NodeField where
  | param | grid | items | usertag
  deriving DecidableEq, Repr

structure Graph where
  nodes   : List Node := []
  edges   : List (Text × Text) := []
  patches : List (Text × Text × NodeField) := []
  deriving DecidableEq, Repr

/-- Options with their values: further grid sizes follow the first as bare numbers. -/
def optionsOf (ps : List Text) : List (Text × List Text) :=
  (ps.foldl (fun (acc : List (Text × List Text)) p => match splitAt '=' p with
    | [k, v] => (lower (trim k), [trim v]) :: acc
    | _ => match acc with
      | (k, vs) :: rest => if k == "grid".toList && p.head?.any Char.isDigit then (k, vs ++ [p]) :: rest else (lower p, []) :: acc
      | [] => [(lower p, [])]) []).reverse

/-- One option of a `.node` (R317), in the ranges of R81 and R82. -/
def Node.option (x : Node) (o : Text × List Text) : Option Node :=
  let key := fun (n : String) => o.1 == n.toList
  if key "grid" then match o.2.mapM fun t => intArg t 1 (2 ^ 21 - 1) 1 with
    | some [a] => some { x with grid := (a, 1, 1) }
    | some [a, b] => some { x with grid := (a, b, 1) }
    | some [a, b, c] => some { x with grid := (a, b, c) }
    | _ => none
  else match o.2 with
    | [] => if key "irq" then some { x with irq := true } else none
    | [v] =>
      if key "param" then match parseNum v with
        | some n => n.int.bind fun i => if -(2 ^ 63 : Nat) ≤ i ∧ i < (2 ^ 64 : Nat) then some { x with param := .value (wrap 64 i) } else none
        | none => if userName v then some { x with param := .region v } else none
      else if key "order" then
        ((["row", "col", "morton", "hilbert"] : List String).findIdx? fun n => n.toList == lower v).map fun k => { x with order := k }
      else if key "swizzle" then (intArg v 0 10 1).map fun n => { x with swizzle := n }
      else if key "items" then (intArg v 0 (2 ^ 48) 1).map fun n => { x with items := some n }
      else if key "chunk" then (intArg v 1 1024 1).map fun n => { x with chunk := some n }
      else none
    | _ => none

/-- One graph directive; none for another directive. -/
def Graph.line (g : Graph) (name args : Text) : Option (Except AsmError Graph) :=
  let ps := (splitAt ',' args).map trim
  if name == ".node".toList then
    some (match ps with
      | n :: k :: rest =>
        let os := optionsOf rest
        if !(userName n && userName k) then .error .name
        else if !decide (os.map Prod.fst).Nodup then .error .option
        else match os.foldlM Node.option { name := n, kernel := k } with
          | some x => if g.nodes.any fun y => y.name == n then .error .name else .ok { g with nodes := g.nodes ++ [x] }
          | none => .error .option
      | _ => .error .directive)
  else if name == ".edge".toList then
    some (match ps with
      | [a, b] => if userName a && userName b then .ok { g with edges := g.edges ++ [(a, b)] } else .error .name
      | _ => .error .directive)
  else if name == ".patch".toList then
    some (match ps with
      | [p, f] =>
        -- a node's name may hold points: the field follows the last
        let fld := (f.reverse.takeWhile (· != '.')).reverse
        if fld.length = f.length then .error .directive
        else
          let n := f.take (f.length - fld.length - 1)
          let field : Option NodeField :=
            (([("param", .param), ("grid", .grid), ("items", .items), ("usertag", .usertag)] : List (String × NodeField)).find? fun e =>
              e.1.toList == lower fld).map Prod.snd
          if userName p && userName n then match field with
            | some x => .ok { g with patches := g.patches ++ [(p, n, x)] }
            | none => .error .directive
          else .error .name
      | _ => .error .directive)
  else none

/-! ## A source -/

/-- What felkin makes of a source. -/
structure Object where
  kernels : List Kernel := []
  regions : List Region := []
  graph   : Graph := {}
  deriving DecidableEq, Repr

/-- The source under way: the kernel open, or the region that runs. -/
structure Source where
  obj    : Object := {}
  kernel : Option Draught := none
  region : Option Region := none
  deriving DecidableEq, Repr

/-- A data region ends (R316). -/
def Source.endRegion (x : Source) : Source :=
  match x.region with
  | some r => { x with obj := { x.obj with regions := x.obj.regions ++ [r] }, region := none }
  | none => x

/-- A name not yet given to a kernel or a region. -/
def Source.fresh (x : Source) (n : Text) : Bool :=
  userName n && !(x.obj.kernels.any fun k => k.name == n) && !(x.obj.regions.any fun r => r.name == n)

/-- A directive that stands outside kernels. -/
def Source.outer (x : Source) (l : Line) (name args : Text) : Except AsmError Source :=
  if name == ".kernel".toList then
    if !l.labels.isEmpty then .error .label
    else
      let y := x.endRegion
      if y.fresh args then .ok { y with kernel := some { name := args } } else .error .name
  else if name == ".data".toList then
    if !l.labels.isEmpty then .error .label
    else
      let y := x.endRegion
      if y.fresh args then .ok { y with region := some { name := args } } else .error .name
  else match x.obj.graph.line name args with
    | some (.ok g) => if l.labels.isEmpty then .ok { x with obj := { x.obj with graph := g } } else .error .label
    | some (.error e) => .error e
    | none => .error .directive

def Source.line (x : Source) (l : Line) : Except AsmError Source :=
  match x.kernel with
  | some d =>
    if l.body = .dir ".end".toList [] then
      match ({ d with wait := d.wait ++ l.labels } : Draught).close with
      | .ok k => .ok { x with obj := { x.obj with kernels := x.obj.kernels ++ [k] }, kernel := none }
      | .error e => .error e
    else match d.line l with
      | .ok d => .ok { x with kernel := some d }
      | .error e => .error e
  | none =>
    match x.region.bind fun r => r.line l with
    | some (.ok r) => .ok { x with region := some r }
    | some (.error e) => .error e
    | none => match l.body with
      | .none => if l.labels.isEmpty then .ok x else .error .label
      | .word _ _ => .error .directive
      | .dir name args => x.outer l name args

/-- felkin (R307–R317): a source's kernels, regions and graph, or why it is none. -/
def assemble (t : Text) : Except AsmError Object :=
  match ((linesOf t).foldlM (fun (x : Source) u => (lineOf u).bind x.line) {} : Except AsmError Source) with
  | .error e => .error e
  | .ok x => if x.kernel.isSome then .error .directive else .ok x.endRegion.obj

end Sys2Proof.Felkin
end

