-- ==== Sys2Proof/Machine/Scefold.lean ====
section
/-! DEFINITION. scefold, the linker, and the loader of its graph binaries (R314, R317–R321, R441): edges become sync words, nodes and
the markers between them become record templates with patch points, and the whole is laid out as an .sgb file. -/

namespace Sys2Proof.Felkin

open Sys2Proof Sys2Proof.Machine

/-- Why scefold links no binary (R314, R317). -/
inductive LinkError where
  | undeclared | selfEdge | repeatedEdge | cycle | noItemHead | chunkWithoutItems
  deriving DecidableEq, Repr

/-! ## Edges into sync words (R321) -/

/-- A record of the graph in the order of emission: a node by its number or a marker, the done word it adds 1 to, and the words it
waits on, each for run e or, for a source, for run e − 1. -/
structure Emitted where
  node  : Option Nat
  done  : Nat
  waits : List Nat := []
  prior : Bool := false
  deriving DecidableEq, Repr

/-- Join words from left to right until at most `keep` are left: the markers made, numbered from `next`, and the words left. -/
def joinWords (keep : Nat) : Nat → Nat → List Nat → List Emitted × List Nat
  | 0, _, ws => ([], ws)
  | n + 1, next, ws =>
    if ws.length ≤ keep then ([], ws)
    else match ws with
      | a :: b :: rest =>
        let r := joinWords keep n (next + 1) (next :: rest)
        ({ node := none, done := next, waits := [a, b] } :: r.1, r.2)
      | _ => ([], ws)

/-- Predecessors of node k in edge order; edges by node number. -/
def predsOf (es : List (Nat × Nat)) (k : Nat) : List Nat := (es.filter fun e => e.2 == k).map Prod.fst

/-- Nodes in topological order, the first declared first; shorter than n where the edges hold a cycle. -/
def topoOrder (es : List (Nat × Nat)) (n : Nat) : Nat → List Nat → List Nat
  | 0, done => done
  | m + 1, done => match (List.range n).find? fun k => !done.contains k && (predsOf es k).all done.contains with
    | some k => topoOrder es n m (done ++ [k])
    | none => done

/-- A node's record after the markers that join its predecessors. -/
def emitNode (es : List (Nat × Nat)) (acc : List Emitted × Nat) (k : Nat) : List Emitted × Nat :=
  let ps := predsOf es k
  let j := joinWords 2 ps.length acc.2 ps
  (acc.1 ++ j.1 ++ [{ node := some k, done := k, waits := j.2 }], acc.2 + j.1.length)

/-- The records of a graph of n nodes: sources wait on the final word, that of the one sink or of the join of the sinks, whose markers
come last. DESIGN CHOICE (log 107). -/
def emitAll (es : List (Nat × Nat)) (n : Nat) : List Emitted :=
  let r := (topoOrder es n n []).foldl (emitNode es) ([], n)
  let sinks := (List.range n).filter fun k => !(es.any fun e => e.1 == k)
  let j := joinWords 1 n r.2 sinks
  (r.1.map fun e => if e.waits.isEmpty then { e with waits := j.2, prior := true } else e) ++ j.1

/-! ## Templates and patch points (R319, R320) -/

/-- What the loader writes, by kind: a region's address, the run number, a parameter's value, or the index of the record. -/
inductive Patch where
  | region (name : Text)
  | run
  | param (name : Text)
  | seq
  deriving DecidableEq, Repr

/-- A patch point: of a record, or of the data section; where, what, and what is added to it. -/
structure Point where
  inData : Bool := false
  record : Nat
  off    : Nat
  what   : Patch
  addend : Int := 0
  deriving DecidableEq, Repr

/-- A region of the memory plan (R319): its kind is 0 code, 1 data, 2 sync words, 3 save area, 4 vat. -/
structure PlanItem where
  name  : Text
  kind  : Nat
  bytes : Nat
  align : Nat
  perms : Nat
  init  : Option Nat := none
  deriving DecidableEq, Repr

/-- Names of the regions that no source names: no user name begins with a point. DESIGN CHOICE (log 107). -/
def codeName : Text := ".code".toList
def syncName : Text := ".sync".toList
def saveName (n : Text) : Text := ".save.".toList ++ n
def vatName (n : Text) : Text := ".vat.".toList ++ n

/-- A kernel's entry in the code section: 32-byte aligned, its landing word before it (R313). -/
def entryAfter (pos : Nat) : Nat := roundUp 32 (pos + 8)

/-- The code section: each kernel's entry, and the bytes. Bytes between kernels are zero. DESIGN CHOICE (log 107). -/
def codeSection (ks : List Kernel) : List Nat × List Byte :=
  ks.foldl (fun acc k =>
    let e := entryAfter acc.2.length
    (acc.1 ++ [e], acc.2 ++ List.replicate (e - 8 - acc.2.length) 0 ++ leBytes 8 k.landing ++ layBytes 0 k.insns)) ([], [])

/-- Where each region's contents begin in the data section, and the section. -/
def dataSection (rs : List Region) : List Nat × List Byte :=
  rs.foldl (fun acc r =>
    let e := roundUp 8 acc.2.length
    (acc.1 ++ [e], acc.2 ++ List.replicate (e - acc.2.length) 0 ++ r.bytes)) ([], [])

/-- The fields of a kernel node's template but those of its waits and its signal (R81, R82, R313, R319). -/
def nodeTemplate (k : Kernel) (x : Node) : List FieldAt :=
  let items := x.items.getD 0
  [(0x02, 1, 1), (0x03, 1, 32 * (if k.vat.isSome then 1 else 0) + 64 * if x.irq then 1 else 0),
   (0x10, 8, match x.param with | .value n => n | .region _ => 0),
   (0x18, 8, x.grid.1 + 2 ^ 21 * x.grid.2.1 + 2 ^ 42 * x.grid.2.2),
   (0x20, 8, (k.groups - 1) + 2 ^ 4 * (k.gang - 1) + 2 ^ 8 * (k.regs / 8 - 1) + 2 ^ 16 * (k.scalars - 1) + 2 ^ 32 * (k.scratch / 256) +
      2 ^ 48 * x.order + 2 ^ 50 * x.swizzle),
   (0x28, 8, k.limit + 2 ^ 32 * k.lease), (0x50, 8, k.vat.getD 0), (0x58, 8, items),
   (0x60, 8, if items = 0 then 0 else k.head.getD 0 + 2 ^ 32 * x.chunk.getD 32)] ++
  k.slots.zipIdx.map fun e => (0xC0 + 8 * e.2, 8, e.1)

/-- The waits and the signal of a record: compare 1, and add 1. -/
def syncFields (e : Emitted) : List FieldAt :=
  (e.waits.zipIdx.map fun w => (0x68 + 0x10 * w.2, 8, 1)) ++ [(0x88, 8, 2), (0x90, 8, 1)]

/-- Bytes of a template. -/
def templateBytes (fs : List FieldAt) : List Byte :=
  (List.range 256).map fun k => ((fieldBytes fs).find? fun e => e.1 == k).elim 0 Prod.snd

/-- Bytes of a record's template; a kernel node's SAVE_SIZE is the least of its shape (R268). -/
def Emitted.template (e : Emitted) (kn : Option (Kernel × Node)) : List Byte :=
  match kn with
  | none => templateBytes ([(0x02, 1, 1), (0x03, 1, 1)] ++ syncFields e)
  | some (k, x) =>
    let fs := nodeTemplate k x ++ syncFields e
    templateBytes (fs ++ [(0x40, 8, minSave (parseRecord (templateBytes fs)))])

/-- Patch points of the r-th record (R320). -/
def Emitted.points (e : Emitted) (r : Nat) (kn : Option (Kernel × Node × Nat)) (ps : List (Text × NodeField)) : List Point :=
  [{ record := r, off := 0x00, what := .seq }] ++
  (match kn with
    | none => []
    | some (k, x, entry) =>
      [{ record := r, off := 0x08, what := .region codeName, addend := entry }, { record := r, off := 0x38, what := .region (saveName x.name) }] ++
      (if k.vat.isSome then [{ record := r, off := 0x48, what := .region (vatName x.name) }] else []) ++
      (match x.param with | .region t => [{ record := r, off := 0x10, what := .region t }] | .value _ => []) ++
      ps.map fun p => { record := r, what := .param p.1, off := match p.2 with | .param => 0x10 | .grid => 0x18 | .items => 0x58 | .usertag => 0x98 }) ++
  (e.waits.zipIdx.flatMap fun w =>
    [{ record := r, off := 0x68 + 0x10 * w.2, what := .region syncName, addend := 8 * w.1 },
     { record := r, off := 0x70 + 0x10 * w.2, what := .run, addend := if e.prior then -1 else 0 }]) ++
  [{ record := r, off := 0x88, what := .region syncName, addend := 8 * e.done }]

/-! ## Linking (R314, R317) -/

/-- A linked graph. -/
structure Linked where
  records : List Emitted
  names   : List (Option Text)
  temps   : List (List Byte)
  sets    : List (List Nat)
  setOf   : List Nat
  edges   : List (Nat × Nat)
  points  : List Point
  plan    : List PlanItem
  code    : List Byte
  data    : List Byte
  symbols : List (Text × Nat × Nat)
  deriving DecidableEq, Repr

/-- An edge by node numbers. -/
def edgeOf (ns : List Node) (e : Text × Text) : Option (Nat × Nat) :=
  (ns.findIdx? fun n => n.name == e.1).bind fun a => (ns.findIdx? fun n => n.name == e.2).map fun b => (a, b)

/-- The kernel of a node, with its place. -/
def kernelOf (ks : List Kernel) (n : Node) : Option (Kernel × Nat) :=
  (ks.zipIdx.find? fun k => k.1.name == n.kernel)

/-- The first link error of an object, by kind. -/
def linkError (o : Object) : Option LinkError :=
  let ns := o.graph.nodes
  let es := o.graph.edges
  let region := fun (t : Text) => o.regions.any fun r => r.name == t
  if (ns.any fun n => (kernelOf o.kernels n).isNone || match n.param with | .region t => !region t | .value _ => false) ||
      (es.any fun e => (edgeOf ns e).isNone) || (o.graph.patches.any fun p => !(ns.any fun n => n.name == p.2.1)) then some .undeclared
  else if es.any fun e => e.1 == e.2 then some .selfEdge
  else if !decide es.Nodup then some .repeatedEdge
  else if (topoOrder (es.filterMap (edgeOf ns)) ns.length ns.length []).length ≠ ns.length then some .cycle
  else if ns.any fun n => n.items.isNone && n.chunk.isSome then some .chunkWithoutItems
  else if ns.any fun n => n.items.any (fun k => k != 0) && !((kernelOf o.kernels n).any fun k => k.1.head.isSome) then some .noItemHead
  else none

/-- The memory plan (R319, R441): code, the data regions, the sync words, and each node's save area and vat. The order, names and
alignments are a DESIGN CHOICE (log 107). -/
def planOf (o : Object) (code : List Byte) (starts : List Nat) (words : Nat) (sizes : List (Node × Nat)) : List PlanItem :=
  [{ name := codeName, kind := 0, bytes := code.length, align := 12, perms := 5, init := some 0 }] ++
  ((o.regions.zip starts).map fun r => { name := r.1.name, kind := 1, bytes := r.1.bytes.length, align := Nat.log2 r.1.align, perms := 3, init := some r.2 }) ++
  [{ name := syncName, kind := 2, bytes := 8 * words, align := 12, perms := 3 }] ++
  (sizes.map fun e => { name := saveName e.1.name, kind := 3, bytes := e.2, align := 12, perms := 3 }) ++
  o.graph.nodes.flatMap fun n => match (kernelOf o.kernels n).bind fun k => k.1.vat with
    | some v => [{ name := vatName n.name, kind := 4, bytes := v, align := 16, perms := 3 }]
    | none => []

/-- scefold: an object linked, or why not. -/
def link (o : Object) : Except LinkError Linked :=
  match linkError o with
  | some e => .error e
  | none =>
    let ns := o.graph.nodes
    let es := o.graph.edges.filterMap (edgeOf ns)
    let rs := emitAll es ns.length
    let code := codeSection o.kernels
    let data := dataSection o.regions
    let nodeAt := fun (e : Emitted) => e.node.bind fun k => ns[k]?
    let unit := fun (e : Emitted) => (nodeAt e).bind fun n => (kernelOf o.kernels n).map fun k => (k.1, n, code.1.getD k.2 0)
    let sets := (o.kernels.map fun k => k.slots).dedup
    let temps := rs.map fun e => e.template ((unit e).map fun u => (u.1, u.2.1))
    let place := fun (k : Nat) => (rs.findIdx? fun e => e.node == some k).getD 0
    .ok {
      records := rs, temps, sets, code := code.2, data := data.2
      names := rs.map fun e => (nodeAt e).map fun n => n.name
      setOf := rs.map fun e => ((unit e).bind fun u => sets.findIdx? (· == u.1.slots)).getD 0
      edges := es.map fun e => (place e.1, place e.2)
      points := rs.zipIdx.flatMap fun e =>
        e.1.points e.2 (unit e.1) ((o.graph.patches.filter fun p => (nodeAt e.1).any fun n => n.name == p.2.1).map fun p => (p.1, p.2.2))
      plan := planOf o code.2 data.1 rs.length ((rs.zip temps).filterMap fun e => (nodeAt e.1).map fun n => (n, recField e.2 0x40 8))
      symbols := (o.kernels.zip code.1).map (fun k => (k.1.name, 1, k.2)) ++
        (o.regions.zip data.1).flatMap fun r => (r.1.name, 2, r.2) :: r.1.labels.map fun l => (l.1, 2, r.2 + l.2) }

/-! ## The file (R318, R319) -/

/-- The strings section: each name once, ended by a zero byte. DESIGN CHOICE (log 107). -/
def stringBytes (ts : List Text) : List Byte := ts.flatMap fun t => t.map (fun c => BitVec.ofNat 8 c.toNat) ++ [0]

/-- Offset of a string. -/
def stringAt : List Text → Text → Nat
  | [], _ => 0
  | t :: ts, u => if t == u then 0 else t.length + 1 + stringAt ts u

/-- Every name of a linked graph, once. A marker is named by the empty string. -/
def Linked.strings (l : Linked) : List Text :=
  ([] :: l.names.filterMap id ++ l.plan.map (·.name) ++ l.symbols.map Prod.fst ++
    l.points.filterMap fun p => match p.what with | .param t => some t | _ => none).dedup

/-- Two's complement in n bytes. -/
def signedBytes (n : Nat) (x : Int) : List Byte := leBytes n (wrap (8 * n) x)

def Point.kind (p : Point) : Nat := match p.what with | .region _ => 0 | .run => 1 | .param _ => 2 | .seq => 3

/-- The sections in order of type: type, entries, bytes. -/
def Linked.sections (l : Linked) : List (Nat × Nat × List Byte) :=
  let ss := l.strings
  let str := fun (t : Text) => leBytes 4 (stringAt ss t)
  [(1, l.symbols.countP fun e => e.2.1 == 1, l.code), (2, l.plan.countP fun p => p.kind == 1, l.data),
   (3, l.records.length, (l.records.zipIdx.flatMap fun e =>
      l.temps.getD e.2 [] ++ str ((l.names.getD e.2 none).getD []) ++ leBytes 4 (if e.1.node.isSome then 0 else 1) ++ leBytes 4 (l.setOf.getD e.2 0) ++
        leBytes 4 e.1.done ++ List.replicate 48 0)),
   (4, l.edges.length, l.edges.flatMap fun e => leBytes 4 e.1 ++ leBytes 4 e.2),
   (5, l.points.length, l.points.flatMap fun p =>
      leBytes 4 (if p.inData then 1 else 0) ++ leBytes 4 p.record ++ leBytes 8 p.off ++ leBytes 4 p.kind ++
        (match p.what with | .region t => str t | .param t => str t | _ => leBytes 4 0) ++ signedBytes 8 p.addend),
   (6, l.plan.length, l.plan.flatMap fun p =>
      str p.name ++ leBytes 4 p.kind ++ leBytes 8 p.bytes ++ leBytes 4 p.align ++ leBytes 4 p.perms ++ leBytes 8 (p.init.getD (2 ^ 64 - 1))),
   (7, l.sets.length, l.sets.flatMap fun s => s.flatMap (leBytes 8)),
   (8, l.symbols.length, l.symbols.flatMap fun e => str e.1 ++ leBytes 4 e.2.1 ++ leBytes 8 e.2.2),
   (9, ss.length, stringBytes ss)]

/-- Lay sections out from an offset on: each with its offset, and the bytes, gaps zero. -/
def laySections : Nat → List (Nat × Nat × List Byte) → List (Nat × Nat × Nat × Nat) × List Byte
  | _, [] => ([], [])
  | pos, (ty, n, bs) :: rest =>
    let at_ := roundUp (if ty = 1 then 256 else 8) pos
    let r := laySections (at_ + bs.length) rest
    ((ty, at_, bs.length, n) :: r.1, List.replicate (at_ - pos) 0 ++ bs ++ r.2)

/-- The .sgb file. -/
def Linked.file (l : Linked) : List Byte :=
  let ss := l.sections
  let tab := 64 + 32 * ss.length
  let lay := laySections tab ss
  leBytes 4 0x42464353 ++ leBytes 4 1 ++ leBytes 4 ss.length ++ leBytes 4 0 ++ leBytes 8 64 ++ leBytes 8 (tab + lay.2.length) ++
    List.replicate 32 0 ++ (lay.1.flatMap fun e => leBytes 4 e.1 ++ leBytes 4 0 ++ leBytes 8 e.2.1 ++ leBytes 8 e.2.2.1 ++ leBytes 8 e.2.2.2) ++ lay.2

/-! ## The loader (R318, R320) -/

/-- A section as its table entry gives it: type, reserved field, offset, bytes, entries. -/
structure SectionAt where
  ty    : Nat
  zero  : Nat
  off   : Nat
  bytes : Nat
  count : Nat
  deriving DecidableEq, Repr

def sectionsOf (f : List Byte) : List SectionAt :=
  (List.range (recField f 0x08 4)).map fun k =>
    let e := recField f 0x10 8 + 32 * k
    { ty := recField f e 4, zero := recField f (e + 4) 4, off := recField f (e + 8) 8, bytes := recField f (e + 16) 8, count := recField f (e + 24) 8 }

/-- A loader rejects an unknown type, a type that appears twice, a nonzero reserved field, a section beyond LENGTH, and what does not
begin as an .sgb file of version 1 (R318). The first and the last two are a DESIGN CHOICE (log 107). -/
def rejects (f : List Byte) : Bool :=
  let ss := sectionsOf f
  recField f 0 4 != 0x42464353 || recField f 4 4 != 1 || recField f 0x0C 4 != 0 || (List.range 4).any (fun k => recField f (0x20 + 8 * k) 8 != 0) ||
  (ss.any fun s => s.ty == 0 || decide (9 < s.ty) || s.zero != 0 || decide (recField f 0x18 8 < s.off + s.bytes)) || !decide (ss.map (·.ty)).Nodup ||
  (ss.any fun s => s.ty == 3 && (List.range s.count).any fun k => (List.range 6).any fun j => recField f (s.off + 320 * k + 0x110 + 8 * j) 8 != 0)

/-- What a load knows: where its regions lie, the run, the parameters, and the index of the record in its channel. -/
structure Loading where
  regions : List (Text × Nat) := []
  run     : Nat := 1
  params  : List (Text × Nat) := []
  index   : Nat := 0
  deriving DecidableEq, Repr

/-- Put n bytes of a value at an offset. -/
def putField (bs : List Byte) (off n v : Nat) : List Byte := bs.take off ++ leBytes n v ++ bs.drop (off + n)

/-- Fill one patch point of a record or of the data (R320). In a WAIT or SIGNAL address field bits 2:0 of the template are kept. -/
def fillPoint (x : Loading) (bs : List Byte) (p : Point) : List Byte :=
  let of := fun (ts : List (Text × Nat)) (t : Text) => ((ts.find? fun e => e.1 == t).elim 0 Prod.snd : Nat)
  let sum := fun (v : Nat) => wrap 64 ((v : Int) + p.addend)
  match p.what with
  | .region t =>
    let a := sum (of x.regions t)
    putField bs p.off 8 (if !p.inData && (p.off == 0x68 || p.off == 0x78 || p.off == 0x88) then a / 8 * 8 + recField bs p.off 8 % 8 else a)
  | .run => putField bs p.off 8 (sum x.run)
  | .param t => putField bs p.off 8 (sum (of x.params t))
  | .seq => putField bs p.off 2 (sum x.index % 2 ^ 16)

/-- The r-th record as the loader writes it to its channel's ring. -/
def Linked.load (l : Linked) (x : Loading) (r : Nat) : List Byte :=
  (l.points.filter fun p => !p.inData && p.record == r).foldl (fillPoint x) (l.temps.getD r [])

/-- A string of a file. -/
def stringIn (f : List Byte) (off : Nat) : Text := ((f.drop off).takeWhile (· != 0)).map fun b => Char.ofNat b.toNat

/-- The patch points of a file. -/
def pointsIn (f : List Byte) : List Point :=
  let ss := sectionsOf f
  let names := ((ss.find? fun s => s.ty == 9).elim 0 (·.off) : Nat)
  ((ss.find? fun s => s.ty == 5).elim [] fun s => (List.range s.count).filterMap fun k =>
    let e := s.off + 32 * k
    let t := stringIn f (names + recField f (e + 0x14) 4)
    if 1 < recField f e 4 then none
    else some {
      inData := recField f e 4 == 1, record := recField f (e + 4) 4, off := recField f (e + 8) 8, addend := (BitVec.ofNat 64 (recField f (e + 0x18) 8)).toInt
      what := match recField f (e + 0x10) 4 with | 0 => .region t | 1 => .run | 2 => .param t | _ => .seq })

/-- The r-th record of a file as the loader writes it; none where it rejects the file or the file has no such record. -/
def loadRecord (f : List Byte) (x : Loading) (r : Nat) : Option (List Byte) :=
  if rejects f then none
  else ((sectionsOf f).find? fun s => s.ty == 3).bind fun s =>
    if r < s.count then
      some (((pointsIn f).filter fun p => !p.inData && p.record == r).foldl (fillPoint x) ((f.drop (s.off + 320 * r)).take 256))
    else none

/-- The data of a file as the loader leaves it, its patch points filled; none where it rejects the file. -/
def loadData (f : List Byte) (x : Loading) : Option (List Byte) :=
  if rejects f then none
  else ((sectionsOf f).find? fun s => s.ty == 2).map fun s =>
    ((pointsIn f).filter fun p => p.inData).foldl (fillPoint x) ((f.drop s.off).take s.bytes)

end Sys2Proof.Felkin
end

