-- ==== Sys2Proof/Tests/Slice0.lean ====
section
/-! SUPPORT. Tests: words of the manual's examples and tables decode to their instructions, ill-formed instructions are refused, and
the hypotheses of every statement are met somewhere. -/

set_option Elab.async false

namespace Sys2Proof.Tests

open Sys2Proof Sys2Proof.Machine

/-! ## Decoding: words written out from the manual's encodings, bit 0 the least significant bit of word 0 -/

/-- IADD.i32 V5, V6, V7 ^2; (P3) ISUB.i32 V10, V10, 1 ^3y; IADDC.b32 V10, V2, V6, P1, P2; ISUBB.b32 V9, V1, V2, P3, P15; IMUL.n32 V3, V4, V5; IMULH.i64 V2:V3, V4:V5, V6:V7; IMAD.wide.i32 V2:V3, V5, V7, V8:V9; IABS.sat.i32 V3, V4. -/
theorem test_decode_integer_1 :
    decodeTableWord 64 0x06000E0600578008 = some (.iadd { stall := 2, d := 5, a := 6, b := 7, ty := 6 }) ∧
    decodeTableWord 64 0x06C0020A00A180CC = some (.isub { stall := 3, y := 1, g := 3, d := 0xa, a := 0xa, b := 1, bk := 3, ty := 6 }) ∧
    decodeTableWord 96 0x0000142102000C0200A78101 = some (.iaddc { form := .c, d := 0xa, a := 2, b := 6, ty := 2, ext := 0x1421 }) ∧
    decodeTableWord 96 0x00007C230200040100978181 = some (.isubb { form := .c, d := 9, a := 1, b := 2, ty := 2, ext := 0x7c23 }) ∧
    decodeTableWord 64 0x0A000A0400378200 = some (.imul { d := 3, a := 4, b := 5, ty := 0xa }) ∧
    decodeTableWord 64 0x07000C0400278280 = some (.imulh { d := 2, a := 4, b := 6, ty := 7 }) ∧
    decodeTableWord 96 0x0000000826000E0500278301 = some (.imad { form := .c, d := 2, a := 5, b := 7, ty := 6, mod := 2, ext := 0x8 }) ∧
    decodeTableWord 64 0x1600000400378380 = some (.iabs { d := 3, a := 4, ty := 6, mod := 1 }) := by decide

/-- INEG.b32 V3, V4; IMIN.i32 V3, V4, -1; IMAX.n32 V3, V4, S5; DP4.us.i32 V3, V4, V5; LEA.x4.sx.b64 V8:V9, V3, V10:V11; MOV.b64 V6:V7, Q2; MOVI.b32 V1, 0x12345678. -/
theorem test_decode_integer_2 :
    decodeTableWord 64 0x0200000400378400 = some (.ineg { d := 3, a := 4, ty := 2 }) ∧
    decodeTableWord 64 0x06C3FE0400378480 = some (.imin { d := 3, a := 4, b := 0x1ff, bk := 3, ty := 6 }) ∧
    decodeTableWord 64 0x0A400A0400378500 = some (.imax { d := 3, a := 4, b := 5, bk := 1, ty := 0xa }) ∧
    decodeTableWord 64 0x06000A0420378580 = some (.dp4 { sub := 1, d := 3, a := 4, b := 5, ty := 6 }) ∧
    decodeTableWord 64 0x1300140340878600 = some (.lea { sub := 2, d := 8, a := 3, b := 0xa, ty := 3, mod := 1 }) ∧
    decodeTableWord 64 0x0320000200678680 = some (.mov { d := 6, a := 2, ak := 2, ty := 3 }) ∧
    decodeTableWord 96 0x123456780200000000178701 = some (.movi { form := .i, d := 1, ty := 2, ext := 0x12345678 }) := by decide

/-- SHL.b64 V2:V3, V4:V5, V7; SHR.n32 V2, V3, 5; SHRA.wrap.i32 V4, V4, 8; FSHF.r.wrap.b32 V1, V2, V3, V4; AND.b32 V1, V2, 0xFF00FF00; OR.b64 V2:V3, V4:V5, V6:V7; XOR.b32 V1, V2, V3; NOT.b32 V1, V2. -/
theorem test_decode_bit_1 :
    decodeTableWord 64 0x03000E0400278800 = some (.shl { d := 2, a := 4, b := 7, ty := 3 }) ∧
    decodeTableWord 64 0x0AC00A0300278880 = some (.shr { d := 2, a := 3, b := 5, bk := 3, ty := 0xa }) ∧
    decodeTableWord 64 0x16C0100400478900 = some (.shra { d := 4, a := 4, b := 8, bk := 3, ty := 6, mod := 1 }) ∧
    decodeTableWord 96 0x000000041200060220178981 = some (.fshf { form := .c, sub := 1, d := 1, a := 2, b := 3, ty := 2, mod := 1, ext := 0x4 }) ∧
    decodeTableWord 96 0xFF00FF000200000200178A01 = some (.and { form := .i, d := 1, a := 2, ty := 2, ext := 0xff00ff00 }) ∧
    decodeTableWord 64 0x03000C0400278A80 = some (.or { d := 2, a := 4, b := 6, ty := 3 }) ∧
    decodeTableWord 64 0x0200060200178B00 = some (.xor { d := 1, a := 2, b := 3, ty := 2 }) ∧
    decodeTableWord 64 0x0200000200178B80 = some (.not { d := 1, a := 2, ty := 2 }) := by decide

/-- BFUNC.b32 V5, V6, V7, V8, 0x96; POPC.b64 V1, V2:V3; CLZ.b32 S1, S2; BREV.b32 V1, V2; BFX.n32 V4, V5, 8, 12; BFI.b32 V1, V2, V3, V4. -/
theorem test_decode_bit_2 :
    decodeTableWord 96 0x0004B00802000E0600578C01 = some (.bfunc { form := .c, d := 5, a := 6, b := 7, ty := 2, ext := 0x4b008 }) ∧
    decodeTableWord 64 0x0300000200178C80 = some (.popc { d := 1, a := 2, ty := 3 }) ∧
    decodeTableWord 64 0x0214000200178D00 = some (.clz { d := 1, dk := 1, a := 2, ak := 1, ty := 2 }) ∧
    decodeTableWord 64 0x0200000200178D80 = some (.brev { d := 1, a := 2, ty := 2 }) ∧
    decodeTableWord 96 0x0000060C0AC0100500478E01 = some (.bfx { form := .c, d := 4, a := 5, b := 8, bk := 3, ty := 0xa, ext := 0x60c }) ∧
    decodeTableWord 96 0x000000040200060200178E81 = some (.bfi { form := .c, d := 1, a := 2, b := 3, ty := 2, ext := 0x4 }) := by decide

/-- (P1) BRA loop ^1; BRX V30:V31; CALL V30:V31, sub; RET V30:V31; EXIT; REJOIN S7; YIELD; NOP ^15. -/
theorem test_decode_control_1 :
    decodeTableWord 96 0xFFFFFFC00000000000009005 = some (.bra { form := .i, stall := 1, g := 1, ext := 0xffffffc0 }) ∧
    decodeTableWord 64 0x0000001E00079080 = some (.brx { a := 0x1e }) ∧
    decodeTableWord 96 0x000002000000000001E79101 = some (.call { form := .i, d := 0x1e, ext := 0x200 }) ∧
    decodeTableWord 64 0x0000001E00079180 = some (.ret { a := 0x1e }) ∧
    decodeTableWord 64 0x0000000000079200 = some (.exit {}) ∧
    decodeTableWord 64 0x0010000700079280 = some (.rejoin { a := 7, ak := 1 }) ∧
    decodeTableWord 64 0x0000000000079300 = some (.yield {}) ∧
    decodeTableWord 64 0x00000000000793BC = some (.nop { stall := 0xf }) := by decide

/-- IPOP V2. -/
theorem test_decode_control_2 :
    decodeTableWord 64 0x0000000000279400 = some (.ipop { d := 2 }) := by decide

/-- ICMP.lt.i32 P3, V7, 100; FCMP.nan.f32 P1, V2, V2; PLOP P4, P1, P2, P15, 0x80; SEL.b32 V9, V1, V2, P3. -/
theorem test_decode_compare :
    decodeTableWord 64 0x06C8C80742379800 = some (.icmp { sub := 2, d := 0x23, dk := 2, a := 7, b := 0x64, bk := 3, ty := 6 }) ∧
    decodeTableWord 64 0x00080402E2179880 = some (.fcmp { sub := 7, d := 0x21, dk := 2, a := 2, b := 2 }) ∧
    decodeTableWord 96 0x0004042F00A8442102479901 = some (.plop { form := .c, d := 0x24, dk := 2, a := 0x21, ak := 2, b := 0x22, bk := 2, ext := 0x4042f }) ∧
    decodeTableWord 96 0x000004230200040100979981 = some (.sel { form := .c, d := 9, a := 1, b := 2, ty := 2, ext := 0x423 }) := by decide

/-- FADD.rtz.sat.f32 V12, V13, V14; FSUB.f16 V1, V2, V3; FMUL.f32 V8, V9, 1.5; FFMA.f32 V8, V9, V10, V11 ^4; FMIN.nan.f32 V1, V2, V3; FMAX.bf16x2 V1, V2, V3; FCLASS.e5m2 V1, V2. -/
theorem test_decode_float :
    decodeTableWord 64 0x50001C0D00C7A000 = some (.fadd { d := 0xc, a := 0xd, b := 0xe, mod := 5 }) ∧
    decodeTableWord 64 0x010006020017A080 = some (.fsub { d := 1, a := 2, b := 3, ty := 1 }) ∧
    decodeTableWord 96 0x3FC00000000000090087A101 = some (.fmul { form := .i, d := 8, a := 9, ext := 0x3fc00000 }) ∧
    decodeTableWord 96 0x0000000B000014090087A191 = some (.ffma { form := .c, stall := 4, d := 8, a := 9, b := 0xa, ext := 0xb }) ∧
    decodeTableWord 64 0x000006022017A200 = some (.fmin { sub := 1, d := 1, a := 2, b := 3 }) ∧
    decodeTableWord 64 0x050006020017A280 = some (.fmax { d := 1, a := 2, b := 3, ty := 5 }) ∧
    decodeTableWord 64 0x0B0000020017A300 = some (.fclass { d := 1, a := 2, ty := 0xb }) := by decide

/-- DADD.f64 V2:V3, V4:V5, V6:V7; DMUL.rup.f64 V2:V3, V4:V5, V6:V7; DFMA.f64 V8:V9, V10:V11, V12:V13, V14:V15; FRCP.f32 V1, V2; FRSQ.f32 V3, V4 ^11; FSQRT.f32 V1, V2; FEX2.f16 V1, V2; FLG2.f32 V1, V2. -/
theorem test_decode_double_and_special_1 :
    decodeTableWord 64 0x03000C040027A800 = some (.dadd { d := 2, a := 4, b := 6, ty := 3 }) ∧
    decodeTableWord 64 0x33000C040027A880 = some (.dmul { d := 2, a := 4, b := 6, ty := 3, mod := 3 }) ∧
    decodeTableWord 96 0x0000000E0300180A0087A901 = some (.dfma { form := .c, d := 8, a := 0xa, b := 0xc, ty := 3, ext := 0xe }) ∧
    decodeTableWord 64 0x000000020017AC00 = some (.frcp { d := 1, a := 2 }) ∧
    decodeTableWord 64 0x000000040037ACAC = some (.frsq { stall := 0xb, d := 3, a := 4 }) ∧
    decodeTableWord 64 0x000000020017AD00 = some (.fsqrt { d := 1, a := 2 }) ∧
    decodeTableWord 64 0x010000020017AD80 = some (.fex2 { d := 1, a := 2, ty := 1 }) ∧
    decodeTableWord 64 0x000000020017AE00 = some (.flg2 { d := 1, a := 2 }) := by decide

/-- FSIN.f32 V1, V2; FCOS.f32 V1, V2; FTANH.f32 V1, V2. -/
theorem test_decode_double_and_special_2 :
    decodeTableWord 64 0x000000020017AE80 = some (.fsin { d := 1, a := 2 }) ∧
    decodeTableWord 64 0x000000020017AF00 = some (.fcos { d := 1, a := 2 }) ∧
    decodeTableWord 64 0x000000020017AF80 = some (.ftanh { d := 1, a := 2 }) := by decide

/-- CVT.s2.enc.x4 V20, V12; CVTI.f2i.rtz.fp32.i32 V5, V6; PACK.ssat.b16 V1, V2, V3; UNPK.i8 V7, V8, 3; SCALE.s0.dec.x1 V9, V20, S3, V30; FRND.fp64 V2:V3, V4:V5; FADD.sat.e4m3x4 V4, V5, V6; FSUB.kt8x4 V1, V2, V3. -/
theorem test_decode_convert_and_packed_1 :
    decodeTableWord 64 0x0200000C4147B000 = some (.cvt { sub := 2, d := 0x14, a := 0xc, ty := 2 }) ∧
    decodeTableWord 64 0x160000060057B080 = some (.cvti { d := 5, a := 6, ty := 6, mod := 1 }) ∧
    decodeTableWord 64 0x010006022017B100 = some (.pack { sub := 1, d := 1, a := 2, b := 3, ty := 1 }) ∧
    decodeTableWord 64 0x04C006080077B180 = some (.unpk { d := 7, a := 8, b := 3, bk := 3, ty := 4 }) ∧
    decodeTableWord 96 0x0000001E104006140097B201 = some (.scale { form := .c, d := 9, a := 0x14, b := 3, bk := 1, mod := 1, ext := 0x1e }) ∧
    decodeTableWord 64 0xC00000040027B280 = some (.frnd { d := 2, a := 4, mod := 0xc }) ∧
    decodeTableWord 64 0x47000C050047B400 = some (.faddPacked8 { d := 4, a := 5, b := 6, ty := 7, mod := 4 }) ∧
    decodeTableWord 64 0x060006020017B480 = some (.fsubPacked8 { d := 1, a := 2, b := 3, ty := 6 }) := by decide

/-- FMUL.e5m2x4 V1, V2, V3; FFMA.e4m3x4 V1, V2, V3, V4; FMIN.kt8x4 V1, V2, V3; FMAX.nan.e4m3x4 V1, V2, V3. -/
theorem test_decode_convert_and_packed_2 :
    decodeTableWord 64 0x080006020017B500 = some (.fmulPacked8 { d := 1, a := 2, b := 3, ty := 8 }) ∧
    decodeTableWord 96 0x00000004070006020017B581 = some (.ffmaPacked8 { form := .c, d := 1, a := 2, b := 3, ty := 7, ext := 0x4 }) ∧
    decodeTableWord 64 0x060006020017B600 = some (.fminPacked8 { d := 1, a := 2, b := 3, ty := 6 }) ∧
    decodeTableWord 64 0x070006022017B680 = some (.fmaxPacked8 { sub := 1, d := 1, a := 2, b := 3, ty := 7 }) := by decide

/-- LD.acq.dev.b32 V20, [V8:V9+0x100], lim=256, gsrc=stride; LDS.b32 V12, [V2+0x40], lim=16, gsrc=faded; LDC.b32 V7, [S2+0x40], lim=32; LDA.b64 V20:V21, [V3+0x200]; PREF.line [V8:V9+0x400]; PTEST.wr P2, [V8:V9]. -/
theorem test_decode_load :
    decodeTableWord 128 0x00000000010002E6020000080147B802 = some (.ld { form := .m, d := 0x14, a := 8, ty := 2, ext := 0x10002e6 }) ∧
    decodeTableWord 128 0x00000000004000120200000200C7B882 = some (.lds { form := .m, d := 0xc, a := 2, ty := 2, ext := 0x400012 }) ∧
    decodeTableWord 128 0x0000000000400003021000020077B902 = some (.ldc { form := .m, d := 7, a := 2, ak := 1, ty := 2, ext := 0x400003 }) ∧
    decodeTableWord 128 0x0000000002000000030000030147B982 = some (.lda { form := .m, d := 0x14, a := 3, ty := 3, ext := 0x2000000 }) ∧
    decodeTableWord 128 0x0000000004000000000000082007BA02 = some (.pref { form := .m, sub := 1, a := 8, ext := 0x4000000 }) ∧
    decodeTableWord 128 0x0000000000000000000800082227BA82 = some (.ptest { form := .m, sub := 1, d := 0x22, dk := 2, a := 8 }) := by decide

/-- ST.rel.dev.b32 [V8:V9-0x20], V3; STS.b16 [S3+0x6], -2; STA.b32 [V4+0x10], V7; CWB [S4], S5; CINV [V8:V9], 255. -/
theorem test_decode_store :
    decodeTableWord 128 0x000000FFFFE004C0020006080007C002 = some (.st { form := .m, a := 8, b := 3, ty := 2, ext := 0xffffe004c0 }) ∧
    decodeTableWord 128 0x000000000006000001D3FC030007C082 = some (.sts { form := .m, a := 3, ak := 1, b := 0x1fe, bk := 3, ty := 1, ext := 0x60000 }) ∧
    decodeTableWord 128 0x000000000010000002000E040007C102 = some (.sta { form := .m, a := 4, b := 7, ty := 2, ext := 0x100000 }) ∧
    decodeTableWord 128 0x000000000000000000500A040007C182 = some (.cwb { form := .m, a := 4, ak := 1, b := 5, bk := 1 }) ∧
    decodeTableWord 128 0x000000000000000000C1FE080007C202 = some (.cinv { form := .m, a := 8, b := 0xff, bk := 3 }) := by decide

/-- GTEST P1, V4; DEMAND.q P2, V4; ACCEPT V4; GMARK V4. -/
theorem test_decode_guess :
    decodeTableWord 64 0x000800040217C800 = some (.gtest { d := 0x21, dk := 2, a := 4 }) ∧
    decodeTableWord 64 0x008044002047C880 = some (.demand { sub := 1, d := 4, b := 0x22, bk := 2 }) ∧
    decodeTableWord 64 0x000000000047C900 = some (.accept { d := 4 }) ∧
    decodeTableWord 64 0x000000000047C980 = some (.gmark { d := 4 }) := by decide

/-- ATOM.add.i32 V4, [V8:V9+0x10], V5; RED.add.rel.gng.f32 [V8:V9], V3. -/
theorem test_decode_atomic :
    decodeTableWord 128 0x000000000010000006000A080047D002 = some (.atom { form := .m, d := 4, a := 8, b := 5, ty := 6, ext := 0x100000 }) ∧
    decodeTableWord 128 0x0000000000000480000006082007D082 = some (.red { form := .m, sub := 1, a := 8, b := 3, ext := 0x480 }) := by decide

/-- FENCE.rel.dev; BARI 2; BARV V6, 3; BARW 3, V6; BART P1, 3, V6; BOINIT.count.blk 3, 1; SLEEP.rel S5; SLEEP.abs V2:V3. -/
theorem test_decode_barrier_1 :
    decodeTableWord 64 0x300000004007D800 = some (.fence { sub := 2, mod := 3 }) ∧
    decodeTableWord 64 0x003000020007D880 = some (.bari { a := 2, ak := 3 }) ∧
    decodeTableWord 64 0x003000030067D900 = some (.barv { d := 6, a := 3, ak := 3 }) ∧
    decodeTableWord 64 0x00300C030007D980 = some (.barw { a := 3, ak := 3, b := 6 }) ∧
    decodeTableWord 64 0x00380C030217DA00 = some (.bart { d := 0x21, dk := 2, a := 3, ak := 3, b := 6 }) ∧
    decodeTableWord 64 0x10F002034007DA80 = some (.boinit { sub := 2, a := 3, ak := 3, b := 1, bk := 3, mod := 1 }) ∧
    decodeTableWord 64 0x001000050007DB00 = some (.sleepRel { a := 5, ak := 1 }) ∧
    decodeTableWord 64 0x000000022007DB00 = some (.sleepAbs { sub := 1, a := 2 }) := by decide

/-- CLK.ct.b64 S6; CLK.cyc.b32 V1. -/
theorem test_decode_barrier_2 :
    decodeTableWord 64 0x030400000067DB80 = some (.clkCt { d := 6, dk := 1, ty := 3 }) ∧
    decodeTableWord 64 0x020000002017DB80 = some (.clkCyc { sub := 1, d := 1, ty := 2 }) := by decide

/-- SHFL.rel.b32 V2, V1, 1; VOTE.mask.b32 S7, P3, -1; MATCH.rank.b64 V1, V2:V3, -1; RDX.add.f32 V6, V5, -1; SCAN.add.i32 V2, V3, S4; ELECT P1, -1; QSWP.h.b32 V8, V9; QBC.b32 V8, V9, 2. -/
theorem test_decode_cross_lane :
    decodeTableWord 64 0x02C002014027E000 = some (.shfl { sub := 2, d := 2, a := 1, b := 1, bk := 3, ty := 2 }) ∧
    decodeTableWord 64 0x02E7FE236077E080 = some (.vote { sub := 3, d := 7, dk := 1, a := 0x23, ak := 2, b := 0x1ff, bk := 3, ty := 2 }) ∧
    decodeTableWord 64 0x03C3FE024017E100 = some (.matchLanes { sub := 2, d := 1, a := 2, b := 0x1ff, bk := 3, ty := 3 }) ∧
    decodeTableWord 64 0x00C3FE05C067E180 = some (.rdx { sub := 6, d := 6, a := 5, b := 0x1ff, bk := 3 }) ∧
    decodeTableWord 64 0x064008030027E200 = some (.scan { d := 2, a := 3, b := 4, bk := 1, ty := 6 }) ∧
    decodeTableWord 64 0x00CBFE000217E280 = some (.elect { d := 0x21, dk := 2, b := 0x1ff, bk := 3 }) ∧
    decodeTableWord 64 0x020000090087E300 = some (.qswp { d := 8, a := 9, ty := 2 }) ∧
    decodeTableWord 64 0x02C004090087E380 = some (.qbc { d := 8, a := 9, b := 2, bk := 3, ty := 2 }) := by decide

/-- HOPEN V10, P2, fail; HOPEN.g V11, P3, V4, fail; HSET V10; HLEAVE; (P10) HRESOLVE.confirm P12, V20; HRESOLVE.refute P4, V10; HQUERY.anc P5, S2, V10. -/
theorem test_decode_hypothesis :
    decodeTableWord 96 0x000000802000000000A7E801 = some (.hopen { form := .i, d := 0xa, mod := 2, ext := 0x80 }) ∧
    decodeTableWord 96 0x000000803000000420B7E801 = some (.hopenG { form := .i, sub := 1, d := 0xb, a := 4, mod := 3, ext := 0x80 }) ∧
    decodeTableWord 64 0x0000000A0007E880 = some (.hset { a := 0xa }) ∧
    decodeTableWord 64 0x000000000007E900 = some (.hleave {}) ∧
    decodeTableWord 64 0x0008001402C56980 = some (.hresolveConfirm { g := 0xa, d := 0x2c, dk := 2, a := 0x14 }) ∧
    decodeTableWord 64 0x0008000A2247E980 = some (.hresolveRefute { sub := 1, d := 0x24, dk := 2, a := 0xa }) ∧
    decodeTableWord 64 0x001814022257EA00 = some (.hquery { sub := 1, d := 0x25, dk := 2, a := 2, ak := 1, b := 0xa }) := by decide

/-- MMA V2; TKPASS.claim P1, T0; TKPASS.mat T0; TKPASS.vec T0, 3; TKPASS.free T3; TKTEST.nf P2, T1; COPY.tload S10, S2, S20, tag=5; COPY.tstore S10, S2, S20, tag=5. -/
theorem test_decode_engine_1 :
    decodeTableWord 64 0x000000020007F000 = some (.mma { a := 2 }) ∧
    decodeTableWord 64 0x002800100217F080 = some (.tkpassClaim { d := 0x21, dk := 2, a := 0x10, ak := 2 }) ∧
    decodeTableWord 64 0x002000102007F080 = some (.tkpassMat { sub := 1, a := 0x10, ak := 2 }) ∧
    decodeTableWord 64 0x00E006104007F080 = some (.tkpassVec { sub := 2, a := 0x10, ak := 2, b := 3, bk := 3 }) ∧
    decodeTableWord 64 0x002000136007F080 = some (.tkpassFree { sub := 3, a := 0x13, ak := 2 }) ∧
    decodeTableWord 64 0x002800112227F100 = some (.tktest { sub := 1, d := 0x22, dk := 2, a := 0x11, ak := 2 }) ∧
    decodeTableWord 128 0x0000000140000005005014020007F182 = some (.copyTload { form := .e, a := 2, ak := 1, b := 0xa, bk := 1, ext := 0x140000005 }) ∧
    decodeTableWord 128 0x0000000141000005005014020007F182 = some (.copyTstore { form := .e, a := 2, ak := 1, b := 0xa, bk := 1, ext := 0x141000005 }) := by decide

/-- COPY.lin V20:V21, V22:V23, S6, tag=9; COPY.mcast V12, V13, S20, mask=0b1111, ready=2, tag=7; QTRY.b64 V6:V7, P3, Q2; QCNT S5, Q4. -/
theorem test_decode_engine_2 :
    decodeTableWord 128 0x0002060002000009000028160007F182 = some (.copyLin { form := .e, a := 0x16, b := 0x14, ext := 0x2060002000009 }) ∧
    decodeTableWord 128 0x00000001432F00070000180D0007F182 = some (.copyMcast { form := .e, a := 0xd, b := 0xc, ext := 0x1432f0007 }) ∧
    decodeTableWord 64 0x302000022067F200 = some (.qtry { sub := 1, d := 6, a := 2, ak := 2, mod := 3 }) ∧
    decodeTableWord 64 0x002400040057F280 = some (.qcnt { d := 5, dk := 1, a := 4, ak := 2 }) := by decide

/-- SRD S4, LCORE; SWR MC_READY, 4; TRAP 0x2A; RTE; RTE.next; TLBINV.page S2; TLBINV.all; WAITEV V5, S6, S7. -/
theorem test_decode_system_1 :
    decodeTableWord 64 0x0034001B0047F800 = some (.srd { d := 4, dk := 1, a := 0x1b, ak := 3 }) ∧
    decodeTableWord 64 0x00F008300007F880 = some (.swr { a := 0x30, ak := 3, b := 4, bk := 3 }) ∧
    decodeTableWord 64 0x0030002A0007F900 = some (.trap { a := 0x2a, ak := 3 }) ∧
    decodeTableWord 64 0x000000000007F980 = some (.rte {}) ∧
    decodeTableWord 64 0x000000002007F980 = some (.rteNext { sub := 1 }) ∧
    decodeTableWord 64 0x001000020007FA00 = some (.tlbinvPage { a := 2, ak := 1 }) ∧
    decodeTableWord 64 0x000000002007FA00 = some (.tlbinvAll { sub := 1 }) ∧
    decodeTableWord 64 0x00500E060057FA80 = some (.waitev { d := 5, a := 6, ak := 1, b := 7, bk := 1 }) := by decide

/-- BKPT; PERF.start 1, 6; PERF.stop 3; PERF.clear 0; BBLOG S3, S4. -/
theorem test_decode_system_2 :
    decodeTableWord 64 0x000000000007FB00 = some (.bkpt {}) ∧
    decodeTableWord 64 0x00F00C010007FB80 = some (.perfStart { a := 1, ak := 3, b := 6, bk := 3 }) ∧
    decodeTableWord 64 0x003000032007FB80 = some (.perfStop { sub := 1, a := 3, ak := 3 }) ∧
    decodeTableWord 64 0x003000004007FB80 = some (.perfClear { sub := 2, ak := 3 }) ∧
    decodeTableWord 64 0x005008030007FC00 = some (.bblog { a := 3, ak := 1, b := 4, bk := 1 }) := by decide

/-- FMUL.f32 V4, V5, V6 || MOV.b32 V3, V8 ^4. -/
theorem test_decode_pair :
    decodeTableWord 128 0x0000010001003786800180A047A17F12 = some (.pairWord {
      stall := 4, first := { cop := 0x42, d := 4, a := 5, b := 6 }, second := { cop := 0x0D, d := 3, a := 8, ty := 2 } }) := by decide

/-! ## Ill-formed instructions: one for each check, which that check refuses -/

/-- A word whose form its OP does not list; a 9-bit and a 32-bit immediate at once; bits above the length; SUB, TYPE, MOD and XMOD
out of the row's range; SUB of another constructor. -/
theorem test_refused_words :
    firstFail (wfChecks (.iadd { form := .m, ty := 6 })) = some .wrongForm ∧
    firstFail (wfChecks (.iadd { form := .i, b := 3, ty := 6 })) = some .srcB ∧
    firstFail (wfChecks (.iadd { ext := 1, ty := 6 })) = some .ext ∧
    firstFail (wfChecks (.iadd { sub := 1, ty := 6 })) = some .sub ∧
    firstFail (wfChecks (.iadd { ty := 0 })) = some .type ∧
    firstFail (wfChecks (.iadd { ty := 2, mod := 1 })) = some .mod ∧
    firstFail (wfChecks (.iaddc { form := .c, ty := 2, ext := 0x8423 })) = some .xmod ∧
    firstFail (wfChecks (.rte { sub := 1 })) = some .sub ∧
    firstFail (wfChecks (.copyLin { form := .e })) = some .sub := by decide

/-- An odd pair as destination and as source; a predicate as arithmetic source; an immediate as carry-in; a V source of a scalar
form; a displacement off a word; a system register the table does not list; a word of a device event. -/
theorem test_refused_operands :
    firstFail (wfChecks (.iadd { d := 5, ty := 7 })) = some .dest ∧
    firstFail (wfChecks (.iadd { a := 5, ty := 7 })) = some .srcA ∧
    firstFail (wfChecks (.iadd { b := 0x21, bk := 2, ty := 6 })) = some .srcB ∧
    firstFail (wfChecks (.iaddc { form := .c, ty := 2, ext := 0x600 })) = some .srcC ∧
    firstFail (wfChecks (.iadd { dk := 1, a := 4, ty := 6 })) = some .scalar ∧
    firstFail (wfChecks (.bra { form := .i, ext := 2 })) = some .ext ∧
    firstFail (wfChecks (.srd { a := 0x008, ak := 3 })) = some .regNumber ∧
    firstFail (wfChecks (.gangPlace 0)) = some .notEncodable := by decide

/-- Pair words that fail each check of R301, and one that passes all (R302's example). -/
theorem test_refused_pairs :
    firstFail (wfChecks (.pairWord { first := { cop := 0x06, ty := 6 }, second := { cop := 0x00, d := 1, ty := 6 } })) = some .pairOpcode ∧
    firstFail (wfChecks (.pairWord { first := { cop := 0x00, ty := 7 }, second := { cop := 0x00, d := 1, ty := 6 } })) = some .pairField ∧
    firstFail (wfChecks (.pairWord { first := { cop := 0x00, ty := 6 }, second := { cop := 0x00, d := 4, ty := 6 } })) = some .pairDest ∧
    firstFail (wfChecks (.pairWord { first := { cop := 0x00, a := 0, b := 4, ty := 6 }, second := { cop := 0x00, d := 1, a := 8, b := 1, ty := 6 } }))
      = some .pairRead ∧
    firstFail (wfChecks (.pairWord { first := { cop := 0x58, d := 4, a := 5 }, second := { cop := 0x5B, d := 6 + 1, a := 7 } })) = some .pairClass ∧
    wellFormed (.pairWord { first := { cop := 0x43, d := 0, a := 1, b := 2 }, second := { cop := 0x43, d := 7, a := 5, b := 6 } }) = true := by
  decide

/-- Bytes that are no instruction: too few, a pad word, LEN 3 in any other word, an OP of the map's empty cells, a pair word of LEN 1,
one of another OP's COP, one with a spare bit. -/
theorem test_refused_bytes :
    decode [0, 0, 0] = .error .truncated ∧ decode (leBytes 4 0) = .error .truncated ∧ decode (leBytes 8 3) = .error .padWord ∧
    decode (leBytes 8 7) = .error .strayPad ∧ decode (leBytes 8 (0x0F * 2 ^ 7)) = .error .unassigned ∧
    decode (leBytes 12 (0xFE * 2 ^ 7 + 1)) = .error .pairLength ∧ decode (leBytes 16 (0xFE * 2 ^ 7 + 2 + 6 * 2 ^ 15)) = .error .pairOpcode ∧
    decode (leBytes 16 (0xFE * 2 ^ 7 + 2 + 2 ^ 111)) = .error .pairSpare := by decide

/-! ## Hypotheses are met: small states -/

/-- The group's issue at its issue set, where nothing stands against it. -/
def issueOf (op : Nat) (w : Insn) (bump : State → Iss → Mask) (s : State) : Option Iss :=
  match issOf s (formBytes w.form) with
  | none => none
  | some j =>
    let i := withGuard s j w.g
    if notReady s j.b j.g = false ∧ ((lanesOf j.iss).any fun L => ((s.group j.b j.g).lane L).refuted.isSome) = false ∧
      stage1a s j [{ op := op, w := w }] = none ∧ scoreHeld s j [{ op := op, w := w }] = false ∧ acqHeld s j = false ∧
      stage1b s i [{ op := op, w := w }] (bump s i) = none then some i else none

theorem issues_of {op : Nat} {w : Insn} {bump : State → Iss → Mask} {s : State} {i : Iss} (h : issueOf op w bump s = some i) :
    Issues op w bump s i := by
  unfold issueOf at h
  split at h
  · cases h
  · rename_i j hj
    dsimp only at h
    split at h
    · rename_i c
      cases h
      exact ⟨j, hj, c.1, c.2.1, c.2.2.1, c.2.2.2.1, c.2.2.2.2.1, rfl, c.2.2.2.2.2⟩
    · cases h

/-- The word issues in s, with c of what it names. -/
def met (op : Nat) (w : Insn) (bump : State → Iss → Mask) (s : State) (c : Iss → Bool) : Bool :=
  match issueOf op w bump s with
  | some i => c i
  | none => false

/-- A word issues in s under a condition: what Runs asks. -/
def Met (op : Nat) (w : Insn) (bump : State → Iss → Mask) (s : State) (c : State → Iss → Prop) : Prop := ∃ i, Issues op w bump s i ∧ c s i

theorem of_met {op : Nat} {w : Insn} {bump : State → Iss → Mask} {s : State} {c : State → Iss → Prop} [∀ i, Decidable (c s i)]
    (h : met op w bump s (fun i => decide (c s i)) = true) : Met op w bump s c := by
  unfold met at h
  split at h
  · rename_i i hi; exact ⟨i, issues_of hi, of_decide_eq_true h⟩
  · cases h

/-- No executing lane has a guessed guard or operand (Plain). -/
abbrev plain (ops : List (Opd × Nat)) (s : State) (i : Iss) : Prop := escapes s i true ops = 0

/-- A group of two live lanes at 0x8000. -/
def pairOfLanes : Group := { exists_ := true, live := 3, lanes := [(0, { lpc := 0x8000 }), (1, { lpc := 0x8000 })] }

/-- One block on core 0 with one group, in a context of partition 0 whose record allows every register. -/
def small (q : Group) : State :=
  { State.reset with
    blocks := [(0, { resident := true, groups := [(0, q)] })]
    ctxs := [(0, { live := true, record := { regs := 512, scalars := 128, scratch := 4096, limit := 1024, lease := 1024, ngrp := 1, nblk := 1 } })]
    parts := [(0, { set := true, coreMask := 1, granN := 1, root := 0x1000 })] }

/-- What ComputesAs asks of a word and a state. -/
def computesMet (e : Nat × Insn) : Bool :=
  met e.1 e.2 noBump (small pairOfLanes) fun i => decide (isS (opD e.2) = true → escapes (small pairOfLanes) i true [] = 0)

theorem computes_met (l : List (Nat × Insn)) (h : l.all computesMet = true) :
    ∀ e ∈ l, ∃ s i, Issues e.1 e.2 noBump s i ∧ (isS (opD e.2) = true → escapes s i true [] = 0) := fun e he =>
  ⟨_, of_met (c := fun s i => isS (opD e.2) = true → escapes s i true [] = 0) (List.all_eq_true.1 h e he)⟩

/-- IntegerArithmetic, CarryChains, Shifts, BitFields, BitsMovesAndCompares: every word they name, in the V, S, I and C forms. -/
theorem hyps_register_words : ∀ e ∈ ([(0x00, { ty := 6 }), (0x00, { d := 4, dk := 1, a := 4, ak := 1, b := 2, bk := 1, ty := 7 }),
    (0x01, { form := .i, ty := 10, mod := 1 }), (0x04, { ty := 7 }), (0x05, { ty := 11 }), (0x06, { form := .c, ty := 6, mod := 3 }),
    (0x07, { ty := 6 }), (0x08, { ty := 3 }), (0x09, { ty := 6 }), (0x0A, { ty := 10 }), (0x0B, { ty := 6 }), (0x0B, { form := .c, ty := 6, sub := 3 }),
    (0x0C, { ty := 3, a := 3, mod := 1, sub := 7 }), (0x0C, { form := .c, ty := 2 }),
    (0x02, { form := .c, ty := 2, ext := 0x7C2F }), (0x03, { form := .c, ty := 3, ext := 0x0C21 }),
    (0x10, { ty := 3, b := 32, bk := 3 }), (0x11, { ty := 10, b := 31, bk := 3, mod := 1 }), (0x12, { ty := 6, b := 255, bk := 3 }),
    (0x13, { form := .c, ty := 2, ext := 4 }), (0x14, { ty := 2 }), (0x15, { ty := 3 }), (0x16, { ty := 2 }), (0x17, { ty := 2 }),
    (0x18, { form := .c, ty := 2, ext := 0x4B008 }), (0x19, { ty := 3 }), (0x1A, { ty := 2 }), (0x1B, { ty := 2 }),
    (0x1C, { ty := 6, b := 255, bk := 3 }), (0x1C, { form := .c, ty := 10, ext := 0x620 }), (0x1D, { form := .c, ty := 2, ext := 4 }),
    (0x0D, { ty := 2 }), (0x0E, { form := .i, ty := 2, ext := 0xFFFFFFFF }), (0x30, { ty := 6, d := 0x2F, dk := 2 }),
    (0x31, { d := 0x20, dk := 2, sub := 7, mod := 3 }), (0x32, { form := .c, d := 0x2F, dk := 2, a := 0x2F, ak := 2, b := 0x20, bk := 2, ext := 0x4042F }),
    (0x33, { form := .c, ty := 2, ext := 0x423 })] : List (Nat × Insn)),
    ∃ s i, Issues e.1 e.2 noBump s i ∧ (isS (opD e.2) = true → escapes s i true [] = 0) := computes_met _ (by decide +kernel)

/-- What RoundsAs asks besides, of a word that tests for non-finite results: V2 and V3 hold 1.0 in lane 0. -/
def ones : Group := { pairOfLanes with regs := [(vKey 2 0, 0x3F800000), (vKey 3 0, 0x3F800000)] }

/-- FloatArithmetic and FloatSelectionAndSpecialFunctions: every word they name; FADD also under .tnf with finite sums, at rtz. -/
theorem hyps_float_words : ∀ e ∈ ([(0x40, { a := 2, b := 3, mod := 9 }), (0x40, { d := 4, dk := 1, a := 4, ak := 1, b := 2, bk := 1 }), (0x41, { ty := 1 }),
    (0x42, { ty := 4 }), (0x43, { form := .c, ty := 5 }), (0x50, { ty := 3 }), (0x51, { ty := 3, mod := 3 }), (0x52, { form := .c, ty := 3 }),
    (0x68, { ty := 6 }), (0x69, { ty := 7 }), (0x6A, { ty := 8, mod := 4 }), (0x6B, { form := .c, ty := 7 }),
    (0x44, { sub := 1 }), (0x45, { ty := 2 }), (0x6C, { ty := 6 }), (0x6D, { ty := 7 }), (0x46, { ty := 11 }),
    (0x58, {}), (0x59, {}), (0x5A, {}), (0x5B, { ty := 1 }), (0x5C, {}), (0x5D, {}), (0x5E, {}), (0x5F, {})] : List (Nat × Insn)),
    ∃ s i, Issues e.1 e.2 noBump s i ∧ (isS (opD e.2) = true → escapes s i true [] = 0) := computes_met _ (by decide +kernel)

/-- FADD.tnf of 1.0 and 1.0 is finite in every executing lane; of the largest FP32 number with itself it is not (NonFiniteTrap). -/
theorem hyps_tnf :
    (Met 0x40 { d := 5, a := 2, b := 3, mod := 8 } noBump (small ones) fun s i => ∀ L, L < 32 → inMask i.ex L = true →
      (arith2 addOp .f32 0 false (srcA .f32 { a := 2 } s i L) (srcB .f32 { b := 3 } s i L)).2 = false) ∧
    Met 0x40 { d := 5, a := 2, b := 2, mod := 8 } noBump (small { pairOfLanes with regs := [(vKey 2 1, 0x7F7FFFFF)] }) fun s i =>
      ∃ L, L < 32 ∧ inMask i.ex L = true ∧ (arith2 addOp .f32 0 false (srcA .f32 { a := 2 } s i L) (srcB .f32 { b := 2 } s i L)).2 = true :=
  ⟨of_met (by decide +kernel), of_met (by decide +kernel)⟩

/-- Conversions: each form through slot 0 (whose descriptor is 0), CVTI, FRND, PACK in both forms and UNPK. -/
theorem hyps_conversions : ∀ e ∈ ([(0x60, {}), (0x60, { mod := 1 }), (0x64, {}), (0x64, { form := .c, mod := 1 }), (0x64, { mod := 1 }), (0x64, { mod := 2 }),
    (0x61, { ty := 6, mod := 1 }), (0x61, { sub := 7, mod := 3 }), (0x65, { mod := 12 }), (0x62, { ty := 1, sub := 2 }), (0x62, { form := .c }),
    (0x63, { ty := 4, b := 3, bk := 3 })] : List (Nat × Insn)),
    ∃ s i, Issues e.1 e.2 noBump s i ∧ (isS (opD e.2) = true → escapes s i true [] = 0) := computes_met _ (by decide +kernel)

theorem hyps_slot_tnf : slotTnf (slotD (small pairOfLanes) 0 0) = false := by decide +kernel

/-- The small machine with page tables that map 0x8000, whose page begins with the bytes given. -/
def mapped (bytes : List Byte) (q : Group) : State := tinyMemory bytes (small q)

/-- With a record of one's own. -/
def withRecord (s : State) (f : Record → Record) : State := modCtx s 0 fun c => { c with record := f c.record }

/-- Transfers: every executing lane's target is open. -/
abbrev opens (tgt : State → Iss → Nat → Nat) (ops : List (Opd × Nat)) (s : State) (i : Iss) : Prop :=
  ∀ L, L < 32 → inMask i.ex L = true → (inMask i.gg L = true → underBound s i L = true) ∧
    (ops.all fun o => !guessOf s i o.1 o.2 L) = true ∧ tgt s i L < 2 ^ 48 ∧ tgt s i L % 4 = 0

/-- V0:V1 holds a target of lane 0, V0:V1 of lane 1 another. -/
def targets (a b : Nat) : Group :=
  { pairOfLanes with regs := [(vKey 0 0, w32 a), (vKey 0 1, w32 b), (vKey 1 0, w32 (a / 2 ^ 32)), (vKey 1 1, w32 (b / 2 ^ 32))] }

/-- Transfers: BRA and CALL backward and to the word itself, BRX and RET to the last word of the address space; and BRX with a target at
2^48 and one off a word, each with a valid one beside it. -/
theorem hyps_transfers :
    (Met 0x20 { form := .i, ext := 0xFFFFFFC0 } (backward (relTarget { form := .i, ext := 0xFFFFFFC0 })) (small pairOfLanes)
      (opens (fun _ i _ => (((i.pc : Int) + sext 32 0xFFFFFFC0) % (2 ^ 64 : Nat)).toNat) [])) ∧
    (Met 0x22 { form := .i, d := 30 } (backward (relTarget { form := .i, d := 30 })) (small pairOfLanes)
      (opens (fun _ i _ => (((i.pc : Int) + sext 32 0) % (2 ^ 64 : Nat)).toNat) [])) ∧
    (Met 0x21 {} (backward (regTarget {})) (small (targets 0xFFFFFFFFFFFC 0x8000)) (opens (fun s i L => srcA .b64 {} s i L) [(.v 0, 2)])) ∧
    (Met 0x23 {} (backward (regTarget {})) (small (targets 0 4)) (opens (fun s i L => srcA .b64 {} s i L) [(.v 0, 2)])) ∧
    (Met 0x21 {} (backward (regTarget {})) (small (targets (2 ^ 48) 4)) fun s i => plain [(.v 0, 2)] s i ∧ (s.group i.b i.g).trapMode = false ∧
      ∃ L, L < 32 ∧ inMask i.ex L = true ∧ 2 ^ 48 ≤ srcA .b64 {} s i L) ∧
    (Met 0x21 {} (backward (regTarget {})) (small (targets 4 2)) fun s i => plain [(.v 0, 2)] s i ∧ (s.group i.b i.g).trapMode = false ∧
      ∃ L, L < 32 ∧ inMask i.ex L = true ∧ srcA .b64 {} s i L % 4 ≠ 0) :=
  ⟨of_met (by decide +kernel), of_met (by decide +kernel), of_met (by decide +kernel), of_met (by decide +kernel), of_met (by decide +kernel),
    of_met (by decide +kernel)⟩

/-- LanesStayWaitAndLeave: EXIT, YIELD, NOP and REJOIN with no guess; IPOP with an item for each lane, with none left, and with more to
come. -/
theorem hyps_lanes :
    Met 0x24 {} noBump (small pairOfLanes) (plain []) ∧ Met 0x26 {} noBump (small pairOfLanes) (fun _ _ => True) ∧
    Met 0x27 { y := 1 } noBump (small pairOfLanes) (fun _ _ => True) ∧ Met 0x25 { a := 0x1FF, ak := 3 } noBump (small pairOfLanes) (plain []) ∧
    (Met 0x28 {} ipopServed { small pairOfLanes with cores := [(0, { items := [7, 8], itemCtx := some 0 })] } fun s i =>
      plain [] s i ∧ (lanesOf i.ex).length ≤ (itemsOf s i.b).length) ∧
    (Met 0x28 {} ipopServed (small pairOfLanes) fun s i => plain [] s i ∧ itemsOf s i.b = [] ∧ exhausted s i.b = true) ∧
    Met 0x28 {} ipopServed (withRecord (small pairOfLanes) fun r => { r with itemCount := 9 }) fun s i =>
      plain [] s i ∧ itemsOf s i.b = [] ∧ exhausted s i.b = false :=
  ⟨of_met (by decide +kernel), of_met (by decide +kernel), of_met (by decide +kernel), of_met (by decide +kernel), of_met (by decide +kernel),
    of_met (by decide +kernel), of_met (by decide +kernel)⟩

/-- A trap table on the mapped page: entry k holds the doubleword e, entry 0 the doubleword d. -/
def tabled (d e k : Nat) (q : Group) : State :=
  withRecord (putNum (mapped (leBytes 8 d) q) (0x8000 + 8 * k) 8 e) fun r => { r with trapTable := 0x8000 }

/-- TrapEntry, TrapTable and UnhandledTrap: a handler in the cause's own entry, in the default entry, in neither; no table; a table that
cannot be read; a LAP below its range; trap mode. -/
theorem hyps_traps :
    handlerOf (tabled 0x9001 0x9105 24 pairOfLanes) 0 24 = .ok (some 0x9104) ∧ handlerOf (tabled 0x9001 0x9104 24 pairOfLanes) 0 24 = .ok (some 0x9000) ∧
    handlerOf (tabled 0x9000 0x9104 24 pairOfLanes) 0 24 = .ok none ∧ handlerOf (small pairOfLanes) 0 24 = .ok none ∧
    handlerOf (withRecord (small pairOfLanes) fun r => { r with trapTable := 0x8000 }) 0 24 = .error (xfaultCode .notPresent) ∧
    ((tabled 0x9001 0x9105 24 pairOfLanes).group 0 0).trapMode = false ∧
    (∀ L, L < 32 → inMask (3 : Mask) L = true → (((tabled 0x9001 0x9105 24 pairOfLanes).group 0 0).lane L).lap + 1 < 2 ^ 32) ∧
    ((tabled 0x9001 0x9105 24 pairOfLanes).context 0).stop = none ∧
    (xlate (tabled 0x9001 0x9104 31 pairOfLanes) 0 0 (0x8000 + 8 * 31) .read false).isOk = true ∧
    ((small { pairOfLanes with trapMode := true }).group 0 0).trapMode = true := by decide +kernel

/-- SoftwareTrapsAndReturns: TRAP and BKPT with a handler, and in no lane; RTE and RTE.next before and at the last lane of the handler
set, over code that can be read. -/
theorem hyps_software_traps :
    (∀ e ∈ ([(0xF2, 0x18), (0xF6, 0x19)] : List (Nat × Nat)), ∃ h, Met e.1 { ak := 3, a := 0x1FF } noBump (tabled 0x9001 0x9105 24 pairOfLanes) fun s i =>
      plain [] s i ∧ i.ex ≠ 0 ∧ (s.group i.b i.g).trapMode = false ∧ handlerOf s i.b e.2 = .ok (some h) ∧
        ∀ L, L < 32 → inMask i.ex L = true → (laneAt s i L).lap + 1 < 2 ^ 32) ∧
    (Met 0xF2 { g := 0x1F, ak := 3 } noBump (small pairOfLanes) fun _ i => i.ex = 0) ∧ (Met 0xF6 { g := 0x1F } noBump (small pairOfLanes) fun _ i => i.ex = 0) ∧
    (∀ n ∈ ([0, 1] : List Nat), Met 0xF3 { sub := BitVec.ofNat 3 n } (rteBump (n == 1))
      (small { pairOfLanes with trapMode := true, handlerSet := 3, lanes := [(0, { lpc := 0x8000 }), (1, { lpc := 0x8008 })] }) fun s i =>
      plain [] s i ∧ (s.group i.b i.g).handlerSet &&& (s.group i.b i.g).live &&& ~~~((s.group i.b i.g).rteHeld ||| i.ex) ≠ 0) ∧
    (∀ n ∈ ([0, 1] : List Nat), Met 0xF3 { sub := BitVec.ofNat 3 n } (rteBump (n == 1))
      (mapped [] { pairOfLanes with trapMode := true, handlerSet := 3, trapPc := 0x8000, faultMask := 1 }) fun s i =>
      plain [] s i ∧ (s.group i.b i.g).handlerSet &&& (s.group i.b i.g).live &&& ~~~((s.group i.b i.g).rteHeld ||| i.ex) = 0 ∧
        peekWord s i.b (s.group i.b i.g).trapPc.toNat = some 0) := by
  refine ⟨?_, of_met (by decide +kernel), of_met (by decide +kernel), ?_, ?_⟩
  · intro e he
    simp only [List.mem_cons, List.not_mem_nil, or_false] at he
    rcases he with rfl | rfl
    · exact ⟨0x9104, of_met (by decide +kernel)⟩
    · exact ⟨0x9000, of_met (by decide +kernel)⟩
  · intro n hn
    simp only [List.mem_cons, List.not_mem_nil, or_false] at hn
    rcases hn with rfl | rfl <;> exact of_met (by decide +kernel)
  · intro n hn
    simp only [List.mem_cons, List.not_mem_nil, or_false] at hn
    rcases hn with rfl | rfl <;> exact of_met (by decide +kernel)

/-- PrivilegeTrap: what ReachesPrivilege asks, of RTE, RTE.next, TLBINV in both forms and SWR of TRAP_PC and FAULT_MASK. -/
def reaches (op : Nat) (w : Insn) (s : State) : Bool :=
  match issOf s (formBytes w.form) with
  | none => false
  | some j => decide (notReady s j.b j.g = false ∧ ((lanesOf j.iss).any fun L => ((s.group j.b j.g).lane L).refuted.isSome) = false ∧
      stage1a s j [{ op := op, w := w }] = none ∧ scoreHeld s j [{ op := op, w := w }] = false ∧ acqHeld s j = false ∧
      (recordOf s j.b).stallCheck = false ∧ (s.group j.b j.g).trapMode = false)

theorem reaches_privilege {op : Nat} {w : Insn} {s : State} (h : reaches op w s = true) : ∃ i, ReachesPrivilege op w s i ∧ (s.group i.b i.g).trapMode = false := by
  unfold reaches at h
  split at h
  · cases h
  · rename_i j hj
    have c := of_decide_eq_true h
    exact ⟨_, ⟨j, hj, c.1, c.2.1, c.2.2.1, c.2.2.2.1, c.2.2.2.2.1, rfl, c.2.2.2.2.2.1⟩, c.2.2.2.2.2.2⟩

theorem hyps_privilege : ∀ e ∈ ([(0xF3, {}), (0xF3, { sub := 1 }), (0xF4, {}), (0xF4, { sub := 1 }), (0xF1, { a := 0x021, ak := 3 }),
    (0xF1, { a := 0x022, ak := 3 })] : List (Nat × Insn)),
    ∃ s i, ReachesPrivilege e.1 e.2 s i ∧ (s.group i.b i.g).trapMode = false := fun e he =>
  ⟨_, reaches_privilege (List.all_eq_true.1 (show ([(0xF3, {}), (0xF3, { sub := 1 }), (0xF4, {}), (0xF4, { sub := 1 }), (0xF1, { a := 0x021, ak := 3 }),
    (0xF1, { a := 0x022, ak := 3 })] : List (Nat × Insn)).all (fun e => reaches e.1 e.2 (small pairOfLanes)) = true by decide +kernel) e he)⟩

/-- SystemRegisters: SRD of a register of each kind, CLK in both forms; SWR of the three registers, two of them in trap mode. -/
theorem hyps_system_reads : ∀ e ∈ (([0x000, 0x001, 0x002, 0x003, 0x004, 0x005, 0x006, 0x007, 0x010, 0x011, 0x012, 0x013, 0x014, 0x015, 0x016, 0x017, 0x018,
    0x019, 0x01A, 0x01B, 0x01C, 0x01D, 0x020, 0x021, 0x022, 0x023, 0x030, 0x040, 0x041, 0x042, 0x043, 0x050, 0x051, 0x052, 0x053].map fun n =>
      (0xF0, { a := BitVec.ofNat 9 n, ak := 3 })) ++ [(0xB7, { ty := 3 }), (0xB7, { ty := 2, sub := 1 })] : List (Nat × Insn)),
    ∃ s i, Issues e.1 e.2 noBump s i ∧ (isS (opD e.2) = true → escapes s i true [] = 0) := computes_met _ (by decide +kernel)

theorem hyps_system_writes :
    (Met 0xF1 { a := 0x021, ak := 3 } noBump (small { pairOfLanes with trapMode := true, handlerSet := 3 }) fun s i =>
      plain [(.v 0, 2)] s i ∧ (lanesOf i.ex).head? = some 0) ∧
    (Met 0xF1 { a := 0x022, ak := 3 } noBump (small { pairOfLanes with trapMode := true, handlerSet := 3 }) fun s i =>
      plain [(.v 0, 1)] s i ∧ (lanesOf i.ex).head? = some 0) ∧
    Met 0xF1 { a := 0x030, ak := 3, b := 4, bk := 3 } noBump (small pairOfLanes) fun s i => plain [(.imm 4, 1)] s i ∧ (lanesOf i.ex).head? = some 0 :=
  ⟨of_met (by decide +kernel), of_met (by decide +kernel), of_met (by decide +kernel)⟩

/-- What each executing lane's access finds, as Passes takes it. -/
abbrev found (op : Nat) (w : Insn) (acc : Acc) (s : State) (i : Iss) (L : Nat) : Nat × Tgt × Xl :=
  match tryLane op w (accBytes op w) acc s i L with
  | .ok a t x => (a, t, x)
  | _ => (0, .fab 0 0, {})

/-- Passes, of what each lane finds. -/
abbrev passes (op : Nat) (w : Insn) (acc : Acc) (wr : Bool) (s : State) (i : Iss) : Prop :=
  (∀ L, L < 32 → inMask i.ex L = true → tryLane op w (accBytes op w) acc s i L =
    .ok (found op w acc s i L).1 (found op w acc s i L).2.1 (found op w acc s i L).2.2) ∧
  stage3 s i (tries op w (accBytes op w) acc s i) wr = none ∧ anyAway s i (tries op w (accBytes op w) acc s i) = false

/-- Every executing lane's place is of a kind, given by its offset. -/
abbrev offsetOf : Tgt → Nat
  | .scr _ o | .acc _ o => o
  | _ => 0

/-- Lane 0 has V8:V9 = a, lane 1 has b; V2 of lane 1 is the last word of the scratchpad's first line. -/
def bases (a b : Nat) : Group :=
  { pairOfLanes with regs := [(vKey 2 1, 252), (vKey 8 0, w32 a), (vKey 8 1, w32 b), (vKey 9 0, w32 (a / 2 ^ 32)), (vKey 9 1, w32 (b / 2 ^ 32))] }

def claimed (q : Group) : State := { small q with cores := [(0, { tiles := [(0, { token := .vec 0 })] })] }

/-- Two loads' words: by V2 (a narrow base) and by V8:V9. -/
abbrev by2 : Insn := { form := .m, a := 2, ty := 2 }
abbrev by8 : Insn := { form := .m, a := 8, ty := 2 }

/-- Every executing lane's place is its own scratchpad's, lines present; a place of the accumulators of core 0; a place elsewhere. -/
abbrev inScratch (op : Nat) (w : Insn) (acc : Acc) (s : State) (i : Iss) : Prop := ∀ L, L < 32 → inMask i.ex L = true →
  (found op w acc s i L).2.1 = .scr i.b (offsetOf (found op w acc s i L).2.1) ∧ linePresent s i.b (offsetOf (found op w acc s i L).2.1) = true
abbrev inAcc (op : Nat) (w : Insn) (acc : Acc) (s : State) (i : Iss) : Prop := ∀ L, L < 32 → inMask i.ex L = true →
  (found op w acc s i L).2.1 = .acc 0 (offsetOf (found op w acc s i L).2.1)
abbrev away (op : Nat) (w : Insn) (acc : Acc) (s : State) (i : Iss) : Prop := ∀ L, L < 32 → inMask i.ex L = true →
  isLocal i (found op w acc s i L).2.1 = false ∧ isAbsent s (found op w acc s i L).2.1 = false

/-- No lane finds its sector in the core. -/
abbrev misses (op : Nat) (w : Insn) (s : State) (i : Iss) : Prop := ∀ L, L < 32 → inMask i.ex L = true →
  sectorHit s i.core (op == 0x72) ((found op w .read s i L).2.2.pa / 64) (tagOf s i.ctx (laneAt s i L).hyp) = none

/-- The access x of a scalar load by lane 0. -/
abbrev scalarPasses (op : Nat) (w : Insn) (x : Nat × Tgt × Xl) (s : State) (i : Iss) : Prop :=
  tryLane op w (accBytes op w) .read s i 0 = .ok x.1 x.2.1 x.2.2 ∧ isLocal i x.2.1 = false ∧ isAbsent s x.2.1 = false ∧
  stage3 s i [(0, .ok x.1 x.2.1 x.2.2)] false = none ∧ anyAway s i [(0, .ok x.1 x.2.1 x.2.2)] = false ∧
  sectorHit s i.core (op == 0x72) (x.2.2.pa / 64) (tagOf s i.ctx (laneAt s i 0).hyp) = none
abbrev scalarLd : Insn := { form := .m, d := 3, dk := 1, a := 2, ak := 1, ty := 2 }

/-- Loads: LDS and LDA by V2; LD of two words of the own scratchpad, the last among them; LD and LDC of the mapped page to its last
word; the scalar LD and LDC. No load is in flight. -/
theorem hyps_loads :
    (Met 0x71 by2 noBump (small (bases 0 0)) fun s i => plain [(.v 2, 1)] s i ∧ passes 0x71 by2 .read false s i ∧ inScratch 0x71 by2 .read s i) ∧
    (Met 0x73 by2 noBump (claimed (bases 0 0)) fun s i => plain [(.v 2, 1)] s i ∧ passes 0x73 by2 .read false s i ∧ inAcc 0x73 by2 .read s i) ∧
    (Met 0x70 by8 noBump (small (bases (2 ^ 57) (2 ^ 57 + 1048572))) fun s i => plain [(.v 8, 2)] s i ∧
      passes 0x70 by8 .read false s i ∧ inScratch 0x70 by8 .read s i) ∧
    (Met 0x70 by8 noBump (mapped [] (bases 0x8000 0x8FFC)) fun s i => plain [(.v 8, 2)] s i ∧
      passes 0x70 by8 .read false s i ∧ away 0x70 by8 .read s i ∧ i.ex ≠ 0 ∧ misses 0x70 by8 s i) ∧
    (Met 0x72 by8 noBump (mapped [] (bases 0x8000 0x8FFC)) fun s i => plain [(.v 8, 2)] s i ∧
      passes 0x72 by8 .read false s i ∧ away 0x72 by8 .read s i ∧ i.ex ≠ 0 ∧ misses 0x72 by8 s i) ∧
    (Met 0x70 scalarLd noBump (mapped [] { pairOfLanes with sregs := [(2, 0x8000)] }) fun s i => plain [] s i ∧ (lanesOf i.ex).head? = some 0 ∧
      scalarPasses 0x70 scalarLd (found 0x70 scalarLd .read s i 0) s i) ∧
    Met 0x72 scalarLd noBump (mapped [] { pairOfLanes with sregs := [(2, 0x8000)] }) fun s i => plain [] s i ∧ (lanesOf i.ex).head? = some 0 ∧
      scalarPasses 0x72 scalarLd (found 0x72 scalarLd .read s i 0) s i :=
  ⟨of_met (by decide +kernel), of_met (by decide +kernel), of_met (by decide +kernel), of_met (by decide +kernel), of_met (by decide +kernel),
    of_met (by decide +kernel), of_met (by decide +kernel)⟩

/-- A state that lists no load numbers its loads apart (LoadNumbers, Loads). -/
theorem fresh_small (q : Group) (h : q.loads = []) : FreshLoads (small q) := by
  intro b g l hl
  by_cases hb : b = 0 <;> by_cases hg : g = 0 <;> simp_all [small, State.group, State.block, State.reset, tget]

/-- Stores: STS by V2 and ST to the scratchpad; STA; ST to the mapped page. -/
theorem hyps_stores :
    (Met 0x81 by2 noBump (small (bases 0 0)) fun s i => storeEscapes s i [(.v 2, 1), (.v 0, 1)] = 0 ∧ passes 0x81 by2 .write true s i ∧
      orderHeld 0x81 by2 s i = false ∧ resolveHeld s i = false ∧ inScratch 0x81 by2 .write s i) ∧
    (Met 0x80 by8 noBump (small (bases (2 ^ 57) (2 ^ 57))) fun s i => storeEscapes s i [(.v 8, 2), (.v 0, 1)] = 0 ∧ passes 0x80 by8 .write true s i ∧
      orderHeld 0x80 by8 s i = false ∧ resolveHeld s i = false ∧ inScratch 0x80 by8 .write s i) ∧
    (Met 0x82 by2 noBump (claimed (bases 0 0)) fun s i => storeEscapes s i [(.v 2, 1), (.v 0, 1)] = 0 ∧ passes 0x82 by2 .write true s i ∧
      orderHeld 0x82 by2 s i = false ∧ resolveHeld s i = false ∧ inAcc 0x82 by2 .write s i) ∧
    Met 0x80 by8 noBump (mapped [] (bases 0x8000 0x8FFC)) fun s i => storeEscapes s i [(.v 8, 2), (.v 0, 1)] = 0 ∧ passes 0x80 by8 .write true s i ∧
      orderHeld 0x80 by8 s i = false ∧ resolveHeld s i = false ∧ away 0x80 by8 .write s i :=
  ⟨of_met (by decide +kernel), of_met (by decide +kernel), of_met (by decide +kernel), of_met (by decide +kernel)⟩

/-- Atomics: ATOM.add and RED.add in the scratchpad, the two lanes at words of their own, and at the mapped page. -/
abbrev addI : Insn := { form := .m, a := 8, b := 3, ty := 6 }
theorem hyps_atomics :
    (Met 0xA0 addI noBump (small (bases (2 ^ 57) (2 ^ 57 + 4))) fun s i => plain [(.v 8, 2), (.v 3, 1)] s i ∧ passes 0xA0 addI .atomic true s i ∧
      hypAtomic addI s i (tries 0xA0 addI 4 .atomic s i) = false ∧ orderHeld 0xA0 addI s i = false ∧ resolveHeld s i = false ∧ inScratch 0xA0 addI .atomic s i) ∧
    (Met 0xA1 addI noBump (small (bases (2 ^ 57) (2 ^ 57 + 4))) fun s i => plain [(.v 8, 2), (.v 3, 1)] s i ∧ passes 0xA1 addI .red true s i ∧
      hypAtomic addI s i (tries 0xA1 addI 4 .red s i) = false ∧ orderHeld 0xA1 addI s i = false ∧ resolveHeld s i = false ∧ inScratch 0xA1 addI .red s i) ∧
    (Met 0xA0 addI noBump (mapped [] (bases 0x8000 0x8FFC)) fun s i => plain [(.v 8, 2), (.v 3, 1)] s i ∧ passes 0xA0 addI .atomic true s i ∧
      hypAtomic addI s i (tries 0xA0 addI 4 .atomic s i) = false ∧ orderHeld 0xA0 addI s i = false ∧ resolveHeld s i = false ∧ away 0xA0 addI .atomic s i) ∧
    Met 0xA1 addI noBump (mapped [] (bases 0x8000 0x8FFC)) fun s i => plain [(.v 8, 2), (.v 3, 1)] s i ∧ passes 0xA1 addI .red true s i ∧
      hypAtomic addI s i (tries 0xA1 addI 4 .red s i) = false ∧ orderHeld 0xA1 addI s i = false ∧ resolveHeld s i = false ∧ away 0xA1 addI .red s i :=
  ⟨of_met (by decide +kernel), of_met (by decide +kernel), of_met (by decide +kernel), of_met (by decide +kernel)⟩

/-- CacheWords, GuessBits, FencesAndSleeps. -/
theorem hyps_cache_guess_order :
    Met 0x74 { form := .m, a := 8 } noBump (mapped [] (bases 0x8000 0x8FFC)) (plain [(.v 8, 2)]) ∧
    (Met 0x83 { form := .m, a := 8, b := 255, bk := 3 } noBump (mapped [] (bases 0x8000 0x8FFC)) fun s i => plain [(.v 8, 2), (.imm 255, 1)] s i ∧
      orderHeld 0x83 { form := .m } s i = false) ∧
    (Met 0x84 { form := .m, a := 8, b := 0, bk := 3 } noBump (mapped [] (bases 0x8000 0x8FFC)) fun s i => plain [(.v 8, 2), (.imm 0, 1)] s i ∧
      orderHeld 0x84 { form := .m } s i = false) ∧
    Met 0x75 { form := .m, a := 8, d := 0x20, dk := 2 } noBump (small (bases 0x8000 (2 ^ 48))) (plain [(.v 8, 2)]) ∧
    Met 0x90 { d := 0x2F, dk := 2 } noBump (small pairOfLanes) (fun _ _ => True) ∧ Met 0x92 { d := 511 } noBump (small pairOfLanes) (fun _ _ => True) ∧
    Met 0x93 {} noBump (small pairOfLanes) (fun _ _ => True) ∧
    (Met 0x91 { d := 4, sub := 1, b := 0x22, bk := 2 } noBump (small { pairOfLanes with
        rguess := [(vKey 4 0, true), (vKey 4 1, true)], slots := [(0, { busy := true, dest := 4, guessed := 3, arrived := 1, bound := [(0, true), (4, true)] })] })
      fun s i => ∀ L, L < 32 → inMask i.ex L = true → guessOf s i (.v 4) 1 L = true ∧ ((s.group i.b i.g).originSlot 4 L).isSome = true) ∧
    (Met 0x91 { d := 4 } noBump (small { pairOfLanes with rguess := [(vKey 4 0, true)] }) fun s i => ∀ L, L < 32 →
      inMask 1 L = (inMask i.ex L && (guessOf s i (.v 4) 1 L && ((s.group i.b i.g).originSlot 4 L).isNone))) ∧
    (Met 0xB0 { sub := 1 } noBump (small pairOfLanes) fun s i => ∀ L, L < 32 → inMask i.ex L = true → acquireMet s i.b i.g L = true) ∧
    Met 0xB0 { sub := 2, mod := 5 } noBump (small pairOfLanes) (fun _ _ => True) ∧
    (Met 0xB0 { sub := 3 } noBump (small pairOfLanes) fun s i => ∀ L, L < 32 → inMask i.ex L = true → releaseMet s i.b i.g L 0 s.seq = true) ∧
    Met 0xB6 { a := 5 } noBump (small pairOfLanes) (plain [(.v 5, 1)]) ∧ Met 0xB6 { sub := 1, a := 4 } noBump (small pairOfLanes) (plain [(.v 4, 2)]) :=
  ⟨of_met (by decide +kernel), of_met (by decide +kernel), of_met (by decide +kernel), of_met (by decide +kernel), of_met (by decide +kernel),
    of_met (by decide +kernel), of_met (by decide +kernel), of_met (by decide +kernel), of_met (by decide +kernel), of_met (by decide +kernel),
    of_met (by decide +kernel), of_met (by decide +kernel), of_met (by decide +kernel), of_met (by decide +kernel)⟩

/-- A block with object 0 as given. -/
def withObject (o : BarrierObj) (q : Group) : State := modBlock (small q) 0 fun b => { b with objs := [(0, o)] }

/-- An arrival of the issue set at object 0, with c of it. -/
abbrev arrives (w : Insn) (c : State → Iss → Prop) (s : State) (i : Iss) : Prop :=
  plain [] s i ∧ i.ex ≠ 0 ∧ objFor s i (refOf w s i) true = some (0, 0) ∧ arriveHeld s i 0 0 = false ∧ c s i

/-- Object 0 with the arrivals of this word, as BarrierArrivals writes it. -/
abbrev arrivedAt (s : State) (i : Iss) : BarrierObj :=
  { s.obj 0 0 with arr := tmod 0 (s.obj 0 0).arr (memberNo s i.b i.g) fun m => m ||| i.ex }

/-- Barriers: the last and a first arrival at a lane object, a count object one short of more than EXPECT, BARV at each; BARW and BART at
phases before and at the object's; BARV of a lane that has arrived before; BOINIT. -/
theorem hyps_barriers :
    Met 0xB1 { ak := 3 } noBump (withObject { kind := 1, members := 1 } pairOfLanes)
      (arrives { ak := 3 } fun s i => (s.obj 0 0).kind = 1 ∧ laneComplete s 0 (arrivedAt s i) = true) ∧
    Met 0xB1 { ak := 3 } noBump (withObject { kind := 1, members := 1 } { pairOfLanes with lanes := [(0, { lpc := 0x8000 }), (1, { lpc := 0x8008 })] })
      (arrives { ak := 3 } fun s i => (s.obj 0 0).kind = 1 ∧ laneComplete s 0 (arrivedAt s i) = false) ∧
    Met 0xB1 { ak := 3 } noBump (withObject { kind := 2, expect := 3 } pairOfLanes)
      (arrives { ak := 3 } fun s i => (s.obj 0 0).kind = 2 ∧ (s.obj 0 0).count + (lanesOf i.ex).length < (s.obj 0 0).expect) ∧
    Met 0xB2 { ak := 3 } noBump (withObject { kind := 1, members := 1 } pairOfLanes)
      (arrives { ak := 3 } fun s i => (s.obj 0 0).kind = 1 ∧ laneComplete s 0 (arrivedAt s i) = true) ∧
    Met 0xB2 { ak := 3 } noBump (withObject { kind := 2, expect := 3 } pairOfLanes)
      (arrives { ak := 3 } fun s i => (s.obj 0 0).kind = 2 ∧ (s.obj 0 0).count + (lanesOf i.ex).length < (s.obj 0 0).expect) ∧
    (Met 0xB2 { ak := 3 } noBump (withObject { kind := 1, members := 1, arr := [(0, 1)] } pairOfLanes) fun s i =>
      plain [] s i ∧ i.ex ≠ 0 ∧ objFor s i (refOf { ak := 3 } s i) true = some (0, 0) ∧ arriveHeld s i 0 0 = true) ∧
    (Met 0xB3 { ak := 3, b := 6 } noBump (withObject { kind := 2, expect := 3, phase := 0xFFFFFFFF } pairOfLanes) fun s i =>
      plain [(.v 6, 1)] s i ∧ i.ex ≠ 0 ∧ objFor s i (refOf { ak := 3, b := 6 } s i) false = some (0, 0)) ∧
    (Met 0xB4 { ak := 3, d := 0x21, dk := 2 } noBump (withObject { kind := 1 } pairOfLanes) fun s i =>
      plain [(.v 0, 1)] s i ∧ i.ex ≠ 0 ∧ objFor s i (refOf { ak := 3, d := 0x21, dk := 2 } s i) false = some (0, 0)) ∧
    (Met 0xB5 { ak := 3, sub := 2, b := 1, bk := 3, mod := 1 } noBump (small pairOfLanes) fun s i => plain [] s i ∧ i.ex ≠ 0 ∧
      objOf s i.b (refOf { ak := 3, sub := 2, b := 1, bk := 3, mod := 1 } s i) = some (0, 0) ∧
      (boinitObj { ak := 3, sub := 2, b := 1, bk := 3, mod := 1 } s i 0).isSome = true ∧ objBusy s 0 0 = false) :=
  ⟨of_met (by decide +kernel), of_met (by decide +kernel), of_met (by decide +kernel), of_met (by decide +kernel), of_met (by decide +kernel), of_met (by decide +kernel),
    of_met (by decide +kernel), of_met (by decide +kernel), of_met (by decide +kernel)⟩

/-- What AllHere asks. -/
abbrev allHere (mask : Opd) (s : State) (i : Iss) : Prop :=
  parkedAt (s.group i.b i.g) 9 (w64 i.pc) = 0 ∧ ∀ L, L < 32 → inMask i.iss L = true → ∀ k, k < 32 → k ≠ L ∧
    bit (val32 s i mask L) k = true ∧ inMask (s.group i.b i.g).live k = true → inMask i.iss k = true

/-- A live lane of each lane's mask stands elsewhere. -/
abbrev someAway (mask : Opd) (s : State) (i : Iss) : Prop :=
  parkedAt (s.group i.b i.g) 9 (w64 i.pc) = 0 ∧ ∀ L, L < 32 → inMask i.iss L = true →
    ∃ k, k < 32 ∧ k ≠ L ∧ bit (val32 s i mask L) k = true ∧ inMask (s.group i.b i.g).live k = true ∧ inMask i.iss k = false

abbrev apart : Group := { pairOfLanes with lanes := [(0, { lpc := 0x8000 }), (1, { lpc := 0x8008 })] }
abbrev everyone : Insn := { b := 0x1FF, bk := 3, d := 0x20, dk := 2, a := 0x2F, ak := 2 }

/-- LaneExchange and VotesAndReductions: lanes that have joined, for SHFL in both forms, VOTE, MATCH, ELECT, RDX and SCAN; the scalar
VOTE and RDX; QSWP and QBC; and lanes that wait. -/
theorem hyps_cross_lane :
    Met 0xC0 { ty := 2, b := 1, bk := 3 } noBump (small pairOfLanes) (allHere (.imm (-1))) ∧
    Met 0xC0 { form := .c, ty := 2, b := 1, bk := 3, ext := 0x97FF } noBump (small pairOfLanes) (allHere (.imm (-1))) ∧
    Met 0xC1 everyone noBump (small pairOfLanes) (allHere (.imm (-1))) ∧
    (Met 0xC1 { everyone with d := 7, dk := 1 } noBump (small pairOfLanes) fun s i => allHere (.imm (-1)) s i ∧
      scalarEscape s i (.p 15) 1 (membersOf (.imm (-1)) s i 0) = 0) ∧
    Met 0xC2 { ty := 3, b := 0x1FF, bk := 3 } noBump (small pairOfLanes) (allHere (.imm (-1))) ∧
    Met 0xC5 { everyone with a := 0, ak := 0 } noBump (small pairOfLanes) (allHere (.imm (-1))) ∧
    (Met 0xC3 { ty := 6, d := 7, dk := 1, b := 0x1FF, bk := 3 } noBump (small pairOfLanes) fun s i => allHere (.imm (-1)) s i ∧
      scalarEscape s i (.v 0) 1 (membersOf (.imm (-1)) s i 0) = 0) ∧
    Met 0xC4 { ty := 6, b := 0x1FF, bk := 3, mod := 8 } noBump (small pairOfLanes) (allHere (.imm (-1))) ∧
    (Met 0xC6 { ty := 2, sub := 2 } noBump (small pairOfLanes) fun s i =>
      pendingAny (s.group i.b i.g) ((lanesOf i.ex).flatMap fun L => opKeys (.v 0) 1 (L ^^^ 3)) = false ∧
      shortRead s i ((lanesOf i.ex).flatMap fun L => opKeys (.v 0) 1 (L ^^^ 3)) = false) ∧
    (Met 0xC7 { ty := 2, b := 2, bk := 3 } noBump (small pairOfLanes) fun s i =>
      pendingAny (s.group i.b i.g) ((lanesOf i.ex).flatMap fun L => opKeys (.v 0) 1 (L - L % 4 + 2)) = false ∧
      shortRead s i ((lanesOf i.ex).flatMap fun L => opKeys (.v 0) 1 (L - L % 4 + 2)) = false) ∧
    Met 0xC1 everyone noBump (small apart) (someAway (.imm (-1))) ∧
    Met 0xC2 { ty := 2, b := 0x1FF, bk := 3 } noBump (small apart) (someAway (.imm (-1))) ∧
    Met 0xC4 { ty := 6, b := 0x1FF, bk := 3 } noBump (small apart) (someAway (.imm (-1))) ∧
    Met 0xC5 { everyone with a := 0, ak := 0 } noBump (small apart) (someAway (.imm (-1))) :=
  ⟨of_met (by decide +kernel), of_met (by decide +kernel), of_met (by decide +kernel), of_met (by decide +kernel), of_met (by decide +kernel),
    of_met (by decide +kernel), of_met (by decide +kernel), of_met (by decide +kernel), of_met (by decide +kernel), of_met (by decide +kernel),
    of_met (by decide +kernel), of_met (by decide +kernel), of_met (by decide +kernel), of_met (by decide +kernel)⟩

/-- One live lane, in a context with hypothesis context 0 whose nodes are given. -/
def oneLaneHyp (hyp : Nat) (ns : Tbl Node) (q : Group) : State :=
  let s := modCtx (small { q with live := 1, lanes := [(0, { lpc := 0x8000, hyp := hyp })] }) 0 fun c => { c with hctx := some 0, record := { c.record with hypEnable := true } }
  { s with hctxs := [(0, { ctx := some 0, nodes := ns })] }

/-- Hypotheses of one executing lane at the places that HypothesisMoves and HypothesisResolves take. -/
abbrev loneLane (ops : List (Opd × Nat)) (s : State) (i : Iss) : Prop :=
  lanesOf i.ex = [0] ∧ (s.context i.ctx).hctx = some 0 ∧ plain ops s i ∧ resolveHeld s i = false
abbrev idOf (o : Opd) (s : State) (i : Iss) : Nat := val32 s i o 0 % 256

theorem hyps_hypothesis_moves :
    (Met 0xD0 { form := .i, ext := 0x80, mod := 2 } noBump (oneLaneHyp 0 [(1, { state := 1, depth := 1 })] pairOfLanes) fun s i => loneLane [] s i ∧
      (nodesOpen s 0).length < 255 ∧ (nodeOf s 0 2).state = 0 ∧ ∀ k, 1 ≤ k → k < 2 → (nodeOf s 0 k).state ≠ 0) ∧
    (Met 0xD0 { form := .i, ext := 0x80, mod := 15 } noBump (oneLaneHyp 1 [(1, { state := 1, depth := 15 })] pairOfLanes) fun s i => loneLane [] s i ∧
      15 < (nodeOf s 0 (laneAt s i 0).hyp).depth + 1) ∧
    (Met 0xD0 { form := .i, sub := 1, a := 4, ext := 0x80, mod := 2 } noBump
      (oneLaneHyp 0 [] { pairOfLanes with rguess := [(vKey 4 0, true)], slots := [(0, { busy := true, dest := 4, guessed := 1, bound := [(0, true)] })] })
      fun s i => loneLane [] s i ∧ memberSlot { form := .i, sub := 1, a := 4, ext := 0x80, mod := 2 } s i 0 = some 0 ∧ (nodeOf s 0 1).state = 0) ∧
    (Met 0xD1 { a := 1, ak := 3 } noBump (oneLaneHyp 0 [(1, { state := 1, depth := 1 })] pairOfLanes) fun s i => loneLane [] s i ∧
      nodeState s (some 0) (idOf (.imm 1) s i) = 1 ∧ underResolving s i.ctx (idOf (.imm 1) s i) = false) ∧
    Met 0xD2 {} noBump (oneLaneHyp 1 [(1, { state := 1, depth := 1 })] pairOfLanes) (loneLane []) :=
  ⟨of_met (by decide +kernel), of_met (by decide +kernel), of_met (by decide +kernel), of_met (by decide +kernel), of_met (by decide +kernel)⟩

theorem hyps_hypothesis_resolves :
    (∀ n ∈ ([0, 1] : List Nat), Met 0xD3 { sub := BitVec.ofNat 3 n, a := 1, ak := 3, d := 0x21, dk := 2 } noBump
      (oneLaneHyp 0 [(1, { state := 1, depth := 1 })] pairOfLanes) fun s i => loneLane [] s i ∧ (laneAt s i 0).hyp = 0 ∧ relHeld s i = false ∧
        idOf (.imm 1) s i = 1 ∧ (nodeOf s 0 1).state = 1 ∧ (nodeOf s 0 1).bound = false) ∧
    (∀ n ∈ ([0, 1] : List Nat), Met 0xD3 { sub := BitVec.ofNat 3 n, a := 0, ak := 3, d := 0x21, dk := 2 } noBump
      (oneLaneHyp 0 [] pairOfLanes) fun s i => loneLane [] s i ∧ (laneAt s i 0).hyp = 0 ∧ relHeld s i = false ∧ idOf (.imm 0) s i = 0) ∧
    (∀ e ∈ ([(0xD4, { a := 1, ak := 3 }), (0xD4, { sub := 1, d := 0x21, dk := 2 })] : List (Nat × Insn)),
      ∃ s i, Issues e.1 e.2 noBump s i ∧ (isS (opD e.2) = true → escapes s i true [] = 0)) := by
  refine ⟨?_, ?_, computes_met _ (by decide +kernel)⟩ <;>
  · intro n hn
    simp only [List.mem_cons, List.not_mem_nil, or_false] at hn
    rcases hn with rfl | rfl <;> exact of_met (by decide +kernel)

/-- A machine with a core 0 and a block 0 of its own making. -/
def onCore (c : Core) (f : Block → Block) (q : Group) : State := modBlock { small q with cores := [(0, c)] } 0 f

/-- Tile 0 of core 0. -/
def withTile (t : Tile) (q : Group) : State := onCore { tiles := [(0, t)] } (fun b => { b with objs := [(0, { kind := 2, expect := 3 })] }) q

abbrev tile0 : Insn := { a := 0x10, ak := 2 }
abbrev vecWord : Insn := { sub := 2, a := 0x10, ak := 2, b := 0, bk := 3 }
abbrev claimAt (b : Bool) (s : State) (i : Iss) : Prop := plain [] s i ∧ i.ex ≠ 0 ∧ ((tget {} (s.core i.core).tiles 0).token == .free) = b
abbrev vecAt (s : State) (i : Iss) : Prop := plain [] s i ∧ i.ex ≠ 0 ∧ vecObject vecWord s i = some 0 ∧
  (tget {} (s.core i.core).tiles 0).token = .mat i.b ∧ (s.block i.b).ended = false ∧ tileWaits s i 0 = false
abbrev leftAt (s : State) (i : Iss) (id : Nat) : Bool := (s.core i.core).mmaQ.any fun c => c.tile == 0 && decide (c.id < id)

/-- TilesAndMatrixIssue, tile words: claim of a free tile and of one held, mat and free, vec with no command of the tile left, with one, and behind
another request that a command keeps waiting, TKTEST in both forms. -/
theorem hyps_tiles :
    opA tile0 = .t 0 ∧ opA vecWord = .t 0 ∧ Met 0xE1 { tile0 with d := 0x20, dk := 2 } noBump (small pairOfLanes) (claimAt true) ∧
    Met 0xE1 { tile0 with d := 0x20, dk := 2 } noBump (withTile { token := .mat 9 } pairOfLanes) (claimAt false) ∧
    (∀ n ∈ ([1, 3] : List Nat), Met 0xE1 { tile0 with sub := BitVec.ofNat 3 n } noBump (withTile { token := .vec 0 } pairOfLanes) fun s i =>
      plain [] s i ∧ i.ex ≠ 0 ∧ (tget {} (s.core i.core).tiles 0).token = .vec i.b ∧ tileBusy s i 0 = false) ∧
    (Met 0xE1 vecWord noBump (withTile { token := .mat 0 } pairOfLanes) fun s i => vecAt s i ∧
      (tget {} (s.core i.core).tiles 0).vec = [] ∧ leftAt s i (s.core i.core).nextCmd = false ∧ (s.obj i.b 0).kind = 2 ∧ (s.obj i.b 0).count + 1 < (s.obj i.b 0).expect) ∧
    (Met 0xE1 vecWord noBump (onCore { tiles := [(0, { token := .mat 0 })], mmaQ := [{ tile := 0 }], nextCmd := 1 }
        (fun b => { b with objs := [(0, { kind := 2, expect := 3 })] }) pairOfLanes) fun s i => vecAt s i ∧
      leftAt s i ((((tget {} (s.core i.core).tiles 0).vec.map Prod.snd) ++ [(s.core i.core).nextCmd]).headD 0) = true) ∧
    (Met 0xE1 vecWord noBump (onCore { tiles := [(0, { token := .mat 0, vec := [(0, 1)] })], mmaQ := [{ tile := 0 }], nextCmd := 1 }
        (fun b => { b with objs := [(0, { kind := 2, expect := 3 })] }) pairOfLanes) fun s i => vecAt s i ∧
      leftAt s i ((((tget {} (s.core i.core).tiles 0).vec.map Prod.snd) ++ [(s.core i.core).nextCmd]).headD 0) = true) ∧
    ∀ e ∈ ([(0xE2, tile0), (0xE2, { tile0 with sub := 1, d := 0x2F, dk := 2 })] : List (Nat × Insn)),
      ∃ s i, Issues e.1 e.2 noBump s i ∧ (isS (opD e.2) = true → escapes s i true [] = 0) := by
  refine ⟨by decide, by decide, of_met (by decide +kernel), of_met (by decide +kernel), ?_, of_met (by decide +kernel), of_met (by decide +kernel),
    of_met (by decide +kernel), computes_met _ (by decide +kernel)⟩
  intro n hn
  simp only [List.mem_cons, List.not_mem_nil, or_false] at hn
  rcases hn with rfl | rfl <;> exact of_met (by decide +kernel)

/-- One live lane, S1 = 1, V0 = off; the scratchpad begins with the parameter block of a 1 × 1 × 1 product of KT8 numbers into tile 0. -/
def withBlock (off : W32) : State :=
  onCore { tiles := [(0, { token := .mat 0 })] } (fun b => { b with scratch := [(26, 1), (27, 1), (28, 1)] })
    { exists_ := true, live := 1, lanes := [(0, { lpc := 0x8000 })], regs := if off = 0 then [] else [(0, off)], sregs := [(1, 1)] }

abbrev mmaAt (s : State) (i : Iss) : Prop := lanesOf i.ex = [0] ∧ mmaWaiting s i = false ∧ plain [(.v 0, 1)] s i

/-- TilesAndMatrixIssue, MMA: a block that passes every check; one off a 64-byte boundary; one past the scratchpad; no executing lane. -/
theorem hyps_mma :
    (Met 0xE0 {} noBump (withBlock 0) fun s i => mmaAt s i ∧ srcA .b32 {} s i 0 % 64 = 0 ∧ srcA .b32 {} s i 0 + 64 ≤ scrBytes s i.b ∧
      linePresent s i.b (srcA .b32 {} s i 0) = true ∧
      pendingAny (s.group i.b i.g) ((mmaScalars (scrWord s i.b (srcA .b32 {} s i 0))).map sKey) = false ∧
      shortRead s i ((mmaScalars (scrWord s i.b (srcA .b32 {} s i 0))).map sKey) = false ∧
      mmaCheck s i (scrWord s i.b (srcA .b32 {} s i 0)) (mmaParse s i.b i.g (scrWord s i.b (srcA .b32 {} s i 0))) = none ∧ relHeld s i = false) ∧
    (Met 0xE0 {} noBump (withBlock 4) fun s i => mmaAt s i ∧ srcA .b32 {} s i 0 % 64 ≠ 0) ∧
    (Met 0xE0 {} noBump (withBlock (2 ^ 20)) fun s i => mmaAt s i ∧ scrBytes s i.b < srcA .b32 {} s i 0 + 64) ∧
    Met 0xE0 { g := 0x1F } noBump (withBlock 0) fun s i => mmaWaiting s i = false ∧ i.ex = 0 :=
  ⟨of_met (by decide +kernel), of_met (by decide +kernel), of_met (by decide +kernel), of_met (by decide +kernel)⟩

/-- V0 = 0, V4:V5 the scratchpad at 0x100, V8:V9 global 0x8000, V6 = 4; the scratchpad begins with the layout record of a tensor of one
element of 4 bytes at 0x8000. -/
def withLayout : State :=
  onCore {} (fun b => { b with scratch := [(1, 0x80), (8, 2), (16, 1)] })
    { exists_ := true, live := 1, lanes := [(0, { lpc := 0x8000 })], regs := [(vKey 4 0, 0x100), (vKey 5 0, 0x02000000), (vKey 6 0, 4), (vKey 8 0, 0x8000)] }

/-- The plan an attempt gives. -/
abbrev planned (attempt : Insn → State → Iss → Nat → CopyTry) (w : Insn) (s : State) (i : Iss) (L : Nat) : Plan :=
  match attempt w s i L with
  | .ok p => p
  | _ => {}

/-- What CopyIssue asks, with the plan that the attempt gives. -/
abbrev copies (attempt : Insn → State → Iss → Nat → CopyTry) (w : Insn) (s : State) (i : Iss) : Prop :=
  plain ([(opA w, spanA 0xE3 w), (opB w, spanB 0xE3 w)] ++ if eForm w = 2 then [(opC w, 1)] else []) s i ∧ i.ex ≠ 0 ∧
    pendingAny (s.group i.b i.g) (coordKeys w s i) = false ∧ shortRead s i (coordKeys w s i) = false ∧
    (∀ L, L < 32 → inMask i.ex L = true → attempt w s i L = .ok (planned attempt w s i L)) ∧ relHeld s i = false ∧ resolveHeld s i = false ∧
    (s.block i.b).copies.length + (queueOf s i.b 2).length + (lanesOf i.ex).length ≤ 64 ∧
    linesFit s ((lanesOf i.ex).map (planned attempt w s i)) = true

/-- CopyIssue: a tensor load, a tensor store, a linear COPY and a multicast. -/
theorem hyps_copies :
    Met 0xE3 { form := .e, b := 4 } noBump withLayout (copies tryTload { form := .e, b := 4 }) ∧
    Met 0xE3 { form := .e, b := 4, ext := 2 ^ 24 } noBump withLayout (copies tryTstore { form := .e, b := 4, ext := 2 ^ 24 }) ∧
    Met 0xE3 { form := .e, a := 8, b := 4, ext := 2 ^ 25 + 6 * 2 ^ 40 } noBump withLayout (copies tryLin { form := .e, a := 8, b := 4, ext := 2 ^ 25 + 6 * 2 ^ 40 }) ∧
    Met 0xE3 { form := .e, b := 4, ext := 3 * 2 ^ 24 + 2 ^ 16 } noBump withLayout (copies tryMcast { form := .e, b := 4, ext := 3 * 2 ^ 24 + 2 ^ 16 }) :=
  ⟨of_met (by decide +kernel), of_met (by decide +kernel), of_met (by decide +kernel), of_met (by decide +kernel)⟩

/-- A block whose queue 4 holds the entries given. -/
def withQueue (xs : List W64) (q : Group) : State := onCore {} (fun b => { b with queues := if xs.isEmpty then [] else [(4, xs)] }) q

abbrev popV : Insn := { d := 3, a := 4, ak := 2, ty := 2 }
abbrev popS : Insn := { d := 3, dk := 1, a := 4, ak := 2, ty := 3 }
abbrev pushV : Insn := { d := 4, dk := 2, a := 5, ty := 2 }

/-- Queues: pops of two lanes from two entries, by one S register, from none; a push that fills the queue to 127; QTRY of both widths; QCNT. -/
theorem hyps_queues :
    opA popV = .q 4 ∧ scalarForm popV = false ∧ opA popS = .q 4 ∧ scalarForm popS = true ∧ (∀ k, opA pushV ≠ .q k) ∧ opD pushV = .q 4 ∧
    (Met 0x0D popV noBump (withQueue [7, 8] pairOfLanes) fun s i => plain [] s i ∧ (lanesOf i.ex).length ≤ (queueOf s i.b 4).length) ∧
    (Met 0x0D popS noBump (withQueue [7] pairOfLanes) fun s i => plain [] s i ∧ i.ex ≠ 0 ∧ queueOf s i.b 4 ≠ []) ∧
    (Met 0x0D popV noBump (withQueue [] pairOfLanes) fun s i => plain [] s i ∧ queueOf s i.b 4 = []) ∧
    (Met 0x0D pushV noBump (withQueue (List.replicate 125 7) pairOfLanes) fun s i => plain [(.v 5, 1)] s i ∧ relHeld s i = false ∧
      (queueOf s i.b 4).length + (lanesOf i.ex).length ≤ 127 ∧ parkedOn s [i.b] (fun p => p.cause == 1 && p.detail == 4) = []) ∧
    Met 0xE4 { popV with d := 6, ty := 0, mod := 3 } noBump (withQueue [7] pairOfLanes) (plain []) ∧
    Met 0xE4 { popV with d := 6, ty := 0, sub := 1 } noBump (withQueue [7] pairOfLanes) (plain []) ∧
    ∀ e ∈ ([(0xE5, { a := 4, ak := 2 }), (0xE5, { a := 0, ak := 2, d := 3, dk := 1 })] : List (Nat × Insn)),
      ∃ s i, Issues e.1 e.2 noBump s i ∧ (isS (opD e.2) = true → escapes s i true [] = 0) := by
  refine ⟨by decide, by decide, by decide, by decide, ?_, by decide, of_met (by decide +kernel), of_met (by decide +kernel), of_met (by decide +kernel),
    of_met (by decide +kernel), of_met (by decide +kernel), of_met (by decide +kernel), computes_met _ (by decide +kernel)⟩
  intro k h
  cases h

/-- An invalidation may start: no guess, every release met, none under way. -/
abbrev mayInvalidate (ops : List (Opd × Nat)) (s : State) (i : Iss) : Prop :=
  plain ops s i ∧ (∀ L, L < 32 → inMask i.ex L = true → releaseMet s i.b i.g L 3 s.seq = true) ∧
    (s.part (s.context i.ctx).part).invBusy = false ∧ (s.part (s.context i.ctx).part).invBy = none
abbrev handling (q : Group) : Group := { q with trapMode := true, handlerSet := q.live }

/-- InvalidationsWaitsAndCounters: TLBINV of a page, of none and of all, by lanes and by none; WAITEV with an entry and with none; PERF in its
three forms; BBLOG. -/
theorem hyps_system_words :
    (Met 0xF4 { a := 8 } noBump (small (handling (targets 0 0))) fun s i => mayInvalidate [(.v 8, 2)] s i ∧ invPages { a := 8 } s i = [0]) ∧
    (Met 0xF4 {} noBump (small (handling (targets (2 ^ 48) (2 ^ 48)))) fun s i => mayInvalidate [(.v 0, 2)] s i ∧ invPages {} s i = []) ∧
    (Met 0xF4 { sub := 1 } noBump (small (handling pairOfLanes)) fun s i => mayInvalidate [] s i ∧ i.ex ≠ 0) ∧
    (Met 0xF4 { sub := 1, g := 0x1F } noBump (small (handling pairOfLanes)) fun s i => mayInvalidate [] s i ∧ i.ex = 0) ∧
    (∀ xs ∈ ([[], [7]] : List (List W64)), Met 0xF5 { a := 16, ak := 3, b := 0, bk := 3 } noBump (withQueue xs pairOfLanes) fun s i =>
      plain [(.imm 0, 1)] s i ∧ ∀ L, L < 32 → inMask i.ex L = true →
        badEvents (srcA .b32 { a := 16, ak := 3 } s i L) (srcB .b32 { b := 0, bk := 3 } s i L) = false) ∧
    (∀ w ∈ ([{ ak := 3, b := 3, bk := 3 }, { sub := 1, a := 1, ak := 3 }, { sub := 2, a := 3, ak := 3 }] : List Insn),
      Met 0xF7 w noBump (small pairOfLanes) fun s i => plain [] s i ∧ (lanesOf i.ex).head? = some 0) ∧
    Met 0xF8 { a := 2, b := 4 } noBump (small pairOfLanes) fun s i => plain [(.v 2, 1), (.v 4, 2)] s i ∧ (lanesOf i.ex).head? = some 0 ∧
      logReady s i.ctx = true ∧ (s.context i.ctx).logWait = [] := by
  refine ⟨of_met (by decide +kernel), of_met (by decide +kernel), of_met (by decide +kernel), of_met (by decide +kernel), ?_, ?_,
    of_met (by decide +kernel)⟩
  · intro xs h
    simp only [List.mem_cons, List.not_mem_nil, or_false] at h
    rcases h with rfl | rfl <;> exact of_met (by decide +kernel)
  · intro w h
    simp only [List.mem_cons, List.not_mem_nil, or_false] at h
    rcases h with rfl | rfl | rfl <;> exact of_met (by decide +kernel)

/-- A pair: FADD.tnf of V2 and V3 into V5, IADD of V1 and V4 into V6. -/
abbrev twoSums : Pair := { first := { cop := 0x40, d := 5, a := 2, b := 3, mod := 8 }, second := { cop := 0x00, d := 6, a := 1, b := 4, ty := 6 } }

/-- PairWords: both operations' lanes execute, the FADD's sum is finite. -/
theorem hyps_pair : let w1 := compactInsn twoSums.first
    let w2 := compactInsn twoSums.second
    let os : List Oper := [{ op := 0x40, w := w1 }, { op := 0x00, w := w2 }]
    let s := small ones
    ∃ i, issOf s 16 = some i ∧ notReady s i.b i.g = false ∧ ((lanesOf i.iss).any fun L => ((s.group i.b i.g).lane L).refuted.isSome) = false ∧
      ((pairChecks twoSums).all fun c => c.2) = true ∧ stage1a s i os = none ∧ scoreHeld s i os = false ∧ acqHeld s i = false ∧
      stage1b s i os 0 = none ∧
      (∀ L, L < 32 → inMask (withGuard s i twoSums.first.g).ex L = true → compactTnf 0x40 w1 = true →
        (compactAt 0x40 w1 s (withGuard s i twoSums.first.g) L).2 = false) ∧
      ∀ L, L < 32 → inMask (withGuard s i twoSums.second.g).ex L = true → compactTnf 0x00 w2 = true →
        (compactAt 0x00 w2 s (withGuard s i twoSums.second.g) L).2 = false :=
  ⟨(issOf (small ones) 16).getD {}, by decide +kernel⟩

/-- The word issued next at 0x8000 by context 0's group of 32 lanes: a NOP, a MOV of V5 to Q4, and words that are none. -/
abbrev issuing (w : Nat) : State := State.reset.withFetchWord 64 w
abbrev nopWord : Nat := 0x00000000_00079380
abbrev movWord : Nat := 0x0208_0005_0047_8680

/-- The state in which the step issues: a free value spent, the lanes of core 0 whose wait is over gone on. -/
abbrev atIssue (s : State) : State := wakeCore { s with free := s.free + 1, agenda := [] } 0

/-- The translation of a fetch at pc. -/
abbrev xlOf (s : State) (pc : Nat) : Xl := match xlate (atIssue s) 0 0 pc .fetch false with
  | .ok x => x
  | .error _ => {}

/-- What StepRunsDecoded and IllegalWords ask of a group at pc, whose word is the words given. -/
abbrev fetches (s : State) (pc : Nat) (m : Mask) (words : List Nat) : Prop :=
  let t := atIssue s
  let x := xlOf s pc
  (s.block 0).core = 0 ∧ s.agenda = [.issue 0 0] ∧ boundaryOpen t 0 0 = true ∧ nextPend (t.group 0 0) (fun _ => true) = none ∧ refutedLanes (t.group 0 0) = [] ∧
    notReady t 0 0 = false ∧ issueSet (t.group 0 0) = some (pc, m) ∧ pc < 2 ^ 48 ∧ xlate t 0 0 pc .fetch false = .ok x ∧
    (List.range (lengthOf (codeAt t 0 x.tier x.pa) / 4)).map (fun j => codeAt t 0 x.tier (x.pa + 4 * j)) = words

/-- StepRunsDecoded: a NOP; a MOV to a queue that no word of the cycle holds up. -/
theorem hyps_step_nop : fetches (issuing nopWord) 0x8000 (BitVec.allOnes 32) [0x00079380, 0] ∧ decode (wordsBytes [0x00079380, 0]) = .ok (.nop {}) ∧
    0x00079380 % 4 ≠ 3 ∧ 0x8000 % 32 + 8 ≤ 32 ∧
    selected exec (atIssue (issuing nopWord)) (0, 0) = true ∧ queueAct (.nop {}) = none := by decide +kernel

/-- The state on which that MOV runs: its fetch noted. -/
abbrev movIssued : State :=
  let t := atIssue (issuing movWord)
  cacheCode (noteXl t 0 0 0x8000 .fetch (xlOf (issuing movWord) 0x8000)) 0 (xlOf (issuing movWord) 0x8000).tier (xlOf (issuing movWord) 0x8000).pa

theorem hyps_step_mov : let i : Instr := .mov { d := 4, dk := 2, a := 5, ty := 2 }
    fetches (issuing movWord) 0x8000 (BitVec.allOnes 32) [0x00478680, 0x02080005] ∧ decode (wordsBytes [0x00478680, 0x02080005]) = .ok i ∧
    0x00478680 % 4 ≠ 3 ∧ selected exec (atIssue (issuing movWord)) (0, 0) = true ∧ queueAct i = some (4, false) ∧
    queueLate movIssued 0 4 false 0 = false := by decide +kernel

theorem hyps_step_mov_issues :
    ∃ v, exec (.mov { d := 4, dk := 2, a := 5, ty := 2 }) { oweFirst exec movIssued (0, 0) with focus := (0, 0) } = .next v ∧
      (v.group 0 0).words ≠ (movIssued.group 0 0).words := by
  refine ⟨_, rfl, ?_⟩
  decide +kernel

/-- IllegalWords: an OP of no instruction, a stray pad word, a word across its 32-byte block. -/
theorem hyps_illegal_opcode : fetches (issuing 0x78780) 0x8000 (BitVec.allOnes 32) [0x78780, 0] ∧
    (decode (wordsBytes [0x78780, 0])).isOk = false := by decide +kernel
theorem hyps_illegal_pad : codeAt (atIssue (issuing 7)) 0 (xlOf (issuing 7) 0x8000).tier (xlOf (issuing 7) 0x8000).pa = 7 := by
  decide +kernel
theorem hyps_illegal_crossing :
    fetches { mapped [] { pairOfLanes with lanes := [(0, { lpc := 0x801C }), (1, { lpc := 0x801C })] } with agenda := [.issue 0 0] } 0x801C 3 [0, 0] ∧
      32 < 0x801C % 32 + 8 := by decide +kernel

/-- ScheduledSteps: a tick of a part whose time runs, and of one whose does not; a cycle of a core that has had none in this pulse, and of one
that has; a host write next to a line that the buffer owns. MemoryStaysCanonical, LoadNumbers: a step with memory listed, no load under way. -/
theorem hyps_scheduled : ({ State.reset with pkg := { State.reset.pkg with ctRun := true } } : State).pkg.ctRun = true ∧ State.reset.pkg.ctRun = false ∧
    (∀ k, k < 2 → lineOwned { State.reset with hostLines := [(7, [])] } ((0x200 + k) / 64) = false) ∧ 0x200 + 2 ≤ 2 ^ 52 ∧
    (let s : State := { State.reset with pkg := { State.reset.pkg with pulses := 1 } }
     running s = true ∧ (s.core 3).pulse < s.pkg.pulses ∧ blocksOn { s with free := s.free + 1, agenda := [] } 3 = []) ∧
    State.reset.pkg.pulses ≤ (State.reset.core 3).pulse ∧
    Memory.wf (issuing nopWord).mem = true ∧ Memory.wf (issuing nopWord).hostMem = true ∧ (issuing nopWord).mem ≠ [] ∧
    (match step (issuing nopWord) with | .next _ => true | _ => false) = true := by decide +kernel

/-- Guards: P15's registers await nothing. PageTables: links down to a 4 KiB leaf, and an entry with bit 0 clear at each level; a translation
that has not set ACC, with no dirty log. DecodeOfEncode: a well-formed instruction. -/
theorem hyps_pages :
    unfinished ((small pairOfLanes).group 0 0) (cyclesOf (small pairOfLanes) 0) (lanes32.map (pKey 15)) = false ∧
    (let s := mapped [] pairOfLanes
     let link := fun (e : Nat) => e % 2 = 1 ∧ pteReserved e = true ∧ bit e 7 = false ∧ bits e 11 8 = 0 ∧ bits e 6 3 = 0 ∧ bits e 51 39 = 0
     (s.part 0).root = 0x1000 ∧ link (memRead s 0x1000 8) ∧ link (memRead s 0x2000 8) ∧ link (memRead s 0x3000 8) ∧ memRead s 0x4040 8 % 2 = 1 ∧
      pteReserved (memRead s 0x4040 8) = true ∧ bit (memRead s 0x4040 8) 7 = true ∧ bit (memRead s 0x4040 8) 9 = false ∧
      memRead s 0x4040 8 / 2 ^ 12 % 2 ^ 40 * 4096 < 2 ^ 39 ∧ memRead s 0x1008 8 % 2 = 0 ∧ memRead s 0x2008 8 % 2 = 0 ∧ memRead s 0x3008 8 % 2 = 0 ∧
      memRead s 0x4048 8 % 2 = 0 ∧ (s.part 0).logEnable = false) ∧
    wellFormed (.lea { sub := 2, d := 8, a := 3, b := 10, ty := 3, mod := 1 }) = true := by decide +kernel

/-! ## Hypotheses of device events are met -/

abbrev atPkg (f : Package → Package) : State := { State.reset with pkg := f State.reset.pkg }

/-- ResetsAndBringUp: each stage of bring-up, and no host access in flight. -/
theorem hyps_bringup : hostInFlight State.reset = [] ∧ (State.reset.pkg.bringup = 0) ∧
    (∀ n, n < 6 → (atPkg fun p => { p with bringup := n }).pkg.bringup = n) ∧ (atPkg fun p => { p with bringup := 4 }).pkg.clockStopped = false ∧
    (∀ ready ∈ [true, false], let s : State := { atPkg fun p => { p with linkUp := true, ready := ready } with agenda := [.cfgRead 12 0xFFC, .tick] }
      cfgOpen s 12 0xFFC = true ∧ s.pkg.ready = ready ∧ s.agenda = .cfgRead 12 0xFFC :: [.tick]) ∧
    (let s : State := { atPkg fun p => { p with linkUp := true } with agenda := [.cfgWrite 0 4 6] }
     cfgOpen s 0 4 = true ∧ s.agenda = .cfgWrite 0 4 6 :: []) := by decide +kernel

/-- TemperaturePowerAndTime: samples below 95, from 95 to 104, from 105 to 114 and from 115 on; an average at 2400 W and above; an overrun due;
a marker at a multiple of 1024 with offsets at 2 and past it; standby allowed and not; a power command under way to standby. -/
theorem hyps_power :
    (∃ n, n < 95) ∧ (∃ n, 95 ≤ n ∧ n < 105) ∧ (∃ n, 105 ≤ n ∧ n < 115) ∧ (State.reset.pkg.overrun = none) ∧
    ((atPkg fun p => { p with overrun := some 0 }).pkg.overrun = some 0) ∧ (0 ≤ State.reset.ct) ∧
    ((atPkg fun p => { p with ctRun := true }).pkg.ctRun = true) ∧ (State.reset.ct % 1024 = 0) ∧ ((2 : Int).natAbs ≤ 2) ∧ (2 < (-3 : Int).natAbs) ∧
    (standbyOk State.reset = true) ∧ (standbyOk { State.reset with ctxs := [(0, { live := true })] } = false) ∧
    ((atPkg fun p => { p with pBusy := true, pTarget := 5 }).pkg.pBusy = true) :=
  ⟨⟨94, by decide⟩, ⟨104, by decide⟩, ⟨114, by decide⟩, by decide +kernel⟩

/-- A stack 0 with one request, over a memory-side cache. -/
def withStack (r : StackReq) (m : Tbl MscLine) : State :=
  { State.reset with memStacks := [(0, { reqs := [r], msc := m })], memChans := [(0, { state := 0 })] }

/-- What BaseDies asks of a request at stack 0: its state, and that its channel moves data and its set a line to take. -/
abbrev atStack (s : State) (r : StackReq) : Prop := reqAt s 0 r.tag = some r ∧ earlier s 0 r = false ∧ channelStill s (chanOfReq r) = false ∧
  fillBlocked s r = false

/-- BaseDies, requests: one not seen, its line cached or not, at a channel that is up and at one that is down; a victim; a discard with nothing before it. -/
theorem hyps_base_requests :
    (∀ n ∈ ([0, 1] : List Nat), let r : StackReq := { tag := 5, kind := n }
      atStack (withStack r []) r ∧ r.seen = false ∧ (lookup (withStack r []) 0 r).valid = 0 ∧ (withStack r []).memChan (chanOfReq r) ≠ { state := 2 } ∧
      (lookup (withStack r [(0, { valid := 15 })]) 0 r).valid = 15 ∧ atStack (withStack r [(0, { valid := 15 })]) r ∧ r.hyp = 0 ∧
      (l2Same (withStack r []) r.line).length < 16 ∧ ((withStack r []).stack 0).waits = []) ∧
    (let r : StackReq := { tag := 5, kind := 2, addr := 3 }
     atStack (withStack r []) r ∧ (lookup (withStack r []) 0 r).valid.testBit (r.addr % 4) = false) ∧
    (let r : StackReq := { tag := 5, ids := [4] }
     let q : Req := { id := 4, stage := .miss }
     let s := { withStack r [] with memChans := [(0, { state := 2 })], reqs := [q] }
     atStack s r ∧ (s.memChan (chanOfReq r)).state = 2 ∧ (s.reqs.map fun q => q.id).Nodup ∧ q.id ∈ r.ids ∧ q.fromHost = false ∧ q.place = .home 0) ∧
    (let r : StackReq := { tag := 5, kind := 3, mask := 15 }
     atStack (withStack r []) r) ∧
    (let r : StackReq := { tag := 5, kind := 4, ids := [1] }
     let s := withStack r [(7, { valid := 15, hyp := 1 })]
     reqAt s 0 5 = some r ∧ ∀ x ∈ (s.stack 0).reqs, ¬(x.seq < r.seq)) := by decide +kernel

/-- BaseDies: an urgent request of a bank leaves its refreshes no gap. -/
theorem hyps_no_gap : let r : StackReq := { tag := 5, seen := true, cls := 0, full := 9 }
    refreshGap (withStack r []) (chanOfReq r) (bankOf r.line) = false ∧ tget 0 ((withStack r []).memChan (chanOfReq r)).postponed (bankOf r.line) < 8 := by
  have h : (({ tag := 5, seen := true, cls := 0, full := 9 } : StackReq).line) = 0 := by decide
  have hc : chanOfReq { tag := 5, seen := true, cls := 0, full := 9 } = 0 := by decide +kernel
  simp only [refreshGap, h]
  generalize hn : bankOf 0 = n
  simp [hc, withStack, State.stack, State.memChan, tget, h, hn]

/-- BaseDies, the channels: a request to be served in its channel's turn, one held long enough; a bank with no refresh postponed and with eight, in a
gap and beside an urgent request; a scrub to send and one to serve; windows of either result; the code switching; a channel retraining. -/
theorem hyps_base_dies :
    (let r : StackReq := { tag := 5, seen := true, full := 9 }
     let s := withStack r []
     atStack s r ∧ chanOfReq r = 0 ∧ (s.memChan 0).state = 0 ∧ mayServe s 0 r = true ∧ r.tag < 2048) ∧
    (let r : StackReq := { tag := 5, seen := true, eligible := false, full := 512 }
     let s := withStack r []
     reqAt s 0 5 = some r ∧ r.full ≤ stackCt s 0 + 512) ∧
    (tget 0 (State.reset.memChan 255).postponed 3 < 8 ∧ refreshGap State.reset 255 3 = true) ∧
    (8 ≤ tget 0 (({ State.reset with memChans := [(0, { postponed := [(3, 8)] })] } : State).memChan 0).postponed 3) ∧
    (stackOf 0 = 0 ∧ stackOf (2 ^ 39 - 64) < 8 ∧ reqAt State.reset 0 2048 = none) ∧
    (let r : StackReq := { tag := 2048, seen := true, cls := 2, reqr := 42, full := 9 }
     let s := withStack r []
     atStack s r ∧ r.addr = 0 / 64 ∧ (s.memChan (chanOfReq r)).state = 0 ∧ mayServe s 0 r = true) ∧
    (∀ n ∈ ([0, 1] : List Nat), ∀ m ∈ ([74, 75] : List Nat), let x : MemChan := { better := n, rd := { made := 100, other := m } }
      let s : State := { State.reset with ct := 16384, memChans := [(0, x)] }
      s.memChan 0 = x ∧ s.ct % 16384 = 0 ∧ x.windowAt ≠ s.ct ∧ x.switching = none ∧ x.ltAllowed = true ∧ x.codeLock = false ∧ x.better = n ∧
        (4 * (x.rd.other + x.wr.other) < 3 * (x.rd.made + x.wr.made) ↔ m = 74)) ∧
    ((({ State.reset with memChans := [(0, { switching := some 0 })] } : State).memChan 0).switching = some 0) ∧
    ({ State.reset with retraining := some 3 } : State).retraining = some 3 := by decide +kernel


/-- A device at row 0, column 0, whose port 0, to peer 1, is as given. -/
def onFabric (q : Port) : State := { State.reset with position := some (0, 0), ports := [(0, q)] }
abbrev readOf1 : Packet := { typ := 0, src := 1, dest := 0, dlen := 1, addr := 0x8000 }

/-- A request of peer 1 taken in, with a session to context 0 of partition 0, whose page tables map 0x8000. -/
def withSession (k : Packet) : State :=
  { tinyMemory [] (onFabric { state := 2 }) with
    inbound := [(3, { pkt := k })], ctxs := [(0, { live := true })]
    parts := [(0, { set := true, granN := 1, root := 0x1000, sessions := [(1, some (0, 0, 0))] })] }

/-- FabricTraffic: a packet to discard, to take in, to route on; a request with no session, a read and a write with one; an answer to a request;
a write whose completion time has passed, and one whose has not; a request unanswered too long. -/
theorem hyps_fabric_packets :
    (∀ k ∈ ([{ typ := 7, src := 1 }, readOf1, { src := 2, dest := 1 }] : List Packet),
      ((onFabric { state := 2, inQ := [k, k] }).port 0).inQ.find? (fun x => x.vc == k.vc) = some k) ∧
    defective { typ := 7, src := 1 } = true ∧ (defective readOf1 = false ∧ ownPeer (onFabric {}) = some 0) ∧
    (defective { src := 2, dest := 1 } = false ∧ ownPeer (onFabric {}) ≠ some 1 ∧ routeTo (onFabric { state := 2 }) 1 = some 0) ∧
    (let s := { onFabric { state := 2 } with inbound := [(3, { pkt := readOf1 })] }
     s.inbound.find? (fun e => e.1 == 3) = some (3, { pkt := readOf1 }) ∧ sessionFor s 1 0 = none ∧ routeTo s 1 = some 0 ∧ detourPort s 0 2 = none ∧
      inTurn s { pkt := readOf1 } = true ∧ 1 ∉ s.lostPeers ∧ inTurn { s with inbound := [(2, { pkt := readOf1 }), (3, { pkt := readOf1, seq := 1 })] } { pkt := readOf1, seq := 1 } = false) ∧
    (∀ k ∈ ([readOf1, { readOf1 with typ := 1, mask := [true], data := [7] }] : List Packet), let s := withSession k
      s.inbound.find? (fun e => e.1 == 3) = some (3, { pkt := k }) ∧ sessionFor s 1 0 = some (0, 0) ∧ inTurn s { pkt := k } = true ∧ 0 < k.dlen ∧
      (xlate s 64 0 (k.addr % 2 ^ 48) .read false).isOk = true ∧ (xlate s 64 0 (k.addr % 2 ^ 48) .write false).isOk = true ∧
      (match xlate s 64 0 (k.addr % 2 ^ 48) .write false with | .ok y => y.tier | .error _ => true) = false) ∧
    (let r : Req := { id := 1, place := .peer 1 0, stage := .held, tag := 5 }
     requestOf { onFabric {} with reqs := [r] } { typ := 8, src := 1, dest := 0, tag := 5 } = some r ∧ ownPeer (onFabric {}) = some 0 ∧ r.kind = .load) ∧
    (∀ n ∈ ([0, 9] : List Nat), let r : Req := { inb := some 3, stage := .reply, ctc := n }
      let s := { onFabric {} with ct := 9, reqs := [r], inbound := [(3, { pkt := { readOf1 with typ := 1 }, stage := .held })] }
      inboundOpen s 3 = [r] ∧ respType (tget {} s.inbound 3).pkt = 9 ∧ passed s.ct r.ctc = (n == 0)) ∧
    (let r : Req := { id := 1, place := .peer 1 0, stage := .held, tag := 4095 }
     let s := { onFabric {} with ct := 2 ^ 24, reqs := [r] }
     s.reqs.find? (fun r => r.stage == .held && r.tag == 4095 && (match r.place with | .peer _ _ => true | _ => false)) = some r ∧
      r.ctc + 2 ^ 24 ≤ s.ct ∧ 1 ∉ s.lostPeers) := by decide +kernel

abbrev key0 : List Byte := List.replicate 32 0
abbrev keyed : LinkKeys := { key0 := some key0, first := true }

/-- FabricLinks: a block that opens under the key it was sealed with, and one whose tag is another. -/
theorem hyps_sealed : let c := sealBlock key0 0 0 [readOf1]
    openBlock key0 0 0 c.1 c.2 = some [readOf1] ∧ openBlock key0 0 0 c.1 (c.2 + 1) = none := by
  refine ⟨?_, openBlock_wrong _ _ _ _ _ (by omega)⟩
  rw [openBlock_sealBlock _ _ _ _ (by decide +kernel)]
  decide +kernel

/-- FabricLinks: a block to send; one to take in, in sequence and not; refusals below and at eight; training that ends well and not, or too late;
recalibration before and at the last lane; a boundary of a microsecond at a port and at a slice. -/
theorem hyps_fabric_links :
    (let q : Port := { state := 2, tx := keyed, outQ := [readOf1] }
     portUp (onFabric q) 0 = true ∧ (packBlock (tkeys q.stopped) 8 q.outQ).1 ≠ [] ∧ ((q.replay.flatMap fun x => x.pkts).map wireFlits).sum + 8 ≤ 512 ∧
      q.tx.key q.tx.slot = some key0 ∧ q.tx.key q.tx.idle = none ∧ q.tx.oldLive = false ∧ q.tx.blocks + 1 < 2 ^ 40 - 2 ^ 20) ∧
    (let q : Port := { state := 3, rx := keyed }
     portUp (onFabric q) 0 = true ∧ q.rx.key (2 % 2) = some key0 ∧ q.rx.salt = 0 ∧
      ∀ vc, vc < 4 → ((([readOf1] : List Packet).filter fun k => k.vc == vc).map wireFlits).sum ≤ rxFree q vc) ∧
    (let q : Port := { state := 2, replay := [{ seq := 3, naks := 6 }] }
     portUp (onFabric q) 0 = true ∧ (∃ b ∈ q.replay, b.seq = 3) ∧ (∀ b ∈ q.replay, b.naks < 7) ∧ ∀ b ∈ q.replay, b.seq ≠ 2) ∧
    (∃ b ∈ ({ state := 2, replay := [{ seq := 3, naks := 7 }] } : Port).replay, b.seq = 3 ∧ 7 ≤ b.naks) ∧
    (((onFabric { state := 1 }).port 0).state = 1 ∧ (onFabric {}).position.map (fun pos => portPeer pos 0) = some 1 ∧
      ((onFabric { state := 1 }).port 0).deadline ≤ (onFabric {}).ct ∧ (onFabric { state := 1, deadline := 9 }).ct < ((onFabric { state := 1, deadline := 9 }).port 0).deadline) ∧
    (∀ n ∈ ([2, 3] : List Nat), ((onFabric { state := 3, recalLane := n }).port 0).state = 3 ∧ ((onFabric { state := 3, recalLane := n }).port 0).recalLane = n) ∧
    (let s := { onFabric {} with ct := 1500 }
     s.ct % 1500 = 0 ∧ (s.port 13).refillAt ≠ s.ct ∧ waitingAt s 13 = [] ∧ tget 0 s.l2Refill 63 ≠ s.ct ∧ waitingL2 s 63 = [] ∧ (liveCtxs s).Nodup) := by
  decide +kernel

/-- HostAccesses: a read behind a held write, one of a line that is absent, one of a line present; reads and writes below and at the reserved
range; a snoop; a line of the buffer snooped; one that an atomic waits for, one that a poll waits for. -/
theorem hyps_host :
    (let s : State := { State.reset with seq := 2, reqs := [{ id := 1, kind := .store, place := .home 64, stage := .held, acceptSeq := 1 }] }
     ∃ x ∈ heldWrites s (64 / 64), x.acceptSeq < s.seq) ∧
    (heldWrites State.reset 0 = [] ∧ resolveTimes State.reset 0 = [] ∧ (l2Of State.reset 0).present = false) ∧
    (let s : State := { State.reset with l2 := [(0, { present := true })] }
     (l2Of s 0).present = true ∧ ∀ r ∈ s.reqs, r.id ≠ s.seq) ∧
    (∃ pa, pa / 64 * 64 + 64 = 0x7FFF000000) ∧
    (∃ pa, 0x7FFF000000 < pa / 64 * 64 + 64) ∧ (∃ pa, pa + ([1, 2] : List Byte).length = 0x7FFF000000 ∧ pa % 64 + 2 ≤ 64) ∧
    (let x : Snoop := { line := 5 }
     ({ State.reset with snoops := [{ line := 5, answered := true }, x] } : State).snoops.find? (fun y => y.line == 5 && !y.answered) = some x) ∧
    (({ State.reset with hostLines := [(5, [1, 2])] } : State).hostLines.find? (fun e => e.1 == 5) = some (5, [1, 2])) ∧
    (let r : Req := { kind := .atomic, place := .host 320 }
     let s : State := { atPkg (fun p => { p with linkUp := true }) with reqs := [r] }
     s.pkg.linkUp = true ∧ lineOwned s 5 = false ∧ s.reqs.find? (fun x => x.id == r.id) = some r ∧
      (s.reqs.filter fun r => r.kind == .atomic && r.stage == .egress && !r.hold && r.place == .host (64 * 5)) = [r] ∧ firstOut s r = true) ∧
    (let s : State := { atPkg (fun p => { p with linkUp := true }) with
       parts := [(0, { set := true, chans := [(0, { wait := some {}, w0 := some (true, 320), w1 := some (true, 328) })] })] }
     s.pkg.linkUp = true ∧ lineOwned s 5 = false ∧ ((waitersOn s true (64 * 5) 64).filter fun e => (s.chan e.1 e.2).v0.isNone || (s.chan e.1 e.2).v1.isNone) = [(0, 0)] ∧
      (s.chan 0 0).w0 = some (true, 320) ∧ (s.chan 0 0).v0 = none ∧ (s.chan 0 0).w1 = some (true, 328) ∧ (s.chan 0 0).v1 = none) := by
  refine ⟨by decide +kernel, by decide +kernel, by decide +kernel, ⟨0x7FFEFFFFC0, by decide⟩, ⟨0x7FFF000000, by decide⟩, ⟨0x7FFEFFFFFE, by decide⟩, ?_⟩
  decide +kernel

/-- Channel 0 of partition 0 as given, over memory. -/
def withChan (k : Chan) (mem : State → State) : State :=
  mem { State.reset with parts := [(0, { set := true, coreMask := 1, granN := 1, root := 0x1000, chans := [(0, k)] })] }

abbrev onChan : Chan := { enable := true, tail := 1 }
/-- A marker's HDR: VERSION 1, KIND 1, SEQ 0. -/
abbrev markerAt0 (s : State) : State := putNum s 0 8 0x01010000

/-- LaunchChannels, registers and the record at HEAD: rings inside and outside the partition; tails within the ring and past it; a HEAD to skip; a
record with another SEQ, after fewer than 15 and after 15 reads, one that fails a check, and one that passes. -/
theorem hyps_channels :
    (let x := 2 ^ 63 + 4 * 2 ^ 40
     bit x 63 = true ∧ (withChan {} id).chan 0 0 = {} ∧ ringOk (withChan {} id) 0 0 (256 * 2 ^ 4) = true ∧
      ringOk (withChan {} id) 0 (2 ^ 30 - 256) (256 * 2 ^ 4) = false) ∧
    ((atPkg fun p => { p with ready := true }).pkg.ready = true ∧ (16 + 2 ^ 32 - 0) % 2 ^ 32 ≤ 2 ^ 4 ∧ 2 ^ 4 < (17 + 2 ^ 32 - 0) % 2 ^ 32) ∧
    (((withChan { onChan with halted := true } id).chan 0 0).halted = true ∧ ((withChan { onChan with halted := true } id).chan 0 0).head ≠ 1) ∧
    (headDue (withChan onChan id) onChan = true ∧ recordError_ (withChan onChan id) 0 (parseRecord (memBytes (withChan onChan id) 0 256)) ≠ 0 ∧
      (parseRecord (memBytes (withChan onChan id) 0 256)).seq = 0) ∧
    (∀ n ∈ ([14, 15] : List Nat), let k := { onChan with head := 3, miss := n }
      headDue (withChan k id) k = true ∧ (parseRecord (memBytes (withChan k id) (256 * 3) 256)).seq ≠ 3 ∧ k.miss = n) ∧
    (let s := { withChan { onChan with miss := 2 } markerAt0 with ct := 1500 }
     (s.chan 0 0).readAt + 1500 ≤ s.ct ∧ recordError_ s 0 (parseRecord (memBytes s 0 256)) = 0 ∧
      waitPlace s 0 (parseRecord (memBytes s 0 256)).wait0 = some none ∧ waitPlace s 0 (parseRecord (memBytes s 0 256)).wait1 = some none) := by
  decide +kernel

/-- LaunchChannels, starts: a poll of host memory; a context and a marker that may start, the marker with and without a signal; a marker whose
signal is done. -/
theorem hyps_starts :
    (let s := { withChan { onChan with wait := some {}, w0 := some (true, 320) } id with ct := 1500, pkg := { linkUp := true }, hostLines := [(5, [])] }
     (s.chan 0 0).ready = false ∧ (onHost (s.chan 0 0).w0 || onHost (s.chan 0 0).w1) = true ∧ s.pkg.linkUp = true ∧ (s.chan 0 0).pollAt + 1500 ≤ s.ct ∧
      lineOwned s (320 / 64) = true) ∧
    startsFirst (withChan { onChan with wait := some {}, ready := true } id) 0 0 = true ∧
    startsFirst (withChan { onChan with wait := some { kind := 1 }, ready := true } id) 0 0 = true ∧
    ((withChan onChan id).chan 0 0).signalReq.find? (fun e => signalDone (withChan onChan id) e.1) = none ∧
    (∀ n ∈ ([1, 2] : List Nat), (match syncPlace (withChan onChan (tinyMemory [])) 0 (0x8000 + n) .write with | some (false, pa, _) => pa == 0x8000 | _ => false) = true) ∧
    syncPlace (withChan onChan id) 0 0x8001 .write = none ∧
    (let s := withChan { onChan with signalReq := [(7, {})] } id
     (s.chan 0 0).signalReq.find? (fun e => signalDone s e.1) = some (7, {})) := by decide +kernel

/-- LaunchChannels, a marker's signal to a word of host memory, a store and an add: the page is of TIER 1. -/
theorem hyps_host_signal :
    ∀ n ∈ ([1, 2] : List Nat), (match syncPlace (putNum (withChan onChan (tinyMemory [])) 0x4048 8 (pagePte 0x9000 + 0x100)) 0 (0x9000 + n) .write with
      | some (true, pa, _) => pa == 0x9000 | _ => false) = true := by decide +kernel

/-- A gang of one block on core 0, in context 0, with what is given of each. -/
def oneGang (c : Ctx → Ctx) (b : Block → Block) : State :=
  modBlock { modCtx (small pairOfLanes) 0 c with ct := 9 } 0 b

/-- ContextsAndGangs: a fresh gang and a saved one in turn; a gang that stands in the way of one of higher priority; a save that is drained and finds
its area mapped; a refill that is due; a group with no live lane; a block whose groups have ended; a context that is done, with no signal, with an
atomic add to make, and with its signal done. -/
theorem hyps_gangs :
    (let s : State := { small pairOfLanes with ctxs := [(0, { live := true, record := { gx := 1, gy := 1, gz := 1 } })], blocks := [] }
     running s = true ∧ (match served s 0 with | some (0, .fresh 0, _) => true | _ => false) = true) ∧
    (match served (oneGang (fun c => { c with saved := [0] }) fun b => { b with resident := false }) 0 with
      | some (0, .saved 0, _) => true | _ => false) = true ∧
    (let s := { small pairOfLanes with ctxs := [(0, { live := true, record := { scratch := 4096 } }), (1, { live := true, prio := 5, record := { gx := 1, gy := 1, gz := 1, scratch := 1 } })] }
     1 ∈ partCtxs s 0 ∧ (victims s 1).head? = some (0, 0)) ∧
    (let s := { oneGang (fun c => { c with saving := [0], record := { saveBase := 0x40000000 } }) id with mem := [] }
     let t := putNum (putNum s 0x1000 8 (tablePte 0x2000)) 0x2008 8 (pagePte 0)
     gangBlocks t 0 0 = [0] ∧ blockDrained t 0 = true ∧ t.pkg.clockStopped = false ∧ saveFaultOf (packBlocks t [0]) 0 (unsavedOn t 0 0 0) = none ∧
     0 ∈ ((saveGang t 0 0).context 0).saving ∧ ((saveGang t 0 0).block 0).savedIn = .slot) ∧
    (let s := { oneGang (fun c => { c with record := { itemCount := 4, chunk := 2 } }) id with cores := [(0, { itemCtx := some 0 })] }
     running s = true ∧ refillDue s 0 = some 0) ∧
    (let s := small { pairOfLanes with live := 0 }
     (s.group 0 0).ended = false ∧ (s.group 0 0).live = 0 ∧ (s.block 0).resident = true ∧ (s.core 0).lent = [] ∧ copiesInto s 0 (some 0) = false) ∧
    (let s := small { pairOfLanes with ended := true }
     (s.block 0).groups ≠ [] ∧ (∀ g ∈ tkeys (s.block 0).groups, (s.group 0 g).ended = true) ∧ copiesInto s 0 none = false ∧ (s.core 0).mmaQ = []) ∧
    (let s := oneGang (fun c => { c with nextGang := 1, record := { gx := 1, gy := 1, gz := 1 } }) fun b => { b with ended := true }
     (s.context 0).signalReq = none ∧ ctxDone s 0 = true ∧ (s.context 0).record.signal % 8 = 0) ∧
    (match syncPlace (mapped [] pairOfLanes) 0 0x8002 .write with | some (false, _, _) => true | _ => false) = true ∧
    signalDone (oneGang (fun c => { c with signalReq := some 7 }) id) 7 = true := by decide +kernel

/-- Context 0's bucket at the slice of 0x8000 holds a token; chip time 9. -/
def atHome (rs : List Req) : State := { small pairOfLanes with ct := 9, reqs := rs, l2Buckets := [(bucketOf (homeSlice 0x8000) 0, { level := 1 })] }

/-- The committed line of 0x8000 in its slice. -/
abbrev inL2 (l : L2Line) (s : State) : State := { s with l2 := [(0x80, l)] }
abbrev resident : L2Line := { present := true }
/-- The stack channel of 0x8000 is down. -/
abbrev chanDown (s : State) : State := { s with memChans := [(channelOf 0x8000, { state := 2 })] }
abbrev storeAt (h : Nat) : Req := { id := 4, kind := .store, place := .home 0x8000, stage := .held, bytes := [(0, 7), (1, 8)], hyp := h }
abbrev atomAt : Req := { id := 4, kind := .atomic, place := .home 0x8000, stage := .held, parts := [{ off := 4, opB := 3 }] }
abbrev loadAt (g : Stage) : Req := { id := 4, place := .home 0x8000, stage := g, acceptSeq := 3 }
/-- One request, first of its core, found by its number. -/
abbrev alone (s : State) (r : Req) : Prop := s.reqs.filter (fun x => x.id == 4) = [r] ∧ r.id = 4 ∧ r.fromHost = false

/-- HomeSlices, writes: a store to accept, with a token and without; a held one not yet applicable; an atomic of an absent line; a write whose line
the host caches; a store of an absent line at a channel that is down; stores and atomics of a line present; stores of a hypothesis, with a version and
with a free vat entry. -/
theorem hyps_home_writes :
    (let r : Req := { storeAt 0 with stage := .egress }
     alone (atHome [r]) r ∧ firstOut (atHome [r]) r = true ∧ (l2Charge (atHome [r]) r 0x8000).isSome = true ∧
      firstOut { atHome [r] with l2Buckets := [] } r = true ∧ (l2Charge { atHome [r] with l2Buckets := [] } r 0x8000).isNone = true) ∧
    (alone (atHome [storeAt 0]) (storeAt 0) ∧ applicable { atHome [storeAt 0] with evictLease := [(homeSlice 0x8000, 99)] } (storeAt 0) 0x8000 = false) ∧
    (let s := atHome [atomAt]
     alone s atomAt ∧ applicable s atomAt 0x8000 = true ∧ heldLoads s (sectorOf 0x8000) = [] ∧ (l2Of s 0x8000).present = false ∧ channelDown s 0x8000 = false) ∧
    (let s := { inL2 resident (atHome [storeAt 0]) with hostCached := [sectorOf 0x8000] }
     alone s (storeAt 0) ∧ applicable s (storeAt 0) 0x8000 = true ∧ (writeWaits s (storeAt 0) 0x8000).isNone = true ∧ snoopDue s 0x8000 true = true) ∧
    (let s := chanDown (atHome [storeAt 0])
     alone s (storeAt 0) ∧ applicable s (storeAt 0) 0x8000 = true ∧ (writeWaits s (storeAt 0) 0x8000).isNone = true ∧ snoopDue s 0x8000 true = false ∧
      (l2Of s 0x8000).present = false ∧ channelDown s 0x8000 = true ∧ heldLoads s (sectorOf 0x8000) = []) ∧
    (∀ r ∈ [storeAt 0, storeAt 1, atomAt], let s := inL2 resident (atHome [r])
      alone s r ∧ applicable s r 0x8000 = true ∧ (writeWaits s r 0x8000).isNone = true ∧ snoopDue s 0x8000 true = false ∧ (l2Of s 0x8000).present = true ∧
        heldLoads s (sectorOf 0x8000) = [] ∧ (r.bytes.map Prod.fst).Nodup) ∧
    (let s := { atHome [storeAt 1] with versions := [{ id := 1, sector := sectorOf 0x8000 }] }
     applicable s (storeAt 1) 0x8000 = true ∧ s.versions.any (fun v => v.hctx == 0 && v.id == 1 && v.sector == sectorOf 0x8000) = true ∧
      (writeWaits s (storeAt 1) 0x8000).isNone = true ∧ (l2Same s (l2Key (sectorOf 0x8000 / 4) 0 1)).length < 16) ∧
    (let s := withRecord (atHome [storeAt 1]) fun r => { r with vatSize := 1048576, hypEnable := true }
     (firstIdx (vatEntries s 0) fun k => !((versionsOf s 0).map fun v => v.entry).contains k).isSome = true) := by decide +kernel

/-- HomeSlices, loads: one whose core has an earlier request, one without a token; one behind a held write, from its lane and from the slice; one
with none before it, its line absent, present, dirty, clean. -/
theorem hyps_home_loads :
    (let r := loadAt .egress
     alone (atHome [r]) r ∧ firstOut (atHome [{ r with id := 3 }, r]) r = false ∧ (l2Charge { atHome [r] with l2Buckets := [] } r 0x8000).isNone = true) ∧
    (let w : Req := { storeAt 0 with id := 9, acceptSeq := 2 }
     (let r := loadAt .egress
      let s := { atHome [r, w] with seq := 5 }
      alone s r ∧ firstOut s r = true ∧ (l2Charge s r 0x8000).isSome = true ∧ ∃ x ∈ heldWrites s (sectorOf 0x8000), x.acceptSeq < s.seq) ∧
     (let r := loadAt .held
      let s := { atHome [r, w] with seq := 5 }
      alone s r ∧ ∃ x ∈ heldWrites s (sectorOf 0x8000), x.acceptSeq < r.acceptSeq)) ∧
    (∀ g ∈ ([.egress, .held] : List Stage), let r := loadAt g
      let s := atHome [r]
      (r.stage = .held ∨ (r.stage = .egress ∧ firstOut s r = true ∧ (l2Charge s r 0x8000).isSome = true)) ∧ heldWrites s (sectorOf 0x8000) = [] ∧
        resolveTimes s 0x8000 = [] ∧ (l2Of s 0x8000).present = false ∧
      (∀ l ∈ [resident, { resident with dirty := 1 }], (l2Of (inL2 l s) 0x8000).present = true ∧ snoopDue (inL2 l s) 0x8000 false = false ∧
        (l2Of (inL2 l s) 0x8000).dirty = l.dirty ∧ (farVersion (inL2 l s) 0 1 (sectorOf 0x8000)).isNone = true)) := by decide +kernel

/-- HomeSlices, evictions: an absent line, a clean one, a dirty one, one hit twice; a line of one version whose vat is mapped. -/
theorem hyps_home_evictions :
    (tget {} State.reset.l2 0x80).present = false ∧ keyTag 0x80 = 0 ∧
    (∀ l ∈ [resident, { resident with dirty := 1 }, { resident with hits := 2 }], (tget {} (inL2 l State.reset).l2 0x80).present = true ∧
      (tget {} (inL2 l State.reset).l2 0x80).dirty = l.dirty ∧ (tget {} (inL2 l State.reset).l2 0x80).hits = l.hits) ∧
    (let key := l2Key 0x80 0 1
     let v : Version := { id := 1, sector := sectorOf 0x8000 }
     let s0 := mapped [] pairOfLanes
     let s := { withRecord s0 fun r => { r with vatBase := 0x8000, vatSize := 4096, hypEnable := true } with
       versions := [v], l2 := [(key, resident)], hctxs := [(0, { ctx := some 0, nodes := [(1, { state := 1 })] })] }
     (tget {} s.l2 key).present = true ∧ keyTag key ≠ 0 ∧ s.versions.filter (inKey key) = [v] ∧ (vatPa s 0 v.entry).isSome = true) := by
  decide +kernel

/-- HomeSlices, the rest: a copy past its lease; a load's reply, no other request of the same line behind it; a limit not passed, and passed with a
slot free and with none; a write's completion; a page that a group's next fetch names, with and without ACC. -/
theorem hyps_home_rest :
    (let s : State := { State.reset with ct := 9, cores := [(0, { l1 := [(5, { valid := true, expiry := 13 })] })] }
     (tget {} (s.core 0).l1 5).valid = true ∧ holds (coreCt s 0) 13 = false) ∧
    (let l : LoadI := { id := 2, dest := 3, waiting := 1 }
     let r : Req := { id := 4, place := .home 0x8000, stage := .reply, load := 2, parts := [{}] }
     let s := { small { pairOfLanes with loads := [l] } with reqs := [r] }
     s.reqs.find? (fun x => x.id == 4) = some r ∧ (∀ x ∈ s.reqs, x.join ≠ some 4) ∧ shapedFor s r = 0 ∧ guessedNow s r = false ∧
      (s.group 0 0).loadOf 2 = some l ∧ inMask l.waiting 0 = true ∧ tget 0 l.limit 0 = 0 ∧ l.sdest = none ∧
      ∀ k, k < 4 → (s.group 0 0).late l.word (vKey (l.dest + k) 0) = false) ∧
    (let l : LoadI := { id := 2, dest := 3, waiting := 1, limit := [(0, 9)] }
     let s := { small { pairOfLanes with loads := [l] } with ct := 9 }
     (s.group 0 0).loadOf 2 = some l ∧ l.slot = none ∧ limitDue s 0 0 l 0 = true ∧ limitDue { s with ct := 8 } 0 0 l 0 = false ∧ (s.group 0 0).freeSlot = some 0) ∧
    ({ pairOfLanes with slots := (List.range 16).map fun k => (k, { busy := true }) } : Group).freeSlot = none ∧
    (let r : Req := { id := 4, kind := .store, place := .home 0x8000, stage := .reply, parts := [{}], ctc := 12 }
     (atHome [r]).reqs.find? (fun x => x.id == 4) = some r ∧ r.core ≠ 64 ∧ r.inb = none ∧ r.fromHost = false ∧ r.copy = none ∧
      inMask ((atHome [r]).group 0 0).live 0 = true) ∧
    ((0, 0) ∈ walkers (mapped [] pairOfLanes) 0 0 ∧ issueSet ((mapped [] pairOfLanes).group 0 0) = some (0x8000, 3) ∧ 0x8000 < 2 ^ 48 ∧
      (match walk (mapped [] pairOfLanes) 0 0x8000 with | .ok x => x.acc && walkServes (mapped [] pairOfLanes) 0 x (0x8000, .fetch, false) | _ => false) = true) ∧
    (let s := putNum (mapped [] pairOfLanes) 0x4040 8 (pagePte 0x8000 - 0x400)
     (match walk s 0 0x8000 with | .ok x => !x.acc && walkServes s 0 x (0x8000, .fetch, false) | _ => false) = true) := by decide +kernel

/-- Block 0 with one COPY under way. -/
def withJob (j : CopyJob) (f : Block → Block) : State := modBlock (small pairOfLanes) 0 fun b => f { b with copies := [j] }

/-- EnginesAndWakes, COPY: a line with two COPYs pending, one of them at hand; the first line of a linear COPY; receivers ready; a COPY of no more moves. -/
theorem hyps_copy_events :
    (let j : CopyJob := { id := 7, dsts := [0], lines := [(0, 1)], runs := [{ dst := 256, len := 4, stage := 2, data := [1, 2, 3, 4] }] }
     let s := withJob j fun b => { b with lines := [(1, { present := false, pending := 2 })] }
     jobOf s 7 = some (0, j) ∧ (0, 1) ∈ j.lines ∧ j.status = 0 ∧ j.rbit = none ∧ copyAwake s 0 = true ∧ j.form ≠ 2 ∧ (∀ r ∈ j.runs, r.dst.toNat / 256 = 1 → (runBytes s 0 j r).isSome = true) ∧
      2 ≤ (tget {} (s.block 0).lines 1).pending) ∧
    (let j : CopyJob := { id := 7, form := 2, dsts := [0], lines := [(0, 1), (0, 2)], runs := [{ dst := 256, len := 4, stage := 2, data := [1, 2, 3, 4] }] }
     let s := withJob j fun b => { b with lines := [(1, { present := false, pending := 2 })] }
     jobOf s 7 = some (0, j) ∧ (∀ l ∈ j.lines, 1 ≤ l.2) ∧ (∀ r ∈ j.runs, r.dst.toNat / 256 = 1 → (runBytes s 0 j r).isSome = true)) ∧
    (let j : CopyJob := { id := 7, dsts := [0], rbit := some 3 }
     let s := withJob j fun b => { b with mcReady := 8 }
     jobOf s 7 = some (0, j) ∧ copyAwake s 0 = true ∧ (∀ h ∈ j.dsts, bit (s.block h).mcReady 3 = true) ∧ j.dsts.Nodup ∧
      ∀ k ∈ tkeys s.blocks, ∀ x ∈ (s.block k).copies, ¬x.id < j.id) ∧
    (let j : CopyJob := { id := 7, dsts := [0] }
     let s := withJob j id
     jobOf s 7 = some (0, j) ∧ copyFinished s 0 j = true ∧ j.status = 0 ∧ j.regs = [] ∧ queueUses s 0 2 = [] ∧ parkedOn s [0] (fun p => p.cause == pkQueue && p.detail == 2) = []) := by
  decide +kernel

/-- EnginesAndWakes, the matrix engine: a validated block and room; a command to read, at its first cycle; one whose reads are done. -/
theorem hyps_mma_events :
    (let x : MmaWait := { pc := 0x8000, mask := 3 }
     let s := onCore { mmaWait := [x] } id pairOfLanes
     ((s.core 0).mmaWait.find? (fun x => x.block == 0 && x.grp == 0 && x.lane == 0) = some x ∧ (s.core 0).mmaQ.length < 8) ∧
      inMask (s.group 0 0).live 0 = true ∧ ((s.group 0 0).lane 0).lpc = x.pc ∧ ((s.group 0 0).lane 0).park.cause = 0 ∧ inMask x.mask 0 = true ∧
      (s.group 0 0).trapMode = false ∧ running s = true ∧
      (let q := handling pairOfLanes; q.trapMode = true ∧ q.handlerSet &&& q.live &&& ~~~q.rteHeld ≠ 0)) ∧
    (let c : MmaCmd := { m := 1, n := 1, k := 8 }
     let s := onCore { mmaQ := [c] } id pairOfLanes
     (s.core 0).mmaQ = [c] ∧ c.reads < c.cycles ∧ c.start ≤ (s.core 0).cycles ∧ c.reads = 0 ∧ running s = true ∧
      ∀ p ∈ c.places c.reads, linePresent s c.block p.1 = true ∧ linePresent s c.block (p.1 + p.2 - 1) = true) ∧
    (let c : MmaCmd := { m := 128, n := 128, k := 8, reads := 1, lastRead := 3 }
     let s := onCore { mmaQ := [c], cycles := 35 } id pairOfLanes
     (s.core 0).mmaQ = [c] ∧ c.cycles ≤ c.reads ∧ c.lastRead + 32 ≤ (s.core 0).cycles ∧ running s = true ∧ c.n ≤ 128) := by decide +kernel

/-- EnginesAndWakes, the rest: a machine check and a host-link failure that wait; a sleeper whose time has come; a WAITEV with an event, and one
whose timeout has passed; a BBLOG that was held. -/
theorem hyps_wakes :
    (∀ n ∈ ([0x17, 0x1A] : List Nat), let p : PendTrap := { cause := n, eseq := 5 }
      let s := small { pairOfLanes with pend := [p] }
      boundaryOpen s 0 0 = true ∧ (s.group 0 0).live ≠ 0 ∧ p.cm = none ∧ nextPend (s.group 0 0) (· == n) = some p) ∧
    (let s := small { pairOfLanes with lanes := [(0, { lpc := 0x8000, park := { cause := 8, x := 0 } })] }
     parkedNow s 0 0 0 8 = true ∧ ((s.group 0 0).lane 0).park.x.toNat ≤ coreCt s 0) ∧
    (let q := { pairOfLanes with lanes := [(0, { lpc := 0x8000, park := { cause := 10, x := 16, y := 9, insn := some { d := 3 } } })] }
     parkedNow (withQueue [7] q) 0 0 0 10 = true ∧ eventsNow (withQueue [7] q) 0 16 (0, 0, 0) ≠ 0 ∧ opD { d := 3 } = .v 3 ∧
      eventsNow (withQueue [] q) 0 16 (0, 0, 0) = 0 ∧ ((withQueue [] q).group 0 0 |>.lane 0).park.since + 9 ≤ coreCt { withQueue [] q with ct := 9 } 0) ∧
    (let x : LogWait := { code := 6 }
     let s := oneGang (fun c => { c with logWait := [x], lastLog := some 0 }) id
     (s.context 0).logWait.find? (fun x => (s.block x.block).resident && !(s.group x.block x.grp).stopped) = some x ∧
      logReady { s with ct := 1500 } 0 = true) := by decide +kernel

/-- Hypothesis context 0 of context 0 with one resolve. -/
def resolving (r : Resolve) : State := { oneLaneHyp 0 [(1, { state := 2, depth := 1 })] pairOfLanes with
  ct := 9, hctxs := [(0, { ctx := some 0, nodes := [(1, { state := 2, depth := 1 }), (2, { state := 3 })], queue := [r] })] }

/-- ResolveSteps: E to be fixed; E reached, of a refute and of a confirm; an id that retires; a lane to redirect. -/
theorem hyps_resolve :
    (let r : Resolve := { id := 1, ids := [1], started := true }
     ((resolving r).hctxOf 0).queue = [r] ∧ r.e = none ∧
      egressClear (resolving r) 0 (resolveIds (resolving r) 0 r) = true ∧ storesDone (resolving r) 0 (resolveIds (resolving r) 0 r) = true ∧
      farVersions (resolving r) 0 r = [] ∧ hostSectors (resolving r) 0 r = [] ∧
      (let q : Req := { kind := .store, place := .home 0x8000, hyp := 1 }
       egressClear { resolving r with reqs := [q] } 0 (resolveIds (resolving r) 0 r) = false ∧
        storesDone { resolving r with reqs := [{ q with stage := .held }] } 0 (resolveIds (resolving r) 0 r) = false)) ∧
    (∀ c ∈ ([true, false] : List Bool), let r : Resolve := { id := 1, ids := [1], started := true, e := some 9, confirm := c }
      ((resolving r).hctxOf 0).queue = [r] ∧ ((resolving r).hctxOf 0).ctx = some 0 ∧ 9 ≤ dieCt (resolving r) 0 ∧ 9 ≤ dieCt (resolving r) 1 ∧
        (resolving r).ct = 9 ∧ dieCt { resolving r with ct := 8 } 0 < 9 ∧ r.id ≠ 0 ∧ (resolving r).versions = []) ∧
    (let r : Resolve := { id := 1, ids := [1], started := true, e := some 9, confirm := true }
     let v : Version := { id := 1, sector := sectorOf 0x8000, mask := 1, data := [(0, 7)] }
     let s := { resolving r with versions := [v] }
     (s.hctxOf 0).queue = [r] ∧ (nodeOf s 0 1).parent = 0 ∧ s.versions.filter (fun w => w.hctx == 0 && w.id == r.id) = [v] ∧ v.stored = false ∧
      channelDown { s with memChans := [(channelOf 0x8000, { state := 0 })] } (64 * v.sector) = false ∧ (l2Of (inL2 resident s) (64 * v.sector)).present = true) ∧
    ((nodeOf (resolving { id := 1 }) 0 2).state = 3 ∧ egressClear (resolving { id := 1 }) 0 [2] = true ∧ idServed (resolving { id := 1 }) 0 2 = true ∧
      discarding (resolving { id := 1 }) 0 2 = false) ∧
    (let s := { small { pairOfLanes with live := 1, lanes := [(0, { lpc := 0x8000, refuted := some (1, 0, 0x80, 1) })] } with
        hctxs := [(0, { queue := [{}] })] }
     boundaryOpen s 0 0 = true ∧ 0 ∈ refutedLanes (s.group 0 0) ∧ (s.group 0 0).trapMode = false ∧ (s.hctxOf 0).queue = [{}] ∧
      ((s.group 0 0).lane 0).refuted = some (1, 0, 0x80, 1)) := by decide +kernel

/-- Partition 0 as given. -/
def withPart (q : Part_) (c : Core) : State := { State.reset with parts := [(0, q)], cores := [(0, c)] }

/-- HostRegisters: rings inside the partition and outside; no invalidation under way; one with nothing older on its way, and one with a request of an
older generation; the fault of a parked group. -/
theorem hyps_registers :
    (let x := 2 ^ 63
     let s := withPart { granN := 1 } {}
     bit x 63 = true ∧ ringOk s 0 0 (8 * 2 ^ (0 + 9)) = true ∧ ringOk s 0 (2 ^ 30 - 4096) (16 * 2 ^ (1 + 8)) = false ∧ (s.part 0).invBusy = false) ∧
    (let s := withPart { invBusy := true, gen := 4 } {}
     (s.part 0).invBusy = true ∧ olderGone s 0 = true ∧ (s.part 0).invBy = none ∧
      olderGone { s with reqs := [{ gen := 3 }] } 0 = false) ∧
    (let f : FaultId := { id := 65535, page := 0x8000, lanes := 3 }
     let q := { pairOfLanes with pfParked := true, faultIds := [f] }
     let s := { small q with parts := [(0, { outstanding := [65535] })] }
     65535 ∈ (s.part 0).outstanding ∧ 0 ∈ partCtxs s 0 ∧ 0 ∈ blocksOf s 0 ∧ 0 ∈ tkeys (s.block 0).groups ∧ (s.group 0 0).faultIds = [f] ∧ f.replied = false ∧
      (s.group 0 0).pfParked = true ∧ (s.group 0 0).stopped = false ∧ (s.block 0).resident = true ∧ (s.group 0 0).trapMode = false ∧
      (s.block 0).copies = [] ∧ (s.context 0).saveFault = none ∧ (s.block 0).ctx = 0 ∧ (s.context 0).part = 0 ∧ 5 ∉ (s.part 0).outstanding) ∧
    (let s : State := { State.reset with hostLink := { State.reset.hostLink with hdmOn := true, hdmBase := 2 ^ 40 } }
     s.hostLink.hdmOn = true ∧ s.hostLink.hdmBase ≤ 2 ^ 40 ∧ 2 ^ 40 < s.hostLink.hdmBase + 2 ^ 39) := by decide +kernel

/-- The mailbox's arguments. -/
abbrev withArgs (a : List W64) (s : State) : State :=
  { s with svc := { s.svc with args := (a.zipIdx.map fun e => (e.2, e.1)).filter fun e => e.2 != 0 } }

/-- MailboxCommands: PART_SET allowed and denied; PART_CLEAR of an empty partition and of one with a context; an image at the rollback minimum;
a swap with and without a staged image; a channel and a port that may be retrained; a core no partition has, one that may be drained and one that may
not, one that is empty; a retired core. -/
theorem hyps_mailbox :
    0x99 ∉ knownCmds ∧ State.reset.svc.busy = false ∧
    (let s := withArgs [w64 (3 * 2 ^ 48 + 2 ^ 39 + 1), w64 (2 * 512 + 510), w64 0x20001, 0x5000] State.reset
     onlyFields (mboxArg s 0) [(51, 48), (47, 40), (39, 0)] = true ∧ onlyFields (mboxArg s 1) [(18, 9), (8, 0)] = true ∧
      onlyFields (mboxArg s 2) [(31, 16), (15, 0)] = true ∧ onlyFields (mboxArg s 3) [(38, 12)] = true ∧ bits (mboxArg s 1) 8 0 + bits (mboxArg s 1) 18 9 = 512 ∧
      bits (mboxArg s 1) 18 9 ≠ 0 ∧ partSetDenied s 3 (2 ^ 39 + 1) 510 2 = false ∧
      partSetDenied { s with parts := [(0, { set := true, coreMask := 1, granN := 1 })] } 3 (2 ^ 39 + 1) 510 2 = true) ∧
    (partCtxs (small pairOfLanes) 0 ≠ [] ∧ partCtxs State.reset 0 = [] ∧ (State.reset.part 0).chans = [] ∧
      (∃ e ∈ ((withChan onChan id).part 0).chans, e.2.enable = true)) ∧
    (2 ^ 23 < mboxArg (withArgs [0, 2 ^ 23 + 1] State.reset) 1 ∧ mboxArg (withArgs [4096, 2 ^ 23] State.reset) 1 ≤ 2 ^ 23 ∧
      mboxArg (withArgs [4096, 2 ^ 23] State.reset) 0 + 2 ^ 23 ≤ Config.memBytes ∧ State.reset.svc.staged = false ∧ ({ State.reset.svc with staged := true, swapping := true } : Service).staged = true) ∧
    (mboxArg (withArgs [255] State.reset) 0 = 255 ∧ State.reset.retraining = none ∧ (State.reset.memChan 255).state ≠ 2 ∧
      ((onFabric { state := 2 }).port (mboxArg (withArgs [] (onFabric { state := 2 })) 0)).state = 2) ∧
    (onlyFields 0x127 [(5, 0), (8, 8)] = true ∧ bits 0x127 5 0 = 39 ∧ bits 0x127 8 8 = 1 ∧ coreOwner State.reset 39 = none) ∧
    (let s := withArgs [0x100] { small pairOfLanes with
        parts := [(0, { set := true, coreMask := 3 })], ctxs := [(0, { live := true, record := { gx := 1, gy := 1, gz := 1 } })] }
     let t := { taken s 0x32 with svc := { (taken s 0x32).svc with draining := some (0, 1) } }
     coreOwner s 0 = some 0 ∧ drainFits t 0 = true ∧ (0, 0) ∈ gangsOnCore s 0 ∧
      drainFits { t with parts := [(0, { set := true, coreMask := 1 })] } 0 = false ∧ blocksOn State.reset 0 = []) ∧
    (({ State.reset with cores := [(0, { retired := true })] } : State).core 0).retired = true := by decide +kernel

/-- FabricCommands: ports that may train, with a position and with one to set; keys for a port that is down and has no idle key, and for one that has;
a quiesce of a peer with a session and without, after its requests, and once every group has stopped; a session no other partition has. -/
theorem hyps_fabric_commands :
    (let s := onFabric { tx := keyed, rx := keyed }
     cannotTrain s 0 = false ∧ s.position.isSome = true ∧ (s.port 13).state = 0 ∧ onlyFields 1 [(24, 24), (22, 20), (18, 16), (13, 0)] = true ∧
      ((List.range 14).filter (bit 1)) = [0] ∧ bit (2 ^ 24 + 3 * 2 ^ 16 + 1) 24 = true) ∧
    (∀ n ∈ ([0, 1, 2] : List Nat), bits (n * 256 + 13) 9 8 = n ∧ onlyFields (n * 256 + 13) [(9, 8), (3, 0)] = true ∧ bits (n * 256 + 13) 3 0 < 14) ∧
    rxLive {} = false ∧ txLive {} = false ∧ rxLive { rx := { key1 := some [] } } = true ∧ txLive { tx := { key1 := some [] } } = true ∧
    ((onFabric { state := 2 }).port 0).state ≠ 0 ∧
    (State.reset.svc.quiesce = none ∧ onlyFields (2 ^ 48 + 63) [(51, 48), (5, 0)] = true ∧ bits (2 ^ 48 + 63) 51 48 = 1 ∧ bits (2 ^ 48 + 63) 5 0 = 63 ∧
      tget none (State.reset.part 1).sessions 63 = none ∧ (tget none ((withSession {}).part 0).sessions 1).isSome = true) ∧
    ((peerReqs (withSession {}) 0 fun x => x != 1 && !(withSession {}).lostPeers.contains x) = [] ∧ quiesceTaken (withSession {}) 0 = true) ∧
    (onlyFields (2 ^ 48 + 2 ^ 40) [(51, 48), (45, 40), (35, 32), (31, 0)] = true ∧ onlyFields 0x103 [(8, 8), (3, 0)] = true ∧
      ∀ o, o < 12 → tget none (State.reset.part o).sessions 1 = none) := by decide +kernel

/-- A portable image at 0x40000: LENGTH as given, a record of one gang, all gangs placed, no block. Its digest is that of a header of zeros. -/
def withImage (len : Nat) : State :=
  let s := { State.reset with parts := [(0, { set := true, coreMask := 1, granN := 1 })] }
  let s := putNum s 0x40000 8 1
  let s := putNum s 0x40008 8 len
  let s := putNum s 0x40020 8 0x10000
  let s := putNum s 0x40038 8 (1 + 2 ^ 21 + 2 ^ 42)
  let s := putNum s 0x40048 8 (1024 + 1024 * 2 ^ 32)
  let s := putNum s 0x40060 8 (2 ^ 40)
  let s := putNum s 0x40138 8 1
  withArgs [0, 0x40000, 0x1000] (putNum s 0x401C0 64 0x8100c20574882be2246af95ab236f206287debe63c5f358370b18e7a2b753f5066bf4bb40cde14adeae6fe1e436928f7fa09ff3ca798c611e679418fa4fde97b)

/-- FreezeAndResume: a range of the partition; no context of the name, and one with a gang; an image due and not; an image that passes every check, and
one whose digest does not match. -/
theorem hyps_freeze :
    (let s := withImage 0
     onlyFields (mboxArg s 0) [(51, 48), (35, 32), (31, 0)] = true ∧ onlyFields (mboxArg s 1) [(38, 12)] = true ∧ onlyFields (mboxArg s 2) [(47, 0)] = true ∧
      ownsRange s 0 (mboxArg s 1) (mboxArg s 2) = true ∧ namedCtx s 0 0 0 = none) ∧
    (namedCtx (small pairOfLanes) 0 0 0 = some 0 ∧ imageMax (small pairOfLanes) 0 ≤ 2 ^ 29 ∧ gangsLeft (small pairOfLanes) 0 = true ∧
      onlyFields (2 ^ 29) [(47, 0)] = true ∧ ownsRange (small pairOfLanes) 0 0 (2 ^ 29) = true) ∧
    (freezeReady (small pairOfLanes) 0 = true ∧ freezeReady (oneGang (fun c => { c with saving := [0] }) id) 0 = false) := by decide +kernel

theorem hyps_resume : resumeError (taken (withImage 0) 0x61) 0 0 0 0x40000 0x1000 (parseRecord (memBytes (withImage 0) 0x40020 256)) = 0 := by
  decide +kernel
theorem hyps_resume_fails : resumeError (taken (withImage 0x1001) 0x61) 0 0 0 0x40000 0x1000 (parseRecord (memBytes (withImage 0x1001) 0x40020 256)) = 10 := by
  decide +kernel

/-! ## Results that the manual works out -/

/-- The V register n of lane 0 after a word whose sources are the V registers of lane 0 given, and P1 of lane 0 true; context 0's slot 0 is a
block-scaled KT8 format. -/
def after (i : Instr) (regs : List (Nat × W32)) (n : Nat) : Option W32 :=
  let s := withRecord (small { pairOfLanes with live := 1, regs := regs.map fun e => (vKey e.1 0, e.2), preds := [(32, true)] }) fun r =>
    { r with slots := [0x50] }
  match exec i s with
  | .next u => some ((u.group 0 0).vReg n 0)
  | _ => none

/-- The results of R318 to R339 that the manual lists. -/
theorem test_integer_results :
    after (.iadd { ty := 6, mod := 1, d := 5, a := 1, b := 2 }) [(1, 0x7FFFFFF0), (2, 0x20)] 5 = some 0x7FFFFFFF ∧
    after (.isub { ty := 10, d := 5, a := 1, b := 2 }) [(1, 5), (2, 9)] 5 = some 0xFFFFFFFC ∧
    after (.imulh { ty := 6, d := 5, a := 1, b := 2 }) [(1, 0xFFFFFFFE), (2, 3)] 5 = some 0xFFFFFFFF ∧
    after (.imulh { ty := 10, d := 5, a := 1, b := 2 }) [(1, 0xFFFFFFFE), (2, 3)] 5 = some 2 ∧
    after (.iaddc { form := .c, ty := 2, d := 5, a := 1, b := 2, ext := 0x1421 }) [(1, 0xFFFFFFFF), (2, 1)] 5 = some 1 ∧
    after (.dp4 { ty := 6, sub := 2, d := 5, a := 1, b := 2 }) [(1, 0xFF020301), (2, 0x0A0A0A0A)] 5 = some 50 ∧
    after (.iabs { ty := 6, d := 5, a := 1 }) [(1, 0x80000000)] 5 = some 0x80000000 ∧
    after (.iabs { ty := 6, mod := 1, d := 5, a := 1 }) [(1, 0x80000000)] 5 = some 0x7FFFFFFF := by decide +kernel

theorem test_bit_results :
    after (.shra { ty := 6, d := 5, a := 1, b := 40, bk := 3 }) [(1, 0x80000000)] 5 = some 0xFFFFFFFF ∧
    after (.shra { ty := 6, mod := 1, d := 5, a := 1, b := 40, bk := 3 }) [(1, 0x80000000)] 5 = some 0xFF800000 ∧
    after (.fshf { form := .c, ty := 2, d := 5, a := 1, b := 2, ext := 0x608 }) [(1, 0x12345678), (2, 0xABCDEF01)] 5 = some 0xCDEF0112 ∧
    after (.bfx { form := .c, ty := 6, d := 5, a := 1, b := 8, bk := 3, ext := 0x604 }) [(1, 0xF00)] 5 = some 0xFFFFFFFF ∧
    after (.bfx { form := .c, ty := 10, d := 5, a := 1, b := 30, bk := 3, ext := 0x608 }) [(1, 0xC0000000)] 5 = some 3 ∧
    after (.clz { ty := 2, d := 5, a := 1 }) [(1, 0x10000)] 5 = some 15 ∧
    after (.lea { ty := 3, sub := 2, mod := 1, d := 6, a := 1, b := 2 }) [(1, 0xFFFFFFFF), (2, 0x100000)] 6 = some 0xFFFFC := by decide +kernel

/-- The examples of R350, R355 and R361. -/
theorem test_float_results :
    after (.ffma { form := .c, d := 4, a := 1, b := 1, ext := 2 }) [(1, 0x3F800800), (2, 0xBF801000)] 4 = some 0x33800000 ∧
    after (.faddPacked8 { ty := 7, mod := 4, d := 4, a := 5, b := 6 }) [(5, 0xC07F387E), (6, 0xC0383068)] 4 = some 0xC87F3C7E ∧
    after (.faddPacked8 { ty := 7, d := 4, a := 5, b := 6 }) [(5, 0xC07F387E), (6, 0xC0383068)] 4 = some 0xC87F3C7F ∧
    after (.faddPacked8 { ty := 7, mod := 8, d := 4, a := 5, b := 6 }) [(5, 0xC07F387E), (6, 0xC0383068)] 4 = some 0 ∧
    after (.frnd { d := 4, a := 1 }) [(1, 0x40200000)] 4 = some 0x40000000 ∧ after (.frnd { d := 4, a := 1, mod := 2 }) [(1, 0xBF000000)] 4 = some 0xBF800000 := by
  decide +kernel

/-- The example of R357. -/
theorem test_scale_results :
    after (.scale { d := 24, a := 16, mod := 2 }) [(16, 0x42C80000)] 24 = some 0x41000000 ∧
    after (.scale { d := 20, a := 12, b := 24, ty := 2 }) [(12, 0x42C80000), (13, 0xC0533333), (14, 0x3C23D70A), (24, 0x41000000)] 20 = some 0x000DB579 ∧
    after (.scale { d := 28, a := 20, b := 24, ty := 2, mod := 1 }) [(20, 0x000DB579), (24, 0x41000000)] 29 = some 0xC0500000 := by decide +kernel

/-- The example of R239: one block of KT8 products summed exactly. -/
theorem test_matrix_element :
    mmaElem { m := 1, n := 1, k := 3, fa := 0, fb := 0, aBuf := [(0, 0x7F), (1, 1), (2, 0x7F)], bBuf := [(0, 0x7F), (1, 1), (2, 0xFF)] } 0 0 0 = 0x27800000 := by
  decide +kernel

/-- The example of R428: a load whose base has path code 9 raises ADDRESS at its own address, and nothing is written. -/
theorem test_address_trap :
    (match exec (.ld { form := .m, d := 4, a := 8, ty := 2 }) (tabled 0x2001 0x2001 6 (bases 0x8000 (9 * 2 ^ 56))) with
      | .next u => ((u.group 0 0).trapCause.toNat % 256, (u.group 0 0).faultMask.toNat, ((u.group 0 0).lane 1).lpc.toNat)
      | _ => (0, 0, 0)) = (6, 2, 0x2000) := by decide +kernel

/-! ## felkin and scefold -/

section

open Sys2Proof.Felkin

/-- The words of one line's instruction, as they lie in memory. -/
def wordsOf (s : String) (pc : Nat) (env : Text → Option Nat) : List Nat :=
  match assembleLine s.toList env pc with
  | .ok i => (List.range (sizeOf_ i / 4)).map fun k => recField (encode i) (4 * k) 4
  | .error _ => []
theorem test_felkin_a_form : wordsOf "(P3) ISUB.i32 V10, V10, 1 ^3y" 0 (fun _ => none) = [0x00A180CC, 0x06C0020A] := by decide
theorem test_felkin_i_form : wordsOf "FMUL.f32 V8, V9, 1.5" 0 (fun _ => none) = [0x0087A101, 0x00000009, 0x3FC00000] := by decide
theorem test_felkin_c_form : wordsOf "FFMA.f32 V8, V9, V10, V11 ^4" 0 (fun _ => none) = [0x0087A191, 0x00001409, 0x0000000B] := by decide
theorem test_felkin_branch : wordsOf "(P1) BRA loop ^1" 0x140 (fun t => if t = "loop".toList then some 0x100 else none) = [0x00009005, 0, 0xFFFFFFC0] := by decide
theorem test_felkin_m_form : wordsOf "LD.acq.dev.b32 V20, [V8:V9+0x100], lim=256, gsrc=stride" 0 (fun _ => none) = [0x0147B802, 0x02000008, 0x010002E6, 0] := by decide
theorem test_felkin_pair_legal : wordsOf "FADD.f32 V4, V5, V6 || AND.b32 V7, V9, V11" 0 (fun _ => none) ≠ [] := by decide
theorem test_felkin_pair_illegal : wordsOf "FADD.f32 V4, V5, V6 || FMUL.f32 V8, V9, V10" 0 (fun _ => none) = [] := by decide
theorem test_felkin_format : formatOf "e4m3".toList ["sat".toList, "rnd=rtz".toList] = some 0x1201 := by decide
/-- R286's example: the LDS stands after three pad words, and the label names it. -/
def padded : String := ".kernel k\n IADD.i32 V5, V6, V7 ^2\n FFMA.f32 V8, V9, V10, V11 ^4\nlast: LDS.b32 V12, [V2+0x40], lim=16, gsrc=faded\n.end"
def padsOf (s : String) : List (List Nat × Nat × List Nat) :=
  match assemble s.toList with
  | .ok o => o.kernels.map fun k => (k.insns.map Prod.fst, k.regs, k.labels.map Prod.snd)
  | .error _ => []

set_option maxRecDepth 8000 in
theorem test_felkin_pads : padsOf padded = [([0, 8, 0x20], 16, [0x20])] := by decide

def landed : String := ".kernel k\n.regs 48\n.landing V40, 8\n EXIT\n.end"
theorem test_felkin_landing : (match assemble landed.toList with | .ok o => o.kernels.map (·.landing) | .error _ => []) = [0x2028] := by decide
/-- The example of R321. -/
theorem test_scefold_records : (emitAll [(0, 3), (1, 3), (2, 3)] 4).map (fun e => (e.done, e.waits, e.prior)) =
    [(0, [3], true), (1, [3], true), (2, [3], true), (4, [0, 1], false), (3, [4, 2], false)] := by decide

end

end Sys2Proof.Tests
end

section
/-! PROOF. Shifts and bit fields (R334–R336): what the words of two and three sources compute, and the values of FSHF and BFUNC. -/

namespace Sys2Proof.Machine

/-! ## Words of two and three sources -/

/-- The value of a word may be given by any expression equal to it in each lane. -/
theorem ComputesAs.congr {c : Insn → Instr} {op : Nat} {w : Insn} {ty : Ty} {srcs : List (Opd × Nat)} {f g : State → Iss → Nat → Nat}
    (h : ComputesAs c op w ty srcs f) (hfg : ∀ s i L, f s i L = g s i L) : ComputesAs c op w ty srcs g := by
  rwa [show f = g from funext fun s => funext fun i => funext (hfg s i)] at h

theorem computesAs_of_alu2 {c : Insn → Instr} {op : Nat} {w : Insn} {lat : Nat} {ta tb rt : Ty} {f : Nat → Nat → Nat}
    (h : ∀ s, exec (c w) s = .next (alu2 op w s lat ta tb rt f)) :
    ComputesAs c op w rt (opsAB op w) fun s i L => f (srcA ta w s i L) (srcB tb w s i L) :=
  fun s _ hi he => ⟨_, h s, alu_computes hi _ lat rt (opD w) (opsAB op w)
    (fun s i L => f (srcA ta w s i L) (srcB tb w s i L)) rfl he⟩

theorem computesAs_of_alu3 {c : Insn → Instr} {op : Nat} {w : Insn} {lat : Nat} {ta tb tc rt : Ty} {f : Nat → Nat → Nat → Nat}
    (h : ∀ s, exec (c w) s = .next (alu3 op w s lat ta tb tc rt f)) :
    ComputesAs c op w rt (opsABC op w) fun s i L => f (srcA ta w s i L) (srcB tb w s i L) (srcC tc w s i L) :=
  fun s _ hi he => ⟨_, h s, alu_computes hi _ lat rt (opD w) (opsABC op w)
    (fun s i L => f (srcA ta w s i L) (srcB tb w s i L) (srcC tc w s i L)) rfl he⟩

/-! ## The words of class 0x1 -/

theorem computesAs_shl (w : Insn) : ComputesAs .shl 0x10 w (tyD 0x10 w) (opsAB 0x10 w) fun s i L =>
    shlFn (sat0 w) (tyD 0x10 w) (srcA (tyD 0x10 w) w s i L) (srcB .b32 w s i L) := computesAs_of_alu2 fun _ => rfl

theorem computesAs_shr (w : Insn) : ComputesAs .shr 0x11 w (tyD 0x11 w) (opsAB 0x11 w) fun s i L =>
    shrFn (sat0 w) (tyD 0x11 w) (srcA (tyD 0x11 w) w s i L) (srcB .b32 w s i L) := computesAs_of_alu2 fun _ => rfl

theorem computesAs_shra (w : Insn) : ComputesAs .shra 0x12 w (tyD 0x12 w) (opsAB 0x12 w) fun s i L =>
    shraFn (sat0 w) (tyD 0x12 w) (srcA (tyD 0x12 w) w s i L) (srcB .b32 w s i L) := computesAs_of_alu2 fun _ => rfl

theorem computesAs_fshf (w : Insn) : ComputesAs .fshf 0x13 w .b32 (opsABC 0x13 w)
    (onABC .b32 w (fshfFn (w.sub.toNat == 1) (sat0 w))) := computesAs_of_alu3 fun _ => rfl

theorem computesAs_bfunc (w : Insn) : ComputesAs .bfunc 0x18 w (tyD 0x18 w) (opsABC 0x18 w)
    (onABC (tyD 0x18 w) w (bfuncFn (tyD 0x18 w) (xmod w % 256))) := computesAs_of_alu3 fun _ => rfl

theorem exec_bfx_c {w : Insn} (hc : w.form = .c) (s : State) :
    exec (.bfx w) s = .next (alu3 0x1C w s 4 (tyD 0x1C w) (tyD 0x1C w) (tyD 0x1C w) (tyD 0x1C w) (bfxFn (tyD 0x1C w))) :=
  congrArg Host.Outcome.next (if_pos hc)

theorem exec_bfx_a {w : Insn} (ha : w.form ≠ .c) (s : State) :
    exec (.bfx w) s = .next (alu2 0x1C w s 4 (tyD 0x1C w) (tyD 0x1C w) (tyD 0x1C w) fun a b => bfxFn (tyD 0x1C w) a b (b / 256)) :=
  congrArg Host.Outcome.next (if_neg ha)

/-- BFX in the c form takes its length from C. -/
theorem computesAs_bfx_c (w : Insn) (hc : w.form = .c) : ComputesAs .bfx 0x1C w (tyD 0x1C w) (opsABC 0x1C w)
    (onABC (tyD 0x1C w) w (bfxFn (tyD 0x1C w))) := computesAs_of_alu3 (exec_bfx_c hc)

/-- BFX in the a form takes its length from bits 15:8 of B. -/
theorem computesAs_bfx_a (w : Insn) (ha : w.form ≠ .c) : ComputesAs .bfx 0x1C w (tyD 0x1C w) (opsAB 0x1C w)
    (onAB (tyD 0x1C w) w fun a b => bfxFn (tyD 0x1C w) a b (b / 256)) := computesAs_of_alu2 (exec_bfx_a ha)

theorem computesAs_bfi (w : Insn) : ComputesAs .bfi 0x1D w (tyD 0x1D w) (opsABC 0x1D w)
    (onABC (tyD 0x1D w) w (bfiFn (tyD 0x1D w))) := computesAs_of_alu3 fun _ => rfl

/-! ## The values of FSHF and BFUNC -/

/-- FSHF with its direction as a number: SUB is 1 for .r (R333). -/
theorem fshfFn_beq (sub : Nat) (wr : Bool) (a b c : Nat) : fshfFn (sub == 1) wr a b c =
    if sub = 1 then (b * 2 ^ 32 + a) / 2 ^ (if wr then c % 32 else min c 32) % 2 ^ 32
    else (b * 2 ^ 32 + a) * 2 ^ (if wr then c % 32 else min c 32) % 2 ^ 64 / 2 ^ 32 := by
  simp only [fshfFn, beq_iff_eq]

theorem foldl_add_eq_sum_map (f : Nat → Nat) (xs : List Nat) : xs.foldl (fun acc k => acc + f k) 0 = (xs.map f).sum := by
  rw [List.sum_eq_foldl, List.foldl_map]

theorem b2n_mul (x : Bool) (n : Nat) : b2n x * n = if x then n else 0 := by
  cases x <;> simp [b2n]

/-- BFUNC is the sum of 2^k over the bits k that the map sets. -/
theorem bfuncFn_eq_sum (t : Ty) (m a b c : Nat) : bfuncFn t m a b c =
    ((List.range (tyBits t)).map fun k => if mapBit m (bit a k) (bit b k) (bit c k) then 2 ^ k else 0).sum := by
  simp only [bfuncFn, foldl_add_eq_sum_map, b2n_mul]

/-! ## The statements -/

/-- Settles O3: each word computes its function of the model, which is the stated value by definition; FSHF tests SUB as a Bool. -/
theorem shifts : Obligations.Shifts := fun w =>
  ⟨computesAs_shl w, computesAs_shr w, computesAs_shra w, (computesAs_fshf w).congr fun _ _ _ => fshfFn_beq ..⟩

/-- Settles O4: each word computes its function of the model, which is the stated value by definition; BFUNC folds where a sum is stated. -/
theorem bitFields : Obligations.BitFields := fun w =>
  ⟨(computesAs_bfunc w).congr fun _ _ _ => bfuncFn_eq_sum .., computesAs_bfx_c w, computesAs_bfx_a w, computesAs_bfi w⟩

end Sys2Proof.Machine
end

section
/-! PROOF. Bytes and numbers (R232). -/

set_option Elab.async false

namespace Sys2Proof.Machine

@[simp] theorem leBytes_length (n x : Nat) : (leBytes n x).length = n := by simp [leBytes]

theorem leBytes_succ (n x : Nat) : leBytes (n + 1) x = BitVec.ofNat 8 x :: leBytes n (x / 256) := by
  simp only [leBytes, List.range_succ_eq_map, List.map_cons, List.map_map, Nat.mul_zero, Nat.shiftRight_zero, List.cons.injEq, true_and]
  refine List.map_congr_left fun k _ => ?_
  simp only [Function.comp_apply, Nat.shiftRight_eq_div_pow, Nat.div_div_eq_div_mul]
  rw [show 2 ^ (8 * k.succ) = 256 * 2 ^ (8 * k) by rw [Nat.mul_succ, Nat.pow_add]; omega]

@[simp] theorem ofLeBytes_nil : ofLeBytes [] = 0 := rfl

theorem ofLeBytes_cons (b : Byte) (bs : List Byte) : ofLeBytes (b :: bs) = b.toNat + 256 * ofLeBytes bs := rfl

theorem ofLeBytes_append (as bs : List Byte) : ofLeBytes (as ++ bs) = ofLeBytes as + 256 ^ as.length * ofLeBytes bs := by
  induction as with
  | nil => simp
  | cons a as ih => rw [List.cons_append, ofLeBytes_cons, ofLeBytes_cons, ih, List.length_cons]; ring

/-- The bytes of a number read back as the number, cut to their width. -/
theorem ofLeBytes_leBytes (n x : Nat) : ofLeBytes (leBytes n x) = x % 256 ^ n := by
  induction n generalizing x with
  | zero => simp [leBytes, Nat.mod_one]
  | succ n ih =>
    rw [leBytes_succ, ofLeBytes_cons, ih, BitVec.toNat_ofNat, pow_succ' 256 n]
    exact (Nat.mod_mul (x := x) (a := 256) (b := 256 ^ n)).symm

/-- The number of a list of bytes has those bytes. -/
theorem leBytes_ofLeBytes (bs : List Byte) : leBytes bs.length (ofLeBytes bs) = bs := by
  induction bs with
  | nil => rfl
  | cons b bs ih =>
    have hb := b.isLt
    rw [List.length_cons, leBytes_succ, ofLeBytes_cons, Nat.add_mul_div_left _ _ (by decide), Nat.div_eq_of_lt hb, Nat.zero_add, ih]
    congr 1
    apply BitVec.eq_of_toNat_eq
    rw [BitVec.toNat_ofNat]; omega

theorem ofLeBytes_lt (bs : List Byte) : ofLeBytes bs < 256 ^ bs.length := by
  rw [← leBytes_ofLeBytes bs, ofLeBytes_leBytes, leBytes_length]
  exact Nat.mod_lt _ (by positivity)

theorem leBytes_take {k n : Nat} (h : k ≤ n) (x : Nat) : (leBytes n x).take k = leBytes k x := by
  rw [leBytes, ← List.map_take, List.take_range, Nat.min_eq_left h, leBytes]

/-- The two lowest bits of a number are those of its first byte. -/
theorem ofLeBytes_take_mod_four (bs : List Byte) {n : Nat} (h : 1 ≤ n) : ofLeBytes (bs.take n) % 4 = ofLeBytes bs % 4 := by
  obtain ⟨m, rfl⟩ := Nat.exists_eq_add_of_le' h
  cases bs with
  | nil => rfl
  | cons b bs => rw [List.take_succ_cons, ofLeBytes_cons, ofLeBytes_cons]; omega

theorem bits_eq_div_mod (x hi lo : Nat) : bits x hi lo = x / 2 ^ lo % 2 ^ (hi + 1 - lo) := by rw [bits, Nat.shiftRight_eq_div_pow]

end Sys2Proof.Machine
end

section
/-! PROOF. The encoder and the decoder undo each other (R284–R305). -/

set_option Elab.async false

namespace Sys2Proof

open Sys2Proof.Machine Sys2Proof.Laws

/-! ## OP, SUB and FORM tell the instruction -/

/-- Every instruction is the one that its opcode and fields name. -/
theorem encodingStatement (i : Instr) : Encoding.Statement i := by
  cases i
  case sleepRel w => exact Encoding.sleepRel w
  case sleepAbs w => exact Encoding.sleepAbs w
  case clkCt w => exact Encoding.clkCt w
  case clkCyc w => exact Encoding.clkCyc w
  case hopen w => exact Encoding.hopen w
  case hopenG w => exact Encoding.hopenG w
  case hresolveConfirm w => exact Encoding.hresolveConfirm w
  case hresolveRefute w => exact Encoding.hresolveRefute w
  case tkpassClaim w => exact Encoding.tkpassClaim w
  case tkpassMat w => exact Encoding.tkpassMat w
  case tkpassVec w => exact Encoding.tkpassVec w
  case tkpassFree w => exact Encoding.tkpassFree w
  case copyTload w => exact Encoding.copyTload w
  case copyTstore w => exact Encoding.copyTstore w
  case copyLin w => exact Encoding.copyLin w
  case copyMcast w => exact Encoding.copyMcast w
  case rte w => exact Encoding.rte w
  case rteNext w => exact Encoding.rteNext w
  case tlbinvPage w => exact Encoding.tlbinvPage w
  case tlbinvAll w => exact Encoding.tlbinvAll w
  case perfStart w => exact Encoding.perfStart w
  case perfStop w => exact Encoding.perfStop w
  case perfClear w => exact Encoding.perfClear w
  all_goals first | exact Encoding.wordless rfl | exact Encoding.alone rfl rfl

/-- What an opcode and fields name has them, and its SUB or FORM. -/
theorem instrParts_of_mkInstr {op : Nat} {w : Insn} {i : Instr} (h : mkInstr op w = some i) :
    instrParts i = some (op, w) ∧ selectOk i = true := by
  unfold mkInstr at h
  split at h <;> (try split at h) <;> cases h <;> refine ⟨rfl, ?_⟩ <;> simp_all [selectOk]

/-- The opcodes of instructions: eight bits, none of them that of pair words. -/
theorem op_of_mem_formsOf {op : Nat} {f : Form} (h : f ∈ formsOf op) : op < 256 ∧ op ≠ 0xFE := by
  unfold formsOf at h
  split_ifs at h with h1 h2 h3 h4 h5 h6 h7
  case pos => simp only [List.mem_cons, List.not_mem_nil, or_false] at h1; omega
  case pos => simp only [List.mem_cons, List.not_mem_nil, or_false] at h2; omega
  case pos => simp only [List.mem_cons, List.not_mem_nil, or_false] at h3; omega
  case pos => simp only [List.mem_cons, List.not_mem_nil, or_false] at h4; omega
  case pos => simp only [List.mem_cons, List.not_mem_nil, or_false] at h5; omega
  case pos => omega
  case pos => simp only [List.mem_cons, List.not_mem_nil, or_false] at h7; omega
  case neg => cases h

/-- LEN of a form that an opcode accepts gives the form back (R287, R303). -/
theorem formOf_lenOf {op : Nat} {f : Form} (h : f ∈ formsOf op) : formOf op (lenOf f) = f := by
  cases f with
  | a => rfl
  | i => exact if_pos (List.contains_iff_mem.2 h)
  | c =>
    refine if_neg fun hi => ?_
    unfold formsOf at h hi
    split_ifs at h hi <;> simp at h hi
  | m => exact if_neg (by rintro rfl; exact absurd h (by decide))
  | e =>
    refine if_pos ?_
    unfold formsOf at h
    split_ifs at h <;> simp_all

theorem lenOf_formOf {op len : Nat} (h : len < 3) : lenOf (formOf op len) = len := by
  match len, h with
  | 0, _ => rfl
  | 1, _ => simp only [formOf]; split_ifs <;> rfl
  | 2, _ => simp only [formOf]; split_ifs <;> rfl

theorem formBytes_eq (f : Form) : formBytes f = 8 + 4 * lenOf f := by cases f <;> rfl

/-! ## The bits of a word -/

section pack
variable {op : Nat} (w : Insn)

theorem lenOf_lt (f : Form) : lenOf f < 3 := by cases f <;> decide

/-- The bounds of the digits of a word. -/
theorem insn_bounds : w.stall.toNat < 2 ^ 4 ∧ w.y.toNat < 2 ^ 1 ∧ w.g.toNat < 2 ^ 5 ∧ w.sub.toNat < 2 ^ 3 ∧ w.d.toNat < 2 ^ 9 ∧ w.dk.toNat < 2 ^ 2 ∧
    w.a.toNat < 2 ^ 9 ∧ w.ak.toNat < 2 ^ 2 ∧ w.b.toNat < 2 ^ 9 ∧ w.bk.toNat < 2 ^ 2 ∧ w.ty.toNat < 2 ^ 4 ∧ w.mod.toNat < 2 ^ 4 ∧ w.ext.toNat < 2 ^ 64 :=
  ⟨w.stall.isLt, w.y.isLt, w.g.isLt, w.sub.isLt, w.d.isLt, w.dk.isLt, w.a.isLt, w.ak.isLt, w.b.isLt, w.bk.isLt, w.ty.isLt, w.mod.isLt, w.ext.isLt⟩

theorem bits_packInsn_len : bits (packInsn op w) 1 0 = lenOf w.form := by
  have := lenOf_lt w.form; have := insn_bounds w
  rw [bits_eq_div_mod, packInsn]; omega

theorem bits_packInsn_op (hop : op < 256) : bits (packInsn op w) 14 7 = op := by
  have := lenOf_lt w.form; have := insn_bounds w
  rw [bits_eq_div_mod, packInsn]; omega

theorem fieldsOf_packInsn (hop : op < 256) : fieldsOf w.form (packInsn op w) = w := by
  have := lenOf_lt w.form; have := insn_bounds w
  obtain ⟨form, stall, y, g, sub, d, dk, a, ak, b, bk, ty, mod, ext⟩ := w
  simp only [fieldsOf, bits_eq_div_mod, packInsn, Insn.mk.injEq, true_and] at *
  refine ⟨?_, ?_, ?_, ?_, ?_, ?_, ?_, ?_, ?_, ?_, ?_, ?_, ?_⟩ <;>
    (apply BitVec.eq_of_toNat_eq; rw [BitVec.toNat_ofNat]; omega)

/-- A word whose form leaves nothing above its length fits it (R296). -/
theorem packInsn_lt (hop : op < 256) (h : (shapeOk w).2 = true) : packInsn op w < 256 ^ formBytes w.form := by
  have hl := lenOf_lt w.form; have hb := insn_bounds w
  unfold packInsn
  unfold shapeOk at h
  cases hf : w.form <;> rw [hf] at h hl <;> simp only [formBytes, Bool.and_eq_true, decide_eq_true_eq, beq_iff_eq] at h ⊢ <;> omega
end pack

/-- The bits of a word are those of its fields. -/
theorem packInsn_fieldsOf {f : Form} {x : Nat} (hx : x < 2 ^ 128) (hl : lenOf f = x % 4) : packInsn (bits x 14 7) (fieldsOf f x) = x := by
  simp only [packInsn, fieldsOf, bits_eq_div_mod, BitVec.toNat_ofNat, hl]
  omega

theorem packCompact_lt (c : Compact) : packCompact c < 2 ^ 48 := by
  have h1 := c.cop.isLt; have h2 := c.g.isLt; have h3 := c.d.isLt; have h4 := c.a.isLt; have h5 := c.b.isLt; have h6 := c.ty.isLt; have h7 := c.mod.isLt
  unfold packCompact; omega

theorem compactOf_packCompact (c : Compact) : compactOf (packCompact c) = c := by
  obtain ⟨cop, g, d, a, b, ty, mod⟩ := c
  have h1 := cop.isLt; have h2 := g.isLt; have h3 := d.isLt; have h4 := a.isLt; have h5 := b.isLt; have h6 := ty.isLt; have h7 := mod.isLt
  simp only [compactOf, bits_eq_div_mod, packCompact, Compact.mk.injEq]
  refine ⟨?_, ?_, ?_, ?_, ?_, ?_, ?_⟩ <;> (apply BitVec.eq_of_toNat_eq; rw [BitVec.toNat_ofNat]; omega)

theorem packCompact_compactOf {x : Nat} (hx : x < 2 ^ 48) : packCompact (compactOf x) = x := by
  simp only [packCompact, compactOf, bits_eq_div_mod, BitVec.toNat_ofNat]
  omega

/-- Where a pair word keeps its parts. -/
theorem bits_packPair (p : Pair) : bits (packPair p) 1 0 = 2 ∧ bits (packPair p) 14 7 = 0xFE ∧ bits (packPair p) 127 111 = 0 ∧ packPair p < 2 ^ 111 ∧
    bits (packPair p) 62 15 = packCompact p.first ∧ bits (packPair p) 110 63 = packCompact p.second ∧
    bits (packPair p) 5 2 = p.stall.toNat ∧ bits (packPair p) 6 6 = p.y.toNat := by
  have h1 := p.stall.isLt; have h2 := p.y.isLt; have h3 := packCompact_lt p.first; have h4 := packCompact_lt p.second
  simp only [bits_eq_div_mod, packPair]
  omega

theorem pairOf_packPair (p : Pair) : pairOf (packPair p) = p := by
  obtain ⟨-, -, -, -, h1, h2, h3, h4⟩ := bits_packPair p
  simp only [pairOf, h1, h2, h3, h4, compactOf_packCompact, BitVec.ofNat_toNat, BitVec.setWidth_eq]

theorem packPair_pairOf {x : Nat} (h0 : x % 4 = 2) (h1 : bits x 14 7 = 0xFE) (h2 : bits x 127 111 = 0) (hx : x < 2 ^ 128) :
    packPair (pairOf x) = x := by
  have hf : bits x 62 15 < 2 ^ 48 := Nat.mod_lt _ (by decide)
  have hs : bits x 110 63 < 2 ^ 48 := Nat.mod_lt _ (by decide)
  simp only [packPair, pairOf, packCompact_compactOf hf, packCompact_compactOf hs]
  simp only [bits_eq_div_mod, BitVec.toNat_ofNat] at h1 h2 ⊢
  omega

/-! ## Checks -/

theorem firstFail_eq_none (cs : List Check) : firstFail cs = none ↔ cs.all (fun c => c.2) = true := by
  simp [firstFail]

/-- The checks of an instruction with a word are those of its fields. -/
theorem wellFormed_iff {i : Instr} {op : Nat} {w : Insn} (h : instrParts i = some (op, w)) :
    wellFormed i = true ↔ selectOk i = true ∧ (fieldChecks op w).all (fun c => c.2) = true := by
  unfold wellFormed wfChecks
  cases i
  case pairWord p => cases h
  all_goals simp only [h, List.all_cons, Bool.and_eq_true]

theorem wellFormed_pairWord (p : Pair) : wellFormed (.pairWord p) = (pairChecks p).all fun c => c.2 := rfl

/-- What the checks of an operation begin with: the form, and what it leaves zero. -/
theorem form_of_fieldChecks {op : Nat} {w : Insn} (h : (fieldChecks op w).all (fun c => c.2) = true) :
    w.form ∈ formsOf op ∧ (shapeOk w).2 = true := by
  simp only [fieldChecks, List.all_cons, Bool.and_eq_true, List.contains_iff_mem] at h
  exact ⟨h.1, h.2.1⟩

theorem encode_of_instrParts {i : Instr} {op : Nat} {w : Insn} (h : instrParts i = some (op, w)) : encode i = leBytes (formBytes w.form) (packInsn op w) := by
  unfold encode
  cases i
  case pairWord p => cases h
  all_goals simp only [h]

/-- A well-formed instruction is a pair word or has an opcode and fields. -/
theorem wellFormed_cases {i : Instr} (h : wellFormed i = true) : (∃ p, i = .pairWord p) ∨ ∃ op w, instrParts i = some (op, w) := by
  by_cases hp : ∃ p, i = .pairWord p
  · exact .inl hp
  · cases hi : instrParts i with
    | some e => exact .inr ⟨e.1, e.2, rfl⟩
    | none =>
      unfold wellFormed wfChecks at h
      split at h
      · exact .inl ⟨_, rfl⟩
      · simp [hi] at h

/-! ## Decoding a word from its bits -/

/-- Decoding the bytes of a number whose LEN is that of its length, with anything after them. -/
theorem decode_leBytes {n x : Nat} (hn : n = lengthOf x) (h3 : x % 4 ≠ 3) (hx : x < 256 ^ n) (rest : List Byte) :
    decode (leBytes n x ++ rest) = decodeBits x := by
  have h4 : 4 ≤ n := by rw [hn, lengthOf]; omega
  have hw : ofLeBytes ((leBytes n x ++ rest).take 4) % 4 = x % 4 := by
    rw [List.take_append_of_le_length (by simpa using h4), leBytes_take h4, ofLeBytes_leBytes]; omega
  have hl : lengthOf (ofLeBytes ((leBytes n x ++ rest).take 4)) = n := by rw [lengthOf, hw, hn, lengthOf]
  unfold decode
  rw [if_neg (by rw [List.length_append, leBytes_length]; omega)]
  dsimp only
  rw [if_neg (by rw [hw]; exact h3), hl, if_neg (by rw [List.length_append, leBytes_length]; omega),
    List.take_left' (leBytes_length n x), ofLeBytes_leBytes, Nat.mod_eq_of_lt hx]

theorem decode_encode_pair (p : Pair) (rest : List Byte) (h : wellFormed (.pairWord p) = true) :
    decode (encode (.pairWord p) ++ rest) = .ok (.pairWord p) := by
  obtain ⟨hl, hop, hs, hx, -⟩ := bits_packPair p
  have hl4 : packPair p % 4 = 2 := by rw [← hl, bits_eq_div_mod]; omega
  rw [wellFormed_pairWord] at h
  have hk : (compactKnown p.first && compactKnown p.second) = true := by
    simp only [pairChecks, List.all_cons, Bool.and_eq_true] at h ⊢; exact h.1
  show decode (leBytes 16 (packPair p) ++ rest) = _
  rw [decode_leBytes (by rw [lengthOf, hl4]) (by omega) (hx.trans (by decide))]
  simp only [decodeBits, hop, if_true, decodePair, hl, hs, pairOf_packPair, hk, (firstFail_eq_none _).2 h]
  rfl

theorem decode_encode_word {i : Instr} {op : Nat} {w : Insn} (hi : instrParts i = some (op, w)) (rest : List Byte) (h : wellFormed i = true) :
    decode (encode i ++ rest) = .ok i := by
  obtain ⟨hsel, hc⟩ := (wellFormed_iff hi).1 h
  obtain ⟨hf, hs⟩ := form_of_fieldChecks hc
  obtain ⟨hop, hfe⟩ := op_of_mem_formsOf hf
  have hlen := bits_packInsn_len (op := op) w
  have hl4 : packInsn op w % 4 = lenOf w.form := by rw [← hlen, bits_eq_div_mod]; omega
  have h3 := lenOf_lt w.form
  have hne : (formsOf op).isEmpty = false := by rw [List.isEmpty_eq_false_iff_exists_mem]; exact ⟨_, hf⟩
  rw [encode_of_instrParts hi, decode_leBytes (by rw [lengthOf, hl4, formBytes_eq]) (by omega) (packInsn_lt w hop hs)]
  simp only [decodeBits, bits_packInsn_op w hop, hfe, if_false, decodeOne, hne, hlen, formOf_lenOf hf, fieldsOf_packInsn w hop,
    (firstFail_eq_none _).2 hc, encodingStatement i op w hi hsel]
  rfl

/-- Settles O33: a pair word and a word of fields each come back from their bits. -/
theorem decodeOfEncode : Obligations.DecodeOfEncode := fun i rest h => by
  rcases wellFormed_cases h with ⟨p, rfl⟩ | ⟨op, w, hi⟩
  · exact decode_encode_pair p rest h
  · exact decode_encode_word hi rest h

/-! ## Encoding what was decoded -/

/-- What decodes is the instruction of the number its bytes spell, whose length its LEN gives. -/
theorem decode_ok {bs : List Byte} {i : Instr} (h : decode bs = .ok i) : let n := lengthOf (ofLeBytes (bs.take 4))
    let x := ofLeBytes (bs.take n)
    n = lengthOf x ∧ x % 4 ≠ 3 ∧ x < 2 ^ 128 ∧ leBytes n x = bs.take n ∧ decodeBits x = .ok i := by
  unfold decode at h
  dsimp only at h ⊢
  split_ifs at h with h1 h2 h3
  set n := lengthOf (ofLeBytes (bs.take 4)) with hn
  have h8 : 8 ≤ n ∧ n ≤ 16 := by rw [hn, lengthOf]; omega
  have hlen : (bs.take n).length = n := by rw [List.length_take]; omega
  have hm : ofLeBytes (bs.take n) % 4 = ofLeBytes (bs.take 4) % 4 := by
    rw [ofLeBytes_take_mod_four _ (by omega), ofLeBytes_take_mod_four _ (by omega)]
  refine ⟨by unfold lengthOf; rw [hm]; exact hn, by rw [hm]; exact h2, ?_, ?_, h⟩
  · have := ofLeBytes_lt (bs.take n)
    rw [hlen] at this
    exact this.trans_le ((Nat.pow_le_pow_right (by decide) h8.2).trans (by decide))
  · have := leBytes_ofLeBytes (bs.take n)
    rwa [hlen] at this

/-- A pair word that decodes is well formed and has the bits that were decoded. -/
theorem decodePair_ok {x : Nat} {i : Instr} (hx : x < 2 ^ 128) (hop : bits x 14 7 = 0xFE) (h : decodePair (bits x 1 0) x = .ok i) :
    wellFormed i = true ∧ encode i = leBytes (lengthOf x) x ∧ (encode i).length = lengthOf x := by
  unfold decodePair at h
  dsimp only at h
  split_ifs at h with h1 h2 h3
  have hl : x % 4 = 2 := by rw [bits_eq_div_mod] at h1; omega
  split at h
  · cases h
  · rename_i hc
    cases h
    have he : encode (.pairWord (pairOf x)) = leBytes (lengthOf x) x := by
      rw [encode, packPair_pairOf hl hop (by simpa using h3) hx, lengthOf, hl]
    exact ⟨by rw [wellFormed_pairWord, ← firstFail_eq_none]; exact hc, he, by rw [he, leBytes_length]⟩

/-- A word of fields that decodes is well formed and has the bits that were decoded. -/
theorem decodeOne_ok {x : Nat} {i : Instr} (hx : x < 2 ^ 128) (h3 : x % 4 ≠ 3) (h : decodeOne (bits x 14 7) (bits x 1 0) x = .ok i) :
    wellFormed i = true ∧ encode i = leBytes (lengthOf x) x ∧ (encode i).length = lengthOf x := by
  have hl : bits x 1 0 = x % 4 := by rw [bits_eq_div_mod]; omega
  unfold decodeOne at h
  dsimp only at h
  rw [hl] at h
  have hlf : lenOf (formOf (bits x 14 7) (x % 4)) = x % 4 := lenOf_formOf (by omega)
  split_ifs at h
  split at h
  · cases h
  · rename_i hc
    split at h
    · rename_i j hj
      cases h
      obtain ⟨hi, hsel⟩ := instrParts_of_mkInstr hj
      have he : encode i = leBytes (lengthOf x) x := by
        rw [encode_of_instrParts hi, packInsn_fieldsOf hx hlf, formBytes_eq, lengthOf]
        show leBytes (8 + 4 * lenOf (formOf (bits x 14 7) (x % 4))) x = _
        rw [hlf]
      exact ⟨(wellFormed_iff hi).2 ⟨hsel, (firstFail_eq_none _).1 hc⟩, he, by rw [he, leBytes_length]⟩
    · cases h

theorem decodeBits_ok {x : Nat} {i : Instr} (hx : x < 2 ^ 128) (h3 : x % 4 ≠ 3) (h : decodeBits x = .ok i) :
    wellFormed i = true ∧ encode i = leBytes (lengthOf x) x ∧ (encode i).length = lengthOf x := by
  unfold decodeBits at h
  dsimp only at h
  split_ifs at h with hop
  · exact decodePair_ok hx hop h
  · exact decodeOne_ok hx h3 h

/-- Settles O34: each way of decoding checks its fields, and packs to the bits it was given. -/
theorem decodedWords : Obligations.DecodedWords := by
  refine ⟨fun bs i h => ?_, fun bs i h => ?_⟩
  · obtain ⟨hn, h3, hx, hb, hd⟩ := decode_ok h
    obtain ⟨-, he, hl⟩ := decodeBits_ok hx h3 hd
    rw [← hn] at he hl
    exact ⟨by rw [hl, he, hb], hl⟩
  · obtain ⟨-, h3, hx, -, hd⟩ := decode_ok h
    exact (decodeBits_ok hx h3 hd).1

end Sys2Proof
end

section
/-! PROOF. What a word that goes on leaves, and what taking a trap writes and leaves alone (R131, R206, R257, R262–R265). -/

set_option Elab.async false

namespace Sys2Proof.Machine

/-! ## Words that go on -/

/-- Two groups whose registers and guess bits read alike. -/
structure RegsAlike (q r : Group) : Prop where
  v  : ∀ n L, r.vReg n L = q.vReg n L
  vg : ∀ n L, r.vGuess n L = q.vGuess n L
  p  : ∀ n L, r.pred n L = q.pred n L
  pg : ∀ n L, r.pGuess n L = q.pGuess n L
  s  : ∀ n, r.sReg n = q.sReg n

theorem Settled.regsAlike {q r : Group} (h : Settled q r) : RegsAlike q r := by
  obtain ⟨v, vg, p, pg, s⟩ := h.regs
  exact ⟨v, vg, p, pg, s⟩

theorem RegsKept.alike {q r : Group} (h : RegsKept q r) : RegsAlike q r := by
  obtain ⟨h1, h2, h3, h4, h5⟩ := h
  constructor <;> intros <;> simp only [Group.vReg, Group.vGuess, Group.pred, Group.pGuess, Group.sReg, h1, h2, h3, h4, h5]

theorem RegsAlike.trans {q r u : Group} (h : RegsAlike q r) (k : RegsAlike r u) : RegsAlike q u :=
  ⟨fun n L => (k.v n L).trans (h.v n L), fun n L => (k.vg n L).trans (h.vg n L), fun n L => (k.p n L).trans (h.p n L),
    fun n L => (k.pg n L).trans (h.pg n L), fun n => (k.s n).trans (h.s n)⟩

theorem RegsKept.refl (q : Group) : RegsKept q q := ⟨rfl, rfl, rfl, rfl, rfl⟩

theorem RegsKept.trans {q r u : Group} (h : RegsKept q r) (k : RegsKept r u) : RegsKept q u := by
  obtain ⟨h1, h2, h3, h4, h5⟩ := h; obtain ⟨k1, k2, k3, k4, k5⟩ := k
  exact ⟨k1.trans h1, k2.trans h2, k3.trans h3, k4.trans h4, k5.trans h5⟩

theorem Settled.regsKept {q r : Group} (h : Settled q r) : RegsKept q r := by rw [h.rest]; exact ⟨rfl, rfl, rfl, rfl, rfl⟩

/-- The fields of a group by which a return from a trap is tested. -/
def SameMode (q r : Group) : Prop := r.trapMode = q.trapMode ∧ r.handlerSet = q.handlerSet ∧ r.live = q.live ∧ r.rteHeld = q.rteHeld

theorem rteWaits.congr {q r : Group} (h : rteWaits q) (k : SameMode q r) : rteWaits r := by
  obtain ⟨k1, k2, k3, k4⟩ := k
  unfold rteWaits at *
  rw [k1, k2, k3, k4]; exact h

theorem Untouched.sameMode {q r : Group} (h : Untouched q r) : SameMode q r := by rw [h.rest]; exact ⟨rfl, rfl, rfl, rfl⟩

theorem Untouched.lane {q r : Group} (h : Untouched q r) (L : Nat) : r.lane L = q.lane L := by rw [h.rest]; rfl

/-- The issue set of i is the one at which the group stands, and no lane of it waits for a redirect (R131, R223). -/
structure Standing (s : State) (i : Iss) : Prop where
  set   : issueSet (s.group i.b i.g) = some (i.pc, i.iss)
  sound : ((lanesOf i.iss).any fun L => ((s.group i.b i.g).lane L).refuted.isSome) = false

theorem Issues.standing {op : Nat} {w : Insn} {bump : State → Iss → Mask} {s : State} {i : Iss} (h : Issues op w bump s i) : Standing s i := by
  have hn := h.names
  obtain ⟨j, -, -, h3, -, -, -, rfl, -⟩ := h
  exact ⟨hn.2.2.2.2.2, h3⟩

section standing
variable {s : State} {i : Iss} (h : Standing s i)
include h

theorem Standing.waits : rteWaits (s.group i.b i.g) := by
  intro ht hz
  obtain ⟨⟨L, hL, hm⟩, hs⟩ := issueSet_spec _ _ _ h.set
  obtain ⟨-, he, -⟩ := hs L hm
  simp only [eligible, inMask_maskOf, ht, Bool.not_true, Bool.false_or, Bool.and_eq_true, Bool.not_eq_true'] at he
  obtain ⟨-, ⟨⟨hlive, -⟩, hset, hheld⟩⟩ := he
  have : inMask ((s.group i.b i.g).handlerSet &&& (s.group i.b i.g).live &&& ~~~(s.group i.b i.g).rteHeld) L = true := by
    simp only [inMask, BitVec.getLsbD_and, BitVec.getLsbD_not] at *
    rw [hlive, hset, hheld]
    simp [hL]
  rw [hz] at this
  simp [inMask] at this

/-- Each lane of the issue set is live, stands at the word, and does not wait. -/
theorem Standing.lanes (L : Nat) (hL : inMask i.iss L = true) : L < 32 ∧ inMask (s.group i.b i.g).live L = true ∧
    ((s.group i.b i.g).lane L).lpc.toNat = i.pc ∧ ((s.group i.b i.g).lane L).waits = false := by
  obtain ⟨h1, h2, h4⟩ := (issueSet_spec _ _ _ h.set).2 L hL
  have hr := h.sound
  simp only [List.any_eq_false, mem_lanesOf] at hr
  simp only [eligible, inMask_maskOf, Bool.and_eq_true, Bool.or_eq_true, Bool.not_eq_true'] at h2
  obtain ⟨-, ⟨hlive, hc⟩, -⟩ := h2
  exact ⟨h1, hlive, h4, hc.resolve_right (hr L ⟨h1, hL⟩)⟩

/-- What follows a word that goes on, from the state its own part answers. -/
theorem follows_conclude {t : State} (ht : SameMode (s.group i.b i.g) (t.group i.b i.g)) (op stall : Nat) (y : Bool) :
    Follows t (conclude s i op stall y (.next t)) i.b i.g :=
  have f := follows_noteIssue t i op stall y
  f.trans (follows_afterIssue _ i.b i.g (f.2.rteWaits (h.waits.congr ht)))

end standing

theorem follows_of_next {op : Nat} {w : Insn} {bump : State → Iss → Mask} {s : State} {i : Iss} (h : Issues op w bump s i) {body : State → Iss → Res}
    {t : State} (hb : body s i = .next t) (ht : SameMode (s.group i.b i.g) (t.group i.b i.g)) : Follows t (runWord op w s bump body) i.b i.g := by
  rw [runWord_issues h, hb]
  exact follows_conclude h.standing ht ..

theorem group_advance (s : State) (i : Iss) (m : Mask) : (advance s i m).group i.b i.g =
    (s.group i.b i.g).mapLanes m fun _ l => { l with lpc := w64 (landing s i.b (i.pc + i.len)) } := by
  unfold advance; dsimp only; rw [group_modGroup_self]

theorem upd_advance (s : State) (i : Iss) (m : Mask) : Upd s (advance s i m) i.b i.g := upd_modGroup ..

theorem sameLane_advance (s : State) (i : Iss) (m : Mask) (L : Nat) : SameLane ((s.group i.b i.g).lane L) (((advance s i m).group i.b i.g).lane L) := by
  rw [follows_advance_lanes]; unfold SameLane; split_ifs <;> rfl

/-- From s a word has written registers of its group, giving s1, and the lanes of m have gone on, which leaves u. -/
structure Completed (s s1 : State) (i : Iss) (m : Mask) (u : State) : Prop where
  upd   : Upd s u i.b i.g
  traps : SameTraps (s.group i.b i.g) (u.group i.b i.g)
  kept  : RegsKept (s1.group i.b i.g) (u.group i.b i.g)
  goes  : StandAt s u i (m &&& i.iss) fun _ => i.pc + i.len
  stays : ∀ L, L < 32 → inMask m L = false → inMask i.iss L = true → (laneAt u i L).lpc = (laneAt s i L).lpc

theorem Upd.sameElse {s t : State} {b g : Nat} (h : Upd s t b g) : SameElse s t b g := ⟨h.rest, h.group, h.block, h.core⟩

theorem Completed.regs {s s1 : State} {i : Iss} {m : Mask} {u : State} (h : Completed s s1 i m u) : RegsAlike (s1.group i.b i.g) (u.group i.b i.g) :=
  h.kept.alike
theorem Completed.fallsThrough {s s1 : State} {i : Iss} {u : State} (h : Completed s s1 i i.iss u) : FallsThrough s i u :=
  fun L hL hm => h.goes L hL (by simp [hm])

/-- A word whose part writes registers of its group, and lets the lanes of m go on, completes. -/
theorem completed_conclude {s s1 : State} {i : Iss} (h : Standing s i) {m : Mask} (h1 : Upd s s1 i.b i.g)
    (hu : Untouched (s.group i.b i.g) (s1.group i.b i.g)) (op stall : Nat) (y : Bool) :
    Completed s s1 i m (conclude s i op stall y (.next (advance s1 i m))) := by
  have hl : ∀ L, ((advance s1 i m).group i.b i.g).lane L =
      if L < 32 ∧ inMask m L = true then { (s.group i.b i.g).lane L with lpc := w64 (landing s i.b (i.pc + i.len)) } else (s.group i.b i.g).lane L := by
    intro L; rw [follows_advance_lanes, h1.landing, hu.lane]
  have f := follows_conclude h (t := advance s1 i m) (by rw [group_advance]; exact hu.sameMode) op stall y
  generalize conclude s i op stall y (.next (advance s1 i m)) = u at f
  refine ⟨(h1.trans (upd_advance ..)).trans f.1, ?_, ?_, fun L hL hm => ?_, fun L hL hm hi => ?_⟩
  · refine sameTraps_of ?_ fun L => ?_
    · rw [f.2.rest, group_advance]
      unfold Group.mapLanes
      conv_rhs => rw [hu.rest]
      rw [hu.rest]
    · have hf := f.2.spec L
      have ha := sameLane_advance s1 i m L
      unfold SameLane at *
      rw [hf, ha, hu.lane]
  · refine RegsKept.trans ?_ f.2.regsKept
    rw [group_advance]
    exact ⟨rfl, rfl, rfl, rfl, rfl⟩
  · simp only [inMask_and, Bool.and_eq_true] at hm
    have hw := (h.lanes L hm.2).2.2.2
    have := f.2.lane L (by rw [hl, if_pos ⟨hL, hm.1⟩]; exact hw)
    unfold laneAt
    rw [this, hl, if_pos ⟨hL, hm.1⟩]
  · have hw := (h.lanes L hi).2.2.2
    have hl' := hl L
    rw [if_neg (by simp [hm])] at hl'
    have := f.2.lane L (by rw [hl']; exact hw)
    unfold laneAt
    rw [this, hl']

theorem completed_of {op : Nat} {w : Insn} {bump : State → Iss → Mask} {s s1 : State} {i : Iss} (h : Issues op w bump s i) {m : Mask}
    {body : State → Iss → Res} (hb : body s i = .next (advance s1 i m)) (h1 : Upd s s1 i.b i.g) (hu : Untouched (s.group i.b i.g) (s1.group i.b i.g)) :
    Completed s s1 i m (runWord op w s bump body) := by
  rw [runWord_issues h, hb]
  exact completed_conclude h.standing h1 hu ..

/-! ## Taking a trap -/

/-- A listed entry after a function has been applied to every entry. -/
theorem tget_tmapv_mem {α : Type} (d : α) (f : α → α) (t : Tbl α) (i : Nat) :
    tget d (tmapv f t) i = if i ∈ tkeys t then f (tget d t i) else d := by
  induction t with
  | nil => rfl
  | cons e t ih =>
    obtain ⟨k, v⟩ := e
    simp only [tmapv, List.map_cons, tget, tkeys, List.mem_cons] at ih ⊢
    by_cases hk : i = k
    · simp only [hk, if_true, true_or]
    · simp only [hk, if_false, false_or, ih]; rfl

/-- Entries are the same but for what f leaves the same. -/
theorem tget_tmapv_proj {α β : Type} (d : α) (f : α → α) (p : α → β) (hf : ∀ x, p (f x) = p x) (t : Tbl α) (i : Nat) :
    p (tget d (tmapv f t) i) = p (tget d t i) := by
  rw [tget_tmapv_mem]
  split_ifs with h
  · exact hf _
  · rw [tget_absent d t i h]

/-- From q to r a group has entered or left trap mode or stopped, and keeps all else but lanes. -/
structure Handed (q r : Group) : Prop where
  rest : r = { q with lanes := r.lanes, stopped := r.stopped, trapMode := r.trapMode, handlerSet := r.handlerSet, rteHeld := r.rteHeld
                      rteNextM := r.rteNextM }

theorem Handed.refl (q : Group) : Handed q q := ⟨rfl⟩
theorem Handed.trans {q r u : Group} (h : Handed q r) (k : Handed r u) : Handed q u := ⟨by rw [k.rest, h.rest]⟩
theorem Handed.regsKept {q r : Group} (h : Handed q r) : RegsKept q r := by rw [h.rest]; exact ⟨rfl, rfl, rfl, rfl, rfl⟩

/-- Stopping a context sets `stopped` in groups of its blocks and changes nothing else of them. -/
theorem group_stopContext (s : State) (b g c d pc k j : Nat) : (stopContext s b g c d pc).group k j =
    if k ∈ tkeys s.blocks ∧ (s.block k).ctx = (s.block b).ctx ∧ j ∈ tkeys (s.block k).groups then { s.group k j with stopped := true }
    else s.group k j := by
  unfold stopContext State.group State.block
  dsimp only [modCtx]
  rw [tget_tmapv_mem]
  by_cases hk : k ∈ tkeys s.blocks
  · rw [if_pos hk]
    by_cases hc : (tget {} s.blocks k).ctx = (tget {} s.blocks b).ctx
    · rw [if_pos hc, tget_tmapv_mem]
      by_cases hj : j ∈ tkeys (tget {} s.blocks k).groups
      · simp [hk, hc, hj]
      · simp [hk, hc, hj, tget_absent _ _ _ hj]
    · simp [hc]
  · simp [hk, tget_absent _ _ _ hk]

theorem handed_stopContext (s : State) (b g c d pc k j : Nat) : Handed (s.group k j) ((stopContext s b g c d pc).group k j) := by
  rw [group_stopContext]; split_ifs <;> exact ⟨rfl⟩

@[simp] theorem stopContext_mem (s : State) (b g c d pc : Nat) : (stopContext s b g c d pc).mem = s.mem := rfl
@[simp] theorem stopContext_hostMem (s : State) (b g c d pc : Nat) : (stopContext s b g c d pc).hostMem = s.hostMem := rfl

@[simp] theorem group_dropWaits (s : State) (b g k j : Nat) : (dropWaits s b g).group k j = s.group k j := rfl
@[simp] theorem dropWaits_mem (s : State) (b g : Nat) : (dropWaits s b g).mem = s.mem := rfl
@[simp] theorem dropWaits_hostMem (s : State) (b g : Nat) : (dropWaits s b g).hostMem = s.hostMem := rfl

theorem upd_renormalise (s : State) (b g : Nat) : Upd s (renormalise s b g) b g := (follows_renormalise s b g).1

theorem handed_mapLanes (q : Group) (m : Mask) (f : Nat → Lane → Lane) : Handed q (q.mapLanes m f) := ⟨rfl⟩

theorem handed_renormalise (s : State) (b g : Nat) : Handed (s.group b g) ((renormalise s b g).group b g) := by
  unfold renormalise
  dsimp only
  split_ifs
  · exact .refl _
  · rw [group_modGroup_self]; exact handed_mapLanes ..

theorem handed_enterHandler (s : State) (b g h : Nat) (fm : Mask) : Handed (s.group b g) ((enterHandler s b g h fm).group b g) := by
  unfold enterHandler
  dsimp only
  refine Handed.trans ?_ (handed_renormalise ..)
  rw [group_modGroup_self, group_dropWaits]
  exact ⟨rfl⟩

theorem enterHandler_memories (s : State) (b g h : Nat) (fm : Mask) :
    (enterHandler s b g h fm).mem = s.mem ∧ (enterHandler s b g h fm).hostMem = s.hostMem := by
  unfold enterHandler
  exact ⟨(upd_renormalise ..).mem, (upd_renormalise ..).hostMem⟩

/-! ### Reads of page tables and of the trap table elsewhere -/

/-- A state with other blocks and cores. -/
abbrev elsewhere (s : State) (B : Tbl Block) (C : Tbl Core) : State := { s with blocks := B, cores := C }

theorem evalChan_rest (s : State) (B : Tbl Block) (C : Tbl Core) (p c : Nat) :
    evalChan (elsewhere s B C) p c = elsewhere (evalChan s p c) B C := by
  have hc : (elsewhere s B C).chan p c = s.chan p c := rfl
  have hh : ∀ code target w polled, waitHolds (elsewhere s B C) code target w polled = waitHolds s code target w polled := fun _ _ _ _ => rfl
  cases hw : (s.chan p c).wait with
  | none => simp only [evalChan, hc, hw]
  | some r => simp only [evalChan, hc, hw, hh]; split_ifs <;> rfl

theorem syncEval_rest (s : State) (B : Tbl Block) (C : Tbl Core) (a n : Nat) :
    syncEval (elsewhere s B C) a n = elsewhere (syncEval s a n) B C := by
  have hw : waitersOn (elsewhere s B C) false a n = waitersOn s false a n := rfl
  unfold syncEval
  rw [hw]
  clear hw
  generalize waitersOn s false a n = ws
  induction ws generalizing s with
  | nil => rfl
  | cons x ws ih => rw [List.foldl_cons, List.foldl_cons, evalChan_rest]; exact ih _

theorem snoopOwn_rest (s : State) (B : Tbl Block) (C : Tbl Core) (a n : Nat) :
    snoopOwn (elsewhere s B C) a n = elsewhere (snoopOwn s a n) B C := by unfold snoopOwn; split_ifs <;> rfl

theorem putBytes_rest (s : State) (B : Tbl Block) (C : Tbl Core) (bs : List (Nat × Byte)) :
    putBytes (elsewhere s B C) bs = elsewhere (putBytes s bs) B C := by
  induction bs generalizing s with
  | nil => rfl
  | cons x bs ih => rw [putBytes_cons, putBytes_cons]; exact ih (putByte s x.1 x.2)

theorem devNum_rest (s : State) (B : Tbl Block) (C : Tbl Core) (a n x : Nat) :
    devNum (elsewhere s B C) a n x = elsewhere (devNum s a n x) B C := by
  unfold devNum putNum; rw [snoopOwn_rest, putBytes_rest, syncEval_rest]

theorem logDirty_rest (s : State) (B : Tbl Block) (C : Tbl Core) (p va size : Nat) :
    logDirty (elsewhere s B C) p va size = elsewhere (logDirty s p va size) B C := by
  have hp : (elsewhere s B C).part p = s.part p := rfl
  simp only [logDirty, hp, devNum_rest]
  split_ifs <;> rfl

theorem notePte_rest (s : State) (B : Tbl Block) (C : Tbl Core) (p va : Nat) (acc : Acc) (e : TlbEntry) :
    notePte (elsewhere s B C) p va acc e = elsewhere (notePte s p va acc e) B C := by
  have hm : ∀ a n, memRead (elsewhere s B C) a n = memRead s a n := fun _ _ => rfl
  simp only [notePte, hm, devNum_rest, logDirty_rest]
  split_ifs <;> rfl

/-- What a translation leaves depends on groups and quadrants in nothing. -/
theorem Upd.noteXl {s t : State} {b g : Nat} (h : Upd s t b g) (c p va : Nat) (acc : Acc) (x : Xl) :
    Upd (noteXl s c p va acc x) (noteXl t c p va acc x) b g := by
  have hn : notePte t p va acc x.entry = elsewhere (notePte s p va acc x.entry) t.blocks t.cores := by
    conv_lhs => rw [h.rest]
    exact notePte_rest ..
  have hs : (notePte s p va acc x.entry).blocks = s.blocks ∧ (notePte s p va acc x.entry).cores = s.cores := by
    have hb := notePte_rest s s.blocks s.cores p va acc x.entry
    change notePte s p va acc x.entry = _ at hb
    rw [hb]; exact ⟨rfl, rfl⟩
  unfold Machine.noteXl
  dsimp only
  rw [hn]
  refine ⟨rfl, fun k j n => ?_, fun k => ?_, fun k => ?_⟩
  · have := h.group k j n
    simp only [State.group, State.block, modCore, hs.1] at this ⊢
    exact this
  · have := h.block k
    simp only [State.block, modCore, hs.1] at this ⊢
    exact this
  · have := h.core k
    simp only [core_modCore]
    have h1 : ∀ k, (notePte s p va acc x.entry).core k = s.core k := fun k => by simp only [State.core, hs.2]
    have h2 : ∀ k, (elsewhere (notePte s p va acc x.entry) t.blocks t.cores).core k = t.core k := fun _ => rfl
    rw [h1, h1, h2, h2]
    split_ifs with hk
    · subst hk
      exact congrArg (fun q : Core => { q with tlb := tset {} q.tlb (vpn va) { x.entry with acc := true, dirty := x.entry.dirty || writes acc } }) this |>.trans rfl
    · exact this

theorem Upd.handlerOf {s t : State} {b g : Nat} (h : Upd s t b g) (k cause : Nat) : Machine.handlerOf t k cause = Machine.handlerOf s k cause := by
  simp only [Machine.handlerOf, h.recordOf, h.blockCore, h.blockCtx, h.context, h.xlate, h.hostBytes, h.memRead]

/-- One read of the trap table as taking a trap makes it: the state it leaves, and the entry, or an odd number after a fault. -/
def readTable (s : State) (k n : Nat) : State × Nat :=
  let c := (s.block k).core
  let p := (s.context (s.block k).ctx).part
  let va := (recordOf s k).trapTable + 8 * n
  match xlate s c p va .read false with
  | .ok x => (noteXl s c p va .read x, if x.tier then ofLeBytes (hostBytes s x.pa 8) else memRead s x.pa 8)
  | .error _ => (s, 1)

/-- What a translation leaves of blocks and contexts. -/
theorem notePte_device (s : State) (p va : Nat) (acc : Acc) (e : TlbEntry) : (notePte s p va acc e).blocks = s.blocks ∧
    (notePte s p va acc e).cores = s.cores ∧ (notePte s p va acc e).ctxs = s.ctxs := by
  have hb := notePte_rest s s.blocks s.cores p va acc e
  change notePte s p va acc e = _ at hb
  refine ⟨by rw [hb], by rw [hb], ?_⟩
  have hd : ∀ (t : State) a n x, (devNum t a n x).ctxs = t.ctxs := fun t a n x => by
    unfold devNum syncEval
    generalize waitersOn _ false a n = ws
    have hp : ∀ (t : State) (bs : List (Nat × Byte)), (putBytes t bs).ctxs = t.ctxs := fun t bs => by
      induction bs generalizing t with
      | nil => rfl
      | cons b bs ih => rw [putBytes_cons, ih]; rfl
    have hs : (snoopOwn t a n).ctxs = t.ctxs := by unfold snoopOwn; split_ifs <;> rfl
    have h0 : (putNum (snoopOwn t a n) a n x).ctxs = t.ctxs := (hp ..).trans hs
    generalize putNum (snoopOwn t a n) a n x = u at h0
    induction ws generalizing u with
    | nil => exact h0
    | cons w ws ih =>
      refine ih _ (Eq.trans ?_ h0)
      unfold evalChan; dsimp only; split
      · rfl
      · split_ifs <;> rfl
  unfold notePte logDirty
  dsimp only
  split_ifs <;> simp only [hd, modPart_ctxs]

@[simp] theorem block_noteXl (s : State) (c p va : Nat) (acc : Acc) (x : Xl) (k : Nat) : (noteXl s c p va acc x).block k = s.block k := by
  simp only [noteXl, State.block, modCore_blocks, (notePte_device s p va acc x.entry).1]

@[simp] theorem group_noteXl (s : State) (c p va : Nat) (acc : Acc) (x : Xl) (k j : Nat) : (noteXl s c p va acc x).group k j = s.group k j := by
  simp only [State.group, block_noteXl]

@[simp] theorem context_noteXl (s : State) (c p va : Nat) (acc : Acc) (x : Xl) (k : Nat) : (noteXl s c p va acc x).context k = s.context k := by
  simp only [noteXl, State.context, modCore_ctxs, (notePte_device s p va acc x.entry).2.2]

@[simp] theorem recordOf_noteXl (s : State) (c p va : Nat) (acc : Acc) (x : Xl) (k : Nat) : recordOf (noteXl s c p va acc x) k = recordOf s k := by
  simp only [recordOf, block_noteXl, context_noteXl]

theorem noteHandler_eq (s : State) (k cause : Nat) : noteHandler s k cause =
    if (recordOf s k).trapTable = 0 then s
    else if (readTable s k cause).2 % 2 = 1 then (readTable s k cause).1 else (readTable (readTable s k cause).1 k 0).1 := by
  by_cases h0 : (recordOf s k).trapTable = 0
  · simp only [noteHandler, h0, if_true]
  · rw [if_neg h0]
    cases hx : xlate s (s.block k).core (s.context (s.block k).ctx).part ((recordOf s k).trapTable + 8 * cause) .read false with
    | error f => simp only [noteHandler, h0, if_false, readTable, hx] <;> rfl
    | ok x =>
      have hr : readTable s k cause = (noteXl s (s.block k).core (s.context (s.block k).ctx).part ((recordOf s k).trapTable + 8 * cause) .read x,
          if x.tier then ofLeBytes (hostBytes s x.pa 8) else memRead s x.pa 8) := by simp only [readTable, hx]
      rw [hr]
      simp only [noteHandler, h0, if_false, hx, readTable, block_noteXl, context_noteXl, recordOf_noteXl] <;> split_ifs <;> rfl

theorem upd_readTable {s t : State} {b g : Nat} (h : Upd s t b g) (k n : Nat) :
    Upd (readTable s k n).1 (readTable t k n).1 b g ∧ (readTable t k n).2 = (readTable s k n).2 := by
  unfold readTable
  dsimp only
  rw [h.blockCore, h.blockCtx, h.context, h.recordOf, h.xlate]
  cases xlate s (s.block k).core (s.context (s.block k).ctx).part ((recordOf s k).trapTable + 8 * n) .read false with
  | error f => exact ⟨h, rfl⟩
  | ok x => dsimp only; exact ⟨h.noteXl .., by rw [h.hostBytes, h.memRead]⟩

theorem Upd.noteHandler {s t : State} {b g : Nat} (h : Upd s t b g) (k cause : Nat) :
    Upd (noteHandler s k cause) (noteHandler t k cause) b g := by
  rw [noteHandler_eq, noteHandler_eq, h.recordOf]
  obtain ⟨h1, e1⟩ := upd_readTable h k cause
  rw [e1]
  split_ifs
  · exact h
  · exact h1
  · exact (upd_readTable h1 k 0).1

@[simp] theorem block_readTable (s : State) (k n j : Nat) : (readTable s k n).1.block j = s.block j := by
  unfold readTable; dsimp only; split <;> simp

@[simp] theorem context_readTable (s : State) (k n j : Nat) : (readTable s k n).1.context j = s.context j := by
  unfold readTable; dsimp only; split <;> simp

@[simp] theorem block_noteHandler (s : State) (k cause j : Nat) : (noteHandler s k cause).block j = s.block j := by
  rw [noteHandler_eq]; split_ifs <;> simp

@[simp] theorem context_noteHandler (s : State) (k cause j : Nat) : (noteHandler s k cause).context j = s.context j := by
  rw [noteHandler_eq]; split_ifs <;> simp

@[simp] theorem group_noteHandler (s : State) (k cause j g : Nat) : (noteHandler s k cause).group j g = s.group j g := by
  simp only [State.group, block_noteHandler]

/-! ### The record -/

theorem upd_trapRecord (s : State) (b g pc : Nat) (t : TrapReq) : Upd s (trapRecord s b g pc t) b g := upd_modGroup ..

/-- The record that taking a trap writes into its group (R257). -/
structure Recorded257 (q r : Group) (pc : Nat) (t : TrapReq) : Prop where
  cause : r.trapCause = w64 (t.eseq % 2 ^ 32 * 2 ^ 32 + t.detail % 256 * 256 + t.cause)
  pc    : r.trapPc = w64 pc
  fm    : r.faultMask = t.fm
  cm    : r.causeMask = t.cm
  regs  : RegsKept q r

theorem Recorded257.handed {q r u : Group} {pc : Nat} {t : TrapReq} (h : Recorded257 q r pc t) (k : Handed r u) : Recorded257 q u pc t := by
  have e := k.rest
  exact ⟨by rw [e]; exact h.cause, by rw [e]; exact h.pc, by rw [e]; exact h.fm, by rw [e]; exact h.cm, h.regs.trans k.regsKept⟩

theorem recorded_trapRecord (s : State) (b g pc : Nat) (t : TrapReq) : Recorded257 (s.group b g) ((trapRecord s b g pc t).group b g) pc t := by
  unfold trapRecord
  rw [group_modGroup_self]
  refine Recorded257.handed (r := { s.group b g with replay := none, trapCause := _, trapPc := _, faultMask := _, causeMask := _ }) ?_ (handed_mapLanes ..)
  exact ⟨rfl, rfl, rfl, rfl, rfl, rfl, rfl, rfl, rfl⟩

/-- What taking a trap ends in: the context stopped, on the trap's cause or on that of the table's read, or the handler entered. -/
theorem takeTrap_cases (s : State) (b g pc : Nat) (t : TrapReq) : let r := trapRecord s b g pc t
    let n := noteHandler r b t.cause
    ((s.group b g).trapMode = true ∧ takeTrap s b g pc t = stopContext r b g t.cause t.detail pc) ∨
    ((s.group b g).trapMode = false ∧
      ((∃ c, handlerOf s b t.cause = .error c ∧ takeTrap s b g pc t = stopContext n b g c 0 pc) ∨
       (handlerOf s b t.cause = .ok none ∧ takeTrap s b g pc t = stopContext n b g t.cause t.detail pc) ∨
       (∃ h, handlerOf s b t.cause = .ok (some h) ∧
         takeTrap s b g pc t = if (lanesOf t.fm).any fun L => decide (((s.group b g).lane L).lap + 1 ≥ 2 ^ 32)
           then stopContext n b g t.cause t.detail pc else enterHandler n b g h t.fm))) := by
  unfold takeTrap
  dsimp only
  rw [(upd_trapRecord s b g pc t).handlerOf]
  cases (s.group b g).trapMode
  · refine .inr ⟨rfl, ?_⟩
    cases handlerOf s b t.cause with
    | error c => exact .inl ⟨c, rfl, rfl⟩
    | ok o => cases o with
      | none => exact .inr (.inl ⟨rfl, rfl⟩)
      | some h => exact .inr (.inr ⟨h, rfl, rfl⟩)
  · exact .inl ⟨rfl, rfl⟩

/-- Whatever taking a trap ends in, the record stands, every register is as it was, and memory is what the reads of the trap table left. -/
theorem takeTrap_record (s : State) (b g pc : Nat) (t : TrapReq) : Recorded257 (s.group b g) ((takeTrap s b g pc t).group b g) pc t ∧
    (takeTrap s b g pc t).mem = (tableRead s b g t.cause).mem ∧ (takeTrap s b g pc t).hostMem = (tableRead s b g t.cause).hostMem := by
  have hr := recorded_trapRecord s b g pc t
  have hu := upd_trapRecord s b g pc t
  have hn := hu.noteHandler b t.cause
  have hr' : Recorded257 (s.group b g) ((noteHandler (trapRecord s b g pc t) b t.cause).group b g) pc t := by rw [group_noteHandler]; exact hr
  have hstop : ∀ c d, Recorded257 (s.group b g) ((stopContext (noteHandler (trapRecord s b g pc t) b t.cause) b g c d pc).group b g) pc t :=
    fun c d => hr'.handed (handed_stopContext ..)
  unfold tableRead
  rcases takeTrap_cases s b g pc t with ⟨hm, e⟩ | ⟨hm, ⟨c, -, e⟩ | ⟨-, e⟩ | ⟨h, -, e⟩⟩ <;> rw [e] <;> simp only [hm, if_true, Bool.false_eq_true, if_false]
  · exact ⟨hr.handed (handed_stopContext ..), hu.mem, hu.hostMem⟩
  · exact ⟨hstop .., hn.mem, hn.hostMem⟩
  · exact ⟨hstop .., hn.mem, hn.hostMem⟩
  · split_ifs
    · exact ⟨hstop .., hn.mem, hn.hostMem⟩
    · obtain ⟨e1, e2⟩ := enterHandler_memories (noteHandler (trapRecord s b g pc t) b t.cause) b g h t.fm
      exact ⟨hr'.handed (handed_enterHandler ..), e1.trans hn.mem, e2.trans hn.hostMem⟩

/-- The reads of the trap table leave the same memory whatever the registers and issue state of a group. -/
theorem tableRead_memories {s t : State} {b g : Nat} (h : Upd s t b g) (hm : (t.group b g).trapMode = (s.group b g).trapMode) (cause : Nat) :
    (tableRead t b g cause).mem = (tableRead s b g cause).mem ∧ (tableRead t b g cause).hostMem = (tableRead s b g cause).hostMem := by
  unfold tableRead
  rw [hm]
  split_ifs
  · exact ⟨h.mem, h.hostMem⟩
  · exact ⟨(h.noteHandler b cause).mem, (h.noteHandler b cause).hostMem⟩

end Sys2Proof.Machine
end

section
/-! PROOF. Words of registers: integer arithmetic, carry chains, bits, moves and compares, floating-point arithmetic (R322–R355). -/

set_option Elab.async false

namespace Sys2Proof.Machine

/-! ## Words of one source, and words with a rounded result -/

theorem computesAs_of_alu1 {c : Insn → Instr} {op : Nat} {w : Insn} {lat : Nat} {rt : Ty} {f : Nat → Nat}
    (h : ∀ s, exec (c w) s = .next (alu1 op w s lat rt f)) : ComputesAs c op w rt (opsA op w) (onA (tyD op w) w f) :=
  fun _ _ hi he => ⟨_, h _, alu_computes hi _ lat rt (opD w) (opsA op w) (onA (tyD op w) w f) rfl he⟩

theorem roundsAs_of_fp1 {c : Insn → Instr} {op : Nat} {w : Insn} {lat : Nat} {f : Nat → Rounded}
    (h : ∀ s, exec (c w) s = .next (fp1 op lat w s f)) : RoundsAs c op w (tyD op w) (opsA op w) fun s i L => f (srcA (tyD op w) w s i L) :=
  fun _ _ hi he hn => ⟨_, h _, fp_computes hi _ lat _ (opD w) (fTnf w) (opsA op w) (fun s i L => f (srcA (tyD op w) w s i L)) rfl he hn⟩

theorem roundsAs_of_fp2 {c : Insn → Instr} {op : Nat} {w : Insn} {lat : Nat} {f : Nat → Nat → Rounded}
    (h : ∀ s, exec (c w) s = .next (fp2 op lat w s f)) :
    RoundsAs c op w (tyD op w) (opsAB op w) fun s i L => f (srcA (tyD op w) w s i L) (srcB (tyD op w) w s i L) :=
  fun _ _ hi he hn => ⟨_, h _, fp_computes hi _ lat _ (opD w) (fTnf w) (opsAB op w)
    (fun s i L => f (srcA (tyD op w) w s i L) (srcB (tyD op w) w s i L)) rfl he hn⟩

theorem roundsAs_of_fp3 {c : Insn → Instr} {op : Nat} {w : Insn} {lat : Nat} {f : Nat → Nat → Nat → Rounded}
    (h : ∀ s, exec (c w) s = .next (fp3 op lat w s f)) :
    RoundsAs c op w (tyD op w) (opsABC op w) fun s i L => f (srcA (tyD op w) w s i L) (srcB (tyD op w) w s i L) (srcC (tyD op w) w s i L) :=
  fun _ _ hi he hn => ⟨_, h _, fp_computes hi _ lat _ (opD w) (fTnf w) (opsABC op w)
    (fun s i L => f (srcA (tyD op w) w s i L) (srcB (tyD op w) w s i L) (srcC (tyD op w) w s i L)) rfl he hn⟩

/-! ## Integer arithmetic (R326–R330) -/

theorem computesAs_imin (w : Insn) : ComputesAs .imin 0x09 w (tyD 9 w) (opsAB 9 w) (onAB (tyD 9 w) w fun a b =>
    if asInt (tyD 9 w) a ≤ asInt (tyD 9 w) b then a else b) := computesAs_of_alu2 (f := iminFn (tyD 9 w)) fun _ => rfl

theorem computesAs_imax (w : Insn) : ComputesAs .imax 0x0A w (tyD 10 w) (opsAB 10 w) (onAB (tyD 10 w) w fun a b =>
    if asInt (tyD 10 w) a ≥ asInt (tyD 10 w) b then a else b) := computesAs_of_alu2 (f := imaxFn (tyD 10 w)) fun _ => rfl

theorem computesAs_imad (w : Insn) : ComputesAs .imad 0x06 w (if bit w.mod.toNat 1 then widen (tyD 6 w) else tyD 6 w) (opsABC 6 w)
    fun s i L => imadFn (tyD 6 w) (if bit w.mod.toNat 1 then widen (tyD 6 w) else tyD 6 w) (sat0 w) (srcA (tyD 6 w) w s i L) (srcB (tyD 6 w) w s i L)
      (srcC (if bit w.mod.toNat 1 then widen (tyD 6 w) else tyD 6 w) w s i L) := computesAs_of_alu3 fun _ => rfl

theorem exec_dp4_c {w : Insn} (hc : w.form = .c) (s : State) :
    exec (.dp4 w) s = .next (alu3 0x0B w s 4 .i32 .i32 .i32 .i32 (dp4Fn w.sub.toNat (sat0 w))) := congrArg Host.Outcome.next (if_pos hc)

theorem exec_dp4_a {w : Insn} (ha : w.form ≠ .c) (s : State) :
    exec (.dp4 w) s = .next (alu2 0x0B w s 4 .i32 .i32 .i32 fun a b => dp4Fn w.sub.toNat (sat0 w) a b 0) := congrArg Host.Outcome.next (if_neg ha)

theorem exec_lea_c {w : Insn} (hc : w.form = .c) (s : State) :
    exec (.lea w) s = .next (alu3 0x0C w s 4 (if w.mod.toNat = 0 then tyD 12 w else .b32) (tyD 12 w) (tyD 12 w) (tyD 12 w)
      (leaFn (tyD 12 w) w.sub.toNat w.mod.toNat)) := congrArg Host.Outcome.next (if_pos hc)

theorem exec_lea_a {w : Insn} (ha : w.form ≠ .c) (s : State) :
    exec (.lea w) s = .next (alu2 0x0C w s 4 (if w.mod.toNat = 0 then tyD 12 w else .b32) (tyD 12 w) (tyD 12 w)
      fun a b => leaFn (tyD 12 w) w.sub.toNat w.mod.toNat a b 0) := congrArg Host.Outcome.next (if_neg ha)

theorem byteOf_eq (v k : Nat) (u : Bool) : byteOf v k u = if u then (v / 256 ^ k % 256 : Int) else sext 8 (v / 256 ^ k) := by
  have h : v >>> (8 * k) = v / 256 ^ k := by rw [Nat.shiftRight_eq_div_pow, Nat.pow_mul]
  unfold byteOf bits
  rw [h, show 8 * k + 7 + 1 - 8 * k = 8 by omega]
  cases u <;> simp

/-- DP4 is C and the four products of bytes, in any order of the sum. -/
theorem dp4Fn_eq (sub : Nat) (sat : Bool) (a b c : Nat) : dp4Fn sub sat a b c = intResult .i32 32 sat (sext 32 c +
    byteOf a 0 (bit sub 0) * byteOf b 0 (bit sub 1) + byteOf a 1 (bit sub 0) * byteOf b 1 (bit sub 1) +
    byteOf a 2 (bit sub 0) * byteOf b 2 (bit sub 1) + byteOf a 3 (bit sub 0) * byteOf b 3 (bit sub 1)) := rfl

/-- Settles O1: each word computes its function of the model, which is the stated value; DP4's bytes are spelt as quotients. -/
theorem integerArithmetic : Obligations.IntegerArithmetic := by
  refine ⟨fun w => ⟨computesAs_of_alu2 (f := iaddFn (tyD 0 w) (sat0 w)) fun _ => rfl, computesAs_of_alu2 (f := isubFn (tyD 1 w) (sat0 w)) fun _ => rfl,
    computesAs_of_alu2 (f := imulFn (tyD 4 w)) fun _ => rfl,
    computesAs_of_alu2 (f := imulhFn (tyD 5 w)) fun _ => rfl, computesAs_of_alu1 fun _ => rfl, computesAs_of_alu1 fun _ => rfl, computesAs_imin w, computesAs_imax w⟩,
    computesAs_imad, fun w => ⟨fun hc => ?_, fun ha => ?_⟩, fun w => ⟨fun hc => computesAs_of_alu3 (exec_lea_c hc), fun ha => computesAs_of_alu2 (exec_lea_a ha)⟩⟩
  · refine ComputesAs.congr (computesAs_of_alu3 (exec_dp4_c hc)) fun s i L => ?_
    simp only [onABC, dp4Fn_eq, byteOf_eq]; rfl
  · refine ComputesAs.congr (computesAs_of_alu2 (exec_dp4_a ha)) fun s i L => ?_
    simp only [onAB, dp4Fn_eq, byteOf_eq]; rfl

/-! ## Bits, moves and compares (R331–R339) -/

theorem popCount_eq (w x : Nat) : popCount w x = ((List.range w).filter (bit x)).length := by
  unfold popCount
  induction w with
  | zero => rfl
  | succ w ih =>
    rw [List.range_succ, List.foldl_append, ih, List.filter_append, List.length_append]
    cases h : bit x w <;> simp [b2n, h]

theorem bitReverse_eq (w x : Nat) : bitReverse w x = ((List.range w).map fun k => if bit x (w - 1 - k) then 2 ^ k else 0).sum := by
  simp only [bitReverse, foldl_add_eq_sum_map, b2n_mul]

theorem exec_mov_regs {w : Insn} (ha : ∀ n, opA w ≠ .q n) (hd : ∀ n, opD w ≠ .q n) (s : State) :
    exec (.mov w) s = .next (alu1 0x0D w s 4 (tyD 13 w) id) := by
  show execMov w s = _
  unfold execMov
  dsimp only
  split
  · exact absurd ‹_› (ha _)
  · exact absurd ‹_› (hd _)
  · rfl

theorem computesAs_movi (w : Insn) : ComputesAs .movi 0x0E w (tyD 14 w) [] fun _ _ _ => imm32 (tyD 14 w) (bits w.ext.toNat 31 0) :=
  fun _ _ hi he => ⟨_, rfl, alu_computes hi _ 4 (tyD 14 w) (opD w) [] (fun _ _ _ => imm32 (tyD 14 w) (bits w.ext.toNat 31 0)) rfl he⟩

/-- A compare reads D where MOD combines with its old value (R337). -/
def opsOld (op : Nat) (w : Insn) : List (Opd × Nat) := opsAB op w ++ if w.mod.toNat = 0 then [] else [(opD w, 1)]

theorem computesAs_compare {c : Insn → Instr} {op : Nat} {w : Insn} {f : Nat → Nat → Bool} (h : ∀ s, exec (c w) s = .next (compareWord op w s f)) :
    ComputesAs c op w .b32 (opsOld op w) fun s i L =>
      b2n (combine w.mod.toNat ((valOf s i .b32 (opD w) L).1 == 1) (f (srcA (tyD op w) w s i L) (srcB (tyD op w) w s i L))) :=
  fun _ _ hi he => ⟨_, h _, alu_computes hi _ 4 .b32 (opD w) (opsOld op w)
    (fun s i L => b2n (combine w.mod.toNat ((valOf s i .b32 (opD w) L).1 == 1) (f (srcA (tyD op w) w s i L) (srcB (tyD op w) w s i L)))) rfl he⟩

theorem computesAs_plop (w : Insn) : ComputesAs .plop 0x32 w .b32 (opsABC 0x32 w) (onABC .b32 w fun a b c =>
    b2n (bit (xmod w % 256) (b2n (a == 1) + 2 * b2n (b == 1) + 4 * b2n (c == 1)))) :=
  computesAs_of_alu3 (f := fun a b c => b2n (mapBit (xmod w % 256) (a == 1) (b == 1) (c == 1))) fun _ => rfl

theorem sel_computes (w : Insn) (s : State) (i : Iss) (h : Issues 0x33 w noBump s i) : ∃ t, exec (.sel w) s = .next t ∧
    Computes s i (tyD 0x33 w) (opD w) (fun L => if srcC .b32 w s i L == 1 then srcA (tyD 0x33 w) w s i L else srcB (tyD 0x33 w) w s i L)
      (fun L => inMask i.gg L || guessOf s i (opC w) 1 L ||
        (if srcC .b32 w s i L == 1 then guessOf s i (opA w) (spanA 0x33 w) L else guessOf s i (opB w) (spanB 0x33 w) L)) t :=
  ⟨_, rfl, computes_of h _ 4 _ _ _ _ rfl fun L hL => by simp [hL]⟩

/-- Settles O5: each word computes its function of the model; what the statement spells otherwise (the counts of bits, the two inequalities
written the other way round) is equal to it. -/
theorem bitsMovesAndCompares : Obligations.BitsMovesAndCompares := by
  refine ⟨fun w => ⟨computesAs_of_alu2 fun _ => rfl, computesAs_of_alu2 fun _ => rfl, computesAs_of_alu2 fun _ => rfl, computesAs_of_alu1 fun _ => rfl,
      (computesAs_of_alu1 (f := popCount (tyBits (tyD 25 w))) fun _ => rfl).congr fun _ _ _ => popCount_eq .., computesAs_of_alu1 fun _ => rfl,
      (computesAs_of_alu1 (f := bitReverse (tyBits (tyD 27 w))) fun _ => rfl).congr fun _ _ _ => bitReverse_eq ..⟩,
    fun w => ⟨fun ha hd => computesAs_of_alu1 (exec_mov_regs ha hd), (computesAs_movi w).congr fun _ _ _ => rfl, ?_,
      computesAs_compare (f := fun a b => fcmpCond w.sub.toNat (decodeF (fmtOf (tyD 0x31 w)) a) (decodeF (fmtOf (tyD 0x31 w)) b)) fun _ => rfl,
      computesAs_plop w, sel_computes w⟩⟩
  refine ComputesAs.congr (computesAs_compare (f := fun a b => icmpCond w.sub.toNat (asInt (tyD 0x30 w) a) (asInt (tyD 0x30 w) b)) fun _ => rfl) fun s i L => ?_
  congr 2

/-! ## Floating-point words (R347–R355) -/

/-- Settles O7: each word is one of one or two sources with a rounded result, or FCLASS, a word of one source. -/
theorem floatSelectionAndSpecialFunctions : Obligations.FloatSelectionAndSpecialFunctions := fun _ =>
  ⟨roundsAs_of_fp2 fun _ => rfl, roundsAs_of_fp2 fun _ => rfl, roundsAs_of_fp2 fun _ => rfl, roundsAs_of_fp2 fun _ => rfl, computesAs_of_alu1 fun _ => rfl,
    roundsAs_of_fp1 fun _ => rfl, roundsAs_of_fp1 fun _ => rfl, roundsAs_of_fp1 fun _ => rfl, roundsAs_of_fp1 fun _ => rfl, roundsAs_of_fp1 fun _ => rfl,
    roundsAs_of_fp1 fun _ => rfl, roundsAs_of_fp1 fun _ => rfl, roundsAs_of_fp1 fun _ => rfl⟩

/-- Under the test, a V form's lanes whose results are non-finite (R237). -/
theorem nonFiniteLanes_v (i : Iss) (bad : Nat → Bool) : nonFiniteLanes i false true bad = maskOf fun L => inMask i.ex L && bad L := rfl

/-- A V form with non-finite lanes under the test: they write nothing and trap, and the rest have written and gone on. -/
theorem fpBody_bad {s : State} {i : Iss} {lat : Nat} {t : Ty} {n : Nat} {srcs : List (Opd × Nat)} {f : State → Iss → Nat → Rounded} {bad : Mask}
    (hb : bad = maskOf fun L => inMask i.ex L && (f s i L).2) (h0 : bad ≠ 0) : fpBody lat t (.v n) true srcs f s i =
    .partial_ (advance (putD s { i with gg := i.gg &&& ~~~bad } lat t (.v n) (i.ex &&& ~~~bad) (fun L => (f s i L).1)
      fun L => inMask i.gg L || srcs.any fun o => guessOf s i o.1 o.2 L) i (i.iss &&& ~~~bad)) { cause := 0x0E, fm := bad, cm := bad } := by
  unfold fpBody
  rw [if_neg (by simp [isS])]
  dsimp only [isS]
  rw [nonFiniteLanes_v, ← hb]
  unfold nonFiniteEnd
  dsimp only
  rw [if_neg h0]

theorem inMask_not (a : Mask) {L : Nat} (h : L < 32) : inMask (~~~a) L = !inMask a L := by simp [inMask, h]

theorem maskOf_ne_zero {f : Nat → Bool} {L : Nat} (hL : L < 32) (h : f L = true) : maskOf f ≠ 0 := fun e => by
  have := inMask_maskOf f L
  rw [e] at this
  simp [inMask, hL, h] at this

/-- TRAP_CAUSE of a trap without an error sequence (R257). -/
theorem Recorded257.cause_eq {q r : Group} {pc : Nat} {t : TrapReq} (h : Recorded257 q r pc t) (he : t.eseq = 0) (hd : t.detail < 256) :
    r.trapCause = w64 (256 * t.detail + t.cause) := by
  rw [h.cause, he, Nat.mod_eq_of_lt hd, Nat.mul_comm 256]
  exact congrArg w64 (by omega)

/-- A word of V registers that ends in a trap of some lanes: what it leaves of registers, the trap and memory. -/
theorem fadd_nonFinite (w : Insn) (s : State) (i : Iss) (n : Nat) (h : Issues 0x40 w noBump s i) (hd : opD w = .v n) (ht : fTnf w = true)
    (hx : ∃ L, L < 32 ∧ inMask i.ex L = true ∧ (arith2 addOp (tyD 0x40 w) (fMode w) (fSat w) (srcA (tyD 0x40 w) w s i L) (srcB (tyD 0x40 w) w s i L)).2 = true) :
    let r := fun L => arith2 addOp (tyD 0x40 w) (fMode w) (fSat w) (srcA (tyD 0x40 w) w s i L) (srcB (tyD 0x40 w) w s i L)
    let bad := maskOf fun L => inMask i.ex L && (r L).2
    let u := addW 0x40 5 w s
    let q := u.group i.b i.g
    q.trapCause = 0x0E ∧ q.trapPc = w64 i.pc ∧ q.faultMask = bad ∧ q.causeMask = bad ∧
    (∀ L, L < 32 → inMask bad L = true → q.vReg n L = (s.group i.b i.g).vReg n L ∧ q.vGuess n L = (s.group i.b i.g).vGuess n L) ∧
    (∀ L, L < 32 → inMask i.ex L = true → (r L).2 = false → q.vReg n L = w32 (r L).1) ∧
    u.mem = (tableRead s i.b i.g 0x0E).mem := by
  intro r bad u q
  obtain ⟨L0, hL0, hex0, hr0⟩ := hx
  have h0 : bad ≠ 0 := maskOf_ne_zero (f := fun L => inMask i.ex L && (r L).2) hL0 (by simp only [Bool.and_eq_true]; exact ⟨hex0, hr0⟩)
  set i' : Iss := { i with gg := i.gg &&& ~~~bad }
  set gb : Nat → Bool := fun L => inMask i.gg L || (opsAB 0x40 w).any fun o => guessOf s i o.1 o.2 L
  set s1 := putD s i' 5 (tyD 0x40 w) (.v n) (i.ex &&& ~~~bad) (fun L => (r L).1) gb with hs1
  set s2 := advance s1 i (i.iss &&& ~~~bad) with hs2
  set s3 := noteIssue s2 i 0x40 w.stall.toNat (w.y == 1) with hs3
  have hu : u = takeTrap s3 i.b i.g i.pc { cause := 0x0E, fm := bad, cm := bad } := by
    show addW 0x40 5 w s = _
    unfold addW fp2
    dsimp only
    rw [runWord_issues h, hd, ht]
    exact congrArg (conclude s i 0x40 w.stall.toNat (w.y == 1))
      (fpBody_bad (srcs := opsAB 0x40 w) (f := fun s i L => arith2 addOp (tyD 0x40 w) (fMode w) (fSat w) (srcA (tyD 0x40 w) w s i L) (srcB (tyD 0x40 w) w s i L)) rfl h0)
  have g1 : s1.group i.b i.g = putGroup (s.group i.b i.g) (cyclesOf s i.b) 5 (i.gg &&& ~~~bad) (tyD 0x40 w) (.v n) (i.ex &&& ~~~bad) (fun L => (r L).1) gb := by
    rw [hs1, putD_eq]; exact group_modGroup_self ..
  have f3 : Follows s2 s3 i.b i.g := follows_noteIssue ..
  have u1 : Upd s s1 i.b i.g := upd_modGroup ..
  have u3 : Upd s s3 i.b i.g := (u1.trans (upd_advance ..)).trans f3.1
  have a3 : RegsAlike (s1.group i.b i.g) (s3.group i.b i.g) := by
    refine RegsAlike.trans ?_ f3.2.regsAlike
    rw [hs2, group_advance]; exact RegsKept.alike ⟨rfl, rfl, rfl, rfl, rfl⟩
  have tm : (s3.group i.b i.g).trapMode = (s.group i.b i.g).trapMode := by
    rw [f3.2.rest, hs2, group_advance]
    show (s1.group i.b i.g).trapMode = _
    rw [g1, (untouched_putGroup ..).rest]
  obtain ⟨rec, hm, -⟩ := takeTrap_record s3 i.b i.g i.pc { cause := 0x0E, fm := bad, cm := bad }
  rw [← hu] at rec hm
  have ra := a3.trans rec.regs.alike
  have hbad : ∀ L, L < 32 → inMask (i.ex &&& ~~~bad) L = (inMask i.ex L && !(r L).2) := fun L hL => by
    rw [inMask_and, inMask_not _ hL, inMask_maskOf]
    simp only [hL, decide_true, Bool.true_and]
    cases inMask i.ex L <;> cases (r L).2 <;> rfl
  refine ⟨rec.cause_eq rfl (Nat.zero_lt_succ _), rec.pc, rec.fm, rec.cm, fun L hL hb => ?_, fun L hL hex hr => ?_, hm.trans (tableRead_memories u3 tm _).1⟩
  · have hb2 : inMask (~~~bad) L = false := by rw [inMask_not _ hL, hb]; rfl
    rw [ra.v, ra.vg, g1, putGroup_vReg _ _ _ _ _ _ _ _ _ _ _ hL, putGroup_vGuess _ _ _ _ _ _ _ _ _ _ _ hL]
    simp [inMask_and, hb2]
  · rw [ra.v, g1, putGroup_vReg _ _ _ _ _ _ _ _ _ _ _ hL, hbad L hL]
    simp [hex, hr, covers]

/-- Settles O6: each word is one of two or three sources with a rounded result; a non-finite result under the test ends in a partial trap. -/
theorem floatArithmetic : Obligations.FloatArithmetic :=
  ⟨fun _ => ⟨roundsAs_of_fp2 fun _ => rfl, roundsAs_of_fp2 fun _ => rfl, roundsAs_of_fp2 fun _ => rfl, roundsAs_of_fp3 fun _ => rfl,
      roundsAs_of_fp2 fun _ => rfl, roundsAs_of_fp2 fun _ => rfl, roundsAs_of_fp3 fun _ => rfl, roundsAs_of_fp2 fun _ => rfl, roundsAs_of_fp2 fun _ => rfl,
      roundsAs_of_fp2 fun _ => rfl, roundsAs_of_fp3 fun _ => rfl⟩,
    fun w s i n h hd ht hx => ⟨_, rfl, fadd_nonFinite w s i n h hd ht hx⟩⟩

end Sys2Proof.Machine
end

section
/-! PROOF. Words with several destinations: carry chains, conversions and the pair word (R299–R302, R327, R356–R363). -/

set_option Elab.async false

namespace Sys2Proof.Machine

/-! ## Writes of destinations -/

/-- From q to r the destinations ds have been written in lanes of ex, and the guards' guess bits of gg have joined them (R206). -/
structure Wrote (q r : Group) (ds : List (Ty × Opd)) (ex gg : Mask) : Prop where
  un   : Untouched q r
  regs : SameRegs q r ds ex gg

theorem sameRegs_refl (q : Group) (ds : List (Ty × Opd)) (ex gg : Mask) : SameRegs q q ds ex gg :=
  ⟨fun _ _ _ _ => rfl, fun _ _ _ _ => rfl, fun _ _ _ _ => rfl, fun _ _ _ _ => rfl, fun _ _ => rfl⟩

theorem SameRegs.trans {q r u : Group} {ds es : List (Ty × Opd)} {ex gg : Mask} (h : SameRegs q r ds ex gg) (k : SameRegs r u es ex gg) :
    SameRegs q u (ds ++ es) ex gg where
  v := fun n L hL hn => by
    simp only [List.all_append, Bool.and_eq_true] at hn
    exact (k.v n L hL (hn.imp_left And.right)).trans (h.v n L hL (hn.imp_left And.left))
  vg := fun n L hL hn => by
    simp only [List.all_append, Bool.and_eq_true] at hn
    exact (k.vg n L hL (hn.imp_left And.right)).trans (h.vg n L hL (hn.imp_left And.left))
  p := fun n L hL hn => by
    simp only [List.mem_append] at hn
    exact (k.p n L hL (hn.imp_left fun a e he => a e (.inr he))).trans (h.p n L hL (hn.imp_left fun a e he => a e (.inl he)))
  pg := fun n L hL hn => by
    simp only [List.mem_append] at hn
    exact (k.pg n L hL (hn.imp_left fun a e he => a e (.inr he))).trans (h.pg n L hL (hn.imp_left fun a e he => a e (.inl he)))
  s := fun n hn => by
    simp only [List.mem_append] at hn
    exact (k.s n (hn.imp_left fun a e he => a e (.inr he))).trans (h.s n (hn.imp_left fun a e he => a e (.inl he)))

/-- Registers that read alike afterwards. -/
theorem SameRegs.alike {q r u : Group} {ds : List (Ty × Opd)} {ex gg : Mask} (h : SameRegs q r ds ex gg) (k : RegsAlike r u) : SameRegs q u ds ex gg :=
  ⟨fun n L hL hn => (k.v n L).trans (h.v n L hL hn), fun n L hL hn => (k.vg n L).trans (h.vg n L hL hn), fun n L hL hn => (k.p n L).trans (h.p n L hL hn),
    fun n L hL hn => (k.pg n L).trans (h.pg n L hL hn), fun n hn => (k.s n).trans (h.s n hn)⟩

theorem RegsAlike.sameRegs {q r : Group} (h : RegsAlike q r) (ds : List (Ty × Opd)) (ex gg : Mask) : SameRegs q r ds ex gg := (sameRegs_refl q ds ex gg).alike h

/-- A larger list of destinations, in a larger set of lanes, says less. -/
theorem SameRegs.mono {q r : Group} {ds es : List (Ty × Opd)} {ex gg ex' gg' : Mask} (h : SameRegs q r ds ex gg) (hd : ∀ e ∈ ds, e ∈ es)
    (hx : ∀ L, L < 32 → inMask ex L = true → inMask ex' L = true) (hg : ∀ L, L < 32 → inMask gg L = true → inMask gg' L = true) : SameRegs q r es ex' gg' := by
  have hall : ∀ n, es.all (fun e => !covers e.1 e.2 n) = true → ds.all (fun e => !covers e.1 e.2 n) = true := fun n he => by
    rw [List.all_eq_true] at he ⊢; exact fun e h => he e (hd e h)
  have hx' : ∀ L, L < 32 → inMask ex' L = false → inMask ex L = false := fun L hL hf => by
    by_contra h; rw [hx L hL (by simpa using h)] at hf; cases hf
  have hg' : ∀ L, L < 32 → inMask gg' L = false → inMask gg L = false := fun L hL hf => by
    by_contra h; rw [hg L hL (by simpa using h)] at hf; cases hf
  refine ⟨fun n L hL hn => h.v n L hL (hn.imp (hall n) (hx' L hL)), fun n L hL hn => h.vg n L hL (hn.imp (hall n) (And.imp (hx' L hL) (hg' L hL))),
    fun n L hL hn => h.p n L hL (hn.imp (fun a e he => a e (hd e he)) (hx' L hL)),
    fun n L hL hn => h.pg n L hL (hn.imp (fun a e he => a e (hd e he)) (And.imp (hx' L hL) (hg' L hL))),
    fun n hn => h.s n (hn.imp (fun a e he => a e (hd e he)) fun h0 => ?_)⟩
  refine BitVec.eq_of_getLsbD_eq fun L hL => ?_
  have := hx' L hL (by rw [h0]; simp [inMask])
  simpa [inMask] using this

theorem Wrote.refl (q : Group) (ds : List (Ty × Opd)) (ex gg : Mask) : Wrote q q ds ex gg := ⟨.refl q, sameRegs_refl ..⟩
theorem Wrote.trans {q r u : Group} {ds es : List (Ty × Opd)} {ex gg : Mask} (h : Wrote q r ds ex gg) (k : Wrote r u es ex gg) : Wrote q u (ds ++ es) ex gg :=
  ⟨h.un.trans k.un, h.regs.trans k.regs⟩

/-- A write of D is a write of one destination. -/
theorem wrote_putGroup (q : Group) (cyc lat : Nat) (gg : Mask) (t : Ty) (o : Opd) (ex : Mask) (val : Nat → Nat) (gb : Nat → Bool) :
    Wrote q (putGroup q cyc lat gg t o ex val gb) [(t, o)] ex gg where
  un := untouched_putGroup ..
  regs :=
    { v := fun n L hL hn => by
        rw [putGroup_vReg _ _ _ _ _ _ _ _ _ _ _ hL, if_neg]
        rintro ⟨hx, hc⟩
        rcases hn with hn | hn
        · simp [hc] at hn
        · rw [hx] at hn; cases hn
      vg := fun n L hL hn => by
        rw [putGroup_vGuess _ _ _ _ _ _ _ _ _ _ _ hL]
        rcases hn with hn | ⟨h1, h2⟩
        · simp only [List.all_cons, List.all_nil, Bool.and_true, Bool.not_eq_true'] at hn
          simp [hn]
        · simp [h1, h2]
      p := fun n L hL hn => by
        rw [putGroup_pred _ _ _ _ _ _ _ _ _ _ _ hL, if_neg]
        rintro ⟨hx, ho, -⟩
        rcases hn with hn | hn
        · exact hn (t, o) (by simp) ho
        · rw [hx] at hn; cases hn
      pg := fun n L hL hn => by
        rw [putGroup_pGuess _ _ _ _ _ _ _ _ _ _ _ hL]
        rcases hn with hn | ⟨h1, h2⟩
        · rw [if_neg fun x => hn (t, o) (by simp) x.1]
        · simp [h1, h2]
      s := fun n hn => by
        rw [putGroup_sReg]
        cases o with
        | s k =>
          rcases hn with hn | hn
          · have hk : n ≠ k := fun x => hn (t, .s k) (by simp) (by rw [x])
            cases (lanesOf ex).head? <;> simp [hk]
          · rw [hn, show lanesOf 0 = [] from by simp [lanesOf, inMask]]; rfl
        | _ => rfl }

/-- What D holds in a lane of the set once it has been written. -/
theorem gets_putGroup (q : Group) (cyc lat : Nat) (gg : Mask) (t : Ty) (o : Opd) (ex : Mask) (val : Nat → Nat) (gb : Nat → Bool) {L : Nat} (hL : L < 32)
    (hx : inMask ex L = true) (hg : inMask gg L = true → gb L = true) : Gets (putGroup q cyc lat gg t o ex val gb) ex t o L (val L) (gb L) := by
  have hgb : (if inMask gg L = true then true else if inMask ex L = true then gb L else false) = gb L := by
    split_ifs with h
    exacts [(hg h).symm, rfl]
  unfold Gets
  cases o with
  | v n =>
    have key : ∀ r, covers t (.v n) r = true →
        (putGroup q cyc lat gg t (.v n) ex val gb).vReg r L = (if r = n then w32 (val L) else w32 (val L / 2 ^ 32)) ∧
        (putGroup q cyc lat gg t (.v n) ex val gb).vGuess r L = gb L := fun r hr => by
      rw [putGroup_vReg _ _ _ _ _ _ _ _ _ _ _ hL, putGroup_vGuess _ _ _ _ _ _ _ _ _ _ _ hL]
      simp only [hx, hr, and_self, if_true] at hgb ⊢
      exact ⟨trivial, hgb⟩
    obtain ⟨h1, h2⟩ := key n (by simp [covers])
    refine ⟨by simpa using h1, h2, fun hw => ?_⟩
    simpa using key (n + 1) (by simp [covers, hw])
  | p n =>
    dsimp only
    split_ifs with h15
    · exact ⟨rfl, rfl⟩
    · rw [putGroup_pred _ _ _ _ _ _ _ _ _ _ _ hL, putGroup_pGuess _ _ _ _ _ _ _ _ _ _ _ hL]
      simp only [hx, h15, ne_eq, not_false_eq_true, and_self, if_true] at hgb ⊢
      exact ⟨trivial, hgb⟩
  | s n =>
    intro hh
    rw [putGroup_sReg, hh]
    dsimp only
    by_cases h0 : n = 0
    · subst h0; simp [Group.sReg]
    · simp [h0]
  | _ => trivial

theorem Gets.alike {q r : Group} {ex : Mask} {t : Ty} {d : Opd} {L x : Nat} {gb : Bool} (h : Gets q ex t d L x gb) (k : RegsAlike q r) :
    Gets r ex t d L x gb := by
  unfold Gets at *
  cases d <;> simp only [k.v, k.vg, k.p, k.pg, k.s] <;> exact h

/-- A destination apart from others: none of them covers a register of it or names it. -/
def Apart (t : Ty) (d : Opd) (es : List (Ty × Opd)) : Prop :=
  (∀ n, covers t d n = true → es.all (fun e => !covers e.1 e.2 n) = true) ∧ ∀ e ∈ es, isV d = true ∨ e.2 ≠ d

/-- A destination keeps what it holds while others are written. -/
theorem Gets.kept {q r : Group} {ex ex' gg' : Mask} {t : Ty} {d : Opd} {L x : Nat} {gb : Bool} {es : List (Ty × Opd)} (h : Gets q ex t d L x gb)
    (hL : L < 32) (k : SameRegs q r es ex' gg') (ha : Apart t d es) : Gets r ex t d L x gb := by
  obtain ⟨hv, ho⟩ := ha
  unfold Gets at *
  cases d with
  | v n =>
    have keep : ∀ r, covers t (.v n) r = true → _ := fun r hr => And.intro (k.v r L hL (.inl (hv r hr))) (k.vg r L hL (.inl (hv r hr)))
    obtain ⟨h1, h2, h3⟩ := h
    obtain ⟨e1, e2⟩ := keep n (by simp [covers])
    refine ⟨e1.trans h1, e2.trans h2, fun hw => ?_⟩
    obtain ⟨e3, e4⟩ := keep (n + 1) (by simp [covers, hw])
    exact ⟨e3.trans (h3 hw).1, e4.trans (h3 hw).2⟩
  | p n =>
    have ho' : ∀ e ∈ es, e.2 ≠ .p n := fun e he => (ho e he).resolve_left (by simp [isV])
    dsimp only at *
    split_ifs with h15
    · exact ⟨rfl, rfl⟩
    · rw [if_neg h15] at h
      rw [k.p n L hL (.inl ho'), k.pg n L hL (.inl ho')]; exact h
  | s n =>
    intro hh
    rw [k.s n (.inl fun e he => (ho e he).resolve_left (by simp [isV]))]; exact h hh
  | _ => trivial

/-- From s to t destinations of the word's group have been written, and nothing else but issue state differs. -/
structure Puts (s t : State) (i : Iss) (ds : List (Ty × Opd)) : Prop where
  upd   : Upd s t i.b i.g
  wrote : Wrote (s.group i.b i.g) (t.group i.b i.g) ds i.ex i.gg

theorem Puts.refl (s : State) (i : Iss) (ds : List (Ty × Opd)) : Puts s s i ds := ⟨.refl .., .refl ..⟩
theorem Puts.trans {s t u : State} {i : Iss} {ds es : List (Ty × Opd)} (h : Puts s t i ds) (k : Puts t u i es) : Puts s u i (ds ++ es) :=
  ⟨h.upd.trans k.upd, h.wrote.trans k.wrote⟩

theorem group_putD (s : State) (i : Iss) (lat : Nat) (t : Ty) (o : Opd) (m : Mask) (val : Nat → Nat) (gb : Nat → Bool) :
    (putD s i lat t o m val gb).group i.b i.g = putGroup (s.group i.b i.g) (cyclesOf s i.b) lat i.gg t o m val gb := by
  rw [putD_eq, group_modGroup_self]

theorem puts_putD (s : State) (i : Iss) (lat : Nat) (t : Ty) (o : Opd) (val : Nat → Nat) (gb : Nat → Bool) :
    Puts s (putD s i lat t o i.ex val gb) i [(t, o)] :=
  ⟨upd_modGroup .., by rw [group_putD]; exact wrote_putGroup ..⟩

theorem gets_putD (s : State) (i : Iss) (lat : Nat) (t : Ty) (o : Opd) (val : Nat → Nat) (gb : Nat → Bool) {L : Nat} (hL : L < 32)
    (hx : inMask i.ex L = true) (hg : inMask i.gg L = true → gb L = true) :
    Gets ((putD s i lat t o i.ex val gb).group i.b i.g) i.ex t o L (val L) (gb L) := by
  rw [group_putD]; exact gets_putGroup _ _ _ _ _ _ _ _ _ hL hx hg

section puts
variable {op : Nat} {w : Insn} {bump : State → Iss → Mask} {s s1 : State} {i : Iss} {m : Mask} {body : State → Iss → Res} {ds : List (Ty × Opd)}

/-- A word whose part writes destinations and lets the lanes of m go on leaves all else as it was. -/
theorem Completed.quiet {u : State} (h : Completed s s1 i m u) (hp : Puts s s1 i ds) : Quiet s i ds u :=
  ⟨h.upd.sameElse, h.traps, hp.wrote.regs.alike h.regs⟩

theorem Puts.completed (hp : Puts s s1 i ds) (h : Issues op w bump s i) (hb : body s i = .next (advance s1 i m)) :
    Completed s s1 i m (runWord op w s bump body) := completed_of h hb hp.upd hp.wrote.un

end puts

/-! ## Checks that a word which issues has passed -/

theorem Issues.legal {op : Nat} {w : Insn} {bump : State → Iss → Mask} {s : State} {i : Iss} (h : Issues op w bump s i) :
    (∀ c ∈ fieldChecks op w, c.2 = true) ∧ countAllowed s i op w = true ∧ regRange s i.b op w = false := by
  obtain ⟨j, -, -, -, h4, -, -, rfl, -⟩ := h
  unfold stage1a at h4
  split_ifs at h4 with h1 h2
  simp only [List.any_cons, List.any_nil, Bool.or_false, Bool.not_eq_true', Bool.not_eq_false, Oper.legal, Bool.and_eq_true, List.all_eq_true] at h1 h2
  exact ⟨h1.1, h1.2, show regRange s j.b op w = false by simpa using h2⟩

/-! ## Carry chains (R327) -/

/-- The carry word's second destination: a predicate in each executing lane, written as one result of type b32. -/
theorem resLane_pred (q : Group) (cyc lat p L : Nat) (x gb : Bool) :
    q.resP cyc lat p L x gb = q.resLane cyc lat (wide .b32) (.p p) L (b2n x) gb := by
  cases x <;> rfl

/-- What the carry word's own part leaves: D, then the carry in each executing lane. -/
def carryPut (s : State) (i : Iss) (t : Ty) (d : Opd) (p : Nat) (x : Nat → Int) (out : Int → Bool) (gb : Nat → Bool) : State :=
  putD (putD s i 4 t d i.ex (fun L => wrap (tyBits t) (x L)) gb) i 4 .b32 (.p p) i.ex (fun L => b2n (out (x L))) gb

theorem carryWord_body {op : Nat} {w : Insn} {s : State} {i : Iss} (he : scalarForm w = true → escapes s i true [(opC w, 1)] = 0)
    (f : Nat → Nat → Nat → Int) (out : Nat → Int → Bool) : ∃ body : State → Iss → Res, carryWord op w s f out = runWord op w s noBump body ∧
    body s i = .next (advance (carryPut s i (tyD op w) (opD w) (xmod w % 16)
      (fun L => let k := if scalarForm w then (lanesOf i.ex).headD 0 else L
        f (srcA (tyD op w) w s i k) (srcB (tyD op w) w s i k) (srcC (tyD op w) w s i k)) (out (tyBits (tyD op w)))
      (fun L => inMask i.gg L || guessOf s i (opA w) (spanA op w) L || guessOf s i (opB w) (spanB op w) L || guessOf s i (opC w) 1 L)) i i.iss) := by
  unfold carryWord
  dsimp only
  refine ⟨_, rfl, ?_⟩
  rw [if_neg (by simpa using he)]
  have hc : ∀ v : Nat → Nat, cyclesOf (putD s i 4 (tyD op w) (opD w) i.ex v (fun L => inMask i.gg L || guessOf s i (opA w) (spanA op w) L || guessOf s i (opB w) (spanB op w) L || guessOf s i (opC w) 1 L)) i.b = cyclesOf s i.b :=
    fun v => (puts_putD ..).upd.cyclesOf i.b
  unfold carryPut
  rw [putD_eq (putD ..), hc]
  simp only [putGroup, resLane_pred]
  cases scalarForm w <;> rfl

theorem carryWord_computes {op : Nat} {w : Insn} {s : State} {i : Iss} (h : Issues op w noBump s i)
    (he : scalarForm w = true → escapes s i true [(opC w, 1)] = 0) (f : Nat → Nat → Nat → Int) (out : Nat → Int → Bool) :
    let p := xmod w % 16
    let gb := fun L => inMask i.gg L || guessOf s i (opA w) (spanA op w) L || guessOf s i (opB w) (spanB op w) L || guessOf s i (opC w) 1 L
    let x := fun L => let k := if scalarForm w then (lanesOf i.ex).headD 0 else L
      f (srcA (tyD op w) w s i k) (srcB (tyD op w) w s i k) (srcC (tyD op w) w s i k)
    let t := carryWord op w s f out
    SameElse s t i.b i.g ∧ SameTraps (s.group i.b i.g) (t.group i.b i.g) ∧ FallsThrough s i t ∧
    SameRegs (s.group i.b i.g) (t.group i.b i.g) [(tyD op w, opD w), (.b32, .p p)] i.ex i.gg ∧
    ∀ L, L < 32 → inMask i.ex L = true →
      (opD w ≠ .p p → Gets (t.group i.b i.g) i.ex (tyD op w) (opD w) L (wrap (tyBits (tyD op w)) (x L)) (gb L)) ∧
      Gets (t.group i.b i.g) i.ex .b32 (.p p) L (b2n (out (tyBits (tyD op w)) (x L))) (gb L) := by
  intro p gb x t
  obtain ⟨body, hw, hb⟩ := carryWord_body he f out
  have hp : Puts s (carryPut s i (tyD op w) (opD w) p x (out (tyBits (tyD op w))) gb) i [(tyD op w, opD w), (.b32, .p p)] :=
    (puts_putD s i 4 (tyD op w) (opD w) _ gb).trans (puts_putD _ i 4 .b32 (.p p) _ gb)
  have hc := hp.completed h hb
  rw [← hw] at hc
  have hq := hc.quiet hp
  have hg : ∀ L, inMask i.gg L = true → gb L = true := fun L hL => by simp [gb, hL]
  refine ⟨hq.other, hq.traps, hc.fallsThrough, hq.regs, fun L hL hx => ⟨fun hd => ?_, (gets_putD _ i 4 .b32 (.p p) _ gb hL hx (hg L)).alike hc.regs⟩⟩
  refine Gets.alike (Gets.kept (gets_putD s i 4 _ _ (fun L => wrap (tyBits (tyD op w)) (x L)) gb hL hx (hg L)) hL (puts_putD _ i 4 .b32 (.p p) _ gb).wrote.regs ?_) hc.regs
  exact ⟨fun n _ => rfl, fun e he => .inr (by simp only [List.mem_singleton] at he; rw [he]; exact fun h => hd h.symm)⟩

/-- Settles O2: the word writes D, then the carry predicate; the sum or difference is exact, and in a scalar form of the lowest executing lane. -/
theorem carryChains : Obligations.CarryChains := fun w s i =>
  ⟨fun h he => ⟨_, rfl, by
      have := carryWord_computes h he (fun a b c => (a : Int) + b + c) carryOut
      simpa only [carryOut, Nat.cast_pow, Nat.cast_ofNat] using this⟩,
    fun h he => ⟨_, rfl, by
      have := carryWord_computes h he (fun a b c => (a : Int) - b - c) fun _ x => borrowOut x
      simpa only [borrowOut] using this⟩⟩

/-! ## Consecutive registers (R356–R359) -/

/-- Consecutive registers from d, register j holding f L j in lane L. -/
def putRegs (s : State) (i : Iss) (d : Opd) (n : Nat) (f : Nat → Nat → Nat) (gb : Nat → Bool) : State :=
  (List.range n).foldl (fun t j => putD t i 5 .b32 (opPlus j d) i.ex (fun L => f L j) gb) s

def consecutive (d : Opd) (n : Nat) : List (Ty × Opd) := (List.range n).map fun j => (.b32, opPlus j d)

theorem putRegs_succ (s : State) (i : Iss) (d : Opd) (n : Nat) (f : Nat → Nat → Nat) (gb : Nat → Bool) :
    putRegs s i d (n + 1) f gb = putD (putRegs s i d n f gb) i 5 .b32 (opPlus n d) i.ex (fun L => f L n) gb := by
  simp only [putRegs, List.range_succ, List.foldl_append, List.foldl_cons, List.foldl_nil]

theorem consecutive_succ (d : Opd) (n : Nat) : consecutive d (n + 1) = consecutive d n ++ [(.b32, opPlus n d)] := by
  simp only [consecutive, List.range_succ, List.map_append, List.map_cons, List.map_nil]

theorem puts_putRegs (s : State) (i : Iss) (d : Opd) (n : Nat) (f : Nat → Nat → Nat) (gb : Nat → Bool) : Puts s (putRegs s i d n f gb) i (consecutive d n) := by
  induction n with
  | zero => exact .refl ..
  | succ n ih => rw [putRegs_succ, consecutive_succ]; exact ih.trans (puts_putD ..)

/-- Two registers after a V register are apart. -/
theorem apart_opPlus {d : Opd} (hd : isV d = true) {j n : Nat} (h : j ≠ n) : Apart .b32 (opPlus j d) [(.b32, opPlus n d)] := by
  cases d with
  | v k =>
    refine ⟨fun r hr => ?_, fun e _ => .inl rfl⟩
    simp only [opPlus, covers, wide, tyBits, Bool.or_eq_true, beq_iff_eq, Bool.and_eq_true, List.all_cons, List.all_nil, Bool.and_true,
      Bool.not_eq_true', Bool.or_eq_false_iff, beq_eq_false_iff_ne] at hr ⊢
    simp at hr ⊢
    omega
  | _ => simp [isV] at hd

theorem gets_putRegs (s : State) (i : Iss) {d : Opd} (hd : isV d = true) (n : Nat) (f : Nat → Nat → Nat) (gb : Nat → Bool) {L : Nat} (hL : L < 32)
    (hx : inMask i.ex L = true) (hg : inMask i.gg L = true → gb L = true) {j : Nat} (hj : j < n) :
    Gets ((putRegs s i d n f gb).group i.b i.g) i.ex .b32 (opPlus j d) L (f L j) (gb L) := by
  induction n with
  | zero => omega
  | succ n ih =>
    rw [putRegs_succ]
    by_cases h : j = n
    · subst h; exact gets_putD _ i 5 .b32 _ (fun L => f L j) gb hL hx hg
    · exact (ih (by omega)).kept hL (puts_putD _ i 5 .b32 (opPlus n d) (fun L => f L n) gb).wrote.regs (apart_opPlus hd h)

theorem and_not_zero (m : Mask) : m &&& ~~~(0 : Mask) = m := by
  rw [show ~~~(0 : Mask) = BitVec.allOnes 32 from by decide, BitVec.and_allOnes]

/-- Where no lane is non-finite under the test the part of such a word writes every register, and every lane goes on. -/
theorem regsBody_finite {d : Opd} {n : Nat} {tnf : Bool} {srcs : List (Opd × Nat)} {f : State → Iss → Nat → List Rounded} {s : State} {i : Iss}
    (hn : tnf = true → ∀ L, L < 32 → inMask i.ex L = true → (f s i L).all (fun r => !r.2) = true) : regsBody d n tnf srcs f s i =
    .next (advance (putRegs s i d n (fun L j => ((f s i L).getD j (0, false)).1) fun L => inMask i.gg L || srcs.any fun o => guessOf s i o.1 o.2 L) i i.iss) := by
  have h0 : nonFiniteLanes i false tnf (fun L => (f s i L).any fun r => r.2) = 0 := nonFiniteLanes_none i false tnf _ fun ht L hL hx => by
    have := hn ht L hL hx
    simp only [List.all_eq_true, Bool.not_eq_true'] at this
    rw [List.any_eq_false]
    exact fun r hr => by simp [this r hr]
  unfold regsBody
  dsimp only
  rw [h0]
  unfold nonFiniteEnd putRegs
  simp only [and_not_zero, if_true]

theorem registersAs_of {c : Insn → Instr} {op : Nat} {w : Insn} {n : Nat} {tnf : State → Iss → Bool} {srcs : List (Opd × Nat)}
    {f : State → Iss → Nat → List Rounded} {body : State → Iss → Res} (h : ∀ s, exec (c w) s = .next (runWord op w s noBump body))
    (hb : ∀ s i, ∃ f', body s i = regsBody (opD w) n (tnf s i) srcs f' s i ∧ f' s i = f s i)
    (hd : (∀ k ∈ fieldChecks op w, k.2 = true) → isV (opD w) = true) : RegistersAs c op w n tnf srcs f := fun s i hi hn => by
  obtain ⟨f', hb, hf⟩ := hb s i
  have hb : body s i = _ := hb.trans (regsBody_finite (by rw [hf]; exact hn))
  rw [hf] at hb
  have hp := puts_putRegs s i (opD w) n (fun L j => ((f s i L).getD j (0, false)).1) fun L => inMask i.gg L || srcs.any fun o => guessOf s i o.1 o.2 L
  have hc := hp.completed hi hb
  have hq := hc.quiet hp
  exact ⟨_, h s, hq.other, hq.traps, hc.fallsThrough, hq.regs, fun L hL hx j hj =>
    (gets_putRegs s i (hd hi.legal.1) n _ _ hL hx (fun hL => by simp [hL]) hj).alike hc.regs⟩

/-! ## Conversions -/

theorem isV_of_groupOk {n : Nat} {o : Opd} (h : groupOk n o = true) : isV o = true := by cases o <;> simp_all [groupOk, isV]

theorem isV_of_cvtOps {enc : Bool} {w : Insn} (h : ∀ k ∈ cvtOps enc w, k.2 = true) : isV (opD w) = true := by
  cases enc
  · exact isV_of_groupOk (h (.dest, groupOk (countOf w) (opD w)) (by simp [cvtOps]))
  · exact h (.dest, isV (opD w)) (by simp [cvtOps])

theorem isV_cvt {w : Insn} (h : ∀ k ∈ fieldChecks 0x60 w, k.2 = true) : isV (opD w) = true :=
  isV_of_cvtOps (enc := w.mod.toNat == 0) fun k hk => h k (List.mem_cons_of_mem _ (List.mem_cons_of_mem _ (List.mem_append_right _ hk)))

theorem isV_scale {w : Insn} (h : ∀ k ∈ fieldChecks 0x64 w, k.2 = true) : isV (opD w) = true := by
  have hc : ∀ k ∈ class6 0x64 w, k.2 = true := fun k hk => h k (List.mem_cons_of_mem _ (List.mem_cons_of_mem _ hk))
  simp only [class6] at hc
  split_ifs at hc
  · exact isV_of_cvtOps (enc := false) fun k hk => hc k (List.mem_append_right _ (List.mem_append_right _ hk))
  · split at hc
    · exact hc (.dest, isV (opD w)) (by simp)
    · exact isV_of_cvtOps fun k hk => hc k (List.mem_append_right _ (List.mem_cons_of_mem _ hk))

theorem opPlus_zero (o : Opd) : opPlus 0 o = o := by cases o <;> rfl

theorem shiftRight_eq (a n : Nat) : a >>> n = a / 2 ^ n := Nat.shiftRight_eq_div_pow a n

theorem exec_pack_c {w : Insn} (hc : w.form = .c) (s : State) :
    exec (.pack w) s = .next (alu3 0x62 w s 5 .b32 .b32 .b32 .b32 (packFn (w.ty.toNat == 1) w.sub.toNat)) := congrArg Host.Outcome.next (if_pos hc)

theorem exec_pack_a {w : Insn} (ha : w.form ≠ .c) (s : State) :
    exec (.pack w) s = .next (alu2 0x62 w s 5 .b32 .b32 .b32 fun a b => packFn (w.ty.toNat == 1) w.sub.toNat a b 0) := congrArg Host.Outcome.next (if_neg ha)

theorem packFn_eq (w : Insn) (nar : Nat → Nat → Nat) (hn : ∀ k x, narrow w.sub.toNat k x = nar k x) (a b c : Nat) : packFn (w.ty.toNat == 1) w.sub.toNat a b c =
    if w.ty.toNat = 1 then nar 16 a + 2 ^ 16 * nar 16 b else nar 8 a + 2 ^ 8 * nar 8 b + 2 ^ 16 * (c % 2 ^ 16) := by
  simp only [packFn, hn, beq_iff_eq]

/-- Settles O8: the words of a format slot write consecutive registers, each word's count and value by MOD; the rest compute. -/
theorem conversions : Obligations.Conversions := by
  refine ⟨fun w => ⟨fun h0 => ?_, fun h0 => ?_, fun h0 => ?_, fun h1 hc => ?_, fun h1 hc => ?_, fun h2 => ?_⟩, fun w => ⟨?_, ?_, fun hc => ?_, fun ha => ?_, ?_⟩⟩
  · exact registersAs_of (fun _ => rfl) (fun s i => ⟨_, if_pos h0, rfl⟩) isV_cvt
  · exact registersAs_of (fun _ => rfl) (fun s i => ⟨_, if_neg h0, by simp only [opPlus_zero]⟩) isV_cvt
  · exact registersAs_of (fun _ => rfl) (fun s i => ⟨fun _ _ _ => _, by simp only [h0]; rfl, rfl⟩) isV_scale
  · exact registersAs_of (fun _ => rfl) (fun s i => ⟨fun _ _ => _, by simp only [h1, hc, if_true]; rfl, by simp only [opPlus_zero]; rfl⟩) isV_scale
  · exact registersAs_of (fun _ => rfl) (fun s i => ⟨fun _ _ => _, by simp only [h1, hc, if_false, List.append_nil]; rfl, by simp only [opPlus_zero]; rfl⟩) isV_scale
  · exact registersAs_of (fun _ => rfl) (fun s i => ⟨fun _ _ => _, by simp only [h2]; rfl, by simp only [opPlus_zero]⟩) isV_scale
  · exact fun s i hi he => ⟨_, rfl, alu_computes hi _ 5 _ (opD w) (opsA 0x61 w) (onA (cvtiTypes w).1 w (cvtiOf w)) rfl he⟩
  · exact fun s i hi he => ⟨_, rfl, alu_computes hi _ 5 _ (opD w) (opsA 0x65 w) (onA (fpxOf w) w (frnd (fmtOf (fpxOf w)) (fMode w))) rfl he⟩
  · exact (computesAs_of_alu3 (exec_pack_c hc)).congr fun s i L => packFn_eq w _ (fun _ _ => rfl) ..
  · exact (computesAs_of_alu2 (exec_pack_a ha)).congr fun s i L => packFn_eq w _ (fun _ _ => rfl) ..
  · refine (computesAs_of_alu2 (f := unpkFn (tyD 0x63 w)) fun _ => rfl).congr fun s i L => ?_
    simp only [unpkFn, onAB, shiftRight_eq]

/-! ## The pair word (R299–R302) -/

theorem opD_compactInsn (c : Compact) : opD (compactInsn c) = .v c.d.toNat := by
  unfold compactInsn; dsimp only; split_ifs <;> rfl

theorem sub_compactInsn (c : Compact) : (compactInsn c).sub = 0 := by
  unfold compactInsn; dsimp only; split_ifs <;> rfl

/-- A compact operation's result is no wider than a register (R301). -/
theorem compactTypes_narrow {c : Compact} (h : compactOk c = true) : wide (compactTypes c.cop.toNat (compactInsn c)).2 = false := by
  unfold compactOk at h
  simp only [Bool.and_eq_true] at h
  obtain ⟨⟨⟨h, -⟩, -⟩, -⟩ := h
  have key : ∀ o : Option Ty, [Ty.b32, .i32, .n32, .f32, .f16, .bf16, .f16x2, .bf16x2].contains (o.getD .b128) = true →
      wide (o.getD .b32) = false ∧ wide (o.getD .i32) = false := fun o ho => by
    cases o with
    | none => exact ⟨rfl, rfl⟩
    | some t => cases t <;> first | exact ⟨rfl, rfl⟩ | simp at ho
  unfold compactTypes
  split_ifs with h61
  · have hs : tyOf c.cop.toNat (compactInsn c) = tyInt (compactInsn c).ty.toNat := by rw [h61]; rfl
    rw [hs] at h
    unfold cvtiTypes
    rw [sub_compactInsn]
    exact (key _ h).2
  · exact (key _ h).1

theorem putGroup_v_kept (q : Group) (cyc lat : Nat) (gg : Mask) (t : Ty) (n : Nat) (m : Mask) (val : Nat → Nat) (gb : Nat → Bool) :
    (putGroup q cyc lat gg t (.v n) m val gb).preds = q.preds ∧ (putGroup q cyc lat gg t (.v n) m val gb).sregs = q.sregs := by
  have hr : ∀ (q : Group) L, ((q.resLane cyc lat (wide t) (.v n) L (val L) (gb L)).preds, (q.resLane cyc lat (wide t) (.v n) L (val L) (gb L)).sregs) =
      (q.preds, q.sregs) := fun q L => by
    unfold Group.resLane Group.resV Group.stamp Group.putV; dsimp only; split_ifs <;> rfl
  have h1 := foldl_same (fun q : Group => (q.preds, q.sregs)) (fun q L => q.resLane cyc lat (wide t) (.v n) L (val L) (gb L)) hr (lanesOf m) q
  have h2 := orGuard_same ((lanesOf m).foldl (fun q L => q.resLane cyc lat (wide t) (.v n) L (val L) (gb L)) q) gg (fun q : Group => (q.preds, q.sregs))
    (fun _ _ _ => rfl) (fun q p L => by unfold Group.guardP; split_ifs <;> rfl) (.v n) (two (wide t))
  exact Prod.mk.inj (h2.trans h1)

/-- One operation of a pair word with no non-finite lane: it writes its register in the lanes that its guard lets execute. -/
structure HalfWrote (s t : State) (i : Iss) (d : Nat) (val : Nat → Nat) : Prop where
  upd  : Upd s t i.b i.g
  un   : Untouched (s.group i.b i.g) (t.group i.b i.g)
  kept : (t.group i.b i.g).preds = (s.group i.b i.g).preds ∧ (t.group i.b i.g).sregs = (s.group i.b i.g).sregs
  v    : ∀ n L, L < 32 → (t.group i.b i.g).vReg n L = if n = d ∧ inMask i.ex L = true then w32 (val L) else (s.group i.b i.g).vReg n L

theorem halfWrote_compactPut {c : Compact} (hc : compactOk c = true) (r s : State) (i : Iss) :
    HalfWrote s (compactPut c.cop.toNat (compactInsn c) r 0 i s) i c.d.toNat fun L => (compactAt c.cop.toNat (compactInsn c) r i L).1 := by
  have hw := compactTypes_narrow hc
  unfold compactPut
  rw [and_not_zero, and_not_zero, opD_compactInsn]
  refine ⟨(puts_putD ..).upd, ?_, ?_, fun n L hL => ?_⟩
  · exact (puts_putD ..).wrote.un
  · rw [group_putD]; exact putGroup_v_kept ..
  · rw [group_putD, putGroup_vReg _ _ _ _ _ _ _ _ _ _ _ hL]
    simp only [covers, hw, Bool.false_and, Bool.or_false, beq_iff_eq]
    by_cases h1 : n = c.d.toNat <;> by_cases h2 : inMask i.ex L = true <;> simp [h1, h2]

/-- Settles O9: both halves write a register of their own, from the state before either. -/
theorem pairWords : Obligations.PairWords := by
  intro p s i w1 w2 os h1 h2 h3 h4 h5 h6 h7 h8 i1 i2 at1 at2 hn1 hn2
  have hset : issueSet (s.group i.b i.g) = some (i.pc, i.iss) := by
    unfold issOf at h1
    dsimp only at h1
    cases hs : issueSet (s.group s.focus.1 s.focus.2) with
    | none => simp [hs] at h1
    | some e =>
      rw [hs] at h1
      simp only [Option.some.injEq] at h1
      subst h1
      exact hs
  have hs : Standing s i := ⟨hset, h3⟩
  have hck : ∀ c ∈ pairChecks p, c.2 = true := List.all_eq_true.1 h4
  have hok := hck (.pairField, compactOk p.first && compactOk p.second) (by simp [pairChecks])
  have hdd := hck (.pairDest, p.first.d.toNat % 4 != p.second.d.toNat % 4) (by simp [pairChecks])
  simp only [Bool.and_eq_true, bne_iff_ne, ne_eq] at hok hdd
  have hne : p.first.d.toNat ≠ p.second.d.toNat := fun e => hdd (by rw [e])
  have b0 : nonFiniteLanes i1 false (compactTnf p.first.cop.toNat w1) (fun L => (at1 L).2) |||
      nonFiniteLanes i2 false (compactTnf p.second.cop.toNat w2) (fun L => (at2 L).2) = 0 := by
    rw [nonFiniteLanes_none i1 _ _ _ fun ht L hL hx => hn1 L hL hx ht, nonFiniteLanes_none i2 _ _ _ fun ht L hL hx => hn2 L hL hx ht]; rfl
  set s1 := compactPut p.first.cop.toNat w1 s 0 i1 s with hs1
  set s2 := compactPut p.second.cop.toNat w2 s 0 i2 s1 with hs2
  have k1 : HalfWrote s s1 i1 p.first.d.toNat fun L => (at1 L).1 := halfWrote_compactPut hok.1 s s i1
  have k2 : HalfWrote s1 s2 i2 p.second.d.toNat fun L => (at2 L).1 := halfWrote_compactPut hok.2 s s1 i2
  refine ⟨conclude s i (pairOp p) p.stall.toNat (p.y == 1) (.next (advance s2 i i.iss)), ?_, ?_⟩
  · have hfin : nonFiniteEnd s2 i 0 = .next (advance s2 i i.iss) := by simp only [nonFiniteEnd, and_not_zero, if_true]
    rw [← hfin]
    show execPairWord p s = _
    unfold execPairWord
    dsimp only
    rw [h1]
    simp only [h2, h3, h4, h5, h6, h7, h8, Bool.or_self, Bool.false_eq_true, if_false, Bool.not_true, w1, w2, os, i1, i2, at1, at2] at b0 ⊢
    rw [b0]
  · have hc := completed_conclude hs (k1.upd.trans k2.upd) (k1.un.trans k2.un) (m := i.iss) (pairOp p) p.stall.toNat (p.y == 1)
    generalize conclude s i (pairOp p) p.stall.toNat (p.y == 1) (.next (advance s2 i i.iss)) = u at hc
    obtain ⟨-, -, hp, -, hsr⟩ := hc.kept
    refine ⟨hc.fallsThrough, hc.upd.sameElse, hc.traps, hp.trans (k2.kept.1.trans k1.kept.1), hsr.trans (k2.kept.2.trans k1.kept.2), fun n L hL => ?_⟩
    rw [hc.regs.v]
    have e2 := k2.v n L hL
    have e1 := k1.v n L hL
    change (s2.group i.b i.g).vReg n L = _ at e2
    rw [e2]
    by_cases hn : n = p.second.d.toNat
    · have : n ≠ p.first.d.toNat := fun e => hne (e.symm.trans hn)
      simp only [this, false_and, if_false] at e1 ⊢
      exact congrArg (ite _ _) e1
    · simp only [hn, false_and, if_false]
      exact e1

end Sys2Proof.Machine
end

section
/-! PROOF. Memory, guards, page tables, reset, and the steps that a schedule names (R16–R19, R74, R151–R155, R232, R284–R288). -/

set_option Elab.async false

namespace Sys2Proof.Machine

/-! ## Memory (R232) -/

theorem leBytes_zipIdx (a n x : Nat) : ((leBytes n x).zipIdx.map fun e => (a + e.2, e.1)) = (List.range n).map fun k => (a + k, (leBytes n x).getD k 0) := by
  apply List.ext_getElem
  · simp [leBytes_length]
  · intro k h1 h2
    simp only [List.length_map, List.length_zipIdx, leBytes_length] at h1
    simp [leBytes_length, h1]

/-- What n consecutive writes leave in each byte. -/
theorem memByte_putBytes_range (s : State) (a n : Nat) (f : Nat → Byte) (b : Nat) :
    memByte (putBytes s ((List.range n).map fun k => (a + k, f k))) b = if a ≤ b ∧ b < a + n then f (b - a) else memByte s b := by
  split_ifs with h
  · have hn : (((List.range n).map fun k => (a + k, f k)).map Prod.fst).Nodup := by
      rw [List.map_map]
      exact List.Nodup.map (fun x y hxy => by simpa using hxy) List.nodup_range
    have hm : (b, f (b - a)) ∈ (List.range n).map fun k => (a + k, f k) :=
      List.mem_map.2 ⟨b - a, List.mem_range.2 (by omega), by rw [show a + (b - a) = b by omega]⟩
    exact memByte_putBytes_once s _ hn _ hm
  · refine memByte_putBytes_other s _ b fun e he hb => h ?_
    obtain ⟨k, hk, rfl⟩ := List.mem_map.1 he
    have := List.mem_range.1 hk
    dsimp only at hb
    omega

theorem memByte_putNum (s : State) (a n x b : Nat) :
    memByte (putNum s a n x) b = if a ≤ b ∧ b < a + n then (leBytes n x).getD (b - a) 0 else memByte s b := by
  unfold putNum; rw [leBytes_zipIdx]; exact memByte_putBytes_range ..

theorem memBytes_putNum (s : State) (a n x : Nat) : memBytes (putNum s a n x) a n = leBytes n x := by
  apply List.ext_getElem
  · simp [memBytes, leBytes_length]
  · intro k h1 h2
    simp only [memBytes, List.length_map, List.length_range] at h1
    simp only [memBytes, List.getElem_map, List.getElem_range, memByte_putNum]
    rw [if_pos (by omega), Nat.add_sub_cancel_left, List.getD_eq_getElem _ _ h2]

/-- Settles O41: each byte is written once, little-endian. -/
theorem memoryReadAfterWrite : Obligations.MemoryReadAfterWrite := fun s a n x => by
  refine ⟨?_, fun b hb => ?_⟩
  · unfold memRead
    rw [memBytes_putNum, ofLeBytes_leBytes]
  · rw [memByte_putNum, if_neg (by omega)]

/-! ## Guards (R288) -/

theorem maskOf_eq (m : Mask) (f : Nat → Bool) (h : ∀ L, L < 32 → f L = inMask m L) : maskOf f = m :=
  BitVec.eq_of_getLsbD_eq fun L hL => by
    show inMask (maskOf f) L = inMask m L
    rw [inMask_maskOf, h L hL]; simp [hL]

theorem readP_true (s : State) (b g L : Nat) : readP s b g 15 L = (true, false) := rfl

/-- Settles O39: the guard's lanes are read off withGuard, and P15 is true and no guess. -/
theorem guards : Obligations.Guards := fun s i gf => by
  refine ⟨fun L hL => ⟨?_, ?_⟩, fun _ => ⟨fun hg => ?_, fun hg => ?_⟩⟩
  · simp only [withGuard, inMask_maskOf, guardOf, hL, decide_true, Bool.true_and]
  · simp only [withGuard, inMask_maskOf, guardOf, hL, decide_true, Bool.true_and]
  · subst hg
    exact ⟨maskOf_eq _ _ fun L _ => by simp [guardOf, readP_true], maskOf_eq _ _ fun L _ => by simp [guardOf, readP_true, inMask]⟩
  · subst hg
    exact ⟨maskOf_eq _ _ fun L _ => by simp [guardOf, readP_true, inMask], maskOf_eq _ _ fun L _ => by simp [guardOf, readP_true, inMask]⟩

/-! ## Page tables (R151–R155) -/

theorem bit_zero (e : Nat) : bit e 0 = decide (e % 2 = 1) := Nat.testBit_zero e

section walk
variable (s : State) (p va sh table : Nat) (rest : List Nat)

/-- The entry that a level of the walk reads. -/
def walkSlot (va table sh : Nat) : Nat := table + 8 * (va / 2 ^ sh % 512)

theorem walkFrom_absent (h : memRead s (walkSlot va table sh) 8 % 2 = 0) : walkFrom s p va (sh :: rest) table = .error .notPresent := by
  simp only [walkFrom, Nat.shiftRight_eq_div_pow]
  rw [if_pos]
  unfold walkSlot at h
  simp [bit_zero, h]

/-- A link leads to the next level's table. -/
theorem walkFrom_link (hr : rest ≠ []) (e : Nat) (he : memRead s (walkSlot va table sh) 8 = e) (h1 : e % 2 = 1) (h2 : pteReserved e = true)
    (h3 : bit e 7 = false) (h4 : bits e 11 8 = 0) (h5 : bits e 6 3 = 0) (h6 : bits e 51 39 = 0) :
    walkFrom s p va (sh :: rest) table = walkFrom s p va rest (e / 2 ^ 12 % 2 ^ 40 * 4096) := by
  unfold walkSlot at he
  rw [walkFrom]
  simp only [Nat.shiftRight_eq_div_pow, he]
  rw [if_neg (by simp [bit_zero, h1]), if_neg (by simp [h2]), if_neg (by simp [h3]),
    if_neg (by simp [hr, h4, h5, h6]), bits_eq_div_mod e 51 12]

/-- A leaf of a 4 KiB page that no neighbours share (R151). -/
theorem walkFrom_leaf (e : Nat) (he : memRead s (walkSlot va table 12) 8 = e) (h1 : e % 2 = 1) (h2 : pteReserved e = true) (h3 : bit e 7 = true)
    (h4 : bit e 9 = false) (h5 : bit e 8 = true ∨ e / 2 ^ 12 % 2 ^ 40 * 4096 < 2 ^ 39) : ∃ x, walkFrom s p va [12] table = .ok x ∧
      x.frame = e / 2 ^ 12 % 2 ^ 40 * 4096 ∧ x.size = 4096 ∧ x.tier = bit e 8 ∧ x.hold = bit e 6 ∧ x.ex = bit e 5 ∧ x.wr = bit e 4 ∧ x.rd = bit e 3 ∧
      x.leaf = walkSlot va table 12 := by
  have hb : bits e 51 12 * 4096 = e / 2 ^ 12 % 2 ^ 40 * 4096 := by rw [bits_eq_div_mod]
  have he' : memRead s (table + 8 * (va / 2 ^ 12 % 512)) 8 = e := he
  have ha : walkFrom s p va [12] table = leafEntry s p (walkSlot va table 12) va (2 ^ 12) := by
    rw [walkFrom]
    simp only [Nat.shiftRight_eq_div_pow, he']
    rw [if_neg (by simp [bit_zero, h1]), if_neg (by simp [h2]), if_pos h3, if_neg (by decide)]
    rfl
  have hf : e / 2 ^ 12 % 2 ^ 40 * 4096 % 2 ^ 12 = 0 := by omega
  have ht : ¬(!bit e 8 && decide (e / 2 ^ 12 % 2 ^ 40 * 4096 ≥ 2 ^ 39)) = true := by
    rcases h5 with h5 | h5
    · rw [h5]; exact Bool.false_ne_true
    · rw [decide_eq_false (by omega), Bool.and_false]; exact Bool.false_ne_true
  rw [ha]
  unfold leafEntry
  simp only [he, h4, hb, Bool.false_and, Bool.false_eq_true, if_false]
  have hv : va % 2 ^ 12 / 4096 = 0 := Nat.div_eq_of_lt (Nat.mod_lt _ (by decide))
  rw [if_neg (not_not.2 hf), if_neg ht]
  exact ⟨_, rfl, by dsimp only; rw [hv, Nat.zero_mul, Nat.add_zero], rfl, rfl, rfl, rfl, rfl, rfl, rfl⟩

end walk

theorem evalChan_logEnable (s : State) (p c q : Nat) : ((evalChan s p c).part q).logEnable = (s.part q).logEnable := by
  unfold evalChan; dsimp only; split
  · rfl
  · split_ifs
    · unfold modChan; rw [part_modPart]; split_ifs with h <;> simp [h]
    · rfl

theorem syncEval_logEnable (s : State) (a n q : Nat) : ((syncEval s a n).part q).logEnable = (s.part q).logEnable := by
  unfold syncEval
  generalize waitersOn s false a n = ws
  induction ws generalizing s with
  | nil => rfl
  | cons w ws ih => exact (ih _).trans (evalChan_logEnable ..)

theorem putBytes_parts (s : State) (bs : List (Nat × Byte)) : (putBytes s bs).parts = s.parts := by
  induction bs generalizing s with
  | nil => rfl
  | cons b bs ih => rw [putBytes_cons, ih]; rfl

theorem devNum_logEnable (s : State) (a n x q : Nat) : ((devNum s a n x).part q).logEnable = (s.part q).logEnable := by
  unfold devNum
  rw [syncEval_logEnable]
  unfold State.part putNum
  rw [putBytes_parts]
  unfold snoopOwn; split_ifs <;> rfl

theorem putBytes_hostMem (s : State) (bs : List (Nat × Byte)) : (putBytes s bs).hostMem = s.hostMem := by
  induction bs generalizing s with
  | nil => rfl
  | cons b bs ih => rw [putBytes_cons, ih]; rfl

theorem devNum_hostMem (s : State) (a n x : Nat) : (devNum s a n x).hostMem = s.hostMem :=
  (syncEval_memories ..).2.trans ((putBytes_hostMem ..).trans (snoopOwn_memories ..).2)

theorem memByte_congr {s t : State} (h : t.mem = s.mem) (a : Nat) : memByte t a = memByte s a := by unfold memByte; rw [h]
theorem memRead_congr {s t : State} (h : t.mem = s.mem) (a n : Nat) : memRead t a n = memRead s a n := by
  unfold memRead memBytes; simp only [memByte_congr h]

theorem memRead_lt (s : State) (a n : Nat) : memRead s a n < 256 ^ n := by
  have := ofLeBytes_lt (memBytes s a n)
  simpa [memRead, memBytes] using this

theorem logDirty_off {s : State} {p : Nat} (h : (s.part p).logEnable = false) (va size : Nat) : logDirty s p va size = s := by
  unfold logDirty; dsimp only; rw [if_pos (by simp [h])]

/-- With the dirty log off, a translation's marks are one write of its leaf entry, or none (R153, R154). -/
theorem notePte_off {s : State} {p : Nat} (hl : (s.part p).logEnable = false) (va : Nat) (acc : Acc) (e : TlbEntry) : notePte s p va acc e =
    if (e.acc && !(writes acc && !e.dirty)) = true then s
    else devNum s e.leaf 8 ((memRead s e.leaf 8 ||| 2 ^ 10) ||| (if writes acc && !e.dirty then 2 ^ 11 else 0)) := by
  unfold notePte
  dsimp only
  split_ifs <;> first | rfl | exact logDirty_off ((devNum_logEnable ..).trans hl) ..

theorem notePte_marks (s : State) (p va : Nat) (acc : Acc) (e : TlbEntry) (hl : (s.part p).logEnable = false) :
    (∀ a, a < e.leaf ∨ e.leaf + 8 ≤ a → memByte (notePte s p va acc e) a = memByte s a) ∧
    (e.acc = false → memRead (notePte s p va acc e) e.leaf 8 = memRead s e.leaf 8 ||| 2 ^ 10 ||| if writes acc && !e.dirty then 2 ^ 11 else 0) ∧
    (notePte s p va acc e).hostMem = s.hostMem := by
  rw [notePte_off hl]
  by_cases h : (e.acc && !(writes acc && !e.dirty)) = true
  · rw [if_pos h]
    exact ⟨fun _ _ => rfl, fun ha => by simp [ha] at h, rfl⟩
  · rw [if_neg h]
    refine ⟨fun a ha => ?_, fun _ => ?_, devNum_hostMem ..⟩
    · rw [memByte_congr (devNum_mem ..), memByte_putNum, if_neg (by omega)]
    · have hlt := memRead_lt s e.leaf 8
      rw [memRead_congr (devNum_mem ..), (memoryReadAfterWrite ..).1, Nat.mod_eq_of_lt]
      exact Nat.or_lt_two_pow (n := 64) (Nat.or_lt_two_pow hlt (by decide)) (by split_ifs <;> decide)

/-- Settles O40: the walk level by level, and the one write of the leaf entry that a translation's marks are. -/
theorem pageTables : Obligations.PageTables := by
  refine ⟨fun s p va => ?_, fun s core part va acc x hl => ?_⟩
  · intro slot entry next link e1 e2 e3 e4
    have step : ∀ {table sh : Nat} {rest : List Nat} (_ : rest ≠ []), link (entry table sh) →
        walkFrom s p va (sh :: rest) table = walkFrom s p va rest (next (entry table sh)) := fun hr ⟨h1, h2, h3, h4, h5, h6⟩ =>
      walkFrom_link s p va _ _ _ hr _ rfl h1 h2 h3 h4 h5 h6
    have w1 : link e1 → walk s p va = walkFrom s p va [30, 21, 12] (next e1) := step (by simp)
    have w2 : link e1 → link e2 → walk s p va = walkFrom s p va [21, 12] (next e2) := fun h1 h2 => (w1 h1).trans (step (by simp) h2)
    have w3 : link e1 → link e2 → link e3 → walk s p va = walkFrom s p va [12] (next e3) := fun h1 h2 h3 => (w2 h1 h2).trans (step (by simp) h3)
    refine ⟨fun h => walkFrom_absent s p va 39 _ _ h, fun h1 h => (w1 h1).trans (walkFrom_absent s p va 30 _ _ h),
      fun h1 h2 h => (w2 h1 h2).trans (walkFrom_absent s p va 21 _ _ h), fun h1 h2 h3 h => (w3 h1 h2 h3).trans (walkFrom_absent s p va 12 _ _ h),
      fun h1 h2 h3 hp hr h7 h9 h8 => ?_⟩
    rw [w3 h1 h2 h3]
    exact walkFrom_leaf s p va (next e3) e4 rfl hp hr h7 h9 h8
  · obtain ⟨h1, h2, h3⟩ := notePte_marks s part va acc x.entry hl
    exact ⟨h1, h2, by simp [noteXl], h3⟩

/-! ## Reset (R17, R22, R437) -/

/-- Settles O42: reset lists nothing. -/
theorem resetState : Obligations.ResetState := ⟨rfl, rfl, fun _ _ => ⟨rfl, rfl, fun _ => rfl⟩, rfl, rfl, rfl, fun _ => rfl, fun _ => rfl⟩

/-- Settles O44: reset lists no byte and no load. -/
theorem resetInvariants : Obligations.ResetInvariants := ⟨rfl, rfl, fun _ _ _ hl => absurd hl (List.not_mem_nil)⟩

/-! ## Words of the manual (R289, R290) -/

/-- Settles O32: each word is read by the decoder. -/
theorem decodeSamples : Obligations.DecodeSamples := ⟨by decide, by decide, by decide, by decide, by decide⟩

/-! ## Fetch and issue (R127, R136, R284–R286) -/

@[simp] theorem group_cacheCode (s : State) (c : Nat) (tier : Bool) (pa k j : Nat) : (cacheCode s c tier pa).group k j = s.group k j := by
  unfold cacheCode; dsimp only; split_ifs <;> rfl

/-- The next step is the schedule's, with fresh open choices. -/
theorem step_agenda {s : State} {x : Sched} {rest : List Sched} (h : s.agenda = x :: rest) :
    step s = runSched exec x { s with free := s.free + 1, agenda := rest } := by
  unfold step takeStep; dsimp only; rw [h]

theorem step_issue {s : State} {b g : Nat} {rest : List Sched} (h : s.agenda = .issue b g :: rest) :
    step s = issueStep exec { s with free := s.free + 1, agenda := rest } b g := step_agenda h

/-- With nothing pending a group that may issue takes its next word, if the core chooses it. -/
theorem issueStep_open {s : State} {b g : Nat} (h1 : boundaryOpen (wakeCore s (s.block b).core) b g = true)
    (h2 : nextPend ((wakeCore s (s.block b).core).group b g) (fun _ => true) = none) (h3 : refutedLanes ((wakeCore s (s.block b).core).group b g) = [])
    (h4 : notReady (wakeCore s (s.block b).core) b g = false) : issueStep exec s b g = match fetchFor (wakeCore s (s.block b).core) b g with
      | .done u => .next u
      | .insn i u => if selected exec (wakeCore s (s.block b).core) (b, g) then issueWord exec i u b g else .next (wakeCore s (s.block b).core) := by
  unfold issueStep
  simp only [h1, h2, h3, h4, Bool.not_true, Bool.false_eq_true, if_false, List.isEmpty_nil] <;> rfl

/-- The fetch of a word that decodes, within its block. -/
theorem fetchFor_insn {t : State} {b g pc : Nat} {m : Mask} {x : Xl} {i : Instr} (hs : issueSet (t.group b g) = some (pc, m)) (hpc : pc < 2 ^ 48)
    (hx : xlate t (t.block b).core (t.context (t.block b).ctx).part pc .fetch false = .ok x) (h3 : codeAt t (t.block b).core x.tier x.pa % 4 ≠ 3)
    (hl : pc % 32 + lengthOf (codeAt t (t.block b).core x.tier x.pa) ≤ 32)
    (hd : decode (wordsBytes ((List.range (lengthOf (codeAt t (t.block b).core x.tier x.pa) / 4)).map fun j => codeAt t (t.block b).core x.tier (x.pa + 4 * j))) = .ok i) :
    fetchFor t b g = .insn i (cacheCode (noteXl t (t.block b).core (t.context (t.block b).ctx).part pc .fetch x) (t.block b).core x.tier x.pa) := by
  have h0 : codeAt t (t.block b).core x.tier x.pa ≠ 3 := fun h => h3 (by rw [h])
  unfold fetchFor
  rw [hs]
  unfold fetchAt
  simp only [hx]
  rw [if_neg (by omega), if_neg h0]
  simp only [h3, if_false, false_or]
  rw [if_neg (by omega), List.map_map]
  simp only [Function.comp_def, hd]

/-- The fetch of a word that does not decode, or would cross its block, ends in ILLEGAL. -/
theorem fetchFor_illegal {t : State} {b g pc : Nat} {m : Mask} {x : Xl} (hs : issueSet (t.group b g) = some (pc, m)) (hpc : pc < 2 ^ 48)
    (hx : xlate t (t.block b).core (t.context (t.block b).ctx).part pc .fetch false = .ok x) (h0 : codeAt t (t.block b).core x.tier x.pa ≠ 3)
    (hb : codeAt t (t.block b).core x.tier x.pa % 4 = 3 ∨ 32 < pc % 32 + lengthOf (codeAt t (t.block b).core x.tier x.pa) ∨
      ∃ r, decode (wordsBytes ((List.range (lengthOf (codeAt t (t.block b).core x.tier x.pa) / 4)).map fun j => codeAt t (t.block b).core x.tier (x.pa + 4 * j))) = .error r) :
    fetchFor t b g = .done (takeTrap (cacheCode (noteXl t (t.block b).core (t.context (t.block b).ctx).part pc .fetch x) (t.block b).core x.tier x.pa) b g pc
      { cause := 0x01, fm := m, cm := m }) := by
  unfold fetchFor
  rw [hs]
  unfold fetchAt
  simp only [hx]
  rw [if_neg (by omega), if_neg h0]
  by_cases h3 : codeAt t (t.block b).core x.tier x.pa % 4 = 3
  · rw [if_pos (.inl h3)]
  · simp only [h3, if_false, false_or] at hb ⊢
    by_cases hl : 32 < pc % 32 + lengthOf (codeAt t (t.block b).core x.tier x.pa)
    · rw [if_pos hl]
    · obtain ⟨r, hr⟩ := hb.resolve_left hl
      rw [if_neg (by omega), List.map_map]
      simp only [Function.comp_def, hr]

/-! ## Scheduled steps (R16–R19, R74, R128) -/

theorem blocksOn_none_wake {s : State} {c : Nat} (h : blocksOn s c = []) : wakeCore s c = s := by unfold wakeCore; rw [h]; rfl

theorem quadGroups_none {s : State} {c : Nat} (h : blocksOn s c = []) (q : Nat) : quadGroups s c q = [] := by unfold quadGroups; rw [h]; rfl

theorem quadTurns_none (ex : Instr → State → Out) {s : State} {c : Nat} (h : blocksOn s c = []) (q : Nat) : quadTurns ex s c q = [] := by
  unfold quadTurns
  dsimp only
  rw [quadGroups_none h]
  have h2 : ∀ q', secondChoice s q' [] = none := fun _ => rfl
  have h1 : ∀ o : Option Grp, (o.bind fun e => ([] : List Turn).find? fun x => x.grp == e) = none := fun o => by cases o <;> rfl
  simp only [List.filterMap_nil, List.filter_nil, h2, h1, Option.toList_none, ite_self]
  split_ifs
  · split <;> rfl
  · rfl

/-- Nothing is issued on a core without blocks. -/
theorem cycleIssue_none (ex : Instr → State → Out) {s : State} {c : Nat} (h : blocksOn s c = []) : cycleIssue ex s c = s := by
  have hn : nextTurn ex s c = none := by
    unfold nextTurn
    rw [show quadTurns ex s c = fun _ => [] from funext (quadTurns_none ex h)]
    rfl
  have ht : issueTurn ex c s = s := by unfold issueTurn; rw [hn]
  unfold cycleIssue
  dsimp only
  rw [blocksOn_none_wake h]
  rw [show quadGroups s c = fun _ => [] from funext (quadGroups_none h)]
  show (List.range 8).foldl (fun t _ => issueTurn ex c t) s = s
  generalize List.range 8 = l
  induction l with
  | nil => rfl
  | cons x l ih => rw [List.foldl_cons, ht]; exact ih

/-- The counters of cycles change nothing else of a group. -/
structure Counted (s t : State) : Prop where
  mem   : t.mem = s.mem
  cores : t.cores = s.cores
  regs  : ∀ b g, RegsKept (s.group b g) (t.group b g)

theorem Counted.refl (s : State) : Counted s s := ⟨rfl, rfl, fun _ _ => .refl _⟩
theorem Counted.trans {s t u : State} (h : Counted s t) (k : Counted t u) : Counted s u :=
  ⟨k.mem.trans h.mem, k.cores.trans h.cores, fun b g => (h.regs b g).trans (k.regs b g)⟩
theorem Counted.foldl {α : Type} (f : State → α → State) (hf : ∀ s x, Counted s (f s x)) (xs : List α) (s : State) : Counted s (xs.foldl f s) := by
  induction xs generalizing s with
  | nil => exact .refl s
  | cons x xs ih => exact (hf s x).trans (ih _)

theorem counted_countCycle (s : State) (c : Nat) : Counted s (countCycle s c) := by
  unfold countCycle
  refine Counted.foldl _ (fun s b => ?_) _ s
  refine Counted.foldl _ (fun s g => ?_) _ s
  refine ⟨rfl, rfl, fun k j => ?_⟩
  rw [group_modGroup]
  split_ifs with h
  · obtain ⟨rfl, rfl⟩ := h; exact ⟨rfl, rfl, rfl, rfl, rfl⟩
  · exact .refl _

/-- A cycle that the core's clock has a pulse for. -/
theorem coreCycle_pulse (ex : Instr → State → Out) {s : State} {c : Nat} (hr : running s = true) (hp : (s.core c).pulse < s.pkg.pulses) :
    coreCycle ex s c = countCycle (modCore (engineStep (cycleIssue ex s c) c) c fun k => { k with cycles := k.cycles + 1, pulse := s.pkg.pulses }) c := by
  unfold coreCycle
  rw [hr, if_neg]
  simpa using hp

theorem coreCycle_noPulse (ex : Instr → State → Out) {s : State} {c : Nat} (hp : s.pkg.pulses ≤ (s.core c).pulse) : coreCycle ex s c = s := by
  unfold coreCycle
  rw [if_pos]
  simp [hp]

theorem hostByte_putHost_range (s : State) (a n : Nat) (f : Nat → Byte) (b : Nat) :
    hostByte (putHost s ((List.range n).map fun k => (a + k, f k))) b = if a ≤ b ∧ b < a + n then f (b - a) else hostByte s b := by
  have e : hostByte (putHost s ((List.range n).map fun k => (a + k, f k))) b =
      memByte (putBytes { s with mem := s.hostMem } ((List.range n).map fun k => (a + k, f k))) b := by
    unfold hostByte memByte putHost putBytes putByte
    dsimp only
    generalize (List.range n).map (fun k => (a + k, f k)) = bs
    have : ∀ (bs : List (Nat × Byte)) (t : State), (bs.foldl (fun t e => { t with mem := tset memDefault t.mem e.1 e.2 }) t).mem =
        bs.foldl (fun m e => tset memDefault m e.1 e.2) t.mem := fun bs => by
      induction bs with
      | nil => exact fun _ => rfl
      | cons x bs ih => exact fun t => ih _
    rw [this]
  rw [e, memByte_putBytes_range]
  rfl

theorem zipIdx_bytes (pa : Nat) (bs : List Byte) : (bs.zipIdx.map fun e => (pa + e.2, e.1)) = (List.range bs.length).map fun k => (pa + k, bs.getD k 0) := by
  apply List.ext_getElem
  · simp
  · intro k h1 h2
    simp only [List.length_map, List.length_zipIdx] at h1
    simp [h1]

/-- A write of the host to lines that the buffer does not own (R74). -/
theorem hostStoreOwn_eq {s : State} {pa : Nat} {bs : List Byte} (h : ∀ k, k < bs.length → lineOwned s ((pa + k) / 64) = false) (hl : pa + bs.length ≤ 2 ^ 52) :
    hostStoreOwn s pa bs = putHost s ((List.range bs.length).map fun k => (pa + k, bs.getD k 0)) := by
  unfold hostStoreOwn
  dsimp only
  rw [zipIdx_bytes, List.filter_eq_self.2, if_neg]
  · simp only [List.any_map, List.any_eq_true, List.mem_range, not_exists, not_and, Function.comp_apply]
    exact fun k hk => by rw [h k hk]; exact Bool.false_ne_true
  · intro e he
    obtain ⟨k, hk, rfl⟩ := List.mem_map.1 he
    have := List.mem_range.1 hk
    exact decide_eq_true (show pa + k < 2 ^ 52 by omega)

theorem runSched_cycle (ex : Instr → State → Out) (c : Nat) (s : State) : runSched ex (.cycle c) s = .next (coreCycle ex s c) := rfl
theorem runSched_hostStore (ex : Instr → State → Out) (pa : Nat) (bs : List Byte) (s : State) :
    runSched ex (.hostStore pa bs) s = .next (hostStoreOwn s pa bs) := rfl

/-- The end of a cycle: the core's count and pulse, and the counters of its groups (R431). -/
theorem cycleEnd (v : State) (c n : Nat) (u : State) (hu : u = countCycle (modCore v c fun k => { k with cycles := k.cycles + 1, pulse := n }) c) :
    (u.core c).cycles = (v.core c).cycles + 1 ∧ (u.core c).pulse = n ∧ u.mem = v.mem ∧ ∀ b g, RegsKept (v.group b g) (u.group b g) := by
  have hk := counted_countCycle (modCore v c fun k => { k with cycles := k.cycles + 1, pulse := n }) c
  rw [← hu] at hk
  have hc : u.core c = { v.core c with cycles := (v.core c).cycles + 1, pulse := n } := by
    rw [State.core, hk.cores]; exact core_modCore_self v c fun k => { k with cycles := k.cycles + 1, pulse := n }
  exact ⟨by rw [hc], by rw [hc], hk.mem, hk.regs⟩

theorem step_cycle {s : State} {rest : List Sched} {c : Nat} (h : s.agenda = .cycle c :: rest) (hr : running s = true)
    (hp : (s.core c).pulse < s.pkg.pulses) : ∃ u, step s = .next u ∧
      u = countCycle (modCore (engineStep (cycleIssue exec { s with free := s.free + 1, agenda := rest } c) c) c fun k =>
        { k with cycles := k.cycles + 1, pulse := s.pkg.pulses }) c :=
  ⟨_, by rw [step_agenda h, runSched_cycle, coreCycle_pulse exec (s := { s with free := s.free + 1, agenda := rest }) hr hp], rfl⟩

theorem step_hostStore {s : State} {rest : List Sched} {pa : Nat} {bs : List Byte} (h : s.agenda = .hostStore pa bs :: rest)
    (ho : ∀ k, k < bs.length → lineOwned s ((pa + k) / 64) = false) (hl : pa + bs.length ≤ 2 ^ 52) : ∃ u, step s = .next u ∧
    (∀ k, k < bs.length → hostByte u (pa + k) = bs.getD k 0) ∧ (∀ a, a < pa ∨ pa + bs.length ≤ a → hostByte u a = hostByte s a) ∧
    u.mem = s.mem ∧ u.blocks = s.blocks := by
  refine ⟨putHost { s with free := s.free + 1, agenda := rest } ((List.range bs.length).map fun k => (pa + k, bs.getD k 0)), ?_, fun k hk => ?_, fun a ha => ?_, rfl, rfl⟩
  · rw [step_agenda h, runSched_hostStore, hostStoreOwn_eq (s := { s with free := s.free + 1, agenda := rest }) ho hl]
  · rw [hostByte_putHost_range _ _ _ (fun k => bs.getD k 0), if_pos (by omega), Nat.add_sub_cancel_left]
  · rw [hostByte_putHost_range _ _ _ (fun k => bs.getD k 0), if_neg (by omega)]; rfl

theorem holds_iff (ct t : Nat) : holds ct t = true ↔ (ct : Int) < (t : Int) - 4 := by
  simp only [holds, decide_eq_true_eq]; omega

theorem passed_iff (ct t : Nat) : passed ct t = true ↔ (t : Int) + 4 ≤ ct := by
  simp only [passed, decide_eq_true_eq]; omega

/-- Settles O38: the schedule's head is the step; the two tests of chip time are their inequalities. -/
theorem scheduledSteps : Obligations.ScheduledSteps := by
  refine ⟨fun s rest => ⟨fun i h => step_agenda h, fun h hr => ⟨_, step_agenda h, ?_⟩, fun h hr => (step_agenda h).trans ?_,
      fun c h hr hp => ⟨?_, cycleIssue_none exec⟩, fun c h hp => ?_, fun pa bs h ho hl => step_hostStore h ho hl⟩,
    fun ct t => ⟨holds_iff ct t, passed_iff ct t, fun h => ⟨?_, ?_⟩⟩⟩
  · rw [tickCt, if_pos hr]
  · exact congrArg Host.Outcome.next (if_neg (by rw [show ({ s with free := s.free + 1, agenda := rest } : State).pkg = s.pkg from rfl, hr]; exact Bool.false_ne_true))
  · obtain ⟨u, e, hu⟩ := step_cycle h hr hp
    exact ⟨u, e, cycleEnd _ c _ u hu⟩
  · rw [step_agenda h, runSched_cycle, coreCycle_noPulse exec (s := { s with free := s.free + 1, agenda := rest }) hp]
  · exact Bool.eq_false_iff.2 fun hh => by have := (holds_iff ct t).1 hh; omega
  · exact Bool.eq_false_iff.2 fun hh => by have := (passed_iff ct t).1 hh; omega

end Sys2Proof.Machine
end

section
/-! PROOF. What every function of the model keeps: the canonical form of memory, the numbers of loads, and, but for placement, the core and
context of each block. First the shared operations: memory, operands, traps, queues and barriers. -/

set_option Elab.async false

namespace Sys2Proof.Machine

/-- From s to t memory stays in canonical form, loads keep their numbers or take new ones below the next to be given, and, where k holds,
every block keeps its core and its context. -/
structure Tame (k : Bool) (s t : State) : Prop where
  form  : KeepsForm s t
  seq   : s.seq ≤ t.seq
  loads : ∀ b g, ∀ l ∈ (t.group b g).loads, (∃ b' g', ∃ l' ∈ (s.group b' g').loads, l'.id = l.id) ∨ l.id < t.seq
  homes : k = true → ∀ b, (t.block b).core = (s.block b).core ∧ (t.block b).ctx = (s.block b).ctx

theorem Tame.refl (k : Bool) (s : State) : Tame k s s := ⟨.refl s, le_refl _, fun b g l hl => .inl ⟨b, g, l, hl, rfl⟩, fun _ _ => ⟨rfl, rfl⟩⟩

theorem Tame.trans {k : Bool} {s t u : State} (h : Tame k s t) (h' : Tame k t u) : Tame k s u where
  form := h.form.trans h'.form
  seq := h.seq.trans h'.seq
  loads := fun b g l hl => by
    rcases h'.loads b g l hl with ⟨b', g', l', hl', e⟩ | hlt
    · rcases h.loads b' g' l' hl' with ⟨b₂, g₂, l₂, hl₂, e₂⟩ | hlt
      · exact .inl ⟨b₂, g₂, l₂, hl₂, e₂.trans e⟩
      · exact .inr (by have := h'.seq; omega)
    · exact .inr hlt
  homes := fun hk b => ⟨((h'.homes hk b).1).trans (h.homes hk b).1, ((h'.homes hk b).2).trans (h.homes hk b).2⟩

theorem Tame.fresh {k : Bool} {s t : State} (h : Tame k s t) (hf : FreshLoads s) : FreshLoads t := fun b g l hl => by
  rcases h.loads b g l hl with ⟨b', g', l', hl', e⟩ | hlt
  · rw [← e]; exact Nat.lt_of_lt_of_le (hf b' g' l' hl') h.seq
  · exact hlt

theorem Tame.weaken {k : Bool} {s t : State} (h : Tame true s t) : Tame k s t := ⟨h.form, h.seq, h.loads, fun _ => h.homes rfl⟩

/-! ## Changes of one piece of the state -/

section changes
variable {k : Bool} {s t : State}

/-- What touches neither memory, nor blocks, nor the numbers already given. -/
theorem Tame.same (h : Tame k s t) {u : State} (hm : u.mem = t.mem := by rfl) (hh : u.hostMem = t.hostMem := by rfl) (hb : u.blocks = t.blocks := by rfl)
    (hs : t.seq ≤ u.seq := by exact Nat.le_refl _) : Tame k s u :=
  h.trans ⟨.of_same hm hh, hs, fun b g l hl => .inl ⟨b, g, l, by simpa [State.group, State.block, hb] using hl, rfl⟩,
    fun _ b => by simp only [State.block, hb, and_self]⟩

/-- A change of blocks that lists no load anew. -/
theorem Tame.blocks (h : Tame k s t) {u : State} (hm : u.mem = t.mem := by rfl) (hh : u.hostMem = t.hostMem := by rfl)
    (hs : t.seq ≤ u.seq := by exact Nat.le_refl _)
    (hl : ∀ b g, ∀ l ∈ (u.group b g).loads, (∃ b' g', ∃ l' ∈ (t.group b' g').loads, l'.id = l.id) ∨ l.id < u.seq)
    (hk : k = true → ∀ b, (u.block b).core = (t.block b).core ∧ (u.block b).ctx = (t.block b).ctx) : Tame k s u :=
  h.trans ⟨.of_same hm hh, hs, hl, hk⟩

theorem Tame.mems (h : Tame k s t) {u : State} (hf : KeepsForm t u) (hb : u.blocks = t.blocks := by rfl) (hs : u.seq = t.seq := by rfl) : Tame k s u :=
  h.trans ⟨hf, hs.ge, fun b g l hl => .inl ⟨b, g, l, by simpa [State.group, State.block, hb] using hl, rfl⟩,
    fun _ b => by simp only [State.block, hb, and_self]⟩

/-- A change of one group that keeps its loads' numbers. -/
theorem Tame.groupFrom (h : Tame k s t) {b g : Nat} {f : Group → Group} (hf : ∀ l ∈ (f (t.group b g)).loads, ∃ l' ∈ (t.group b g).loads, l'.id = l.id) :
    Tame k s (modGroup t b g f) := by
  refine h.blocks (hl := fun b' g' l hl => .inl ?_) (hk := fun _ b' => by simp)
  rw [group_modGroup] at hl
  split_ifs at hl with hc
  · obtain ⟨l', hl', e⟩ := hf l hl
    exact ⟨b, g, l', hl', e⟩
  · exact ⟨b', g', l, hl, rfl⟩

@[simp] theorem tame_modGroup {b g : Nat} {f : Group → Group} (h : Tame k s t) (hf : (f (t.group b g)).loads = (t.group b g).loads) :
    Tame k s (modGroup t b g f) := h.groupFrom fun l hl => ⟨l, by rwa [hf] at hl, rfl⟩

@[simp] theorem tame_modLane {b g L : Nat} {f : Lane → Lane} (h : Tame k s t) : Tame k s (modLane t b g L f) := tame_modGroup h rfl

@[simp] theorem tame_modBlock {b : Nat} {f : Block → Block} (h : Tame k s t) (hg : (f (t.block b)).groups = (t.block b).groups)
    (hc : (f (t.block b)).core = (t.block b).core) (hx : (f (t.block b)).ctx = (t.block b).ctx) : Tame k s (modBlock t b f) := by
  refine h.blocks (hl := fun b' g' l hl => .inl ⟨b', g', l, ?_, rfl⟩) (hk := fun _ b' => ?_)
  · rw [group_modBlock] at hl
    split_ifs at hl with e
    · subst e; rw [hg] at hl; exact hl
    · exact hl
  · rw [block_modBlock]
    split_ifs with e
    · subst e; exact ⟨hc, hx⟩
    · exact ⟨rfl, rfl⟩

@[simp] theorem tame_modCore {c : Nat} {f : Core → Core} (h : Tame k s t) : Tame k s (modCore t c f) := h.same
@[simp] theorem tame_modCtx {c : Nat} {f : Ctx → Ctx} (h : Tame k s t) : Tame k s (modCtx t c f) := h.same
@[simp] theorem tame_modPart {p : Nat} {f : Part_ → Part_} (h : Tame k s t) : Tame k s (modPart t p f) := h.same
@[simp] theorem tame_modHctx {c : Nat} {f : Hctx → Hctx} (h : Tame k s t) : Tame k s (modHctx t c f) := h.same

theorem tame_foldl {α : Type} {f : State → α → State} (h : Tame k s t) (hf : ∀ u x, Tame k s u → Tame k s (f u x)) (xs : List α) :
    Tame k s (xs.foldl f t) := by
  induction xs generalizing t with
  | nil => exact h
  | cons x xs ih => exact ih (hf _ x h)

theorem tame_ite {c : Prop} [Decidable c] {a b : State} (ha : c → Tame k s a) (hb : ¬c → Tame k s b) : Tame k s (if c then a else b) := by
  split_ifs with hc
  exacts [ha hc, hb hc]

/-- A change of every group of every block that keeps their loads' numbers. -/
theorem Tame.groups (h : Tame k s t) {f : Block → Block} {u : State} (hb : u.blocks = tmapv f t.blocks) (hm : u.mem = t.mem := by rfl)
    (hh : u.hostMem = t.hostMem := by rfl) (hs : t.seq ≤ u.seq := by exact Nat.le_refl _)
    (hl : ∀ q g, ∀ l ∈ (tget {} (f q).groups g).loads, ∃ l' ∈ (tget {} q.groups g).loads, l'.id = l.id)
    (hc : ∀ q, (f q).core = q.core ∧ (f q).ctx = q.ctx) : Tame k s u := by
  have hbk : ∀ b, u.block b = if b ∈ tkeys t.blocks then f (t.block b) else {} := fun b => by simp only [State.block, hb, tget_tmapv_mem]
  refine h.blocks hm hh hs (hl := fun b g l hx => .inl ?_) (hk := fun _ b => ?_)
  · rw [State.group, hbk] at hx
    split_ifs at hx with hm
    · obtain ⟨l', h1, h2⟩ := hl _ g l hx
      exact ⟨b, g, l', h1, h2⟩
    · exact absurd hx (by simp)
  · rw [hbk]
    split_ifs with hm
    · exact hc _
    · rw [State.block, tget_absent _ _ _ hm]; exact ⟨rfl, rfl⟩

end changes

/-! ## Memory, interrupts, the black box -/

/-- A group in which an error event of the tick has got its number. -/
def numbered (ticket n : Nat) (q : Group) : Group :=
  let num := fun (e : Nat × Option Nat) => if e.2 = some ticket then (n, none) else e
  { q with
    pend := q.pend.map fun p => if p.ticket = some ticket then { p with ticket := none, eseq := n } else p
    slots := tmapv (fun t : TruthSlot => { t with err := tmapv num t.err }) q.slots }

section
variable {k : Bool} {s t : State} (h : Tame k s t)
include h

@[simp] theorem tame_putByte (a : Nat) (x : Byte) : Tame k s (putByte t a x) := h.mems (keepsForm_putByte ..)
@[simp] theorem tame_putBytes (bs : List (Nat × Byte)) : Tame k s (putBytes t bs) := tame_foldl h (fun _ _ hu => tame_putByte hu ..) _
@[simp] theorem tame_putNum (a n x : Nat) : Tame k s (putNum t a n x) := tame_putBytes h _
@[simp] theorem tame_putHost (bs : List (Nat × Byte)) : Tame k s (putHost t bs) := h.mems (keepsForm_putHost ..)
@[simp] theorem tame_raiseInt (p n : Nat) : Tame k s (raiseInt t p n) := by
  unfold raiseInt; dsimp only; split_ifs <;> exact h.same
@[simp] theorem tame_sendMsi (v : Nat) : Tame k s (sendMsi t v) := by unfold sendMsi; split_ifs <;> exact h.same
@[simp] theorem tame_blackBox (e : BbEntry) (r : Option Nat) : Tame k s (blackBox t e r) := h.same
@[simp] theorem tame_recordError (r c a y : Nat) : Tame k s (recordError t r c a y) := h.same
@[simp] theorem tame_poisonSector (n : Nat) : Tame k s (poisonSector t n) := h.same
@[simp] theorem tame_raiseAlert (n : Nat) : Tame k s (raiseAlert t n) := by
  unfold raiseAlert; dsimp only; split_ifs
  exacts [h, tame_sendMsi (Tame.same (tame_blackBox h { kind := 8, code := n } none)) 1]

@[simp] theorem tame_fillNumber (a n : Nat) : Tame k s (fillNumber t a n) := by
  refine h.groups (f := fun q => { q with groups := tmapv (numbered a n) q.groups }) rfl (hl := fun q g l hl => ?_) (hc := fun _ => ⟨rfl, rfl⟩)
  rw [tget_tmapv_mem] at hl
  split_ifs at hl
  · exact ⟨l, hl, rfl⟩
  · exact absurd hl (by simp)

@[simp] theorem tame_collectOne (x : Notice) : Tame k s (collectOne t x) := by
  unfold collectOne; split
  · exact h.same
  · exact tame_sendMsi (tame_fillNumber (t := { t with svc := _ }) h.same ..) _
@[simp] theorem tame_collect : Tame k s (collect t) := tame_foldl h.same (fun _ x hu => tame_collectOne hu x) _

@[simp] theorem tame_modChan (p c : Nat) (f : Chan → Chan) : Tame k s (modChan t p c f) := h.same
@[simp] theorem tame_evalChan (p c : Nat) : Tame k s (evalChan t p c) := by
  unfold evalChan; dsimp only; split
  · exact h
  · split_ifs
    exacts [tame_modChan h .., h]
@[simp] theorem tame_syncEval (a n : Nat) : Tame k s (syncEval t a n) := tame_foldl h (fun _ e hu => tame_evalChan hu e.1 e.2) _
@[simp] theorem tame_snoopOwn (a n : Nat) : Tame k s (snoopOwn t a n) := by unfold snoopOwn; split_ifs <;> exact h.same
@[simp] theorem tame_devNum (a n x : Nat) : Tame k s (devNum t a n x) := tame_syncEval (tame_putNum (tame_snoopOwn h ..) ..) ..
@[simp] theorem tame_devBytes (a : Nat) (bs : List Byte) : Tame k s (devBytes t a bs) := tame_syncEval (tame_putBytes (tame_snoopOwn h ..) ..) ..
@[simp] theorem tame_logDirty (p va n : Nat) : Tame k s (logDirty t p va n) := by
  unfold logDirty; dsimp only; split_ifs <;> simp [h]
@[simp] theorem tame_notePte (p va : Nat) (acc : Acc) (e : TlbEntry) : Tame k s (notePte t p va acc e) := by
  unfold notePte; dsimp only; split_ifs <;> simp [h]
@[simp] theorem tame_noteXl (c p va : Nat) (acc : Acc) (x : Xl) : Tame k s (noteXl t c p va acc x) := tame_modCore (tame_notePte h ..)
@[simp] theorem tame_drainRing (p : Nat) : Tame k s (drainRing t p) := by
  refine tame_foldl h (fun u e hu => ?_) _
  dsimp only; split_ifs
  exacts [hu, tame_modPart (tame_devNum (tame_devNum hu ..) ..)]
@[simp] theorem tame_faultEntry (p va f l c g : Nat) : Tame k s (faultEntry t p va f l c g).2 := tame_raiseInt (tame_drainRing (tame_modPart h) _) ..
@[simp] theorem tame_dropTlb (p : Nat) (va : Option Nat) : Tame k s (dropTlb t p va) := h.same
@[simp] theorem tame_startInval (p : Nat) (va : Option Nat) : Tame k s (startInval t p va) := tame_dropTlb (tame_modPart h) ..

end

/-! ## Groups keep their loads -/

theorem loads_foldl {α : Type} (f : Group → α → Group) (hf : ∀ q x, (f q x).loads = q.loads) (xs : List α) (q : Group) : (xs.foldl f q).loads = q.loads :=
  foldl_same Group.loads f hf xs q

@[simp] theorem loads_mapLanes (q : Group) (m : Mask) (f : Nat → Lane → Lane) : (q.mapLanes m f).loads = q.loads := rfl
@[simp] theorem loads_perfAdd (q : Group) (e n : Nat) : (q.perfAdd e n).loads = q.loads := rfl
@[simp] theorem loads_sweepSlots (q : Group) : q.sweepSlots.loads = q.loads := rfl
@[simp] theorem loads_unbind (q : Group) (r L : Nat) : (q.unbind r L).loads = q.loads := rfl
theorem Untouched.loads {q r : Group} (h : Untouched q r) : r.loads = q.loads := by rw [h.rest]
@[simp] theorem loads_resV (q : Group) (c l r L : Nat) (x : W32) (gb : Bool) : (q.resV c l r L x gb).loads = q.loads := (untouched_resV ..).loads
@[simp] theorem loads_resP (q : Group) (c l p L : Nat) (x gb : Bool) : (q.resP c l p L x gb).loads = q.loads := (untouched_resP ..).loads
@[simp] theorem loads_resS (q : Group) (c l n : Nat) (x : W64) : (q.resS c l n x).loads = q.loads := (untouched_resS ..).loads
@[simp] theorem loads_resLane (q : Group) (c l : Nat) (wd : Bool) (o : Opd) (L x : Nat) (gb : Bool) : (q.resLane c l wd o L x gb).loads = q.loads :=
  (untouched_resLane ..).loads
@[simp] theorem loads_orGuard (q : Group) (gg : Mask) (o : Opd) (n : Nat) : (q.orGuard gg o n).loads = q.loads := (untouched_orGuard ..).loads
@[simp] theorem loads_pendTrap (q : Group) (p : PendTrap) : (q.pendTrap p).loads = q.loads := by unfold Group.pendTrap; dsimp only; split_ifs <;> rfl
@[simp] theorem loads_answered (q : Group) (L n : Nat) : (q.answered L n).loads = q.loads := rfl

/-! ## Operands and the shared operations of words -/

section
variable {k : Bool} {s t : State} (h : Tame k s t)
include h

@[simp] theorem tame_landed (v : State) (b g : Nat) (rs : List (Nat × Nat)) : Tame k s (landed v t b g rs) := by
  unfold landed; dsimp only; split_ifs
  · exact h
  · exact tame_modGroup h (loads_foldl _ (fun q r => by split_ifs <;> rfl) _ _)
@[simp] theorem tame_guessDests (i : Iss) (ds : List (Opd × Nat)) : Tame k s (guessDests t i ds) :=
  tame_modGroup h (loads_foldl _ (fun _ _ => loads_orGuard ..) _ _)
@[simp] theorem tame_putD (i : Iss) (lat : Nat) (ty : Ty) (o : Opd) (m : Mask) (val : Nat → Nat) (gb : Nat → Bool) :
    Tame k s (putD t i lat ty o m val gb) := tame_modGroup h (untouched_putGroup ..).loads
@[simp] theorem tame_advance (i : Iss) (m : Mask) : Tame k s (advance t i m) := tame_modGroup h rfl
@[simp] theorem tame_transferTo (i : Iss) (m : Mask) (f : Nat → Nat) : Tame k s (transferTo t i m f) := tame_modGroup h rfl

@[simp] theorem tame_stopContext (b g c d pc : Nat) : Tame k s (stopContext t b g c d pc) := by
  refine Tame.groups (t := modCtx t (t.block b).ctx _) (tame_modCtx h)
    (f := fun q => if q.ctx = (t.block b).ctx then { q with groups := tmapv (fun r => { r with stopped := true }) q.groups } else q)
    rfl (hl := fun q g l hl => ?_) (hc := fun q => by split_ifs <;> exact ⟨rfl, rfl⟩)
  split_ifs at hl
  · rw [tget_tmapv_mem] at hl
    split_ifs at hl
    · exact ⟨l, hl, rfl⟩
    · exact absurd hl (by simp)
  · exact ⟨l, hl, rfl⟩

@[simp] theorem tame_readTable (b n : Nat) : Tame k s (readTable t b n).1 := by
  unfold readTable; dsimp only; split <;> simp [h]
@[simp] theorem tame_noteHandler (b c : Nat) : Tame k s (noteHandler t b c) := by
  rw [noteHandler_eq]; split_ifs
  exacts [h, tame_readTable h .., tame_readTable (tame_readTable h ..) ..]
@[simp] theorem tame_trapRecord (b g pc : Nat) (r : TrapReq) : Tame k s (trapRecord t b g pc r) := by
  unfold trapRecord; exact tame_modGroup h (by simp only [loads_mapLanes])
@[simp] theorem tame_dropWaits (b g : Nat) : Tame k s (dropWaits t b g) := h.same
@[simp] theorem tame_renormalise (b g : Nat) : Tame k s (renormalise t b g) := by
  unfold renormalise; dsimp only; split_ifs
  exacts [h, tame_modGroup h rfl]
@[simp] theorem tame_enterHandler (b g a : Nat) (m : Mask) : Tame k s (enterHandler t b g a m) :=
  tame_renormalise (tame_modGroup (tame_dropWaits h ..) rfl) ..
@[simp] theorem tame_takeTrap (b g pc : Nat) (r : TrapReq) : Tame k s (takeTrap t b g pc r) := by
  have hr := tame_trapRecord h b g pc r
  have hn := tame_noteHandler hr b r.cause
  unfold takeTrap; dsimp only; split_ifs
  · exact tame_stopContext hr ..
  all_goals split
  all_goals first | exact tame_stopContext hn .. | exact tame_enterHandler hn ..

@[simp] theorem tame_parkGroup (b g pc : Nat) (m : Mask) (acc : Acc) (ps : List (Nat × Mask)) (va : List (Nat × Nat)) :
    Tame k s (parkGroup t b g pc m acc ps va) := by
  unfold parkGroup; dsimp only; split_ifs
  · simp [h]
  · have aux : ∀ (ps : List (Nat × Mask)) (a : State × List FaultId) (f : State × List FaultId → Nat × Mask → State × List FaultId),
        (∀ a p, Tame k s a.1 → Tame k s (f a p).1) → Tame k s a.1 → Tame k s (ps.foldl f a).1 := fun ps => by
      induction ps with
      | nil => exact fun a f _ ha => ha
      | cons p ps ih => exact fun a f hf ha => ih _ f hf (hf a p ha)
    refine tame_modGroup (aux ps (t, []) _ (fun a p ha => tame_faultEntry ha ..) h) ?_
    split_ifs <;> rfl

@[simp] theorem tame_noteRte (b g : Nat) : Tame k s (noteRte t b g) := by unfold noteRte; dsimp only; split <;> simp [h]
@[simp] theorem tame_finishRte (b g : Nat) : Tame k s (finishRte t b g) := by
  have hn := tame_noteRte h b g
  unfold finishRte; dsimp only; split_ifs
  · exact h
  · exact tame_takeTrap h ..
  · exact tame_modGroup h rfl
  · exact tame_takeTrap h ..
  · split
    · split_ifs
      exacts [tame_takeTrap h .., tame_modGroup hn rfl]
    · exact tame_parkGroup (tame_modGroup h (by rfl)) ..
    · exact tame_takeTrap h ..

@[simp] theorem tame_rejoinRelease (b g : Nat) : Tame k s (rejoinRelease t b g) := by
  refine tame_foldl h (fun u e hu => ?_) _
  dsimp only; split_ifs
  exacts [hu, tame_modGroup hu rfl]
@[simp] theorem tame_crossRelease (b g : Nat) : Tame k s (crossRelease t b g) := by
  refine tame_foldl h (fun u e hu => ?_) _
  dsimp only; split_ifs
  exacts [hu, tame_modGroup hu rfl]
@[simp] theorem tame_parkLane (i : Iss) (L : Nat) (p : Park) : Tame k s (parkLane t i L p) := tame_modLane (h.same (hs := Nat.le_succ _))
@[simp] theorem tame_parkSet (i : Iss) (m : Mask) (p : Park) : Tame k s (parkSet t i m p) := tame_modGroup (h.same (hs := Nat.le_succ _)) rfl
@[simp] theorem tame_noteIssue (i : Iss) (op n : Nat) (y : Bool) : Tame k s (noteIssue t i op n y) := tame_modGroup (tame_modCore h) rfl
@[simp] theorem tame_releaseLanes (b g : Nat) : Tame k s (releaseLanes t b g) := tame_crossRelease (tame_rejoinRelease h ..) ..
@[simp] theorem tame_afterIssue (b g : Nat) : Tame k s (afterIssue t b g) :=
  tame_renormalise (tame_modGroup (tame_releaseLanes (tame_finishRte (tame_releaseLanes h ..) ..) ..) rfl) ..

end

/-- The answer of a word's own part keeps all that is kept. -/
def TameRes (k : Bool) (s : State) : Res → Prop
  | .next t => Tame k s t
  | .park t _ _ _ _ => Tame k s t
  | .partial_ t _ => Tame k s t
  | _ => True

section
variable {k : Bool} {s t : State}

@[simp] theorem tameRes_next : TameRes k s (.next t) ↔ Tame k s t := .rfl
@[simp] theorem tameRes_park (m : Mask) (a : Acc) (ps : List (Nat × Mask)) (va : List (Nat × Nat)) : TameRes k s (.park t m a ps va) ↔ Tame k s t := .rfl
@[simp] theorem tameRes_partial (r : TrapReq) : TameRes k s (.partial_ t r) ↔ Tame k s t := .rfl
@[simp] theorem tameRes_hold : TameRes k s .hold := trivial
@[simp] theorem tameRes_trap (r : TrapReq) : TameRes k s (.trap r) := trivial
@[simp] theorem tameRes_stop23 (i : Iss) (c d : Nat) (m : Mask) : TameRes k s (stop23 i c d m) := trivial
@[simp] theorem tameRes_stopShort (i : Iss) : TameRes k s (stopShort i) := trivial

@[simp] theorem tame_conclude (h : Tame k s t) (i : Iss) (op n : Nat) (y : Bool) {r : Res} (hr : TameRes k s r) : Tame k s (conclude t i op n y r) := by
  unfold conclude; dsimp only
  cases r with
  | next u => exact tame_afterIssue (tame_noteIssue hr ..) ..
  | hold => exact h
  | trap r =>
    dsimp only; split_ifs
    exacts [tame_afterIssue (tame_noteIssue (tame_advance h ..) ..) .., tame_takeTrap (tame_noteIssue h ..) ..]
  | park u m a ps va => exact tame_parkGroup (tame_noteIssue hr ..) ..
  | partial_ u r => exact tame_takeTrap (tame_noteIssue hr ..) ..

/-- A word keeps all that is kept where its own part does. -/
@[simp] theorem tame_runWord (h : Tame k s t) (op : Nat) (w : Insn) (bump : State → Iss → Mask) {body : State → Iss → Res} (hb : ∀ i, TameRes k s (body t i)) :
    Tame k s (runWord op w t bump body) := by
  unfold runWord
  split
  · exact h
  · refine tame_ite (fun _ => h) fun _ => ?_
    dsimp only
    split
    · exact tame_conclude h _ _ _ _ trivial
    · refine tame_ite (fun _ => h) fun _ => ?_
      split
      · exact tame_conclude h _ _ _ _ trivial
      · exact tame_conclude h _ _ _ _ (hb _)

@[simp] theorem tameRes_aluBody (h : Tame k s t) (lat : Nat) (ty : Ty) (d : Opd) (srcs : List (Opd × Nat)) (f : State → Iss → Nat → Nat) (i : Iss) :
    TameRes k s (aluBody lat ty d srcs f t i) := by unfold aluBody; dsimp only; split_ifs <;> simp [h]

end

/-! ## Order, queues and barriers -/

section
variable {k : Bool} {s t : State} (h : Tame k s t)
include h

@[simp] theorem tame_clearRel (i : Iss) : Tame k s (clearRel t i) := tame_modGroup h rfl
@[simp] theorem tame_acquireFrom (b g L : Nat) : Tame k s (acquireFrom t b g L) := tame_modLane h
@[simp] theorem tame_bumpPct (b g L n : Nat) : Tame k s (bumpPct t b g L n) := by unfold bumpPct; split_ifs <;> simp [h]

@[simp] theorem tame_setQueue (b n : Nat) (q : List W64) : Tame k s (setQueue t b n q) := tame_modBlock h rfl rfl rfl
theorem tame_takeItem {b x : Nat} {u : State} (hu : takeItem t b = some (x, u)) : Tame k s u := by
  unfold takeItem at hu
  split at hu
  · simp only [Option.some.injEq, Prod.mk.injEq] at hu
    obtain ⟨-, rfl⟩ := hu
    exact tame_modCore h
  · cases hu
@[simp] theorem tame_deliverPop (b g L : Nat) (w : Insn) (x : W64) (wd : Bool) : Tame k s (deliverPop t b g L w x wd) :=
  tame_modGroup h (by split <;> simp)
@[simp] theorem tame_unparkNext (b g : Nat) (m : Mask) (n : Nat) : Tame k s (unparkNext t b g m n) := tame_modGroup h rfl
@[simp] theorem tame_deliverItem (b g L : Nat) (w : Insn) (x : Nat) : Tame k s (deliverItem t b g L w x) := by simp [deliverItem, h]
@[simp] theorem tame_servePop (e : Nat × Nat × Nat) (x : W64) : Tame k s (servePop t e x) := tame_unparkNext (tame_landed (tame_deliverPop h ..) ..) ..
@[simp] theorem tame_serveLoop (b n m : Nat) : Tame k s (serveLoop b n m t) := by
  induction m generalizing t with
  | zero => exact h
  | succ m ih =>
    unfold serveLoop; split
    · exact ih (tame_servePop (tame_setQueue h ..) ..)
    · exact h
@[simp] theorem tame_serveQueue (b n : Nat) : Tame k s (serveQueue t b n) := tame_serveLoop h ..
@[simp] theorem tame_serveItemLane (e : Nat × Nat × Nat) : Tame k s (serveItemLane t e) := by
  unfold serveItemLane; dsimp only; split
  · next hu => have := tame_takeItem h hu; split_ifs <;> simp [this]
  · split_ifs <;> simp [h]
@[simp] theorem tame_serveItemsLoop (c x m : Nat) : Tame k s (serveItemsLoop c x m t) := by
  induction m generalizing t with
  | zero => exact h
  | succ m ih =>
    unfold serveItemsLoop; split
    · exact ih (tame_serveItemLane h _)
    · exact h
@[simp] theorem tame_serveItems (c x : Nat) : Tame k s (serveItems t c x) := tame_serveItemsLoop h ..
@[simp] theorem tame_refill (c x : Nat) : Tame k s (refill t c x) := tame_serveItems (tame_modCore (tame_modCtx h)) ..
@[simp] theorem tame_pushAll (b n : Nat) (xs : List W64) : Tame k s (pushAll t b n xs) := tame_serveQueue (tame_setQueue h ..) ..
@[simp] theorem tame_noteQueue (b n : Nat) (y : Bool) (q : Nat) : Tame k s (noteQueue t b n y q) := tame_modCore h

@[simp] theorem tame_modObj (b n : Nat) (f : BarrierObj → BarrierObj) : Tame k s (modObj t b n f) := tame_modBlock h rfl rfl rfl
@[simp] theorem tame_owe (o : BarrierObj) (p : W32) (b g : Nat) (m : Mask) : Tame k s (owe t o p b g m) := by
  unfold owe; split_ifs
  · split
    exacts [tame_modGroup h (loads_pendTrap ..), h]
  · exact h
@[simp] theorem tame_releaseWaiters (b n : Nat) : Tame k s (releaseWaiters t b n) := by
  refine tame_foldl h (fun u e hu => ?_) _
  refine tame_foldl hu (fun v x hv => ?_) _
  exact tame_owe (tame_foldl (tame_unparkNext hv ..) (fun _ L hw => tame_acquireFrom hw ..) _) ..
@[simp] theorem tame_phaseUp (b n : Nat) (f : BarrierObj → BarrierObj) : Tame k s (phaseUp t b n f) :=
  tame_releaseWaiters (tame_modBlock (tame_modObj h ..) rfl rfl rfl) ..
@[simp] theorem tame_objTest (b n : Nat) : Tame k s (objTest t b n) := by unfold objTest; dsimp only; split_ifs <;> simp [h]
@[simp] theorem tame_objTestAll (b : Nat) : Tame k s (objTestAll t b) := by
  refine tame_foldl h (fun u e hu => ?_) _
  exact tame_foldl hu (fun _ x hv => tame_objTest hv ..) _
@[simp] theorem tame_exitLanes (b g : Nat) (m : Mask) : Tame k s (exitLanes t b g m) :=
  tame_objTestAll (tame_modGroup (tame_modGroup (tame_modCtx h) rfl) rfl) _

end

end Sys2Proof.Machine
end

section
/-! PROOF. What the words of integers, control, floating point and conversion keep. -/

set_option Elab.async false

namespace Sys2Proof.Machine

/-- A step goes on, keeps memory in canonical form and keeps loads numbered apart. -/
def Proceeds (s : State) (o : Out) : Prop := ∃ u, o = .next u ∧ KeepsForm s u ∧ (FreshLoads s → FreshLoads u)

theorem proceeds_next {k : Bool} {s u : State} (h : Tame k s u) : Proceeds s (.next u) := ⟨u, rfl, h.form, h.fresh⟩

theorem seq_foldl {α : Type} (f : State → α → State) (hf : ∀ u x, (f u x).seq = u.seq) (xs : List α) (s : State) : (xs.foldl f s).seq = s.seq := by
  induction xs generalizing s with
  | nil => rfl
  | cons x xs ih => exact (ih _).trans (hf s x)

/-! ## Integers -/

section
variable {k : Bool} {s t : State} (h : Tame k s t)
include h

theorem tame_alu1 (op : Nat) (w : Insn) (lat : Nat) (rt : Ty) (f : Nat → Nat) : Tame k s (alu1 op w t lat rt f) :=
  tame_runWord h _ _ _ fun _ => tameRes_aluBody h ..
theorem tame_alu2 (op : Nat) (w : Insn) (lat : Nat) (ta tb rt : Ty) (f : Nat → Nat → Nat) : Tame k s (alu2 op w t lat ta tb rt f) :=
  tame_runWord h _ _ _ fun _ => tameRes_aluBody h ..
theorem tame_alu3 (op : Nat) (w : Insn) (lat : Nat) (ta tb tc rt : Ty) (f : Nat → Nat → Nat → Nat) : Tame k s (alu3 op w t lat ta tb tc rt f) :=
  tame_runWord h _ _ _ fun _ => tameRes_aluBody h ..
theorem tame_compareWord (op : Nat) (w : Insn) (f : Nat → Nat → Bool) : Tame k s (compareWord op w t f) :=
  tame_runWord h _ _ _ fun _ => tameRes_aluBody h ..

omit h in
theorem tameRes_ite {c : Prop} [Decidable c] {a b : Res} (ha : c → TameRes k s a) (hb : ¬c → TameRes k s b) : TameRes k s (if c then a else b) := by
  split_ifs with hc
  exacts [ha hc, hb hc]

theorem tame_carryWord (op : Nat) (w : Insn) (f : Nat → Nat → Nat → Int) (out : Nat → Int → Bool) : Tame k s (carryWord op w t f out) := by
  unfold carryWord
  refine tame_runWord h _ _ _ fun i => ?_
  refine tameRes_ite (fun _ => trivial) fun _ => tameRes_next.2 (tame_advance (tame_modGroup (tame_putD h ..) ?_) ..)
  exact (loads_orGuard ..).trans (loads_foldl _ (fun _ _ => loads_resP ..) _ _)

/-- What a pop of queue n does in one lane: it takes the oldest entry, or is told that no more will come; else nothing (R331). -/
def popOne (w : Insn) (n : Nat) (i : Iss) (s : State) (L : Nat) : State × Bool :=
  if n = 3 then
    match takeItem s i.b with
    | some (v, s) => (deliverPop s i.b i.g L w (w64 v) (wide (tyD 0x0D w)), true)
    | none => if exhausted s i.b then (deliverPop s i.b i.g L w (BitVec.allOnes 64) (wide (tyD 0x0D w)), true) else (s, false)
  else match queueOf s i.b n with
    | v :: vs => (deliverPop (setQueue s i.b n vs) i.b i.g L w v (wide (tyD 0x0D w)), true)
    | [] => (s, false)

theorem tame_popOne (w : Insn) (n : Nat) (i : Iss) (L : Nat) : Tame k s (popOne w n i t L).1 := by
  unfold popOne
  split
  · split
    · next hx => exact tame_deliverPop (tame_takeItem h hx) ..
    · split
      exacts [tame_deliverPop h .., h]
  · split
    exacts [tame_deliverPop (tame_setQueue h ..) .., h]

theorem tameRes_popWord (w : Insn) (n : Nat) (i : Iss) : TameRes k s (popWord w n t i) := by
  unfold popWord
  dsimp only
  refine tameRes_ite (fun _ => trivial) fun _ => ?_
  have hd := tame_guessDests h i [(opD w, two (wide (tyD 0x0D w)))]
  refine tameRes_ite (fun _ => ?_) fun _ => ?_
  · split
    · exact tame_advance hd ..
    · exact tameRes_ite (fun _ => tame_advance (tame_popOne hd ..) ..) fun _ => tame_parkSet (tame_popOne hd ..) ..
  · refine tame_foldl (tame_advance hd ..) (fun u L hu => ?_) _
    exact tame_ite (fun _ => tame_advance (tame_popOne hu ..) ..) fun _ => tame_parkLane (tame_popOne hu ..) ..

theorem tameRes_pushWord (w : Insn) (n : Nat) (i : Iss) : TameRes k s (pushWord w n t i) :=
  tameRes_ite (fun _ => trivial) fun _ => tameRes_ite (fun _ => trivial) fun _ => tame_advance (tame_pushAll (tame_clearRel h _) ..) ..

omit h in
theorem proceeds_execMov (w : Insn) : Proceeds s (execMov w s) := by
  unfold execMov
  split
  · exact proceeds_next (tame_runWord (.refl false s) _ _ _ fun _ => tameRes_popWord (.refl ..) ..)
  · exact proceeds_next (tame_runWord (.refl false s) _ _ _ fun _ => tameRes_pushWord (.refl ..) ..)
  · exact proceeds_next (tame_alu1 (.refl false s) ..)

/-! ## Control -/

theorem tame_jumpWord (op : Nat) (w : Insn) (target : State → Iss → Nat → Nat) (tgt : List (Opd × Nat)) {link : State → Iss → Mask → State}
    (hl : ∀ u i m, Tame k s u → Tame k s (link u i m)) : Tame k s (jumpWord op w t target tgt link) := by
  refine tame_runWord h _ _ _ fun i => tameRes_ite (fun _ => trivial) fun _ => ?_
  have ht := fun m m' => tame_transferTo (hl (advance t i m) i m' (tame_advance h ..)) i m' (target t i)
  dsimp only
  split
  exacts [ht _ _, ht _ _]

omit h in
theorem tameRes_guardEscape (i : Iss) {f : Unit → Res} (hf : TameRes k s (f ())) : TameRes k s (guardEscape t i f) :=
  tameRes_ite (fun _ => trivial) fun _ => hf

/-! ## Hypotheses -/

theorem tame_setNode (x id : Nat) (f : Node → Node) : Tame k s (setNode t x id f) := tame_modHctx h
theorem tame_enterResolve (x : Nat) (c : Bool) (id r : Nat) (l : Option (Nat × Nat × Nat)) : Tame k s (enterResolve t x c id r l) := by
  have hf := tame_foldl h (f := fun t d => setNode t x d fun n => { n with state := 2 }) (fun _ _ hu => tame_setNode hu ..)
    (if c then [id] else subtree t x id)
  have hq := seq_foldl (fun t d => setNode t x d fun n => { n with state := 2 }) (fun _ _ => rfl) (if c then [id] else subtree t x id) t
  exact hf.same (hs := show (List.foldl _ t _).seq ≤ t.seq + 1 from hq.trans_le (Nat.le_succ _))
theorem tame_boundDecide (x id : Nat) : Tame k s (boundDecide t x id) := tame_ite (fun _ => tame_enterResolve h ..) fun _ => h
theorem tame_truthFor (b g n L id : Nat) : Tame k s (truthFor t b g n L id) := by
  unfold truthFor
  split
  · exact h
  · exact tame_ite (fun _ => h) fun _ => tame_boundDecide (tame_setNode h ..) ..
omit h in
theorem loads_takeTruth (q : Group) (n L j : Nat) : (q.takeTruth n L j).loads = q.loads := rfl
theorem tame_membersTruth (n : Node) : Tame k s (membersTruth t n) := tame_foldl h (fun _ _ hu => tame_modGroup hu (by
  dsimp only
  split_ifs
  · rfl
  · exact loads_foldl _ (fun q x => by split_ifs <;> rfl) _ _)) _
theorem tame_membersFree (n : Node) : Tame k s (membersFree t n) := tame_foldl h (fun _ _ hu => tame_modGroup hu rfl) _
theorem tame_membersConfirm (n : Node) : Tame k s (membersConfirm t n) := tame_foldl h (fun _ _ hu => tame_modGroup hu (by
  dsimp only; split_ifs <;> rfl)) _

/-! ## Floating point and conversion -/

theorem tameRes_nonFiniteEnd (i : Iss) (m : Mask) : TameRes k s (nonFiniteEnd t i m) :=
  tameRes_ite (fun _ => tame_advance h ..) fun _ => tame_advance h ..
theorem tameRes_fpBody (lat : Nat) (ty : Ty) (d : Opd) (tnf : Bool) (srcs : List (Opd × Nat)) (f : State → Iss → Nat → Rounded) (i : Iss) :
    TameRes k s (fpBody lat ty d tnf srcs f t i) := tameRes_ite (fun _ => trivial) fun _ => tameRes_nonFiniteEnd (tame_putD h ..) ..
theorem tame_fp1 (op lat : Nat) (w : Insn) (f : Nat → Rounded) : Tame k s (fp1 op lat w t f) := tame_runWord h _ _ _ fun _ => tameRes_fpBody h ..
theorem tame_fp2 (op lat : Nat) (w : Insn) (f : Nat → Nat → Rounded) : Tame k s (fp2 op lat w t f) :=
  tame_runWord h _ _ _ fun _ => tameRes_fpBody h ..
theorem tame_fp3 (op lat : Nat) (w : Insn) (f : Nat → Nat → Nat → Rounded) : Tame k s (fp3 op lat w t f) :=
  tame_runWord h _ _ _ fun _ => tameRes_fpBody h ..
theorem tameRes_regsBody (d : Opd) (n : Nat) (tnf : Bool) (srcs : List (Opd × Nat)) (f : State → Iss → Nat → List Rounded) (i : Iss) :
    TameRes k s (regsBody d n tnf srcs f t i) := tameRes_nonFiniteEnd (tame_foldl h (fun _ _ hu => tame_putD hu ..) _) ..

/-! ## Words of several lanes, and the pair word -/

theorem tame_crossPut (i : Iss) (ty : Ty) (d : Opd) (f : Nat → Nat) (gb : Nat → Bool) : Tame k s (crossPut t i ty d f gb) := tame_putD h ..
theorem tame_crossWord (op : Nat) (w : Insn) (mask : Opd) {j : Joined} (hj : ∀ u i m, Tame k s u → Tame k s (j.act u i m)) :
    Tame k s (crossWord op w t mask j) := by
  unfold crossWord
  refine tame_runWord h _ _ _ fun i => ?_
  refine tameRes_ite (fun _ => trivial) fun _ => tameRes_ite (fun _ => trivial) fun _ => ?_
  have hp := fun (m : Mask) (f : Nat → Park) => tame_foldl h (f := fun t L => parkLane t i L (f L)) (fun _ _ hu => tame_parkLane hu ..) (lanesOf m)
  exact tameRes_ite (fun _ => hp _ _) fun _ => tame_modGroup (tame_advance (hj _ _ _ (hp _ _)) ..) rfl
theorem tame_quadWord (op : Nat) (w : Insn) (src : State → Iss → Nat → Nat) (gB : State → Iss → Nat → Bool) :
    Tame k s (quadWord op w t src gB) := by
  unfold quadWord
  refine tame_runWord h _ _ _ fun i => ?_
  exact tameRes_ite (fun _ => trivial) fun _ => tameRes_ite (fun _ => trivial) fun _ => tame_advance (tame_crossPut h ..) ..

end

/-! ## The words of these units -/

theorem proceeds_execCvt (w : Insn) (s : State) : Proceeds s (execCvt w s) :=
  proceeds_next (tame_runWord (.refl false s) _ _ _ fun _ =>
    tameRes_ite (fun _ => tameRes_regsBody (.refl ..) ..) fun _ => tameRes_regsBody (.refl ..) ..)
theorem proceeds_execScale (w : Insn) (s : State) : Proceeds s (execScale w s) := by
  refine proceeds_next (tame_runWord (.refl false s) _ _ _ fun i => ?_)
  dsimp only
  split <;> exact tameRes_regsBody (.refl ..) ..
theorem proceeds_execShfl (w : Insn) (s : State) : Proceeds s (execShfl w s) :=
  proceeds_next (tame_crossWord (.refl false s) _ _ _ fun _ _ _ hu =>
    tame_ite (fun _ => tame_crossPut (tame_crossPut hu ..) ..) fun _ => tame_crossPut hu ..)

theorem proceeds_execPairWord (p : Pair) (s : State) : Proceeds s (execPairWord p s) := by
  refine proceeds_next (k := false) ?_
  dsimp only
  split
  · exact .refl ..
  · next i hi =>
    have hf := fun c => tame_conclude (.refl false s) i (pairOp p) p.stall.toNat (p.y == 1)
      (r := .trap { cause := c, fm := i.iss, cm := i.iss }) trivial
    refine tame_ite (fun _ => .refl ..) fun _ => tame_ite (fun _ => hf _) fun _ => ?_
    split
    · exact hf _
    · refine tame_ite (fun _ => .refl ..) fun _ => ?_
      split
      · exact hf _
      · exact tame_conclude (.refl ..) _ _ _ _ (tameRes_nonFiniteEnd (tame_putD (tame_putD (.refl ..) ..) ..) ..)

end Sys2Proof.Machine
end

section
/-! PROOF. What requests, accesses, loads, stores and atomics keep. -/

set_option Elab.async false

namespace Sys2Proof.Machine

/-! ## Groups -/

/-- Every load of r has the number of one of q. -/
def Relisted (q r : Group) : Prop := ∀ l ∈ r.loads, ∃ l' ∈ q.loads, l'.id = l.id

theorem Relisted.of_loads {q r : Group} (h : r.loads = q.loads) : Relisted q r := fun l hl => ⟨l, h ▸ hl, rfl⟩

theorem Relisted.alike {q r r' : Group} (h : Relisted q r) (e : r'.loads = r.loads) : Relisted q r' := fun l hl => h l (e ▸ hl)

theorem listed_modLoad {q r : Group} {id : Nat} {f : LoadI → LoadI} {x : LoadI} (hx : x ∈ (r.modLoad id f).loads) (h : r.loads = q.loads)
    (hf : ∀ l, (f l).id = l.id) : ∃ l' ∈ q.loads, l'.id = x.id := by
  obtain ⟨l, hl, rfl⟩ := List.mem_map.1 (List.mem_filter.1 hx).1
  exact ⟨l, h ▸ hl, by split_ifs <;> simp [hf]⟩

@[simp] theorem loads_putLoad (q : Group) (word d L : Nat) (xs : List W32) (gb : Bool) : (q.putLoad word d L xs gb).loads = q.loads :=
  loads_foldl _ (fun q e => by dsimp only; split_ifs <;> rfl) _ _
@[simp] theorem loads_pendAdd (q : Group) (ks : List Nat) : (q.pendAdd ks).loads = q.loads := rfl
@[simp] theorem loads_pendSub (q : Group) (ks : List Nat) : (q.pendSub ks).loads = q.loads := rfl
@[simp] theorem loads_learn (q : Group) (l : LoadI) (L : Nat) (x : W32) : (q.learn l L x).loads = q.loads := by unfold Group.learn; split_ifs <;> rfl
@[simp] theorem loads_replyTrap (q : Group) (gd : Bool) (e : Nat × Option Nat) (st f L : Nat) (pc : W64) : (q.replyTrap gd e st f L pc).loads = q.loads := by
  unfold Group.replyTrap; split <;> simp
@[simp] theorem loads_poisonTruth (q : Group) (t : TruthSlot) (L : Nat) : (q.poisonTruth t L).loads = q.loads := by
  unfold Group.poisonTruth; dsimp only; split_ifs <;> simp
@[simp] theorem loads_putV (q : Group) (r L : Nat) (x : W32) (g : Bool) : (q.putV r L x g).loads = q.loads := rfl
@[simp] theorem loads_putP (q : Group) (r L : Nat) (x g : Bool) : (q.putP r L x g).loads = q.loads := by unfold Group.putP; split_ifs <;> rfl
@[simp] theorem loads_putS (q : Group) (n : Nat) (x : W64) : (q.putS n x).loads = q.loads := by unfold Group.putS; split_ifs <;> rfl
@[simp] theorem loads_settled (q : Group) (n : Nat) : (q.settled n).loads = q.loads := rfl
@[simp] theorem loads_guardV (q : Group) (r L : Nat) : (q.guardV r L).loads = q.loads := rfl

section
variable {k : Bool} {s t : State} (h : Tame k s t)
include h

theorem Tame.tick {n : Nat} (hn : t.seq ≤ n) : Tame k s { t with seq := n } := h.same (hs := hn)

theorem Tame.relist {b g : Nat} {f : Group → Group} (hf : Relisted (t.group b g) (f (t.group b g))) : Tame k s (modGroup t b g f) := h.groupFrom hf

/-! ## Requests to peers -/

theorem tame_modPort (p : Nat) (f : Port → Port) : Tame k s (modPort t p f) := h.same
theorem tame_modReq (id : Nat) (f : Req → Req) : Tame k s (modReq t id f) := h.same
theorem tame_putPacket (p : Packet) (e : Nat × Bool) : Tame k s (putPacket t p e) := tame_modPort h ..
theorem tame_sendPacket {q : Nat} {p : Packet} {d : Bool} {u : State} (hu : sendPacket t q p d = some u) : Tame k s u := by
  obtain ⟨e, -, rfl⟩ := Option.map_eq_some_iff.1 hu
  exact tame_putPacket h ..
theorem tame_trySend {r : Req} {q off : Nat} {u : State} (hu : trySend t r q off = some u) : Tame k s u := by
  unfold trySend at hu
  split_ifs at hu
  · obtain rfl := Option.some.inj hu
    exact tame_modReq (h.same (hs := Nat.le_succ _)) ..
  · split at hu
    · dsimp only at hu
      split_ifs at hu
      obtain rfl := Option.some.inj hu
      exact tame_modReq (tame_putPacket (tame_modPort h.same ..) ..) ..
    · cases hu
theorem tame_pumpPorts (n : Nat) : Tame k s (pumpPorts n t) := by
  induction n generalizing t with
  | zero => exact h
  | succ n ih =>
    unfold pumpPorts
    split
    · next hu =>
      obtain ⟨e, -, he⟩ := List.exists_of_findSome?_eq_some hu
      exact ih (tame_trySend h he)
    · exact h
theorem tame_pumpFabric : Tame k s (pumpFabric t) := tame_pumpPorts h _

/-! ## On-chip bytes and the core's stores -/

theorem tame_putScr (b o : Nat) (x : Byte) : Tame k s (putScr t b o x) := tame_modBlock h rfl rfl rfl
theorem tame_putAcc (c o : Nat) (x : Byte) : Tame k s (putAcc t c o x) := tame_modCore h
theorem tame_putReg (b o : Nat) (x : Byte) : Tame k s (putReg t b o x) := tame_modGroup h rfl
theorem tame_putChip (g : Tgt) (bs : List Byte) : Tame k s (putChip t g bs) := by
  have hf : Tame k s (bs.zipIdx.foldl (fun s e => match g with
    | .scr b off => putScr s b (off + e.2) e.1
    | .acc c off => putAcc s c (off + e.2) e.1
    | .reg b off => putReg s b (off + e.2) e.1
    | .far b a off => if a then putAcc s (s.block b).core (off + e.2) e.1 else putScr s b (off + e.2) e.1
    | _ => s) t) := by
    refine tame_foldl h (fun u e hu => ?_) _
    cases g with
    | scr => exact tame_putScr hu ..
    | acc => exact tame_putAcc hu ..
    | reg => exact tame_putReg hu ..
    | far => exact tame_ite (fun _ => tame_putAcc hu ..) fun _ => tame_putScr hu ..
    | _ => exact hu
  unfold putChip
  cases g with
  | reg => exact tame_landed hf ..
  | _ => exact hf
theorem tame_noteAll (i : Iss) (a : Acc) (gs : List (Nat × Nat × Tgt × Xl)) : Tame k s (noteAll t i a gs) := by
  refine tame_foldl h (fun u e hu => ?_) _
  split
  exacts [tame_noteXl hu .., tame_noteXl hu .., hu]
theorem tame_modStore1 (c : Nat) (cst : Bool) (f : Tbl Sector → Tbl Sector) : Tame k s (modStore1 t c cst f) := tame_modCore h
theorem tame_fillSector (c : Nat) (cst : Bool) (n : Nat) (x : Sector) (ef : Bool) : Tame k s (fillSector t c cst n x ef) := by
  unfold fillSector; exact tame_modStore1 (h.tick (n := t.seq + 1) (Nat.le_succ _)) ..
theorem tame_touchSector (c : Nat) (cst : Bool) (n : Nat) : Tame k s (touchSector t c cst n) := by
  unfold touchSector; exact tame_modStore1 (h.tick (n := t.seq + 1) (Nat.le_succ _)) ..
theorem tame_mergeL1 (c n : Nat) (tag : Nat × Nat) (bs : List (Nat × Byte)) : Tame k s (mergeL1 t c n tag bs) := by
  unfold mergeL1
  dsimp only
  split
  exacts [h.same, tame_modStore1 h.same ..]
theorem tame_addReq (r : Req) : Tame k s (addReq t r) := h.same (hs := Nat.le_succ _)

omit h in
theorem tameRes_accessEnd (h : Tame k s t) (ts : Tries) (a : Acc) : TameRes k s (accessEnd t ts a) := by
  unfold accessEnd
  refine tameRes_ite (fun _ => h) fun _ => ?_
  dsimp only
  split
  exacts [h, h]

/-! ## The delivery of loads -/

theorem tame_demandLane (b g L : Nat) (w : Insn) (n : Nat) : Tame k s (demandLane t b g L w n) := by
  refine tame_modGroup h ?_
  dsimp only
  split <;> split_ifs <;> simp [loads_takeTruth]
theorem tame_demandRelease (b g n L : Nat) : Tame k s (demandRelease t b g n L) :=
  tame_ite (fun _ => tame_modGroup (tame_unparkNext (tame_landed (tame_demandLane h ..) ..) ..) rfl) fun _ => h

theorem tame_deliverLane (b g id L : Nat) (bs : List Byte) (st f : Nat) (e : Nat × Option Nat) : Tame k s (deliverLane t b g id L bs st f e) := by
  unfold deliverLane
  dsimp only
  split
  · exact h
  · refine tame_ite (fun _ => ?_) fun _ => tame_ite (fun _ => ?_) fun _ => h
    · split
      · refine h.relist fun x hx => listed_modLoad hx ?_ fun _ => rfl
        rw [loads_foldl (fun q k => q.answered k id) (fun _ _ => rfl)]
        split_ifs <;> simp
      · refine tame_landed (h.relist fun x hx => ?_) ..
        rw [loads_sweepSlots] at hx
        split at hx
        all_goals exact listed_modLoad (f := fun l => { l with waiting := l.waiting &&& ~~~oneLane L }) hx (by split_ifs <;> simp) fun _ => rfl
    · split
      · exact h
      · refine tame_ite (fun _ => tame_truthFor (tame_demandRelease (h.relist fun x hx => ?_) ..) ..) fun _ => h.relist fun x hx => ?_
        all_goals exact listed_modLoad (f := fun l => { l with expired := l.expired &&& ~~~oneLane L }) hx (by split_ifs <;> simp) fun _ => rfl

theorem tame_expireLane (b g id L : Nat) : Tame k s (expireLane t b g id L) := by
  unfold expireLane
  dsimp only
  split
  · exact h
  · split
    · exact h.relist fun x hx => listed_modLoad hx rfl fun _ => rfl
    · refine tame_ite (fun _ => tame_unparkNext (tame_landed (h.relist fun x hx => ?_) ..) ..)
        fun _ => tame_landed (h.relist fun x hx => ?_) ..
      all_goals exact listed_modLoad hx (by simp) fun _ => rfl

/-! ## Loads -/

theorem tame_loadShare (w : Insn) (id : Nat) (lim : Nat → Nat) (i : Iss) (x : Share) : Tame k s (loadShare w id lim t i x) := by
  have hp := fun (u : State) (hu : Tame k s u) (d : Sector) => tame_foldl hu
    (f := fun s p => deliverLane s i.b i.g id p.lane (d.data.drop p.off) 0 0) (fun _ _ hv => tame_deliverLane hv ..) x.parts
  unfold loadShare
  dsimp only
  split
  · split
    · have ht := fun n (f : Group → Group) hf => tame_modGroup (b := i.b) (g := i.g) (f := f) (tame_touchSector h i.core x.cst n) hf
      exact tame_ite (fun _ => tame_addReq (ht _ _ (by split_ifs <;> rfl)) _) fun _ => hp _ (ht _ _ (by split_ifs <;> rfl)) _
    · exact tame_addReq (tame_modGroup h (by split_ifs <;> rfl)) _
  · exact tame_addReq h _

omit h in
theorem loads_unbindAll (l : LoadI) (ls : List Nat) (q : Group) : (ls.foldl (fun (q : Group) L =>
    ((List.range l.nreg).foldl (fun q k => q.unbind (l.dest + k) L) q).pendAdd (destKeys l.dest l.nreg L)) q).loads = q.loads :=
  loads_foldl _ (fun q L => (loads_pendAdd ..).trans (loads_foldl (fun q k => q.unbind (l.dest + k) L) (fun _ _ => rfl) _ q)) _ _

/-- A load that takes the next number, or one given before. -/
theorem tame_enterLoad (i : Iss) (l : LoadI) (a : Bool) (hl : l.id ≤ t.seq) : Tame k s (enterLoad t i l a) := by
  have hs := h.tick (n := t.seq + 1) (Nat.le_succ _)
  refine hs.trans ⟨.of_same rfl rfl, le_refl _, fun b g x hx => ?_, fun _ b => by simp [enterLoad]⟩
  unfold enterLoad at hx
  dsimp only at hx
  rw [group_modGroup] at hx
  have hq : ∀ x ∈ (t.group i.b i.g).loads ++ [l], (∃ b' g', ∃ l' ∈ (t.group b' g').loads, l'.id = x.id) ∨ x.id < t.seq + 1 := by
    intro x hx
    rcases List.mem_append.1 hx with hx | hx
    · exact .inl ⟨i.b, i.g, x, hx, rfl⟩
    · obtain rfl := List.mem_singleton.1 hx
      exact .inr (Nat.lt_succ_of_le hl)
  split_ifs at hx
  · rw [loads_mapLanes] at hx
    split at hx
    · exact hq x hx
    · rw [loads_unbindAll] at hx; exact hq x hx
  · split at hx
    · exact hq x hx
    · rw [loads_unbindAll] at hx; exact hq x hx
  · exact .inl ⟨b, g, x, hx, rfl⟩

theorem tame_loadLanes (w : Insn) (ty : Ty) (id : Nat) (lim : Nat → Nat) (i : Iss) (gs : List (Nat × Nat × Tgt × Xl)) :
    Tame k s (loadLanes w ty id lim t i gs) := by
  refine tame_pumpFabric (tame_foldl (tame_foldl h (fun u e hu => ?_) _) (fun _ _ hu => tame_loadShare hu ..) _)
  exact tame_ite (fun _ => tame_parkLane hu ..) fun _ => tame_ite (fun _ => tame_deliverLane hu ..) fun _ => hu

theorem tameRes_loadVector (op : Nat) (w : Insn) (i : Iss) : TameRes k s (loadVector op w t i) := by
  unfold loadVector
  refine tameRes_ite (fun _ => trivial) fun _ => ?_
  dsimp only
  split
  · trivial
  · refine tameRes_ite (fun _ => trivial) fun _ => tameRes_accessEnd (tame_advance ?_ ..) ..
    have hn := fun (r : State) (hr : Tame k r t) (gs : List (Nat × Nat × Tgt × Xl)) =>
      tame_modGroup (b := i.b) (g := i.g) (f := fun q => q.orGuard i.gg (opD w) (nregOf (tyD op w))) (tame_noteAll hr i .read gs) (loads_orGuard ..)
    exact tame_ite (fun _ => hn _ h _) fun _ => tame_loadLanes (tame_enterLoad (hn _ h _) _ _ _ (hn t (.refl ..) _).seq) ..

theorem tameRes_loadScalar (op : Nat) (w : Insn) (i : Iss) : TameRes k s (loadScalar op w t i) := by
  unfold loadScalar
  refine tameRes_ite (fun _ => trivial) fun _ => ?_
  split
  · exact tame_advance h ..
  · dsimp only
    split
    · trivial
    · refine tameRes_ite (fun _ => trivial) fun _ => ?_
      split
      · exact tame_advance h ..
      · exact tame_advance h ..
      · have he := fun gs l a hl => tame_enterLoad (tame_noteAll h i .read gs) i l a hl
        have hs := fun gs => (tame_noteAll (.refl k t) i .read gs).seq
        exact tameRes_ite (fun _ => tame_foldl (tame_advance (he _ _ _ (hs _)) ..) (fun _ _ hu => tame_parkLane hu ..) _)
          fun _ => tame_advance (tame_loadLanes (he _ _ _ (hs _)) ..) ..

theorem tame_loadWord (op : Nat) (w : Insn) : Tame k s (loadWord op w t) :=
  tame_runWord h _ _ _ fun _ => tameRes_ite (fun _ => tameRes_loadScalar h ..) fun _ => tameRes_loadVector h ..

/-! ## Stores, prefetches, ranges -/

theorem tame_storeShare (data : Nat → List Byte) (i : Iss) (x : Share) : Tame k s (storeShare data t i x) := by
  refine tame_addReq ?_ _
  split
  exacts [tame_mergeL1 h .., h]

theorem tame_storeLanes (w : Insn) (data : Nat → List Byte) (n : Nat) (i : Iss) (gs : List (Nat × Nat × Tgt × Xl)) :
    Tame k s (storeLanes w data n t i gs) := by
  refine tame_pumpFabric (tame_foldl (tame_foldl h (fun u e hu => ?_) _) (fun _ _ hu => tame_storeShare hu ..) _)
  exact tame_ite (fun _ => tame_parkLane hu ..) fun _ => tame_ite (fun _ => tame_putChip hu ..) fun _ => hu

theorem tame_storeWord (op : Nat) (w : Insn) : Tame k s (storeWord op w t) := by
  unfold storeWord
  refine tame_runWord h _ _ _ fun i => ?_
  refine tameRes_ite (fun _ => trivial) fun _ => tameRes_ite (fun _ => trivial) fun _ => ?_
  dsimp only
  split
  · trivial
  · exact tameRes_ite (fun _ => trivial) fun _ => tameRes_accessEnd (tame_advance (tame_storeLanes (tame_noteAll (tame_clearRel h _) ..) ..) ..) ..

omit h in
theorem proceeds_execPref (w : Insn) (s : State) : Proceeds s (execPref w s) := by
  refine proceeds_next (k := false) (tame_runWord (.refl ..) _ _ _ fun i => tameRes_ite (fun _ => trivial) fun _ => tameRes_next.2 (tame_advance ?_ ..))
  refine tame_foldl (.refl ..) (fun u L hu => tame_foldl hu (fun v e hv => ?_) _) _
  exact tame_ite (fun _ => tame_noteXl hv ..) fun _ => tame_addReq (tame_noteXl hv ..) _

theorem tame_noteRange (i : Iss) (xs : List (Nat × TlbEntry)) : Tame k s (noteRange t i xs) := by
  have aux : ∀ a : State × Option Nat, Tame k s a.1 → Tame k s (xs.foldl (fun (acc : State × Option Nat) e =>
      if acc.2 = some (e.1 / 4096) then acc
      else (noteXl acc.1 i.core (t.context i.ctx).part e.1 .read
        { pa := e.2.frame + e.1 % 4096, tier := e.2.tier, hold := e.2.hold, entry := e.2 }, some (e.1 / 4096))) a).1 := by
    induction xs with
    | nil => exact fun a ha => ha
    | cons e xs ih =>
      refine fun a ha => ih _ ?_
      dsimp only
      split
      exacts [ha, tame_noteXl ha ..]
  exact aux (t, none) h
theorem tame_fadeLines (c : Nat) (tag : Nat × Nat) (ls : List (Bool × Nat)) : Tame k s (fadeLines t c tag ls) := tame_modCore h
theorem tame_dropFills (c : Nat) (ls : List (Bool × Nat)) : Tame k s (dropFills t c ls) := h.same
theorem tame_rangeWord (op : Nat) (w : Insn) (inval : Bool) : Tame k s (rangeWord op w t inval) := by
  unfold rangeWord
  refine tame_runWord h _ _ _ fun i => tameRes_ite (fun _ => trivial) fun _ => tameRes_ite (fun _ => trivial) fun _ => ?_
  refine tameRes_next.2 (tame_advance ?_ ..)
  have hn := fun xs => tame_noteRange (tame_clearRel h i) i xs
  have hd : ∀ xs, Tame k s (if !inval then noteRange (clearRel t i) i xs else (lanesOf i.ex).foldl (fun u L =>
      dropFills (fadeLines u i.core (tagOf t i.ctx ((t.group i.b i.g).lane L).hyp) (rangePhys w t i L op)) i.core (rangePhys w t i L op))
      (noteRange (clearRel t i) i xs)) := fun xs =>
    tame_ite (fun _ => hn xs) fun _ => tame_foldl (hn xs) (fun _ _ hu => tame_dropFills (tame_fadeLines hu ..) ..) _
  exact tame_ite (fun _ => hd _) fun _ => tame_addReq (hd _) _

/-! ## Atomics, and lines that become present -/

theorem tame_atomLocal (op : Nat) (w : Insn) (i : Iss) (L : Nat) (g : Tgt) : Tame k s (atomLocal op w t i L g) :=
  tame_ite (fun _ => tame_modGroup (tame_bumpPct (tame_putChip h ..) ..) (loads_resLane ..)) fun _ => tame_bumpPct (tame_putChip h ..) ..
theorem tame_fadeAtomic (i : Iss) (gs : List (Nat × Nat × Tgt × Xl)) : Tame k s (fadeAtomic t i gs) := by
  refine tame_foldl h (fun u e hu => ?_) _
  split
  exacts [tame_ite (fun _ => hu) fun _ => tame_mergeL1 hu .., hu]
theorem tame_atomRequest (op : Nat) (w : Insn) (i : Iss) (x : Share) : Tame k s (atomRequest op w t i x) := by
  unfold atomRequest
  dsimp only
  generalize (if op = 0xA0 then (match opD w with | .v n => some n | _ => none) else none : Option Nat) = dest
  cases dest with
  | none => exact tame_addReq h _
  | some n =>
    have hp := fun q : Group => loads_foldl (fun q p => q.pendAdd (destKeys n (nregOf (tyD op w)) p.lane)) (fun _ _ => rfl) x.parts q
    have ha := fun (q : Group) id => loads_foldl (fun (q : Group) (p : Part) => q.mapLanes (oneLane p.lane) fun _ l => { l with acq := l.acq ++ [id] })
      (fun _ _ => rfl) x.parts q
    refine tame_modGroup (tame_addReq h _) ?_
    split_ifs
    exacts [(ha _ _).trans (hp _), hp _]
theorem tame_atomLanes (op : Nat) (w : Insn) (i : Iss) (gs : List (Nat × Nat × Tgt × Xl)) : Tame k s (atomLanes op w t i gs) := by
  refine tame_pumpFabric (tame_foldl (tame_fadeAtomic (tame_foldl h (fun u e hu => ?_) _) ..) (fun _ _ hu => tame_atomRequest hu ..) _)
  exact tame_ite (fun _ => tame_parkLane hu ..) fun _ => tame_ite (fun _ => tame_atomLocal hu ..) fun _ => hu
theorem tame_atomWord (op : Nat) (w : Insn) : Tame k s (atomWord op w t) := by
  unfold atomWord
  refine tame_runWord h _ _ _ fun i => tameRes_ite (fun _ => trivial) fun _ => tameRes_ite (fun _ => trivial) fun _ => ?_
  dsimp only
  split
  · trivial
  · refine tameRes_ite (fun _ => trivial) fun _ => tameRes_ite (fun _ => trivial) fun _ => tameRes_accessEnd (tame_advance (tame_atomLanes (tame_noteAll ?_ ..) ..) ..) ..
    exact tame_modGroup (tame_clearRel h _) (by split_ifs <;> simp)

theorem tame_parkedAccess (e : Nat × Nat × Nat) : Tame k s (parkedAccess t e) := by
  have hu := tame_unparkNext h e.1 e.2.1 (oneLane e.2.2) 16
  unfold parkedAccess
  dsimp only
  split
  · exact hu
  · split
    · split
      exacts [tame_loadLanes hu .., hu]
    · exact tame_storeLanes hu ..
    · exact tame_atomLanes hu ..
theorem tame_readTruth (id j g L : Nat) : Tame k s (readTruth t id j g L) := by
  unfold readTruth
  split
  · exact h
  · split
    exacts [tame_deliverLane h .., h]
theorem tame_serveLine (b n : Nat) : Tame k s (serveLine t b n) :=
  tame_foldl h (fun _ _ hu => tame_ite (fun _ => tame_readTruth hu ..) fun _ => tame_parkedAccess hu _) _
theorem tame_lateTruths : Tame k s (lateTruths t) := tame_foldl h (fun _ _ hu => tame_readTruth hu ..) _

end

end Sys2Proof.Machine
end

section
/-! PROOF. What the matrix and copy engines, barriers, system words and the boundary of a group keep; and that a wake keeps each block's
core and context. -/

set_option Elab.async false

namespace Sys2Proof.Machine

section
variable {k : Bool} {s t : State} (h : Tame k s t)
include h

/-! ## Copies -/

theorem tame_modJob (b id : Nat) (f : CopyJob → CopyJob) : Tame k s (modJob t b id f) := tame_modBlock h rfl rfl rfl
theorem tame_copyFault (b : Nat) (j : CopyJob) (va : Nat) (a : Acc) : Tame k s (copyFault t b j va a) :=
  tame_ite (fun _ => tame_modJob h ..) fun _ => tame_modJob (tame_faultEntry h ..) ..
theorem tame_askRun (b : Nat) (j : CopyJob) (n : Nat) (r : Run) (src : Nat) (g : Tgt) (x : Xl) : Tame k s (askRun t b j n r src g x) :=
  tame_modJob (tame_addReq h _) ..
theorem tame_copyPump (b id : Nat) : Tame k s (copyPump t b id) := by
  unfold copyPump
  split
  · exact h
  · refine tame_pumpFabric (tame_foldl h (fun u e hu => ?_) _)
    split
    · exact hu
    · refine tame_ite (fun _ => hu) fun _ => ?_
      split
      · exact hu
      · dsimp only
        split
        · exact tame_modJob hu ..
        · split
          exacts [tame_askRun (tame_noteXl hu ..) .., tame_copyFault hu .., tame_modJob hu ..]
        · split
          exacts [tame_askRun (tame_noteXl hu ..) .., tame_copyFault hu .., tame_modJob hu ..]
        · exact tame_askRun hu ..
        · exact hu
theorem tame_captureRuns (b : Nat) : Tame k s (captureRuns t b) :=
  tame_foldl h (fun _ _ hu => tame_foldl hu (fun _ _ hv => tame_modJob hv ..) _) _
theorem tame_copyReply (r : Req) : Tame k s (copyReply t r) := by
  unfold copyReply
  split
  · exact h
  · split
    · exact h
    · exact tame_ite (fun _ => tame_modJob h ..) fun _ => tame_modJob h ..
theorem tame_issueCopy (w : Insn) (i : Iss) (e : Nat × Plan) : Tame k s (issueCopy w i t e) := by
  refine tame_copyPump (tame_foldl (tame_foldl (tame_modBlock (h.tick (n := t.seq + 1) (Nat.le_succ _)) rfl rfl rfl) (fun _ _ hu => ?_) _)
    (fun _ _ hu => tame_modGroup hu (loads_pendAdd ..)) _) ..
  exact tame_modBlock hu rfl rfl rfl
theorem tameRes_copyBody (w : Insn) (i : Iss) (a : State → Iss → Nat → CopyTry) : TameRes k s (copyBody w t i a) := by
  unfold copyBody
  dsimp only
  split
  · trivial
  · refine tameRes_ite (fun _ => trivial) fun _ => tame_foldl (tame_advance (tame_foldl (tame_clearRel h _) ?_ _) ..) (fun _ _ hu => tame_issueCopy hu ..) _
    exact fun _ _ hu => tame_parkLane hu ..
theorem tame_copyWord (w : Insn) (a : State → Iss → Nat → CopyTry) : Tame k s (copyWord w t a) := by
  unfold copyWord
  refine tame_runWord h _ _ _ fun i => tameRes_ite (fun _ => trivial) fun _ => tameRes_ite (fun _ => trivial) fun _ => tameRes_ite (fun _ => trivial) fun _ => ?_
  exact tameRes_ite (fun _ => trivial) fun _ => tameRes_ite (fun _ => tame_advance h ..) fun _ => tameRes_copyBody h ..
theorem tameRes_copyParked (w : Insn) (i : Iss) : TameRes k s (copyParked w t i) :=
  tameRes_ite (fun _ => trivial) fun _ => tameRes_ite (fun _ => trivial) fun _ => tameRes_copyBody h ..
theorem tame_snapLine (b n : Nat) : Tame k s (snapLine t b n) := tame_modCore h
theorem tame_lineDone (b n : Nat) : Tame k s (lineDone t b n) := by
  unfold lineDone
  exact tame_ite (fun _ => tame_serveLine (tame_snapLine (tame_modBlock h rfl rfl rfl) ..) ..) fun _ => tame_modBlock h rfl rfl rfl
theorem tame_setReady (b : Nat) (f : Nat → Nat) : Tame k s (setReady t b f) := tame_modBlock h rfl rfl rfl
theorem tame_copyStore (job n : Nat) : Tame k s (copyStore t job n) := by
  unfold copyStore
  split
  · exact h
  · dsimp only
    split
    · exact h
    · refine tame_ite (fun _ => h) fun _ => ?_
      split
      · exact tame_modJob h ..
      · refine tame_ite (fun _ => tame_modJob h ..) fun _ => ?_
        split
        exacts [tame_pumpFabric (tame_modJob (tame_addReq (tame_noteXl h ..) _) ..), tame_copyFault h .., tame_modJob h ..]
      · split
        exacts [tame_pumpFabric (tame_modJob (tame_addReq (tame_noteXl h ..) _) ..), tame_copyFault h .., tame_modJob h ..]
      · exact tame_pumpFabric (tame_modJob (tame_addReq h _) ..)
      · exact h

/-! ## The matrix engine -/

theorem tame_tokenMoved (b : Nat) : Tame k s (tokenMoved t b) := tame_modBlock h rfl rfl rfl
theorem tame_modTile (c n : Nat) (f : Tile → Tile) : Tame k s (modTile t c n f) := tame_modCore h
theorem tame_engineArrive (b o n : Nat) (w : Bool) : Tame k s (engineArrive t b o n w) := tame_objTest (tame_modObj h ..) ..
theorem tame_handOver (c n b m : Nat) : Tame k s (handOver c n b m t) := by
  induction m generalizing t with
  | zero => exact h
  | succ m ih =>
    unfold handOver
    dsimp only
    split
    · exact h
    · refine tame_ite (fun _ => h) fun _ => ih (tame_engineArrive (tame_ite (fun _ => tame_tokenMoved (tame_modTile h ..) _) fun _ => tame_modTile h ..) ..)
theorem tame_handTile (c n : Nat) : Tame k s (handTile t c n) := by
  unfold handTile
  dsimp only
  split
  · exact h
  · exact tame_ite (fun _ => tame_ite (fun _ => h) fun _ => tame_modTile h ..) fun _ => tame_handOver h ..
theorem tameRes_mmaBlock (w : Insn) (i : Iss) (L : Nat) : TameRes k s (mmaBlock w t i L) := by
  unfold mmaBlock
  refine tameRes_ite (fun _ => trivial) fun _ => tameRes_ite (fun _ => tame_parkLane (tame_advance h ..) ..) fun _ => ?_
  refine tameRes_ite (fun _ => trivial) fun _ => tameRes_ite (fun _ => trivial) fun _ => ?_
  dsimp only
  split
  · trivial
  · exact tameRes_ite (fun _ => trivial) fun _ => tame_modCore (tame_clearRel h _)

/-- What a step answers keeps all that is kept. -/
def TameOut (k : Bool) (s : State) (o : Out) : Prop := ∃ u, o = .next u ∧ Tame k s u

omit h in
theorem tameOut_next {u : State} (hu : Tame k s u) : TameOut k s (.next u) := ⟨u, rfl, hu⟩

omit h in
theorem tameOut_ite {c : Prop} [Decidable c] {a b : Out} (ha : c → TameOut k s a) (hb : ¬c → TameOut k s b) : TameOut k s (if c then a else b) := by
  split_ifs with hc
  exacts [ha hc, hb hc]

omit h in
theorem TameOut.proceeds {o : Out} (ho : TameOut k s o) : Proceeds s o := by
  obtain ⟨u, rfl, hu⟩ := ho
  exact proceeds_next hu

omit h in
theorem TameOut.after {o : Out} (ho : TameOut k s o) : Tame k s (afterOut t o) := by
  obtain ⟨u, rfl, hu⟩ := ho
  exact hu

theorem tame_execMmaAccept (b g L : Nat) : TameOut k s (execMmaAccept b g L t) := by
  unfold execMmaAccept
  dsimp only
  split
  · exact tameOut_next h
  · exact tameOut_ite (fun _ => tameOut_next h) fun _ => tameOut_next (tame_afterIssue (tame_advance (tame_modCore h) ..) ..)
theorem tame_execMmaReadCycle (c : Nat) : TameOut k s (execMmaReadCycle c t) := by
  unfold execMmaReadCycle
  dsimp only
  split
  · exact tameOut_next h
  · exact tameOut_ite (fun _ => tameOut_next h) fun _ => tameOut_next (tame_modCore h)
theorem tame_execMmaCommandDone (c : Nat) : TameOut k s (execMmaCommandDone c t) := by
  unfold execMmaCommandDone
  dsimp only
  split
  · exact tameOut_next h
  · exact tameOut_ite (fun _ => tameOut_next h) fun _ => tameOut_next (tame_handTile (tame_modCore (tame_modTile h ..)) ..)
theorem tame_engineStep (c : Nat) : Tame k s (engineStep t c) :=
  (tame_execMmaCommandDone (tame_execMmaReadCycle (tame_foldl h (fun _ _ hu => (tame_execMmaAccept hu ..).after) _) c).after c).after

theorem tame_tokenWord (w : Insn) (ds : List (Opd × Nat)) {body : State → Iss → Tile → Res} (hb : ∀ i x, TameRes k s (body t i x)) :
    Tame k s (tokenWord w t ds body) :=
  tame_runWord h _ _ _ fun _ => tameRes_ite (fun _ => trivial) fun _ => tameRes_ite (fun _ => tame_advance (tame_guessDests h ..) ..) fun _ => hb _ _
theorem tame_moveToken (w : Insn) (d : Nat → Token) : Tame k s (moveToken w t d) :=
  tame_tokenWord h _ _ fun _ _ => tameRes_ite (fun _ => trivial) fun _ => tameRes_ite (fun _ => trivial) fun _ =>
    tame_advance (tame_tokenMoved (tame_modTile h ..) _) ..

/-! ## Barriers and time -/

theorem tame_arrive (b g x o L : Nat) : Tame k s (arrive t b g x o L) := tame_objTest (tame_modObj h ..) ..
theorem tame_arriveInTurn (i : Iss) (x o : Nat) {act : State → Nat → State} (ha : ∀ u L, Tame k s u → Tame k s (act u L)) (ls : List Nat) :
    Tame k s (arriveInTurn i x o act ls t).1 := by
  induction ls generalizing t with
  | nil => exact h
  | cons L ls ih =>
    unfold arriveInTurn
    split_ifs
    · exact ih (tame_arrive (ha _ _ (tame_clearRel h _)) ..)
    · exact h
theorem tame_barWord (op : Nat) (w : Insn) (ops ds : List (Opd × Nat)) (a : Bool) {body : State → Iss → Nat → Nat → Res}
    (hb : ∀ i x o, TameRes k s (body t i x o)) : Tame k s (barWord op w t ops ds a body) := by
  unfold barWord
  refine tame_runWord h _ _ _ fun i => tameRes_ite (fun _ => trivial) fun _ => tameRes_ite (fun _ => tame_advance (tame_guessDests h ..) ..) fun _ => ?_
  split
  · exact tame_advance (tame_guessDests h ..) ..
  · exact hb _ _ _
theorem tame_arriveLater (i : Iss) (x o d : Nat) (m : Mask) : Tame k s (arriveLater t i x o d m) :=
  tame_modGroup h (loads_foldl _ (fun q L => by rw [loads_pendAdd]) _ _)
theorem tame_countArrival (b g : Nat) (a : ArrWait) : Tame k s (countArrival t b g a) :=
  tame_arrive (tame_landed (tame_modGroup h (by rw [loads_pendSub, loads_putLoad])) ..) ..
theorem tame_arriveDue (b g : Nat) : Tame k s (arriveDue t b g) := by
  have aux : ∀ (as : List ArrWait) (acc : State × List Nat), Tame k s acc.1 → Tame k s (as.foldl (fun (acc : State × List Nat) a =>
      if acc.2.contains a.word then acc
      else if a.met acc.1 b g then (countArrival acc.1 b g a, acc.2) else (acc.1, a.word :: acc.2)) acc).1 := by
    intro as
    induction as with
    | nil => exact fun acc ha => ha
    | cons a as ih =>
      refine fun acc ha => ih _ ?_
      dsimp only
      split_ifs
      exacts [ha, tame_countArrival ha .., ha]
  exact aux _ (t, []) h
theorem tame_waited (i : Iss) (x o : Nat) (p : W32) (L : Nat) : Tame k s (waited t i x o p L) := tame_owe (tame_acquireFrom h ..) ..

/-! ## System words -/

theorem tame_softTrap (op : Nat) (w : Insn) (c : Nat) : Tame k s (softTrap op w t c) :=
  tame_runWord h _ _ _ fun _ => tameRes_ite (fun _ => trivial) fun _ => tameRes_ite (fun _ => tame_advance h ..) fun _ => trivial
theorem tame_rteWord (w : Insn) (n : Bool) : Tame k s (rteWord w t n) :=
  tame_runWord h _ _ _ fun _ => tameRes_ite (fun _ => trivial) fun _ => tame_advance (tame_modGroup h rfl) ..
theorem tame_tlbinvWord (w : Insn) (a : Bool) : Tame k s (tlbinvWord w t a) := by
  unfold tlbinvWord
  refine tame_runWord h _ _ _ fun i => tameRes_ite (fun _ => trivial) fun _ => tameRes_ite (fun _ => trivial) fun _ => tameRes_ite (fun _ => trivial) fun _ => ?_
  dsimp only
  split
  · exact tame_advance h ..
  · exact tameRes_ite (fun _ => trivial) fun _ => tame_modPart (tame_startInval h ..)
theorem tame_invAcked (p : Nat) : Tame k s (invAcked t p) := by
  have hp := fun f => tame_modPart (p := p) (f := f) h
  unfold invAcked
  dsimp only
  split
  · exact hp _
  · refine tame_ite (fun _ => tame_modPart (hp _)) fun _ => ?_
    split
    · exact tame_modPart (tame_startInval (hp _) ..)
    · exact tame_afterIssue (tame_advance (tame_modPart (hp _)) ..) ..
theorem tame_perfWord (w : Insn) (f : State → Iss → Perf → Perf) : Tame k s (perfWord w t f) :=
  tame_runWord h _ _ _ fun _ => tameRes_ite (fun _ => trivial) fun _ => tameRes_ite (fun _ => tame_advance h ..) fun _ => tame_advance (tame_modGroup h rfl) ..
theorem tame_logRecord (b c : Nat) (x : W64) : Tame k s (logRecord t b c x) := tame_modCtx (tame_blackBox h ..)
theorem tame_execProgramRecordDue (c : Nat) : TameOut k s (execProgramRecordDue c t) := by
  unfold execProgramRecordDue
  split
  · exact tameOut_next h
  · exact tameOut_ite (fun _ => tameOut_next h) fun _ => tameOut_next (tame_afterIssue (tame_advance (tame_modCtx (tame_logRecord h ..)) ..) ..)

/-! ## The boundary of a group -/

theorem tame_takePend (b g : Nat) (p : PendTrap) : Tame k s (takePend t b g p) := by
  have hm := fun f hf => tame_modGroup (b := b) (g := g) (f := f) h hf
  exact tame_ite (fun _ => hm _ (loads_mapLanes ..)) fun _ => tame_takeTrap (hm _ (loads_mapLanes ..)) ..
theorem tame_takeNext (b g : Nat) (f : Nat → Bool) : Tame k s ((takeNext t b g f).getD t) := by
  unfold takeNext
  split_ifs
  · exact h
  · cases nextPend (t.group b g) f with
    | none => exact h
    | some p => exact tame_takePend h ..
theorem tame_trapsFirst (bs : List Nat) : Tame k s (trapsFirst t bs) :=
  tame_foldl h (fun _ _ hu => tame_foldl hu (fun _ _ hv => tame_takeNext hv ..) _) _
theorem tame_dropLaneWaits (b g L : Nat) : Tame k s (dropLaneWaits t b g L) := h.same
theorem tame_redirectLane (b g L : Nat) : Tame k s (redirectLane t b g L) := by
  unfold redirectLane
  split
  exacts [h, tame_modLane (tame_dropLaneWaits h ..)]
theorem tame_redirectAll (b g : Nat) : Tame k s (redirectAll t b g) := tame_afterIssue (tame_foldl h (fun _ _ hu => tame_redirectLane hu ..) _) ..
theorem tame_sleepWake (b g L : Nat) : Tame k s (sleepWake t b g L) := tame_ite (fun _ => tame_unparkNext h ..) fun _ => h
theorem tame_waitevWake (b g L : Nat) : Tame k s (waitevWake t b g L) :=
  tame_ite (fun _ => tame_unparkNext (tame_landed (tame_modGroup h (loads_resLane ..)) ..) ..) fun _ => h
theorem tameRes_blockParked (op : Nat) (w : Insn) (i : Iss) (L : Nat) :
    TameRes k s (if op = 0xE3 then copyParked w t i else if mmaWaiting t i then .hold else mmaBlock w t i L) :=
  tameRes_ite (fun _ => tameRes_copyParked h ..) fun _ => tameRes_ite (fun _ => trivial) fun _ => tameRes_mmaBlock h ..
theorem tame_blockWake (b g L : Nat) : Tame k s (blockWake t b g L) := by
  unfold blockWake
  refine tame_ite (fun _ => h) fun _ => ?_
  split
  · exact h
  · next w hw =>
    have hu : Tame k s (modLane t b g L fun l => { l with park := {} }) := tame_modLane h
    have hr := fun i : Iss => tameRes_blockParked hu ((t.group b g).lane L).park.op w i L
    dsimp only
    split
    · next v hv => exact tame_afterIssue (tameRes_next.1 (hv ▸ hr _)) ..
    · exact tame_takeTrap (tame_modLane h) ..
    · exact h
theorem tame_wakeBlock (b : Nat) : Tame k s (wakeBlock t b) := by
  refine tame_foldl h (fun u g hu => tame_foldl (tame_ite (fun _ => hu) fun _ => tame_arriveDue hu ..) (fun v L hv => ?_) _) _
  exact tame_blockWake (tame_waitevWake (tame_sleepWake hv ..) ..) ..
theorem tame_wakeCore (c : Nat) : Tame k s (wakeCore t c) := tame_foldl h (fun _ _ hu => tame_wakeBlock hu _) _

end

end Sys2Proof.Machine
end

section
/-! PROOF. The issue of a word that decodes, and of one that does not. -/

set_option Elab.async false

namespace Sys2Proof.Machine

/-- A wake of a core leaves every block on its core. -/
theorem core_wakeCore (s : State) (c b : Nat) : ((wakeCore s c).block b).core = (s.block b).core := ((tame_wakeCore (.refl true s) c).homes rfl b).1

theorem issueWord_plain {i : Instr} (h : queueAct i = none) (u : State) (b g : Nat) : issueWord exec i u b g = exec i { u with focus := (b, g) } := by
  unfold issueWord; rw [h]

theorem issueWord_queue {i : Instr} {q : Nat} {takes : Bool} {u v : State} {b g : Nat} (h : queueAct i = some (q, takes)) (hl : queueLate u b q takes (g % 4) = false)
    (hv : exec i { (if takes then u else oweFirst exec u (b, g)) with focus := (b, g) } = .next v)
    (hw : (v.group b g).words ≠ ((if takes then u else oweFirst exec u (b, g)).group b g).words) :
    issueWord exec i u b g = .next (noteQueue v b q takes (g % 4)) := by
  unfold issueWord
  rw [h]
  simp only [hl, Bool.false_eq_true, if_false, hv]
  rw [if_neg hw]

theorem group_oweFirst (s : State) (e : Grp) (b g : Nat) : (oweFirst exec s e).group b g = s.group b g := by
  unfold oweFirst
  dsimp only
  split
  · split_ifs <;> rfl
  · rfl

/-- Settles O36: the fetch of a word that decodes ends in its issue, and a wake leaves the block on its core. -/
theorem stepRunsDecoded : Obligations.StepRunsDecoded := by
  intro s b g pc m x i rest t0 core t part w0 n words u ha h1 h2 h3 h4 hs hpc hx hw hn hd hsel
  have hc : (t.block b).core = core := core_wakeCore t0 core b
  have hst : step s = issueWord exec i u b g := by
    rw [step_issue ha, issueStep_open h1 h2 h3 h4,
      fetchFor_insn (t := t) (x := x) (i := i) hs hpc (by rw [hc]; exact hx) (by rw [hc]; exact hw) (by rw [hc]; exact hn) (by rw [hc]; exact hd), hc]
    exact if_pos hsel
  refine ⟨fun hq => by rw [hst, issueWord_plain hq], fun q takes v hq hl hv hne => hst.trans (issueWord_queue hq hl hv ?_)⟩
  rwa [apply_ite (State.group · b g), group_oweFirst, ite_self]

/-- Settles O37: the fetch of a word that is no instruction ends in a trap of the issue set. -/
theorem illegalWords : Obligations.IllegalWords := by
  intro s b g pc m x rest t0 core t part w0 n words ha h1 h2 h3 h4 hs hpc hx hw hbad
  have hc : (t.block b).core = core := core_wakeCore t0 core b
  have hst : step s = .next (takeTrap (cacheCode (noteXl t core part pc .fetch x) core x.tier x.pa) b g pc { cause := 0x01, fm := m, cm := m }) := by
    rw [step_issue ha, issueStep_open h1 h2 h3 h4,
      fetchFor_illegal (t := t) (x := x) hs hpc (by rw [hc]; exact hx) (by rw [hc]; exact hw) (by rw [hc]; exact hbad), hc]
  obtain ⟨hr, hm, -⟩ := takeTrap_record (cacheCode (noteXl t core part pc .fetch x) core x.tier x.pa) b g pc { cause := 0x01, fm := m, cm := m }
  rw [group_cacheCode, group_noteXl] at hr
  exact ⟨_, hst, hr.cause_eq rfl (Nat.zero_lt_succ _), hr.pc, hr.fm, hr.cm, hr.regs, hm⟩

end Sys2Proof.Machine
end

section
/-! PROOF. Traps: entry into a handler, the trap table, and traps that stop a context (R257, R262–R265). -/

set_option Elab.async false

namespace Sys2Proof.Machine

/-! ## Renormalisation and handler entry -/

/-- What all live lanes' LAP fall by when the smallest has reached 2^31 (R132). -/
def lapFall (q : Group) (lap : Nat → Nat) : Nat :=
  if q.live ≠ 0 ∧ ∀ L, L < 32 → inMask q.live L = true → 2 ^ 31 ≤ lap L then 2 ^ 31 else 0

theorem exists_inMask {m : Mask} (h : m ≠ 0) : ∃ L, L < 32 ∧ inMask m L = true := by
  by_contra hc
  refine h (BitVec.eq_of_getLsbD_eq fun L hL => ?_)
  have : ¬inMask m L = true := fun hm => hc ⟨L, hL, hm⟩
  simpa [inMask] using this

theorem lanesOf_eq_nil {m : Mask} : lanesOf m = [] ↔ m = 0 := by
  refine ⟨fun h => ?_, fun h => by subst h; rfl⟩
  by_contra hm
  obtain ⟨L, hL, hi⟩ := exists_inMask hm
  have := (mem_lanesOf m L).2 ⟨hL, hi⟩
  rw [h] at this
  cases this

/-- A renormalisation moves no lane. -/
theorem lane_renormalise (s : State) (b g L : Nat) : ((renormalise s b g).group b g).lane L = { (s.group b g).lane L with
    lap := ((s.group b g).lane L).lap - if L < 32 ∧ inMask (s.group b g).live L = true then lapFall (s.group b g) fun L => ((s.group b g).lane L).lap else 0 } := by
  have hc : (((lanesOf (s.group b g).live).map fun L => ((s.group b g).lane L).lap).isEmpty ||
      ((lanesOf (s.group b g).live).map fun L => ((s.group b g).lane L).lap).any (fun x => decide (x < 2 ^ 31))) = true ↔
      ¬((s.group b g).live ≠ 0 ∧ ∀ L, L < 32 → inMask (s.group b g).live L = true → 2 ^ 31 ≤ ((s.group b g).lane L).lap) := by
    rw [Bool.or_eq_true, List.isEmpty_map, List.isEmpty_iff, lanesOf_eq_nil, List.any_map, List.any_eq_true, not_and_or, not_not]
    refine or_congr .rfl ?_
    simp only [mem_lanesOf, Function.comp_apply, decide_eq_true_eq]
    push Not
    constructor
    · rintro ⟨L, ⟨h1, h2⟩, h3⟩; exact ⟨L, h1, h2, h3⟩
    · rintro ⟨L, h1, h2, h3⟩; exact ⟨L, ⟨h1, h2⟩, h3⟩
  unfold renormalise
  dsimp only
  by_cases h : (((lanesOf (s.group b g).live).map fun L => ((s.group b g).lane L).lap).isEmpty ||
      ((lanesOf (s.group b g).live).map fun L => ((s.group b g).lane L).lap).any (fun x => decide (x < 2 ^ 31))) = true
  · rw [if_pos h, lapFall, if_neg (hc.1 h)]
    simp
  · rw [if_neg h, lapFall, if_pos (not_not.1 fun hn => h (hc.2 hn)), group_modGroup_self, lane_mapLanes]
    split_ifs <;> simp

theorem live_renormalise (s : State) (b g : Nat) : ((renormalise s b g).group b g).live = (s.group b g).live := by
  rw [(handed_renormalise s b g).rest]

theorem mode_renormalise (s : State) (b g : Nat) : ((renormalise s b g).group b g).trapMode = (s.group b g).trapMode ∧
    ((renormalise s b g).group b g).handlerSet = (s.group b g).handlerSet ∧ ((renormalise s b g).group b g).rteHeld = (s.group b g).rteHeld ∧
    ((renormalise s b g).group b g).rteNextM = (s.group b g).rteNextM := by
  rw [(follows_renormalise s b g).2.rest]
  exact ⟨rfl, rfl, rfl, rfl⟩

/-- What entering a handler leaves of its group (R263). -/
theorem entered_enterHandler (s : State) (b g h : Nat) (fm : Mask) : Entered s (enterHandler s b g h fm) b g h fm := by
  unfold enterHandler
  dsimp only
  set v := modGroup (dropWaits s b g) b g fun q => { q with trapMode := true, handlerSet := fm, rteHeld := 0, rteNextM := 0 }.mapLanes fm fun _ l =>
      { l with lpc := w64 (landing s b h), lap := l.lap + 1, park := {} } with hv
  have hg : v.group b g = { s.group b g with trapMode := true, handlerSet := fm, rteHeld := 0, rteNextM := 0 }.mapLanes fm fun _ l =>
      { l with lpc := w64 (landing s b h), lap := l.lap + 1, park := {} } := by rw [hv, group_modGroup_self, group_dropWaits]
  have hl : ∀ L, (v.group b g).lane L = if L < 32 ∧ inMask fm L = true then
      { (s.group b g).lane L with lpc := w64 (landing s b h), lap := ((s.group b g).lane L).lap + 1, park := {} } else (s.group b g).lane L := fun L => by
    rw [hg, lane_mapLanes]; rfl
  refine ⟨?_, fun L hL hm => ?_, fun L hL hm => ?_, ?_⟩
  · obtain ⟨h1, h2, h3, h4⟩ := mode_renormalise v b g
    rw [h1, h2, h3, h4, hg]
    exact ⟨rfl, rfl, rfl, rfl⟩
  · rw [lane_renormalise, hl, if_pos ⟨hL, hm⟩]
    exact ⟨rfl, rfl⟩
  · rw [lane_renormalise, hl, if_neg (by simp [hm])]
    exact ⟨rfl, rfl⟩
  · intro rises d L hL
    have hr : ∀ L, L < 32 → ((v.group b g).lane L).lap = rises L := fun L hL => by
      rw [hl]
      by_cases hm : inMask fm L = true
      · rw [if_pos ⟨hL, hm⟩]; simp only [rises, hm, if_true]
      · rw [if_neg (fun c => hm c.2)]; simp [rises, hm]
    have hd : lapFall (v.group b g) (fun L => ((v.group b g).lane L).lap) = d := by
      unfold lapFall
      rw [show (v.group b g).live = (s.group b g).live by rw [hg]; rfl]
      refine if_congr (and_congr .rfl (forall_congr' fun L => forall_congr' fun hL => ?_)) rfl rfl
      dsimp only; rw [hr L hL]
    rw [lane_renormalise]
    dsimp only
    rw [hd, hr L hL, show (v.group b g).live = (s.group b g).live by rw [hg]; rfl]
    simp only [hL, true_and]

/-- Entry into a handler from a state that differs in nothing that it reads. -/
theorem Entered.of_alike {s t u : State} {b g h : Nat} {fm : Mask} (e : Entered t u b g h fm) (hl : landing t b h = landing s b h)
    (hv : (t.group b g).live = (s.group b g).live)
    (hq : ∀ L, ((t.group b g).lane L).lpc = ((s.group b g).lane L).lpc ∧ ((t.group b g).lane L).park = ((s.group b g).lane L).park ∧
      ((t.group b g).lane L).lap = ((s.group b g).lane L).lap) : Entered s u b g h fm := by
  obtain ⟨mode, lanes, rest, laps⟩ := e
  refine ⟨mode, fun L hL hm => ?_, fun L hL hm => ?_, ?_⟩
  · rw [← hl]; exact lanes L hL hm
  · rw [← (hq L).1, ← (hq L).2.1]; exact rest L hL hm
  · simp only [hv, fun L => (hq L).2.2] at laps
    exact laps

/-- Writing a record moves no lane. -/
theorem lane_withRecord (q : Group) (c pc : W64) (fm cm : Mask) (L : Nat) :
    { q with replay := none, trapCause := c, trapPc := pc, faultMask := fm, causeMask := cm }.lane L = q.lane L := rfl

theorem lane_trapRecord (s : State) (b g pc : Nat) (t : TrapReq) (L : Nat) : ∃ va, ((trapRecord s b g pc t).group b g).lane L =
    { (s.group b g).lane L with faultVa := va } := by
  rw [trapRecord, group_modGroup_self, lane_mapLanes, lane_withRecord]
  by_cases h : L < 32 ∧ inMask (BitVec.allOnes 32) L = true
  · rw [if_pos h]; exact ⟨_, rfl⟩
  · rw [if_neg h]; exact ⟨((s.group b g).lane L).faultVa, rfl⟩

theorem live_trapRecord (s : State) (b g pc : Nat) (t : TrapReq) : ((trapRecord s b g pc t).group b g).live = (s.group b g).live := by
  unfold trapRecord
  rw [group_modGroup_self, mapLanes_live]

/-- The state once the trap table has been read does not depend on the record. -/
theorem entered_takeTrap {s : State} {b g pc h : Nat} {t : TrapReq} (hm : (s.group b g).trapMode = false) (hh : handlerOf s b t.cause = .ok (some h))
    (hlap : ∀ L, L < 32 → inMask t.fm L = true → ((s.group b g).lane L).lap + 1 < 2 ^ 32) :
    takeTrap s b g pc t = enterHandler (noteHandler (trapRecord s b g pc t) b t.cause) b g h t.fm ∧
    Entered (tableRead s b g t.cause) (takeTrap s b g pc t) b g h t.fm := by
  have he : takeTrap s b g pc t = enterHandler (noteHandler (trapRecord s b g pc t) b t.cause) b g h t.fm := by
    rcases takeTrap_cases s b g pc t with ⟨hm', -⟩ | ⟨-, ⟨c, hc, -⟩ | ⟨hc, -⟩ | ⟨h', hc, e⟩⟩
    · rw [hm] at hm'; cases hm'
    · rw [hh] at hc; cases hc
    · rw [hh] at hc; cases hc
    · rw [hh] at hc
      cases hc
      rw [e, if_neg]
      simp only [List.any_eq_true, mem_lanesOf, decide_eq_true_eq, not_exists, not_and, not_le]
      exact fun L hL => hlap L hL.1 hL.2
  refine ⟨he, ?_⟩
  rw [he]
  unfold tableRead
  rw [hm]
  simp only [Bool.false_eq_true, if_false]
  have hu := (upd_trapRecord s b g pc t).noteHandler b t.cause
  refine (entered_enterHandler _ b g h t.fm).of_alike (hu.landing b h) ?_ fun L => ?_
  · rw [group_noteHandler, group_noteHandler, live_trapRecord]
  · obtain ⟨va, hva⟩ := lane_trapRecord s b g pc t L
    rw [group_noteHandler, group_noteHandler, hva]
    exact ⟨rfl, rfl, rfl⟩

theorem live_enterHandler (s : State) (b g h : Nat) (fm : Mask) : ((enterHandler s b g h fm).group b g).live = (s.group b g).live := by
  rw [(handed_enterHandler s b g h fm).rest]

/-- Settles O12: the record of a trap, and the entry into its handler. -/
theorem trapEntry : Obligations.TrapEntry := by
  intro s b g pc h t hm hh hlap u
  obtain ⟨he, hent⟩ := entered_takeTrap (pc := pc) hm hh hlap
  obtain ⟨rec, hmem, hhost⟩ := takeTrap_record s b g pc t
  refine ⟨hent, rec.cause, rec.pc, rec.fm, rec.cm, rec.regs, ?_, hmem, hhost⟩
  show ((takeTrap s b g pc t).group b g).live = _
  rw [he, live_enterHandler, group_noteHandler, live_trapRecord]

/-! ## The trap table -/

theorem div_four_mul (x : Nat) : x / 4 * 4 = x - x % 4 := by omega

theorem mem_dedup (xs : List Nat) (x : Nat) : x ∈ dedup xs ↔ x ∈ xs := by
  have aux : ∀ (xs acc : List Nat), x ∈ xs.foldl (fun acc x => if acc.contains x then acc else acc ++ [x]) acc ↔ x ∈ acc ∨ x ∈ xs := by
    intro xs
    induction xs with
    | nil => simp
    | cons y ys ih =>
      intro acc
      rw [List.foldl_cons, ih]
      by_cases hy : acc.contains y = true
      · rw [if_pos hy]
        have : y ∈ acc := List.contains_iff_mem.1 hy
        simp only [List.mem_cons]
        constructor
        · rintro (h | h)
          exacts [.inl h, .inr (.inr h)]
        · rintro (h | rfl | h)
          exacts [.inl h, .inl this, .inr h]
      · rw [if_neg hy]
        simp [or_assoc]
  unfold dedup
  rw [aux]
  simp

/-- The STOP fields that a stop of block b's context gives it (R265). -/
def stopBy (s : State) (b g c d pc : Nat) : StopInfo where
  cause := c
  detail := d
  pc := w64 pc
  lcore := (s.block b).lcore
  grp := g
  core := if (s.block b).resident then (s.block b).core else 0xFFFF

/-- The STOP fields of a context that stops, and the gangs to save (R265). -/
theorem context_stopContext (s : State) (b g c d pc : Nat) (hs : (s.context (s.block b).ctx).stop = none) :
    ((stopContext s b g c d pc).context (s.block b).ctx).stop = some (stopBy s b g c d pc) ∧
    ∀ k ∈ tkeys s.blocks, (s.block k).ctx = (s.block b).ctx → (s.block k).resident = true →
      (s.block k).gangSeq ∈ ((stopContext s b g c d pc).context (s.block b).ctx).saving := by
  have hc : (stopContext s b g c d pc).context (s.block b).ctx = { s.context (s.block b).ctx with
      stop := some (stopBy s b g c d pc)
      saving := dedup ((s.context (s.block b).ctx).saving ++ dedup ((tkeys s.blocks).filterMap fun j =>
        if (s.block j).ctx = (s.block b).ctx ∧ (s.block j).resident then some (s.block j).gangSeq else none)) } := by
    unfold stopContext
    dsimp only [State.context, modCtx]
    rw [tget_tmod_self]
    have : (tget {} s.ctxs (s.block b).ctx).stop = none := hs
    rw [this]
    rfl
  refine ⟨by rw [hc], fun k hk hctx hr => ?_⟩
  rw [hc]
  simp only [mem_dedup, List.mem_append, List.mem_filterMap]
  exact .inr ⟨k, hk, by rw [if_pos ⟨hctx, hr⟩]⟩

/-- Every listed group of the context has stopped (R265). -/
theorem stopped_stopContext (s : State) (b g c d pc k j : Nat) (hk : (s.block k).ctx = (s.block b).ctx)
    (hj : j ∈ tkeys ((stopContext s b g c d pc).block k).groups) : ((stopContext s b g c d pc).group k j).stopped = true := by
  have hb : (stopContext s b g c d pc).block k = if k ∈ tkeys s.blocks then
      { s.block k with groups := tmapv (fun r : Group => { r with stopped := true }) (s.block k).groups } else {} := by
    unfold stopContext State.block
    dsimp only [modCtx]
    rw [tget_tmapv_mem]
    refine if_congr .rfl ?_ rfl
    have hk' : (tget {} s.blocks k).ctx = (tget {} s.blocks b).ctx := hk
    rw [if_pos hk']
  rw [hb] at hj
  split_ifs at hj with h
  · rw [group_stopContext, if_pos ⟨h, hk, by simpa [tmapv, tkeys] using hj⟩]
  · cases hj

/-- Settles O13: the entries of the trap table, and what a trap does with them. -/
theorem trapTable : Obligations.TrapTable := by
  intro s b g pc t base find word u stops
  have hstop : ∀ c d, (s.context (s.block b).ctx).stop = none → takeTrap s b g pc t = stopContext (noteHandler (trapRecord s b g pc t) b t.cause) b g c d pc →
      stops c := fun c d hs e => by
    have hb : ∀ k, (noteHandler (trapRecord s b g pc t) b t.cause).context k = s.context k := fun k => by rw [context_noteHandler]; rfl
    have hk : ((noteHandler (trapRecord s b g pc t) b t.cause).block b).ctx = (s.block b).ctx := by
      rw [block_noteHandler, (upd_trapRecord s b g pc t).blockCtx]
    obtain ⟨h1, -⟩ := context_stopContext (noteHandler (trapRecord s b g pc t) b t.cause) b g c d pc (by rw [hk, hb]; exact hs)
    rw [hk] at h1
    exact ⟨_, (congrArg (fun v : State => (v.context (s.block b).ctx).stop) e).trans h1, rfl⟩
  refine ⟨fun cause _ => ⟨fun h0 => ?_, fun f h0 hf => ?_, fun x h0 hx hw => ?_, fun x f h0 hx hw hf => ?_, fun x y h0 hx hw hy => ?_⟩, fun hm hs => ⟨fun h hh hl => ?_, fun hh => ?_, fun c hh => ?_⟩⟩
  · unfold handlerOf; exact if_pos h0
  · unfold handlerOf; simp only [base, find] at h0 hf; simp only [h0, if_false, hf]
  · unfold handlerOf; simp only [base, find, word] at h0 hx hw; simp only [h0, if_false, hx, hw, if_true, word, div_four_mul]
  · unfold handlerOf; simp only [base, find, word] at h0 hx hw hf; simp only [h0, if_false, hx, hw, Nat.zero_ne_one, hf]
  · unfold handlerOf; simp only [base, find, word] at h0 hx hw hy; simp only [h0, if_false, hx, hw, Nat.zero_ne_one, hy, word, div_four_mul]
  · exact (entered_takeTrap hm hh hl).2
  · rcases takeTrap_cases s b g pc t with ⟨hm', -⟩ | ⟨-, ⟨c, hc, -⟩ | ⟨-, e⟩ | ⟨h', hc, -⟩⟩
    · rw [hm] at hm'; cases hm'
    · rw [hh] at hc; cases hc
    · exact hstop _ _ hs e
    · rw [hh] at hc; cases hc
  · rcases takeTrap_cases s b g pc t with ⟨hm', -⟩ | ⟨-, ⟨c', hc, e⟩ | ⟨hc, -⟩ | ⟨h', hc, -⟩⟩
    · rw [hm] at hm'; cases hm'
    · rw [hh] at hc; cases hc; exact hstop _ _ hs e
    · rw [hh] at hc; cases hc
    · rw [hh] at hc; cases hc

/-! ## Unhandled traps -/

/-- A trap without a handler stops its context on its own cause, from the state that the record and the reads of the table leave. -/
theorem takeTrap_unhandled {s : State} {b g pc : Nat} {t : TrapReq} (h : (s.group b g).trapMode = true ∨ handlerOf s b t.cause = .ok none) :
    ∃ r, takeTrap s b g pc t = stopContext r b g t.cause t.detail pc ∧ (∀ k, r.context k = s.context k) ∧ Upd (tableRead s b g t.cause) r b g := by
  have hu := upd_trapRecord s b g pc t
  unfold tableRead
  rcases takeTrap_cases s b g pc t with ⟨hm, e⟩ | ⟨hm, ⟨c, hc, -⟩ | ⟨-, e⟩ | ⟨h', hc, -⟩⟩
  · exact ⟨_, e, fun _ => rfl, by rw [if_pos hm]; exact hu⟩
  · rw [hm, hc] at h; simp at h
  · exact ⟨_, e, fun k => by rw [context_noteHandler]; rfl, by rw [if_neg (by simp [hm])]; exact hu.noteHandler b t.cause⟩
  · rw [hm, hc] at h; simp at h

theorem block_tableRead (s : State) (b g cause k : Nat) : (tableRead s b g cause).block k = s.block k := by
  unfold tableRead; split_ifs <;> simp

/-- Settles O14: the record, and the stop of every group of the context. -/
theorem unhandledTrap : Obligations.UnhandledTrap := by
  intro s b g pc t h u c
  obtain ⟨rec, hmem, hhost⟩ := takeTrap_record s b g pc t
  obtain ⟨r, e, hctx, hu⟩ := takeTrap_unhandled (pc := pc) h
  have hblk : ∀ k, { r.block k with groups := [] } = { s.block k with groups := [] } := fun k => by rw [hu.block, block_tableRead]
  have hk : ∀ k, (r.block k).ctx = (s.block k).ctx := fun k => by simpa using congrArg Block.ctx (hblk k)
  have hres : ∀ k, (r.block k).resident = (s.block k).resident := fun k => by simpa using congrArg Block.resident (hblk k)
  have hseq : ∀ k, (r.block k).gangSeq = (s.block k).gangSeq := fun k => by simpa using congrArg Block.gangSeq (hblk k)
  refine ⟨rec.cause, rec.pc, fun hs => ?_, fun k j _ hkc hj => ?_, hmem, hhost⟩
  · obtain ⟨h1, h2⟩ := context_stopContext r b g t.cause t.detail pc (by rw [hctx, hk]; exact hs)
    have hc : c = (stopContext r b g t.cause t.detail pc).context (r.block b).ctx := by rw [hk]; exact congrArg (fun v : State => v.context (s.block b).ctx) e
    refine ⟨?_, fun k _ hkc hkr => ?_⟩
    · rw [hc, h1, stopBy, hres b, show (r.block b).lcore = (s.block b).lcore by simpa using congrArg Block.lcore (hblk b),
        show (r.block b).core = (s.block b).core by simpa using congrArg Block.core (hblk b)]
    · have hin : k ∈ tkeys r.blocks := by
        by_contra hn
        rw [← hres, State.block, tget_absent _ _ _ hn] at hkr
        cases hkr
      rw [hc, ← hseq]
      exact h2 k hin (by rw [hk, hk, hkc]) (by rw [hres, hkr])
  · have hj' : j ∈ tkeys ((stopContext r b g t.cause t.detail pc).block k).groups := by rw [← e]; exact hj
    show ((takeTrap s b g pc t).group k j).stopped = true
    rw [e]
    exact stopped_stopContext r b g _ _ _ k j (by rw [hk, hk, hkc]) hj'

end Sys2Proof.Machine
end

section
/-! PROOF. Where the lanes of a group are left once a word has gone on (R132, R133, R399). -/

set_option Elab.async false

namespace Sys2Proof.Machine

/-- The lane is not parked at a REJOIN, nor at a cross-lane word that no exit has released it from. -/
def Lane.still (l : Lane) : Prop := l.park.cause ≠ 5 ∧ (l.park.cause = 9 → l.park.released = true)

theorem Lane.still_of_ready {l : Lane} (h : l.waits = false) : l.still := by
  simp only [Lane.waits, pkCross, Bool.and_eq_false_iff, bne_eq_false_iff_eq, Bool.not_eq_false', Bool.and_eq_true, beq_iff_eq] at h
  rcases h with h | ⟨h, hr⟩
  · exact ⟨by omega, fun h9 => by omega⟩
  · exact ⟨by omega, fun _ => hr⟩

theorem Lane.still_of_cause {l : Lane} (h : l.park.cause ≠ 5) (h9 : l.park.cause ≠ 9) : l.still := ⟨h, fun e => absurd e h9⟩

/-- Every lane that stands still is as it was. -/
def KeepsStill (q r : Group) : Prop := ∀ L, (q.lane L).still → r.lane L = q.lane L

theorem KeepsStill.refl (q : Group) : KeepsStill q q := fun _ _ => rfl
theorem KeepsStill.trans {q r u : Group} (h : KeepsStill q r) (k : KeepsStill r u) : KeepsStill q u := fun L hL => by
  rw [k L (by rw [h L hL]; exact hL), h L hL]

theorem KeepsStill.foldl {b g : Nat} {α : Type} (f : State → α → State) (hf : ∀ s x, KeepsStill (s.group b g) ((f s x).group b g)) (xs : List α) (s : State) :
    KeepsStill (s.group b g) ((xs.foldl f s).group b g) := by
  induction xs generalizing s with
  | nil => exact .refl _
  | cons x xs ih => exact (hf s x).trans (ih _)

theorem keepsStill_mapLanes (q : Group) (m : Mask) (f : Nat → Lane → Lane) (h : ∀ L, inMask m L = true → ¬(q.lane L).still) : KeepsStill q (q.mapLanes m f) :=
  fun L hL => by rw [lane_mapLanes, if_neg fun c => h L c.2 hL]

theorem keepsStill_rejoinRelease (s : State) (b g : Nat) : KeepsStill (s.group b g) ((rejoinRelease s b g).group b g) := by
  unfold rejoinRelease
  refine KeepsStill.foldl _ (fun s pc => ?_) _ _
  dsimp only
  split_ifs
  · exact .refl _
  · rw [group_modGroup_self]
    refine keepsStill_mapLanes _ _ _ fun L hL hs => hs.1 ?_
    simp only [inMask_maskOf, Bool.and_eq_true] at hL
    exact parked_parkedAt _ _ _ L hL.2.1

theorem keepsStill_crossRelease (s : State) (b g : Nat) : KeepsStill (s.group b g) ((crossRelease s b g).group b g) := by
  unfold crossRelease
  refine KeepsStill.foldl _ (fun s pc => ?_) _ _
  dsimp only
  split_ifs
  · exact .refl _
  · rw [group_modGroup_self]
    refine keepsStill_mapLanes _ _ _ fun L hL hs => ?_
    simp only [inMask_maskOf, Bool.and_eq_true, Bool.not_eq_true'] at hL
    rw [hs.2 (parked_parkedAt _ _ _ L hL.2.1.1)] at hL
    exact absurd hL.2.1.2 (by simp)

theorem keepsStill_releaseLanes (s : State) (b g : Nat) : KeepsStill (s.group b g) ((releaseLanes s b g).group b g) :=
  (keepsStill_rejoinRelease s b g).trans (keepsStill_crossRelease _ b g)

/-- From t a group has had the tests that follow an issue, which leave u: a lane that stands still keeps all but its LAP, which is less
by 2^31 in every live lane where the smallest reached it (R132). -/
structure Rested (t u : State) (b g : Nat) : Prop where
  upd     : Upd t u b g
  settled : Settled (t.group b g) (u.group b g)
  lanes   : ∃ d, (d = 0 ∨ d = 2 ^ 31) ∧ ∀ L, ((t.group b g).lane L).still →
    (u.group b g).lane L = { (t.group b g).lane L with lap := ((u.group b g).lane L).lap } ∧
    (L < 32 → inMask (t.group b g).live L = true → ((u.group b g).lane L).lap + d = ((t.group b g).lane L).lap)

theorem rested_renormalise (s : State) (b g : Nat) : Rested s (renormalise s b g) b g := by
  refine ⟨(follows_renormalise s b g).1, (follows_renormalise s b g).2, lapFall (s.group b g) fun L => ((s.group b g).lane L).lap, ?_, fun L _ => ⟨?_, fun h32 hL => ?_⟩⟩
  · unfold lapFall; split_ifs <;> simp
  · rw [lane_renormalise]
  · rw [lane_renormalise, if_pos ⟨h32, hL⟩]
    refine Nat.sub_add_cancel ?_
    unfold lapFall
    split_ifs with hc
    · exact hc.2 L h32 hL
    · exact Nat.zero_le _

theorem Rested.after {s t u : State} {b g : Nat} (h : Rested t u b g) (f : Follows s t b g) (k : KeepsStill (s.group b g) (t.group b g)) : Rested s u b g := by
  obtain ⟨d, hd, hl⟩ := h.lanes
  refine ⟨f.1.trans h.upd, f.2.trans h.settled, d, hd, fun L hL => ?_⟩
  have := hl L (by rw [k L hL]; exact hL)
  rw [k L hL, show (t.group b g).live = (s.group b g).live by rw [f.2.rest]] at this
  exact this

theorem keepsStill_noteIssue (s : State) (i : Iss) (op stall : Nat) (y : Bool) : KeepsStill (s.group i.b i.g) ((noteIssue s i op stall y).group i.b i.g) := by
  unfold noteIssue
  dsimp only
  rw [group_modGroup_self, group_modCore]
  exact fun _ _ => rfl

theorem rested_afterIssue (s : State) (b g : Nat) (h : rteWaits (s.group b g)) : Rested s (afterIssue s b g) b g := by
  unfold afterIssue
  dsimp only
  have h1 := follows_releaseLanes s b g
  rw [finishRte_waits _ _ _ (h1.2.rteWaits h)]
  have h2 := follows_sweepSlots (releaseLanes (releaseLanes s b g) b g) b g
  have k2 : KeepsStill ((releaseLanes (releaseLanes s b g) b g).group b g) ((modGroup (releaseLanes (releaseLanes s b g) b g) b g Group.sweepSlots).group b g) := by
    rw [group_modGroup_self]; exact fun _ _ => rfl
  exact (rested_renormalise _ b g).after ((h1.trans (follows_releaseLanes _ b g)).trans h2)
    (((keepsStill_releaseLanes s b g).trans (keepsStill_releaseLanes _ b g)).trans k2)

/-- Where a word goes on, and the group is not at the end of trap mode. -/
theorem rested_conclude {s t : State} {i : Iss} (h : rteWaits (t.group i.b i.g)) (op stall : Nat) (y : Bool) :
    Rested t (conclude s i op stall y (.next t)) i.b i.g :=
  have f := follows_noteIssue t i op stall y
  (rested_afterIssue _ i.b i.g (f.2.rteWaits h)).after f (keepsStill_noteIssue t i op stall y)

section rested
variable {t u : State} {b g : Nat} (h : Rested t u b g)
include h

theorem Rested.regsKept : RegsKept (t.group b g) (u.group b g) := h.settled.regsKept
theorem Rested.alike : RegsAlike (t.group b g) (u.group b g) := h.settled.regsAlike

/-- A lane that stands still keeps its address and its parking. -/
theorem Rested.still {L : Nat} (hL : ((t.group b g).lane L).still) :
    ((u.group b g).lane L).lpc = ((t.group b g).lane L).lpc ∧ ((u.group b g).lane L).park = ((t.group b g).lane L).park := by
  obtain ⟨d, -, hl⟩ := h.lanes
  rw [(hl L hL).1]
  exact ⟨rfl, rfl⟩

end rested

/-- What exec leaves of a word that issues and goes on. -/
theorem rested_of {op : Nat} {w : Insn} {bump : State → Iss → Mask} {s t : State} {i : Iss} (h : Issues op w bump s i) {body : State → Iss → Res}
    (hb : body s i = .next t) (ht : SameMode (s.group i.b i.g) (t.group i.b i.g)) : Rested t (runWord op w s bump body) i.b i.g := by
  rw [runWord_issues h, hb]
  exact rested_conclude (h.waits.congr ht) ..

/-- From q to r only lanes of the group differ. -/
def LanesOnly (q r : Group) : Prop := r = { q with lanes := r.lanes }

theorem LanesOnly.refl (q : Group) : LanesOnly q q := rfl
theorem LanesOnly.trans {q r u : Group} (h : LanesOnly q r) (k : LanesOnly r u) : LanesOnly q u := by
  unfold LanesOnly at *; rw [k, h]

theorem LanesOnly.foldl {b g : Nat} {α : Type} (f : State → α → State) (hf : ∀ s x, LanesOnly (s.group b g) ((f s x).group b g)) (xs : List α) (s : State) :
    LanesOnly (s.group b g) ((xs.foldl f s).group b g) := by
  induction xs generalizing s with
  | nil => exact .refl _
  | cons x xs ih => exact (hf s x).trans (ih _)

theorem lanesOnly_mapLanes (s : State) (b g : Nat) (m : Group → Mask) (f : Nat → Lane → Lane) :
    LanesOnly (s.group b g) ((modGroup s b g fun q => q.mapLanes (m q) f).group b g) := by rw [group_modGroup_self]; rfl

theorem lanesOnly_rejoinRelease (s : State) (b g : Nat) : LanesOnly (s.group b g) ((rejoinRelease s b g).group b g) := by
  unfold rejoinRelease
  refine LanesOnly.foldl _ (fun s pc => ?_) _ _
  dsimp only
  split_ifs
  · exact .refl _
  · exact lanesOnly_mapLanes ..

theorem lanesOnly_crossRelease (s : State) (b g : Nat) : LanesOnly (s.group b g) ((crossRelease s b g).group b g) := by
  unfold crossRelease
  refine LanesOnly.foldl _ (fun s pc => ?_) _ _
  dsimp only
  split_ifs
  · exact .refl _
  · exact lanesOnly_mapLanes ..

theorem lanesOnly_releaseLanes (s : State) (b g : Nat) : LanesOnly (s.group b g) ((releaseLanes s b g).group b g) :=
  (lanesOnly_rejoinRelease s b g).trans (lanesOnly_crossRelease _ b g)

theorem lanesOnly_renormalise (s : State) (b g : Nat) : LanesOnly (s.group b g) ((renormalise s b g).group b g) := by
  unfold renormalise
  dsimp only
  split_ifs
  · exact .refl _
  · exact lanesOnly_mapLanes ..

/-- The record of the issue stands but for lanes and truth slots. -/
theorem issued_afterIssue (s : State) (b g : Nat) (h : rteWaits (s.group b g)) :
    (afterIssue s b g).group b g = { s.group b g with lanes := ((afterIssue s b g).group b g).lanes, slots := ((afterIssue s b g).group b g).slots } := by
  unfold afterIssue
  dsimp only
  rw [finishRte_waits _ _ _ ((follows_releaseLanes s b g).2.rteWaits h)]
  have k1 := (lanesOnly_releaseLanes s b g).trans (lanesOnly_releaseLanes (releaseLanes s b g) b g)
  have k2 := lanesOnly_renormalise (modGroup (releaseLanes (releaseLanes s b g) b g) b g Group.sweepSlots) b g
  rw [group_modGroup_self, Group.sweepSlots] at k2
  unfold LanesOnly at k1 k2
  rw [k2, k1]

theorem issued_conclude {s t : State} {i : Iss} (h : rteWaits (t.group i.b i.g)) (op stall : Nat) (y : Bool) :
    let u := conclude s i op stall y (.next t)
    u.group i.b i.g = { (noteIssue t i op stall y).group i.b i.g with lanes := (u.group i.b i.g).lanes, slots := (u.group i.b i.g).slots } :=
  issued_afterIssue _ i.b i.g ((follows_noteIssue t i op stall y).2.rteWaits h)

end Sys2Proof.Machine
end

section
/-! PROOF. Transfers of control (R132, R340, R341, R346). -/

set_option Elab.async false

namespace Sys2Proof.Machine

/-! ## Sets of lanes -/

theorem mask_ext {a b : Mask} (h : ∀ L, L < 32 → inMask a L = inMask b L) : a = b := BitVec.eq_of_getLsbD_eq h

theorem maskOf_eq_zero {f : Nat → Bool} (h : ∀ L, L < 32 → f L = false) : maskOf f = 0 := mask_ext fun L hL => by
  rw [inMask_maskOf, h L hL]; simp [inMask]

/-! ## Words that move lanes and write registers -/

/-- From q to r a group's registers, slots and lanes may differ; of a lane only LPC, LAP and parking. -/
structure Shifted (q r : Group) : Prop where
  rest  : r = { q with regs := r.regs, rguess := r.rguess, preds := r.preds, pguess := r.pguess, sregs := r.sregs, slots := r.slots, prods := r.prods
                       lastW := r.lastW, lanes := r.lanes }
  lanes : ∀ L, SameLane (q.lane L) (r.lane L)

theorem Shifted.trans {q r u : Group} (h : Shifted q r) (k : Shifted r u) : Shifted q u where
  rest := by rw [k.rest, h.rest]
  lanes := fun L => by
    have h1 := h.lanes L
    have h2 := k.lanes L
    unfold SameLane at *
    rw [h2, h1]

theorem Untouched.shifted {q r : Group} (h : Untouched q r) : Shifted q r := ⟨by rw [h.rest], fun L => by rw [h.lane]; rfl⟩

theorem shifted_mapLanes (q : Group) (m : Mask) (f : Nat → Lane → Lane) (hf : ∀ L l, SameLane l (f L l)) : Shifted q (q.mapLanes m f) :=
  ⟨rfl, fun L => by rw [lane_mapLanes]; split_ifs; exacts [hf .., rfl]⟩

theorem Shifted.sameMode {q r : Group} (h : Shifted q r) : SameMode q r := by rw [h.rest]; exact ⟨rfl, rfl, rfl, rfl⟩
theorem Shifted.live {q r : Group} (h : Shifted q r) : r.live = q.live := by rw [h.rest]

theorem Rested.sameTraps {t u : State} {b g : Nat} {q : Group} (h : Rested t u b g) (k : Shifted q (t.group b g)) : SameTraps q (u.group b g) := by
  refine sameTraps_of ?_ fun L => ?_
  · rw [h.settled.rest, k.rest]
  · have h1 := k.lanes L
    have h2 := h.settled.spec L
    unfold SameLane at *
    rw [h2, h1]

/-- A word that goes on after it has moved lanes and written the registers ds changes nothing else. -/
theorem Rested.quiet {s t u : State} {i : Iss} {ds : List (Ty × Opd)} (h : Rested t u i.b i.g) (hu : Upd s t i.b i.g)
    (k : Shifted (s.group i.b i.g) (t.group i.b i.g)) (hr : SameRegs (s.group i.b i.g) (t.group i.b i.g) ds i.ex i.gg) : Quiet s i ds u :=
  ⟨(hu.trans h.upd).sameElse, h.sameTraps k, hr.alike h.alike⟩

/-- Lanes that do not wait once a word has moved them stand where it left them. -/
theorem Rested.standAt {s t u : State} {i : Iss} {m : Mask} {f : Nat → Nat} (h : Rested t u i.b i.g)
    (hl : ∀ L, L < 32 → inMask m L = true → (laneAt t i L).lpc = w64 (landing s i.b (f L)) ∧ (laneAt t i L).still) : StandAt s u i m f :=
  fun L hL hm => (h.still (hl L hL hm).2).1.trans (hl L hL hm).1

theorem laneAt_advance (s : State) (i : Iss) (m : Mask) (L : Nat) : laneAt (advance s i m) i L =
    if L < 32 ∧ inMask m L = true then { laneAt s i L with lpc := w64 (landing s i.b (i.pc + i.len)) } else laneAt s i L :=
  follows_advance_lanes ..

/-- What LAP rises by in a lane that has moved without waiting. -/
theorem Rested.lapRises {s t u : State} {i : Iss} {f : Nat → Nat} (h : Rested t u i.b i.g) (k : Shifted (s.group i.b i.g) (t.group i.b i.g))
    (hs : Standing s i) (hl : ∀ L, L < 32 → inMask i.iss L = true → (laneAt t i L).still ∧ (laneAt t i L).lap = (laneAt s i L).lap + f L) :
    LapRises s u i f := by
  obtain ⟨d, hd, hr⟩ := h.lanes
  refine ⟨d, hd, fun L hL hm => ?_⟩
  rw [← (hl L hL hm).2]
  exact (hr L (hl L hL hm).1).2 hL (by rw [k.live]; exact (hs.lanes L hm).2.1)

/-! ## Transfers -/

theorem group_transferTo (s : State) (i : Iss) (m : Mask) (target : Nat → Nat) : (transferTo s i m target).group i.b i.g =
    (s.group i.b i.g).mapLanes m fun L l => l.transfer (landing s i.b (target L)) := by
  unfold transferTo; rw [group_modGroup_self]

theorem upd_transferTo (s : State) (i : Iss) (m : Mask) (target : Nat → Nat) : Upd s (transferTo s i m target) i.b i.g := upd_modGroup ..

theorem shifted_advance (s : State) (i : Iss) (m : Mask) : Shifted (s.group i.b i.g) ((advance s i m).group i.b i.g) := by
  rw [group_advance]; exact shifted_mapLanes _ _ _ fun _ _ => rfl

theorem shifted_transferTo (s : State) (i : Iss) (m : Mask) (target : Nat → Nat) : Shifted (s.group i.b i.g) ((transferTo s i m target).group i.b i.g) := by
  rw [group_transferTo]; exact shifted_mapLanes _ _ _ fun _ _ => rfl

/-- What a transfer makes of the state: the lanes outside fall through, D is linked, and the lanes of `go` are at their targets. -/
def transferred (s : State) (i : Iss) (go : Mask) (target : Nat → Nat) (link : State → Iss → Mask → State) : State :=
  transferTo (link (advance s i (i.iss &&& ~~~i.ex)) i go) i go target

theorem ex_of_withGuard {op : Nat} {w : Insn} {bump : State → Iss → Mask} {s : State} {i : Iss} (h : Issues op w bump s i) {L : Nat}
    (hL : inMask i.ex L = true) : inMask i.iss L = true := by
  obtain ⟨j, -, -, -, -, -, -, rfl, -⟩ := h
  simp only [withGuard, inMask_maskOf, Bool.and_eq_true] at hL
  exact hL.2.1

section transferred
variable {op : Nat} {w : Insn} {bump : State → Iss → Mask} {s : State} {i : Iss} (h : Issues op w bump s i) {go : Mask} {target : Nat → Nat}
  {link : State → Iss → Mask → State} (hgo : ∀ L, inMask go L = true → inMask i.ex L = true)
  (hu : Upd (advance s i (i.iss &&& ~~~i.ex)) (link (advance s i (i.iss &&& ~~~i.ex)) i go) i.b i.g)
  (hw : Untouched ((advance s i (i.iss &&& ~~~i.ex)).group i.b i.g) ((link (advance s i (i.iss &&& ~~~i.ex)) i go).group i.b i.g))
include hu

theorem upd_transferred : Upd s (transferred s i go target link) i.b i.g := ((upd_advance ..).trans hu).trans (upd_transferTo ..)

include hw

omit hu in
theorem shifted_transferred : Shifted (s.group i.b i.g) ((transferred s i go target link).group i.b i.g) :=
  ((shifted_advance ..).trans hw.shifted).trans (shifted_transferTo ..)

include hgo

theorem laneAt_transferred (L : Nat) (hL : L < 32) : laneAt (transferred s i go target link) i L =
    if inMask go L = true then (laneAt s i L).transfer (landing s i.b (target L))
    else if inMask i.iss L = true ∧ inMask i.ex L = false then { laneAt s i L with lpc := w64 (landing s i.b (i.pc + i.len)) } else laneAt s i L := by
  have hx : inMask (i.iss &&& ~~~i.ex) L = (inMask i.iss L && !inMask i.ex L) := by rw [inMask_and, inMask_not _ hL]
  unfold transferred laneAt
  rw [group_transferTo, lane_mapLanes, hu.landing, (upd_advance ..).landing, hw.lane, follows_advance_lanes, hx]
  by_cases hg : inMask go L = true
  · rw [if_pos ⟨hL, hg⟩, if_pos hg, if_neg]
    simp [hgo L hg]
  · rw [if_neg (fun c => hg c.2), if_neg hg]
    refine if_congr ?_ rfl rfl
    simp [hL]

include h

theorem ready_transferred (L : Nat) (hm : inMask i.iss L = true) : (laneAt (transferred s i go target link) i L).still := by
  obtain ⟨hL, -, -, hr⟩ := h.standing.lanes L hm
  rw [laneAt_transferred hgo hu hw L hL]
  have : (laneAt s i L).still := Lane.still_of_ready hr
  split_ifs
  · exact this
  · exact this
  · exact this

end transferred

/-- Where no guess stands against it and every target is good, a transfer takes the executing lanes there. -/
theorem jumpWord_good {op : Nat} {w : Insn} {s : State} {i : Iss} {target : State → Iss → Nat → Nat} {tgt : List (Opd × Nat)}
    {link : State → Iss → Mask → State} (h : Issues op w (backward target) s i)
    (ho : ∀ L, L < 32 → inMask i.ex L = true → (inMask i.gg L = true → underBound s i L = true) ∧ (tgt.all fun o => !guessOf s i o.1 o.2 L) = true ∧
      target s i L < 2 ^ 48 ∧ target s i L % 4 = 0) :
    jumpWord op w s target tgt link = conclude s i op w.stall.toNat (w.y == 1) (.next (transferred s i i.ex (target s i) link)) := by
  have hf : ∀ L, L < 32 → inMask i.ex L = true → targetFault (target s i L) = none := fun L hL hx => by
    obtain ⟨-, -, h1, h2⟩ := ho L hL hx
    unfold targetFault
    rw [if_neg (by omega), if_neg (by omega)]
  unfold jumpWord
  rw [runWord_issues h]
  dsimp only
  rw [if_neg, show (maskOf fun L => inMask i.ex L && (targetFault (target s i L)).isNone) = i.ex from ?_]
  · rw [show laneFaults i.ex (fun L => targetFault (target s i L)) (target s i) = none from ?_]
    · rfl
    · unfold laneFaults
      rw [show (lanesOf i.ex).filter (fun L => (targetFault (target s i L)).isSome) = [] from ?_]
      rw [List.filter_eq_nil_iff]
      intro L hL
      rw [hf L ((mem_lanesOf _ L).1 hL).1 ((mem_lanesOf _ L).1 hL).2]
      simp
  · refine mask_ext fun L hL => ?_
    rw [inMask_maskOf]
    cases hx : inMask i.ex L
    · simp
    · simp [hL, hf L hL hx]
  · rw [ne_eq, not_not]
    refine maskOf_eq_zero fun L hL => ?_
    cases hx : inMask i.ex L
    · rfl
    · obtain ⟨h1, h2, -⟩ := ho L hL hx
      rw [List.all_eq_true] at h2
      have h3 : (tgt.any fun o => guessOf s i o.1 o.2 L) = false := by
        rw [List.any_eq_false]; intro o ho'; simpa using h2 o ho'
      rw [h3]
      cases hg : inMask i.gg L
      · rfl
      · rw [h1 hg]; rfl

/-- What a transfer leaves, all of whose targets are good. -/
theorem jumpWord_goes {op : Nat} {w : Insn} {s : State} {i : Iss} {target : State → Iss → Nat → Nat} {tgt : List (Opd × Nat)}
    {link : State → Iss → Mask → State} {ds : List (Ty × Opd)} (h : Issues op w (backward target) s i)
    (ho : ∀ L, L < 32 → inMask i.ex L = true → (inMask i.gg L = true → underBound s i L = true) ∧ (tgt.all fun o => !guessOf s i o.1 o.2 L) = true ∧
      target s i L < 2 ^ 48 ∧ target s i L % 4 = 0)
    (hp : Puts (advance s i (i.iss &&& ~~~i.ex)) (link (advance s i (i.iss &&& ~~~i.ex)) i i.ex) i ds) :
    let u := jumpWord op w s target tgt link
    Quiet s i ds u ∧ OthersFall s i u ∧ StandAt s u i i.ex (target s i) ∧
      (LapRises s u i fun L => if inMask i.ex L && decide (landing s i.b (target s i L) ≤ i.pc) then 1 else 0) ∧
      RegsAlike ((link (advance s i (i.iss &&& ~~~i.ex)) i i.ex).group i.b i.g) (u.group i.b i.g) := by
  intro u
  have hu : u = _ := jumpWord_good (link := link) h ho
  set t := transferred s i i.ex (target s i) link with ht
  have hsh : Shifted (s.group i.b i.g) (t.group i.b i.g) := shifted_transferred hp.wrote.un
  have hr : Rested t u i.b i.g := by rw [hu]; exact rested_conclude (h.standing.waits.congr hsh.sameMode) ..
  have hl : ∀ L, L < 32 → laneAt t i L = _ := laneAt_transferred (target := target s i) (fun _ hx => hx) hp.upd hp.wrote.un
  have hst : ∀ L, inMask i.iss L = true → (laneAt t i L).still := ready_transferred h (fun _ hx => hx) hp.upd hp.wrote.un
  have k1 : RegsAlike (s.group i.b i.g) ((advance s i (i.iss &&& ~~~i.ex)).group i.b i.g) := by
    rw [group_advance]; exact RegsKept.alike ⟨rfl, rfl, rfl, rfl, rfl⟩
  have k2 : RegsAlike ((link (advance s i (i.iss &&& ~~~i.ex)) i i.ex).group i.b i.g) (t.group i.b i.g) := by
    rw [ht, transferred, group_transferTo]; exact RegsKept.alike ⟨rfl, rfl, rfl, rfl, rfl⟩
  refine ⟨hr.quiet (upd_transferred hp.upd) hsh (((k1.sameRegs [] i.ex i.gg).trans hp.wrote.regs).alike k2), hr.standAt fun L hL hm => ?_,
    hr.standAt fun L hL hm => ?_, hr.lapRises hsh h.standing fun L hL hm => ⟨hst L hm, ?_⟩, k2.trans hr.alike⟩
  · rw [inMask_and, inMask_not _ hL, Bool.and_eq_true, Bool.not_eq_true'] at hm
    refine ⟨?_, hst L hm.1⟩
    rw [hl L hL, if_neg (by simp [hm.2]), if_pos hm]
  · refine ⟨?_, hst L (ex_of_withGuard h hm)⟩
    rw [hl L hL, if_pos hm]; rfl
  · rw [hl L hL]
    by_cases hx : inMask i.ex L = true
    · rw [if_pos hx, Lane.transfer, show (laneAt s i L).lpc.toNat = i.pc from (h.standing.lanes L hm).2.2.1]
      simp only [hx, Bool.true_and, decide_eq_true_eq]
      split_ifs <;> rfl
    · rw [if_neg hx, if_pos ⟨hm, by simpa using hx⟩]
      simp [hx]

/-! ## Bad targets -/

theorem foldl_min_spec (g : Nat → Nat) (xs : List Nat) (a : Nat) : let c := xs.foldl (fun acc k => min acc (g k)) a
    c ≤ a ∧ (∀ k ∈ xs, c ≤ g k) ∧ (c = a ∨ ∃ k ∈ xs, c = g k) := by
  induction xs generalizing a with
  | nil => simp
  | cons x xs ih =>
    obtain ⟨h1, h2, h3⟩ := ih (min a (g x))
    simp only [List.foldl_cons, List.mem_cons, forall_eq_or_imp, exists_eq_or_imp]
    refine ⟨h1.trans (min_le_left ..), ⟨h1.trans (min_le_right ..), h2⟩, ?_⟩
    rcases h3 with h3 | h3
    · rcases Nat.le_total a (g x) with hl | hl
      · rw [min_eq_left hl] at h3; exact .inl (by simpa [min_eq_left hl] using h3)
      · rw [min_eq_right hl] at h3; exact .inr (.inl (by simpa [min_eq_right hl] using h3))
    · exact .inr (.inr h3)

/-- The faults of lanes as a trap: the lowest code decides (R258). -/
theorem laneFaults_some {m : Mask} {f : Nat → Option Nat} {va : Nat → Nat} (h : ∃ L, L < 32 ∧ inMask m L = true ∧ (f L).isSome = true) :
    ∃ c vs, laneFaults m f va = some { cause := c, fm := maskOf fun k => inMask m k && (f k).isSome, cm := maskOf fun k => inMask m k && f k == some c, va := vs } ∧
      (∃ L, L < 32 ∧ inMask m L = true ∧ f L = some c) ∧ ∀ L d, L < 32 → inMask m L = true → f L = some d → c ≤ d := by
  obtain ⟨L0, h32, hm0, hf0⟩ := h
  have hmem : ∀ k, k ∈ (lanesOf m).filter (fun L => (f L).isSome) ↔ k < 32 ∧ inMask m k = true ∧ (f k).isSome = true := fun k => by
    rw [List.mem_filter, mem_lanesOf, and_assoc]
  unfold laneFaults
  dsimp only
  rcases hbad : (lanesOf m).filter (fun L => (f L).isSome) with _ | ⟨L, bad⟩
  · have := (hmem L0).2 ⟨h32, hm0, hf0⟩
    rw [hbad] at this; cases this
  · obtain ⟨h1, h2, h3⟩ := foldl_min_spec (fun k => (f k).getD 255) (L :: bad) ((f L).getD 255)
    rw [hbad] at hmem
    refine ⟨_, _, rfl, ?_, fun k d hk hm hd => ?_⟩
    · have : ∃ k ∈ L :: bad, (L :: bad).foldl (fun acc k => min acc ((f k).getD 255)) ((f L).getD 255) = (f k).getD 255 := by
        rcases h3 with h3 | h3
        · exact ⟨L, List.mem_cons_self, h3⟩
        · exact h3
      obtain ⟨k, hk, he⟩ := this
      obtain ⟨a1, a2, a3⟩ := (hmem k).1 hk
      obtain ⟨d, hd⟩ := Option.isSome_iff_exists.1 a3
      exact ⟨k, a1, a2, by rw [he, hd]; rfl⟩
    · have := h2 k ((hmem k).2 ⟨hk, hm, by rw [hd]; rfl⟩)
      rwa [hd] at this

/-- Lanes that a trap does not name stay where they stood. -/
theorem lane_takeTrap_rest (s : State) (b g pc : Nat) (t : TrapReq) (L : Nat) (hL : L < 32) (hm : inMask t.fm L = false) :
    ((( takeTrap s b g pc t).group b g).lane L).lpc = ((s.group b g).lane L).lpc := by
  have hr : ∀ v : State, v.group b g = (trapRecord s b g pc t).group b g → ((v.group b g).lane L).lpc = ((s.group b g).lane L).lpc := fun v e => by
    obtain ⟨va, hva⟩ := lane_trapRecord s b g pc t L
    rw [e, hva]
  have hs : ∀ (v : State) c d, v.group b g = (trapRecord s b g pc t).group b g →
      (((stopContext v b g c d pc).group b g).lane L).lpc = ((s.group b g).lane L).lpc := fun v c d e => by
    rw [group_stopContext]
    split_ifs
    · exact hr v e
    · exact hr v e
  have hn := group_noteHandler (trapRecord s b g pc t) b t.cause b g
  rcases takeTrap_cases s b g pc t with ⟨-, e⟩ | ⟨-, ⟨c, -, e⟩ | ⟨-, e⟩ | ⟨h, -, e⟩⟩ <;> rw [e]
  · exact hs _ _ _ rfl
  · exact hs _ _ _ hn
  · exact hs _ _ _ hn
  · split_ifs
    · exact hs _ _ _ hn
    · rw [((entered_enterHandler _ b g h t.fm).rest L hL hm).1]
      exact hr _ hn

theorem targetFault_isSome (t : Nat) : (targetFault t).isSome = (decide (2 ^ 48 ≤ t) || decide (t % 4 ≠ 0)) := by
  unfold targetFault; split_ifs <;> simp_all

theorem targetFault_cases {t c : Nat} (h : targetFault t = some c) : c = 6 ∧ 2 ^ 48 ≤ t ∨ c = 7 ∧ t < 2 ^ 48 ∧ t % 4 ≠ 0 := by
  unfold targetFault at h
  split_ifs at h with h1 h2
  · exact .inl ⟨(Option.some.inj h).symm, h1⟩
  · exact .inr ⟨(Option.some.inj h).symm, by omega, h2⟩

theorem targetFault_six (t : Nat) : (targetFault t == some 6) = decide (2 ^ 48 ≤ t) := by
  unfold targetFault; split_ifs <;> simp_all

/-- A transfer with bad targets goes on in the lanes with valid ones, and traps the others (R258). -/
theorem jumpWord_bad {op : Nat} {w : Insn} {s : State} {i : Iss} {target : State → Iss → Nat → Nat} {tgt : List (Opd × Nat)}
    {link : State → Iss → Mask → State} (h : Issues op w (backward target) s i) (hp : Plain tgt s i)
    (hb : ∃ L, L < 32 ∧ inMask i.ex L = true ∧ (targetFault (target s i L)).isSome = true) :
    let t := transferred s i (maskOf fun L => inMask i.ex L && (targetFault (target s i L)).isNone) (target s i) link
    ∃ c vs, jumpWord op w s target tgt link = takeTrap (noteIssue t i op w.stall.toNat (w.y == 1)) i.b i.g i.pc
      { cause := c, fm := maskOf fun L => inMask i.ex L && (targetFault (target s i L)).isSome
        cm := maskOf fun L => inMask i.ex L && targetFault (target s i L) == some c, va := vs } ∧
      (∃ L, L < 32 ∧ inMask i.ex L = true ∧ targetFault (target s i L) = some c) ∧
      ∀ L d, L < 32 → inMask i.ex L = true → targetFault (target s i L) = some d → c ≤ d := by
  obtain ⟨c, vs, he, hx, hle⟩ := laneFaults_some (va := target s i) hb
  refine ⟨c, vs, ?_, hx, hle⟩
  unfold jumpWord
  rw [runWord_issues h]
  dsimp only
  rw [if_neg, he]
  · rfl
  · rw [ne_eq, not_not]
    refine maskOf_eq_zero fun L hL => ?_
    have hz : inMask (escapes s i true tgt) L = false := by rw [hp]; simp [inMask]
    rw [escapes, inMask_maskOf] at hz
    revert hz
    cases inMask i.ex L <;> cases inMask i.gg L <;> cases underBound s i L <;> simp [hL]

/-- Settles O10: good targets by `jumpWord_goes`; a bad one is a partial trap, ADDRESS before MISALIGN. -/
theorem transfers : Obligations.Transfers := by
  refine ⟨fun w => ⟨fun s i h ho => ⟨_, rfl, ?_⟩, fun s i h ho => ⟨_, rfl, ?_⟩, fun s i h ho => ⟨_, rfl, ?_⟩, fun s i h ho => ⟨_, rfl, ?_⟩⟩,
    fun w s i h hc => ⟨_, rfl, ?_⟩⟩
  · obtain ⟨h1, h2, h3, h4, -⟩ := jumpWord_goes (link := noLink) h ho (.refl ..)
    exact ⟨h1, h2, h3, h4⟩
  · obtain ⟨h1, h2, h3, h4, -⟩ := jumpWord_goes (link := noLink) h ho (.refl ..)
    exact ⟨h1, h2, h3, h4⟩
  · obtain ⟨h1, h2, h3, h4, h5⟩ := jumpWord_goes (tgt := [])
      (link := fun s i m => putD s i 4 .b64 (opD w) m (fun _ => i.pc + 12) fun L => inMask i.gg L) h ho (puts_putD ..)
    exact ⟨⟨h1, h2, h3, h4⟩, fun L hL hx => (gets_putD _ _ _ _ _ _ _ hL hx id).alike h5⟩
  · obtain ⟨h1, h2, h3, h4, -⟩ := jumpWord_goes (link := noLink) h ho (.refl ..)
    exact ⟨h1, h2, h3, h4⟩
  · obtain ⟨hp, hm, L0, hL0, hx0, hb0⟩ := hc
    obtain ⟨c, vs, he, ⟨L1, hL1, hx1, hf1⟩, hle⟩ := jumpWord_bad (link := noLink) h hp ⟨L0, hL0, hx0, (targetFault_isSome _).trans hb0⟩
    set go := maskOf fun L => inMask i.ex L && (targetFault (regTarget w s i L)).isNone with hgo
    set t := transferred s i go (regTarget w s i) noLink with ht
    set v := noteIssue t i 0x21 w.stall.toNat (w.y == 1) with hv
    have f : Follows t v i.b i.g := follows_noteIssue ..
    have hsub : ∀ L, inMask go L = true → inMask i.ex L = true := fun L hL => by
      rw [hgo, inMask_maskOf, Bool.and_eq_true, Bool.and_eq_true] at hL; exact hL.2.1
    have hsh : Shifted (s.group i.b i.g) (t.group i.b i.g) := shifted_transferred (.refl _)
    have hu : Upd s v i.b i.g := (upd_transferred (.refl ..)).trans f.1
    have hmode : (v.group i.b i.g).trapMode = (s.group i.b i.g).trapMode := by rw [f.2.rest, hsh.rest]
    have hmem := fun c => (tableRead_memories hu hmode c).1
    obtain ⟨rec, hm', -⟩ := takeTrap_record v i.b i.g i.pc { cause := c, fm := maskOf fun L => inMask i.ex L && (targetFault (regTarget w s i L)).isSome, cm := maskOf fun L => inMask i.ex L && targetFault (regTarget w s i L) == some c, va := vs }
    have hk : RegsKept (s.group i.b i.g) (v.group i.b i.g) := by
      refine RegsKept.trans ?_ f.2.regsKept
      rw [ht, transferred, group_transferTo, noLink, group_advance]; exact ⟨rfl, rfl, rfl, rfl, rfl⟩
    have hfm : (maskOf fun L => inMask i.ex L && (targetFault (regTarget w s i L)).isSome) =
        maskOf fun L => inMask i.ex L && (decide (2 ^ 48 ≤ regTarget w s i L) || decide (regTarget w s i L % 4 ≠ 0)) := by
      simp only [targetFault_isSome]
    rw [← he] at rec hm'
    refine ⟨rec.fm.trans hfm, rec.pc, ?_, hk.trans rec.regs, fun L hL hx hb => ?_⟩
    · by_cases hf : lanes32.any (fun L => inMask i.ex L && decide (2 ^ 48 ≤ regTarget w s i L)) = true
      · have hc6 : c = 6 := by
          simp only [List.any_eq_true, lanes32, List.mem_range, Bool.and_eq_true, decide_eq_true_eq] at hf
          obtain ⟨L, hL, hx, hfar⟩ := hf
          have := hle L 6 hL hx (by simpa using (targetFault_six _).trans (decide_eq_true hfar))
          rcases targetFault_cases hf1 with ⟨e, -⟩ | ⟨e, -⟩ <;> omega
        subst hc6
        refine (if_pos hf).mpr ⟨rec.cause_eq rfl (Nat.zero_lt_succ _), ?_, hm'.trans (hmem 6)⟩
        simp only [rec.cm, targetFault_six]
        rfl
      · have hfar : ∀ L, L < 32 → inMask i.ex L = true → ¬2 ^ 48 ≤ regTarget w s i L := fun L hL hx hn => hf <| by
          simp only [List.any_eq_true, lanes32, List.mem_range, Bool.and_eq_true, decide_eq_true_eq]
          exact ⟨L, hL, hx, hn⟩
        have hc7 : c = 7 := by
          rcases targetFault_cases hf1 with ⟨-, hn⟩ | ⟨e, -⟩
          exacts [absurd hn (hfar L1 hL1 hx1), e]
        subst hc7
        refine (if_neg hf).mpr ⟨rec.cause_eq rfl (Nat.zero_lt_succ _), ?_, hm'.trans (hmem 7)⟩
        rw [rec.cm]
        refine mask_ext fun L hL => ?_
        rw [inMask_maskOf, inMask_maskOf]
        cases hx : inMask i.ex L
        · rfl
        · have := hfar L hL hx
          simp only [targetFault, hL, decide_true, Bool.true_and, if_neg this, show decide (2 ^ 48 ≤ srcA .b64 w s i L) = false from decide_eq_false this, Bool.false_or]
          show _ = decide (regTarget w s i L % 4 ≠ 0)
          split_ifs with h4 <;> simp [h4]
    · have hfaulted : inMask (maskOf fun L => inMask i.ex L && (targetFault (regTarget w s i L)).isSome) L = false := by
        rw [hfm, inMask_maskOf]
        simp only [show (decide (2 ^ 48 ≤ regTarget w s i L) || decide (regTarget w s i L % 4 ≠ 0)) = false from hb, Bool.and_false]
      have hg : inMask go L = true := by
        rw [hgo, inMask_maskOf]
        have hb' : (targetFault (regTarget w s i L)).isSome = false := (targetFault_isSome _).trans hb
        rw [hx, Option.not_isSome_iff_eq_none.1 (Bool.eq_false_iff.1 hb')]
        simp [hL]
      have hl : laneAt t i L = _ := laneAt_transferred (link := noLink) (target := regTarget w s i) hsub (.refl ..) (.refl _) L hL
      rw [if_pos hg] at hl
      have hw : (laneAt t i L).waits = false := by
        rw [hl]; exact (h.standing.lanes L (ex_of_withGuard h hx)).2.2.2
      rw [laneAt, he]
      refine (lane_takeTrap_rest _ _ _ _ _ L hL hfaulted).trans ?_
      rw [f.2.lane L hw]
      exact congrArg Lane.lpc hl

end Sys2Proof.Machine
end

section
/-! PROOF. What the tests of barrier objects leave alone (R388–R391), and the ends of trap mode (R428). -/

set_option Elab.async false

namespace Sys2Proof.Machine

/-! ## Groups that keep registers, mode and the lanes that do not wait -/

/-- From q to r a group keeps its registers, its trap mode, LIVE, and every lane outside m. -/
structure Touches (m : Nat → Prop) (q r : Group) : Prop where
  regs  : RegsKept q r
  mode  : SameMode q r
  lanes : ∀ L, ¬m L → r.lane L = q.lane L

theorem Touches.refl (m : Nat → Prop) (q : Group) : Touches m q q := ⟨.refl q, ⟨rfl, rfl, rfl, rfl⟩, fun _ _ => rfl⟩

theorem SameMode.trans {q r u : Group} (h : SameMode q r) (k : SameMode r u) : SameMode q u := by
  obtain ⟨h1, h2, h3, h4⟩ := h; obtain ⟨k1, k2, k3, k4⟩ := k
  exact ⟨k1.trans h1, k2.trans h2, k3.trans h3, k4.trans h4⟩

theorem Touches.trans {m : Nat → Prop} {q r u : Group} (h : Touches m q r) (k : Touches m r u) : Touches m q u :=
  ⟨h.regs.trans k.regs, h.mode.trans k.mode, fun L hL => (k.lanes L hL).trans (h.lanes L hL)⟩

theorem Touches.mono {m n : Nat → Prop} {q r : Group} (h : Touches m q r) (hm : ∀ L, m L → n L) : Touches n q r :=
  ⟨h.regs, h.mode, fun L hL => h.lanes L fun c => hL (hm L c)⟩

theorem touches_mapLanes (q : Group) (m : Mask) (f : Nat → Lane → Lane) : Touches (fun L => inMask m L = true) q (q.mapLanes m f) :=
  ⟨⟨rfl, rfl, rfl, rfl, rfl⟩, ⟨rfl, rfl, rfl, rfl⟩, fun L hL => by rw [lane_mapLanes, if_neg fun c => hL c.2]⟩

/-- The lane waits in q. -/
def waitsIn (q : Group) (L : Nat) : Prop := (q.lane L).waits = true

/-- From s to t no byte of memory differs, and every group keeps its registers, its mode and its lanes that do not wait. -/
structure Calm (s t : State) : Prop where
  mem    : t.mem = s.mem
  host   : t.hostMem = s.hostMem
  groups : ∀ k j, Touches (waitsIn (s.group k j)) (s.group k j) (t.group k j)

theorem Calm.refl (s : State) : Calm s s := ⟨rfl, rfl, fun _ _ => .refl ..⟩

theorem Calm.trans {s t u : State} (h : Calm s t) (k : Calm t u) : Calm s u where
  mem := k.mem.trans h.mem
  host := k.host.trans h.host
  groups := fun x y => by
    have h1 := h.groups x y
    have h2 := k.groups x y
    refine ⟨h1.regs.trans h2.regs, h1.mode.trans h2.mode, fun L hL => ?_⟩
    have e := h1.lanes L hL
    rw [h2.lanes L (by unfold waitsIn; rw [e]; exact hL), e]

theorem Calm.foldl {α : Type} (f : State → α → State) (hf : ∀ s x, Calm s (f s x)) (xs : List α) (s : State) : Calm s (xs.foldl f s) := by
  induction xs generalizing s with
  | nil => exact .refl s
  | cons x xs ih => exact (hf s x).trans (ih _)

/-- The groups of a state are those of another, and so is memory. -/
theorem calm_same {s t : State} (hm : t.mem = s.mem) (hh : t.hostMem = s.hostMem) (hg : ∀ k j, t.group k j = s.group k j) : Calm s t :=
  ⟨hm, hh, fun k j => by rw [hg]; exact .refl ..⟩

theorem touches_pendTrap (m : Nat → Prop) (q : Group) (p : PendTrap) : Touches m q (q.pendTrap p) := by
  unfold Group.pendTrap
  dsimp only
  split_ifs <;> exact ⟨⟨rfl, rfl, rfl, rfl, rfl⟩, ⟨rfl, rfl, rfl, rfl⟩, fun _ _ => rfl⟩

/-- A change of group g of block b that touches only lanes of m. -/
structure TouchesAt (m : Nat → Prop) (b g : Nat) (s t : State) : Prop where
  mem   : t.mem = s.mem
  host  : t.hostMem = s.hostMem
  group : Touches m (s.group b g) (t.group b g)
  rest  : ∀ k j, ¬(k = b ∧ j = g) → t.group k j = s.group k j

theorem TouchesAt.refl (m : Nat → Prop) (b g : Nat) (s : State) : TouchesAt m b g s s := ⟨rfl, rfl, .refl .., fun _ _ _ => rfl⟩
theorem TouchesAt.trans {m : Nat → Prop} {b g : Nat} {s t u : State} (h : TouchesAt m b g s t) (k : TouchesAt m b g t u) : TouchesAt m b g s u :=
  ⟨k.mem.trans h.mem, k.host.trans h.host, h.group.trans k.group, fun x y n => (k.rest x y n).trans (h.rest x y n)⟩
theorem TouchesAt.foldl {m : Nat → Prop} {b g : Nat} {α : Type} (f : State → α → State) (xs : List α) (hf : ∀ s, ∀ x ∈ xs, TouchesAt m b g s (f s x))
    (s : State) : TouchesAt m b g s (xs.foldl f s) := by
  induction xs generalizing s with
  | nil => exact .refl ..
  | cons x xs ih => exact (hf s x List.mem_cons_self).trans (ih (fun s y hy => hf s y (List.mem_cons_of_mem _ hy)) _)

theorem touchesAt_modGroup {m : Nat → Prop} {b g : Nat} (s : State) (f : Group → Group) (h : Touches m (s.group b g) (f (s.group b g))) :
    TouchesAt m b g s (modGroup s b g f) := ⟨rfl, rfl, by rw [group_modGroup_self]; exact h, group_modGroup_ne s b g f⟩

/-- A change of lanes of one group, all of which wait, is calm. -/
theorem TouchesAt.calm {m : Nat → Prop} {b g : Nat} {s t : State} (h : TouchesAt m b g s t) (hw : ∀ L, m L → waitsIn (s.group b g) L) : Calm s t := by
  refine ⟨h.mem, h.host, fun k j => ?_⟩
  by_cases hk : k = b ∧ j = g
  · obtain ⟨rfl, rfl⟩ := hk; exact h.group.mono hw
  · rw [h.rest k j hk]; exact .refl ..

theorem touchesAt_owe (m : Nat → Prop) (s : State) (o : BarrierObj) (p : W32) (b g : Nat) (x : Mask) : TouchesAt m b g s (owe s o p b g x) := by
  unfold owe
  split_ifs
  · split
    · exact touchesAt_modGroup _ _ (touches_pendTrap ..)
    · exact .refl ..
  · exact .refl ..

theorem lane_setLane (q : Group) (L k : Nat) (f : Lane → Lane) :
    { q with lanes := tmod {} q.lanes L f }.lane k = if k = L then f (q.lane L) else q.lane k := tget_tmod ({} : Lane) q.lanes L k f

theorem touchesAt_acquireFrom {m : Nat → Prop} (s : State) (b g L : Nat) (hL : m L) : TouchesAt m b g s (acquireFrom s b g L) := by
  refine touchesAt_modGroup _ _ ⟨⟨rfl, rfl, rfl, rfl, rfl⟩, ⟨rfl, rfl, rfl, rfl⟩, fun k hk => ?_⟩
  rw [lane_setLane, if_neg fun c : k = L => hk (c ▸ hL)]

theorem touchesAt_unparkNext {n : Nat → Prop} (s : State) (b g : Nat) (m : Mask) (len : Nat) (hm : ∀ L, inMask m L = true → n L) :
    TouchesAt n b g s (unparkNext s b g m len) := touchesAt_modGroup _ _ ((touches_mapLanes ..).mono hm)

/-- The lanes of a group that a release of an object takes. -/
def waitersAt (s : State) (b g : Nat) (mine : Park → Bool) : Mask := maskOf fun L =>
  let l := (s.group b g).lane L
  !(s.group b g).stopped && inMask (s.group b g).live L && l.refuted.isNone && mine l.park

/-- Releases of waits on an object touch only lanes that wait on it. -/
theorem calm_releaseWaiters (s : State) (h k : Nat) : Calm s (releaseWaiters s h k) := by
  unfold releaseWaiters
  dsimp only
  set o := s.obj h k
  refine Calm.foldl _ (fun v e => ?_) _ _
  refine TouchesAt.calm (m := fun L => inMask (waitersAt v e.2.1 e.2.2 fun p => (p.cause == pkBari || p.cause == pkBarw) &&
      objOf s e.2.1 p.detail == some (h, k) && (if p.cause = pkBari then o.phase != p.x.setWidth 32 else phaseDone o.phase (p.x.setWidth 32))) L = true)
    (b := e.2.1) (g := e.2.2) (TouchesAt.foldl _ _ (fun x key _ => ?_) _) fun L hL => ?_
  · refine ((touchesAt_unparkNext _ _ _ _ _ fun L hL => ?_).trans (TouchesAt.foldl _ _ (fun y L hL => touchesAt_acquireFrom _ _ _ _ ?_) _)).trans (touchesAt_owe ..)
    · rw [inMask_maskOf, Bool.and_eq_true, Bool.and_eq_true] at hL; exact hL.2.1
    · rw [mem_lanesOf, inMask_maskOf, Bool.and_eq_true, Bool.and_eq_true] at hL; exact hL.2.2.1
  · rw [waitersAt, inMask_maskOf] at hL
    simp only [Bool.and_eq_true, Bool.or_eq_true, beq_iff_eq] at hL
    obtain ⟨-, -, ⟨hc, -⟩, -⟩ := hL
    rcases hc with hc | hc <;> simp [waitsIn, Lane.waits, hc, pkBari, pkBarw, pkCross]

theorem calm_modBlock (s : State) (b : Nat) (f : Block → Block) (hf : (f (s.block b)).groups = (s.block b).groups) : Calm s (modBlock s b f) :=
  calm_same rfl rfl fun k j => by rw [group_modBlock]; split_ifs with h <;> simp [h, hf, State.group]

theorem calm_phaseUp (s : State) (h k : Nat) (f : BarrierObj → BarrierObj) : Calm s (phaseUp s h k f) :=
  ((calm_modBlock _ _ _ rfl).trans (calm_modBlock _ _ _ rfl)).trans (calm_releaseWaiters ..)

theorem calm_objTest (s : State) (h k : Nat) : Calm s (objTest s h k) := by
  unfold objTest
  dsimp only
  split_ifs
  · exact calm_phaseUp ..
  · exact .refl s
  · exact calm_phaseUp ..
  · exact .refl s

theorem calm_objTestAll (s : State) (b : Nat) : Calm s (objTestAll s b) := by
  unfold objTestAll
  exact Calm.foldl _ (fun _ _ => Calm.foldl _ (fun _ _ => calm_objTest ..) _ _) _ _

/-! ## What keeps the registers and LIVE of every group -/

/-- Every group keeps its registers and its live lanes. -/
structure KeptAll (s t : State) : Prop where
  regs : ∀ k j, RegsKept (s.group k j) (t.group k j)
  live : ∀ k j, (t.group k j).live = (s.group k j).live

theorem KeptAll.refl (s : State) : KeptAll s s := ⟨fun _ _ => .refl _, fun _ _ => rfl⟩
theorem KeptAll.trans {s t u : State} (h : KeptAll s t) (k : KeptAll t u) : KeptAll s u :=
  ⟨fun x y => (h.regs x y).trans (k.regs x y), fun x y => (k.live x y).trans (h.live x y)⟩

theorem Calm.keptAll {s t : State} (h : Calm s t) : KeptAll s t := ⟨fun k j => (h.groups k j).regs, fun k j => (h.groups k j).mode.2.2.1⟩

theorem Upd.keptAll {s t : State} {b g : Nat} (h : Upd s t b g) (hr : RegsKept (s.group b g) (t.group b g)) (hl : (t.group b g).live = (s.group b g).live) :
    KeptAll s t := by
  have key : ∀ k j, RegsKept (s.group k j) (t.group k j) ∧ (t.group k j).live = (s.group k j).live := fun k j => by
    by_cases hk : k = b ∧ j = g
    · obtain ⟨rfl, rfl⟩ := hk; exact ⟨hr, hl⟩
    · rw [h.group k j hk]; exact ⟨.refl _, rfl⟩
  exact ⟨fun k j => (key k j).1, fun k j => (key k j).2⟩

theorem Follows.keptAll {s t : State} {b g : Nat} (h : Follows s t b g) : KeptAll s t := h.1.keptAll h.2.regsKept (by rw [h.2.rest])

theorem keptAll_same {s t : State} (h : ∀ k j, t.group k j = s.group k j) : KeptAll s t :=
  ⟨fun k j => by rw [h]; exact .refl _, fun k j => by rw [h]⟩

theorem keptAll_modGroup (s : State) (b g : Nat) (f : Group → Group) (hr : RegsKept (s.group b g) (f (s.group b g)))
    (hl : (f (s.group b g)).live = (s.group b g).live) : KeptAll s (modGroup s b g f) :=
  (upd_modGroup s b g f).keptAll (by rw [group_modGroup_self]; exact hr) (by rw [group_modGroup_self]; exact hl)

theorem keptAll_stopContext (s : State) (b g c d pc : Nat) : KeptAll s (stopContext s b g c d pc) :=
  ⟨fun k j => (handed_stopContext s b g c d pc k j).regsKept, fun k j => by rw [(handed_stopContext s b g c d pc k j).rest]⟩

theorem keptAll_enterHandler (s : State) (b g h : Nat) (fm : Mask) : KeptAll s (enterHandler s b g h fm) := by
  have h0 : KeptAll s (dropWaits s b g) := keptAll_same fun k j => group_dropWaits ..
  exact (h0.trans (keptAll_modGroup _ b g _ ⟨rfl, rfl, rfl, rfl, rfl⟩ rfl)).trans (follows_renormalise _ b g).keptAll

theorem keptAll_trapRecord (s : State) (b g pc : Nat) (t : TrapReq) : KeptAll s (trapRecord s b g pc t) :=
  (upd_trapRecord s b g pc t).keptAll (recorded_trapRecord s b g pc t).regs (live_trapRecord s b g pc t)

theorem keptAll_takeTrap (s : State) (b g pc : Nat) (t : TrapReq) : KeptAll s (takeTrap s b g pc t) := by
  have h1 := keptAll_trapRecord s b g pc t
  have h2 : KeptAll s (noteHandler (trapRecord s b g pc t) b t.cause) := h1.trans (keptAll_same fun k j => group_noteHandler ..)
  rcases takeTrap_cases s b g pc t with ⟨-, e⟩ | ⟨-, ⟨c, -, e⟩ | ⟨-, e⟩ | ⟨h, -, e⟩⟩ <;> rw [e]
  · exact h1.trans (keptAll_stopContext ..)
  · exact h2.trans (keptAll_stopContext ..)
  · exact h2.trans (keptAll_stopContext ..)
  · split_ifs
    · exact h2.trans (keptAll_stopContext ..)
    · exact h2.trans (keptAll_enterHandler ..)

theorem devNum_blocks (s : State) (a n x : Nat) : (devNum s a n x).blocks = s.blocks := by
  have := devNum_rest s s.blocks s.cores a n x
  change devNum s a n x = _ at this
  rw [this]

theorem raiseInt_blocks (s : State) (p n : Nat) : (raiseInt s p n).blocks = s.blocks := by unfold raiseInt; dsimp only; split_ifs <;> rfl

theorem drainRing_blocks (s : State) (p : Nat) : (drainRing s p).blocks = s.blocks := by
  unfold drainRing
  dsimp only
  generalize (s.part p).ringWait = xs
  generalize 2 ^ ((s.part p).ringSize + 8) = n
  induction xs generalizing s with
  | nil => rfl
  | cons x xs ih =>
    rw [List.foldl_cons, ih]
    split_ifs
    · rfl
    · simp only [modPart_blocks, devNum_blocks]

theorem faultEntry_blocks (s : State) (p va f l c g : Nat) : (faultEntry s p va f l c g).2.blocks = s.blocks := by
  unfold faultEntry
  dsimp only
  rw [raiseInt_blocks, drainRing_blocks]
  rfl

theorem faultEntries_blocks {α β : Type} (f : State → α → Nat × State) (e : Nat → α → β) (hf : ∀ s x, (f s x).2.blocks = s.blocks) (xs : List α) (p : State × List β) :
    (xs.foldl (fun (p : State × List β) x => ((f p.1 x).2, p.2 ++ [e (f p.1 x).1 x])) p).1.blocks = p.1.blocks := by
  induction xs generalizing p with
  | nil => rfl
  | cons x xs ih => rw [List.foldl_cons, ih]; exact hf ..

theorem keptAll_parkGroup (s : State) (b g pc : Nat) (fm : Mask) (acc : Acc) (pages : List (Nat × Mask)) (va : List (Nat × Nat)) :
    KeptAll s (parkGroup s b g pc fm acc pages va) := by
  unfold parkGroup
  dsimp only
  split_ifs
  · exact keptAll_takeTrap ..
  · set r := pages.foldl _ (s, []) with hr
    have hb : r.1.blocks = s.blocks := faultEntries_blocks
      (fun t (p : Nat × Mask) => faultEntry t (s.context (s.block b).ctx).part p.1 (accCode acc) (s.block b).lcore (s.context (s.block b).ctx).chan g)
      (fun id p => ({ id := id, page := p.1, lanes := p.2, va := va.filter fun x => inMask p.2 x.1 } : FaultId)) (fun _ _ => faultEntry_blocks ..) pages (s, [])
    refine (keptAll_same (t := r.1) fun k j => ?_).trans (keptAll_modGroup _ _ _ _ ?_ ?_)
    · simp only [State.group, State.block, hb]
    · split_ifs <;> exact ⟨rfl, rfl, rfl, rfl, rfl⟩
    · split_ifs <;> rfl

theorem keptAll_finishRte (s : State) (b g : Nat) : KeptAll s (finishRte s b g) := by
  have hn : KeptAll s (noteRte s b g) := by
    unfold noteRte; dsimp only; split
    · exact keptAll_same fun k j => group_noteXl ..
    · exact .refl s
  unfold finishRte
  dsimp only
  split_ifs
  · exact .refl s
  · exact keptAll_takeTrap ..
  · exact keptAll_modGroup _ _ _ _ ⟨rfl, rfl, rfl, rfl, rfl⟩ rfl
  · exact keptAll_takeTrap ..
  · split
    · split_ifs
      · exact keptAll_takeTrap ..
      · exact hn.trans (keptAll_modGroup _ _ _ _ ⟨rfl, rfl, rfl, rfl, rfl⟩ rfl)
    · refine KeptAll.trans ?_ (keptAll_parkGroup ..)
      exact keptAll_modGroup _ _ _ _ ⟨rfl, rfl, rfl, rfl, rfl⟩ rfl
    · exact keptAll_takeTrap ..

theorem keptAll_afterIssue (s : State) (b g : Nat) : KeptAll s (afterIssue s b g) := by
  unfold afterIssue
  exact ((((follows_releaseLanes s b g).keptAll.trans (keptAll_finishRte ..)).trans (follows_releaseLanes _ b g).keptAll).trans
    (follows_sweepSlots _ b g).keptAll).trans (follows_renormalise _ b g).keptAll

end Sys2Proof.Machine
end

section
/-! PROOF. Lanes that stay, wait and leave: EXIT, YIELD, NOP, REJOIN and IPOP (R115, R118, R129, R133, R342–R345). -/

set_option Elab.async false

namespace Sys2Proof.Machine

theorem guardEscape_plain {s : State} {i : Iss} (h : Plain [] s i) (k : Unit → Res) : guardEscape s i k = k () := by
  unfold guardEscape; exact if_neg (not_not.2 h)

/-- In trap mode a lane of the issue set is one of the handler set that has not executed RTE (R131, R263). -/
theorem Standing.handler {s : State} {i : Iss} (h : Standing s i) (ht : (s.group i.b i.g).trapMode = true) (L : Nat) (hL : inMask i.iss L = true) :
    inMask (s.group i.b i.g).handlerSet L = true ∧ inMask (s.group i.b i.g).rteHeld L = false := by
  obtain ⟨-, he, -⟩ := (issueSet_spec _ _ _ h.set).2 L hL
  simp only [eligible, inMask_maskOf, ht, Bool.not_true, Bool.false_or, Bool.and_eq_true, Bool.not_eq_true'] at he
  exact he.2.2

theorem and_not_or (a l h e : Mask) : a &&& l &&& ~~~(h ||| e) = a &&& (l &&& ~~~e) &&& ~~~h := mask_ext fun L hL => by
  have ho : inMask (h ||| e) L = (inMask h L || inMask e L) := by simp [inMask]
  simp only [inMask_and, inMask_not _ hL, ho]
  cases inMask a L <;> cases inMask h L <;> simp

/-! ## EXIT -/

/-- The state in which an exit makes the tests of barrier objects. -/
def leftLive (s : State) (i : Iss) : State :=
  let a := advance s i (i.iss &&& ~~~i.ex)
  modGroup (modGroup (modCtx a (a.block i.b).ctx fun c => { c with maxCtc := max c.maxCtc (maxOf ((lanesOf i.ex).map fun L => ((a.group i.b i.g).lane L).pct)) })
    i.b i.g fun q => { q with live := q.live &&& ~~~i.ex }) i.b i.g Group.sweepSlots

theorem exitLanes_eq (s : State) (i : Iss) : exitLanes (advance s i (i.iss &&& ~~~i.ex)) i.b i.g i.ex = objTestAll (leftLive s i) i.b := rfl

theorem group_leftLive (s : State) (i : Iss) : (leftLive s i).group i.b i.g =
    { ((s.group i.b i.g).mapLanes (i.iss &&& ~~~i.ex) fun _ l => { l with lpc := w64 (landing s i.b (i.pc + i.len)) }) with
      live := (s.group i.b i.g).live &&& ~~~i.ex, slots := ((leftLive s i).group i.b i.g).slots } := by
  unfold leftLive
  dsimp only
  rw [group_modGroup_self, group_modGroup_self, group_modCtx, group_advance]
  rfl

theorem group_leftLive_ne (s : State) (i : Iss) {k j : Nat} (h : ¬(k = i.b ∧ j = i.g)) : (leftLive s i).group k j = s.group k j := by
  unfold leftLive advance
  dsimp only
  rw [group_modGroup_ne _ _ _ _ _ _ h, group_modGroup_ne _ _ _ _ _ _ h, group_modCtx, group_modGroup_ne _ _ _ _ _ _ h]

theorem laneAt_leftLive (s : State) (i : Iss) {L : Nat} (hL : L < 32) (hm : inMask (i.iss &&& ~~~i.ex) L = true) :
    laneAt (leftLive s i) i L = { laneAt s i L with lpc := w64 (landing s i.b (i.pc + i.len)) } := by
  unfold laneAt
  rw [group_leftLive]
  show ((s.group i.b i.g).mapLanes _ _).lane L = _
  rw [lane_mapLanes, if_pos ⟨hL, hm⟩]

theorem exit_leaves {w : Insn} {s : State} {i : Iss} (h : Issues 0x24 w noBump s i) (hp : Plain [] s i) :
    ∃ u, execExit w s = .next u ∧ (u.group i.b i.g).live = (s.group i.b i.g).live &&& ~~~i.ex ∧ OthersFall s i u ∧
      (∀ k j, RegsKept (s.group k j) (u.group k j)) ∧ (let q := s.group i.b i.g
        q.trapMode = false ∨ q.handlerSet &&& q.live &&& ~~~(q.rteHeld ||| i.ex) ≠ 0 → u.mem = s.mem ∧ u.hostMem = s.hostMem) := by
  refine ⟨_, rfl, ?_⟩
  rw [runWord_issues h, guardEscape_plain hp, exitLanes_eq]
  set v := leftLive s i with hv
  set t := objTestAll v i.b with ht
  set u := conclude s i 0x24 w.stall.toNat (w.y == 1) (.next t) with hu
  have c : Calm v t := calm_objTestAll ..
  have hg := group_leftLive s i
  rw [← hv] at hg
  have hmode := (c.groups i.b i.g).mode
  have f : Follows t (noteIssue t i 0x24 w.stall.toNat (w.y == 1)) i.b i.g := follows_noteIssue ..
  have k2 : KeptAll t u := f.keptAll.trans (keptAll_afterIssue ..)
  have hlive : (v.group i.b i.g).live = (s.group i.b i.g).live &&& ~~~i.ex := by rw [hg]
  refine ⟨?_, fun L hL hm => ?_, fun k j => ?_, fun hc => ?_⟩
  · rw [k2.live, hmode.2.2.1, hlive]
  · have hiss : inMask i.iss L = true ∧ inMask i.ex L = false := by
      rw [inMask_and, inMask_not _ hL, Bool.and_eq_true, Bool.not_eq_true'] at hm; exact hm
    have hready : ((s.group i.b i.g).lane L).waits = false := (h.standing.lanes L hiss.1).2.2.2
    have hlv := laneAt_leftLive s i hL hm
    rw [← hv] at hlv
    have hlt : laneAt t i L = laneAt v i L := (c.groups i.b i.g).lanes L (by unfold waitsIn; rw [show (v.group i.b i.g).lane L = _ from hlv]; exact (Bool.not_eq_true _).mpr hready)
    have hw : rteWaits (t.group i.b i.g) := by
      intro htrap hz
      rw [hmode.1, hg] at htrap
      obtain ⟨hset, hheld⟩ := h.standing.handler htrap L hiss.1
      have : inMask ((t.group i.b i.g).handlerSet &&& (t.group i.b i.g).live &&& ~~~(t.group i.b i.g).rteHeld) L = true := by
        rw [hmode.2.1, hmode.2.2.1, hmode.2.2.2, hlive, hg]
        show inMask ((s.group i.b i.g).handlerSet &&& ((s.group i.b i.g).live &&& ~~~i.ex) &&& ~~~(s.group i.b i.g).rteHeld) L = true
        simp only [inMask_and, inMask_not _ hL, hset, hheld, hiss.2, (h.standing.lanes L hiss.1).2.1, Bool.not_false, Bool.and_self]
      rw [hz] at this
      exact absurd this (by simp [inMask])
    have r : Rested t u i.b i.g := rested_conclude hw ..
    have hs : ((t.group i.b i.g).lane L).still := Lane.still_of_ready (by rw [show (t.group i.b i.g).lane L = _ from hlt.trans hlv]; exact hready)
    exact (r.still hs).1.trans (by rw [show (t.group i.b i.g).lane L = _ from hlt.trans hlv])
  · refine RegsKept.trans ?_ ((c.groups k j).regs.trans (k2.regs k j))
    by_cases hk : k = i.b ∧ j = i.g
    · obtain ⟨rfl, rfl⟩ := hk; rw [hg]; exact ⟨rfl, rfl, rfl, rfl, rfl⟩
    · rw [group_leftLive_ne s i hk]; exact .refl _
  · have hw : rteWaits (t.group i.b i.g) := fun htrap => by
      rw [hmode.1, hg] at htrap
      rw [hmode.2.1, hmode.2.2.1, hmode.2.2.2, hlive, hg]
      show (s.group i.b i.g).handlerSet &&& ((s.group i.b i.g).live &&& ~~~i.ex) &&& ~~~(s.group i.b i.g).rteHeld ≠ 0
      rw [← and_not_or]
      exact hc.resolve_left (by rw [show (s.group i.b i.g).trapMode = true from htrap]; simp)
    have r : Rested t u i.b i.g := rested_conclude hw ..
    exact ⟨r.upd.mem.trans c.mem, r.upd.hostMem.trans c.host⟩

/-! ## YIELD and NOP -/

/-- A word none of whose lanes does anything but go on. -/
theorem idle_word {op : Nat} {w : Insn} {s : State} {i : Iss} (h : Issues op w noBump s i) :
    let u := runWord op w s noBump fun s i => .next (advance s i i.iss)
    Quiet s i [] u ∧ FallsThrough s i u ∧ (u.group i.b i.g).yielded = (w.y == 1) := by
  intro u
  have hc : Completed s s i i.iss u := (Puts.refl s i []).completed h rfl
  refine ⟨hc.quiet (.refl ..), hc.fallsThrough, ?_⟩
  show ((runWord op w s noBump _).group i.b i.g).yielded = _
  rw [runWord_issues h, issued_conclude (h.waits.congr (shifted_advance ..).sameMode)]
  unfold noteIssue
  dsimp only
  rw [group_modGroup_self]

/-- The Y bit is no part of what a YIELD is checked for. -/
theorem Issues.yieldBit {w : Insn} {s : State} {i : Iss} (h : Issues 0x26 w noBump s i) : Issues 0x26 { w with y := 1 } noBump s i := h

/-! ## Lanes taken one by one -/

/-- What holds of the lanes done and the state, and is kept by the next lane, holds when all of a list are done. -/
theorem foldl_invariant {α : Type} {f : State → α → State} {xs : List α} (Inv : List α → State → Prop)
    (step : ∀ done x rest v, xs = done ++ x :: rest → Inv done v → Inv (done ++ [x]) (f v x)) {s : State} (h0 : Inv [] s) : Inv xs (xs.foldl f s) := by
  suffices h : ∀ rest done v, xs = done ++ rest → Inv done v → Inv xs (rest.foldl f v) from h xs [] s rfl h0
  intro rest
  induction rest with
  | nil => intro done v he hi; rw [he, List.append_nil]; exact hi
  | cons x rest ih =>
    intro done v he hi
    exact ih (done ++ [x]) (f v x) (by rw [he]; simp) (step done x rest v he hi)

/-- A lane to come is none of those done. -/
theorem fresh_of_split {m : Mask} {done rest : List Nat} {L : Nat} (h : lanesOf m = done ++ L :: rest) :
    L ∉ done ∧ L < 32 ∧ inMask m L = true ∧ ∀ k ∈ done, k < 32 ∧ inMask m k = true := by
  have hn := nodup_lanesOf m
  have hm : ∀ k, k ∈ lanesOf m ↔ k < 32 ∧ inMask m k = true := mem_lanesOf m
  rw [h] at hn hm
  exact ⟨fun c => (List.nodup_append.1 hn).2.2 L c L List.mem_cons_self rfl, ((hm L).1 (by simp)).1, ((hm L).1 (by simp)).2,
    fun k hk => (hm k).1 (by simp [hk])⟩

/-! ## Lanes that park -/

theorem skipPads_seq (s : State) (n k m va : Nat) : skipPads { s with seq := n } k m va = skipPads s k m va := by
  have hp : ∀ va, peekWord { s with seq := n } k va = peekWord s k va := fun _ => rfl
  induction m generalizing va with
  | zero => rfl
  | succ m ih => unfold skipPads; rw [hp, ih]

theorem landing_seq (s : State) (n k va : Nat) : landing { s with seq := n } k va = landing s k va := skipPads_seq ..

/-- A lane as a word parks it. -/
def parkedLane (s : State) (i : Iss) (l : Lane) (p : Park) (n : Nat) : Lane :=
  { l with park := { p with since := coreCt s i.core, marks := (s.block i.b).marks }, parkOrder := n }

/-- From s to t the lanes of a set have parked, and nothing else differs but the count of parkings. -/
structure Parks (s t : State) (i : Iss) (m : Nat → Prop) (p : Nat → Park) : Prop where
  upd   : Upd { s with seq := t.seq } t i.b i.g
  only  : LanesOnly (s.group i.b i.g) (t.group i.b i.g)
  lanes : ∀ L, m L → ∃ n, laneAt t i L = parkedLane s i (laneAt s i L) (p L) n
  rest  : ∀ L, ¬m L → laneAt t i L = laneAt s i L

theorem Parks.refl (s : State) (i : Iss) (p : Nat → Park) : Parks s s i (fun _ => False) p := ⟨.refl .., rfl, fun _ h => h.elim, fun _ _ => rfl⟩

theorem Parks.mem {s t : State} {i : Iss} {m : Nat → Prop} {p : Nat → Park} (h : Parks s t i m p) : t.mem = s.mem := h.upd.mem
theorem Parks.hostMem {s t : State} {i : Iss} {m : Nat → Prop} {p : Nat → Park} (h : Parks s t i m p) : t.hostMem = s.hostMem := h.upd.hostMem
theorem Parks.landing {s t : State} {i : Iss} {m : Nat → Prop} {p : Nat → Park} (h : Parks s t i m p) (k va : Nat) :
    Machine.landing t k va = Machine.landing s k va := (h.upd.landing k va).trans (landing_seq ..)

theorem laneAt_parkLane (s : State) (i : Iss) (L k : Nat) (p : Park) :
    laneAt (parkLane s i L p) i k = if k = L then parkedLane s i (laneAt s i L) p s.seq else laneAt s i k := by
  unfold parkLane modLane laneAt
  rw [group_modGroup_self]
  exact lane_setLane ..

theorem upd_parkLane (s : State) (i : Iss) (L : Nat) (p : Park) : Upd { s with seq := s.seq + 1 } (parkLane s i L p) i.b i.g := upd_modGroup ..

theorem lanesOnly_parkLane (s : State) (i : Iss) (L : Nat) (p : Park) : LanesOnly (s.group i.b i.g) ((parkLane s i L p).group i.b i.g) := by
  unfold parkLane modLane; rw [group_modGroup_self]; rfl

/-- One more lane parks. -/
theorem Parks.park {s t : State} {i : Iss} {m : Nat → Prop} {p : Nat → Park} (h : Parks s t i m p) {L : Nat} (hL : ¬m L) :
    Parks s (parkLane t i L (p L)) i (fun k => m k ∨ k = L) p := by
  have hs : coreCt t i.core = coreCt s i.core := by
    have := h.upd.rest
    rw [this]; rfl
  have hm : (t.block i.b).marks = (s.block i.b).marks := by
    have := congrArg Block.marks (h.upd.block i.b)
    exact this
  have hq : ∀ l n, parkedLane t i l (p L) n = parkedLane s i l (p L) n := fun l n => by unfold parkedLane; rw [hs, hm]
  have u1 : Upd { s with seq := t.seq + 1 } { t with seq := t.seq + 1 } i.b i.g := by
    obtain ⟨h1, h2, h3, h4⟩ := h.upd
    exact ⟨by rw [h1], h2, h3, h4⟩
  refine ⟨u1.trans (upd_parkLane t i L (p L)), h.only.trans (lanesOnly_parkLane ..), fun k hk => ?_, fun k hk => ?_⟩
  · rw [laneAt_parkLane]
    by_cases e : k = L
    · subst e
      exact ⟨t.seq, by rw [if_pos rfl, hq, h.rest k hL]⟩
    · rw [if_neg e]; exact h.lanes k (hk.resolve_right e)
  · rw [laneAt_parkLane, if_neg fun e => hk (.inr e), h.rest k fun c => hk (.inl c)]

/-- The lanes of a mask park, each on its own cause. -/
theorem parks_foldl (s : State) (i : Iss) (m : Mask) (p : Nat → Park) :
    Parks s ((lanesOf m).foldl (fun t L => parkLane t i L (p L)) s) i (· ∈ lanesOf m) p := by
  refine foldl_invariant (fun done v => Parks s v i (· ∈ done) p) (fun done L rest v he hi => ?_) (by simpa using Parks.refl s i p)
  have := hi.park (fresh_of_split he).1
  simpa only [List.mem_append, List.mem_singleton] using this

/-! ## REJOIN -/

/-- The lane is parked at a REJOIN whose test holds (R133). -/
def rejoins (q : Group) (L : Nat) : Bool :=
  inMask (parkedAt q 5 (q.lane L).lpc) L && testHolds q L (parkedAt q 5 (q.lane L).lpc)

theorem inMask_parkedAt {q : Group} {c : Nat} {pc : W64} {L : Nat} : inMask (parkedAt q c pc) L = true ↔ L < 32 ∧ inMask q.live L = true ∧
    (q.lane L).park.cause = c ∧ (q.lane L).lpc = pc ∧ (q.lane L).refuted = none ∧
    (q.trapMode = true → inMask q.handlerSet L = true ∧ inMask q.rteHeld L = false) := by
  rw [parkedAt, inMask_maskOf]
  simp only [Bool.and_eq_true, Bool.or_eq_true, beq_iff_eq, decide_eq_true_eq, Bool.not_eq_true', Option.isNone_iff_eq_none, and_assoc]
  refine and_congr .rfl (and_congr .rfl (and_congr .rfl (and_congr .rfl (and_congr .rfl ?_))))
  cases q.trapMode <;> simp

/-- A test that holds among fewer lanes that have arrived holds among more. -/
theorem testHolds_mono {q r : Group} {L : Nat} {a b : Mask} (hp : (r.lane L).park.x = (q.lane L).park.x) (hl : r.live = q.live)
    (hab : ∀ k, k < 32 → inMask a k = true → inMask b k = true) (h : testHolds r L a = true) : testHolds q L b = true := by
  unfold testHolds at *
  rw [hp, hl] at h
  simp only [beq_iff_eq] at h ⊢
  refine mask_ext fun k hk => ?_
  have hz := congrArg (inMask · k) h
  simp only [inMask_and, inMask_not _ hk] at hz ⊢
  cases hb : inMask b k
  · have : inMask a k = false := by
      by_contra hc
      rw [hab k hk (by simpa using hc)] at hb
      cases hb
    rw [this] at hz
    exact hz
  · simp [inMask]

/-- One address in a release of REJOINs. -/
def rejoinAt (b g : Nat) (s : State) (pc : Nat) : State :=
  let q := s.group b g
  let at_ := parkedAt q pkRejoin (w64 pc)
  let rel := maskOf fun L => inMask at_ L && testHolds q L at_
  if rel = 0 then s
  else
    let lap := maxOf ((lanesOf rel).map fun L => (q.lane L).lap)
    let t := landing s b (pc + 8)
    modGroup s b g fun r => r.mapLanes rel fun _ l => { l with park := {}, lap := lap, lpc := w64 t }

theorem rejoinRelease_eq (s : State) (b g : Nat) : rejoinRelease s b g =
    (dedup ((lanes32.filter fun L => inMask (s.group b g).live L && ((s.group b g).lane L).park.cause == 5).map
      fun L => ((s.group b g).lane L).lpc.toNat)).foldl (rejoinAt b g) s := rfl

/-- From q to r lanes have left a REJOIN for the next instruction, those of a set, and the others are as they were. -/
structure Rejoined (s : State) (b : Nat) (q r : Group) (m : Nat → Prop) : Prop where
  only : LanesOnly q r
  gone : ∀ L, m L → ∃ lap, r.lane L = { q.lane L with park := {}, lap := lap, lpc := w64 (landing s b ((q.lane L).lpc.toNat + 8)) }
  rest : ∀ L, ¬m L → r.lane L = q.lane L

theorem upd_rejoinAt (s : State) (b g pc : Nat) : Upd s (rejoinAt b g s pc) b g := by
  unfold rejoinAt; dsimp only; split_ifs
  · exact .refl ..
  · exact upd_modGroup ..

theorem w64_toNat (x : W64) : w64 x.toNat = x := by simp [w64]

/-- The lanes parked there whose tests hold go, and no others. -/
theorem rejoined_rejoinAt (s : State) (b g : Nat) (pc : W64) :
    Rejoined s b (s.group b g) ((rejoinAt b g s pc.toNat).group b g) fun L => rejoins (s.group b g) L = true ∧ ((s.group b g).lane L).lpc = pc := by
  have hrel : ∀ L, inMask (maskOf fun L => inMask (parkedAt (s.group b g) 5 pc) L && testHolds (s.group b g) L (parkedAt (s.group b g) 5 pc)) L = true ↔
      rejoins (s.group b g) L = true ∧ ((s.group b g).lane L).lpc = pc := fun L => by
    rw [inMask_maskOf, rejoins]
    simp only [Bool.and_eq_true, decide_eq_true_eq]
    constructor
    · rintro ⟨-, h1, h2⟩
      have hp := (inMask_parkedAt.1 h1).2.2.2.1
      rw [hp]; exact ⟨⟨h1, h2⟩, rfl⟩
    · rintro ⟨⟨h1, h2⟩, hp⟩
      rw [hp] at h1 h2
      exact ⟨(inMask_parkedAt.1 h1).1, h1, h2⟩
  unfold rejoinAt
  dsimp only
  rw [w64_toNat]
  split_ifs with h0
  · refine ⟨rfl, fun L hL => ?_, fun _ _ => rfl⟩
    have := (hrel L).2 hL
    rw [show (maskOf fun L => inMask (parkedAt (s.group b g) 5 pc) L && testHolds (s.group b g) L (parkedAt (s.group b g) 5 pc)) = 0 from h0] at this
    simp [inMask] at this
  · rw [group_modGroup_self]
    refine ⟨rfl, fun L hL => ⟨maxOf ((lanesOf (maskOf fun L => inMask (parkedAt (s.group b g) 5 pc) L &&
      testHolds (s.group b g) L (parkedAt (s.group b g) 5 pc))).map fun L => ((s.group b g).lane L).lap), ?_⟩, fun L hL => ?_⟩
    · rw [lane_mapLanes, if_pos ⟨(inMask_parkedAt.1 (Bool.and_eq_true _ _ ▸ hL.1).1).1, (hrel L).2 hL⟩, hL.2]; rfl
    · rw [lane_mapLanes, if_neg fun c => hL ((hrel L).1 c.2)]

/-- After lanes have gone, the tests that hold are those that held, of lanes that have not. -/
theorem Rejoined.rejoins {s : State} {b : Nat} {q r : Group} {D : W64 → Prop}
    (h : Rejoined s b q r fun L => Machine.rejoins q L = true ∧ D (q.lane L).lpc) (L : Nat) :
    Machine.rejoins r L = true ↔ Machine.rejoins q L = true ∧ ¬D (q.lane L).lpc := by
  have hq := h.only
  unfold LanesOnly at hq
  have hlive : r.live = q.live := by rw [hq]
  have htm : r.trapMode = q.trapMode ∧ r.handlerSet = q.handlerSet ∧ r.rteHeld = q.rteHeld := by rw [hq]; exact ⟨rfl, rfl, rfl⟩
  -- a lane parked at a REJOIN after is one that was there before, and has not gone
  have hat : ∀ k p, inMask (parkedAt r 5 p) k = true ↔ inMask (parkedAt q 5 p) k = true ∧ ¬(Machine.rejoins q k = true ∧ D (q.lane k).lpc) := fun k p => by
    by_cases hg : Machine.rejoins q k = true ∧ D (q.lane k).lpc
    · obtain ⟨lap, e⟩ := h.gone k hg
      refine iff_of_false (fun hc => ?_) fun c => c.2 hg
      have := (inMask_parkedAt.1 hc).2.2.1
      rw [e] at this
      cases this
    · rw [inMask_parkedAt, inMask_parkedAt, h.rest k hg, hlive, htm.1, htm.2.1, htm.2.2]
      exact (and_iff_left hg).symm
  by_cases hg : Machine.rejoins q L = true ∧ D (q.lane L).lpc
  · refine ⟨fun hr => ?_, fun c => absurd hg.2 c.2⟩
    rw [Machine.rejoins, Bool.and_eq_true] at hr
    exact absurd hg ((hat L _).1 hr.1).2
  · have hl := h.rest L hg
    by_cases hp : D (q.lane L).lpc
    · -- fewer lanes have arrived at this address than before
      have hn : Machine.rejoins q L = false := by simpa [hp] using hg
      refine ⟨fun hr => ?_, fun c => absurd hp c.2⟩
      rw [Machine.rejoins, Bool.and_eq_true, hl] at hr
      have : Machine.rejoins q L = true := by
        rw [Machine.rejoins, Bool.and_eq_true]
        exact ⟨((hat L _).1 hr.1).1, testHolds_mono (by rw [hl]) hlive (fun k _ hk => ((hat k _).1 hk).1) hr.2⟩
      rw [hn] at this; cases this
    · have he : parkedAt r 5 (q.lane L).lpc = parkedAt q 5 (q.lane L).lpc := mask_ext fun k hk => by
        rw [Bool.eq_iff_iff, hat]
        refine and_iff_left_of_imp fun hin hc => hp ?_
        rw [← (inMask_parkedAt.1 hin).2.2.2.1]; exact hc.2
      unfold Machine.rejoins testHolds
      rw [hl, he, hlive]
      simp [hp]

/-- A release of REJOINs at the addresses of a list takes the lanes there whose tests hold, and no others. -/
theorem rejoined_foldl (b g : Nat) (pcs : List W64) (s : State) :
    Rejoined s b (s.group b g) ((((pcs.map BitVec.toNat).foldl (rejoinAt b g) s)).group b g) fun L => rejoins (s.group b g) L = true ∧ ((s.group b g).lane L).lpc ∈ pcs := by
  induction pcs generalizing s with
  | nil => exact ⟨rfl, fun L h => by simp at h, fun _ _ => rfl⟩
  | cons pc pcs ih =>
    rw [List.map_cons, List.foldl_cons]
    have h1 := rejoined_rejoinAt s b g pc
    have h2 := ih (rejoinAt b g s pc.toNat)
    have hr := Rejoined.rejoins (D := (· = pc)) h1
    refine ⟨h1.only.trans h2.only, fun L hL => ?_, fun L hL => ?_⟩
    · by_cases hp : ((s.group b g).lane L).lpc = pc
      · obtain ⟨lap, e⟩ := h1.gone L ⟨hL.1, hp⟩
        refine ⟨lap, ?_⟩
        rw [h2.rest L fun c => ((hr L).1 c.1).2 hp, e]
      · have e := h1.rest L fun c => hp c.2
        obtain ⟨lap, e2⟩ := h2.gone L ⟨(hr L).2 ⟨hL.1, hp⟩, by rw [e]; exact (List.mem_cons.1 hL.2).resolve_left hp⟩
        exact ⟨lap, by rw [e2, e, (upd_rejoinAt ..).landing]⟩
    · have e := h1.rest L fun c => hL ⟨c.1, by rw [c.2]; exact List.mem_cons_self⟩
      rw [h2.rest L fun c => hL ⟨((hr L).1 c.1).1, List.mem_cons_of_mem _ (by rw [← e]; exact c.2)⟩, e]

/-- A release of REJOINs takes the lanes whose tests hold, and no others (R133). -/
theorem rejoined_rejoinRelease (s : State) (b g : Nat) :
    Rejoined s b (s.group b g) ((rejoinRelease s b g).group b g) fun L => rejoins (s.group b g) L = true := by
  rw [rejoinRelease_eq]
  set ls := lanes32.filter fun L => inMask (s.group b g).live L && ((s.group b g).lane L).park.cause == 5 with hls
  set pcs := dedup (ls.map fun L => ((s.group b g).lane L).lpc.toNat) with hpcs
  have hback : pcs = (pcs.map w64).map BitVec.toNat := by
    rw [List.map_map]
    refine ((List.map_congr_left fun x hx => ?_).trans (List.map_id pcs)).symm
    rw [hpcs, mem_dedup, List.mem_map] at hx
    obtain ⟨L, -, rfl⟩ := hx
    exact congrArg BitVec.toNat (w64_toNat _)
  have h := rejoined_foldl b g (pcs.map w64) s
  rw [← hback] at h
  have hm : ∀ L, (rejoins (s.group b g) L = true ∧ ((s.group b g).lane L).lpc ∈ pcs.map w64) ↔ rejoins (s.group b g) L = true := fun L => by
    refine and_iff_left_of_imp fun hr => ?_
    rw [rejoins, Bool.and_eq_true] at hr
    obtain ⟨h1, h2, h3, -⟩ := inMask_parkedAt.1 hr.1
    rw [List.mem_map]
    refine ⟨((s.group b g).lane L).lpc.toNat, ?_, w64_toNat _⟩
    rw [hpcs, mem_dedup, List.mem_map]
    exact ⟨L, by rw [hls, List.mem_filter]; simp [lanes32, h1, h2, h3], rfl⟩
  exact ⟨h.only, fun L hL => h.gone L ((hm L).2 hL), fun L hL => h.rest L fun c => hL ((hm L).1 c)⟩

/-- From q to r only lanes that wait for a release from a cross-lane word differ, and they keep their parking. -/
structure CrossFreed (q r : Group) : Prop where
  only  : LanesOnly q r
  rest  : ∀ L, (q.lane L).park.cause ≠ 9 → r.lane L = q.lane L
  cross : ∀ L, (q.lane L).park.cause = 9 → (r.lane L).park.cause = 9

theorem CrossFreed.trans {q r u : Group} (h : CrossFreed q r) (k : CrossFreed r u) : CrossFreed q u :=
  ⟨h.only.trans k.only, fun L hL => by rw [k.rest L (by rw [h.rest L hL]; exact hL), h.rest L hL], fun L hL => k.cross L (h.cross L hL)⟩

theorem CrossFreed.refl (q : Group) : CrossFreed q q := ⟨rfl, fun _ _ => rfl, fun _ h => h⟩

theorem CrossFreed.foldl {b g : Nat} {α : Type} (f : State → α → State) (hf : ∀ s x, CrossFreed (s.group b g) ((f s x).group b g)) (xs : List α) (s : State) :
    CrossFreed (s.group b g) ((xs.foldl f s).group b g) := by
  induction xs generalizing s with
  | nil => exact .refl _
  | cons x xs ih => exact (hf s x).trans (ih _)

theorem crossFreed_crossRelease (s : State) (b g : Nat) : CrossFreed (s.group b g) ((crossRelease s b g).group b g) := by
  unfold crossRelease
  refine CrossFreed.foldl _ (fun s pc => ?_) _ _
  dsimp only
  split_ifs
  · exact .refl _
  · rw [group_modGroup_self]
    refine ⟨rfl, fun L hL => ?_, fun L hL => ?_⟩ <;> rw [lane_mapLanes]
    · refine if_neg fun c => hL ?_
      have := c.2
      rw [inMask_maskOf] at this
      simp only [Bool.and_eq_true] at this
      exact parked_parkedAt _ _ _ L this.2.1.1
    · split_ifs
      · exact hL
      · exact hL

theorem CrossFreed.rejoins {q r : Group} (h : CrossFreed q r) (L : Nat) : Machine.rejoins r L = Machine.rejoins q L := by
  have hq := h.only
  unfold LanesOnly at hq
  have hlive : r.live = q.live := by rw [hq]
  have htm : r.trapMode = q.trapMode ∧ r.handlerSet = q.handlerSet ∧ r.rteHeld = q.rteHeld := by rw [hq]; exact ⟨rfl, rfl, rfl⟩
  have hat : ∀ p, parkedAt r 5 p = parkedAt q 5 p := fun p => mask_ext fun k _ => by
    rw [Bool.eq_iff_iff, inMask_parkedAt, inMask_parkedAt, hlive, htm.1, htm.2.1, htm.2.2]
    by_cases hk : (q.lane k).park.cause = 9
    · simp [hk, h.cross k hk]
    · rw [h.rest k hk]
  unfold Machine.rejoins
  by_cases hL : (q.lane L).park.cause = 9
  · have n1 : ∀ p, inMask (parkedAt q 5 p) L = false := fun p => by
      by_contra hc
      have := (inMask_parkedAt.1 (by simpa using hc)).2.2.1
      omega
    rw [hat, n1, n1]
    rfl
  · unfold testHolds
    rw [h.rest L hL, hat, hlive]

/-- Where the tests after an issue leave a lane that is not parked at a cross-lane word: past the REJOIN whose test holds, else where it was. -/
theorem lane_afterIssue (s : State) (b g : Nat) (h : rteWaits (s.group b g)) {L : Nat} (hL : ((s.group b g).lane L).park.cause ≠ 9) :
    let l := (s.group b g).lane L
    let m := ((afterIssue s b g).group b g).lane L
    if rejoins (s.group b g) L = true then m.park = {} ∧ m.lpc = w64 (landing s b (l.lpc.toNat + 8)) else m.park = l.park ∧ m.lpc = l.lpc := by
  intro l m
  have j1 := rejoined_rejoinRelease s b g
  have c1 := crossFreed_crossRelease (rejoinRelease s b g) b g
  have hv : releaseLanes s b g = crossRelease (rejoinRelease s b g) b g := rfl
  have hnone : ∀ L, rejoins ((releaseLanes s b g).group b g) L = false := fun L => by
    rw [hv, c1.rejoins, Bool.eq_false_iff, ne_eq, Rejoined.rejoins (D := fun _ => True) (s := s) (b := b) ⟨j1.only, fun L hL => j1.gone L hL.1, fun L hL => j1.rest L fun c => hL ⟨c, trivial⟩⟩]
    simp
  have j2 := rejoined_rejoinRelease (releaseLanes s b g) b g
  have c2 := crossFreed_crossRelease (rejoinRelease (releaseLanes s b g) b g) b g
  -- the lane after both releases is the one after the first release of REJOINs
  have h1 : (((rejoinRelease s b g).group b g).lane L).park.cause ≠ 9 := by
    by_cases hg : rejoins (s.group b g) L = true
    · obtain ⟨lap, e⟩ := j1.gone L hg
      rw [e]; exact Nat.zero_ne_add_one 8
    · rw [j1.rest L hg]; exact hL
  have h2 : ((releaseLanes s b g).group b g).lane L = ((rejoinRelease s b g).group b g).lane L := c1.rest L h1
  have h3 : ((rejoinRelease (releaseLanes s b g) b g).group b g).lane L = ((rejoinRelease s b g).group b g).lane L :=
    (j2.rest L (by rw [hnone L]; simp)).trans h2
  have h4 : ((releaseLanes (releaseLanes s b g) b g).group b g).lane L = ((rejoinRelease s b g).group b g).lane L :=
    (c2.rest L (by rw [h3]; exact h1)).trans h3
  have hm : m.park = (((rejoinRelease s b g).group b g).lane L).park ∧ m.lpc = (((rejoinRelease s b g).group b g).lane L).lpc := by
    show (((afterIssue s b g).group b g).lane L).park = _ ∧ (((afterIssue s b g).group b g).lane L).lpc = _
    unfold afterIssue
    dsimp only
    rw [finishRte_waits _ _ _ ((follows_releaseLanes s b g).2.rteWaits h), lane_renormalise, group_modGroup_self, ← h4]
    exact ⟨rfl, rfl⟩
  rw [hm.1, hm.2]
  by_cases hg : rejoins (s.group b g) L = true
  · obtain ⟨lap, e⟩ := j1.gone L hg
    rw [if_pos hg, e]; exact ⟨rfl, rfl⟩
  · rw [if_neg hg, j1.rest L hg]; exact ⟨rfl, rfl⟩

theorem testHolds_iff {q : Group} {L : Nat} {a : Mask} : testHolds q L a = true ↔
    ∀ k, k < 32 → k ≠ L → bit (q.lane L).park.x.toNat k = true → inMask q.live k = true → inMask a k = true := by
  have hb : ∀ k, k < 32 → inMask ((q.lane L).park.x.setWidth 32 : Mask) k = bit (q.lane L).park.x.toNat k := fun k hk => by
    simp only [inMask, bit, BitVec.getLsbD_setWidth, hk, decide_true, Bool.true_and]
    rfl
  have ho : ∀ k, inMask (oneLane L) k = (decide (k < 32) && decide (k = L)) := fun k => by
    unfold oneLane inMask
    rw [BitVec.getLsbD_ofNat, Nat.testBit_two_pow]
    simp [eq_comm]
  unfold testHolds
  simp only [beq_iff_eq]
  constructor
  · intro h k hk hkl hbit hlive
    have hz := congrArg (inMask · k) h
    simp only [inMask_and, inMask_not _ hk, hb k hk, hbit, hlive, ho, hkl, decide_false, Bool.and_false, Bool.not_false, Bool.and_true, Bool.true_and] at hz
    simpa [inMask] using hz
  · intro h
    refine mask_ext fun k hk => ?_
    simp only [inMask_and, inMask_not _ hk, hb k hk, ho, hk, decide_true, Bool.true_and]
    by_cases hkl : k = L
    · simp [hkl, inMask]
    · cases h1 : bit (q.lane L).park.x.toNat k
      · simp [inMask]
      · cases h2 : inMask q.live k
        · simp [inMask]
        · rw [h k hk hkl h1 h2]; simp [inMask]

theorem lane_noteIssue (s : State) (i : Iss) (op stall : Nat) (y : Bool) (L : Nat) : laneAt (noteIssue s i op stall y) i L = laneAt s i L := by
  unfold noteIssue laneAt
  dsimp only
  rw [group_modGroup_self, group_modCore]
  rfl

theorem rejoins_noteIssue (s : State) (i : Iss) (op stall : Nat) (y : Bool) (L : Nat) :
    rejoins ((noteIssue s i op stall y).group i.b i.g) L = rejoins (s.group i.b i.g) L := by
  unfold noteIssue
  dsimp only
  rw [group_modGroup_self, group_modCore]
  rfl

theorem rejoin_word {w : Insn} {s : State} {i : Iss} (h : Issues 0x25 w noBump s i) (hp : Plain [] s i) :
    ∃ u, execRejoin w s = .next u ∧ let q := s.group i.b i.g
      let here := fun k => inMask i.ex k || (inMask q.live k && (q.lane k).park.cause == 5 && (q.lane k).lpc == w64 i.pc &&
        (q.lane k).refuted.isNone && (!q.trapMode || (inMask q.handlerSet k && !inMask q.rteHeld k)))
      let met := fun L => ∀ k, k < 32 → k ≠ L → bit (srcA .b32 w s i L) k = true → inMask q.live k = true → here k = true
      OthersFall s i u ∧ u.mem = s.mem ∧ RegsKept q (u.group i.b i.g) ∧ ∀ L, L < 32 → inMask i.ex L = true →
        (met L → (laneAt u i L).park = {} ∧ (laneAt u i L).lpc = w64 (landing s i.b (i.pc + 8))) ∧
        (¬met L → ParkedAs s u i L 5 0 (w64 (srcA .b32 w s i L))) := by
  refine ⟨_, rfl, ?_⟩
  intro q here met
  rw [runWord_issues h, guardEscape_plain hp]
  set a := advance s i (i.iss &&& ~~~i.ex) with ha
  set p : Nat → Park := fun L => { cause := pkRejoin, x := w64 (val32 s i (opA w) L), insn := some w } with hpk
  set t := (lanesOf i.ex).foldl (fun t L => parkLane t i L (p L)) a with ht
  have k : Parks a t i (· ∈ lanesOf i.ex) p := parks_foldl a i i.ex p
  set u := conclude s i 0x25 w.stall.toNat (w.y == 1) (.next t) with hu
  have hone : LanesOnly q (t.group i.b i.g) := LanesOnly.trans (by rw [ha, group_advance]; rfl) k.only
  have hmode : SameMode q (t.group i.b i.g) := by unfold LanesOnly at hone; rw [hone]; exact ⟨rfl, rfl, rfl, rfl⟩
  have hw : rteWaits (t.group i.b i.g) := h.waits.congr hmode
  have r : Rested t u i.b i.g := rested_conclude hw ..
  have hlpc : ∀ L, inMask i.iss L = true → ((s.group i.b i.g).lane L).lpc = w64 i.pc := fun L hL => by
    rw [← (h.standing.lanes L hL).2.2.1, w64_toNat]
  have hex : ∀ L, L < 32 → inMask i.ex L = true → ∃ n, laneAt t i L = parkedLane a i (laneAt s i L) (p L) n := fun L hL hx => by
    obtain ⟨n, e⟩ := k.lanes L ((mem_lanesOf ..).2 ⟨hL, hx⟩)
    refine ⟨n, e.trans ?_⟩
    rw [ha, laneAt_advance, if_neg]
    rw [inMask_and, inMask_not _ hL, hx]; simp
  have hnx : ∀ L, inMask i.ex L = false → laneAt t i L = laneAt a i L := fun L hx => k.rest L fun c => by
    rw [((mem_lanesOf ..).1 c).2] at hx; cases hx
  -- the lanes that have arrived at the word
  have hat : ∀ j, j < 32 → inMask q.live j = true → inMask (parkedAt (t.group i.b i.g) 5 (w64 i.pc)) j = here j := fun j hj hlive => by
    rw [Bool.eq_iff_iff, inMask_parkedAt, hmode.1, hmode.2.1, hmode.2.2.1, hmode.2.2.2]
    by_cases hx : inMask i.ex j = true
    · obtain ⟨n, e⟩ := hex j hj hx
      have hiss := ex_of_withGuard h hx
      have href : ((s.group i.b i.g).lane j).refuted = none := by
        have := h.standing.sound
        simp only [List.any_eq_false, mem_lanesOf] at this
        simpa using this j ⟨hj, hiss⟩
      rw [show (t.group i.b i.g).lane j = _ from e]
      simp only [here, hx, Bool.true_or, iff_true]
      exact ⟨hj, hlive, rfl, hlpc j hiss, href, fun htm => h.standing.handler htm j hiss⟩
    · have hx' : inMask i.ex j = false := by simpa using hx
      rw [show (t.group i.b i.g).lane j = _ from hnx j hx', ha, laneAt_advance]
      simp only [here, hx', Bool.false_or]
      by_cases hiss : inMask i.iss j = true
      · have hr : (q.lane j).park.cause ≠ 5 := (Lane.still_of_ready (h.standing.lanes j hiss).2.2.2).1
        refine iff_of_false (fun c => hr ?_) fun c => hr ?_
        · have := c.2.2.1
          split_ifs at this <;> exact this
        · simp only [Bool.and_eq_true, beq_iff_eq] at c
          exact c.1.1.1.2
      · rw [if_neg fun c => hiss (by rw [inMask_and, Bool.and_eq_true] at c; exact c.2.1)]
        have := inMask_parkedAt (q := q) (c := 5) (pc := w64 i.pc) (L := j)
        rw [show laneAt s i j = q.lane j from rfl, ← this, parkedAt, inMask_maskOf]
        simp only [hj, decide_true, Bool.true_and]
  have hmet : ∀ L, L < 32 → inMask i.ex L = true → (rejoins (t.group i.b i.g) L = true ↔ met L) := fun L hL hx => by
    obtain ⟨n, e⟩ := hex L hL hx
    have hiss := ex_of_withGuard h hx
    have elpc : ((t.group i.b i.g).lane L).lpc = w64 i.pc := by rw [show (t.group i.b i.g).lane L = _ from e]; exact hlpc L hiss
    rw [rejoins, Bool.and_eq_true, elpc, hat L hL (h.standing.lanes L hiss).2.1, testHolds_iff]
    have hxval : ∀ j, j < 32 → bit ((t.group i.b i.g).lane L).park.x.toNat j = bit (srcA .b32 w s i L) j := fun j hj => by
      rw [show (t.group i.b i.g).lane L = _ from e]
      show bit (w64 (val32 s i (opA w) L)).toNat j = _
      simp only [w64, bit, srcA, val32, BitVec.toNat_ofNat, Nat.testBit_mod_two_pow]
      simp [show j < 64 by omega]
    constructor
    · rintro ⟨-, hk⟩ j hj hjl hb hlive
      rw [← hat j hj hlive]
      exact hk j hj hjl (by rw [hxval j hj]; exact hb) (by rw [hmode.2.2.1]; exact hlive)
    · intro hk
      refine ⟨by simp [here, hx], fun j hj hjl hb hlive => ?_⟩
      rw [hmode.2.2.1] at hlive
      rw [hat j hj hlive]
      exact hk j hj hjl (by rw [← hxval j hj]; exact hb) hlive
  refine ⟨fun L hL hm => ?_, r.upd.mem.trans k.mem, ?_, fun L hL hx => ?_⟩
  · have hx : inMask i.ex L = false := by
      rw [inMask_and, inMask_not _ hL, Bool.and_eq_true, Bool.not_eq_true'] at hm; exact hm.2
    have e : laneAt t i L = { laneAt s i L with lpc := w64 (landing s i.b (i.pc + i.len)) } := by
      rw [hnx L hx, ha, laneAt_advance, if_pos ⟨hL, hm⟩]
    have hiss : inMask i.iss L = true := by rw [inMask_and, Bool.and_eq_true] at hm; exact hm.1
    have hs : ((t.group i.b i.g).lane L).still := by
      rw [show (t.group i.b i.g).lane L = _ from e]
      exact Lane.still_of_ready (h.standing.lanes L hiss).2.2.2
    exact (r.still hs).1.trans (by rw [show (t.group i.b i.g).lane L = _ from e])
  · refine RegsKept.trans ?_ r.regsKept
    unfold LanesOnly at hone; rw [hone]; exact ⟨rfl, rfl, rfl, rfl, rfl⟩
  · obtain ⟨n, e⟩ := hex L hL hx
    have hiss := ex_of_withGuard h hx
    set v := noteIssue t i 0x25 w.stall.toNat (w.y == 1) with hv
    have f : Follows t v i.b i.g := follows_noteIssue ..
    have hl : (v.group i.b i.g).lane L = parkedLane a i (laneAt s i L) (p L) n := (lane_noteIssue t i _ _ _ L).trans e
    have key := lane_afterIssue v i.b i.g (f.2.rteWaits hw) (L := L) (by rw [hl]; exact (by decide : (5 : Nat) ≠ 9))
    dsimp only at key
    rw [show rejoins (v.group i.b i.g) L = rejoins (t.group i.b i.g) L from rejoins_noteIssue .., hl] at key
    have elpc : (parkedLane a i (laneAt s i L) (p L) n).lpc.toNat = i.pc := (h.standing.lanes L hiss).2.2.1
    rw [elpc, f.1.landing, k.landing, ha, (upd_advance ..).landing] at key
    refine ⟨fun hmt => ?_, fun hmt => ?_⟩
    · exact (if_pos ((hmet L hL hx).2 hmt)).mp key
    · have key' := (if_neg fun c => hmt ((hmet L hL hx).1 c)).mp key
      exact ⟨key'.2, congrArg Park.cause key'.1, congrArg Park.detail key'.1, congrArg Park.x key'.1⟩

end Sys2Proof.Machine
end

section
/-! PROOF. States that read code and translate alike; writes of one lane's destination; IPOP (R115, R145, R206, R286, R345). -/

set_option Elab.async false

namespace Sys2Proof.Machine

/-! ## States in which code reads alike -/

/-- From s to t nothing differs of which the reading of code takes notice. -/
structure SameCode (s t : State) : Prop where
  mem   : t.mem = s.mem
  host  : t.hostMem = s.hostMem
  free  : t.free = s.free
  part  : ∀ p, (t.part p).root = (s.part p).root ∧ (t.part p).gran0 = (s.part p).gran0 ∧ (t.part p).granN = (s.part p).granN ∧ (t.part p).gen = (s.part p).gen
  ctx   : ∀ k, (t.context k).part = (s.context k).part
  home  : ∀ k, (t.block k).core = (s.block k).core ∧ (t.block k).ctx = (s.block k).ctx
  store : ∀ c, (t.core c).tlb = (s.core c).tlb ∧ (t.core c).icache = (s.core c).icache

theorem SameCode.refl (s : State) : SameCode s s := ⟨rfl, rfl, rfl, fun _ => ⟨rfl, rfl, rfl, rfl⟩, fun _ => rfl, fun _ => ⟨rfl, rfl⟩, fun _ => ⟨rfl, rfl⟩⟩

theorem SameCode.trans {s t u : State} (h : SameCode s t) (k : SameCode t u) : SameCode s u where
  mem := k.mem.trans h.mem
  host := k.host.trans h.host
  free := k.free.trans h.free
  part := fun p => ⟨(k.part p).1.trans (h.part p).1, (k.part p).2.1.trans (h.part p).2.1, (k.part p).2.2.1.trans (h.part p).2.2.1, (k.part p).2.2.2.trans (h.part p).2.2.2⟩
  ctx := fun c => (k.ctx c).trans (h.ctx c)
  home := fun b => ⟨(k.home b).1.trans (h.home b).1, (k.home b).2.trans (h.home b).2⟩
  store := fun c => ⟨(k.store c).1.trans (h.store c).1, (k.store c).2.trans (h.store c).2⟩

theorem SameCode.foldl {α : Type} (f : State → α → State) (hf : ∀ s x, SameCode s (f s x)) (xs : List α) (s : State) : SameCode s (xs.foldl f s) := by
  induction xs generalizing s with
  | nil => exact .refl s
  | cons x xs ih => exact (hf s x).trans (ih _)

theorem Upd.sameCode {s t : State} {b g : Nat} (h : Upd s t b g) : SameCode s t where
  mem := h.mem
  host := h.hostMem
  free := h.free
  part := fun p => by rw [h.part]; exact ⟨rfl, rfl, rfl, rfl⟩
  ctx := fun k => by rw [h.context]
  home := fun k => ⟨h.blockCore k, h.blockCtx k⟩
  store := fun c => ⟨h.coreTlb c, h.coreIcache c⟩

theorem sameCode_modCore (s : State) (c : Nat) (f : Core → Core) (hf : (f (s.core c)).tlb = (s.core c).tlb ∧ (f (s.core c)).icache = (s.core c).icache) :
    SameCode s (modCore s c f) :=
  ⟨rfl, rfl, rfl, fun _ => ⟨rfl, rfl, rfl, rfl⟩, fun _ => rfl, fun _ => ⟨rfl, rfl⟩, fun k => by
    rw [core_modCore]; split_ifs with e
    · rw [e]; exact hf
    · exact ⟨rfl, rfl⟩⟩

theorem sameCode_modBlock (s : State) (b : Nat) (f : Block → Block) (hf : (f (s.block b)).core = (s.block b).core ∧ (f (s.block b)).ctx = (s.block b).ctx) :
    SameCode s (modBlock s b f) :=
  ⟨rfl, rfl, rfl, fun _ => ⟨rfl, rfl, rfl, rfl⟩, fun _ => rfl, fun k => by
    rw [block_modBlock]; split_ifs with e
    · rw [e]; exact hf
    · exact ⟨rfl, rfl⟩, fun _ => ⟨rfl, rfl⟩⟩

theorem sameCode_modCtx (s : State) (c : Nat) (f : Ctx → Ctx) (hf : (f (s.context c)).part = (s.context c).part) : SameCode s (modCtx s c f) :=
  ⟨rfl, rfl, rfl, fun _ => ⟨rfl, rfl, rfl, rfl⟩, fun k => by
    rw [context_modCtx]; split_ifs with e
    · rw [e]; exact hf
    · rfl, fun _ => ⟨rfl, rfl⟩, fun _ => ⟨rfl, rfl⟩⟩

theorem sameCode_seq (s : State) (n : Nat) : SameCode s { s with seq := n } :=
  ⟨rfl, rfl, rfl, fun _ => ⟨rfl, rfl, rfl, rfl⟩, fun _ => rfl, fun _ => ⟨rfl, rfl⟩, fun _ => ⟨rfl, rfl⟩⟩

section sameCode
variable {s t : State} (h : SameCode s t)
include h

theorem SameCode.pick (k : Nat) : Machine.pick t k = Machine.pick s k := by simp only [Machine.pick, h.free]
theorem SameCode.memRead (a n : Nat) : Machine.memRead t a n = Machine.memRead s a n := by simp only [Machine.memRead, memBytes, memByte, h.mem]
theorem SameCode.hostBytes (a n : Nat) : Machine.hostBytes t a n = Machine.hostBytes s a n := by simp only [Machine.hostBytes, hostByte, h.host]
theorem SameCode.reachable (p pa : Nat) : Machine.reachable t p pa = Machine.reachable s p pa := by
  obtain ⟨-, h2, h3, -⟩ := h.part p
  simp only [Machine.reachable, h2, h3]

theorem SameCode.leafEntry (p a va n : Nat) : Machine.leafEntry t p a va n = Machine.leafEntry s p a va n := by
  have hc : contigOk t a = contigOk s a := by unfold contigOk; simp only [h.memRead]
  unfold Machine.leafEntry
  simp only [h.memRead, hc, (h.part p).2.2.2]

theorem SameCode.walkFrom (p va : Nat) (l : List Nat) (a : Nat) : Machine.walkFrom t p va l a = Machine.walkFrom s p va l a := by
  induction l generalizing a with
  | nil => rfl
  | cons sh l ih => simp only [Machine.walkFrom, ih, h.memRead, h.leafEntry]

theorem SameCode.xlate (c p va : Nat) (acc : Acc) (host : Bool) : Machine.xlate t c p va acc host = Machine.xlate s c p va acc host := by
  have he : Machine.xlEntry t c p va = Machine.xlEntry s c p va := by
    unfold Machine.xlEntry walk
    rw [h.walkFrom, (h.store c).1, h.pick, (h.part p).1]
  unfold Machine.xlate
  rw [he]
  cases Machine.xlEntry s c p va with
  | error f => rfl
  | ok e => dsimp only; rw [h.reachable]

theorem SameCode.peekWord (k va : Nat) : Machine.peekWord t k va = Machine.peekWord s k va := by
  have hc : ∀ c tier pa, codeAt t c tier pa = codeAt s c tier pa := fun c tier pa => by
    have hn : codeNow t tier pa = codeNow s tier pa := by simp only [codeNow, h.hostBytes, h.memRead]
    simp only [codeAt, hn, (h.store c).2, h.pick]
  obtain ⟨h1, h2⟩ := h.home k
  simp only [Machine.peekWord, h.xlate, h1, h2, h.ctx, hc]

/-- Where a lane lands is the same. -/
theorem SameCode.landing (k va : Nat) : Machine.landing t k va = Machine.landing s k va := by
  have : ∀ n va, skipPads t k n va = skipPads s k n va := fun n => by
    induction n with
    | zero => exact fun _ => rfl
    | succ n ih => intro va; simp only [skipPads, h.peekWord, ih]
  exact this ..

end sameCode

/-! ## The destination of one lane -/

theorem lanesOf_oneLane {L : Nat} (hL : L < 32) : lanesOf (oneLane L) = [L] := by
  have key : ∀ L : Fin 32, lanesOf (oneLane L.val) = [L.val] := by decide
  exact key ⟨L, hL⟩

theorem inMask_oneLane (L k : Nat) : inMask (oneLane L) k = (decide (k < 32) && decide (k = L)) := by
  unfold oneLane inMask
  rw [BitVec.getLsbD_ofNat, Nat.testBit_two_pow]
  simp [eq_comm]

theorem orGuard_zero (q : Group) (o : Opd) (k : Nat) : q.orGuard 0 o k = q := by
  have h0 : lanesOf 0 = [] := by decide
  unfold Group.orGuard
  rw [h0]
  cases o <;> rfl

/-- A write of one lane's V or predicate destination is a write of D in that lane alone. -/
theorem resLane_eq_putGroup (q : Group) (cyc lat : Nat) (t : Ty) {o : Opd} (ho : isS o = false) {L : Nat} (hL : L < 32) (x : Nat) (gb : Bool) :
    q.resLane cyc lat (wide t) o L x gb = putGroup q cyc lat 0 t o (oneLane L) (fun _ => x) fun _ => gb := by
  unfold putGroup
  rw [lanesOf_oneLane hL]
  cases o
  case s n => cases ho
  all_goals simp only [List.foldl_cons, List.foldl_nil, orGuard_zero]

theorem wrote_resLane (q : Group) (cyc lat : Nat) (t : Ty) {o : Opd} (ho : isS o = false) {L : Nat} (hL : L < 32) (x : Nat) (gb : Bool) :
    Wrote q (q.resLane cyc lat (wide t) o L x gb) [(t, o)] (oneLane L) 0 := by
  rw [resLane_eq_putGroup q cyc lat t ho hL]; exact wrote_putGroup ..

theorem gets_resLane (q : Group) (cyc lat : Nat) (t : Ty) {o : Opd} (ho : isS o = false) {L : Nat} (hL : L < 32) (x : Nat) (gb : Bool) (ex : Mask) :
    Gets (q.resLane cyc lat (wide t) o L x gb) ex t o L x gb := by
  rw [resLane_eq_putGroup q cyc lat t ho hL]
  have := gets_putGroup q cyc lat 0 t o (oneLane L) (fun _ => x) (fun _ => gb) hL (by rw [inMask_oneLane]; simp [hL]) (by simp [inMask])
  cases o
  case s n => cases ho
  all_goals exact this

/-- A lane's destination keeps what it holds while other lanes' are written. -/
theorem Gets.elsewhere {q r : Group} {ex m : Mask} {t : Ty} {d : Opd} {L x : Nat} {gb : Bool} {es : List (Ty × Opd)} (h : Gets q ex t d L x gb)
    (hd : isS d = false) (hL : L < 32) (k : SameRegs q r es m 0) (hm : inMask m L = false) : Gets r ex t d L x gb := by
  have h0 : inMask (0 : Mask) L = false := by simp [inMask]
  unfold Gets at *
  cases d
  case s n => cases hd
  case v n => dsimp only; rw [k.v n L hL (.inr hm), k.vg n L hL (.inr ⟨hm, h0⟩), k.v (n + 1) L hL (.inr hm), k.vg (n + 1) L hL (.inr ⟨hm, h0⟩)]; exact h
  case p n => dsimp only; rw [k.p n L hL (.inr hm), k.pg n L hL (.inr ⟨hm, h0⟩), k.p 15 L hL (.inr hm), k.pg 15 L hL (.inr ⟨hm, h0⟩)]; exact h
  all_goals exact h

/-- What a write of one lane leaves alone, as a write in a set that holds it. -/
theorem SameRegs.ofLane {q r : Group} {ds : List (Ty × Opd)} {L : Nat} {ex gg : Mask} (h : SameRegs q r ds (oneLane L) 0) (hx : inMask ex L = true) :
    SameRegs q r ds ex gg :=
  h.mono (fun _ he => he) (fun k _ hk => by rw [inMask_oneLane] at hk; simp only [Bool.and_eq_true, decide_eq_true_eq] at hk; rw [hk.2]; exact hx)
    fun k _ hk => by simp [inMask] at hk

/-- The guards' guess bits join a destination, and nothing else differs. -/
theorem wrote_orGuard (q : Group) (gg : Mask) (t : Ty) {o : Opd} (ho : isS o = false) (ex : Mask) :
    Wrote q (q.orGuard gg o (two (wide t))) [(t, o)] ex gg := by
  have h := wrote_putGroup q 0 0 gg t o 0 (fun _ => 0) fun _ => false
  have e : putGroup q 0 0 gg t o 0 (fun _ => 0) (fun _ => false) = q.orGuard gg o (two (wide t)) := by
    unfold putGroup
    rw [show lanesOf 0 = [] from by decide]
    cases o
    case s n => cases ho
    all_goals rfl
  rw [e] at h
  exact ⟨h.un, h.regs.mono (fun _ he => he) (fun k _ hk => by simp [inMask] at hk) fun _ _ hk => hk⟩

end Sys2Proof.Machine
end

section
/-! PROOF. IPOP (R115, R345). -/

set_option Elab.async false

namespace Sys2Proof.Machine

/-! ## Items -/

theorem Upd.itemsOf {s t : State} {b g : Nat} (h : Upd s t b g) (k : Nat) : Machine.itemsOf t k = Machine.itemsOf s k := by
  have hc := h.core (s.block k).core
  have h1 : (t.core (s.block k).core).items = (s.core (s.block k).core).items := by simpa using congrArg Core.items hc
  have h2 : (t.core (s.block k).core).itemCtx = (s.core (s.block k).core).itemCtx := by simpa using congrArg Core.itemCtx hc
  simp only [Machine.itemsOf, h.blockCore, h.blockCtx, h1, h2]

theorem Upd.exhausted {s t : State} {b g : Nat} (h : Upd s t b g) (k : Nat) : Machine.exhausted t k = Machine.exhausted s k := by
  simp only [Machine.exhausted, h.recordOf, h.itemsOf, indicesLeft, h.context, h.blockCtx]

theorem takeItem_cons {s : State} {b x : Nat} {xs : List Nat} (h : itemsOf s b = x :: xs) :
    takeItem s b = some (x, modCore s (s.block b).core fun c => { c with items := xs }) := by unfold takeItem; rw [h]

theorem takeItem_nil {s : State} {b : Nat} (h : itemsOf s b = []) : takeItem s b = none := by unfold takeItem; rw [h]

/-- The items left once the oldest has been taken. -/
theorem itemsOf_taken {s : State} {b x : Nat} {xs : List Nat} (h : itemsOf s b = x :: xs) :
    itemsOf (modCore s (s.block b).core fun c => { c with items := xs }) b = xs := by
  unfold itemsOf at *
  dsimp only at *
  rw [block_modCore, core_modCore_self]
  split_ifs at h ⊢ with hc
  rfl

/-- What the delivery of an item to a lane leaves (R115). -/
structure Delivered (s t : State) (b g : Nat) (w : Insn) (L x : Nat) : Prop where
  upd  : Upd s t b g
  mode : SameMode (s.group b g) (t.group b g)
  regs : SameRegs (s.group b g) (t.group b g) [(.b32, opD w)] (oneLane L) 0
  gets : ∀ ex, Gets (t.group b g) ex .b32 (opD w) L (x % 2 ^ 32) false
  lane : ((t.group b g).lane L).item = w64 x ∧ ((t.group b g).lane L).park = {} ∧
    ((t.group b g).lane L).lpc = w64 (landing s b ((recordOf s b).entry + (recordOf s b).itemHead))
  rest : ∀ k, k ≠ L → ∃ lap, (t.group b g).lane k = { (s.group b g).lane k with lap := lap }

theorem delivered_deliverItem (s : State) (b g : Nat) (w : Insn) {L : Nat} (x : Nat) (hd : isS (opD w) = false) (hL : L < 32) :
    Delivered s (deliverItem s b g L w x) b g w L x := by
  unfold deliverItem
  dsimp only
  set f : Group → Group := fun q =>
    { q.resLane 0 0 false (opD w) L (x % 2 ^ 32) false with lanes := tmod {} (q.resLane 0 0 false (opD w) L (x % 2 ^ 32) false).lanes L fun l =>
        { l with park := {}, item := w64 x, lap := raisedLap s L l, lpc := w64 (landing s b ((recordOf s b).entry + (recordOf s b).itemHead)) } } with hf
  set v := modGroup s b g f with hv
  have hw : Wrote (s.group b g) ((s.group b g).resLane 0 0 false (opD w) L (x % 2 ^ 32) false) [(.b32, opD w)] (oneLane L) 0 :=
    wrote_resLane (s.group b g) 0 0 .b32 hd hL (x % 2 ^ 32) false
  have hg : v.group b g = f (s.group b g) := group_modGroup_self ..
  have ha : RegsAlike ((s.group b g).resLane 0 0 false (opD w) L (x % 2 ^ 32) false) (v.group b g) := by rw [hg]; exact RegsKept.alike ⟨rfl, rfl, rfl, rfl, rfl⟩
  have hr := follows_renormalise v b g
  have hl : ∀ k, (v.group b g).lane k = if k = L then
      { (s.group b g).lane L with park := {}, item := w64 x, lap := raisedLap s L ((s.group b g).lane L), lpc := w64 (landing s b ((recordOf s b).entry + (recordOf s b).itemHead)) }
      else (s.group b g).lane k := fun k => by
    rw [hg, hf]
    dsimp only
    rw [lane_setLane, hw.un.lane, hw.un.lane]
  refine ⟨(upd_modGroup s b g f).trans hr.1, ?_, (hw.regs.alike ha).alike hr.2.regsAlike, fun ex => ?_, ?_, fun k hk => ⟨(((renormalise v b g).group b g).lane k).lap, ?_⟩⟩
  · have := hw.un.sameMode
    refine this.trans ?_
    rw [hr.2.rest, hg]
    exact ⟨rfl, rfl, rfl, rfl⟩
  · exact ((gets_resLane (s.group b g) 0 0 .b32 hd hL (x % 2 ^ 32) false ex).alike ha).alike hr.2.regsAlike
  · rw [lane_renormalise, hl, if_pos rfl]
    exact ⟨rfl, rfl, rfl⟩
  · rw [lane_renormalise, hl, if_neg hk]

/-! ## The lanes of an IPOP -/

/-- What an IPOP does with one lane. -/
def ipopLane (w : Insn) (i : Iss) (s : State) (L : Nat) : State :=
  match takeItem s i.b with
  | some (x, s) => deliverItem s i.b i.g L w x
  | none =>
    if exhausted s i.b then advance s i (oneLane L)
    else parkLane s i L { cause := pkItem, detail := 0, insn := some w }

/-- From s, lanes have taken one item each. -/
structure Popped (s v : State) (i : Iss) (w : Insn) (done : List Nat) : Prop where
  code  : SameCode s v
  ctxs  : v.ctxs = s.ctxs
  items : itemsOf v i.b = (itemsOf s i.b).drop done.length
  mode  : SameMode (s.group i.b i.g) (v.group i.b i.g)
  regs  : SameRegs (s.group i.b i.g) (v.group i.b i.g) [(.b32, opD w)] i.ex i.gg
  rest  : ∀ L, L ∉ done → ∃ lap, laneAt v i L = { laneAt s i L with lap := lap }
  got   : ∀ k L x : Nat, done[k]? = some L → (itemsOf s i.b)[k]? = some x → Gets (v.group i.b i.g) i.ex .b32 (opD w) L (x % 2 ^ 32) false ∧
    (laneAt v i L).item = w64 x ∧ (laneAt v i L).park = {} ∧ (laneAt v i L).lpc = w64 (landing s i.b ((recordOf s i.b).entry + (recordOf s i.b).itemHead))

theorem Popped.refl (s : State) (i : Iss) (w : Insn) : Popped s s i w [] :=
  ⟨.refl s, rfl, rfl, ⟨rfl, rfl, rfl, rfl⟩, sameRegs_refl .., fun L _ => ⟨_, rfl⟩, fun k L x h => by simp at h⟩

/-- One more lane takes the oldest item. -/
theorem Popped.next {s v : State} {i : Iss} {w : Insn} {done : List Nat} (h : Popped s v i w done) (hd : isS (opD w) = false) {L : Nat} (hL : L < 32)
    (hx : inMask i.ex L = true) (hn : L ∉ done) (hlt : ∀ k ∈ done, k < 32) (hlen : done.length < (itemsOf s i.b).length) : Popped s (ipopLane w i v L) i w (done ++ [L]) := by
  obtain ⟨x, xs, hxs⟩ : ∃ x xs, itemsOf v i.b = x :: xs := by
    cases he : itemsOf v i.b with
    | nil => rw [h.items] at he; have := congrArg List.length he; simp at this; omega
    | cons x xs => exact ⟨x, xs, rfl⟩
  have hitem : (itemsOf s i.b)[done.length]? = some x := by
    have := congrArg (·[0]?) (h.items.symm.trans hxs)
    simpa using this
  set v' := modCore v (v.block i.b).core fun c => { c with items := xs } with hv'
  have hstep : ipopLane w i v L = deliverItem v' i.b i.g L w x := by unfold ipopLane; rw [takeItem_cons hxs]
  have d := delivered_deliverItem v' i.b i.g w x hd hL
  rw [← hstep] at d
  have hc : SameCode v v' := sameCode_modCore _ _ _ ⟨rfl, rfl⟩
  have hg : v'.group i.b i.g = v.group i.b i.g := rfl
  have hrec : recordOf v' i.b = recordOf s i.b := by
    unfold recordOf State.context
    rw [show v'.ctxs = s.ctxs from h.ctxs, show (v'.block i.b).ctx = (s.block i.b).ctx from (h.code.home i.b).2]
  refine ⟨(h.code.trans hc).trans d.upd.sameCode, d.upd.ctxs.trans h.ctxs, ?_, h.mode.trans d.mode, ?_, fun k hk => ?_, fun k M y hM hy => ?_⟩
  · rw [d.upd.itemsOf, itemsOf_taken hxs]
    have := h.items.symm.trans hxs
    rw [List.length_append, List.length_singleton, ← List.drop_drop, this]
    rfl
  · have := h.regs.trans (d.regs.ofLane (gg := i.gg) hx)
    exact this.mono (fun e he => by simpa using he) (fun _ _ h => h) fun _ _ h => h
  · rw [List.mem_append, List.mem_singleton, not_or] at hk
    obtain ⟨l1, e1⟩ := h.rest k hk.1
    obtain ⟨l2, e2⟩ := d.rest k hk.2
    refine ⟨l2, ?_⟩
    rw [laneAt, e2, hg, show (v.group i.b i.g).lane k = _ from e1]
  · rw [List.getElem?_append] at hM
    split_ifs at hM with hkl
    · have hmem : M ∈ done := List.mem_of_getElem? hM
      obtain ⟨g1, g2, g3, g4⟩ := h.got k M y hM hy
      have hML : M ≠ L := fun e => hn (e ▸ hmem)
      obtain ⟨l2, e2⟩ := d.rest M hML
      rw [laneAt, e2, hg]
      exact ⟨g1.elsewhere hd (hlt M hmem) d.regs (by rw [inMask_oneLane]; simp [hML]), g2, g3, g4⟩
    · have hk0 : k - done.length = 0 ∧ M = L := by
        cases hkd : k - done.length with
        | zero => rw [hkd] at hM; exact ⟨rfl, by simpa using hM.symm⟩
        | succ n => rw [hkd] at hM; simp at hM
      have hkeq : k = done.length := by omega
      rw [hkeq, hitem] at hy
      cases hy
      rw [hk0.2]
      refine ⟨d.gets i.ex, d.lane.1, d.lane.2.1, ?_⟩
      rw [laneAt, d.lane.2.2, hrec, hc.landing, h.code.landing]

/-- Where an item is at hand for each executing lane, all take one. -/
theorem popped_foldl {s : State} {i : Iss} {w : Insn} (hd : isS (opD w) = false) (hlen : (lanesOf i.ex).length ≤ (itemsOf s i.b).length) :
    Popped s ((lanesOf i.ex).foldl (ipopLane w i) s) i w (lanesOf i.ex) := by
  refine foldl_invariant (fun done v => Popped s v i w done) (fun done L rest v he hv => ?_) (.refl ..)
  obtain ⟨hn, hL, hx, hlt⟩ := fresh_of_split he
  refine hv.next hd hL hx hn (fun k hk => (hlt k hk).1) ?_
  have := congrArg List.length he
  simp at this
  omega

/-- From s lanes have fallen through one by one. -/
structure Walked (s v : State) (i : Iss) (done : List Nat) : Prop where
  upd   : Upd s v i.b i.g
  only  : LanesOnly (s.group i.b i.g) (v.group i.b i.g)
  lanes : ∀ L, laneAt v i L = if L < 32 ∧ L ∈ done then { laneAt s i L with lpc := w64 (landing s i.b (i.pc + i.len)) } else laneAt s i L

theorem Walked.next {s v : State} {i : Iss} {done : List Nat} (h : Walked s v i done) (L : Nat) : Walked s (advance v i (oneLane L)) i (done ++ [L]) := by
  refine ⟨h.upd.trans (upd_advance ..), h.only.trans (by rw [group_advance]; rfl), fun k => ?_⟩
  rw [laneAt_advance, h.lanes, h.upd.landing, inMask_oneLane]
  by_cases hk : k < 32
  · by_cases hkl : k = L
    · subst hkl
      simp only [hk, List.mem_append, List.mem_singleton, or_true, and_true, if_true, decide_true, Bool.and_self]
      split_ifs <;> rfl
    · simp [hk, hkl]
  · simp [hk]

/-- Where no item is at hand and none is to come, the executing lanes fall through. -/
theorem walked_foldl {s : State} {i : Iss} {w : Insn} (h0 : itemsOf s i.b = []) (he : exhausted s i.b = true) (ls : List Nat) :
    Walked s (ls.foldl (ipopLane w i) s) i ls := by
  refine foldl_invariant (fun done v => Walked s v i done) (fun done L rest v _ hv => ?_) ⟨.refl .., rfl, fun L => by simp⟩
  have : ipopLane w i v L = advance v i (oneLane L) := by
    unfold ipopLane
    rw [takeItem_nil ((hv.upd.itemsOf i.b).trans h0)]
    exact if_pos ((hv.upd.exhausted i.b).trans he)
  rw [this]
  exact hv.next L

/-- Where no item is at hand but more are to come, they park. -/
theorem ipop_parks {s : State} {i : Iss} {w : Insn} (h0 : itemsOf s i.b = []) (he : exhausted s i.b = false) :
    Parks s ((lanesOf i.ex).foldl (ipopLane w i) s) i (· ∈ lanesOf i.ex) fun _ => { cause := pkItem, detail := 0, insn := some w } := by
  refine foldl_invariant (fun done v => Parks s v i (· ∈ done) fun _ => { cause := pkItem, detail := 0, insn := some w }) (fun done L rest v hs hv => ?_)
    (by simpa using Parks.refl s i fun _ => { cause := pkItem, detail := 0, insn := some w })
  have hu := hv.upd
  have : ipopLane w i v L = parkLane v i L { cause := pkItem, detail := 0, insn := some w } := by
    unfold ipopLane
    rw [takeItem_nil ((hu.itemsOf i.b).trans h0)]
    exact if_neg (by rw [hu.exhausted i.b]; rw [show exhausted { s with seq := v.seq } i.b = exhausted s i.b from rfl, he]; simp)
  rw [this]
  have := hv.park (fresh_of_split hs).1
  simpa only [List.mem_append, List.mem_singleton] using this

/-! ## What an IPOP leaves -/

/-- The state in which the executing lanes of an IPOP are served one by one. -/
def ipopStart (w : Insn) (s : State) (i : Iss) : State := advance (guessDests s i [(opD w, 1)]) i (i.iss &&& ~~~i.ex)

theorem runWord_ipop {w : Insn} {s : State} {i : Iss} (h : Issues 0x28 w ipopServed s i) (hp : Plain [] s i) :
    execIpop w s = .next (conclude s i 0x28 w.stall.toNat (w.y == 1) (.next ((lanesOf i.ex).foldl (ipopLane w i) (ipopStart w s i)))) := by
  unfold execIpop
  rw [runWord_issues h, guardEscape_plain hp]
  rfl

theorem group_guessDests (s : State) (i : Iss) (o : Opd) (k : Nat) : (guessDests s i [(o, k)]).group i.b i.g = (s.group i.b i.g).orGuard i.gg o k := by
  unfold guessDests; rw [group_modGroup_self]; rfl

theorem upd_guessDests (s : State) (i : Iss) (ds : List (Opd × Nat)) : Upd s (guessDests s i ds) i.b i.g := upd_modGroup ..

section start
variable {w : Insn} {s : State} {i : Iss} (hd : isS (opD w) = false)
include hd

theorem wrote_guessDests (ex : Mask) : Wrote (s.group i.b i.g) ((guessDests s i [(opD w, 1)]).group i.b i.g) [(.b32, opD w)] ex i.gg := by
  rw [group_guessDests]; exact wrote_orGuard _ _ .b32 hd _

theorem sameRegs_ipopStart (ex : Mask) : SameRegs (s.group i.b i.g) ((ipopStart w s i).group i.b i.g) [(.b32, opD w)] ex i.gg := by
  refine (wrote_guessDests hd ex).regs.alike ?_
  unfold ipopStart
  rw [group_advance]; exact RegsKept.alike ⟨rfl, rfl, rfl, rfl, rfl⟩

theorem laneAt_ipopStart (L : Nat) : laneAt (ipopStart w s i) i L = if L < 32 ∧ inMask (i.iss &&& ~~~i.ex) L = true then
    { laneAt s i L with lpc := w64 (landing s i.b (i.pc + i.len)) } else laneAt s i L := by
  unfold ipopStart
  rw [laneAt_advance, (upd_guessDests ..).landing, laneAt, (wrote_guessDests hd i.ex).un.lane]
  rfl

theorem sameMode_ipopStart : SameMode (s.group i.b i.g) ((ipopStart w s i).group i.b i.g) :=
  (wrote_guessDests hd i.ex).un.sameMode.trans (shifted_advance ..).sameMode

end start

theorem upd_ipopStart (w : Insn) (s : State) (i : Iss) : Upd s (ipopStart w s i) i.b i.g := (upd_guessDests ..).trans (upd_advance ..)

theorem isS_dest_ipop {w : Insn} {s : State} {i : Iss} {bump : State → Iss → Mask} (h : Issues 0x28 w bump s i) : isS (opD w) = false := by
  have := (h.legal).1 (.dest, vOk false (opD w)) (by simp [fieldChecks, class2])
  cases hd : opD w <;> simp [hd, vOk] at this
  rfl

/-- The lanes of the issue set whose guard is false fall through an IPOP. -/
theorem ipop_others {w : Insn} {s t u : State} {i : Iss} (h : Issues 0x28 w ipopServed s i) (r : Rested t u i.b i.g)
    (hl : ∀ L, inMask i.ex L = false → ∃ lap, laneAt t i L = { laneAt (ipopStart w s i) i L with lap := lap }) : OthersFall s i u := by
  refine r.standAt fun L hL hm => ?_
  have hx : inMask i.iss L = true ∧ inMask i.ex L = false := by
    rw [inMask_and, inMask_not _ hL, Bool.and_eq_true, Bool.not_eq_true'] at hm; exact hm
  obtain ⟨lap, e⟩ := hl L hx.2
  rw [e, laneAt_ipopStart (isS_dest_ipop h), if_pos ⟨hL, hm⟩]
  exact ⟨rfl, Lane.still_of_ready (h.standing.lanes L hx.1).2.2.2⟩

theorem ipop_serves {w : Insn} {s : State} {i : Iss} (h : Issues 0x28 w ipopServed s i) (hp : Plain [] s i)
    (hlen : (lanesOf i.ex).length ≤ (itemsOf s i.b).length) : ∃ u, execIpop w s = .next u ∧
      OthersFall s i u ∧ SameRegs (s.group i.b i.g) (u.group i.b i.g) [(.b32, opD w)] i.ex i.gg ∧ itemsOf u i.b = (itemsOf s i.b).drop (lanesOf i.ex).length ∧
      u.mem = s.mem ∧ ∀ (k L x : Nat), (lanesOf i.ex)[k]? = some L → (itemsOf s i.b)[k]? = some x →
        Gets (u.group i.b i.g) i.ex .b32 (opD w) L (x % 2 ^ 32) false ∧ (laneAt u i L).item = w64 x ∧
        (laneAt u i L).lpc = w64 (landing s i.b ((recordOf s i.b).entry + (recordOf s i.b).itemHead)) := by
  refine ⟨_, runWord_ipop h hp, ?_⟩
  have hd := isS_dest_ipop h
  have u1 := upd_ipopStart w s i
  have pop : Popped (ipopStart w s i) ((lanesOf i.ex).foldl (ipopLane w i) (ipopStart w s i)) i w (lanesOf i.ex) :=
    popped_foldl hd (by rw [u1.itemsOf]; exact hlen)
  have r : Rested _ _ i.b i.g := rested_conclude (s := s) (h.waits.congr ((sameMode_ipopStart hd).trans pop.mode)) 0x28 w.stall.toNat (w.y == 1)
  refine ⟨ipop_others h r fun L hx => pop.rest L (fun c => by rw [((mem_lanesOf ..).1 c).2] at hx; cases hx), ?_, ?_, ?_, fun k L x hk hx => ?_⟩
  · exact (((sameRegs_ipopStart hd i.ex).trans pop.regs).mono (fun e he => by simpa using he) (fun _ _ h => h) fun _ _ h => h).alike r.alike
  · rw [r.upd.itemsOf, pop.items, u1.itemsOf]
  · rw [r.upd.mem, pop.code.mem, u1.mem]
  · obtain ⟨g1, g2, g3, g4⟩ := pop.got k L x hk (by rw [u1.itemsOf]; exact hx)
    rw [u1.recordOf, u1.landing] at g4
    have hs := r.still (L := L) (Lane.still_of_ready (by rw [Lane.waits, show ((State.group _ i.b i.g).lane L).park = {} from g3]; rfl))
    refine ⟨g1.alike r.alike, ?_, hs.1.trans g4⟩
    have := r.settled.spec L
    unfold SameLane at this
    rw [laneAt, this]
    exact g2

theorem ipop_exhausted {w : Insn} {s : State} {i : Iss} (h : Issues 0x28 w ipopServed s i) (hp : Plain [] s i) (h0 : itemsOf s i.b = [])
    (he : exhausted s i.b = true) : ∃ u, execIpop w s = .next u ∧
      FallsThrough s i u ∧ u.mem = s.mem ∧ SameRegs (s.group i.b i.g) (u.group i.b i.g) [(.b32, opD w)] 0 i.gg := by
  refine ⟨_, runWord_ipop h hp, ?_⟩
  have hd := isS_dest_ipop h
  have u1 := upd_ipopStart w s i
  have k := walked_foldl (w := w) (i := i) ((u1.itemsOf i.b).trans h0) ((u1.exhausted i.b).trans he) (lanesOf i.ex)
  have hone : LanesOnly _ _ := k.only
  have hmode : SameMode (s.group i.b i.g) (State.group _ i.b i.g) := (sameMode_ipopStart hd).trans (by unfold LanesOnly at hone; rw [hone]; exact ⟨rfl, rfl, rfl, rfl⟩)
  have r : Rested _ _ i.b i.g := rested_conclude (s := s) (h.waits.congr hmode) 0x28 w.stall.toNat (w.y == 1)
  refine ⟨fun L hL hm => ?_, by rw [r.upd.mem, k.upd.mem, u1.mem], ?_⟩
  · have e := k.lanes L
    rw [u1.landing, laneAt_ipopStart hd] at e
    have hready := (h.standing.lanes L hm).2.2.2
    cases hx : inMask i.ex L
    · have hmx : inMask (i.iss &&& ~~~i.ex) L = true := by rw [inMask_and, inMask_not _ hL, hm, hx]; rfl
      rw [if_neg (fun c => by rw [((mem_lanesOf ..).1 c.2).2] at hx; cases hx), if_pos ⟨hL, hmx⟩] at e
      exact (r.still (by rw [show (State.group _ i.b i.g).lane L = _ from e]; exact Lane.still_of_ready hready)).1.trans (congrArg Lane.lpc e)
    · have hmx : inMask (i.iss &&& ~~~i.ex) L = false := by rw [inMask_and, inMask_not _ hL, hm, hx]; rfl
      rw [if_pos ⟨hL, (mem_lanesOf ..).2 ⟨hL, hx⟩⟩, if_neg (by simp [hmx])] at e
      exact (r.still (by rw [show (State.group _ i.b i.g).lane L = _ from e]; exact Lane.still_of_ready hready)).1.trans (congrArg Lane.lpc e)
  · refine ((sameRegs_ipopStart hd 0).alike ?_).alike r.alike
    unfold LanesOnly at hone
    exact RegsKept.alike (by rw [hone]; exact ⟨rfl, rfl, rfl, rfl, rfl⟩)

theorem ipop_waits {w : Insn} {s : State} {i : Iss} (h : Issues 0x28 w ipopServed s i) (hp : Plain [] s i) (h0 : itemsOf s i.b = [])
    (he : exhausted s i.b = false) : ∃ u, execIpop w s = .next u ∧
      OthersFall s i u ∧ ∀ L, L < 32 → inMask i.ex L = true → ParkedAs s u i L 2 0 0 := by
  refine ⟨_, runWord_ipop h hp, ?_⟩
  have hd := isS_dest_ipop h
  have u1 := upd_ipopStart w s i
  have k := ipop_parks (w := w) (i := i) ((u1.itemsOf i.b).trans h0) ((u1.exhausted i.b).trans he)
  have hone : LanesOnly _ _ := k.only
  have hmode : SameMode (s.group i.b i.g) (State.group _ i.b i.g) := (sameMode_ipopStart hd).trans (by unfold LanesOnly at hone; rw [hone]; exact ⟨rfl, rfl, rfl, rfl⟩)
  have r : Rested _ _ i.b i.g := rested_conclude (s := s) (h.waits.congr hmode) 0x28 w.stall.toNat (w.y == 1)
  refine ⟨ipop_others h r fun L hx => ⟨_, k.rest L fun c => by rw [((mem_lanesOf ..).1 c).2] at hx; cases hx⟩, fun L hL hx => ?_⟩
  obtain ⟨n, e⟩ := k.lanes L ((mem_lanesOf ..).2 ⟨hL, hx⟩)
  have hmx : inMask (i.iss &&& ~~~i.ex) L = false := by rw [inMask_and, inMask_not _ hL, hx]; simp
  rw [laneAt_ipopStart hd, if_neg (by simp [hmx])] at e
  obtain ⟨r1, r2⟩ := r.still (L := L) (by rw [show (State.group _ i.b i.g).lane L = _ from e]; exact Lane.still_of_cause (by decide : (2 : Nat) ≠ 5) (by decide : (2 : Nat) ≠ 9))
  rw [show (State.group _ i.b i.g).lane L = _ from e] at r1 r2
  exact ⟨r1, congrArg Park.cause r2, congrArg Park.detail r2, congrArg Park.x r2⟩

/-- Settles O11: EXIT, YIELD and NOP, REJOIN, and the three cases of IPOP. -/
theorem lanesStayWaitAndLeave : Obligations.LanesStayWaitAndLeave :=
  ⟨fun _ => ⟨fun _ _ h hp => exit_leaves h hp,
      fun _ _ h _ => ⟨_, rfl, idle_word h.yieldBit⟩,
      fun _ _ h _ => ⟨_, rfl, idle_word h⟩⟩,
    fun _ _ _ h hp => rejoin_word h hp,
    fun _ => ⟨fun _ _ h hc => ipop_serves h hc.1 hc.2, fun _ _ h hc => ipop_exhausted h hc.1 hc.2.1 hc.2.2, fun _ _ h hc => ipop_waits h hc.1 hc.2.1 hc.2.2⟩⟩

end Sys2Proof.Machine
end

section
/-! PROOF. RTE with a LAP past its range, and privilege (R132, R150, R256, R264, R303, R424, R428). -/

set_option Elab.async false

namespace Sys2Proof.Machine

/-! ## A return that raises no LAP, of lanes whose LAP is past its range -/

/-- Two lanes of a handler set at 0x8000 that go forward to 0x8008, with a LAP of 2^32. -/
def spentGroup : Group where
  exists_ := true
  live := 3
  trapMode := true
  handlerSet := 3
  trapPc := 0x8008
  faultMask := 3
  lanes := [(0, { lpc := 0x8000, lap := 2 ^ 32 }), (1, { lpc := 0x8000, lap := 2 ^ 32 })]

/-- One block on core 0 with that group, over code that can be read. -/
def spentLap : State := tinyMemory [] { State.reset with
    blocks := [(0, { resident := true, groups := [(0, spentGroup)] })]
    ctxs := [(0, { live := true, record := { regs := 512, scalars := 128, scratch := 4096, limit := 1024, lease := 1024, ngrp := 1, nblk := 1 } })]
    parts := [(0, { set := true, coreMask := 1, granN := 1, root := 0x1000 })] }

/-- The two lanes at the word. -/
def spentIss : Iss := withGuard spentLap { pc := 0x8000, iss := 3, len := 8 } ({} : Insn).g

theorem spentLap_issues : Issues 0xF3 {} (rteBump false) spentLap spentIss :=
  ⟨{ pc := 0x8000, iss := 3, len := 8 }, by decide +kernel, by decide +kernel, by decide +kernel, by decide +kernel, by decide +kernel, by decide +kernel, rfl,
    by decide +kernel⟩

/-- Trap mode of group 0 of block 0 after a step. -/
def modeAfter : Out → Bool
  | .next u => (u.group 0 0).trapMode
  | _ => false

/-- No lane goes backward, so that stage 1 tests no LAP; the end of trap mode finds one past its range, and the trap that it raises stops
the context in trap mode. -/
theorem spentLap_stays : modeAfter (exec (.rte {}) spentLap) = true := by decide +kernel

/-- Refutes O15: the last RTE of a handler set does not end trap mode where a LAP is past its range already, though it raises none. -/
theorem not_softwareTrapsAndReturns : ¬Obligations.SoftwareTrapsAndReturns := by
  intro h
  obtain ⟨-, h2⟩ := h
  obtain ⟨-, -, hends, -⟩ := h2 {}
  obtain ⟨u, hu, hm, -⟩ := hends 0 spentLap spentIss spentLap_issues
    ⟨(by decide +kernel : escapes spentLap spentIss true [] = 0), (by decide +kernel), (by decide +kernel)⟩
  have hs := spentLap_stays
  rw [hu] at hs
  have hm' : (u.group 0 0).trapMode = false := hm
  rw [modeAfter, hm'] at hs
  cases hs

/-! ## Privilege -/

/-- From s to t no invalidation has started and no translation has left a core. -/
structure NoInval (s t : State) : Prop where
  part : ∀ p, (t.part p).gen = (s.part p).gen ∧ (t.part p).invBusy = (s.part p).invBusy ∧ (t.part p).invBy = (s.part p).invBy
  tlb  : ∀ c v, v ∈ tkeys (s.core c).tlb → v ∈ tkeys (t.core c).tlb

theorem NoInval.refl (s : State) : NoInval s s := ⟨fun _ => ⟨rfl, rfl, rfl⟩, fun _ _ h => h⟩
theorem NoInval.trans {s t u : State} (h : NoInval s t) (k : NoInval t u) : NoInval s u where
  part := fun p => by
    obtain ⟨h1, h2, h3⟩ := h.part p; obtain ⟨k1, k2, k3⟩ := k.part p
    exact ⟨k1.trans h1, k2.trans h2, k3.trans h3⟩
  tlb := fun c v hv => k.tlb c v (h.tlb c v hv)

theorem NoInval.foldl {α : Type} (f : State → α → State) (hf : ∀ s x, NoInval s (f s x)) (xs : List α) (s : State) : NoInval s (xs.foldl f s) := by
  induction xs generalizing s with
  | nil => exact .refl s
  | cons x xs ih => exact (hf s x).trans (ih _)

theorem noInval_same {s t : State} (hp : t.parts = s.parts) (hc : t.cores = s.cores) : NoInval s t :=
  ⟨fun p => by simp only [State.part, hp, and_self], fun c v hv => by simpa only [State.core, hc] using hv⟩

theorem Upd.noInval {s t : State} {b g : Nat} (h : Upd s t b g) : NoInval s t :=
  ⟨fun p => by rw [h.part]; exact ⟨rfl, rfl, rfl⟩, fun c v hv => by rw [h.coreTlb]; exact hv⟩

theorem noInval_modPart (s : State) (p : Nat) (f : Part_ → Part_)
    (hf : (f (s.part p)).gen = (s.part p).gen ∧ (f (s.part p)).invBusy = (s.part p).invBusy ∧ (f (s.part p)).invBy = (s.part p).invBy) : NoInval s (modPart s p f) :=
  ⟨fun k => by
    rw [part_modPart]; split_ifs with e
    · rw [e]; exact hf
    · exact ⟨rfl, rfl, rfl⟩, fun _ _ h => h⟩

theorem noInval_putBytes (s : State) (bs : List (Nat × Byte)) : NoInval s (putBytes s bs) := NoInval.foldl (fun t (e : Nat × Byte) => putByte t e.1 e.2) (fun _ _ => noInval_same rfl rfl) bs s

theorem noInval_devNum (s : State) (a n x : Nat) : NoInval s (devNum s a n x) := by
  have hs : NoInval s (snoopOwn s a n) := by unfold snoopOwn; split_ifs <;> exact noInval_same rfl rfl
  refine (hs.trans (noInval_putBytes ..)).trans (NoInval.foldl _ (fun t e => ?_) _ _)
  unfold evalChan
  dsimp only
  split
  · exact .refl _
  · split_ifs
    · exact noInval_modPart _ _ _ ⟨rfl, rfl, rfl⟩
    · exact .refl _

theorem noInval_logDirty (s : State) (p va n : Nat) : NoInval s (logDirty s p va n) := by
  unfold logDirty
  dsimp only
  split_ifs
  · exact .refl s
  · exact noInval_modPart _ _ _ ⟨rfl, rfl, rfl⟩
  · exact (noInval_devNum ..).trans (noInval_modPart _ _ _ ⟨rfl, rfl, rfl⟩)

theorem NoInval.ite {s t u : State} {c : Prop} [Decidable c] (h : NoInval s t) (k : NoInval s u) : NoInval s (if c then t else u) := by
  split_ifs <;> assumption

theorem noInval_notePte (s : State) (p va : Nat) (acc : Acc) (e : TlbEntry) : NoInval s (notePte s p va acc e) := by
  unfold notePte
  dsimp only
  refine .ite (.refl s) ?_
  generalize (memRead s e.leaf 8 ||| 2 ^ 10) ||| (if (writes acc && !e.dirty) = true then 2 ^ 11 else 0) = x
  exact .ite ((noInval_devNum ..).trans (noInval_logDirty ..)) (noInval_devNum ..)

theorem mem_tkeys_tset {α : Type} [DecidableEq α] (d : α) (t : Tbl α) (i j : Nat) (v : α) (hv : v ≠ d) (h : j ∈ tkeys t) : j ∈ tkeys (tset d t i v) := by
  rw [tset, if_neg hv]
  induction t with
  | nil => cases h
  | cons e t ih =>
    obtain ⟨k, w⟩ := e
    rcases List.mem_cons.1 h with rfl | h <;> simp only [tins] <;> split_ifs with h1 h2
    all_goals simp_all [tkeys]

theorem noInval_noteXl (s : State) (c p va : Nat) (acc : Acc) (x : Xl) : NoInval s (noteXl s c p va acc x) := by
  refine (noInval_notePte s p va acc x.entry).trans ⟨fun _ => ⟨rfl, rfl, rfl⟩, fun k v hv => ?_⟩
  unfold noteXl
  dsimp only
  rw [core_modCore]
  split_ifs with e
  · rw [← e]
    exact mem_tkeys_tset _ _ _ _ _ (fun e => by have := congrArg TlbEntry.acc e; cases this) hv
  · exact hv

theorem noInval_modCore (s : State) (c : Nat) (f : Core → Core) (hf : (f (s.core c)).tlb = (s.core c).tlb) : NoInval s (modCore s c f) :=
  ⟨fun _ => ⟨rfl, rfl, rfl⟩, fun k v hv => by
    rw [core_modCore]; split_ifs with e
    · subst e; rwa [hf]
    · exact hv⟩

theorem noInval_readTable (s : State) (k n : Nat) : NoInval s (readTable s k n).1 := by
  unfold readTable
  dsimp only
  split
  · exact noInval_noteXl ..
  · exact .refl s

theorem noInval_noteHandler (s : State) (k cause : Nat) : NoInval s (noteHandler s k cause) := by
  rw [noteHandler_eq]
  exact .ite (.refl s) (.ite (noInval_readTable ..) ((noInval_readTable ..).trans (noInval_readTable ..)))

theorem noInval_stopContext (s : State) (b g c d pc : Nat) : NoInval s (stopContext s b g c d pc) := noInval_same rfl rfl

theorem noInval_enterHandler (s : State) (b g a : Nat) (m : Mask) : NoInval s (enterHandler s b g a m) := by
  have hd : NoInval s (dropWaits s b g) := by
    refine (noInval_modCore s (s.block b).core
      (fun c => { c with mmaWait := c.mmaWait.filter fun x => !(x.block == b && x.grp == g) }) rfl).trans (noInval_same ?_ ?_) <;> rfl
  refine hd.trans (noInval_same ?_ ?_)
  all_goals unfold enterHandler renormalise; dsimp only; split_ifs <;> rfl

theorem noInval_takeTrap (s : State) (b g pc : Nat) (t : TrapReq) : NoInval s (takeTrap s b g pc t) := by
  have hr : NoInval s (trapRecord s b g pc t) := (upd_trapRecord s b g pc t).noInval
  have hn := hr.trans (noInval_noteHandler _ b t.cause)
  rcases takeTrap_cases s b g pc t with ⟨-, e⟩ | ⟨-, ⟨c, -, e⟩ | ⟨-, e⟩ | ⟨h, -, e⟩⟩ <;> rw [e]
  · exact hr.trans (noInval_stopContext ..)
  · exact hn.trans (noInval_stopContext ..)
  · exact hn.trans (noInval_stopContext ..)
  · exact .ite (hn.trans (noInval_stopContext ..)) (hn.trans (noInval_enterHandler ..))

/-- The request of a privileged word outside trap mode (R256). -/
def privReq (i : Iss) : TrapReq := { cause := 0x05, fm := i.iss, cm := i.iss }

section privilege
variable {op : Nat} {w : Insn} {s : State} {i : Iss} (h : ReachesPrivilege op w s i) (hm : (s.group i.b i.g).trapMode = false)
  (hw : privileged op w = true)
include h hm hw

/-- A privileged word that is stopped by no earlier check raises PRIV_PATH. -/
theorem runWord_privileged {bump : State → Iss → Mask} (hb : bump s i = 0) (body : State → Iss → Res) :
    runWord op w s bump body = takeTrap (noteIssue s i op w.stall.toNat (w.y == 1)) i.b i.g i.pc (privReq i) := by
  obtain ⟨j, h1, h2, h3, h4, h5, h6, rfl, h8⟩ := h
  have hz : j.iss ≠ 0 := by
    unfold issOf at h1
    dsimp only at h1
    split at h1
    · cases h1
    · rename_i hs
      cases h1
      obtain ⟨L, hL, hi⟩ := (issueSet_spec _ _ _ hs).1
      rintro (rfl : _ = _)
      simp [inMask] at hi
  have h1b : stage1b s (withGuard s j w.g) [{ op := op, w := w }] (bump s (withGuard s j w.g)) = some 5 := by
    rw [hb]; unfold stage1b
    simp [h8, hm, hw]
    simp [lanesOf, inMask]
  unfold runWord
  rw [h1]
  simp only [h2, h3, Bool.or_self, Bool.false_eq_true, if_false, h4, h5, h6, h1b]
  exact (if_neg hz).trans rfl

theorem privilege_traps {bump : State → Iss → Mask} (hb : bump s i = 0) (body : State → Iss → Res) :
    Trapped s (runWord op w s bump body) i 0x05 0 i.iss i.iss := by
  rw [runWord_privileged h hm hw hb body]
  have f := follows_noteIssue s i op w.stall.toNat (w.y == 1)
  obtain ⟨rec, hmem, hhost⟩ := takeTrap_record (noteIssue s i op w.stall.toNat (w.y == 1)) i.b i.g i.pc (privReq i)
  obtain ⟨e1, e2⟩ := tableRead_memories f.1 (by rw [f.2.rest]) 0x05
  exact ⟨rec.cause_eq rfl (Nat.zero_lt_succ _), rec.pc, ⟨rec.fm, rec.cm⟩, f.2.regsKept.trans rec.regs, hmem.trans e1, hhost.trans e2⟩

theorem privilege_noInval {bump : State → Iss → Mask} (hb : bump s i = 0) (body : State → Iss → Res) : NoInval s (runWord op w s bump body) := by
  rw [runWord_privileged h hm hw hb body]
  exact (follows_noteIssue s i op w.stall.toNat (w.y == 1)).1.noInval.trans (noInval_takeTrap ..)

end privilege

theorem rteBump_outside {next : Bool} {s : State} {i : Iss} (hm : (s.group i.b i.g).trapMode = false) : rteBump next s i = 0 := by
  unfold rteBump; dsimp only; rw [if_pos (by rw [hm]; rfl)]

/-- Settles O16: the check of privilege comes before the word's own part, and taking its trap starts no invalidation. -/
theorem privilegeTrap : Obligations.PrivilegeTrap := by
  intro w s i hm
  refine ⟨fun h => ⟨_, rfl, privilege_traps h hm rfl (rteBump_outside hm) _⟩, fun h => ⟨_, rfl, privilege_traps h hm rfl (rteBump_outside hm) _⟩,
    fun h => ⟨_, rfl, privilege_traps h hm rfl rfl _⟩, fun h => ⟨_, rfl, privilege_traps h hm rfl rfl _⟩, ?_, ?_, fun ha h => ?_⟩
  · rintro h u hu
    cases hu
    obtain ⟨hp, ht⟩ := privilege_noInval h hm rfl (bump := noBump) rfl _
    exact ⟨hp, ht⟩
  · rintro h u hu
    cases hu
    obtain ⟨hp, ht⟩ := privilege_noInval h hm rfl (bump := noBump) rfl _
    exact ⟨hp, ht⟩
  · have hw : privileged 0xF1 w = true := by rcases ha with e | e <;> simp [privileged, e]
    exact ⟨_, rfl, privilege_traps h hm hw rfl _⟩

end Sys2Proof.Machine
end

section
/-! PROOF. System registers and time (R107, R396, R424, R426). -/

set_option Elab.async false

namespace Sys2Proof.Machine

/-! ## Words that change the state and go on -/

/-- A word that has changed the state to t, and no lane nor its code, and lets the lanes of m go on. -/
theorem Rested.goesOn {s t u : State} {i : Iss} {m : Mask} (r : Rested (advance t i m) u i.b i.g) (hs : Standing s i)
    (hl : ∀ L, laneAt t i L = laneAt s i L) (hc : ∀ va, landing t i.b va = landing s i.b va) :
    StandAt s u i (m &&& i.iss) (fun _ => i.pc + i.len) ∧
      ∀ L, L < 32 → inMask m L = false → inMask i.iss L = true → (laneAt u i L).lpc = (laneAt s i L).lpc ∧ (laneAt u i L).park = (laneAt s i L).park := by
  refine ⟨fun L hL hm => ?_, fun L hL hm hi => ?_⟩
  · simp only [inMask_and, Bool.and_eq_true] at hm
    have hw := Lane.still_of_ready (hs.lanes L hm.2).2.2.2
    have e := laneAt_advance t i m L
    rw [if_pos ⟨hL, hm.1⟩, hl, hc] at e
    rw [laneAt, (r.still (L := L) (by rw [← laneAt, e]; exact hw)).1, ← laneAt, e]
  · have hw := Lane.still_of_ready (hs.lanes L hi).2.2.2
    have e := laneAt_advance t i m L
    rw [if_neg (by simp [hm]), hl] at e
    have := r.still (L := L) (by rw [← laneAt, e]; exact hw)
    rwa [← laneAt, ← laneAt, e] at this

theorem Rested.fallsThrough {s t u : State} {i : Iss} (r : Rested (advance t i i.iss) u i.b i.g) (hs : Standing s i)
    (hl : ∀ L, laneAt t i L = laneAt s i L) (hc : ∀ va, landing t i.b va = landing s i.b va) : FallsThrough s i u := fun L hL hm =>
  (r.goesOn hs hl hc).1 L hL (by rw [inMask_and, hm]; rfl)

theorem regsKept_advance (t : State) (i : Iss) (m : Mask) : RegsKept (t.group i.b i.g) ((advance t i m).group i.b i.g) := by
  rw [group_advance]; exact ⟨rfl, rfl, rfl, rfl, rfl⟩

/-! ## Reads -/

theorem computesAs_of_body {c : Insn → Instr} {op : Nat} {w : Insn} {lat : Nat} {rt : Ty} {srcs : List (Opd × Nat)} {f : State → Iss → Nat → Nat}
    (h : ∀ s, exec (c w) s = .next (runWord op w s noBump fun s i => aluBody lat rt (opD w) srcs f s i)) : ComputesAs c op w rt srcs f :=
  fun _ _ hi he => ⟨_, h _, alu_computes hi _ lat rt (opD w) srcs f rfl he⟩

/-- SRD of register k gives the value that f names. -/
theorem srd_reads {w : Insn} {k : Nat} {f : State → Iss → Nat → Nat} (hf : ∀ s i L, sysReg s i k L = f s i L) (hk : w.a.toNat = k) :
    ComputesAs .srd 0xF0 w (if srWidth w.a.toNat = some 64 then .b64 else .b32) []
      fun s i L => f s i L % 2 ^ tyBits (if srWidth w.a.toNat = some 64 then .b64 else .b32) :=
  ComputesAs.congr (computesAs_of_body (lat := 0) fun _ => rfl) fun s i L => by rw [← hf, ← hk]

/-! ## Writes -/

theorem valOf_64 (w : Insn) (s : State) (i : Iss) (L : Nat) : val64 s i (opB w) L / 4 * 4 = srcB .b64 w s i L - srcB .b64 w s i L % 4 := by
  show srcB .b64 w s i L / 4 * 4 = _
  omega

theorem Upd.mcReady {s t : State} {b g : Nat} (h : Upd s t b g) (k : Nat) : (t.block k).mcReady = (s.block k).mcReady := by
  simpa using congrArg Block.mcReady (h.block k)

/-- SWR has made of the group what f gives it, of no lane and no register, and of MC_READY the value v. -/
structure Swritten (s u : State) (i : Iss) (f : Group → Group) (v : Nat) : Prop where
  falls : FallsThrough s i u
  regs  : RegsKept (s.group i.b i.g) (u.group i.b i.g)
  mem   : u.mem = s.mem
  traps : SameTraps (f (s.group i.b i.g)) (u.group i.b i.g)
  ready : (u.block i.b).mcReady = v

/-- What SWR writes, L0 being the lowest executing lane. -/
def swrState (w : Insn) (s : State) (i : Iss) (L0 : Nat) : State :=
  match w.a.toNat with
  | 0x021 => modGroup s i.b i.g fun q => { q with trapPc := w64 (val64 s i (opB w) L0 / 4 * 4) }
  | 0x022 => modGroup s i.b i.g fun q => { q with faultMask := q.faultMask &&& w32 (val32 s i (opB w) L0) }
  | _ => setReady s i.b fun old => old ||| (lanesOf i.ex).foldl (fun acc k => acc ||| val32 s i (opB w) k) 0

section swr
variable {w : Insn} {s : State} {i : Iss} (h : Issues 0xF1 w noBump s i)
include h

theorem swritten_of {t : State} {f : Group → Group} (hg : t.group i.b i.g = f (s.group i.b i.g)) (hf : f = fun q => { q with trapPc := (f q).trapPc, faultMask := (f q).faultMask })
    (hc : SameCode s t) {body : State → Iss → Res} (hb : body s i = .next (advance t i i.iss)) :
    Swritten s (runWord 0xF1 w s noBump body) i f (t.block i.b).mcReady := by
  have hl : ∀ L, laneAt t i L = laneAt s i L := fun L => by unfold laneAt; rw [hg, hf]; rfl
  have r := rested_of h hb (by rw [group_advance, hg, hf]; exact ⟨rfl, rfl, rfl, rfl⟩)
  have hu := (upd_advance t i i.iss).trans r.upd
  refine ⟨r.fallsThrough h.standing hl fun va => hc.landing .., ?_, hu.mem.trans hc.mem, r.sameTraps (by rw [← hg]; exact shifted_advance ..), ?_⟩
  · refine RegsKept.trans ?_ ((regsKept_advance t i i.iss).trans r.regsKept)
    rw [hg, hf]; exact ⟨rfl, rfl, rfl, rfl, rfl⟩
  · exact hu.mcReady i.b

/-- What SWR writes, where a lane executes. -/
theorem execSwr_goes {L0 : Nat} (hp : Plain [(opB w, spanB 0xF1 w)] s i) (hL : (lanesOf i.ex).head? = some L0) {t : State}
    {f : Group → Group} (hf : f = fun q => { q with trapPc := (f q).trapPc, faultMask := (f q).faultMask }) (hg : t.group i.b i.g = f (s.group i.b i.g))
    (hc : SameCode s t) (ht : t = swrState w s i L0) : ∃ u, exec (.swr w) s = .next u ∧ Swritten s u i f (t.block i.b).mcReady := by
  refine ⟨_, rfl, swritten_of h hg hf hc ?_⟩
  dsimp only
  rw [if_neg (by rw [hp]; decide), ht, swrState]
  cases hl : lanesOf i.ex with
  | nil => rw [hl] at hL; cases hL
  | cons L ls =>
    rw [hl] at hL
    cases hL
    rfl

end swr

theorem foldl_or_map (f : Nat → Nat) (xs : List Nat) (a : Nat) : xs.foldl (fun acc k => acc ||| f k) a = (xs.map f).foldl (· ||| ·) a := by
  rw [List.foldl_map]

/-- What Swritten says of each register that SWR may write. -/
theorem Swritten.split {s u : State} {i : Iss} {f : Group → Group} {v : Nat} (h : Swritten s u i f v)
    (hf : f = fun q => { q with trapPc := (f q).trapPc, faultMask := (f q).faultMask }) :
    FallsThrough s i u ∧ RegsKept (s.group i.b i.g) (u.group i.b i.g) ∧ u.mem = s.mem ∧
      (u.group i.b i.g).trapCause = (s.group i.b i.g).trapCause ∧ (u.group i.b i.g).causeMask = (s.group i.b i.g).causeMask ∧
      (u.group i.b i.g).trapMode = (s.group i.b i.g).trapMode ∧ (u.group i.b i.g).trapPc = (f (s.group i.b i.g)).trapPc ∧
      (u.group i.b i.g).faultMask = (f (s.group i.b i.g)).faultMask := by
  obtain ⟨hmode, -⟩ := h.traps.mode
  obtain ⟨hcause, hpc, hfm, hcm⟩ := h.traps.record
  refine ⟨h.falls, h.regs, h.mem, hcause.trans ?_, hcm.trans ?_, hmode.trans ?_, hpc, hfm⟩ <;> rw [hf]

theorem swr_trapPc (w : Insn) (L0 : Nat) (hn : w.a.toNat = 0x021) : Runs .swr 0xF1 w noBump
    (fun s i => Plain [(opB w, spanB 0xF1 w)] s i ∧ (lanesOf i.ex).head? = some L0)
    (fun s i u => FallsThrough s i u ∧ RegsKept (s.group i.b i.g) (u.group i.b i.g) ∧ u.mem = s.mem ∧
      (u.group i.b i.g).trapCause = (s.group i.b i.g).trapCause ∧ (u.group i.b i.g).causeMask = (s.group i.b i.g).causeMask ∧
      (u.group i.b i.g).trapMode = (s.group i.b i.g).trapMode ∧
      (u.group i.b i.g).trapPc = w64 (srcB .b64 w s i L0 - srcB .b64 w s i L0 % 4) ∧
      (u.group i.b i.g).faultMask = (s.group i.b i.g).faultMask ∧ (u.block i.b).mcReady = (s.block i.b).mcReady) := by
  rintro s i h ⟨hp, hL⟩
  obtain ⟨u, hu, k⟩ := execSwr_goes h hp hL (f := fun q => { q with trapPc := w64 (val64 s i (opB w) L0 / 4 * 4) }) rfl
    (group_modGroup_self s i.b i.g fun q => { q with trapPc := w64 (val64 s i (opB w) L0 / 4 * 4) }) (upd_modGroup s i.b i.g _).sameCode (by simp only [swrState, hn])
  obtain ⟨h1, h2, h3, h4, h5, h6, h7, h8⟩ := k.split rfl
  exact ⟨u, hu, h1, h2, h3, h4, h5, h6, h7.trans (congrArg w64 (valOf_64 ..)), h8, k.ready.trans ((upd_modGroup s i.b i.g _).mcReady i.b)⟩

theorem swr_faultMask (w : Insn) (L0 : Nat) (hn : w.a.toNat = 0x022) : Runs .swr 0xF1 w noBump
    (fun s i => Plain [(opB w, spanB 0xF1 w)] s i ∧ (lanesOf i.ex).head? = some L0)
    (fun s i u => FallsThrough s i u ∧ RegsKept (s.group i.b i.g) (u.group i.b i.g) ∧ u.mem = s.mem ∧
      (u.group i.b i.g).trapCause = (s.group i.b i.g).trapCause ∧ (u.group i.b i.g).causeMask = (s.group i.b i.g).causeMask ∧
      (u.group i.b i.g).trapMode = (s.group i.b i.g).trapMode ∧
      (u.group i.b i.g).faultMask = (s.group i.b i.g).faultMask &&& w32 (srcB .b32 w s i L0) ∧
      (u.group i.b i.g).trapPc = (s.group i.b i.g).trapPc ∧ (u.block i.b).mcReady = (s.block i.b).mcReady) := by
  rintro s i h ⟨hp, hL⟩
  obtain ⟨u, hu, k⟩ := execSwr_goes h hp hL (f := fun q => { q with faultMask := q.faultMask &&& w32 (val32 s i (opB w) L0) }) rfl
    (group_modGroup_self s i.b i.g fun q => { q with faultMask := q.faultMask &&& w32 (val32 s i (opB w) L0) }) (upd_modGroup s i.b i.g _).sameCode (by simp only [swrState, hn])
  obtain ⟨h1, h2, h3, h4, h5, h6, h7, h8⟩ := k.split rfl
  exact ⟨u, hu, h1, h2, h3, h4, h5, h6, h8, h7, k.ready.trans ((upd_modGroup s i.b i.g _).mcReady i.b)⟩

theorem swr_mcReady (w : Insn) (L0 : Nat) (hn : w.a.toNat = 0x030) : Runs .swr 0xF1 w noBump
    (fun s i => Plain [(opB w, spanB 0xF1 w)] s i ∧ (lanesOf i.ex).head? = some L0)
    (fun s i u => FallsThrough s i u ∧ RegsKept (s.group i.b i.g) (u.group i.b i.g) ∧ u.mem = s.mem ∧
      (u.group i.b i.g).trapCause = (s.group i.b i.g).trapCause ∧ (u.group i.b i.g).causeMask = (s.group i.b i.g).causeMask ∧
      (u.group i.b i.g).trapMode = (s.group i.b i.g).trapMode ∧ (u.block i.b).mcReady =
        ((s.block i.b).mcReady ||| ((lanesOf i.ex).map fun L => srcB .b32 w s i L).foldl (· ||| ·) 0) % 256 ∧
      (u.group i.b i.g).trapPc = (s.group i.b i.g).trapPc ∧ (u.group i.b i.g).faultMask = (s.group i.b i.g).faultMask) := by
  rintro s i h ⟨hp, hL⟩
  obtain ⟨u, hu, k⟩ := execSwr_goes h hp hL (f := id) rfl
    (t := setReady s i.b fun old => old ||| (lanesOf i.ex).foldl (fun acc k => acc ||| val32 s i (opB w) k) 0)
    (by unfold setReady; rw [group_modBlock, if_pos rfl]; rfl) (sameCode_modBlock _ _ _ ⟨rfl, rfl⟩) (by simp only [swrState, hn])
  obtain ⟨h1, h2, h3, h4, h5, h6, h7, h8⟩ := k.split rfl
  refine ⟨u, hu, h1, h2, h3, h4, h5, h6, k.ready.trans ?_, h7, h8⟩
  rw [setReady, block_modBlock, if_pos rfl, foldl_or_map]
  rfl

/-- Settles O17: SRD selects by the register's number; SWR changes one field and goes on. -/
theorem systemRegisters : Obligations.SystemRegisters := by
  refine ⟨fun w => ⟨?_, ?_, ?_, ?_, ?_, ?_, ?_, ?_, ?_, ?_, ?_, ?_, ?_, ?_, ?_, ?_, ?_, ?_, ?_, ?_, ?_, ?_, ?_, ?_, ?_, ?_, ?_, ?_, ?_, ?_, ?_,
    fun k hk => ?_, computesAs_of_body (lat := 4) fun _ => rfl, computesAs_of_body (lat := 4) fun _ => rfl⟩,
    fun w L0 => ⟨swr_trapPc w L0, swr_faultMask w L0, swr_mcReady w L0⟩⟩
  case refine_32 => exact srd_reads fun s i L => by interval_cases k <;> rfl
  all_goals exact srd_reads fun _ _ _ => rfl

end Sys2Proof.Machine
end

section
/-! PROOF. Words that deal with their executing lanes one by one, each going on or parking (R131, R136). -/

set_option Elab.async false

namespace Sys2Proof.Machine

/-- What a word does with a lane: it goes on, or parks. -/
inductive Fate
  | goes
  | waits (p : Park)

/-- The lane l, at which lane L of s has arrived, has gone on past pad words or has parked at the word. -/
def Fared (s : State) (i : Iss) (L : Nat) (l : Lane) : Fate → Prop
  | .goes => l.lpc = w64 (landing s i.b (i.pc + i.len)) ∧ l.park = (laneAt s i L).park
  | .waits p => l.lpc = (laneAt s i L).lpc ∧ ∃ now marks, l.park = { p with since := now, marks := marks }

theorem Fared.code {s t : State} {i : Iss} {L : Nat} {l : Lane} {f : Fate} (h : Fared s i L l f) (hc : SameCode t s) (hl : laneAt t i L = laneAt s i L) :
    Fared t i L l f := by
  cases f with
  | goes => exact ⟨h.1.trans (by rw [hc.landing]), h.2.trans (by rw [hl])⟩
  | waits p => exact ⟨h.1.trans (by rw [hl]), h.2⟩

/-- From v to v' lane L of the issuing group has been dealt with: the registers ds of that lane may differ, and no other lane. -/
structure LaneDone (v v' : State) (i : Iss) (ds : List (Ty × Opd)) (L : Nat) : Prop where
  code : SameCode v v'
  mode : SameMode (v.group i.b i.g) (v'.group i.b i.g)
  regs : SameRegs (v.group i.b i.g) (v'.group i.b i.g) ds (oneLane L) 0
  kept : ds = [] → RegsKept (v.group i.b i.g) (v'.group i.b i.g)
  rest : ∀ k, k ≠ L → laneAt v' i k = laneAt v i k

theorem LaneDone.refl (v : State) (i : Iss) (ds : List (Ty × Opd)) (L : Nat) : LaneDone v v i ds L :=
  ⟨.refl v, ⟨rfl, rfl, rfl, rfl⟩, sameRegs_refl .., fun _ => .refl _, fun _ _ => rfl⟩

theorem LaneDone.trans {v v' v'' : State} {i : Iss} {ds es : List (Ty × Opd)} {L : Nat} (h : LaneDone v v' i ds L) (k : LaneDone v' v'' i es L) :
    LaneDone v v'' i (ds ++ es) L :=
  ⟨h.code.trans k.code, h.mode.trans k.mode, h.regs.trans k.regs, fun e => (h.kept (List.append_eq_nil_iff.1 e).1).trans (k.kept (List.append_eq_nil_iff.1 e).2), fun j hj => (k.rest j hj).trans (h.rest j hj)⟩

theorem LaneDone.mono {v v' : State} {i : Iss} {ds es : List (Ty × Opd)} {L : Nat} (h : LaneDone v v' i ds L) (hd : ∀ e ∈ ds, e ∈ es) :
    LaneDone v v' i es L := ⟨h.code, h.mode, h.regs.mono hd (fun _ _ h => h) fun _ _ h => h, fun e => h.kept (List.eq_nil_iff_forall_not_mem.2 fun x hx => by have := hd x hx; rw [e] at this; cases this), h.rest⟩

/-- Only lanes of the group have changed, and of them only L. -/
theorem LaneDone.ofLanes {v v' : State} {i : Iss} {L : Nat} (hc : SameCode v v') (ho : LanesOnly (v.group i.b i.g) (v'.group i.b i.g))
    (hr : ∀ k, k ≠ L → laneAt v' i k = laneAt v i k) : LaneDone v v' i [] L := by
  unfold LanesOnly at ho
  have hk : RegsKept (v.group i.b i.g) (v'.group i.b i.g) := by rw [ho]; exact ⟨rfl, rfl, rfl, rfl, rfl⟩
  exact ⟨hc, by rw [ho]; exact ⟨rfl, rfl, rfl, rfl⟩, (sameRegs_refl ..).alike hk.alike, fun _ => hk, hr⟩

theorem laneDone_advance (v : State) (i : Iss) (L : Nat) : LaneDone v (advance v i (oneLane L)) i [] L :=
  .ofLanes (upd_advance ..).sameCode (by rw [group_advance]; rfl) fun k hk => by
    rw [laneAt_advance, if_neg]; rw [inMask_oneLane]; simp [hk]

theorem laneDone_parkLane (v : State) (i : Iss) (L : Nat) (p : Park) : LaneDone v (parkLane v i L p) i [] L :=
  .ofLanes ((sameCode_seq v _).trans (upd_parkLane v i L p).sameCode) (lanesOnly_parkLane ..) fun k hk => by rw [laneAt_parkLane, if_neg hk]

theorem laneDone_resLane (v : State) (i : Iss) (cyc lat : Nat) (t : Ty) {o : Opd} (ho : isS o = false) {L : Nat} (hL : L < 32) (x : Nat) (gb : Bool) :
    LaneDone v (modGroup v i.b i.g fun q => q.resLane cyc lat (wide t) o L x gb) i [(t, o)] L := by
  have hw := wrote_resLane (v.group i.b i.g) cyc lat t ho hL x gb
  refine ⟨(upd_modGroup ..).sameCode, ?_, ?_, fun e => (by cases e), fun k _ => ?_⟩ <;> try rw [group_modGroup_self]
  · exact hw.un.sameMode
  · exact hw.regs
  · unfold laneAt; rw [group_modGroup_self, hw.un.lane]

theorem laneAt_resLane (v : State) (i : Iss) (cyc lat : Nat) (t : Ty) {o : Opd} (ho : isS o = false) {L : Nat} (hL : L < 32) (x : Nat) (gb : Bool) (k : Nat) :
    laneAt (modGroup v i.b i.g fun q => q.resLane cyc lat (wide t) o L x gb) i k = laneAt v i k := by
  unfold laneAt; rw [group_modGroup_self, (wrote_resLane (v.group i.b i.g) cyc lat t ho hL x gb).un.lane]

theorem gets_advance_resLane (v : State) (i : Iss) (cyc lat : Nat) (t : Ty) {o : Opd} (ho : isS o = false) {L : Nat} (hL : L < 32) (x : Nat) (gb : Bool)
    {m : Mask} : Gets ((advance (modGroup v i.b i.g fun q => q.resLane cyc lat (wide t) o L x gb) i m).group i.b i.g) i.ex t o L x gb := by
  refine Gets.alike ?_ (regsKept_advance ..).alike
  rw [group_modGroup_self]
  exact gets_resLane _ cyc lat t ho hL x gb i.ex

/-- From s the lanes listed have been dealt with, each as `fate` says. -/
structure LanesDone (s v : State) (i : Iss) (ds : List (Ty × Opd)) (fate : Nat → Fate) (done : List Nat) : Prop where
  code  : SameCode s v
  mode  : SameMode (s.group i.b i.g) (v.group i.b i.g)
  regs  : SameRegs (s.group i.b i.g) (v.group i.b i.g) ds i.ex i.gg
  kept  : ds = [] → RegsKept (s.group i.b i.g) (v.group i.b i.g)
  rest  : ∀ L, L ∉ done → laneAt v i L = laneAt s i L
  fared : ∀ L ∈ done, Fared s i L (laneAt v i L) (fate L)

theorem LanesDone.refl (s : State) (i : Iss) (ds : List (Ty × Opd)) (fate : Nat → Fate) : LanesDone s s i ds fate [] :=
  ⟨.refl s, ⟨rfl, rfl, rfl, rfl⟩, sameRegs_refl .., fun _ => .refl _, fun _ _ => rfl, fun _ h => by cases h⟩

/-- One more lane is dealt with. -/
theorem LanesDone.next {s v v' : State} {i : Iss} {ds : List (Ty × Opd)} {fate : Nat → Fate} {done : List Nat} (h : LanesDone s v i ds fate done)
    {L : Nat} (hx : inMask i.ex L = true) (hn : L ∉ done) (d : LaneDone v v' i ds L) (hf : Fared v i L (laneAt v' i L) (fate L)) :
    LanesDone s v' i ds fate (done ++ [L]) := by
  refine ⟨h.code.trans d.code, h.mode.trans d.mode, ?_, fun e => (h.kept e).trans (d.kept e), fun k hk => ?_, fun k hk => ?_⟩
  · exact (h.regs.trans (d.regs.ofLane (gg := i.gg) hx)).mono (fun e he => by simpa using he) (fun _ _ h => h) fun _ _ h => h
  · rw [List.mem_append, List.mem_singleton, not_or] at hk
    rw [d.rest k hk.2, h.rest k hk.1]
  · by_cases e : k = L
    · subst e
      exact hf.code h.code (h.rest k hn).symm
    · rw [d.rest k e]
      exact h.fared k (by simpa [e] using hk)

theorem fared_advance {v t : State} {i : Iss} {L : Nat} (hL : L < 32) (hc : SameCode v t) (hl : laneAt t i L = laneAt v i L) :
    Fared v i L (laneAt (advance t i (oneLane L)) i L) .goes := by
  rw [laneAt_advance, if_pos ⟨hL, by rw [inMask_oneLane]; simp [hL]⟩, hl, hc.landing]
  exact ⟨rfl, rfl⟩

theorem fared_parkLane (v : State) (i : Iss) (L : Nat) (p : Park) : Fared v i L (laneAt (parkLane v i L p) i L) (.waits p) := by
  rw [laneAt_parkLane, if_pos rfl]
  exact ⟨rfl, _, _, rfl⟩

/-! ## The word as a whole -/

/-- Lane L has gone on, or stands parked at the word. -/
def Stands (s u : State) (i : Iss) (L : Nat) : Fate → Prop
  | .goes => (laneAt u i L).lpc = w64 (landing s i.b (i.pc + i.len))
  | .waits p => p.cause ≠ 5 → p.cause ≠ 9 → ParkedAs s u i L p.cause p.detail p.x ∧ (laneAt u i L).park.y = p.y

/-- What a word leaves that deals with its executing lanes one by one; the lanes whose guard is false fall through. -/
structure LaneWord (s u : State) (i : Iss) (ds : List (Ty × Opd)) (fate : Nat → Fate) : Prop where
  others : OthersFall s i u
  mem    : u.mem = s.mem
  regs   : SameRegs (s.group i.b i.g) (u.group i.b i.g) ds i.ex i.gg
  kept   : ds = [] → RegsKept (s.group i.b i.g) (u.group i.b i.g)
  lanes  : ∀ L, L < 32 → inMask i.ex L = true → Stands s u i L (fate L)

/-- Before its lanes are dealt with, a word lets the others go on and marks its destinations by guessed guards. -/
structure Begun (s t : State) (i : Iss) (ds : List (Ty × Opd)) : Prop where
  code  : SameCode s t
  mode  : SameMode (s.group i.b i.g) (t.group i.b i.g)
  regs  : SameRegs (s.group i.b i.g) (t.group i.b i.g) ds i.ex i.gg
  kept  : ds = [] → RegsKept (s.group i.b i.g) (t.group i.b i.g)
  lanes : ∀ L, laneAt t i L = laneAt s i L

theorem Begun.refl (s : State) (i : Iss) (ds : List (Ty × Opd)) : Begun s s i ds :=
  ⟨.refl s, ⟨rfl, rfl, rfl, rfl⟩, sameRegs_refl .., fun _ => .refl _, fun _ => rfl⟩

theorem Begun.trans {s t u : State} {i : Iss} {ds es : List (Ty × Opd)} (h : Begun s t i ds) (k : Begun t u i es) : Begun s u i (ds ++ es) :=
  ⟨h.code.trans k.code, h.mode.trans k.mode, h.regs.trans k.regs, fun e => (h.kept (List.append_eq_nil_iff.1 e).1).trans (k.kept (List.append_eq_nil_iff.1 e).2),
    fun L => (k.lanes L).trans (h.lanes L)⟩

theorem begun_orGuard (s : State) (i : Iss) (t : Ty) {o : Opd} (ho : isS o = false) :
    Begun s (modGroup s i.b i.g fun q => q.orGuard i.gg o (two (wide t))) i [(t, o)] := by
  have hw := wrote_orGuard (s.group i.b i.g) i.gg t ho i.ex
  refine ⟨(upd_modGroup ..).sameCode, ?_, ?_, fun e => (by cases e), fun L => ?_⟩ <;> try rw [group_modGroup_self]
  · exact hw.un.sameMode
  · exact hw.regs
  · unfold laneAt; rw [group_modGroup_self, hw.un.lane]

theorem guessDests_one (s : State) (i : Iss) (o : Opd) (k : Nat) : guessDests s i [(o, k)] = modGroup s i.b i.g fun q => q.orGuard i.gg o k := rfl

section word
variable {s t v : State} {i : Iss} {ds es : List (Ty × Opd)} {fate : Nat → Fate} {op : Nat} {w : Insn}
  {bump : State → Iss → Mask} (h : Issues op w bump s i) (hb : Begun s t i ds)
  (hd : LanesDone (advance t i (i.iss &&& ~~~i.ex)) v i es fate (lanesOf i.ex))
include h hb hd

theorem LanesDone.rested (stall : Nat) (y : Bool) : Rested v (conclude s i op stall y (.next v)) i.b i.g :=
  rested_conclude (h.waits.congr ((hb.mode.trans (shifted_advance ..).sameMode).trans hd.mode)) op stall y

theorem LanesDone.word (stall : Nat) (y : Bool) : LaneWord s (conclude s i op stall y (.next v)) i (ds ++ es) fate := by
  have hs := h.standing
  have r := hd.rested h hb stall y
  have he : ∀ L, L < 32 → laneAt (advance t i (i.iss &&& ~~~i.ex)) i L =
      if inMask i.iss L = true ∧ inMask i.ex L = false then { laneAt s i L with lpc := w64 (landing s i.b (i.pc + i.len)) } else laneAt s i L := fun L hL => by
    rw [laneAt_advance, hb.lanes, hb.code.landing, inMask_and, inMask_not _ hL]
    refine if_congr ?_ rfl rfl
    simp [hL]
  have hc : SameCode s (advance t i (i.iss &&& ~~~i.ex)) := hb.code.trans (upd_advance ..).sameCode
  refine ⟨r.standAt fun L hL hm => ?_, ?_, ?_, fun e => ?_, fun L hL hx => ?_⟩
  · have hm' : inMask i.iss L = true ∧ inMask i.ex L = false := by
      rw [inMask_and, inMask_not _ hL, Bool.and_eq_true, Bool.not_eq_true'] at hm; exact hm
    rw [hd.rest L fun c => (by rw [((mem_lanesOf ..).1 c).2] at hm'; exact absurd hm'.2 (by simp)), he L hL, if_pos hm']
    exact ⟨rfl, Lane.still_of_ready (hs.lanes L hm'.1).2.2.2⟩
  · rw [r.upd.mem, hd.code.mem, hc.mem]
  · refine SameRegs.alike ?_ r.alike
    refine hb.regs.trans (SameRegs.trans (ds := []) (sameRegs_refl .. |>.alike (regsKept_advance ..).alike) hd.regs)
  · obtain ⟨e1, e2⟩ := List.append_eq_nil_iff.1 e
    exact (((hb.kept e1).trans (regsKept_advance ..)).trans (hd.kept e2)).trans r.regsKept
  · have hf := hd.fared L ((mem_lanesOf ..).2 ⟨hL, hx⟩)
    have hl := he L hL
    rw [if_neg (by simp [hx])] at hl
    replace hf := hf.code hc hl.symm
    cases e : fate L with
    | goes =>
      rw [e] at hf
      refine (r.still (L := L) ?_).1.trans hf.1
      exact Lane.still_of_ready (by
        rw [Lane.waits, show ((v.group i.b i.g).lane L).park = _ from hf.2]; exact (hs.lanes L (ex_of_withGuard h hx)).2.2.2)
    | waits p =>
      rw [e] at hf
      intro h5 h9
      obtain ⟨hpc, now, mk, hp⟩ := hf
      obtain ⟨r1, r2⟩ := r.still (L := L) (Lane.still_of_cause (by rw [show ((v.group i.b i.g).lane L).park = _ from hp]; exact h5)
        (by rw [show ((v.group i.b i.g).lane L).park = _ from hp]; exact h9))
      rw [show ((v.group i.b i.g).lane L).park = _ from hp] at r2
      exact ⟨⟨r1.trans hpc, (congrArg Park.cause r2).trans rfl, (congrArg Park.detail r2).trans rfl, (congrArg Park.x r2).trans rfl⟩, (congrArg Park.y r2).trans rfl⟩

end word

/-- The destinations written so far hold their values, and so does the one of the next lane. -/
theorem LaneDone.gets {v v' : State} {i : Iss} {es : List (Ty × Opd)} {L : Nat} (d : LaneDone v v' i es L) {t : Ty} {o : Opd} (ho : isS o = false)
    {done : List Nat} {P : Nat → Prop} {x : Nat → Nat} {gb : Nat → Bool} (hlt : ∀ k ∈ done, k < 32) (hn : L ∉ done)
    (hg : ∀ k ∈ done, P k → Gets (v.group i.b i.g) i.ex t o k (x k) (gb k)) (hL : P L → Gets (v'.group i.b i.g) i.ex t o L (x L) (gb L)) :
    ∀ k ∈ done ++ [L], P k → Gets (v'.group i.b i.g) i.ex t o k (x k) (gb k) := fun k hk hp => by
  rw [List.mem_append, List.mem_singleton] at hk
  rcases hk with hk | rfl
  · exact (hg k hk hp).elsewhere ho (hlt k hk) d.regs (by rw [inMask_oneLane]; simp; rintro - rfl; exact hn hk)
  · exact hL hp

/-! ## What stays of the machine -/

/-- From s to t nothing differs but the count of parkings and requests, groups of blocks and quadrants, and of the groups only g of b. -/
structure Within (s t : State) (b g : Nat) : Prop where
  upd : Upd { s with seq := t.seq } t b g

theorem Within.refl (s : State) (b g : Nat) : Within s s b g := ⟨.refl ..⟩

theorem Upd.within {s t : State} {b g : Nat} (h : Upd s t b g) : Within s t b g := by
  have : t.seq = s.seq := by rw [h.rest]
  exact ⟨by rw [this]; exact h⟩

theorem Within.trans {s t u : State} {b g : Nat} (h : Within s t b g) (k : Within t u b g) : Within s u b g := by
  obtain ⟨h1, h2, h3, h4⟩ := h.upd
  have : Upd { s with seq := u.seq } { t with seq := u.seq } b g := ⟨by rw [h1], h2, h3, h4⟩
  exact ⟨this.trans k.upd⟩

theorem within_parkLane (s : State) (i : Iss) (L : Nat) (p : Park) : Within s (parkLane s i L p) i.b i.g := ⟨upd_parkLane s i L p⟩

section within
variable {s t : State} {b g : Nat} (h : Within s t b g)
include h

theorem Within.itemsOf (k : Nat) : Machine.itemsOf t k = Machine.itemsOf s k := h.upd.itemsOf k
theorem Within.exhausted (k : Nat) : Machine.exhausted t k = Machine.exhausted s k := h.upd.exhausted k
theorem Within.queues (k : Nat) : (t.block k).queues = (s.block k).queues :=
  (congrArg Block.queues (h.upd.block k) : _)
theorem Within.objs (k : Nat) : (t.block k).objs = (s.block k).objs :=
  (congrArg Block.objs (h.upd.block k) : _)

end within

end Sys2Proof.Machine
end

section
/-! PROOF. Fences and sleeps, invalidations, waits, counters and program records (R156, R180–R182, R386, R395, R429–R432). -/

set_option Elab.async false

namespace Sys2Proof.Machine

/-! ## Fences -/

theorem all_lanes {m : Mask} {f : Nat → Bool} (h : ∀ L, L < 32 → inMask m L = true → f L = true) : (lanesOf m).all f = true := by
  rw [List.all_eq_true]
  exact fun L hL => h L ((mem_lanesOf ..).1 hL).1 ((mem_lanesOf ..).1 hL).2

/-- A word that only lets its lanes go on. -/
theorem quiet_falls {op : Nat} {w : Insn} {s : State} {i : Iss} (h : Issues op w noBump s i) {body : State → Iss → Res}
    (hb : body s i = .next (advance s i i.iss)) : Quiet s i [] (runWord op w s noBump body) ∧ FallsThrough s i (runWord op w s noBump body) :=
  have hc : Completed s s i i.iss _ := (Puts.refl s i []).completed h hb
  ⟨hc.quiet (.refl ..), hc.fallsThrough⟩

/-- The lanes of a FENCE.rel, each with the release that later words wait for. -/
def released (s : State) (i : Iss) (scope : Nat) : State :=
  modGroup s i.b i.g fun q => q.mapLanes i.ex fun _ l => { l with rel := l.rel ++ [(scope, s.seq)] }

theorem laneAt_released (s : State) (i : Iss) (scope L : Nat) : laneAt (released s i scope) i L =
    if L < 32 ∧ inMask i.ex L = true then { laneAt s i L with rel := (laneAt s i L).rel ++ [(scope, s.seq)] } else laneAt s i L := by
  unfold released laneAt; rw [group_modGroup_self, lane_mapLanes]

theorem fence_rel {w : Insn} {s : State} {i : Iss} (h : Issues 0xB0 w noBump s i) {scope : Nat} {body : State → Iss → Res}
    (hb : body s i = .next (advance (released s i scope) i i.iss)) : let u := runWord 0xB0 w s noBump body
    (FallsThrough s i u ∧ RegsKept (s.group i.b i.g) (u.group i.b i.g) ∧ SameElse s u i.b i.g) ∧
      ∀ L, L < 32 → inMask i.ex L = true → (laneAt u i L).rel = (laneAt s i L).rel ++ [(scope, s.seq)] := by
  intro u
  have hu : Upd s (released s i scope) i.b i.g := upd_modGroup ..
  have hg : (released s i scope).group i.b i.g = (s.group i.b i.g).mapLanes i.ex fun _ l => { l with rel := l.rel ++ [(scope, s.seq)] } := group_modGroup_self ..
  have r : Rested (advance (released s i scope) i i.iss) u i.b i.g := rested_of h hb (by rw [group_advance, hg]; exact ⟨rfl, rfl, rfl, rfl⟩)
  have hw : ∀ L, inMask i.iss L = true → L < 32 ∧ (laneAt (advance (released s i scope) i i.iss) i L).lpc = w64 (landing s i.b (i.pc + i.len)) ∧
      (laneAt (advance (released s i scope) i i.iss) i L).still := fun L hm => by
    obtain ⟨hL, -, -, hr⟩ := h.standing.lanes L hm
    rw [laneAt_advance, if_pos ⟨hL, hm⟩, hu.landing, laneAt_released]
    refine ⟨hL, rfl, ?_⟩
    split_ifs <;> exact Lane.still_of_ready hr
  refine ⟨⟨fun L hL hm => (r.still (hw L hm).2.2).1.trans (hw L hm).2.1, ?_, ((hu.trans (upd_advance ..)).trans r.upd).sameElse⟩, fun L hL hx => ?_⟩
  · refine RegsKept.trans ?_ ((regsKept_advance _ i i.iss).trans r.regsKept)
    rw [hg]; exact ⟨rfl, rfl, rfl, rfl, rfl⟩
  · have h1 := r.settled.spec L
    have h2 := laneAt_advance (released s i scope) i i.iss L
    have h3 := laneAt_released s i scope L
    rw [if_pos ⟨hL, hx⟩] at h3
    rw [h3] at h2
    unfold SameLane at h1
    rw [laneAt, h1]
    show (laneAt (advance (released s i scope) i i.iss) i L).rel = _
    rw [h2]
    split_ifs <;> rfl

/-! ## Sleeps -/

/-- SLEEP deals with one lane. -/
def sleepLane (w : Insn) (i : Iss) (now : Nat) (t : Nat → Nat) (v : State) (L : Nat) : State :=
  if t L ≤ now then advance v i (oneLane L) else parkLane v i L { cause := pkSleep, x := w64 (t L), insn := some w }

/-- What becomes of the lane. -/
def sleepFate (w : Insn) (now : Nat) (t : Nat → Nat) (L : Nat) : Fate :=
  if t L ≤ now then .goes else .waits { cause := pkSleep, x := w64 (t L), insn := some w }

theorem laneDone_sleepLane (w : Insn) (i : Iss) (now : Nat) (t : Nat → Nat) (v : State) (L : Nat) : LaneDone v (sleepLane w i now t v L) i [] L := by
  unfold sleepLane
  split_ifs
  · exact laneDone_advance ..
  · exact laneDone_parkLane ..

theorem fared_sleepLane (w : Insn) (i : Iss) (now : Nat) (t : Nat → Nat) (v : State) {L : Nat} (hL : L < 32) :
    Fared v i L (laneAt (sleepLane w i now t v L) i L) (sleepFate w now t L) := by
  unfold sleepLane sleepFate
  split_ifs
  · exact fared_advance hL (.refl v) rfl
  · exact fared_parkLane ..

theorem sleep_word {w : Insn} {s : State} {i : Iss} (h : Issues 0xB6 w noBump s i) (hp : Plain [(opA w, spanA 0xB6 w)] s i) (rel : Bool) :
    let u := sleepWord w s rel
    let t := fun L => if rel then coreCt s i.core + val32 s i (opA w) L else val64 s i (opA w) L
    OthersFall s i u ∧ u.mem = s.mem ∧ RegsKept (s.group i.b i.g) (u.group i.b i.g) ∧ ∀ L, L < 32 → inMask i.ex L = true →
      if t L ≤ coreCt s i.core then (laneAt u i L).lpc = w64 (landing s i.b (i.pc + i.len)) else ParkedAs s u i L 8 0 (w64 (t L)) := by
  intro u t
  have hd : LanesDone (advance s i (i.iss &&& ~~~i.ex)) ((lanesOf i.ex).foldl (sleepLane w i (coreCt s i.core) t) (advance s i (i.iss &&& ~~~i.ex))) i []
      (sleepFate w (coreCt s i.core) t) (lanesOf i.ex) :=
    foldl_invariant (fun done v => LanesDone (advance s i (i.iss &&& ~~~i.ex)) v i [] _ done) (fun done L rest v he hv => by
      obtain ⟨hn, hL, hx, -⟩ := fresh_of_split he
      exact hv.next hx hn (laneDone_sleepLane ..) (fared_sleepLane w i _ t v hL)) (.refl ..)
  have hu : u = conclude s i 0xB6 w.stall.toNat (w.y == 1) (.next ((lanesOf i.ex).foldl (sleepLane w i (coreCt s i.core) t)
      (advance s i (i.iss &&& ~~~i.ex)))) := by
    show sleepWord w s rel = _
    unfold sleepWord
    rw [runWord_issues h]
    exact congrArg _ (if_neg (not_not.2 hp))
  obtain ⟨ho, hm, -, hk, hl⟩ := hd.word h (.refl s i []) w.stall.toNat (w.y == 1)
  rw [← hu] at ho hm hk hl
  refine ⟨ho, hm, hk rfl, fun L hL hx => ?_⟩
  have := hl L hL hx
  unfold sleepFate at this
  split_ifs at this ⊢
  · exact this
  · exact (this (by decide : (8 : Nat) ≠ 5) (by decide : (8 : Nat) ≠ 9)).1

/-- Settles O23: the three orders of FENCE, and SLEEP lane by lane. -/
theorem fencesAndSleeps : Obligations.FencesAndSleeps := by
  refine ⟨fun w => ⟨fun hw s i h hc => ⟨_, rfl, quiet_falls h ?_⟩, fun hw s i h _ => ⟨_, rfl, fence_rel h ?_⟩, fun hw s i h hc => ⟨_, rfl, quiet_falls h ?_⟩⟩,
    fun w => ⟨fun s i h hp => ⟨_, rfl, sleep_word h hp true⟩, fun s i h hp => ⟨_, rfl, sleep_word h hp false⟩⟩⟩
  · simp only [hw, all_lanes hc, if_true]
  · simp only [hw]; rfl
  · simp only [hw, all_lanes hc, if_true]


end Sys2Proof.Machine
end

section
/-! PROOF. Invalidations, waits for events, counters and program records (R156, R429–R432). -/

set_option Elab.async false

namespace Sys2Proof.Machine

theorem Plain.unguessed {ops : List (Opd × Nat)} {s : State} {i : Iss} (h : Plain ops s i) : ¬escapes s i true ops ≠ 0 := not_not.2 h

/-! ## TLBINV -/

/-- A TLBINV has started an invalidation of `va` with the pages `left` to come. -/
def invStarted (s : State) (i : Iss) (va : Option Nat) (left : List Nat) : State :=
  modPart (startInval s (s.context i.ctx).part va) (s.context i.ctx).part fun q =>
    { q with invBy := some { block := i.b, grp := i.g, pc := w64 i.pc, mask := i.iss, left := left } }

theorem core_dropTlb (s : State) (p : Nat) (va : Option Nat) (c : Nat) : ((dropTlb s p va).core c).tlb = (s.core c).tlb.filter fun e =>
    e.2.part != p || (match va with | some a => e.1 * 4096 / e.2.size != a / e.2.size | none => false) := by
  unfold dropTlb State.core
  dsimp only
  refine (congrArg Core.tlb (tget_tmapv ({} : Core) ({} : Core) _ s.cores ?_ c)).trans ?_ <;> rfl

theorem part_startInval (s : State) (p : Nat) (va : Option Nat) (k : Nat) : (startInval s p va).part k = (modPart s p fun q => { q with gen := (q.gen + 1) % 256, invBusy := true }).part k := rfl

theorem core_invStarted (s : State) (i : Iss) (va : Option Nat) (left : List Nat) (c : Nat) :
    ((invStarted s i va left).core c).tlb = (s.core c).tlb.filter fun e =>
      e.2.part != (s.context i.ctx).part || (match va with | some a => e.1 * 4096 / e.2.size != a / e.2.size | none => false) :=
  core_dropTlb (modPart s (s.context i.ctx).part fun q => { q with gen := (q.gen + 1) % 256, invBusy := true }) ..

/-- What a TLBINV leaves that starts an invalidation and waits for its acknowledgement. -/
theorem tlbinv_starts {w : Insn} {s : State} {i : Iss} (h : Issues 0xF4 w noBump s i) {va : Option Nat} {left : List Nat} {body : State → Iss → Res}
    (hb : body s i = .next (invStarted s i va left)) : let u := runWord 0xF4 w s noBump body
    let k := (s.context i.ctx).part
    Stays s u i ∧ RegsKept (s.group i.b i.g) (u.group i.b i.g) ∧ u.mem = s.mem ∧
      (u.part k).invBusy = true ∧ (u.part k).gen = ((s.part k).gen + 1) % 256 ∧
      (u.part k).invBy = some { block := i.b, grp := i.g, pc := w64 i.pc, mask := i.iss, left := left } ∧
      ∀ c e, e ∈ (u.core c).tlb ↔ e ∈ (s.core c).tlb ∧ (e.2.part ≠ k ∨ ∃ a, va = some a ∧ e.1 * 4096 / e.2.size ≠ a / e.2.size) := by
  intro u k
  have r : Rested (invStarted s i va left) u i.b i.g := rested_of h hb ⟨rfl, rfl, rfl, rfl⟩
  have hp : u.part k = { s.part k with
      gen := ((s.part k).gen + 1) % 256, invBusy := true, invBy := some { block := i.b, grp := i.g, pc := w64 i.pc, mask := i.iss, left := left } } := by
    rw [r.upd.part, invStarted, part_modPart, if_pos rfl, part_startInval, part_modPart, if_pos rfl]
  refine ⟨fun L hL hm => ?_, r.regsKept, r.upd.mem, by rw [hp], by rw [hp], by rw [hp], fun c e => ?_⟩
  · exact (r.still (L := L) (Lane.still_of_ready (h.standing.lanes L hm).2.2.2)).1
  · rw [r.upd.coreTlb, core_invStarted, List.mem_filter]
    refine and_congr_right fun _ => ?_
    rw [Bool.or_eq_true, bne_iff_ne]
    refine or_congr_right ?_
    cases va with
    | none => simp
    | some a => simp

section tlbinv
variable {w : Insn} {s : State} {i : Iss} (h : Issues 0xF4 w noBump s i) (hr : Plain [] s i ∧
  (∀ L, L < 32 → inMask i.ex L = true → releaseMet s i.b i.g L 3 s.seq = true) ∧ (s.part (s.context i.ctx).part).invBusy = false ∧
  (s.part (s.context i.ctx).part).invBy = none)
include h hr

/-- What TLBINV answers where nothing stands against it. -/
theorem tlbinvWord_ready (all : Bool) (body : State → Iss → Res)
    (hb : body s i = match if all then (if i.ex = 0 then [] else [0]) else invPages w s i with
      | [] => .next (advance s i i.iss)
      | v :: vs => .next (invStarted s i (if all then none else some v) vs)) : tlbinvWord w s all = runWord 0xF4 w s noBump body := by
  obtain ⟨hp, hrel, hbusy, hby⟩ := hr
  unfold tlbinvWord
  rw [runWord_issues h, runWord_issues h, hb]
  refine congrArg _ ?_
  dsimp only
  rw [if_neg (by rw [hby]; simp), if_neg hp.unguessed, if_neg (by simp [all_lanes hrel])]
  generalize (if all = true then if i.ex = 0 then [] else [0] else invPages w s i) = ps
  cases ps with
  | nil => rfl
  | cons v vs =>
    dsimp only
    rw [if_neg (by rw [hbusy, hby]; simp)]
    rfl

end tlbinv

/-! ## Counters -/

section perf
variable {w : Insn} {s : State} {i : Iss} (h : Issues 0xF7 w noBump s i) (hp : Plain [] s i) (hx : i.ex ≠ 0)
include h hp hx

/-- How the issue of a word of n lanes counts. -/
def Perf.counted (n : Nat) (p : Perf) : Perf :=
  if p.on && p.event = 1 then { p with count := p.count + 1 } else if p.on && p.event = 2 then { p with count := p.count + n } else p

omit h hp hx in
theorem Perf.counted_eq (n : Nat) (p : Perf) : (p.counted n).on = p.on ∧ (p.counted n).event = p.event ∧
    (p.on = false ∨ (p.event ≠ 1 ∧ p.event ≠ 2) → p.counted n = p) := by
  unfold Perf.counted
  refine ⟨by split_ifs <;> rfl, by split_ifs <;> rfl, fun hq => ?_⟩
  rcases hq with hq | ⟨h1, h2⟩
  · simp [hq]
  · simp [h1, h2]

/-- PERF changes its counter, and the issue then counts in it. -/
theorem perf_word (f : State → Iss → Perf → Perf) : let u := perfWord w s f
    (FallsThrough s i u ∧ u.mem = s.mem ∧ RegsKept (s.group i.b i.g) (u.group i.b i.g)) ∧
      tget {} (u.group i.b i.g).perf (w.a.toNat % 4) = (f s i (tget {} (s.group i.b i.g).perf (w.a.toNat % 4))).counted (lanesOf i.iss).length := by
  intro u
  set t := modGroup s i.b i.g fun q => { q with perf := tmod {} q.perf (w.a.toNat % 4) (f s i) } with ht
  have hg : t.group i.b i.g = { s.group i.b i.g with perf := tmod {} (s.group i.b i.g).perf (w.a.toNat % 4) (f s i) } := group_modGroup_self ..
  have hu : Upd s t i.b i.g := upd_modGroup ..
  have he : u = conclude s i 0xF7 w.stall.toNat (w.y == 1) (.next (advance t i i.iss)) := by
    show perfWord w s f = _
    unfold perfWord
    rw [runWord_issues h]
    refine congrArg _ ?_
    dsimp only
    rw [if_neg hp.unguessed, if_neg hx]
  have hm : rteWaits ((advance t i i.iss).group i.b i.g) := h.waits.congr (by rw [group_advance, hg]; exact ⟨rfl, rfl, rfl, rfl⟩)
  have r : Rested (advance t i i.iss) u i.b i.g := by rw [he]; exact rested_conclude hm ..
  have hi := issued_conclude (s := s) hm 0xF7 w.stall.toNat (w.y == 1)
  rw [← he] at hi
  refine ⟨⟨r.fallsThrough h.standing (fun L => by unfold laneAt; rw [hg]; rfl) fun va => hu.landing .., (((upd_advance ..).trans r.upd).mem).trans hu.mem, ?_⟩, ?_⟩
  · refine RegsKept.trans ?_ ((regsKept_advance t i i.iss).trans r.regsKept)
    rw [hg]; exact ⟨rfl, rfl, rfl, rfl, rfl⟩
  · rw [hi, noteIssue]
    dsimp only
    rw [group_modGroup_self, group_modCore, group_advance, hg]
    show tget {} (tmapv (Perf.counted (lanesOf i.iss).length) (tmod {} (s.group i.b i.g).perf (w.a.toNat % 4) (f s i))) (w.a.toNat % 4) = _
    rw [tget_tmapv ({} : Perf) ({} : Perf) _ _ rfl, tget_tmod, if_pos rfl]

end perf

/-! ## BBLOG -/

theorem sameCode_svc (s : State) (v : Service) : SameCode s { s with svc := v } :=
  ⟨rfl, rfl, rfl, fun _ => ⟨rfl, rfl, rfl, rfl⟩, fun _ => rfl, fun _ => ⟨rfl, rfl⟩, fun _ => ⟨rfl, rfl⟩⟩

/-- The entry of a BBLOG whose lowest executing lane is L0. -/
def bblogEntry (w : Insn) (s : State) (i : Iss) (L0 : Nat) : BbEntry :=
  { kind := 11, part := (s.context i.ctx).part, core := (s.block i.b).lcore, code := srcA .b32 w s i L0, tag := w64 (srcB .b64 w s i L0), ct := s.ct }

theorem bblog_records {w : Insn} {s : State} {i : Iss} (h : Issues 0xF8 w noBump s i) (hp : Plain [(opA w, 1), (opB w, 2)] s i) {L0 : Nat}
    (hL : (lanesOf i.ex).head? = some L0) (hr : logReady s i.ctx = true) (hq : (s.context i.ctx).logWait = []) : ∃ u, exec (.bblog w) s = .next u ∧
      (FallsThrough s i u ∧ u.mem = s.mem ∧ RegsKept (s.group i.b i.g) (u.group i.b i.g)) ∧ (u.context i.ctx).lastLog = some s.ct ∧
      ∃ n, u.svc.news = s.svc.news ++ [n] ∧ n.entry = bblogEntry w s i L0 ∧
        n.rep = repCore (s.block i.b).core ∧ u.svc.bb = s.svc.bb := by
  obtain ⟨-, -, -, hctx, -⟩ := h.names
  set t := logRecord s i.b (val32 s i (opA w) L0) (w64 (val64 s i (opB w) L0)) with ht
  have hg : t.group i.b i.g = s.group i.b i.g := rfl
  have hc : SameCode s t := (sameCode_svc s _).trans (sameCode_modCtx _ _ _ rfl)
  have hb : execBblog w s = .next (conclude s i 0xF8 w.stall.toNat (w.y == 1) (.next (advance t i i.iss))) := by
    unfold execBblog
    rw [runWord_issues h]
    refine congrArg (fun r => (.next (conclude s i 0xF8 w.stall.toNat (w.y == 1) r) : Out)) ?_
    dsimp only
    rw [if_neg (by rw [hq]; simp), if_neg hp.unguessed]
    cases hl : lanesOf i.ex with
    | nil => rw [hl] at hL; cases hL
    | cons L ls =>
      rw [hl] at hL
      cases hL
      exact if_pos (by rw [hr, hq]; rfl)
  have r : Rested (advance t i i.iss) _ i.b i.g := rested_conclude (s := s) (h.waits.congr (by rw [group_advance, hg]; exact ⟨rfl, rfl, rfl, rfl⟩)) 0xF8 w.stall.toNat (w.y == 1)
  have hu := (upd_advance t i i.iss).trans r.upd
  refine ⟨_, hb, ⟨r.fallsThrough h.standing (fun L => rfl) (fun va => hc.landing ..), hu.mem.trans hc.mem, (regsKept_advance t i i.iss).trans r.regsKept⟩, ?_, ?_⟩
  · rw [hu.context, hctx, ht, logRecord, context_modCtx, if_pos rfl]
    rfl
  · rw [hu.svc]
    refine ⟨_, rfl, ?_, rfl, rfl⟩
    rw [bblogEntry, hctx]
    rfl

/-! ## WAITEV -/

theorem foldl_pow_eq_sum (P : Nat → Bool) (xs : List Nat) (a : Nat) :
    xs.foldl (fun acc k => if P k then acc + 2 ^ k else acc) a = a + ((xs.filter P).map fun k => 2 ^ k).sum := by
  induction xs generalizing a with
  | nil => simp
  | cons x xs ih =>
    rw [List.foldl_cons, ih]
    cases hx : P x <;> simp [hx, Nat.add_assoc]

/-- The events of a mask that hold at issue: only the queues, the counts having not risen since. -/
theorem eventsNow_issue (s : State) (b m : Nat) : eventsNow s b m (s.block b).marks =
    (((List.range 16).filter fun k => bit m k && if k = 3 then !(itemsOf s b).isEmpty else !(queueOf s b k).isEmpty).map fun k => 2 ^ k).sum := by
  unfold eventsNow
  dsimp only
  rw [foldl_pow_eq_sum, Nat.zero_add, show List.range 19 = List.range 16 ++ [16, 17, 18] from rfl, List.filter_append]
  have h2 : ([16, 17, 18].filter fun k => bit m k && if k < 16 then !(if k = 3 then (itemsOf s b).isEmpty else (queueOf s b k).isEmpty)
      else if k = 16 then decide ((s.block b).marks.1 < (s.block b).marks.1)
      else if k = 17 then decide ((s.block b).marks.2.1 < (s.block b).marks.2.1)
      else decide ((s.block b).marks.2.2 < (s.block b).marks.2.2)) = [] := by simp
  rw [h2, List.append_nil]
  refine congrArg (fun l => (List.map (fun k => 2 ^ k) l).sum) (List.filter_congr fun k hk => ?_)
  rw [if_pos (List.mem_range.1 hk)]
  split_ifs <;> rfl

/-- WAITEV deals with one lane. -/
def waitevLane (w : Insn) (i : Iss) (m t : Nat → Nat) (v : State) (L : Nat) : State :=
  let e := eventsNow v i.b (m L) (v.block i.b).marks
  if e ≠ 0 then advance (modGroup v i.b i.g fun q => q.resLane 0 0 false (opD w) L e false) i (oneLane L)
  else parkLane v i L { cause := pkWaitev, x := w64 (m L), y := w64 (t L), insn := some w }

/-- What becomes of the lane. -/
def waitevFate (w : Insn) (i : Iss) (m t : Nat → Nat) (s : State) (L : Nat) : Fate :=
  if eventsNow s i.b (m L) (s.block i.b).marks ≠ 0 then .goes else .waits { cause := pkWaitev, x := w64 (m L), y := w64 (t L), insn := some w }

theorem laneDone_waitevLane (w : Insn) (i : Iss) (m t : Nat → Nat) (v : State) {L : Nat} (hL : L < 32) (hd : isS (opD w) = false) :
    LaneDone v (waitevLane w i m t v L) i [(.b32, opD w)] L := by
  unfold waitevLane
  dsimp only
  split_ifs
  · exact ((laneDone_resLane v i 0 0 .b32 hd hL _ false).trans (laneDone_advance ..)).mono (by simp)
  · exact (laneDone_parkLane ..).mono (by simp)

theorem fared_waitevLane (w : Insn) (i : Iss) (m t : Nat → Nat) (v : State) {L : Nat} (hL : L < 32) (hd : isS (opD w) = false) :
    Fared v i L (laneAt (waitevLane w i m t v L) i L) (waitevFate w i m t v L) := by
  unfold waitevLane waitevFate
  dsimp only
  split_ifs
  · refine fared_advance hL (upd_modGroup ..).sameCode ?_
    exact laneAt_resLane v i 0 0 .b32 hd hL _ false L
  · exact fared_parkLane ..

theorem gets_waitevLane (w : Insn) (i : Iss) (m t : Nat → Nat) (v : State) {L : Nat} (hL : L < 32) (hd : isS (opD w) = false)
    (he : eventsNow v i.b (m L) (v.block i.b).marks ≠ 0) :
    Gets ((waitevLane w i m t v L).group i.b i.g) i.ex .b32 (opD w) L (eventsNow v i.b (m L) (v.block i.b).marks) false := by
  unfold waitevLane
  dsimp only
  rw [if_pos he]
  exact gets_advance_resLane v i 0 0 .b32 hd hL _ false

theorem isS_dest_waitev {w : Insn} {s : State} {i : Iss} {bump : State → Iss → Mask} (h : Issues 0xF5 w bump s i) : isS (opD w) = false := by
  have := (h.legal).1 (.dest, isV (opD w)) (by simp [fieldChecks, classF])
  cases hd : opD w <;> simp [hd, isV] at this
  rfl

theorem Within.eventsNow {s v : State} {b g : Nat} (h : Within s v b g) (k m : Nat) :
    Machine.eventsNow v k m (v.block k).marks = Machine.eventsNow s k m (s.block k).marks := by
  have hq : ∀ n, queueOf v k n = queueOf s k n := fun n => by simp only [queueOf, h.queues]
  rw [eventsNow_issue, eventsNow_issue]
  simp only [hq, h.itemsOf]

theorem within_waitevLane (w : Insn) (i : Iss) (m t : Nat → Nat) (v : State) (L : Nat) : Within v (waitevLane w i m t v L) i.b i.g := by
  unfold waitevLane
  dsimp only
  split_ifs
  · exact ((upd_modGroup ..).trans (upd_advance ..)).within
  · exact within_parkLane ..

/-- What a WAITEV has done with the lanes listed. -/
structure Waited (w : Insn) (i : Iss) (m t : Nat → Nat) (s v : State) (done : List Nat) : Prop where
  lanes  : LanesDone s v i [(.b32, opD w)] (waitevFate w i m t s) done
  within : Within s v i.b i.g
  gets   : ∀ L ∈ done, eventsNow s i.b (m L) (s.block i.b).marks ≠ 0 →
    Gets (v.group i.b i.g) i.ex .b32 (opD w) L (eventsNow s i.b (m L) (s.block i.b).marks) false

theorem waited_foldl (w : Insn) (i : Iss) (m t : Nat → Nat) (s : State) (hd : isS (opD w) = false) :
    Waited w i m t s ((lanesOf i.ex).foldl (waitevLane w i m t) s) (lanesOf i.ex) := by
  refine foldl_invariant (fun done v => Waited w i m t s v done) (fun done L rest v he hv => ?_) ⟨.refl .., .refl .., fun L h => by cases h⟩
  obtain ⟨hn, hL, hx, hlt⟩ := fresh_of_split he
  have hev := hv.within.eventsNow i.b
  have d := laneDone_waitevLane w i m t v hL hd
  have hfate : waitevFate w i m t v L = waitevFate w i m t s L := by unfold waitevFate; rw [hev]
  refine ⟨hv.lanes.next hx hn d (hfate ▸ fared_waitevLane w i m t v hL hd), hv.within.trans (within_waitevLane ..), ?_⟩
  refine d.gets hd (fun k hk => (hlt k hk).1) hn hv.gets fun hne => ?_
  rw [← hev]
  exact gets_waitevLane w i m t v hL hd (by rw [hev]; exact hne)

theorem laneFaults_none {m : Mask} {f : Nat → Option Nat} {va : Nat → Nat} (h : ∀ L, L < 32 → inMask m L = true → f L = none) : laneFaults m f va = none := by
  have : (lanesOf m).filter (fun L => (f L).isSome) = [] := List.filter_eq_nil_iff.2 fun L hL => by
    rw [h L ((mem_lanesOf ..).1 hL).1 ((mem_lanesOf ..).1 hL).2]; simp
  unfold laneFaults
  rw [this]

/-- What WAITEV answers where no mask is bad. -/
theorem execWaitev_eq {w : Insn} {s : State} {i : Iss} (h : Issues 0xF5 w noBump s i) (hp : Plain [] s i)
    (hb : ∀ L, L < 32 → inMask i.ex L = true → badEvents (val32 s i (opA w) L) (val32 s i (opB w) L) = false) :
    execWaitev w s = .next (conclude s i 0xF5 w.stall.toNat (w.y == 1) (.next ((lanesOf i.ex).foldl (waitevLane w i (val32 s i (opA w)) (val32 s i (opB w)))
      (advance (guessDests s i [(opD w, 1)]) i (i.iss &&& ~~~i.ex))))) := by
  unfold execWaitev
  rw [runWord_issues h]
  refine congrArg (fun r => (.next (conclude s i 0xF5 w.stall.toNat (w.y == 1) r) : Out)) ?_
  dsimp only
  rw [if_neg hp.unguessed, laneFaults_none fun L hL hx => if_neg (by rw [hb L hL hx]; simp)]
  refine congrArg Res.next (List.foldl_ext _ _ _ fun v L hL => ?_)
  obtain ⟨h32, hx⟩ := (mem_lanesOf ..).1 hL
  exact if_neg (by rw [hb L h32 hx]; simp)

theorem waitev_word {w : Insn} {s : State} {i : Iss} (h : Issues 0xF5 w noBump s i) (hp : Plain [] s i)
    (hb : ∀ L, L < 32 → inMask i.ex L = true → badEvents (val32 s i (opA w) L) (val32 s i (opB w) L) = false) : ∃ u, exec (.waitev w) s = .next u ∧
      OthersFall s i u ∧ u.mem = s.mem ∧ ∀ L, L < 32 → inMask i.ex L = true → let e := eventsNow s i.b (val32 s i (opA w) L) (s.block i.b).marks
        if e = 0 then ParkedAs s u i L 10 0 (w64 (val32 s i (opA w) L)) ∧ (laneAt u i L).park.y = w64 (val32 s i (opB w) L)
        else (laneAt u i L).lpc = w64 (landing s i.b (i.pc + i.len)) ∧ Gets (u.group i.b i.g) i.ex .b32 (opD w) L e false := by
  have hd := isS_dest_waitev h
  have b0 : Begun s (guessDests s i [(opD w, 1)]) i [(.b32, opD w)] := begun_orGuard s i .b32 hd
  have w1 : Within s (advance (guessDests s i [(opD w, 1)]) i (i.iss &&& ~~~i.ex)) i.b i.g := ((upd_guessDests ..).trans (upd_advance ..)).within
  have k := waited_foldl w i (val32 s i (opA w)) (val32 s i (opB w)) (advance (guessDests s i [(opD w, 1)]) i (i.iss &&& ~~~i.ex)) hd
  obtain ⟨ho, hmem, -, -, hl⟩ := k.lanes.word h b0 w.stall.toNat (w.y == 1)
  have r := k.lanes.rested h b0 w.stall.toNat (w.y == 1)
  refine ⟨_, execWaitev_eq h hp hb, ho, hmem, fun L hL hx => ?_⟩
  have hf := hl L hL hx
  unfold waitevFate at hf
  rw [w1.eventsNow] at hf
  dsimp only
  split_ifs with he
  · rw [if_neg (not_not.2 he)] at hf
    exact hf (by decide : (10 : Nat) ≠ 5) (by decide : (10 : Nat) ≠ 9)
  · rw [if_pos he] at hf
    have hg := k.gets L ((mem_lanesOf ..).2 ⟨hL, hx⟩) (by rw [w1.eventsNow]; exact he)
    rw [w1.eventsNow] at hg
    exact ⟨hf, hg.alike r.alike⟩

/-! ## The statement -/

theorem ex_ne_zero {m : Mask} {L : Nat} (h : (lanesOf m).head? = some L) : m ≠ 0 := by
  rintro rfl
  rw [show lanesOf 0 = [] from by decide] at h
  cases h

/-- Settles O31: TLBINV, WAITEV, PERF and BBLOG. -/
theorem invalidationsWaitsAndCounters : Obligations.InvalidationsWaitsAndCounters := by
  refine ⟨fun w => ⟨fun v vs s i h hc => ?_, fun s i h hc => ?_, fun s i h hc => ?_, fun s i h hc => ?_⟩, fun w L0 =>
    ⟨fun s i h hc => ?_, fun s i h hc => ?_, fun s i h hc => ?_, fun s i h hc => ?_, fun s i h hc => bblog_records h hc.1 hc.2.1 hc.2.2.1 hc.2.2.2⟩⟩
  · have e := tlbinvWord_ready h hc.1 false (fun _ _ => .next (invStarted s i (some v) vs)) (by rw [if_neg (by simp), hc.2]; rfl)
    exact ⟨_, congrArg (fun t => (.next t : Out)) e, tlbinv_starts h rfl⟩
  · have e := tlbinvWord_ready h hc.1 false (fun s i => .next (advance s i i.iss)) (by rw [if_neg (by simp), hc.2])
    exact ⟨_, congrArg (fun t => (.next t : Out)) e, quiet_falls h rfl⟩
  · have e := tlbinvWord_ready h hc.1 true (fun _ _ => .next (invStarted s i none [])) (by rw [if_pos rfl, if_neg hc.2]; rfl)
    exact ⟨_, congrArg (fun t => (.next t : Out)) e, tlbinv_starts h rfl⟩
  · have e := tlbinvWord_ready h hc.1 true (fun s i => .next (advance s i i.iss)) (by rw [if_pos rfl, if_pos hc.2])
    exact ⟨_, congrArg (fun t => (.next t : Out)) e, quiet_falls h rfl⟩
  · obtain ⟨u, hu, ho, hm, hl⟩ := waitev_word h hc.1 hc.2
    refine ⟨u, hu, ho, hm, fun L hL hx => ?_⟩
    have := hl L hL hx
    rw [eventsNow_issue] at this
    exact this
  · obtain ⟨hgoes, hperf⟩ := perf_word h hc.1 (ex_ne_zero hc.2) fun s i _ => { on := true, event := val64 s i (opB w) ((lanesOf i.ex).headD 0), count := 0 }
    obtain ⟨h1, h2, h3⟩ := Perf.counted_eq (lanesOf i.iss).length { on := true, event := val64 s i (opB w) ((lanesOf i.ex).headD 0), count := 0 }
    have hL : (lanesOf i.ex).headD 0 = L0 := by rw [List.headD_eq_head?_getD, hc.2]; rfl
    refine ⟨_, rfl, hgoes, (congrArg Perf.on hperf).trans h1, ?_, fun hq => ?_⟩
    · rw [← hL]; exact (congrArg Perf.event hperf).trans h2
    · have hq' : (tget {} _ _ : Perf).on = false ∨ (tget {} _ _ : Perf).event ≠ 1 ∧ (tget {} _ _ : Perf).event ≠ 2 := hq
      rw [hperf, h1, h2] at hq'
      exact (congrArg Perf.count (hperf.trans (h3 hq')) : _)
  · obtain ⟨hgoes, hperf⟩ := perf_word h hc.1 (ex_ne_zero hc.2) fun _ _ p => { p with on := false }
    exact ⟨_, rfl, hgoes, hperf.trans ((Perf.counted_eq ..).2.2 (.inl rfl))⟩
  · obtain ⟨hgoes, hperf⟩ := perf_word h hc.1 (ex_ne_zero hc.2) fun _ _ p => { p with count := 0 }
    obtain ⟨h1, -, h3⟩ := Perf.counted_eq (lanesOf i.iss).length { tget {} (s.group i.b i.g).perf (w.a.toNat % 4) with count := 0 }
    exact ⟨_, rfl, hgoes, (congrArg Perf.on hperf).trans h1, fun hq => (congrArg Perf.count (hperf.trans (h3 hq)) : _)⟩

end Sys2Proof.Machine
end

section
/-! PROOF. Queues: MOV from and to a queue, QTRY and QCNT (R331, R421–R423). -/

set_option Elab.async false

namespace Sys2Proof.Machine

/-! ## A queue and its entries -/

theorem queueOf_setQueue (s : State) (b n : Nat) (xs : List W64) : queueOf (setQueue s b n xs) b n = xs := by
  unfold queueOf setQueue
  rw [block_modBlock, if_pos rfl]
  exact tget_tset_self ..

theorem Upd.queueOf {s t : State} {b g : Nat} (h : Upd s t b g) (k n : Nat) : Machine.queueOf t k n = Machine.queueOf s k n := by
  have : (t.block k).queues = (s.block k).queues := (congrArg Block.queues (h.block k) : _)
  simp only [Machine.queueOf, this]

theorem group_setQueue (s : State) (b n : Nat) (xs : List W64) (k j : Nat) : (setQueue s b n xs).group k j = s.group k j := by
  unfold setQueue
  rw [group_modBlock]
  split_ifs with h
  · rw [h]; rfl
  · rfl

theorem sameCode_setQueue (s : State) (b n : Nat) (xs : List W64) : SameCode s (setQueue s b n xs) := sameCode_modBlock _ _ _ ⟨rfl, rfl⟩

theorem laneDone_setQueue (s : State) (i : Iss) (n : Nat) (xs : List W64) (L : Nat) : LaneDone s (setQueue s i.b n xs) i [] L :=
  .ofLanes (sameCode_setQueue ..) (by rw [group_setQueue]; exact .refl _) fun k _ => by unfold laneAt; rw [group_setQueue]

theorem deliverPop_lane {w : Insn} (hd : isS (opD w) = false) (s : State) (b g L : Nat) (x : W64) (wd : Bool) :
    deliverPop s b g L w x wd = modGroup s b g fun q => q.resLane 0 0 wd (opD w) L x.toNat false := by
  unfold deliverPop
  cases h : opD w
  case s n => rw [h] at hd; cases hd
  all_goals rfl

/-- A lane has taken the oldest entry of a queue. -/
def popped (w : Insn) (i : Iss) (t : Ty) (n : Nat) (v : State) (L : Nat) : State :=
  modGroup (setQueue v i.b n ((queueOf v i.b n).drop 1)) i.b i.g fun q => q.resLane 0 0 (wide t) (opD w) L ((queueOf v i.b n)[0]?.getD 0).toNat false

section popped
variable {w : Insn} (hd : isS (opD w) = false) (i : Iss) (t : Ty) (n : Nat) (v : State) {L : Nat} (hL : L < 32)

theorem queueOf_popped (L : Nat) : queueOf (popped w i t n v L) i.b n = (queueOf v i.b n).drop 1 := by
  unfold popped
  rw [(upd_modGroup ..).queueOf, queueOf_setQueue]

include hd hL

theorem laneDone_popped : LaneDone v (popped w i t n v L) i [(t, opD w)] L :=
  ((laneDone_setQueue v i n _ L).trans (laneDone_resLane _ i 0 0 t hd hL _ false)).mono (by simp)

theorem laneAt_popped (k : Nat) : laneAt (popped w i t n v L) i k = laneAt v i k := by
  unfold popped
  rw [laneAt_resLane _ i 0 0 t hd hL]
  unfold laneAt
  rw [group_setQueue]

theorem gets_popped : Gets ((popped w i t n v L).group i.b i.g) i.ex t (opD w) L ((queueOf v i.b n)[0]?.getD 0).toNat false := by
  unfold popped
  rw [group_modGroup_self]
  exact gets_resLane _ 0 0 t hd hL _ false i.ex

end popped

/-- The place of the next lane among all. -/
theorem idxOf_next {xs done rest : List Nat} {L : Nat} (he : xs = done ++ L :: rest) (hn : L ∉ done) : xs.idxOf L = done.length := by
  rw [he, List.idxOf_append_of_notMem hn, List.idxOf_cons_self, Nat.add_zero]

theorem idxOf_lanesOf {m : Mask} {k L : Nat} (h : (lanesOf m)[k]? = some L) : (lanesOf m).idxOf L = k := by
  obtain ⟨hk, rfl⟩ := List.getElem?_eq_some_iff.1 h
  exact (nodup_lanesOf m).idxOf_getElem k hk

/-! ## Words that let all their lanes go on -/

/-- A word that has changed no lane's parking lets all its lanes go on. -/
theorem Rested.fallsOn {s t u : State} {i : Iss} (r : Rested (advance t i i.iss) u i.b i.g) (hs : Standing s i)
    (hl : ∀ L, (laneAt t i L).park = (laneAt s i L).park) (hc : SameCode s t) : FallsThrough s i u := fun L hL hm => by
  have e := laneAt_advance t i i.iss L
  rw [if_pos ⟨hL, hm⟩, hc.landing] at e
  refine (r.still (L := L) ?_).1.trans ?_
  · rw [← laneAt, e]
    exact Lane.still_of_ready (by rw [Lane.waits]; dsimp only; rw [hl]; exact (hs.lanes L hm).2.2.2)
  · rw [← laneAt, e]

section falls
variable {op : Nat} {w : Insn} {bump : State → Iss → Mask} {s t : State} {i : Iss} {ds : List (Ty × Opd)} (h : Issues op w bump s i) (hb : Begun s t i ds)
include h hb

theorem Begun.rested (stall : Nat) (y : Bool) : Rested (advance t i i.iss) (conclude s i op stall y (.next (advance t i i.iss))) i.b i.g :=
  rested_conclude (h.waits.congr (hb.mode.trans (shifted_advance ..).sameMode)) ..

theorem Begun.falls (stall : Nat) (y : Bool) : let u := conclude s i op stall y (.next (advance t i i.iss))
    FallsThrough s i u ∧ u.mem = s.mem ∧ SameRegs (s.group i.b i.g) (u.group i.b i.g) ds i.ex i.gg ∧ (ds = [] → RegsKept (s.group i.b i.g) (u.group i.b i.g)) := by
  intro u
  have r := hb.rested h stall y
  have hu := (upd_advance t i i.iss).trans r.upd
  exact ⟨r.fallsOn h.standing (fun L => by rw [hb.lanes]) hb.code, hu.mem.trans hb.code.mem,
    (hb.regs.alike (regsKept_advance ..).alike).alike r.alike, fun e => ((hb.kept e).trans (regsKept_advance ..)).trans r.regsKept⟩

end falls

/-! ## MOV from a queue -/

/-- What the lanes listed have taken from a queue. -/
structure PoppedAll (w : Insn) (i : Iss) (t : Ty) (n : Nat) (s v : State) (done : List Nat) : Prop where
  lanes : LanesDone s v i [(t, opD w)] (fun _ => .goes) done
  queue : queueOf v i.b n = (queueOf s i.b n).drop done.length
  gets  : ∀ L ∈ done, True → Gets (v.group i.b i.g) i.ex t (opD w) L ((queueOf s i.b n)[(lanesOf i.ex).idxOf L]?.getD 0).toNat false

theorem poppedAll_foldl (w : Insn) (i : Iss) (t : Ty) (n : Nat) (s : State) (hd : isS (opD w) = false) :
    PoppedAll w i t n s ((lanesOf i.ex).foldl (fun v L => advance (popped w i t n v L) i (oneLane L)) s) (lanesOf i.ex) := by
  refine foldl_invariant (fun done v => PoppedAll w i t n s v done) (fun done L rest v he hv => ?_) ⟨.refl .., rfl, fun L h => by cases h⟩
  obtain ⟨hn, hL, hx, hlt⟩ := fresh_of_split he
  have d : LaneDone v (advance (popped w i t n v L) i (oneLane L)) i [(t, opD w)] L :=
    ((laneDone_popped hd i t n v hL).trans (laneDone_advance ..)).mono (by simp)
  refine ⟨hv.lanes.next hx hn d (fared_advance hL (laneDone_popped hd i t n v hL).code (laneAt_popped hd i t n v hL L)), ?_, ?_⟩
  · rw [(upd_advance ..).queueOf, queueOf_popped, hv.queue, List.drop_drop, List.length_append, List.length_singleton]
  · refine d.gets hd (fun k hk => (hlt k hk).1) hn hv.gets fun _ => ?_
    have := (gets_popped hd i t n v hL).alike (regsKept_advance (popped w i t n v L) i (oneLane L)).alike
    rw [hv.queue] at this
    rw [idxOf_next he hn]
    simpa using this

/-- The state in which the lanes of a MOV from a queue are served. -/
def movStart (w : Insn) (s : State) (i : Iss) : State := guessDests s i [(opD w, two (wide (tyD 0x0D w)))]

/-- What a parked MOV from a queue waits with. -/
def movPark (w : Insn) (n : Nat) : Park :=
  { cause := pkQueue, detail := n, x := w64 (b2n (wide (tyD 0x0D w)) + 2 * b2n (scalarForm w)), insn := some w }

theorem isS_of_scalarForm {w : Insn} (h : scalarForm w = false) : isS (opD w) = false := by
  unfold opD
  split_ifs
  · rfl
  · unfold operand scalarForm at *
    have hn : w.dk.toNat ≠ 1 := by simpa using h
    split
    · rfl
    · rename_i h1; exact absurd h1 hn
    · dsimp only; split_ifs <;> rfl
    · rfl

theorem begun_movStart {w : Insn} (s : State) (i : Iss) (hs : scalarForm w = false) : Begun s (movStart w s i) i [(tyD 0x0D w, opD w)] :=
  begun_orGuard s i (tyD 0x0D w) (isS_of_scalarForm hs)

theorem upd_movStart (w : Insn) (s : State) (i : Iss) : Upd s (movStart w s i) i.b i.g := upd_guessDests ..

theorem untouched_movStart (w : Insn) (s : State) (i : Iss) : Untouched (s.group i.b i.g) ((movStart w s i).group i.b i.g) := by
  unfold movStart
  rw [group_guessDests]
  exact untouched_orGuard ..

theorem laneAt_parkSet (s : State) (i : Iss) (m : Mask) (p : Park) (L : Nat) :
    laneAt (parkSet s i m p) i L = if L < 32 ∧ inMask m L = true then parkedLane s i (laneAt s i L) p s.seq else laneAt s i L := by
  unfold parkSet laneAt
  rw [group_modGroup_self, lane_mapLanes]
  rfl

/-- What a MOV from a queue delivers to the group in a scalar form. -/
def scalarPopped (w : Insn) (n : Nat) (s : State) (i : Iss) (L : Nat) : State :=
  deliverPop (setQueue s i.b n ((queueOf s i.b n).drop 1)) i.b i.g L w ((queueOf s i.b n)[0]?.getD 0) (wide (tyD 0x0D w))

theorem upd_deliverPop (s : State) (b g L : Nat) (w : Insn) (x : W64) (wd : Bool) : Upd s (deliverPop s b g L w x wd) b g := upd_modGroup ..

theorem untouched_deliverPop (s : State) (b g L : Nat) (w : Insn) (x : W64) (wd : Bool) :
    Untouched (s.group b g) ((deliverPop s b g L w x wd).group b g) := by
  unfold deliverPop
  rw [group_modGroup_self]
  split
  · exact untouched_resS ..
  · exact untouched_resLane ..

theorem sReg_deliverPop {w : Insn} {d : Nat} (hd : opD w = .s d) (s : State) (b g L : Nat) (x : W64) (wd : Bool) :
    ((deliverPop s b g L w x wd).group b g).sReg d = if d = 0 then 0 else if wd then x else w64 (x.toNat % 2 ^ 32) := by
  unfold deliverPop
  rw [group_modGroup_self, hd]
  dsimp only
  rw [sReg_resS]
  by_cases h : d = 0
  · rw [if_neg (by simp [h]), if_pos h, h]; rfl
  · rw [if_pos ⟨rfl, h⟩, if_neg h]

section mov
variable {w : Insn} {n : Nat} {s : State} {i : Iss} (h : Issues 0x0D w noBump s i) (hn : n ≠ 3) (ha : opA w = .q n) (hp : Plain [] s i)
include h hn ha hp

/-- MOV from a queue in a V form deals with its lanes one by one. -/
theorem execMov_lanes (hs : scalarForm w = false) : execMov w s = .next (conclude s i 0x0D w.stall.toNat (w.y == 1) (.next
    ((lanesOf i.ex).foldl (fun v L => if queueOf v i.b n = [] then parkLane v i L (movPark w n) else advance (popped w i (tyD 0x0D w) n v L) i (oneLane L))
      (advance (movStart w s i) i (i.iss &&& ~~~i.ex))))) := by
  unfold execMov
  rw [ha]
  dsimp only
  rw [runWord_issues h]
  unfold popWord
  dsimp only
  rw [if_neg hp.unguessed, if_neg (by rw [hs]; simp), if_neg hn]
  refine congrArg (fun r => (.next (conclude s i 0x0D w.stall.toNat (w.y == 1) (.next r)) : Out)) (List.foldl_ext _ _ _ fun v L hL => ?_)
  simp only [if_neg hn]
  split
  · next x xs hq => simp [hq, popped, deliverPop_lane (isS_of_scalarForm hs)]
  · next hq => simp [hq, movPark]

/-- Where there is an entry for each executing lane. -/
theorem mov_pops (hs : scalarForm w = false) (hlen : (lanesOf i.ex).length ≤ (queueOf s i.b n).length) : ∃ u, exec (.mov w) s = .next u ∧
    FallsThrough s i u ∧ u.mem = s.mem ∧ queueOf u i.b n = (queueOf s i.b n).drop (lanesOf i.ex).length ∧
    ∀ (k L : Nat) (x : W64), (lanesOf i.ex)[k]? = some L → (queueOf s i.b n)[k]? = some x → Gets (u.group i.b i.g) i.ex (tyD 0x0D w) (opD w) L x.toNat false := by
  have u1 : Upd s (advance (movStart w s i) i (i.iss &&& ~~~i.ex)) i.b i.g := (upd_guessDests ..).trans (upd_advance ..)
  have hq1 := u1.queueOf i.b n
  set s1 := advance (movStart w s i) i (i.iss &&& ~~~i.ex) with hs1
  have k := poppedAll_foldl w i (tyD 0x0D w) n s1 (isS_of_scalarForm hs)
  have he : (lanesOf i.ex).foldl (fun v L => if queueOf v i.b n = [] then parkLane v i L (movPark w n) else advance (popped w i (tyD 0x0D w) n v L) i (oneLane L)) s1 =
      (lanesOf i.ex).foldl (fun v L => advance (popped w i (tyD 0x0D w) n v L) i (oneLane L)) s1 := by
    refine (foldl_invariant (xs := lanesOf i.ex)
      (fun done v => v = done.foldl (fun v L => advance (popped w i (tyD 0x0D w) n v L) i (oneLane L)) s1 ∧ queueOf v i.b n = (queueOf s i.b n).drop done.length)
      (fun done L rest v hd hv => ?_) ⟨rfl, hq1⟩).1
    have hlt : done.length < (queueOf s i.b n).length := by
      have := congrArg List.length hd
      simp at this
      omega
    have hne : queueOf v i.b n ≠ [] := by
      rw [hv.2]
      intro c
      have := congrArg List.length c
      simp at this
      omega
    rw [if_neg hne]
    refine ⟨by rw [List.foldl_append, ← hv.1]; rfl, ?_⟩
    rw [(upd_advance ..).queueOf, queueOf_popped, hv.2, List.drop_drop, List.length_append, List.length_singleton]
  have hx := execMov_lanes h hn ha hp hs
  rw [he] at hx
  have r := k.lanes.rested h (begun_movStart s i hs) w.stall.toNat (w.y == 1)
  obtain ⟨ho, hm, -, -, hl⟩ := k.lanes.word h (begun_movStart s i hs) w.stall.toNat (w.y == 1)
  refine ⟨_, hx, fun L hL hi => ?_, hm, ?_, fun j L x hj hxq => ?_⟩
  · cases hex : inMask i.ex L
    · exact ho L hL (by rw [inMask_and, inMask_not _ hL, hi, hex]; rfl)
    · exact hl L hL hex
  · rw [r.upd.queueOf, k.queue, hq1]
  · have := (k.gets L (List.mem_of_getElem? hj) trivial).alike r.alike
    rwa [hq1, idxOf_lanesOf hj, hxq] at this

/-- Where there is none, the executing lanes park. -/
theorem mov_parks (hs : scalarForm w = false) (hq : queueOf s i.b n = []) : ∃ u, exec (.mov w) s = .next u ∧
    u.mem = s.mem ∧ OthersFall s i u ∧ ∀ L, L < 32 → inMask i.ex L = true → ParkedAs s u i L 1 n (w64 (b2n (wide (tyD 0x0D w)) + 2 * b2n (scalarForm w))) := by
  have u1 : Upd s (advance (movStart w s i) i (i.iss &&& ~~~i.ex)) i.b i.g := (upd_guessDests ..).trans (upd_advance ..)
  have hq1 := (u1.queueOf i.b n).trans hq
  set s1 := advance (movStart w s i) i (i.iss &&& ~~~i.ex) with hs1
  have k : LanesDone s1 _ i [] (fun _ => .waits (movPark w n)) (lanesOf i.ex) ∧ _ :=
    foldl_invariant (f := fun v L => if queueOf v i.b n = [] then parkLane v i L (movPark w n) else advance (popped w i (tyD 0x0D w) n v L) i (oneLane L))
      (fun done v => LanesDone s1 v i [] (fun _ => .waits (movPark w n)) done ∧ queueOf v i.b n = [])
      (fun done L rest v he hv => by
        obtain ⟨hnd, hL, hx, -⟩ := fresh_of_split he
        rw [if_pos hv.2]
        exact ⟨hv.1.next hx hnd (laneDone_parkLane ..) (fared_parkLane ..), by simpa only [queueOf, (within_parkLane v i L (movPark w n)).queues] using hv.2⟩)
      ⟨.refl .., hq1⟩
  obtain ⟨ho, hm, -, -, hl⟩ := k.1.word h (begun_movStart s i hs) w.stall.toNat (w.y == 1)
  exact ⟨_, execMov_lanes h hn ha hp hs, hm, ho, fun L hL hx => (hl L hL hx (by decide : (1 : Nat) ≠ 5) (by decide : (1 : Nat) ≠ 9)).1⟩

/-- MOV from a queue in a scalar form. -/
theorem execMov_scalar (hs : scalarForm w = true) {L : Nat} {ls : List Nat} (hl : lanesOf i.ex = L :: ls) :
    execMov w s = .next (conclude s i 0x0D w.stall.toNat (w.y == 1) (.next (if queueOf s i.b n = [] then parkSet (movStart w s i) i i.iss (movPark w n)
      else advance (scalarPopped w n (movStart w s i) i L) i i.iss))) := by
  have hq1 := (upd_movStart w s i).queueOf i.b n
  unfold movStart at hq1
  unfold execMov
  rw [ha]
  dsimp only
  rw [runWord_issues h]
  unfold popWord
  dsimp only
  rw [if_neg hp.unguessed, if_pos hs, if_neg hn, hl]
  refine congrArg (fun r => (.next (conclude s i 0x0D w.stall.toNat (w.y == 1) r) : Out)) ?_
  simp only [if_neg hn]
  split
  · next x xs hq =>
    rw [hq1] at hq
    simp only [if_true, scalarPopped, movStart, hq1, hq, reduceCtorEq, if_false]
    rfl
  · next hq =>
    rw [hq1] at hq
    rw [if_pos hq]
    rfl

theorem mov_scalar_pops (hs : scalarForm w = true) (hx : i.ex ≠ 0) (hq : queueOf s i.b n ≠ []) : ∃ u, exec (.mov w) s = .next u ∧
    FallsThrough s i u ∧ u.mem = s.mem ∧ queueOf u i.b n = (queueOf s i.b n).drop 1 ∧ ∀ d (x : W64), opD w = .s d → (queueOf s i.b n)[0]? = some x →
      (u.group i.b i.g).sReg d = if d = 0 then 0 else if wide (tyD 0x0D w) then x else w64 (x.toNat % 2 ^ 32) := by
  obtain ⟨L, ls, hl⟩ : ∃ L ls, lanesOf i.ex = L :: ls := by
    cases hl : lanesOf i.ex with
    | nil => exact absurd (lanesOf_eq_nil.1 hl) hx
    | cons L ls => exact ⟨L, ls, rfl⟩
  have hu := execMov_scalar h hn ha hp hs hl
  rw [if_neg hq] at hu
  have u0 := upd_movStart w s i
  have hq1 := u0.queueOf i.b n
  set t := scalarPopped w n (movStart w s i) i L with ht
  have hun : Untouched (s.group i.b i.g) (t.group i.b i.g) := by
    refine (untouched_movStart w s i).trans ?_
    have := untouched_deliverPop (setQueue (movStart w s i) i.b n ((queueOf (movStart w s i) i.b n).drop 1)) i.b i.g L w ((queueOf (movStart w s i) i.b n)[0]?.getD 0) (wide (tyD 0x0D w))
    rwa [group_setQueue] at this
  have hc : SameCode s t := (u0.sameCode.trans (sameCode_setQueue ..)).trans (upd_deliverPop ..).sameCode
  have r : Rested (advance t i i.iss) _ i.b i.g := rested_conclude (s := s) (h.waits.congr (hun.sameMode.trans (shifted_advance ..).sameMode)) 0x0D w.stall.toNat (w.y == 1)
  have ut := (upd_advance t i i.iss).trans r.upd
  refine ⟨_, hu, r.fallsThrough h.standing (fun k => hun.lane k) fun va => hc.landing .., ut.mem.trans hc.mem, ?_, fun d x hd hxq => ?_⟩
  · rw [ut.queueOf, ht, scalarPopped, (upd_deliverPop ..).queueOf, queueOf_setQueue, hq1]
  · rw [(r.alike).s, (regsKept_advance t i i.iss).alike.s, ht, scalarPopped, sReg_deliverPop hd, hq1, hxq]
    rfl

theorem mov_scalar_parks (hs : scalarForm w = true) (hx : i.ex ≠ 0) (hq : queueOf s i.b n = []) : ∃ u, exec (.mov w) s = .next u ∧
    u.mem = s.mem ∧ ∀ L, L < 32 → inMask i.iss L = true → ParkedAs s u i L 1 n (w64 (b2n (wide (tyD 0x0D w)) + 2 * b2n (scalarForm w))) := by
  obtain ⟨L, ls, hl⟩ : ∃ L ls, lanesOf i.ex = L :: ls := by
    cases hl : lanesOf i.ex with
    | nil => exact absurd (lanesOf_eq_nil.1 hl) hx
    | cons L ls => exact ⟨L, ls, rfl⟩
  have hu := execMov_scalar h hn ha hp hs hl
  rw [if_pos hq] at hu
  have hun := untouched_movStart w s i
  have hk : SameMode (s.group i.b i.g) ((parkSet (movStart w s i) i i.iss (movPark w n)).group i.b i.g) := by
    refine hun.sameMode.trans ?_
    unfold parkSet
    rw [group_modGroup_self]
    exact ⟨rfl, rfl, rfl, rfl⟩
  have r : Rested (parkSet (movStart w s i) i i.iss (movPark w n)) _ i.b i.g := rested_conclude (s := s) (h.waits.congr hk) 0x0D w.stall.toNat (w.y == 1)
  refine ⟨_, hu, r.upd.mem.trans (upd_movStart w s i).mem, fun k hk hm => ?_⟩
  have e := laneAt_parkSet (movStart w s i) i i.iss (movPark w n) k
  rw [if_pos ⟨hk, hm⟩] at e
  obtain ⟨r1, r2⟩ := r.still (L := k) (by rw [← laneAt, e]; exact Lane.still_of_cause (by decide : (1 : Nat) ≠ 5) (by decide : (1 : Nat) ≠ 9))
  rw [← laneAt, ← laneAt, e] at r1 r2
  have hlane : laneAt (movStart w s i) i k = laneAt s i k := hun.lane k
  exact ⟨r1.trans (by rw [← hlane]; rfl), (congrArg Park.cause r2).trans rfl, (congrArg Park.detail r2).trans rfl, (congrArg Park.x r2).trans rfl⟩

omit hn in
/-- In a scalar form without executing lanes all fall through. -/
theorem mov_scalar_idle (hs : scalarForm w = true) (hx : i.ex = 0) : ∃ u, exec (.mov w) s = .next u ∧ u.mem = s.mem ∧ OthersFall s i u := by
  have hl : lanesOf i.ex = [] := lanesOf_eq_nil.2 hx
  have hu : execMov w s = .next (conclude s i 0x0D w.stall.toNat (w.y == 1) (.next (advance (movStart w s i) i i.iss))) := by
    unfold execMov
    rw [ha]
    dsimp only
    rw [runWord_issues h]
    unfold popWord
    dsimp only
    rw [if_neg hp.unguessed, if_pos hs, hl]
    rfl
  have hun := untouched_movStart w s i
  have u0 := upd_movStart w s i
  have r : Rested (advance (movStart w s i) i i.iss) _ i.b i.g := rested_conclude (s := s) (h.waits.congr (hun.sameMode.trans (shifted_advance ..).sameMode)) 0x0D w.stall.toNat (w.y == 1)
  have hf := r.fallsThrough h.standing (fun k => hun.lane k) fun va => u0.landing ..
  exact ⟨_, hu, ((upd_advance ..).trans r.upd).mem.trans u0.mem, fun L hL hm => hf L hL (by
    rw [inMask_and, Bool.and_eq_true] at hm; exact hm.1)⟩

end mov

/-! ## MOV to a queue -/

theorem insBy_ne_nil {α : Type} (f : α → Nat) (x : α) (ys : List α) : insBy f x ys ≠ [] := by
  cases ys with
  | nil => simp [insBy]
  | cons y ys => unfold insBy; split_ifs <;> simp

theorem sortBy_eq_nil {α : Type} (f : α → Nat) (xs : List α) : sortBy f xs = [] ↔ xs = [] := by
  cases xs with
  | nil => exact ⟨fun _ => rfl, fun _ => rfl⟩
  | cons x xs => exact ⟨fun h => absurd h (insBy_ne_nil f x _), fun h => by cases h⟩

/-- Lane L of a group is parked on a cause that f accepts, and can be served. -/
def servable (q : Group) (f : Park → Bool) (L : Nat) : Bool :=
  !q.stopped && inMask q.live L && (q.lane L).park.cause != 0 && f (q.lane L).park && (q.lane L).refuted.isNone

theorem parkedOn_eq_nil (s : State) (b : Nat) (f : Park → Bool) : parkedOn s [b] f = [] ↔ ∀ g L, L < 32 → servable (s.group b g) f L = false := by
  unfold parkedOn
  dsimp only
  rw [List.map_eq_nil_iff, sortBy_eq_nil]
  simp only [List.flatMap_cons, List.flatMap_nil, List.append_nil, List.flatMap_eq_nil_iff, List.map_eq_nil_iff, List.filter_eq_nil_iff, lanes32, List.mem_range]
  refine ⟨fun h g L hL => ?_, fun h g _ L hL => by have := h g L hL; unfold servable at this; simp only [this]; simp⟩
  by_cases hg : g ∈ tkeys (s.block b).groups
  · unfold servable; simpa only [Bool.not_eq_true] using h g hg L hL
  · have : s.group b g = {} := tget_absent _ _ _ hg
    rw [this]
    have h0 : inMask ({} : Group).live L = false := by simp [inMask]
    unfold servable
    rw [h0]
    simp

theorem serveQueue_idle {s : State} {b n : Nat} (h : parkedOn s [b] (fun p => p.cause == pkQueue && p.detail == n) = []) : serveQueue s b n = s := by
  unfold serveQueue
  cases (queueOf s b n).length with
  | zero => rfl
  | succ k =>
    unfold serveLoop
    rw [h]
    split
    · next hc => cases hc
    · rfl

theorem laneAt_clearRel (s : State) (i : Iss) (L : Nat) : ∃ rel, laneAt (clearRel s i) i L = { laneAt s i L with rel := rel } := by
  unfold clearRel laneAt
  rw [group_modGroup_self, lane_mapLanes]
  split_ifs
  · exact ⟨[], rfl⟩
  · exact ⟨_, rfl⟩

theorem servable_pushed (s : State) (i : Iss) (n : Nat) (xs : List W64) (f : Park → Bool) (g L : Nat) :
    servable ((setQueue (clearRel s i) i.b n xs).group i.b g) f L = servable (s.group i.b g) f L := by
  rw [group_setQueue]
  by_cases hg : g = i.g
  · subst hg
    obtain ⟨rel, e⟩ := laneAt_clearRel s i L
    unfold servable
    rw [show ((clearRel s i).group i.b i.g).lane L = _ from e, show (clearRel s i).group i.b i.g = _ from group_modGroup_self ..]
    rfl
  · rw [show (clearRel s i).group i.b g = s.group i.b g from group_modGroup_ne _ _ _ _ _ _ fun c => hg c.2]

/-- Where no pop is parked on the queue, a push appends. -/
theorem mov_pushes {w : Insn} {n : Nat} {s : State} {i : Iss} (h : Issues 0x0D w noBump s i) (ha : ∀ k, opA w ≠ .q k) (hd : opD w = .q n)
    (hp : Plain [(opA w, spanA 0x0D w)] s i) (hr : relHeld s i = false) (hl : (queueOf s i.b n).length + (lanesOf i.ex).length ≤ 127)
    (hz : parkedOn s [i.b] (fun p => p.cause == 1 && p.detail == n) = []) : ∃ u, exec (.mov w) s = .next u ∧
      FallsThrough s i u ∧ u.mem = s.mem ∧ RegsKept (s.group i.b i.g) (u.group i.b i.g) ∧
        queueOf u i.b n = queueOf s i.b n ++ (lanesOf i.ex).map fun L => w64 (srcA (tyD 0x0D w) w s i L) := by
  set xs := (lanesOf i.ex).map fun L => w64 (valOf s i (tyD 0x0D w) (opA w) L).1 with hxs
  set t := setQueue (clearRel s i) i.b n (queueOf (clearRel s i) i.b n ++ xs) with ht
  have hidle : pushAll (clearRel s i) i.b n xs = t :=
    serveQueue_idle ((parkedOn_eq_nil ..).2 fun g L hL => by rw [servable_pushed]; exact (parkedOn_eq_nil ..).1 hz g L hL)
  have hu : execMov w s = .next (conclude s i 0x0D w.stall.toNat (w.y == 1) (.next (advance t i i.iss))) := by
    have hm : execMov w s = .next (runWord 0x0D w s noBump (pushWord w n)) := by
      unfold execMov
      rw [hd]
      dsimp only
      split
      · next hk => exact absurd hk (ha _)
      · next hk _ => cases hk; rfl
      · next h1 h2 => exact absurd rfl (h2 n)
    rw [hm, runWord_issues h]
    unfold pushWord
    dsimp only
    rw [if_neg hp.unguessed, if_neg (by rw [hr]; simp; omega), hidle]
  have u0 : Upd s (clearRel s i) i.b i.g := upd_modGroup ..
  have hg : t.group i.b i.g = (s.group i.b i.g).mapLanes i.ex fun _ l => { l with rel := [] } := by
    rw [ht, group_setQueue]; exact group_modGroup_self ..
  have hc : SameCode s t := u0.sameCode.trans (sameCode_setQueue ..)
  have r : Rested (advance t i i.iss) _ i.b i.g := rested_conclude (s := s) (h.waits.congr (by rw [group_advance, hg]; exact ⟨rfl, rfl, rfl, rfl⟩)) 0x0D w.stall.toNat (w.y == 1)
  have ut := (upd_advance t i i.iss).trans r.upd
  refine ⟨_, hu, r.fallsOn h.standing (fun L => ?_) hc, ut.mem.trans hc.mem, ?_, ?_⟩
  · obtain ⟨rel, e⟩ := laneAt_clearRel s i L
    have : laneAt t i L = laneAt (clearRel s i) i L := by unfold laneAt; rw [ht, group_setQueue]
    rw [this, e]
  · refine RegsKept.trans ?_ ((regsKept_advance t i i.iss).trans r.regsKept)
    rw [hg]; exact ⟨rfl, rfl, rfl, rfl, rfl⟩
  · rw [ut.queueOf, ht, queueOf_setQueue, u0.queueOf]
    rfl

/-! ## QTRY -/

/-- QTRY deals with one lane. -/
def qtryLane (w : Insn) (i : Iss) (t : Ty) (n : Nat) (v : State) (L : Nat) : State :=
  if queueOf v i.b n = [] then modGroup v i.b i.g fun q => q.resLane 0 0 (wide .b32) (modP w) L 0 false
  else modGroup (popped w i t n v L) i.b i.g fun q => q.resLane 0 0 (wide .b32) (modP w) L 1 false

/-- What QTRY has told the lanes listed. -/
structure Tried (w : Insn) (i : Iss) (t : Ty) (n : Nat) (s v : State) (done : List Nat) : Prop where
  begun : Begun s v i [(t, opD w), (.b32, modP w)]
  queue : queueOf v i.b n = (queueOf s i.b n).drop done.length
  tells : ∀ L ∈ done, True → Gets (v.group i.b i.g) i.ex .b32 (modP w) L (b2n (decide ((lanesOf i.ex).idxOf L < (queueOf s i.b n).length))) false
  gets  : ∀ L ∈ done, (lanesOf i.ex).idxOf L < (queueOf s i.b n).length →
    Gets (v.group i.b i.g) i.ex t (opD w) L ((queueOf s i.b n)[(lanesOf i.ex).idxOf L]?.getD 0).toNat false
  kept  : ∀ L, L < 32 → (L ∈ done → (queueOf s i.b n).length ≤ (lanesOf i.ex).idxOf L) → ∀ d, (v.group i.b i.g).vReg d L = (s.group i.b i.g).vReg d L

section qtry
variable {w : Insn} (hd : isS (opD w) = false) (i : Iss) (t : Ty) (n : Nat) (v : State) {L : Nat} (hL : L < 32)

theorem queueOf_qtryLane (L : Nat) : queueOf (qtryLane w i t n v L) i.b n = (queueOf v i.b n).drop 1 := by
  unfold qtryLane
  split_ifs with h
  · rw [(upd_modGroup ..).queueOf, h]; rfl
  · rw [(upd_modGroup ..).queueOf, queueOf_popped]

include hL

theorem laneDone_qtry_none (h : queueOf v i.b n = []) : LaneDone v (qtryLane w i t n v L) i [(.b32, modP w)] L := by
  unfold qtryLane
  rw [if_pos h]
  exact laneDone_resLane v i 0 0 .b32 rfl hL 0 false

include hd

theorem laneDone_qtryLane : LaneDone v (qtryLane w i t n v L) i [(t, opD w), (.b32, modP w)] L := by
  unfold qtryLane
  split_ifs with h
  · exact (laneDone_resLane v i 0 0 .b32 rfl hL 0 false).mono (by simp)
  · exact (laneDone_popped hd i t n v hL).trans (laneDone_resLane _ i 0 0 .b32 rfl hL 1 false)

theorem laneAt_qtryLane (k : Nat) : laneAt (qtryLane w i t n v L) i k = laneAt v i k := by
  unfold qtryLane
  split_ifs with h
  · exact laneAt_resLane v i 0 0 .b32 rfl hL 0 false k
  · exact (laneAt_resLane _ i 0 0 .b32 rfl hL 1 false k).trans (laneAt_popped hd i t n v hL k)

/-- The entry that the lane finds is delivered; nothing is written to V registers where it finds none. -/
theorem gets_qtryLane {d : Nat} (hv : opD w = .v d) (h : queueOf v i.b n ≠ []) :
    Gets ((qtryLane w i t n v L).group i.b i.g) i.ex t (opD w) L ((queueOf v i.b n)[0]?.getD 0).toNat false := by
  have h1 := gets_popped hd i t n v hL
  have d2 := laneDone_resLane (popped w i t n v L) i 0 0 .b32 (o := modP w) rfl hL 1 false
  have he : qtryLane w i t n v L = modGroup (popped w i t n v L) i.b i.g fun q => q.resLane 0 0 (wide .b32) (modP w) L 1 false := by unfold qtryLane; rw [if_neg h]
  rw [he]
  have hv1 : ∀ k, _ := fun k => d2.regs.v k L hL (.inl (by simp [covers, modP]))
  have hv2 : ∀ k, _ := fun k => d2.regs.vg k L hL (.inl (by simp [covers, modP]))
  rw [hv] at h1 ⊢
  unfold Gets at h1 ⊢
  dsimp only at h1 ⊢
  rw [hv1, hv2, hv1, hv2]
  exact h1

omit hd in
theorem tells_qtryLane : Gets ((qtryLane w i t n v L).group i.b i.g) i.ex .b32 (modP w) L (b2n (decide (queueOf v i.b n ≠ []))) false := by
  unfold qtryLane
  split_ifs with h <;> rw [group_modGroup_self]
  · rw [h]; exact gets_resLane _ 0 0 .b32 rfl hL 0 false i.ex
  · rw [decide_eq_true h]; exact gets_resLane _ 0 0 .b32 rfl hL 1 false i.ex

end qtry

theorem tried_foldl {w : Insn} (i : Iss) (t : Ty) (n : Nat) (s : State) {d : Nat} (hv : opD w = .v d) :
    Tried w i t n s ((lanesOf i.ex).foldl (qtryLane w i t n) s) (lanesOf i.ex) := by
  have hd : isS (opD w) = false := by rw [hv]; rfl
  refine foldl_invariant (fun done v => Tried w i t n s v done) (fun done L rest v he hw => ?_)
    ⟨.refl .., rfl, fun L h => (by cases h), fun L h => (by cases h), fun L _ _ d => rfl⟩
  obtain ⟨hn, hL, hx, hlt⟩ := fresh_of_split he
  have dn := laneDone_qtryLane hd i t n v hL
  have hidx := idxOf_next he hn
  have hne : queueOf v i.b n ≠ [] ↔ (lanesOf i.ex).idxOf L < (queueOf s i.b n).length := by
    rw [hw.queue, hidx, ne_eq, List.drop_eq_nil_iff, not_le]
  refine ⟨⟨hw.begun.code.trans dn.code, hw.begun.mode.trans dn.mode, ?_, fun e => (by cases e), fun k => (laneAt_qtryLane hd i t n v hL k).trans (hw.begun.lanes k)⟩,
    ?_, ?_, ?_, fun k hk hkd r => ?_⟩
  · exact (hw.begun.regs.trans (dn.regs.ofLane (gg := i.gg) hx)).mono (fun e he => (List.mem_append.1 he).elim id id) (fun _ _ h => h) fun _ _ h => h
  · rw [queueOf_qtryLane, hw.queue, List.drop_drop, List.length_append, List.length_singleton]
  · refine dn.gets rfl (fun k hk => (hlt k hk).1) hn hw.tells fun _ => ?_
    have := tells_qtryLane (w := w) i t n v hL
    rwa [show decide (queueOf v i.b n ≠ []) = decide ((lanesOf i.ex).idxOf L < (queueOf s i.b n).length) from decide_eq_decide.2 hne] at this
  · refine dn.gets hd (fun k hk => (hlt k hk).1) hn hw.gets fun hlen => ?_
    have := gets_qtryLane hd i t n v hL hv (hne.2 hlen)
    rw [hw.queue] at this
    rw [hidx]
    simpa using this
  · by_cases hkL : k = L
    · subst hkL
      have hnone : queueOf v i.b n = [] := by
        by_contra hc
        exact absurd (hkd (by simp)) (not_le.2 (hne.1 hc))
      rw [(laneDone_qtry_none i t n v hL hnone).regs.v r k hL (.inl (by simp [covers, modP])), hw.kept k hk (fun c => absurd c hn)]
    · rw [dn.regs.v r k hk (.inr (by rw [inMask_oneLane]; simp [hkL])), hw.kept k hk fun c => hkd (by simp [c])]


theorem Wrote.begun {s : State} {i : Iss} {f : Group → Group} {ds : List (Ty × Opd)} (h : Wrote (s.group i.b i.g) (f (s.group i.b i.g)) ds i.ex i.gg)
    (hd : ds ≠ []) : Begun s (modGroup s i.b i.g f) i ds := by
  refine ⟨(upd_modGroup ..).sameCode, ?_, ?_, fun e => absurd e hd, fun L => ?_⟩
  · rw [group_modGroup_self]; exact h.un.sameMode
  · rw [group_modGroup_self]; exact h.regs
  · unfold laneAt; rw [group_modGroup_self, h.un.lane]

theorem begun_guess2 (s : State) (i : Iss) (t u : Ty) {o p : Opd} (ho : isS o = false) (hp : isS p = false) :
    Begun s (guessDests s i [(o, two (wide t)), (p, two (wide u))]) i [(t, o), (u, p)] :=
  have h1 := wrote_orGuard (s.group i.b i.g) i.gg t ho i.ex
  have h2 := wrote_orGuard ((s.group i.b i.g).orGuard i.gg o (two (wide t))) i.gg u hp i.ex
  Wrote.begun ⟨h1.un.trans h2.un, h1.regs.trans h2.regs⟩ (by simp)

/-- Marking destinations by guessed guards changes no value. -/
theorem vReg_guess2 (s : State) (i : Iss) (t u : Ty) {o p : Opd} (ho : isS o = false) (hp : isS p = false) (d : Nat) {L : Nat} (hL : L < 32) :
    ((guessDests s i [(o, two (wide t)), (p, two (wide u))]).group i.b i.g).vReg d L = (s.group i.b i.g).vReg d L := by
  have h1 := wrote_orGuard (s.group i.b i.g) i.gg t ho 0
  have h2 := wrote_orGuard ((s.group i.b i.g).orGuard i.gg o (two (wide t))) i.gg u hp 0
  unfold guessDests
  rw [group_modGroup_self]
  exact (h1.regs.trans h2.regs).v d L hL (.inr (by simp [inMask]))

theorem dest_qtry {w : Insn} {s : State} {i : Iss} {bump : State → Iss → Mask} (h : Issues 0xE4 w bump s i) : ∃ d, opD w = .v d := by
  have := (h.legal).1 (.dest, vOk (w.sub.toNat == 1) (opD w)) (by simp [fieldChecks, classE])
  cases hd : opD w <;> simp [hd, vOk] at this
  exact ⟨_, rfl⟩

/-- The type of what QTRY delivers. -/
def qtryTy (w : Insn) : Ty := if w.sub.toNat = 1 then .b64 else .b32

theorem wide_qtryTy (w : Insn) : wide (qtryTy w) = (w.sub.toNat == 1) := by
  unfold qtryTy
  split_ifs with h
  · simp [h, wide, tyBits]
  · simp [h, wide, tyBits]

theorem execQtry_eq {w : Insn} {n : Nat} {s : State} {i : Iss} (h : Issues 0xE4 w noBump s i) (hn : n ≠ 3) (ha : opA w = .q n) (hp : Plain [] s i) :
    execQtry w s = .next (conclude s i 0xE4 w.stall.toNat (w.y == 1) (.next (advance ((lanesOf i.ex).foldl (qtryLane w i (qtryTy w) n)
      (guessDests s i [(opD w, two (wide (qtryTy w))), (modP w, two (wide .b32))])) i i.iss))) := by
  obtain ⟨d, hd⟩ := dest_qtry h
  unfold execQtry
  rw [runWord_issues h]
  refine congrArg (fun r => (.next (conclude s i 0xE4 w.stall.toNat (w.y == 1) r) : Out)) ?_
  dsimp only
  rw [if_neg hp.unguessed, ha]
  refine congrArg (fun r => Res.next (advance r i i.iss)) ?_
  rw [← wide_qtryTy]
  refine List.foldl_ext _ _ _ fun v L hL => ?_
  dsimp only
  rw [if_neg hn]
  unfold qtryLane
  split
  · next x xs hq => simp [hq, popped, deliverPop_lane (w := w) (by rw [hd]; rfl), Group.resLane, modP]
  · next hq => simp [hq, Group.resLane, modP]

theorem qtry_word {w : Insn} {n : Nat} {s : State} {i : Iss} (h : Issues 0xE4 w noBump s i) (hn : n ≠ 3) (ha : opA w = .q n) (hp : Plain [] s i) :
    ∃ u, exec (.qtry w) s = .next u ∧ FallsThrough s i u ∧ u.mem = s.mem ∧ queueOf u i.b n = (queueOf s i.b n).drop (lanesOf i.ex).length ∧
      ∀ k L : Nat, (lanesOf i.ex)[k]? = some L →
        Gets (u.group i.b i.g) i.ex .b32 (.p w.mod.toNat) L (b2n (decide (k < (queueOf s i.b n).length))) false ∧
        ∀ d, opD w = .v d → match (queueOf s i.b n)[k]? with
          | some x => Gets (u.group i.b i.g) i.ex (if w.sub.toNat = 1 then .b64 else .b32) (opD w) L x.toNat false
          | none => (u.group i.b i.g).vReg d L = (s.group i.b i.g).vReg d L := by
  obtain ⟨d, hd⟩ := dest_qtry h
  have b0 := begun_guess2 s i (qtryTy w) .b32 (o := opD w) (p := modP w) (by rw [hd]; rfl) rfl
  have u0 : Upd s (guessDests s i [(opD w, two (wide (qtryTy w))), (modP w, two (wide .b32))]) i.b i.g := upd_guessDests ..
  have hq0 := u0.queueOf i.b n
  have ht := tried_foldl (w := w) i (qtryTy w) n (guessDests s i [(opD w, two (wide (qtryTy w))), (modP w, two (wide .b32))]) hd
  have hb := b0.trans ht.begun
  obtain ⟨hf, hm, -, -⟩ := hb.falls h w.stall.toNat (w.y == 1)
  have r := hb.rested h w.stall.toNat (w.y == 1)
  have ha' := (regsKept_advance _ i i.iss).alike.trans r.alike
  refine ⟨_, execQtry_eq h hn ha hp, hf, hm, ?_, fun k L hk => ?_⟩
  · rw [((upd_advance ..).trans r.upd).queueOf, ht.queue, hq0]
  · have hmem := List.mem_of_getElem? hk
    have hL := ((mem_lanesOf ..).1 hmem).1
    have hidx := idxOf_lanesOf hk
    have g1 := ht.tells L hmem trivial
    rw [hidx, hq0] at g1
    refine ⟨g1.alike ha', fun e he => ?_⟩
    cases hq : (queueOf s i.b n)[k]? with
    | some x =>
      have hlt : k < (queueOf s i.b n).length := (List.getElem?_eq_some_iff.1 hq).1
      have g2 := ht.gets L hmem (by rw [hidx, hq0]; exact hlt)
      rw [hidx, hq0, hq] at g2
      exact g2.alike ha'
    | none =>
      have hle : (queueOf s i.b n).length ≤ k := List.getElem?_eq_none_iff.1 hq
      have g3 := ht.kept L hL (fun _ => by rw [hidx, hq0]; exact hle) e
      exact ((ha'.v e L).trans g3).trans (vReg_guess2 s i _ _ (by rw [hd]; rfl) rfl e hL)

/-- Settles O30: pops lane by lane or once for the group, pushes, QTRY and QCNT. -/
theorem queues : Obligations.Queues := by
  intro w n
  refine ⟨fun hn ha hs s i h hc => mov_pops h hn ha hc.1 hs hc.2, fun hn ha hs s i h hc => mov_scalar_pops h hn ha hc.1 hs hc.2.1 hc.2.2,
    fun hn ha s i h hc => ?_, fun ha hd s i h hc => mov_pushes h ha hd hc.1 hc.2.1 hc.2.2.1 hc.2.2.2, fun hn ha s i h hp => qtry_word h hn ha hp, fun ha => ?_⟩
  · cases hs : scalarForm w
    · obtain ⟨u, hu, hm, ho, hl⟩ := mov_parks h hn ha hc.1 hs hc.2
      rw [hs] at hl
      exact ⟨u, hu, hm, fun _ => ho, fun L hL hx => hl L hL (by simpa using hx)⟩
    · by_cases hx : i.ex = 0
      · obtain ⟨u, hu, hm, ho⟩ := mov_scalar_idle h ha hc.1 hs hx
        refine ⟨u, hu, hm, fun _ => ho, fun L hL hi => ?_⟩
        simp [hx, inMask] at hi
      · obtain ⟨u, hu, hm, hl⟩ := mov_scalar_parks h hn ha hc.1 hs hx hc.2
        rw [hs] at hl
        exact ⟨u, hu, hm, fun hor => absurd hor (not_or.2 ⟨by simp, hx⟩), fun L hL hi => hl L hL (by rwa [if_pos ⟨rfl, hx⟩] at hi)⟩
  · refine ComputesAs.congr (computesAs_of_body (lat := 0) fun _ => rfl) fun s i L => ?_
    rw [ha]
    dsimp only
    unfold queueCount copiesOut
    split <;> simp_all

end Sys2Proof.Machine
end

section
/-! PROOF. Guess bits: GTEST, ACCEPT, GMARK and DEMAND (R208, R209, R376, R377). -/

set_option Elab.async false

namespace Sys2Proof.Machine

/-! ## ACCEPT and GMARK -/

/-- What a lane's destination holds. -/
def heldIn (q : Group) (d : Opd) (L : Nat) : Nat :=
  match d with
  | .v n => (q.vReg n L).toNat
  | .p n => b2n (q.pred n L)
  | _ => 0

/-- ACCEPT or GMARK of one lane. -/
def markLane (d : Opd) (cyc : Nat) (b : Bool) (q : Group) (L : Nat) : Group :=
  match d with
  | .v n => ((if b then q else q.unbind n L).note (vKey n L) (cyc + 4) ((q.vReg n L).setWidth 64) (q.vGuess n L)).putV n L (q.vReg n L) b
  | .p n => q.resP cyc 4 n L (q.pred n L) b
  | _ => q

theorem isS_of_vp {d : Opd} (h : isV d || isP d) : isS d = false := by cases d <;> simp_all [isV, isP, isS]

/-- The mark of a V register is a write of what it holds. -/
theorem markLane_regs (n : Nat) (cyc : Nat) (b : Bool) (q : Group) {L : Nat} (hL : L < 32) (r : Nat) {k : Nat} (hk : k < 32) :
    (markLane (.v n) cyc b q L).vReg r k = q.vReg r k ∧ (markLane (.v n) cyc b q L).vGuess r k = if r = n ∧ k = L then b else q.vGuess r k := by
  unfold markLane
  dsimp only
  rw [vReg_putV _ _ _ _ _ _ _ hL hk, vGuess_putV _ _ _ _ _ _ _ hL hk]
  have h1 : ((if b then q else q.unbind n L).note (vKey n L) (cyc + 4) ((q.vReg n L).setWidth 64) (q.vGuess n L)).vReg r k = q.vReg r k := by cases b <;> rfl
  have h2 : ((if b then q else q.unbind n L).note (vKey n L) (cyc + 4) ((q.vReg n L).setWidth 64) (q.vGuess n L)).vGuess r k = q.vGuess r k := by cases b <;> rfl
  rw [h1, h2]
  refine ⟨?_, rfl⟩
  split_ifs with h
  · rw [h.1, h.2]
  · rfl

theorem decide_b2n (b : Bool) : decide (b2n b ≠ 0) = b := by cases b <;> rfl

theorem markLane_p (n cyc : Nat) (b : Bool) (q : Group) (L : Nat) :
    markLane (.p n) cyc b q L = q.resLane cyc 4 (wide .b32) (.p n) L (b2n (q.pred n L)) b := by
  show q.resP cyc 4 n L (q.pred n L) b = q.resP cyc 4 n L (decide (b2n (q.pred n L) ≠ 0)) b
  rw [decide_b2n]

theorem wrote_markLane (d : Opd) (hd : isV d || isP d) (cyc : Nat) (b : Bool) (q : Group) {L : Nat} (hL : L < 32) :
    Wrote q (markLane d cyc b q L) [(.b32, d)] (oneLane L) 0 := by
  cases d with
  | v n =>
    have hr := markLane_regs n cyc b q hL
    have hone : ∀ k, k < 32 → ∀ r, ([((.b32 : Ty), (.v n : Opd))].all (fun e => !covers e.1 e.2 r) = true ∨ inMask (oneLane L) k = false) → ¬(r = n ∧ k = L) := by
      rintro k hk r h ⟨rfl, rfl⟩
      rcases h with h | h
      · simp [covers] at h
      · rw [inMask_oneLane] at h; simp [hk] at h
    refine ⟨?_, fun r k hk h => (hr r hk).1, fun r k hk h => ?_, fun _ _ _ _ => by cases b <;> rfl, fun _ _ _ _ => by cases b <;> rfl, fun _ _ => by cases b <;> rfl⟩
    · cases b <;> exact ⟨rfl⟩
    · rw [(hr r hk).2, if_neg (hone k hk r (h.imp_right And.left))]
  | p n =>
    have := wrote_resLane q cyc 4 .b32 (o := .p n) rfl hL (b2n (q.pred n L)) b
    rwa [← markLane_p] at this
  | _ => simp [isV, isP] at hd

theorem gets_markLane (d : Opd) (hd : isV d || isP d) (cyc : Nat) (b : Bool) (q : Group) {L : Nat} (hL : L < 32) (ex : Mask) :
    Gets (markLane d cyc b q L) ex .b32 d L (heldIn q d L) b := by
  cases d with
  | v n =>
    obtain ⟨h1, h2⟩ := markLane_regs n cyc b q hL n hL
    exact ⟨h1.trans (by simp [heldIn, w32]), by simpa using h2, fun hw => by simp [wide, tyBits] at hw⟩
  | p n =>
    have := gets_resLane q cyc 4 .b32 (o := .p n) rfl hL (b2n (q.pred n L)) b ex
    rwa [← markLane_p] at this
  | _ => trivial

/-- A destination is read back as it was in lanes that have not been written. -/
theorem heldIn_elsewhere {q r : Group} {d : Opd} {es : List (Ty × Opd)} {m : Mask} (h : SameRegs q r es m 0) {k : Nat} (hk : k < 32) (hm : inMask m k = false) :
    heldIn r d k = heldIn q d k := by
  cases d with
  | v n => exact congrArg BitVec.toNat (h.v n k hk (.inr hm))
  | p n => exact congrArg b2n (h.p n k hk (.inr hm))
  | _ => rfl

/-- ACCEPT or GMARK of the lanes of a mask. -/
theorem marked_foldl (d : Opd) (hd : isV d || isP d) (cyc : Nat) (b : Bool) (q : Group) (ex : Mask) :
    Wrote q ((lanesOf ex).foldl (markLane d cyc b) q) [(.b32, d)] ex 0 ∧
      ∀ L, L < 32 → inMask ex L = true → Gets ((lanesOf ex).foldl (markLane d cyc b) q) ex .b32 d L (heldIn q d L) b := by
  suffices h : ∀ rest done : List Nat, lanesOf ex = done ++ rest → ∀ r, Wrote q r [(.b32, d)] ex 0 → (∀ k, k < 32 → k ∉ done → heldIn r d k = heldIn q d k) →
      (∀ L ∈ done, Gets r ex .b32 d L (heldIn q d L) b) →
      Wrote q (rest.foldl (markLane d cyc b) r) [(.b32, d)] ex 0 ∧ ∀ L ∈ lanesOf ex, Gets (rest.foldl (markLane d cyc b) r) ex .b32 d L (heldIn q d L) b by
    obtain ⟨h1, h2⟩ := h (lanesOf ex) [] rfl q (.refl ..) (fun _ _ _ => rfl) fun L hL => by cases hL
    exact ⟨h1, fun L hL hx => h2 L ((mem_lanesOf ..).2 ⟨hL, hx⟩)⟩
  intro rest
  induction rest with
  | nil => intro done he r hw _ hg; rw [he, List.append_nil]; exact ⟨hw, hg⟩
  | cons L rest ih =>
    intro done he r hw hh hg
    obtain ⟨hn, hL, hx, hlt⟩ := fresh_of_split he
    have hm := wrote_markLane d hd cyc b r hL
    refine ih (done ++ [L]) (by rw [he]; simp) _ ⟨hw.un.trans hm.un, ?_⟩ (fun k hk hkd => ?_) fun k hk => ?_
    · exact (hw.regs.trans (hm.regs.ofLane (gg := 0) hx)).mono (fun e he => (List.mem_append.1 he).elim id id) (fun _ _ h => h) fun _ _ h => h
    · rw [List.mem_append, List.mem_singleton, not_or] at hkd
      rw [heldIn_elsewhere hm.regs hk (by rw [inMask_oneLane]; simp [hkd.2]), hh k hk hkd.1]
    · rw [List.mem_append, List.mem_singleton] at hk
      rcases hk with hk | rfl
      · exact (hg k hk).elsewhere (isS_of_vp hd) (hlt k hk).1 hm.regs (by rw [inMask_oneLane]; simp; rintro - rfl; exact hn hk)
      · have := gets_markLane d hd cyc b r hL ex
        rwa [hh k hL hn] at this

/-- The guards' guess bits join those of a destination. -/
theorem gets_orGuard {q : Group} {ex gg : Mask} {d : Opd} {L x : Nat} {b : Bool} (h : Gets q ex .b32 d L x b) (hd : isS d = false) (hL : L < 32) :
    Gets (q.orGuard gg d 1) ex .b32 d L x (inMask gg L || b) := by
  have e : q.orGuard gg d 1 = putGroup q 0 0 gg .b32 d 0 (fun _ => 0) fun _ => false := by
    unfold putGroup
    rw [show lanesOf 0 = [] from by decide]
    cases d
    case s n => cases hd
    all_goals rfl
  have h0 : inMask (0 : Mask) L = false := by simp [inMask]
  rw [e]
  cases d with
  | v n =>
    obtain ⟨h1, h2, -⟩ := h
    refine ⟨?_, ?_, fun hw => by simp [wide, tyBits] at hw⟩
    · rw [putGroup_vReg _ _ _ _ _ _ _ _ _ _ _ hL, if_neg (by rw [h0]; simp), h1]
    · rw [putGroup_vGuess _ _ _ _ _ _ _ _ _ _ _ hL, if_pos (by simp [covers]), h0, h2]
      cases inMask gg L <;> rfl
  | p n =>
    unfold Gets at h ⊢
    dsimp only at h ⊢
    by_cases h15 : n = 15
    · rw [if_pos h15] at h ⊢; exact ⟨rfl, rfl⟩
    · rw [if_neg h15] at h ⊢
      rw [putGroup_pred _ _ _ _ _ _ _ _ _ _ _ hL, if_neg (by rw [h0]; simp), putGroup_pGuess _ _ _ _ _ _ _ _ _ _ _ hL, if_pos ⟨rfl, h15⟩, h0, h.1, h.2]
      refine ⟨rfl, ?_⟩
      cases inMask gg L <;> rfl
  | s n => cases hd
  | _ => trivial

/-- ACCEPT and GMARK: the guess bit changes, the value stays. -/
theorem markWord_computes {op : Nat} {w : Insn} {s : State} {i : Iss} (h : Issues op w noBump s i) (hd : (isV (opD w) || isP (opD w)) = true) (b : Bool) :
    Computes s i .b32 (opD w) (heldIn (s.group i.b i.g) (opD w)) (fun L => inMask i.gg L || b) (markWord op w s b) := by
  have hS := isS_of_vp hd
  have hm := marked_foldl (opD w) hd (cyclesOf s i.b) b (s.group i.b i.g) i.ex
  set f : Group → Group := fun q => ((lanesOf i.ex).foldl (markLane (opD w) (cyclesOf s i.b) b) q).orGuard i.gg (opD w) 1 with hf
  have hw : Wrote (s.group i.b i.g) (f (s.group i.b i.g)) ([(.b32, opD w)] ++ [(.b32, opD w)]) i.ex i.gg :=
    ⟨hm.1.un.trans (wrote_orGuard _ i.gg .b32 hS i.ex).un,
      (hm.1.regs.mono (fun _ h => h) (fun _ _ h => h) fun _ _ h => by simp [inMask] at h).trans (wrote_orGuard _ i.gg .b32 hS i.ex).regs⟩
  have hp : Puts s (modGroup s i.b i.g f) i [(.b32, opD w)] := ⟨upd_modGroup .., by
    rw [group_modGroup_self]; exact ⟨hw.un, hw.regs.mono (fun e he => (List.mem_append.1 he).elim id id) (fun _ _ h => h) fun _ _ h => h⟩⟩
  have hc : Completed s (modGroup s i.b i.g f) i i.iss (markWord op w s b) := by
    refine hp.completed h ?_
    refine congrArg (fun t => Res.next (advance t i i.iss)) (congrArg (modGroup s i.b i.g) (funext fun q => ?_))
    refine congrArg (fun r => Group.orGuard r i.gg (opD w) 1) (List.foldl_ext _ _ _ fun r L _ => ?_)
    unfold markLane
    cases opD w <;> rfl
  have hq := hc.quiet hp
  refine ⟨fun L hL hx => ?_, hc.fallsThrough, hq.regs, hq.traps, hq.other⟩
  refine Gets.alike ?_ hc.kept.alike
  rw [group_modGroup_self]
  exact gets_orGuard (hm.2 L hL hx) hS hL

theorem dest_mark {op : Nat} (hop : op = 0x92 ∨ op = 0x93) {w : Insn} {s : State} {i : Iss} {bump : State → Iss → Mask} (h : Issues op w bump s i) :
    (isV (opD w) || isP (opD w)) = true :=
  (h.legal).1 (.dest, isV (opD w) || isP (opD w)) (by rcases hop with rfl | rfl <;> simp [fieldChecks, class9])

theorem gtest_computes {w : Insn} {s : State} {i : Iss} (h : Issues 0x90 w noBump s i) : ∃ u, exec (.gtest w) s = .next u ∧
    Computes s i .b32 (opD w) (fun L => b2n (guessOf s i (opA w) 1 L)) (fun L => inMask i.gg L) u :=
  ⟨_, rfl, computes_of h _ 4 .b32 (opD w) _ _ rfl fun _ hL => hL⟩

/-! ## The predicates that a lane reads -/

/-- Lane L reads the predicates of r as those of q. -/
structure SamePreds (q r : Group) (L : Nat) : Prop where
  prods : ∀ p, (r.prods.filter fun x => x.key == pKey p L) = q.prods.filter fun x => x.key == pKey p L
  pred  : ∀ p, r.pred p L = q.pred p L
  guess : ∀ p, r.pGuess p L = q.pGuess p L

theorem SamePreds.refl (q : Group) (L : Nat) : SamePreds q q L := ⟨fun _ => rfl, fun _ => rfl, fun _ => rfl⟩
theorem SamePreds.trans {q r u : Group} {L : Nat} (h : SamePreds q r L) (k : SamePreds r u L) : SamePreds q u L :=
  ⟨fun p => (k.prods p).trans (h.prods p), fun p => (k.pred p).trans (h.pred p), fun p => (k.guess p).trans (h.guess p)⟩

theorem choose_free {s t : State} (h : t.free = s.free) (salt : Nat) (cur : W64 × Bool) (ps : List Producer) : choose t salt cur ps = choose s salt cur ps := by
  induction ps generalizing cur with
  | nil => rfl
  | cons p ps ih =>
    have hp : ∀ k, pick t k = pick s k := fun k => by simp only [pick, h]
    unfold choose; rw [ih, hp]

theorem prods_due (q : Group) (cyc key : Nat) : (q.prods.filter fun p => p.key == key && decide (cyc < p.ready)) =
    (q.prods.filter fun p => p.key == key).filter fun p => decide (cyc < p.ready) := by
  rw [List.filter_filter]
  exact List.filter_congr fun p _ => Bool.and_comm ..

theorem throughProds_same {s t : State} (hf : t.free = s.free) {q r : Group} {key : Nat}
    (hp : (r.prods.filter fun x => x.key == key) = q.prods.filter fun x => x.key == key) (cyc : Nat) (cur : W64 × Bool) :
    throughProds t r cyc key cur = throughProds s q cyc key cur := by
  unfold throughProds
  rw [prods_due, prods_due, hp]
  split
  · rfl
  · exact choose_free hf ..

theorem SamePreds.readP {s t : State} {b g L : Nat} (h : SamePreds (s.group b g) (t.group b g) L) (hf : t.free = s.free) (hc : cyclesOf t b = cyclesOf s b) (p : Nat) :
    readP t b g p L = readP s b g p L := by
  unfold Machine.readP
  dsimp only
  rw [hc, h.pred, h.guess, throughProds_same hf (h.prods p)]

theorem choose_guess (s : State) (salt : Nat) (x : W64) (ps : List Producer) (g : Bool) (h : (choose s salt (x, g) ps).2 = true) :
    (choose s salt (x, true) ps).2 = true := by
  cases ps with
  | nil => rfl
  | cons p ps =>
    unfold choose at *
    split_ifs at h ⊢
    · rfl
    · exact h

theorem throughProds_guess (s : State) (q : Group) (cyc key : Nat) (x : W64) (g : Bool) (h : (throughProds s q cyc key (x, g)).2 = true) :
    (throughProds s q cyc key (x, true)).2 = true := by
  unfold throughProds at *
  cases hp : q.prods.filter fun p => p.key == key && decide (cyc < p.ready) with
  | nil => rfl
  | cons p ps => rw [hp] at h; exact choose_guess _ _ _ _ _ h

/-- A guard's guess bit is as it was once guessed guards have marked a predicate. -/
theorem readP_marked {s t : State} {b g L : Nat} (hp : (t.group b g).prods = (s.group b g).prods) (hv : ∀ p, (t.group b g).pred p L = (s.group b g).pred p L)
    (p : Nat) (hg : (readP s b g p L).2 = false → (t.group b g).pGuess p L = (s.group b g).pGuess p L)
    (hm : (t.group b g).pGuess p L = true ∨ (t.group b g).pGuess p L = (s.group b g).pGuess p L)
    (hf : t.free = s.free) (hc : cyclesOf t b = cyclesOf s b) : (readP t b g p L).2 = (readP s b g p L).2 := by
  by_cases h15 : p = 15
  · subst h15; rfl
  have hr : ∀ v (q : Group), q = v.group b g → (readP v b g p L).2 =
      (throughProds v q (cyclesOf v b) (pKey p L) (w64 (b2n (q.pred p L)), q.pGuess p L)).2 := fun v q hq => by
    subst hq; unfold readP; dsimp only; rw [if_neg h15]
  have ht : (readP t b g p L).2 = (throughProds s (s.group b g) (cyclesOf s b) (pKey p L) (w64 (b2n ((s.group b g).pred p L)), (t.group b g).pGuess p L)).2 := by
    rw [hr t _ rfl, hc, hv, throughProds_same hf (q := s.group b g) (by rw [hp])]
  rcases hm with hm | hm
  · cases h : (readP s b g p L).2 with
    | false => rw [ht, hg h, ← hr s _ rfl]; exact h
    | true =>
      rw [hr s _ rfl] at h
      rw [ht, hm]
      exact throughProds_guess _ _ _ _ _ _ h
  · rw [ht, hm, ← hr s _ rfl]

/-! ## DEMAND of one lane -/

/-- What DEMAND makes of the group where lane L's truth in a slot has arrived. -/
def demandGroup (w : Insn) (r slot L : Nat) (gg : Bool) (q : Group) : Group :=
  let t := tget {} q.slots slot
  let same := tget 0 t.guess (4 * L + (r - t.dest)) == tget 0 t.truth (4 * L + (r - t.dest))
  let q := (q.takeTruth slot L (r - t.dest)).poisonTruth t L
  let q := if w.sub.toNat = 1 ∧ !same then q.perfAdd 5 1 else q
  let q := if gg then q.guardV r L else q
  match opB w with
  | .p n => if w.sub.toNat = 1 then q.putP n L same gg else q
  | _ => q

theorem demandLane_eq {w : Insn} {r : Nat} (hw : opD w = .v r) (s : State) (b g L slot : Nat) :
    (demandLane s b g L w slot).group b g = demandGroup w r slot L (guardOf s b g w.g L).2 (s.group b g) := by
  unfold demandLane demandGroup
  dsimp only
  rw [hw]
  exact group_modGroup_self ..

theorem upd_demandLane (s : State) (b g L : Nat) (w : Insn) (slot : Nat) : Upd s (demandLane s b g L w slot) b g := upd_modGroup ..

/-- The slot but for what is bound. -/
def SameSlots (q r : Group) : Prop := ∀ k, ∃ bd, tget {} r.slots k = { tget {} q.slots k with bound := bd }

theorem SameSlots.refl (q : Group) : SameSlots q q := fun _ => ⟨_, rfl⟩
theorem SameSlots.trans {q r u : Group} (h : SameSlots q r) (k : SameSlots r u) : SameSlots q u := fun j => by
  obtain ⟨b1, e1⟩ := h j
  obtain ⟨b2, e2⟩ := k j
  exact ⟨b2, by rw [e2, e1]⟩

/-- The first part of a DEMAND: the truth is in the register, and pending traps and counters may differ. -/
structure Took (q u : Group) (slot r L : Nat) : Prop where
  rest   : u = { q with regs := u.regs, rguess := u.rguess, slots := u.slots, pend := u.pend, perf := u.perf }
  slots  : SameSlots q u
  vReg   : ∀ n k, k < 32 → u.vReg n k = if n = r ∧ k = L then tget 0 (tget {} q.slots slot).truth (4 * L + (r - (tget {} q.slots slot).dest)) else q.vReg n k
  vGuess : ∀ n k, k < 32 → u.vGuess n k = if n = r ∧ k = L then false else q.vGuess n k

theorem took_takeTruth (q : Group) (slot r L : Nat) (hL : L < 32) (hr : (tget {} q.slots slot).dest ≤ r) :
    Took q (q.takeTruth slot L (r - (tget {} q.slots slot).dest)) slot r L := by
  have hd : (tget {} q.slots slot).dest + (r - (tget {} q.slots slot).dest) = r := by omega
  refine ⟨rfl, fun k => ?_, fun n k hk => ?_, fun n k hk => ?_⟩
  · unfold Group.takeTruth Group.putV
    dsimp only
    rw [tget_tmod]
    split_ifs with e
    · subst e; exact ⟨_, rfl⟩
    · exact ⟨_, rfl⟩
  · have := vReg_putV q r L (tget 0 (tget {} q.slots slot).truth (4 * L + (r - (tget {} q.slots slot).dest))) false n k hL hk
    rw [← this, Group.takeTruth, hd]
    rfl
  · have := vGuess_putV q r L (tget 0 (tget {} q.slots slot).truth (4 * L + (r - (tget {} q.slots slot).dest))) false n k hL hk
    rw [← this, Group.takeTruth, hd]
    rfl

theorem poisonTruth_pend (q : Group) (t : TruthSlot) (L : Nat) : ∃ p, q.poisonTruth t L = { q with pend := p } := by
  unfold Group.poisonTruth Group.pendTrap
  dsimp only
  split_ifs
  exacts [⟨_, rfl⟩, ⟨_, rfl⟩, ⟨_, rfl⟩]

/-- The second part: the guard's guess bit joins, and under .q the predicate is written. -/
def demandMark (w : Insn) (r L : Nat) (gg same : Bool) (q : Group) : Group :=
  let q := if gg then q.guardV r L else q
  match opB w with
  | .p n => if w.sub.toNat = 1 then q.putP n L same gg else q
  | _ => q

theorem guardV_eq (q : Group) (r L : Nat) : q.guardV r L = { q with rguess := (q.guardV r L).rguess } := rfl

theorem vGuess_guardV (q : Group) (r L n k : Nat) (hL : L < 32) (hk : k < 32) :
    (q.guardV r L).vGuess n k = if n = r ∧ k = L then true else q.vGuess n k := by
  unfold Group.guardV Group.vGuess
  dsimp only
  rw [tget_tset]
  simp only [vKey_inj hk hL]

theorem putP_eq (q : Group) (n L : Nat) (x gb : Bool) : q.putP n L x gb = { q with preds := (q.putP n L x gb).preds, pguess := (q.putP n L x gb).pguess } := by
  unfold Group.putP; split_ifs <;> rfl

theorem demandMark_eq (w : Insn) (r L : Nat) (gg same : Bool) (q : Group) :
    demandMark w r L gg same q = { q with rguess := (demandMark w r L gg same q).rguess, preds := (demandMark w r L gg same q).preds
                                          pguess := (demandMark w r L gg same q).pguess } := by
  have h : ∀ u : Group, (match opB w with | .p n => if w.sub.toNat = 1 then u.putP n L same gg else u | _ => u) =
      { u with preds := (match opB w with | .p n => if w.sub.toNat = 1 then u.putP n L same gg else u | _ => u).preds
               pguess := (match opB w with | .p n => if w.sub.toNat = 1 then u.putP n L same gg else u | _ => u).pguess } := fun u => by
    split
    · split_ifs
      · exact putP_eq ..
      · rfl
    · rfl
  unfold demandMark
  dsimp only
  rw [h]
  cases gg <;> rfl

theorem vGuess_demandMark (w : Insn) (r L : Nat) (gg same : Bool) (q : Group) (hL : L < 32) (n k : Nat) (hk : k < 32) :
    (demandMark w r L gg same q).vGuess n k = if n = r ∧ k = L ∧ gg = true then true else q.vGuess n k := by
  have h : ∀ u : Group, (match opB w with | .p n => if w.sub.toNat = 1 then u.putP n L same gg else u | _ => u).vGuess n k = u.vGuess n k := fun u => by
    split
    · split_ifs
      · rw [putP_eq]; rfl
      · rfl
    · rfl
  unfold demandMark
  dsimp only
  rw [h]
  cases gg
  · simp
  · simp only [if_true, and_true]; exact vGuess_guardV q r L n k hL hk

/-- The predicate that a DEMAND writes. -/
def demandPred (w : Insn) (L p k : Nat) : Prop := w.sub.toNat = 1 ∧ opB w = .p p ∧ k = L

theorem pred_demandMark (w : Insn) (r L : Nat) (gg same : Bool) (q : Group) (hL : L < 32) (p k : Nat) (hk : k < 32) :
    (p ≠ 15 → demandPred w L p k → (demandMark w r L gg same q).pred p k = same) ∧
    (¬demandPred w L p k → (demandMark w r L gg same q).pred p k = q.pred p k ∧ (demandMark w r L gg same q).pGuess p k = q.pGuess p k) := by
  have hu : ∀ u : Group, (∀ p k, u.pred p k = q.pred p k) → (∀ p k, u.pGuess p k = q.pGuess p k) →
      (p ≠ 15 → demandPred w L p k → (match opB w with | .p n => if w.sub.toNat = 1 then u.putP n L same gg else u | _ => u).pred p k = same) ∧
      (¬demandPred w L p k → (match opB w with | .p n => if w.sub.toNat = 1 then u.putP n L same gg else u | _ => u).pred p k = q.pred p k ∧
        (match opB w with | .p n => if w.sub.toNat = 1 then u.putP n L same gg else u | _ => u).pGuess p k = q.pGuess p k) := fun u h1 h2 => by
    refine ⟨fun h15 ⟨hs, ho, hk'⟩ => ?_, fun hn => ?_⟩
    · rw [ho]
      dsimp only
      rw [if_pos hs, pred_putP _ _ _ _ _ _ _ hL hk, if_pos ⟨rfl, hk', h15⟩]
    · split
      · next n ho =>
        split_ifs with hs
        · rw [pred_putP _ _ _ _ _ _ _ hL hk, pGuess_putP _ _ _ _ _ _ _ hL hk, if_neg, if_neg]
          · exact ⟨h1 p k, h2 p k⟩
          all_goals exact fun c => hn ⟨hs, by rw [ho, c.1], c.2.1⟩
        · exact ⟨h1 p k, h2 p k⟩
      · exact ⟨h1 p k, h2 p k⟩
  unfold demandMark
  exact hu _ (fun p k => by cases gg <;> rfl) fun p k => by cases gg <;> rfl

/-- What DEMAND has made of a group. -/
structure DemandDone (w : Insn) (q u : Group) (slot r L : Nat) (gg : Bool) : Prop where
  rest   : u = { q with regs := u.regs, rguess := u.rguess, preds := u.preds, pguess := u.pguess, slots := u.slots, pend := u.pend, perf := u.perf }
  slots  : SameSlots q u
  vReg   : ∀ n k, k < 32 → u.vReg n k = if n = r ∧ k = L then tget 0 (tget {} q.slots slot).truth (4 * L + (r - (tget {} q.slots slot).dest)) else q.vReg n k
  vGuess : ∀ n k, k < 32 → u.vGuess n k = if n = r ∧ k = L then gg else q.vGuess n k
  pred   : ∀ p k, k < 32 → p ≠ 15 → demandPred w L p k → u.pred p k = (tget 0 (tget {} q.slots slot).guess (4 * L + (r - (tget {} q.slots slot).dest)) ==
    tget 0 (tget {} q.slots slot).truth (4 * L + (r - (tget {} q.slots slot).dest)))
  preds  : ∀ p k, k < 32 → ¬demandPred w L p k → u.pred p k = q.pred p k ∧ u.pGuess p k = q.pGuess p k

theorem demandDone (w : Insn) (q : Group) (slot r L : Nat) (gg : Bool) (hL : L < 32) (hr : (tget {} q.slots slot).dest ≤ r) :
    DemandDone w q (demandGroup w r slot L gg q) slot r L gg := by
  have h1 := took_takeTruth q slot r L hL hr
  obtain ⟨p, hp⟩ := poisonTruth_pend (q.takeTruth slot L (r - (tget {} q.slots slot).dest)) (tget {} q.slots slot) L
  generalize hsame : (tget 0 (tget {} q.slots slot).guess (4 * L + (r - (tget {} q.slots slot).dest)) ==
    tget 0 (tget {} q.slots slot).truth (4 * L + (r - (tget {} q.slots slot).dest))) = same
  obtain ⟨f, hf⟩ : ∃ f, demandGroup w r slot L gg q = demandMark w r L gg same { q.takeTruth slot L (r - (tget {} q.slots slot).dest) with pend := p, perf := f } := by
    have hperf : ∀ (u : Group) (c : Prop) [Decidable c], ∃ f, (if c then u.perfAdd 5 1 else u) = { u with perf := f } := fun u c _ => by
      split_ifs
      exacts [⟨_, rfl⟩, ⟨_, rfl⟩]
    obtain ⟨f, hf⟩ := hperf ((q.takeTruth slot L (r - (tget {} q.slots slot).dest)).poisonTruth (tget {} q.slots slot) L) (w.sub.toNat = 1 ∧ !same)
    refine ⟨f, ?_⟩
    rw [hp] at hf
    rw [← hf, ← hp, ← hsame]
    rfl
  rw [hf]
  obtain ⟨c1, c2, c3, c4⟩ := h1
  set u0 : Group := { q.takeTruth slot L (r - (tget {} q.slots slot).dest) with pend := p, perf := f } with hu0
  have e := demandMark_eq w r L gg same u0
  refine ⟨?_, ?_, fun n k hk => ?_, fun n k hk => ?_, fun p k hk h15 hd => ?_, fun p k hk hd => ?_⟩
  · rw [e, hu0, c1]
  · rw [e]; exact c2
  · rw [e]; exact c3 n k hk
  · rw [vGuess_demandMark w r L gg same u0 hL n k hk]
    have : u0.vGuess n k = _ := c4 n k hk
    rw [this]
    by_cases hc : n = r ∧ k = L
    · cases gg <;> simp [hc]
    · rw [if_neg fun c => hc ⟨c.1, c.2.1⟩, if_neg hc, if_neg hc]
  · exact ((pred_demandMark w r L gg same u0 hL p k hk).1 h15 hd).trans hsame.symm
  · exact (pred_demandMark w r L gg same u0 hL p k hk).2 hd

/-- The destinations of a DEMAND: its register, and under .q its predicate. -/
def demandDs (w : Insn) (r : Nat) : List (Ty × Opd) := (.b32, .v r) :: if w.sub.toNat = 1 then [(.b32, opB w)] else []

/-- DEMAND deals with one lane; s is the state at issue. -/
def demandStep (w : Insn) (r : Nat) (s : State) (i : Iss) (t : State) (L : Nat) : State :=
  if !guessOf s i (.v r) 1 L then
    advance (if w.sub.toNat = 1 then modGroup t i.b i.g fun q => q.resLane 0 0 false (opB w) L 1 (inMask i.gg L) else t) i (oneLane L)
  else match (s.group i.b i.g).originSlot r L with
    | some k =>
      if inMask (tget {} (s.group i.b i.g).slots k).arrived L then advance (demandLane t i.b i.g L w k) i (oneLane L)
      else parkLane t i L { cause := pkDemand, detail := k, x := w64 r, insn := some w }
    | none => t

/-- What becomes of the lane. -/
def demandFate (w : Insn) (r : Nat) (s : State) (i : Iss) (L : Nat) : Fate :=
  if !guessOf s i (.v r) 1 L then .goes
  else match (s.group i.b i.g).originSlot r L with
    | some k => if inMask (tget {} (s.group i.b i.g).slots k).arrived L then .goes else .waits { cause := pkDemand, detail := k, x := w64 r, insn := some w }
    | none => .goes

section fate
variable {w : Insn} {r : Nat} {s : State} {i : Iss} {L : Nat}

theorem demandFate_sure (hu : guessOf s i (.v r) 1 L = false) : demandFate w r s i L = .goes := by
  unfold demandFate
  rw [hu]
  rfl

theorem demandFate_took {k : Nat} (hu : guessOf s i (.v r) 1 L = true) (ho : (s.group i.b i.g).originSlot r L = some k)
    (ha : inMask (tget {} (s.group i.b i.g).slots k).arrived L = true) : demandFate w r s i L = .goes := by
  unfold demandFate
  rw [hu, ho]
  exact if_pos ha

theorem demandFate_parks {k : Nat} (hu : guessOf s i (.v r) 1 L = true) (ho : (s.group i.b i.g).originSlot r L = some k)
    (ha : ¬inMask (tget {} (s.group i.b i.g).slots k).arrived L = true) :
    demandFate w r s i L = .waits { cause := pkDemand, detail := k, x := w64 r, insn := some w } := by
  unfold demandFate
  rw [hu, ho]
  exact if_neg ha

end fate

theorem originSlot_dest {q : Group} {r L k : Nat} (h : q.originSlot r L = some k) : (tget {} q.slots k).dest ≤ r := by
  unfold Group.originSlot at h
  have := List.find?_some h
  simp only [Bool.and_eq_true, decide_eq_true_eq] at this
  exact this.1.1.2

section lane
variable {w : Insn} {r : Nat} (hw : opD w = .v r) {i : Iss} {v : State} {L : Nat} (hL : L < 32)
include hL

theorem samePreds_resLane {o : Opd} (ho : isP o = true) (x : Nat) (gb : Bool) (q : Group) {k : Nat} (hk : k < 32) (hkL : k ≠ L) :
    SamePreds q (q.resLane 0 0 false o L x gb) k := by
  have hw := wrote_resLane q 0 0 .b32 (o := o) (by cases o <;> simp_all [isP, isS]) hL x gb
  have hm : inMask (oneLane L) k = false := by rw [inMask_oneLane]; simp [hkL]
  refine ⟨fun p => ?_, fun p => hw.regs.p p k hk (.inr hm), fun p => hw.regs.pg p k hk (.inr ⟨hm, by simp [inMask]⟩)⟩
  cases o with
  | p n =>
    have : (q.resLane 0 0 false (.p n) L x gb).prods = if n = 15 then q.prods else q.prods.filter fun x => x.key != pKey n L := by
      unfold Group.resLane Group.resP Group.putP Group.note Group.settled
      dsimp only
      rw [if_pos rfl]
      split_ifs <;> rfl
    rw [this]
    split_ifs
    · rfl
    · rw [List.filter_filter]
      refine List.filter_congr fun x _ => ?_
      by_cases hx : x.key = pKey p k
      · have : x.key ≠ pKey n L := by rw [hx]; unfold pKey; omega
        simp [this]
      · simp [hx]
  | _ => simp [isP] at ho

include hw

theorem laneDone_demandLane {slot : Nat} (hr : (tget {} (v.group i.b i.g).slots slot).dest ≤ r) :
    LaneDone v (demandLane v i.b i.g L w slot) i (demandDs w r) L := by
  have hg := demandLane_eq hw v i.b i.g L slot
  have hd := demandDone w (v.group i.b i.g) slot r L (guardOf v i.b i.g w.g L).2 hL hr
  rw [← hg] at hd
  have hone : ∀ k, k < 32 → inMask (oneLane L) k = false → k ≠ L := fun k hk hm e => by rw [inMask_oneLane, e] at hm; simp [hL] at hm
  have hcov : ∀ n, (demandDs w r).all (fun e => !covers e.1 e.2 n) = true → n ≠ r := fun n h e => by
    unfold demandDs at h
    simp [covers, e] at h
  have hpred : ∀ p, (∀ e ∈ demandDs w r, e.2 ≠ .p p) → ∀ k, ¬demandPred w L p k := fun p h k ⟨h1, h2, _⟩ => by
    unfold demandDs at h
    rw [if_pos h1] at h
    exact h (.b32, opB w) (by simp) h2
  refine ⟨(upd_demandLane ..).sameCode, by rw [hd.rest]; exact ⟨rfl, rfl, rfl, rfl⟩, ⟨fun n k hk hn => ?_, fun n k hk hn => ?_, fun p k hk hn => ?_, fun p k hk hn => ?_,
    fun n _ => by rw [hd.rest]; rfl⟩, fun e => (by cases e), fun k _ => (by unfold laneAt; rw [hd.rest]; rfl)⟩
  · rw [hd.vReg n k hk, if_neg]
    exact fun c => hn.elim (fun h => hcov n h c.1) fun h => hone k hk h c.2
  · rw [hd.vGuess n k hk, if_neg]
    exact fun c => hn.elim (fun h => hcov n h c.1) fun h => hone k hk h.1 c.2
  · exact (hd.preds p k hk (hn.elim (fun h => hpred p h k) fun h c => hone k hk h c.2.2)).1
  · exact (hd.preds p k hk (hn.elim (fun h => hpred p h k) fun h c => hone k hk h.1 c.2.2)).2

theorem samePreds_demandLane {slot : Nat} (hr : (tget {} (v.group i.b i.g).slots slot).dest ≤ r) {k : Nat} (hk : k < 32) (hkL : k ≠ L) :
    SamePreds (v.group i.b i.g) ((demandLane v i.b i.g L w slot).group i.b i.g) k := by
  have hg := demandLane_eq hw v i.b i.g L slot
  have hd := demandDone w (v.group i.b i.g) slot r L (guardOf v i.b i.g w.g L).2 hL hr
  rw [← hg] at hd
  exact ⟨fun p => by rw [hd.rest], fun p => (hd.preds p k hk fun c => hkL c.2.2).1, fun p => (hd.preds p k hk fun c => hkL c.2.2).2⟩

end lane

/-- Lane k stands in a group as in another, but for registers of lane L. -/
theorem samePreds_lanesOnly {q r : Group} (h : LanesOnly q r) (L : Nat) : SamePreds q r L := by
  unfold LanesOnly at h
  rw [h]
  exact ⟨fun _ => rfl, fun _ => rfl, fun _ => rfl⟩

theorem sameSlots_lanesOnly {q r : Group} (h : LanesOnly q r) : SameSlots q r := by
  unfold LanesOnly at h
  rw [h]
  exact .refl _

/-! ## DEMAND as a whole -/

/-- What DEMAND has made of lane L in the group u. -/
structure Demanded (w : Insn) (r : Nat) (s : State) (i : Iss) (u : Group) (L : Nat) : Prop where
  sure : guessOf s i (.v r) 1 L = false → u.vReg r L = (s.group i.b i.g).vReg r L
  took : ∀ k, guessOf s i (.v r) 1 L = true → (s.group i.b i.g).originSlot r L = some k → inMask (tget {} (s.group i.b i.g).slots k).arrived L = true →
    u.vReg r L = tget 0 (tget {} (s.group i.b i.g).slots k).truth (4 * L + (r - (tget {} (s.group i.b i.g).slots k).dest)) ∧ u.vGuess r L = inMask i.gg L ∧
      ∀ p, w.sub.toNat = 1 → opB w = .p p → p ≠ 15 → u.pred p L = (tget 0 (tget {} (s.group i.b i.g).slots k).guess (4 * L + (r - (tget {} (s.group i.b i.g).slots k).dest)) ==
        tget 0 (tget {} (s.group i.b i.g).slots k).truth (4 * L + (r - (tget {} (s.group i.b i.g).slots k).dest)))

/-- The lanes dealt with so far; lane L of those to come reads as in s1. -/
structure DemandRun (w : Insn) (r : Nat) (s s1 : State) (i : Iss) (done : List Nat) (v : State) : Prop where
  lanes  : LanesDone s1 v i (demandDs w r) (demandFate w r s i) done
  slots  : SameSlots (s.group i.b i.g) (v.group i.b i.g)
  within : Within s1 v i.b i.g
  toCome : ∀ L, L < 32 → L ∉ done → SamePreds (s1.group i.b i.g) (v.group i.b i.g) L ∧ (v.group i.b i.g).vReg r L = (s.group i.b i.g).vReg r L
  did    : ∀ L ∈ done, Demanded w r s i (v.group i.b i.g) L

/-- A lane dealt with stays so while another is. -/
theorem Demanded.elsewhere {w : Insn} {r : Nat} {s v v' : State} {i : Iss} {L k : Nat} (h : Demanded w r s i (v.group i.b i.g) k)
    (d : LaneDone v v' i (demandDs w r) L) (hk : k < 32) (hkL : k ≠ L) : Demanded w r s i (v'.group i.b i.g) k := by
  have hm : inMask (oneLane L) k = false := by rw [inMask_oneLane]; simp [hkL]
  have hv := d.regs.v r k hk (.inr hm)
  have hg := d.regs.vg r k hk (.inr ⟨hm, by simp [inMask]⟩)
  refine ⟨fun e => hv.trans (h.sure e), fun j h1 h2 h3 => ?_⟩
  obtain ⟨t1, t2, t3⟩ := h.took j h1 h2 h3
  exact ⟨hv.trans t1, hg.trans t2, fun p hs ho h15 => (d.regs.p p k hk (.inr hm)).trans (t3 p hs ho h15)⟩

/-- DEMAND deals with one more lane. -/
theorem DemandRun.next {w : Insn} {r : Nat} {s s1 v v' : State} {i : Iss} {done : List Nat} (h : DemandRun w r s s1 i done v) {L : Nat} (hL : L < 32)
    (hx : inMask i.ex L = true) (hn : L ∉ done) (hlt : ∀ k ∈ done, k < 32) (d : LaneDone v v' i (demandDs w r) L) (hf : Fared v i L (laneAt v' i L) (demandFate w r s i L))
    (hs : SameSlots (v.group i.b i.g) (v'.group i.b i.g)) (hw : Within v v' i.b i.g)
    (hp : ∀ k, k < 32 → k ≠ L → SamePreds (v.group i.b i.g) (v'.group i.b i.g) k) (hd : Demanded w r s i (v'.group i.b i.g) L) :
    DemandRun w r s s1 i (done ++ [L]) v' := by
  refine ⟨h.lanes.next hx hn d hf, h.slots.trans hs, h.within.trans hw, fun k hk hkd => ?_, fun k hk => ?_⟩
  · rw [List.mem_append, List.mem_singleton, not_or] at hkd
    obtain ⟨h1, h2⟩ := h.toCome k hk hkd.1
    exact ⟨h1.trans (hp k hk hkd.2), (d.regs.v r k hk (.inr (by rw [inMask_oneLane]; simp [hkd.2]))).trans h2⟩
  · rw [List.mem_append, List.mem_singleton] at hk
    rcases hk with hk | rfl
    · exact (h.did k hk).elsewhere d (hlt k hk) (by rintro rfl; exact hn hk)
    · exact hd

/-- The state in which DEMAND deals with its lanes. -/
def demandBegin (w : Insn) (s : State) (i : Iss) : State :=
  modGroup s i.b i.g fun q =>
    let q := q.orGuard i.gg (opD w) 1
    if w.sub.toNat = 1 then q.orGuard i.gg (opB w) 1 else q

section demand
variable {w : Insn} {r : Nat} {s : State} {i : Iss} (h : Issues 0x91 w noBump s i) (hw : opD w = .v r)
include h

/-- Under .q source B is a predicate. -/
theorem isP_demand (hs : w.sub.toNat = 1) : isP (opB w) = true := by
  have := (h.legal).1 (.srcB, isP (opB w)) (by simp [fieldChecks, class9, hs])
  exact this

theorem isS_demand (hs : w.sub.toNat = 1) : isS (opB w) = false := isS_of_vp (by rw [isP_demand h hs, Bool.or_true])

include hw

theorem wrote_demandBegin (ex : Mask) : Wrote (s.group i.b i.g) ((demandBegin w s i).group i.b i.g) (demandDs w r) ex i.gg := by
  unfold demandBegin demandDs
  rw [group_modGroup_self, hw]
  have h1 := wrote_orGuard (s.group i.b i.g) i.gg .b32 (o := .v r) rfl ex
  dsimp only
  split_ifs with hs
  · have h2 := wrote_orGuard ((s.group i.b i.g).orGuard i.gg (.v r) 1) i.gg .b32 (isS_demand h hs) ex
    exact ⟨h1.un.trans h2.un, h1.regs.trans h2.regs⟩
  · exact h1

theorem begun_demandBegin : Begun s (demandBegin w s i) i (demandDs w r) := by
  refine Wrote.begun ?_ (by simp [demandDs])
  have := wrote_demandBegin h hw i.ex
  rwa [demandBegin, group_modGroup_self] at this

omit h hw in
theorem demandBegin_same {γ : Type} (rd : Group → γ) (hv : ∀ q r L, rd (Group.guardV q r L) = rd q) (hp : ∀ q p L, rd (Group.guardP q p L) = rd q) :
    rd ((demandBegin w s i).group i.b i.g) = rd (s.group i.b i.g) := by
  unfold demandBegin
  rw [group_modGroup_self]
  dsimp only
  split_ifs
  · rw [orGuard_same _ _ rd hv hp, orGuard_same _ _ rd hv hp]
  · rw [orGuard_same _ _ rd hv hp]

omit h in
/-- In the lanes whose guard is a guess, and in no others, a predicate may have become one. -/
theorem pGuess_demandBegin (p : Nat) {L : Nat} (hL : L < 32) :
    (((demandBegin w s i).group i.b i.g).pGuess p L = true ∨ ((demandBegin w s i).group i.b i.g).pGuess p L = (s.group i.b i.g).pGuess p L) ∧
      (inMask i.gg L = false → ((demandBegin w s i).group i.b i.g).pGuess p L = (s.group i.b i.g).pGuess p L) := by
  unfold demandBegin
  rw [group_modGroup_self, hw]
  dsimp only
  have h1 : ((s.group i.b i.g).orGuard i.gg (.v r) 1).pGuess p L = (s.group i.b i.g).pGuess p L := by
    rw [orGuard_pGuess _ _ _ _ _ _ hL, if_neg (by simp)]
  split_ifs
  · rw [orGuard_pGuess _ _ _ _ _ _ hL, h1]
    refine ⟨?_, fun hg => if_neg (by rw [hg]; simp)⟩
    split_ifs
    exacts [.inl rfl, .inr rfl]
  · exact ⟨.inr h1, fun _ => h1⟩

/-- The guess bit of the guard as lane L reads it at its turn. -/
theorem guard_demand {done : List Nat} {v : State} (hr : DemandRun w r s (advance (demandBegin w s i) i (i.iss &&& ~~~i.ex)) i done v) {L : Nat} (hL : L < 32)
    (hx : inMask i.ex L = true) (hn : L ∉ done) : (guardOf v i.b i.g w.g L).2 = inMask i.gg L := by
  have hg : inMask i.gg L = (guardOf s i.b i.g w.g L).2 := by
    have hi := ex_of_withGuard h hx
    obtain ⟨j, -, -, -, -, -, -, rfl, -⟩ := h
    simp only [withGuard, inMask_maskOf, hL, decide_true, Bool.true_and] at hi ⊢
    rw [hi]
    rfl
  have u0 : Upd s (demandBegin w s i) i.b i.g := upd_modGroup ..
  have u1 : Upd (demandBegin w s i) (advance (demandBegin w s i) i (i.iss &&& ~~~i.ex)) i.b i.g := upd_advance ..
  have p1 : SamePreds ((demandBegin w s i).group i.b i.g) (v.group i.b i.g) L :=
    (samePreds_lanesOnly (by rw [group_advance]; rfl) L).trans (hr.toCome L hL hn).1
  have e1 := p1.readP (by rw [hr.within.upd.free]; exact u1.free) (by rw [hr.within.upd.cyclesOf]; exact u1.cyclesOf i.b) (w.g.toNat % 16)
  have hw0 := wrote_demandBegin h hw 0
  obtain ⟨m1, m2⟩ := pGuess_demandBegin (w := w) (r := r) (s := s) (i := i) hw (w.g.toNat % 16) hL
  rw [hg]
  unfold guardOf
  dsimp only
  rw [e1]
  refine readP_marked (demandBegin_same (fun q => q.prods) (fun _ _ _ => rfl) fun q p L => by unfold Group.guardP; split_ifs <;> rfl)
    (fun p => hw0.regs.p p L hL (.inr (by simp [inMask]))) _ (fun hf => m2 ?_) m1 u0.free (u0.cyclesOf i.b)
  rw [hg]
  exact hf

/-- DEMAND deals with the next lane. -/
theorem demandRun_step (hor : ∀ L, L < 32 → inMask i.ex L = true → guessOf s i (.v r) 1 L = true → ((s.group i.b i.g).originSlot r L).isSome = true)
    {done : List Nat} {v : State} (hr : DemandRun w r s (advance (demandBegin w s i) i (i.iss &&& ~~~i.ex)) i done v) {L : Nat} (hL : L < 32)
    (hx : inMask i.ex L = true) (hn : L ∉ done) (hlt : ∀ k ∈ done, k < 32) :
    DemandRun w r s (advance (demandBegin w s i) i (i.iss &&& ~~~i.ex)) i (done ++ [L]) (demandStep w r s i v L) := by
  have hgg := guard_demand h hw hr hL hx hn
  obtain ⟨-, hreg⟩ := hr.toCome L hL hn
  have hown : LanesOnly (v.group i.b i.g) ((advance v i (oneLane L)).group i.b i.g) := by rw [group_advance]; rfl
  unfold demandStep
  cases hu : guessOf s i (.v r) 1 L with
  | false =>
    have hf : demandFate w r s i L = .goes := demandFate_sure hu
    simp only [Bool.not_false, if_true]
    split_ifs with hs
    · set v' := modGroup v i.b i.g fun q => q.resLane 0 0 false (opB w) L 1 (inMask i.gg L) with hv'
      have hS := isS_demand h hs
      have d : LaneDone v v' i (demandDs w r) L := (laneDone_resLane v i 0 0 .b32 hS hL 1 _).mono fun e he => by simp [demandDs, hs, List.mem_singleton.1 he]
      have hone : LanesOnly (v'.group i.b i.g) ((advance v' i (oneLane L)).group i.b i.g) := by rw [group_advance]; rfl
      have hre : ((advance v' i (oneLane L)).group i.b i.g).vReg r L = (v.group i.b i.g).vReg r L := by
        rw [(regsKept_advance ..).alike.v]
        refine (laneDone_resLane v i 0 0 .b32 hS hL 1 (inMask i.gg L)).regs.v r L hL (.inl ?_)
        have := isP_demand h hs
        cases hb : opB w <;> simp [hb, isP, covers] at *
      refine hr.next hL hx hn hlt ((d.trans (laneDone_advance ..)).mono (by simp)) ?_ ?_ ((upd_modGroup ..).trans (upd_advance ..)).within
        (fun k hk hkL => ?_) ⟨fun _ => hre.trans hreg, fun j c => by rw [hu] at c; cases c⟩
      · rw [hf]; exact fared_advance hL d.code (laneAt_resLane v i 0 0 .b32 hS hL 1 _ L)
      · refine SameSlots.trans (r := v'.group i.b i.g) ?_ (sameSlots_lanesOnly hone)
        have := isP_demand h hs
        rw [hv', group_modGroup_self]
        cases hb : opB w <;> simp [hb, isP] at this
        intro j
        exact ⟨_, by unfold Group.resLane Group.resP Group.putP; dsimp only; split_ifs <;> rfl⟩
      · refine SamePreds.trans (r := v'.group i.b i.g) ?_ (samePreds_lanesOnly hone k)
        rw [hv', group_modGroup_self]
        exact samePreds_resLane hL (isP_demand h hs) 1 _ _ hk hkL
    · refine hr.next hL hx hn hlt ((laneDone_advance v i L).mono (by simp)) ?_ (sameSlots_lanesOnly hown) (upd_advance ..).within
        (fun k hk hkL => samePreds_lanesOnly hown k) ⟨fun _ => ?_, fun j c => by rw [hu] at c; cases c⟩
      · rw [hf]; exact fared_advance hL (.refl v) rfl
      · rw [(regsKept_advance ..).alike.v]; exact hreg
  | true =>
    simp only [Bool.not_true, Bool.false_eq_true, if_false]
    cases ho : (s.group i.b i.g).originSlot r L with
    | none => have := hor L hL hx hu; rw [ho] at this; cases this
    | some k =>
      dsimp only
      by_cases ha : inMask (tget {} (s.group i.b i.g).slots k).arrived L = true
      · have hf : demandFate w r s i L = .goes := demandFate_took hu ho ha
        rw [if_pos ha]
        obtain ⟨bd, hb⟩ := hr.slots k
        have hdest : (tget {} (v.group i.b i.g).slots k).dest ≤ r := by rw [hb]; exact originSlot_dest ho
        have d := laneDone_demandLane hw hL (i := i) (v := v) (slot := k) hdest
        have dd := demandDone w (v.group i.b i.g) k r L (guardOf v i.b i.g w.g L).2 hL hdest
        rw [← demandLane_eq hw v i.b i.g L k, hgg] at dd
        set v' := demandLane v i.b i.g L w k with hv'
        have hone : LanesOnly (v'.group i.b i.g) ((advance v' i (oneLane L)).group i.b i.g) := by rw [group_advance]; rfl
        have hl : laneAt v' i L = laneAt v i L := by unfold laneAt; rw [dd.rest]; rfl
        refine hr.next hL hx hn hlt ((d.trans (laneDone_advance ..)).mono (by simp)) ?_ (dd.slots.trans (sameSlots_lanesOnly hone))
          ((upd_demandLane v i.b i.g L w k).trans (upd_advance ..)).within
          (fun j hj hjL => (samePreds_demandLane hw hL hdest hj hjL).trans (samePreds_lanesOnly hone j)) ⟨fun c => (by rw [hu] at c; cases c), fun j _ hj _ => ?_⟩
        · rw [hf]; exact fared_advance hL d.code hl
        · obtain rfl : k = j := by rw [ho] at hj; exact Option.some.inj hj
          have al := (regsKept_advance v' i (oneLane L)).alike
          refine ⟨?_, ?_, fun p hs hp h15 => ?_⟩
          · rw [al.v, dd.vReg r L hL, if_pos ⟨rfl, rfl⟩, hb]
          · rw [al.vg, dd.vGuess r L hL, if_pos ⟨rfl, rfl⟩]
          · rw [al.p, dd.pred p L hL h15 ⟨hs, hp, rfl⟩, hb]
      · have hf := demandFate_parks (w := w) hu ho ha
        rw [if_neg ha]
        have hpk := lanesOnly_parkLane v i L { cause := pkDemand, detail := k, x := w64 r, insn := some w }
        refine hr.next hL hx hn hlt ((laneDone_parkLane ..).mono (by simp)) (by rw [hf]; exact fared_parkLane ..) (sameSlots_lanesOnly hpk) (within_parkLane ..)
          (fun j _ _ => samePreds_lanesOnly hpk j) ⟨fun c => (by rw [hu] at c; cases c), fun j _ hj hm => ?_⟩
        obtain rfl : k = j := by rw [ho] at hj; exact Option.some.inj hj
        exact absurd hm ha

omit h in
/-- The lanes that no truth can come to. -/
theorem unboundLanes_eq {m : Mask} (hm : ∀ L, L < 32 → inMask m L = (inMask i.ex L && (guessOf s i (.v r) 1 L && ((s.group i.b i.g).originSlot r L).isNone))) :
    unboundLanes w s i = m := by
  refine mask_ext fun L hL => ?_
  unfold unboundLanes
  dsimp only
  rw [inMask_maskOf, hw, hm L hL]
  simp [hL, Bool.and_assoc]

end demand

theorem execDemand_eq {w : Insn} {r : Nat} {s : State} {i : Iss} (h : Issues 0x91 w noBump s i) (hw : opD w = .v r) (hun : unboundLanes w s i = 0) :
    exec (.demand w) s = .next (conclude s i 0x91 w.stall.toNat (w.y == 1) (.next ((lanesOf i.ex).foldl (demandStep w r s i)
      (advance (demandBegin w s i) i (i.iss &&& ~~~i.ex))))) := by
  show execDemand w s = _
  unfold execDemand
  rw [runWord_issues h]
  dsimp only
  rw [hun, if_neg (by simp)]
  unfold demandStep demandBegin
  simp only [hw] <;> congr

/-- DEMAND where every guess is an origin. -/
theorem demand_runs {w : Insn} {r : Nat} {s : State} {i : Iss} (h : Issues 0x91 w noBump s i) (hw : opD w = .v r)
    (hor : ∀ L, L < 32 → inMask i.ex L = true → guessOf s i (.v r) 1 L = true → ((s.group i.b i.g).originSlot r L).isSome = true) : ∃ u, exec (.demand w) s = .next u ∧
      LaneWord s u i (demandDs w r ++ demandDs w r) (demandFate w r s i) ∧ ∀ L, L < 32 → inMask i.ex L = true → Demanded w r s i (u.group i.b i.g) L := by
  have hun : unboundLanes w s i = 0 := unboundLanes_eq hw fun L hL => by
    rw [show inMask (0 : Mask) L = false from by simp [inMask]]
    cases hx : inMask i.ex L
    · rfl
    cases hg : guessOf s i (.v r) 1 L
    · rfl
    have := hor L hL hx hg
    cases ho : (s.group i.b i.g).originSlot r L with
    | none => rw [ho] at this; cases this
    | some k => rfl
  set s1 := advance (demandBegin w s i) i (i.iss &&& ~~~i.ex) with hs1
  have k : DemandRun w r s s1 i (lanesOf i.ex) ((lanesOf i.ex).foldl (demandStep w r s i) s1) := by
    refine foldl_invariant (fun done v => DemandRun w r s s1 i done v) (fun done L rest v he hv => ?_) ⟨.refl .., ?_, .refl .., fun L hL _ => ⟨.refl .., ?_⟩, fun L hL => by cases hL⟩
    · obtain ⟨hn, hL, hx, hlt⟩ := fresh_of_split he
      exact demandRun_step h hw hor hv hL hx hn fun k hk => (hlt k hk).1
    · refine SameSlots.trans (r := (demandBegin w s i).group i.b i.g) (fun j => ?_) (sameSlots_lanesOnly (by rw [hs1, group_advance]; rfl))
      rw [demandBegin_same (fun q => q.slots) (fun _ _ _ => rfl) fun q p L => by unfold Group.guardP; split_ifs <;> rfl]
      exact ⟨_, rfl⟩
    · rw [(regsKept_advance ..).alike.v]
      exact (wrote_demandBegin h hw 0).regs.v r L hL (.inr (by simp [inMask]))
  have hu := execDemand_eq h hw hun
  have r' := k.lanes.rested h (begun_demandBegin h hw) w.stall.toNat (w.y == 1)
  refine ⟨_, hu, k.lanes.word h (begun_demandBegin h hw) .., fun L hL hx => ?_⟩
  obtain ⟨d1, d2⟩ := k.did L ((mem_lanesOf ..).2 ⟨hL, hx⟩)
  have al := r'.alike
  refine ⟨fun e => (al.v r L).trans (d1 e), fun j h1 h2 h3 => ?_⟩
  obtain ⟨t1, t2, t3⟩ := d2 j h1 h2 h3
  exact ⟨(al.v r L).trans t1, (al.vg r L).trans t2, fun p hs hp h15 => (al.p p L).trans (t3 p hs hp h15)⟩

/-- DEMAND where some lane's guess is no origin. -/
theorem demand_traps {w : Insn} {r : Nat} {m : Mask} {s : State} {i : Iss} (h : Issues 0x91 w noBump s i) (hw : opD w = .v r) (hm0 : m ≠ 0)
    (hm : ∀ L, L < 32 → inMask m L = (inMask i.ex L && (guessOf s i (.v r) 1 L && ((s.group i.b i.g).originSlot r L).isNone))) :
    ∃ u, exec (.demand w) s = .next u ∧ Trapped s u i 0x0C 0 i.ex m := by
  have hex : i.ex ≠ 0 := by
    obtain ⟨L, hL, hx⟩ := exists_inMask hm0
    rw [hm L hL, Bool.and_eq_true] at hx
    rintro e
    rw [e] at hx
    simp [inMask] at hx
  refine ⟨_, rfl, ?_⟩
  rw [runWord_issues h]
  dsimp only
  rw [unboundLanes_eq hw hm, if_pos hm0]
  have f := follows_noteIssue s i 0x91 w.stall.toNat (w.y == 1)
  show Trapped s (if i.ex = 0 then _ else takeTrap (noteIssue s i 0x91 w.stall.toNat (w.y == 1)) i.b i.g i.pc { cause := 0x0C, fm := i.ex, cm := m }) i 0x0C 0 i.ex m
  rw [if_neg hex]
  obtain ⟨rec, hmem, hhost⟩ := takeTrap_record (noteIssue s i 0x91 w.stall.toNat (w.y == 1)) i.b i.g i.pc { cause := 0x0C, fm := i.ex, cm := m }
  obtain ⟨e1, e2⟩ := tableRead_memories f.1 (by rw [f.2.rest]) 0x0C
  exact ⟨rec.cause_eq rfl (Nat.zero_lt_succ _), rec.pc, ⟨rec.fm, rec.cm⟩, f.2.regsKept.trans rec.regs, hmem.trans e1, hhost.trans e2⟩

/-- Settles O22: GTEST computes, ACCEPT and GMARK rewrite what their destination holds, and DEMAND deals with its lanes one by one. -/
theorem guessBits : Obligations.GuessBits := by
  refine ⟨fun w => ⟨fun s i h _ => gtest_computes h, fun s i h _ => ⟨_, rfl, ?_⟩, fun s i h _ => ⟨_, rfl, ?_⟩⟩, fun w r s i h ⟨hw, hor⟩ => ?_, fun w r m s i h ⟨hw, hm0, hm⟩ => demand_traps h hw hm0 hm⟩
  · have := markWord_computes h (dest_mark (.inl rfl) h) false
    simp only [Bool.or_false] at this
    exact this
  · have := markWord_computes h (dest_mark (.inr rfl) h) true
    simp only [Bool.or_true] at this
    exact this
  · obtain ⟨u, hu, hl, hd⟩ := demand_runs h hw hor
    refine ⟨u, hu, hl.others, hl.mem, fun L hL hx => ?_⟩
    have hst := hl.lanes L hL hx
    obtain ⟨d1, d2⟩ := hd L hL hx
    refine ⟨fun hg => ⟨?_, d1 hg⟩, fun k hg ho => ⟨fun ha => ⟨?_, d2 k hg ho ha⟩, fun ha => ?_⟩⟩
    · rw [demandFate_sure hg] at hst
      exact hst
    · rw [demandFate_took hg ho ha] at hst
      exact hst
    · rw [demandFate_parks hg ho (by rw [ha]; simp)] at hst
      exact (hst (by decide : (4 : Nat) ≠ 5) (by decide : (4 : Nat) ≠ 9)).1

end Sys2Proof.Machine
end

section
/-! PROOF. Arrivals at barrier objects: a load in flight numbered past the next one holds the second lane of a BARI (R181, R390). -/

set_option Elab.async false

namespace Sys2Proof.Machine

/-! ## An arrival that the parking of an earlier lane holds back

A lane that arrives parks, and takes a number for it. The next lane's release then counts the loads numbered below one more: with a load in
flight whose number is the next to be given, which no step hands out (`FreshLoads` fails), the lane may arrive at issue and not at its turn. -/

/-- Two lanes at a BARI; lane 1 has a load in flight with the number 0. -/
def openGroup : Group where
  exists_ := true
  live := 3
  lanes := [(0, { lpc := 0x8000 }), (1, { lpc := 0x8000 })]
  loads := [{ id := 0, waiting := 2 }]

/-- One block on core 0 with that group, and a lane object of which it is the only member; the next number is 0. -/
def openLoad : State := tinyMemory [] { State.reset with
    blocks := [(0, { resident := true, groups := [(0, openGroup)], objs := [(0, { kind := 1, members := 1 })] })]
    ctxs := [(0, { live := true, record := { regs := 512, scalars := 128, scratch := 4096, limit := 1024, lease := 1024, ngrp := 1, nblk := 1 } })]
    parts := [(0, { set := true, coreMask := 1, granN := 1, root := 0x1000 })]
    seq := 0 }

/-- BARI on object 0 of the block. -/
def bariZero : Insn := { ak := 3 }

def openIss : Iss := withGuard openLoad { pc := 0x8000, iss := 3, len := 8 } bariZero.g

theorem openLoad_issues : Issues 0xB1 bariZero noBump openLoad openIss :=
  ⟨{ pc := 0x8000, iss := 3, len := 8 }, by decide +kernel, by decide +kernel, by decide +kernel, by decide +kernel, by decide +kernel, by decide +kernel, rfl,
    by decide +kernel⟩

/-- The phase of object 0 of block 0 after a step. -/
def phaseAfter : Out → Option W32
  | .next u => some (u.obj 0 0).phase
  | _ => none

/-- Lane 0 arrives, lane 1 stays at the word, and the phase goes on. -/
theorem openLoad_stays : phaseAfter (exec (.bari bariZero) openLoad) = some 0 := by decide +kernel

/-- Refutes O24: lanes that may all arrive at issue do not complete the phase where a load in flight has the next number to be given. -/
theorem not_barriers : ¬Obligations.Barriers := by
  intro h
  obtain ⟨h1, -⟩ := h
  obtain ⟨-, hdone, -⟩ := h1 bariZero 0 0
  obtain ⟨u, hu, -, hp, -⟩ := hdone openLoad openIss openLoad_issues
    ⟨⟨(by decide +kernel : escapes openLoad openIss true [] = 0), by decide +kernel, by decide +kernel, by decide +kernel⟩, by decide +kernel, by decide +kernel⟩
  have hs := openLoad_stays
  rw [hu] at hs
  have hp' : (u.obj 0 0).phase = (openLoad.obj 0 0).phase + 1 := hp
  rw [phaseAfter, hp'] at hs
  exact absurd hs (by decide +kernel)

end Sys2Proof.Machine
end

section
/-! PROOF. ELECT, which names no A, waits for a load on its way to V0 (R127, R398, R406). -/

set_option Elab.async false

namespace Sys2Proof.Machine

/-! ## The register that the zero A field names

A cross-lane word tests the registers that its A and B fields name for results on their way. ELECT has no A; its zero field names V0, so that
a load to V0 holds the word, which neither reads nor writes it. -/

/-- Two lanes at an ELECT; a load to V0 is on its way in lane 0. -/
def awaitingV0 : Group where
  exists_ := true
  live := 3
  lanes := [(0, { lpc := 0x8000 }), (1, { lpc := 0x8000 })]
  pending := [(vKey 0 0, 1)]

/-- One block on core 0 with that group. -/
def loadToV0 : State := tinyMemory [] { State.reset with
    blocks := [(0, { resident := true, groups := [(0, awaitingV0)] })]
    ctxs := [(0, { live := true, record := { regs := 512, scalars := 128, scratch := 4096, limit := 1024, lease := 1024, ngrp := 1, nblk := 1 } })]
    parts := [(0, { set := true, coreMask := 1, granN := 1, root := 0x1000 })] }

/-- ELECT.lo of P0 over all lanes. -/
def electAll : Insn := { dk := 2, d := 32, bk := 3, b := 511 }

def electIss : Iss := withGuard loadToV0 { pc := 0x8000, iss := 3, len := 8 } electAll.g

theorem loadToV0_issues : Issues 0xC5 electAll noBump loadToV0 electIss :=
  ⟨{ pc := 0x8000, iss := 3, len := 8 }, by decide +kernel, by decide +kernel, by decide +kernel, by decide +kernel, by decide +kernel, by decide +kernel, rfl,
    by decide +kernel⟩

/-- Both lanes of the group are in the issue set, and none waits at the word. -/
theorem loadToV0_allHere : AllHere (opB electAll) loadToV0 electIss := by
  refine ⟨by decide +kernel, fun L _ _ k hk _ _ hl => ?_⟩
  have h : (List.range 32).all (fun k => !inMask (loadToV0.group electIss.b electIss.g).live k || inMask electIss.iss k) = true := by decide +kernel
  have := List.all_eq_true.1 h k (List.mem_range.2 hk)
  rwa [hl, Bool.not_true, Bool.false_or] at this

/-- The address at which lane 0 of group 0 of block 0 stands after a step. -/
def placeAfter : Out → Option W64
  | .next u => some ((u.group 0 0).lane 0).lpc
  | _ => none

theorem loadToV0_holds : placeAfter (exec (.elect electAll) loadToV0) = some 0x8000 := by decide +kernel

/-- Refutes O26: ELECT issues, its lanes are all here, and it waits for a register that it does not name. -/
theorem not_votesAndReductions : ¬Obligations.VotesAndReductions := by
  intro h
  obtain ⟨h1, -⟩ := h
  obtain ⟨-, -, helect⟩ := h1 electAll
  obtain ⟨u, hu, hc⟩ := helect loadToV0 electIss loadToV0_issues loadToV0_allHere
  have hs := loadToV0_holds
  have hn : ((u.group 0 0).lane 0).lpc = w64 (landing loadToV0 0 0x8008) := hc.next 0 (by decide) (by decide +kernel)
  rw [hu, placeAfter, hn] at hs
  exact absurd hs (by decide +kernel)

end Sys2Proof.Machine
end

section
/-! PROOF. Exchanges between lanes: SHFL, QSWP and QBC, and the wait of a cross-lane word (R117, R398, R401, R407). -/

set_option Elab.async false

namespace Sys2Proof.Machine

/-! ## Lanes that have joined -/

theorem withGuard_again (s : State) (i : Iss) (gf : BitVec 5) : withGuard s { withGuard s i gf with iss := i.iss } gf = withGuard s i gf := rfl

theorem iss_withGuard (s : State) (i : Iss) (gf : BitVec 5) : (withGuard s i gf).iss = i.iss := rfl

/-- A lane of an issue set where none waits at the word has not been released from one. -/
theorem Issues.notCross {op : Nat} {w : Insn} {bump : State → Iss → Mask} {s : State} {i : Iss} (h : Issues op w bump s i)
    (hp : parkedAt (s.group i.b i.g) 9 (w64 i.pc) = 0) {L : Nat} (hL : inMask i.iss L = true) : ((s.group i.b i.g).lane L).park.cause ≠ 9 := by
  intro hc
  obtain ⟨h1, h2, h3, -⟩ := h.lanes L hL
  have hn := h.names
  obtain ⟨-, he, -⟩ := (issueSet_spec _ _ _ hn.2.2.2.2.2).2 L hL
  simp only [eligible, inMask_maskOf, Bool.and_eq_true] at he
  have hr : ((s.group i.b i.g).lane L).refuted.isNone = true := by
    obtain ⟨j, -, -, hre, -, -, -, rfl, -⟩ := h
    rw [Option.isNone_iff_eq_none, ← Option.not_isSome_iff_eq_none]
    exact List.any_eq_false.1 hre L ((mem_lanesOf ..).2 ⟨h1, hL⟩)
  have hin : inMask (parkedAt (s.group i.b i.g) 9 (w64 i.pc)) L = true := by
    rw [parkedAt, inMask_maskOf]
    simp only [Bool.and_eq_true, beq_iff_eq, decide_eq_true_eq]
    refine ⟨h1, ⟨⟨⟨h2, hc⟩, ?_⟩, hr⟩, he.2.2⟩
    rw [← h3, w64, BitVec.ofNat_toNat, BitVec.setWidth_eq]
  rw [hp] at hin
  simp [inMask] at hin

/-- No register that a word's A and B name awaits a result where the word issues (R127). -/
theorem Issues.notPending {op : Nat} {w : Insn} {bump : State → Iss → Mask} {s : State} {i : Iss} (h : Issues op w bump s i)
    {k : Nat} (hA : usesA op w = true) (hB : usesB op w = true) (hb : spanB op w = k) (h91 : op ≠ 0x91) {m : Mask} (hm : ∀ L, inMask m L = true → inMask i.iss L = true) :
    pendingAny (s.group i.b i.g) ((lanesOf m).flatMap fun L => opKeys (opA w) (spanA op w) L ++ opKeys (opB w) k L) = false := by
  obtain ⟨j, -, -, -, -, h5, -, rfl, -⟩ := h
  unfold scoreHeld at h5
  dsimp only at h5
  simp only [Bool.or_eq_false_iff, Bool.and_eq_false_iff, List.any_cons, List.any_nil, Bool.or_false] at h5
  rw [pendingAny, List.any_eq_false]
  intro e he hk
  have hne : (s.group j.b j.g).pending.isEmpty = false := by
    rw [List.isEmpty_eq_false_iff]
    rintro h
    rw [show (withGuard s j w.g).b = j.b from rfl, show (withGuard s j w.g).g = j.g from rfl, h] at he
    cases he
  have hp := h5.1.resolve_left (by rw [hne]; simp)
  rw [pendingAny, List.any_eq_false] at hp
  refine hp e he ?_
  rw [Bool.and_eq_true] at hk ⊢
  refine ⟨hk.1, ?_⟩
  have h2 := hk.2
  rw [List.contains_iff_mem] at h2 ⊢
  rw [List.mem_flatMap] at h2
  unfold readKeys
  rw [List.mem_flatMap]
  obtain ⟨L, hL, h2⟩ := h2
  obtain ⟨hL32, hL⟩ := (mem_lanesOf ..).1 hL
  refine ⟨L, (mem_lanesOf ..).2 ⟨hL32, hm L hL⟩, List.mem_cons_of_mem _ (List.mem_flatMap.2 ?_)⟩
  rw [List.mem_append] at h2
  rcases h2 with h2 | h2
  · exact ⟨(opA w, spanA op w, true, false), by simp [useList, hA], by simpa using h2⟩
  · exact ⟨(opB w, spanB op w, op != 0x91, op == 0x91), by simp [useList, hB], by rw [hb]; simpa [h91] using h2⟩

/-- The lanes that have joined go on, all with the largest LAP among them. -/
def joinOn (t : State) (i : Iss) (lap : Nat) : State :=
  modGroup (advance t i i.iss) i.b i.g fun r => r.mapLanes i.iss fun _ l => { l with park := {}, lap := lap }

/-- The mask of a lane that executes a cross-lane word: that of the word, or the one with which it parked here (R399). -/
def joinMask (mask : Opd) (s : State) (i : Iss) (L : Nat) : Mask :=
  if ((s.group i.b i.g).lane L).park.cause == pkCross then ((s.group i.b i.g).lane L).park.x.setWidth 32 else w32 (val32 s i mask L)

theorem joinMask_eq {op : Nat} {w : Insn} {bump : State → Iss → Mask} {s : State} {i : Iss} (h : Issues op w bump s i)
    (hp : parkedAt (s.group i.b i.g) 9 (w64 i.pc) = 0) (mask : Opd) {L : Nat} (hL : inMask i.iss L = true) : joinMask mask s i L = w32 (val32 s i mask L) :=
  if_neg fun c => h.notCross hp hL (eq_of_beq c)

/-- The largest LAP among the lanes of the issue set. -/
def joinLap (s : State) (i : Iss) : Nat := maxOf ((lanesOf i.iss).map fun L => ((s.group i.b i.g).lane L).lap)

/-- Where all lanes of a cross-lane word are here, they execute together, each with its own mask. -/
theorem crossWord_here {op : Nat} {w : Insn} {s : State} {i : Iss} (h : Issues op w noBump s i) {mask : Opd} (ha : AllHere mask s i) (hA : usesA op w = true)
    (hB : usesB op w = true) (hb : spanB op w = 1) (h91 : op ≠ 0x91) (j : Joined) (he : j.esc s i (joinMask mask s i) = 0) :
    crossWord op w s mask j = conclude s i op w.stall.toNat (w.y == 1) (.next (joinOn (j.act s i (joinMask mask s i)) i (joinLap s i))) := by
  obtain ⟨hp, hall⟩ := ha
  have hmL : ∀ L, inMask i.iss L = true → joinMask mask s i L = w32 (val32 s i mask L) := fun L hL => joinMask_eq h hp mask hL
  set m := joinMask mask s i with hm
  have hj : (maskOf fun L => inMask i.iss L && ((inMask i.iss L && (((s.group i.b i.g).lane L).park.cause == pkCross)) ||
      (m L &&& (s.group i.b i.g).live &&& ~~~oneLane L &&& ~~~i.iss) == 0)) = i.iss := by
    refine mask_ext fun L hL => ?_
    rw [inMask_maskOf]
    cases hi : inMask i.iss L
    · simp
    · have hz : (m L &&& (s.group i.b i.g).live &&& ~~~oneLane L &&& ~~~i.iss) = 0 := by
        refine mask_ext fun k hk => ?_
        rw [show inMask (0 : Mask) k = false from by simp [inMask]]
        simp only [inMask_and, inMask_not _ hk]
        by_cases hkL : k = L
        · subst hkL; simp [inMask_oneLane, hk]
        · cases hb' : inMask (m L) k
          · simp
          · cases hl : inMask (s.group i.b i.g).live k
            · simp
            · rw [hall L hL hi k hk hkL ?_ hl]
              · simp
              · rw [hmL L hi] at hb'
                rw [inMask, w32, BitVec.getLsbD_ofNat, Bool.and_eq_true] at hb'
                exact hb'.2
      simp [hL, hz]
  have hr : ∀ L, inMask ((lanesOf i.iss).foldl (fun x L => x ||| (m L &&& i.iss)) i.iss) L = true → inMask i.iss L = true := fun L => by
    have : ∀ (xs : List Nat) (x : Mask), (∀ L, inMask x L = true → inMask i.iss L = true) →
        ∀ L, inMask (xs.foldl (fun x L => x ||| (m L &&& i.iss)) x) L = true → inMask i.iss L = true := fun xs => by
      induction xs with
      | nil => exact fun x hx => hx
      | cons y xs ih =>
        refine fun x hx => ih _ fun L hL => ?_
        simp only [inMask, BitVec.getLsbD_or, BitVec.getLsbD_and, Bool.or_eq_true, Bool.and_eq_true] at hL hx ⊢
        exact hL.elim (hx L) And.right
    exact this _ _ (fun _ h => h) L
  have hi : i = withGuard s { i with iss := i.iss } w.g := by
    obtain ⟨j, -, -, -, -, -, -, rfl, -⟩ := h
    rfl
  have hnz : i.iss ≠ 0 := by
    obtain ⟨L, -, hL⟩ := h.some
    rintro e
    rw [e] at hL
    simp [inMask] at hL
  unfold crossWord
  rw [runWord_issues h]
  refine congrArg _ ?_
  extract_lets q parked here kept m' joined ji reads esc late s1
  have hm' : m' = m := rfl
  have hpk : parked = 0 := hp
  have hhere : here = i.iss := by show i.iss ||| parked = _; rw [hpk]; simp
  have hjoin : joined = i.iss := by
    show (maskOf fun L => inMask here L && ((inMask i.iss L && kept L) || (m' L &&& q.live &&& ~~~oneLane L &&& ~~~here) == 0)) = _
    rw [hhere]
    exact hj
  have hji : ji = i := by show withGuard s { i with iss := joined } w.g = i; rw [hjoin]; exact hi.symm
  have hread : ∀ L, inMask reads L = true → inMask i.iss L = true := by
    show ∀ L, inMask ((lanesOf joined).foldl (fun x L => x ||| (m' L &&& here)) joined) L = true → _
    rw [hjoin, hhere]
    exact hr
  have hesc : esc = 0 := by show j.esc s ji m' = 0; rw [hji]; exact he
  have hs1 : s1 = s := by
    show (lanesOf (i.iss &&& ~~~joined)).foldl _ s = s
    rw [hjoin, show i.iss &&& ~~~i.iss = 0 from by simp, show lanesOf 0 = [] from by decide]
    rfl
  rw [if_neg (by rw [h.notPending hA hB hb h91 hread]; simp), if_neg (not_not.2 hesc), if_neg (by rw [hjoin]; exact hnz)]
  show Res.next (modGroup (advance (j.act s1 ji m') ji joined) i.b i.g fun r => r.mapLanes joined fun _ l =>
    { l with park := {}, lap := maxOf ((lanesOf joined).map fun L => (q.lane L).lap) }) = _
  rw [hs1, hji, hjoin]
  rfl

/-- What cross-lane words that have joined leave, once they have written their destinations. -/
theorem joinOn_completes {op : Nat} {w : Insn} {s t : State} {i : Iss} (h : Issues op w noBump s i) {ds : List (Ty × Opd)} (hp : Puts s t i ds) (lap stall : Nat) (y : Bool) :
    let u := conclude s i op stall y (.next (joinOn t i lap))
    Quiet s i ds u ∧ FallsThrough s i u ∧ RegsAlike (t.group i.b i.g) (u.group i.b i.g) := by
  intro u
  have hsh : Shifted (s.group i.b i.g) ((joinOn t i lap).group i.b i.g) := by
    refine (hp.wrote.un.shifted.trans (shifted_advance t i i.iss)).trans ?_
    unfold joinOn
    rw [group_modGroup_self]
    exact shifted_mapLanes _ _ _ fun _ _ => rfl
  have hk : RegsKept (t.group i.b i.g) ((joinOn t i lap).group i.b i.g) := by
    refine (regsKept_advance t i i.iss).trans ?_
    unfold joinOn
    rw [group_modGroup_self]
    exact ⟨rfl, rfl, rfl, rfl, rfl⟩
  have r : Rested (joinOn t i lap) u i.b i.g := rested_conclude (h.waits.congr hsh.sameMode) ..
  have hu : Upd s (joinOn t i lap) i.b i.g := (hp.upd.trans (upd_advance ..)).trans (upd_modGroup ..)
  refine ⟨r.quiet hu hsh (hp.wrote.regs.alike hk.alike), r.standAt fun L hL hm => ?_, hk.alike.trans r.alike⟩
  have e : laneAt (joinOn t i lap) i L = { laneAt (advance t i i.iss) i L with park := {}, lap := lap } := by
    unfold joinOn laneAt
    rw [group_modGroup_self, lane_mapLanes, if_pos ⟨hL, hm⟩]
  rw [e, laneAt_advance, if_pos ⟨hL, hm⟩, hp.upd.landing]
  exact ⟨rfl, Lane.still_of_ready rfl⟩

/-- A cross-lane word that writes one destination. -/
theorem cross_computes {op : Nat} {w : Insn} {s : State} {i : Iss} (h : Issues op w noBump s i) {mask : Opd} (ha : AllHere mask s i) (hA : usesA op w = true)
    (hB : usesB op w = true) (hb : spanB op w = 1) (h91 : op ≠ 0x91) {j : Joined} (he : j.esc s i (joinMask mask s i) = 0) {t : Ty} {d : Opd} {f val : Nat → Nat}
    {gb b : Nat → Bool} (hj : j.act s i (joinMask mask s i) = crossPut s i t d f gb)
    (hf : ∀ L, L < 32 → inMask i.ex L = true → f L = val L ∧ (inMask i.gg L || gb L) = b L) : Computes s i t d val b (crossWord op w s mask j) := by
  rw [crossWord_here h ha hA hB hb h91 j he, hj]
  have hp : Puts s (crossPut s i t d f gb) i [(t, d)] := puts_putD ..
  obtain ⟨⟨ho, ht, hr⟩, hn, hk⟩ := joinOn_completes h hp (joinLap s i) w.stall.toNat (w.y == 1)
  refine ⟨fun L hL hx => ?_, hn, hr, ht, ho⟩
  obtain ⟨e1, e2⟩ := hf L hL hx
  rw [← e1, ← e2]
  exact (gets_putD s i 6 t d f (fun L => inMask i.gg L || gb L) hL hx fun hg => by rw [hg]; rfl).alike hk

/-! ## SHFL -/

/-- The member mask that a SHFL names. -/
def shflMask (w : Insn) : Opd := if w.form = .c then opC w else .imm (-1)

/-- Lane L's source is a live member of its mask. -/
def shflOk (w : Insn) (s : State) (i : Iss) (m : Nat → Mask) (L : Nat) : Bool :=
  decide (0 ≤ shflSrc w.sub.toNat L (val32 s i (opB w) L)) && decide (shflSrc w.sub.toNat L (val32 s i (opB w) L) ≤ 31) &&
    inMask (m L &&& liveOf s i) (shflSrc w.sub.toNat L (val32 s i (opB w) L)).toNat

/-- The lane that a SHFL reads. -/
def shflFrom (w : Insn) (s : State) (i : Iss) (m : Nat → Mask) (L : Nat) : Nat :=
  if shflOk w s i m L then (shflSrc w.sub.toNat L (val32 s i (opB w) L)).toNat else L

/-- D of a SHFL. -/
def shflPut (w : Insn) (s : State) (i : Iss) (m : Nat → Mask) : State :=
  crossPut s i (tyD 0xC0 w) (opD w) (fun L => srcA (tyD 0xC0 w) w s i (shflFrom w s i m L))
    fun L => guessOf s i (opA w) (spanA 0xC0 w) (shflFrom w s i m L) || guessOf s i (opB w) 1 L

/-- What a SHFL does once its lanes have joined. -/
def shflJoined (w : Insn) : Joined where
  esc := fun _ _ _ => 0
  act := fun s i m => if w.form = .c ∧ bit (xmod w) 4 = true then
      crossPut (shflPut w s i m) i .b32 (.p (xmod w % 16)) (fun L => b2n (shflOk w s i m L)) fun L => guessOf s i (opB w) 1 L
    else shflPut w s i m

theorem execShfl_eq (w : Insn) (s : State) : exec (.shfl w) s = .next (crossWord 0xC0 w s (shflMask w) (shflJoined w)) := rfl

theorem shflOk_congr (w : Insn) (s : State) (i : Iss) {m n : Nat → Mask} {L : Nat} (h : m L = n L) : shflOk w s i m L = shflOk w s i n L := by
  unfold shflOk
  rw [h]

theorem shflFrom_congr (w : Insn) (s : State) (i : Iss) {m n : Nat → Mask} {L : Nat} (h : m L = n L) : shflFrom w s i m L = shflFrom w s i n L := by
  unfold shflFrom
  rw [shflOk_congr w s i h]

/-- The mask that each lane names. -/
def namedMask (mask : Opd) (s : State) (i : Iss) (L : Nat) : Mask := w32 (val32 s i mask L)

section shfl
variable {w : Insn} {s : State} {i : Iss} (h : Issues 0xC0 w noBump s i) (ha : AllHere (shflMask w) s i)
include h ha

theorem shfl_computes (hn : ¬(w.form = .c ∧ bit (xmod w) 4 = true)) : Computes s i (tyD 0xC0 w) (opD w)
    (fun L => srcA (tyD 0xC0 w) w s i (shflFrom w s i (namedMask (shflMask w) s i) L))
    (fun L => inMask i.gg L || (guessOf s i (opA w) (spanA 0xC0 w) (shflFrom w s i (namedMask (shflMask w) s i) L) || guessOf s i (opB w) 1 L))
    (crossWord 0xC0 w s (shflMask w) (shflJoined w)) := by
  refine cross_computes h ha rfl rfl rfl (by decide) rfl (if_neg hn) fun L hL hx => ?_
  rw [shflFrom_congr w s i (n := namedMask (shflMask w) s i) (joinMask_eq h ha.1 _ (ex_of_withGuard h hx))]
  exact ⟨rfl, rfl⟩

omit ha in
theorem isV_shfl : isV (opD w) = true := by
  obtain ⟨hl, -, -⟩ := h.legal
  cases ht : tyOf 0xC0 w with
  | none => exact absurd (hl (.type, false) (by simp [fieldChecks, classC, typed, ht])) (by simp)
  | some t =>
    have := hl (.dest, vOk (wide t) (opD w)) (by simp [fieldChecks, classC, typed, ht])
    cases hd : opD w <;> simp [hd, vOk, isV] at this ⊢

theorem shfl_two (hn : w.form = .c ∧ bit (xmod w) 4 = true) :
    let u := crossWord 0xC0 w s (shflMask w) (shflJoined w)
    FallsThrough s i u ∧ SameElse s u i.b i.g ∧ SameRegs (s.group i.b i.g) (u.group i.b i.g) [(tyD 0xC0 w, opD w), (.b32, .p (xmod w % 16))] i.ex i.gg ∧
      ∀ L, L < 32 → inMask i.ex L = true →
        Gets (u.group i.b i.g) i.ex (tyD 0xC0 w) (opD w) L (srcA (tyD 0xC0 w) w s i (shflFrom w s i (namedMask (shflMask w) s i) L))
          (inMask i.gg L || (guessOf s i (opA w) (spanA 0xC0 w) (shflFrom w s i (namedMask (shflMask w) s i) L) || guessOf s i (opB w) 1 L)) ∧
        Gets (u.group i.b i.g) i.ex .b32 (.p (xmod w % 16)) L (b2n (shflOk w s i (namedMask (shflMask w) s i) L)) (inMask i.gg L || guessOf s i (opB w) 1 L) := by
  intro u
  have hu : u = _ := crossWord_here h ha rfl rfl rfl (by decide) (shflJoined w) rfl
  rw [show (shflJoined w).act s i (joinMask (shflMask w) s i) = crossPut (shflPut w s i (joinMask (shflMask w) s i)) i .b32 (.p (xmod w % 16))
    (fun L => b2n (shflOk w s i (joinMask (shflMask w) s i) L)) fun L => guessOf s i (opB w) 1 L from if_pos hn] at hu
  set m := joinMask (shflMask w) s i with hm
  have p1 : Puts s (shflPut w s i m) i [(tyD 0xC0 w, opD w)] := puts_putD ..
  have p2 : Puts (shflPut w s i m) (crossPut (shflPut w s i m) i .b32 (.p (xmod w % 16)) (fun L => b2n (shflOk w s i m L)) fun L => guessOf s i (opB w) 1 L) i
      [(.b32, .p (xmod w % 16))] := puts_putD ..
  obtain ⟨⟨ho, -, hr⟩, hf, hk⟩ := joinOn_completes h (p1.trans p2) (joinLap s i) w.stall.toNat (w.y == 1)
  rw [← hu] at ho hr hf hk
  refine ⟨hf, ho, hr, fun L hL hx => ?_⟩
  have hmL : m L = namedMask (shflMask w) s i L := joinMask_eq h ha.1 _ (ex_of_withGuard h hx)
  rw [← shflFrom_congr w s i hmL, ← shflOk_congr w s i hmL]
  constructor
  · have g1 := gets_putD s i 6 (tyD 0xC0 w) (opD w) (fun L => srcA (tyD 0xC0 w) w s i (shflFrom w s i m L))
      (fun L => inMask i.gg L || (guessOf s i (opA w) (spanA 0xC0 w) (shflFrom w s i m L) || guessOf s i (opB w) 1 L)) hL hx fun hg => by rw [hg]; rfl
    refine (g1.kept hL p2.wrote.regs ⟨fun n _ => by simp [covers], fun e he => .inl (isV_shfl h)⟩).alike hk
  · exact (gets_putD (shflPut w s i m) i 6 .b32 (.p (xmod w % 16)) (fun L => b2n (shflOk w s i m L)) (fun L => inMask i.gg L || guessOf s i (opB w) 1 L) hL hx
      fun hg => by rw [hg]; rfl).alike hk

end shfl

/-- Two descriptions of the values that a word computes. -/
theorem Computes.congr {s u : State} {i : Iss} {t : Ty} {d : Opd} {f g : Nat → Nat} {a b : Nat → Bool} (h : Computes s i t d f a u) (hf : ∀ L, f L = g L)
    (ha : ∀ L, a L = b L) : Computes s i t d g b u := by
  obtain rfl : f = g := funext hf
  obtain rfl : a = b := funext ha
  exact h

/-- The same test, over the live members of the lane's mask. -/
def shflHit (w : Insn) (s : State) (i : Iss) (L : Nat) : Bool :=
  decide (0 ≤ shflSrc w.sub.toNat L (srcB .b32 w s i L)) && decide (shflSrc w.sub.toNat L (srcB .b32 w s i L) < 32) &&
    inMask (membersOf (shflMask w) s i L) (shflSrc w.sub.toNat L (srcB .b32 w s i L)).toNat

theorem shflOk_named (w : Insn) (s : State) (i : Iss) (L : Nat) : shflOk w s i (namedMask (shflMask w) s i) L = shflHit w s i L := by
  unfold shflOk shflHit
  refine congrArg₂ (· && ·) (congrArg₂ (· && ·) rfl (decide_eq_decide.2 ?_)) rfl
  show shflSrc w.sub.toNat L (val32 s i (opB w) L) ≤ 31 ↔ shflSrc w.sub.toNat L (val32 s i (opB w) L) < 32
  omega

theorem shflFrom_named (w : Insn) (s : State) (i : Iss) (L : Nat) : shflFrom w s i (namedMask (shflMask w) s i) L =
    if shflHit w s i L then (shflSrc w.sub.toNat L (srcB .b32 w s i L)).toNat else L := by
  unfold shflFrom
  rw [shflOk_named]
  rfl

/-! ## Quads -/

theorem quad_computes {op : Nat} {w : Insn} {s : State} {i : Iss} (h : Issues op w noBump s i) {src : State → Iss → Nat → Nat} {gB : State → Iss → Nat → Bool}
    {src' : Nat → Nat} (hs : ∀ L, src s i L = src' L)
    (hp : pendingAny (s.group i.b i.g) ((lanesOf i.ex).flatMap fun L => opKeys (opA w) (spanA op w) (src' L)) = false)
    (hr : shortRead s i ((lanesOf i.ex).flatMap fun L => opKeys (opA w) (spanA op w) (src' L)) = false) :
    Computes s i (tyD op w) (opD w) (fun L => srcA (tyD op w) w s i (src' L)) (fun L => inMask i.gg L || (guessOf s i (opA w) (spanA op w) (src' L) || gB s i L))
      (quadWord op w s src gB) := by
  obtain rfl : src s i = src' := funext hs
  unfold quadWord
  dsimp only
  refine computes_of h _ 6 (tyD op w) (opD w) (fun L => srcA (tyD op w) w s i (src s i L))
    (fun L => inMask i.gg L || (guessOf s i (opA w) (spanA op w) (src s i L) || gB s i L)) ?_ fun L hL => (by rw [hL]; rfl)
  rw [if_neg (by rw [hp]; simp), if_neg (by rw [hr]; simp)]
  rfl

/-! ## The wait -/

/-- The lanes of a set park at a cross-lane word, each with its mask. -/
def crossParks (w : Insn) (i : Iss) (m : Nat → Mask) (ls : List Nat) (s : State) : State :=
  ls.foldl (fun t L => parkLane t i L { cause := pkCross, x := (m L).setWidth 64, insn := some w }) s

theorem crossParks_done (w : Insn) (i : Iss) (m : Nat → Mask) (x : Mask) (s : State) :
    SameCode s (crossParks w i m (lanesOf x) s) ∧ LanesOnly (s.group i.b i.g) ((crossParks w i m (lanesOf x) s).group i.b i.g) ∧
      ∀ L, L < 32 → inMask x L = true → (laneAt (crossParks w i m (lanesOf x) s) i L).lpc = (laneAt s i L).lpc ∧
        ∃ now mk, (laneAt (crossParks w i m (lanesOf x) s) i L).park = { cause := pkCross, x := (m L).setWidth 64, insn := some w, since := now, marks := mk } := by
  obtain ⟨h1, h2, -, h3⟩ := foldl_invariant (xs := lanesOf x) (s := s) (f := fun t L => parkLane t i L { cause := pkCross, x := (m L).setWidth 64, insn := some w })
    (fun done v => SameCode s v ∧ LanesOnly (s.group i.b i.g) (v.group i.b i.g) ∧ (∀ L, L ∉ done → laneAt v i L = laneAt s i L) ∧
      ∀ L ∈ done, (laneAt v i L).lpc = (laneAt s i L).lpc ∧
        ∃ now mk, (laneAt v i L).park = { cause := pkCross, x := (m L).setWidth 64, insn := some w, since := now, marks := mk })
    (fun done L rest v he ⟨hc, ho, hr, hd⟩ => by
      have d := laneDone_parkLane v i L { cause := pkCross, x := (m L).setWidth 64, insn := some w }
      obtain ⟨hn, -, -, -⟩ := fresh_of_split he
      refine ⟨hc.trans d.code, ho.trans (lanesOnly_parkLane ..), fun k hk => ?_, fun k hk => ?_⟩
      · rw [List.mem_append, List.mem_singleton, not_or] at hk
        rw [d.rest k hk.2, hr k hk.1]
      · rw [List.mem_append, List.mem_singleton] at hk
        by_cases e : k = L
        · subst e
          rw [laneAt_parkLane, if_pos rfl, hr k hn]
          exact ⟨rfl, _, _, rfl⟩
        · rw [d.rest k e]
          exact hd k (hk.resolve_right e))
    ⟨.refl s, .refl _, fun _ _ => rfl, fun _ h => by cases h⟩
  exact ⟨h1, h2, fun L hL hx => h3 L ((mem_lanesOf ..).2 ⟨hL, hx⟩)⟩

/-- Every lane parked at a cross-lane word stays so; it may have been released (R399). -/
def KeepsCross (q r : Group) : Prop :=
  ∀ L, (q.lane L).park.cause = 9 → (r.lane L).lpc = (q.lane L).lpc ∧ ∃ rel, (r.lane L).park = { (q.lane L).park with released := rel }

theorem KeepsCross.refl (q : Group) : KeepsCross q q := fun _ _ => ⟨rfl, _, rfl⟩

theorem KeepsCross.trans {q r u : Group} (h : KeepsCross q r) (k : KeepsCross r u) : KeepsCross q u := fun L hL => by
  obtain ⟨h1, x, h2⟩ := h L hL
  obtain ⟨k1, y, k2⟩ := k L (by rw [h2]; exact hL)
  exact ⟨k1.trans h1, y, by rw [k2, h2]⟩

theorem KeepsCross.foldl {b g : Nat} {α : Type} (f : State → α → State) (hf : ∀ s x, KeepsCross (s.group b g) ((f s x).group b g)) (xs : List α) (s : State) :
    KeepsCross (s.group b g) ((xs.foldl f s).group b g) := by
  induction xs generalizing s with
  | nil => exact .refl _
  | cons x xs ih => exact (hf s x).trans (ih _)

theorem keepsCross_mapLanes (q : Group) (m : Mask) (f : Nat → Lane → Lane)
    (h : ∀ L l, inMask m L = true → l = q.lane L → l.park.cause = 9 → (f L l).lpc = l.lpc ∧ ∃ rel, (f L l).park = { l.park with released := rel }) :
    KeepsCross q (q.mapLanes m f) := fun L hL => by
  rw [lane_mapLanes]
  split_ifs with c
  · exact h L _ c.2 rfl hL
  · exact ⟨rfl, _, rfl⟩

theorem keepsCross_rejoinRelease (s : State) (b g : Nat) : KeepsCross (s.group b g) ((rejoinRelease s b g).group b g) := by
  unfold rejoinRelease
  refine KeepsCross.foldl _ (fun s pc => ?_) _ _
  dsimp only
  split_ifs
  · exact .refl _
  · rw [group_modGroup_self]
    refine keepsCross_mapLanes _ _ _ fun L l hL hl h9 => ?_
    simp only [inMask_maskOf, Bool.and_eq_true] at hL
    have : ((s.group b g).lane L).park.cause = 5 := parked_parkedAt _ _ _ L hL.2.1
    rw [hl, this] at h9
    cases h9

theorem keepsCross_crossRelease (s : State) (b g : Nat) : KeepsCross (s.group b g) ((crossRelease s b g).group b g) := by
  unfold crossRelease
  refine KeepsCross.foldl _ (fun s pc => ?_) _ _
  dsimp only
  split_ifs
  · exact .refl _
  · rw [group_modGroup_self]
    exact keepsCross_mapLanes _ _ _ fun L l _ _ _ => ⟨rfl, _, rfl⟩

theorem keepsCross_releaseLanes (s : State) (b g : Nat) : KeepsCross (s.group b g) ((releaseLanes s b g).group b g) :=
  (keepsCross_rejoinRelease s b g).trans (keepsCross_crossRelease _ b g)

/-- The tests that follow an issue keep every lane parked at a cross-lane word there. -/
theorem keepsCross_conclude {s t : State} {i : Iss} (h : rteWaits (t.group i.b i.g)) (op stall : Nat) (y : Bool) :
    KeepsCross (t.group i.b i.g) ((conclude s i op stall y (.next t)).group i.b i.g) := by
  have f := follows_noteIssue t i op stall y
  have hn : KeepsCross (t.group i.b i.g) ((noteIssue t i op stall y).group i.b i.g) := by
    unfold noteIssue
    dsimp only
    rw [group_modGroup_self, group_modCore]
    exact fun _ _ => ⟨rfl, _, rfl⟩
  refine hn.trans ?_
  show KeepsCross _ ((afterIssue (noteIssue t i op stall y) i.b i.g).group i.b i.g)
  unfold afterIssue
  dsimp only
  rw [finishRte_waits _ _ _ ((follows_releaseLanes _ i.b i.g).2.rteWaits (f.2.rteWaits h))]
  have k1 := KeepsCross.trans (keepsCross_releaseLanes (noteIssue t i op stall y) i.b i.g) (keepsCross_releaseLanes _ i.b i.g)
  generalize releaseLanes (releaseLanes (noteIssue t i op stall y) i.b i.g) i.b i.g = v at k1
  have k2 : KeepsCross (v.group i.b i.g) ((modGroup v i.b i.g Group.sweepSlots).group i.b i.g) := by
    rw [group_modGroup_self]
    exact fun _ _ => ⟨rfl, _, rfl⟩
  generalize modGroup v i.b i.g Group.sweepSlots = z at k2
  refine (KeepsCross.trans k1 k2).trans fun L _ => ?_
  rw [lane_renormalise]
  exact ⟨rfl, _, rfl⟩

/-- A mask operand has 32 bits. -/
theorem val32_lt (s : State) (i : Iss) {o : Opd} (h : sImm9 o = true) (L : Nat) : val32 s i o L < 2 ^ 32 := by
  cases o with
  | s n => exact Nat.mod_lt _ (by decide)
  | imm x =>
    show wrap 32 x < 2 ^ 32
    unfold wrap
    have h1 := Int.emod_lt_of_pos x (by decide : (0 : Int) < 2 ^ 32)
    have h2 := Int.emod_nonneg x (by decide : (2 ^ 32 : Int) ≠ 0)
    omega
  | _ => cases h

/-- Where each lane of a cross-lane word misses another, they all park. -/
theorem crossWord_waits {op : Nat} {w : Insn} {s : State} {i : Iss} (h : Issues op w noBump s i) {mask : Opd} (hs : sImm9 mask = true) {j : Joined}
    (he : ∀ k m, k.ex = 0 → j.esc s k m = 0) (hp : parkedAt (s.group i.b i.g) 9 (w64 i.pc) = 0)
    (hm : ∀ L, L < 32 → inMask i.iss L = true →
      ∃ k, k < 32 ∧ k ≠ L ∧ bit (val32 s i mask L) k = true ∧ inMask (s.group i.b i.g).live k = true ∧ inMask i.iss k = false) :
    ∀ L, L < 32 → inMask i.iss L = true → ParkedAs s (crossWord op w s mask j) i L 9 0 (w64 (val32 s i mask L)) := by
  have hmL : ∀ L, inMask i.iss L = true → joinMask mask s i L = w32 (val32 s i mask L) := fun L hL => joinMask_eq h hp mask hL
  have hj : (maskOf fun L => inMask i.iss L && ((inMask i.iss L && (((s.group i.b i.g).lane L).park.cause == pkCross)) ||
      (joinMask mask s i L &&& (s.group i.b i.g).live &&& ~~~oneLane L &&& ~~~i.iss) == 0)) = 0 := by
    refine maskOf_eq_zero fun L hL => ?_
    cases hi : inMask i.iss L
    · rfl
    · obtain ⟨k, hk, hkL, hb, hl, hni⟩ := hm L hL hi
      have hc : (((s.group i.b i.g).lane L).park.cause == pkCross) = false := beq_eq_false_iff_ne.2 (h.notCross hp hi)
      have hx : inMask (joinMask mask s i L &&& (s.group i.b i.g).live &&& ~~~oneLane L &&& ~~~i.iss) k = true := by
        simp only [inMask_and, inMask_not _ hk, hl, hni, hmL L hi, inMask_oneLane]
        rw [show inMask (w32 (val32 s i mask L)) k = true from by rw [inMask, w32, BitVec.getLsbD_ofNat, Bool.and_eq_true]; exact ⟨by simpa using hk, hb⟩]
        simp [hkL]
      rw [hc]
      simp only [Bool.and_false, Bool.false_or, Bool.true_and, beq_eq_false_iff_ne]
      intro c
      rw [c] at hx
      simp [inMask] at hx
  have hu : crossWord op w s mask j = conclude s i op w.stall.toNat (w.y == 1) (.next (crossParks w i (joinMask mask s i) (lanesOf i.iss) s)) := by
    unfold crossWord
    rw [runWord_issues h]
    refine congrArg _ ?_
    extract_lets q parked here kept m' joined ji reads esc late s1
    have hpk : parked = 0 := hp
    have hhere : here = i.iss := by show i.iss ||| parked = _; rw [hpk]; simp
    have hjoin : joined = 0 := by
      show (maskOf fun L => inMask here L && ((inMask i.iss L && kept L) || (m' L &&& q.live &&& ~~~oneLane L &&& ~~~here) == 0)) = _
      rw [hhere]
      exact hj
    have hread : reads = 0 := by
      show (lanesOf joined).foldl _ joined = 0
      rw [hjoin, show lanesOf 0 = [] from by decide]
      rfl
    have hex : ji.ex = 0 := by
      show (withGuard s { i with iss := joined } w.g).ex = 0
      rw [hjoin]
      exact maskOf_eq_zero fun L _ => by simp [inMask]
    have hlate : late = i.iss := by show i.iss &&& ~~~joined = i.iss; rw [hjoin, show ~~~(0 : Mask) = BitVec.allOnes 32 from by decide, BitVec.and_allOnes]
    rw [hread, show lanesOf 0 = [] from by decide, if_neg (by simp [pendingAny]), if_neg (not_not.2 (he ji m' hex)), if_pos hjoin]
    show Res.next ((lanesOf late).foldl _ s) = _
    rw [hlate]
    rfl
  obtain ⟨-, ho, hl⟩ := crossParks_done w i (joinMask mask s i) i.iss s
  set t := crossParks w i (joinMask mask s i) (lanesOf i.iss) s with ht
  have hk : KeepsCross (t.group i.b i.g) _ := keepsCross_conclude (s := s) (t := t) (i := i) (h.waits.congr (by unfold LanesOnly at ho; rw [ho]; exact ⟨rfl, rfl, rfl, rfl⟩)) op w.stall.toNat (w.y == 1)
  rw [hu]
  intro L hL hi
  obtain ⟨l1, now, mk, l2⟩ := hl L hL hi
  obtain ⟨k1, rel, k2⟩ := hk L (by rw [show ((t.group i.b i.g).lane L).park = _ from l2]; rfl)
  rw [show ((t.group i.b i.g).lane L).park = _ from l2] at k2
  refine ⟨k1.trans l1, (congrArg Park.cause k2).trans rfl, (congrArg Park.detail k2).trans rfl, (congrArg Park.x k2).trans ?_⟩
  show (joinMask mask s i L).setWidth 64 = _
  rw [hmL L hi]
  have := val32_lt s i hs L
  refine BitVec.eq_of_toNat_eq ?_
  simp only [w32, w64, BitVec.toNat_setWidth, BitVec.toNat_ofNat]
  omega

/-- The mask of VOTE, MATCH, SCAN and ELECT is an S register or an immediate. -/
theorem sImm9_cross {op : Nat} (hop : op ∈ [0xC1, 0xC2, 0xC4, 0xC5]) {w : Insn} {s : State} {i : Iss} {bump : State → Iss → Mask} (h : Issues op w bump s i) :
    sImm9 (opB w) = true := by
  refine (h.legal).1 (.srcB, sImm9 (opB w)) ?_
  simp only [List.mem_cons, List.not_mem_nil, or_false] at hop
  rcases hop with rfl | rfl | rfl | rfl <;> simp [fieldChecks, classC]

/-- Where no lane executes, no guess escapes from a vote. -/
theorem vote_esc (w : Insn) (s : State) (k : Iss) (m : Nat → Mask) (hk : k.ex = 0) :
    (if scalarForm w then scalarEscape s k (opA w) 1 (scalarMask k m &&& liveOf s k) else 0) = 0 := by
  unfold scalarEscape
  dsimp only
  rw [if_pos hk, ite_self]

/-- Settles O25: a cross-lane word whose lanes are all here executes them together, each with its own mask; one whose lanes all miss another parks them. -/
theorem laneExchange : Obligations.LaneExchange := by
  refine ⟨fun w => ⟨fun hn s i h ha => ⟨_, execShfl_eq w s, (shfl_computes h ha hn).congr (fun L => ?_) fun L => ?_⟩, fun hn s i h ha => ⟨_, execShfl_eq w s, ?_⟩⟩, fun w => ⟨fun s i h hc => ⟨_, rfl, ?_⟩, fun s i h hc => ⟨_, rfl, ?_⟩,
    fun s i h hc => ⟨_, rfl, ?_⟩, fun s i h hc => ⟨_, rfl, ?_⟩, fun s i h hc => ⟨_, rfl, ?_⟩, fun s i h hc => ⟨_, rfl, ?_⟩⟩⟩
  · rw [shflFrom_named]; rfl
  · rw [shflFrom_named]; rfl
  · obtain ⟨hf, ho, hr, hg⟩ := shfl_two h ha hn
    refine ⟨hf, ho, hr, fun L hL hx => ?_⟩
    have := hg L hL hx
    rw [shflFrom_named, shflOk_named] at this
    exact this
  · exact quad_computes h (src := fun _ _ L => L ^^^ (w.sub.toNat + 1)) (gB := fun _ _ _ => false) (src' := fun L => L ^^^ (w.sub.toNat + 1)) (fun _ => rfl) hc.1 hc.2
  · exact quad_computes h (gB := fun s i L => guessOf s i (opB w) 1 L) (src := fun s i L => 4 * (L / 4) + val32 s i (opB w) L % 4) (src' := fun L => L - L % 4 + srcB .b32 w s i L % 4)
      (fun L => by show 4 * (L / 4) + srcB .b32 w s i L % 4 = L - L % 4 + srcB .b32 w s i L % 4; omega) hc.1 hc.2
  · exact crossWord_waits h (sImm9_cross (by simp) h) (fun k m hk => vote_esc w s k m hk) hc.1 hc.2
  · exact crossWord_waits h (sImm9_cross (by simp) h) (fun k m hk => rfl) hc.1 hc.2
  · exact crossWord_waits h (sImm9_cross (by simp) h) (fun k m hk => rfl) hc.1 hc.2
  · exact crossWord_waits h (sImm9_cross (by simp) h) (fun k m hk => rfl) hc.1 hc.2

end Sys2Proof.Machine
end

section
/-! PROOF. HRESOLVE in a group of which another lane works under a resolving node (R131, R217, R411). -/

set_option Elab.async false

namespace Sys2Proof.Machine

/-! ## A lane that holds a word it does not execute

A word of class 0xD is held while some lane of the issue set, whatever its guard, works under a resolving node (R217). The statement asks this
of HRESOLVE's one executing lane, which is at the root, and not of a lane whose guard is false. -/

/-- Lane 0 executes at the root; lane 1, whose guard is false, works under node 5. -/
def heldGroup : Group where
  exists_ := true
  live := 3
  preds := [(0, true)]
  lanes := [(0, { lpc := 0x8000 }), (1, { lpc := 0x8000, hyp := 5 })]

/-- One block on core 0 with that group; node 5 of its hypothesis context is resolving. -/
def resolvingNode : State := tinyMemory [] { State.reset with
    blocks := [(0, { resident := true, groups := [(0, heldGroup)] })]
    ctxs := [(0, { live := true, hctx := some 0, record := { regs := 512, scalars := 128, scratch := 4096, limit := 1024, lease := 1024, ngrp := 1, nblk := 1 } })]
    hctxs := [(0, { ctx := some 0, nodes := [(5, { state := 2, depth := 1 })] })]
    parts := [(0, { set := true, coreMask := 1, granN := 1, root := 0x1000 })] }

/-- HRESOLVE.confirm P1, V0 under the guard P0. -/
def resolveUnderP0 : Insn := { g := 0, dk := 2, d := 33 }

def heldIss : Iss := withGuard resolvingNode { pc := 0x8000, iss := 3, len := 8 } resolveUnderP0.g

theorem resolvingNode_issues : Issues 0xD3 resolveUnderP0 noBump resolvingNode heldIss :=
  ⟨{ pc := 0x8000, iss := 3, len := 8 }, by decide +kernel, by decide +kernel, by decide +kernel, by decide +kernel, by decide +kernel, by decide +kernel, rfl,
    by decide +kernel⟩

theorem resolvingNode_holds : placeAfter (exec (.hresolveConfirm resolveUnderP0) resolvingNode) = some 0x8000 := by decide +kernel

/-- Refutes O27: HRESOLVE of one lane at the root, about an id that names no live node, is held by a lane that does not execute it. -/
theorem not_hypotheses : ¬Obligations.Hypotheses := by
  intro h
  obtain ⟨-, h2⟩ := h
  obtain ⟨-, -, hpasses, -⟩ := h2 resolveUnderP0 0 0
  obtain ⟨u, hu, hf, -⟩ := hpasses resolvingNode heldIss resolvingNode_issues
    ⟨⟨by decide +kernel, by decide +kernel, (by decide +kernel : escapes resolvingNode heldIss true [(opA resolveUnderP0, 1)] = 0), by decide +kernel, by decide +kernel⟩,
      .inl (by decide +kernel)⟩
  have hs := resolvingNode_holds
  have hn : ((u.group 0 0).lane 0).lpc = w64 (landing resolvingNode 0 0x8008) := hf 0 (by decide) (by decide +kernel)
  rw [hu, placeAfter, hn] at hs
  exact absurd hs (by decide +kernel)

end Sys2Proof.Machine
end

section
/-! PROOF. Tile tokens and the issue of an MMA (R243–R246, R249, R250, R392, R415–R417). -/

set_option Elab.async false

namespace Sys2Proof.Machine

/-! ## Stops of stages 2 and 3 -/

/-- A word that stops with executing lanes takes its trap. -/
theorem stop23_traps {op : Nat} {w : Insn} {bump : State → Iss → Mask} {s : State} {i : Iss} (h : Issues op w bump s i) {body : State → Iss → Res} {cause detail : Nat}
    {cm : Mask} (hb : body s i = stop23 i cause detail cm) (hx : i.ex ≠ 0) (hd : detail < 256) :
    Trapped s (runWord op w s bump body) i cause detail i.ex cm := by
  rw [runWord_issues h, hb]
  have f := follows_noteIssue s i op w.stall.toNat (w.y == 1)
  show Trapped s (if i.ex = 0 then _ else takeTrap (noteIssue s i op w.stall.toNat (w.y == 1)) i.b i.g i.pc { cause := cause, detail := detail, fm := i.ex, cm := cm }) i
    cause detail i.ex cm
  rw [if_neg hx]
  obtain ⟨rec, hmem, hhost⟩ := takeTrap_record (noteIssue s i op w.stall.toNat (w.y == 1)) i.b i.g i.pc { cause := cause, detail := detail, fm := i.ex, cm := cm }
  obtain ⟨e1, e2⟩ := tableRead_memories f.1 (by rw [f.2.rest]) cause
  exact ⟨rec.cause_eq rfl hd, rec.pc, ⟨rec.fm, rec.cm⟩, f.2.regsKept.trans rec.regs, hmem.trans e1, hhost.trans e2⟩

/-! ## Tiles -/

section tiles
variable {s t : State} {b g : Nat} (h : Upd s t b g)
include h

theorem Upd.tiles (c : Nat) : (t.core c).tiles = (s.core c).tiles := by simpa using congrArg Core.tiles (h.core c)
theorem Upd.mmaQ (c : Nat) : (t.core c).mmaQ = (s.core c).mmaQ := by simpa using congrArg Core.mmaQ (h.core c)
theorem Upd.mmaWait (c : Nat) : (t.core c).mmaWait = (s.core c).mmaWait := by simpa using congrArg Core.mmaWait (h.core c)
theorem Upd.nextCmd (c : Nat) : (t.core c).nextCmd = (s.core c).nextCmd := by simpa using congrArg Core.nextCmd (h.core c)
theorem Upd.objOf (k o : Nat) : t.obj k o = s.obj k o := by
  have : (t.block k).objs = (s.block k).objs := (congrArg Block.objs (h.block k) : _)
  simp only [State.obj, this]
theorem Upd.blockEnded (k : Nat) : (t.block k).ended = (s.block k).ended := (congrArg Block.ended (h.block k) : _)
theorem Upd.scratch (k : Nat) : (t.block k).scratch = (s.block k).scratch := (congrArg Block.scratch (h.block k) : _)

end tiles

/-- A tile of a core. -/
def tileAt (s : State) (c k : Nat) : Tile := tget {} (s.core c).tiles k

theorem Upd.tileAt {s t : State} {b g : Nat} (h : Upd s t b g) (c k : Nat) : Machine.tileAt t c k = Machine.tileAt s c k := by
  unfold Machine.tileAt
  rw [h.tiles]

theorem tileAt_modTile (s : State) (core k : Nat) (f : Tile → Tile) (c j : Nat) :
    tileAt (modTile s core k f) c j = if c = core ∧ j = k then f (tileAt s core k) else tileAt s c j := by
  unfold tileAt modTile
  rw [core_modCore]
  by_cases hc : c = core
  · subst hc
    simp only [if_true, true_and]
    exact tget_tmod ({} : Tile) _ _ _ _
  · simp [hc]

theorem sameCode_modTile (s : State) (core k : Nat) (f : Tile → Tile) : SameCode s (modTile s core k f) := sameCode_modCore _ _ _ ⟨rfl, rfl⟩
theorem sameCode_tokenMoved (s : State) (b : Nat) : SameCode s (tokenMoved s b) := sameCode_modBlock _ _ _ ⟨rfl, rfl⟩
theorem group_modTile (s : State) (core k : Nat) (f : Tile → Tile) (b g : Nat) : (modTile s core k f).group b g = s.group b g := rfl
theorem group_tokenMoved (s : State) (b k j : Nat) : (tokenMoved s b).group k j = s.group k j := by
  unfold tokenMoved
  rw [group_modBlock]
  split_ifs with h
  · rw [h]; rfl
  · rfl

theorem tileAt_tokenMoved (s : State) (b c k : Nat) : tileAt (tokenMoved s b) c k = tileAt s c k := rfl

/-- A token moves. -/
def moved (s : State) (i : Iss) (k : Nat) (f : Tile → Tile) : State := tokenMoved (modTile s i.core k f) i.b

theorem tileAt_moved (s : State) (i : Iss) (k : Nat) (f : Tile → Tile) (c j : Nat) :
    tileAt (moved s i k f) c j = if c = i.core ∧ j = k then f (tileAt s i.core k) else tileAt s c j := by
  unfold moved
  rw [tileAt_tokenMoved, tileAt_modTile]

theorem sameCode_moved (s : State) (i : Iss) (k : Nat) (f : Tile → Tile) : SameCode s (moved s i k f) :=
  (sameCode_modTile s i.core k f).trans (sameCode_tokenMoved ..)

theorem group_moved (s : State) (i : Iss) (k : Nat) (f : Tile → Tile) (b g : Nat) : (moved s i k f).group b g = s.group b g := by
  unfold moved
  rw [group_tokenMoved, group_modTile]

/-! ## Words that change other parts of the machine -/

/-- A change of the machine that leaves the code and the group as they were. -/
theorem begun_same {s t : State} {i : Iss} (hc : SameCode s t) (hg : t.group i.b i.g = s.group i.b i.g) : Begun s t i [] :=
  ⟨hc, by rw [hg]; exact ⟨rfl, rfl, rfl, rfl⟩, by rw [hg]; exact sameRegs_refl .., fun _ => by rw [hg]; exact .refl _, fun L => by unfold laneAt; rw [hg]⟩

theorem Puts.begun {s t : State} {i : Iss} {ds : List (Ty × Opd)} (h : Puts s t i ds) (hd : ds ≠ []) : Begun s t i ds :=
  ⟨h.upd.sameCode, h.wrote.un.sameMode, h.wrote.regs, fun e => absurd e hd, fun L => by unfold laneAt; rw [h.wrote.un.lane]⟩

/-- What a word of tile k leaves: its lanes go on, and no other tile and no byte of memory differs. -/
structure TileWord (s : State) (i : Iss) (k : Nat) (u : State) : Prop where
  falls : FallsThrough s i u
  mem   : u.mem = s.mem
  rest  : ∀ c j, ¬(c = i.core ∧ j = k) → tileAt u c j = tileAt s c j

section token
variable {w : Insn} {k : Nat} {s : State} {i : Iss} (h : Issues 0xE1 w noBump s i) (hk : opA w = .t k) (hp : Plain [] s i) (hx : i.ex ≠ 0)
include h hk hp hx

theorem tokenWord_issues (dests : List (Opd × Nat)) (body : State → Iss → Tile → Res) :
    tokenWord w s dests body = conclude s i 0xE1 w.stall.toNat (w.y == 1) (body s i (tileAt s i.core k)) := by
  unfold tokenWord
  rw [runWord_issues h]
  dsimp only
  rw [if_neg hp.unguessed, if_neg hx]
  unfold tileOf
  rw [hk]
  rfl

/-- .mat and .free. -/
theorem moveToken_moves (dest : Nat → Token) (ht : (tileAt s i.core k).token = .vec i.b) (hb : tileBusy s i k = false) :
    let u := moveToken w s dest
    TileWord s i k u ∧ RegsKept (s.group i.b i.g) (u.group i.b i.g) ∧ tileAt u i.core k = { tileAt s i.core k with token := dest i.b } := by
  have hu : moveToken w s dest = conclude s i 0xE1 w.stall.toNat (w.y == 1) (.next (advance (moved s i k fun t => { t with token := dest i.b }) i i.iss)) := by
    unfold moveToken
    rw [tokenWord_issues h hk hp hx, if_neg (by rw [ht]; simp), tileOf, hk, if_neg (by rw [hb]; simp)]
    rfl
  intro u
  have hb' := begun_same (i := i) (sameCode_moved s i k fun t => { t with token := dest i.b }) (group_moved ..)
  have r := hb'.rested h w.stall.toNat (w.y == 1)
  obtain ⟨hf, hm, -, hr⟩ := hb'.falls h w.stall.toNat (w.y == 1)
  rw [← hu] at r hf hm hr
  have htl : ∀ c j, tileAt u c j = _ := fun c j => ((upd_advance _ i i.iss).trans r.upd).tileAt c j
  refine ⟨⟨hf, hm, fun c j hn => ?_⟩, hr rfl, ?_⟩
  · rw [htl, tileAt_moved, if_neg hn]
  · rw [htl, tileAt_moved, if_pos ⟨rfl, rfl⟩]

/-- .claim of a tile, free or not. -/
theorem claim_tells (b : Bool) (ht : ((tileAt s i.core k).token == .free) = b) : ∃ u, exec (.tkpassClaim w) s = .next u ∧ TileWord s i k u ∧
    SameRegs (s.group i.b i.g) (u.group i.b i.g) [(.b32, opD w)] i.ex i.gg ∧
    (∀ L, L < 32 → inMask i.ex L = true → Gets (u.group i.b i.g) i.ex .b32 (opD w) L (b2n b) (inMask i.gg L)) ∧
    tileAt u i.core k = if b then { tileAt s i.core k with data := [], nf := false, token := .vec i.b } else tileAt s i.core k := by
  set s1 := if b then moved s i k fun t => { t with data := [], nf := false, token := .vec i.b } else s with hs1
  set t := putD s1 i 0 .b32 (opD w) i.ex (fun _ => b2n b) fun L => inMask i.gg L with htd
  have hu : exec (.tkpassClaim w) s = .next (conclude s i 0xE1 w.stall.toNat (w.y == 1) (.next (advance t i i.iss))) := by
    show execTkpassClaim w s = _
    unfold execTkpassClaim
    rw [tokenWord_issues h hk hp hx]
    dsimp only
    rw [ht, tileOf, hk]
    rfl
  have hg1 : s1.group i.b i.g = s.group i.b i.g := by rw [hs1]; split_ifs; exacts [group_moved .., rfl]
  have hc1 : SameCode s s1 := by rw [hs1]; split_ifs; exacts [sameCode_moved .., .refl s]
  have hputs : Puts s1 t i [(.b32, opD w)] := puts_putD ..
  have hb := (begun_same hc1 hg1).trans (hputs.begun (by simp))
  have r := hb.rested h w.stall.toNat (w.y == 1)
  obtain ⟨hf, hm, hr, -⟩ := hb.falls h w.stall.toNat (w.y == 1)
  have htl : ∀ c j, tileAt (conclude s i 0xE1 w.stall.toNat (w.y == 1) (.next (advance t i i.iss))) c j = tileAt s1 c j := fun c j =>
    ((hputs.upd.trans (upd_advance t i i.iss)).trans r.upd).tileAt c j
  refine ⟨_, hu, ⟨hf, hm, fun c j hn => ?_⟩, hr, fun L hL hx => ?_, ?_⟩
  · rw [htl, hs1]
    split_ifs
    · rw [tileAt_moved, if_neg hn]
    · rfl
  · exact ((gets_putD s1 i 0 .b32 (opD w) (fun _ => b2n b) (fun L => inMask i.gg L) hL hx fun hg => hg).alike (regsKept_advance t i i.iss).alike).alike r.alike
  · rw [htl, hs1]
    split_ifs
    · rw [tileAt_moved, if_pos ⟨rfl, rfl⟩]
    · rfl

end token

/-! ## .vec -/

/-- A handover is asked for. -/
def vecAsked (s : State) (i : Iss) (k o : Nat) : State := modTile s i.core k fun t => { t with vec := t.vec ++ [(o, (s.core i.core).nextCmd)] }

/-- The engine's arrival as it counts at an object, with the mark of an owed trap. -/
def engineCounts (k : Nat) (owed : Bool) (o : BarrierObj) : BarrierObj :=
  if owed then { o with count := o.count + 1, nfValid := true, nfTile := k, nfPhase := o.phase } else { o with count := o.count + 1 }

/-- A handover that is due is made, and the object's phase is not complete. -/
theorem handTile_made {v : State} {c k b o id : Nat} (ht : (tileAt v c k).token = .mat b) (he : (v.block b).ended = false) (hv : (tileAt v c k).vec = [(o, id)])
    (hq : ((v.core c).mmaQ.any fun x => x.tile == k && decide (x.id < id)) = false) (hk : (v.obj b o).kind = 2) (hx : (v.obj b o).count + 1 < (v.obj b o).expect) :
    handTile v c k = modObj (tokenMoved (modTile v c k fun y => { y with token := .vec b, vec := [], owed := false }) b) b o (engineCounts k (tileAt v c k).owed) := by
  have hobj : (tokenMoved (modTile v c k fun y => { y with token := .vec b, vec := [], owed := false }) b).obj b o = v.obj b o := by
    simp only [State.obj, tokenMoved, block_modBlock, if_true]
    rfl
  unfold handTile
  dsimp only
  rw [show tget {} (v.core c).tiles k = tileAt v c k from rfl, ht]
  dsimp only
  rw [if_neg (by rw [he]; simp), hv]
  show handOver c k b 1 v = _
  unfold handOver
  dsimp only
  rw [show tget {} (v.core c).tiles k = tileAt v c k from rfl, hv]
  dsimp only
  rw [if_neg (by rw [hq]; simp)]
  simp only [List.isEmpty_nil, if_true]
  unfold handOver engineArrive
  have hmod : ∀ z : State, z.obj b o = v.obj b o → objTest (modObj z b o (engineCounts k (tileAt v c k).owed)) b o = modObj z b o (engineCounts k (tileAt v c k).owed) := fun z hz => by
    have hz' : (modObj z b o (engineCounts k (tileAt v c k).owed)).obj b o = engineCounts k (tileAt v c k).owed (v.obj b o) := by
      rw [← hz]
      simp only [State.obj, modObj, block_modBlock, if_true]
      exact tget_tmod_self ..
    unfold objTest
    dsimp only
    rw [hz']
    have h1 : (engineCounts k (tileAt v c k).owed (v.obj b o)).kind = 2 := by unfold engineCounts; split_ifs <;> exact hk
    have h2 : (engineCounts k (tileAt v c k).owed (v.obj b o)).count = (v.obj b o).count + 1 := by unfold engineCounts; split_ifs <;> rfl
    have h3 : (engineCounts k (tileAt v c k).owed (v.obj b o)).expect = (v.obj b o).expect := by unfold engineCounts; split_ifs <;> rfl
    rw [h1, h2, h3, if_neg (by decide), if_neg (by omega)]
  rw [← hmod _ hobj]
  congr 2

/-- A handover that an earlier command holds back. -/
theorem handTile_waits {v : State} {c k b : Nat} {x : Nat × Nat} {xs : List (Nat × Nat)} (ht : (tileAt v c k).token = .mat b) (he : (v.block b).ended = false)
    (hv : (tileAt v c k).vec = x :: xs) (hq : ((v.core c).mmaQ.any fun y => y.tile == k && decide (y.id < x.2)) = true) : handTile v c k = v := by
  unfold handTile
  dsimp only
  rw [show tget {} (v.core c).tiles k = tileAt v c k from rfl, ht]
  dsimp only
  rw [if_neg (by rw [he]; simp), hv]
  show handOver c k b (xs.length + 1) v = v
  unfold handOver
  dsimp only
  rw [show tget {} (v.core c).tiles k = tileAt v c k from rfl, hv]
  dsimp only
  rw [if_pos hq]

/-- A word that has let its lanes go on, and has then changed other parts of the machine. -/
theorem Rested.advanced {s x t u : State} {i : Iss} (r : Rested t u i.b i.g) (hg : t.group i.b i.g = (advance x i i.iss).group i.b i.g) (hs : Standing s i)
    (hl : ∀ L, laneAt x i L = laneAt s i L) (hc : SameCode s x) : FallsThrough s i u := fun L hL hm => by
  have e : laneAt t i L = { laneAt s i L with lpc := w64 (landing s i.b (i.pc + i.len)) } := by
    rw [laneAt, hg, ← laneAt, laneAt_advance, if_pos ⟨hL, hm⟩, hl, hc.landing]
  refine (r.still (L := L) ?_).1.trans ?_
  · rw [← laneAt, e]
    exact Lane.still_of_ready (hs.lanes L hm).2.2.2
  · rw [← laneAt, e]

theorem group_modObj (s : State) (b o : Nat) (f : BarrierObj → BarrierObj) (k j : Nat) : (modObj s b o f).group k j = s.group k j := by
  unfold modObj
  rw [group_modBlock]
  split_ifs with h
  · rw [h]; rfl
  · rfl

theorem sameCode_modObj (s : State) (b o : Nat) (f : BarrierObj → BarrierObj) : SameCode s (modObj s b o f) := sameCode_modBlock _ _ _ ⟨rfl, rfl⟩

/-- The state in which a handover that has been asked for is tested. -/
theorem tileAt_asked (s : State) (i : Iss) (k o c j : Nat) : tileAt (advance (vecAsked s i k o) i i.iss) c j =
    if c = i.core ∧ j = k then { tileAt s i.core k with vec := (tileAt s i.core k).vec ++ [(o, (s.core i.core).nextCmd)] } else tileAt s c j := by
  rw [(upd_advance ..).tileAt, vecAsked, tileAt_modTile]

theorem mmaQ_asked (s : State) (i : Iss) (k o c : Nat) : ((advance (vecAsked s i k o) i i.iss).core c).mmaQ = (s.core c).mmaQ := by
  rw [(upd_advance ..).mmaQ, vecAsked, modTile, core_modCore]
  split_ifs with h
  · rw [h]
  · rfl

section vec
variable {w : Insn} {k o : Nat} {s : State} {i : Iss} (h : Issues 0xE1 w noBump s i) (hk : opA w = .t k) (hp : Plain [] s i) (hx : i.ex ≠ 0)
  (hv : vecObject w s i = some o) (ht : (tileAt s i.core k).token = .mat i.b) (hw : tileWaits s i k = false)
include h hk hp hx hv ht hw

theorem execTkpassVec_eq : exec (.tkpassVec w) s =
    .next (conclude s i 0xE1 w.stall.toNat (w.y == 1) (.next (handTile (advance (vecAsked s i k o) i i.iss) i.core k))) := by
  show execTkpassVec w s = _
  unfold execTkpassVec
  rw [tokenWord_issues h hk hp hx]
  dsimp only
  rw [hv]
  dsimp only
  rw [if_neg (by rw [ht]; simp), tileOf, hk, if_neg (by rw [hw]; simp)]
  rfl

variable (he : (s.block i.b).ended = false)
include he

/-- Where no earlier command of the tile is left, the token moves and the engine arrives. -/
theorem vec_made (hv0 : (tileAt s i.core k).vec = []) (hq : ((s.core i.core).mmaQ.any fun x => x.tile == k && decide (x.id < (s.core i.core).nextCmd)) = false)
    (hkind : (s.obj i.b o).kind = 2) (hc : (s.obj i.b o).count + 1 < (s.obj i.b o).expect) : ∃ u, exec (.tkpassVec w) s = .next u ∧
      TileWord s i k u ∧ tileAt u i.core k = { tileAt s i.core k with token := .vec i.b, vec := [], owed := false } ∧
      (u.obj i.b o).count = (s.obj i.b o).count + 1 := by
  set v := advance (vecAsked s i k o) i i.iss with hvd
  have hu1 : Upd (vecAsked s i k o) v i.b i.g := upd_advance ..
  have hobj : v.obj i.b o = s.obj i.b o := hu1.objOf i.b o
  have htl : tileAt v i.core k = { tileAt s i.core k with vec := [(o, (s.core i.core).nextCmd)] } := by
    rw [hvd, tileAt_asked, if_pos ⟨rfl, rfl⟩, hv0]
    rfl
  have hm := handTile_made (v := v) (c := i.core) (k := k) (b := i.b) (o := o) (id := (s.core i.core).nextCmd) (by rw [htl]; exact ht) ((hu1.blockEnded i.b).trans he) (by rw [htl])
    (by rw [hvd, mmaQ_asked]; exact hq) (by rw [hobj]; exact hkind) (by rw [hobj]; exact hc)
  have hu := execTkpassVec_eq h hk hp hx hv ht hw
  rw [← hvd, hm] at hu
  set t := modObj (tokenMoved (modTile v i.core k fun y => { y with token := .vec i.b, vec := [], owed := false }) i.b) i.b o (engineCounts k (tileAt v i.core k).owed) with htd
  have hg : t.group i.b i.g = v.group i.b i.g := by rw [htd, group_modObj, group_tokenMoved, group_modTile]
  have hcode : SameCode s (vecAsked s i k o) := sameCode_modTile ..
  have r : Rested t _ i.b i.g := rested_conclude (s := s) (h.waits.congr (by rw [hg]; exact (shifted_advance (vecAsked s i k o) i i.iss).sameMode)) 0xE1 w.stall.toNat (w.y == 1)
  have htt : ∀ c j, tileAt t c j = tileAt (modTile v i.core k fun y => { y with token := .vec i.b, vec := [], owed := false }) c j := fun _ _ => rfl
  refine ⟨_, hu, ⟨r.advanced hg h.standing (fun L => rfl) hcode, ?_, fun c j hn => ?_⟩, ?_, ?_⟩
  · rw [r.upd.mem]
    exact (((hcode.trans hu1.sameCode).trans (sameCode_modTile ..)).trans (sameCode_tokenMoved ..)).trans (sameCode_modObj ..) |>.mem
  · rw [r.upd.tileAt, htt, tileAt_modTile, if_neg hn, hvd, tileAt_asked, if_neg hn]
  · rw [r.upd.tileAt, htt, tileAt_modTile, if_pos ⟨rfl, rfl⟩, htl]
  · have : t.obj i.b o = engineCounts k (tileAt v i.core k).owed (v.obj i.b o) := by
      rw [htd]
      simp only [State.obj, modObj, tokenMoved, block_modBlock, if_true]
      exact tget_tmod_self ..
    rw [r.upd.objOf, this, ← hobj]
    unfold engineCounts
    split_ifs <;> rfl

/-- Where an earlier command of the tile is left, the handover is asked for. -/
theorem vec_asks (hq : ((s.core i.core).mmaQ.any fun x => x.tile == k &&
      decide (x.id < ((((tileAt s i.core k).vec.map Prod.snd) ++ [(s.core i.core).nextCmd]).headD 0))) = true) : ∃ u, exec (.tkpassVec w) s = .next u ∧
      TileWord s i k u ∧ tileAt u i.core k = { tileAt s i.core k with vec := (tileAt s i.core k).vec ++ [(o, (s.core i.core).nextCmd)] } := by
  have htl : tileAt (advance (vecAsked s i k o) i i.iss) i.core k = { tileAt s i.core k with vec := (tileAt s i.core k).vec ++ [(o, (s.core i.core).nextCmd)] } := by
    rw [tileAt_asked, if_pos ⟨rfl, rfl⟩]
  obtain ⟨x, xs, hxs, hid⟩ : ∃ x xs, (tileAt s i.core k).vec ++ [(o, (s.core i.core).nextCmd)] = x :: xs ∧
      ((((tileAt s i.core k).vec.map Prod.snd) ++ [(s.core i.core).nextCmd]).headD 0) = x.2 := by
    cases hvv : (tileAt s i.core k).vec with
    | nil => exact ⟨_, _, rfl, rfl⟩
    | cons y ys => exact ⟨_, _, rfl, rfl⟩
  have hu1 : Upd (vecAsked s i k o) (advance (vecAsked s i k o) i i.iss) i.b i.g := upd_advance ..
  have hm : handTile (advance (vecAsked s i k o) i i.iss) i.core k = advance (vecAsked s i k o) i i.iss :=
    handTile_waits (b := i.b) (x := x) (xs := xs) (by rw [htl]; exact ht) ((hu1.blockEnded i.b).trans he) (by rw [htl]; exact hxs) (by rw [mmaQ_asked, ← hid]; exact hq)
  have hu := execTkpassVec_eq h hk hp hx hv ht hw
  rw [hm] at hu
  have hb := begun_same (i := i) (s := s) (t := vecAsked s i k o) (sameCode_modTile ..) (group_modTile ..)
  have r := hb.rested h w.stall.toNat (w.y == 1)
  obtain ⟨hf, hmem, -, -⟩ := hb.falls h w.stall.toNat (w.y == 1)
  refine ⟨_, hu, ⟨hf, hmem, fun c j hn => ?_⟩, ?_⟩
  · rw [r.upd.tileAt, tileAt_asked, if_neg hn]
  · rw [r.upd.tileAt, htl]

end vec

/-! ## TKTEST -/

theorem tokenState_eq (b : Nat) (t : Tile) : tokenState b t = (match t.token with
    | .free => 0
    | .vec x => if x = b then 1 else 3
    | .mat x => if x = b then (if t.vec = [] then 2 else 6) else 3) + (if t.nf then 128 else 0) := by
  unfold tokenState
  have hb : 128 * b2n t.nf = if t.nf = true then 128 else 0 := by cases t.nf <;> rfl
  dsimp only
  rw [hb]
  refine congrArg (· + _) ?_
  cases t.token with
  | free => rfl
  | vec x => rfl
  | mat x =>
    dsimp only
    split_ifs with h1 h2
    · rw [h2]; rfl
    · cases hv : t.vec with
      | nil => exact absurd hv h2
      | cons y ys => rfl
    · rfl

theorem tktest_computes {w : Insn} {k : Nat} (hk : opA w = .t k) : ComputesAs .tktest 0xE2 w .b32 [] fun s i _ =>
    if w.sub.toNat = 0 then tokenState i.b (tileAt s i.core k) else b2n (tileAt s i.core k).nf := by
  refine computesAs_of_body (lat := 0) fun s => ?_
  show execTktest w s = _
  unfold execTktest tileOf
  rw [hk]
  rfl

/-! ## MMA -/

section mma
variable {w : Insn} {s : State} {i : Iss} (h : Issues 0xE0 w noBump s i) (hw : mmaWaiting s i = false)
include h hw

/-- With no executing lane every lane falls through. -/
theorem mma_none (hx : i.ex = 0) : ∃ u, exec (.mma w) s = .next u ∧ Quiet s i [] u ∧ FallsThrough s i u := by
  refine ⟨_, rfl, quiet_falls h ?_⟩
  have he : escapes s i true [(opA w, 1)] = 0 := maskOf_eq_zero fun L _ => by rw [hx]; simp [inMask]
  dsimp only
  rw [if_neg (by rw [hw]; simp), he, if_neg (by simp), lanesOf_eq_nil.2 hx]

variable {L : Nat} (hL : lanesOf i.ex = [L]) (hp : Plain [(opA w, 1)] s i)
include hL hp

theorem execMma_one : exec (.mma w) s = .next (conclude s i 0xE0 w.stall.toNat (w.y == 1) (mmaBlock w s i L)) := by
  show execMma w s = _
  unfold execMma
  rw [runWord_issues h]
  dsimp only
  rw [if_neg (by rw [hw]; simp), if_neg hp.unguessed, hL]

/-- A block off a 64-byte boundary, or past the scratchpad. -/
theorem mma_traps (hoff : srcA .b32 w s i L % 64 ≠ 0 ∨ scrBytes s i.b < srcA .b32 w s i L + 64) : ∃ u, exec (.mma w) s = .next u ∧ Trapped s u i 0x0F 1 i.ex i.ex := by
  have hx : i.ex ≠ 0 := fun e => by rw [lanesOf_eq_nil.2 e] at hL; cases hL
  refine ⟨_, rfl, stop23_traps h ?_ hx (by decide)⟩
  dsimp only
  rw [if_neg (by rw [hw]; simp), if_neg hp.unguessed, hL]
  exact if_pos hoff

/-- The command of a block that passes every check. -/
def mmaCmdOf (s : State) (i : Iss) (off : Nat) : MmaCmd :=
  { mmaParse s i.b i.g (scrWord s i.b off) with
    snap := (s.block i.b).scratch
    absent := (tkeys (s.block i.b).lines).filter fun l => !(tget {} (s.block i.b).lines l).present }

/-- A command waits for the matrix queue. -/
def mmaAdded (s : State) (i : Iss) (L off : Nat) : State :=
  modCore (clearRel s i) i.core fun k => { k with mmaWait := k.mmaWait ++
    [{ block := i.b, grp := i.g, lane := L, pc := w64 i.pc, mask := i.iss, cmd := mmaCmdOf s i off }] }

omit hp in
omit h hw hL in
theorem laneAt_mmaAdded (s : State) (i : Iss) (L off k : Nat) : (laneAt (mmaAdded s i L off) i k).lpc = (laneAt s i k).lpc ∧
    (laneAt (mmaAdded s i L off) i k).park = (laneAt s i k).park := by
  unfold mmaAdded clearRel laneAt
  rw [group_modCore, group_modGroup_self, lane_mapLanes]
  split_ifs <;> exact ⟨rfl, rfl⟩

/-- A block that passes every check waits for the queue. -/
theorem mma_waits (hoff : srcA .b32 w s i L % 64 = 0 ∧ srcA .b32 w s i L + 64 ≤ scrBytes s i.b) (hln : linePresent s i.b (srcA .b32 w s i L) = true)
    (hpend : pendingAny (s.group i.b i.g) ((mmaScalars (scrWord s i.b (srcA .b32 w s i L))).map sKey) = false)
    (hshort : shortRead s i ((mmaScalars (scrWord s i.b (srcA .b32 w s i L))).map sKey) = false)
    (hchk : mmaCheck s i (scrWord s i.b (srcA .b32 w s i L)) (mmaParse s i.b i.g (scrWord s i.b (srcA .b32 w s i L))) = none) (hrel : relHeld s i = false) :
    ∃ u, exec (.mma w) s = .next u ∧ Stays s u i ∧ RegsKept (s.group i.b i.g) (u.group i.b i.g) ∧ ChipKept s u ∧ u.mem = s.mem ∧
      (u.core i.core).mmaWait = (s.core i.core).mmaWait ++
        [{ block := i.b, grp := i.g, lane := L, pc := w64 i.pc, mask := i.iss, cmd := mmaCmdOf s i (srcA .b32 w s i L) }] := by
  have hu := execMma_one h hw hL hp
  have hb : mmaBlock w s i L = .next (mmaAdded s i L (srcA .b32 w s i L)) := by
    unfold mmaBlock
    dsimp only
    rw [show val32 s i (opA w) L = srcA .b32 w s i L from rfl, if_neg (by omega), if_neg (by rw [hln]; simp), if_neg (by rw [hpend]; simp),
      if_neg (by rw [hshort]; simp), hchk]
    dsimp only
    rw [if_neg (by rw [hrel]; simp)]
    rfl
  rw [hb] at hu
  set t := mmaAdded s i L (srcA .b32 w s i L) with ht
  have hg : t.group i.b i.g = (s.group i.b i.g).mapLanes i.ex fun _ l => { l with rel := [] } := by
    rw [ht, mmaAdded, group_modCore, clearRel, group_modGroup_self]
  have r : Rested t _ i.b i.g := rested_conclude (s := s) (h.waits.congr (by rw [hg]; exact ⟨rfl, rfl, rfl, rfl⟩)) 0xE0 w.stall.toNat (w.y == 1)
  have uc : Upd s (clearRel s i) i.b i.g := upd_modGroup ..
  refine ⟨_, hu, fun k hk hm => ?_, ?_, ⟨fun k => ?_, fun c k => ?_⟩, r.upd.mem.trans uc.mem, ?_⟩
  · have e := laneAt_mmaAdded s i L (srcA .b32 w s i L) k
    refine (r.still (L := k) ?_).1.trans e.1
    refine Lane.still_of_ready ?_
    rw [Lane.waits, show ((t.group i.b i.g).lane k).park = _ from e.2]
    exact (h.standing.lanes k hm).2.2.2
  · exact RegsKept.trans (by rw [hg]; exact ⟨rfl, rfl, rfl, rfl, rfl⟩) r.regsKept
  · rw [r.upd.scratch]
    exact uc.scratch k
  · have htile : ∀ c, (t.core c).tiles = (s.core c).tiles := fun c => by
      rw [ht, mmaAdded, core_modCore]
      split_ifs with e
      · rw [e]; exact uc.tiles i.core
      · exact uc.tiles c
    rw [r.upd.tiles, htile]
  · rw [r.upd.mmaWait, ht, mmaAdded, core_modCore, if_pos rfl]
    show ((clearRel s i).core i.core).mmaWait ++ _ = _
    rw [uc.mmaWait]

end mma

/-- Settles O28: the four forms of TKPASS change one tile, TKTEST reads one, and the checks of an MMA decide whether it waits or traps. -/
theorem tilesAndMatrixIssue : Obligations.TilesAndMatrixIssue := by
  refine ⟨fun w k hk => ⟨?_, ?_, ?_, ?_, ?_, ?_, ?_⟩, fun w L => ⟨?_, ?_, ?_⟩⟩
  · rintro s i h ⟨⟨hp, hx⟩, ht⟩
    obtain ⟨u, hu, ⟨hf, hm, hr⟩, hd⟩ := claim_tells h hk hp hx true ht
    exact ⟨u, hu, ⟨hf, hm, hr⟩, hd⟩
  · rintro s i h ⟨⟨hp, hx⟩, ht⟩
    obtain ⟨u, hu, ⟨hf, hm, hr⟩, hd⟩ := claim_tells h hk hp hx false ht
    exact ⟨u, hu, ⟨hf, hm, hr⟩, hd⟩
  · rintro s i h ⟨⟨hp, hx⟩, ht, hb⟩
    obtain ⟨⟨hf, hm, hr⟩, hd⟩ := moveToken_moves h hk hp hx .mat ht hb
    exact ⟨_, rfl, ⟨hf, hm, hr⟩, hd⟩
  · rintro s i h ⟨⟨hp, hx⟩, ht, hb⟩
    obtain ⟨⟨hf, hm, hr⟩, hd⟩ := moveToken_moves h hk hp hx (fun _ => .free) ht hb
    exact ⟨_, rfl, ⟨hf, hm, hr⟩, hd⟩
  · rintro o s i h ⟨⟨hp, hx⟩, hv, ht, hv0, he, hw, hq, hkind, hc⟩
    obtain ⟨u, hu, ⟨hf, hm, hr⟩, hd⟩ := vec_made h hk hp hx hv ht hw he hv0 hq hkind hc
    exact ⟨u, hu, ⟨hf, hm, hr⟩, hd⟩
  · rintro o s i h ⟨⟨hp, hx⟩, hv, ht, he, hw, hq⟩
    obtain ⟨u, hu, ⟨hf, hm, hr⟩, hd⟩ := vec_asks h hk hp hx hv ht hw he hq
    exact ⟨u, hu, ⟨hf, hm, hr⟩, hd⟩
  · refine ComputesAs.congr (tktest_computes hk) fun s i _ => ?_
    rw [tokenState_eq]
    rfl
  · rintro s i h ⟨⟨hL, hw, hp⟩, h1, h2, h3, h4, h5, h6, h7⟩
    exact mma_waits h hw hL hp ⟨h1, h2⟩ h3 h4 h5 h6 h7
  · rintro s i h ⟨⟨hL, hw, hp⟩, ho⟩
    exact mma_traps h hw hL hp ho
  · rintro s i h ⟨hw, hx⟩
    exact mma_none h hw hx

end Sys2Proof.Machine
end

section
/-! PROOF. The issue of a COPY (R251–R254, R418–R420). -/

set_option Elab.async false

namespace Sys2Proof.Machine

/-! ## What leaves blocks and tiles alone -/

/-- No block and no tile differs. -/
structure Aside (s t : State) : Prop where
  blocks : t.blocks = s.blocks
  tiles  : ∀ c, (t.core c).tiles = (s.core c).tiles

theorem Aside.refl (s : State) : Aside s s := ⟨rfl, fun _ => rfl⟩
theorem Aside.trans {s t u : State} (h : Aside s t) (k : Aside t u) : Aside s u := ⟨k.blocks.trans h.blocks, fun c => (k.tiles c).trans (h.tiles c)⟩

theorem aside_same {s t : State} (hb : t.blocks = s.blocks) (hc : t.cores = s.cores) : Aside s t := ⟨hb, fun c => by simp only [State.core, hc]⟩

theorem Aside.foldl {α : Type} (f : State → α → State) (hf : ∀ s x, Aside s (f s x)) (xs : List α) (s : State) : Aside s (xs.foldl f s) := by
  induction xs generalizing s with
  | nil => exact .refl s
  | cons x xs ih => exact (hf s x).trans (ih _)

theorem Aside.ite {s t u : State} {c : Prop} [Decidable c] (h : Aside s t) (k : Aside s u) : Aside s (if c then t else u) := by split_ifs <;> assumption

theorem aside_devNum (s : State) (a n x : Nat) : Aside s (devNum s a n x) := by
  have := devNum_rest s s.blocks s.cores a n x
  change devNum s a n x = _ at this
  exact aside_same (by rw [this]) (by rw [this])

theorem aside_modPart (s : State) (p : Nat) (f : Part_ → Part_) : Aside s (modPart s p f) := aside_same rfl rfl

theorem aside_raiseInt (s : State) (p n : Nat) : Aside s (raiseInt s p n) := by
  unfold raiseInt
  dsimp only
  split_ifs <;> exact aside_same rfl rfl

theorem aside_drainRing (s : State) (p : Nat) : Aside s (drainRing s p) := by
  unfold drainRing
  refine Aside.foldl _ (fun t e => ?_) _ _
  dsimp only
  split_ifs
  · exact .refl t
  · exact ((aside_devNum ..).trans (aside_devNum ..)).trans (aside_modPart ..)

theorem aside_faultEntry (s : State) (p va f l c g : Nat) : Aside s (faultEntry s p va f l c g).2 :=
  ((aside_modPart ..).trans (aside_drainRing ..)).trans (aside_raiseInt ..)

theorem aside_logDirty (s : State) (p va n : Nat) : Aside s (logDirty s p va n) := by
  unfold logDirty
  dsimp only
  split_ifs
  · exact .refl s
  · exact aside_modPart ..
  · exact (aside_devNum ..).trans (aside_modPart ..)

theorem aside_notePte (s : State) (p va : Nat) (acc : Acc) (e : TlbEntry) : Aside s (notePte s p va acc e) := by
  unfold notePte
  dsimp only
  generalize (memRead s e.leaf 8 ||| 2 ^ 10) ||| (if (writes acc && !e.dirty) = true then 2 ^ 11 else 0) = x
  exact .ite (.refl s) (.ite ((aside_devNum ..).trans (aside_logDirty ..)) (aside_devNum ..))

theorem aside_modCore (s : State) (c : Nat) (f : Core → Core) (hf : (f (s.core c)).tiles = (s.core c).tiles) : Aside s (modCore s c f) :=
  ⟨rfl, fun k => by
    rw [core_modCore]; split_ifs with e
    · rw [e]; exact hf
    · rfl⟩

theorem aside_noteXl (s : State) (c p va : Nat) (acc : Acc) (x : Xl) : Aside s (noteXl s c p va acc x) :=
  (aside_notePte s p va acc x.entry).trans (aside_modCore _ _ _ rfl)

theorem aside_putPacket (s : State) (k : Packet) (e : Nat × Bool) : Aside s (putPacket s k e) := aside_same rfl rfl

theorem aside_trySend {s t : State} {r : Req} {q off : Nat} (h : trySend s r q off = some t) : Aside s t := by
  unfold trySend at h
  split_ifs at h with h1
  · cases h; exact aside_same rfl rfl
  · split at h
    · dsimp only at h
      split_ifs at h
      cases h
      exact aside_same rfl rfl
    · cases h

theorem aside_pumpPorts (n : Nat) (s : State) : Aside s (pumpPorts n s) := by
  induction n generalizing s with
  | zero => exact .refl s
  | succ n ih =>
    unfold pumpPorts
    split
    · next t ht =>
      obtain ⟨e, -, he⟩ := List.exists_of_findSome?_eq_some ht
      exact (aside_trySend he).trans (ih t)
    · exact .refl s

theorem aside_pumpFabric (s : State) : Aside s (pumpFabric s) := aside_pumpPorts ..

theorem aside_addReq (s : State) (r : Req) : Aside s (addReq s r) := aside_same rfl rfl

/-! ## What a COPY's start leaves alone -/

/-- A COPY is another but for its progress. -/
def JobAlike (j k : CopyJob) : Prop := k = { j with runs := k.runs, status := k.status, fcode := k.fcode, parked := k.parked }

theorem JobAlike.refl (j : CopyJob) : JobAlike j j := rfl
theorem JobAlike.trans {j k l : CopyJob} (h : JobAlike j k) (m : JobAlike k l) : JobAlike j l := by
  unfold JobAlike at *
  rw [m, h]

/-- From s to t groups differ in the registers that they await at most, no byte on chip differs, no line has become present, and every
COPY under way stays so. -/
structure Hush (s t : State) : Prop where
  groups  : ∀ k j, ∃ p, t.group k j = { s.group k j with pending := p }
  scratch : ∀ k, (t.block k).scratch = (s.block k).scratch
  tiles   : ∀ c, (t.core c).tiles = (s.core c).tiles
  lines   : ∀ k l, (tget {} (s.block k).lines l).present = false → (tget {} (t.block k).lines l).present = false
  copies  : ∀ k, ∀ j ∈ (s.block k).copies, ∃ j' ∈ (t.block k).copies, JobAlike j j'

theorem Hush.refl (s : State) : Hush s s := ⟨fun _ _ => ⟨_, rfl⟩, fun _ => rfl, fun _ => rfl, fun _ _ h => h, fun _ j hj => ⟨j, hj, .refl j⟩⟩

theorem Hush.trans {s t u : State} (h : Hush s t) (k : Hush t u) : Hush s u where
  groups := fun x y => by
    obtain ⟨p, hp⟩ := h.groups x y
    obtain ⟨q, hq⟩ := k.groups x y
    exact ⟨q, by rw [hq, hp]⟩
  scratch := fun x => (k.scratch x).trans (h.scratch x)
  tiles := fun c => (k.tiles c).trans (h.tiles c)
  lines := fun x l hl => k.lines x l (h.lines x l hl)
  copies := fun x j hj => by
    obtain ⟨j1, h1, e1⟩ := h.copies x j hj
    obtain ⟨j2, h2, e2⟩ := k.copies x j1 h1
    exact ⟨j2, h2, e1.trans e2⟩

theorem Hush.foldl {α : Type} (f : State → α → State) (hf : ∀ s x, Hush s (f s x)) (xs : List α) (s : State) : Hush s (xs.foldl f s) := by
  induction xs generalizing s with
  | nil => exact .refl s
  | cons x xs ih => exact (hf s x).trans (ih _)

theorem Aside.hush {s t : State} (h : Aside s t) : Hush s t := by
  have hb : ∀ k, t.block k = s.block k := fun k => by simp only [State.block, h.blocks]
  exact ⟨fun k j => ⟨(s.group k j).pending, by simp only [State.group, hb]⟩, fun k => by rw [hb], h.tiles, fun k l hl => by rwa [hb], fun k j hj => ⟨j, by rwa [hb], .refl j⟩⟩

theorem hush_modBlock (s : State) (b : Nat) (f : Block → Block) (hg : (f (s.block b)).groups = (s.block b).groups) (hs : (f (s.block b)).scratch = (s.block b).scratch)
    (hl : ∀ l, (tget {} (s.block b).lines l).present = false → (tget {} (f (s.block b)).lines l).present = false)
    (hc : ∀ j ∈ (s.block b).copies, ∃ j' ∈ (f (s.block b)).copies, JobAlike j j') : Hush s (modBlock s b f) := by
  refine ⟨fun k j => ⟨(s.group k j).pending, ?_⟩, fun k => ?_, fun c => rfl, fun k l h => ?_, fun k j hj => ?_⟩
  · rw [group_modBlock]
    split_ifs with e
    · rw [hg, e]; rfl
    · rfl
  all_goals rw [block_modBlock]; split_ifs with e
  · rw [e]; exact hs
  · rfl
  · rw [e] at h; exact hl l h
  · exact h
  · rw [e] at hj; exact hc j hj
  · exact ⟨j, hj, .refl j⟩

theorem hush_modJob (s : State) (b id : Nat) (f : CopyJob → CopyJob) (hf : ∀ j, JobAlike j (f j)) : Hush s (modJob s b id f) := by
  refine hush_modBlock s b _ rfl rfl (fun _ h => h) fun j hj => ⟨_, List.mem_map.2 ⟨j, hj, rfl⟩, ?_⟩
  split_ifs
  · exact hf j
  · exact .refl j

theorem hush_copyFault (s : State) (b : Nat) (j : CopyJob) (va : Nat) (acc : Acc) : Hush s (copyFault s b j va acc) := by
  unfold copyFault
  dsimp only
  split_ifs
  · exact hush_modJob _ _ _ _ fun _ => rfl
  · exact (aside_faultEntry ..).hush.trans (hush_modJob _ _ _ _ fun _ => rfl)

theorem hush_askRun (s : State) (b : Nat) (j : CopyJob) (n : Nat) (r : Run) (src : Nat) (t : Tgt) (x : Xl) : Hush s (askRun s b j n r src t x) :=
  (aside_addReq ..).hush.trans (hush_modJob _ _ _ _ fun _ => rfl)

theorem hush_copyPump (s : State) (b id : Nat) : Hush s (copyPump s b id) := by
  unfold copyPump
  split
  · exact .refl s
  · refine Hush.trans (Hush.foldl _ (fun v e => ?_) _ _) (aside_pumpFabric _).hush
    dsimp only
    split
    · exact .refl v
    · split_ifs
      · exact .refl v
      · split
        · exact .refl v
        · have go : ∀ (j : CopyJob) (a : W64) (t : Tgt) (va : Nat) (host : Bool) (c p : Nat), Hush v (match xlate v c p va .read host with
              | .ok x => askRun (noteXl v c p va .read x) b j e.2 e.1 a.toNat t x
              | .error .notPresent => copyFault v b j va .read
              | .error f => modJob v b id fun j => { j with status := 1, fcode := xfaultCode f }) := fun j a t va host c p => by
            split
            · exact (aside_noteXl ..).hush.trans (hush_askRun ..)
            · exact hush_copyFault ..
            · exact hush_modJob _ _ _ _ fun _ => rfl
          split
          · exact hush_modJob _ _ _ _ fun _ => rfl
          · exact go ..
          · exact go ..
          · exact hush_askRun ..
          · exact .refl v

theorem Upd.lines {s t : State} {b g : Nat} (h : Upd s t b g) (k : Nat) : (t.block k).lines = (s.block k).lines := (congrArg Block.lines (h.block k) : _)
theorem Upd.copies {s t : State} {b g : Nat} (h : Upd s t b g) (k : Nat) : (t.block k).copies = (s.block k).copies := (congrArg Block.copies (h.block k) : _)

theorem hush_pendAdd (s : State) (b g : Nat) (ks : List Nat) : Hush s (modGroup s b g fun q => q.pendAdd ks) := by
  have hu : Upd s (modGroup s b g fun q => q.pendAdd ks) b g := upd_modGroup ..
  refine ⟨fun k j => ?_, hu.scratch, fun _ => rfl, fun k l h => by rwa [hu.lines], fun k j hj => ⟨j, by rwa [hu.copies], .refl j⟩⟩
  by_cases h : k = b ∧ j = g
  · obtain ⟨rfl, rfl⟩ := h
    rw [group_modGroup_self]
    exact ⟨_, rfl⟩
  · rw [hu.group k j h]
    exact ⟨(s.group k j).pending, rfl⟩

/-- The lines that a COPY will write become absent. -/
def linesAway (s : State) (ls : List (Nat × Nat)) : State :=
  ls.foldl (fun s l => modBlock s l.1 fun k => { k with lines := tmod {} k.lines l.2 fun x => { present := false, pending := x.pending + 1 } }) s

theorem hush_lineAway (s : State) (l : Nat × Nat) :
    Hush s (modBlock s l.1 fun k => { k with lines := tmod {} k.lines l.2 fun x => { present := false, pending := x.pending + 1 } }) := by
  refine hush_modBlock _ _ _ rfl rfl (fun k h => ?_) fun j hj => ⟨j, hj, .refl j⟩
  rw [show ∀ (q : Block), ({ q with lines := tmod {} q.lines l.2 fun x => { present := false, pending := x.pending + 1 } } : Block).lines =
    tmod {} q.lines l.2 fun x => { present := false, pending := x.pending + 1 } from fun _ => rfl, tget_tmod]
  split_ifs
  · rfl
  · exact h

theorem hush_linesAway (s : State) (ls : List (Nat × Nat)) : Hush s (linesAway s ls) := Hush.foldl _ (fun s l => hush_lineAway s l) ls s

theorem linesAway_absent (ls : List (Nat × Nat)) (s : State) : ∀ l ∈ ls, (tget {} ((linesAway s ls).block l.1).lines l.2).present = false := by
  induction ls generalizing s with
  | nil => exact fun _ h => by cases h
  | cons x xs ih =>
    intro l hl
    rcases List.mem_cons.1 hl with rfl | hl
    · refine (hush_linesAway _ xs).lines l.1 l.2 ?_
      rw [block_modBlock, if_pos rfl]
      show (tget {} (tmod {} (s.block l.1).lines l.2 fun x => { present := false, pending := x.pending + 1 }) l.2).present = false
      rw [tget_tmod_self]
    · exact ih _ l hl

/-- The COPY of a lane as it starts. -/
def jobStarted (w : Insn) (i : Iss) (s : State) (e : Nat × Plan) : CopyJob :=
  { id := s.seq, grp := i.g, lane := e.1, form := eForm w, tag := eTag w, hyp := ((s.group i.b i.g).lane e.1).hyp, rbit := e.2.rbit, dsts := e.2.dsts
    runs := e.2.runs, lines := e.2.lines, regs := e.2.regs, issueCt := coreCt s i.core }

/-- The COPY is under way, before its lines and registers are marked. -/
def jobAdded (w : Insn) (i : Iss) (s : State) (e : Nat × Plan) : State :=
  modBlock { s with seq := s.seq + 1 } i.b fun k => { k with copies := k.copies ++ [jobStarted w i s e] }

theorem issueCopy_eq (w : Insn) (i : Iss) (s : State) (e : Nat × Plan) : issueCopy w i s e =
    copyPump (e.2.regs.foldl (fun s r => modGroup s r.1 r.2.1 fun q => q.pendAdd (regKeys r.2.2)) (linesAway (jobAdded w i s e) e.2.lines)) i.b s.seq := rfl

theorem hush_jobAdded (w : Insn) (i : Iss) (s : State) (e : Nat × Plan) : Hush s (jobAdded w i s e) :=
  (aside_same (s := s) (t := { s with seq := s.seq + 1 }) rfl rfl).hush.trans
    (hush_modBlock _ _ _ rfl rfl (fun _ h => h) fun j hj => ⟨j, List.mem_append_left _ hj, .refl j⟩)

theorem hush_issueRest (w : Insn) (i : Iss) (s : State) (e : Nat × Plan) : Hush (linesAway (jobAdded w i s e) e.2.lines) (issueCopy w i s e) := by
  rw [issueCopy_eq]
  exact (Hush.foldl (fun s (r : Nat × Nat × Nat) => modGroup s r.1 r.2.1 fun q => q.pendAdd (regKeys r.2.2)) (fun s r => hush_pendAdd ..) _ _).trans (hush_copyPump ..)

theorem hush_issueCopy (w : Insn) (i : Iss) (s : State) (e : Nat × Plan) : Hush s (issueCopy w i s e) :=
  ((hush_jobAdded w i s e).trans (hush_linesAway ..)).trans (hush_issueRest w i s e)

/-- A lane's COPY of a plan is under way, and the lines that it will write are absent. -/
def Started (w : Insn) (i : Iss) (v : State) (L hyp : Nat) (p : Plan) : Prop :=
  (∃ j ∈ (v.block i.b).copies, j.grp = i.g ∧ j.lane = L ∧ j.form = eForm w ∧ j.tag = eTag w ∧ j.hyp = hyp ∧ j.rbit = p.rbit ∧ j.dsts = p.dsts ∧
      j.lines = p.lines ∧ j.regs = p.regs) ∧
    ∀ l ∈ p.lines, (tget {} (v.block l.1).lines l.2).present = false

theorem Started.hush {w : Insn} {i : Iss} {v v' : State} {L hyp : Nat} {p : Plan} (h : Started w i v L hyp p) (k : Hush v v') : Started w i v' L hyp p := by
  obtain ⟨⟨j, hj, e⟩, hl⟩ := h
  obtain ⟨j', hj', ej⟩ := k.copies i.b j hj
  exact ⟨⟨j', hj', by rw [ej]; exact e⟩, fun l h => k.lines l.1 l.2 (hl l h)⟩

theorem started_issueCopy (w : Insn) (i : Iss) (s : State) (e : Nat × Plan) : Started w i (issueCopy w i s e) e.1 ((s.group i.b i.g).lane e.1).hyp e.2 := by
  have h0 : Started w i (linesAway (jobAdded w i s e) e.2.lines) e.1 ((s.group i.b i.g).lane e.1).hyp e.2 := by
    refine ⟨?_, linesAway_absent _ _⟩
    have hj : jobStarted w i s e ∈ ((jobAdded w i s e).block i.b).copies := by
      unfold jobAdded
      rw [block_modBlock, if_pos rfl]
      exact List.mem_append_right _ (by simp)
    obtain ⟨j, hj, ej⟩ := (hush_linesAway (jobAdded w i s e) e.2.lines).copies i.b _ hj
    exact ⟨j, hj, by rw [ej]; exact ⟨rfl, rfl, rfl, rfl, rfl, rfl, rfl, rfl, rfl⟩⟩
  exact h0.hush (hush_issueRest w i s e)

/-- All the COPYs of a word start. -/
theorem issueCopies (w : Insn) (i : Iss) (es : List (Nat × Plan)) (s : State) :
    Hush s (es.foldl (issueCopy w i) s) ∧ ∀ e ∈ es, Started w i (es.foldl (issueCopy w i) s) e.1 ((s.group i.b i.g).lane e.1).hyp e.2 := by
  refine ⟨Hush.foldl _ (hush_issueCopy w i) es s, ?_⟩
  induction es generalizing s with
  | nil => exact fun _ h => by cases h
  | cons x xs ih =>
    intro e he
    rcases List.mem_cons.1 he with rfl | he
    · exact (started_issueCopy w i s e).hush (Hush.foldl _ (hush_issueCopy w i) xs _)
    · have := ih (issueCopy w i s x) e he
      obtain ⟨p, hp⟩ := (hush_issueCopy w i s x).groups i.b i.g
      rw [show ((issueCopy w i s x).group i.b i.g).lane e.1 = (s.group i.b i.g).lane e.1 by rw [hp]; rfl] at this
      exact this

/-! ## The word -/

theorem sortBy_nil {α : Type} (f : α → Nat) : sortBy f ([] : List α) = [] := rfl

section word
variable {w : Insn} {s : State} {i : Iss} (h : Issues 0xE3 w noBump s i)
  (hp : Plain ([(opA w, spanA 0xE3 w), (opB w, spanB 0xE3 w)] ++ if eForm w = 2 then [(opC w, 1)] else []) s i) (hx : i.ex ≠ 0)
  (hk : pendingAny (s.group i.b i.g) (coordKeys w s i) = false) (hs : shortRead s i (coordKeys w s i) = false) (hh : resolveHeld s i = false) (hr : relHeld s i = false)
include h hp hx hk hs hh hr

theorem copyWord_starts {attempt : State → Iss → Nat → CopyTry} {plan : Nat → Plan} (ht : ∀ L, L < 32 → inMask i.ex L = true → attempt s i L = .ok (plan L))
    (hroom : (s.block i.b).copies.length + (queueOf s i.b 2).length + (lanesOf i.ex).length ≤ 64) (hfit : linesFit s ((lanesOf i.ex).map plan) = true) :
    copyWord w s attempt = conclude s i 0xE3 w.stall.toNat (w.y == 1)
      (.next (((lanesOf i.ex).map fun L => (L, plan L)).foldl (issueCopy w i) (advance (clearRel s i) i i.iss))) := by
  have hts : (lanesOf i.ex).map (fun L => (L, attempt s i L)) = (lanesOf i.ex).map fun L => (L, CopyTry.ok (plan L)) :=
    List.map_congr_left fun L hL => by rw [ht L ((mem_lanesOf ..).1 hL).1 ((mem_lanesOf ..).1 hL).2]
  unfold copyWord
  rw [runWord_issues h]
  dsimp only
  rw [if_neg (by rw [hk]; simp), if_neg (by rw [hs]; simp), if_neg (by rw [hh]; simp), if_neg hp.unguessed, if_neg hx]
  refine congrArg _ ?_
  unfold copyBody
  dsimp only
  rw [hts]
  simp only [List.filterMap_map, Function.comp_def, List.filterMap_none, sortBy_nil]
  have hm : (lanesOf i.ex).filterMap (fun x => some (x, plan x)) = (lanesOf i.ex).map fun L => (L, plan L) := by
    rw [← List.filterMap_eq_map]
    rfl
  have hmap : ((lanesOf i.ex).map fun L => (L, plan L)).map Prod.snd = (lanesOf i.ex).map plan := by rw [List.map_map]; rfl
  have hstay : i.iss &&& ~~~(maskOf fun L => ([] : List (Nat × Nat)).any fun e => e.1 == L) = i.iss := by
    rw [show (maskOf fun L => ([] : List (Nat × Nat)).any fun e => e.1 == L) = 0 from maskOf_eq_zero fun _ _ => rfl, show ~~~(0 : Mask) = BitVec.allOnes 32 from by decide, BitVec.and_allOnes]
  have hd : decide (64 < copiesOut s i.b + (queueOf s i.b 2).length + (lanesOf i.ex).length) = false := decide_eq_false (by unfold copiesOut; omega)
  rw [hm, hmap, hr, hfit, hstay, List.length_map, hd, if_neg (by simp)]
  rfl

/-- A COPY whose checks pass in every executing lane. -/
theorem copy_runs {c : Insn → Instr} {attempt : State → Iss → Nat → CopyTry} {plan : Nat → Plan} (hc : exec (c w) s = .next (copyWord w s attempt))
    (ht : ∀ L, L < 32 → inMask i.ex L = true → attempt s i L = .ok (plan L))
    (hroom : (s.block i.b).copies.length + (queueOf s i.b 2).length + (lanesOf i.ex).length ≤ 64) (hfit : linesFit s ((lanesOf i.ex).map plan) = true) :
    ∃ u, exec (c w) s = .next u ∧ FallsThrough s i u ∧ RegsKept (s.group i.b i.g) (u.group i.b i.g) ∧ ChipKept s u ∧
      ∀ L, L < 32 → inMask i.ex L = true → Started w i u L (laneAt s i L).hyp (plan L) := by
  have hu := copyWord_starts h hp hx hk hs hh hr ht hroom hfit
  rw [hu] at hc
  set x := clearRel s i with hxd
  have ux : Upd s x i.b i.g := upd_modGroup ..
  have hxg : x.group i.b i.g = (s.group i.b i.g).mapLanes i.ex fun _ l => { l with rel := [] } := by rw [hxd, clearRel, group_modGroup_self]
  have hxl : ∀ L, laneAt x i L = if L < 32 ∧ inMask i.ex L = true then { laneAt s i L with rel := [] } else laneAt s i L := fun L => by
    unfold laneAt
    rw [hxg, lane_mapLanes]
  have ua := upd_advance x i i.iss
  obtain ⟨hq, hst⟩ := issueCopies w i ((lanesOf i.ex).map fun L => (L, plan L)) (advance x i i.iss)
  set t := ((lanesOf i.ex).map fun L => (L, plan L)).foldl (issueCopy w i) (advance x i i.iss) with htd
  obtain ⟨p, hgp⟩ := hq.groups i.b i.g
  have r : Rested t _ i.b i.g := rested_conclude (s := s) (h.waits.congr (by rw [hgp, group_advance, hxg]; exact ⟨rfl, rfl, rfl, rfl⟩)) 0xE3 w.stall.toNat (w.y == 1)
  have hlane : ∀ L, laneAt t i L = laneAt (advance x i i.iss) i L := fun L => by unfold laneAt; rw [hgp]; rfl
  refine ⟨_, hc, fun L hL hm => ?_, ?_, ⟨fun k => ?_, fun c k => ?_⟩, fun L hL hm => ?_⟩
  · have e := hlane L
    rw [laneAt_advance, if_pos ⟨hL, hm⟩, ux.landing] at e
    refine (r.still (L := L) ?_).1.trans (congrArg Lane.lpc e)
    rw [← laneAt, e]
    refine Lane.still_of_ready ?_
    rw [Lane.waits, hxl]
    have := (h.standing.lanes L hm).2.2.2
    split_ifs <;> exact this
  · refine RegsKept.trans ?_ r.regsKept
    rw [hgp, group_advance, hxg]
    exact ⟨rfl, rfl, rfl, rfl, rfl⟩
  · rw [r.upd.scratch, hq.scratch, ua.scratch, ux.scratch]
  · rw [r.upd.tiles, hq.tiles, ua.tiles, ux.tiles]
  · obtain ⟨⟨j, hj, e⟩, hl⟩ := hst (L, plan L) (List.mem_map.2 ⟨L, (mem_lanesOf ..).2 ⟨hL, hm⟩, rfl⟩)
    have hhyp : ((advance x i i.iss).group i.b i.g |>.lane L).hyp = (laneAt s i L).hyp := by
      rw [← laneAt, laneAt_advance, hxl]
      split_ifs <;> rfl
    rw [hhyp] at e
    exact ⟨⟨j, by rw [r.upd.copies]; exact hj, e⟩, fun l hl' => by rw [r.upd.lines]; exact hl l hl'⟩

end word

/-- Settles O29: the plans start one after another, and none undoes what an earlier one started. -/
theorem copyIssue : Obligations.CopyIssue := by
  intro w plan
  refine ⟨?_, ?_, ?_, ?_⟩
  all_goals
    rintro s i h ⟨hp, hx, hk, hs, ht, hr, hh, hroom, hfit⟩
    exact copy_runs h hp hx hk hs hh hr rfl ht hroom hfit

end Sys2Proof.Machine
end

section
/-! PROOF. A load from the block's own scratchpad leaves its destination where a later word is noted as its last writer (R127, R139). -/

set_option Elab.async false

namespace Sys2Proof.Machine

/-! ## The number of a register's last writer

A result of variable latency is dropped where the register's last writer has a higher number than the word that owes it. The statement
bounds the numbers of the loads in flight and not those of the last writers. -/

/-- One lane at a load; the last writer of V2 in it is noted as word 5 of a group that has issued none. -/
def writtenAhead : Group where
  exists_ := true
  live := 1
  lanes := [(0, { lpc := 0x8000 })]
  lastW := [(vKey 2 0, 5)]

/-- One block on core 0 with that group; the first byte of its scratchpad is 7. -/
def lateWriter : State := tinyMemory [] { State.reset with
    blocks := [(0, { resident := true, groups := [(0, writtenAhead)], scratch := [(0, 7)] })]
    ctxs := [(0, { live := true, record := { regs := 512, scalars := 128, scratch := 4096, limit := 1024, lease := 1024, ngrp := 1, nblk := 1 } })]
    parts := [(0, { set := true, coreMask := 1, granN := 1, root := 0x1000 })] }

/-- LDS of V2 at the address in V4, which is 0. -/
def loadV2 : Insn := { form := .m, d := 2, a := 4, ty := 2 }

def loadIss : Iss := withGuard lateWriter { pc := 0x8000, iss := 1, len := 16 } loadV2.g

theorem lateWriter_issues : Issues 0x71 loadV2 noBump lateWriter loadIss :=
  ⟨{ pc := 0x8000, iss := 1, len := 16 }, by decide +kernel, by decide +kernel, by decide +kernel, by decide +kernel, by decide +kernel, by decide +kernel, rfl,
    by decide +kernel⟩

/-- No load is in flight there. -/
theorem lateWriter_freshLoads : FreshLoads lateWriter := by
  intro b g l hl
  have hno : ∀ k, k ∈ tkeys lateWriter.blocks → ∀ j, j ∈ tkeys (lateWriter.block k).groups → (lateWriter.group k j).loads = [] := by decide +kernel
  have h : (lateWriter.group b g).loads = [] := by
    by_cases hb : b ∈ tkeys lateWriter.blocks
    · by_cases hg : g ∈ tkeys (lateWriter.block b).groups
      · exact hno b hb g hg
      · exact congrArg Group.loads (tget_absent _ _ _ hg)
    · have hk : lateWriter.block b = {} := tget_absent _ _ _ hb
      rw [State.group, hk]
      rfl
  rw [h] at hl
  cases hl

/-- The place that the one executing lane's access names. -/
def firstByte : Nat → Nat × Tgt × Xl := fun _ => (2 * 2 ^ 56, .scr 0 0, {})

/-- V2 of lane 0 of group 0 of block 0 after a step. -/
def loadedAfter : Out → Option W32
  | .next u => some ((u.group 0 0).vReg 2 0)
  | _ => none

theorem lateWriter_drops : loadedAfter (exec (.lds loadV2) lateWriter) = some 0 := by decide +kernel

/-- Lane 0, the one lane that executes, passes every check and names the first byte of the block's scratchpad. -/
theorem lateWriter_passes : Passes 0x71 loadV2 .read false firstByte lateWriter loadIss := by
  refine ⟨fun L hL hex => ?_, by decide +kernel, by decide +kernel⟩
  have h0 : L = 0 := by
    have hall : ∀ L : Fin 32, inMask loadIss.ex L = true → L = 0 := by decide +kernel
    exact congrArg Fin.val (hall ⟨L, hL⟩ hex)
  subst h0
  decide +kernel

/-- Refutes O18: the load from the block's own scratchpad finds 7 and leaves V2 as it was, for a later word is noted as its last writer. -/
theorem not_loads : ¬Obligations.Loads := by
  intro h
  obtain ⟨h1, -, -⟩ := h
  obtain ⟨-, hlds, -⟩ := h1 loadV2 firstByte 2
  have present : isAbsent lateWriter (.scr 0 0) = false := by decide +kernel
  have hplain : escapes lateWriter loadIss true ([(opA loadV2, spanA 0x71 loadV2)] ++ if xLim loadV2 = 15 then [(opC loadV2, 1)] else []) = 0 := by
    decide +kernel
  have hat : ∀ L, L < 32 → inMask loadIss.ex L = true → isAbsent lateWriter (firstByte L).2.1 = false ∧
      ((∃ o, (firstByte L).2.1 = .scr loadIss.b o) ∨ ∃ k o, (firstByte L).2.1 = .acc k o) :=
    fun _ _ _ => ⟨present, .inl ⟨0, rfl⟩⟩
  obtain ⟨u, hu, -, -, -, -, -, hget⟩ := hlds lateWriter loadIss lateWriter_issues
    ⟨lateWriter_freshLoads, by decide +kernel, hplain, lateWriter_passes, hat⟩
  have hwide : ¬tyBits (tyD 0x71 loadV2) < 32 := by decide +kernel
  have h0 := hget 0 (by decide) (by decide +kernel)
  rw [if_neg hwide] at h0
  have hv : (u.group 0 0).vReg 2 0 = 7 := (h0 0 (by decide +kernel)).1.trans (by decide +kernel)
  have hs := lateWriter_drops
  rw [hu, loadedAfter, hv] at hs
  exact absurd hs (by decide)

end Sys2Proof.Machine
end

section
/-! PROOF. Stores and atomics whose dirty log is written over the code that follows them (R131, R154, R155, R286). -/

set_option Elab.async false

namespace Sys2Proof.Machine

/-! ## A dirty log among the code

A store that makes a page dirty enters the page in the partition's dirty log before its lanes go on. Where the log's next entry lies at the
pad word after the store, the lanes stop at what is no pad word any more, while in the code as it was they pass it over. -/

/-- One lane at the code; V4 and V5 hold the address 0x9000 and V8 the data. -/
def beforePad : Group where
  exists_ := true
  live := 1
  lanes := [(0, { lpc := 0x8000 })]
  regs := [(vKey 4 0, 0x9000), (vKey 8 0, 1)]

/-- The page-table entry of page 9: it may be read, written and executed; ACC and DIRTY are clear. -/
def cleanPte : Nat := 0x90B9

/-- One block on core 0 with that group; a pad word at 0x8010, where the dirty log of the partition has its next entry. -/
def loggedPad : State :=
  putNum (putNum (tinyMemory [] { State.reset with
    blocks := [(0, { resident := true, groups := [(0, beforePad)] })]
    ctxs := [(0, { live := true, record := { regs := 512, scalars := 128, scratch := 4096, limit := 1024, lease := 1024, ngrp := 1, nblk := 1 } })]
    parts := [(0, { set := true, coreMask := 1, granN := 1, root := 0x1000, logEnable := true, logBase := 8, logHead := 2, logTail := 2 })] })
    0x4048 8 cleanPte) 0x8010 4 3

def storeV8 : Insn := { form := .m, a := 4, b := 8, ty := 2 }
def addV8 : Insn := { form := .m, d := 10, a := 4, b := 8, ty := 2 }
def wordIss (w : Insn) : Iss := withGuard loggedPad { pc := 0x8000, iss := 1, len := 16 } w.g

def placeOfLane0 : Out → Option W64
  | .next u => some ((u.group 0 0).lane 0).lpc
  | _ => none

/-- Its translation. -/
def cleanEntry : TlbEntry := { frame := 0x9000, ex := true, wr := true, rd := true, leaf := 0x4048 }

/-- The one address that each executing lane's access names. -/
def page9 : Nat → Nat × Tgt × Xl := fun _ => (0x9000, .glob 0x9000 false, { pa := 0x9000, entry := cleanEntry })

theorem loggedPad_landing : landing loggedPad 0 0x8010 = 0x8014 := by decide +kernel

/-- The word stops at the pad word, where the code as it was has the lanes pass it over. -/
theorem stopsAtPad {c : Instr} {w : Insn} {u : State} (hu : exec c loggedPad = .next u) (hx : (wordIss w).b = 0 ∧ (wordIss w).g = 0 ∧ (wordIss w).pc = 0x8000 ∧
    (wordIss w).len = 16 ∧ (wordIss w).iss = 1) (hf : FallsThrough loggedPad (wordIss w) u) : placeOfLane0 (exec c loggedPad) = some 0x8014 := by
  obtain ⟨hb, hg, hpc, hlen, hiss⟩ := hx
  have h0 := hf 0 (by decide) (by rw [hiss]; decide)
  rw [hb, hg, hpc, hlen, loggedPad_landing] at h0
  rw [hu, placeOfLane0, h0]
  rfl

theorem storeV8_place : placeOfLane0 (exec (.st storeV8) loggedPad) = some 0x8010 := by decide +kernel
theorem addV8_place : placeOfLane0 (exec (.atom addV8) loggedPad) = some 0x8010 := by decide +kernel
theorem storeV8_issues : Issues 0x80 storeV8 noBump loggedPad (wordIss storeV8) :=
  ⟨{ pc := 0x8000, iss := 1, len := 16 }, by decide +kernel, by decide +kernel, by decide +kernel, by decide +kernel, by decide +kernel, by decide +kernel, rfl,
    by decide +kernel⟩

theorem addV8_issues : Issues 0xA0 addV8 noBump loggedPad (wordIss addV8) :=
  ⟨{ pc := 0x8000, iss := 1, len := 16 }, by decide +kernel, by decide +kernel, by decide +kernel, by decide +kernel, by decide +kernel, by decide +kernel, rfl,
    by decide +kernel⟩

/-- Of the issue set of lane 0 alone. -/
theorem only_lane0 {m : Mask} (hm : m = 1) {L : Nat} (hL : L < 32) (h : inMask m L = true) : L = 0 := by
  subst hm
  have hall : ∀ L : Fin 32, inMask 1 L = true → L = 0 := by decide
  exact congrArg Fin.val (hall ⟨L, hL⟩ h)

theorem storeV8_passes : Passes 0x80 storeV8 .write true page9 loggedPad (wordIss storeV8) := by
  refine ⟨fun L hL hex => ?_, by decide +kernel, by decide +kernel⟩
  obtain rfl := only_lane0 (by decide +kernel) hL hex
  decide +kernel

theorem addV8_passes : Passes 0xA0 addV8 .atomic true page9 loggedPad (wordIss addV8) := by
  refine ⟨fun L hL hex => ?_, by decide +kernel, by decide +kernel⟩
  obtain rfl := only_lane0 (by decide +kernel) hL hex
  decide +kernel

/-- Page 9 is device memory. -/
theorem page9_away (i : Iss) : Away page9 loggedPad i := fun _ _ _ => ⟨rfl, rfl⟩

/-- Refutes O19: the store's lanes do not stand where they fall through to in the code as it was. -/
theorem not_stores : ¬Obligations.Stores := by
  intro h
  obtain ⟨-, -, h3⟩ := h
  obtain ⟨u, hu, hf, -⟩ := h3 storeV8 page9 loggedPad (wordIss storeV8) storeV8_issues
    ⟨by decide +kernel, storeV8_passes, by decide +kernel, by decide +kernel, page9_away _⟩
  have h1 := stopsAtPad hu (by decide +kernel) hf
  rw [storeV8_place] at h1
  exact absurd h1 (by decide)

/-- Refutes O20: the atomic's lanes do not stand where they fall through to in the code as it was. -/
theorem not_atomics : ¬Obligations.Atomics := by
  intro h
  obtain ⟨-, h2⟩ := h
  obtain ⟨hatom, -⟩ := h2 addV8 page9
  have hplain : escapes loggedPad (wordIss addV8) true ([(opA addV8, 2), (opB addV8, spanB 0xA0 addV8)] ++
      if addV8.sub.toNat = 6 then [(opC addV8, spanB 0xA0 addV8)] else []) = 0 := by decide +kernel
  obtain ⟨u, hu, hf, -⟩ := hatom loggedPad (wordIss addV8) addV8_issues
    ⟨hplain, addV8_passes, by decide +kernel, by decide +kernel, by decide +kernel, page9_away _⟩
  have h1 := stopsAtPad hu (by decide +kernel) hf
  rw [addV8_place] at h1
  exact absurd h1 (by decide)

end Sys2Proof.Machine
end

section
/-! PROOF. A thermal trip frees the vat entries of the hypotheses that it ends (R13, R224). -/

set_option Elab.async false

namespace Sys2Proof.Machine

/-! ## A trip with a version in the vat

The trip loses every context, and with a context its hypothesis context; a version that has left L2 for the vat has an entry marked in use
in device memory, and the device clears that mark. -/

/-- One context with a vat at 0x8000 and a hypothesis context, of which one version stands in entry 0, marked in use. -/
def versionInVat : State :=
  putNum (tinyMemory [] { State.reset with
    ctxs := [(0, { live := true, hctx := some 1, record := { vatBase := 0x8000, vatSize := 128 } })]
    hctxs := [(1, { ctx := some 0 })]
    versions := [{ hctx := 1, id := 1, stored := true, inVat := true }]
    parts := [(0, { set := true, coreMask := 1, granN := 1, root := 0x1000 })] }) 0x8048 8 1

/-- The byte of memory at an address after a step. -/
def byteAfter (a : Nat) : Out → Option Byte
  | .next u => some (memByte u a)
  | _ => none

theorem versionInVat_tripped : byteAfter 0x8048 (exec .thermtripNInput versionInVat) = some 0 := by decide +kernel
theorem versionInVat_marked : memByte versionInVat 0x8048 = 1 := by decide +kernel

/-- Memory that a step keeps reads as before it. -/
theorem byteAfter_kept {o : Out} {s u : State} (hu : o = .next u) (hm : u.mem = s.mem) (a : Nat) : byteAfter a o = some (memByte s a) := by
  subst hu
  simp only [byteAfter, memByte, hm]

/-- Refutes O47: THERMTRIP_N clears the mark of a vat entry in device memory. -/
theorem not_temperaturePowerAndTime : ¬Obligations.TemperaturePowerAndTime := by
  intro h
  obtain ⟨-, -, -, ⟨u, hu, -, -, -, hmem, -⟩, -⟩ := h versionInVat
  have h1 := byteAfter_kept hu hmem 0x8048
  rw [versionInVat_tripped, versionInVat_marked] at h1
  exact absurd h1 (by decide)

end Sys2Proof.Machine
end

section
/-! PROOF. A miss queue whose requests are not numbered apart (R27, R28): a line that is asked for and not on its way. -/

set_option Elab.async false

namespace Sys2Proof.Machine

/-! ## Two requests of one number

A request leaves a miss queue with every other of its number. Where an older entry of the queue carries the number that the next one will
be given, and an earlier deadline, it takes the new one with it. -/

/-- A miss queue that holds an entry of the number n. -/
def queuedAs (n : Nat) : State :=
  { State.reset with memStacks := [(stackOf 0, { waits := [{ kind := 0, addr := 4096, seq := n }] })] }

/-- Whether the line of an address is on its way after a step. -/
def pendingAfter (pa : Nat) : Out → Option Bool
  | .next u => some (linePending u pa)
  | _ => none

theorem pendingAfter_next {o : Out} {u : State} {pa : Nat} (hu : o = .next u) : pendingAfter pa o = some (linePending u pa) := by
  subst hu
  rfl

theorem cxlMemRead_leaves_none : pendingAfter 0 (exec (.cxlMemRead 0) (queuedAs 2)) = some false := by decide +kernel

/-- Refutes O51: the host's read of an absent line waits for a read that no miss queue holds. -/
theorem not_hostAccesses : ¬Obligations.HostAccesses := by
  intro h
  obtain ⟨hread, -⟩ := h (queuedAs 2)
  obtain ⟨-, hopen⟩ := hread 0 (by decide)
  obtain ⟨hmiss, -⟩ := hopen (by decide +kernel) (by decide +kernel)
  obtain ⟨u, hu, -, hpend⟩ := hmiss (by decide +kernel)
  have h1 := pendingAfter_next (pa := 0) hu
  rw [cxlMemRead_leaves_none] at h1
  rw [← Option.some_inj.mp h1] at hpend
  exact absurd hpend (by decide)

/-- A load held at its home. -/
def heldLoad : Req := { id := 0, kind := .load, place := .home 0, stage := .held }

def homeAwaitsLoad : State := { queuedAs 1 with reqs := [heldLoad] }

theorem loadServe_leaves_none : pendingAfter 0 (exec (.l2LoadServe 0 .none) homeAwaitsLoad) = some false := by decide +kernel

/-- Refutes O54: a load of an absent line waits for a read that no miss queue holds. -/
theorem not_homeSlices : ¬Obligations.HomeSlices := by
  intro h
  obtain ⟨hhome, -⟩ := h homeAwaitsLoad 0 0 heldLoad
  obtain ⟨-, -, -, hload⟩ := hhome (by decide +kernel) rfl
  obtain ⟨-, -, hopen⟩ := hload rfl rfl rfl
  obtain ⟨hmiss, -⟩ := hopen (Or.inr rfl) (by decide +kernel) (by decide +kernel)
  obtain ⟨u, hu, -, -, hpend⟩ := hmiss (by decide +kernel)
  have h1 := pendingAfter_next (pa := 0) hu
  rw [loadServe_leaves_none] at h1
  rw [← Option.some_inj.mp h1] at hpend
  exact absurd hpend (by decide)

end Sys2Proof.Machine
end

section
/-! PROOF. A program record whose release of an issue set ends trap mode (R153, R428, R432). -/

set_option Elab.async false

namespace Sys2Proof.Machine

/-! ## The record of a group that has executed RTE.next

The record of a held BBLOG releases its issue set and makes the tests that follow an issue. Where every live lane of the handler set has
executed its return, trap mode ends with them, and the instruction at TRAP_PC is read as a fetch reads it: the page's entry takes ACC. -/

/-- One live lane, which has executed RTE.next and goes on past 0x8000. -/
def returnedGroup : Group where
  exists_ := true
  live := 1
  trapMode := true
  handlerSet := 1
  rteHeld := 1
  rteNextM := 1
  trapPc := 0x8000
  lanes := [(0, { lpc := 0x8000 })]

/-- Its held entry. -/
def heldRecord : LogWait := { pc := 0x8000, mask := 1, code := 7 }

/-- One block on core 0 with that group, its context with the held entry; ACC and DIRTY of the code page are clear. -/
def recordAtReturn : State :=
  putNum (tinyMemory [] { State.reset with
    blocks := [(0, { resident := true, groups := [(0, returnedGroup)] })]
    ctxs := [(0, { live := true, record := { regs := 512, scalars := 128, scratch := 4096, limit := 1024, lease := 1024, ngrp := 1, nblk := 1 }
                   logWait := [heldRecord] })]
    parts := [(0, { set := true, coreMask := 1, granN := 1, root := 0x1000 })] }) 0x4040 8 0x80B9

theorem recordAtReturn_marks : byteAfter 0x4041 (exec (.programRecordDue 0) recordAtReturn) = some 0x84 := by decide +kernel
theorem recordAtReturn_clear : memByte recordAtReturn 0x4041 = 0x80 := by decide +kernel

/-- Refutes O55: the record of a held BBLOG marks the page of the instruction at TRAP_PC. -/
theorem not_enginesAndWakes : ¬Obligations.EnginesAndWakes := by
  intro h
  obtain ⟨-, -, -, -, -, -, -, -, -, hrecord⟩ := h recordAtReturn 0 0 0
  obtain ⟨u, hu, -, -, hmem⟩ := hrecord 0 heldRecord (by decide +kernel) (by decide +kernel) (by decide +kernel)
  have h1 := byteAfter_kept hu hmem 0x4041
  rw [recordAtReturn_marks, recordAtReturn_clear] at h1
  exact absurd h1 (by decide)

end Sys2Proof.Machine
end

section
/-! PROOF. A core's drain that enters a trap first (R98, R153, R262, R266). -/

set_option Elab.async false

namespace Sys2Proof.Machine

/-! ## The drain of a core with a group that owes a trap

A gang that is to be saved stops; a trap that one of its groups would take in this cycle is entered before, and the reads of the trap table
mark its page. -/

/-- One live lane, which a lost peer has failed. -/
def owedGroup : Group where
  exists_ := true
  live := 1
  pend := [{ cause := 0x16 }]
  lanes := [(0, { lpc := 0x8000, failed := true })]

/-- One block on core 0 with that group, of a partition of two cores; ACC and DIRTY of the page of code and trap table are clear. -/
def owedTrap : State :=
  putNum (tinyMemory [] { State.reset with
    blocks := [(0, { resident := true, groups := [(0, owedGroup)] })]
    ctxs := [(0, { live := true, record := { regs := 512, scalars := 128, scratch := 4096, limit := 1024, lease := 1024, ngrp := 1, nblk := 1, trapTable := 0x8000 } })]
    parts := [(0, { set := true, coreMask := 3, granN := 1, root := 0x1000 })] }) 0x4040 8 0x80B9

theorem owedTrap_marks : byteAfter 0x4041 (exec .coreDrain owedTrap) = some 0x84 := by decide +kernel
theorem owedTrap_clear : memByte owedTrap 0x4041 = 0x80 := by decide +kernel

/-- Core 1 has room for the context. -/
theorem owedTrap_fits : drainFits { taken owedTrap 0x32 with svc := { (taken owedTrap 0x32).svc with draining := some (0, 0) } } 0 = true := by decide +kernel

/-- Refutes O58: CORE_DRAIN of a core whose group owes a trap marks the page of the trap table. -/
theorem not_mailboxCommands : ¬Obligations.MailboxCommands := by
  intro h
  obtain ⟨-, -, -, -, -, -, -, -, -, -, -, hdrain, -⟩ := h owedTrap
  obtain ⟨-, -, hfits⟩ := hdrain (by decide +kernel) (by decide +kernel)
  obtain ⟨u, hu, -, -, -, hmem, -⟩ := hfits 0 (by decide +kernel) owedTrap_fits (by decide +kernel)
  have h1 := byteAfter_kept hu hmem 0x4041
  rw [owedTrap_marks, owedTrap_clear] at h1
  exact absurd h1 (by decide)

end Sys2Proof.Machine
end

section
/-! PROOF. The mailbox's commands end, and its fabric commands (R67–R70, R91). -/

set_option Elab.async false

namespace Sys2Proof.Machine

/-! ## What stays with the blocks, the cores and their requests -/

/-- From s to t only blocks, cores, contexts, hypothesis contexts, requests and the next number differ. -/
def OnCores (s t : State) : Prop := ∃ blocks cores ctxs hctxs reqs seq,
  t = { s with blocks := blocks, cores := cores, ctxs := ctxs, hctxs := hctxs, reqs := reqs, seq := seq }

namespace OnCores
variable {s t u : State}

theorem refl (s : State) : OnCores s s := ⟨_, _, _, _, _, _, rfl⟩
theorem trans (h : OnCores s t) (k : OnCores t u) : OnCores s u := by
  obtain ⟨_, _, _, _, _, _, rfl⟩ := h
  obtain ⟨_, _, _, _, _, _, rfl⟩ := k
  exact ⟨_, _, _, _, _, _, rfl⟩
theorem foldl {α : Type} {f : State → α → State} (hf : ∀ s x, OnCores s (f s x)) (xs : List α) (s : State) : OnCores s (xs.foldl f s) := by
  induction xs generalizing s with
  | nil => exact refl s
  | cons x xs ih => exact (hf s x).trans (ih _)
theorem ite {c : Prop} [Decidable c] (h : OnCores s t) (k : OnCores s u) : OnCores s (if c then t else u) := by split_ifs <;> assumption

theorem mem (h : OnCores s t) : t.mem = s.mem := by obtain ⟨_, _, _, _, _, _, rfl⟩ := h; rfl
theorem lostPeers (h : OnCores s t) : t.lostPeers = s.lostPeers := by obtain ⟨_, _, _, _, _, _, rfl⟩ := h; rfl
theorem svc (h : OnCores s t) : t.svc = s.svc := by obtain ⟨_, _, _, _, _, _, rfl⟩ := h; rfl
theorem parts (h : OnCores s t) : t.parts = s.parts := by obtain ⟨_, _, _, _, _, _, rfl⟩ := h; rfl
theorem emergency (h : OnCores s t) : t.emergency = s.emergency := by obtain ⟨_, _, _, _, _, _, rfl⟩ := h; rfl
theorem pkg (h : OnCores s t) : t.pkg = s.pkg := by obtain ⟨_, _, _, _, _, _, rfl⟩ := h; rfl
end OnCores

theorem onCores_modGroup (s : State) (b g : Nat) (f : Group → Group) : OnCores s (modGroup s b g f) := ⟨_, _, _, _, _, _, rfl⟩
theorem onCores_modBlock (s : State) (b : Nat) (f : Block → Block) : OnCores s (modBlock s b f) := ⟨_, _, _, _, _, _, rfl⟩
theorem onCores_modCore (s : State) (c : Nat) (f : Core → Core) : OnCores s (modCore s c f) := ⟨_, _, _, _, _, _, rfl⟩
theorem onCores_modCtx (s : State) (h : Nat) (f : Ctx → Ctx) : OnCores s (modCtx s h f) := ⟨_, _, _, _, _, _, rfl⟩
theorem onCores_modHctx (s : State) (x : Nat) (f : Hctx → Hctx) : OnCores s (modHctx s x f) := ⟨_, _, _, _, _, _, rfl⟩
theorem onCores_modJob (s : State) (b id : Nat) (f : CopyJob → CopyJob) : OnCores s (modJob s b id f) := ⟨_, _, _, _, _, _, rfl⟩
theorem onCores_unparkNext (s : State) (b g : Nat) (m : Mask) (n : Nat) : OnCores s (unparkNext s b g m n) := ⟨_, _, _, _, _, _, rfl⟩

theorem onCores_landed {s t : State} (h : OnCores s t) (b g : Nat) (rs : List (Nat × Nat)) : OnCores s (landed s t b g rs) := by
  unfold landed
  exact .ite h (h.trans (onCores_modGroup ..))

/-- A guess-bound node that awaits no more truths enters the resolve order. -/
theorem onCores_enterResolve (s : State) (x : Nat) (c : Bool) (id r : Nat) (l : Option (Nat × Nat × Nat)) : OnCores s (enterResolve s x c id r l) :=
  (OnCores.foldl (fun t _ => onCores_modHctx t x _) (if c then [id] else subtree s x id) s).trans ⟨_, _, _, _, _, _, rfl⟩

theorem onCores_truthFor (s : State) (b g n L id : Nat) : OnCores s (truthFor s b g n L id) := by
  unfold truthFor boundDecide
  split
  · exact .refl s
  · exact .ite (.refl s) ((onCores_modHctx ..).trans (.ite (onCores_enterResolve ..) (.refl _)))

theorem onCores_demandRelease (s : State) (b g n L : Nat) : OnCores s (demandRelease s b g n L) :=
  .ite ((onCores_landed (onCores_modGroup ..) ..).trans ((onCores_unparkNext ..).trans (onCores_modGroup ..))) (.refl s)

/-! ## Replies and guesses -/

theorem onCores_deliverLane (s : State) (b g id L : Nat) (bs : List Byte) (st f : Nat) (e : Nat × Option Nat) : OnCores s (deliverLane s b g id L bs st f e) := by
  unfold deliverLane
  dsimp only
  split
  · exact .refl s
  · refine .ite ?_ (.ite ?_ (.refl s))
    · split
      · exact onCores_modGroup ..
      · exact onCores_landed (onCores_modGroup ..) ..
    · split
      · exact .refl s
      · exact .ite ((onCores_modGroup ..).trans ((onCores_demandRelease ..).trans (onCores_truthFor ..))) (onCores_modGroup ..)

theorem onCores_expireLane (s : State) (b g id L : Nat) : OnCores s (expireLane s b g id L) := by
  unfold expireLane
  dsimp only
  split
  · exact .refl s
  · split
    · exact onCores_modGroup ..
    · exact .ite ((onCores_landed (onCores_modGroup ..) ..).trans (onCores_unparkNext ..)) (onCores_landed (onCores_modGroup ..) ..)

theorem onCores_deliverParts (s : State) (r : Req) : OnCores s (deliverParts s r) := .foldl (fun _ _ => onCores_deliverLane ..) ..

theorem onCores_expireParts (s : State) (r : Req) : OnCores s (expireParts s r) := by
  refine .ite (.foldl (fun t p => ?_) ..) (.refl s)
  unfold expireFirst
  split
  · exact .refl t
  · exact .ite (onCores_expireLane ..) (.refl t)

theorem onCores_copyReply (s : State) (r : Req) : OnCores s (copyReply s r) := by
  unfold copyReply
  dsimp only
  split
  · exact .refl s
  · split
    · exact .refl s
    · exact .ite (onCores_modJob ..) (onCores_modJob ..)

theorem onCores_answerAtomic (s : State) (r : Req) : OnCores s (answerAtomic s r) := by
  unfold answerAtomic
  split
  · exact .refl s
  · exact .foldl (fun t p => onCores_landed (onCores_modGroup ..) ..) ..

/-- A request that the host link or a lost peer ends reaches its lanes or its COPY, and nothing else. -/
theorem onCores_failReq (s : State) (r : Req) (cause : Nat) : OnCores s (failReq s r cause) := by
  have h0 : OnCores s (dropReq (expireParts s r) r.id) := (onCores_expireParts s r).trans ⟨_, _, _, _, _, _, rfl⟩
  unfold failReq
  dsimp only
  refine .ite ?_ (.trans ?_ (onCores_modGroup ..))
  all_goals
    split
    · exact h0.trans (onCores_deliverParts ..)
    · exact h0.trans (onCores_copyReply ..)
    · exact h0.trans (onCores_answerAtomic ..)
    · split
      · exact h0.trans (onCores_modJob ..)
      · exact h0
    · exact h0

theorem onCores_modGroupsOf (s : State) (h : Nat) (f : Nat → Nat → Group → Group) : OnCores s (modGroupsOf s h f) :=
  .foldl (fun _ _ => .foldl (fun _ _ => onCores_modGroup ..) ..) ..

/-! ## The mailbox -/

/-- The end of a command is a matter of the service core alone. -/
theorem mboxDone_eq (s : State) (code : Nat) : mboxDone s code =
    { s with svc := { s.svc with busy := false, code := code, msix := s.svc.msix ++ [(0, 0)] } } := by
  unfold mboxDone sendMsi
  rw [if_neg (by simp)]

theorem mboxTake_free {s : State} (hb : s.svc.busy = false) (cmd : Nat) (f : State → State) : mboxTake s cmd f = f (taken s cmd) := by
  rw [mboxTake, if_neg (by rw [hb]; exact Bool.false_ne_true), taken]

/-- A command that is taken and ends with a code, of which E holds. -/
theorem ends_of {i : Instr} {cmd code : Nat} {s : State} {E : State → Prop} {f : State → State} (u : State) (hx : exec i s = .next (mboxTake s cmd f))
    (hf : f (taken s cmd) = mboxDone u code) (hl : u.svc.lastCmd = cmd) (hE : E (mboxDone u code)) : Ends i cmd code s E := by
  intro hb
  refine ⟨mboxDone u code, by rw [hx, mboxTake_free hb, hf], ?_, ?_, ?_, hE⟩ <;> rw [mboxDone_eq]
  exact hl

/-- Fields that PORT-like pieces keep through the end of a command. -/
@[simp] theorem mboxDone_port (s : State) (c p : Nat) : (mboxDone s c).port p = s.port p := by rw [mboxDone_eq]; rfl
@[simp] theorem mboxDone_part (s : State) (c p : Nat) : (mboxDone s c).part p = s.part p := by rw [mboxDone_eq]; rfl
@[simp] theorem mboxDone_position (s : State) (c : Nat) : (mboxDone s c).position = s.position := by rw [mboxDone_eq]
@[simp] theorem mboxDone_data (s : State) (c : Nat) : (mboxDone s c).svc.data = s.svc.data := by rw [mboxDone_eq]
theorem port_modPort (s : State) (p k : Nat) (f : Port → Port) : (modPort s p f).port k = if k = p then f (s.port p) else s.port k := tget_tmod ({} : Port) s.ports p k f

/-! ## FAB_TRAIN -/

/-- A port begins to train with the salts of its links. -/
def training (t : State) (p : Nat) (q : Port) : Port := { q with
  state := 1, deadline := t.ct + 15000000
  tx := { q.tx with salt := ofLeBytes (mboxBytes t (8 * p) 4) }, rx := { q.rx with salt := ofLeBytes (mboxBytes t (8 * p + 4) 4) } }

/-- Of the ports of a list, each once, every one has taken its change. -/
theorem port_foldl_modPort (f : Nat → Port → Port) (ps : List Nat) (hps : ps.Nodup) (s : State) (k : Nat) :
    ((ps.foldl (fun u p => modPort u p (f p)) s).port k) = if k ∈ ps then f k (s.port k) else s.port k := by
  induction ps generalizing s with
  | nil => simp
  | cons p ps ih =>
    obtain ⟨hp, hps⟩ := List.nodup_cons.mp hps
    rw [List.foldl_cons, ih hps, port_modPort]
    by_cases hk : k = p
    · subst hk; simp [hp]
    · simp [hk]

theorem foldl_modPort_rest (f : Nat → Port → Port) (ps : List Nat) (s : State) :
    ps.foldl (fun u p => modPort u p (f p)) s = { s with ports := (ps.foldl (fun u p => modPort u p (f p)) s).ports } := by
  induction ps generalizing s with
  | nil => rfl
  | cons p ps ih => rw [List.foldl_cons, ih]; rfl

/-- What FAB_TRAIN leaves before it ends: the position, and the ports of its mask in training. -/
def inTraining (s : State) (pos : Option (Nat × Nat)) : State :=
  ((List.range 14).filter (bit (mboxArg s 0))).foldl (fun u p => modPort u p (training s p)) { taken s 0x50 with position := pos }

theorem port_inTraining (s : State) (pos : Option (Nat × Nat)) (k : Nat) (hk : k ∈ (List.range 14).filter (bit (mboxArg s 0))) :
    (inTraining s pos).port k = training s k (s.port k) := by
  rw [inTraining, port_foldl_modPort _ _ (List.nodup_range.filter _), if_pos hk]
  rfl

theorem inTraining_rest (s : State) (pos : Option (Nat × Nat)) : inTraining s pos = { taken s 0x50 with position := pos, ports := (inTraining s pos).ports } :=
  foldl_modPort_rest ..

/-- The command passes its checks: no field is foreign, and no port of the mask refuses. -/
theorem fabTrain_ends {s : State} {E : State → Prop} (pos : Option (Nat × Nat))
    (hpos : pos = if bit (mboxArg s 0) 24 then some (bits (mboxArg s 0) 18 16, bits (mboxArg s 0) 22 20) else s.position)
    (hf : onlyFields (mboxArg s 0) [(24, 24), (22, 20), (18, 16), (13, 0)] = true)
    (hn : ((bit (mboxArg s 0) 24 && (List.range 14).any fun p => decide (1 ≤ (s.port p).state)) || (!bit (mboxArg s 0) 24 && s.position.isNone) ||
      ((List.range 14).filter (bit (mboxArg s 0))).any (cannotTrain s)) = false)
    (hE : E (mboxDone (inTraining s pos) 0)) : Ends .fabTrain 0x50 0 s E := by
  refine ends_of (inTraining s pos) rfl ?_ (by rw [inTraining_rest]; rfl) hE
  have hp : (if bit (mboxArg s 0) 24 then { taken s 0x50 with position := some (bits (mboxArg s 0) 18 16, bits (mboxArg s 0) 22 20) } else taken s 0x50) =
      { taken s 0x50 with position := pos } := by
    rw [hpos]
    split_ifs <;> rfl
  rw [inTraining, ← hp]
  change (if !onlyFields (mboxArg s 0) [(24, 24), (22, 20), (18, 16), (13, 0)] then _ else
    if ((bit (mboxArg s 0) 24 && (List.range 14).any fun p => decide (1 ≤ (s.port p).state)) ||
      (!bit (mboxArg s 0) 24 && s.position.isNone) || ((List.range 14).filter (bit (mboxArg s 0))).any (cannotTrain s)) then _ else _) = _
  rw [if_neg (by rw [hf]; decide), if_neg (by rw [hn]; decide)]
  rfl

/-! ## FAB_KEY -/

/-- The keys leave the buffer as the command is taken. -/
def keysTaken (s : State) : State := putMbox (taken s 0x51) 0 (List.replicate 64 0)

/-- A command of an action that no check before its own refuses. -/
theorem keyCommand_eq {s : State} {action : Nat} {busy denied : Port → Bool} {f : Port → List Byte → List Byte → Port} (hb : s.svc.busy = false)
    (ha : bits (mboxArg s 0) 9 8 = action) (h3 : action ≠ 3) (hf : onlyFields (mboxArg s 0) [(9, 8), (3, 0)] = true) (hp : bits (mboxArg s 0) 3 0 < 14) :
    let p := bits (mboxArg s 0) 3 0
    keyCommand s action busy denied f =
      if busy (s.port p) then mboxDone (keysTaken s) 1 else if denied (s.port p) then mboxDone (keysTaken s) 3
      else mboxDone (modPort (keysTaken s) p fun q => f q (mboxBytes s 0 32) (mboxBytes s 32 32)) 0 := by
  intro p
  rw [keyCommand, if_neg (fun h => h.1 ha), mboxTake_free hb]
  change (if (bits (mboxArg s 0) 9 8 == 3 || !onlyFields (mboxArg s 0) [(9, 8), (3, 0)] || decide (14 ≤ bits (mboxArg s 0) 3 0)) = true then _ else _) = _
  rw [if_neg (by rw [ha, hf]; simp only [beq_iff_eq, h3, Bool.not_true, Bool.or_false, Bool.or_eq_true, decide_eq_true_eq, false_or]; omega)]
  rfl

end Sys2Proof.Machine
end

section
/-! PROOF. The mailbox's fabric commands (R67–R70). -/

set_option Elab.async false

namespace Sys2Proof.Machine

/-! ## Keys -/

theorem key_setKey (k : LinkKeys) (n : Nat) (x : Option (List Byte)) : (k.setKey n x).key n = x := by
  unfold LinkKeys.setKey LinkKeys.key
  split_ifs <;> rfl

theorem idle_setKey (k : LinkKeys) (n : Nat) (x : Option (List Byte)) : (k.setKey n x).idle = k.idle := by
  unfold LinkKeys.setKey LinkKeys.idle
  split_ifs <;> rfl

theorem slot_setKey (k : LinkKeys) (n : Nat) (x : Option (List Byte)) : (k.setKey n x).slot = k.slot := by
  unfold LinkKeys.setKey
  split_ifs <;> rfl

/-- Bytes written in order from an offset are read back there, and no other byte changes. -/
theorem tget_writeBytes (bs : List Byte) (off n : Nat) (t : Tbl Byte) (k : Nat) :
    tget 0 ((bs.zipIdx n).foldl (fun d e => tset 0 d (off + e.2) e.1) t) k =
      if off + n ≤ k ∧ k < off + n + bs.length then bs.getD (k - (off + n)) 0 else tget 0 t k := by
  induction bs generalizing n t with
  | nil => rw [if_neg (by simp only [List.length_nil]; omega)]; rfl
  | cons b bs ih =>
    rw [List.zipIdx_cons, List.foldl_cons, ih, tget_tset, List.length_cons]
    by_cases hk : k = off + n
    · subst hk
      rw [if_neg (by omega), if_pos rfl, if_pos (by omega), Nat.sub_self]
      rfl
    · by_cases hin : off + (n + 1) ≤ k ∧ k < off + (n + 1) + bs.length
      · rw [if_pos hin, if_pos (by omega), show k - (off + n) = k - (off + (n + 1)) + 1 by omega, List.getD_cons_succ]
      · rw [if_neg hin, if_neg hk, if_neg (by omega)]

theorem tget_putMbox (s : State) (off : Nat) (bs : List Byte) (k : Nat) : tget 0 (putMbox s off bs).svc.data k =
    if off ≤ k ∧ k < off + bs.length then bs.getD (k - off) 0 else tget 0 s.svc.data k := tget_writeBytes bs off 0 s.svc.data k

/-- The data buffer's bytes of the keys read zero once the keys have left it. -/
theorem keysTaken_zero {u s : State} (hu : u.svc.data = (keysTaken s).svc.data) : mboxBytes u 0 64 = List.replicate 64 0 := by
  refine List.eq_replicate_iff.mpr ⟨by simp [mboxBytes], fun x hx => ?_⟩
  obtain ⟨k, hk, rfl⟩ := List.mem_map.mp hx
  have hk64 := List.mem_range.mp hk
  rw [hu, keysTaken, tget_putMbox, if_pos (by simp only [List.length_replicate]; omega)]
  rw [List.getD_eq_getElem _ _ (by rw [List.length_replicate]; omega), List.getElem_replicate]

/-! ## FAB_QUIESCE -/

/-- The requests to the lost peer end, and every group of the partition is told. -/
theorem onCores_quiesce (p q : Nat) (s0 : State) : let s1 := (peerReqs s0 p (· == q)).foldl (fun t r => failReq t r 0x16) s0
    OnCores s0 ((partCtxs s1 p).foldl (fun t h => modGroupsOf t h fun _ _ g => g.pendTrap { cause := 0x16 }) s1) :=
  (OnCores.foldl (fun _ _ => onCores_failReq ..) ..).trans (.foldl (fun _ _ => onCores_modGroupsOf ..) ..)

/-- Steps 3 to 5 of a quiesce: its peer is lost, and the session with it is gone. -/
theorem quiesceStop_leaves (s : State) (p q : Nat) : let u := quiesceStop s p q
    u.svc.quiesce = some (p, q, true) ∧ tget none (u.part p).sessions q = none ∧ q ∈ u.lostPeers := by
  refine ⟨rfl, ?_, ?_⟩
  · change tget none ((modPart _ p fun r => { r with sessions := tset none r.sessions q none }).part p).sessions q = none
    rw [part_modPart, if_pos rfl, tget_tset_self]
  · have h := (onCores_quiesce p q { s with
      lostPeers := dedup (s.lostPeers ++ [q])
      ports := tmapv (fun r : Port => { r with outQ := r.outQ.filter fun k => !(decide (8 ≤ k.typ) && k.dest == q) }) s.ports }).lostPeers
    rw [quiesceStop]
    exact h ▸ (mem_dedup ..).mpr (List.mem_append_right _ (List.mem_singleton_self q))

/-! ## FAB_SESSION -/

/-- No other partition holds the session's number with that peer. -/
theorem session_free {s : State} {k q r : Nat} (h : ∀ o, o < 12 → o ≠ k → ∀ e, tget none (s.part o).sessions q = some e → e.1 ≠ r) :
    ((List.range 12).any fun o => o != k && (match tget none (s.part o).sessions q with | some x => x.1 == r | none => false)) = false := by
  rw [List.any_eq_false]
  intro o ho hx
  obtain ⟨hk, hm⟩ := (Bool.and_eq_true _ _).mp hx
  cases hs : tget none (s.part o).sessions q with
  | none => rw [hs] at hm; cases hm
  | some e =>
    rw [hs] at hm
    exact h o (List.mem_range.mp ho) (by simpa using hk) e hs (by simpa using hm)

/-- A FAB_KEY of an action ends as its own checks say. -/
theorem keyEnds {i : Instr} {s : State} {action code : Nat} {busy denied : Port → Bool} {f : Port → List Byte → List Byte → Port} {E : State → Prop} (u : State)
    (hx : exec i s = .next (keyCommand s action busy denied f)) (h3 : action ≠ 3) (ha : bits (mboxArg s 0) 9 8 = action)
    (hf : onlyFields (mboxArg s 0) [(9, 8), (3, 0)] = true) (hp : bits (mboxArg s 0) 3 0 < 14)
    (hu : (if busy (s.port (bits (mboxArg s 0) 3 0)) then mboxDone (keysTaken s) 1 else if denied (s.port (bits (mboxArg s 0) 3 0)) then mboxDone (keysTaken s) 3
      else mboxDone (modPort (keysTaken s) (bits (mboxArg s 0) 3 0) fun q => f q (mboxBytes s 0 32) (mboxBytes s 32 32)) 0) = mboxDone u code)
    (hl : u.svc.lastCmd = 0x51) (hE : E (mboxDone u code)) : Ends i 0x51 code s E := by
  intro hb
  refine ⟨mboxDone u code, by rw [hx, keyCommand_eq hb ha h3 hf hp, hu], ?_, ?_, ?_, hE⟩ <;> rw [mboxDone_eq]
  exact hl

/-- The keys of a command that loads them stand in the port of its argument. -/
theorem keyLoaded (s : State) (p : Nat) (f : Port → Port) : (mboxDone (modPort (keysTaken s) p f) 0).port p = f (s.port p) := by
  rw [mboxDone_port, port_modPort, if_pos rfl]
  rfl

theorem modPort_svc (s : State) (p : Nat) (f : Port → Port) : (modPort s p f).svc = s.svc := rfl

/-- The buffer holds them no more. -/
theorem keysGone (s : State) (p : Nat) (f : Port → Port) (c : Nat) : mboxBytes (mboxDone (modPort (keysTaken s) p f) c) 0 64 = List.replicate 64 0 :=
  keysTaken_zero (by rw [mboxDone_data, modPort_svc])

/-- A quiesce is asked for. -/
theorem fabQuiesce_takes {s : State} (hq : s.svc.quiesce = none) (hf : onlyFields (mboxArg s 0) [(51, 48), (5, 0)] = true) (hk : bits (mboxArg s 0) 51 48 < 12)
    (hb : s.svc.busy = false) : exec .fabQuiesce s = .next
      (if (tget none (s.part (bits (mboxArg s 0) 51 48)).sessions (bits (mboxArg s 0) 5 0)).isNone then mboxDone (taken s 0x52) 0
       else { taken s 0x52 with svc := { (taken s 0x52).svc with quiesce := some (bits (mboxArg s 0) 51 48, bits (mboxArg s 0) 5 0, false) } }) := by
  rw [show exec .fabQuiesce s = execFabQuiesce s from rfl, execFabQuiesce, hq]
  dsimp only
  rw [mboxTake_free hb]
  change Host.Outcome.next (if (!onlyFields (mboxArg s 0) [(51, 48), (5, 0)] || decide (12 ≤ bits (mboxArg s 0) 51 48)) = true then _ else _) = _
  rw [hf, if_neg (by simp only [Bool.not_true, Bool.false_or, decide_eq_true_eq]; omega)]
  rfl

/-- Settles O59: each command passes its checks, or meets the one that its case names. -/
theorem fabricCommands : Obligations.FabricCommands := by
  intro s
  refine ⟨fun hf hps => ?_, fun ⟨ha, hf, hp⟩ hrx hold => ⟨fun h0 => ?_, fun h0 => ?_⟩,
    fun ⟨ha, hf, hp⟩ => ⟨fun hrx => ?_, fun hrx => ?_⟩, fun ⟨ha, hf, hp⟩ => ⟨fun htx => ?_, fun htx => ?_⟩,
    fun hq hf hk => ⟨fun hs => ?_, fun hs => ?_⟩, fun k q hq hr => ?_, fun k q hq ht => ?_, fun h1 h2 hk hr hs => ?_⟩
  · have hno : ((List.range 14).filter (bit (mboxArg s 0))).any (cannotTrain s) = false := List.any_eq_false.mpr fun k hk => by rw [hps k hk]; decide
    have trains : ∀ (pos : Option (Nat × Nat)), ∀ k ∈ (List.range 14).filter (bit (mboxArg s 0)),
        (mboxDone (inTraining s pos) 0).port k = training s k (s.port k) := fun pos k hk => by rw [mboxDone_port, port_inTraining s pos k hk]
    refine ⟨fun hset hpos => fabTrain_ends s.position (by rw [hset]; rfl) hf ?_ ⟨?_, fun k hk => ?_⟩, fun hset h0 => fabTrain_ends _ rfl hf ?_ ⟨?_, fun k hk => ?_⟩⟩
    · rw [hset, hno, Option.isNone_eq_false_iff.mpr hpos]
      rfl
    · rw [mboxDone_position, inTraining_rest]
    · rw [trains _ k hk]
      exact ⟨rfl, rfl, rfl, rfl⟩
    · rw [hset, hno, List.any_eq_false.mpr fun k hk => by rw [h0 k (List.mem_range.mp hk)]; decide]
      rfl
    · rw [mboxDone_position, inTraining_rest, hset]
      rfl
    · rw [trains _ k hk]
      exact ⟨rfl, rfl, rfl, rfl⟩
  · refine keyEnds _ rfl (by decide) ha hf hp (by rw [hrx, hold, h0]; rfl) rfl ?_
    intro q
    have hq : q = _ := keyLoaded ..
    rw [hq]
    exact ⟨rfl, rfl, rfl, rfl, rfl, rfl, keysGone ..⟩
  · refine keyEnds (keysTaken s) rfl (by decide) ha hf hp ?_ rfl (by rw [mboxDone_port]; rfl)
    rw [hrx, hold, if_neg (by decide), if_pos (by simpa using h0)]
  · refine keyEnds _ rfl (by decide) ha hf hp (by rw [hrx]; rfl) rfl ?_
    intro q
    have hq : q = _ := keyLoaded ..
    rw [hq]
    exact ⟨by rw [idle_setKey, key_setKey], slot_setKey .., rfl⟩
  · exact keyEnds (keysTaken s) rfl (by decide) ha hf hp (by rw [hrx]; rfl) rfl (by rw [mboxDone_port]; rfl)
  · refine keyEnds _ rfl (by decide) ha hf hp (by rw [htx]; rfl) rfl ?_
    intro q
    have hq : q = _ := keyLoaded ..
    rw [hq]
    exact ⟨by rw [idle_setKey, key_setKey], slot_setKey .., rfl⟩
  · exact keyEnds (keysTaken s) rfl (by decide) ha hf hp (by rw [htx]; rfl) rfl (by rw [mboxDone_port]; rfl)
  · intro hb
    refine ⟨mboxDone (taken s 0x52) 0, (fabQuiesce_takes hq hf hk hb).trans (by rw [hs]; rfl), ?_, ?_, ?_, ?_⟩ <;> rw [mboxDone_eq]
    all_goals rfl
  · intro hb
    refine ⟨_, (fabQuiesce_takes hq hf hk hb).trans (by rw [if_neg (by rw [Option.isNone_eq_false_iff.mpr hs]; decide)]), rfl, rfl, rfl, rfl⟩
  · refine ⟨quiesceStop s k q, ?_, quiesceStop_leaves s k q⟩
    rw [show exec .fabQuiesce s = execFabQuiesce s from rfl, execFabQuiesce, hq]
    dsimp only
    rw [hr]
    rfl
  · refine ⟨mboxDone { s with svc := { s.svc with quiesce := none } } 0, ?_, ?_, ?_, ?_, ?_⟩
    · rw [show exec .fabQuiesce s = execFabQuiesce s from rfl, execFabQuiesce, hq]
      dsimp only
      rw [if_pos ht]
    all_goals rw [mboxDone_eq]
  · let new := if bit (mboxArg s 1) 8 then some (bits (mboxArg s 1) 3 0, bits (mboxArg s 0) 35 32, bits (mboxArg s 0) 31 0) else none
    refine ends_of (modPart (taken s 0x53) (bits (mboxArg s 0) 51 48) fun k => { k with sessions := tset none k.sessions (bits (mboxArg s 0) 45 40) new }) rfl ?_ rfl ?_
    · change (if (!onlyFields (mboxArg s 0) [(51, 48), (45, 40), (35, 32), (31, 0)] || !onlyFields (mboxArg s 1) [(8, 8), (3, 0)] ||
          decide (12 ≤ bits (mboxArg s 0) 51 48) || decide (12 ≤ bits (mboxArg s 1) 3 0)) = true then _ else
        if ((List.range 12).any fun o => o != bits (mboxArg s 0) 51 48 && (match tget none (s.part o).sessions (bits (mboxArg s 0) 45 40) with
          | some x => x.1 == bits (mboxArg s 1) 3 0 | none => false)) = true then _ else _) = _
      rw [h1, h2, session_free hs, if_neg (by simp only [Bool.not_true, Bool.false_or, Bool.or_eq_true, decide_eq_true_eq]; omega), if_neg (by decide)]
      rfl
    · rw [mboxDone_part, part_modPart, if_pos rfl, tget_tset_self]

end Sys2Proof.Machine
end

section
/-! PROOF. What a translation and a trap leave of partitions, contexts and requests (R153–R155, R257–R265). -/

set_option Elab.async false

namespace Sys2Proof.Machine

/-! ## Marks

The device writes its own memory when it marks an entry or logs a page: memory, the host's copies of its lines, the launch channels that
wait on a word of it, and the log's head. A core's translation also leaves the entry in its TLB. -/

/-- A partition but for its channels and the head of its dirty log. -/
def Part_.besideLog (q : Part_) : Part_ := { q with chans := [], logHead := 0, logOvf := false }

structure Marked (s t : State) : Prop where
  rest : t = { s with mem := t.mem, hostCached := t.hostCached, parts := t.parts, cores := t.cores }
  part : ∀ p, (t.part p).besideLog = (s.part p).besideLog

namespace Marked
variable {s t u : State}

theorem refl (s : State) : Marked s s := ⟨rfl, fun _ => rfl⟩
theorem trans (h : Marked s t) (k : Marked t u) : Marked s u := ⟨by rw [k.rest, h.rest], fun p => (k.part p).trans (h.part p)⟩
theorem foldl {α : Type} {f : State → α → State} (hf : ∀ s x, Marked s (f s x)) (xs : List α) (s : State) : Marked s (xs.foldl f s) := by
  induction xs generalizing s with
  | nil => exact refl s
  | cons x xs ih => exact (hf s x).trans (ih _)
theorem ite {c : Prop} [Decidable c] (h : Marked s t) (k : Marked s u) : Marked s (if c then t else u) := by split_ifs <;> assumption

theorem outstanding (h : Marked s t) (p : Nat) : (t.part p).outstanding = (s.part p).outstanding :=
  (congrArg Part_.outstanding (h.part p) : _)
theorem gen (h : Marked s t) (p : Nat) : (t.part p).gen = (s.part p).gen :=
  (congrArg Part_.gen (h.part p) : _)
theorem invBusy (h : Marked s t) (p : Nat) : (t.part p).invBusy = (s.part p).invBusy :=
  (congrArg Part_.invBusy (h.part p) : _)
theorem reqs (h : Marked s t) : t.reqs = s.reqs := by rw [h.rest]
theorem blocks (h : Marked s t) : t.blocks = s.blocks := by rw [h.rest]
theorem ctxs (h : Marked s t) : t.ctxs = s.ctxs := by rw [h.rest]
theorem svc (h : Marked s t) : t.svc = s.svc := by rw [h.rest]
theorem pkg (h : Marked s t) : t.pkg = s.pkg := by rw [h.rest]
end Marked

theorem marked_modPart (s : State) (p : Nat) (f : Part_ → Part_) (hf : ∀ q, (f q).besideLog = q.besideLog) : Marked s (modPart s p f) :=
  ⟨rfl, fun k => by
    rw [part_modPart]
    split_ifs with e
    · rw [e]; exact hf _
    · rfl⟩

theorem marked_modCore (s : State) (c : Nat) (f : Core → Core) : Marked s (modCore s c f) := ⟨rfl, fun _ => rfl⟩

theorem marked_putBytes (s : State) (bs : List (Nat × Byte)) : Marked s (putBytes s bs) :=
  Marked.foldl (f := fun t (e : Nat × Byte) => putByte t e.1 e.2) (fun _ _ => ⟨rfl, fun _ => rfl⟩) bs s

theorem marked_syncEval (s : State) (a n : Nat) : Marked s (syncEval s a n) := by
  refine Marked.foldl (fun t e => ?_) _ _
  unfold evalChan
  dsimp only
  split
  · exact .refl t
  · exact .ite (marked_modPart _ _ _ fun _ => rfl) (.refl t)

theorem marked_snoopOwn (s : State) (a n : Nat) : Marked s (snoopOwn s a n) := .ite (.refl s) ⟨rfl, fun _ => rfl⟩

theorem marked_devNum (s : State) (a n x : Nat) : Marked s (devNum s a n x) :=
  ((marked_snoopOwn ..).trans (marked_putBytes ..)).trans (marked_syncEval ..)

theorem marked_devBytes (s : State) (a : Nat) (bs : List Byte) : Marked s (devBytes s a bs) :=
  ((marked_snoopOwn ..).trans (marked_putBytes ..)).trans (marked_syncEval ..)

theorem marked_logDirty (s : State) (p va n : Nat) : Marked s (logDirty s p va n) := by
  unfold logDirty
  dsimp only
  exact .ite (.refl s) (.ite (marked_modPart _ _ _ fun _ => rfl) ((marked_devNum ..).trans (marked_modPart _ _ _ fun _ => rfl)))

theorem marked_notePte (s : State) (p va : Nat) (acc : Acc) (e : TlbEntry) : Marked s (notePte s p va acc e) := by
  unfold notePte
  dsimp only
  generalize (memRead s e.leaf 8 ||| 2 ^ 10) ||| (if (writes acc && !e.dirty) = true then 2 ^ 11 else 0) = x
  exact .ite (.refl s) (.ite ((marked_devNum ..).trans (marked_logDirty ..)) (marked_devNum ..))

theorem marked_noteXl (s : State) (c p va : Nat) (acc : Acc) (x : Xl) : Marked s (noteXl s c p va acc x) :=
  (marked_notePte s p va acc x.entry).trans (marked_modCore ..)

theorem marked_readTable (s : State) (k n : Nat) : Marked s (readTable s k n).1 := by
  unfold readTable
  dsimp only
  split
  · exact marked_noteXl ..
  · exact .refl s

theorem marked_noteHandler (s : State) (k cause : Nat) : Marked s (noteHandler s k cause) := by
  rw [noteHandler_eq]
  exact .ite (.refl s) (.ite (marked_readTable ..) ((marked_readTable ..).trans (marked_readTable ..)))

/-! ## What waits for a fault's reply

Groups, COPYs and saves wait for replies to the faults that they have reported. -/

/-- From s to t nothing waits for other replies. -/
structure SameFaults (s t : State) : Prop where
  ids    : ∀ k j, (t.group k j).faultIds = (s.group k j).faultIds ∧ (t.group k j).pfParked = (s.group k j).pfParked
  copies : ∀ k, (t.block k).copies = (s.block k).copies
  saves  : ∀ h, (t.context h).saveFault = (s.context h).saveFault
  asked  : ∀ p, (t.part p).outstanding = (s.part p).outstanding

namespace SameFaults
variable {s t u : State}

theorem refl (s : State) : SameFaults s s := ⟨fun _ _ => ⟨rfl, rfl⟩, fun _ => rfl, fun _ => rfl, fun _ => rfl⟩
theorem trans (h : SameFaults s t) (k : SameFaults t u) : SameFaults s u :=
  ⟨fun x y => ⟨(k.ids x y).1.trans (h.ids x y).1, (k.ids x y).2.trans (h.ids x y).2⟩, fun x => (k.copies x).trans (h.copies x),
    fun x => (k.saves x).trans (h.saves x), fun x => (k.asked x).trans (h.asked x)⟩
end SameFaults

theorem sameFaults_modGroup (s : State) (b g : Nat) (f : Group → Group)
    (hf : (f (s.group b g)).faultIds = (s.group b g).faultIds ∧ (f (s.group b g)).pfParked = (s.group b g).pfParked) : SameFaults s (modGroup s b g f) where
  ids := fun k j => by
    by_cases e : k = b ∧ j = g
    · obtain ⟨rfl, rfl⟩ := e; rw [group_modGroup_self]; exact hf
    · rw [group_modGroup_ne s b g f k j e]; exact ⟨rfl, rfl⟩
  copies := fun k => (congrArg Block.copies ((upd_modGroup s b g f).block k) : _)
  saves := fun _ => rfl
  asked := fun _ => rfl

theorem Marked.sameFaults {s t : State} (h : Marked s t) : SameFaults s t where
  ids := fun k j => by simp only [State.group, State.block, h.blocks, and_self]
  copies := fun k => by simp only [State.block, h.blocks]
  saves := fun k => by simp only [State.context, h.ctxs]
  asked := h.outstanding

theorem sameFaults_stopContext (s : State) (b g c d pc : Nat) : SameFaults s (stopContext s b g c d pc) where
  ids := fun k j => by rw [group_stopContext]; split_ifs <;> exact ⟨rfl, rfl⟩
  copies := fun k => by
    unfold stopContext State.block
    dsimp only [modCtx]
    rw [tget_tmapv_mem]
    split_ifs with hk
    · rfl
    · rfl
    · rw [tget_absent _ _ _ hk]
  saves := fun h => by
    unfold stopContext
    dsimp only [modCtx, State.context]
    rw [tget_tmod]
    by_cases e : h = (s.block b).ctx
    · rw [if_pos e, ← e]; split <;> rfl
    · rw [if_neg e]
  asked := fun _ => rfl

theorem sameFaults_enterHandler (s : State) (b g a : Nat) (m : Mask) : SameFaults s (enterHandler s b g a m) := by
  have hd : SameFaults s (dropWaits s b g) := ⟨fun _ _ => ⟨rfl, rfl⟩, fun _ => rfl, fun h => by
    unfold dropWaits
    dsimp only
    rw [context_modCtx]
    split_ifs with e
    · rw [e]; rfl
    · rfl, fun _ => rfl⟩
  unfold enterHandler renormalise
  dsimp only
  have h1 := hd.trans (sameFaults_modGroup (dropWaits s b g) b g (fun q =>
    { q with trapMode := true, handlerSet := m, rteHeld := 0, rteNextM := 0 }.mapLanes m fun _ l =>
      { l with lpc := w64 (landing s b a), lap := l.lap + 1, park := {} }) ⟨rfl, rfl⟩)
  split_ifs
  · exact h1
  · exact h1.trans (sameFaults_modGroup _ _ _ _ ⟨rfl, rfl⟩)

/-- Taking a trap reports no fault and answers none. -/
theorem sameFaults_takeTrap (s : State) (b g pc : Nat) (t : TrapReq) : SameFaults s (takeTrap s b g pc t) := by
  have h0 : SameFaults s (trapRecord s b g pc t) := by
    unfold trapRecord Group.mapLanes
    exact sameFaults_modGroup _ _ _ _ ⟨rfl, rfl⟩
  have h1 := h0.trans (marked_noteHandler (trapRecord s b g pc t) b t.cause).sameFaults
  rcases takeTrap_cases s b g pc t with ⟨-, e⟩ | ⟨-, ⟨c, -, e⟩ | ⟨-, e⟩ | ⟨h, -, e⟩⟩ <;> rw [e]
  · exact h0.trans (sameFaults_stopContext ..)
  · exact h1.trans (sameFaults_stopContext ..)
  · exact h1.trans (sameFaults_stopContext ..)
  · split_ifs
    · exact h1.trans (sameFaults_stopContext ..)
    · exact h1.trans (sameFaults_enterHandler ..)

end Sys2Proof.Machine
end

section
/-! PROOF. The host's registers, and its replies to faults (R72, R154, R156, R260, R261). -/

set_option Elab.async false

namespace Sys2Proof.Machine

/-! ## A fold between two states -/

theorem foldl_stays {α β : Type} {f : β → α → β} {y : β} (hy : ∀ a, f y a = y) (l : List α) : l.foldl f y = y := by
  induction l with
  | nil => rfl
  | cons a l ih => rw [List.foldl_cons, hy, ih]

/-- A fold whose steps leave x or go to y, from which no step leads, ends in x or y. -/
theorem foldl_either {α β : Type} {f : β → α → β} {x y : β} (hx : ∀ a, f x a = x ∨ f x a = y) (hy : ∀ a, f y a = y) (l : List α) :
    l.foldl f x = x ∨ l.foldl f x = y := by
  induction l with
  | nil => exact .inl rfl
  | cons a l ih =>
    rw [List.foldl_cons]
    rcases hx a with e | e <;> rw [e]
    · exact ih
    · exact .inr (foldl_stays hy l)

/-- With a step to y among them it ends in y. -/
theorem foldl_reaches {α β : Type} {f : β → α → β} {x y : β} (hx : ∀ a, f x a = x ∨ f x a = y) (hy : ∀ a, f y a = y) {l : List α} {a : α}
    (ha : a ∈ l) (h : f x a = y) : l.foldl f x = y := by
  induction l with
  | nil => cases ha
  | cons b l ih =>
    rw [List.foldl_cons]
    rcases List.mem_cons.mp ha with rfl | ha
    · rw [h, foldl_stays hy]
    · rcases hx b with e | e <;> rw [e]
      · exact ih ha
      · exact foldl_stays hy l

/-! ## Replies to a parked group -/

/-- What a reply does at one group. -/
def answerGroup (id : Nat) (abort : Bool) (b : Nat) (s : State) (g : Nat) : State :=
  if (s.group b g).faultIds.any fun f => f.id == id && !f.replied then
    faultAnswered (modGroup s b g fun q => { q with faultIds := q.faultIds.map fun f => if f.id = id then { f with replied := true, abort := abort } else f }) b g
  else s

/-- A group that the fault is not one of. -/
theorem answerGroup_other {id : Nat} {abort : Bool} {b : Nat} {s : State} {g : Nat} (h : ∀ e ∈ (s.group b g).faultIds, e.id ≠ id) : answerGroup id abort b s g = s := by
  rw [answerGroup, if_neg]
  simp only [List.any_eq_true, Bool.and_eq_true, beq_iff_eq, not_exists, not_and]
  exact fun e he hid _ => h e he hid

/-- The group's fault is answered, and the group goes on. -/
def groupTold (id : Nat) (abort : Bool) (s : State) (b g : Nat) : State :=
  modGroup s b g fun q => { q with faultIds := q.faultIds.map fun f => if f.id = id then { f with replied := true, abort := abort } else f }
def groupFreed (id : Nat) (abort : Bool) (s : State) (b g : Nat) : State :=
  modGroup (groupTold id abort s b g) b g fun q => { q with pfParked := false, faultIds := [] }

theorem group_groupTold (id : Nat) (abort : Bool) (s : State) (b g : Nat) : (groupTold id abort s b g).group b g =
    { s.group b g with faultIds := (s.group b g).faultIds.map fun f => if f.id = id then { f with replied := true, abort := abort } else f } :=
  group_modGroup_self ..

theorem group_groupFreed (id : Nat) (abort : Bool) (s : State) (b g : Nat) : (groupFreed id abort s b g).group b g =
    { s.group b g with pfParked := false, faultIds := [] } := by
  rw [groupFreed, group_modGroup_self, group_groupTold]

theorem upd_groupFreed (id : Nat) (abort : Bool) (s : State) (b g : Nat) : Upd s (groupFreed id abort s b g) b g := (upd_modGroup ..).trans (upd_modGroup ..)

/-- Where a fault is taken that was answered with an abort. -/
def answerPc (s : State) (b g : Nat) : Nat := match (s.group b g).replay with | some e => e.1.toNat | none => (s.group b g).trapPc.toNat

/-- A group on its chip whose one fault has been answered. -/
theorem faultAnswered_one {b : Nat} {s : State} {g : Nat} {f : FaultId} (hf : (s.group b g).faultIds = [f])
    (hr : f.replied = true) (hp : (s.group b g).pfParked = true) (hs : (s.group b g).stopped = false) (hb : (s.block b).resident = true) :
    faultAnswered s b g = (let s1 := modGroup s b g fun q => { q with pfParked := false, faultIds := [] }
      if f.abort then takeTrap s1 b g (answerPc s b g) { cause := 0x0A, fm := f.lanes, cm := f.lanes, va := f.va } else s1) := by
  have h0 : (0 : Mask) ||| f.lanes = f.lanes := BitVec.zero_or
  unfold faultAnswered
  dsimp only
  rw [hf, hp, hs, hb]
  cases ha : f.abort
  · simp only [List.any_cons, List.any_nil, List.all_cons, List.all_nil, hr, ha, Bool.not_true, Bool.or_false, Bool.not_false, Bool.and_true,
      Bool.false_eq_true, if_false, if_true]
  · simp only [List.any_cons, List.any_nil, List.all_cons, List.all_nil, hr, ha, Bool.not_true, Bool.or_false, Bool.and_true,
      Bool.false_eq_true, if_false, if_true, List.foldl_cons, List.foldl_nil, h0, List.filter_cons, List.filter_nil, List.flatMap_cons,
      List.flatMap_nil, List.append_nil] <;> rfl

/-- The group that waits for the fault alone: it goes on, or takes its trap. -/
theorem answerGroup_it {id : Nat} (abort : Bool) {b : Nat} {s : State} {g : Nat} {f : FaultId} (hf : (s.group b g).faultIds = [f]) (hid : f.id = id)
    (hr : f.replied = false) (hp : (s.group b g).pfParked = true) (hs : (s.group b g).stopped = false) (hb : (s.block b).resident = true) :
    ∃ pc, answerGroup id abort b s g = if abort then takeTrap (groupFreed id abort s b g) b g pc { cause := 0x0A, fm := f.lanes, cm := f.lanes, va := f.va }
      else groupFreed id abort s b g := by
  have hq := group_groupTold id abort s b g
  rw [hf, List.map_singleton, if_pos hid] at hq
  have hb' : ((groupTold id abort s b g).block b).resident = true := ((congrArg Block.resident ((upd_modGroup s b g _).block b) : _) : _ = _).trans hb
  have h1 : answerGroup id abort b s g = faultAnswered (groupTold id abort s b g) b g := by
    rw [answerGroup, if_pos (by rw [hf]; simp [hid, hr])]
    rfl
  refine ⟨answerPc (groupTold id abort s b g) b g, ?_⟩
  rw [h1]
  exact faultAnswered_one (f := { f with replied := true, abort := abort }) (by rw [hq]) rfl (by rw [hq]; exact hp) (by rw [hq]; exact hs) hb'

/-- Where no other group, no COPY and no save waits for the fault, a reply reaches the group alone. -/
theorem faultReply_eq {s : State} {p id b g : Nat} (abort : Bool) {f : FaultId} (hout : id ∈ (s.part p).outstanding) (hpart : (s.context (s.block b).ctx).part = p)
    (hctx : (s.block b).ctx ∈ partCtxs s p) (hblk : b ∈ blocksOf s (s.block b).ctx) (hgrp : g ∈ tkeys (s.block b).groups)
    (hf : (s.group b g).faultIds = [f]) (hid : f.id = id) (hr : f.replied = false) (hp : (s.group b g).pfParked = true)
    (hs : (s.group b g).stopped = false) (hb : (s.block b).resident = true)
    (hother : ∀ k j, ¬(k = b ∧ j = g) → ∀ e ∈ (s.group k j).faultIds, e.id ≠ id) (hcopy : ∀ k, ∀ e ∈ (s.block k).copies, e.parked ≠ some id)
    (hsave : ∀ h, (s.context h).saveFault ≠ some id) : let s1 := modPart s p fun q => { q with outstanding := q.outstanding.filter (· ≠ id) }
    ∃ pc, faultReply s p id abort = if abort then takeTrap (groupFreed id abort s1 b g) b g pc { cause := 0x0A, fm := f.lanes, cm := f.lanes, va := f.va }
      else groupFreed id abort s1 b g := by
  intro s1
  obtain ⟨pc, hy⟩ := answerGroup_it (s := s1) abort hf hid hr hp hs hb
  refine ⟨pc, ?_⟩
  set y := if abort then takeTrap (groupFreed id abort s1 b g) b g pc { cause := 0x0A, fm := f.lanes, cm := f.lanes, va := f.va } else groupFreed id abort s1 b g with hydef
  have hfree : SameFaults (groupFreed id abort s1 b g) y := by
    rw [hydef]
    split_ifs
    · exact sameFaults_takeTrap ..
    · exact .refl _
  have hu := upd_groupFreed id abort s1 b g
  have hyids : ∀ k j, ∀ e ∈ (y.group k j).faultIds, e.id ≠ id := by
    intro k j e he
    rw [(hfree.ids k j).1] at he
    by_cases hkj : k = b ∧ j = g
    · obtain ⟨rfl, rfl⟩ := hkj
      rw [group_groupFreed] at he
      cases he
    · rw [hu.group k j hkj] at he
      exact hother k j hkj e he
  have hystay : ∀ k j, answerGroup id abort k y j = y := fun k j => answerGroup_other (hyids k j)
  have hstep : ∀ k j, answerGroup id abort k s1 j = s1 ∨ answerGroup id abort k s1 j = y := by
    intro k j
    by_cases hkj : k = b ∧ j = g
    · obtain ⟨rfl, rfl⟩ := hkj
      exact .inr hy
    · exact .inl (answerGroup_other (hother k j hkj))
  have hgroups : replyGroups s1 p id abort = y := by
    refine foldl_reaches (f := fun s h => (blocksOf s h).foldl (fun s b => (tkeys (s.block b).groups).foldl (answerGroup id abort b) s) s) (fun h => ?_) (fun h => ?_) hctx ?_
    · exact foldl_either (fun k => foldl_either (hstep k) (hystay k) _) (fun k => foldl_stays (hystay k) _) _
    · exact foldl_stays (fun k => foldl_stays (hystay k) _) _
    · exact foldl_reaches (fun k => foldl_either (hstep k) (hystay k) _) (fun k => foldl_stays (hystay k) _) hblk
        (foldl_reaches (hstep b) (hystay b) hgrp hy)
  have hcopies : replyCopies y p id abort = y := by
    refine foldl_stays (fun k => ?_) _
    have hnone : ((y.block k).copies.filter fun j => j.parked == some id) = [] := by
      rw [List.filter_eq_nil_iff, hfree.copies, hu.copies]
      exact fun e he hpk => hcopy k e he (by simpa using hpk)
    rw [hnone]
    exact ite_self _
  have hsaves : replySaves y p id abort = y := by
    have hnone : ((partCtxs y p).filter fun h => (y.context h).saveFault == some id) = [] := by
      rw [List.filter_eq_nil_iff]
      intro h _ hsv
      rw [hfree.saves, hu.context] at hsv
      exact hsave h (beq_iff_eq.mp hsv)
    rw [replySaves, hnone]
    rfl
  rw [faultReply, if_neg (by simpa using hout)]
  change replySaves (replyCopies (replyGroups s1 p id abort) p id abort) p id abort = y
  rw [hgroups, hcopies, hsaves]

/-! ## Invalidations -/

/-- What an invalidation leaves that the host starts. -/
theorem startInval_leaves (s : State) (p : Nat) (va : Option Nat) : let u := startInval s p va
    u = { s with parts := u.parts, cores := u.cores } ∧ u.part p = { s.part p with gen := ((s.part p).gen + 1) % 256, invBusy := true } ∧
      ∀ c e, e ∈ (u.core c).tlb → e.2.part = p → ∃ a, va = some a ∧ e.1 * 4096 / e.2.size ≠ a / e.2.size := by
  refine ⟨rfl, by rw [part_startInval, part_modPart, if_pos rfl], fun c e he hp => ?_⟩
  have hc : ((startInval s p va).core c).tlb = _ := core_dropTlb (modPart s p fun q => { q with gen := (q.gen + 1) % 256, invBusy := true }) p va c
  rw [hc] at he
  obtain ⟨-, h⟩ := List.mem_filter.mp he
  rw [hp] at h
  cases va with
  | none => simp at h
  | some a => exact ⟨a, rfl, by simpa using h⟩

/-- A held request is translated again: its page still migrates, or it goes on. -/
def releaseAs (s : State) (r : Req) (acc : Acc) (p : Nat) (x : Xl) : State :=
  if x.hold then modReq s r.id fun r => { r with gen := (s.part p).gen }
  else modReq (if r.core < Config.cores then noteXl s r.core p r.va acc x else notePte s p r.va acc x.entry) r.id fun r => { r with
    hold := false, gen := (s.part p).gen, place := if x.tier then .host (x.pa / 64 * 64) else .home (x.pa / 64 * 64) }

theorem besideLog_releaseAs (s : State) (r : Req) (acc : Acc) (p : Nat) (x : Xl) (k : Nat) :
    ((releaseAs s r acc p x).part k).besideLog = (s.part k).besideLog := by
  unfold releaseAs
  by_cases hx : x.hold = true
  · rw [if_pos hx]; rfl
  · rw [if_neg hx]
    exact (Marked.ite (marked_noteXl ..) (marked_notePte ..)).part k

/-- One step of what an acknowledged invalidation does for held requests. -/
def releaseStep (p : Nat) (s : State) (id : Nat) : State :=
  match s.reqs.find? fun r => r.id == id with
  | none => s
  | some r => 
    let acc := if r.kind = .atomic then (if r.dest.isSome then Acc.atomic else .red) else .write
    match xlate s r.core p r.va acc false with
    | .error _ => s
    | .ok x => releaseAs s { r with id := id } acc p x

theorem besideLog_releaseStep (p : Nat) (s : State) (id k : Nat) : ((releaseStep p s id).part k).besideLog = (s.part k).besideLog := by
  unfold releaseStep
  split
  · rfl
  · dsimp only
    split
    · rfl
    · exact besideLog_releaseAs ..

/-- The requests that page migration held leave a partition as it was but for its log and its channels. -/
theorem besideLog_releaseHeld (s : State) (p k : Nat) : ((releaseHeld s p).part k).besideLog = (s.part k).besideLog := by
  have e : releaseHeld s p = ((s.reqs.filter fun r => r.part == p && migrating r).map fun r => r.id).foldl (releaseStep p) s := rfl
  rw [e]
  clear e
  generalize ((s.reqs.filter fun r => r.part == p && migrating r).map fun r => r.id) = ids
  induction ids generalizing s with
  | nil => rfl
  | cons id ids ih => rw [List.foldl_cons, ih]; exact besideLog_releaseStep p s id k

/-! ## The configuration of a ring -/

theorem dirtyLogCfgWrite_leads {s : State} {p : Nat} (hp : p < 12) (v : W64) : let q := s.part p; let x := v.toNat
    let size := if q.logEnable then q.logSize else bits x 43 40
    let base := if q.logEnable then q.logBase else bits x 38 12
    let bad := bit x 63 && !q.logEnable && !ringOk s p (4096 * base) (8 * 2 ^ (size + 9))
    (bad = true → exec (.dirtyLogCfgWrite p v) s = .next s) ∧
    (bad = false → Leads (.dirtyLogCfgWrite p v) s fun u => u = { s with parts := u.parts } ∧
      u.part p = { q with logEnable := bit x 63, logSize := size, logBase := base, logOvf := q.logOvf && !bit x 0 }) := by
  intro q x size base bad
  have hin : ¬ Config.partitions ≤ p := Nat.not_le.mpr hp
  have hrun : exec (.dirtyLogCfgWrite p v) s = .next (if Config.partitions ≤ p then s else if bad = true then s
    else modPart s p fun q => { q with logEnable := bit x 63, logSize := size, logBase := base, logOvf := q.logOvf && !bit x 0 }) := rfl
  rw [if_neg hin] at hrun
  refine ⟨fun hb => by rw [hrun, if_pos hb], fun hb => ⟨_, hrun.trans (by rw [if_neg (by simp [hb])]), rfl, ?_⟩⟩
  rw [part_modPart, if_pos rfl]

theorem faultRingCfgWrite_leads {s : State} {p : Nat} (hp : p < 12) (v : W64) : let q := s.part p; let x := v.toNat
    let size := if q.ringEnable then q.ringSize else bits x 43 40
    let base := if q.ringEnable then q.ringBase else bits x 38 12
    let bad := bit x 63 && !q.ringEnable && !ringOk s p (4096 * base) (16 * 2 ^ (size + 8))
    (bad = true → exec (.faultRingCfgWrite p v) s = .next s) ∧
    (bad = false → Leads (.faultRingCfgWrite p v) s fun u => u = { s with parts := u.parts } ∧
      u.part p = { q with ringEnable := bit x 63, ringSize := size, ringBase := base }) := by
  intro q x size base bad
  have hin : ¬ Config.partitions ≤ p := Nat.not_le.mpr hp
  have hrun : exec (.faultRingCfgWrite p v) s = .next (if Config.partitions ≤ p then s else if bad = true then s
    else modPart s p fun q => { q with ringEnable := bit x 63, ringSize := size, ringBase := base }) := rfl
  rw [if_neg hin] at hrun
  refine ⟨fun hb => by rw [hrun, if_pos hb], fun hb => ⟨_, hrun.trans (by rw [if_neg (by simp [hb])]), rfl, ?_⟩⟩
  rw [part_modPart, if_pos rfl]

/-! ## Invalidations of the host -/

theorem hostInval_busy {s : State} {p : Nat} (hp : p < 12) (hb : (s.part p).invBusy = true) (ok : Bool) (va : Option Nat) :
    hostInval s p ok va = modPart s p fun q => { q with invRefused := true } := by
  rw [hostInval, if_neg (Nat.not_le.mpr hp : ¬ Config.partitions ≤ p), hb, Bool.true_or, if_pos rfl]

theorem hostInval_free {s : State} {p : Nat} (hp : p < 12) (hb : (s.part p).invBusy = false) {ok : Bool} (hok : ok = true) (va : Option Nat) :
    hostInval s p ok va = startInval s p va := by
  rw [hostInval, if_neg (Nat.not_le.mpr hp : ¬ Config.partitions ≤ p), hb, hok, Bool.not_true, Bool.or_false, if_neg Bool.false_ne_true]

theorem part_refused (s : State) (p : Nat) : (modPart s p fun q => { q with invRefused := true }).part p = { s.part p with invRefused := true } := by
  rw [part_modPart, if_pos rfl]

theorem tlbinvAddr_leads {s : State} {p : Nat} (hp : p < 12) (v : W64) : let q := s.part p
    let starts := fun (u : State) => u = { s with parts := u.parts, cores := u.cores } ∧ u.part p = { q with gen := (q.gen + 1) % 256, invBusy := true }
    (q.invBusy = false → v.toNat % 4 = 0 → Leads (.tlbinvAddrPage p v) s fun u => starts u ∧
      ∀ c e, e ∈ (u.core c).tlb → e.2.part = p → e.1 * 4096 / e.2.size ≠ v.toNat / 4096 * 4096 / e.2.size) ∧
    (q.invBusy = false → Leads (.tlbinvAddrAll p) s fun u => starts u ∧ ∀ c e, e ∈ (u.core c).tlb → e.2.part ≠ p) ∧
    (q.invBusy = true → (Leads (.tlbinvAddrPage p v) s fun u => u = { s with parts := u.parts } ∧ u.part p = { q with invRefused := true }) ∧
      Leads (.tlbinvAddrAll p) s fun u => u = { s with parts := u.parts } ∧ u.part p = { q with invRefused := true }) := by
  intro q starts
  refine ⟨fun hb hv => ?_, fun hb => ?_, fun hb => ⟨⟨_, congrArg Host.Outcome.next (hostInval_busy hp hb ..), rfl, part_refused s p⟩,
    ⟨_, congrArg Host.Outcome.next (hostInval_busy hp hb ..), rfl, part_refused s p⟩⟩⟩
  · obtain ⟨h1, h2, h3⟩ := startInval_leaves s p (some (v.toNat / 4096 * 4096))
    refine ⟨_, congrArg Host.Outcome.next (hostInval_free hp hb (by simp [hv]) _), ⟨h1, h2⟩, fun c e he hpart => ?_⟩
    obtain ⟨a, ha, hne⟩ := h3 c e he hpart
    rw [← Option.some.inj ha] at hne
    exact hne
  · obtain ⟨h1, h2, h3⟩ := startInval_leaves s p none
    refine ⟨_, congrArg Host.Outcome.next (hostInval_free hp hb rfl _), ⟨h1, h2⟩, fun c e he hpart => ?_⟩
    obtain ⟨a, ha, -⟩ := h3 c e he hpart
    cases ha

theorem tlbInvalidationAck_leads {s : State} {p : Nat} (hb : (s.part p).invBusy = true) (hold : olderGone s p = true) (hby : (s.part p).invBy = none) :
    Leads (.tlbInvalidationAck p) s fun u => (u.part p).invBusy = false ∧ (u.part p).gen = (s.part p).gen := by
  have hack : invAcked s p = modPart s p fun q => { q with invBusy := false } := by
    unfold invAcked
    dsimp only
    rw [hby]
  have hkept := besideLog_releaseHeld (modPart s p fun q => { q with invBusy := false }) p p
  rw [part_modPart, if_pos rfl] at hkept
  refine ⟨releaseHeld (invAcked s p) p, ?_, ?_⟩
  · exact congrArg Host.Outcome.next (if_pos (by rw [hb, hold]; rfl))
  · rw [hack]
    exact ⟨(congrArg Part_.invBusy hkept : _), (congrArg Part_.gen hkept : _)⟩

/-! ## Replies to faults -/

section
variable {s : State} {p id b g : Nat} {f : FaultId}

theorem not_outstanding_filter (s : State) (p id : Nat) :
    id ∉ ((modPart s p fun q => { q with outstanding := q.outstanding.filter (· ≠ id) }).part p).outstanding := by
  rw [part_modPart, if_pos rfl]
  simp

theorem faultReplyRetry_leads (hid' : id < 65536) (hout : id ∈ (s.part p).outstanding) (hpart : (s.context (s.block b).ctx).part = p)
    (hctx : (s.block b).ctx ∈ partCtxs s p) (hblk : b ∈ blocksOf s (s.block b).ctx) (hgrp : g ∈ tkeys (s.block b).groups)
    (hf : (s.group b g).faultIds = [f]) (hid : f.id = id) (hr : f.replied = false) (hp : (s.group b g).pfParked = true)
    (hs : (s.group b g).stopped = false) (hb : (s.block b).resident = true) (ht : (s.group b g).trapMode = false)
    (hother : ∀ k j, ¬(k = b ∧ j = g) → ∀ e ∈ (s.group k j).faultIds, e.id ≠ id) (hcopy : ∀ k, ∀ e ∈ (s.block k).copies, e.parked ≠ some id)
    (hsave : ∀ h, (s.context h).saveFault ≠ some id) :
    Leads (.faultReplyRetry p id) s fun u => id ∉ (u.part p).outstanding ∧ (u.group b g).pfParked = false ∧ (u.group b g).faultIds = [] ∧
      (u.group b g).trapMode = false ∧ (u.group b g).lanes = (s.group b g).lanes ∧ RegsKept (s.group b g) (u.group b g) := by
  obtain ⟨pc, h⟩ := faultReply_eq false hout hpart hctx hblk hgrp hf hid hr hp hs hb hother hcopy hsave
  rw [if_neg Bool.false_ne_true] at h
  refine ⟨_, (congrArg (fun n => Host.Outcome.next (faultReply s p n false)) (Nat.mod_eq_of_lt hid')).trans (congrArg Host.Outcome.next h), not_outstanding_filter s p id, ?_⟩
  rw [group_groupFreed]
  exact ⟨rfl, rfl, ht, rfl, rfl, rfl, rfl, rfl, rfl⟩

theorem faultReplyAbort_leads (hid' : id < 65536) (hout : id ∈ (s.part p).outstanding) (hpart : (s.context (s.block b).ctx).part = p)
    (hctx : (s.block b).ctx ∈ partCtxs s p) (hblk : b ∈ blocksOf s (s.block b).ctx) (hgrp : g ∈ tkeys (s.block b).groups)
    (hf : (s.group b g).faultIds = [f]) (hid : f.id = id) (hr : f.replied = false) (hp : (s.group b g).pfParked = true)
    (hs : (s.group b g).stopped = false) (hb : (s.block b).resident = true)
    (hother : ∀ k j, ¬(k = b ∧ j = g) → ∀ e ∈ (s.group k j).faultIds, e.id ≠ id) (hcopy : ∀ k, ∀ e ∈ (s.block k).copies, e.parked ≠ some id)
    (hsave : ∀ h, (s.context h).saveFault ≠ some id) :
    Leads (.faultReplyAbort p id) s fun u => id ∉ (u.part p).outstanding ∧ (u.group b g).pfParked = false ∧ (u.group b g).trapCause = 0x0A ∧
      (u.group b g).faultMask = f.lanes ∧ (u.group b g).causeMask = f.lanes ∧ RegsKept (s.group b g) (u.group b g) := by
  obtain ⟨pc, h⟩ := faultReply_eq true hout hpart hctx hblk hgrp hf hid hr hp hs hb hother hcopy hsave
  rw [if_pos rfl] at h
  refine ⟨_, (congrArg (fun n => Host.Outcome.next (faultReply s p n true)) (Nat.mod_eq_of_lt hid')).trans (congrArg Host.Outcome.next h), ?_⟩
  generalize ht : ({ cause := 0x0A, fm := f.lanes, cm := f.lanes, va := f.va } : TrapReq) = t
  generalize hs1 : (modPart s p fun q => { q with outstanding := q.outstanding.filter (· ≠ id) }) = s1
  have hsame := sameFaults_takeTrap (groupFreed id true s1 b g) b g pc t
  have hrec := (takeTrap_record (groupFreed id true s1 b g) b g pc t).1
  have hq : s1.group b g = s.group b g := by rw [← hs1]; rfl
  have hpk := (hsame.ids b g).2
  rw [group_groupFreed, hq] at hrec hpk
  refine ⟨?_, hpk, ?_, ?_, ?_, hrec.regs⟩
  · rw [hsame.asked]
    rw [← hs1]
    exact not_outstanding_filter s p id
  · rw [hrec.cause, ← ht]; exact (by norm_num [w64] : w64 (0 % 2 ^ 32 * 2 ^ 32 + 0 % 256 * 256 + 0x0A) = BitVec.ofNat 64 10)
  · rw [hrec.fm, ← ht]
  · rw [hrec.cm, ← ht]

theorem faultReply_none (hid : id < 65536) (hout : id ∉ (s.part p).outstanding) :
    exec (.faultReplyRetry p id) s = .next s ∧ exec (.faultReplyAbort p id) s = .next s := by
  have hid' : id < 2 ^ 16 := lt_of_lt_of_eq hid (by norm_num)
  have h : ∀ abort, faultReply s p (id % 2 ^ 16) abort = s := fun abort => by
    rw [Nat.mod_eq_of_lt hid', faultReply, if_pos (by simpa using hout)]
  exact ⟨congrArg Host.Outcome.next (h false), congrArg Host.Outcome.next (h true)⟩
end

/-! ## Reads that clear fields, and writes -/

/-- A read that returns x from the state u. -/
theorem leads_reads {i : Instr} {s : State} (u : State) {x : Nat} {E : State → Prop} (hrun : exec i s = .next (readsAs u x)) (hE : E (readsAs u x)) :
    Leads i s fun u => u.readOut = w64 x ∧ E u := ⟨_, hrun, rfl, hE⟩

theorem missCountRead_leads {s : State} {r c : Nat} (hr : r < 44) (hc : c < 3) : Leads (.missCountRead r c) s fun u =>
    u.readOut = w64 (tget 0 s.missCount (3 * r + c)) ∧ tget 0 u.missCount (3 * r + c) = 0 ∧ u.mem = s.mem := by
  have hrun : exec (.missCountRead r c) s = .next (if 44 ≤ r ∨ 3 ≤ c then readsAs s 0 else
    readsAs { s with missCount := tset 0 s.missCount (3 * r + c) 0 } (tget 0 s.missCount (3 * r + c))) := rfl
  rw [if_neg (by omega)] at hrun
  exact leads_reads _ hrun ⟨by simp only [readsAs, tget_tset, if_true], rfl⟩

theorem chStatusRead_leads {s : State} {k : Nat} (hk : k < 256) : let c := s.memChan k
    Leads (.chStatusRead k) s fun u => u.readOut = w64 (c.repaired * 2 ^ 32 + c.switches * 2 ^ 16 + c.state * 16 + b2n c.codeLock * 8 +
      b2n c.ltAllowed * 4 + c.code) ∧ u.memChan k = { c with switches := 0 } := by
  intro c
  have hrun : exec (.chStatusRead k) s = .next (if Config.channels ≤ k then readsAs s 0 else readsAs (modMemChan s k fun c => { c with switches := 0 })
    (c.repaired * 2 ^ 32 + c.switches * 2 ^ 16 + c.state * 16 + b2n c.codeLock * 8 + b2n c.ltAllowed * 4 + c.code)) := rfl
  rw [if_neg (Nat.not_le.mpr hk : ¬ Config.channels ≤ k)] at hrun
  exact leads_reads _ hrun (by simp only [readsAs, modMemChan, State.memChan, tget_tmod, if_true] <;> rfl)

theorem fabPortStatusRead_leads {s : State} {p : Nat} (hp : p < 14) : let c := s.port p
    Leads (.fabPortStatusRead p) s fun u => u.readOut = w64 (c.replays * 2 ^ 48 + c.tagFails * 2 ^ 40 + c.rtt * 2 ^ 24 + c.peer * 2 ^ 16 +
      c.epoch * 256 + c.width * 8 + c.state) ∧ u.port p = { c with replays := 0, tagFails := 0 } := by
  intro c
  have hrun : exec (.fabPortStatusRead p) s = .next (if Config.ports ≤ p then readsAs s 0 else readsAs (modPort s p fun q => { q with replays := 0, tagFails := 0 })
    (c.replays * 2 ^ 48 + c.tagFails * 2 ^ 40 + c.rtt * 2 ^ 24 + c.peer * 2 ^ 16 + c.epoch * 256 + c.width * 8 + c.state)) := rfl
  rw [if_neg (Nat.not_le.mpr hp : ¬ Config.ports ≤ p)] at hrun
  exact leads_reads _ hrun (by simp only [readsAs, modPort, State.port, tget_tmod, if_true] <;> rfl)

theorem memLatencyShapeRead_leads {s : State} {p : Nat} (hp : p < 12) : let q := s.part p
    Leads (.memLatencyShapeRead p) s fun u => u.readOut = w64 (b2n q.shapeEnable * 2 ^ 63 + q.shapeChan * 2 ^ 48 + q.shapeLate * 2 ^ 32 + q.shapeTicks) ∧
      u.part p = { q with shapeLate := 0 } := by
  intro q
  have hrun : exec (.memLatencyShapeRead p) s = .next (if Config.partitions ≤ p then readsAs s 0 else readsAs (modPart s p fun q => { q with shapeLate := 0 })
    (b2n q.shapeEnable * 2 ^ 63 + q.shapeChan * 2 ^ 48 + q.shapeLate * 2 ^ 32 + q.shapeTicks)) := rfl
  rw [if_neg (Nat.not_le.mpr hp : ¬ Config.partitions ≤ p)] at hrun
  exact leads_reads _ hrun (by simp only [readsAs, modPart, State.part, tget_tmod, if_true] <;> rfl)

/-- A write of a register that begins a doubleword reaches its function's registers. -/
theorem registerWrite_eq (s : State) (fn off : Nat) (v : W64) (hoff : off % 8 = 0) : exec (.registerWrite fn off v) s =
    .next (if fn = 0 then writeControl s off v.toNat else if fn ≤ 12 then writePart s (fn - 1) off v.toNat else s) :=
  congrArg Host.Outcome.next (if_neg (not_not.mpr hoff))

theorem registerWrite_part (s : State) (p off : Nat) (v : W64) (hp : p < 12) (hoff : off % 8 = 0) :
    exec (.registerWrite (p + 1) off v) s = .next (writePart s p off v.toNat) := by
  rw [registerWrite_eq s _ off v hoff, if_neg (Nat.succ_ne_zero p), if_pos (by omega)]
  rfl

theorem registerWrite_arg (s : State) {k : Nat} (hk : k < 4) (v : W64) :
    Leads (.registerWrite 0 (0x30008 + 8 * k) v) s fun u => u = { s with svc := u.svc } ∧ mboxArg u k = v.toNat := by
  refine ⟨_, registerWrite_eq s 0 _ v (by omega), ?_⟩
  rw [if_pos rfl, writeControl, if_neg (by omega), if_neg (by omega), if_neg (by omega), if_neg (by omega), if_neg (by omega), if_neg (by omega),
    if_pos (by omega)]
  refine ⟨rfl, ?_⟩
  have hi : (0x30008 + 8 * k - 0x30008) / 8 = k := by omega
  simp only [mboxArg, hi, tget_tset, if_true, w64]
  exact Nat.mod_eq_of_lt v.isLt

theorem registerWrite_chan (s : State) {k : Nat} (hk : k < 256) (v : W64) :
    Leads (.registerWrite 0 (0x11000 + 8 * k) v) s fun u => u = { s with memChans := u.memChans } ∧
      u.memChan k = { s.memChan k with codeLock := bit v.toNat 3, ltAllowed := bit v.toNat 2 } := by
  refine ⟨_, registerWrite_eq s 0 _ v (by omega), ?_⟩
  rw [if_pos rfl, writeControl, if_neg (by omega), if_neg (by omega), if_neg (by omega), if_pos (by omega)]
  refine ⟨rfl, ?_⟩
  have hi : (0x11000 + 8 * k - 0x11000) / 8 = k := by omega
  simp only [modMemChan, State.memChan, hi, tget_tmod, if_true]

theorem registerWrite_leads (s : State) (p fn off : Nat) (v : W64) : let x := v.toNat; let q := s.part p
    (off % 8 ≠ 0 → exec (.registerWrite fn off v) s = .next s) ∧
    (exec (.registerWrite 0 0x108 v) s = .next { s with pkg := { s.pkg with skew := s.pkg.skew && !bit x 3 } }) ∧
    (exec (.registerWrite 0 0x110 v) s = .next { s with pkg := { s.pkg with warn := s.pkg.warn && !bit x 0, crit := s.pkg.crit && !bit x 1 } }) ∧
    (exec (.registerWrite 0 0x208 v) s = .next { s with pkg := { s.pkg with pRefused := s.pkg.pRefused && !bit x 9 } }) ∧
    (∀ k, k < 4 → Leads (.registerWrite 0 (0x30008 + 8 * k) v) s fun u => u = { s with svc := u.svc } ∧ mboxArg u k = x) ∧
    (∀ k, k < 256 → Leads (.registerWrite 0 (0x11000 + 8 * k) v) s fun u => u = { s with memChans := u.memChans } ∧
      u.memChan k = { s.memChan k with codeLock := bit x 3, ltAllowed := bit x 2 }) ∧
    (p < 12 → Leads (.registerWrite (p + 1) 0x008 v) s fun u => u = { s with parts := u.parts } ∧ u.part p = { q with intMask := x &&& 0xEFFFF }) ∧
    (p < 12 → Leads (.registerWrite (p + 1) 0x130 v) s fun u => u = { s with parts := u.parts } ∧
      u.part p = { q with shapeEnable := bit x 63, shapeChan := bits x 51 48, shapeTicks := bits x 23 0 }) ∧
    (exec (.registerWrite 0 0x2001210 v) s = .next (if s.hostLink.hdmOn then s else { s with hostLink := { s.hostLink with hdmBase := x / 2 ^ 28 * 2 ^ 28 } })) ∧
    (exec (.registerWrite 0 0x2001220 v) s = .next { s with hostLink := { s.hostLink with hdmOn := bit x 9 } }) := by
  intro x q
  refine ⟨fun h => congrArg Host.Outcome.next (if_pos h), rfl, rfl, rfl, fun k hk => registerWrite_arg s hk v, fun k hk => registerWrite_chan s hk v,
    fun hp => ⟨_, registerWrite_part s p _ v hp rfl, rfl, ?_⟩, fun hp => ⟨_, registerWrite_part s p _ v hp rfl, rfl, ?_⟩, rfl, rfl⟩
  · exact (part_modPart ..).trans (if_pos rfl)
  · exact (part_modPart ..).trans (if_pos rfl)

/-- Settles O57: each write of a configuration is one assignment under its check; a reply reaches the one group that waits for it, which goes on or
enters its trap; the other registers are read and written directly. -/
theorem hostRegisters : Obligations.HostRegisters := by
  unfold Obligations.HostRegisters
  intro s p q parts reads
  refine ⟨fun hp v => dirtyLogCfgWrite_leads hp v, fun hp v => faultRingCfgWrite_leads hp v, fun hp v => tlbinvAddr_leads hp v,
    tlbInvalidationAck_leads, fun _ hold => congrArg Host.Outcome.next (if_neg (by simp [hold])), ?_, fun id hid hout => faultReply_none hid hout, rfl,
    leads_reads _ rfl rfl, fun c hp hc => missCountRead_leads hp hc, leads_reads _ rfl rfl, fun hp => chStatusRead_leads hp,
    fun hp => fabPortStatusRead_leads hp, fun hp => memLatencyShapeRead_leads hp, fun fn off v => registerWrite_leads s p fn off v, fun hpa hon hlo hhi => ?_⟩
  · intro id b g f hid hout hpart hctx hblk hgrp hf hfid hr hp hs hb ht hother hcopy hsave
    exact ⟨faultReplyRetry_leads hid hout hpart hctx hblk hgrp hf hfid hr hp hs hb ht hother hcopy hsave,
      faultReplyAbort_leads hid hout hpart hctx hblk hgrp hf hfid hr hp hs hb hother hcopy hsave⟩
  · exact if_pos ⟨hon, hlo, hhi⟩

end Sys2Proof.Machine
end

section
/-! PROOF. The steps of a resolve (R213, R221–R223). -/

set_option Elab.async false

namespace Sys2Proof.Machine

/-! ## What the home slices change

Versions and lines move between slices, vats and base dies without a change of the hypothesis trees. -/

/-- From s to t only the memories, the slices and base dies, versions, blocks and cores differ. -/
def AtHomes (s t : State) : Prop := ∃ mem hostCached parts cores blocks memStacks seq l2 evictLease versions snoops poison poisonBy,
  t = { s with mem := mem, hostCached := hostCached, parts := parts, cores := cores, blocks := blocks, memStacks := memStacks, seq := seq, l2 := l2
               evictLease := evictLease, versions := versions, snoops := snoops, poison := poison, poisonBy := poisonBy }

namespace AtHomes
variable {s t u : State}

theorem refl (s : State) : AtHomes s s := ⟨_, _, _, _, _, _, _, _, _, _, _, _, _, rfl⟩
theorem trans (h : AtHomes s t) (k : AtHomes t u) : AtHomes s u := by
  obtain ⟨_, _, _, _, _, _, _, _, _, _, _, _, _, rfl⟩ := h
  obtain ⟨_, _, _, _, _, _, _, _, _, _, _, _, _, rfl⟩ := k
  exact ⟨_, _, _, _, _, _, _, _, _, _, _, _, _, rfl⟩
theorem foldl {α : Type} {f : State → α → State} (hf : ∀ s x, AtHomes s (f s x)) (xs : List α) (s : State) : AtHomes s (xs.foldl f s) := by
  induction xs generalizing s with
  | nil => exact refl s
  | cons x xs ih => exact (hf s x).trans (ih _)
theorem ite {c : Prop} [Decidable c] (h : AtHomes s t) (k : AtHomes s u) : AtHomes s (if c then t else u) := by split_ifs <;> assumption
theorem hctxs (h : AtHomes s t) : t.hctxs = s.hctxs := by obtain ⟨_, _, _, _, _, _, _, _, _, _, _, _, _, rfl⟩ := h; rfl
end AtHomes

theorem Marked.atHomes {s t : State} (h : Marked s t) : AtHomes s t := by
  rw [h.rest]
  exact ⟨_, _, _, _, _, _, _, _, _, _, _, _, _, rfl⟩

theorem atHomes_modGroup (s : State) (b g : Nat) (f : Group → Group) : AtHomes s (modGroup s b g f) := ⟨_, _, _, _, _, _, _, _, _, _, _, _, _, rfl⟩
theorem atHomes_modGroupsOf (s : State) (h : Nat) (f : Nat → Nat → Group → Group) : AtHomes s (modGroupsOf s h f) :=
  .foldl (fun _ _ => .foldl (fun _ _ => atHomes_modGroup ..) ..) ..

/-- From s to t only the miss queues, the base dies and the next number differ. -/
def Stacked (s t : State) : Prop := ∃ memStacks seq, t = { s with memStacks := memStacks, seq := seq }

namespace Stacked
variable {s t u : State}
theorem refl (s : State) : Stacked s s := ⟨_, _, rfl⟩
theorem trans (h : Stacked s t) (k : Stacked t u) : Stacked s u := by
  obtain ⟨_, _, rfl⟩ := h
  obtain ⟨_, _, rfl⟩ := k
  exact ⟨_, _, rfl⟩
theorem foldl {α : Type} {f : State → α → State} (hf : ∀ s x, Stacked s (f s x)) (xs : List α) (s : State) : Stacked s (xs.foldl f s) := by
  induction xs generalizing s with
  | nil => exact refl s
  | cons x xs ih => exact (hf s x).trans (ih _)
theorem atHomes (h : Stacked s t) : AtHomes s t := by
  obtain ⟨_, _, rfl⟩ := h
  exact ⟨_, _, _, _, _, _, _, _, _, _, _, _, _, rfl⟩
theorem versions (h : Stacked s t) : t.versions = s.versions := by obtain ⟨_, _, rfl⟩ := h; rfl
theorem mem (h : Stacked s t) : t.mem = s.mem := by obtain ⟨_, _, rfl⟩ := h; rfl
end Stacked

/-- A step of the pump: nothing leaves, or one request does. -/
theorem pumpStack_succ (k n : Nat) (s : State) : pumpStack k (n + 1) s = match nextWait s k, stackTag s k with
    | some r, some t => pumpStack k n (modStack s k fun q => { q with waits := q.waits.filter (fun x => x.seq != r.seq), reqs := q.reqs ++ [{ r with tag := t }] })
    | _, _ => s := by rfl

theorem stacked_pumpStack (k n : Nat) (s : State) : Stacked s (pumpStack k n s) := by
  induction n generalizing s with
  | zero => exact ⟨_, _, (rfl : pumpStack k 0 s = s)⟩
  | succ n ih =>
    rw [pumpStack_succ]
    split
    · refine .trans ?_ (ih _)
      exact ⟨_, _, rfl⟩
    · exact .refl s

theorem stacked_sendStack (s : State) (k : Nat) (r : StackReq) : Stacked s (sendStack s k r) :=
  Stacked.trans (t := modStack { s with seq := s.seq + 1 } k fun q =>
    { q with waits := q.waits ++ [{ r with full := r.deadline, deadline := r.deadline % 2 ^ 32, seq := s.seq }] }) ⟨_, _, rfl⟩ (stacked_pumpStack ..)

/-- A write that reaches its line, or the base die, changes no byte of memory and no version by itself. -/
theorem maskedWrite_leaves (s : State) (pa c d q : Nat) : AtHomes s (maskedWrite s pa c d q) ∧ (maskedWrite s pa c d q).mem = s.mem ∧
    (maskedWrite s pa c d q).versions = s.versions := by
  unfold maskedWrite
  split_ifs
  · exact ⟨⟨_, _, _, _, _, _, _, _, _, _, _, _, _, rfl⟩, rfl, rfl⟩
  · have h := stacked_sendStack s (stackOf pa) { kind := 2, addr := pa / 64, cls := c, deadline := d, reqr := q, mask := 2 ^ sectIn pa }
    exact ⟨h.atHomes, h.mem, h.versions⟩

theorem atHomes_freeVat (s : State) (v : Version) : AtHomes s (freeVat s v) := by
  unfold freeVat
  refine .ite (.refl s) ?_
  split
  · exact ((marked_notePte ..).trans (marked_devNum ..)).atHomes
  · exact .refl s

theorem atHomes_vatVictim (s : State) (v : Version) : AtHomes s (vatVictim s v) := by
  unfold vatVictim
  split
  · exact .refl s
  · refine .trans ?_ (stacked_sendStack ..).atHomes
    unfold writeVat
    split
    · exact .refl s
    · exact ((marked_notePte ..).trans (marked_devBytes ..)).atHomes

theorem atHomes_evictKey (s : State) (key : Nat) : AtHomes s (evictKey s key) := by
  unfold evictKey
  dsimp only
  refine .ite (.refl s) (.ite (.ite (.refl s) ?_) (.ite (.trans ?_ (stacked_sendStack ..).atHomes) ?_))
  · exact (AtHomes.foldl atHomes_vatVictim ..).trans ⟨_, _, _, _, _, _, _, _, _, _, _, _, _, rfl⟩
  · exact ⟨_, _, _, _, _, _, _, _, _, _, _, _, _, rfl⟩
  · exact ⟨_, _, _, _, _, _, _, _, _, _, _, _, _, rfl⟩

theorem atHomes_holdVersion (s : State) (v : Version) : AtHomes s (holdVersion s v) := by
  unfold holdVersion l2Room
  refine .ite (.refl s) (.trans ?_ ⟨_, _, _, _, _, _, _, _, _, _, _, _, _, rfl⟩)
  split
  · exact .refl s
  · exact atHomes_evictKey ..

theorem atHomes_applyBytes (s : State) (bs : List (Nat × Byte)) (pa : Nat) : AtHomes s (applyBytes s bs pa) := by
  have h := ((marked_putBytes s (bs.map fun e => (pa + e.1, e.2))).trans (marked_syncEval _ pa 64)).atHomes
  unfold applyBytes
  exact .ite (h.trans ⟨_, _, _, _, _, _, _, _, _, _, _, _, _, rfl⟩) h

theorem atHomes_mergeRoot (s : State) (v : Version) : AtHomes s (mergeRoot s v) := by
  have hs : AtHomes s (if !(l2Of s (64 * v.sector)).present && channelDown s (64 * v.sector) then s
      else applyBytes (useSnoop s (64 * v.sector)) (versionBytes v) (64 * v.sector)) :=
    .ite (.refl s) (.trans ⟨_, _, _, _, _, _, _, _, _, _, _, _, _, rfl⟩ (atHomes_applyBytes ..))
  exact .trans (.ite (hs.trans ⟨_, _, _, _, _, _, _, _, _, _, _, _, _, rfl⟩) hs) (maskedWrite_leaves ..).1

theorem atHomes_mergeInto (s : State) (p : Nat) (v : Version) : AtHomes s (mergeInto s p v) := by
  unfold mergeInto
  split <;> exact .trans ⟨_, _, _, _, _, _, _, _, _, _, _, _, _, rfl⟩ (atHomes_holdVersion ..)

theorem atHomes_dropVersions (s : State) (f : Version → Bool) : AtHomes s (dropVersions s f) := ⟨_, _, _, _, _, _, _, _, _, _, _, _, _, rfl⟩

theorem atHomes_mergeUp (s : State) (h id : Nat) : AtHomes s (mergeUp s h id) :=
  ((AtHomes.foldl atHomes_freeVat ..).trans (atHomes_dropVersions ..)).trans
    (.foldl (fun _ _ => .ite (atHomes_mergeRoot ..) (atHomes_mergeInto ..)) ..)

/-! ## What a resolve does to the lanes of its tree -/

section
variable (s : State) (n : Node)
theorem onCores_membersTruth : OnCores s (membersTruth s n) := .foldl (fun _ _ => onCores_modGroup ..) ..
theorem onCores_membersFree : OnCores s (membersFree s n) := .foldl (fun _ _ => onCores_modGroup ..) ..
theorem onCores_membersConfirm : OnCores s (membersConfirm s n) := .foldl (fun _ _ => onCores_modGroup ..) ..
theorem atHomes_membersTruth : AtHomes s (membersTruth s n) := .foldl (fun _ _ => atHomes_modGroup ..) ..
theorem atHomes_membersFree : AtHomes s (membersFree s n) := .foldl (fun _ _ => atHomes_modGroup ..) ..
theorem atHomes_membersConfirm : AtHomes s (membersConfirm s n) := .foldl (fun _ _ => atHomes_modGroup ..) ..
end

theorem OnCores.versions {s t : State} (h : OnCores s t) : t.versions = s.versions := by obtain ⟨_, _, _, _, _, _, rfl⟩ := h; rfl
theorem OnCores.ct {s t : State} (h : OnCores s t) : t.ct = s.ct := by obtain ⟨_, _, _, _, _, _, rfl⟩ := h; rfl

theorem onCores_modLanesOf (s : State) (c : Nat) (f : Lane → Lane) : OnCores s (modLanesOf s c f) := onCores_modGroupsOf ..
theorem atHomes_modLanesOf (s : State) (c : Nat) (f : Lane → Lane) : AtHomes s (modLanesOf s c f) := atHomes_modGroupsOf ..

/-- From s to t no tree's order of resolves differs. -/
structure SameOrders (s t : State) : Prop where
  queue    : ∀ x, (t.hctxOf x).queue = (s.hctxOf x).queue
  settling : ∀ x, (t.hctxOf x).settling = (s.hctxOf x).settling

namespace SameOrders
variable {s t u : State}
theorem refl (s : State) : SameOrders s s := ⟨fun _ => rfl, fun _ => rfl⟩
theorem trans (h : SameOrders s t) (k : SameOrders t u) : SameOrders s u :=
  ⟨fun x => (k.queue x).trans (h.queue x), fun x => (k.settling x).trans (h.settling x)⟩
theorem foldl {α : Type} {f : State → α → State} (hf : ∀ s x, SameOrders s (f s x)) (xs : List α) (s : State) : SameOrders s (xs.foldl f s) := by
  induction xs generalizing s with
  | nil => exact refl s
  | cons x xs ih => exact (hf s x).trans (ih _)
theorem ite {c : Prop} [Decidable c] (h : SameOrders s t) (k : SameOrders s u) : SameOrders s (if c then t else u) := by split_ifs <;> assumption
end SameOrders

theorem AtHomes.sameOrders {s t : State} (h : AtHomes s t) : SameOrders s t :=
  ⟨fun x => by simp only [State.hctxOf, h.hctxs], fun x => by simp only [State.hctxOf, h.hctxs]⟩

theorem sameOrders_setNode (s : State) (h id : Nat) (f : Node → Node) : SameOrders s (setNode s h id f) := by
  constructor <;> intro x <;> rw [setNode, hctxOf_modHctx] <;> split_ifs with e
  · rw [e]
  · rfl
  · rw [e]
  · rfl

theorem nodeOf_setNode (s : State) (h id : Nat) (f : Node → Node) (k : Nat) : nodeOf (setNode s h id f) h k = if k = id then f (nodeOf s h id) else nodeOf s h k := by
  rw [nodeOf, setNode, hctxOf_modHctx, if_pos rfl]
  exact tget_tmod ({} : Node) (s.hctxOf h).nodes id k f

/-- The ids that a fold sets to a state have it. -/
theorem state_foldl_setNode {f : Node → Node} {n : Nat} (hf : ∀ m, (f m).state = n) (h : Nat) (ids : List Nat) (s : State) {d : Nat}
    (hd : d ∈ ids ∨ (nodeOf s h d).state = n) : (nodeOf (ids.foldl (fun t d => setNode t h d f) s) h d).state = n := by
  induction ids generalizing s with
  | nil => exact hd.resolve_left List.not_mem_nil
  | cons i ids ih =>
    refine ih _ ?_
    rw [nodeOf_setNode]
    by_cases e : d = i
    · rw [if_pos e]; exact .inr (hf _)
    · rw [if_neg e]; exact hd.imp_left fun m => (List.mem_cons.mp m).resolve_left e

theorem sameOrders_confirmNode (s : State) (h ctx id : Nat) : SameOrders s (confirmNode s h ctx id) := by
  have h3 : ∀ ds : List Nat, ∀ f : Node → Node, ∀ g : Lane → Lane, SameOrders s (modLanesOf (ds.foldl (fun t d => setNode t h d f) (mergeUp s h id)) ctx g) :=
    fun ds f g => ((atHomes_mergeUp s h id).sameOrders.trans (.foldl (fun t d => sameOrders_setNode t h d f) ds _)).trans (atHomes_modLanesOf ..).sameOrders
  unfold confirmNode
  dsimp only
  exact .ite (((h3 ..).trans (atHomes_membersConfirm ..).sameOrders).trans (atHomes_membersFree ..).sameOrders) (h3 ..)

/-- The first part of a refute: its versions go. -/
def refuteGone (s : State) (h : Nat) (r : Resolve) : State :=
  dropVersions ((s.versions.filter fun v => v.hctx == h && r.ids.contains v.id).foldl freeVat s) fun v => v.hctx == h && r.ids.contains v.id

theorem refuteGone_leaves (s : State) (h : Nat) (r : Resolve) : SameOrders s (refuteGone s h r) ∧
    ∀ v ∈ (refuteGone s h r).versions, v.hctx = h → v.id ∉ r.ids := by
  refine ⟨((AtHomes.foldl atHomes_freeVat ..).trans (atHomes_dropVersions ..)).sameOrders, fun v hv hx => ?_⟩
  have hv := (List.mem_filter.mp hv).2
  simpa [hx] using hv

/-- The second part: the discards are sent. -/
def refuteSent (s : State) (h : Nat) (r : Resolve) : State :=
  (List.range 8).foldl (fun t k => sendStack t k { kind := 4, hctx := h, ids := r.ids, cls := 1, deadline := t.ct, reqr := 42 }) (refuteGone s h r)

theorem stacked_refuteSent (s : State) (h : Nat) (r : Resolve) : Stacked (refuteGone s h r) (refuteSent s h r) :=
  .foldl (fun _ _ => stacked_sendStack ..) ..

/-- The third part: the members of bound nodes take their truths and are freed. -/
def refuteFreed (s : State) (h : Nat) (r : Resolve) : State :=
  (r.ids.filter fun d => (nodeOf s h d).bound).foldl (fun t d => membersFree (membersTruth t (nodeOf s h d)) (nodeOf s h d)) (refuteSent s h r)

theorem refuteFreed_lanes (s : State) (h : Nat) (r : Resolve) : OnCores (refuteSent s h r) (refuteFreed s h r) ∧ AtHomes (refuteSent s h r) (refuteFreed s h r) :=
  ⟨.foldl (f := fun t d => membersFree (membersTruth t (nodeOf s h d)) (nodeOf s h d)) (fun t _ => (onCores_membersTruth t _).trans (onCores_membersFree ..)) ..,
    .foldl (f := fun t d => membersFree (membersTruth t (nodeOf s h d)) (nodeOf s h d)) (fun t _ => (atHomes_membersTruth t _).trans (atHomes_membersFree ..)) ..⟩

theorem refuteNode_lanes (s : State) (h ctx : Nat) (r : Resolve) :
    OnCores (refuteSent s h r) (refuteNode s h ctx r) ∧ AtHomes (refuteSent s h r) (refuteNode s h ctx r) := by
  unfold refuteNode
  dsimp only
  exact ⟨(refuteFreed_lanes s h r).1.trans (onCores_modLanesOf ..), (refuteFreed_lanes s h r).2.trans (atHomes_modLanesOf ..)⟩

theorem sameOrders_refuteNode (s : State) (h ctx : Nat) (r : Resolve) : SameOrders s (refuteNode s h ctx r) :=
  ((refuteGone_leaves s h r).1.trans (stacked_refuteSent s h r).atHomes.sameOrders).trans (refuteNode_lanes s h ctx r).2.sameOrders

theorem versions_refuteNode (s : State) (h ctx : Nat) (r : Resolve) : ∀ v ∈ (refuteNode s h ctx r).versions, v.hctx = h → v.id ∉ r.ids := by
  rw [(refuteNode_lanes s h ctx r).1.versions, (stacked_refuteSent s h r).versions]
  exact (refuteGone_leaves s h r).2

/-- After its versions are merged a confirm changes trees, lanes and slots of guesses only. -/
theorem onCores_confirmNode (s : State) (h ctx id : Nat) : OnCores (mergeUp s h id) (confirmNode s h ctx id) := by
  have h3 : ∀ ds : List Nat, ∀ f : Node → Node, ∀ g : Lane → Lane,
      OnCores (mergeUp s h id) (modLanesOf (ds.foldl (fun t d => setNode t h d f) (mergeUp s h id)) ctx g) :=
    fun ds f g => (OnCores.foldl (fun t d => onCores_modHctx t h _) ds _).trans (onCores_modLanesOf ..)
  unfold confirmNode
  dsimp only
  exact .ite (((h3 ..).trans (onCores_membersConfirm ..)).trans (onCores_membersFree ..)) (h3 ..)

/-! ## The versions that a confirm merges -/

/-- A node without versions merges nothing. -/
theorem mergeUp_none {s : State} {h id : Nat} (hv : ∀ v ∈ s.versions, v.hctx = h → v.id ≠ id) : (mergeUp s h id).versions = s.versions ∧ (mergeUp s h id).mem = s.mem := by
  have hno : (s.versions.filter fun v => v.hctx == h && v.id == id) = [] := by
    rw [List.filter_eq_nil_iff]
    intro v hv' hb
    simp only [Bool.and_eq_true, beq_iff_eq] at hb
    exact hv v hv' hb.1 hb.2
  unfold mergeUp
  dsimp only
  rw [hno]
  refine ⟨?_, rfl⟩
  refine List.filter_eq_self.mpr fun v hv' => ?_
  simp only [Bool.not_eq_true', Bool.and_eq_false_iff, beq_eq_false_iff_ne]
  by_cases hx : v.hctx = h
  · exact .inr (hv v hv' hx)
  · exact .inl hx

/-- The bytes of a version, each at its place of the sector. -/
theorem memByte_versionBytes (s : State) (v : Version) (pa : Nat) :
    (∀ k, k < 64 → memByte (putBytes s ((versionBytes v).map fun e => (pa + e.1, e.2))) (pa + k) = if v.mask.getLsbD k then tget 0 v.data k else memByte s (pa + k)) ∧
    ∀ a, (a < pa ∨ pa + 64 ≤ a) → memByte (putBytes s ((versionBytes v).map fun e => (pa + e.1, e.2))) a = memByte s a := by
  have hmem : ∀ e, e ∈ ((versionBytes v).map fun e => (pa + e.1, e.2)) ↔ ∃ k, k < 64 ∧ v.mask.getLsbD k = true ∧ e = (pa + k, tget 0 v.data k) := by
    intro e
    simp only [versionBytes, List.mem_map, List.mem_filterMap, List.mem_range, Option.ite_none_right_eq_some, Option.some.injEq]
    constructor
    · rintro ⟨d, ⟨k, hk, hm, rfl⟩, rfl⟩
      exact ⟨k, hk, hm, rfl⟩
    · rintro ⟨k, hk, hm, rfl⟩
      exact ⟨_, ⟨k, hk, hm, rfl⟩, rfl⟩
  have hnodup : (((versionBytes v).map fun e => (pa + e.1, e.2)).map Prod.fst).Nodup := by
    have hfst : (versionBytes v).map Prod.fst = (List.range 64).filter fun k => v.mask.getLsbD k := by
      unfold versionBytes
      generalize List.range 64 = ks
      induction ks with
      | nil => rfl
      | cons k ks ih =>
        rw [List.filterMap_cons, List.filter_cons]
        split_ifs with hk
        · exact congrArg (k :: ·) ih
        · exact ih
    have e : ((versionBytes v).map fun e => (pa + e.1, e.2)).map Prod.fst = ((versionBytes v).map Prod.fst).map (pa + ·) := by
      rw [List.map_map, List.map_map]; rfl
    rw [e, hfst]
    exact (List.nodup_range.filter _).map fun a b h => Nat.add_left_cancel h
  refine ⟨fun k hk => ?_, fun a ha => memByte_putBytes_other _ _ _ fun e he => ?_⟩
  · split_ifs with hm
    · exact memByte_putBytes_once _ _ hnodup (pa + k, tget 0 v.data k) ((hmem _).mpr ⟨k, hk, hm, rfl⟩)
    · refine memByte_putBytes_other _ _ _ fun e he => ?_
      obtain ⟨j, -, hj, rfl⟩ := (hmem e).mp he
      intro hjk
      rw [Nat.add_left_cancel hjk] at hj
      exact hm hj
  · obtain ⟨j, hj, -, rfl⟩ := (hmem e).mp he
    intro hja
    dsimp only at hja
    omega

theorem syncEval_mem (s : State) (a n : Nat) : (syncEval s a n).mem = s.mem := by
  unfold syncEval
  generalize waitersOn s false a n = ws
  induction ws generalizing s with
  | nil => rfl
  | cons w ws ih =>
    rw [List.foldl_cons, ih]
    unfold evalChan
    dsimp only
    split
    · rfl
    · split_ifs <;> rfl

theorem applyBytes_mem (s : State) (bs : List (Nat × Byte)) (pa : Nat) : (applyBytes s bs pa).mem = (putBytes s (bs.map fun e => (pa + e.1, e.2))).mem := by
  unfold applyBytes
  dsimp only
  split_ifs <;> exact syncEval_mem ..

theorem putBytes_mem_congr (bs : List (Nat × Byte)) {s t : State} (h : s.mem = t.mem) : (putBytes s bs).mem = (putBytes t bs).mem := by
  induction bs generalizing s t with
  | nil => exact h
  | cons b bs ih => exact ih (congrArg (fun m => tset memDefault m b.1 b.2) h)

/-- Where the line is there or its channel is not down, a version of a child of the root writes its bytes. -/
theorem mergeRoot_mem {s : State} {v : Version} (h : (l2Of s (64 * v.sector)).present = true ∨ channelDown s (64 * v.sector) = false) :
    (mergeRoot s v).mem = (putBytes s ((versionBytes v).map fun e => (64 * v.sector + e.1, e.2))).mem := by
  have hc : ¬(!(l2Of s (64 * v.sector)).present && channelDown s (64 * v.sector)) = true := by rcases h with h | h <;> simp [h]
  unfold mergeRoot
  dsimp only
  rw [(maskedWrite_leaves ..).2.1, if_neg hc]
  calc (if v.bad = true then poisonSector (applyBytes (useSnoop s (64 * v.sector)) (versionBytes v) (64 * v.sector)) v.sector
        else applyBytes (useSnoop s (64 * v.sector)) (versionBytes v) (64 * v.sector)).mem
      = (applyBytes (useSnoop s (64 * v.sector)) (versionBytes v) (64 * v.sector)).mem := by split_ifs <;> rfl
    _ = (putBytes (useSnoop s (64 * v.sector)) ((versionBytes v).map fun e => (64 * v.sector + e.1, e.2))).mem := applyBytes_mem ..
    _ = (putBytes s ((versionBytes v).map fun e => (64 * v.sector + e.1, e.2))).mem := putBytes_mem_congr _ (rfl : (useSnoop s _).mem = s.mem)

theorem tget_filter_keep {α : Type} (d : α) (t : Tbl α) (p : Nat × α → Bool) (i : Nat) (h : ∀ e ∈ t, e.1 = i → p e = true) : tget d (t.filter p) i = tget d t i := by
  induction t with
  | nil => rfl
  | cons e t ih =>
    have ih := ih fun x hx => h x (List.mem_cons_of_mem _ hx)
    obtain ⟨k, v⟩ := e
    by_cases hk : i = k
    · rw [List.filter_cons_of_pos (h (k, v) List.mem_cons_self hk.symm), tget, tget, if_pos hk, if_pos hk]
    · rw [List.filter_cons]
      split_ifs
      · rw [tget, tget, if_neg hk, if_neg hk, ih]
      · rw [tget, if_neg hk, ih]

/-- The one version of a child of the root, not stored in the vat, is merged into committed memory. -/
theorem mergeUp_one {s : State} {h id : Nat} {v : Version} (hid : id ≠ 0) (hp : (nodeOf s h id).parent = 0)
    (hv : (s.versions.filter fun w => w.hctx == h && w.id == id) = [v]) (hst : v.stored = false)
    (hl : (l2Of s (64 * v.sector)).present = true ∨ channelDown s (64 * v.sector) = false) :
    (mergeUp s h id).mem = (putBytes s ((versionBytes v).map fun e => (64 * v.sector + e.1, e.2))).mem := by
  have hfree : freeVat s v = s := by rw [freeVat, if_pos (by rw [hst]; rfl)]
  have hvin : v ∈ s.versions ∧ v.hctx = h ∧ v.id = id := by
    have hmem : v ∈ s.versions.filter fun w => w.hctx == h && w.id == id := by rw [hv]; exact List.mem_singleton_self v
    simpa using hmem
  have hline : l2Of (dropVersions s fun w => w.hctx == h && w.id == id) (64 * v.sector) = l2Of s (64 * v.sector) := by
    unfold l2Of dropVersions
    refine tget_filter_keep _ _ _ _ fun e _ he => ?_
    have hne : ¬ lineOf (64 * v.sector) = l2Key (v.sector / 4) v.hctx v.id := by
      have : 0 < v.id := Nat.pos_of_ne_zero (by rw [hvin.2.2]; exact hid)
      unfold lineOf l2Key
      omega
    rw [he, hv]
    simp [hne]
  have hup : mergeUp s h id = mergeRoot (dropVersions s fun w => w.hctx == h && w.id == id) v := by
    unfold mergeUp
    dsimp only
    rw [hv, hp]
    simp only [List.foldl_cons, List.foldl_nil, if_true, hfree]
  rw [hup, mergeRoot_mem (by rw [hline]; exact hl)]
  exact putBytes_mem_congr _ rfl

/-! ## E -/

theorem le_maxOf {x : Nat} {xs : List Nat} (h : x ∈ xs) : x ≤ maxOf xs := by
  have hfrom : ∀ (xs : List Nat) (m : Nat), m ≤ xs.foldl max m ∧ ∀ x ∈ xs, x ≤ xs.foldl max m := by
    intro xs
    induction xs with
    | nil => exact fun m => ⟨le_rfl, fun _ hx => nomatch hx⟩
    | cons y xs ih =>
      intro m
      rw [List.foldl_cons]
      obtain ⟨h1, h2⟩ := ih (max m y)
      refine ⟨(le_max_left m y).trans h1, fun x hx => ?_⟩
      rcases List.mem_cons.mp hx with rfl | hx
      · exact (le_max_right m x).trans h1
      · exact h2 x hx
  exact (hfrom xs 0).2 x h

/-- E comes after the times that it must not precede. -/
theorem chooseE_after (s : State) (h : Nat) (secs : List Nat) : (s.hctxOf h).lastE ≤ chooseE s h secs ∧ s.ct ≤ chooseE s h secs ∧
    dieCt s 0 ≤ chooseE s h secs ∧ dieCt s 1 ≤ chooseE s h secs ∧ ∀ sec ∈ secs, leaseMax s (64 * sec) + 4 ≤ chooseE s h secs := by
  have hle : ∀ x ∈ [(s.hctxOf h).lastE, s.ct + 1, dieCt s 0 + 1, dieCt s 1 + 1] ++ secs.map (fun n => leaseMax s (64 * n) + 4), x ≤ chooseE s h secs :=
    fun x hx => (le_maxOf hx).trans (Nat.le_add_right ..)
  refine ⟨hle _ (by simp), (Nat.le_succ _).trans (hle _ (by simp)), (Nat.le_succ _).trans (hle _ (by simp)), (Nat.le_succ _).trans (hle _ (by simp)),
    fun sec hs => hle _ (List.mem_append_right _ (List.mem_map_of_mem hs))⟩

section
variable {s : State} {x : Nat} {r : Resolve} {rest : List Resolve}

theorem resolveEgressDrained_waits (hq : (s.hctxOf x).queue = r :: rest)
    (h : egressClear s x (resolveIds s x r) = false ∨ storesDone s x (resolveIds s x r) = false) : exec (.resolveEgressDrained x) s = .next s := by
  have e : exec (.resolveEgressDrained x) s = execResolveEgressDrained x s := rfl
  rw [e, execResolveEgressDrained, hq]
  dsimp only [List.head?_cons]
  rw [if_pos (by rcases h with h | h <;> simp [h])]

/-- The resolve at the head has its ids, its sectors and E. -/
def fixedE (s : State) (x : Nat) (r : Resolve) : Resolve :=
  { r with ids := resolveIds s x r, sectors := affected s x (resolveIds s x r), started := true, e := some (chooseE s x (affected s x (resolveIds s x r))) }

theorem resolveEgressDrained_fixes (hq : (s.hctxOf x).queue = r :: rest) (he : r.e = none) (hc : egressClear s x (resolveIds s x r) = true)
    (hd : storesDone s x (resolveIds s x r) = true) (hf : farVersions s x r = []) (hh : hostSectors s x r = []) : Leads (.resolveEgressDrained x) s fun u =>
      u = { s with hctxs := u.hctxs } ∧ (u.hctxOf x).queue = fixedE s x r :: rest ∧ (u.hctxOf x).lastE = chooseE s x (affected s x (resolveIds s x r)) := by
  have e : exec (.resolveEgressDrained x) s = execResolveEgressDrained x s := rfl
  refine ⟨modHctx (modHead s x fun q => { q with ids := resolveIds s x r, sectors := affected s x (resolveIds s x r), started := true
                                                 e := some (chooseE s x (affected s x (resolveIds s x r))) }) x
      fun c => { c with lastE := chooseE s x (affected s x (resolveIds s x r)) }, ?_, rfl, ?_, ?_⟩
  · rw [e, execResolveEgressDrained, hq]
    dsimp only [List.head?_cons]
    rw [if_neg (by simp [he, hc, hd]), hf, hh]
  · rw [hctxOf_modHctx_self, modHead, hctxOf_modHctx_self, hq]
    rfl
  · rw [hctxOf_modHctx_self]
end

/-! ## The effect -/

theorem bumpPct_rest (s : State) (b g L t : Nat) : ∃ blocks ctxs, bumpPct s b g L t = { s with blocks := blocks, ctxs := ctxs } := by
  unfold bumpPct
  split_ifs
  · exact ⟨_, _, rfl⟩
  · exact ⟨_, _, rfl⟩

/-- What the effect does to the versions and lanes, before the ids retire. -/
def effectOn (s : State) (h ctx : Nat) (r : Resolve) : State := if r.confirm then confirmNode s h ctx r.id else refuteNode s h ctx r

/-- The ids then retire. -/
def effectRetired (s : State) (h ctx : Nat) (r : Resolve) : State :=
  r.ids.foldl (fun t d => setNode t h d fun n => { n with state := 3, members := [], npend := 0 }) (effectOn s h ctx r)

theorem sameOrders_effectRetired (s : State) (h ctx : Nat) (r : Resolve) : SameOrders s (effectRetired s h ctx r) :=
  .trans (.ite (sameOrders_confirmNode ..) (sameOrders_refuteNode ..)) (.foldl (fun _ _ => sameOrders_setNode ..) ..)

theorem onCores_effectRetired (s : State) (h ctx : Nat) (r : Resolve) : OnCores (effectOn s h ctx r) (effectRetired s h ctx r) :=
  .foldl (fun _ _ => onCores_modHctx ..) ..

/-- The order's head goes, its sectors settle, and the black box has its entry. -/
def effectDone (s : State) (h ctx : Nat) (r : Resolve) (e : Nat) (s2 : State) (settle : List (Nat × List Nat)) : State :=
  blackBox (modHctx (dropTagged { s2 with versions := s2.versions.map fun v => if v.hctx = h then { v with back := false } else v } h r.ids) h
    fun c => { c with queue := c.queue.drop 1, settling := settle ++ [(e, r.sectors)] })
    { kind := 4, part := (s.context ctx).part, code := r.id, tag := (s.context ctx).record.userTag }

theorem resolveEffect_eq (s : State) (h : Nat) (r : Resolve) (e ctx : Nat) : ∃ settle blocks ctxs,
    resolveEffect s h r e ctx = { effectDone s h ctx r e (effectRetired s h ctx r) settle with blocks := blocks, ctxs := ctxs } := by
  obtain ⟨settle, hs⟩ : ∃ settle, settle = ((effectRetired s h ctx r).hctxOf h).settling.filter fun x =>
    !(passed s.ct x.1 && passed (dieCt s 0) x.1 && passed (dieCt s 1) x.1) := ⟨_, rfl⟩
  have e : resolveEffect s h r e ctx = match r.lane with
    | some (b, g, L) => bumpPct (effectDone s h ctx r e (effectRetired s h ctx r) settle) b g L e
    | none => effectDone s h ctx r e (effectRetired s h ctx r) settle := by rw [hs]; rfl
  rw [e]
  split
  · exact ⟨settle, bumpPct_rest ..⟩
  · exact ⟨settle, _, _, rfl⟩

/-- What the whole effect leaves. -/
theorem resolveEffect_leaves (s : State) (h : Nat) (r : Resolve) (e ctx : Nat) : let u := resolveEffect s h r e ctx
    (u.hctxOf h).queue = (s.hctxOf h).queue.drop 1 ∧ (e, r.sectors) ∈ (u.hctxOf h).settling ∧ (∀ d ∈ r.ids, (nodeOf u h d).state = 3) ∧ Recorded u 4 r.id ∧
      u.versions = ((effectOn s h ctx r).versions.map fun v => if v.hctx = h then { v with back := false } else v) ∧ u.mem = (effectOn s h ctx r).mem := by
  intro u
  have hon := onCores_effectRetired s h ctx r
  have hstate : ∀ d ∈ r.ids, (nodeOf (effectRetired s h ctx r) h d).state = 3 := fun d hd =>
    state_foldl_setNode (f := fun n => { n with state := 3, members := [], npend := 0 }) (fun _ => rfl) h r.ids _ (.inl hd)
  have hqueue := (sameOrders_effectRetired s h ctx r).queue h
  obtain ⟨settle, blocks, ctxs, hu⟩ := resolveEffect_eq s h r e ctx
  generalize effectRetired s h ctx r = s2 at hon hstate hqueue hu
  have hh : u.hctxOf h = { s2.hctxOf h with queue := (s2.hctxOf h).queue.drop 1, settling := settle ++ [(e, r.sectors)] } := by
    rw [show u = _ from hu]
    exact tget_tmod_self ({} : Hctx) s2.hctxs h fun c => { c with queue := c.queue.drop 1, settling := settle ++ [(e, r.sectors)] }
  refine ⟨by rw [hh, hqueue], by rw [hh]; simp, fun d hd => ?_, ?_, ?_, ?_⟩
  · rw [nodeOf, hh]
    exact hstate d hd
  · rw [show u = _ from hu]
    exact ⟨_, List.getLast?_concat, rfl, rfl, rfl⟩
  · rw [show u = _ from hu, ← hon.versions]
    rfl
  · rw [show u = _ from hu, ← hon.mem]
    rfl

section
variable {s : State} {x : Nat} {r : Resolve} {rest : List Resolve} {e ctx : Nat}

theorem exec_resolveEffect (hq : (s.hctxOf x).queue = r :: rest) (he : r.e = some e) (hc : (s.hctxOf x).ctx = some ctx) :
    exec (.resolveEffect x) s = .next (if e ≤ s.ct ∧ e ≤ dieCt s 0 ∧ e ≤ dieCt s 1 then resolveEffect s x r e ctx else s) := by
  have h : exec (.resolveEffect x) s = .next (resolveDue s x) := rfl
  rw [h, resolveDue, hq, hc]
  dsimp only [List.head?_cons]
  rw [he]

theorem resolveEffect_waits (hq : (s.hctxOf x).queue = r :: rest) (he : r.e = some e) (hc : (s.hctxOf x).ctx = some ctx)
    (h : s.ct < e ∨ dieCt s 0 < e ∨ dieCt s 1 < e) : exec (.resolveEffect x) s = .next s := by
  rw [exec_resolveEffect hq he hc, if_neg (by omega)]

theorem resolveEffect_acts (hq : (s.hctxOf x).queue = r :: rest) (he : r.e = some e) (hc : (s.hctxOf x).ctx = some ctx)
    (h0 : e ≤ s.ct) (h1 : e ≤ dieCt s 0) (h2 : e ≤ dieCt s 1) : Leads (.resolveEffect x) s fun u =>
      (u.hctxOf x).queue = rest ∧ (e, r.sectors) ∈ (u.hctxOf x).settling ∧ (∀ d ∈ r.ids, (nodeOf u x d).state = 3) ∧ Recorded u 4 r.id ∧
      (r.confirm = false → ∀ v ∈ u.versions, v.hctx = x → v.id ∉ r.ids) ∧
      (r.confirm = true → r.id ≠ 0 → (∀ v ∈ s.versions, v.hctx = x → v.id ≠ r.id) →
        u.versions = (s.versions.map fun v => if v.hctx = x then { v with back := false } else v) ∧ u.mem = s.mem) ∧
      (∀ v, r.confirm = true → r.id ≠ 0 → (nodeOf s x r.id).parent = 0 → s.versions.filter (fun w => w.hctx == x && w.id == r.id) = [v] → v.stored = false →
        ((l2Of s (64 * v.sector)).present = true ∨ channelDown s (64 * v.sector) = false) →
        (∀ k, k < 64 → memByte u (64 * v.sector + k) = if v.mask.getLsbD k then tget 0 v.data k else memByte s (64 * v.sector + k)) ∧
        ∀ a, (a < 64 * v.sector ∨ 64 * v.sector + 64 ≤ a) → memByte u a = memByte s a) := by
  obtain ⟨hqueue, hsettle, hstate, hrec, hver, hmem⟩ := resolveEffect_leaves s x r e ctx
  refine ⟨_, (exec_resolveEffect hq he hc).trans (congrArg _ (if_pos ⟨h0, h1, h2⟩)), by rw [hqueue, hq]; rfl, hsettle, hstate, hrec,
    fun hr v hv hx => ?_, fun hr _ hv => ?_, fun v hr hid hp hv hst hl => ?_⟩
  · rw [hver, effectOn, if_neg (by rw [hr]; exact Bool.false_ne_true)] at hv
    obtain ⟨w, hw, rfl⟩ := List.mem_map.mp hv
    have hkeys : (if w.hctx = x then { w with back := false } else w : Version).hctx = w.hctx ∧
        (if w.hctx = x then { w with back := false } else w : Version).id = w.id := by split_ifs <;> exact ⟨rfl, rfl⟩
    rw [hkeys.2]
    exact versions_refuteNode s x ctx r w hw (hkeys.1.symm.trans hx)
  · have hon := onCores_confirmNode s x ctx r.id
    rw [hver, hmem, effectOn, if_pos hr, hon.versions, hon.mem, (mergeUp_none hv).1, (mergeUp_none hv).2]
    exact ⟨rfl, rfl⟩
  · have hm : (resolveEffect s x r e ctx).mem = (putBytes s ((versionBytes v).map fun e => (64 * v.sector + e.1, e.2))).mem := by
      rw [hmem, effectOn, if_pos hr, (onCores_confirmNode s x ctx r.id).mem, mergeUp_one hid hp hv hst hl]
    obtain ⟨hin, hout⟩ := memByte_versionBytes s v (64 * v.sector)
    unfold memByte at hin hout ⊢
    rw [hm]
    exact ⟨hin, hout⟩
end

/-! ## The ids are free again, and refuted lanes are redirected -/

theorem hypIdRetire_frees {s : State} {x id : Nat} (h0 : id ≠ 0) (h3 : (nodeOf s x id).state = 3) (hc : egressClear s x [id] = true)
    (hs : idServed s x id = true) (hd : discarding s x id = false) : Leads (.hypIdRetire x id) s fun u => u = { s with hctxs := u.hctxs } ∧ nodeOf u x id = {} := by
  refine ⟨setNode s x id fun _ => {}, congrArg Host.Outcome.next (if_pos ?_), rfl, ?_⟩
  · simp [h0, h3, hc, hs, hd]
  · rw [nodeOf_setNode, if_pos rfl]

/-- A lane as it enters the handler of its refuted hypothesis. -/
def redirectedLane (s : State) (b L id parent reason : Nat) (handler : W64) (l : Lane) : Lane :=
  { l with park := {}, refuted := none, lpc := w64 (landing s b handler.toNat), lap := raisedLap s L l, hyp := parent, hrefute := id + 256 * reason }

theorem refuteRedirect_leads {s : State} {b g L id parent reason : Nat} {handler : W64} (ho : boundaryOpen s b g = true)
    (hL : L ∈ refutedLanes (s.group b g)) (ht : (s.group b g).trapMode = false)
    (hr : ((s.group b g).lane L).refuted = some (id, parent, handler, reason)) : Leads (.refuteRedirect b g L) s fun u => let l := (u.group b g).lane L
      l.hyp = parent ∧ l.hrefute = id + 256 * reason ∧ l.refuted = none ∧ l.lpc = w64 (landing s b handler.toNat) ∧ u.mem = s.mem := by
  set f := redirectedLane s b L id parent reason handler with hf
  have hred : redirectLane s b g L = modLane (dropLaneWaits s b g L) b g L f := by
    unfold redirectLane
    rw [hr, hf]
    rfl
  have hq : (redirectLane s b g L).group b g = { s.group b g with lanes := tmod {} (s.group b g).lanes L f } := by
    rw [hred, modLane, group_modGroup_self]
    rfl
  have hlane : ((redirectLane s b g L).group b g).lane L = f ((s.group b g).lane L) := by
    rw [hq]
    exact tget_tmod_self ({} : Lane) (s.group b g).lanes L f
  have hwaits : rteWaits ((redirectLane s b g L).group b g) := fun hm => by
    rw [hq] at hm
    exact absurd (hm.symm.trans ht) (by decide)
  have hrest := rested_afterIssue _ b g hwaits
  obtain ⟨d, -, hl⟩ := hrest.lanes
  have hu := (hl L (by rw [hlane]; exact Lane.still_of_cause (Nat.zero_ne_add_one 4) (Nat.zero_ne_add_one 8))).1
  refine ⟨afterIssue (redirectLane s b g L) b g, congrArg Host.Outcome.next (if_pos (by simp [ho, hL])), ?_⟩
  dsimp only
  rw [hu, hlane]
  refine ⟨rfl, rfl, rfl, rfl, hrest.upd.mem.trans ?_⟩
  rw [hred]
  rfl

/-- Settles O56: E is the greatest of the times it must not precede and more; what a resolve does to its tree's versions leaves the orders of all trees,
and the other steps are one assignment each. -/
theorem resolveSteps : Obligations.ResolveSteps := by
  unfold Obligations.ResolveSteps
  intro s x r rest hq
  refine ⟨fun he => ⟨fun h => resolveEgressDrained_waits hq h, fun hc hd hf hh => ?_⟩,
    fun e ctx he hc => ⟨fun h => resolveEffect_waits hq he hc h, fun h0 h1 h2 => resolveEffect_acts hq he hc h0 h1 h2⟩,
    fun id h0 h3 hc hs hd => hypIdRetire_frees h0 h3 hc hs hd, fun b g L id parent handler reason ho hL ht hr => refuteRedirect_leads ho hL ht hr⟩
  obtain ⟨u, hrun, hu, hqu, hlast⟩ := resolveEgressDrained_fixes hq he hc hd hf hh
  obtain ⟨h1, h2, h3, h4, h5⟩ := chooseE_after s x (affected s x (resolveIds s x r))
  exact ⟨u, hrun, hu, _, hqu, hlast, h1, h2, h3, h4, h5⟩

end Sys2Proof.Machine
end

section
/-! PROOF. Resets and bring-up (R17, R22, R23, R98, R270). -/

set_option Elab.async false

namespace Sys2Proof.Machine

/-! ## The end of a tick -/

/-- What the collector leaves alone: it numbers events, in the box and where their numbers are awaited. -/
def OnNumbers (s t : State) : Prop := ∃ svc poisonBy reqs blocks, t = { s with svc := svc, poisonBy := poisonBy, reqs := reqs, blocks := blocks }

theorem OnNumbers.trans {s t u : State} (h : OnNumbers s t) (k : OnNumbers t u) : OnNumbers s u := by
  obtain ⟨_, _, _, _, rfl⟩ := h
  obtain ⟨_, _, _, _, rfl⟩ := k
  exact ⟨_, _, _, _, rfl⟩

theorem onNumbers_sendMsi (s : State) (v : Nat) : OnNumbers s (sendMsi s v) := by
  unfold sendMsi
  split_ifs <;> exact ⟨_, _, _, _, rfl⟩

theorem onNumbers_fillNumber (s : State) (v : Service) (k n : Nat) : OnNumbers s (fillNumber { s with svc := v } k n) := ⟨_, _, _, _, rfl⟩

theorem onNumbers_collectOne (s : State) (x : Notice) : OnNumbers s (collectOne s x) := by
  unfold collectOne
  split
  · exact ⟨_, _, _, _, rfl⟩
  · exact OnNumbers.trans (onNumbers_fillNumber _ _ _ _) (onNumbers_sendMsi ..)

theorem onNumbers_collect (s : State) : OnNumbers s (collect s) := by
  have hfold : ∀ (xs : List Notice) (t : State), OnNumbers s t → OnNumbers s (xs.foldl collectOne t) := by
    intro xs
    induction xs with
    | nil => exact fun t h => h
    | cons x xs ih => exact fun t h => ih _ (h.trans (onNumbers_collectOne t x))
  exact hfold _ _ ⟨_, _, _, _, rfl⟩

/-! ## Resets -/

theorem warmReset_leads (s : State) : Leads .warmReset s fun u => u.ct = s.ct ∧ u.svc.bb = (collect s).svc.bb ∧ u.mem = s.mem ∧
    u.svc.errors.seq = (collect s).svc.errors.seq ∧ u.pkg.tripped = s.pkg.tripped ∧ u.pkg.ready = false ∧ u.pkg.bringup = 0 ∧ u.parts = [] ∧ u.ctxs = [] ∧
    u.blocks = [] ∧ u.reqs = [] ∧ ∀ c, c ∈ tkeys u.cores ↔ ∃ e ∈ s.cores, e.1 = c ∧ e.2.retired = true := by
  obtain ⟨svc, pb, reqs, blocks, hc⟩ := onNumbers_collect s
  have hcores : (collect s).cores = s.cores := by rw [hc]
  refine ⟨_, rfl, by rw [← (by rw [hc] : (collect s).ct = s.ct)]; rfl, rfl, by rw [← (by rw [hc] : (collect s).mem = s.mem)]; rfl, rfl,
    by rw [← (by rw [hc] : (collect s).pkg = s.pkg)]; rfl, rfl, rfl, rfl, rfl, rfl, rfl, fun c => ?_⟩
  have hlist : ∀ c, c ∈ tkeys ((tmapv (fun c : Core => { retired := c.retired : Core }) (collect s).cores).filter fun e => e.2.retired) ↔
      ∃ e ∈ s.cores, e.1 = c ∧ e.2.retired = true := by
    intro c
    rw [hcores]
    simp only [tkeys, tmapv, List.mem_map, List.mem_filter]
    constructor
    · rintro ⟨_, ⟨⟨e, he, rfl⟩, hr⟩, rfl⟩
      exact ⟨e, he, rfl, hr⟩
    · rintro ⟨e, he, rfl, hr⟩
      exact ⟨_, ⟨⟨e, he, rfl⟩, hr⟩, rfl⟩
  exact hlist c

theorem linkHotReset_leads {s : State} (h : hostInFlight s = []) : Leads .linkHotReset s fun u => u.pkg.linkUp = false ∧ u.hostLines = [] ∧ Recorded u 7 0 ∧
    u.mem = s.mem ∧ u.blocks = s.blocks ∧ u.reqs = s.reqs ∧ u.ctxs = s.ctxs := by
  have hput : ∀ (es : List (Nat × List Byte)) (t : State), ∃ m, es.foldl (fun t e => if pick s (2 ^ 40 + e.1) % 2 = 0 then t else
      putHost t (e.2.zipIdx.map fun x => (64 * e.1 + x.2, x.1))) t = { t with hostMem := m } := by
    intro es
    induction es with
    | nil => exact fun t => ⟨_, rfl⟩
    | cons e es ih =>
      intro t
      rw [List.foldl_cons]
      split_ifs
      · exact ih t
      · obtain ⟨m, hm⟩ := ih (putHost t (e.2.zipIdx.map fun x => (64 * e.1 + x.2, x.1)))
        exact ⟨m, hm⟩
  obtain ⟨m, hm⟩ := hput s.hostLines s
  have hrun : exec .linkHotReset s = execLinkHotReset s := rfl
  refine ⟨blackBox { s with hostMem := m, hostLines := [], lineCtxs := [], pkg := { s.pkg with linkUp := false }, hostLink := {} } { kind := 7 }, ?_,
    rfl, rfl, ⟨_, List.getLast?_concat, rfl, rfl, rfl⟩, rfl, rfl, rfl, rfl⟩
  rw [hrun, execLinkHotReset, h]
  dsimp only [List.foldl_nil]
  rw [hm]

/-! ## Bring-up -/

theorem linkUp_trained (s : State) : (linkUp s).hostLink = { s.hostLink with width := (linkUp s).hostLink.width, rate := (linkUp s).hostLink.rate } ∧
    (linkUp s).hostLink.width ∈ [16, 8, 4] ∧ (linkUp s).hostLink.rate ∈ [64, 32, 16] := by
  have hmod : ∀ n, n % 3 = 0 ∨ n % 3 = 1 ∨ n % 3 = 2 := fun n => by omega
  refine ⟨rfl, ?_, ?_⟩
  · change 2 ^ (4 - pick s 0 % 3) ∈ _
    rcases hmod (pick s 0) with e | e | e <;> rw [e] <;> decide
  · change 2 ^ (6 - pick s 1 % 3) ∈ _
    rcases hmod (pick s 1) with e | e | e <;> rw [e] <;> decide

theorem bringStep_eq {s : State} {n : Nat} (h : s.pkg.bringup = n) (f : State → State) :
    bringStep s n f = .next { f s with pkg := { (f s).pkg with bringup := n + 1 } } := congrArg Host.Outcome.next (if_pos h)

theorem bringupFwVerify_active {s : State} (other : Bool) (h : s.pkg.bringup = 0) : Leads (.bringupFwVerify true other) s fun u =>
    u = { s with pkg := { s.pkg with bringup := 1 }, svc := u.svc } ∧ Recorded u 9 0 ∧ u.svc.active = s.svc.active :=
  ⟨_, bringStep_eq h fun s => blackBox s { kind := 9 }, rfl, ⟨_, List.getLast?_concat, rfl, rfl, rfl⟩, rfl⟩

/-- An alert's bit is set once it has been raised. -/
theorem bit_raiseAlert (s : State) (k : Nat) : bit (raiseAlert s k).svc.alert k = true := by
  unfold raiseAlert
  by_cases h : bit s.svc.alert k = true
  · rw [if_pos h]; exact h
  · rw [if_neg h]
    have hs : ∀ t v, (sendMsi t v).svc.alert = t.svc.alert := fun t v => by unfold sendMsi; split_ifs <;> rfl
    rw [hs]
    change (s.svc.alert + 2 ^ k).testBit k = true
    rw [Nat.add_comm, Nat.testBit_two_pow_add_eq]
    simpa [bit] using h

theorem raiseAlert_rest (s : State) (k : Nat) : raiseAlert s k = { s with svc := (raiseAlert s k).svc } ∧ (raiseAlert s k).svc.active = s.svc.active := by
  unfold raiseAlert sendMsi
  dsimp only
  split_ifs <;> exact ⟨rfl, rfl⟩

theorem bringupFwVerify_other {s : State} (h : s.pkg.bringup = 0) : Leads (.bringupFwVerify false true) s fun u =>
    u = { s with pkg := { s.pkg with bringup := 1 }, svc := u.svc } ∧ u.svc.active = 1 - s.svc.active ∧ bit u.svc.alert 5 = true := by
  have hr := raiseAlert_rest (blackBox { s with svc := { s.svc with active := 1 - s.svc.active } } { kind := 9 }) 5
  have hb := bit_raiseAlert (blackBox { s with svc := { s.svc with active := 1 - s.svc.active } } { kind := 9 }) 5
  refine ⟨_, bringStep_eq h fun s => raiseAlert (blackBox { s with svc := { s.svc with active := 1 - s.svc.active } } { kind := 9 }) 5, ?_, hr.2, hb⟩
  dsimp only
  generalize raiseAlert (blackBox { s with svc := { s.svc with active := 1 - s.svc.active } } { kind := 9 }) 5 = t at hr
  rw [hr.1]
  rfl

/-- A channel as it leaves bring-up. -/
def channelUp (down : List Nat) (repaired : List (Nat × Nat)) (t : State) (k : Nat) : State :=
  if down.contains k then channelLost t k
  else modMemChan t k fun c => { c with state := 0, repaired := ((repaired.find? fun e : Nat × Nat => e.1 == k).map Prod.snd).getD 0 }

theorem OnCores.memChans {s t : State} (h : OnCores s t) : t.memChans = s.memChans := by obtain ⟨_, _, _, _, _, _, rfl⟩ := h; rfl

theorem sendMsi_rest (s : State) (v : Nat) : sendMsi s v = { s with svc := (sendMsi s v).svc } := by
  unfold sendMsi
  split_ifs <;> rfl

/-- The machine check that a lost channel raises reaches the groups of contexts, and the host. -/
theorem channelLost_leaves (s : State) (k : Nat) : (channelLost s k).memChans = (modMemChan s k fun c => { c with state := 2 }).memChans ∧
    (channelLost s k).mem = s.mem ∧ (channelLost s k).pkg = s.pkg := by
  unfold channelLost
  dsimp only
  generalize hs : recordError (modMemChan s k fun c => { c with state := 2 }) (repChannel k) 7 0 0 = s1
  have h1 : s1.memChans = (modMemChan s k fun c => { c with state := 2 }).memChans ∧ s1.mem = s.mem ∧ s1.pkg = s.pkg := by rw [← hs]; exact ⟨rfl, rfl, rfl⟩
  split_ifs
  · exact h1
  · have hc : OnCores s1 ((ctxsMapped s1 k).foldl checkCtx s1) := .foldl (fun _ _ => onCores_modGroupsOf ..) ..
    unfold checkCtxs checkHost
    rw [sendMsi_rest]
    exact ⟨hc.memChans.trans h1.1, hc.mem.trans h1.2.1, hc.pkg.trans h1.2.2⟩

theorem memChan_modMemChan (s : State) (k : Nat) (f : MemChan → MemChan) (j : Nat) : (modMemChan s k f).memChan j = if j = k then f (s.memChan k) else s.memChan j :=
  tget_tmod ({} : MemChan) s.memChans k j f

theorem channelUp_leaves (down : List Nat) (repaired : List (Nat × Nat)) (s : State) (k : Nat) : (channelUp down repaired s k).mem = s.mem ∧
    (∀ j, ((channelUp down repaired s k).memChan j).state = if j = k then (if k ∈ down then 2 else 0) else (s.memChan j).state) := by
  unfold channelUp
  by_cases h : k ∈ down
  · rw [if_pos (by simpa using h)]
    obtain ⟨hc, hm, -⟩ := channelLost_leaves s k
    refine ⟨hm, fun j => ?_⟩
    have e : (channelLost s k).memChan j = (modMemChan s k fun c => { c with state := 2 }).memChan j := by unfold State.memChan; rw [hc]
    rw [e, memChan_modMemChan, if_pos h]
    split_ifs <;> rfl
  · rw [if_neg (by simpa using h)]
    refine ⟨rfl, fun j => ?_⟩
    rw [memChan_modMemChan, if_neg h]
    split_ifs <;> rfl

theorem bringupStacksTrained_leads {s : State} (down : List Nat) (rep : List (Nat × Nat)) (h : s.pkg.bringup = 3) :
    Leads (.bringupStacksTrained down rep) s fun u => u.pkg.bringup = 4 ∧ u.mem = s.mem ∧ ∀ k, k < 256 → (u.memChan k).state = if k ∈ down then 2 else 0 := by
  have hfold : ∀ (ks : List Nat) (t : State), (ks.foldl (channelUp down rep) t).mem = t.mem ∧
      ∀ j, ((ks.foldl (channelUp down rep) t).memChan j).state = if j ∈ ks then (if j ∈ down then 2 else 0) else (t.memChan j).state := by
    intro ks
    induction ks with
    | nil => exact fun t => ⟨rfl, fun j => (if_neg List.not_mem_nil).symm⟩
    | cons k ks ih =>
      intro t
      obtain ⟨hm, hs⟩ := ih (channelUp down rep t k)
      obtain ⟨hm1, hs1⟩ := channelUp_leaves down rep t k
      refine ⟨hm.trans hm1, fun j => ?_⟩
      rw [List.foldl_cons, hs j, hs1 j]
      by_cases hj : j = k
      · subst hj
        simp
      · simp [hj]
  obtain ⟨hm, hs⟩ := hfold (List.range 256) s
  refine ⟨_, bringStep_eq h fun s => (List.range 256).foldl (channelUp down rep) s, rfl, hm, fun k hk => ?_⟩
  have := hs k
  rw [if_pos (List.mem_range.mpr hk)] at this
  exact this

theorem bringupCoresReady_eq {s : State} (h : s.pkg.bringup = 4) (hc : s.pkg.clockStopped = false) :
    exec .bringupCoresReady s = .next { s with pkg := { s.pkg with ready := true, bringup := 5 } } := by
  have hrun : exec .bringupCoresReady s = if s.pkg.clockStopped then .next s else bringStep s 4 fun s => { s with pkg := { s.pkg with ready := true } } := rfl
  rw [hrun, if_neg (by rw [hc]; exact Bool.false_ne_true), bringStep_eq h]

/-! ## Configuration requests -/

theorem cfgRead_answer {s : State} {fn off : Nat} {rest : List Sched} (ho : cfgOpen s fn off = true) (ha : s.agenda = .cfgRead fn off :: rest) :
    step s = .next (cfgReply { s with free := s.free + 1, agenda := rest } (cfgValue s fn off)) := by
  rw [step_agenda ha]
  exact congrArg Host.Outcome.next (if_pos ho)

/-- Until READY a write of configuration space changes nothing, and is answered with a retry status. -/
theorem cfgWrite_retry {s : State} {fn off : Nat} {v : W32} {rest : List Sched} (ho : cfgOpen s fn off = true) (hr : s.pkg.ready = false)
    (ha : s.agenda = .cfgWrite fn off v :: rest) : step s = .next (cfgReply { s with free := s.free + 1, agenda := rest } 0) := by
  rw [step_agenda ha]
  refine congrArg Host.Outcome.next ?_
  have hopen : cfgOpen { s with free := s.free + 1, agenda := rest } fn off = true := ho
  unfold hostCfgWrite
  dsimp only
  rw [hopen, hr]
  rfl

/-- Settles O46: the resets assign the fields they keep, the collector leaves what is not numbered, and the steps of bring-up follow their number. -/
theorem resetsAndBringUp : Obligations.ResetsAndBringUp := by
  unfold Obligations.ResetsAndBringUp
  intro s trained
  refine ⟨⟨_, rfl, rfl, rfl, rfl, rfl, rfl, rfl, rfl, rfl, rfl, rfl, rfl, rfl, rfl, rfl, rfl, rfl, rfl, rfl, rfl, rfl, rfl, rfl, rfl, rfl, rfl, rfl⟩, warmReset_leads s,
    linkHotReset_leads, fun h => ⟨linkUp s, congrArg Host.Outcome.next (if_pos h), rfl, linkUp_trained s⟩, fun other h => bringupFwVerify_active other h,
    bringupFwVerify_other, rfl, fun h => bringStep_eq h fun s => { s with pkg := { s.pkg with ctRun := true, lock0 := true, lock1 := true } },
    fun h => ⟨_, bringStep_eq h linkUp, rfl, linkUp_trained s⟩,
    fun down rep h => bringupStacksTrained_leads down rep h, bringupCoresReady_eq, fun fn off v rest ho hr ha => ?_, fun fn off rest ho hr ha => ?_⟩
  · rcases ha with ha | ha
    · exact ⟨_, cfgRead_answer ho ha, by rw [cfgReply]; simp [hr]⟩
    · exact ⟨_, cfgWrite_retry ho hr ha, by rw [cfgReply]; simp [hr]⟩
  · exact ⟨_, cfgRead_answer ho ha, by rw [cfgReply]; simp [hr]⟩

end Sys2Proof.Machine
end

section
/-! PROOF. Link blocks, training, recalibration and token buckets (R60–R67, R94, R97). -/

set_option Elab.async false

namespace Sys2Proof.Machine

/-! ## One port -/

theorem port_modPort_self (s : State) (p : Nat) (f : Port → Port) : (modPort s p f).port p = f (s.port p) := by rw [port_modPort, if_pos rfl]

/-- The end of a rotation touches the keys and the epoch only. -/
theorem retireTx_rest (q : Port) : retireTx q = { q with epoch := (retireTx q).epoch, tx := (retireTx q).tx } := by
  unfold retireTx
  split_ifs <;> rfl

theorem retireTx_current {q : Port} (h : q.tx.oldLive = false) : retireTx q = q := by
  rw [retireTx, h, Bool.false_and, if_neg Bool.false_ne_true]

theorem setKey_seq (k : LinkKeys) (n : Nat) (x : Option (List Byte)) : (k.setKey n x).seq = k.seq := by
  unfold LinkKeys.setKey
  split_ifs <;> rfl

/-- A port that sends a block: the packets it takes are sealed and kept. -/
theorem sendBlock_eq {q : Port} {key : List Byte} (hb : (packBlock (tkeys q.stopped) 8 q.outQ).1 ≠ [])
    (hroom : ((q.replay.flatMap fun x => x.pkts).map wireFlits).sum + 8 ≤ 512) (hkey : q.tx.key q.tx.slot = some key) (hidle : q.tx.key q.tx.idle = none)
    (hold : q.tx.oldLive = false) (hn : q.tx.blocks + 1 < 2 ^ 40 - 2 ^ 20) : let b := packBlock (tkeys q.stopped) 8 q.outQ
    sendBlock q = { q with
      outQ := b.2
      replay := q.replay ++ [{ seq := q.tx.seq, slot := q.tx.slot, pkts := b.1, cipher := (sealBlock key q.tx.seq q.tx.salt b.1).1,
                               gtag := (sealBlock key q.tx.seq q.tx.salt b.1).2 }]
      tx := { q.tx with seq := (q.tx.seq + 1) % 2 ^ 40, blocks := q.tx.blocks + 1 } } := by
  intro b
  have hswitch : switchTx q.tx = q.tx := by rw [switchTx, hidle, Option.isSome_none, Bool.false_and, if_neg Bool.false_ne_true]
  have hempty : b.1.isEmpty = false := by rw [List.isEmpty_eq_false_iff]; exact hb
  unfold sendBlock
  dsimp only
  rw [if_neg (by omega), hswitch, hkey]
  dsimp only
  rw [if_neg, retireTx_current (by exact hold)]
  simp only [Bool.or_eq_true, decide_eq_true_eq, not_or]
  exact ⟨⟨by rw [show (packBlock (tkeys q.stopped) 8 q.outQ).1.isEmpty = false from hempty]; exact Bool.false_ne_true, by omega⟩, by omega⟩

section
variable {s : State} {p : Nat}

theorem linkBlockSend_leads {key : List Byte} (hup : portUp s p = true) (hb : (packBlock (tkeys (s.port p).stopped) 8 (s.port p).outQ).1 ≠ [])
    (hroom : (((s.port p).replay.flatMap fun x => x.pkts).map wireFlits).sum + 8 ≤ 512) (hkey : (s.port p).tx.key (s.port p).tx.slot = some key)
    (hidle : (s.port p).tx.key (s.port p).tx.idle = none) (hold : (s.port p).tx.oldLive = false) (hn : (s.port p).tx.blocks + 1 < 2 ^ 40 - 2 ^ 20) :
    let q := s.port p; let b := packBlock (tkeys q.stopped) 8 q.outQ; let c := sealBlock key q.tx.seq q.tx.salt b.1
    Leads (.linkBlockSend p) s fun u => u = { s with ports := u.ports } ∧
      (u.port p).replay = q.replay ++ [{ seq := q.tx.seq, slot := q.tx.slot, pkts := b.1, cipher := c.1, gtag := c.2 }] ∧
      (u.port p).outQ = b.2 ∧ (u.port p).tx.seq = (q.tx.seq + 1) % 2 ^ 40 := by
  intro q b c
  have hs := sendBlock_eq hb hroom hkey hidle hold hn
  refine ⟨modPort s p sendBlock, ?_, rfl, ?_⟩
  · have hrun : exec (.linkBlockSend p) s = execLinkBlockSend p s := rfl
    rw [hrun, execLinkBlockSend, if_neg (by rw [hup]; exact Bool.false_ne_true)]
    dsimp only
    rw [if_neg (by omega)]
  · rw [port_modPort_self, hs]
    exact ⟨rfl, rfl, rfl⟩

theorem linkBlockReceive_eq (hup : portUp s p = true) (seq slot gtag : Nat) (cipher : List Byte) :
    exec (.linkBlockReceive p seq slot gtag cipher) s = .next (modPort s p fun q => receiveBlock q seq slot gtag cipher) :=
  congrArg Host.Outcome.next (if_pos hup)

theorem receiveBlock_accepts {q : Port} {slot gtag : Nat} {cipher : List Byte} {pkts : List Packet}
    (ho : ((q.rx.key (slot % 2)).bind fun key => openBlock key q.rx.seq q.rx.salt cipher gtag) = some pkts)
    (hroom : ∀ vc, vc < 4 → ((pkts.filter fun k => k.vc == vc).map wireFlits).sum ≤ rxFree q vc) : let r := receiveBlock q q.rx.seq slot gtag cipher
    r.inQ = q.inQ ++ pkts ∧ r.rx.seq = (q.rx.seq + 1) % 2 ^ 40 ∧ r.answer = some (false, q.rx.seq) := by
  have hfits : (List.range 4).any (fun vc => decide (rxFree q vc < ((pkts.filter fun k => k.vc == vc).map wireFlits).sum)) = false := by
    rw [List.any_eq_false]
    intro vc hvc
    have := hroom vc (List.mem_range.mp hvc)
    simp only [decide_eq_true_eq]
    omega
  unfold receiveBlock
  rw [ho]
  dsimp only
  rw [if_neg (by simp [hfits])]
  refine ⟨rfl, ?_, rfl⟩
  unfold rxSignals
  dsimp only
  split_ifs
  · rfl
  · exact setKey_seq ..

theorem linkBlockReceive_leads (hup : portUp s p = true) (seq slot gtag : Nat) (cipher : List Byte) : let q := s.port p
    let only := fun (u : State) => u = { s with ports := u.ports }
    let opened := (q.rx.key (slot % 2)).bind fun key => openBlock key seq q.rx.salt cipher gtag
    (∀ pkts, opened = some pkts → (∀ vc, vc < 4 → ((pkts.filter fun k => k.vc == vc).map wireFlits).sum ≤ rxFree q vc) →
      (seq = q.rx.seq → Leads (.linkBlockReceive p seq slot gtag cipher) s fun u => only u ∧ (u.port p).inQ = q.inQ ++ pkts ∧
        (u.port p).rx.seq = (seq + 1) % 2 ^ 40 ∧ (u.port p).answer = some (false, seq))) ∧
    (∀ pkts, opened = some pkts → seq ≠ q.rx.seq → Leads (.linkBlockReceive p seq slot gtag cipher) s fun u => only u ∧
      u.port p = { q with answer := (u.port p).answer } ∧
      ((u.port p).answer = some (true, q.rx.seq) ∨ (u.port p).answer = some (false, (q.rx.seq + 2 ^ 40 - 1) % 2 ^ 40))) ∧
    (opened = none → Leads (.linkBlockReceive p seq slot gtag cipher) s fun u => only u ∧
      u.port p = { q with tagFails := min 255 (q.tagFails + 1), answer := some (true, q.rx.seq) }) := by
  intro q only opened
  refine ⟨fun pkts ho hroom hseq => ?_, fun pkts ho hseq => ?_, fun ho => ?_⟩ <;> refine ⟨_, linkBlockReceive_eq hup seq slot gtag cipher, rfl, ?_⟩ <;>
    rw [port_modPort_self]
  · subst hseq
    exact receiveBlock_accepts ho hroom
  · have hr : receiveBlock q seq slot gtag cipher = refuseBlock q seq false := by
      unfold receiveBlock
      rw [show ((q.rx.key (slot % 2)).bind fun key => openBlock key seq q.rx.salt cipher gtag) = some pkts from ho]
      dsimp only
      rw [if_pos (by simp [hseq])]
    rw [show receiveBlock (s.port p) seq slot gtag cipher = _ from hr]
    refine ⟨rfl, ?_⟩
    unfold refuseBlock
    dsimp only
    split_ifs
    · exact .inr rfl
    · exact .inl rfl
  · have hr : receiveBlock q seq slot gtag cipher = refuseBlock q seq true := by
      unfold receiveBlock
      rw [show ((q.rx.key (slot % 2)).bind fun key => openBlock key seq q.rx.salt cipher gtag) = none from ho]
    exact hr

theorem linkAckReceive_leads (s : State) (p seq : Nat) : let q := s.port p
    let only := fun (u : State) => u = { s with ports := u.ports }
    let behind := fun (b : LinkBlock) => (seq + 2 ^ 40 - b.seq % 2 ^ 40) % 2 ^ 40
    ((∃ b ∈ q.replay, b.seq = seq) → Leads (.linkAckReceive p seq) s fun u => only u ∧ (u.port p).replay = q.replay.filter fun b => decide (2 ^ 39 ≤ behind b)) ∧
    ((∀ b ∈ q.replay, b.seq ≠ seq) → Leads (.linkAckReceive p seq) s fun u => only u ∧ (u.port p).replay = q.replay) := by
  intro q only behind
  have hreplay : ∀ u, exec (.linkAckReceive p seq) s = .next u → (u.port p).replay =
      if q.replay.any fun b => b.seq == seq then q.replay.filter fun b => decide (2 ^ 39 ≤ behind b) else q.replay := by
    intro u hu
    have hrun : exec (.linkAckReceive p seq) s = .next (modPort s p fun q => retireTx { q with
      replay := if q.replay.any fun b => b.seq == seq then q.replay.filter fun b => decide (2 ^ 39 ≤ seqBehind b.seq seq) else q.replay }) := rfl
    rw [hrun] at hu
    cases hu
    rw [port_modPort_self, retireTx_rest]
    rfl
  refine ⟨fun ⟨b, hb, hs⟩ => ⟨_, rfl, rfl, (hreplay _ rfl).trans (if_pos ?_)⟩, fun h => ⟨_, rfl, rfl, (hreplay _ rfl).trans (if_neg ?_)⟩⟩
  · exact List.any_eq_true.mpr ⟨b, hb, by simp [hs]⟩
  · simp only [List.any_eq_true, beq_iff_eq, not_exists, not_and]
    exact h
end

/-! ## A port that goes down -/

/-- From s to t only ports, lost peers and events differ, and port p neither comes up nor gets a block to keep. -/
structure StaysDown (p : Nat) (s t : State) : Prop where
  mem    : t.mem = s.mem
  down   : portUp s p = false → portUp t p = false
  replay : (t.port p).replay = (s.port p).replay

namespace StaysDown
variable {p : Nat} {s t u : State}
theorem refl (p : Nat) (s : State) : StaysDown p s s := ⟨rfl, id, rfl⟩
theorem trans (h : StaysDown p s t) (k : StaysDown p t u) : StaysDown p s u := ⟨k.mem.trans h.mem, fun e => k.down (h.down e), k.replay.trans h.replay⟩
theorem foldl {α : Type} {f : State → α → State} (hf : ∀ s x, StaysDown p s (f s x)) (xs : List α) (s : State) : StaysDown p s (xs.foldl f s) := by
  induction xs generalizing s with
  | nil => exact refl p s
  | cons x xs ih => exact (hf s x).trans (ih _)
theorem ite {c : Prop} [Decidable c] (h : StaysDown p s t) (k : StaysDown p s u) : StaysDown p s (if c then t else u) := by split_ifs <;> assumption
end StaysDown

theorem staysDown_modPort {p : Nat} (s : State) (j : Nat) (f : Port → Port)
    (hf : ∀ q : Port, (f q).replay = q.replay ∧ ((f q).state = q.state ∨ (f q).state = 0 ∨ (f q).state = 4)) : StaysDown p s (modPort s j f) := by
  refine ⟨rfl, fun h => ?_, ?_⟩
  · unfold portUp at h ⊢
    rw [port_modPort]
    split_ifs with e
    · subst e
      rcases (hf (s.port p)).2 with e | e | e <;> rw [e]
      · exact h
      · rfl
      · rfl
    · exact h
  · rw [port_modPort]
    split_ifs with e
    · subst e; exact (hf _).1
    · rfl

theorem staysDown_replacePort (p : Nat) (s : State) (j : Nat) : StaysDown p s (replacePort s j) := by
  unfold replacePort
  split
  · exact staysDown_modPort _ _ _ fun _ => ⟨rfl, .inr (.inr rfl)⟩
  · exact staysDown_modPort _ _ _ fun _ => ⟨rfl, .inr (.inl rfl)⟩

theorem staysDown_losePeer (p : Nat) (s : State) (q : Nat) : StaysDown p s (losePeer s q) :=
  .ite (.refl p s) ⟨rfl, id, rfl⟩

/-- A port that goes down is down, and keeps no block. -/
theorem portDown_leaves (s : State) (p : Nat) : portUp (portDown s p) p = false ∧ ((portDown s p).port p).replay = [] ∧ (portDown s p).mem = s.mem := by
  set s1 := modPort s p fun r => retireTx { r with state := 4, width := 0, replay := [], outQ := [], stopped := [] } with hs1
  have hport : (s1.port p).state = 4 ∧ (s1.port p).replay = [] := by
    rw [hs1, port_modPort_self, retireTx_rest]
    exact ⟨rfl, rfl⟩
  have h : StaysDown p s1 (portDown s p) := by
    have hpeer : ∀ v : State, StaysDown p v ((unreachable v).foldl losePeer (recordError v (repPort p) 4 0 0)) := fun v =>
      StaysDown.trans (t := recordError v (repPort p) 4 0 0) ⟨rfl, id, rfl⟩ (.foldl (fun t q => staysDown_losePeer p t q) _ _)
    have hmove : ∀ (ks : List Packet) (v : State), StaysDown p v (ks.foldl (fun s k => match routeTo s k.dest with
        | some j => modPort s j fun r => { r with outQ := r.outQ ++ [k] }
        | none => s) v) := fun ks v => .foldl (fun t k => by
      split
      · exact staysDown_modPort _ _ _ fun _ => ⟨rfl, .inl rfl⟩
      · exact .refl p t) ks v
    have hreplace : StaysDown p s1 ((List.range Config.ports).foldl (fun s j =>
        if j ≠ p ∧ (s.port j).state = 4 ∧ (s.port j).detourBy = some p then replacePort s j else s) (replacePort s1 p)) :=
      (staysDown_replacePort p s1 p).trans (.foldl (fun t j => .ite (staysDown_replacePort p t j) (.refl p t)) _ _)
    unfold portDown
    exact (hreplace.trans (hmove (s.port p).outQ _)).trans (hpeer _)
  exact ⟨h.down (by rw [portUp, hport.1]; rfl), h.replay.trans hport.2, h.mem⟩

section
variable {s : State} {p : Nat}

/-- The block is to be sent again. -/
def nakTaken (s : State) (p seq : Nat) : State := modPort s p fun r => { r with
  replays := min 65535 (r.replays + 1)
  replay := r.replay.map fun b => if b.seq = seq then { b with naks := b.naks + 1 } else b }

theorem linkNakReceive_eq {seq : Nat} (hup : portUp s p = true) (hb : ∃ b ∈ (s.port p).replay, b.seq = seq) : exec (.linkNakReceive p seq) s =
    .next (if ((nakTaken s p seq).port p).replay.any fun b => decide (8 ≤ b.naks) then portDown (nakTaken s p seq) p else nakTaken s p seq) := by
  obtain ⟨b, hb, hs⟩ := hb
  have hin : ¬ (!portUp s p || (s.port p).replay.all fun b => b.seq != seq) = true := by
    rw [hup]
    simp only [Bool.not_true, Bool.false_or, List.all_eq_true, bne_iff_ne, ne_eq, not_forall, not_not]
    exact ⟨b, hb, hs⟩
  exact congrArg Host.Outcome.next (if_neg hin)

theorem linkNakReceive_leads (seq : Nat) (hup : portUp s p = true) (hb : ∃ b ∈ (s.port p).replay, b.seq = seq) : let q := s.port p
    ((∀ b ∈ q.replay, b.naks < 7) → Leads (.linkNakReceive p seq) s fun u => u = { s with ports := u.ports } ∧ (u.port p).replays = min 65535 (q.replays + 1) ∧
      (u.port p).replay = q.replay.map fun b => if b.seq = seq then { b with naks := b.naks + 1 } else b) ∧
    ((∃ b ∈ q.replay, b.seq = seq ∧ 7 ≤ b.naks) → Leads (.linkNakReceive p seq) s fun u => portUp u p = false ∧ (u.port p).replay = [] ∧ u.mem = s.mem) := by
  intro q
  have hq : (nakTaken s p seq).port p = { q with
      replays := min 65535 (q.replays + 1), replay := q.replay.map fun b => if b.seq = seq then { b with naks := b.naks + 1 } else b } := port_modPort_self ..
  refine ⟨fun h => ⟨_, (linkNakReceive_eq hup hb).trans (congrArg _ (if_neg ?_)), rfl, ?_⟩,
    fun ⟨b, hbr, hs, hn⟩ => ⟨_, (linkNakReceive_eq hup hb).trans (congrArg _ (if_pos ?_)), ?_⟩⟩
  · rw [hq]
    simp only [List.any_map, List.any_eq_true, Function.comp_apply, decide_eq_true_eq, not_exists, not_and, not_le]
    intro b hbr
    have := h b hbr
    split_ifs
    · exact Nat.succ_lt_succ this
    · exact Nat.lt_succ_of_lt this
  · rw [hq]
    exact ⟨rfl, rfl⟩
  · rw [hq]
    simp only [List.any_map, List.any_eq_true, Function.comp_apply, decide_eq_true_eq]
    exact ⟨b, hbr, by rw [if_pos hs]; dsimp only; omega⟩
  · exact portDown_leaves (nakTaken s p seq) p

theorem mem_tkeys_tins {α : Type} (t : Tbl α) (i : Nat) (v : α) : i ∈ tkeys (tins i v t) := by
  induction t with
  | nil => simp [tins, tkeys]
  | cons e t ih =>
    obtain ⟨k, w⟩ := e
    unfold tins
    split_ifs with h1 h2
    · simp [tkeys]
    · simp [tkeys]
    · simp only [tkeys, List.map_cons, List.mem_cons] at ih ⊢
      exact .inr ih

theorem not_mem_tkeys_tdel {α : Type} (t : Tbl α) (i : Nat) : i ∉ tkeys (tdel t i) := by
  simp [tkeys, tdel]

theorem vcStopSignal_leads (s : State) (p vc : Nat) : (Leads (.vcStopSignal p vc true) s fun u => u = { s with ports := u.ports } ∧ vc ∈ tkeys (u.port p).stopped) ∧
    Leads (.vcStopSignal p vc false) s fun u => u = { s with ports := u.ports } ∧ vc ∉ tkeys (u.port p).stopped := by
  refine ⟨⟨_, rfl, rfl, ?_⟩, ⟨_, rfl, rfl, ?_⟩⟩ <;> rw [port_modPort_self]
  · dsimp only
    rw [if_pos rfl]
    split_ifs with h
    · simpa using h
    · exact mem_tkeys_tins ..
  · exact not_mem_tkeys_tdel (s.port p).stopped vc

/-! ## Training and recalibration -/

/-- Training that ends without success: the port is down, with an error event. -/
theorem trainEnd_fails (s : State) (p : Nat) : ((trainEnd s p false).port p).state = 0 ∧ Reported (trainEnd s p false) (256 + p) 4 := by
  refine ⟨?_, ?_⟩
  · have h : (trainEnd s p false).port p = (modPort s p fun q => { q with state := 0 }).port p := rfl
    rw [h, port_modPort_self]
  · exact ⟨_, List.mem_concat_self, rfl, rfl, rfl, rfl⟩

theorem portTrainingDone_leads (hq : (s.port p).state = 1) (peer rtt : Nat) :
    let good := s.position.map (fun pos => portPeer pos p) = some peer ∧ rtt ≤ 300 ∧ s.ct < (s.port p).deadline
    (good → Leads (.portTrainingDone p peer rtt) s fun u => ∃ v, u = pumpFabric v ∧
      v.mem = s.mem ∧ (v.port p).state = 2 ∧ (v.port p).width = 4 ∧ (v.port p).peer = peer ∧ (v.port p).rtt = rtt ∧ peer ∉ v.lostPeers) ∧
    (¬good → Leads (.portTrainingDone p peer rtt) s fun u => (u.port p).state = 0 ∧ Reported u (256 + p) 4) := by
  intro good
  set s1 := modPort s p fun q => { q with state := 2, width := 4, peer := peer, rtt := rtt } with hs1
  have hrun : exec (.portTrainingDone p peer rtt) s = .next (if (s.port p).state ≠ 1 then s
      else if !(s.position.map (fun pos => portPeer pos p) == some peer && decide (rtt ≤ 300) && decide (s.ct < (s.port p).deadline)) then trainEnd s p false
      else pumpFabric (trainEnd { s1 with lostPeers := s1.lostPeers.filter (· ≠ peer) } p true)) := rfl
  rw [if_neg (by simp [hq])] at hrun
  have hok : (s.position.map (fun pos => portPeer pos p) == some peer && decide (rtt ≤ 300) && decide (s.ct < (s.port p).deadline)) = decide good :=
    Bool.eq_iff_iff.mpr (by simp [good, and_assoc])
  rw [hok] at hrun
  refine ⟨fun h => ⟨_, hrun.trans (congrArg _ (if_neg (by simp [h]))), _, rfl, rfl, ?_⟩, fun h => ⟨_, hrun.trans (congrArg _ (if_pos (by simp [h]))), trainEnd_fails s p⟩⟩
  have hport : (trainEnd { s1 with lostPeers := s1.lostPeers.filter (· ≠ peer) } p true).port p = { s.port p with state := 2, width := 4, peer := peer, rtt := rtt } := by
    have h1 : (trainEnd { s1 with lostPeers := s1.lostPeers.filter (· ≠ peer) } p true).port p = s1.port p := rfl
    rw [h1, hs1, port_modPort_self]
  rw [hport]
  refine ⟨rfl, rfl, rfl, rfl, ?_⟩
  have hl : (trainEnd { s1 with lostPeers := s1.lostPeers.filter (· ≠ peer) } p true).lostPeers = s1.lostPeers.filter (· ≠ peer) := rfl
  rw [hl]
  simp

theorem portTrainingTimeout_leads (hq : (s.port p).state = 1) (hd : (s.port p).deadline ≤ s.ct) :
    Leads (.portTrainingTimeout p) s fun u => (u.port p).state = 0 ∧ Reported u (256 + p) 4 :=
  ⟨_, congrArg Host.Outcome.next (if_pos ⟨hq, hd⟩), trainEnd_fails s p⟩

theorem linkRecalLaneDone_leads (hq : (s.port p).state = 3) : let q := s.port p
    (q.recalLane < 3 → Leads (.linkRecalLaneDone p true) s fun u => u = { s with ports := u.ports } ∧ u.port p = { q with recalLane := q.recalLane + 1 }) ∧
    (3 ≤ q.recalLane → Leads (.linkRecalLaneDone p true) s fun u => u.port p = { q with state := 2, width := 4, recalLane := 0 } ∧ Recorded u 7 p) ∧
    Leads (.linkRecalLaneDone p false) s fun u => u.port p = { q with state := 2, width := 3, recalLane := 0 } ∧ Reported u (256 + p) 4 := by
  intro q
  have hn : ¬ (s.port p).state ≠ 1 + 2 := not_not.mpr hq
  refine ⟨fun h => ⟨_, congrArg Host.Outcome.next ((if_neg hn).trans ((if_neg (by simp)).trans (if_pos h))), rfl, port_modPort_self ..⟩,
    fun h => ⟨_, congrArg Host.Outcome.next ((if_neg hn).trans ((if_neg (by simp)).trans (if_neg (Nat.not_lt.mpr h)))), ?_, ?_⟩,
    ⟨_, congrArg Host.Outcome.next ((if_neg hn).trans (if_pos rfl)), ?_, ?_⟩⟩
  · exact port_modPort_self s p fun r => { r with state := 2, width := 4, recalLane := 0 }
  · exact ⟨_, List.getLast?_concat, rfl, rfl, rfl⟩
  · exact port_modPort_self s p fun r => { r with state := 2, width := 3, recalLane := 0 }
  · exact ⟨_, List.mem_concat_self, rfl, rfl, rfl, rfl⟩
end

/-! ## Token buckets -/

/-- Entries that a fold sets, under keys of their own. -/
theorem tget_foldl_tset {α : Type} [DecidableEq α] (d : α) {key : Nat → Nat} (hk : Function.Injective key) (g : Nat → α) (ks : List Nat) (m : Tbl α) (t : Nat) :
    tget d (ks.foldl (fun m k => tset d m (key k) (g k)) m) (key t) = if t ∈ ks then g t else tget d m (key t) := by
  induction ks generalizing m with
  | nil => simp
  | cons k ks ih =>
    rw [List.foldl_cons, ih, tget_tset]
    by_cases h : t = k
    · subst h; simp
    · simp [h, hk.eq_iff]

theorem dividePool_nil (pool : Nat) : dividePool pool [] = [] := by
  unfold dividePool
  exact if_pos rfl

theorem fabricBucketRefill_leads {s : State} {p : Nat} (ht : s.ct % 1500 = 0) (hr : (s.port p).refillAt ≠ s.ct) (hp : p < 14) (hw : waitingAt s p = []) :
    Leads (.fabricBucketRefill p) s fun u => ∃ v, u = pumpFabric v ∧ v.reqs = s.reqs ∧
      ∀ t, t < 12 → let b := tget {} s.buckets (bucketKey p t)
        tget {} v.buckets (bucketKey p t) = { b with level := min (b.level + b.rate) (max b.burst b.level) } := by
  set b := fun t => tget ({} : Bucket) s.buckets (bucketKey p t) with hb
  refine ⟨_, congrArg Host.Outcome.next (if_neg ?_), modPort { s with
    buckets := (List.range 12).foldl (fun m t => tset {} m (bucketKey p t) { b t with level := min ((b t).level + (b t).rate) (max (b t).burst (b t).level) }) s.buckets } p
      fun q => { q with refillAt := s.ct }, ?_, rfl, fun t h => ?_⟩
  · simp only [not_or, not_not, not_le]
    exact ⟨ht, hr, hp⟩
  · rw [hw]
    simp only [List.map_nil, dividePool_nil, List.find?_nil, Option.map_none, Option.getD_none, Nat.add_zero, hb]
    rfl
  · refine (tget_foldl_tset ({} : Bucket) (fun x y h => Nat.add_left_cancel h) _ _ _ t).trans ?_
    rw [if_pos (List.mem_range.mpr h)]

theorem lendTokens_rest (slice : Nat) (s : State) (gs : List (Nat × Nat)) : ∃ B, lendTokens slice s gs = { s with l2Buckets := B } := by
  unfold lendTokens
  induction gs generalizing s with
  | nil => exact ⟨_, rfl⟩
  | cons g gs ih =>
    rw [List.foldl_cons]
    obtain ⟨B, h⟩ := ih { s with l2Buckets := tmod {} s.l2Buckets (bucketOf slice g.1) fun b => { b with level := b.level + g.2, lent := b.lent + g.2 } }
    exact ⟨B, h⟩

/-- What the bucket of a context at a slice holds after lent tokens are taken back and the rate is added. -/
def l2Filled (s : State) (h : Nat) (b : Bucket) : Nat :=
  min (b.level - min b.lent b.level + (l2Share s h).1) (max (l2Share s h).2 (b.level - min b.lent b.level))

/-- One context's bucket is filled, and the excess is noted for its partition. -/
def l2Fill (s : State) (slice : Nat) (acc : State × List (Nat × Nat)) (h : Nat) : State × List (Nat × Nat) :=
  let b := tget {} acc.1.l2Buckets (bucketOf slice h)
  ({ acc.1 with l2Buckets := tset {} acc.1.l2Buckets (bucketOf slice h) { level := l2Filled s h b } },
    acc.2 ++ [((s.context h).part, b.level - min b.lent b.level + (l2Share s h).1 - l2Filled s h b)])

theorem foldl_l2Fill (s : State) (slice : Nat) (hs : List Nat) (acc : State × List (Nat × Nat)) :
    (∃ B, (hs.foldl (l2Fill s slice) acc).1 = { acc.1 with l2Buckets := B }) ∧
    (hs.Nodup → ∀ h, (tget {} (hs.foldl (l2Fill s slice) acc).1.l2Buckets (bucketOf slice h)) = if h ∈ hs then { level := l2Filled s h (tget {} acc.1.l2Buckets (bucketOf slice h)) }
      else tget {} acc.1.l2Buckets (bucketOf slice h)) := by
  have hinj : ∀ x y, bucketOf slice x = bucketOf slice y ↔ x = y := fun x y => Nat.add_left_cancel_iff
  induction hs generalizing acc with
  | nil => exact ⟨⟨_, rfl⟩, fun _ h => (if_neg List.not_mem_nil).symm⟩
  | cons x hs ih =>
    obtain ⟨⟨B, hB⟩, hget⟩ := ih (l2Fill s slice acc x)
    refine ⟨⟨B, hB⟩, fun hnd h => ?_⟩
    obtain ⟨hx, hnd⟩ := List.nodup_cons.mp hnd
    have hset : tget {} (l2Fill s slice acc x).1.l2Buckets (bucketOf slice h) = if h = x then { level := l2Filled s x (tget {} acc.1.l2Buckets (bucketOf slice x)) }
        else tget ({} : Bucket) acc.1.l2Buckets (bucketOf slice h) := by
      unfold l2Fill
      dsimp only
      rw [tget_tset]
      simp only [hinj]
    rw [List.foldl_cons, hget hnd h, hset]
    by_cases e : h = x
    · subst e; simp [hx]
    · simp [e]

/-- The excess of partition p goes to its own waiting contexts. -/
def lendOwn (s : State) (slice : Nat) (waits : List Nat) (excess : List (Nat × Nat)) (acc : State × List (Nat × Nat)) (p : Nat) : State × List (Nat × Nat) :=
  let pool := ((excess.filter fun e => e.1 == p).map Prod.snd).sum
  let gs := dividePool pool (lendTo acc.1 slice (waits.filter fun h => (s.context h).part == p))
  (lendTokens slice acc.1 gs, acc.2 ++ [(p, pool - (gs.map Prod.snd).sum)])

/-- What is left goes to waiting contexts of others. -/
def lendOthers (s : State) (slice : Nat) (waits : List Nat) (t : State) (e : Nat × Nat) : State :=
  lendTokens slice t (dividePool e.2 (lendTo t slice (waits.filter fun h => (s.context h).part != e.1)))

theorem l2BucketRefill_eq {s : State} {slice : Nat} (ht : s.ct % 1500 = 0) (hr : tget 0 s.l2Refill slice ≠ s.ct) (hp : slice < 64) :
    let base := (liveCtxs s).foldl (l2Fill s slice) ({ s with l2Refill := tset 0 s.l2Refill slice s.ct }, [])
    let own := (List.range 12).foldl (lendOwn s slice (waitingL2 s slice) base.2) (base.1, [])
    exec (.l2BucketRefill slice) s = .next (own.2.foldl (lendOthers s slice (waitingL2 s slice)) own.1) := by
  refine congrArg Host.Outcome.next (if_neg ?_)
  simp only [not_or, not_not, not_le]
  exact ⟨ht, hr, hp⟩

theorem foldl_lendOwn_rest (s : State) (slice : Nat) (waits : List Nat) (excess : List (Nat × Nat)) (ps : List Nat) (acc : State × List (Nat × Nat)) :
    (∃ B, (ps.foldl (lendOwn s slice waits excess) acc).1 = { acc.1 with l2Buckets := B }) ∧
    (waits = [] → (ps.foldl (lendOwn s slice waits excess) acc).1 = acc.1) := by
  induction ps generalizing acc with
  | nil => exact ⟨⟨_, rfl⟩, fun _ => rfl⟩
  | cons p ps ih =>
    obtain ⟨⟨B, hB⟩, hn⟩ := ih (lendOwn s slice waits excess acc p)
    obtain ⟨C, hC⟩ : ∃ C, (lendOwn s slice waits excess acc p).1 = { acc.1 with l2Buckets := C } := lendTokens_rest ..
    refine ⟨⟨B, ?_⟩, fun hw => (hn hw).trans ?_⟩
    · rw [List.foldl_cons, hB, hC]
    · subst hw
      unfold lendOwn lendTo
      dsimp only
      rw [List.filter_nil, List.map_nil, dividePool_nil]
      rfl

theorem foldl_lendOthers_rest (s : State) (slice : Nat) (waits : List Nat) (es : List (Nat × Nat)) (t : State) :
    (∃ B, es.foldl (lendOthers s slice waits) t = { t with l2Buckets := B }) ∧ (waits = [] → es.foldl (lendOthers s slice waits) t = t) := by
  induction es generalizing t with
  | nil => exact ⟨⟨_, rfl⟩, fun _ => rfl⟩
  | cons e es ih =>
    obtain ⟨⟨B, hB⟩, hn⟩ := ih (lendOthers s slice waits t e)
    obtain ⟨C, hC⟩ : ∃ C, lendOthers s slice waits t e = { t with l2Buckets := C } := lendTokens_rest ..
    refine ⟨⟨B, ?_⟩, fun hw => (hn hw).trans ?_⟩
    · rw [List.foldl_cons, hB, hC]
    · subst hw
      unfold lendOthers lendTo
      rw [List.filter_nil, List.map_nil, dividePool_nil]
      rfl

theorem l2BucketRefill_leads {s : State} {p : Nat} (ht : s.ct % 1500 = 0) (hr : tget 0 s.l2Refill p ≠ s.ct) (hp : p < 64) :
    Leads (.l2BucketRefill p) s fun u => u = { s with l2Buckets := u.l2Buckets, l2Refill := u.l2Refill } ∧ tget 0 u.l2Refill p = s.ct ∧
      (waitingL2 s p = [] → (liveCtxs s).Nodup → ∀ h ∈ liveCtxs s, let b := tget {} s.l2Buckets (bucketOf p h)
        let left := b.level - min b.lent b.level
        (tget {} u.l2Buckets (bucketOf p h)).level = min (left + (l2Share s h).1) (max (l2Share s h).2 left)) := by
  refine ⟨_, l2BucketRefill_eq ht hr hp, ?_⟩
  obtain ⟨⟨B, hB⟩, hget⟩ := foldl_l2Fill s p (liveCtxs s) ({ s with l2Refill := tset 0 s.l2Refill p s.ct }, [])
  set base := (liveCtxs s).foldl (l2Fill s p) ({ s with l2Refill := tset 0 s.l2Refill p s.ct }, [])
  obtain ⟨⟨C, hC⟩, hown⟩ := foldl_lendOwn_rest s p (waitingL2 s p) base.2 (List.range 12) (base.1, [])
  set own := (List.range 12).foldl (lendOwn s p (waitingL2 s p) base.2) (base.1, [])
  obtain ⟨⟨D, hD⟩, hothers⟩ := foldl_lendOthers_rest s p (waitingL2 s p) own.2 own.1
  have hu : own.2.foldl (lendOthers s p (waitingL2 s p)) own.1 = { s with l2Refill := tset 0 s.l2Refill p s.ct, l2Buckets := D } := by rw [hD, hC, hB]
  refine ⟨by rw [hu], by rw [hu]; simp only [tget_tset, if_true], fun hw hnd h hh => ?_⟩
  have hlast : own.2.foldl (lendOthers s p (waitingL2 s p)) own.1 = base.1 := (hothers hw).trans (hown hw)
  dsimp only
  rw [hlast, hget hnd h, if_pos hh]
  rfl

/-- Settles O50: the link's functions act on one port, a port that goes down stays down while routes are replaced, and a bucket's level is what
one assignment gives it where no context waits. -/
theorem fabricLinks : Obligations.FabricLinks := by
  unfold Obligations.FabricLinks
  intro s p q only err
  exact ⟨fun key hup hb hroom hkey hidle hold hn => linkBlockSend_leads hup hb hroom hkey hidle hold hn,
    fun seq slot gtag cipher hup => linkBlockReceive_leads hup seq slot gtag cipher, fun seq => linkAckReceive_leads s p seq,
    fun seq hup hb => linkNakReceive_leads seq hup hb, fun vc => vcStopSignal_leads s p vc, fun peer rtt hq => portTrainingDone_leads hq peer rtt,
    portTrainingTimeout_leads, linkRecalLaneDone_leads, fabricBucketRefill_leads, l2BucketRefill_leads⟩

end Sys2Proof.Machine
end

section
/-! PROOF. Packets, requests of peers, responses, and lost peers (R50–R58, R66, R70). -/

set_option Elab.async false

namespace Sys2Proof.Machine

/-! ## Routes -/

/-- Routes depend on the position, on which ports carry packets, and on what replaces a port that is down. -/
theorem routeTo_congr {s t : State} (hp : t.position = s.position) (hq : ∀ j, (t.port j).state = (s.port j).state ∧ (t.port j).detourBy = (s.port j).detourBy) (q : Nat) :
    routeTo t q = routeTo s q := by
  have hup : portUp t = portUp s := funext fun j => by unfold portUp; rw [(hq j).1]
  unfold routeTo
  rw [hp]
  split
  · rfl
  · dsimp only
    rw [hup, (hq _).1, (hq _).2]

/-- The oldest packet has left a port's receive buffer. -/
def packetTaken (s : State) (port : Nat) (k : Packet) : State := modPort s port fun r => rxSignals { r with inQ := r.inQ.erase k }

theorem packetTaken_port (s : State) (port : Nat) (k : Packet) (j : Nat) : ((packetTaken s port k).port j).outQ = (s.port j).outQ ∧
    ((packetTaken s port k).port j).state = (s.port j).state ∧ ((packetTaken s port k).port j).detourBy = (s.port j).detourBy ∧
    ((packetTaken s port k).port port).inQ = (s.port port).inQ.erase k := by
  unfold packetTaken
  rw [port_modPort_self, port_modPort]
  refine ⟨?_, ?_, ?_, rfl⟩ <;> split_ifs with h
  · rw [h]; rfl
  · rfl
  · rw [h]; rfl
  · rfl
  · rw [h]; rfl
  · rfl

section
variable {s : State} {port : Nat} {k : Packet}

theorem fabricPacketReceive_eq (h : (s.port port).inQ.find? (fun x => x.vc == k.vc) = some k) : exec (.fabricPacketReceive port k) s = .next (
    let s1 := packetTaken s port k
    if defective k then recordError s1 (repPort port) 5 k.addr 0
    else if ownPeer s = some k.dest then
      if k.typ < 8 then { s1 with seq := s1.seq + 1, inbound := tset {} s1.inbound (tfree s1.inbound) { pkt := k, seq := s1.seq } } else takeResponse s1 k
    else match routeTo s1 k.dest with
      | some p => modPort s1 p fun r => { r with outQ := r.outQ ++ [k] }
      | none => s) := congrArg Host.Outcome.next (if_neg (not_not.mpr h))

theorem fabricPacketReceive_leads (h : (s.port port).inQ.find? (fun x => x.vc == k.vc) = some k) :
    let left := fun (u : State) => (u.port port).inQ = (s.port port).inQ.erase k ∧ u.mem = s.mem ∧ u.reqs = s.reqs
    (defective k = true → Leads (.fabricPacketReceive port k) s fun u => left u ∧ Reported u (256 + port) 5) ∧
    (defective k = false → ownPeer s = some k.dest → k.typ < 8 → Leads (.fabricPacketReceive port k) s fun u => left u ∧
      tget {} u.inbound (tfree s.inbound) = { pkt := k, seq := s.seq }) ∧
    (∀ p, defective k = false → ownPeer s ≠ some k.dest → routeTo s k.dest = some p → Leads (.fabricPacketReceive port k) s fun u => left u ∧
      (u.port p).outQ = (s.port p).outQ ++ [k]) := by
  intro left
  have hin := (packetTaken_port s port k port).2.2.2
  refine ⟨fun hd => ⟨_, (fabricPacketReceive_eq h).trans (congrArg _ (if_pos hd)), ⟨hin, rfl, rfl⟩, ⟨_, List.mem_concat_self, rfl, rfl, rfl, rfl⟩⟩,
    fun hd ho ht => ⟨_, (fabricPacketReceive_eq h).trans (congrArg _ ((if_neg (by simp [hd])).trans ((if_pos ho).trans (if_pos ht)))), ⟨hin, rfl, rfl⟩, ?_⟩,
    fun p hd ho hr => ⟨modPort (packetTaken s port k) p fun r => { r with outQ := r.outQ ++ [k] }, ?_, ⟨?_, rfl, rfl⟩, ?_⟩⟩
  · exact (tget_tset ..).trans (if_pos rfl)
  · rw [fabricPacketReceive_eq h]
    dsimp only
    rw [if_neg (by simp [hd]), if_neg ho, routeTo_congr (s := s) (t := packetTaken s port k) rfl (fun j => ⟨(packetTaken_port s port k j).2.1, (packetTaken_port s port k j).2.2.1⟩), hr]
  · rw [port_modPort]
    split_ifs with e
    · rw [← e]; exact hin
    · exact hin
  · rw [port_modPort_self]
    exact congrArg (· ++ [k]) (packetTaken_port s port k p).1
end

/-! ## Requests of peers -/

theorem tget_of_find {α : Type} (d : α) (t : Tbl α) (i : Nat) (x : α) (h : t.find? (fun e => e.1 == i) = some (i, x)) : tget d t i = x := by
  induction t with
  | nil => cases h
  | cons e t ih =>
    obtain ⟨k, v⟩ := e
    rw [List.find?_cons] at h
    by_cases hk : k = i
    · subst hk
      rw [beq_self_eq_true] at h
      cases h
      rw [tget, if_pos rfl]
    · rw [beq_eq_false_iff_ne.mpr hk] at h
      rw [tget, if_neg (Ne.symm hk)]
      exact ih h

/-- The packet that answers an inbound request. -/
def answerPacket (x : Inbound) (status code : Nat) (data : List Byte) : Packet := {
  status := status, addr := code, part := if x.stage = .egress then x.pkt.part else x.part, tag := x.pkt.tag, dlen := (data.length + 63) / 64
  typ := respType x.pkt, vc := 2, src := x.pkt.dest, dest := x.pkt.src, data := data }

/-- The request is forgotten. -/
def inboundGone (s : State) (index : Nat) : State := { s with inbound := tdel s.inbound index, reqs := s.reqs.filter fun r => r.inb != some index }

theorem answer_eq (s : State) (index status code : Nat) (data : List Byte) : let x := tget {} s.inbound index
    answer s index status code data = match x.own with
      | some id => (match (inboundGone s index).reqs.find? fun r => r.id == id with
        | some r => takeAnswer (inboundGone s index) r (answerPacket x status code data)
        | none => inboundGone s index)
      | none => if s.lostPeers.contains x.pkt.src then inboundGone s index
        else (sendPacket (inboundGone s index) x.pkt.src (answerPacket x status code data) false).getD (inboundGone s index) := rfl

/-- A packet that is sent changes ports only. -/
theorem sendPacket_rest (s : State) (q : Nat) (k : Packet) (d : Bool) : ∃ ports, (sendPacket s q k d).getD s = { s with ports := ports } := by
  unfold sendPacket
  cases egressOf s q k d with
  | none => exact ⟨_, rfl⟩
  | some e => exact ⟨_, rfl⟩

theorem copyAnswer_ok (s : State) (id code : Nat) : copyAnswer s id 0 code = s := by
  unfold copyAnswer
  split
  · exact if_pos rfl
  · rfl

theorem modReq_answers (s : State) (id : Nat) (f : Req → Req) (hf : ∀ x, (f x).inb = x.inb) :
    modReq s id f = s ∨ ∃ g : Req → Req, (∀ x, (g x).inb = x.inb) ∧ modReq s id f = modReq s id g := .inr ⟨f, hf, rfl⟩

/-- A response without an error changes only its request. -/
theorem takeAnswer_ok {s : State} {r : Req} {k : Packet} (hk : k.status = 0) : takeAnswer s r k = s ∨
    ∃ f : Req → Req, (∀ x, (f x).inb = x.inb) ∧ takeAnswer s r k = modReq s r.id f := by
  have h1 : ¬ k.status = 1 := by omega
  have h2 : ¬ answerStatus k = 2 := by rw [answerStatus, hk]; decide
  unfold takeAnswer
  simp only [if_neg h1, if_neg h2]
  split
  · by_cases ht : k.typ ≠ 8
    · rw [if_pos ht]; exact .inl rfl
    · rw [if_neg ht]; exact modReq_answers _ _ _ fun _ => rfl
  · by_cases ht : k.typ ≠ 9
    · rw [if_pos ht]; exact .inl rfl
    · have hs : (match r.copy with | some id => copyAnswer s id k.status (k.addr % 256) | none => s) = s := by
        split
        · rw [hk, copyAnswer_ok]
        · rfl
      rw [if_neg ht]
      refine .inr ⟨fun x => { x with stage := .reply, status := answerStatus k }, fun _ => rfl, ?_⟩
      exact congrArg (fun t => modReq t r.id fun x => { x with stage := .reply, status := answerStatus k }) hs
  · by_cases ht : k.typ ≠ if r.dest.isSome then 10 else 9
    · rw [if_pos ht]; exact .inl rfl
    · rw [if_neg ht]; exact modReq_answers _ _ _ fun _ => rfl
  · exact .inl rfl

theorem inboundGone_leaves (s : State) (index : Nat) : index ∉ tkeys (inboundGone s index).inbound ∧ (inboundGone s index).mem = s.mem ∧
    ∀ q ∈ (inboundGone s index).reqs, q.inb ≠ some index := by
  refine ⟨not_mem_tkeys_tdel s.inbound index, rfl, fun q hq => ?_⟩
  simpa using (List.mem_filter.mp hq).2

/-- An answer without an error forgets its request, and changes no memory. -/
theorem answer_ok (s : State) (index : Nat) (data : List Byte) : let v := answer s index 0 0 data
    index ∉ tkeys v.inbound ∧ v.mem = s.mem ∧ ∀ q ∈ v.reqs, q.inb ≠ some index := by
  obtain ⟨hi, hm, hr⟩ := inboundGone_leaves s index
  dsimp only
  rw [answer_eq]
  split
  · split
    · next r _ =>
      rcases takeAnswer_ok (s := inboundGone s index) (r := r) (k := answerPacket (tget {} s.inbound index) 0 0 data) rfl with h | ⟨f, hf, h⟩ <;> rw [h]
      · exact ⟨hi, hm, hr⟩
      · refine ⟨hi, hm, fun q hq => ?_⟩
        obtain ⟨x, hx, rfl⟩ := List.mem_map.mp hq
        split_ifs
        · rw [hf]; exact hr x hx
        · exact hr x hx
    · exact ⟨hi, hm, hr⟩
  · split_ifs
    · exact ⟨hi, hm, hr⟩
    · obtain ⟨ports, hp⟩ := sendPacket_rest (inboundGone s index) (tget {} s.inbound index).pkt.src (answerPacket (tget {} s.inbound index) 0 0 data) false
      rw [hp]
      exact ⟨hi, hm, hr⟩

/-- Without a session a peer's request is answered with REJECT. -/
theorem answer_refuses {s : State} {index : Nat} {x : Inbound} (hx : tget {} s.inbound index = x) (hown : x.own = none) (status code : Nat) : let u := answer s index status code []
    index ∉ tkeys u.inbound ∧ u.mem = s.mem ∧ ∀ p, x.pkt.src ∉ s.lostPeers → routeTo s x.pkt.src = some p → detourPort s p 2 = none →
      answerPacket x status code [] ∈ (u.port p).outQ := by
  obtain ⟨hi, hm, -⟩ := inboundGone_leaves s index
  have he : answer s index status code [] = if s.lostPeers.contains x.pkt.src then inboundGone s index
        else (sendPacket (inboundGone s index) x.pkt.src (answerPacket x status code []) false).getD (inboundGone s index) := by
    rw [answer_eq, hx, hown]
  obtain ⟨ports, hp⟩ := sendPacket_rest (inboundGone s index) x.pkt.src (answerPacket x status code []) false
  refine ⟨?_, ?_, fun p hl hr hd => ?_⟩
  · rw [he, hp]; split_ifs <;> exact hi
  · rw [he, hp]; split_ifs <;> exact hm
  · rw [he, if_neg (by simpa using hl)]
    have hegress : egressOf (inboundGone s index) x.pkt.src (answerPacket x status code []) false = some (p, false) := by
      unfold egressOf
      rw [show routeTo (inboundGone s index) x.pkt.src = some p from hr, Option.map_some]
      refine congrArg some ?_
      have hnone : (if (inboundGone s index).position.any (fun pos => minimalPort pos x.pkt.src == p) && !false &&
          ((answerPacket x status code []).typ == 0 || decide (8 ≤ (answerPacket x status code []).typ)) then
          detourPort (inboundGone s index) p (answerPacket x status code []).vc else none) = none := by
        split_ifs
        · exact hd
        · rfl
      dsimp only
      rw [hnone]
    unfold sendPacket
    rw [hegress, Option.map_some, Option.getD_some, putPacket, port_modPort_self]
    exact List.mem_concat_self

theorem mem_foldl_addReq (g : State → Req → Req) (rs : List Req) (s : State) : (∀ q ∈ s.reqs, q ∈ (rs.foldl (fun u r => addReq u (g u r)) s).reqs) ∧
    ∀ r ∈ rs, ∃ u, g u r ∈ (rs.foldl (fun u r => addReq u (g u r)) s).reqs := by
  induction rs generalizing s with
  | nil => exact ⟨fun _ h => h, fun _ h => nomatch h⟩
  | cons r rs ih =>
    obtain ⟨hold, hnew⟩ := ih (addReq s (g s r))
    refine ⟨fun q hq => hold q (List.mem_append_left _ hq), fun x hx => ?_⟩
    rcases List.mem_cons.mp hx with rfl | hx
    · exact ⟨s, hold _ (List.mem_append_right _ (List.mem_singleton_self _))⟩
    · exact hnew x hx

/-- A peer's access that passes its checks makes its requests, each numbered as it is made. -/
theorem serveNew_requests {s : State} {index : Nat} {x : Inbound} {t h : Nat} {y : Xl} (hs : sessionFor s x.pkt.src x.pkt.part = some (t, h))
    (ht : x.pkt.typ = 0 ∨ x.pkt.typ = 1) (hx : xlate s 64 t (x.pkt.addr % 2 ^ 48) (inboundAcc x.pkt) false = .ok y) (hy : y.tier = false) :
    ∀ r ∈ inboundReqs s index h t y.entry.gen x.pkt .home y.pa, ∃ q ∈ (serveNew s index x).reqs,
      q.kind = r.kind ∧ q.inb = r.inb ∧ q.ctx = r.ctx ∧ q.place = r.place ∧ q.bytes = r.bytes := by
  set s0 := { s with inbound := tmod {} s.inbound index fun i => { i with stage := .held, part := t } } with hs0
  have hx0 : xlate s0 64 t (x.pkt.addr % 2 ^ 48) (inboundAcc x.pkt) false = .ok y := hx
  have hrun : serveNew s index x = (inboundReqs s0 index h t y.entry.gen x.pkt .home y.pa).foldl (fun u r =>
      addReq u { r with id := u.seq, va := x.pkt.addr % 2 ^ 48 + 64 * r.sub, hold := r.kind != .load && (y.hold || pageHeld u t (x.pkt.addr % 2 ^ 48 + 64 * r.sub)) })
      (notePte s0 t (x.pkt.addr % 2 ^ 48) (inboundAcc x.pkt) y.entry) := by
    unfold serveNew
    dsimp only
    rw [hs]
    dsimp only
    rw [if_neg (by omega)]
    change (match xlate s0 64 t (x.pkt.addr % 2 ^ 48) (inboundAcc x.pkt) false with | .error f => answer s0 index 2 (xfaultCode f) [] | .ok y => _) = _
    rw [hx0]
    dsimp only
    rw [hy]
    rfl
  intro r hr
  obtain ⟨u, hu⟩ := (mem_foldl_addReq (fun u r => { r with
      id := u.seq, va := x.pkt.addr % 2 ^ 48 + 64 * r.sub, hold := r.kind != .load && (y.hold || pageHeld u t (x.pkt.addr % 2 ^ 48 + 64 * r.sub)) })
    (inboundReqs s0 index h t y.entry.gen x.pkt .home y.pa) (notePte s0 t (x.pkt.addr % 2 ^ 48) (inboundAcc x.pkt) y.entry)).2 r hr
  rw [hrun]
  exact ⟨_, hu, rfl, rfl, rfl, rfl, rfl⟩

section
variable {s : State} {index : Nat} {x : Inbound}

theorem fabricRequestServe_eq (hf : s.inbound.find? (fun e => e.1 == index) = some (index, x)) (he : x.stage = .egress) :
    exec (.fabricRequestServe index) s = .next (if inTurn s x then serveNew s index x else s) := by
  have hrun : exec (.fabricRequestServe index) s = execFabricRequestServe index s := rfl
  rw [hrun, execFabricRequestServe, hf]
  dsimp only
  rw [if_pos he]

theorem fabricRequestServe_leads (hf : s.inbound.find? (fun e => e.1 == index) = some (index, x)) (he : x.stage = .egress) :
    (inTurn s x = false → exec (.fabricRequestServe index) s = .next s) ∧
    (inTurn s x = true → sessionFor s x.pkt.src x.pkt.part = none → x.own = none → Leads (.fabricRequestServe index) s fun u =>
      index ∉ tkeys u.inbound ∧ u.mem = s.mem ∧ ∀ p, x.pkt.src ∉ s.lostPeers → routeTo s x.pkt.src = some p → detourPort s p 2 = none →
        ∃ a ∈ (u.port p).outQ, a.status = 3 ∧ a.addr = 6 ∧ a.tag = x.pkt.tag ∧ a.dest = x.pkt.src ∧ a.part = x.pkt.part) ∧
    (∀ t h y, inTurn s x = true → sessionFor s x.pkt.src x.pkt.part = some (t, h) → y.tier = false →
      (x.pkt.typ = 0 → xlate s 64 t (x.pkt.addr % 2 ^ 48) .read false = .ok y → Leads (.fabricRequestServe index) s fun u => ∀ n, n < x.pkt.dlen →
        ∃ r ∈ u.reqs, r.kind = .load ∧ r.inb = some index ∧ r.ctx = h ∧ r.place = .home (y.pa / 64 * 64 + 64 * n)) ∧
      (x.pkt.typ = 1 → xlate s 64 t (x.pkt.addr % 2 ^ 48) .write false = .ok y → Leads (.fabricRequestServe index) s fun u => ∀ n, n < x.pkt.dlen →
        ∃ r ∈ u.reqs, r.kind = .store ∧ r.inb = some index ∧ r.ctx = h ∧ r.place = .home (y.pa / 64 * 64 + 64 * n) ∧
          ∀ (j : Nat) (b : Byte), j < 64 → x.pkt.data[64 * n + j]? = some b → x.pkt.mask.getD (64 * n + j) false = true → (j, b) ∈ r.bytes)) := by
  have hin := tget_of_find {} s.inbound index x hf
  refine ⟨fun h => (fabricRequestServe_eq hf he).trans (congrArg _ (if_neg (by simp [h]))), fun h hs hown => ?_,
    fun t h y hin hs hy => ⟨fun ht hx => ?_, fun ht hx => ?_⟩⟩
  · obtain ⟨h1, h2, h3⟩ := answer_refuses hin hown 3 0x06
    refine ⟨answer s index 3 0x06 [], ?_, h1, h2, fun p hl hr hd => ⟨_, h3 p hl hr hd, rfl, rfl, rfl, rfl, if_pos he⟩⟩
    rw [fabricRequestServe_eq hf he, if_pos h, serveNew]
    dsimp only
    rw [hs]
  · have hacc : inboundAcc x.pkt = .read := by rw [inboundAcc, ht]; rfl
    have hreqs := serveNew_requests (index := index) hs (.inl ht) (by rw [hacc]; exact hx) hy
    refine ⟨_, (fabricRequestServe_eq hf he).trans (congrArg _ (if_pos hin)), fun n hn => ?_⟩
    obtain ⟨q, hq, h1, h2, h3, h4, -⟩ := hreqs _ (by
      rw [inboundReqs, ht]
      exact List.mem_map_of_mem (List.mem_range.mpr hn))
    exact ⟨q, hq, h1, h2, h3, h4⟩
  · have hacc : inboundAcc x.pkt = .write := by rw [inboundAcc, ht]; rfl
    have hreqs := serveNew_requests (index := index) hs (.inr ht) (by rw [hacc]; exact hx) hy
    refine ⟨_, (fabricRequestServe_eq hf he).trans (congrArg _ (if_pos hin)), fun n hn => ?_⟩
    obtain ⟨q, hq, h1, h2, h3, h4, h5⟩ := hreqs _ (by
      rw [inboundReqs, ht]
      exact List.mem_map_of_mem (List.mem_range.mpr hn))
    refine ⟨q, hq, h1, h2, h3, h4, fun j b hj hd hm => ?_⟩
    rw [h5]
    refine List.mem_filterMap.mpr ⟨j, List.mem_range.mpr hj, ?_⟩
    rw [if_pos hm, List.getD_eq_getElem?_getD, hd, Option.getD_some]

/-! ## Responses and lost peers -/

theorem fabricResponseReceive_leads {k : Packet} {r : Req} (ho : ownPeer s = some k.dest) (hd : k.src ≠ k.dest) (hr : requestOf s k = some r)
    (hk : r.kind = .load) (ht : k.typ = 8) (hst : k.status = 0) : Leads (.fabricResponseReceive k) s fun u => ∃ v, u = pumpFabric v ∧ v.mem = s.mem ∧
      ∃ x ∈ v.reqs, x.id = r.id ∧ x.stage = .reply ∧ x.status = 0 ∧ x.sect = List.replicate (64 * sectLo r) 0 ++ k.data := by
  have hans : takeAnswer s r k = modReq s r.id fun x => { x with
      stage := .reply, sect := List.replicate (64 * sectLo r) 0 ++ k.data, ctc := coreCt s r.core, fcode := k.addr % 256, status := 0 } := by
    have h0 : answerStatus k = 0 := by rw [answerStatus, hst]; rfl
    unfold takeAnswer
    dsimp only
    rw [hk, hst, h0, ht]
    dsimp only
    rw [if_neg (by decide), ite_self]
    rfl
  have hrun : exec (.fabricResponseReceive k) s = .next (pumpFabric (takeAnswer s r k)) := by
    refine (congrArg Host.Outcome.next (if_pos ⟨ho, hd⟩)).trans ?_
    rw [takeResponse, hr]
  refine ⟨_, hrun, _, rfl, by rw [hans]; rfl, ?_⟩
  rw [hans]
  exact ⟨_, List.mem_map_of_mem (List.mem_of_find?_eq_some hr), by rw [if_pos rfl]; exact ⟨rfl, rfl, rfl, rfl⟩⟩

theorem fabricWriteAckSend_eq (h : inboundOpen s index ≠ []) (ht : respType (tget {} s.inbound index).pkt = 9) : exec (.fabricWriteAckSend index) s =
    .next (if (inboundOpen s index).all fun r => r.stage == .reply && passed s.ct r.ctc then pumpFabric (answer s index 0 0 []) else s) := by
  refine congrArg Host.Outcome.next (if_neg ?_)
  simp only [List.isEmpty_iff, ne_eq, not_or, not_not]
  exact ⟨h, ht⟩

theorem fabricWriteAckSend_leads (h : inboundOpen s index ≠ []) (ht : respType (tget {} s.inbound index).pkt = 9) :
    ((∀ r ∈ inboundOpen s index, r.stage = .reply ∧ passed s.ct r.ctc = true) → Leads (.fabricWriteAckSend index) s fun u =>
      ∃ v, u = pumpFabric v ∧ v.mem = s.mem ∧ index ∉ tkeys v.inbound ∧ ∀ q ∈ v.reqs, q.inb ≠ some index) ∧
    ((∃ r ∈ inboundOpen s index, r.stage ≠ .reply ∨ passed s.ct r.ctc = false) → exec (.fabricWriteAckSend index) s = .next s) := by
  refine ⟨fun hall => ?_, fun ⟨r, hr, hno⟩ => (fabricWriteAckSend_eq h ht).trans (congrArg _ (if_neg ?_))⟩
  · obtain ⟨h1, h2, h3⟩ := answer_ok s index []
    refine ⟨_, (fabricWriteAckSend_eq h ht).trans (congrArg _ (if_pos ?_)), _, rfl, h2, h1, h3⟩
    rw [List.all_eq_true]
    intro r hr
    obtain ⟨ha, hb⟩ := hall r hr
    rw [ha, hb]
    rfl
  · rw [List.all_eq_true]
    intro hall
    have := hall r hr
    simp only [Bool.and_eq_true, beq_iff_eq] at this
    rcases hno with hno | hno
    · exact hno this.1
    · rw [hno] at this
      exact Bool.false_ne_true this.2

/-- A peer that is lost is among the lost, and was so before or is reported. -/
theorem losePeer_leaves (s : State) (q : Nat) : q ∈ (losePeer s q).lostPeers ∧ (losePeer s q).mem = s.mem ∧ (losePeer s q).reqs = s.reqs ∧
    (q ∉ s.lostPeers → Reported (losePeer s q) 310 4) := by
  unfold losePeer
  split_ifs with h
  · exact ⟨by simpa using h, rfl, rfl, fun hq => absurd (by simpa using h) hq⟩
  · exact ⟨List.mem_concat_self, rfl, rfl, fun _ => ⟨_, List.mem_concat_self, rfl, rfl, rfl, rfl⟩⟩

/-- A request to a peer that has gone out with a tag. -/
def awaitsPeer (tag : Nat) (r : Req) : Bool := r.stage == .held && r.tag == tag && (match r.place with | .peer _ _ => true | _ => false)

/-- What the time since a request was sent does to its peer. -/
def peerTimedOut (s : State) (tag : Nat) (o : Option Req) : State :=
  match o with
  | some r => (match r.place with
    | .peer q _ => if r.ctc + 2 ^ 24 ≤ s.ct ∧ tag < 4096 then losePeer s q else s
    | _ => s)
  | none => s

theorem peerRequestTimeout_leads {tag q off : Nat} {r : Req} (hr : s.reqs.find? (awaitsPeer tag) = some r)
    (hp : r.place = .peer q off) (ht : tag < 4096) (hc : r.ctc + 2 ^ 24 ≤ s.ct) :
    Leads (.peerRequestTimeout tag) s fun u => q ∈ u.lostPeers ∧ (q ∉ s.lostPeers → Reported u 310 4) := by
  have hrun : exec (.peerRequestTimeout tag) s = .next (losePeer s q) := by
    have e : exec (.peerRequestTimeout tag) s = .next (peerTimedOut s tag (s.reqs.find? (awaitsPeer tag))) := rfl
    rw [e, hr, peerTimedOut]
    rw [hp]
    exact congrArg Host.Outcome.next (if_pos ⟨hc, ht⟩)
  obtain ⟨h1, -, -, h4⟩ := losePeer_leaves s q
  exact ⟨_, hrun, h1, h4⟩
end

/-- Settles O49: a packet, a request or a response is found, and what it does is one change of a port, a table or a request. -/
theorem fabricTraffic : Obligations.FabricTraffic := by
  unfold Obligations.FabricTraffic
  intro s
  exact ⟨fun port k h => fabricPacketReceive_leads h, fun index x hf he => fabricRequestServe_leads hf he,
    fun k r ho hd hr hk ht hst => fabricResponseReceive_leads ho hd hr hk ht hst, fun index h ht => fabricWriteAckSend_leads h ht,
    fun tag q off r hr hp ht hc => peerRequestTimeout_leads hr hp ht hc, fun q => ⟨_, rfl, losePeer_leaves s q⟩⟩

end Sys2Proof.Machine
end

section
/-! PROOF. Launch channels, records, markers and waits (R75–R86). -/

set_option Elab.async false

namespace Sys2Proof.Machine

/-! ## One channel -/

theorem chan_modChan (s : State) (p c : Nat) (f : Chan → Chan) (q d : Nat) : (modChan s p c f).chan q d = if q = p ∧ d = c then f (s.chan p c) else s.chan q d := by
  unfold State.chan modChan
  rw [part_modPart]
  by_cases hq : q = p
  · subst hq
    rw [if_pos rfl]
    refine (tget_tmod ({} : Chan) (s.part q).chans c d f).trans ?_
    by_cases hd : d = c
    · rw [if_pos hd, if_pos ⟨rfl, hd⟩]
    · rw [if_neg hd, if_neg fun h => hd h.2]
  · rw [if_neg hq, if_neg fun h => hq h.1]

theorem chan_modChan_self (s : State) (p c : Nat) (f : Chan → Chan) : (modChan s p c f).chan p c = f (s.chan p c) := by
  rw [chan_modChan, if_pos ⟨rfl, rfl⟩]

theorem chan_modPart_other (s : State) (p : Nat) (f : Part_ → Part_) (hf : ∀ q, (f q).chans = q.chans) (q d : Nat) : (modPart s p f).chan q d = s.chan q d := by
  unfold State.chan
  rw [part_modPart]
  split_ifs with h
  · rw [h, hf]
  · rfl

/-- From s to t every channel is as it was, but for the test of its waits. -/
structure SameChans (s t : State) : Prop where
  chan : ∀ q d, t.chan q d = { s.chan q d with ready := (t.chan q d).ready }

namespace SameChans
variable {s t u : State}
theorem refl (s : State) : SameChans s s := ⟨fun _ _ => rfl⟩
theorem trans (h : SameChans s t) (k : SameChans t u) : SameChans s u := ⟨fun q d => by rw [k.chan q d, h.chan q d]⟩
theorem foldl {α : Type} {f : State → α → State} (hf : ∀ s x, SameChans s (f s x)) (xs : List α) (s : State) : SameChans s (xs.foldl f s) := by
  induction xs generalizing s with
  | nil => exact refl s
  | cons x xs ih => exact (hf s x).trans (ih _)
theorem ite {c : Prop} [Decidable c] (h : SameChans s t) (k : SameChans s u) : SameChans s (if c then t else u) := by split_ifs <;> assumption
end SameChans

theorem sameChans_parts {s t : State} (h : t.parts = s.parts) : SameChans s t := ⟨fun q d => by
  have e : t.chan q d = s.chan q d := by unfold State.chan State.part; rw [h]
  rw [e]⟩

theorem sameChans_modPart (s : State) (p : Nat) (f : Part_ → Part_) (hf : ∀ q, (f q).chans = q.chans) : SameChans s (modPart s p f) := ⟨fun q d => by rw [chan_modPart_other s p f hf]⟩

theorem sameChans_evalChan (s : State) (p c : Nat) : SameChans s (evalChan s p c) := by
  unfold evalChan
  dsimp only
  split
  · exact .refl s
  · refine .ite ⟨fun q d => ?_⟩ (.refl s)
    rw [chan_modChan]
    split_ifs with h
    · obtain ⟨rfl, rfl⟩ := h; rfl
    · rfl

theorem sameChans_devNum (s : State) (a n x : Nat) : SameChans s (devNum s a n x) := by
  refine .trans (sameChans_parts ?_) (.foldl (fun t (e : Nat × Nat) => sameChans_evalChan t e.1 e.2) _ _)
  unfold putNum
  rw [putBytes_parts]
  unfold snoopOwn
  split_ifs <;> rfl

theorem sameChans_notePte (s : State) (p va : Nat) (acc : Acc) (e : TlbEntry) : SameChans s (notePte s p va acc e) := by
  have hlog : ∀ t : State, SameChans t (logDirty t p (va / e.size * e.size) e.size) := fun t => by
    unfold logDirty
    dsimp only
    exact .ite (.refl t) (.ite (sameChans_modPart _ _ _ fun _ => rfl) ((sameChans_devNum ..).trans (sameChans_modPart _ _ _ fun _ => rfl)))
  unfold notePte
  dsimp only
  generalize (memRead s e.leaf 8 ||| 2 ^ 10) ||| (if (writes acc && !e.dirty) = true then 2 ^ 11 else 0) = x
  exact .ite (.refl s) (.ite ((sameChans_devNum ..).trans (hlog _)) (sameChans_devNum ..))

/-! ## Interrupts and halts -/

/-- An interrupt's bit stands once it has been raised; channels stay. -/
theorem raiseInt_leaves (s : State) (p n : Nat) : bit ((raiseInt s p n).part p).intStatus n = true ∧ (raiseInt s p n).mem = s.mem ∧
    (∀ q d, (raiseInt s p n).chan q d = s.chan q d) ∧ (raiseInt s p n).svc.news = s.svc.news ∧ (raiseInt s p n).ct = s.ct ∧ (raiseInt s p n).ctxs = s.ctxs := by
  unfold raiseInt
  dsimp only
  by_cases h : bit (s.part p).intStatus n = true
  · rw [if_pos h]
    exact ⟨h, rfl, fun _ _ => rfl, rfl, rfl, rfl⟩
  · rw [if_neg h]
    have hbit : bit ((modPart s p fun r => { r with intStatus := r.intStatus + 2 ^ n }).part p).intStatus n = true := by
      rw [part_modPart, if_pos rfl]
      change ((s.part p).intStatus + 2 ^ n).testBit n = true
      rw [Nat.add_comm, Nat.testBit_two_pow_add_eq]
      simpa [bit] using h
    have hchan := chan_modPart_other s p (fun r => { r with intStatus := r.intStatus + 2 ^ n }) fun _ => rfl
    by_cases hm : bit ((modPart s p fun r => { r with intStatus := r.intStatus + 2 ^ n }).part p).intMask n = true
    · rw [if_pos (by rw [part_modPart, if_pos rfl] at hm; exact hm)]
      exact ⟨hbit, rfl, hchan, rfl, rfl, rfl⟩
    · rw [if_neg (by rw [part_modPart, if_pos rfl] at hm; exact hm)]
      exact ⟨hbit, rfl, hchan, rfl, rfl, rfl⟩

/-- A channel that has been halted. -/
def haltedChan (k : Chan) (code : Nat) : Chan := { k with err := code, halted := true, miss := 0, wait := none, w0 := none, w1 := none, ready := false }

theorem haltChan_leaves (s : State) (p c code : Nat) : (haltChan s p c code).chan p c = haltedChan (s.chan p c) code ∧
    bit ((haltChan s p c code).part p).intStatus 17 = true ∧ (haltChan s p c code).mem = s.mem ∧ (haltChan s p c code).svc.news = s.svc.news ∧
    (haltChan s p c code).ct = s.ct := by
  unfold haltChan
  obtain ⟨h1, h2, h3, h4, h5, -⟩ := raiseInt_leaves
    (modChan s p c fun k => { k with err := code, halted := true, miss := 0, wait := none, w0 := none, w1 := none, ready := false }) p 17
  exact ⟨(h3 p c).trans (chan_modChan_self ..), h1, h2, h4, h5⟩

/-- From s to u a channel has been halted with a code, at the record it stood at. -/
def Halts (s u : State) (p c code : Nat) : Prop :=
  (u.chan p c).halted = true ∧ (u.chan p c).err = code ∧ (u.chan p c).head = (s.chan p c).head ∧ bit (u.part p).intStatus 17 = true

theorem halts_haltChan (s : State) (p c code : Nat) : Halts s (haltChan s p c code) p c code := by
  obtain ⟨h1, h2, -⟩ := haltChan_leaves s p c code
  unfold Halts
  rw [h1]
  exact ⟨rfl, rfl, rfl, h2⟩

/-! ## Registers of a channel -/

section
variable {s : State} {p c : Nat}

theorem chanThere_in (hp : p < 12) (hc : c < 16) : chanThere p c = true := by
  simp only [chanThere, Bool.and_eq_true, decide_eq_true_eq]
  exact ⟨hp, hc⟩

/-- A write of CHAN_CFG to a channel that is there. -/
theorem chanCfgWrite_eq (hp : p < 12) (hc : c < 16) (v : W64) {size base : Nat}
    (hs : size = if (s.chan p c).enable then (s.chan p c).sizeLog2 else ringLog (bits v.toNat 44 40))
    (hb : base = if (s.chan p c).enable then (s.chan p c).base else bits v.toNat 38 8) :
    exec (.chanCfgWrite p c v) s = .next (
      if bit v.toNat 63 && !(s.chan p c).enable && !ringOk s p (256 * base) (256 * 2 ^ size) then modChan s p c fun k => { k with err := 10 }
      else modChan s p c fun k =>
        let k := { k with enable := bit v.toNat 63, prio := cappedPrio s p (bits v.toNat 55 48), sizeLog2 := size, base := base }
        if bit v.toNat 63 then k else { k with wait := none, w0 := none, w1 := none, ready := false }) := by
  subst hs hb
  exact congrArg Host.Outcome.next (if_neg (by rw [chanThere_in hp hc]; decide))

theorem chanCfgWrite_leads (hp : p < 12) (hc : c < 16) (v : W64) : let k := s.chan p c; let x := v.toNat
    let size := if k.enable then k.sizeLog2 else ringLog (bits x 44 40)
    let base := if k.enable then k.base else bits x 38 8
    (bit x 63 = true → k.enable = false → ringOk s p (256 * base) (256 * 2 ^ size) = false → Leads (.chanCfgWrite p c v) s fun u =>
      u = { s with parts := u.parts } ∧ u.chan p c = { k with err := 10 }) ∧
    (bit x 63 = true → k.enable = true ∨ ringOk s p (256 * base) (256 * 2 ^ size) = true → Leads (.chanCfgWrite p c v) s fun u =>
      u = { s with parts := u.parts } ∧ u.chan p c = { k with enable := true, prio := min (bits x 55 48) (s.part p).prioCap, sizeLog2 := size, base := base }) ∧
    (bit x 63 = false → Leads (.chanCfgWrite p c v) s fun u => (u.chan p c).enable = false ∧ (u.chan p c).head = k.head ∧ (u.chan p c).tail = k.tail ∧
      (u.chan p c).miss = k.miss ∧ (u.chan p c).halted = k.halted) := by
  intro k x size base
  have hrun := chanCfgWrite_eq (s := s) hp hc v (size := size) (base := base) rfl rfl
  clear_value size base
  refine ⟨fun hon hk hr => ⟨_, hrun.trans (congrArg _ (if_pos (by rw [hon, hk, hr]; rfl))), rfl, chan_modChan_self ..⟩,
    fun hon hr => ⟨_, hrun.trans (congrArg _ (if_neg ?_)), rfl, (chan_modChan_self ..).trans ?_⟩,
    fun hoff => ⟨_, hrun.trans (congrArg _ (if_neg (by rw [hoff]; simp))), ?_⟩⟩
  · rcases hr with hr | hr <;> rw [hr] <;> simp
  · dsimp only
    rw [show bit v.toNat 63 = true from hon, if_pos rfl]
    rfl
  · have hu := chan_modChan_self s p c fun k =>
      let k := { k with enable := bit v.toNat 63, prio := cappedPrio s p (bits v.toNat 55 48), sizeLog2 := size, base := base }
      if bit v.toNat 63 then k else { k with wait := none, w0 := none, w1 := none, ready := false }
    dsimp only at hu ⊢
    rw [hu, show bit v.toNat 63 = false from hoff, if_neg Bool.false_ne_true]
    exact ⟨rfl, rfl, rfl, rfl, rfl⟩


theorem chanDoorbell_leads (hp : p < 12) (hc : c < 16) (t : W32) (hr : s.pkg.ready = true) (ht : t.toNat ≠ (s.chan p c).tail) : let k := s.chan p c
    ((t.toNat + 2 ^ 32 - k.head) % 2 ^ 32 ≤ 2 ^ k.sizeLog2 → Leads (.chanDoorbell p c t) s fun u => (u.chan p c).tail = t.toNat ∧
      (u.chan p c).head = k.head ∧ (u.chan p c).halted = k.halted ∧ u.mem = s.mem) ∧
    (2 ^ k.sizeLog2 < (t.toNat + 2 ^ 32 - k.head) % 2 ^ 32 → Leads (.chanDoorbell p c t) s fun u => Halts s u p c 1 ∧ (u.chan p c).tail = k.tail) := by
  intro k
  have hgo : ¬ (!chanThere p c || !s.pkg.ready || decide (t.toNat = k.tail)) = true := by
    rw [chanThere_in hp hc, hr]
    simpa using ht
  refine ⟨fun h => ⟨_, congrArg Host.Outcome.next ((if_neg hgo).trans (if_pos h)), ?_⟩,
    fun h => ⟨_, congrArg Host.Outcome.next ((if_neg hgo).trans (if_neg (Nat.not_le.mpr h))), halts_haltChan s p c 1, ?_⟩⟩
  · dsimp only
    rw [chan_modChan_self]
    exact ⟨rfl, rfl, rfl, rfl⟩
  · rw [(haltChan_leaves s p c 1).1]
    rfl

theorem chanHaltedClear_leads (hp : p < 12) (hc : c < 16) (h : (s.chan p c).halted = true) : Leads (.chanHaltedClear p c) s fun u =>
    u = { s with parts := u.parts } ∧ u.chan p c = { s.chan p c with halted := false, miss := 0 } :=
  ⟨_, congrArg Host.Outcome.next (if_neg (by rw [chanThere_in hp hc]; decide)), rfl, (chan_modChan_self ..).trans (if_pos h)⟩

theorem chanSkip_leads (hp : p < 12) (hc : c < 16) (h : (s.chan p c).halted = true) (hne : (s.chan p c).head ≠ (s.chan p c).tail) :
    Leads (.chanSkip p c) s fun u => u = { s with parts := u.parts } ∧
      (u.chan p c).head = ((s.chan p c).head + 1) % 2 ^ 32 ∧ (u.chan p c).halted = false ∧ (u.chan p c).tail = (s.chan p c).tail := by
  refine ⟨_, congrArg Host.Outcome.next (if_neg (by rw [chanThere_in hp hc]; decide)), rfl, ?_⟩
  rw [chan_modChan_self, if_neg (by rw [h]; decide), if_neg hne]
  exact ⟨rfl, rfl, rfl⟩

end

/-! ## The record at HEAD -/

/-- The values of two words in the same memory are the same. -/
theorem waitHolds_mem {s t : State} (h : t.mem = s.mem) (code target : Nat) (w : Option (Bool × Nat)) (v : Option Nat) :
    waitHolds t code target w v = waitHolds s code target w v := by
  have e : syncValue t = syncValue s := by
    funext a polled
    unfold syncValue memRead memBytes memByte
    rw [h]
  unfold waitHolds
  rw [e]

theorem pollWord_congr {s t : State} (hp : t.pkg = s.pkg) (hl : t.hostLines = s.hostLines) (hm : t.hostMem = s.hostMem) : pollWord t = pollWord s := by
  funext w
  unfold pollWord lineOwned hostView hostViewByte hostByte
  rw [hp, hl, hm]

theorem chan_pollHost (s : State) (p c : Nat) (r : Record) (hw : (s.chan p c).wait = some r) : pollHost s p c = { s with parts := (pollHost s p c).parts } ∧
    (pollHost s p c).chan p c = { s.chan p c with pollAt := s.ct, v0 := pollWord s (s.chan p c).w0, v1 := pollWord s (s.chan p c).w1, ready := (s.chan p c).ready ||
      (waitHolds s (r.wait0 % 8) r.wait0v (s.chan p c).w0 (pollWord s (s.chan p c).w0) && waitHolds s (r.wait1 % 8) r.wait1v (s.chan p c).w1 (pollWord s (s.chan p c).w1)) } := by
  have hk := chan_modChan_self s p c fun k => { k with pollAt := s.ct, v0 := pollWord s k.w0, v1 := pollWord s k.w1 }
  have hm : (modChan s p c fun k => { k with pollAt := s.ct, v0 := pollWord s k.w0, v1 := pollWord s k.w1 }).mem = s.mem := rfl
  have hr : (modChan s p c fun k => { k with pollAt := s.ct, v0 := pollWord s k.w0, v1 := pollWord s k.w1 }) =
    { s with parts := (modChan s p c fun k => { k with pollAt := s.ct, v0 := pollWord s k.w0, v1 := pollWord s k.w1 }).parts } := rfl
  unfold pollHost
  generalize modChan s p c (fun k => { k with pollAt := s.ct, v0 := pollWord s k.w0, v1 := pollWord s k.w1 }) = t at hk hm hr ⊢
  unfold evalChan
  dsimp only
  rw [hk]
  dsimp only
  rw [hw]
  dsimp only
  rw [waitHolds_mem hm, waitHolds_mem hm]
  split_ifs with h
  · refine ⟨by rw [hr]; rfl, ?_⟩
    rw [chan_modChan_self, hk]
    dsimp only
    rw [hw, h]
  · refine ⟨hr, ?_⟩
    rw [Bool.not_eq_true] at h
    rw [hk, hw, h, (Bool.or_eq_false_iff.mp h).1]

theorem noteWait_leaves (s : State) (p a : Nat) : Marked s (noteWait s p a) ∧ SameChans s (noteWait s p a) := by
  unfold noteWait
  split_ifs
  · exact ⟨.refl s, .refl s⟩
  · split
    · exact ⟨marked_notePte .., sameChans_notePte ..⟩
    · exact ⟨.refl s, .refl s⟩

/-- The record that stands at a channel's HEAD. -/
def headRecord (s : State) (p c : Nat) : Record :=
  parseRecord (memBytes s (256 * (s.chan p c).base + 256 * ((s.chan p c).head % 2 ^ (s.chan p c).sizeLog2)) 256)

section
variable {s : State} {p c : Nat}

variable {r : Record}

theorem readHead_off (hr : headRecord s p c = r) (h : r.seq ≠ (s.chan p c).head % 2 ^ 16) : readHead s p c =
    if 15 ≤ (s.chan p c).miss then haltChan s p c 2 else modChan s p c fun k => { k with miss := k.miss + 1, readAt := s.ct } := by
  unfold headRecord at hr
  unfold readHead
  dsimp only
  rw [hr, if_pos h]

theorem readHead_on (hr : headRecord s p c = r) (h : r.seq = (s.chan p c).head % 2 ^ 16) : readHead s p c =
    if recordError_ s p r ≠ 0 then haltChan s p c (recordError_ s p r)
    else match waitPlace s p r.wait0, waitPlace s p r.wait1 with
    | some a, some b => pollHost (modChan (noteWait (noteWait s p r.wait0) p r.wait1) p c fun k =>
        { k with miss := 0, wait := some r, w0 := a, w1 := b, ready := false }) p c
    | _, _ => haltChan s p c 11 := by
  unfold headRecord at hr
  unfold readHead
  dsimp only
  rw [hr, if_neg (not_not.mpr h)] <;> rfl

/-- A record that passes every check waits. -/
theorem readHead_waits {a b : Option (Bool × Nat)} {u : State} (hr : headRecord s p c = r) (hrun : readHead s p c = u)
    (h : r.seq = (s.chan p c).head % 2 ^ 16) (he : recordError_ s p r = 0) (ha : waitPlace s p r.wait0 = some a) (hb : waitPlace s p r.wait1 = some b) :
    (u.chan p c).wait = some r ∧ (u.chan p c).w0 = a ∧ (u.chan p c).w1 = b ∧ (u.chan p c).head = (s.chan p c).head ∧ u.ctxs = s.ctxs ∧
      (u.chan p c).ready = (waitHolds u (r.wait0 % 8) r.wait0v a (pollWord s a) && waitHolds u (r.wait1 % 8) r.wait1v b (pollWord s b)) := by
  have hu : u = pollHost (modChan (noteWait (noteWait s p r.wait0) p r.wait1) p c fun k => { k with miss := 0, wait := some r, w0 := a, w1 := b, ready := false }) p c := by
    rw [← hrun, readHead_on hr h, if_neg (not_not.mpr he), ha, hb]
  obtain ⟨m1, c1⟩ := noteWait_leaves s p r.wait0
  obtain ⟨m2, c2⟩ := noteWait_leaves (noteWait s p r.wait0) p r.wait1
  have m := m1.trans m2
  have hc := (c1.trans c2).chan p c
  generalize noteWait (noteWait s p r.wait0) p r.wait1 = t at m hc hu
  have hk := chan_modChan_self t p c fun k => { k with miss := 0, wait := some r, w0 := a, w1 := b, ready := false }
  have hrest : (modChan t p c fun k => { k with miss := 0, wait := some r, w0 := a, w1 := b, ready := false }) =
    { t with parts := (modChan t p c fun k => { k with miss := 0, wait := some r, w0 := a, w1 := b, ready := false }).parts } := rfl
  generalize modChan t p c (fun k => { k with miss := 0, wait := some r, w0 := a, w1 := b, ready := false }) = v at hk hu hrest
  obtain ⟨q1, q2⟩ := chan_pollHost v p c r (by rw [hk])
  rw [← hu] at q1 q2
  have hv : v.ctxs = s.ctxs ∧ v.pkg = s.pkg ∧ v.hostLines = s.hostLines ∧ v.hostMem = s.hostMem := by
    rw [hrest, m.rest]
    exact ⟨rfl, rfl, rfl, rfl⟩
  obtain ⟨v1, v2, v3, v4⟩ := hv
  have hmem : u.mem = v.mem := by rw [q1]
  rw [pollWord_congr v2 v3 v4, hk, hc] at q2
  rw [waitHolds_mem hmem, waitHolds_mem hmem, q2]
  refine ⟨rfl, rfl, rfl, rfl, by rw [q1, ← v1], ?_⟩
  exact Bool.false_or _

/-- What a look at the record at HEAD does, where the word is one that looks. -/
theorem readHead_looks {i : Instr} (hi : exec i s = .next (readHead s p c)) (hr : headRecord s p c = r) : let k := s.chan p c
    (r.seq ≠ k.head % 2 ^ 16 → k.miss < 15 → Leads i s fun u => u = { s with parts := u.parts } ∧ (u.chan p c) = { k with miss := k.miss + 1, readAt := s.ct }) ∧
    (r.seq ≠ k.head % 2 ^ 16 → 15 ≤ k.miss → Leads i s fun u => Halts s u p c 2 ∧ u.mem = s.mem) ∧
    (r.seq = k.head % 2 ^ 16 → recordError_ s p r ≠ 0 → Leads i s fun u => Halts s u p c (recordError_ s p r) ∧ u.mem = s.mem) ∧
    (∀ a b, r.seq = k.head % 2 ^ 16 → recordError_ s p r = 0 → waitPlace s p r.wait0 = some a → waitPlace s p r.wait1 = some b →
      Leads i s fun u => (u.chan p c).wait = some r ∧ (u.chan p c).w0 = a ∧ (u.chan p c).w1 = b ∧ (u.chan p c).head = k.head ∧ u.ctxs = s.ctxs ∧
        (u.chan p c).ready = (waitHolds u (r.wait0 % 8) r.wait0v a (pollWord s a) && waitHolds u (r.wait1 % 8) r.wait1v b (pollWord s b))) ∧
    (r.seq = k.head % 2 ^ 16 → recordError_ s p r = 0 → (waitPlace s p r.wait0 = none ∨ waitPlace s p r.wait1 = none) →
      Leads i s fun u => Halts s u p c 11 ∧ u.mem = s.mem) := by
  intro k
  have halt : ∀ n, readHead s p c = haltChan s p c n → Leads i s fun u => Halts s u p c n ∧ u.mem = s.mem := fun n hn =>
    ⟨_, hi, by rw [hn]; exact ⟨halts_haltChan .., (haltChan_leaves s p c n).2.2.1⟩⟩
  refine ⟨fun h1 h2 => ⟨_, hi, ?_⟩, fun h1 h2 => halt 2 ((readHead_off hr h1).trans (if_pos h2)),
    fun h1 h2 => halt _ ((readHead_on hr h1).trans (if_pos h2)), fun a b h1 h2 ha hb => ⟨_, hi, readHead_waits hr rfl h1 h2 ha hb⟩, fun h1 h2 h3 => halt 11 ?_⟩
  · rw [readHead_off hr h1, if_neg (Nat.not_le.mpr h2)]
    exact ⟨rfl, chan_modChan_self ..⟩
  · rw [readHead_on hr h1, if_neg (not_not.mpr h2)]
    rcases h3 with h3 | h3
    · rw [h3]
    · rw [h3]
      cases waitPlace s p r.wait0 <;> rfl

theorem recordAtHead_looks (h : headDue s (s.chan p c) = true) (hm : (s.chan p c).miss = 0) : exec (.recordAtHead p c) s = .next (readHead s p c) :=
  congrArg Host.Outcome.next (if_pos (by rw [h, hm]; rfl))

theorem recordSeqRecheck_looks (h : headDue s (s.chan p c) = true) (hm : (s.chan p c).miss ≠ 0) (ht : (s.chan p c).readAt + 1500 ≤ s.ct) :
    exec (.recordSeqRecheck p c) s = .next (readHead s p c) :=
  congrArg Host.Outcome.next (if_pos (by rw [h, bne_iff_ne.mpr hm, decide_eq_true ht]; rfl))

theorem syncWordPollHost_leads (r : Record) (hw : (s.chan p c).wait = some r) (hr : (s.chan p c).ready = false)
    (ho : (onHost (s.chan p c).w0 || onHost (s.chan p c).w1) = true) (hl : s.pkg.linkUp = true) (ht : (s.chan p c).pollAt + 1500 ≤ s.ct) : let k := s.chan p c
    Leads (.syncWordPollHost p c) s fun u =>
      u = { s with parts := u.parts } ∧ (u.chan p c).pollAt = s.ct ∧ (u.chan p c).v0 = pollWord s k.w0 ∧ (u.chan p c).v1 = pollWord s k.w1 ∧
      (u.chan p c).ready = (waitHolds s (r.wait0 % 8) r.wait0v k.w0 (pollWord s k.w0) && waitHolds s (r.wait1 % 8) r.wait1v k.w1 (pollWord s k.w1)) := by
  intro k
  obtain ⟨h1, h2⟩ := chan_pollHost s p c r hw
  refine ⟨_, congrArg Host.Outcome.next (if_pos ?_), h1, ?_⟩
  · simp only [pollDue, hw, hr, ho, hl, decide_eq_true ht]
    rfl
  · rw [h2, hr]
    exact ⟨rfl, rfl, rfl, rfl⟩

end

/-! ## Starts -/

section
variable {s : State} {p c : Nat}

theorem recordStart_leads (r : Record) (hw : (s.chan p c).wait = some r) (hk : r.kind = 0) (hf : startsFirst s p c = true) :
    Leads (.recordStart p c) s fun u => let x := u.context (tfree s.ctxs)
      x.live = true ∧ x.part = p ∧ x.chan = c ∧ x.index = (s.chan p c).head ∧ x.record = r ∧ x.prio = (s.chan p c).prio ∧ x.nextGang = 0 ∧
      (u.chan p c).head = ((s.chan p c).head + 1) % 2 ^ 32 ∧ Recorded u 1 0 ∧ u.mem = s.mem ∧ u.blocks = s.blocks := by
  refine ⟨startContext s p c r, ?_, ?_⟩
  · refine congrArg Host.Outcome.next ?_
    rw [hw]
    exact if_pos (by rw [hk, hf]; rfl)
  have hx : ∀ t : State, t.chan p c = s.chan p c → t.mem = s.mem → t.blocks = s.blocks → ∀ e : BbEntry, e.kind = 1 → e.code = 0 →
      ((blackBox (modChan t p c nextHead) e).chan p c).head = ((s.chan p c).head + 1) % 2 ^ 32 ∧ Recorded (blackBox (modChan t p c nextHead) e) 1 0 ∧
      (blackBox (modChan t p c nextHead) e).mem = s.mem ∧ (blackBox (modChan t p c nextHead) e).blocks = s.blocks := fun t h1 h2 h3 e e1 e2 => by
    refine ⟨?_, ⟨_, List.getLast?_concat, e1, e2, rfl⟩, h2, h3⟩
    change ((modChan t p c nextHead).chan p c).head = _
    rw [chan_modChan_self, h1]
    rfl
  have hctx : ∀ (v : Ctx), tget ({} : Ctx) (tset {} s.ctxs (tfree s.ctxs) v) (tfree s.ctxs) = v := fun v => by rw [tget_tset, if_pos rfl]
  unfold startContext
  dsimp only
  have hcx : ∀ (t : State) (e : BbEntry), (blackBox (modChan t p c nextHead) e).context (tfree s.ctxs) = tget {} t.ctxs (tfree s.ctxs) := fun _ _ => rfl
  split
  · rw [hcx]
    unfold modHctx
    dsimp only
    rw [hctx]
    exact ⟨rfl, rfl, rfl, rfl, rfl, rfl, rfl, hx _ rfl rfl rfl _ rfl rfl⟩
  · rw [hcx, hctx]
    exact ⟨rfl, rfl, rfl, rfl, rfl, rfl, rfl, hx _ rfl rfl rfl _ rfl rfl⟩


/-- The end of a record: its entry is the last news, and memory, channels and contexts stay. -/
theorem recordDone_leaves (s : State) (p c : Nat) (r : Record) : Recorded (recordDone s p c r) 2 0 ∧ (recordDone s p c r).mem = s.mem ∧
    (∀ q d, (recordDone s p c r).chan q d = s.chan q d) ∧ (recordDone s p c r).ctxs = s.ctxs := by
  unfold recordDone
  dsimp only
  split_ifs
  · obtain ⟨-, h1, h2, h3, h4, h5⟩ := raiseInt_leaves (blackBox s { kind := 2, part := p, tag := r.userTag }) p c
    refine ⟨⟨_, (congrArg List.getLast? h3).trans List.getLast?_concat, rfl, rfl, h4.symm⟩, h1, h2, h5⟩
  · exact ⟨⟨_, List.getLast?_concat, rfl, rfl, rfl⟩, rfl, fun _ _ => rfl, rfl⟩

theorem nextHead_head (k : Chan) : (nextHead k).head = (k.head + 1) % 2 ^ 32 := rfl

/-- A marker whose record starts. -/
theorem markerSignal_starts (r : Record) (hn : (s.chan p c).signalReq.find? (fun e => signalDone s e.1) = none) (hw : (s.chan p c).wait = some r)
    (hk : r.kind = 1) (hf : startsFirst s p c = true) : exec (.markerSignal p c) s = .next (startMarker s p c r) := by
  refine congrArg Host.Outcome.next ?_
  rw [hn, hw]
  exact if_pos (by rw [hk, hf]; rfl)

/-- The request that makes the signal of a record. -/
def signalReqOf (s t : State) (p ctx : Nat) (r : Record) (host : Bool) (pa : Nat) (x : Xl) : Req :=
  { id := t.seq, kind := if r.signal % 8 = 1 then .store else .atomic, place := if host then .host (pa / 64 * 64) else .home (pa / 64 * 64)
    block := 2 ^ 32, core := 64, ctx := ctx, part := p, gen := (s.part p).gen, va := r.signal / 8 * 8 % 2 ^ 48
    hold := x.hold || pageHeld t p (r.signal / 8 * 8 % 2 ^ 48), sub := 0
    ty := .n64, parts := [{ off := pa % 64, w := 8, opB := r.signalV }], bytes := (leBytes 8 r.signalV).zipIdx.map fun e => (pa % 64 + e.2, e.1)
    deadline := if host then 0 else homeCt t pa + 64, cls := 0 }

theorem signalTo_sent {ctx pa : Nat} {r : Record} {host : Bool} {x : Xl} (h0 : r.signal % 8 ≠ 0) (hp : syncPlace s p r.signal .write = some (host, pa, x)) :
    let t := notePte s p (r.signal / 8 * 8 % 2 ^ 48) .write x.entry
    signalTo s p ctx r = .sent (addReq t (signalReqOf s t p ctx r host pa x)) t.seq := by
  intro t
  unfold signalTo
  rw [if_neg h0, hp]
  rfl

theorem mem_wordBytes (pa v j : Nat) (hj : j < 8) : (pa + j, BitVec.ofNat 8 (v >>> (8 * j))) ∈ (leBytes 8 v).zipIdx.map fun e => (pa + e.2, e.1) := by
  rw [leBytes_zipIdx]
  refine List.mem_map.mpr ⟨j, List.mem_range.mpr hj, ?_⟩
  interval_cases j <;> rfl

theorem markerSignal_unsignalled (r : Record) (hn : (s.chan p c).signalReq.find? (fun e => signalDone s e.1) = none) (hw : (s.chan p c).wait = some r)
    (hk : r.kind = 1) (hf : startsFirst s p c = true) (h : r.signal % 8 = 0) : Leads (.markerSignal p c) s fun u =>
      (u.chan p c).head = ((s.chan p c).head + 1) % 2 ^ 32 ∧ Recorded u 2 0 ∧ u.mem = s.mem ∧ u.ctxs = s.ctxs := by
  refine ⟨_, markerSignal_starts r hn hw hk hf, ?_⟩
  have hs : signalTo s p (2 ^ 32) r = .none_ := if_pos h
  unfold startMarker
  rw [hs]
  obtain ⟨h1, h2, h3, h4⟩ := recordDone_leaves (modChan s p c nextHead) p c r
  dsimp only
  refine ⟨?_, h1, h2, h4⟩
  rw [h3, chan_modChan_self]
  rfl

theorem markerSignal_faults (r : Record) (hn : (s.chan p c).signalReq.find? (fun e => signalDone s e.1) = none) (hw : (s.chan p c).wait = some r)
    (hk : r.kind = 1) (hf : startsFirst s p c = true) (h : r.signal % 8 ≠ 0) (hp : syncPlace s p r.signal .write = none) : Leads (.markerSignal p c) s fun u =>
      (u.chan p c).head = ((s.chan p c).head + 1) % 2 ^ 32 ∧ (u.chan p c).halted = true ∧ (u.chan p c).err = 11 ∧ Recorded u 2 11 ∧ u.mem = s.mem := by
  refine ⟨_, markerSignal_starts r hn hw hk hf, ?_⟩
  have hs : signalTo s p (2 ^ 32) r = .fault := by
    unfold signalTo
    rw [if_neg h, hp]
  unfold startMarker
  rw [hs]
  obtain ⟨h1, -, h3, -⟩ := haltChan_leaves (modChan s p c nextHead) p c 11
  have hu : (signalFault (modChan s p c nextHead) p c r).chan p c = haltedChan (nextHead (s.chan p c)) 11 := by
    rw [← chan_modChan_self s p c nextHead, ← h1]
    rfl
  dsimp only
  rw [hu]
  exact ⟨rfl, rfl, rfl, ⟨_, List.getLast?_concat, rfl, rfl, rfl⟩, h3⟩

theorem markerSignal_sends {pa : Nat} {host : Bool} {x : Xl} (r : Record) (hn : (s.chan p c).signalReq.find? (fun e => signalDone s e.1) = none)
    (hw : (s.chan p c).wait = some r) (hk : r.kind = 1) (hf : startsFirst s p c = true) (h : r.signal % 8 = 1 ∨ r.signal % 8 = 2)
    (hp : syncPlace s p r.signal .write = some (host, pa, x)) : Leads (.markerSignal p c) s fun u =>
      (u.chan p c).head = ((s.chan p c).head + 1) % 2 ^ 32 ∧ ∃ q ∈ u.reqs, q.kind = (if r.signal % 8 = 1 then .store else .atomic) ∧
        q.place = (if host then .host (pa / 64 * 64) else .home (pa / 64 * 64)) ∧ q.sub = 0 ∧ q.ty = .n64 ∧
        q.parts = [{ off := pa % 64, w := 8, opB := r.signalV }] ∧
        (∀ j, j < 8 → (pa % 64 + j, BitVec.ofNat 8 (r.signalV >>> (8 * j))) ∈ q.bytes) ∧ (u.chan p c).signalReq = (s.chan p c).signalReq ++ [(q.id, r)] := by
  refine ⟨_, markerSignal_starts r hn hw hk hf, ?_⟩
  have hs := signalTo_sent (ctx := 2 ^ 32) (by omega) hp
  have hc := (sameChans_notePte s p (r.signal / 8 * 8 % 2 ^ 48) .write x.entry).chan p c
  unfold startMarker
  rw [hs]
  dsimp only
  generalize notePte s p (r.signal / 8 * 8 % 2 ^ 48) .write x.entry = t at hc ⊢
  have hat : (addReq t (signalReqOf s t p (2 ^ 32) r host pa x)).chan p c = t.chan p c := rfl
  rw [chan_modChan_self, chan_modChan_self, hat, hc]
  exact ⟨rfl, _, List.mem_append_right _ (List.mem_singleton_self _), rfl, rfl, rfl, rfl, rfl, fun j hj => mem_wordBytes _ _ j hj, rfl⟩

theorem markerSignal_ends (e : Nat × Record) (he : (s.chan p c).signalReq.find? (fun e => signalDone s e.1) = some e) : Leads (.markerSignal p c) s fun u =>
    (u.chan p c).signalReq = (s.chan p c).signalReq.erase e ∧ Recorded u 2 0 ∧ u.mem = s.mem := by
  refine ⟨recordDone (modChan (dropReq s e.1) p c fun k => { k with signalReq := k.signalReq.erase e }) p c e.2, ?_, ?_⟩
  · refine congrArg Host.Outcome.next ?_
    rw [he]
  · obtain ⟨h1, h2, h3, -⟩ := recordDone_leaves (modChan (dropReq s e.1) p c fun k => { k with signalReq := k.signalReq.erase e }) p c e.2
    refine ⟨?_, h1, h2⟩
    rw [h3, chan_modChan_self]
    rfl

end

/-! ## O52 -/

/-- Settles O52: a look at the record at HEAD goes by its sequence number, its checks and its wait addresses; every start moves HEAD on. -/
theorem launchChannels : Obligations.LaunchChannels := by
  unfold Obligations.LaunchChannels
  intro s p c k halts at_ looks
  refine ⟨fun hp hc v => chanCfgWrite_leads hp hc v, fun hp hc t hr ht => chanDoorbell_leads hp hc t hr ht, chanHaltedClear_leads, chanSkip_leads,
    fun h hm => readHead_looks (recordAtHead_looks h hm) rfl, fun h hm ht => readHead_looks (recordSeqRecheck_looks h hm ht) rfl,
    syncWordPollHost_leads, recordStart_leads, ?_, ?_⟩
  · intro r hn hw hk hf
    exact ⟨fun h => markerSignal_unsignalled r hn hw hk hf h, fun host pa x h hp => markerSignal_sends r hn hw hk hf h hp,
      fun h hp => markerSignal_faults r hn hw hk hf h hp⟩
  · exact fun e he => markerSignal_ends e he

end Sys2Proof.Machine
end

section
/-! PROOF. Freeze and resume (R271–R280, R283). -/

set_option Elab.async false

namespace Sys2Proof.Machine

/-! ## Stopping every group of a context -/

/-- A property that every step of a fold keeps, once a step of it has brought it about. -/
theorem foldl_marks {α β : Type} {f : β → α → β} {P Q : β → Prop} (hP : ∀ t a, P t → P (f t a)) (hQ : ∀ t a, P t → Q t → Q (f t a))
    {l : List α} {a : α} (ha : a ∈ l) (h : ∀ t, P t → Q (f t a)) {x : β} (hx : P x) : Q (l.foldl f x) := by
  have keep : ∀ (l : List α) (x : β), P x → Q x → Q (l.foldl f x) := fun l => by
    induction l with
    | nil => exact fun _ _ q => q
    | cons b l ih => exact fun x p q => ih _ (hP x b p) (hQ x b p q)
  induction l generalizing x with
  | nil => cases ha
  | cons b l ih =>
    rcases List.mem_cons.mp ha with rfl | ha
    · exact keep l _ (hP x a hx) (h x hx)
    · exact ih ha (hP x b hx)

theorem foldl_keeps {α β : Type} {f : β → α → β} {P : β → Prop} (hP : ∀ t a, P t → P (f t a)) (l : List α) {x : β} (hx : P x) : P (l.foldl f x) := by
  induction l generalizing x with
  | nil => exact hx
  | cons a l ih => exact ih (hP x a hx)

/-- A group that exists is among its block's groups. -/
theorem mem_groups_of_exists {s : State} {b g : Nat} (h : (s.group b g).exists_ = true) : g ∈ tkeys (s.block b).groups := by
  by_contra hg
  rw [State.group, tget_absent _ _ _ hg] at h
  cases h

/-- A block with a group is among the blocks. -/
theorem mem_blocks_of_exists {s : State} {b g : Nat} (h : (s.group b g).exists_ = true) : b ∈ tkeys s.blocks := by
  by_contra hb
  have hg := mem_groups_of_exists h
  rw [State.block, tget_absent _ _ _ hb] at hg
  cases hg

/-- One group stops, where it runs. -/
def stopGroup (s : State) (b g : Nat) : State := modGroup s b g fun q => if q.exists_ && !q.ended then { q with stopped := true } else q

theorem stopGroup_group (s : State) (b g k j : Nat) : (stopGroup s b g).group k j = s.group k j ∨
    (stopGroup s b g).group k j = { s.group k j with stopped := true } := by
  by_cases e : k = b ∧ j = g
  · obtain ⟨rfl, rfl⟩ := e
    unfold stopGroup
    rw [group_modGroup_self]
    split_ifs
    · exact .inr rfl
    · exact .inl rfl
  · exact .inl (group_modGroup_ne s b g _ k j e)

/-- A group runs: it exists and has not ended. -/
def GroupRuns (b g : Nat) (s : State) : Prop := (s.group b g).exists_ = true ∧ (s.group b g).ended = false

theorem groupRuns_stopGroup {b g : Nat} (s : State) (k j : Nat) (h : GroupRuns b g s) : GroupRuns b g (stopGroup s k j) := by
  unfold GroupRuns at *
  rcases stopGroup_group s k j b g with e | e <;> rw [e] <;> exact h

theorem stopped_stopGroup {b g : Nat} (s : State) (k j : Nat) (h : (s.group b g).stopped = true) : ((stopGroup s k j).group b g).stopped = true := by
  rcases stopGroup_group s k j b g with e | e <;> rw [e]
  exact h

theorem stopped_modGroupsOf {s : State} {h b g : Nat} (hc : (s.block b).ctx = h) (he : (s.block b).ended = false) (hr : GroupRuns b g s) :
    ((modGroupsOf s h fun _ _ q => { q with stopped := true }).group b g).stopped = true := by
  have hb : b ∈ blocksOf s h := List.mem_filter.mpr ⟨mem_blocks_of_exists hr.1, by dsimp only; rw [hc, he]; simp⟩
  refine foldl_marks (P := GroupRuns b g) (Q := fun t => (t.group b g).stopped = true) (f := fun t k => (tkeys (t.block k).groups).foldl (fun t j => stopGroup t k j) t)
    (fun t k p => foldl_keeps (fun t j p => groupRuns_stopGroup t k j p) _ p)
    (fun t k _ q => foldl_keeps (P := fun t => (t.group b g).stopped = true) (fun t j q => stopped_stopGroup t k j q) _ q) hb (fun t p => ?_) hr
  refine foldl_marks (P := GroupRuns b g) (Q := fun t => (t.group b g).stopped = true) (fun t j p => groupRuns_stopGroup t b j p)
    (fun t j _ q => stopped_stopGroup t b j q) (mem_groups_of_exists p.1) (fun t p => ?_) p
  unfold stopGroup
  rw [group_modGroup_self, p.1, p.2]
  rfl

/-! ## Groups keep their places while traps are taken -/

/-- From s to t the groups there are and the blocks they belong to are the same, and so is the service core. -/
structure Mustered (s t : State) : Prop where
  svc    : t.svc = s.svc
  blocks : ∀ k, (t.block k).ctx = (s.block k).ctx ∧ (t.block k).ended = (s.block k).ended ∧ (t.block k).gangSeq = (s.block k).gangSeq
  groups : ∀ k j, (t.group k j).exists_ = (s.group k j).exists_ ∧ (t.group k j).ended = (s.group k j).ended

namespace Mustered
variable {s t u : State}
theorem refl (s : State) : Mustered s s := ⟨rfl, fun _ => ⟨rfl, rfl, rfl⟩, fun _ _ => ⟨rfl, rfl⟩⟩
theorem trans (h : Mustered s t) (k : Mustered t u) : Mustered s u :=
  ⟨k.svc.trans h.svc, fun x => by
      obtain ⟨h1, h2, h3⟩ := h.blocks x
      obtain ⟨k1, k2, k3⟩ := k.blocks x
      exact ⟨k1.trans h1, k2.trans h2, k3.trans h3⟩,
    fun x y => ⟨(k.groups x y).1.trans (h.groups x y).1, (k.groups x y).2.trans (h.groups x y).2⟩⟩
theorem foldl {α : Type} {f : State → α → State} (hf : ∀ s x, Mustered s (f s x)) (xs : List α) (s : State) : Mustered s (xs.foldl f s) := by
  induction xs generalizing s with
  | nil => exact refl s
  | cons x xs ih => exact (hf s x).trans (ih _)
theorem ite {c : Prop} [Decidable c] (h : Mustered s t) (k : Mustered s u) : Mustered s (if c then t else u) := by split_ifs <;> assumption
theorem same (hs : t.svc = s.svc) (hb : t.blocks = s.blocks) : Mustered s t :=
  ⟨hs, fun k => by simp only [State.block, hb, and_self], fun k j => by simp only [State.group, State.block, hb, and_self]⟩
end Mustered

theorem mustered_modGroup (s : State) (b g : Nat) (f : Group → Group) (hf : ∀ q, (f q).exists_ = q.exists_ ∧ (f q).ended = q.ended) : Mustered s (modGroup s b g f) where
  svc := rfl
  blocks := fun k => ⟨(congrArg Block.ctx ((upd_modGroup s b g f).block k) : _), (congrArg Block.ended ((upd_modGroup s b g f).block k) : _),
    (congrArg Block.gangSeq ((upd_modGroup s b g f).block k) : _)⟩
  groups := fun k j => by
    by_cases e : k = b ∧ j = g
    · obtain ⟨rfl, rfl⟩ := e; rw [group_modGroup_self]; exact hf _
    · rw [group_modGroup_ne s b g f k j e]; exact ⟨rfl, rfl⟩

theorem kept_mapLanes {q : Group} (m : Mask) (f : Nat → Lane → Lane) : (q.mapLanes m f).exists_ = q.exists_ ∧ (q.mapLanes m f).ended = q.ended := ⟨rfl, rfl⟩

theorem mustered_renormalise (s : State) (b g : Nat) : Mustered s (renormalise s b g) := by
  unfold renormalise
  exact .ite (.refl s) (mustered_modGroup _ _ _ _ fun q => kept_mapLanes (q := q) ..)

theorem mustered_stopContext (s : State) (b g c d pc : Nat) : Mustered s (stopContext s b g c d pc) where
  svc := rfl
  blocks := fun k => by
    unfold stopContext State.block
    dsimp only [modCtx]
    refine ⟨tget_tmapv_proj _ _ Block.ctx ?_ _ k, tget_tmapv_proj _ _ Block.ended ?_ _ k, tget_tmapv_proj _ _ Block.gangSeq ?_ _ k⟩ <;> intro q <;> split_ifs <;> rfl
  groups := fun k j => by rw [group_stopContext]; split_ifs <;> exact ⟨rfl, rfl⟩

theorem mustered_takeTrap (s : State) (b g pc : Nat) (t : TrapReq) : Mustered s (takeTrap s b g pc t) := by
  have hr : Mustered s (trapRecord s b g pc t) := by
    unfold trapRecord
    exact mustered_modGroup _ _ _ _ fun q => kept_mapLanes (q := { q with replay := none, trapCause := _, trapPc := _, faultMask := _, causeMask := _ }) ..
  have hm := marked_noteHandler (trapRecord s b g pc t) b t.cause
  have hn : Mustered s (noteHandler (trapRecord s b g pc t) b t.cause) := hr.trans (.same hm.svc hm.blocks)
  rcases takeTrap_cases s b g pc t with ⟨-, e⟩ | ⟨-, ⟨c, -, e⟩ | ⟨-, e⟩ | ⟨h, -, e⟩⟩ <;> rw [e]
  · exact hr.trans (mustered_stopContext ..)
  · exact hn.trans (mustered_stopContext ..)
  · exact hn.trans (mustered_stopContext ..)
  · refine .ite (hn.trans (mustered_stopContext ..)) (hn.trans (.trans (.trans ?_ (mustered_modGroup _ b g _ fun q =>
      kept_mapLanes (q := { q with trapMode := true, handlerSet := _, rteHeld := 0, rteNextM := 0 }) ..)) (mustered_renormalise ..)))
    exact .same rfl rfl

theorem mustered_takeNext (s : State) (b g : Nat) (f : Nat → Bool) : Mustered s ((takeNext s b g f).getD s) := by
  unfold takeNext
  split_ifs
  · exact .refl s
  · cases nextPend (s.group b g) f with
    | none => exact .refl s
    | some p =>
      change Mustered s (takePend s b g p)
      unfold takePend
      dsimp only
      refine .trans (u := _) (mustered_modGroup s b g _ fun q => ?_) (.ite (.refl _) (mustered_takeTrap ..))
      exact kept_mapLanes ..

theorem mustered_trapsFirst (s : State) (bs : List Nat) : Mustered s (trapsFirst s bs) :=
  .foldl (fun _ _ => .foldl (fun _ _ => mustered_takeNext ..) ..) ..

/-- Where no trap is next nothing is taken. -/
theorem trapsFirst_none (s : State) (bs : List Nat) (h : ∀ b ∈ bs, ∀ g ∈ tkeys (s.block b).groups, takeNext s b g (fun _ => true) = none) : trapsFirst s bs = s := by
  have inner : ∀ b (gs : List Nat), (∀ g ∈ gs, takeNext s b g (fun _ => true) = none) →
      gs.foldl (fun s g => (takeNext s b g fun _ => true).getD s) s = s := fun b gs => by
    induction gs with
    | nil => exact fun _ => rfl
    | cons g gs ih =>
      intro hg
      rw [List.foldl_cons, hg g List.mem_cons_self]
      exact ih fun j hj => hg j (List.mem_cons_of_mem _ hj)
  unfold trapsFirst
  induction bs with
  | nil => rfl
  | cons b bs ih =>
    rw [List.foldl_cons, inner b _ (h b List.mem_cons_self)]
    exact ih fun k hk => h k (List.mem_cons_of_mem _ hk)

theorem mustered_modGroupsOf (s : State) (h : Nat) : Mustered s (modGroupsOf s h fun _ _ q => { q with stopped := true }) :=
  .foldl (fun _ _ => .foldl (fun _ _ => mustered_modGroup _ _ _ _ fun q => by split_ifs <;> exact ⟨rfl, rfl⟩) ..) ..

theorem ctxs_modGroupsOf (s : State) (h : Nat) (f : Nat → Nat → Group → Group) : (modGroupsOf s h f).ctxs = s.ctxs := by
  unfold modGroupsOf
  refine foldl_keeps (P := fun t : State => t.ctxs = s.ctxs) (fun t b p => ?_) _ rfl
  refine foldl_keeps (P := fun t : State => t.ctxs = s.ctxs) (fun t g p => ?_) _ p
  exact p

/-- What stopping a context for FREEZE leaves. -/
theorem freezeStop_leaves (s : State) (h pa n : Nat) : let u := freezeStop s h pa n
    u.svc = { s.svc with freezing := some (h, pa, n) } ∧ (u.context h).freezing = true ∧
    ((∀ b ∈ blocksOf s h, ∀ g ∈ tkeys (s.block b).groups, takeNext s b g (fun _ => true) = none) → u.mem = s.mem) ∧
    ∀ b ∈ blocksOf s h, ∀ g ∈ tkeys (s.block b).groups, (s.group b g).exists_ = true → (s.group b g).ended = false → (u.group b g).stopped = true := by
  intro u
  have h0 := mustered_trapsFirst s ((blocksOf s h).filter fun b => (s.block b).resident)
  have hmem : (∀ b ∈ blocksOf s h, ∀ g ∈ tkeys (s.block b).groups, takeNext s b g (fun _ => true) = none) →
      trapsFirst s ((blocksOf s h).filter fun b => (s.block b).resident) = s :=
    fun hk => trapsFirst_none s _ fun b hb => hk b (List.mem_filter.mp hb).1
  have hu : u = freezeStop s h pa n := rfl
  clear_value u
  unfold freezeStop at hu
  dsimp only at hu
  generalize trapsFirst s ((blocksOf s h).filter fun b => (s.block b).resident) = s0 at h0 hmem hu
  have h1 := mustered_modGroupsOf (modCtx s0 h fun c => { c with freezing := true }) h
  have c1 := onCores_modGroupsOf (modCtx s0 h fun c => { c with freezing := true }) h fun _ _ q => { q with stopped := true }
  have hx : (modGroupsOf (modCtx s0 h fun c => { c with freezing := true }) h fun _ _ q => { q with stopped := true }).ctxs =
      (modCtx s0 h fun c => { c with freezing := true }).ctxs := ctxs_modGroupsOf ..
  subst hu
  refine ⟨?_, ?_, fun hk => ?_, fun b hb g _ hex hne => ?_⟩
  · dsimp only
    rw [h1.svc, show (modCtx s0 h fun c => { c with freezing := true }).svc = s0.svc from rfl, h0.svc]
  · change (tget ({} : Ctx) (modGroupsOf (modCtx s0 h fun c => { c with freezing := true }) h fun _ _ q => { q with stopped := true }).ctxs h).freezing = true
    rw [hx]
    change (tget ({} : Ctx) (tmod {} s0.ctxs h fun c => { c with freezing := true }) h).freezing = true
    rw [tget_tmod, if_pos rfl]
  · dsimp only
    rw [c1.mem, show (modCtx s0 h fun c => { c with freezing := true }).mem = s0.mem from rfl, hmem hk]
  · obtain ⟨-, hb⟩ := List.mem_filter.mp hb
    simp only [Bool.and_eq_true, beq_iff_eq, Bool.not_eq_true'] at hb
    exact stopped_modGroupsOf (s := modCtx s0 h fun c => { c with freezing := true }) ((h0.blocks b).1.trans hb.1) ((h0.blocks b).2.1.trans hb.2)
      ⟨(h0.groups b g).1.trans hex, (h0.groups b g).2.trans hne⟩

/-! ## Blocks made ready for an image -/

/-- From s to t only the cores' side differs, and every context stays in its partition. -/
structure Readied (s t : State) : Prop where
  cores : OnCores s t
  part  : ∀ h, (t.context h).part = (s.context h).part

namespace Readied
variable {s t u : State}
theorem refl (s : State) : Readied s s := ⟨.refl s, fun _ => rfl⟩
theorem trans (h : Readied s t) (k : Readied t u) : Readied s u := ⟨h.cores.trans k.cores, fun x => (k.part x).trans (h.part x)⟩
theorem foldl {α : Type} {f : State → α → State} (hf : ∀ s x, Readied s (f s x)) (xs : List α) (s : State) : Readied s (xs.foldl f s) := by
  induction xs generalizing s with
  | nil => exact refl s
  | cons x xs ih => exact (hf s x).trans (ih _)
theorem ite {c : Prop} [Decidable c] (h : Readied s t) (k : Readied s u) : Readied s (if c then t else u) := by split_ifs <;> assumption
end Readied

theorem readied_modGroup (s : State) (b g : Nat) (f : Group → Group) : Readied s (modGroup s b g f) := ⟨onCores_modGroup .., fun _ => rfl⟩
theorem readied_modBlock (s : State) (b : Nat) (f : Block → Block) : Readied s (modBlock s b f) := ⟨onCores_modBlock .., fun _ => rfl⟩
theorem readied_modCore (s : State) (c : Nat) (f : Core → Core) : Readied s (modCore s c f) := ⟨onCores_modCore .., fun _ => rfl⟩
theorem readied_modCtx (s : State) (h : Nat) (f : Ctx → Ctx) (hf : ∀ x, (f x).part = x.part) : Readied s (modCtx s h f) :=
  ⟨onCores_modCtx .., fun k => by
    change (tget ({} : Ctx) (tmod {} s.ctxs h f) k).part = _
    rw [tget_tmod]
    split_ifs with e
    · rw [e]; exact hf _
    · rfl⟩

theorem readied_renormalise (s : State) (b g : Nat) : Readied s (renormalise s b g) := by
  unfold renormalise
  exact .ite (.refl s) (readied_modGroup ..)

theorem readied_redirectLane (s : State) (b g L : Nat) : Readied s (redirectLane s b g L) := by
  unfold redirectLane
  split
  · exact .refl s
  · have h : Readied s (dropLaneWaits s b g L) := (readied_modCore s _ _).trans (readied_modCtx _ _ _ fun _ => rfl)
    exact h.trans (readied_modGroup _ b g _)

theorem readied_redirectDue (s : State) (b : Nat) : Readied s (redirectDue s b) :=
  .foldl (fun t _ => .trans (.foldl (fun _ _ => readied_redirectLane ..) _ t) (readied_renormalise ..)) _ s

theorem readied_unparkNext (s : State) (b g : Nat) (m : Mask) (n : Nat) : Readied s (unparkNext s b g m n) := ⟨onCores_unparkNext .., fun _ => rfl⟩

theorem readied_acquireFrom (s : State) (b g L : Nat) : Readied s (acquireFrom s b g L) := by
  unfold acquireFrom
  exact readied_modGroup ..

theorem readied_owe (s : State) (o : BarrierObj) (ph : W32) (b g : Nat) (m : Mask) : Readied s (owe s o ph b g m) := by
  unfold owe
  refine .ite ?_ (.refl s)
  split
  · exact readied_modGroup ..
  · exact .refl s

theorem readied_releaseWaiters (s : State) (h k : Nat) : Readied s (releaseWaiters s h k) :=
  .foldl (fun t _ => .foldl (fun _ _ => .trans (.trans (readied_unparkNext ..) (.foldl (fun _ _ => readied_acquireFrom ..) _ _)) (readied_owe ..)) _ t) _ s

theorem readied_objTest (s : State) (h k : Nat) : Readied s (objTest s h k) := by
  have up : ∀ f, Readied s (phaseUp s h k f) := fun f =>
    .trans (.trans (readied_modBlock s h _) (readied_modBlock _ h _)) (readied_releaseWaiters _ h k)
  unfold objTest
  exact .ite (.ite (up _) (.refl s)) (.ite (up _) (.refl s))

theorem readied_landed {s t : State} (h : Readied s t) (b g : Nat) (rs : List (Nat × Nat)) : Readied s (landed s t b g rs) := by
  unfold landed
  exact .ite h (h.trans (readied_modGroup ..))

theorem readied_countArrival (s : State) (b g : Nat) (a : ArrWait) : Readied s (countArrival s b g a) :=
  .trans (readied_landed (readied_modGroup s b g _) b g _) (.trans (readied_modBlock _ a.blk _) (readied_objTest _ _ _))

theorem readied_imageReady (s : State) (h : Nat) : Readied s (imageReady s h) :=
  .foldl (fun t b => .trans (readied_redirectDue t b) (.foldl (fun _ _ => .foldl (fun _ _ => .ite (.refl _) (readied_countArrival ..)) _ _) _ _)) _ s

/-! ## The end of a context -/

/-- From s to t contexts, versions and the service core stay. -/
structure SameOwners (s t : State) : Prop where
  ctxs     : t.ctxs = s.ctxs
  versions : t.versions = s.versions
  svc      : t.svc = s.svc

namespace SameOwners
variable {s t u : State}
theorem refl (s : State) : SameOwners s s := ⟨rfl, rfl, rfl⟩
theorem trans (h : SameOwners s t) (k : SameOwners t u) : SameOwners s u := ⟨k.ctxs.trans h.ctxs, k.versions.trans h.versions, k.svc.trans h.svc⟩
theorem foldl {α : Type} {f : State → α → State} (hf : ∀ s x, SameOwners s (f s x)) (xs : List α) (s : State) : SameOwners s (xs.foldl f s) := by
  induction xs generalizing s with
  | nil => exact refl s
  | cons x xs ih => exact (hf s x).trans (ih _)
theorem ite {c : Prop} [Decidable c] (h : SameOwners s t) (k : SameOwners s u) : SameOwners s (if c then t else u) := by split_ifs <;> assumption
end SameOwners

theorem Marked.sameOwners {s t : State} (h : Marked s t) : SameOwners s t := ⟨h.ctxs, by rw [h.rest], h.svc⟩
theorem Stacked.sameOwners {s t : State} (h : Stacked s t) : SameOwners s t := by obtain ⟨_, _, rfl⟩ := h; exact ⟨rfl, rfl, rfl⟩
theorem AtHomes.ctxs {s t : State} (h : AtHomes s t) : t.ctxs = s.ctxs := by obtain ⟨_, _, _, _, _, _, _, _, _, _, _, _, _, rfl⟩ := h; rfl
theorem AtHomes.svc {s t : State} (h : AtHomes s t) : t.svc = s.svc := by obtain ⟨_, _, _, _, _, _, _, _, _, _, _, _, _, rfl⟩ := h; rfl

theorem stacked_svcRead (s : State) (pa n : Nat) : Stacked s (svcRead s pa n) := by
  unfold svcRead
  refine .foldl (fun t k => ?_) _ s
  dsimp only
  split_ifs
  · exact .refl t
  · exact stacked_sendStack ..

theorem marked_putRange (s : State) (pa n : Nat) (bs : List (Nat × Byte)) : Marked s (putRange s pa n bs) := by
  have h1 := marked_snoopOwn s pa n
  have h2 : Marked (snoopOwn s pa n) { snoopOwn s pa n with mem := s.mem.filter fun e => e.1 < pa || pa + n ≤ e.1 } := ⟨rfl, fun _ => rfl⟩
  exact (h1.trans h2).trans ((marked_putBytes ..).trans (marked_syncEval ..))

theorem sameOwners_giveLine (s : State) (line : Nat) : SameOwners s (giveLine s line) := by
  unfold giveLine
  split
  · exact .refl s
  · exact ⟨rfl, rfl, rfl⟩

theorem sameOwners_writeBack (s : State) (h p : Nat) : SameOwners s (writeBack s h p) := by
  unfold writeBack
  dsimp only
  refine SameOwners.trans ?_ (.foldl (fun _ _ => sameOwners_giveLine ..) _ _)
  exact ⟨rfl, rfl, rfl⟩

theorem SameOwners.booked {s t : State} (k : SameOwners s t) (h p : Nat) (f : Part_ → Part_) : SameOwners s (modPart (bookCopies t h) p f) :=
  ⟨k.ctxs, k.versions, k.svc⟩

theorem sameOwners_writeImage (s : State) (h pa : Nat) (vs : List Version) : SameOwners s (writeImage s h pa vs).1 := by
  unfold writeImage
  dsimp only
  exact .trans (.booked (.trans (.trans (marked_putRange ..).sameOwners (stacked_svcRead ..).sameOwners) (marked_devBytes ..).sameOwners) h _ _) (marked_syncEval ..).sameOwners

theorem sameOwners_dropBlock (s : State) (b : Nat) : SameOwners s (dropBlock s b) ∧ (dropBlock s b).mem = s.mem := by
  unfold dropBlock
  split_ifs <;> exact ⟨⟨rfl, rfl, rfl⟩, rfl⟩

theorem dropBlocks_leaves (s : State) (bs : List Nat) : SameOwners s (bs.foldl dropBlock s) ∧ (bs.foldl dropBlock s).mem = s.mem :=
  foldl_keeps (P := fun t => SameOwners s t ∧ t.mem = s.mem)
    (fun t b h => ⟨h.1.trans (sameOwners_dropBlock t b).1, (sameOwners_dropBlock t b).2.trans h.2⟩) bs ⟨.refl s, rfl⟩

/-- The tree of a context that has ended is gone: contexts and the service core stay, and so does memory where no version was left. -/
theorem endHyps_leaves (s : State) (h : Nat) : (endHyps s h).svc = s.svc ∧
    ((∀ x, (s.context h).hctx = some x → ∀ v ∈ s.versions, v.hctx ≠ x) → (endHyps s h).mem = s.mem) := by
  unfold endHyps
  split
  · exact ⟨rfl, fun _ => rfl⟩
  · rename_i x hx
    refine ⟨(AtHomes.foldl atHomes_freeVat _ s).svc, fun hv => ?_⟩
    have hnil : (s.versions.filter fun v => v.hctx == x) = [] := List.filter_eq_nil_iff.mpr fun v hm => by
      simpa using hv x hx v hm
    dsimp only
    rw [hnil]
    rfl

/-- A context that has ended holds nothing. -/
theorem freeCtx_leaves (s : State) (h : Nat) : (freeCtx s h).context h = {} ∧ (∀ e ∈ (freeCtx s h).blocks, e.2.ctx ≠ h) ∧ (freeCtx s h).svc = s.svc ∧
    ((∀ x, (s.context h).hctx = some x → ∀ v ∈ s.versions, v.hctx ≠ x) → (freeCtx s h).mem = s.mem) := by
  obtain ⟨hd, hm⟩ := dropBlocks_leaves s (blocksOf s h)
  obtain ⟨h1, h2⟩ := endHyps_leaves ((blocksOf s h).foldl dropBlock s) h
  refine ⟨?_, fun e he => ?_, h1.trans hd.svc, fun hv => ?_⟩
  · change tget ({} : Ctx) (tdel _ h) h = {}
    rw [tget_tdel, if_pos rfl]
  · simpa using (List.mem_filter.mp he).2
  · refine (h2 fun x hx v hvm => ?_).trans hm
    rw [State.context, hd.ctxs] at hx
    rw [hd.versions] at hvm
    exact hv x hx v hvm

/-! ## The end of a FREEZE -/

/-- A FREEZE has ended with a code and its context is gone. -/
structure FreezeEnds (u : State) (h code : Nat) : Prop where
  busy     : u.svc.busy = false
  code     : u.svc.code = code
  freezing : u.svc.freezing = none
  ctx      : u.context h = {}
  blocks   : ∀ e ∈ u.blocks, e.2.ctx ≠ h

theorem takeVersions_leaves (s : State) (h : Nat) : (takeVersions s h).1.ctxs = s.ctxs ∧
    ∀ x, (s.context h).hctx = some x → ∀ v ∈ (takeVersions s h).1.versions, v.hctx ≠ x := by
  unfold takeVersions
  split
  · rename_i hx
    exact ⟨rfl, fun x h => by rw [hx] at h; cases h⟩
  · rename_i n hx
    refine ⟨(AtHomes.foldl atHomes_freeVat _ s).ctxs, fun x h v hv => ?_⟩
    rw [hx] at h
    cases h
    simpa using (List.mem_filter.mp hv).2

/-- A FREEZE's last command state, over a context that has been freed. -/
theorem freezeEnds_mboxDone (t : State) (h code : Nat) (v : Service) (hv : v.freezing = none) : FreezeEnds (mboxDone { freeCtx t h with svc := v } code) h code := by
  obtain ⟨f1, f2, -, -⟩ := freeCtx_leaves t h
  rw [mboxDone_eq]
  exact ⟨rfl, rfl, hv, f1, f2⟩

/-- The last step of a FREEZE whose image, of a length, stands: its context's entry, the result and the end. -/
def imageStands (t : State) (h len : Nat) (x : Ctx) : State :=
  let s1 := blackBox (freeCtx t h) { kind := 10, part := x.part, code := 0x60, tag := x.record.userTag }
  mboxDone (mboxResult { s1 with svc := { s1.svc with freezing := none } } len) 0

theorem imageStands_leaves (t : State) (h len : Nat) (x : Ctx) : FreezeEnds (imageStands t h len x) h 0 ∧ (imageStands t h len x).svc.result = w64 len ∧
    (imageStands t h len x).mem = (freeCtx t h).mem := by
  obtain ⟨f1, f2, -, -⟩ := freeCtx_leaves t h
  unfold imageStands mboxResult
  generalize freeCtx t h = q at f1 f2 ⊢
  rw [mboxDone_eq]
  exact ⟨⟨rfl, rfl, rfl, f1, f2⟩, rfl, rfl⟩

theorem finishFreeze_eq (s : State) (h pa : Nat) : finishFreeze s h pa =
    imageStands (writeImage (writeBack (takeVersions s h).1 h (s.context h).part) h pa (takeVersions s h).2).1 h
      (writeImage (writeBack (takeVersions s h).1 h (s.context h).part) h pa (takeVersions s h).2).2 (s.context h) := by
  unfold finishFreeze imageStands
  rfl

theorem finishFreeze_leaves (s : State) (h pa : Nat) {v : State × List Version} {image : State × Nat} (hv : takeVersions s h = v)
    (hi : writeImage (writeBack v.1 h (s.context h).part) h pa v.2 = image) :
    FreezeEnds (finishFreeze s h pa) h 0 ∧ (finishFreeze s h pa).mem = image.1.mem ∧ (finishFreeze s h pa).svc.result = w64 image.2 := by
  obtain ⟨hc, hn⟩ := takeVersions_leaves s h
  have ho := (sameOwners_writeBack v.1 h (s.context h).part).trans (sameOwners_writeImage (writeBack v.1 h (s.context h).part) h pa v.2)
  obtain ⟨-, -, -, f4⟩ := freeCtx_leaves image.1 h
  obtain ⟨i1, i2, i3⟩ := imageStands_leaves image.1 h image.2 (s.context h)
  rw [hi] at ho
  rw [hv] at hc hn
  rw [finishFreeze_eq, hv, hi]
  refine ⟨i1, i3.trans (f4 fun x hx v' hv' => ?_), i2⟩
  rw [State.context, ho.ctxs, hc] at hx
  rw [ho.versions] at hv'
  exact hn x hx v' hv'

theorem discardCtx_leaves (s : State) (h code pa n : Nat) (hf : s.svc.freezing = some (h, pa, n)) : FreezeEnds (discardCtx s h code) h 4 := by
  unfold discardCtx
  dsimp only
  rw [hf]
  dsimp only
  rw [if_pos rfl]
  exact freezeEnds_mboxDone _ _ _ _ rfl

/-! ## A fault of a save -/

theorem raiseInt_rest (s : State) (p n : Nat) : ∃ parts msix, raiseInt s p n = { s with parts := parts, svc := { s.svc with msix := msix } } := by
  unfold raiseInt
  dsimp only
  split_ifs <;> exact ⟨_, _, rfl⟩

theorem Marked.emergency {s t : State} (h : Marked s t) : t.emergency = s.emergency := by rw [h.rest]

theorem drainRing_leaves (s : State) (p : Nat) : (drainRing s p).svc = s.svc ∧ (drainRing s p).emergency = s.emergency := by
  unfold drainRing
  refine foldl_keeps (P := fun t : State => t.svc = s.svc ∧ t.emergency = s.emergency) (fun t e h => ?_) _ ⟨rfl, rfl⟩
  dsimp only
  split_ifs
  · exact h
  · have k : ∀ a, Marked t (devNum (devNum t a 8 e.1) (a + 8) 8 e.2) := fun a => (marked_devNum t a 8 e.1).trans (marked_devNum _ (a + 8) 8 e.2)
    have m : ∀ u f, (modPart u p f).svc = u.svc ∧ (modPart u p f).emergency = u.emergency := fun _ _ => ⟨rfl, rfl⟩
    rw [(m _ _).1, (m _ _).2, (k _).svc, (k _).emergency]
    exact h

theorem saveEntry_leaves (s : State) (h a lc : Nat) : (saveEntry s h a lc).svc.freezing = s.svc.freezing ∧ (saveEntry s h a lc).svc.busy = s.svc.busy ∧
    (saveEntry s h a lc).emergency = s.emergency ∧ ((saveEntry s h a lc).context h).saveFault.isSome = true ∧ (saveEntry s h a lc).blocks = s.blocks := by
  have hb := faultEntry_blocks s (s.context h).part a 9 lc (s.context h).chan 0
  have hf : (faultEntry s (s.context h).part a 9 lc (s.context h).chan 0).2.svc.freezing = s.svc.freezing ∧
      (faultEntry s (s.context h).part a 9 lc (s.context h).chan 0).2.svc.busy = s.svc.busy ∧
      (faultEntry s (s.context h).part a 9 lc (s.context h).chan 0).2.emergency = s.emergency := by
    unfold faultEntry
    dsimp only
    obtain ⟨parts, msix, e⟩ := raiseInt_rest (drainRing (modPart s (s.context h).part fun p => { p with
      nextFault := ((s.part (s.context h).part).nextFault + 1) % 2 ^ 16, outstanding := p.outstanding ++ [(s.part (s.context h).part).nextFault]
      ringWait := p.ringWait ++ [(a / 4096 * 4096 + 9, lc * 2 ^ 40 + (s.context h).chan * 2 ^ 36 + 0 * 2 ^ 32 + (s.part (s.context h).part).nextFault)] })
      (s.context h).part) (s.context h).part 19
    rw [e]
    obtain ⟨h1, h2⟩ := drainRing_leaves (modPart s (s.context h).part fun p => { p with
      nextFault := ((s.part (s.context h).part).nextFault + 1) % 2 ^ 16, outstanding := p.outstanding ++ [(s.part (s.context h).part).nextFault]
      ringWait := p.ringWait ++ [(a / 4096 * 4096 + 9, lc * 2 ^ 40 + (s.context h).chan * 2 ^ 36 + 0 * 2 ^ 32 + (s.part (s.context h).part).nextFault)] })
      (s.context h).part
    dsimp only
    rw [h1, h2]
    exact ⟨rfl, rfl, rfl⟩
  unfold saveEntry
  dsimp only
  generalize faultEntry s (s.context h).part a 9 lc (s.context h).chan 0 = e at hb hf ⊢
  obtain ⟨f1, f2, f3⟩ := hf
  refine ⟨f1, f2, f3, ?_, hb⟩
  rw [context_modCtx_self]
  rfl

/-! ## The end of a FREEZE, by cases -/

section
variable {s : State} {h pa n : Nat}

theorem freezeImageDone_waits (hf : s.svc.freezing = some (h, pa, n)) (hr : freezeReady s h = false) : exec .freezeImageDone s = .next s := by
  refine congrArg Host.Outcome.next ?_
  rw [hf]
  exact if_pos (by rw [hr]; rfl)

/-- The save that comes before an image, and what follows it. -/
theorem freezeImageDone_next (hf : s.svc.freezing = some (h, pa, n)) (hr : freezeReady s h = true) {r : State} (hi : imageReady s h = r) :
    let bs := (blocksOf s h).filter fun b => (s.block b).resident
    (bs.isEmpty = true → exec .freezeImageDone s = .next (finishFreeze r h pa)) ∧
    (bs.isEmpty = false → saveFaultOf (packBlocks r bs) h bs = none → exec .freezeImageDone s = .next (finishFreeze (writeSlots (packBlocks r bs) h bs) h pa)) ∧
    (∀ e, bs.isEmpty = false → saveFaultOf (packBlocks r bs) h bs = some e → exec .freezeImageDone s = .next (onSaveFault r r h id e)) := by
  intro bs
  have hx : exec .freezeImageDone s = execFreezeImageDone s := rfl
  rw [hx]
  unfold execFreezeImageDone
  rw [hf]
  dsimp only
  rw [hr, hi]
  refine ⟨fun h1 => ?_, fun h1 h2 => ?_, fun e h1 h2 => ?_⟩
  · rw [if_neg (by decide), if_pos h1]
  · rw [if_neg (by decide), if_neg (by rw [h1]; decide), h2]
  · rw [if_neg (by decide), if_neg (by rw [h1]; decide), h2]

theorem onSaveFault_absent (s t : State) (h a lc : Nat) : onSaveFault s t h id (a, .notPresent, lc) =
    if !(s.part (s.context h).part).ringEnable then discardCtx t h 0x0A
    else if s.emergency.isSome then s else saveEntry { t with emergency := some h } h a lc := by
  unfold onSaveFault
  rfl

theorem onSaveFault_other (s t : State) (h a lc : Nat) (f : XFault) (hf : f ≠ .notPresent) : onSaveFault s t h id (a, f, lc) = discardCtx t h (xfaultCode f) := by
  unfold onSaveFault
  cases f with
  | notPresent => exact absurd rfl hf
  | badPte => rfl
  | permission => rfl
  | address => rfl

end

/-! ## Loading an image -/

/-- From s to t only blocks and the next number differ. -/
def OnBlocks (s t : State) : Prop := ∃ blocks seq, t = { s with blocks := blocks, seq := seq }

namespace OnBlocks
variable {s t u : State}
theorem refl (s : State) : OnBlocks s s := ⟨_, _, rfl⟩
theorem trans (h : OnBlocks s t) (k : OnBlocks t u) : OnBlocks s u := by
  obtain ⟨_, _, rfl⟩ := h
  obtain ⟨_, _, rfl⟩ := k
  exact ⟨_, _, rfl⟩
theorem foldl {α : Type} {f : State → α → State} (hf : ∀ s x, OnBlocks s (f s x)) (xs : List α) (s : State) : OnBlocks s (xs.foldl f s) := by
  induction xs generalizing s with
  | nil => exact refl s
  | cons x xs ih => exact (hf s x).trans (ih _)
theorem ctxs (h : OnBlocks s t) : t.ctxs = s.ctxs := by obtain ⟨_, _, rfl⟩ := h; rfl
theorem mem (h : OnBlocks s t) : t.mem = s.mem := by obtain ⟨_, _, rfl⟩ := h; rfl
theorem svc (h : OnBlocks s t) : t.svc = s.svc := by obtain ⟨_, _, rfl⟩ := h; rfl
end OnBlocks

theorem onBlocks_modBlock (s : State) (b : Nat) (f : Block → Block) : OnBlocks s (modBlock s b f) := ⟨_, _, rfl⟩
theorem onBlocks_modGroup (s : State) (b g : Nat) (f : Group → Group) : OnBlocks s (modGroup s b g f) := ⟨_, _, rfl⟩

theorem onBlocks_enterLoad (s : State) (i : Iss) (l : LoadI) (acq : Bool) : OnBlocks s (enterLoad s i l acq) := by
  have h : OnBlocks s { s with seq := s.seq + 1 } := ⟨_, _, rfl⟩
  exact h.trans (onBlocks_modGroup ..)

theorem onBlocks_parkedLoad (s : State) (b g L : Nat) : OnBlocks s (parkedLoad s b g L) := by
  unfold parkedLoad
  dsimp only
  split
  · exact .refl s
  · exact onBlocks_enterLoad ..

theorem onBlocks_loadBlock (s : State) (h pa : Nat) (r : Record) (who : Option (Nat × Nat)) : OnBlocks s (loadBlock s h pa r who) := by
  unfold loadBlock
  dsimp only
  refine .trans (.trans ?_ (onBlocks_modBlock _ s.seq _)) (.foldl (fun _ _ => .foldl (fun _ _ => onBlocks_parkedLoad ..) _ _) _ _)
  exact ⟨_, _, rfl⟩

theorem onBlocks_rejoinCopies (s : State) (b : Nat) : OnBlocks s (rejoinCopies s b) := by
  unfold rejoinCopies
  dsimp only
  refine .foldl (fun t e => ?_) _ s
  have h : OnBlocks t { t with seq := t.seq + 1 } := ⟨_, _, rfl⟩
  exact h.trans ((onBlocks_modBlock _ b _).trans (.foldl (fun _ _ => onBlocks_modGroup ..) _ _))

/-- The context that an image starts with. -/
def imageCtx (s : State) (p c i pa : Nat) (r : Record) : Ctx :=
  let rd := imageAt s pa
  { live := true, part := p, chan := c, index := i, prio := (s.chan p c).prio, started := s.seq, record := r
    hctx := if bit (rd 0x10 8) 1 then freeHctx s else none, shape := w64 (rd 0x148 8)
    nextGang := rd 0x138 8, itemNext := rd 0x140 8, returned := (List.range (rd 0x168 8)).map fun n => rd (rd 0x160 8 + 8 * n) 8
    resumed := true, saved := sortBy id (dedup ((List.range (rd 0x198 8)).map fun n => rd (rd 0x190 8 + bsave r * n + 8) 8)) }

/-- The context of an image under its handle, its node table and its versions. -/
def imageTree (s : State) (p c i pa : Nat) (r : Record) : State :=
  let rd := imageAt s pa
  let h := tfree s.ctxs
  let s1 := { s with seq := s.seq + 1, ctxs := tset {} s.ctxs h (imageCtx s p c i pa r) }
  match if bit (rd 0x10 8) 1 then freeHctx s else none with
  | none => s1
  | some n =>
    let node := fun id => let a := rd 0x150 8 + 16 * id
                          let w := rd a 8
                          ({ state := w % 4, parent := bits w 15 8, depth := bits w 19 16, bound := bit w 20, npend := bits w 41 32, handler := w64 (rd (a + 8) 8) } : Node)
    let t := modHctx s1 n fun _ => { ctx := some h, nodes := (tableOf {} 256 node).filter fun e => e.1 != 0 }
    let vs := (readVersions s pa).mapIdx fun k v => { v with hctx := n, entry := k, sector := (versionHome s p v.va).getD 0 / 64 }
    vs.foldl holdVersion { t with versions := t.versions ++ vs }

theorem imageTree_leaves (s : State) (p c i pa : Nat) (r : Record) : (imageTree s p c i pa r).context (tfree s.ctxs) = imageCtx s p c i pa r ∧
    (imageTree s p c i pa r).svc = s.svc ∧ (memRead s (pa + 0x188) 8 = 0 → (imageTree s p c i pa r).mem = s.mem) := by
  have hctx : tget ({} : Ctx) (tset {} s.ctxs (tfree s.ctxs) (imageCtx s p c i pa r)) (tfree s.ctxs) = imageCtx s p c i pa r := by rw [tget_tset, if_pos rfl]
  have hvs : memRead s (pa + 0x188) 8 = 0 → readVersions s pa = [] := fun h => by
    unfold readVersions imageAt
    dsimp only
    rw [h]
    rfl
  unfold imageTree
  dsimp only
  split
  · exact ⟨hctx, rfl, fun _ => rfl⟩
  · rename_i n _
    refine ⟨?_, (AtHomes.foldl atHomes_holdVersion _ _).svc, fun h => ?_⟩
    · rw [State.context, (AtHomes.foldl atHomes_holdVersion _ _).ctxs]
      exact hctx
    · rw [hvs h]
      rfl

/-- The blocks of an image's context, one for each record. -/
def imageBlocks (s : State) (p c i pa : Nat) (r : Record) : State :=
  let rd := imageAt s pa
  (List.range (rd 0x198 8)).foldl (fun t n => loadBlock t (tfree s.ctxs) (pa + rd 0x190 8 + bsave r * n) r
    (if bit (rd 0x10 8) 0 then some (bits (rd 0x130 8) 31 16, bits (rd 0x130 8) 3 0) else none)) (imageTree s p c i pa r)

theorem loadImage_eq (s : State) (p c i pa : Nat) (r : Record) : loadImage s p c i pa r =
    (tfree s.ctxs, (blocksOf (imageBlocks s p c i pa r) (tfree s.ctxs)).foldl rejoinCopies (imageBlocks s p c i pa r)) := by
  unfold loadImage imageBlocks imageTree imageCtx
  rfl

theorem loadImage_leaves (s : State) (p c i pa : Nat) (r : Record) : OnBlocks (imageTree s p c i pa r) (loadImage s p c i pa r).2 := by
  rw [loadImage_eq]
  have h : OnBlocks (imageTree s p c i pa r) (imageBlocks s p c i pa r) := by
    unfold imageBlocks
    dsimp only
    exact OnBlocks.foldl (fun t n => onBlocks_loadBlock t _ (pa + imageAt s pa 0x190 8 + bsave r * n) r _) _ _
  generalize imageBlocks s p c i pa r = t at h ⊢
  exact h.trans (OnBlocks.foldl (f := rejoinCopies) onBlocks_rejoinCopies _ _)

/-! ## FREEZE and RESUME as commands -/

theorem takeNext_none_iff {s : State} {b g : Nat} {f : Nat → Bool} : takeNext s b g f = none ↔ boundaryOpen s b g = false ∨ nextPend (s.group b g) f = none := by
  unfold takeNext
  cases boundaryOpen s b g <;> simp

/-- The arguments of FREEZE and RESUME name a range of the partition's own memory. -/
def ImageArgs (s : State) : Prop :=
  onlyFields (mboxArg s 0) [(51, 48), (35, 32), (31, 0)] = true ∧ onlyFields (mboxArg s 1) [(38, 12)] = true ∧ onlyFields (mboxArg s 2) [(47, 0)] = true ∧
    ownsRange s (bits (mboxArg s 0) 51 48) (mboxArg s 1) (mboxArg s 2) = true

theorem ImageArgs.passes {s : State} (h : ImageArgs s) : ¬ (!onlyFields (mboxArg s 0) [(51, 48), (35, 32), (31, 0)] || !onlyFields (mboxArg s 1) [(38, 12)] ||
    !onlyFields (mboxArg s 2) [(47, 0)] || !ownsRange s (bits (mboxArg s 0) 51 48) (mboxArg s 1) (mboxArg s 2)) = true := by
  obtain ⟨h1, h2, h3, h4⟩ := h
  rw [h1, h2, h3, h4]
  decide

theorem ImageArgs.taken {s : State} (h : ImageArgs s) (cmd : Nat) : ImageArgs (taken s cmd) := h

/-- FREEZE, once it has been taken. -/
def freezeTaken (t : State) : State :=
  match namedCtx t (bits (mboxArg t 0) 51 48) (bits (mboxArg t 0) 35 32) (bits (mboxArg t 0) 31 0) with
  | none => mboxDone t 3
  | some h => if mboxArg t 2 < imageMax t h ∨ !gangsLeft t h then mboxDone t 3 else freezeStop t h (mboxArg t 1) (mboxArg t 2)

theorem freeze_next {s : State} (h : ImageArgs s) (hb : s.svc.busy = false) : exec .freeze s = .next (freezeTaken (taken s 0x60)) := by
  have hx : exec .freeze s = execFreeze s := rfl
  rw [hx]
  unfold execFreeze freezeTaken
  rw [mboxTake_free hb]
  dsimp only
  rw [if_neg (h.taken 0x60).passes] <;> rfl

/-- RESUME, once it has been taken. -/
def resumeTaken (t : State) (r : Record) : State :=
  match resumeError t (bits (mboxArg t 0) 51 48) (bits (mboxArg t 0) 35 32) (bits (mboxArg t 0) 31 0) (mboxArg t 1) (mboxArg t 2) r with
  | 0 => mboxDone (loadImage (svcRead t (mboxArg t 1) (imageAt t (mboxArg t 1) 0x08 8)) (bits (mboxArg t 0) 51 48) (bits (mboxArg t 0) 35 32)
      (bits (mboxArg t 0) 31 0) (mboxArg t 1) r).2 0
  | e => mboxDone (mboxResult t e) 4

theorem resume_next {s : State} (h : ImageArgs s) (hb : s.svc.busy = false) {r : Record} (hr : parseRecord (memBytes (taken s 0x61) (mboxArg s 1 + 0x20) 256) = r) :
    exec .resume s = .next (resumeTaken (taken s 0x61) r) := by
  have hx : exec .resume s = execResume s := rfl
  have ha : mboxArg (taken s 0x61) 1 = mboxArg s 1 := rfl
  rw [hx]
  unfold execResume resumeTaken
  rw [mboxTake_free hb]
  dsimp only
  rw [if_neg (h.taken 0x61).passes, ha, hr] <;> rfl

/-- What RESUME leaves of an image that passes every check. -/
structure Resumed (s u : State) (p c i pa : Nat) (r : Record) : Prop where
  ctx : u.context (tfree s.ctxs) = imageCtx s p c i pa r
  mem : memRead s (pa + 0x188) 8 = 0 → u.mem = s.mem

theorem imageCtx_congr {s t : State} (h : Stacked s t) (p c i pa : Nat) (r : Record) : let x := imageCtx s p c i pa r; let y := imageCtx t p c i pa r
    y.live = x.live ∧ y.part = x.part ∧ y.chan = x.chan ∧ y.index = x.index ∧ y.resumed = x.resumed ∧ y.record = x.record ∧ y.nextGang = x.nextGang ∧
      y.itemNext = x.itemNext ∧ y.shape = x.shape := by
  have hm : imageAt t pa = imageAt s pa := by
    funext off n
    exact memRead_congr h.mem ..
  intro x y
  have hy : y = imageCtx t p c i pa r := rfl
  have hx : x = imageCtx s p c i pa r := rfl
  unfold imageCtx at hx hy
  rw [hm] at hy
  clear_value x y
  subst hx hy
  exact ⟨rfl, rfl, rfl, rfl, rfl, rfl, rfl, rfl, rfl⟩

/-- The context that a RESUME leaves, field by field. -/
theorem resumed_leaves {t v u : State} (hs : Stacked t v) {p c i pa : Nat} {r : Record} (hl : OnBlocks (imageTree v p c i pa r) u) : let x := u.context (tfree t.ctxs)
    u.svc = t.svc ∧ x.live = true ∧ x.part = p ∧ x.chan = c ∧ x.index = i ∧ x.resumed = true ∧ x.record = r ∧ x.nextGang = memRead t (pa + 0x138) 8 ∧
      x.itemNext = memRead t (pa + 0x140) 8 ∧ x.shape = w64 (memRead t (pa + 0x148) 8) ∧ (memRead t (pa + 0x188) 8 = 0 → u.mem = t.mem) := by
  intro x
  obtain ⟨h1, h2, h3⟩ := imageTree_leaves v p c i pa r
  have hx : x = imageCtx v p c i pa r := by
    rw [← h1]
    change tget _ u.ctxs _ = tget _ _ _
    rw [hl.ctxs, hs.sameOwners.ctxs]
  obtain ⟨e1, e2, e3, e4, e5, e6, e7, e8, e9⟩ := imageCtx_congr hs p c i pa r
  rw [hx, e1, e2, e3, e4, e5, e6, e7, e8, e9]
  refine ⟨hl.svc.trans (h2.trans hs.sameOwners.svc), rfl, rfl, rfl, rfl, rfl, rfl, rfl, rfl, rfl, fun h0 => ?_⟩
  exact hl.mem.trans ((h3 ((memRead_congr hs.mem ..).trans h0)).trans hs.mem)

/-! ## O60 -/

section
variable {s : State}

theorem freeze_unnamed (h : ImageArgs s) (hn : namedCtx s (bits (mboxArg s 0) 51 48) (bits (mboxArg s 0) 35 32) (bits (mboxArg s 0) 31 0) = none) :
    Ends .freeze 0x60 3 s fun u => u = { s with svc := u.svc } := by
  intro hb
  refine ⟨_, freeze_next h hb, ?_⟩
  have hf : freezeTaken (taken s 0x60) = mboxDone (taken s 0x60) 3 := by
    have hn' : namedCtx (taken s 0x60) (bits (mboxArg (taken s 0x60) 0) 51 48) (bits (mboxArg (taken s 0x60) 0) 35 32) (bits (mboxArg (taken s 0x60) 0) 31 0) = none := hn
    unfold freezeTaken
    rw [hn']
  rw [hf, mboxDone_eq]
  exact ⟨rfl, rfl, rfl, rfl⟩

theorem freeze_stops {c : Nat} (h : ImageArgs s) (hn : namedCtx s (bits (mboxArg s 0) 51 48) (bits (mboxArg s 0) 35 32) (bits (mboxArg s 0) 31 0) = some c)
    (hm : imageMax s c ≤ mboxArg s 2) (hg : gangsLeft s c = true) : GoesOn .freeze 0x60 s fun u => u.svc.freezing = some (c, mboxArg s 1, mboxArg s 2) ∧
      (u.context c).freezing = true ∧
      ((∀ b ∈ blocksOf s c, ∀ g ∈ tkeys (s.block b).groups, takeNext s b g (fun _ => true) = none) → u.mem = s.mem) ∧
      ∀ b ∈ blocksOf s c, ∀ g ∈ tkeys (s.block b).groups, (s.group b g).exists_ = true → (s.group b g).ended = false → (u.group b g).stopped = true := by
  intro hb
  refine ⟨_, freeze_next h hb, ?_⟩
  have hf : freezeTaken (taken s 0x60) = freezeStop (taken s 0x60) c (mboxArg s 1) (mboxArg s 2) := by
    have hn' : namedCtx (taken s 0x60) (bits (mboxArg (taken s 0x60) 0) 51 48) (bits (mboxArg (taken s 0x60) 0) 35 32) (bits (mboxArg (taken s 0x60) 0) 31 0) = some c := hn
    have hg' : gangsLeft (taken s 0x60) c = true := hg
    have hm' : imageMax (taken s 0x60) c ≤ mboxArg (taken s 0x60) 2 := hm
    unfold freezeTaken
    rw [hn']
    dsimp only
    rw [if_neg (by rw [hg']; simpa using hm')]
    rfl
  rw [hf]
  obtain ⟨h1, h2, h3, h4⟩ := freezeStop_leaves (taken s 0x60) c (mboxArg s 1) (mboxArg s 2)
  refine ⟨by rw [h1]; rfl, by rw [h1]; rfl, by rw [h1], h2, fun hk => h3 fun b hb g hg => ?_, h4⟩
  have e : boundaryOpen s b g = false ∨ nextPend (s.group b g) (fun _ => true) = none := takeNext_none_iff.mp (hk b hb g hg)
  exact takeNext_none_iff.mpr e

theorem resume_refused {r : Record} {e : Nat} (h : ImageArgs s) (hr : parseRecord (memBytes (taken s 0x61) (mboxArg s 1 + 0x20) 256) = r)
    (he : resumeError (taken s 0x61) (bits (mboxArg s 0) 51 48) (bits (mboxArg s 0) 35 32) (bits (mboxArg s 0) 31 0) (mboxArg s 1) (mboxArg s 2) r = e) (h0 : e ≠ 0) :
    Ends .resume 0x61 4 s fun u => u.svc.result = w64 e ∧ u = { s with svc := u.svc } := by
  intro hb
  refine ⟨_, resume_next h hb hr, ?_⟩
  have hf : resumeTaken (taken s 0x61) r = mboxDone (mboxResult (taken s 0x61) e) 4 := by
    have he' : resumeError (taken s 0x61) (bits (mboxArg (taken s 0x61) 0) 51 48) (bits (mboxArg (taken s 0x61) 0) 35 32) (bits (mboxArg (taken s 0x61) 0) 31 0)
      (mboxArg (taken s 0x61) 1) (mboxArg (taken s 0x61) 2) r = e := he
    unfold resumeTaken
    rw [he']
    cases e with
    | zero => exact absurd rfl h0
    | succ n => rfl
  rw [hf, mboxDone_eq]
  exact ⟨rfl, rfl, rfl, rfl, rfl⟩

theorem resume_loads {r : Record} (h : ImageArgs s) (hr : parseRecord (memBytes (taken s 0x61) (mboxArg s 1 + 0x20) 256) = r)
    (he : resumeError (taken s 0x61) (bits (mboxArg s 0) 51 48) (bits (mboxArg s 0) 35 32) (bits (mboxArg s 0) 31 0) (mboxArg s 1) (mboxArg s 2) r = 0) :
    Ends .resume 0x61 0 s fun u => let c := u.context (tfree s.ctxs)
      c.live = true ∧ c.part = bits (mboxArg s 0) 51 48 ∧ c.chan = bits (mboxArg s 0) 35 32 ∧ c.index = bits (mboxArg s 0) 31 0 ∧ c.resumed = true ∧
      c.record = r ∧ c.nextGang = memRead s (mboxArg s 1 + 0x138) 8 ∧ c.itemNext = memRead s (mboxArg s 1 + 0x140) 8 ∧
      c.shape = w64 (memRead s (mboxArg s 1 + 0x148) 8) ∧ (memRead s (mboxArg s 1 + 0x188) 8 = 0 → u.mem = s.mem) := by
  intro hb
  refine ⟨_, resume_next h hb hr, ?_⟩
  have hs := stacked_svcRead (taken s 0x61) (mboxArg s 1) (imageAt (taken s 0x61) (mboxArg s 1) 0x08 8)
  have hl := loadImage_leaves (svcRead (taken s 0x61) (mboxArg s 1) (imageAt (taken s 0x61) (mboxArg s 1) 0x08 8)) (bits (mboxArg s 0) 51 48) (bits (mboxArg s 0) 35 32)
    (bits (mboxArg s 0) 31 0) (mboxArg s 1) r
  have hf : resumeTaken (taken s 0x61) r = mboxDone (loadImage (svcRead (taken s 0x61) (mboxArg s 1) (imageAt (taken s 0x61) (mboxArg s 1) 0x08 8))
      (bits (mboxArg s 0) 51 48) (bits (mboxArg s 0) 35 32) (bits (mboxArg s 0) 31 0) (mboxArg s 1) r).2 0 := by
    have he' : resumeError (taken s 0x61) (bits (mboxArg (taken s 0x61) 0) 51 48) (bits (mboxArg (taken s 0x61) 0) 35 32) (bits (mboxArg (taken s 0x61) 0) 31 0)
      (mboxArg (taken s 0x61) 1) (mboxArg (taken s 0x61) 2) r = 0 := he
    unfold resumeTaken
    rw [he']
    rfl
  rw [hf, mboxDone_eq]
  generalize (loadImage (svcRead (taken s 0x61) (mboxArg s 1) (imageAt (taken s 0x61) (mboxArg s 1) 0x08 8)) (bits (mboxArg s 0) 51 48) (bits (mboxArg s 0) 35 32)
    (bits (mboxArg s 0) 31 0) (mboxArg s 1) r).2 = u at hl ⊢
  obtain ⟨h1, h2, h3, h4, h5, h6, h7, h8, h9, h10, h11⟩ := resumed_leaves hs hl
  have hm : ∀ k, memRead (taken s 0x61) (mboxArg s 1 + k) 8 = memRead s (mboxArg s 1 + k) 8 := fun k => memRead_congr rfl _ _
  refine ⟨rfl, rfl, congrArg Service.lastCmd h1, h2, h3, h4, h5, h6, h7, h8.trans (hm _), h9.trans (hm _), h10.trans (congrArg w64 (hm _)), fun h0 => h11 ((hm _).trans h0)⟩

theorem freezeEnds_of {h code : Nat} {u : State} {E : State → Prop} (hu : exec .freezeImageDone s = .next u) (hx : FreezeEnds u h code) (hE : E u) :
    Leads .freezeImageDone s fun u => u.svc.busy = false ∧ u.svc.code = code ∧ u.svc.freezing = none ∧ u.context h = {} ∧ (∀ e ∈ u.blocks, e.2.ctx ≠ h) ∧ E u :=
  ⟨u, hu, hx.busy, hx.code, hx.freezing, hx.ctx, hx.blocks, hE⟩

/-- A save before an image meets a page that is not present. -/
theorem freezeImageDone_absent {h pa n : Nat} (hf : s.svc.freezing = some (h, pa, n)) {r : State} (hi : imageReady s h = r) {a lc : Nat}
    (hx : exec .freezeImageDone s = .next (onSaveFault r r h id (a, .notPresent, lc))) :
    if (s.part (s.context h).part).ringEnable then s.emergency = none → Leads .freezeImageDone s fun u =>
      u.svc.freezing = some (h, pa, n) ∧ u.svc.busy = s.svc.busy ∧ u.emergency = some h ∧ (u.context h).saveFault.isSome = true ∧ u.blocks = r.blocks
    else Leads .freezeImageDone s fun u => u.svc.busy = false ∧ u.svc.code = 4 ∧
        u.svc.freezing = none ∧ u.context h = {} ∧ (∀ e ∈ u.blocks, e.2.ctx ≠ h) ∧ True := by
  have hr := readied_imageReady s h
  rw [hi] at hr
  have hsvc := hr.cores.svc
  have hring : (r.part (r.context h).part).ringEnable = (s.part (s.context h).part).ringEnable := by
    rw [hr.part, State.part, State.part, hr.cores.parts]
  rw [onSaveFault_absent, hring] at hx
  split_ifs with hon
  · intro he
    rw [hon, if_neg (by decide), hr.cores.emergency, he, if_neg (by decide)] at hx
    obtain ⟨s1, s2, s3, s4, s5⟩ := saveEntry_leaves { r with emergency := some h } h a lc
    exact ⟨_, hx, s1.trans ((congrArg Service.freezing hsvc).trans hf), s2.trans (congrArg Service.busy hsvc), s3, s4, s5⟩
  · rw [Bool.not_eq_true] at hon
    rw [hon, if_pos (by decide)] at hx
    exact freezeEnds_of hx (discardCtx_leaves r h 0x0A pa n ((congrArg Service.freezing hsvc).trans hf)) trivial

theorem freezeImageDone_fails {h pa n : Nat} (hf : s.svc.freezing = some (h, pa, n)) {r : State} (hi : imageReady s h = r) {a lc : Nat} {f : XFault} (hn : f ≠ .notPresent)
    (hx : exec .freezeImageDone s = .next (onSaveFault r r h id (a, f, lc))) : Leads .freezeImageDone s fun u => u.svc.busy = false ∧ u.svc.code = 4 ∧
        u.svc.freezing = none ∧ u.context h = {} ∧ (∀ e ∈ u.blocks, e.2.ctx ≠ h) ∧ True := by
  have hsvc := (readied_imageReady s h).cores.svc
  rw [hi] at hsvc
  rw [onSaveFault_other r r h a lc f hn] at hx
  exact freezeEnds_of hx (discardCtx_leaves r h _ pa n ((congrArg Service.freezing hsvc).trans hf)) trivial

end

/-- Settles O60: a FREEZE stops its context's groups, and its end is the image or a fault of the save; a RESUME loads the image or names the check. -/
theorem freezeAndResume : Obligations.FreezeAndResume := by
  unfold Obligations.FreezeAndResume
  intro s a p range name err
  refine ⟨fun h hn => freeze_unnamed h hn, fun c h hn hm hg => freeze_stops h hn hm hg, fun h pa n hf hr => ?_, fun h pa n hf hr => freezeImageDone_waits hf hr,
    fun h he => resume_refused h rfl rfl he, fun h he => resume_loads h rfl he⟩
  intro bs ends r saved v image
  obtain ⟨h1, h2, h3⟩ := freezeImageDone_next hf hr (r := r) rfl
  obtain ⟨f1, f2, f3⟩ := finishFreeze_leaves saved h pa (v := v) (image := image) rfl rfl
  have done : exec .freezeImageDone s = .next (finishFreeze saved h pa) → ends 0 fun u => u.mem = image.1.mem ∧ u.svc.result = w64 image.2 :=
    fun hx => freezeEnds_of hx f1 ⟨f2, f3⟩
  by_cases hb : bs.isEmpty = true
  · have hs : saved = r := if_pos hb
    rw [if_pos hb]
    exact done ((h1 hb).trans (by rw [hs]))
  · have hs : saved = writeSlots (packBlocks r bs) h bs := if_neg hb
    rw [if_neg hb]
    rw [Bool.not_eq_true] at hb
    cases hf' : saveFaultOf (packBlocks r bs) h bs with
    | none => exact done ((h2 hb hf').trans (by rw [hs]))
    | some e =>
      obtain ⟨a, f, lc⟩ := e
      have hx := h3 _ hb hf'
      cases f with
      | notPresent => exact freezeImageDone_absent hf rfl hx
      | badPte => exact freezeImageDone_fails hf rfl (by decide) hx
      | permission => exact freezeImageDone_fails hf rfl (by decide) hx
      | address => exact freezeImageDone_fails hf rfl (by decide) hx

end Sys2Proof.Machine
end

section
/-! PROOF. A version that comes back to its slice may send a victim to the stack it came from (R43, R162, R224). -/

set_option Elab.async false

namespace Sys2Proof.Machine

/-! ## A completion whose tag is given again

The completion of a read of a version's line frees its tag. Where the version's set in L2 is full a line leaves it, and its write is sent to
the same stack under the tag that has just been freed. -/

/-- The read of the line of a version that stands in the vat. -/
def versionRead : StackReq := { kind := 1, addr := 512, hctx := 1, hyp := 1, seen := true }

/-- A version in entry 0 of its vat, its line's read at stack 0, and a full set in L2 of which the committed line alone can leave. -/
def versionComesBack : State :=
  tinyMemory [] { State.reset with
    ctxs := [(0, { live := true, hctx := some 1, record := { vatBase := 0x8000, vatSize := 128 } })]
    hctxs := [(1, { ctx := some 0 })]
    versions := { hctx := 1, id := 1, stored := true, inVat := true } :: (List.range 15).map fun n => { hctx := 2, id := n + 1 }
    parts := [(0, { set := true, coreMask := 1, granN := 1, root := 0x1000 })]
    memStacks := [(0, { reqs := [versionRead] })]
    memChans := [(16, { state := 0 })]
    l2 := (0, { present := true, dirty := 1 }) :: (List.range 15).map fun n => (l2Key 0 2 (n + 1), { present := true }) }

/-- The state with a row of the read's bank open. -/
def versionOpened : State := modMemChan versionComesBack 16 fun c => { c with openRow := tset 0 c.openRow (bankOf 128) (rowOf 128 + 1) }

/-- The state once the read has completed at its base die. -/
def versionServed : State :=
  complete (noteBursts versionOpened 0 versionRead false (readPas versionRead)) 0 versionRead 0

/-- The read alone stands at its die and may go on in any case: a row that opens changes nothing in it. -/
theorem openRow_versionComesBack : openRow versionComesBack 0 versionRead = versionOpened := by
  have hup : ∀ c : Bool, (if c then { versionRead with eligible := true } else versionRead) = versionRead := fun c => by cases c <;> rfl
  have hstack : ∀ f : StackReq → StackReq, f versionRead = versionRead →
      modStack versionOpened 0 (fun q => { q with reqs := q.reqs.map f }) = versionOpened := fun f hf => by
    have h1 : tget ({} : Stack) versionOpened.memStacks 0 = { reqs := [versionRead] } := by decide +kernel
    have h2 : tset ({} : Stack) versionOpened.memStacks 0 { reqs := [versionRead] } = versionOpened.memStacks := by decide +kernel
    unfold modStack tmod
    rw [h1]
    dsimp only
    rw [List.map_cons, List.map_nil, hf, h2]
  unfold openRow
  exact hstack _ (hup _)

/-- Every sector of the read is good. -/
theorem dramSects_versionRead (s : State) : (dramSects versionRead []).foldl (fun s e => eccEffect s e.1 false e.2) s = s ∧
    eccStatus ((dramSects versionRead []).map Prod.snd) = 0 := by
  have h : dramSects versionRead [] = [(0x8000, .ok), (0x8040, .ok), (0x8080, .ok), (0x80C0, .ok)] := by decide +kernel
  rw [h]
  exact ⟨rfl, rfl⟩

/-- The version that the read is for. -/
def versionAsked : Version := { hctx := 1, id := 1, stored := true, inVat := true }

/-- A request that its channel may serve is served. -/
theorem dramRequestServed_read {s : State} {k tag : Nat} {r : StackReq} {ecc : List EccResult} (hr : reqAt s k tag = some r) (hseen : r.seen = true) (ht : tag < 2048)
    (hf : fillBlocked s r = false) (hs : channelStill s (chanOfReq r) = false) (hd : (s.memChan (chanOfReq r)).state ≠ 2) (hm : mayServe s k r = true) (hk : r.kind ≠ 2) :
    exec (.dramRequestServed k tag ecc) s = .next (readDone (complete
      ((dramSects r ecc).foldl (fun s e => eccEffect s e.1 false e.2) (noteBursts (openRow s k r) k r false (readPas r))) k r (eccStatus ((dramSects r ecc).map Prod.snd))) r r.mask) := by
  refine congrArg Host.Outcome.next ?_
  rw [hr]
  dsimp only
  rw [hseen, hs, hf, hm, if_neg (by simp [ht]), if_neg hd, if_neg (by decide), if_neg hk]

/-- Where one line alone can leave, that line leaves. -/
theorem l2Room_only {s : State} {key a : Nat} (h : l2Can s key = [a]) : l2Room s key = evictKey s a := by
  unfold l2Room
  rw [h]
  dsimp only
  rw [show pick s key % [a].length = 0 from Nat.mod_one _]
  rfl

theorem stack_versionBack (s : State) (v : Version) (bad : Bool) (hb : l2Blocked s v.key = false) (k : Nat) : (versionBack s v bad).stack k = (l2Room s v.key).stack k := by
  have hh : holdVersion s v = { l2Room s v.key with l2 := tmod {} (l2Room s v.key).l2 v.key fun l => { l with present := true, dirty := l.dirty ||| 2 ^ (v.sector % 4) } } :=
    if_neg (by rw [hb]; decide)
  unfold versionBack
  dsimp only
  rw [hh]
  rfl

theorem versionServed_can : l2Can versionServed versionAsked.key = [0] := by decide +kernel
theorem versionServed_asked : (versionServed.versions.filter fun v => v.hctx == 1 && v.id == 1 && v.inVat) = [versionAsked] := by decide +kernel
theorem versionServed_place : vatPa versionServed 1 0 = some 0x8000 := by decide +kernel
theorem versionServed_sent : ((evictKey versionServed 0).stack 0).reqs.any (fun x => x.tag == 0) = true := by decide +kernel

/-- What comes back leaves a victim under the tag of the read. -/
theorem readDone_versionServed : ((readDone versionServed versionRead 0).stack 0).reqs.any (fun x => x.tag == 0) = true := by
  have hv : fillVersions versionServed versionRead false = wake (versionBack versionServed versionAsked
      (false || isPoison versionServed 0x8000 || isPoison versionServed (0x8000 + 64))) versionRead.ids := by
    have ha : (versionServed.versions.filter fun v => v.hctx == versionRead.hctx && v.id == versionRead.hyp && v.inVat) = [versionAsked] := versionServed_asked
    have hp : vatPa versionServed versionAsked.hctx versionAsked.entry = some 0x8000 := versionServed_place
    unfold fillVersions
    rw [ha, List.foldl_cons, List.foldl_nil, hp]
    rfl
  have hb : l2Blocked versionServed versionAsked.key = false := by
    unfold l2Blocked
    rw [versionServed_can]
    simp
  have hd : readDone versionServed versionRead 0 = fillVersions versionServed versionRead false := rfl
  have hw : ∀ (s : State) ids, (wake s ids).stack 0 = s.stack 0 := fun _ _ => rfl
  rw [hd, hv, hw, stack_versionBack _ _ _ hb, l2Room_only versionServed_can]
  exact versionServed_sent

/-- Refutes O48: a version's line comes back, a victim makes room for it, and the victim's write bears the tag that the read had. -/
theorem not_baseDies : ¬Obligations.BaseDies := by
  intro h
  obtain ⟨-, -, -, -, hserve, -⟩ := h versionComesBack 0 0 versionRead
  obtain ⟨u, hu, hgone, -⟩ := hserve [] (by decide +kernel) rfl (by decide) (by decide +kernel) ⟨by decide +kernel, by decide +kernel⟩ (by decide +kernel)
  have hrun := dramRequestServed_read (s := versionComesBack) (k := 0) (tag := 0) (r := versionRead) (ecc := []) (by decide +kernel) rfl (by decide) (by decide +kernel)
    (by decide +kernel) (by decide +kernel) (by decide +kernel) (by decide)
  rw [openRow_versionComesBack, (dramSects_versionRead _).1, (dramSects_versionRead versionOpened).2] at hrun
  have e : u = readDone versionServed versionRead 0 := Host.Outcome.next.inj (hu.symm.trans hrun)
  obtain ⟨x, hx, ht⟩ := List.any_eq_true.mp readDone_versionServed
  exact hgone (by decide +kernel) (by decide +kernel) x (e ▸ hx) (by simpa using ht)

end Sys2Proof.Machine
end

section
/-! PROOF. Contexts, gangs and blocks (R85, R114, R119, R122–R125, R266). -/

set_option Elab.async false

namespace Sys2Proof.Machine

/-! ## Keys of tables -/

theorem mem_tkeys_of_tins {α : Type} {t : Tbl α} {i j : Nat} {v : α} (h : j ∈ tkeys (tins i v t)) : j = i ∨ j ∈ tkeys t := by
  induction t with
  | nil => simpa [tins, tkeys] using h
  | cons e t ih =>
    obtain ⟨k, w⟩ := e
    unfold tins at h
    split_ifs at h with h1 h2
    · simpa [tkeys] using h
    · simp only [tkeys, List.map_cons, List.mem_cons] at h ⊢
      tauto
    · simp only [tkeys, List.map_cons, List.mem_cons] at h ih ⊢
      rcases h with h | h
      · exact .inr (.inl h)
      · exact (ih h).imp id .inr

theorem mem_tkeys_of_tset {α : Type} [DecidableEq α] {d : α} {t : Tbl α} {i j : Nat} {v : α} (h : j ∈ tkeys (tset d t i v)) : j = i ∨ j ∈ tkeys t := by
  unfold tset at h
  split_ifs at h
  · refine .inr ?_
    simp only [tkeys, tdel, List.mem_map, List.mem_filter] at h ⊢
    obtain ⟨e, ⟨he, -⟩, rfl⟩ := h
    exact ⟨e, he, rfl⟩
  · exact mem_tkeys_of_tins h

theorem mem_blocks_of_modBlock {s : State} {b k : Nat} {f : Block → Block} (h : k ∈ tkeys (modBlock s b f).blocks) : k = b ∨ k ∈ tkeys s.blocks :=
  mem_tkeys_of_tset h

/-! ## Gangs find places

A placement makes blocks resident, gives them registers and storage, and changes of the contexts only the item indices that come back. -/

/-- From s to t blocks of gangs have found places. -/
structure Placed (s t : State) : Prop where
  mem    : t.mem = s.mem
  ctx    : ∀ k, ∃ r, t.context k = { s.context k with returned := r }
  blocks : ∀ k, (t.block k).ctx = (s.block k).ctx ∧ (t.block k).gangSeq = (s.block k).gangSeq ∧ (t.block k).ended = (s.block k).ended
  stays  : ∀ k, (s.block k).resident = true → (t.block k).resident = true
  keys   : ∀ k, k ∈ tkeys t.blocks → k ∈ tkeys s.blocks ∨ (t.block k).resident = true

namespace Placed
variable {s t u : State}

theorem refl (s : State) : Placed s s := ⟨rfl, fun _ => ⟨_, rfl⟩, fun _ => ⟨rfl, rfl, rfl⟩, fun _ h => h, fun _ h => .inl h⟩
theorem trans (h : Placed s t) (k : Placed t u) : Placed s u where
  mem := k.mem.trans h.mem
  ctx := fun x => by
    obtain ⟨r, hr⟩ := h.ctx x
    obtain ⟨q, hq⟩ := k.ctx x
    exact ⟨q, by rw [hq, hr]⟩
  blocks := fun x => by
    obtain ⟨h1, h2, h3⟩ := h.blocks x
    obtain ⟨k1, k2, k3⟩ := k.blocks x
    exact ⟨k1.trans h1, k2.trans h2, k3.trans h3⟩
  stays := fun x hx => k.stays x (h.stays x hx)
  keys := fun x hx => by
    rcases k.keys x hx with hx | hx
    · exact (h.keys x hx).imp id (k.stays x)
    · exact .inr hx
theorem ite {c : Prop} [Decidable c] (h : Placed s t) (k : Placed s u) : Placed s (if c then t else u) := by split_ifs <;> assumption
end Placed

theorem placed_modCore (s : State) (c : Nat) (f : Core → Core) : Placed s (modCore s c f) :=
  ⟨rfl, fun _ => ⟨_, rfl⟩, fun _ => ⟨rfl, rfl, rfl⟩, fun _ h => h, fun _ h => .inl h⟩

theorem placed_modCtx (s : State) (h : Nat) (f : Ctx → Ctx) (hf : ∀ x, ∃ r, f x = { x with returned := r }) : Placed s (modCtx s h f) where
  mem := rfl
  ctx := fun k => by
    rw [context_modCtx]
    split_ifs with e
    · rw [e]; exact hf _
    · exact ⟨_, rfl⟩
  blocks := fun _ => ⟨rfl, rfl, rfl⟩
  stays := fun _ h => h
  keys := fun _ h => .inl h

theorem placed_modBlock (s : State) (b : Nat) (f : Block → Block)
    (hf : ∀ k, (f k).ctx = k.ctx ∧ (f k).gangSeq = k.gangSeq ∧ (f k).ended = k.ended ∧ (k.resident = true → (f k).resident = true))
    (hr : b ∈ tkeys s.blocks ∨ (f (s.block b)).resident = true) : Placed s (modBlock s b f) where
  mem := rfl
  ctx := fun _ => ⟨_, rfl⟩
  blocks := fun k => by
    rw [block_modBlock]
    obtain ⟨h1, h2, h3, -⟩ := hf (s.block b)
    split_ifs with e
    · rw [e]; exact ⟨h1, h2, h3⟩
    · exact ⟨rfl, rfl, rfl⟩
  stays := fun k hk => by
    rw [block_modBlock]
    split_ifs with e
    · rw [e] at hk
      exact (hf (s.block b)).2.2.2 hk
    · exact hk
  keys := fun k hk => by
    rcases mem_blocks_of_modBlock hk with rfl | hk
    · rw [block_modBlock_self]
      exact hr
    · exact .inl hk

theorem placed_coldCaches (s : State) (c b : Nat) : Placed s (coldCaches s c b) := by
  unfold coldCaches
  dsimp only
  split_ifs
  · exact .refl s
  · exact placed_modCore ..

theorem placed_settle (s : State) (c b : Nat) (hr : (s.block b).resident = true) : Placed s (settle s c b) := by
  unfold settle
  dsimp only
  refine .trans (.trans (placed_modCore s c _) (.ite (placed_modCtx _ _ _ fun _ => ⟨_, rfl⟩) (.refl _))) (placed_modBlock _ b _ (fun _ => ⟨rfl, rfl, rfl, id⟩) (.inr ?_))
  dsimp only
  split_ifs <;> exact hr

theorem placed_placeBlock {s t : State} {c b : Nat} (h : placeBlock s c b = some t) : Placed s t ∧ (t.block b).resident = true := by
  unfold placeBlock at h
  dsimp only at h
  split_ifs at h
  split at h
  · rename_i xs a _ _
    obtain rfl := Option.some.inj h
    have h1 := placed_coldCaches s c b
    have h2 : Placed (coldCaches s c b) (modBlock (coldCaches s c b) b fun k => { k with
        core := c, resident := true, scrBase := a, savedIn := .core
        groups := xs.foldl (fun t e => tmod {} t e.1 fun q => { q with regBase := e.2 }) k.groups }) :=
      placed_modBlock _ b _ (fun _ => ⟨rfl, rfl, rfl, fun _ => rfl⟩) (.inr rfl)
    have hres : ((modBlock (coldCaches s c b) b fun k => { k with
        core := c, resident := true, scrBase := a, savedIn := .core
        groups := xs.foldl (fun t e => tmod {} t e.1 fun q => { q with regBase := e.2 }) k.groups }).block b).resident = true := by
      rw [block_modBlock_self]
    exact ⟨(h1.trans h2).trans (placed_settle _ c b hres), (placed_settle _ c b hres).stays b hres⟩
  · cases h

theorem placed_placeDistinct {p : Nat} : ∀ (cs bs : List Nat) {s t : State}, placeDistinct p cs bs s = some t → Placed s t ∧ ∀ b ∈ bs, (t.block b).resident = true
  | _, [], s, t, h => by
    unfold placeDistinct at h
    obtain rfl := Option.some.inj h
    exact ⟨.refl _, fun b hb => by cases hb⟩
  | [], _ :: _, s, t, h => by cases h
  | c :: cs, b :: bs, s, t, h => by
    unfold placeDistinct at h
    split at h
    · rename_i u hu
      split_ifs at hu
      obtain ⟨h1, h2⟩ := placed_placeBlock hu
      obtain ⟨k1, k2⟩ := placed_placeDistinct cs bs h
      exact ⟨h1.trans k1, fun x hx => by
        rcases List.mem_cons.mp hx with rfl | hx
        · exact k1.stays x h2
        · exact k2 x hx⟩
    · exact placed_placeDistinct cs (b :: bs) h

theorem placed_placeOver (cores : List Nat) : ∀ (bs : List Nat) {s t : State}, placeOver cores bs s = some t → Placed s t ∧ ∀ b ∈ bs, (t.block b).resident = true
  | [], s, t, h => by
    obtain rfl := Option.some.inj h
    exact ⟨.refl _, fun b hb => by cases hb⟩
  | b :: bs, s, t, h => by
    unfold placeOver at h
    rw [List.foldl_cons] at h
    dsimp only at h
    cases hu : placeBlock s (cores.getD ((s.block b).blk % cores.length) 0) b with
    | none =>
      rw [hu] at h
      cases (foldl_stays (y := (none : Option State)) (fun _ => rfl) bs).symm.trans h
    | some u =>
      rw [hu] at h
      obtain ⟨h1, h2⟩ := placed_placeBlock hu
      obtain ⟨k1, k2⟩ := placed_placeOver cores bs (s := u) (t := t) h
      exact ⟨h1.trans k1, fun x hx => by
        rcases List.mem_cons.mp hx with rfl | hx
        · exact k1.stays x h2
        · exact k2 x hx⟩

theorem placed_placeOnCluster {s t : State} {h cl : Nat} {bs : List Nat} (hp : placeOnCluster s h bs cl = some t) : Placed s t ∧ ∀ b ∈ bs, (t.block b).resident = true := by
  unfold placeOnCluster at hp
  dsimp only at hp
  split_ifs at hp
  · obtain ⟨u, -, hu⟩ := List.exists_of_findSome?_eq_some hp
    split_ifs at hu
    exact placed_placeOver _ _ hu
  · exact placed_placeDistinct _ _ hp

theorem mem_insBy {α : Type} (f : α → Nat) (x y : α) (xs : List α) : y ∈ insBy f x xs ↔ y = x ∨ y ∈ xs := by
  induction xs with
  | nil => simp [insBy]
  | cons z xs ih =>
    unfold insBy
    split_ifs
    · simp
    · simp only [List.mem_cons, ih]
      tauto

theorem mem_sortBy {α : Type} (f : α → Nat) (y : α) (xs : List α) : y ∈ sortBy f xs ↔ y ∈ xs := by
  unfold sortBy
  induction xs with
  | nil => rfl
  | cons x xs ih => rw [List.foldr_cons, mem_insBy, ih, List.mem_cons]

theorem mem_gangBlocks {s : State} {h gang b : Nat} : b ∈ gangBlocks s h gang ↔ b ∈ tkeys s.blocks ∧ (s.block b).ctx = h ∧ (s.block b).ended = false ∧ (s.block b).gangSeq = gang := by
  unfold gangBlocks blocksOf
  rw [mem_sortBy]
  simp only [List.mem_filter, Bool.and_eq_true, beq_iff_eq, Bool.not_eq_true', and_assoc]

/-- Every block of a gang that has been placed is on a core. -/
theorem Placed.gang {s t : State} (h : Placed s t) {c gang : Nat} (hb : ∀ b ∈ gangBlocks s c gang, (t.block b).resident = true) :
    ∀ b ∈ gangBlocks t c gang, (t.block b).resident = true := fun b hm => by
  obtain ⟨h1, h2, h3, h4⟩ := mem_gangBlocks.mp hm
  obtain ⟨e1, e2, e3⟩ := h.blocks b
  rcases h.keys b h1 with hk | hk
  · exact hb b (mem_gangBlocks.mpr ⟨hk, e1 ▸ h2, e3 ▸ h3, e2 ▸ h4⟩)
  · exact hk

/-- What is served next is placed from its own context's state. -/
theorem served_cases {s t : State} {p h : Nat} {u : Unit_} (hs : served s p = some (h, u, t)) :
    Placed (withUnit s h u).1 t ∧ ∀ b ∈ (withUnit s h u).2, (t.block b).resident = true := by
  unfold served at hs
  dsimp only at hs
  obtain ⟨c, -, hc⟩ := List.exists_of_findSome?_eq_some hs
  obtain ⟨e, he, heq⟩ := Option.map_eq_some_iff.mp hc
  cases heq
  unfold tryWhere at he
  split at he
  · cases he
  · obtain ⟨v, hv, hvt⟩ := Option.map_eq_some_iff.mp he
    cases hvt
    obtain ⟨cl, -, hcl⟩ := List.exists_of_findSome?_eq_some hv
    obtain ⟨w, hw, hwt⟩ := Option.bind_eq_some_iff.mp hcl
    split_ifs at hwt
    cases hwt
    split_ifs at hw
    exact placed_placeOnCluster hw

theorem newBlocks_leaves (s : State) (h gang : Nat) (bs : List Nat) : (bs.foldl (fun s b => newBlock s h gang b) s).mem = s.mem :=
  foldl_keeps (f := fun s b => newBlock s h gang b) (P := fun t : State => t.mem = s.mem) (fun _ _ p => p) bs rfl

section
variable {s t : State} {h gang : Nat}

theorem gangPlace_leads (hr : running s = true) (hs : served s (s.context h).part = some (h, .fresh gang, t)) : exec (.gangPlace h) s = .next t ∧
    (t.context h).nextGang = gang + 1 ∧ t.mem = s.mem ∧ ∀ b ∈ gangBlocks t h gang, (t.block b).resident = true := by
  obtain ⟨hp, hb⟩ := served_cases hs
  refine ⟨congrArg Host.Outcome.next ?_, ?_, hp.mem.trans (newBlocks_leaves ..), hp.gang hb⟩
  · rw [if_neg (by rw [hr]; decide), hs]
    exact if_pos rfl
  · obtain ⟨r, e⟩ := hp.ctx h
    rw [e]
    unfold withUnit
    dsimp only
    rw [context_modCtx_self]

theorem gangResume_leads (hr : running s = true) (hs : served s (s.context h).part = some (h, .saved gang, t)) : exec (.gangResume h gang) s = .next (gangBack t h gang) ∧
    gang ∉ (t.context h).saved ∧ t.mem = s.mem ∧ ∀ b ∈ gangBlocks t h gang, (t.block b).resident = true := by
  obtain ⟨hp, hb⟩ := served_cases hs
  refine ⟨congrArg Host.Outcome.next ?_, ?_, hp.mem, hp.gang hb⟩
  · rw [if_neg (by rw [hr]; decide), hs]
    exact if_pos ⟨rfl, rfl⟩
  · obtain ⟨r, e⟩ := hp.ctx h
    rw [e]
    unfold withUnit
    dsimp only
    rw [context_modCtx_self]
    simp

/-! ## Pre-emption and saves -/

/-- Every group of a block stops. -/
def stopBlock (s : State) (b : Nat) : State := modBlock s b fun k => { k with groups := tmapv (fun q : Group => { q with stopped := true }) k.groups }

/-- The groups of a block have stopped. -/
def BlockStopped (b : Nat) (s : State) : Prop := ∀ e ∈ (s.block b).groups, e.2.stopped = true

theorem blockStopped_tmapv (t : Tbl Group) : ∀ e ∈ tmapv (fun q : Group => { q with stopped := true }) t, e.2.stopped = true := fun e he => by
  simp only [tmapv, List.mem_map] at he
  obtain ⟨x, -, rfl⟩ := he
  rfl

theorem blockStopped_stopBlock {b : Nat} (s : State) (k : Nat) (h : b = k ∨ BlockStopped b s) : BlockStopped b (stopBlock s k) := by
  unfold BlockStopped stopBlock at *
  rw [block_modBlock]
  split_ifs with e
  · exact blockStopped_tmapv _
  · exact h.resolve_left e

theorem stopBlocks_leaves (s : State) (bs : List Nat) : let u := bs.foldl (fun s b => modBlock s b fun k => { k with groups := tmapv (fun q : Group => { q with stopped := true }) k.groups }) s
    u.ctxs = s.ctxs ∧ u.mem = s.mem ∧ ∀ b, (b ∈ bs ∨ (s.block b).groups = []) → BlockStopped b u := by
  refine ⟨foldl_keeps (f := stopBlock) (P := fun u : State => u.ctxs = s.ctxs) (fun _ _ p => p) bs rfl,
    foldl_keeps (f := stopBlock) (P := fun u : State => u.mem = s.mem) (fun _ _ p => p) bs rfl, fun b hb => ?_⟩
  rcases hb with hb | hb
  · exact foldl_marks (f := stopBlock) (P := fun _ => True) (Q := BlockStopped b) (fun _ _ _ => trivial) (fun t k _ h => blockStopped_stopBlock t k (.inr h)) hb
      (fun t _ => blockStopped_stopBlock t b (.inl rfl)) trivial
  · refine foldl_keeps (f := stopBlock) (P := BlockStopped b) (fun t k h => blockStopped_stopBlock t k (.inr h)) bs fun e he => ?_
    rw [hb] at he
    cases he

theorem gangPreempt_leads (hv : ∃ c ∈ partCtxs s (s.context h).part, (victims s c).head? = some (h, gang)) : Leads (.gangPreempt h gang) s fun u =>
    gang ∈ (u.context h).saving ∧
    ((∀ b ∈ gangBlocks s h gang, ∀ g ∈ tkeys (s.block b).groups, takeNext s b g (fun _ => true) = none) → u.mem = s.mem) ∧
    ∀ b ∈ gangBlocks s h gang, ∀ e ∈ (u.block b).groups, e.2.stopped = true := by
  obtain ⟨c, hc, hh⟩ := hv
  refine ⟨stopGang s h gang, congrArg Host.Outcome.next (if_pos (List.any_eq_true.mpr ⟨c, hc, by rw [hh]; exact beq_self_eq_true _⟩)), ?_⟩
  have h0 := mustered_trapsFirst s (gangBlocks s h gang)
  have hmem := trapsFirst_none s (gangBlocks s h gang)
  unfold stopGang
  dsimp only
  generalize trapsFirst s (gangBlocks s h gang) = s0 at h0 hmem ⊢
  obtain ⟨k1, k2, k3⟩ := stopBlocks_leaves (modCtx s0 h fun x => { x with saving := dedup (x.saving ++ [gang]) })
    (gangBlocks (modCtx s0 h fun x => { x with saving := dedup (x.saving ++ [gang]) }) h gang)
  refine ⟨?_, fun hk => k2.trans (show s0.mem = s.mem from congrArg State.mem (hmem hk)), fun b hb => k3 b ?_⟩
  · rw [State.context, k1, ← State.context, context_modCtx_self]
    exact (mem_dedup ..).mpr (List.mem_append_right _ (List.mem_singleton_self _))
  · obtain ⟨-, b2, b3, b4⟩ := mem_gangBlocks.mp hb
    obtain ⟨e1, e2, e3⟩ := h0.blocks b
    by_cases hin : b ∈ tkeys s0.blocks
    · exact .inl (mem_gangBlocks.mpr ⟨hin, e1.trans b2, e2.trans b3, e3.trans b4⟩)
    · exact .inr (congrArg Block.groups (tget_absent _ _ _ hin))

/-- A block leaves its core at the end of a save. -/
def releaseBlock (s : State) (b : Nat) : State := modBlock (leaveCore s b) b fun k => { k with resident := false }

theorem block_releaseBlock (s : State) (b k : Nat) : ((releaseBlock s b).block k).resident = if k = b then false else (s.block k).resident := by
  unfold releaseBlock
  rw [block_modBlock]
  split_ifs <;> rfl

theorem stopDone_leaves (s : State) (h : Nat) : (stopDone s h).ctxs = s.ctxs ∧ (stopDone s h).mem = s.mem ∧ (stopDone s h).blocks = s.blocks := by
  unfold stopDone
  dsimp only
  split
  · split_ifs
    · exact ⟨rfl, rfl, rfl⟩
    · obtain ⟨parts, msix, e⟩ := raiseInt_rest s (s.context h).part 18
      rw [e]
      exact ⟨rfl, rfl, rfl⟩
  · exact ⟨rfl, rfl, rfl⟩

theorem releaseGang_leaves (t : State) (h gang : Nat) : let u := releaseGang t h gang
    gang ∉ (u.context h).saving ∧ gang ∈ (u.context h).saved ∧ u.mem = t.mem ∧ ∀ b ∈ gangBlocks t h gang, (u.block b).resident = false := by
  have hmem : ((gangBlocks t h gang).foldl releaseBlock t).mem = t.mem := foldl_keeps (f := releaseBlock) (P := fun u : State => u.mem = t.mem) (fun _ _ p => p) _ rfl
  have hres : ∀ b ∈ gangBlocks t h gang, (((gangBlocks t h gang).foldl releaseBlock t).block b).resident = false := fun b hb =>
    foldl_marks (P := fun _ => True) (Q := fun u : State => (u.block b).resident = false) (fun _ _ _ => trivial)
      (fun u k _ hq => by rw [block_releaseBlock]; split_ifs; exacts [rfl, hq]) hb (fun u _ => by rw [block_releaseBlock, if_pos rfl]) trivial
  have e : releaseGang t h gang = stopDone (modCtx ((gangBlocks t h gang).foldl releaseBlock t) h fun x =>
    { x with saving := x.saving.filter (· ≠ gang), saved := sortBy id (dedup (x.saved ++ [gang])) }) h := rfl
  rw [e]
  generalize (gangBlocks t h gang).foldl releaseBlock t = v at hmem hres ⊢
  obtain ⟨h1, h2, h3⟩ := stopDone_leaves (modCtx v h fun x => { x with saving := x.saving.filter (· ≠ gang), saved := sortBy id (dedup (x.saved ++ [gang])) }) h
  intro u
  have hctx : u.context h = { v.context h with saving := (v.context h).saving.filter (· ≠ gang), saved := sortBy id (dedup ((v.context h).saved ++ [gang])) } := by
    rw [State.context, h1, ← State.context, context_modCtx_self]
  refine ⟨by rw [hctx]; simp, ?_, h2.trans hmem, fun b hb => ?_⟩
  · rw [hctx]
    exact (mem_sortBy ..).mpr ((mem_dedup ..).mpr (List.mem_append_right _ (List.mem_singleton_self _)))
  · rw [State.block, h3]
    exact hres b hb

theorem preemptSaveDone_leads (hg : gang ∈ (s.context h).saving) (hd : ∀ b ∈ gangBlocks s h gang, blockDrained s b = true) (hc : s.pkg.clockStopped = false)
    (ht : gang ∈ ((saveGang s h gang).context h).saving) (hs : ∀ b ∈ gangBlocks (saveGang s h gang) h gang, ((saveGang s h gang).block b).savedIn ≠ .core) :
    Leads (.preemptSaveDone h gang) s fun u => gang ∉ (u.context h).saving ∧ gang ∈ (u.context h).saved ∧ u.mem = (saveGang s h gang).mem ∧
      ∀ b ∈ gangBlocks (saveGang s h gang) h gang, (u.block b).resident = false := by
  refine ⟨releaseGang (saveGang s h gang) h gang, congrArg Host.Outcome.next ?_, releaseGang_leaves ..⟩
  rw [if_neg (by rw [List.contains_iff_mem.mpr hg, List.all_eq_true.mpr hd, hc]; decide)]
  refine if_pos ?_
  rw [List.contains_iff_mem.mpr ht, List.all_eq_true.mpr fun b hb => bne_iff_ne.mpr (hs b hb)]
  rfl

theorem saveCore_leaves {core : Nat} (hb : unsavedOn s h gang core ≠ []) (hg : gang ∈ (s.context h).saving)
    (hf : saveFaultOf (packBlocks s (unsavedOn s h gang core)) h (unsavedOn s h gang core) = none) :
    (saveCore h gang s core).mem = (writeSlots (packBlocks s (unsavedOn s h gang core)) h (unsavedOn s h gang core)).mem ∧
      ∀ b ∈ unsavedOn s h gang core, ((saveCore h gang s core).block b).savedIn = .slot := by
  have e : saveCore h gang s core = leftCore (writeSlots (packBlocks s (unsavedOn s h gang core)) h (unsavedOn s h gang core)) (unsavedOn s h gang core) .slot := by
    have h0 : (unsavedOn s h gang core).isEmpty = false := List.isEmpty_eq_false_iff.mpr hb
    unfold saveCore
    dsimp only
    rw [if_neg (by rw [h0, List.contains_iff_mem.mpr hg]; decide), hf]
  rw [e]
  generalize writeSlots (packBlocks s (unsavedOn s h gang core)) h (unsavedOn s h gang core) = t
  refine ⟨foldl_keeps (f := fun s b => modBlock s b fun k => { k with savedIn := .slot }) (P := fun u : State => u.mem = t.mem) (fun _ _ p => p) _ rfl, fun b hb => ?_⟩
  refine foldl_marks (f := fun s b => modBlock s b fun k => { k with savedIn := .slot }) (P := fun _ => True) (Q := fun u : State => (u.block b).savedIn = .slot) (fun _ _ _ => trivial)
    (fun u k _ hq => ?_) hb (fun u _ => ?_) trivial
  · rw [block_modBlock]
    split_ifs
    exacts [rfl, hq]
  · rw [block_modBlock_self]

end

/-! ## Item queues -/

/-- From s to t contexts and memory stay. -/
structure SameStore (s t : State) : Prop where
  ctxs : t.ctxs = s.ctxs
  mem  : t.mem = s.mem

namespace SameStore
variable {s t u : State}
theorem refl (s : State) : SameStore s s := ⟨rfl, rfl⟩
theorem trans (h : SameStore s t) (k : SameStore t u) : SameStore s u := ⟨k.ctxs.trans h.ctxs, k.mem.trans h.mem⟩
theorem ite {c : Prop} [Decidable c] (h : SameStore s t) (k : SameStore s u) : SameStore s (if c then t else u) := by split_ifs <;> assumption
end SameStore

theorem sameStore_landed {s t : State} (h : SameStore s t) (b g : Nat) (rs : List (Nat × Nat)) : SameStore s (landed s t b g rs) := by
  unfold landed
  exact .ite h (h.trans ⟨rfl, rfl⟩)

theorem sameStore_deliverItem (s : State) (b g L : Nat) (w : Insn) (x : Nat) : SameStore s (deliverItem s b g L w x) := by
  unfold deliverItem renormalise
  dsimp only
  exact .ite ⟨rfl, rfl⟩ ⟨rfl, rfl⟩

theorem sameStore_servePop (s : State) (e : Nat × Nat × Nat) (x : W64) : SameStore s (servePop s e x) := by
  unfold servePop
  dsimp only
  refine .trans (sameStore_landed (s := s) (t := deliverPop s e.1 e.2.1 e.2.2 _ x _) ⟨rfl, rfl⟩ ..) ⟨rfl, rfl⟩

theorem sameStore_serveItemLane (s : State) (e : Nat × Nat × Nat) : SameStore s (serveItemLane s e) := by
  unfold serveItemLane
  dsimp only
  split
  · rename_i x t ht
    have h : SameStore s t := by
      unfold takeItem at ht
      split at ht
      · cases ht
        exact ⟨rfl, rfl⟩
      · cases ht
    exact .ite (h.trans (sameStore_landed (sameStore_deliverItem ..) ..)) (h.trans (sameStore_servePop ..))
  · exact .ite (.refl s) (.ite ⟨rfl, rfl⟩ (sameStore_servePop ..))

theorem sameStore_serveItemsLoop (c h n : Nat) (s : State) : SameStore s (serveItemsLoop c h n s) := by
  induction n generalizing s with
  | zero => exact .refl s
  | succ n ih =>
    unfold serveItemsLoop
    split
    · exact (sameStore_serveItemLane ..).trans (ih _)
    · exact .refl s

theorem itemRefill_leads {s : State} {h core : Nat} (hr : running s = true) (hd : refillDue s core = some h) : Leads (.itemRefill core) s fun u =>
    (u.context h).returned = (s.context h).returned.drop (s.context h).record.chunk ∧
    (u.context h).itemNext = (s.context h).itemNext +
      min ((s.context h).record.chunk - (s.context h).returned.length) ((s.context h).record.itemCount - (s.context h).itemNext) ∧ u.mem = s.mem := by
  refine ⟨((List.range Config.cores).filter fun c => c != core && (s.core c).itemCtx == some h).foldl (fun t c => serveItems t c h) (refill s core h), ?_, ?_⟩
  · refine congrArg Host.Outcome.next ?_
    rw [if_neg (by rw [hr]; decide), hd]
  have hf : ∀ (cs : List Nat) (t : State), SameStore t (cs.foldl (fun t c => serveItems t c h) t) := fun cs t =>
    foldl_keeps (f := fun t c => serveItems t c h) (P := SameStore t) (fun u c p => p.trans (sameStore_serveItemsLoop ..)) cs (.refl t)
  have h1 := hf ((List.range Config.cores).filter fun c => c != core && (s.core c).itemCtx == some h) (refill s core h)
  generalize ((List.range Config.cores).filter fun c => c != core && (s.core c).itemCtx == some h).foldl (fun t c => serveItems t c h) (refill s core h) = u at h1 ⊢
  have h2 : SameStore (modCtx s h fun r => { r with
      returned := r.returned.drop ((s.context h).returned.take (s.context h).record.chunk).length
      itemNext := r.itemNext + min ((s.context h).record.chunk - ((s.context h).returned.take (s.context h).record.chunk).length)
        ((s.context h).record.itemCount - (s.context h).itemNext) }) (refill s core h) := by
    unfold refill serveItems
    dsimp only
    exact ⟨(sameStore_serveItemsLoop ..).ctxs, (sameStore_serveItemsLoop ..).mem⟩
  have h3 := h2.trans h1
  have hx : u.context h = _ := (congrArg (fun t => tget ({} : Ctx) t h) h3.ctxs).trans (context_modCtx_self ..)
  dsimp only
  rw [hx]
  refine ⟨?_, ?_, h3.mem⟩
  · dsimp only
    rw [List.length_take]
    rcases Nat.le_total (s.context h).record.chunk (s.context h).returned.length with hl | hl
    · rw [Nat.min_eq_left hl]
    · rw [Nat.min_eq_right hl, List.drop_length, List.drop_eq_nil_of_le hl]
  · dsimp only
    rw [List.length_take]
    congr 2
    omega

/-! ## The end of groups and blocks -/

section
variable {s : State} {b g : Nat}

theorem groupEnd_leads (he : (s.group b g).exists_ = true) (hn : (s.group b g).ended = false) (hl : (s.group b g).live = 0) (hr : (s.block b).resident = true)
    (hlent : ∀ e ∈ (s.core (s.block b).core).lent, e.1 / 512 ≠ 16 * b + g) (hc : copiesInto s b (some g) = false) : Leads (.groupEnd b g) s fun u =>
    u.group b g = { exists_ := true, ended := true, words := (s.group b g).words } ∧ u.mem = s.mem ∧ u.reqs = s.reqs := by
  have hl' : (s.core (s.block b).core).lent.any (fun e => e.1 / 2 ^ 9 == 16 * b + g) = false := by
    rw [List.any_eq_false]
    intro e hm
    simpa using hlent e hm
  refine ⟨_, congrArg Host.Outcome.next (if_neg ?_), ?_, rfl, rfl⟩
  · rw [he, hn, hl, hr, hl', hc]
    decide
  · rw [group_modGroup_self]
    rfl

theorem OnBlocks.cores {s t : State} (h : OnBlocks s t) : t.cores = s.cores := by obtain ⟨_, _, rfl⟩ := h; rfl

/-- From s to t blocks stay on their cores, or off them, and what ends them stays. -/
structure Tested (s t : State) : Prop where
  rest   : OnBlocks s t
  blocks : ∀ k, (t.block k).ended = (s.block k).ended ∧ (t.block k).resident = (s.block k).resident

namespace Tested
variable {s t u : State}
theorem refl (s : State) : Tested s s := ⟨.refl s, fun _ => ⟨rfl, rfl⟩⟩
theorem trans (h : Tested s t) (k : Tested t u) : Tested s u :=
  ⟨h.rest.trans k.rest, fun x => ⟨(k.blocks x).1.trans (h.blocks x).1, (k.blocks x).2.trans (h.blocks x).2⟩⟩
theorem foldl {α : Type} {f : State → α → State} (hf : ∀ s x, Tested s (f s x)) (xs : List α) (s : State) : Tested s (xs.foldl f s) := by
  induction xs generalizing s with
  | nil => exact refl s
  | cons x xs ih => exact (hf s x).trans (ih _)
theorem ite {c : Prop} [Decidable c] (h : Tested s t) (k : Tested s u) : Tested s (if c then t else u) := by split_ifs <;> assumption
end Tested

theorem tested_modGroup (s : State) (b g : Nat) (f : Group → Group) : Tested s (modGroup s b g f) :=
  ⟨onBlocks_modGroup .., fun k => ⟨(congrArg Block.ended ((upd_modGroup s b g f).block k) : _), (congrArg Block.resident ((upd_modGroup s b g f).block k) : _)⟩⟩

theorem tested_modBlock (s : State) (b : Nat) (f : Block → Block) (hf : ∀ k, (f k).ended = k.ended ∧ (f k).resident = k.resident) : Tested s (modBlock s b f) :=
  ⟨onBlocks_modBlock .., fun k => by
    rw [block_modBlock]
    split_ifs with e
    · rw [e]; exact hf _
    · exact ⟨rfl, rfl⟩⟩

theorem tested_owe (s : State) (o : BarrierObj) (ph : W32) (b g : Nat) (m : Mask) : Tested s (owe s o ph b g m) := by
  unfold owe
  refine .ite ?_ (.refl s)
  split
  · exact tested_modGroup ..
  · exact .refl s

theorem tested_unparkNext (s : State) (b g : Nat) (m : Mask) (n : Nat) : Tested s (unparkNext s b g m n) := by
  unfold unparkNext
  exact tested_modGroup ..

theorem tested_acquireFrom (s : State) (b g L : Nat) : Tested s (acquireFrom s b g L) := by
  unfold acquireFrom
  exact tested_modGroup ..

theorem tested_releaseWaiters (s : State) (h k : Nat) : Tested s (releaseWaiters s h k) :=
  .foldl (fun t _ => .foldl (fun _ _ => .trans (.trans (tested_unparkNext ..) (.foldl (fun _ _ => tested_acquireFrom ..) _ _)) (tested_owe ..)) _ t) _ s

theorem tested_objTest (s : State) (h k : Nat) : Tested s (objTest s h k) := by
  have up : ∀ f, Tested s (phaseUp s h k f) := fun f => by
    have h1 : Tested s (modObj s h k fun o => f { o with phase := o.phase + 1 }) := by
      unfold modObj
      exact tested_modBlock _ _ _ fun _ => ⟨rfl, rfl⟩
    have h2 := tested_modBlock (modObj s h k fun o => f { o with phase := o.phase + 1 }) h (fun q => { q with marks := (q.marks.1 + 1, q.marks.2) }) fun _ => ⟨rfl, rfl⟩
    exact (h1.trans h2).trans (tested_releaseWaiters _ h k)
  unfold objTest
  exact .ite (.ite (up _) (.refl s)) (.ite (up _) (.refl s))

theorem tested_objTestAll (s : State) (b : Nat) : Tested s (objTestAll s b) :=
  .foldl (fun _ _ => .foldl (fun _ _ => tested_objTest ..) ..) ..

/-- From s to t blocks stay at their cores, and memory stays. -/
structure Performed (s t : State) : Prop where
  mem  : t.mem = s.mem
  core : ∀ k, (t.block k).core = (s.block k).core

namespace Performed
variable {s t u : State}
theorem refl (s : State) : Performed s s := ⟨rfl, fun _ => rfl⟩
theorem trans (h : Performed s t) (k : Performed t u) : Performed s u := ⟨k.mem.trans h.mem, fun x => (k.core x).trans (h.core x)⟩
theorem foldl {α : Type} {f : State → α → State} (hf : ∀ s x, Performed s (f s x)) (xs : List α) (s : State) : Performed s (xs.foldl f s) := by
  induction xs generalizing s with
  | nil => exact refl s
  | cons x xs ih => exact (hf s x).trans (ih _)
theorem ite {c : Prop} [Decidable c] (h : Performed s t) (k : Performed s u) : Performed s (if c then t else u) := by split_ifs <;> assumption
end Performed

theorem performed_modBlock (s : State) (b : Nat) (f : Block → Block) (hf : ∀ k, (f k).core = k.core) : Performed s (modBlock s b f) :=
  ⟨rfl, fun k => by
    rw [block_modBlock]
    split_ifs with e
    · rw [e]; exact hf _
    · rfl⟩

theorem performed_modJob (s : State) (b id : Nat) (f : CopyJob → CopyJob) : Performed s (modJob s b id f) := by
  unfold modJob
  exact performed_modBlock _ _ _ fun _ => rfl

theorem performed_modReq (s : State) (id : Nat) (f : Req → Req) : Performed s (modReq s id f) := ⟨rfl, fun _ => rfl⟩

theorem performed_putFar (s : State) (b : Nat) (a : Bool) (off : Nat) (bs : List Byte) : Performed s (putChip s (.far b a off) bs) := by
  unfold putChip
  dsimp only
  refine .foldl (fun t e => ?_) _ s
  split_ifs
  · exact ⟨rfl, fun _ => rfl⟩
  · exact performed_modBlock _ _ _ fun _ => rfl

theorem performed_gangApply (s : State) (r : Req) (b : Nat) (a : Bool) : Performed s (gangApply s r b a) := by
  unfold gangApply
  dsimp only
  refine .ite (.foldl (fun _ _ => performed_putFar ..) ..) (.trans ?_ (performed_modReq ..))
  exact foldl_keeps (P := fun acc : State × List Part => Performed s acc.1) (fun acc _ h => h.trans (performed_putFar acc.1 ..)) _ (.refl s)

theorem performed_gangFlush (s : State) (b : Nat) : Performed s (gangFlush s b) := by
  refine .foldl (fun t r => ?_) _ s
  split
  · refine .ite ?_ (.refl t)
    unfold gangPerform
    exact .ite (performed_modReq ..) ((performed_gangApply ..).trans (performed_modReq ..))
  · exact .refl t

theorem performed_captureRuns (s : State) (b : Nat) : Performed s (captureRuns s b) :=
  .foldl (fun _ _ => .foldl (fun _ _ => performed_modJob ..) ..) ..

theorem tget_default_or_mem {α : Type} (d : α) (t : Tbl α) (i : Nat) : tget d t i = d ∨ ∃ e ∈ t, tget d t i = e.2 := by
  induction t with
  | nil => exact .inl rfl
  | cons e t ih =>
    obtain ⟨k, v⟩ := e
    unfold tget
    split_ifs
    · exact .inr ⟨(k, v), List.mem_cons_self, rfl⟩
    · exact ih.imp id fun ⟨e, he, h⟩ => ⟨e, List.mem_cons_of_mem _ he, h⟩

/-- The tiles of a core once a block has left it. -/
def tilesLeft (b : Nat) (ts : Tbl Tile) : Tbl Tile :=
  (tmapv (fun t : Tile => if t.token = .vec b ∨ t.token = .mat b then { t with token := .free, vec := [] } else t) ts).filter fun e => decide (e.2 ≠ {})

theorem tilesLeft_tokens (b n : Nat) (ts : Tbl Tile) : (tget {} (tilesLeft b ts) n).token ≠ .vec b ∧ (tget {} (tilesLeft b ts) n).token ≠ .mat b := by
  rcases tget_default_or_mem {} (tilesLeft b ts) n with e | ⟨e, he, e'⟩
  · rw [e]
    exact ⟨fun h => (by cases h), fun h => (by cases h)⟩
  · unfold tilesLeft at he
    obtain ⟨y, -, rfl⟩ := List.mem_map.mp (List.mem_filter.mp he).1
    rw [e']
    dsimp only
    split_ifs with hc
    · exact ⟨fun h => (by cases h), fun h => (by cases h)⟩
    · exact not_or.mp hc

/-- A block that leaves its core leaves no tile of it with its token. -/
theorem leaveCore_tiles (s : State) (b : Nat) : ((leaveCore s b).core (s.block b).core).tiles = tilesLeft b (s.core (s.block b).core).tiles := by
  unfold leaveCore
  rw [core_modCore_self]
  rfl

theorem blockEnd_leads (hr : (s.block b).resident = true) (hn : (s.block b).ended = false) (hg : (s.block b).groups ≠ [])
    (he : ∀ g ∈ tkeys (s.block b).groups, (s.group b g).ended = true) (hc : copiesInto s b none = false) (hq : ∀ m ∈ (s.core (s.block b).core).mmaQ, m.block ≠ b) :
    Leads (.blockEnd b) s fun u => (u.block b).ended = true ∧ (u.block b).resident = false ∧ u.mem = s.mem ∧
      ∀ t, (tget {} (u.core (s.block b).core).tiles t).token ≠ .vec b ∧ (tget {} (u.core (s.block b).core).tiles t).token ≠ .mat b := by
  have hq' : (s.core (s.block b).core).mmaQ.any (fun m => m.block == b) = false := List.any_eq_false.mpr fun m hm => by simpa using hq m hm
  refine ⟨objTestAll (endBlock s b) b, congrArg Host.Outcome.next (if_neg ?_), ?_⟩
  · rw [hr, hn, hc, hq', List.isEmpty_eq_false_iff.mpr hg, List.all_eq_true.mpr he]
    decide
  have ht := tested_objTestAll (endBlock s b) b
  generalize objTestAll (endBlock s b) b = u at ht ⊢
  have hp := (performed_gangFlush s b).trans (performed_captureRuns (gangFlush s b) b)
  unfold endBlock at ht
  generalize captureRuns (gangFlush s b) b = v at ht hp
  dsimp only at ht
  generalize hw : (if !((v.core (v.block b).core).itemCtx == some (v.block b).ctx &&
      ((ctxBlocksOn v (v.block b).core (v.block b).ctx).filter fun x => (v.block x).savedIn == .core) == [b]) then v
    else modCore (modCtx v (v.block b).ctx fun x => { x with returned := sortBy id (x.returned ++ (v.core (v.block b).core).items) }) (v.block b).core fun c =>
      { c with items := [], itemCtx := none }) = w at ht
  have hvw : Performed v w := by
    rw [← hw]
    exact .ite (.refl v) ⟨rfl, fun _ => rfl⟩
  have hc' : (w.block b).core = (s.block b).core := (hp.trans hvw).core b
  obtain ⟨e1, e2⟩ := ht.blocks b
  rw [block_modBlock_self] at e1 e2
  have hm : u.mem = w.mem := ht.rest.mem.trans rfl
  have hcores : u.cores = (leaveCore w b).cores := ht.rest.cores.trans rfl
  refine ⟨e1, e2, hm.trans (hp.trans hvw).mem, fun n => ?_⟩
  have htiles : (u.core (s.block b).core).tiles = tilesLeft b (w.core (w.block b).core).tiles := by
    rw [← leaveCore_tiles, hc', State.core, hcores]
    rfl
  rw [htiles]
  exact tilesLeft_tokens ..

end

/-! ## The end of a context -/

theorem AtHomes.ct {s t : State} (h : AtHomes s t) : t.ct = s.ct := by obtain ⟨_, _, _, _, _, _, _, _, _, _, _, _, _, rfl⟩ := h; rfl
theorem AtHomes.reqs {s t : State} (h : AtHomes s t) : t.reqs = s.reqs := by obtain ⟨_, _, _, _, _, _, _, _, _, _, _, _, _, rfl⟩ := h; rfl

theorem freeVats_unstored (vs : List Version) (s : State) (h : ∀ v ∈ vs, v.stored = false) : vs.foldl freeVat s = s := by
  induction vs with
  | nil => rfl
  | cons v vs ih =>
    have hv : freeVat s v = s := if_pos (by rw [h v List.mem_cons_self]; rfl)
    rw [List.foldl_cons, hv]
    exact ih fun x hx => h x (List.mem_cons_of_mem _ hx)

/-- Nothing of a context is left; memory stays where no version of it stood in the vat. -/
structure CtxGone (s u : State) (h : Nat) : Prop where
  ctx    : u.context h = {}
  blocks : ∀ e ∈ u.blocks, e.2.ctx ≠ h
  tree   : ∀ n, (s.context h).hctx = some n → u.hctxOf n = {} ∧ ∀ v ∈ u.versions, v.hctx ≠ n
  mem    : (∀ v ∈ s.versions, v.stored = false ∨ (s.context h).hctx ≠ some v.hctx) → u.mem = s.mem

theorem endHyps_gone (s : State) (h : Nat) : (endHyps s h).ct = s.ct ∧ (endHyps s h).reqs = s.reqs ∧ (endHyps s h).ctxs = s.ctxs ∧
    (∀ n, (s.context h).hctx = some n → (endHyps s h).hctxOf n = {} ∧ ∀ v ∈ (endHyps s h).versions, v.hctx ≠ n) ∧
    ((∀ v ∈ s.versions, v.stored = false ∨ (s.context h).hctx ≠ some v.hctx) → (endHyps s h).mem = s.mem) := by
  unfold endHyps
  split
  · rename_i hx
    exact ⟨rfl, rfl, rfl, fun n hn => (by rw [hx] at hn; cases hn), fun _ => rfl⟩
  · rename_i x hx
    have hh : AtHomes s ((s.versions.filter fun v => v.hctx == x).foldl freeVat s) := AtHomes.foldl atHomes_freeVat _ s
    refine ⟨hh.ct, hh.reqs, hh.ctxs, fun n hn => ?_, fun hv => ?_⟩
    · rw [hx] at hn
      cases hn
      refine ⟨?_, fun v hv => ?_⟩
      · change tget ({} : Hctx) (tset {} _ x {}) x = {}
        rw [tget_tset, if_pos rfl]
      · simpa using (List.mem_filter.mp hv).2
    · have hs : (s.versions.filter fun v => v.hctx == x).foldl freeVat s = s := freeVats_unstored _ s fun v hm => by
        obtain ⟨h1, h2⟩ := List.mem_filter.mp hm
        rcases hv v h1 with h3 | h3
        · exact h3
        · rw [hx] at h3
          exact absurd (by rw [beq_iff_eq.mp h2]) h3
      dsimp only
      rw [hs]
      rfl

theorem freeCtx_gone (s : State) (h : Nat) : CtxGone s (freeCtx s h) h ∧ (freeCtx s h).ct = s.ct := by
  obtain ⟨hd, hm⟩ := dropBlocks_leaves s (blocksOf s h)
  have hct : ((blocksOf s h).foldl dropBlock s).ct = s.ct := foldl_keeps (f := dropBlock) (P := fun t : State => t.ct = s.ct) (fun t b p => by
    unfold dropBlock
    split_ifs <;> exact p) _ rfl
  obtain ⟨f1, f2, -, -⟩ := freeCtx_leaves s h
  obtain ⟨h1, -, -, h3, h4⟩ := endHyps_gone ((blocksOf s h).foldl dropBlock s) h
  have hc : ((blocksOf s h).foldl dropBlock s).context h = s.context h := by rw [State.context, hd.ctxs]; rfl
  rw [hc] at h3 h4
  rw [hd.versions] at h4
  exact ⟨⟨f1, f2, h3, fun hv => (h4 hv).trans hm⟩, h1.trans hct⟩

theorem recordDone_rest (s : State) (p c : Nat) (r : Record) : ∃ parts svc, recordDone s p c r = { s with parts := parts, svc := svc } := by
  unfold recordDone
  dsimp only
  split_ifs
  · obtain ⟨parts, msix, e⟩ := raiseInt_rest (blackBox s { kind := 2, part := p, tag := r.userTag }) p c
    rw [e]
    exact ⟨_, _, rfl⟩
  · exact ⟨_, _, rfl⟩

theorem refuteAll_rest (s : State) (h : Nat) : ∃ svc, refuteAll s h = { s with svc := svc } := by
  unfold refuteAll
  dsimp only
  split
  · exact ⟨s.svc, rfl⟩
  · refine foldl_keeps (P := fun t : State => ∃ svc, t = { s with svc := svc }) (x := s) (fun t id hp => ?_) _ ⟨s.svc, rfl⟩
    obtain ⟨svc, rfl⟩ := hp
    exact ⟨_, rfl⟩

/-- A context completes: the record is done and nothing of it is left. -/
theorem finishCtx_leaves {s t : State} {h : Nat} (ht : ∃ svc reqs, t = { s with svc := svc, reqs := reqs }) : CtxGone s (finishCtx t h) h ∧ Recorded (finishCtx t h) 2 0 := by
  obtain ⟨svc, reqs, rfl⟩ := ht
  unfold finishCtx
  dsimp only
  generalize hq : recordDone ({ s with svc := svc, reqs := reqs } : State) _ _ _ = q
  obtain ⟨n, hn⟩ := (recordDone_leaves ({ s with svc := svc, reqs := reqs } : State) (State.context { s with svc := svc, reqs := reqs } h).part
    (State.context { s with svc := svc, reqs := reqs } h).chan (State.context { s with svc := svc, reqs := reqs } h).record).1
  obtain ⟨parts, svc', e⟩ := recordDone_rest ({ s with svc := svc, reqs := reqs } : State) (State.context { s with svc := svc, reqs := reqs } h).part
    (State.context { s with svc := svc, reqs := reqs } h).chan (State.context { s with svc := svc, reqs := reqs } h).record
  rw [hq] at hn e
  obtain ⟨g, gct⟩ := freeCtx_gone q h
  obtain ⟨-, -, gsvc, -⟩ := freeCtx_leaves q h
  refine ⟨⟨g.ctx, g.blocks, fun n hn => g.tree n (by rw [e]; exact hn), fun hv => (g.mem (by rw [e]; exact hv)).trans (by rw [e])⟩, n, ?_⟩
  rw [gsvc, gct]
  exact hn

section
variable {s : State} {h : Nat}

theorem contextComplete_signalled {id : Nat} (hs : (s.context h).signalReq = some id) :
    (signalDone s id = true → Leads (.contextComplete h) s fun u => CtxGone s u h ∧ Recorded u 2 0) ∧
    (signalDone s id = false → exec (.contextComplete h) s = .next s) := by
  have hx : exec (.contextComplete h) s = .next (if signalDone s id then finishCtx (dropReq s id) h else s) := by
    refine congrArg Host.Outcome.next ?_
    dsimp only
    rw [hs]
  refine ⟨fun hd => ⟨_, hx, ?_⟩, fun hd => hx.trans (congrArg _ (if_neg (by rw [hd]; decide)))⟩
  rw [if_pos hd]
  exact finishCtx_leaves ⟨_, _, rfl⟩

/-- A context whose work is done makes its signal. -/
theorem contextComplete_done (hs : (s.context h).signalReq = none) (hd : ctxDone s h = true) : exec (.contextComplete h) s = .next (
    match signalTo (refuteAll s h) (s.context h).part h (s.context h).record with
    | .none_ => finishCtx (refuteAll s h) h
    | .fault => freeCtx (signalFault (refuteAll s h) (s.context h).part (s.context h).chan (s.context h).record) h
    | .sent t id => modCtx (endHyps t h) h fun c => { c with signalReq := some id }) := by
  refine congrArg Host.Outcome.next ?_
  dsimp only
  rw [hs, hd] <;> rfl

theorem contextComplete_open (hs : (s.context h).signalReq = none) (hd : ctxDone s h = false) : exec (.contextComplete h) s = .next s := by
  refine congrArg Host.Outcome.next ?_
  dsimp only
  rw [hs, hd]
  rfl

theorem contextComplete_unsignalled (hs : (s.context h).signalReq = none) (hd : ctxDone s h = true) (h0 : (s.context h).record.signal % 8 = 0) :
    Leads (.contextComplete h) s fun u => CtxGone s u h ∧ Recorded u 2 0 := by
  refine ⟨_, contextComplete_done hs hd, ?_⟩
  have hn : signalTo (refuteAll s h) (s.context h).part h (s.context h).record = .none_ := if_pos h0
  rw [hn]
  obtain ⟨svc, e⟩ := refuteAll_rest s h
  exact finishCtx_leaves ⟨svc, s.reqs, e⟩

theorem syncPlace_svc (svc : Service) (p a : Nat) (acc : Acc) : syncPlace { s with svc := svc } p a acc = syncPlace s p a acc := by
  unfold syncPlace
  rfl

theorem contextComplete_sends {host : Bool} {pa : Nat} {x : Xl} (hs : (s.context h).signalReq = none) (hd : ctxDone s h = true)
    (h2 : (s.context h).record.signal % 8 = 2) (hp : syncPlace s (s.context h).part (s.context h).record.signal .write = some (host, pa, x)) :
    Leads (.contextComplete h) s fun u => ∃ r ∈ u.reqs, r.kind = .atomic ∧ r.sub = 0 ∧ r.ty = .n64 ∧ r.place = (if host then .host (pa / 64 * 64) else .home (pa / 64 * 64)) ∧
      r.parts = [{ off := pa % 64, w := 8, opB := (s.context h).record.signalV }] ∧ (u.context h).signalReq = some r.id := by
  refine ⟨_, contextComplete_done hs hd, ?_⟩
  obtain ⟨svc, e⟩ := refuteAll_rest s h
  have hp' : syncPlace (refuteAll s h) (s.context h).part (s.context h).record.signal .write = some (host, pa, x) := by
    rw [e, syncPlace_svc]
    exact hp
  have hsig := signalTo_sent (ctx := h) (r := (s.context h).record) (by omega) hp'
  rw [hsig]
  dsimp only
  generalize notePte (refuteAll s h) _ _ _ x.entry = t
  obtain ⟨-, g2, g3, -⟩ := endHyps_gone (addReq t (signalReqOf (refuteAll s h) t (s.context h).part h (s.context h).record host pa x)) h
  refine ⟨signalReqOf (refuteAll s h) t (s.context h).part h (s.context h).record host pa x, ?_, ?_, rfl, rfl, rfl, rfl, ?_⟩
  · change _ ∈ (endHyps _ h).reqs
    rw [g2]
    exact List.mem_append_right _ (List.mem_singleton_self _)
  · exact if_neg (by omega)
  · rw [context_modCtx_self]
    rfl

end

/-! ## O53 -/

/-- Settles O53: a gang is placed, saved and brought back by steps that keep memory but for its slots; groups, blocks and contexts end. -/
theorem contextsAndGangs : Obligations.ContextsAndGangs := by
  unfold Obligations.ContextsAndGangs
  intro s h gang part
  refine ⟨fun t hr hs => gangPlace_leads hr hs, fun t hr hs => gangResume_leads hr hs, gangPreempt_leads, preemptSaveDone_leads, fun core hb hg hf => saveCore_leaves hb hg hf,
    fun core hr hd => itemRefill_leads hr hd, fun b g he hn hl hr hlent hc => groupEnd_leads he hn hl hr hlent hc,
    fun b hr hn hg he hc hq => blockEnd_leads hr hn hg he hc hq, ?_⟩
  intro gone
  have of_gone : ∀ u, CtxGone s u h ∧ Recorded u 2 0 → gone u ∧ Recorded u 2 0 := fun u hu => ⟨⟨hu.1.ctx, hu.1.blocks, hu.1.tree, hu.1.mem⟩, hu.2⟩
  have leads_gone : Leads (.contextComplete h) s (fun u => CtxGone s u h ∧ Recorded u 2 0) → Leads (.contextComplete h) s fun u => gone u ∧ Recorded u 2 0 :=
    fun ⟨u, hu, hg⟩ => ⟨u, hu, of_gone u hg⟩
  exact ⟨fun hs hd => ⟨fun h0 => leads_gone (contextComplete_unsignalled hs hd h0), fun host pa x h2 hp => contextComplete_sends hs hd h2 hp⟩,
    contextComplete_open, fun id hs => ⟨fun hd => leads_gone ((contextComplete_signalled hs).1 hd), (contextComplete_signalled hs).2⟩⟩

end Sys2Proof.Machine
end

section
/-! PROOF. A block that goes may uncover another under its own handle (R122, log 4). -/

set_option Elab.async false

namespace Sys2Proof.Machine

/-! ## O45

Tables are lists of which a read takes the first entry of a key. A context that is freed takes its blocks out of the list, those that have
ended among them, and a later entry under the same handle then is the block that a read finds. -/

/-- A handle listed twice: first a block of context 0 that has ended, then one with a load numbered 9, not yet given. The next step is a
thermal trip. -/
def blockListedTwice : State :=
  { State.reset with
    agenda := [.event .thermtripNInput]
    ctxs := [(0, { live := true })]
    blocks := [(5, { ctx := 0, ended := true }), (5, { ctx := 1, groups := [(0, { loads := [{ id := 9 }] })] })] }

/-- The numbers of the loads of a group, and the next number to be given, after a step. -/
def loadsAfter (b g : Nat) : Out → Option (List Nat × Nat)
  | .next u => some ((u.group b g).loads.map fun l => l.id, u.seq)
  | _ => none

theorem blockListedTwice_tripped : loadsAfter 5 0 (step blockListedTwice) = some ([9], 1) := by decide +kernel

theorem block_blockListedTwice (b : Nat) : (blockListedTwice.block b).groups = [] := by
  by_cases h : b = 5
  · subst h
    rfl
  · have hk : b ∉ tkeys blockListedTwice.blocks := by simpa [tkeys, blockListedTwice] using h
    rw [State.block, tget_absent _ _ _ hk]

theorem freshLoads_blockListedTwice : FreshLoads blockListedTwice := by
  intro b g l hl
  rw [State.group, block_blockListedTwice] at hl
  exact absurd hl List.not_mem_nil

/-- Refutes O45: a trip frees a context, whose ended block uncovers a load that has the number 9 where 1 is the next to be given. -/
theorem not_loadNumbers : ¬Obligations.LoadNumbers := by
  intro h
  cases hu : step blockListedTwice with
  | next u =>
    have e := blockListedTwice_tripped
    rw [hu] at e
    obtain ⟨hl, hs⟩ := Prod.mk.inj (Option.some.inj e)
    have hm : 9 ∈ (u.group 5 0).loads.map fun l => l.id := by
      rw [hl]
      exact List.mem_singleton_self 9
    obtain ⟨l, hl, h9⟩ := List.mem_map.mp hm
    have := h _ u freshLoads_blockListedTwice hu 5 0 l hl
    rw [h9, hs] at this
    exact absurd this (by decide)
  | fault => exact absurd (hu ▸ blockListedTwice_tripped) (by simp [loadsAfter])
  | refused => exact absurd (hu ▸ blockListedTwice_tripped) (by simp [loadsAfter])

end Sys2Proof.Machine
end

section
/-! PROOF. Memory's canonical form (log 4) under the functions of the device: the shared operations, contexts, the host-line buffer and the
home slices. -/

set_option Elab.async false

namespace Sys2Proof.Machine

/-! ## Rules -/

section
variable {s t : State}

/-- What changes neither memory. -/
theorem KeepsForm.same (h : KeepsForm s t) {u : State} (hm : u.mem = t.mem := by rfl) (hh : u.hostMem = t.hostMem := by rfl) : KeepsForm s u :=
  h.trans (.of_same hm hh)

/-- What is tame keeps the form. -/
theorem KeepsForm.tame (h : KeepsForm s t) {u : State} (hu : Tame false t u) : KeepsForm s u := h.trans hu.form

theorem keeps_foldl {α : Type} (h : KeepsForm s t) {f : State → α → State} (hf : ∀ u x, KeepsForm s u → KeepsForm s (f u x)) (xs : List α) :
    KeepsForm s (xs.foldl f t) := foldl_keeps (P := KeepsForm s) hf xs h

theorem keeps_ite {c : Prop} [Decidable c] {a b : State} (ha : c → KeepsForm s a) (hb : ¬c → KeepsForm s b) : KeepsForm s (if c then a else b) := by
  split_ifs with hc
  exacts [ha hc, hb hc]

/-- The answer is a next state, in which memory still has its form. -/
def FormOut (s : State) (o : Out) : Prop := ∃ u, o = .next u ∧ KeepsForm s u

theorem formOut_next {u : State} (h : KeepsForm s u) : FormOut s (.next u) := ⟨u, rfl, h⟩

theorem formOut_ite {c : Prop} [Decidable c] {a b : Out} (ha : c → FormOut s a) (hb : ¬c → FormOut s b) : FormOut s (if c then a else b) := by
  split_ifs with hc
  exacts [ha hc, hb hc]

variable (h : KeepsForm s t)
include h

theorem keeps_modGroup {b g : Nat} {f : Group → Group} : KeepsForm s (modGroup t b g f) := h.same
theorem keeps_modLane {b g L : Nat} {f : Lane → Lane} : KeepsForm s (modLane t b g L f) := h.same
theorem keeps_modBlock {b : Nat} {f : Block → Block} : KeepsForm s (modBlock t b f) := h.same
theorem keeps_modCore {c : Nat} {f : Core → Core} : KeepsForm s (modCore t c f) := h.same
theorem keeps_modCtx {c : Nat} {f : Ctx → Ctx} : KeepsForm s (modCtx t c f) := h.same
theorem keeps_modPart {p : Nat} {f : Part_ → Part_} : KeepsForm s (modPart t p f) := h.same
theorem keeps_modHctx {x : Nat} {f : Hctx → Hctx} : KeepsForm s (modHctx t x f) := h.same
theorem keeps_modChan (p c : Nat) (f : Chan → Chan) : KeepsForm s (modChan t p c f) := h.same
theorem keeps_modPort (p : Nat) (f : Port → Port) : KeepsForm s (modPort t p f) := h.same
theorem keeps_modReq (id : Nat) (f : Req → Req) : KeepsForm s (modReq t id f) := h.same
theorem keeps_addReq (r : Req) : KeepsForm s (addReq t r) := h.same
theorem keeps_blackBox (e : BbEntry) (r : Option Nat) : KeepsForm s (blackBox t e r) := h.same
theorem keeps_recordError (r c a y : Nat) : KeepsForm s (recordError t r c a y) := h.same
theorem keeps_poisonSector (n : Nat) : KeepsForm s (poisonSector t n) := h.same
theorem keeps_modStore1 (c : Nat) (b : Bool) (f : Tbl Sector → Tbl Sector) : KeepsForm s (modStore1 t c b f) := h.same
theorem keeps_sendMsi (v : Nat) : KeepsForm s (sendMsi t v) := h.tame (tame_sendMsi (.refl false _) _)
theorem keeps_raiseInt (p n : Nat) : KeepsForm s (raiseInt t p n) := h.tame (tame_raiseInt (.refl false _) ..)
theorem keeps_raiseAlert (n : Nat) : KeepsForm s (raiseAlert t n) := h.tame (tame_raiseAlert (.refl false _) _)
theorem keeps_putBytes (bs : List (Nat × Byte)) : KeepsForm s (putBytes t bs) := h.trans (keepsForm_putBytes ..)
theorem keeps_putHost (bs : List (Nat × Byte)) : KeepsForm s (putHost t bs) := h.trans (keepsForm_putHost ..)
theorem keeps_syncEval (a n : Nat) : KeepsForm s (syncEval t a n) := h.trans (keepsForm_syncEval ..)
theorem keeps_devNum (a n x : Nat) : KeepsForm s (devNum t a n x) := h.trans (keepsForm_devNum ..)
theorem keeps_devBytes (a : Nat) (bs : List Byte) : KeepsForm s (devBytes t a bs) := h.tame (tame_devBytes (.refl false _) ..)
theorem keeps_notePte (p va : Nat) (acc : Acc) (e : TlbEntry) : KeepsForm s (notePte t p va acc e) := h.trans (keepsForm_notePte ..)
theorem keeps_noteXl (c p va : Nat) (acc : Acc) (x : Xl) : KeepsForm s (noteXl t c p va acc x) := h.trans (keepsForm_noteXl ..)
theorem keeps_enterResolve (x : Nat) (c : Bool) (id r : Nat) (l : Option (Nat × Nat × Nat)) : KeepsForm s (enterResolve t x c id r l) :=
  h.tame (tame_enterResolve (.refl false _) ..)
theorem keeps_copyStore (job n : Nat) : KeepsForm s (copyStore t job n) := h.tame (tame_copyStore (.refl false _) ..)

end

section
variable {s t : State} (h : KeepsForm s t)
include h

/-! ## Health -/

theorem keeps_modGroupsOf (c : Nat) (f : Nat → Nat → Group → Group) : KeepsForm s (modGroupsOf t c f) :=
  keeps_foldl h (fun _ _ hu => keeps_foldl hu (fun _ _ hv => keeps_modGroup hv) _) _

theorem keeps_checkCtx (c : Nat) : KeepsForm s (checkCtx t c) := keeps_modGroupsOf h ..
theorem keeps_checkCtxs (cs : List Nat) : KeepsForm s (checkCtxs t cs) := keeps_sendMsi (keeps_foldl h (fun _ _ hu => keeps_checkCtx hu _) _) 3

theorem keeps_coreCorrected (c : Nat) : KeepsForm s (coreCorrected t c) := by
  have h1 : KeepsForm s (modCore (recordError t (repCore c) 2 0 0) c fun k => { k with eccTimes := ((t.core c).eccTimes.filter fun n => decide (t.ct < n + hourTicks)) ++ [t.ct] }) :=
    keeps_modCore (keeps_recordError h ..)
  exact keeps_ite (fun _ => keeps_raiseAlert h1 3) fun _ => h1

theorem keeps_sramCore (c : Nat) (f : SramFault) : KeepsForm s (sramCore t c f) := by
  unfold sramCore
  split
  · exact keeps_coreCorrected h c
  · exact keeps_recordError (keeps_modCore h) ..
  · exact keeps_checkCtxs (keeps_recordError h ..) _
  · exact h

theorem keeps_writeVat (v : Version) : KeepsForm s (writeVat t v) := by
  unfold writeVat
  split
  exacts [h, keeps_devBytes (keeps_notePte h ..) ..]

theorem keeps_freeVat (v : Version) : KeepsForm s (freeVat t v) := by
  unfold freeVat
  refine keeps_ite (fun _ => h) fun _ => ?_
  split
  exacts [keeps_devNum (keeps_notePte h ..) .., h]

theorem keeps_dropVersions (f : Version → Bool) : KeepsForm s (dropVersions t f) := h.same

theorem keeps_endHyps (c : Nat) : KeepsForm s (endHyps t c) := by
  unfold endHyps
  split
  · exact h
  · next x _ => exact KeepsForm.same (keeps_dropVersions (keeps_foldl h (fun _ _ hu => keeps_freeVat hu _) _) fun v => v.hctx == x)

theorem keeps_leaveCore (b : Nat) : KeepsForm s (leaveCore t b) := keeps_modCore h

theorem keeps_dropBlock (b : Nat) : KeepsForm s (dropBlock t b) := by
  have hl : KeepsForm s (if (t.block b).resident then leaveCore t b else t) := keeps_ite (fun _ => keeps_leaveCore h b) fun _ => h
  unfold dropBlock
  exact hl.same

theorem keeps_freeCtx (c : Nat) : KeepsForm s (freeCtx t c) := by
  have h1 := keeps_endHyps (keeps_foldl h (fun _ b hu => keeps_dropBlock hu b) (blocksOf t c)) c
  unfold freeCtx
  exact h1.same

/-! ## The host-line buffer -/

theorem keeps_hostWrite (bs : List (Nat × Byte)) : KeepsForm s (hostWrite t bs) :=
  keeps_foldl h (fun _ _ hu => keeps_ite (fun _ => hu.same) fun _ => keeps_putHost hu _) _

theorem keeps_giveLine (n : Nat) : KeepsForm s (giveLine t n) := by
  unfold giveLine
  split
  exacts [h, KeepsForm.same (keeps_putHost h _)]

theorem keeps_ownLine (n : Nat) : KeepsForm s (ownLine t n) :=
  keeps_ite (fun _ => h) fun _ => KeepsForm.same (keeps_ite (fun _ => keeps_giveLine h _) fun _ => h)

/-! ## Toward the base dies -/

theorem keeps_modL2 (a : Nat) (f : L2Line → L2Line) : KeepsForm s (modL2 t a f) := h.same
theorem keeps_modStack (n : Nat) (f : Stack → Stack) : KeepsForm s (modStack t n f) := h.same
theorem keeps_modMemChan (n : Nat) (f : MemChan → MemChan) : KeepsForm s (modMemChan t n f) := h.same

theorem keeps_l2Charge {r : Req} {a : Nat} {u : State} (hu : l2Charge t r a = some u) : KeepsForm s u := by
  unfold l2Charge at hu
  dsimp only at hu
  split_ifs at hu <;> obtain rfl := Option.some.inj hu <;> exact h.same

theorem keeps_pumpStack (n m : Nat) : KeepsForm s (pumpStack n m t) := by
  induction m generalizing t with
  | zero => exact h
  | succ m ih =>
    unfold pumpStack
    split
    exacts [ih (keeps_modStack h ..), h]

theorem keeps_sendStack (n : Nat) (r : StackReq) : KeepsForm s (sendStack t n r) := keeps_pumpStack (keeps_modStack (h.same) ..) ..
theorem keeps_askRead (a x id : Nat) (r : Req) : KeepsForm s (askRead t a x id r) :=
  keeps_ite (fun _ => keeps_modStack h ..) fun _ => keeps_sendStack h ..
theorem keeps_svcRead (a n : Nat) : KeepsForm s (svcRead t a n) := keeps_foldl h (fun _ _ hu => keeps_ite (fun _ => hu) fun _ => keeps_sendStack hu ..) _
theorem keeps_askLine (a : Nat) (r : Req) : KeepsForm s (askLine t a r) := keeps_modReq (keeps_askRead h ..) ..

/-! ## Eviction and versions -/

theorem keeps_vatVictim (v : Version) : KeepsForm s (vatVictim t v) := by
  unfold vatVictim
  split
  exacts [h, keeps_sendStack (keeps_writeVat h v) ..]

theorem keeps_evictKey (n : Nat) : KeepsForm s (evictKey t n) :=
  keeps_ite (fun _ => h) fun _ => keeps_ite
    (fun _ => keeps_ite (fun _ => h) fun _ => KeepsForm.same (keeps_foldl h (fun _ v hu => keeps_vatVictim hu v) (t.versions.filter (inKey n))))
    fun _ => keeps_ite (fun _ => keeps_sendStack h.same ..) fun _ => h.same

theorem keeps_l2Room (n : Nat) : KeepsForm s (l2Room t n) := by
  unfold l2Room
  split
  exacts [h, keeps_evictKey h _]

theorem keeps_holdVersion (v : Version) : KeepsForm s (holdVersion t v) := keeps_ite (fun _ => h) fun _ => KeepsForm.same (keeps_l2Room h v.key)
theorem keeps_versionBack (v : Version) (b : Bool) : KeepsForm s (versionBack t v b) := KeepsForm.same (keeps_holdVersion h v)

theorem keeps_askVersion (v : Version) (r : Req) : KeepsForm s (askVersion t v r) := by
  unfold askVersion
  split
  exacts [keeps_modReq (keeps_askRead h ..) .., keeps_versionBack h ..]

/-! ## Stores and atomics -/

theorem keeps_acceptReq (id : Nat) : KeepsForm s (acceptReq t id) := keeps_modReq (h.same) ..
theorem keeps_stackAwake (a : Nat) (b : Bool) : KeepsForm s (stackAwake t a b) := keeps_ite (fun _ => h) fun _ => keeps_modStack h ..
theorem keeps_hostStore (a : Nat) (bs : List Byte) : KeepsForm s (hostStore t a bs) := keeps_ite (fun _ => h) fun _ => keeps_addReq (keeps_stackAwake h ..) _

theorem keeps_acceptOne (id : Nat) : KeepsForm s (acceptOne t id) := by
  unfold acceptOne
  split
  · exact h
  · split
    · refine keeps_ite (fun _ => h) fun _ => ?_
      split
      · next hu => exact keeps_acceptReq (keeps_l2Charge h hu) id
      · exact h
    · exact h

theorem form_execL2StoreAccept (src : StoreSrc) : FormOut s (execL2StoreAccept src t) := by
  refine formOut_next ?_
  split
  · exact keeps_acceptOne h _
  · exact keeps_acceptOne h _
  · next job sector =>
    have hc := keeps_copyStore h job sector
    dsimp only
    split
    · split
      · next a _ =>
        cases hu : l2Charge (copyStore t job sector) _ a with
        | none => exact h
        | some u => exact keeps_l2Charge hc hu
      · exact hc
    · exact hc
  · exact keeps_hostStore h ..

theorem keeps_applyVersion (r : Req) (n : Nat) : KeepsForm s (applyVersion t r n) := by
  unfold applyVersion
  dsimp only
  refine keeps_ite (fun _ => keeps_foldl h.same (fun _ v hu => keeps_ite (fun _ => keeps_holdVersion hu v) fun _ => hu) _) fun _ => ?_
  split
  · exact KeepsForm.same (keeps_holdVersion h _)
  · exact keeps_ite (fun _ => keeps_enterResolve h ..) fun _ => h

theorem keeps_applyAtomic (r : Req) (a : Nat) : KeepsForm s (applyAtomic t r a) := by
  refine keeps_modReq (foldl_keeps (P := fun acc : State × List Part => KeepsForm s acc.1) (fun acc p ha => keeps_devNum ha ..) _ h) ..

theorem keeps_applyBytes (bs : List (Nat × Byte)) (a : Nat) : KeepsForm s (applyBytes t bs a) :=
  have h1 := keeps_syncEval (keeps_putBytes h (bs.map fun e => (a + e.1, e.2))) a 64
  keeps_ite (fun _ => h1.same) fun _ => h1

theorem keeps_maskedWrite (a c d q : Nat) : KeepsForm s (maskedWrite t a c d q) := keeps_ite (fun _ => keeps_modL2 h ..) fun _ => keeps_sendStack h ..
theorem keeps_dirtyLine (r : Req) (a : Nat) : KeepsForm s (dirtyLine t r a) := keeps_maskedWrite h ..
theorem keeps_lostWrite (r : Req) : KeepsForm s (lostWrite t r) := keeps_ite (fun _ => keeps_modReq h ..) fun _ => h
theorem keeps_sendSnoop (a : Nat) (b : Bool) : KeepsForm s (sendSnoop t a b) := keeps_ite (fun _ => h) fun _ => h.same
theorem keeps_useSnoop (a : Nat) : KeepsForm s (useSnoop t a) := h.same
theorem keeps_hostGets (r : Req) (a : Nat) (bs : List Byte) : KeepsForm s (hostGets t r a bs) := KeepsForm.same (keeps_stackAwake (keeps_useSnoop h a) a false)

/-! ## Loads -/

theorem keeps_replyLoad (r : Req) (a : Nat) : KeepsForm s (replyLoad t r a) := by
  have h1 : KeepsForm s (if leaseFor t r a = 0 then t
      else useSnoop (modL2 t a fun l => { l with lease := tmod 0 l.lease (sectIn a) fun n => max n (leaseFor t r a) }) a) :=
    keeps_ite (fun _ => h) fun _ => h.same
  exact keeps_ite (fun _ => keeps_hostGets h1 ..) fun _ => keeps_modReq h1 ..

theorem keeps_serveLoad (r : Req) (a : Nat) : KeepsForm s (serveLoad t r a) := keeps_replyLoad (keeps_ite (fun _ => h) fun _ => keeps_modL2 h ..) ..

theorem keeps_sramEffect (r : Req) (a : Nat) (f : SramFault) : KeepsForm s (sramEffect t r a f) := by
  unfold sramEffect
  split
  · exact h
  · exact keeps_recordError h ..
  · exact keeps_ite (fun _ => keeps_checkCtxs (keeps_poisonSector (keeps_recordError h ..) _) _) fun _ => keeps_recordError (keeps_modL2 h ..) ..
  · exact keeps_ite (fun _ => h) fun _ => keeps_sramCore h ..

theorem keeps_keepLeases (old : State) (a : Nat) : KeepsForm s (keepLeases old t a) := keeps_ite (fun _ => h.same) fun _ => h

theorem keeps_l2Sram (n m : Nat) (b : Bool) : KeepsForm s (l2Sram t n m b) := by
  refine keeps_ite (fun _ => h) fun _ => keeps_ite (fun _ => keeps_recordError h ..) fun _ => keeps_ite (fun _ => keeps_recordError h.same ..) fun _ => ?_
  exact keeps_checkCtxs (keeps_ite (fun _ => keeps_poisonSector (keeps_recordError h ..) _) fun _ => KeepsForm.same (keeps_recordError h repL2 3 (256 * keyLine n + 64 * (m % 4)) 0)) _

theorem keeps_loadHeld (r : Req) (a : Nat) (f : SramFault) : KeepsForm s (loadHeld t r a f) := by
  have h1 := keeps_keepLeases (keeps_sramEffect h r a f) t a
  refine keeps_ite (fun _ => h) fun _ => keeps_ite (fun _ => keeps_askLine h ..) fun _ => keeps_ite (fun _ => keeps_askLine h1 ..) fun _ => ?_
  split
  · exact keeps_askVersion h1 ..
  · exact keeps_ite (fun _ => keeps_sendSnoop h1 ..) fun _ => keeps_serveLoad h1 ..

theorem keeps_loadAtHome (r : Req) (a : Nat) (f : SramFault) : KeepsForm s (loadAtHome t r a f) :=
  keeps_ite (fun _ => keeps_loadHeld (keeps_acceptReq h _) ..) fun _ => keeps_loadHeld h ..

theorem keeps_serveHeld (n : Nat) : KeepsForm s (serveHeld t n) := by
  refine keeps_foldl h (fun u r hu => ?_) _
  split
  exacts [keeps_ite (fun _ => keeps_loadHeld hu ..) fun _ => hu, hu]

theorem keeps_applyWrite (r : Req) (a : Nat) : KeepsForm s (applyWrite t r a) :=
  keeps_ite (fun _ => keeps_applyVersion h ..) fun _ => keeps_ite (fun _ => keeps_dirtyLine (keeps_lostWrite h r) ..) fun _ =>
    keeps_ite (fun _ => keeps_dirtyLine (keeps_applyAtomic h ..) ..) fun _ => keeps_dirtyLine (keeps_applyBytes h ..) ..

theorem keeps_writeWaits {r : Req} {a : Nat} {u : State} (hu : writeWaits t r a = some u) : KeepsForm s u := by
  unfold writeWaits at hu
  split_ifs at hu
  · split at hu
    · split_ifs at hu
      obtain rfl := Option.some.inj hu
      exact keeps_askVersion h ..
    · obtain rfl := Option.some.inj hu
      exact h
  · split at hu
    · split_ifs at hu
      obtain rfl := Option.some.inj hu
      exact keeps_askVersion h ..
    · cases hu
  · obtain rfl := Option.some.inj hu
    exact keeps_askLine h ..
  · obtain rfl := Option.some.inj hu
    exact h

theorem form_execL2StoreApply (id : Nat) : FormOut s (execL2StoreApply id t) := by
  refine formOut_next ?_
  split
  · exact h
  next r _ =>
  split
  · next a _ =>
    refine keeps_ite (fun _ => h) fun _ => ?_
    split
    · next hu => exact keeps_writeWaits h hu
    · refine keeps_ite (fun _ => keeps_sendSnoop h ..) fun _ => ?_
      have h0 : KeepsForm s { useSnoop t a with hostCached := if r.fromHost then t.hostCached else t.hostCached.filter (· ≠ sectorOf a) } := h.same
      have h2 := keeps_modReq (keeps_applyWrite h0 r a) id fun x => { x with stage := .reply, ctc := homeCt t a + 4 }
      exact keeps_serveHeld (keeps_ite (fun _ => KeepsForm.same (keeps_stackAwake h2 a false)) fun _ => h2) _
  · exact h

theorem form_execL2LoadServe (id : Nat) (f : SramFault) : FormOut s (execL2LoadServe id f t) := by
  refine formOut_next ?_
  split
  · exact h
  split
  · refine keeps_ite (fun _ => h) fun _ => keeps_ite (fun _ => keeps_ite (fun _ => h) fun _ => ?_) fun _ => keeps_ite (fun _ => keeps_loadAtHome h ..) fun _ => h
    split
    · exact h
    · next hu => exact keeps_loadAtHome (keeps_l2Charge h hu) ..
  · exact h

theorem form_execLeaseExpiry (c n : Nat) : FormOut s (execLeaseExpiry c n t) := by
  have fade : ∀ (b : Bool) {u : State}, KeepsForm s u → KeepsForm s (
      if (tget {} (store1 (u.core c) b) n).valid && !holds (coreCt u c) (tget {} (store1 (u.core c) b) n).expiry then
        modStore1 u c b fun x => tmod {} x n fadeSector else u) := fun b _ hu => keeps_ite (fun _ => keeps_modStore1 hu ..) fun _ => hu
  exact formOut_next (fade true (fade false h))

end

end Sys2Proof.Machine
end

section
/-! PROOF. Memory's canonical form under the base dies, the replies, resets, temperature and power. -/

set_option Elab.async false

namespace Sys2Proof.Machine

section
variable {s t : State} (h : KeepsForm s t)
include h

/-! ## The base dies -/

theorem keeps_modAt (n m : Nat) (f : StackReq → StackReq) : KeepsForm s (modAt t n m f) := h.same
theorem keeps_modMsc (n : Nat) (f : MscLine → MscLine) : KeepsForm s (modMsc t n f) := h.same
theorem keeps_noteBursts (n : Nat) (r : StackReq) (b : Bool) (as : List Nat) : KeepsForm s (noteBursts t n r b as) := h.same
theorem keeps_wake (ids : List Nat) : KeepsForm s (wake t ids) := h.same
theorem keeps_openRow (n : Nat) (r : StackReq) : KeepsForm s (openRow t n r) := h.same

theorem keeps_leaveDie (n : Nat) (r : StackReq) : KeepsForm s (leaveDie t n r) :=
  keeps_ite (fun _ => h) fun _ => keeps_ite (fun _ => h.same) fun _ => keeps_foldl h.same (fun _ _ hu => keeps_modGroup hu) _

theorem keeps_complete (n : Nat) (r : StackReq) (m : Nat) : KeepsForm s (complete t n r m) := keeps_pumpStack (keeps_modStack (keeps_leaveDie h ..) ..) ..
theorem keeps_fillLine (n m : Nat) (ids : List Nat) : KeepsForm s (fillLine t n m ids) := keeps_wake (keeps_modL2 (keeps_l2Room h n) ..) _

theorem keeps_fillVersions (r : StackReq) (b : Bool) : KeepsForm s (fillVersions t r b) := by
  refine keeps_wake (keeps_foldl h (fun u v hu => ?_) _) _
  split
  exacts [keeps_ite (fun _ => keeps_versionBack hu ..) fun _ => hu, hu]

theorem keeps_readDone (r : StackReq) (n : Nat) : KeepsForm s (readDone t r n) := keeps_ite (fun _ => keeps_fillLine h ..) fun _ => keeps_fillVersions h ..

theorem keeps_poisonWaiting (id : Nat) : KeepsForm s (poisonWaiting t id) := by
  unfold poisonWaiting
  split
  · exact h
  split
  · exact keeps_ite (fun _ => h) fun _ => keeps_ite (fun _ => keeps_hostGets h ..) fun _ => keeps_ite (fun _ => keeps_modReq h ..) fun _ => keeps_modReq h ..
  · exact h

theorem keeps_downDone (n : Nat) (r : StackReq) : KeepsForm s (downDone t n r) :=
  have h1 := keeps_complete h n r 3
  keeps_ite (fun _ => keeps_ite (fun _ => keeps_foldl h1 (fun _ _ hu => keeps_poisonWaiting hu _) _) fun _ => keeps_fillVersions h1 ..) fun _ => h1

theorem keeps_eccEffect (a : Nat) (b : Bool) (e : EccResult) : KeepsForm s (eccEffect t a b e) := by
  have h1 := keeps_recordError h (repChannel (channelOf a)) 1 a 0
  cases e with
  | ok => exact h
  | corrected => exact keeps_recordError h ..
  | uncorrectable => exact keeps_checkCtxs (keeps_ite (fun _ => h1) fun _ => keeps_poisonSector h1 (sectorOf a)) _

theorem keeps_windowEnd (c n m : Nat) : KeepsForm s (windowEnd t c n m) := keeps_ite (fun _ => h) fun _ => keeps_modMemChan h ..
theorem keeps_switchEnd (c : Nat) : KeepsForm s (switchEnd t c) := by
  unfold switchEnd
  split
  exacts [h, keeps_ite (fun _ => h) fun _ => keeps_modMemChan h ..]

theorem form_execToggleWindowEnd (c n m n' m' : Nat) : FormOut s (execToggleWindowEnd c n m n' m' t) := formOut_next (keeps_windowEnd h ..)
theorem form_execCodeSwitchDone (c : Nat) : FormOut s (execCodeSwitchDone c t) := formOut_next (keeps_switchEnd h c)

theorem keeps_readHit (n : Nat) (r : StackReq) (m : MscLine) : KeepsForm s (readHit t n r m) :=
  keeps_ite (fun _ => keeps_readDone (keeps_complete (keeps_noteBursts (keeps_modMsc h ..) ..) ..) ..) fun _ => keeps_modAt (keeps_modMsc h ..) ..

theorem form_execBaseDieRequest (n m : Nat) : FormOut s (execBaseDieRequest n m t) := by
  refine formOut_next ?_
  split
  · exact h
  refine keeps_ite (fun _ => h) fun _ => keeps_ite (fun _ => keeps_downDone h ..) fun _ => ?_
  exact keeps_ite (fun _ => keeps_ite (fun _ => keeps_complete (keeps_modMsc (keeps_noteBursts h.same ..) ..) ..) fun _ => h.same)
    fun _ => keeps_ite (fun _ => h.same) fun _ => keeps_readHit (keeps_modAt h ..) ..

theorem form_execVictimFill (n m : Nat) : FormOut s (execVictimFill n m t) := by
  refine formOut_next ?_
  split
  · exact h
  · exact keeps_ite (fun _ => h) fun _ => keeps_ite (fun _ => keeps_downDone h ..) fun _ => keeps_complete (keeps_modStack (keeps_noteBursts h ..) ..) ..

theorem form_execDiscardByHypothesis (n m : Nat) : FormOut s (execDiscardByHypothesis n m t) := by
  refine formOut_next ?_
  split
  · exact h
  · exact keeps_ite (fun _ => h) fun _ => keeps_complete (keeps_modStack h ..) ..

theorem form_execDramRequestServed (n m : Nat) (es : List EccResult) : FormOut s (execDramRequestServed n m es t) := by
  refine formOut_next ?_
  split
  · exact h
  refine keeps_ite (fun _ => h) fun _ => keeps_ite (fun _ => keeps_downDone h ..) fun _ => keeps_ite (fun _ => h) fun _ => ?_
  refine keeps_ite (fun _ => keeps_complete (keeps_openRow h ..) ..) fun _ => ?_
  exact keeps_readDone (keeps_complete (keeps_foldl (keeps_noteBursts (keeps_openRow h ..) ..) (fun _ _ hu => keeps_eccEffect hu ..) _) ..) ..

theorem form_execFrugalHoldRelease (n m : Nat) : FormOut s (execFrugalHoldRelease n m t) := by
  refine formOut_next ?_
  split
  exacts [h, keeps_ite (fun _ => keeps_modAt h ..) fun _ => h]

theorem form_execRefreshDue (c b : Nat) (how : RefreshStep) : FormOut s (execRefreshDue c b how t) := by
  refine formOut_next (keeps_ite (fun _ => h) fun _ => ?_)
  cases how <;> exact keeps_ite (fun _ => h.same) fun _ => h.same

theorem form_execPatrolScrub (n a : Nat) (e : EccResult) : FormOut s (execPatrolScrub n a e t) := by
  refine formOut_next (keeps_ite (fun _ => h) fun _ => ?_)
  split
  · exact h.same
  · refine keeps_ite (fun _ => h) fun _ => keeps_ite (fun _ => keeps_downDone h ..) fun _ => keeps_ite (fun _ => h) fun _ => ?_
    exact keeps_eccEffect (keeps_modStack (keeps_complete (keeps_openRow h ..) ..) ..) ..

theorem keeps_channelLost (c : Nat) : KeepsForm s (channelLost t c) :=
  have h1 := keeps_recordError (keeps_modMemChan h c fun k => { k with state := 2 }) (repChannel c) 7 0 0
  keeps_ite (fun _ => h1) fun _ => keeps_checkCtxs h1 _

theorem keeps_failHeld (c : Nat) : KeepsForm s (failHeld t c) :=
  keeps_foldl (keeps_foldl (keeps_modStack h ..) (fun _ _ hu => keeps_downDone hu ..) _) (fun _ _ hu => keeps_downDone hu ..) _

theorem form_execChannelRetrainDone (c n m : Nat) : FormOut s (execChannelRetrainDone c n m t) :=
  formOut_next <| keeps_ite (fun _ => h) fun _ => keeps_ite (fun _ => keeps_pumpStack h.same ..) fun _ => keeps_failHeld (keeps_channelLost h.same c) c

/-! ## Replies -/

theorem keeps_dropReq (id : Nat) : KeepsForm s (dropReq t id) := h.same
theorem keeps_expireLane (b g id L : Nat) : KeepsForm s (expireLane t b g id L) := h.tame (tame_expireLane (.refl false _) ..)
theorem keeps_fixGuess (b g : Nat) (l : LoadI) (L : Nat) : KeepsForm s (fixGuess t b g l L) := keeps_ite (fun _ => h) fun _ => h.same

theorem form_execWaitLimitExpiry (b g n L : Nat) : FormOut s (execWaitLimitExpiry b g n L t) := by
  refine formOut_next ?_
  split
  exacts [h, keeps_ite (fun _ => keeps_expireLane h ..) fun _ => h]

theorem keeps_expireDue : KeepsForm s (expireDue t) :=
  keeps_foldl h (fun _ _ h1 => keeps_foldl h1 (fun _ _ h2 => keeps_foldl h2 (fun _ _ h3 => keeps_foldl h3
    (fun _ _ h4 => keeps_ite (fun _ => keeps_expireLane h4 ..) fun _ => keeps_fixGuess h4 ..) _) _) _) _

theorem keeps_expireFirst (b g n L : Nat) : KeepsForm s (expireFirst t b g n L) := by
  unfold expireFirst
  split
  exacts [h, keeps_ite (fun _ => keeps_expireLane h ..) fun _ => h]

theorem keeps_expireParts (r : Req) : KeepsForm s (expireParts t r) := keeps_ite (fun _ => keeps_foldl h (fun _ _ hu => keeps_expireFirst hu ..) _) fun _ => h
theorem keeps_deliverParts (r : Req) : KeepsForm s (deliverParts t r) := keeps_foldl h (fun _ _ hu => hu.tame (tame_deliverLane (.refl false _) ..)) _
theorem keeps_fillFrom (r : Req) (a : Nat) : KeepsForm s (fillFrom t r a) := keeps_ite (fun _ => h) fun _ => h.tame (tame_fillSector (.refl false _) ..)

theorem keeps_giveJoined (r : Req) : KeepsForm s (giveJoined t r) :=
  keeps_foldl h (fun _ _ hu => keeps_ite (fun _ => keeps_deliverParts (keeps_dropReq (keeps_expireParts hu _) _) _) fun _ => keeps_modReq hu ..) _

theorem keeps_deliverReq (r : Req) : KeepsForm s (deliverReq t r) := by
  have h1 := keeps_expireParts h r
  have h2 : KeepsForm s (match r.place with | .home a => fillFrom (expireParts t r) r a | _ => expireParts t r) := by
    split
    exacts [keeps_fillFrom h1 .., h1]
  have h3 := keeps_giveJoined (keeps_dropReq h2 r.id) r
  refine keeps_ite (fun _ => h3) fun _ => ?_
  split
  · split
    · exact KeepsForm.tame h3 (tame_copyPump (tame_copyReply (.refl false _) r) ..)
    · exact h3
  · exact keeps_deliverParts h3 r

theorem form_execLoadReplyArrival (id : Nat) : FormOut s (execLoadReplyArrival id t) := by
  refine formOut_next ?_
  split
  · exact h
  · exact keeps_ite (fun _ => h) fun _ => keeps_ite (fun _ => keeps_deliverReq h _) fun _ => keeps_ite (fun _ => keeps_modReq h ..)
      fun _ => keeps_deliverReq (keeps_ite (fun _ => keeps_modPart h) fun _ => h) _

theorem keeps_deliverOnce : KeepsForm s (deliverShaped.once t) := keeps_foldl h (fun _ _ hu => keeps_deliverReq hu _) _
theorem keeps_deliverShaped : KeepsForm s (deliverShaped t) := keeps_deliverOnce (keeps_deliverOnce h)

/-! ## Accesses performed away from the homes -/

theorem keeps_hostStoreApply (r : Req) (a : Nat) : KeepsForm s (hostStoreApply t r a) := keeps_hostWrite h _

theorem keeps_hostAtomic (r : Req) (a : Nat) : KeepsForm s (hostAtomic t r a) :=
  keeps_modReq (foldl_keeps (P := fun acc : State × List Part => KeepsForm s acc.1) (fun _ _ ha => keeps_hostWrite ha _) _ h) ..

theorem keeps_putChip (g : Tgt) (bs : List Byte) : KeepsForm s (putChip t g bs) := h.tame (tame_putChip (.refl false _) ..)

theorem keeps_gangApply (r : Req) (b : Nat) (a : Bool) : KeepsForm s (gangApply t r b a) :=
  keeps_ite (fun _ => keeps_foldl h (fun _ _ hu => keeps_putChip hu ..) _) fun _ =>
    keeps_modReq (foldl_keeps (P := fun acc : State × List Part => KeepsForm s acc.1) (fun _ p ha => keeps_putChip ha (.far b a p.off) _) _ h) ..

theorem keeps_gangPerform (r : Req) (b : Nat) (a : Bool) : KeepsForm s (gangPerform t r b a) :=
  keeps_ite (fun _ => keeps_modReq h ..) fun _ => keeps_modReq (keeps_gangApply h ..) ..

theorem keeps_gangFlush (b : Nat) : KeepsForm s (gangFlush t b) := by
  refine keeps_foldl h (fun u r hu => ?_) _
  split
  exacts [keeps_ite (fun _ => keeps_gangPerform hu ..) fun _ => hu, hu]

theorem keeps_writeBackSector (r : Req) (a x id : Nat) : KeepsForm s (writeBackSector t r a x id) := keeps_sendStack h ..
theorem keeps_cwbLine (r : Req) (n : Nat) : KeepsForm s (cwbLine t r n) :=
  keeps_modL2 (keeps_foldl h (fun _ _ hu => keeps_ite (fun _ => keeps_writeBackSector hu ..) fun _ => hu) _) ..

theorem keeps_cwbVersions (r : Req) (x id n : Nat) : KeepsForm s (cwbVersions t r x id n) := by
  refine keeps_foldl h (fun u v hu => ?_) _
  split
  · exact hu
  · next a _ => exact KeepsForm.same (keeps_writeBackSector (keeps_writeBackSector (keeps_writeVat hu v) r a x id) r (a + 64) x id)

theorem keeps_rangeApply (r : Req) : KeepsForm s (rangeApply t r) := by
  refine keeps_ite (fun _ => keeps_modCore (keeps_foldl h (fun _ _ h1 => keeps_foldl h1 (fun _ _ h2 => keeps_giveLine h2 _) _) _)) fun _ => ?_
  refine keeps_foldl (keeps_foldl h (fun _ _ h1 => keeps_foldl h1 (fun _ _ h2 => keeps_giveLine h2 _) _) _) (fun u n hu => ?_) _
  have h1 := keeps_cwbLine hu r (n / 256)
  dsimp only
  split
  exacts [keeps_ite (fun _ => h1) fun _ => keeps_cwbVersions h1 .., h1]

theorem keeps_performReq (id : Nat) : KeepsForm s (performReq t id) := by
  unfold performReq
  split
  · exact h
  dsimp only
  split
  · exact keeps_ite (fun _ => keeps_modReq (keeps_rangeApply h _) ..) fun _ => h
  · exact keeps_ite (fun _ => keeps_modReq (keeps_rangeApply h _) ..) fun _ => h
  · exact keeps_ite (fun _ => keeps_modReq h ..) fun _ => h
  · exact keeps_ite (fun _ => keeps_modReq h ..) fun _ => h
  · exact keeps_ite (fun _ => keeps_modReq h ..) fun _ => h
  · exact keeps_ite (fun _ => keeps_modReq (keeps_hostStoreApply h ..) ..) fun _ => h
  · exact keeps_ite (fun _ => keeps_modReq (keeps_hostAtomic h ..) ..) fun _ => h
  · exact keeps_ite (fun _ => keeps_gangPerform h ..) fun _ => h
  · exact h

/-! ## Completions -/

theorem keeps_answerAtomic (r : Req) : KeepsForm s (answerAtomic t r) := by
  unfold answerAtomic
  split
  · exact h
  · exact keeps_foldl h (fun _ _ hu => KeepsForm.tame (keeps_modGroup hu) (tame_landed (.refl false _) ..)) _

theorem keeps_payLanes (r : Req) (n : Nat) : KeepsForm s (payLanes t r n) := keeps_foldl h (fun _ _ hu => hu.tame (tame_bumpPct (.refl false _) ..)) _
theorem keeps_modJob (b id : Nat) (f : CopyJob → CopyJob) : KeepsForm s (modJob t b id f) := h.same

theorem keeps_completeReq (r : Req) (n : Nat) : KeepsForm s (completeReq t r n) := by
  have h1 := keeps_dropReq h r.id
  unfold completeReq
  dsimp only
  split
  · split
    exacts [keeps_modJob h1 .., h1]
  · exact keeps_payLanes (keeps_answerAtomic h1 r) r n

theorem form_execWriteCompletionReturn (id : Nat) : FormOut s (execWriteCompletionReturn id t) := by
  refine formOut_next ?_
  split
  exacts [h, keeps_ite (fun _ => h) fun _ => keeps_completeReq h ..]

theorem keeps_evalChan (p c : Nat) : KeepsForm s (evalChan t p c) := h.tame (tame_evalChan (.refl false _) ..)
theorem keeps_readPolled (n : Nat) (e : Nat × Nat) : KeepsForm s (readPolled t n e) := keeps_evalChan (keeps_modChan h ..) ..
theorem keeps_bufferAtomic (n : Nat) (r : Req) : KeepsForm s (bufferAtomic n t r) := KeepsForm.same (keeps_performReq h r.id)

theorem form_execRdownResponse (n : Nat) : FormOut s (execRdownResponse n t) :=
  formOut_next <| keeps_ite (fun _ => h) fun _ =>
    keeps_foldl (keeps_foldl (keeps_ownLine h n) (fun _ _ hu => keeps_bufferAtomic hu ..) _) (fun _ _ hu => keeps_readPolled hu ..) _

theorem form_execHostLineSnoop (n : Nat) : FormOut s (execHostLineSnoop n t) := formOut_next (keeps_giveLine h n)
theorem form_execCxlMemRead (a : Nat) : FormOut s (execCxlMemRead a t) :=
  formOut_next <| keeps_ite (fun _ => h.same) fun _ => keeps_loadHeld (keeps_addReq (keeps_stackAwake h ..) _) ..
theorem form_execCxlMemWrite (a : Nat) (bs : List Byte) : FormOut s (execCxlMemWrite a bs t) := formOut_next (keeps_hostStore h ..)
theorem form_execBisnpResponse (n : Nat) : FormOut s (execBisnpResponse n t) := by
  refine formOut_next ?_
  split
  exacts [h, h.same]

/-! ## Resets and bring-up -/

theorem keeps_mboxDone (c : Nat) : KeepsForm s (mboxDone t c) := keeps_sendMsi h.same 0

theorem keeps_copyReply (r : Req) : KeepsForm s (copyReply t r) := h.tame (tame_copyReply (.refl false _) r)

theorem keeps_failReq (r : Req) (c : Nat) : KeepsForm s (failReq t r c) := by
  have h0 := keeps_dropReq (keeps_expireParts h r) r.id
  unfold failReq
  dsimp only
  refine keeps_ite (fun _ => ?_) fun _ => keeps_modGroup ?_
  all_goals
    split
    · exact keeps_deliverParts h0 _
    · exact keeps_copyReply h0 _
    · exact keeps_answerAtomic h0 _
    · split
      exacts [keeps_modJob h0 .., h0]
    · exact h0

theorem keeps_collect : KeepsForm s (collect t) := h.tame (tame_collect (.refl false _))

theorem form_execColdReset : FormOut s (execColdReset t) := formOut_next (h.trans ⟨fun _ => rfl, id⟩)
theorem form_execWarmReset : FormOut s (execWarmReset t) := formOut_next (KeepsForm.same (keeps_collect h))

theorem keeps_hostMaybe (r : Req) : KeepsForm s (hostMaybe t r) := by
  refine keeps_ite (fun _ => h) fun _ => ?_
  split
  exacts [keeps_putHost h _, keeps_hostAtomic h .., h]

theorem keeps_noLines : KeepsForm s { t with hostLines := [], lineCtxs := [] } := h.same

theorem form_execLinkHotReset : FormOut s (execLinkHotReset t) := by
  have h1 : KeepsForm s (t.hostLines.foldl (fun u e => if pick t (2 ^ 40 + e.1) % 2 = 0 then u else putHost u (e.2.zipIdx.map fun x => (64 * e.1 + x.2, x.1))) t) :=
    keeps_foldl h (fun _ _ hu => keeps_ite (fun _ => hu) fun _ => keeps_putHost hu _) _
  have h2 := keeps_foldl (f := hostMaybe) (keeps_noLines h1) (fun _ _ hu => keeps_hostMaybe hu _) (hostInFlight t)
  have h3 := keeps_foldl (f := fun u r => failReq u r 0x1A) (keeps_noLines h2) (fun _ _ hu => keeps_failReq hu ..) (hostInFlight t)
  exact formOut_next (KeepsForm.same h3)

theorem keeps_linkUp : KeepsForm s (linkUp t) := h.same
theorem form_execCxlLinkRetrained : FormOut s (execCxlLinkRetrained t) := formOut_next (keeps_ite (fun _ => keeps_linkUp h) fun _ => h)

theorem form_bringStep (n : Nat) {f : State → State} (hf : KeepsForm s (f t)) : FormOut s (bringStep t n f) := formOut_next (keeps_ite (fun _ => hf.same) fun _ => h)

theorem form_execBringupFwVerify (a b : Bool) : FormOut s (execBringupFwVerify a b t) :=
  formOut_ite (fun _ => form_bringStep h 0 (keeps_blackBox h ..)) fun _ => formOut_ite (fun _ => form_bringStep h 0 (keeps_raiseAlert h.same _)) fun _ => formOut_next h
theorem form_execBringupPllLock : FormOut s (execBringupPllLock t) := form_bringStep h 1 h.same
theorem form_execBringupCxlTrained : FormOut s (execBringupCxlTrained t) := form_bringStep h 2 (keeps_linkUp h)
theorem form_execBringupStacksTrained (d : List Nat) (r : List (Nat × Nat)) : FormOut s (execBringupStacksTrained d r t) :=
  form_bringStep h 3 (keeps_foldl h (fun _ _ hu => keeps_ite (fun _ => keeps_channelLost hu _) fun _ => keeps_modMemChan hu ..) _)
theorem form_execBringupCoresReady : FormOut s (execBringupCoresReady t) := formOut_ite (fun _ => formOut_next h) fun _ => form_bringStep h 4 h.same

/-! ## Temperature, power and chip time -/

theorem keeps_selfRefresh (b : Bool) : KeepsForm s (selfRefresh t b) := keeps_foldl h (fun _ _ hu => keeps_modStack hu ..) _
theorem keeps_failService : KeepsForm s (failService t) := keeps_ite (fun _ => keeps_mboxDone h.same 4) fun _ => h

theorem keeps_trip : KeepsForm s (trip t) := by
  have h1 := keeps_selfRefresh (t := { t with pkg := { t.pkg with clockStopped := true, tripped := true, tripOut := true } }) h.same true
  exact keeps_failService (keeps_foldl h1 (fun _ _ hu => keeps_freeCtx (keeps_ite (fun _ => keeps_raiseInt hu ..) fun _ => hu) _) _)

theorem form_execSensorSample (a b c : Nat) : FormOut s (execSensorSample a b c t) := by
  unfold execSensorSample
  dsimp only
  have h2 : ∀ {u : State} (p : Prop) [Decidable p] (n : Nat), KeepsForm s u → KeepsForm s (if p then raiseAlert u n else u) :=
    fun _ _ n hu => keeps_ite (fun _ => keeps_raiseAlert hu n) fun _ => hu
  exact formOut_next (keeps_ite (fun _ => keeps_trip (h2 _ 2 (h2 _ 1 h.same))) fun _ => h2 _ 2 (h2 _ 1 h.same))

theorem form_execThermtripNInput : FormOut s (execThermtripNInput t) := formOut_next (keeps_trip h)
theorem keeps_powerAlert : KeepsForm s (powerAlert t) := keeps_sendMsi h.same 1

theorem form_execPowerAverageCheck (w : Nat) : FormOut s (execPowerAverageCheck w t) := by
  have h1 : KeepsForm s (if bit t.svc.alert 0 then blackBox t { kind := 8, code := 0 } else powerAlert t) := keeps_ite (fun _ => h.same) fun _ => keeps_powerAlert h
  exact formOut_next <| keeps_ite (fun _ => h.same) fun _ => keeps_ite (fun _ => h) fun _ => KeepsForm.same h1

theorem form_execPowerOverrunRecheck (w : Nat) : FormOut s (execPowerOverrunRecheck w t) := by
  refine formOut_next ?_
  split
  · exact h
  · exact keeps_ite (fun _ => h) fun _ => keeps_ite (fun _ => h.same) fun _ => KeepsForm.same (keeps_powerAlert h)

theorem form_execCtSyncMarker (a b : Int) : FormOut s (execCtSyncMarker a b t) :=
  formOut_next <| keeps_ite (fun _ => h) fun _ => keeps_ite (fun _ => keeps_checkCtxs h.same _) fun _ => h.same

theorem keeps_powerCommand (n : Nat) : KeepsForm s (powerCommand t n) := keeps_ite (fun _ => h.same) fun _ => h.same
theorem form_execPowerCmdRun (n : Nat) : FormOut s (execPowerCmdRun n t) := formOut_next (keeps_ite (fun _ => h) fun _ => keeps_powerCommand h n)
theorem form_execPowerCmdHold : FormOut s (execPowerCmdHold t) := formOut_next (keeps_powerCommand h 4)
theorem form_execPowerCmdStandby : FormOut s (execPowerCmdStandby t) := formOut_next (keeps_powerCommand h 5)
theorem form_execD3hotEntry : FormOut s (execD3hotEntry t) := formOut_next (keeps_powerCommand h 4)

theorem keeps_copyPump (b id : Nat) : KeepsForm s (copyPump t b id) := h.tame (tame_copyPump (.refl false _) ..)
theorem keeps_copiesOn : KeepsForm s (copiesOn t) := keeps_foldl h (fun _ _ h1 => keeps_foldl h1 (fun _ _ h2 => keeps_copyPump h2 ..) _) _

theorem form_execPowerTransitionDone : FormOut s (execPowerTransitionDone t) := by
  refine formOut_next (keeps_ite (fun _ => h) fun _ => ?_)
  have h1 : KeepsForm s { t with pkg := { t.pkg with pCurrent := t.pkg.pTarget, pBusy := false } } := h.same
  have h2 := keeps_ite (c := t.pkg.pTarget = 5) (fun _ => keeps_selfRefresh h1 true) fun _ => keeps_ite (c := t.pkg.pCurrent = 5) (fun _ => keeps_selfRefresh h1 false) fun _ => h1
  exact keeps_ite (fun _ => keeps_copiesOn h2) fun _ => h2

end

end Sys2Proof.Machine
end

section
/-! PROOF. Memory's canonical form under the fabric, fetches, saves and the placement of gangs. -/

set_option Elab.async false

namespace Sys2Proof.Machine

section
variable {s t : State} (h : KeepsForm s t)
include h

/-! ## The fabric -/

theorem keeps_pumpFabric : KeepsForm s (pumpFabric t) := h.tame (tame_pumpFabric (.refl false _))
theorem keeps_peerFault (r : Req) (c : Nat) : KeepsForm s (peerFault t r c) := h.same
theorem keeps_checkHost : KeepsForm s (checkHost t) := keeps_sendMsi h 3

theorem keeps_copyAnswer (id n c : Nat) : KeepsForm s (copyAnswer t id n c) := by
  unfold copyAnswer
  split
  exacts [keeps_ite (fun _ => h) fun _ => keeps_modJob h .., h]

theorem keeps_takeAnswer (r : Req) (k : Packet) : KeepsForm s (takeAnswer t r k) := by
  have h0 : KeepsForm s (if k.status = 1 then checkHost (recordError t repL2 1 0 0) else t) := keeps_ite (fun _ => keeps_checkHost h.same) fun _ => h
  have h1 := keeps_ite (c := answerStatus k = 2) (fun _ => keeps_peerFault h0 r (k.addr % 256)) fun _ => h0
  unfold takeAnswer
  dsimp only
  split
  · exact keeps_ite (fun _ => h) fun _ => keeps_modReq h0 ..
  · refine keeps_ite (fun _ => h) fun _ => keeps_modReq ?_ ..
    split
    exacts [keeps_copyAnswer h0 .., h1]
  · exact keeps_ite (fun _ => h) fun _ => keeps_modReq h1 ..
  · exact h

theorem keeps_takeResponse (k : Packet) : KeepsForm s (takeResponse t k) := by
  unfold takeResponse
  split
  exacts [keeps_pumpFabric (keeps_takeAnswer h ..), h]

theorem form_execFabricResponseReceive (k : Packet) : FormOut s (execFabricResponseReceive k t) := formOut_next (keeps_ite (fun _ => keeps_takeResponse h k) fun _ => h)

theorem form_execFabricPacketReceive (p : Nat) (k : Packet) : FormOut s (execFabricPacketReceive p k t) := by
  refine formOut_next (keeps_ite (fun _ => h) fun _ => keeps_ite (fun _ => keeps_recordError h.same ..) fun _ => keeps_ite (fun _ => ?_) fun _ => ?_)
  · exact keeps_ite (fun _ => h.same) fun _ => keeps_takeResponse (keeps_modPort h ..) k
  · split
    exacts [keeps_modPort h.same .., h]

theorem keeps_sendPacket (q : Nat) (k : Packet) (d : Bool) : KeepsForm s ((sendPacket t q k d).getD t) := by
  cases hu : sendPacket t q k d with
  | none => exact h
  | some u => exact h.tame (tame_sendPacket (.refl false t) hu)

theorem keeps_answer (i n c : Nat) (bs : List Byte) : KeepsForm s (answer t i n c bs) := by
  have h1 : KeepsForm s { t with inbound := tdel t.inbound i, reqs := t.reqs.filter fun r => r.inb != some i } := h.same
  unfold answer
  dsimp only
  split
  · split
    exacts [keeps_takeAnswer h1 .., h1]
  · exact keeps_ite (fun _ => h1) fun _ => keeps_sendPacket h1 ..

theorem keeps_serveNew (i : Nat) (x : Inbound) : KeepsForm s (serveNew t i x) := by
  unfold serveNew
  dsimp only
  split
  · exact keeps_answer h ..
  · next p _ _ =>
    have h1 : KeepsForm s { t with inbound := tmod {} t.inbound i fun e => { e with stage := .held, part := p } } := h.same
    refine keeps_ite (fun _ => keeps_answer h1 ..) fun _ => ?_
    split
    · exact keeps_answer h1 ..
    · exact keeps_foldl (keeps_notePte h1 ..) (fun _ _ hu => keeps_addReq hu _) _

theorem form_execFabricRequestServe (i : Nat) : FormOut s (execFabricRequestServe i t) := by
  refine formOut_next ?_
  split
  · exact h
  refine keeps_ite (fun _ => keeps_ite (fun _ => keeps_serveNew h ..) fun _ => h) fun _ => keeps_ite (fun _ => h) fun _ => keeps_ite (fun _ => keeps_answer h ..) fun _ => ?_
  split
  exacts [keeps_answer h .., h]

theorem form_execFabricWriteAckSend (i : Nat) : FormOut s (execFabricWriteAckSend i t) :=
  formOut_next <| keeps_ite (fun _ => h) fun _ => keeps_ite (fun _ => keeps_pumpFabric (keeps_answer h ..)) fun _ => h

theorem form_execLinkBlockSend (p : Nat) : FormOut s (execLinkBlockSend p t) :=
  formOut_next <| keeps_ite (fun _ => h) fun _ => keeps_ite (fun _ => keeps_raiseAlert h.same 4) fun _ => h.same
theorem form_execLinkBlockReceive (p a b c : Nat) (bs : List Byte) : FormOut s (execLinkBlockReceive p a b c bs t) :=
  formOut_next (keeps_ite (fun _ => keeps_modPort h ..) fun _ => h)
theorem form_execLinkAckReceive (p n : Nat) : FormOut s (execLinkAckReceive p n t) := formOut_next (keeps_modPort h ..)
theorem form_execVcStopSignal (p v : Nat) (b : Bool) : FormOut s (execVcStopSignal p v b t) := formOut_next (keeps_modPort h ..)

theorem keeps_losePeer (q : Nat) : KeepsForm s (losePeer t q) := keeps_ite (fun _ => h) fun _ => h.same

theorem keeps_replacePort (p : Nat) : KeepsForm s (replacePort t p) := by
  unfold replacePort
  split <;> exact h.same

theorem keeps_portDown (p : Nat) : KeepsForm s (portDown t p) := by
  refine keeps_foldl (keeps_recordError (keeps_foldl (keeps_foldl (keeps_replacePort (keeps_modPort h ..) p) (fun _ _ hu => ?_) _) (fun _ _ hu => ?_) _) ..)
    (fun _ _ hu => keeps_losePeer hu _) _
  · exact keeps_ite (fun _ => keeps_replacePort hu _) fun _ => hu
  · split
    exacts [keeps_modPort hu .., hu]

theorem form_execLinkNakReceive (p n : Nat) : FormOut s (execLinkNakReceive p n t) :=
  formOut_next <| keeps_ite (fun _ => h) fun _ => keeps_ite (fun _ => keeps_portDown h.same p) fun _ => h.same

theorem form_execPeerRequestTimeout (n : Nat) : FormOut s (execPeerRequestTimeout n t) := by
  refine formOut_next ?_
  split
  · split
    exacts [keeps_ite (fun _ => keeps_losePeer h _) fun _ => h, h]
  · exact h

theorem form_execPeerResetNotice (q : Nat) : FormOut s (execPeerResetNotice q t) := formOut_next (keeps_losePeer h q)

theorem keeps_trainEnd (p : Nat) (b : Bool) : KeepsForm s (trainEnd t p b) := keeps_ite (fun _ => keeps_blackBox h ..) fun _ => keeps_recordError h.same ..
theorem form_execPortTrainingDone (p q n : Nat) : FormOut s (execPortTrainingDone p q n t) :=
  formOut_next <| keeps_ite (fun _ => h) fun _ => keeps_ite (fun _ => keeps_trainEnd h ..) fun _ => keeps_pumpFabric (keeps_trainEnd h.same ..)
theorem form_execPortTrainingTimeout (p : Nat) : FormOut s (execPortTrainingTimeout p t) := formOut_next (keeps_ite (fun _ => keeps_trainEnd h ..) fun _ => h)
theorem form_execLinkRecalLaneDone (p : Nat) (b : Bool) : FormOut s (execLinkRecalLaneDone p b t) :=
  formOut_next <| keeps_ite (fun _ => h) fun _ => keeps_ite (fun _ => h.same) fun _ => keeps_ite (fun _ => h.same) fun _ => h.same

theorem form_execFabricBucketRefill (p : Nat) : FormOut s (execFabricBucketRefill p t) := formOut_next (keeps_ite (fun _ => h) fun _ => keeps_pumpFabric h.same)

theorem keeps_lendTokens (n : Nat) (gs : List (Nat × Nat)) : KeepsForm s (lendTokens n t gs) := keeps_foldl h (fun _ _ hu => hu.same) _

theorem form_execL2BucketRefill (n : Nat) : FormOut s (execL2BucketRefill n t) := by
  refine formOut_next (keeps_ite (fun _ => h) fun _ => keeps_foldl ?_ (fun _ _ hu => keeps_lendTokens hu ..) _)
  refine foldl_keeps (P := fun acc : State × List (Nat × Nat) => KeepsForm s acc.1) (fun acc p ha => keeps_lendTokens ha ..) _ ?_
  exact foldl_keeps (P := fun acc : State × List (Nat × Nat) => KeepsForm s acc.1) (fun acc p ha => KeepsForm.same ha) _ h.same

/-! ## Fetches and walks -/

theorem keeps_takeTrap (b g pc : Nat) (r : TrapReq) : KeepsForm s (takeTrap t b g pc r) := h.tame (tame_takeTrap (.refl false _) ..)
theorem keeps_parkGroup (b g pc : Nat) (m : Mask) (a : Acc) (ps : List (Nat × Mask)) (va : List (Nat × Nat)) : KeepsForm s (parkGroup t b g pc m a ps va) :=
  h.tame (tame_parkGroup (.refl false _) ..)
theorem keeps_cacheCode (c : Nat) (b : Bool) (a : Nat) : KeepsForm s (cacheCode t c b a) := keeps_ite (fun _ => h) fun _ => keeps_modCore h

/-- What a fetch leaves, whether it finds a word or ends. -/
def Fetched.left : Fetched → State
  | .insn _ u => u
  | .done u => u

theorem keeps_fetchAt (b g pc : Nat) (m : Mask) : KeepsForm s (fetchAt t b g pc m).left := by
  unfold fetchAt
  dsimp only
  split_ifs
  · exact keeps_takeTrap h ..
  split
  · exact keeps_parkGroup h ..
  · exact keeps_takeTrap h ..
  next x _ =>
  have h1 := keeps_cacheCode (keeps_noteXl h (t.block b).core (t.context (t.block b).ctx).part pc .fetch x) (t.block b).core x.tier x.pa
  generalize (if codeAt t (t.block b).core x.tier x.pa % 4 = 3 then 4 else lengthOf (codeAt t (t.block b).core x.tier x.pa)) = n
  split
  · exact keeps_modGroup h1
  split
  · exact keeps_takeTrap h1 ..
  split
  exacts [keeps_takeTrap h1 .., h1]

theorem keeps_fetchFor (b g : Nat) : KeepsForm s (fetchFor t b g).left := by
  unfold fetchFor
  split
  exacts [h, keeps_fetchAt h ..]

theorem keeps_fetchFor_done {b g : Nat} {u : State} (hu : fetchFor t b g = .done u) : KeepsForm s u := by
  have := keeps_fetchFor h b g
  rwa [hu] at this

theorem keeps_fetchFor_insn {b g : Nat} {i : Instr} {u : State} (hu : fetchFor t b g = .insn i u) : KeepsForm s u := by
  have := keeps_fetchFor h b g
  rwa [hu] at this

theorem form_execTranslationWalkDone (c p va : Nat) : FormOut s (execTranslationWalkDone c p va t) := by
  have failed : ∀ (l : List (Nat × Nat)) {u : State}, KeepsForm s u → KeepsForm s (l.foldl (fun v e =>
      if notReady v e.1 e.2 then v else match fetchFor v e.1 e.2 with | .done w => w | .insn _ _ => v) u) := fun l u hu => by
    refine keeps_foldl hu (fun v e hv => keeps_ite (fun _ => hv) fun _ => ?_) _
    split
    · next hw => exact keeps_fetchFor_done hv hw
    · exact hv
  refine formOut_next (keeps_ite (fun _ => h) fun _ => ?_)
  dsimp only
  split
  · have h1 := fun (b : Bool) (x : Xl) => keeps_ite (c := b = true) (fun _ => keeps_noteXl h c p va .read x) fun _ => h
    exact keeps_ite (fun _ => h1 ..) fun _ => failed _ (h1 ..)
  · exact failed _ h

/-! ## Saves -/

theorem keeps_snoopOwn (a n : Nat) : KeepsForm s (snoopOwn t a n) := h.trans (keepsForm_snoopOwn ..)

/-- Giving bytes of either memory back to what an unlisted address reads as. -/
theorem keeps_filter (p q : Nat × Byte → Bool) {u : State} (hm : u.mem = t.mem.filter p) (hh : u.hostMem = t.hostMem.filter q) : KeepsForm s u :=
  (h.trans (keepsForm_filter t p q)).same hm hh

theorem keeps_hostFilter (q : Nat × Byte → Bool) : KeepsForm s { t with hostMem := t.hostMem.filter q } :=
  keeps_filter h (fun _ => true) q (List.filter_true _).symm rfl

theorem keeps_putRange (a n : Nat) (bs : List (Nat × Byte)) : KeepsForm s (putRange t a n bs) := by
  refine keeps_syncEval (keeps_putBytes (keeps_filter h (fun e => decide (e.1 < a ∨ a + n ≤ e.1)) (fun _ => true) ?_ ?_) _) ..
  · exact List.filter_congr fun e _ => by simp
  · rw [(snoopOwn_memories t a n).2]
    exact (List.filter_true _).symm

theorem keeps_writeVa (p va n : Nat) (fs : List FieldAt) : KeepsForm s (writeVa t p va n fs) := by
  refine keeps_foldl h (fun u a hu => ?_) _
  split
  · exact hu
  · next x _ =>
    have h1 := keeps_notePte hu p a .write x.entry
    exact keeps_ite (fun _ => keeps_putHost (keeps_hostFilter h1 _) _) fun _ => keeps_putRange h1 ..

/-! ## Placement -/

theorem keeps_coldCaches (c b : Nat) : KeepsForm s (coldCaches t c b) := keeps_ite (fun _ => h) fun _ => h.same
theorem keeps_settle (c b : Nat) : KeepsForm s (settle t c b) := keeps_modBlock (keeps_ite (fun _ => h.same) fun _ => h.same)

theorem keeps_placeBlock {c b : Nat} {u : State} (hu : placeBlock t c b = some u) : KeepsForm s u := by
  unfold placeBlock at hu
  dsimp only at hu
  split_ifs at hu
  split at hu
  · obtain rfl := Option.some.inj hu
    exact keeps_settle (keeps_modBlock (keeps_coldCaches h ..)) ..
  · cases hu

omit h in
theorem keeps_placeDistinct {p : Nat} {cs bs : List Nat} {u : State} (h : KeepsForm s t) (hu : placeDistinct p cs bs t = some u) : KeepsForm s u := by
  induction cs generalizing bs t with
  | nil =>
    cases bs with
    | nil => exact Option.some.inj hu ▸ h
    | cons b bs => cases hu
  | cons c cs ih =>
    cases bs with
    | nil => exact Option.some.inj hu ▸ h
    | cons b bs =>
      unfold placeDistinct at hu
      split at hu
      · next hv =>
        split_ifs at hv
        exact ih (keeps_placeBlock h hv) hu
      · exact ih h hu

theorem keeps_placeOver {cs bs : List Nat} {u : State} (hu : placeOver cs bs t = some u) : KeepsForm s u := by
  have hk := foldl_keeps (P := fun o : Option State => ∀ v, o = some v → KeepsForm s v) (f := fun acc b => match acc with
      | none => none
      | some v => placeBlock v (cs.getD ((v.block b).blk % cs.length) 0) b) (x := some t) (fun o b ho v hv => ?_) bs (fun v hv => Option.some.inj hv ▸ h)
  · exact hk u hu
  · cases o with
    | none => cases hv
    | some w => exact keeps_placeBlock (ho w rfl) hv

theorem keeps_placeOnCluster {x : Nat} {bs : List Nat} {c : Nat} {u : State} (hu : placeOnCluster t x bs c = some u) : KeepsForm s u := by
  unfold placeOnCluster at hu
  dsimp only at hu
  split_ifs at hu
  · obtain ⟨n, -, hn⟩ := List.exists_of_findSome?_eq_some hu
    split_ifs at hn
    exact keeps_placeOver h hn
  · exact keeps_placeDistinct h hu

theorem keeps_withUnit (x : Nat) (u : Unit_) : KeepsForm s (withUnit t x u).1 := by
  cases u with
  | saved g => exact h.same
  | fresh g => exact keeps_modCtx (keeps_foldl h (fun _ _ hu => hu.same) _)

theorem keeps_served {p x : Nat} {c : Unit_} {u : State} (hu : served t p = some (x, c, u)) : KeepsForm s u := by
  unfold served at hu
  dsimp only at hu
  obtain ⟨y, -, hy⟩ := List.exists_of_findSome?_eq_some hu
  obtain ⟨e, he, heq⟩ := Option.map_eq_some_iff.mp hy
  cases heq
  unfold tryWhere at he
  split at he
  · cases he
  · next v _ =>
    obtain ⟨w, hw, hwt⟩ := Option.map_eq_some_iff.mp he
    cases hwt
    obtain ⟨cl, -, hcl⟩ := List.exists_of_findSome?_eq_some hw
    obtain ⟨z, hz, hz'⟩ := Option.bind_eq_some_iff.mp hcl
    split_ifs at hz
    split_ifs at hz'
    obtain rfl := Option.some.inj hz'
    exact keeps_placeOnCluster (keeps_withUnit h ..) hz

theorem keeps_demandsMet (b g : Nat) : KeepsForm s (demandsMet t b g) :=
  keeps_foldl h (fun _ _ hu => keeps_ite (fun _ => hu.tame (tame_demandRelease (.refl false _) ..)) fun _ => hu) _

theorem keeps_restoreTests (b : Nat) : KeepsForm s (restoreTests t b) := by
  refine KeepsForm.tame (keeps_foldl (keeps_foldl (keeps_foldl (KeepsForm.tame (keeps_foldl h (fun _ _ hu => ?_) _) (tame_serveItems (.refl false _) ..)) (fun _ _ hu => ?_) _) (fun _ _ hu => ?_) _)
    (fun _ _ hu => ?_) _) (tame_wakeBlock (.refl false _) b)
  · exact hu.tame (tame_serveQueue (.refl false _) ..)
  · exact hu.tame (tame_releaseWaiters (.refl false _) ..)
  · exact keeps_ite (fun _ => hu.tame (tame_parkedAccess (.refl false _) _)) fun _ => hu
  · exact KeepsForm.tame (keeps_demandsMet hu ..) (tame_crossRelease (tame_rejoinRelease (.refl false _) ..) ..)

theorem keeps_faultAnswered (b g : Nat) : KeepsForm s (faultAnswered t b g) :=
  keeps_ite (fun _ => h) fun _ => keeps_ite (fun _ => h.same) fun _ => keeps_takeTrap h.same ..

theorem keeps_gangBack (x g : Nat) : KeepsForm s (gangBack t x g) :=
  keeps_foldl h (fun _ _ hu => keeps_foldl (keeps_foldl (keeps_restoreTests hu _) (fun _ _ h2 => keeps_faultAnswered h2 ..) _) (fun _ _ h3 => keeps_copyPump h3 ..) _) _

theorem form_execGangPlace (x : Nat) : FormOut s (execGangPlace x t) := by
  refine formOut_next (keeps_ite (fun _ => h) fun _ => ?_)
  split
  · next hu => exact keeps_ite (fun _ => keeps_served h hu) fun _ => h
  · exact h

theorem form_execGangResume (x g : Nat) : FormOut s (execGangResume x g t) := by
  refine formOut_next (keeps_ite (fun _ => h) fun _ => ?_)
  split
  · next hu => exact keeps_ite (fun _ => keeps_gangBack (keeps_served h hu) ..) fun _ => h
  · exact h

theorem keeps_stopGang (x g : Nat) : KeepsForm s (stopGang t x g) :=
  keeps_foldl (keeps_modCtx (h.tame (tame_trapsFirst (.refl false _) _))) (fun _ _ hu => keeps_modBlock hu) _
theorem form_execGangPreempt (x g : Nat) : FormOut s (execGangPreempt x g t) := formOut_next (keeps_ite (fun _ => keeps_stopGang h ..) fun _ => h)

theorem keeps_redirectDue (b : Nat) : KeepsForm s (redirectDue t b) :=
  keeps_foldl h (fun _ _ hu => KeepsForm.tame (keeps_foldl hu (fun _ _ h2 => h2.tame (tame_redirectLane (.refl false _) ..)) _) (tame_renormalise (.refl false _) ..)) _
theorem keeps_prepBlock (b : Nat) : KeepsForm s (prepBlock t b) := keeps_modBlock (keeps_redirectDue (keeps_foldl h (fun _ _ hu => hu.same) _) b)

theorem keeps_packBlockState (b : Nat) (bs : List Nat) : KeepsForm s (packBlockState t b bs) := keeps_ite (fun _ => h.same) fun _ => h.same

theorem keeps_takeSlot (b : Nat) : KeepsForm s (takeSlot t b) := by
  unfold takeSlot
  split <;> exact h.same

theorem keeps_writeSlots (x : Nat) (bs : List Nat) : KeepsForm s (writeSlots t x bs) := by
  have h1 := keeps_writeVa h (t.context x).part (t.context x).record.saveBase 0x1000 (headerFields (t.context x))
  refine keeps_foldl ?_ (fun _ _ hu => keeps_writeVa hu ..) _
  split
  exacts [keeps_writeVa h1 .., h1]

theorem keeps_refuteAll (x : Nat) : KeepsForm s (refuteAll t x) := by
  obtain ⟨svc, e⟩ := refuteAll_rest t x
  rw [e]
  exact h.same

/-- A freeze that was under way ends with its context. -/
theorem keeps_freezeFailed (x : Nat) (f : Option (Nat × Nat × Nat)) : KeepsForm s (match f with
    | some f => if f.1 = x then mboxDone { t with svc := { t.svc with freezing := none } } 4 else t
    | none => t) := by
  cases f with
  | none => exact h
  | some f => exact keeps_ite (fun _ => keeps_mboxDone h.same 4) fun _ => h

theorem keeps_discardCtx (x c : Nat) : KeepsForm s (discardCtx t x c) := by
  have h1 : KeepsForm s (modCtx t x fun k => { k with stop := some { cause := c } }) := keeps_modCtx h
  unfold discardCtx
  dsimp only
  refine keeps_freezeFailed (t := freeCtx _ x) (keeps_freeCtx (keeps_blackBox (keeps_raiseInt (keeps_refuteAll ?_ x) ..) ..) x) x _
  split
  exacts [keeps_writeVa h1 .., h1]

theorem keeps_stopDone (x : Nat) : KeepsForm s (stopDone t x) := by
  unfold stopDone
  dsimp only
  split
  exacts [keeps_ite (fun _ => h) fun _ => keeps_blackBox (keeps_raiseInt h ..) .., h]

theorem keeps_saveEntry (x a n : Nat) : KeepsForm s (saveEntry t x a n) := keeps_modCtx (h.tame (tame_faultEntry (.refl false _) ..))
theorem keeps_releaseGang (x g : Nat) : KeepsForm s (releaseGang t x g) :=
  keeps_stopDone (keeps_modCtx (keeps_foldl h (fun _ _ hu => keeps_modBlock (keeps_leaveCore hu _)) _)) x
theorem keeps_packBlocks (bs : List Nat) : KeepsForm s (packBlocks t bs) :=
  keeps_foldl (keeps_foldl h (fun _ _ hu => keeps_prepBlock hu _) _) (fun _ _ hu => keeps_takeSlot (keeps_packBlockState hu ..) _) _
theorem keeps_leftCore (bs : List Nat) (p : SavedIn) : KeepsForm s (leftCore t bs p) := keeps_foldl h (fun _ _ hu => keeps_modBlock hu) _

theorem keeps_onSaveFault {u : State} (hu : KeepsForm s u) (x : Nat) {f : State → State} (hf : ∀ v, KeepsForm s v → KeepsForm s (f v)) (e : Nat × XFault × Nat) :
    KeepsForm s (onSaveFault t u x f e) := by
  unfold onSaveFault
  split
  · exact keeps_ite (fun _ => keeps_discardCtx hu ..) fun _ => keeps_ite (fun _ => h) fun _ => hf _ (keeps_saveEntry hu.same ..)
  · exact keeps_discardCtx hu ..

theorem keeps_saveCore (x g c : Nat) : KeepsForm s (saveCore x g t c) := by
  have h1 := keeps_packBlocks h (unsavedOn t x g c)
  unfold saveCore
  dsimp only
  refine keeps_ite (fun _ => h) fun _ => ?_
  split
  · exact keeps_leftCore (keeps_writeSlots h1 ..) ..
  · exact keeps_onSaveFault h h1 x (fun v hv => keeps_leftCore hv ..) _

theorem keeps_saveGang (x g : Nat) : KeepsForm s (saveGang t x g) := keeps_foldl h (fun _ _ hu => keeps_saveCore hu ..) _
theorem form_execPreemptSaveDone (x g : Nat) : FormOut s (execPreemptSaveDone x g t) :=
  formOut_next <| keeps_ite (fun _ => h) fun _ => keeps_ite (fun _ => keeps_releaseGang (keeps_saveGang h ..) ..) fun _ => keeps_saveGang h ..

theorem keeps_saveRetry (x : Nat) : KeepsForm s (saveRetry t x) := by
  rw [saveRetry]
  split
  · exact keeps_stopDone (KeepsForm.same (keeps_modCtx (f := fun c => { c with saveFault := none }) (c := x) (keeps_leftCore (keeps_writeSlots h x _) _ .slot))) x
  · exact keeps_ite (fun _ => keeps_saveEntry h ..) fun _ => keeps_discardCtx h ..
  · exact keeps_discardCtx h ..

/-! ## Items, groups and blocks -/

theorem form_execItemRefill (c : Nat) : FormOut s (execItemRefill c t) := by
  refine formOut_next (keeps_ite (fun _ => h) fun _ => ?_)
  split
  · exact h
  · exact keeps_foldl (h.tame (tame_refill (.refl false _) ..)) (fun _ _ hu => hu.tame (tame_serveItems (.refl false _) ..)) _

theorem form_execGroupEnd (b g : Nat) : FormOut s (execGroupEnd b g t) := formOut_next (keeps_ite (fun _ => h) fun _ => h.same)

theorem keeps_endBlock (b : Nat) : KeepsForm s (endBlock t b) := by
  have h1 := KeepsForm.tame (keeps_gangFlush h b) (tame_captureRuns (.refl false _) b)
  exact keeps_modBlock (keeps_leaveCore (keeps_ite (fun _ => h1) fun _ => KeepsForm.same h1) b)

theorem form_execBlockEnd (b : Nat) : FormOut s (execBlockEnd b t) :=
  formOut_next (keeps_ite (fun _ => h) fun _ => KeepsForm.tame (keeps_endBlock h b) (tame_objTestAll (.refl false _) b))

end

end Sys2Proof.Machine
end

section
/-! PROOF. Memory's canonical form under launches, resolves, images, the host's registers and the mailbox. -/

set_option Elab.async false

namespace Sys2Proof.Machine

section
variable {s t : State} (h : KeepsForm s t)
include h

/-! ## Launches -/

theorem keeps_haltChan (p c n : Nat) : KeepsForm s (haltChan t p c n) := keeps_raiseInt (keeps_modChan h ..) ..

theorem form_execChanCfgWrite (p c : Nat) (v : W64) : FormOut s (execChanCfgWrite p c v t) :=
  formOut_next <| keeps_ite (fun _ => h) fun _ => keeps_ite (fun _ => keeps_modChan h ..) fun _ => keeps_modChan h ..
theorem form_execChanDoorbell (p c : Nat) (v : W32) : FormOut s (execChanDoorbell p c v t) :=
  formOut_next <| keeps_ite (fun _ => h) fun _ => keeps_ite (fun _ => h.same) fun _ => keeps_haltChan h ..
theorem form_execChanHaltedClear (p c : Nat) : FormOut s (execChanHaltedClear p c t) := formOut_next (keeps_ite (fun _ => h) fun _ => keeps_modChan h ..)
theorem form_execChanSkip (p c : Nat) : FormOut s (execChanSkip p c t) := formOut_next (keeps_ite (fun _ => h) fun _ => keeps_modChan h ..)

theorem keeps_noteWait (p a : Nat) : KeepsForm s (noteWait t p a) := by
  refine keeps_ite (fun _ => h) fun _ => ?_
  split
  exacts [keeps_notePte h .., h]

theorem keeps_pollHost (p c : Nat) : KeepsForm s (pollHost t p c) := keeps_evalChan (keeps_modChan h ..) ..

theorem keeps_readHead (p c : Nat) : KeepsForm s (readHead t p c) := by
  unfold readHead
  extract_lets k r
  clear_value r
  refine keeps_ite (fun _ => keeps_ite (fun _ => keeps_haltChan h ..) fun _ => keeps_modChan h ..) fun _ => keeps_ite (fun _ => keeps_haltChan h ..) fun _ => ?_
  split
  · exact keeps_pollHost (keeps_modChan (keeps_noteWait (keeps_noteWait h p r.wait0) p r.wait1) ..) ..
  · exact keeps_haltChan h ..

theorem form_execRecordAtHead (p c : Nat) : FormOut s (execRecordAtHead p c t) := formOut_next (keeps_ite (fun _ => keeps_readHead h ..) fun _ => h)
theorem form_execRecordSeqRecheck (p c : Nat) : FormOut s (execRecordSeqRecheck p c t) := formOut_next (keeps_ite (fun _ => keeps_readHead h ..) fun _ => h)
theorem form_execSyncWordPollHost (p c : Nat) : FormOut s (execSyncWordPollHost p c t) := formOut_next (keeps_ite (fun _ => keeps_pollHost h ..) fun _ => h)

theorem keeps_startContext (p c : Nat) (r : Record) : KeepsForm s (startContext t p c r) := by
  refine keeps_blackBox (keeps_modChan ?_ ..) ..
  split
  exacts [h.same, h.same]

theorem form_execRecordStart (p c : Nat) : FormOut s (execRecordStart p c t) := by
  refine formOut_next ?_
  split
  exacts [keeps_ite (fun _ => keeps_startContext h ..) fun _ => h, h]

theorem keeps_signalTo {p x : Nat} {r : Record} {u : State} {id : Nat} (hu : signalTo t p x r = .sent u id) : KeepsForm s u := by
  unfold signalTo at hu
  split at hu
  · cases hu
  split at hu
  · cases hu
  · obtain ⟨rfl, -⟩ := Sig.sent.inj hu
    exact keeps_addReq (keeps_notePte h ..) _

theorem keeps_recordDone (p c : Nat) (r : Record) : KeepsForm s (recordDone t p c r) :=
  keeps_ite (fun _ => keeps_raiseInt (keeps_blackBox h ..) ..) fun _ => keeps_blackBox h ..
theorem keeps_signalFault (p c : Nat) (r : Record) : KeepsForm s (signalFault t p c r) := keeps_blackBox (keeps_haltChan h ..) ..

theorem keeps_startMarker (p c : Nat) (r : Record) : KeepsForm s (startMarker t p c r) := by
  unfold startMarker
  dsimp only
  split
  · exact keeps_recordDone (keeps_modChan h ..) ..
  · exact keeps_signalFault (keeps_modChan h ..) ..
  · next hu => exact keeps_modChan (keeps_modChan (keeps_signalTo h hu) ..) ..

theorem form_execMarkerSignal (p c : Nat) : FormOut s (execMarkerSignal p c t) := by
  refine formOut_next ?_
  split
  · exact keeps_recordDone (keeps_modChan (keeps_dropReq h _) ..) ..
  · exact keeps_ite (fun _ => keeps_startMarker h ..) fun _ => h
  · exact h

theorem keeps_finishCtx (x : Nat) : KeepsForm s (finishCtx t x) := keeps_freeCtx (keeps_recordDone h ..) x

theorem form_execContextComplete (x : Nat) : FormOut s (execContextComplete x t) := by
  have h1 := keeps_refuteAll h x
  refine formOut_next ?_
  dsimp only
  split
  · exact keeps_ite (fun _ => keeps_finishCtx (keeps_dropReq h _) x) fun _ => h
  · refine keeps_ite (fun _ => h) fun _ => ?_
    split
    · exact keeps_finishCtx h1 x
    · exact keeps_freeCtx (keeps_signalFault h1 ..) x
    · next hu => exact keeps_modCtx (keeps_endHyps (keeps_signalTo h1 hu) x)

/-! ## Resolves -/

theorem keeps_setNode (x id : Nat) (f : Node → Node) : KeepsForm s (setNode t x id f) := h.same
theorem keeps_modHead (x : Nat) (f : Resolve → Resolve) : KeepsForm s (modHead t x f) := h.same

theorem keeps_fetchVersion (v : Version) : KeepsForm s (fetchVersion t v) := by
  unfold fetchVersion
  split
  exacts [keeps_versionBack h .., keeps_ite (fun _ => h) fun _ => keeps_sendStack h ..]

theorem form_execResolveEgressDrained (x : Nat) : FormOut s (execResolveEgressDrained x t) := by
  refine formOut_next ?_
  split
  · exact h
  refine keeps_ite (fun _ => h) fun _ => ?_
  split
  · exact keeps_modHctx (keeps_modHead h ..)
  · exact keeps_foldl (keeps_foldl h (fun _ _ hu => keeps_fetchVersion hu _) _) (fun _ _ hu => keeps_sendSnoop hu ..) _

theorem keeps_modLanesOf (c : Nat) (f : Lane → Lane) : KeepsForm s (modLanesOf t c f) := keeps_modGroupsOf h ..

theorem keeps_mergeRoot (v : Version) : KeepsForm s (mergeRoot t v) := by
  have h1 : KeepsForm s (if !(l2Of t (64 * v.sector)).present && channelDown t (64 * v.sector) then t
      else applyBytes (useSnoop t (64 * v.sector)) (versionBytes v) (64 * v.sector)) :=
    keeps_ite (fun _ => h) fun _ => keeps_applyBytes (keeps_useSnoop h _) ..
  exact keeps_maskedWrite (keeps_ite (fun _ => keeps_poisonSector h1 _) fun _ => h1) ..

theorem keeps_mergeInto (p : Nat) (v : Version) : KeepsForm s (mergeInto t p v) := by
  unfold mergeInto
  split <;> exact keeps_holdVersion h.same _

theorem keeps_mergeUp (x id : Nat) : KeepsForm s (mergeUp t x id) :=
  keeps_foldl (keeps_dropVersions (keeps_foldl h (fun _ _ hu => keeps_freeVat hu _) _) _)
    (fun _ _ hu => keeps_ite (fun _ => keeps_mergeRoot hu _) fun _ => keeps_mergeInto hu ..) _

theorem keeps_membersFree (n : Node) : KeepsForm s (membersFree t n) := h.tame (tame_membersFree (.refl false _) n)

theorem keeps_confirmNode (x c id : Nat) : KeepsForm s (confirmNode t x c id) := by
  unfold confirmNode
  extract_lets n p s1 below s2 s3
  have h3 : KeepsForm s s3 := keeps_modLanesOf (keeps_foldl (keeps_mergeUp h x id) (fun _ _ hu => keeps_setNode hu ..) _) ..
  exact keeps_ite (fun _ => KeepsForm.tame h3 (tame_membersFree (tame_membersConfirm (.refl false _) n) n)) fun _ => h3

theorem keeps_refuteNode (x c : Nat) (r : Resolve) : KeepsForm s (refuteNode t x c r) :=
  keeps_modLanesOf (keeps_foldl (keeps_foldl (keeps_dropVersions (keeps_foldl h (fun _ _ hu => keeps_freeVat hu _) _) _) (fun _ _ hu => keeps_sendStack hu ..) _)
    (fun _ _ hu => hu.tame (tame_membersFree (tame_membersTruth (.refl false _) _) _)) _) ..

theorem keeps_dropTagged (x : Nat) (ids : List Nat) : KeepsForm s (dropTagged t x ids) := h.same
theorem keeps_bumpPct (b g L n : Nat) : KeepsForm s (bumpPct t b g L n) := h.tame (tame_bumpPct (.refl false _) ..)

theorem keeps_resolveEffect (x : Nat) (r : Resolve) (e c : Nat) : KeepsForm s (resolveEffect t x r e c) := by
  have h1 : KeepsForm s (if r.confirm then confirmNode t x c r.id else refuteNode t x c r) := keeps_ite (fun _ => keeps_confirmNode h ..) fun _ => keeps_refuteNode h ..
  have h2 := keeps_foldl h1 (f := fun u d => setNode u x d fun n => { n with state := 3, members := [], npend := 0 }) (fun _ _ hu => keeps_setNode hu ..) r.ids
  unfold resolveEffect
  dsimp only
  split
  · exact keeps_bumpPct (keeps_blackBox (keeps_modHctx (keeps_dropTagged (KeepsForm.same h2) ..)) ..) ..
  · exact keeps_blackBox (keeps_modHctx (keeps_dropTagged (KeepsForm.same h2) ..)) ..

theorem keeps_resolveDue (x : Nat) : KeepsForm s (resolveDue t x) := by
  unfold resolveDue
  split
  · split
    exacts [keeps_ite (fun _ => keeps_resolveEffect h ..) fun _ => h, h]
  · exact h

theorem form_execResolveEffect (x : Nat) : FormOut s (execResolveEffect x t) := formOut_next (keeps_resolveDue h x)
theorem form_execHypIdRetire (x id : Nat) : FormOut s (execHypIdRetire x id t) := formOut_next (keeps_ite (fun _ => keeps_setNode h ..) fun _ => h)

/-! ## Images -/

theorem keeps_mboxTake (c : Nat) {f : State → State} (hf : ∀ u, KeepsForm s u → KeepsForm s (f u)) : KeepsForm s (mboxTake t c f) :=
  keeps_ite (fun _ => h) fun _ => hf _ h.same
theorem keeps_mboxResult (x : Nat) : KeepsForm s (mboxResult t x) := h.same

theorem keeps_freezeStop (x a n : Nat) : KeepsForm s (freezeStop t x a n) := by
  have h1 := keeps_modCtx (KeepsForm.tame h (tame_trapsFirst (.refl false _) ((blocksOf t x).filter fun b => (t.block b).resident))) (c := x) (f := fun c => { c with freezing := true })
  exact KeepsForm.same (keeps_modGroupsOf h1 x fun _ _ q => { q with stopped := true })

theorem form_execFreeze : FormOut s (execFreeze t) := by
  refine formOut_next (keeps_mboxTake h _ fun u hu => keeps_ite (fun _ => keeps_mboxDone hu _) fun _ => ?_)
  split
  · exact keeps_mboxDone hu _
  · exact keeps_ite (fun _ => keeps_mboxDone hu _) fun _ => keeps_freezeStop hu ..

theorem keeps_takeVersions (x : Nat) : KeepsForm s (takeVersions t x).1 := by
  unfold takeVersions
  split
  exacts [h, keeps_dropVersions (keeps_foldl h (fun _ _ hu => keeps_freeVat hu _) _) _]

theorem keeps_writeBack (x p : Nat) : KeepsForm s (writeBack t x p) := keeps_foldl h.same (fun _ _ hu => keeps_giveLine hu _) _

theorem keeps_bookCopies (x : Nat) : KeepsForm s (bookCopies t x) := h.same

theorem keeps_writeImage (x a : Nat) (vs : List Version) : KeepsForm s (writeImage t x a vs).1 := by
  rw [writeImage]
  exact keeps_syncEval (keeps_modPart (keeps_bookCopies (keeps_devBytes (keeps_svcRead (keeps_putRange h ..) ..) ..) x)) ..

theorem keeps_imageStands (x n : Nat) (c : Ctx) : KeepsForm s (imageStands t x n c) := by
  have h1 := keeps_freeCtx h x
  unfold imageStands
  dsimp only
  generalize freeCtx t x = u at h1 ⊢
  exact keeps_mboxDone h1.same 0

theorem keeps_finishFreeze (x a : Nat) : KeepsForm s (finishFreeze t x a) := by
  rw [finishFreeze_eq]
  exact keeps_imageStands (keeps_writeImage (keeps_writeBack (keeps_takeVersions h x) ..) ..) ..

theorem keeps_imageReady (x : Nat) : KeepsForm s (imageReady t x) :=
  keeps_foldl h (fun _ _ h1 => keeps_foldl (keeps_redirectDue h1 _) (fun _ _ h2 => keeps_foldl h2
    (fun _ _ h3 => keeps_ite (fun _ => h3) fun _ => h3.tame (tame_countArrival (.refl false _) ..)) _) _) _

theorem form_execFreezeImageDone : FormOut s (execFreezeImageDone t) := by
  refine formOut_next ?_
  split
  · next x a _ _ =>
    have h1 := keeps_imageReady h x
    have h2 := keeps_packBlocks h1 ((blocksOf t x).filter fun b => (t.block b).resident)
    refine keeps_ite (fun _ => h) fun _ => keeps_ite (fun _ => keeps_finishFreeze h1 ..) fun _ => ?_
    split
    · exact keeps_finishFreeze (keeps_writeSlots h2 ..) ..
    · exact keeps_onSaveFault h1 h1 x (fun _ hv => hv) _
  · exact h

theorem keeps_parkedLoad (b g L : Nat) : KeepsForm s (parkedLoad t b g L) :=
  keeps_ite (fun _ => h) fun _ => h.tame (tame_enterLoad (.refl false _) _ _ _ (le_refl _))

theorem keeps_rejoinCopies (b : Nat) : KeepsForm s (rejoinCopies t b) := keeps_foldl h (fun _ _ hu => keeps_foldl hu.same (fun _ _ h2 => keeps_modGroup h2) _) _

theorem keeps_loadBlock (x a : Nat) (r : Record) (who : Option (Nat × Nat)) : KeepsForm s (loadBlock t x a r who) :=
  keeps_foldl h.same (fun _ _ hu => keeps_foldl hu (fun _ _ h2 => keeps_parkedLoad h2 ..) _) _

theorem keeps_imageTree (p c i a : Nat) (r : Record) : KeepsForm s (imageTree t p c i a r) := by
  unfold imageTree
  dsimp only
  generalize imageCtx t p c i a r = x
  split
  · exact h.same
  · exact keeps_foldl h.same (fun _ _ hu => keeps_holdVersion hu _) _

theorem keeps_imageBlocks (p c i a : Nat) (r : Record) : KeepsForm s (imageBlocks t p c i a r) :=
  keeps_foldl (keeps_imageTree h p c i a r) (fun _ _ hu => keeps_loadBlock hu ..) _

theorem keeps_loadImage (p c i a : Nat) (r : Record) : KeepsForm s (loadImage t p c i a r).2 := by
  have h1 := keeps_imageBlocks h p c i a r
  rw [loadImage_eq]
  generalize imageBlocks t p c i a r = u at h1 ⊢
  exact keeps_foldl (f := rejoinCopies) h1 (fun _ _ hu => keeps_rejoinCopies hu _) _

end

end Sys2Proof.Machine
end

section
/-! PROOF. Memory's canonical form under RESUME, the host's registers and the commands of the mailbox. -/

set_option Elab.async false

namespace Sys2Proof.Machine

section
variable {s t : State} (h : KeepsForm s t)
include h

theorem form_execResume : FormOut s (execResume t) := by
  refine formOut_next (keeps_mboxTake h _ fun u hu => ?_)
  dsimp only
  generalize parseRecord _ = r
  refine keeps_ite (fun _ => keeps_mboxDone hu _) fun _ => ?_
  split
  · exact keeps_mboxDone (keeps_loadImage (keeps_svcRead hu ..) ..) _
  · exact keeps_mboxDone (keeps_mboxResult hu _) _

/-! ## The host's registers -/

theorem keeps_readsAs (x : Nat) : KeepsForm s (readsAs t x) := h.same

theorem form_execDirtyLogCfgWrite (p : Nat) (v : W64) : FormOut s (execDirtyLogCfgWrite p v t) :=
  formOut_next <| keeps_ite (fun _ => h) fun _ => keeps_ite (fun _ => h) fun _ => keeps_modPart h
theorem form_execFaultRingCfgWrite (p : Nat) (v : W64) : FormOut s (execFaultRingCfgWrite p v t) :=
  formOut_next <| keeps_ite (fun _ => h) fun _ => keeps_ite (fun _ => h) fun _ => keeps_modPart h

theorem keeps_startInval (p : Nat) (va : Option Nat) : KeepsForm s (startInval t p va) := h.tame (tame_startInval (.refl false _) ..)
theorem keeps_hostInval (p : Nat) (ok : Bool) (va : Option Nat) : KeepsForm s (hostInval t p ok va) :=
  keeps_ite (fun _ => h) fun _ => keeps_ite (fun _ => keeps_modPart h) fun _ => keeps_startInval h ..
theorem form_execTlbinvAddrPage (p : Nat) (v : W64) : FormOut s (execTlbinvAddrPage p v t) := formOut_next (keeps_hostInval h ..)
theorem form_execTlbinvAddrAll (p : Nat) : FormOut s (execTlbinvAddrAll p t) := formOut_next (keeps_hostInval h ..)

theorem keeps_releaseHeld (p : Nat) : KeepsForm s (releaseHeld t p) := by
  refine keeps_foldl h (fun u id hu => ?_) _
  split
  · exact hu
  dsimp only
  split
  · exact hu
  · exact keeps_ite (fun _ => keeps_modReq hu ..) fun _ => keeps_modReq (keeps_ite (fun _ => keeps_noteXl hu ..) fun _ => keeps_notePte hu ..) ..

theorem form_execTlbInvalidationAck (p : Nat) : FormOut s (execTlbInvalidationAck p t) :=
  formOut_next (keeps_ite (fun _ => keeps_releaseHeld (h.tame (tame_invAcked (.refl false _) p)) p) fun _ => h)

theorem keeps_replyGroups (p id : Nat) (b : Bool) : KeepsForm s (replyGroups t p id b) :=
  keeps_foldl h (fun _ _ h1 => keeps_foldl h1 (fun _ _ h2 => keeps_foldl h2
    (fun _ _ h3 => keeps_ite (fun _ => keeps_faultAnswered (keeps_modGroup h3) ..) fun _ => h3) _) _) _

theorem keeps_replyCopies (p id : Nat) (b : Bool) : KeepsForm s (replyCopies t p id b) :=
  keeps_foldl h (fun _ _ h1 => keeps_ite (fun _ => h1) fun _ => keeps_foldl h1
    (fun _ _ h2 => keeps_ite (fun _ => keeps_modJob h2 ..) fun _ => keeps_copyPump (keeps_modJob h2 ..) ..) _) _

theorem keeps_replySaves (p id : Nat) (b : Bool) : KeepsForm s (replySaves t p id b) :=
  keeps_foldl h (fun _ _ hu => keeps_ite (fun _ => keeps_discardCtx hu ..) fun _ => keeps_saveRetry hu _) _

theorem keeps_faultReply (p id : Nat) (b : Bool) : KeepsForm s (faultReply t p id b) :=
  keeps_ite (fun _ => h) fun _ => keeps_replySaves (keeps_replyCopies (keeps_replyGroups (keeps_modPart h) ..) ..) ..
theorem form_execFaultReplyRetry (p id : Nat) : FormOut s (execFaultReplyRetry p id t) := formOut_next (keeps_faultReply h ..)
theorem form_execFaultReplyAbort (p id : Nat) : FormOut s (execFaultReplyAbort p id t) := formOut_next (keeps_faultReply h ..)

theorem form_execErrLogPop : FormOut s (execErrLogPop t) := formOut_next h.same
theorem form_execFirstErrorRead : FormOut s (execFirstErrorRead t) := formOut_next h.same
theorem form_execMissCountRead (r c : Nat) : FormOut s (execMissCountRead r c t) := formOut_next (keeps_ite (fun _ => h.same) fun _ => h.same)
theorem form_execCtStatusRead : FormOut s (execCtStatusRead t) := formOut_next h.same
theorem form_execChStatusRead (k : Nat) : FormOut s (execChStatusRead k t) := formOut_next (keeps_ite (fun _ => h.same) fun _ => h.same)
theorem form_execFabPortStatusRead (p : Nat) : FormOut s (execFabPortStatusRead p t) := formOut_next (keeps_ite (fun _ => h.same) fun _ => h.same)
theorem form_execMemLatencyShapeRead (p : Nat) : FormOut s (execMemLatencyShapeRead p t) := formOut_next (keeps_ite (fun _ => h.same) fun _ => h.same)

theorem keeps_writeCommand (v : Nat) : KeepsForm s (writeCommand t v) := keeps_ite (fun _ => h) fun _ => keeps_mboxTake h _ fun _ hu => keeps_mboxDone hu _
theorem keeps_writeComponent (off v : Nat) : KeepsForm s (writeComponent t off v) :=
  keeps_ite (fun _ => keeps_ite (fun _ => h) fun _ => h.same) fun _ => keeps_ite (fun _ => h.same) fun _ => h

theorem keeps_writeControl (off v : Nat) : KeepsForm s (writeControl t off v) := by
  unfold writeControl
  dsimp only
  refine keeps_ite (fun _ => h.same) fun _ => keeps_ite (fun _ => h.same) fun _ => keeps_ite (fun _ => h.same) fun _ => keeps_ite (fun _ => h.same) fun _ => ?_
  refine keeps_ite (fun _ => h.same) fun _ => keeps_ite (fun _ => keeps_writeCommand h v) fun _ => keeps_ite (fun _ => h.same) fun _ => ?_
  exact keeps_ite (fun _ => h.same) fun _ => keeps_ite (fun _ => h.same) fun _ => keeps_ite (fun _ => keeps_writeComponent h ..) fun _ => h

theorem keeps_writePart (p off v : Nat) : KeepsForm s (writePart t p off v) := by
  refine keeps_ite (fun _ => h.same) fun _ => keeps_ite (fun _ => h.same) fun _ => keeps_ite (fun _ => h.same) fun _ => keeps_ite (fun _ => h.same) fun _ => ?_
  exact keeps_ite (fun _ => h.same) fun _ => keeps_ite (fun _ => KeepsForm.tame (keeps_modPart h) (tame_drainRing (.refl false _) p)) fun _ => h

theorem form_execRegisterWrite (n off : Nat) (v : W64) : FormOut s (execRegisterWrite n off v t) :=
  formOut_next <| keeps_ite (fun _ => h) fun _ => keeps_ite (fun _ => keeps_writeControl h ..) fun _ => keeps_ite (fun _ => keeps_writePart h ..) fun _ => h

theorem keeps_hostCfgRead (n off : Nat) : KeepsForm s (hostCfgRead t n off) := keeps_ite (fun _ => h.same) fun _ => h
theorem keeps_writeCap (n off v : Nat) : KeepsForm s (writeCap t n off v) :=
  keeps_ite (fun _ => h) fun _ => keeps_ite (fun _ => keeps_powerCommand h.same 4) fun _ => h.same
theorem keeps_cfgReply (x : W32) : KeepsForm s (cfgReply t x) := h.same
theorem keeps_hostCfgWrite (n off : Nat) (v : W32) : KeepsForm s (hostCfgWrite t n off v) :=
  keeps_ite (fun _ => h) fun _ => keeps_cfgReply (keeps_ite (fun _ => h) fun _ => keeps_ite (fun _ => h.same) fun _ => keeps_ite (fun _ => h.same) fun _ => keeps_writeCap h ..) 0
theorem keeps_hostMsixWrite (n v a d : Nat) : KeepsForm s (hostMsixWrite t n v a d) := keeps_ite (fun _ => h) fun _ => h.same

theorem form_hostHdmRead (a : Nat) : FormOut s (hostHdmRead t a) := by
  unfold hostHdmRead
  split
  exacts [form_execCxlMemRead h _, formOut_next h]

theorem form_hostHdmWrite (a : Nat) (bs : List Byte) : FormOut s (hostHdmWrite t a bs) := by
  unfold hostHdmWrite
  split
  exacts [form_execCxlMemWrite h .., formOut_next h]

/-! ## The mailbox's commands -/

theorem form_execMboxUnknownCmd (c : Nat) : FormOut s (execMboxUnknownCmd c t) :=
  formOut_next (keeps_ite (fun _ => h) fun _ => keeps_mboxTake h _ fun _ hu => keeps_mboxDone hu 5)
theorem keeps_putMbox (off : Nat) (bs : List Byte) : KeepsForm s (putMbox t off bs) := h.same

theorem keeps_zeroCore (c : Nat) : KeepsForm s (zeroCore t c) := h.same
theorem keeps_zeroGranules (g n : Nat) : KeepsForm s (zeroGranules t g n) := keeps_filter h _ (fun _ => true) rfl (List.filter_true _).symm

theorem keeps_partRelease (p m g n : Nat) : KeepsForm s (partRelease t p m g n) := by
  have h1 := keeps_foldl h (f := zeroCore) (fun _ _ hu => keeps_zeroCore hu _) ((coresOf (t.part p).coreMask).filter fun c => !bit m c)
  exact keeps_ite (fun _ => h1) fun _ => keeps_foldl h1 (fun _ _ hu => keeps_ite (fun _ => hu) fun _ => keeps_zeroGranules hu ..) _

theorem keeps_partGain (p g n : Nat) : KeepsForm s (partGain t p g n) :=
  KeepsForm.same (keeps_foldl h (f := fun u e => zeroGranules u e.1 1) (fun _ _ hu => keeps_zeroGranules hu ..)
    (t.svc.owned.filter fun e => (decide (g ≤ e.1) && decide (e.1 < g + n)) && e.2 != p))

theorem form_execPartSet : FormOut s (execPartSet t) :=
  formOut_next <| keeps_mboxTake h _ fun _ hu => keeps_ite (fun _ => keeps_mboxDone hu _) fun _ => keeps_ite (fun _ => keeps_mboxDone hu _)
    fun _ => keeps_mboxDone (keeps_modPart (keeps_partGain (keeps_partRelease hu ..) ..)) _

theorem keeps_dropBuckets (p : Nat) : KeepsForm s (dropBuckets t p) := h.same
theorem keeps_tdelPart (p : Nat) : KeepsForm s { t with parts := tdel t.parts p } := h.same
theorem form_execPartClear : FormOut s (execPartClear t) :=
  formOut_next <| keeps_mboxTake h _ fun _ hu => keeps_ite (fun _ => keeps_mboxDone hu _) fun _ => keeps_ite (fun _ => keeps_mboxDone hu _)
    fun _ => keeps_mboxDone (keeps_tdelPart (keeps_dropBuckets (keeps_partRelease hu ..) _) _) _

theorem form_execAttest (bs : List Byte) : FormOut s (execAttest bs t) := formOut_next (keeps_mboxTake h _ fun _ hu => keeps_mboxDone (keeps_putMbox hu ..) _)
theorem form_execIdentity : FormOut s (execIdentity t) := formOut_next (keeps_mboxTake h _ fun _ hu => keeps_mboxDone (keeps_putMbox hu ..) _)

theorem form_execFwStage (k g : List Byte) (r v : Nat) : FormOut s (execFwStage k g r v t) :=
  formOut_next <| keeps_mboxTake h _ fun u hu => keeps_ite (fun _ => keeps_mboxDone hu _) fun _ => by
    have h1 := keeps_svcRead hu (mboxArg u 0) (mboxArg u 1)
    dsimp only
    generalize svcRead u _ _ = w at h1 ⊢
    exact keeps_ite (fun _ => keeps_mboxDone h1 _) fun _ => keeps_mboxDone h1.same _

theorem form_execFwSwap : FormOut s (execFwSwap t) := formOut_next (keeps_mboxTake h _ fun _ hu => keeps_ite (fun _ => keeps_mboxDone hu _) fun _ => hu.same)

theorem keeps_swapEnd : KeepsForm s (swapEnd t) := keeps_foldl h.same (fun _ _ hu => keeps_sendMsi hu _) _
theorem form_execFwSelfTestDone (b : Bool) : FormOut s (execFwSelfTestDone b t) :=
  have h1 := keeps_swapEnd h
  formOut_next <| keeps_ite (fun _ => h) fun _ => keeps_ite (fun _ => keeps_mboxDone (keeps_raiseAlert h1 5) _) fun _ => keeps_mboxDone (KeepsForm.same h1) _

theorem form_execChRetrain : FormOut s (execChRetrain t) :=
  formOut_next <| keeps_mboxTake h _ fun _ hu => keeps_ite (fun _ => keeps_mboxDone hu _) fun _ => keeps_ite (fun _ => keeps_mboxDone hu _)
    fun _ => keeps_ite (fun _ => keeps_mboxDone hu _) fun _ => keeps_mboxDone hu.same _
theorem form_execLinkRecal : FormOut s (execLinkRecal t) :=
  formOut_next <| keeps_mboxTake h _ fun _ hu => keeps_ite (fun _ => keeps_mboxDone hu _) fun _ => keeps_ite (fun _ => keeps_mboxDone hu _)
    fun _ => keeps_ite (fun _ => keeps_mboxDone hu _) fun _ => keeps_mboxDone (keeps_modPort hu ..) _

theorem keeps_drainDone (c m : Nat) : KeepsForm s (drainDone t c m) := by
  have h1 := keeps_zeroCore h c
  have h2 : KeepsForm s (if m = 1 then modCore (zeroCore t c) c fun k => { k with retired := true }
      else match coreOwner (zeroCore t c) c with
        | some p => modPart (zeroCore t c) p fun q => { q with coreMask := q.coreMask - 2 ^ c }
        | none => zeroCore t c) := by
    refine keeps_ite (fun _ => keeps_modCore h1) fun _ => ?_
    split
    exacts [keeps_modPart h1, h1]
  exact keeps_mboxDone (KeepsForm.same h2) 0

theorem form_execCoreDrain : FormOut s (execCoreDrain t) := by
  refine formOut_next (keeps_mboxTake h _ fun u hu => keeps_ite (fun _ => keeps_mboxDone hu _) fun _ => ?_)
  split
  · exact keeps_drainDone hu.same ..
  · exact keeps_ite (fun _ => keeps_mboxDone hu _) fun _ => keeps_foldl hu.same
      (fun _ _ hv => keeps_ite (fun _ => keeps_modCtx hv) fun _ => keeps_stopGang (keeps_modCtx hv) ..) _

theorem form_execCoreDrainComplete (c : Nat) : FormOut s (execCoreDrainComplete c t) := by
  refine formOut_next ?_
  split
  exacts [keeps_ite (fun _ => keeps_drainDone h ..) fun _ => h, h]

theorem form_execCoreRestore : FormOut s (execCoreRestore t) := by
  refine formOut_next (keeps_mboxTake h _ fun u hu => keeps_ite (fun _ => keeps_mboxDone hu _) fun _ => keeps_ite (fun _ => keeps_mboxDone hu _) fun _ => keeps_mboxDone ?_ _)
  split <;> exact hu.same

theorem form_execBbRead : FormOut s (execBbRead t) := formOut_next (keeps_mboxTake h _ fun _ hu => keeps_mboxDone hu.same _)
theorem form_execErrClear : FormOut s (execErrClear t) := formOut_next (keeps_mboxTake h _ fun _ hu => keeps_mboxDone hu.same _)

theorem form_execFabTrain : FormOut s (execFabTrain t) :=
  formOut_next <| keeps_mboxTake h _ fun _ hu => keeps_ite (fun _ => keeps_mboxDone hu _) fun _ => keeps_ite (fun _ => keeps_mboxDone hu _)
    fun _ => keeps_mboxDone (keeps_foldl (keeps_ite (fun _ => hu.same) fun _ => hu) (fun _ _ hv => keeps_modPort hv ..) _) _

theorem keeps_keyCommand (n : Nat) (b d : Port → Bool) (f : Port → List Byte → List Byte → Port) : KeepsForm s (keyCommand t n b d f) := by
  refine keeps_ite (fun _ => h) fun _ => keeps_mboxTake h _ fun _ hu => keeps_ite (fun _ => keeps_mboxDone hu _) fun _ => ?_
  have h1 := keeps_putMbox hu 0 (List.replicate 64 0)
  exact keeps_ite (fun _ => keeps_mboxDone h1 _) fun _ => keeps_ite (fun _ => keeps_mboxDone h1 _) fun _ => keeps_mboxDone (keeps_modPort h1 ..) _
theorem form_execFabKeyFirst : FormOut s (execFabKeyFirst t) := formOut_next (keeps_keyCommand h ..)
theorem form_execFabKeyStageReceive : FormOut s (execFabKeyStageReceive t) := formOut_next (keeps_keyCommand h ..)
theorem form_execFabKeyStageTransmit : FormOut s (execFabKeyStageTransmit t) := formOut_next (keeps_keyCommand h ..)

theorem keeps_quiesceStop (p q : Nat) : KeepsForm s (quiesceStop t p q) := by
  unfold quiesceStop
  extract_lets s0 s1 s2
  have h1 : KeepsForm s s1 := keeps_foldl h.same (fun _ _ hu => keeps_failReq hu ..) _
  have h2 : KeepsForm s s2 := keeps_foldl h1 (fun _ _ hu => keeps_modGroupsOf hu ..) _
  exact KeepsForm.same h2

theorem form_execFabQuiesce : FormOut s (execFabQuiesce t) := by
  refine formOut_next ?_
  split
  · exact keeps_ite (fun _ => keeps_quiesceStop h ..) fun _ => h
  · exact keeps_ite (fun _ => keeps_mboxDone h.same 0) fun _ => h
  · exact keeps_mboxTake h _ fun _ hu => keeps_ite (fun _ => keeps_mboxDone hu _) fun _ => keeps_ite (fun _ => keeps_mboxDone hu _) fun _ => hu.same

theorem form_execFabSession : FormOut s (execFabSession t) :=
  formOut_next <| keeps_mboxTake h _ fun _ hu => keeps_ite (fun _ => keeps_mboxDone hu _) fun _ => keeps_ite (fun _ => keeps_mboxDone hu _)
    fun _ => keeps_mboxDone (keeps_modPart hu) _

end

end Sys2Proof.Machine
end

section
/-! PROOF. Memory's canonical form under every word: what the words that the first part of this development leaves out keep. -/

set_option Elab.async false

namespace Sys2Proof.Machine

section
variable {k : Bool} {s t : State} (h : Tame k s t)
include h

omit h in
/-- An escaping guess, or another fault of stages 2 and 3, stops a word before it does anything. -/
theorem tameRes_unless {m : Mask} {c d : Nat} {i : Iss} {p : Prop} [Decidable p] {r : Res} (hr : TameRes k s r) :
    TameRes k s (if p then stop23 i c d m else r) :=
  tameRes_ite (fun _ => trivial) fun _ => hr

omit h in
theorem tameRes_held {p : Prop} [Decidable p] {r : Res} (hr : TameRes k s r) : TameRes k s (if p then .hold else r) :=
  tameRes_ite (fun _ => trivial) fun _ => hr

/-! ## Selection, control and time -/

theorem tame_execSel (w : Insn) : TameOut k s (execSel w t) := tameOut_next <| tame_runWord h _ _ _ fun _ => tame_advance (tame_putD h ..) ..
theorem tame_execExit (w : Insn) : TameOut k s (execExit w t) :=
  tameOut_next <| tame_runWord h _ _ _ fun _ => tameRes_guardEscape _ (tame_exitLanes (tame_advance h ..) ..)
theorem tame_execRejoin (w : Insn) : TameOut k s (execRejoin w t) :=
  tameOut_next <| tame_runWord h _ _ _ fun _ => tameRes_guardEscape _ (tame_foldl (tame_advance h ..) (fun _ _ hu => tame_parkLane hu ..) _)
theorem tame_execYield (w : Insn) : TameOut k s (execYield w t) := tameOut_next <| tame_runWord h _ _ _ fun _ => tame_advance h ..
theorem tame_execNop (w : Insn) : TameOut k s (execNop w t) := tameOut_next <| tame_runWord h _ _ _ fun _ => tame_advance h ..

theorem tame_execIpop (w : Insn) : TameOut k s (execIpop w t) := by
  refine tameOut_next <| tame_runWord h _ _ _ fun i => tameRes_guardEscape _ (tameRes_next.2 ?_)
  refine tame_foldl (tame_advance (tame_guessDests h ..) ..) (fun u L hu => ?_) _
  split
  · next hx => exact tame_deliverItem (tame_takeItem hu hx) ..
  · exact tame_ite (fun _ => tame_advance hu ..) fun _ => tame_parkLane hu ..

theorem tame_sleepWord (w : Insn) (rel : Bool) : Tame k s (sleepWord w t rel) :=
  tame_runWord h _ _ _ fun _ => tameRes_unless <|
    tame_foldl (tame_advance h ..) (fun _ _ hu => tame_ite (fun _ => tame_advance hu ..) fun _ => tame_parkLane hu ..) _
theorem tame_clkWord (w : Insn) (c : Bool) : Tame k s (clkWord w t c) := tame_runWord h _ _ _ fun _ => tameRes_aluBody h ..

/-! ## Memory, guesses and fences -/

theorem tame_execPtest (w : Insn) : TameOut k s (execPtest w t) :=
  tameOut_next <| tame_runWord h _ _ _ fun _ => tameRes_unless <| tame_advance (tame_putD h ..) ..
theorem tame_execGtest (w : Insn) : TameOut k s (execGtest w t) := tameOut_next <| tame_runWord h _ _ _ fun _ => tame_advance (tame_putD h ..) ..

theorem tame_execDemand (w : Insn) : TameOut k s (execDemand w t) := by
  refine tameOut_next <| tame_runWord h _ _ _ fun i => tameRes_unless <| tameRes_next.2 ?_
  refine tame_foldl (tame_advance (tame_modGroup h ?_) ..) (fun u L hu => ?_) _
  · dsimp only
    split_ifs
    exacts [(loads_orGuard ..).trans (loads_orGuard ..), loads_orGuard ..]
  · refine tame_ite (fun _ => tame_advance (tame_ite (fun _ => tame_modGroup hu (loads_resLane ..)) fun _ => hu) ..) fun _ => ?_
    split
    · exact tame_ite (fun _ => tame_advance (tame_demandLane hu ..) ..) fun _ => tame_parkLane hu ..
    · exact hu

theorem tame_markWord (op : Nat) (w : Insn) (b : Bool) : Tame k s (markWord op w t b) := by
  refine tame_runWord h _ _ _ fun i => tameRes_next.2 (tame_advance (tame_modGroup h ?_) ..)
  refine (loads_orGuard ..).trans (loads_foldl _ (fun q L => ?_) _ _)
  split
  · dsimp only
    split_ifs <;> rfl
  · exact loads_resP ..
  · rfl

theorem tame_execFence (w : Insn) : TameOut k s (execFence w t) := by
  refine tameOut_next <| tame_runWord h _ _ _ fun i => ?_
  dsimp only
  split
  · exact tameRes_ite (fun _ => tame_advance h ..) fun _ => trivial
  · exact tame_advance (tame_modGroup h rfl) ..
  · exact tameRes_ite (fun _ => tame_advance h ..) fun _ => trivial

/-! ## Barriers -/

theorem tameRes_badRef (i : Iss) (ds : List (Opd × Nat)) : TameRes k s (badRef t i ds) := tame_advance (tame_guessDests h ..) ..

theorem tame_execBari (w : Insn) : TameOut k s (execBari w t) :=
  tameOut_next <| tame_barWord h _ _ _ _ _ fun _ _ _ => tameRes_ite (fun _ => trivial) fun _ =>
    tame_arriveInTurn (tame_advance h ..) _ _ _ (fun _ _ hu => tame_parkLane hu ..) _
theorem tame_execBarv (w : Insn) : TameOut k s (execBarv w t) :=
  tameOut_next <| tame_barWord h _ _ _ _ _ fun _ _ _ =>
    tame_advance (tame_guessDests (tame_arriveLater (tame_arriveInTurn h _ _ _ (fun _ _ hu => tame_putD hu ..) _) ..) ..) ..
theorem tame_execBarw (w : Insn) : TameOut k s (execBarw w t) :=
  tameOut_next <| tame_barWord h _ _ _ _ _ fun _ _ _ => tame_foldl (tame_advance h ..)
    (fun _ _ hu => tame_ite (fun _ => tame_waited (tame_advance hu ..) ..) fun _ => tame_parkLane hu ..) _
theorem tame_execBart (w : Insn) : TameOut k s (execBart w t) :=
  tameOut_next <| tame_barWord h _ _ _ _ _ fun _ _ _ => tame_foldl (tame_advance (tame_putD h ..) ..)
    (fun _ _ hu => tame_ite (fun _ => tame_waited hu ..) fun _ => hu) _

theorem tame_execBoinit (w : Insn) : TameOut k s (execBoinit w t) := by
  refine tameOut_next <| tame_runWord h _ _ _ fun i => tameRes_unless <| tameRes_ite (fun _ => tame_advance h ..) fun _ => ?_
  split
  · exact tameRes_badRef h ..
  · refine tameRes_ite (fun _ => tameRes_badRef h ..) fun _ => ?_
    split
    · exact tameRes_badRef h ..
    · exact tameRes_held <| tame_advance (tame_objTest (tame_modObj h ..) ..) ..

/-! ## Hypotheses -/

theorem tame_openNode {c p a : Nat} {b : Bool} {x id : Nat} {u : State} (hu : openNode t c p a b = some (x, id, u)) : Tame k s u := by
  unfold openNode at hu
  split at hu
  · cases hu
  · extract_lets d at hu
    split_ifs at hu
    split at hu
    · cases hu
    · cases hu
      exact tame_setNode h ..

theorem tame_idResult (i : Iss) (w : Insn) (f : Nat → Nat) : Tame k s (idResult t i w f) := tame_putD (tame_putD h ..) ..

/-- HOPEN in one lane: the state and the ids so far, with its new node. -/
def openLane (i : Iss) (v : State) (a : Nat) (acc : State × Tbl Nat) (L : Nat) : State × Tbl Nat :=
  match openNode acc.1 i.ctx (hypOf v i L) a false with
  | some (_, id, s) => (s, tset 0 acc.2 L id)
  | none => acc

theorem tame_openPlain (w : Insn) (i : Iss) (a : Nat) : Tame k s (openPlain w t i a) := by
  have aux : ∀ (ls : List Nat) (acc : State × Tbl Nat), Tame k s acc.1 → Tame k s (ls.foldl (openLane i t a) acc).1 := by
    intro ls
    induction ls with
    | nil => exact fun _ ha => ha
    | cons L ls ih =>
      refine fun acc ha => ih _ ?_
      unfold openLane
      split
      · next hx => exact tame_openNode ha hx
      · exact ha
  exact tame_idResult (aux _ (t, []) h) ..

theorem tame_openBound (w : Insn) (i : Iss) (a : Nat) : Tame k s (openBound w t i a) := by
  unfold openBound
  dsimp only
  split
  · exact tame_idResult h ..
  · split
    · exact tame_idResult h ..
    · next hx => exact tame_boundDecide (tame_idResult (tame_modGroup (tame_setNode (tame_openNode h hx) ..) rfl) ..) ..

theorem tame_openWord (w : Insn) (b : Bool) : Tame k s (openWord w t b) :=
  tame_runWord h _ _ _ fun _ => tameRes_held <| tameRes_unless <| tameRes_ite (fun _ => tame_advance (tame_guessDests h ..) ..)
    fun _ => tame_advance (tame_ite (fun _ => tame_openBound h ..) fun _ => tame_openPlain h ..) ..

theorem tame_moveHyp (i : Iss) (f : Nat → Nat) : Tame k s (moveHyp t i f) := tame_modGroup h rfl
theorem tame_execHset (w : Insn) : TameOut k s (execHset w t) :=
  tameOut_next <| tame_runWord h _ _ _ fun _ => tameRes_held <| tameRes_unless <| tameRes_unless <| tame_advance (tame_moveHyp h ..) ..
theorem tame_execHleave (w : Insn) : TameOut k s (execHleave w t) :=
  tameOut_next <| tame_runWord h _ _ _ fun _ => tameRes_held <| tameRes_unless <| tame_advance (tame_moveHyp h ..) ..

/-- One lane's request of an HRESOLVE. -/
def resolveLane (confirm : Bool) (w : Insn) (v : State) (i : Iss) (acc : State × List Nat × List Nat) (L : Nat) : State × List Nat × List Nat :=
  match hctxFor v i.ctx with
  | none => acc
  | some h =>
    if idOf v i (opA w) L = 0 ∨ (nodeOf acc.1 h (idOf v i (opA w) L)).state ≠ 1 then acc
    else if confirm && (nodeOf acc.1 h (idOf v i (opA w) L)).bound then (acc.1, acc.2.1, acc.2.2 ++ [L])
    else (enterResolve acc.1 h confirm (idOf v i (opA w) L) 1 (some (i.b, i.g, L)), acc.2.1 ++ [L], acc.2.2)

theorem tame_resolveLanes (c : Bool) (w : Insn) (i : Iss) : Tame k s (resolveLanes c w t i).1 := by
  have aux : ∀ (ls : List Nat) (acc : State × List Nat × List Nat), Tame k s acc.1 → Tame k s (ls.foldl (resolveLane c w t i) acc).1 := by
    intro ls
    induction ls with
    | nil => exact fun _ ha => ha
    | cons L ls ih =>
      refine fun acc ha => ih _ ?_
      unfold resolveLane
      split
      · exact ha
      · split_ifs
        exacts [ha, ha, tame_enterResolve ha ..]
  exact aux _ (t, [], []) h

theorem tame_resolveWord (w : Insn) (c : Bool) : Tame k s (resolveWord w t c) :=
  tame_runWord h _ _ _ fun _ => tameRes_held <| tameRes_unless <| tameRes_unless <| tameRes_unless <| tameRes_held <|
    tame_advance (tame_putD (tame_clearRel (tame_resolveLanes h ..) _) ..) ..

theorem tame_execHquery (w : Insn) : TameOut k s (execHquery w t) :=
  tameOut_next <| tame_runWord h _ _ _ fun _ => tameRes_ite (fun _ => tameRes_aluBody h ..) fun _ => tameRes_aluBody h ..

/-! ## Engines and queues -/

theorem tame_execMma (w : Insn) : TameOut k s (execMma w t) := by
  refine tameOut_next <| tame_runWord h _ _ _ fun i => tameRes_held <| tameRes_unless ?_
  split
  · exact tame_advance h ..
  · exact tameRes_mmaBlock h ..
  · trivial

theorem tame_execTkpassClaim (w : Insn) : TameOut k s (execTkpassClaim w t) :=
  tameOut_next <| tame_tokenWord h _ _ fun _ _ =>
    tame_advance (tame_putD (tame_ite (fun _ => tame_tokenMoved (tame_modTile h ..) _) fun _ => h) ..) ..

theorem tame_execTkpassVec (w : Insn) : TameOut k s (execTkpassVec w t) := by
  refine tameOut_next <| tame_tokenWord h _ _ fun i x => ?_
  split
  · trivial
  · exact tameRes_unless <| tameRes_held <| tame_handTile (tame_advance (tame_modTile h ..) ..) ..

theorem tame_execTktest (w : Insn) : TameOut k s (execTktest w t) := tameOut_next <| tame_runWord h _ _ _ fun _ => tameRes_aluBody h ..

theorem tame_told (i : Iss) (p L : Nat) (b : Bool) : Tame k s (modGroup t i.b i.g fun q => q.resP 0 0 p L b false) := tame_modGroup h (loads_resP ..)

theorem tame_execQtry (w : Insn) : TameOut k s (execQtry w t) := by
  refine tameOut_next <| tame_runWord h _ _ _ fun i => tameRes_unless <| tameRes_next.2 (tame_advance ?_ ..)
  refine tame_foldl (tame_guessDests h ..) (fun u L hu => tame_ite (fun _ => ?_) fun _ => ?_) _
  · split
    · next hx => exact tame_told (tame_deliverPop (tame_takeItem hu hx) ..) ..
    · exact tame_ite (fun _ => tame_told (tame_deliverPop hu ..) ..) fun _ => tame_told hu ..
  · split
    · exact tame_told (tame_deliverPop (tame_setQueue hu ..) ..) ..
    · exact tame_told hu ..

theorem tame_execQcnt (w : Insn) : TameOut k s (execQcnt w t) := tameOut_next <| tame_runWord h _ _ _ fun _ => tameRes_aluBody h ..

/-! ## System words -/

theorem tame_execSrd (w : Insn) : TameOut k s (execSrd w t) := tameOut_next <| tame_runWord h _ _ _ fun _ => tameRes_aluBody h ..

theorem tame_execSwr (w : Insn) : TameOut k s (execSwr w t) := by
  refine tameOut_next <| tame_runWord h _ _ _ fun i => tameRes_unless ?_
  split
  · exact tame_advance h ..
  · dsimp only
    split
    · exact tame_advance (tame_modGroup h rfl) ..
    · exact tame_advance (tame_modGroup h rfl) ..
    · exact tame_advance (tame_setReady h ..) ..

theorem tame_execWaitev (w : Insn) : TameOut k s (execWaitev w t) := by
  refine tameOut_next <| tame_runWord h _ _ _ fun i => tameRes_unless ?_
  dsimp only
  have hl := fun (bad : Nat → Bool) (m : Nat → Nat) (p : Nat → Park) (u : State) (hu : Tame k s u) (ls : List Nat) =>
    tame_foldl (f := fun s L => if bad L then s else
      if eventsNow s i.b (m L) (s.block i.b).marks ≠ 0 then
        advance (modGroup s i.b i.g fun q => q.resLane 0 0 false (opD w) L (eventsNow s i.b (m L) (s.block i.b).marks) false) i (oneLane L)
      else parkLane s i L (p L)) hu
      (fun _ _ hv => tame_ite (fun _ => hv) fun _ => tame_ite (fun _ => tame_advance (tame_modGroup hv (loads_resLane ..)) ..)
        fun _ => tame_parkLane hv ..) ls
  split
  · exact hl _ _ _ _ (tame_advance (tame_guessDests h ..) ..) _
  · exact hl _ _ _ _ (tame_advance (tame_guessDests h ..) ..) _

theorem tame_execBblog (w : Insn) : TameOut k s (execBblog w t) := by
  refine tameOut_next <| tame_runWord h _ _ _ fun i => tameRes_held <| tameRes_unless ?_
  split
  · exact tame_advance h ..
  · exact tameRes_ite (fun _ => tame_advance (tame_logRecord h ..) ..) fun _ => tame_modCtx h

/-! ## Events of the engines and of the boundary -/

theorem tame_execMachineCheckTaken (b g : Nat) : TameOut k s (execMachineCheckTaken b g t) := tameOut_next (tame_takeNext h ..)
theorem tame_execHostLinkTrap (b g : Nat) : TameOut k s (execHostLinkTrap b g t) := tameOut_next (tame_takeNext h ..)
theorem tame_execRefuteRedirect (b g L : Nat) : TameOut k s (execRefuteRedirect b g L t) :=
  tameOut_next <| tame_ite (fun _ => tame_afterIssue (tame_redirectLane h ..) ..) fun _ => h
theorem tame_execSleepWake (b g L : Nat) : TameOut k s (execSleepWake b g L t) := tameOut_next (tame_sleepWake h ..)
theorem tame_execWaitevRelease (b g L : Nat) : TameOut k s (execWaitevRelease b g L t) := tameOut_next (tame_waitevWake h ..)

theorem tame_execScratchLinePresent (j n : Nat) : TameOut k s (execScratchLinePresent j n t) := by
  unfold execScratchLinePresent
  dsimp only
  split
  · exact tameOut_next h
  · exact tameOut_ite (fun _ => tameOut_next h) fun _ =>
      tameOut_next (tame_lineDone (tame_modJob (tame_foldl h (fun _ _ hu => tame_putChip hu ..) _) ..) ..)

theorem tame_execMulticastReadyMet (j : Nat) : TameOut k s (execMulticastReadyMet j t) := by
  unfold execMulticastReadyMet
  split
  · exact tameOut_next h
  · dsimp only
    split
    · exact tameOut_next h
    · exact tameOut_ite (fun _ => tameOut_next h) fun _ =>
        tameOut_next (tame_copyPump (tame_modJob (tame_foldl h (fun _ _ hu => tame_setReady hu ..) _) ..) ..)

theorem tame_execCopyComplete (j : Nat) : TameOut k s (execCopyComplete j t) := by
  unfold execCopyComplete
  split
  · exact tameOut_next h
  · refine tameOut_ite (fun _ => tameOut_next h) fun _ => tameOut_next (tame_pushAll ?_ ..)
    refine tame_foldl (tame_modBlock (tame_foldl (tame_ite (fun _ => h) fun _ => ?_) (fun _ _ hu => tame_modGroup hu (loads_pendSub ..)) _) rfl rfl rfl)
      (fun _ _ hu => tame_lineDone hu ..) _
    refine tame_foldl h (fun u r hu => ?_) _
    split
    exacts [tame_putChip hu .., hu]

end
end Sys2Proof.Machine
end

section
/-! PROOF. Every instruction and every event goes on and keeps memory in canonical form; so does every step of the machine. -/

set_option Elab.async false

namespace Sys2Proof.Machine

/-! ## Every arm of exec -/

theorem FormOut.word {s u : State} (h : Tame false s u) : FormOut s (.next u) := formOut_next h.form

theorem TameOut.form {s : State} {o : Out} (h : TameOut false s o) : FormOut s o := by
  obtain ⟨u, rfl, hu⟩ := h
  exact .word hu

theorem Proceeds.form {s : State} {o : Out} (h : Proceeds s o) : FormOut s o := by
  obtain ⟨u, rfl, hu, -⟩ := h
  exact formOut_next hu

open FormOut (word) in
theorem form_exec (i : Instr) (s : State) : FormOut s (exec i s) := by
  cases i with
  | bringupFwVerify _ _ => exact form_execBringupFwVerify (.refl _) ..
  | bringupStacksTrained _ _ => exact form_execBringupStacksTrained (.refl _) ..
  | sensorSample _ _ _ => exact form_execSensorSample (.refl _) ..
  | powerAverageCheck _ => exact form_execPowerAverageCheck (.refl _) ..
  | powerOverrunRecheck _ => exact form_execPowerOverrunRecheck (.refl _) ..
  | ctSyncMarker _ _ => exact form_execCtSyncMarker (.refl _) ..
  | baseDieRequest _ _ => exact form_execBaseDieRequest (.refl _) ..
  | victimFill _ _ => exact form_execVictimFill (.refl _) ..
  | discardByHypothesis _ _ => exact form_execDiscardByHypothesis (.refl _) ..
  | dramRequestServed _ _ _ => exact form_execDramRequestServed (.refl _) ..
  | frugalHoldRelease _ _ => exact form_execFrugalHoldRelease (.refl _) ..
  | refreshDue _ _ _ => exact form_execRefreshDue (.refl _) ..
  | patrolScrub _ _ _ => exact form_execPatrolScrub (.refl _) ..
  | toggleWindowEnd _ _ _ _ _ => exact form_execToggleWindowEnd (.refl _) ..
  | codeSwitchDone _ => exact form_execCodeSwitchDone (.refl _) ..
  | channelRetrainDone _ _ _ => exact form_execChannelRetrainDone (.refl _) ..
  | fabricPacketReceive _ _ => exact form_execFabricPacketReceive (.refl _) ..
  | fabricRequestServe _ => exact form_execFabricRequestServe (.refl _) ..
  | fabricResponseReceive _ => exact form_execFabricResponseReceive (.refl _) ..
  | linkBlockSend _ => exact form_execLinkBlockSend (.refl _) ..
  | linkBlockReceive _ _ _ _ _ => exact form_execLinkBlockReceive (.refl _) ..
  | linkAckReceive _ _ => exact form_execLinkAckReceive (.refl _) ..
  | linkNakReceive _ _ => exact form_execLinkNakReceive (.refl _) ..
  | vcStopSignal _ _ _ => exact form_execVcStopSignal (.refl _) ..
  | fabricBucketRefill _ => exact form_execFabricBucketRefill (.refl _) ..
  | l2BucketRefill _ => exact form_execL2BucketRefill (.refl _) ..
  | peerRequestTimeout _ => exact form_execPeerRequestTimeout (.refl _) ..
  | peerResetNotice _ => exact form_execPeerResetNotice (.refl _) ..
  | portTrainingDone _ _ _ => exact form_execPortTrainingDone (.refl _) ..
  | portTrainingTimeout _ => exact form_execPortTrainingTimeout (.refl _) ..
  | linkRecalLaneDone _ _ => exact form_execLinkRecalLaneDone (.refl _) ..
  | cxlMemRead _ => exact form_execCxlMemRead (.refl _) ..
  | cxlMemWrite _ _ => exact form_execCxlMemWrite (.refl _) ..
  | bisnpResponse _ => exact form_execBisnpResponse (.refl _) ..
  | hostLineSnoop _ => exact form_execHostLineSnoop (.refl _) ..
  | chanCfgWrite _ _ _ => exact form_execChanCfgWrite (.refl _) ..
  | chanDoorbell _ _ _ => exact form_execChanDoorbell (.refl _) ..
  | chanHaltedClear _ _ => exact form_execChanHaltedClear (.refl _) ..
  | chanSkip _ _ => exact form_execChanSkip (.refl _) ..
  | recordAtHead _ _ => exact form_execRecordAtHead (.refl _) ..
  | recordSeqRecheck _ _ => exact form_execRecordSeqRecheck (.refl _) ..
  | syncWordPollHost _ _ => exact form_execSyncWordPollHost (.refl _) ..
  | recordStart _ _ => exact form_execRecordStart (.refl _) ..
  | markerSignal _ _ => exact form_execMarkerSignal (.refl _) ..
  | gangPlace _ => exact form_execGangPlace (.refl _) ..
  | gangPreempt _ _ => exact form_execGangPreempt (.refl _) ..
  | preemptSaveDone _ _ => exact form_execPreemptSaveDone (.refl _) ..
  | gangResume _ _ => exact form_execGangResume (.refl _) ..
  | itemRefill _ => exact form_execItemRefill (.refl _) ..
  | groupEnd _ _ => exact form_execGroupEnd (.refl _) ..
  | blockEnd _ => exact form_execBlockEnd (.refl _) ..
  | contextComplete _ => exact form_execContextComplete (.refl _) ..
  | l2StoreAccept _ => exact form_execL2StoreAccept (.refl _) ..
  | l2StoreApply _ => exact form_execL2StoreApply (.refl _) ..
  | l2LoadServe _ _ => exact form_execL2LoadServe (.refl _) ..
  | l2Eviction _ => exact formOut_next (keeps_evictKey (.refl s) _)
  | leaseExpiry _ _ => exact form_execLeaseExpiry (.refl _) ..
  | loadReplyArrival _ => exact form_execLoadReplyArrival (.refl _) ..
  | waitLimitExpiry _ _ _ _ => exact form_execWaitLimitExpiry (.refl _) ..
  | writeCompletionReturn _ => exact form_execWriteCompletionReturn (.refl _) ..
  | translationWalkDone _ _ _ => exact form_execTranslationWalkDone (.refl _) ..
  | scratchLinePresent _ _ => exact (tame_execScratchLinePresent (.refl ..) ..).form
  | multicastReadyMet _ => exact (tame_execMulticastReadyMet (.refl ..) ..).form
  | copyComplete _ => exact (tame_execCopyComplete (.refl ..) ..).form
  | mmaAccept _ _ _ => exact (tame_execMmaAccept (.refl ..) ..).form
  | mmaReadCycle _ => exact (tame_execMmaReadCycle (.refl ..) ..).form
  | mmaCommandDone _ => exact (tame_execMmaCommandDone (.refl ..) ..).form
  | resolveEgressDrained _ => exact form_execResolveEgressDrained (.refl _) ..
  | resolveEffect _ => exact form_execResolveEffect (.refl _) ..
  | hypIdRetire _ _ => exact form_execHypIdRetire (.refl _) ..
  | refuteRedirect _ _ _ => exact (tame_execRefuteRedirect (.refl ..) ..).form
  | machineCheckTaken _ _ => exact (tame_execMachineCheckTaken (.refl ..) ..).form
  | hostLinkTrap _ _ => exact (tame_execHostLinkTrap (.refl ..) ..).form
  | sleepWake _ _ _ => exact (tame_execSleepWake (.refl ..) ..).form
  | waitevRelease _ _ _ => exact (tame_execWaitevRelease (.refl ..) ..).form
  | powerCmdRun _ => exact form_execPowerCmdRun (.refl _) ..
  | dirtyLogCfgWrite _ _ => exact form_execDirtyLogCfgWrite (.refl _) ..
  | faultRingCfgWrite _ _ => exact form_execFaultRingCfgWrite (.refl _) ..
  | tlbinvAddrPage _ _ => exact form_execTlbinvAddrPage (.refl _) ..
  | tlbinvAddrAll _ => exact form_execTlbinvAddrAll (.refl _) ..
  | tlbInvalidationAck _ => exact form_execTlbInvalidationAck (.refl _) ..
  | faultReplyRetry _ _ => exact form_execFaultReplyRetry (.refl _) ..
  | faultReplyAbort _ _ => exact form_execFaultReplyAbort (.refl _) ..
  | missCountRead _ _ => exact form_execMissCountRead (.refl _) ..
  | chStatusRead _ => exact form_execChStatusRead (.refl _) ..
  | fabPortStatusRead _ => exact form_execFabPortStatusRead (.refl _) ..
  | memLatencyShapeRead _ => exact form_execMemLatencyShapeRead (.refl _) ..
  | registerWrite _ _ _ => exact form_execRegisterWrite (.refl _) ..
  | mboxUnknownCmd _ => exact form_execMboxUnknownCmd (.refl _) ..
  | attest _ => exact form_execAttest (.refl _) ..
  | fwStage _ _ _ _ => exact form_execFwStage (.refl _) ..
  | fwSelfTestDone _ => exact form_execFwSelfTestDone (.refl _) ..
  | coreDrainComplete _ => exact form_execCoreDrainComplete (.refl _) ..
  | iadd _ | isub _ | imul _ | imulh _ | imin _ | imax _ | shl _ | shr _ | shra _ | and _ | or _ | xor _ | unpk _ =>
    exact word (tame_alu2 (.refl ..) ..)
  | iaddc _ | isubb _ => exact word (tame_carryWord (.refl ..) ..)
  | imad _ | fshf _ | bfunc _ | bfi _ | plop _ => exact word (tame_alu3 (.refl ..) ..)
  | iabs _ | ineg _ | not _ | popc _ | clz _ | brev _ | fclass _ => exact word (tame_alu1 (.refl ..) ..)
  | dp4 _ | lea _ | bfx _ | pack _ => exact word (tame_ite (fun _ => tame_alu3 (.refl ..) ..) fun _ => tame_alu2 (.refl ..) ..)
  | mov _ => exact (proceeds_execMov ..).form
  | movi _ | cvti _ | frnd _ => exact word (tame_runWord (.refl ..) _ _ _ fun _ => tameRes_aluBody (.refl ..) ..)
  | bra _ | brx _ | ret _ => exact word (tame_jumpWord (.refl ..) _ _ _ _ fun _ _ _ hu => hu)
  | call _ => exact word (tame_jumpWord (.refl ..) _ _ _ _ fun _ _ _ hu => tame_putD hu ..)
  | exit _ => exact (tame_execExit (.refl ..) ..).form
  | rejoin _ => exact (tame_execRejoin (.refl ..) ..).form
  | yield _ => exact (tame_execYield (.refl ..) ..).form
  | nop _ => exact (tame_execNop (.refl ..) ..).form
  | ipop _ => exact (tame_execIpop (.refl ..) ..).form
  | icmp _ | fcmp _ => exact word (tame_compareWord (.refl ..) ..)
  | sel _ => exact (tame_execSel (.refl ..) ..).form
  | fadd _ | fsub _ | fmul _ | fmin _ | fmax _ | dadd _ | dmul _ | faddPacked8 _ | fsubPacked8 _ | fmulPacked8 _ | fminPacked8 _
  | fmaxPacked8 _ => exact word (tame_fp2 (.refl ..) ..)
  | ffma _ | dfma _ | ffmaPacked8 _ => exact word (tame_fp3 (.refl ..) ..)
  | frcp _ | frsq _ | fsqrt _ | fex2 _ | flg2 _ | fsin _ | fcos _ | ftanh _ => exact word (tame_fp1 (.refl ..) ..)
  | cvt _ => exact (proceeds_execCvt ..).form
  | scale _ => exact (proceeds_execScale ..).form
  | ld _ | lds _ | ldc _ | lda _ => exact word (tame_loadWord (.refl ..) ..)
  | pref _ => exact (proceeds_execPref ..).form
  | ptest _ => exact (tame_execPtest (.refl ..) ..).form
  | st _ | sts _ | sta _ => exact word (tame_storeWord (.refl ..) ..)
  | cwb _ | cinv _ => exact word (tame_rangeWord (.refl ..) ..)
  | gtest _ => exact (tame_execGtest (.refl ..) ..).form
  | demand _ => exact (tame_execDemand (.refl ..) ..).form
  | accept _ | gmark _ => exact word (tame_markWord (.refl ..) ..)
  | atom _ | red _ => exact word (tame_atomWord (.refl ..) ..)
  | fence _ => exact (tame_execFence (.refl ..) ..).form
  | bari _ => exact (tame_execBari (.refl ..) ..).form
  | barv _ => exact (tame_execBarv (.refl ..) ..).form
  | barw _ => exact (tame_execBarw (.refl ..) ..).form
  | bart _ => exact (tame_execBart (.refl ..) ..).form
  | boinit _ => exact (tame_execBoinit (.refl ..) ..).form
  | sleepRel _ | sleepAbs _ => exact word (tame_sleepWord (.refl ..) ..)
  | clkCt _ | clkCyc _ => exact word (tame_clkWord (.refl ..) ..)
  | shfl _ => exact (proceeds_execShfl ..).form
  | vote _ | matchLanes _ | rdx _ | scan _ | elect _ => exact word (tame_crossWord (.refl ..) _ _ _ fun _ _ _ hu => tame_crossPut hu ..)
  | qswp _ | qbc _ => exact word (tame_quadWord (.refl ..) ..)
  | hopen _ | hopenG _ => exact word (tame_openWord (.refl ..) ..)
  | hset _ => exact (tame_execHset (.refl ..) ..).form
  | hleave _ => exact (tame_execHleave (.refl ..) ..).form
  | hresolveConfirm _ | hresolveRefute _ => exact word (tame_resolveWord (.refl ..) ..)
  | hquery _ => exact (tame_execHquery (.refl ..) ..).form
  | mma _ => exact (tame_execMma (.refl ..) ..).form
  | tkpassClaim _ => exact (tame_execTkpassClaim (.refl ..) ..).form
  | tkpassMat _ | tkpassFree _ => exact word (tame_moveToken (.refl ..) ..)
  | tkpassVec _ => exact (tame_execTkpassVec (.refl ..) ..).form
  | tktest _ => exact (tame_execTktest (.refl ..) ..).form
  | copyTload _ | copyTstore _ | copyLin _ | copyMcast _ => exact word (tame_copyWord (.refl ..) ..)
  | qtry _ => exact (tame_execQtry (.refl ..) ..).form
  | qcnt _ => exact (tame_execQcnt (.refl ..) ..).form
  | srd _ => exact (tame_execSrd (.refl ..) ..).form
  | swr _ => exact (tame_execSwr (.refl ..) ..).form
  | trap _ | bkpt _ => exact word (tame_softTrap (.refl ..) ..)
  | rte _ | rteNext _ => exact word (tame_rteWord (.refl ..) ..)
  | tlbinvPage _ | tlbinvAll _ => exact word (tame_tlbinvWord (.refl ..) ..)
  | waitev _ => exact (tame_execWaitev (.refl ..) ..).form
  | perfStart _ | perfStop _ | perfClear _ => exact word (tame_perfWord (.refl ..) ..)
  | bblog _ => exact (tame_execBblog (.refl ..) ..).form
  | pairWord _ => exact (proceeds_execPairWord ..).form
  | programRecordDue _ => exact (tame_execProgramRecordDue (.refl ..) ..).form
  | fabricWriteAckSend _ => exact form_execFabricWriteAckSend (.refl _) ..
  | rdownResponse _ => exact form_execRdownResponse (.refl _) ..
  | coldReset => exact form_execColdReset (.refl _) ..
  | warmReset => exact form_execWarmReset (.refl _) ..
  | linkHotReset => exact form_execLinkHotReset (.refl _) ..
  | bringupPllLock => exact form_execBringupPllLock (.refl _) ..
  | bringupCxlTrained => exact form_execBringupCxlTrained (.refl _) ..
  | bringupCoresReady => exact form_execBringupCoresReady (.refl _) ..
  | thermtripNInput => exact form_execThermtripNInput (.refl _) ..
  | powerTransitionDone => exact form_execPowerTransitionDone (.refl _) ..
  | powerCmdHold => exact form_execPowerCmdHold (.refl _) ..
  | powerCmdStandby => exact form_execPowerCmdStandby (.refl _) ..
  | d3hotEntry => exact form_execD3hotEntry (.refl _) ..
  | errLogPop => exact form_execErrLogPop (.refl _) ..
  | firstErrorRead => exact form_execFirstErrorRead (.refl _) ..
  | ctStatusRead => exact form_execCtStatusRead (.refl _) ..
  | partSet => exact form_execPartSet (.refl _) ..
  | partClear => exact form_execPartClear (.refl _) ..
  | identity => exact form_execIdentity (.refl _) ..
  | fwSwap => exact form_execFwSwap (.refl _) ..
  | chRetrain => exact form_execChRetrain (.refl _) ..
  | linkRecal => exact form_execLinkRecal (.refl _) ..
  | coreDrain => exact form_execCoreDrain (.refl _) ..
  | coreRestore => exact form_execCoreRestore (.refl _) ..
  | bbRead => exact form_execBbRead (.refl _) ..
  | errClear => exact form_execErrClear (.refl _) ..
  | fabTrain => exact form_execFabTrain (.refl _) ..
  | fabKeyFirst => exact form_execFabKeyFirst (.refl _) ..
  | fabKeyStageReceive => exact form_execFabKeyStageReceive (.refl _) ..
  | fabKeyStageTransmit => exact form_execFabKeyStageTransmit (.refl _) ..
  | fabQuiesce => exact form_execFabQuiesce (.refl _) ..
  | fabSession => exact form_execFabSession (.refl _) ..
  | freeze => exact form_execFreeze (.refl _) ..
  | freezeImageDone => exact form_execFreezeImageDone (.refl _) ..
  | resume => exact form_execResume (.refl _) ..
  | cxlLinkRetrained => exact form_execCxlLinkRetrained (.refl _) ..

/-! ## Issue -/

theorem FormOut.trans {s t : State} {o : Out} (h : KeepsForm s t) (ho : FormOut t o) : FormOut s o := by
  obtain ⟨u, rfl, hu⟩ := ho
  exact formOut_next (h.trans hu)

section
variable {ex : Instr → State → Out} (hex : ∀ i s, FormOut s (ex i s)) {s t : State} (h : KeepsForm s t)
include h

theorem keeps_oweFirst (e : Grp) : KeepsForm s (oweFirst ex t e) := by
  unfold oweFirst
  dsimp only
  split
  · exact keeps_ite (fun _ => h) fun _ => keeps_modCore h
  · exact h

theorem keeps_noteQueue (b n : Nat) (y : Bool) (q : Nat) : KeepsForm s (noteQueue t b n y q) := h.tame (tame_noteQueue (.refl false _) ..)
theorem keeps_takePend (b g : Nat) (p : PendTrap) : KeepsForm s (takePend t b g p) := h.tame (tame_takePend (.refl false _) ..)
theorem keeps_redirectAll (b g : Nat) : KeepsForm s (redirectAll t b g) := h.tame (tame_redirectAll (.refl false _) ..)
theorem keeps_wakeCore (c : Nat) : KeepsForm s (wakeCore t c) := h.tame (tame_wakeCore (.refl false _) _)

theorem keeps_quietStep (e : Grp) : KeepsForm s (quietStep t e) := by
  refine keeps_ite (fun _ => h) fun _ => ?_
  split
  · exact keeps_takePend h ..
  · refine keeps_ite (fun _ => keeps_redirectAll h ..) fun _ => keeps_ite (fun _ => h) fun _ => ?_
    split
    · next hu => exact keeps_fetchFor_done h hu
    · exact h

include hex

omit h in
/-- A word on a state in which the memories are in canonical form. -/
theorem form_word {u : State} (hu : KeepsForm s u) (i : Instr) : FormOut s (ex i u) := .trans hu (hex i u)

theorem form_issueWord (i : Instr) (b g : Nat) : FormOut s (issueWord ex i t b g) := by
  unfold issueWord
  split
  · exact form_word hex h.same i
  · next n takes _ =>
    refine formOut_ite (fun _ => formOut_next h) fun _ => ?_
    have hf : KeepsForm s (if takes then t else oweFirst ex t (b, g)) := keeps_ite (fun _ => h) fun _ => keeps_oweFirst h _
    obtain ⟨u, hu, hk⟩ := form_word hex (KeepsForm.same hf (u := { (if takes then t else oweFirst ex t (b, g)) with focus := (b, g) })) i
    dsimp only
    rw [hu]
    exact formOut_next (keeps_ite (fun _ => hk) fun _ => keeps_noteQueue hk ..)

theorem form_issueStep (b g : Nat) : FormOut s (issueStep ex t b g) := by
  have hw := keeps_wakeCore h (t.block b).core
  refine formOut_ite (fun _ => formOut_next hw) fun _ => ?_
  split
  · exact formOut_next (keeps_takePend hw ..)
  · refine formOut_ite (fun _ => formOut_next (keeps_redirectAll hw ..)) fun _ => formOut_ite (fun _ => formOut_next hw) fun _ => ?_
    split
    · next hu => exact formOut_next (keeps_fetchFor_done hw hu)
    · next hu => exact formOut_ite (fun _ => form_issueWord hex (keeps_fetchFor_insn hw hu) ..) fun _ => formOut_next hw

/-! ## Cycles -/

theorem keeps_issueTurn (c : Nat) : KeepsForm s (issueTurn ex c t) := by
  unfold issueTurn
  split
  · exact h
  · next e _ =>
    obtain ⟨u, hu, hk⟩ := form_issueStep hex h e.grp.1 e.grp.2
    rw [hu]
    exact hk

theorem keeps_cycleIssue (c : Nat) : KeepsForm s (cycleIssue ex t c) :=
  keeps_foldl (keeps_foldl (keeps_wakeCore h c) (fun _ e hu => keeps_quietStep hu e) _) (fun _ _ hu => keeps_issueTurn hex hu c) _

omit hex in
theorem keeps_countCycle (c : Nat) : KeepsForm s (countCycle t c) :=
  keeps_foldl h (fun _ _ h1 => keeps_foldl h1 (fun _ _ h2 => keeps_modGroup h2) _) _

theorem keeps_coreCycle (c : Nat) : KeepsForm s (coreCycle ex t c) :=
  keeps_ite (fun _ => h) fun _ => keeps_countCycle (keeps_modCore ((keeps_cycleIssue hex h c).tame (tame_engineStep (.refl false _) c))) c

/-! ## Ticks -/

omit hex in
theorem keeps_channelDue (p c : Nat) : KeepsForm s (channelDue t p c) :=
  keeps_ite (fun _ => keeps_readHead h ..) fun _ => keeps_ite (fun _ => keeps_pollHost h ..) fun _ => h

omit h hex in
theorem FormOut.after {u : State} {o : Out} (ho : FormOut s o) : KeepsForm s (afterEvent u o) := by
  obtain ⟨v, rfl, hv⟩ := ho
  exact hv

omit hex in
theorem keeps_timesDue : KeepsForm s (timesDue t) := by
  have h1 := keeps_foldl h (f := fun s p => (tkeys (s.part p).chans).foldl (fun s c => channelDue s p c) s)
    (fun _ p hu => keeps_foldl hu (fun _ c hv => keeps_channelDue hv p c) _) (tkeys t.parts)
  refine keeps_foldl (keeps_foldl (keeps_foldl h1 (fun _ _ hu => ?_) _) (fun _ _ hu => ?_) _) (fun _ _ hu => ?_) _
  · exact (form_execPortTrainingTimeout hu _).after
  · exact (form_execPeerRequestTimeout hu _).after
  · exact hu.tame (tame_execProgramRecordDue (.refl ..) _).after

theorem keeps_finishTick : KeepsForm s (finishTick ex t) := by
  have h1 := keeps_foldl h (f := coreCycle ex) (fun _ c hu => keeps_coreCycle hex hu c) (List.range Config.cores)
  have h2 := keeps_expireDue (keeps_deliverShaped h1)
  have h3 := keeps_foldl h2 (f := resolveDue) (fun _ x hu => keeps_resolveDue hu x)
  exact keeps_collect (keeps_timesDue (keeps_foldl (h3 _) (fun _ _ hu => keeps_switchEnd (keeps_windowEnd hu ..) _) _))

omit hex in
theorem keeps_startMicrosecond : KeepsForm s (startMicrosecond t) :=
  keeps_ite (fun _ => h) fun _ => keeps_foldl (keeps_foldl h.same (fun _ p hu => (form_execFabricBucketRefill hu p).after) _)
    (fun _ n hu => (form_execL2BucketRefill hu n).after) _

omit hex in
theorem keeps_startTick : KeepsForm s (startTick t) := by
  have h1 := keeps_foldl h (f := resolveDue) (fun _ x hu => keeps_resolveDue hu x) (tkeys t.hctxs)
  have h2 := keeps_foldl h1 (f := fun s c => if running s then wakeCore s c else s) (fun _ c hu => keeps_ite (fun _ => keeps_wakeCore hu c) fun _ => hu)
  exact (h2 _).tame (tame_lateTruths (.refl false _))

omit hex in
theorem keeps_atTime (n : Nat) : KeepsForm s { t with ct := n } := h.same

theorem keeps_tickCt : KeepsForm s (tickCt ex t) := by
  refine keeps_ite (fun _ => ?_) fun _ => h
  have hf := keeps_finishTick hex h
  generalize finishTick ex t = u at hf ⊢
  have hn : KeepsForm s { u with
      ct := u.ct + 1
      pkg := { advanceClock u.pkg with off0 := drift u.pkg.off0 u.pkg.tgt0, off1 := drift u.pkg.off1 u.pkg.tgt1 } } := hf.same
  exact keeps_atTime (keeps_startTick (keeps_startMicrosecond hn)) _

/-! ## Steps -/

omit hex in
theorem keeps_hostStoreOwn (a : Nat) (bs : List Byte) : KeepsForm s (hostStoreOwn t a bs) := keeps_ite (fun _ => h) fun _ => keeps_putHost h _

theorem form_runSched (x : Sched) : FormOut s (runSched ex x t) := by
  cases x with
  | event i => exact form_word hex h i
  | issue b g => exact form_issueStep hex h b g
  | tick => exact formOut_next (keeps_tickCt hex h)
  | cycle c => exact formOut_next (keeps_coreCycle hex h c)
  | perform r => exact formOut_next (keeps_performReq h r)
  | sram c f => exact formOut_next (keeps_sramCore h c f)
  | l2Sram key sect lost => exact formOut_next (keeps_l2Sram h key sect lost)
  | hostStore pa bytes => exact formOut_next (keeps_hostStoreOwn h pa bytes)
  | cfgRead fn off => exact formOut_next (keeps_hostCfgRead h fn off)
  | cfgWrite fn off value => exact formOut_next (keeps_hostCfgWrite h fn off value)
  | msixWrite fn vector addr data => exact formOut_next (keeps_hostMsixWrite h fn vector addr data)
  | hdmRead hpa => exact form_hostHdmRead h hpa
  | hdmWrite hpa bytes => exact form_hostHdmWrite h hpa bytes

end

/-- Taking a step off the schedule touches no memory. -/
theorem keeps_takeStep (s : State) : KeepsForm s (takeStep s).2 := by
  unfold takeStep
  dsimp only
  split
  exacts [KeepsForm.same (.refl s), KeepsForm.same (.refl s)]

theorem form_step (s : State) : FormOut s (step s) := form_runSched form_exec (keeps_takeStep s) _

/-- Settles O35: every event's and every word's answer is a next state, by the same pass that shows what it keeps of memory. -/
theorem everyStepGoesOn : Obligations.EveryStepGoesOn := fun s => by
  obtain ⟨u, hu, -⟩ := form_step s
  exact ⟨u, hu⟩

/-- Settles O43: whatever a step does, it writes the memories byte by byte through `putByte` and `putHost`, which keep the canonical
form, or not at all; resets empty them. -/
theorem memoryStaysCanonical : Obligations.MemoryStaysCanonical := fun s u hm hh hu => by
  obtain ⟨v, hv, hk⟩ := form_step s
  obtain rfl := Host.Outcome.next.inj (hu.symm.trans hv)
  exact ⟨hk.mem hm, hk.host hh⟩


end Sys2Proof.Machine
end

section
/-! PROOF. A range write-back whose mark of a page-table entry falls into the root table of a partition (R131, R151, R153, R286). -/

set_option Elab.async false

namespace Sys2Proof.Machine

/-! ## A root table off an 8-byte boundary

The model lets a partition's root lie anywhere. Where it lies one byte past a leaf entry, the first root entry shares the byte in which that
leaf's ACC stands. A word that marks the leaf then sets a reserved bit of the root entry: no page is mapped any more, and the word's lanes
stop at the pad word after it, which they would have passed over in the code as it was. -/

/-- The block of `loggedPad`, under tables whose root entry is the byte string from 0x4049 on: table 0x2000. The leaf entry of page 9, at
0x4048, names a page of host memory, ACC clear; a pad word follows the word at 0x8000. -/
def crookedRoot : State :=
  putNum (putNum (tinyMemory [] { State.reset with
    blocks := [(0, { resident := true, groups := [(0, beforePad)] })]
    ctxs := [(0, { live := true, record := { regs := 512, scalars := 128, scratch := 4096, limit := 1024, lease := 1024, ngrp := 1, nblk := 1 } })]
    parts := [(0, { set := true, coreMask := 1, granN := 1, root := 0x4049 })] })
    0x4048 8 0x2001B9) 0x8010 4 3

def cwbV4 : Insn := { form := .m, a := 4, b := 8 }
def cwbIss : Iss := withGuard crookedRoot { pc := 0x8000, iss := 1, len := 16 } cwbV4.g

theorem cwbV4_issues : Issues 0x83 cwbV4 noBump crookedRoot cwbIss :=
  ⟨{ pc := 0x8000, iss := 1, len := 16 }, by decide +kernel, by decide +kernel, by decide +kernel, by decide +kernel, by decide +kernel, by decide +kernel, rfl,
    by decide +kernel⟩

/-- The pad word at 0x8010 is passed over in the code as it was. -/
theorem crookedRoot_landing : landing crookedRoot 0 0x8010 = 0x8014 := by decide +kernel

/-- The word's lane stops at it: the code page is no longer mapped. -/
theorem cwbV4_place : placeOfLane0 (exec (.cwb cwbV4) crookedRoot) = some 0x8010 := by decide +kernel

/-- Refutes O21: the lane of a CWB does not stand where it falls through to in the code as it was, since the mark of its page's entry
unmaps the code. -/
theorem not_cacheWords : ¬Obligations.CacheWords := by
  intro h
  obtain ⟨-, hcwb, -, -⟩ := h cwbV4
  obtain ⟨u, hu, ⟨hfall, -⟩⟩ := hcwb crookedRoot cwbIss cwbV4_issues ⟨show escapes _ _ true _ = 0 by decide +kernel, by decide +kernel⟩
  have h0 : ((u.group 0 0).lane 0).lpc = w64 (landing crookedRoot 0 0x8010) := hfall 0 (by decide) (by decide)
  have h1 := cwbV4_place
  rw [hu, placeOfLane0, h0, crookedRoot_landing] at h1
  exact absurd h1 (by decide)

end Sys2Proof.Machine
end
